-- ==== Sys2Proof/Word.lean ====
section
/-! DEFINITION. The word types of the Teore 9 and the register-number types of its instruction words. -/

namespace Sys2Proof

/-- A scalar register or an address (R73). -/
abbrev Word := BitVec 64

/-- One byte of memory (R4). -/
abbrev Byte := BitVec 8

/-- One 128-byte row (R192), byte 0 in the lowest bits (R4). -/
abbrev Row := BitVec 1024

/-- A scalar register number s0 to s31 (R47). -/
abbrev Reg := BitVec 5

/-- A handle number h0 to h15. -/
abbrev HReg := BitVec 4

/-- A mask register number m0 to m7. -/
abbrev MReg := BitVec 3

/-- A flag number f0 to f63, a tensor number t0 to t63 or a vector register number v0 to v63. -/
abbrev Ix6 := BitVec 6

/-- A 48-bit engine word (R54). -/
abbrev EWord := BitVec 48

end Sys2Proof
end

