-- ==== Sys2Proof/Machine/Num.lean ====
section
/-! DEFINITION. Lane arithmetic (R24 to R45): exact values, rounding, exact sums, the formats and their codes, the
elementary functions of R143 and the reduction tree. Every result is exact or rounded once. -/

namespace Sys2Proof.Machine

/-! ## Exact values -/

/-- The exact number m × 2^e / q, with q positive. -/
structure Num where
  m : Int
  e : Int := 0
  q : Nat := 1
  deriving DecidableEq, Repr, Inhabited

/-- An exact value of R25 and R35: NaN, an infinity or a zero with its sign, or a nonzero number. -/
inductive Val where
  | nan
  | inf (neg : Bool)
  | zero (neg : Bool)
  | num (x : Num)
  deriving DecidableEq, Repr, Inhabited

/-- 2^k for a possibly negative k, used only where k is not negative. -/
def pow2 (k : Int) : Int := 2 ^ k.toNat

/-- A number as a value; zero takes the sign given. -/
def Val.ofNum (x : Num) (zeroNeg : Bool := false) : Val := if x.m = 0 then .zero zeroNeg else .num x

/-- An integer as a value; zero is +0. -/
def Val.ofInt (n : Int) : Val := Val.ofNum { m := n }

/-- The exact number that a finite value stands for. -/
def Val.toNum : Val → Num
  | .num x => x
  | _ => { m := 0 }

/-- Exact sum of two numbers. -/
def Num.add (a b : Num) : Num :=
  let e := min a.e b.e
  { m := a.m * pow2 (a.e - e) * b.q + b.m * pow2 (b.e - e) * a.q, e := e, q := a.q * b.q }

/-- Exact negation. -/
def Num.neg (a : Num) : Num := { a with m := -a.m }

/-- Exact product. -/
def Num.mul (a b : Num) : Num := { m := a.m * b.m, e := a.e + b.e, q := a.q * b.q }

/-- Exact quotient by a nonzero number. -/
def Num.div (a b : Num) : Num :=
  let s : Int := if b.m < 0 then -1 else 1
  { m := a.m * s * b.q, e := a.e - b.e, q := a.q * b.m.natAbs }

/-- Exact absolute value. -/
def Num.abs (a : Num) : Num := { a with m := a.m.natAbs }

/-- Exact comparison. -/
def Num.lt (a b : Num) : Bool := decide ((a.add b.neg).m < 0)

/-- Exact scaling by a power of two. -/
def Num.scale (a : Num) (k : Int) : Num := { a with e := a.e + k }

/-- floor(log2 |x|) of a nonzero number. -/
def Num.log2 (x : Num) : Int :=
  let a := x.m.natAbs
  let k0 : Int := (Nat.log2 a : Int) - (Nat.log2 x.q : Int) - 1
  -- a / q lies in [2^k0, 2^(k0+2))
  let k1 := k0 + 1
  let ge := if 0 ≤ k1 then (x.q : Int) * pow2 k1 ≤ (a : Int) else (x.q : Int) ≤ (a : Int) * pow2 (-k1)
  (if ge then k1 else k0) + x.e

/-- ceil(log2 x) of a positive number. -/
def Num.ceilLog2 (x : Num) : Int :=
  let k := x.log2
  if (x.add { m := -1, e := k }).m = 0 then k else k + 1

/-- Integer part and the remainder over its divisor of |x| / 2^u. -/
def Num.split (x : Num) (u : Int) : Nat × Nat × Nat :=
  let d := x.e - u
  let n := x.m.natAbs * (pow2 d).natAbs
  let q := x.q * (pow2 (-d)).natAbs
  (n / q, n % q, q)

/-- The negative of a value (R142). -/
def Val.neg : Val → Val
  | .nan => .nan
  | .inf s => .inf (!s)
  | .zero s => .zero (!s)
  | .num x => .num x.neg

/-- The absolute value. -/
def Val.abs : Val → Val
  | .nan => .nan
  | .inf _ => .inf false
  | .zero _ => .zero false
  | .num x => .num x.abs

/-- Whether a value carries a minus sign. -/
def Val.isNeg : Val → Bool
  | .nan => false
  | .inf s => s
  | .zero s => s
  | .num x => decide (x.m < 0)

/-- Whether a value is NaN. -/
def Val.isNan : Val → Bool
  | .nan => true
  | _ => false

/-- Whether a value is finite. -/
def Val.isFinite : Val → Bool
  | .zero _ => true
  | .num _ => true
  | _ => false

/-- The exact product: an infinity times a zero is NaN, the sign is the exclusive OR (R37, R142, R231). -/
def Val.mul (a b : Val) : Val :=
  match a, b with
  | .nan, _ => .nan
  | _, .nan => .nan
  | .inf s, .zero _ => if s then .nan else .nan
  | .zero s, .inf _ => if s then .nan else .nan
  | .inf s, y => .inf (s != y.isNeg)
  | x, .inf s => .inf (s != x.isNeg)
  | .zero s, y => .zero (s != y.isNeg)
  | x, .zero s => .zero (s != x.isNeg)
  | .num x, .num y => .num (x.mul y)

/-- x < y as real numbers, −0 = +0; false with a NaN (R145). -/
def Val.lt (a b : Val) : Bool :=
  match a, b with
  | .nan, _ => false
  | _, .nan => false
  | .inf s, .inf t => s && !t
  | .inf s, _ => s
  | _, .inf t => !t
  | x, y => x.toNum.lt y.toNum

/-- x = y as real numbers, −0 = +0; false with a NaN (R145). -/
def Val.eqv (a b : Val) : Bool := !a.isNan && !b.isNan && !(a.lt b) && !(b.lt a)

/-- The lesser for `vmin` (R142): −0 is less than +0, a NaN operand gives NaN. -/
def Val.minNode (a b : Val) : Val :=
  if a.isNan || b.isNan then .nan
  else if a.lt b then a else if b.lt a then b else if a.isNeg then a else b

/-- The greater for `vmax` (R142). -/
def Val.maxNode (a b : Val) : Val :=
  if a.isNan || b.isNan then .nan
  else if a.lt b then b else if b.lt a then a else if a.isNeg then b else a

/-! ## Rounding (R34) -/

/-- A rounding mode with the hash h of RSD: `Mix(SEED xor key)`. -/
structure Rnd where
  mode : Nat := 0
  h : Nat := 0
  deriving DecidableEq, Repr, Inhabited

/-- Round to nearest even. -/
def rne : Rnd := {}

/-- Mix (R34). -/
def mix (x : BitVec 32) : BitVec 32 :=
  let a := (x ^^^ (x >>> 16)) * 0x7FEB352D#32
  let b := (a ^^^ (a >>> 15)) * 0x846CA68B#32
  b ^^^ (b >>> 16)

/-- The rounding that an engine word's mode field selects for a result element with a key (R34). -/
def rndOf (mode : BitVec 3) (seed : BitVec 32) (key : Nat) : Rnd :=
  { mode := mode.toNat, h := (mix (seed ^^^ BitVec.ofNat 32 key)).toNat }

/-- Whether the magnitude n + r/q rounds up to n + 1 (R34); `neg` is the sign of x. -/
def roundUp (rnd : Rnd) (neg : Bool) (n r q : Nat) : Bool :=
  if r = 0 then false
  else match rnd.mode with
  | 0 => decide (q < 2 * r) || (decide (2 * r = q) && n % 2 == 1)
  | 1 => false
  | 2 => neg
  | 3 => !neg
  | _ => if neg then !decide (rnd.h * q < (q - r) * 2 ^ 32) else decide (rnd.h * q < r * 2 ^ 32)

/-- The magnitude on the grid of spacing 2^u that rounding chooses. -/
def roundMag (rnd : Rnd) (x : Num) (u : Int) : Nat :=
  let (n, r, q) := x.split u
  if roundUp rnd (decide (x.m < 0)) n r q then n + 1 else n

/-- RoundTo(integer, mode, x) before any range limit (R35). -/
def roundInt (rnd : Rnd) (x : Num) : Int :=
  let n : Int := roundMag rnd x 0
  if x.m < 0 then -n else n

/-! ## Formats (R24, R25) -/

/-- The number formats of R24. -/
inductive Fmt where
  | f32 | f16 | b16 | e4 | e5 | i8 | i16 | i32 | i64 | n8
  | bx (b : Nat)
  | aq8
  deriving DecidableEq, Repr, Inhabited

/-- The format that a code names (R24). -/
def Fmt.ofCode (c : Nat) : Option Fmt :=
  match c with
  | 0x00 => some .f32
  | 0x01 => some .f16
  | 0x02 => some .b16
  | 0x03 => some .e4
  | 0x04 => some .e5
  | 0x08 => some .i8
  | 0x09 => some .i16
  | 0x0A => some .i32
  | 0x0B => some .i64
  | 0x0C => some .n8
  | 0x20 => some .aq8
  | c => if 0x12 ≤ c ∧ c ≤ 0x18 then some (.bx (c - 0x10)) else none

/-- Element width in bits (R24). -/
def Fmt.bits : Fmt → Nat
  | .f32 => 32 | .f16 => 16 | .b16 => 16 | .e4 => 8 | .e5 => 8
  | .i8 => 8 | .i16 => 16 | .i32 => 32 | .i64 => 64 | .n8 => 8
  | .bx b => b | .aq8 => 8

/-- The fields and limits of a floating format (R25). -/
structure FloatFmt where
  width : Nat
  mant : Nat
  bias : Int
  /-- code of the largest finite value -/
  maxCode : Nat
  hasInf : Bool
  nan : Nat
  deriving DecidableEq, Repr, Inhabited

/-- R25's table. -/
def Fmt.float : Fmt → Option FloatFmt
  | .f32 => some { width := 32, mant := 23, bias := 127, maxCode := 0x7F7FFFFF, hasInf := true, nan := 0x7FC00000 }
  | .f16 => some { width := 16, mant := 10, bias := 15, maxCode := 0x7BFF, hasInf := true, nan := 0x7E00 }
  | .b16 => some { width := 16, mant := 7, bias := 127, maxCode := 0x7F7F, hasInf := true, nan := 0x7FC0 }
  | .e4 => some { width := 8, mant := 3, bias := 7, maxCode := 0x7E, hasInf := false, nan := 0x7F }
  | .e5 => some { width := 8, mant := 2, bias := 15, maxCode := 0x7B, hasInf := true, nan := 0x7E }
  | _ => none

/-- The range of an integer format (R27). -/
def Fmt.range : Fmt → Int × Int
  | .i8 => (-128, 127)
  | .i16 => (-32768, 32767)
  | .i32 => (-2147483648, 2147483647)
  | .i64 => (-9223372036854775808, 9223372036854775807)
  | .n8 => (0, 255)
  | _ => (-128, 127)

/-- The value of a floating code (R25). -/
def FloatFmt.value (f : FloatFmt) (code : Nat) : Val :=
  let sign := decide (2 ^ (f.width - 1) ≤ code)
  let c := code % 2 ^ (f.width - 1)
  let ex := c / 2 ^ f.mant
  let fr := c % 2 ^ f.mant
  if c = 0 then .zero sign
  else if f.maxCode < c then (if f.hasInf && decide (c = f.maxCode + 1) then .inf sign else .nan)
  else
    let m : Int := if ex = 0 then fr else fr + 2 ^ f.mant
    let e : Int := (if ex = 0 then 1 else (ex : Int)) - f.bias - f.mant
    .num { m := if sign then -m else m, e := e }

/-- A two's-complement or unsigned integer of a format. -/
def intValue (f : Fmt) (code : Nat) : Int :=
  let c := code % 2 ^ f.bits
  if decide (f ≠ .n8) && decide (2 ^ (f.bits - 1) ≤ c) then (c : Int) - 2 ^ f.bits else c

/-- Value(fmt, bits) of R44 for the formats whose elements stand alone. -/
def Fmt.value (f : Fmt) (code : Nat) : Val :=
  match f.float with
  | some g => g.value (code % 2 ^ g.width)
  | none => Val.ofInt (intValue f code)

/-- The code of an integer in a width. -/
def intCode (bits : Nat) (n : Int) : Nat := (n % 2 ^ bits).toNat

/-- Clamps to a range. -/
def clampInt (lo hi x : Int) : Int := if x < lo then lo else if hi < x then hi else x

/-- Overflow of a floating format (R35): the code without its sign. -/
def FloatFmt.overflow (f : FloatFmt) (rnd : Rnd) (neg : Bool) : Nat :=
  if !f.hasInf then f.maxCode
  else match rnd.mode with
  | 1 => f.maxCode
  | 2 => if neg then f.maxCode + 1 else f.maxCode
  | 3 => if neg then f.maxCode else f.maxCode + 1
  | _ => f.maxCode + 1

/-- RoundTo for a floating format and a nonzero number: the code without its sign (R35). -/
def FloatFmt.roundMagCode (f : FloatFmt) (rnd : Rnd) (x : Num) : Nat :=
  let umin : Int := 1 - f.bias - f.mant
  let u := max umin (x.log2 - f.mant)
  let code := (u - umin).toNat * 2 ^ f.mant + roundMag rnd x u
  if f.maxCode < code then f.overflow rnd (decide (x.m < 0)) else code

/-- A code with a sign bit. -/
def FloatFmt.signed (f : FloatFmt) (neg : Bool) (code : Nat) : Nat :=
  if neg then code + 2 ^ (f.width - 1) else code

/-- RoundTo for a floating format (R35). -/
def FloatFmt.round (f : FloatFmt) (rnd : Rnd) : Val → Nat
  | .nan => f.nan
  | .inf s => f.signed s (if f.hasInf then f.maxCode + 1 else f.maxCode)
  | .zero s => f.signed s 0
  | .num x => f.signed (decide (x.m < 0)) (f.roundMagCode rnd x)

/-- RoundTo a range of integers (R35): NaN gives 0, the rest saturates. -/
def roundRange (lo hi : Int) (rnd : Rnd) : Val → Int
  | .nan => 0
  | .inf s => if s then lo else hi
  | .zero _ => 0
  | .num x => clampInt lo hi (roundInt rnd x)

/-- RoundTo(fmt, mode, x) (R35), for the formats whose elements stand alone. -/
def Fmt.roundTo (f : Fmt) (rnd : Rnd) (x : Val) : Nat :=
  match f.float with
  | some g => g.round rnd x
  | none => intCode f.bits (roundRange f.range.1 f.range.2 rnd x)

/-- CanonicalNaN(fmt) (R25). -/
def Fmt.canonicalNaN (f : Fmt) : Nat :=
  match f.float with
  | some g => g.nan
  | none => 0

/-! ## Sums (R37) -/

/-- The exact sum of finite terms. -/
def sumNum : List Val → Num
  | [] => { m := 0 }
  | x :: xs => x.toNum.add (sumNum xs)

/-- The exact value that ExactSum rounds (R37). -/
def exactSumVal (terms : List Val) : Val :=
  if terms.any Val.isNan then .nan
  else
    let pos := terms.any (fun t => decide (t = .inf false))
    let neg := terms.any (fun t => decide (t = .inf true))
    if pos && neg then .nan
    else if pos then .inf false
    else if neg then .inf true
    else
      let s := sumNum terms
      if s.m = 0 then .zero (!terms.isEmpty && terms.all (fun t => decide (t = .zero true)))
      else .num s

/-- ExactSum(fmt, mode, terms) (R37). -/
def exactSum (f : Fmt) (rnd : Rnd) (terms : List Val) : Nat := f.roundTo rnd (exactSumVal terms)

/-! ## Fixed-point elementary functions

Each works with `prec` fraction bits; the result is the exact value truncated, widened by half a unit so that an
inexact value is never taken for a point or a tie of a format's grid (log entry 14). -/

/-- Fraction bits of the fixed-point functions. -/
def prec : Nat := 420

/-- Integer square root, bit by bit from bit `k`. -/
def isqrtFrom (n : Nat) : Nat → Nat → Nat
  | 0, r => if (r + 1) * (r + 1) ≤ n then r + 1 else r
  | k + 1, r => isqrtFrom n k (if (r + 2 ^ (k + 1)) * (r + 2 ^ (k + 1)) ≤ n then r + 2 ^ (k + 1) else r)

/-- floor(√n). -/
def isqrt (n : Nat) : Nat := isqrtFrom n (Nat.log2 n / 2 + 1) 0

/-- √(a/b) × 2^k, truncated and marked inexact by half a unit when it is not exact. -/
def sqrtRatio (a b : Nat) (e : Int) : Num :=
  -- make the exponent even, then scale by 2^(2·prec)
  let (a, e) := if e % 2 = 0 then (a, e) else (2 * a, e - 1)
  let n := a * 2 ^ (2 * prec)
  let s := isqrt (n / b)
  if s * s * b = n then { m := s, e := e / 2 - prec } else { m := 2 * s + 1, e := e / 2 - prec - 1 }

/-- √x of a positive number. -/
def Num.sqrt (x : Num) : Num := sqrtRatio x.m.natAbs x.q x.e

/-- 1/√x of a positive number. -/
def Num.rsqrt (x : Num) : Num := sqrtRatio x.q x.m.natAbs (-x.e)

/-- Partial sums of atanh(1/3): t is 1/3^(2k+1), k counts up. -/
def atanhThird : Nat → Nat → Nat → Nat
  | 0, _, _ => 0
  | fuel + 1, k, t => t / (2 * k + 1) + atanhThird fuel (k + 1) (t / 9)

/-- ln 2 with `prec` fraction bits. -/
def ln2Fix : Nat := 2 * atanhThird 160 0 (2 ^ prec / 3)

/-- Partial sums of the exponential series: t is r^k / k!. -/
def expSeries (r : Nat) : Nat → Nat → Nat → Nat
  | 0, _, _ => 0
  | fuel + 1, k, t => t + expSeries r fuel (k + 1) (t * r / 2 ^ prec / (k + 1))

/-- e^r for 0 ≤ r < 1 in fixed point. -/
def expFix (r : Nat) : Nat := expSeries r 100 0 (2 ^ prec)

/-- A number in fixed point, rounded down. -/
def Num.toFix (x : Num) : Int :=
  let (n, r, _) := x.split (-(prec : Int))
  if x.m < 0 then -(n : Int) - (if r = 0 then 0 else 1) else n

/-- A positive fixed-point value times 2^k, marked inexact. -/
def inexactFix (v : Nat) (k : Int) : Num := { m := 2 * v + 1, e := k - prec - 1 }

/-- A number so large, or so small, that every format overflows, or rounds to zero. -/
def hugeNum : Num := { m := 1, e := 1200 }
/-- A number that rounds to zero in every format. -/
def tinyNum : Num := { m := 1, e := -1200 }

/-- 2^x. -/
def Num.exp2 (x : Num) : Num :=
  if x.m = 0 then { m := 1 }
  else if 11 ≤ x.log2 then (if x.m < 0 then tinyNum else hugeNum)
  else
    let (n, r, _) := x.split 0
    let fl : Int := if x.m < 0 then -(n : Int) - (if r = 0 then 0 else 1) else n
    if r = 0 then { m := 1, e := fl }
    else
      let f := (x.add { m := -fl }).toFix.toNat
      inexactFix (expFix (f * ln2Fix / 2 ^ prec)) fl

/-- e^x. -/
def Num.exp (x : Num) : Num :=
  if x.m = 0 then { m := 1 }
  else if 10 ≤ x.log2 then (if x.m < 0 then tinyNum else hugeNum)
  else if x.log2 < -200 then (if x.m < 0 then { m := 2 ^ 200 - 1, e := -200 } else { m := 2 ^ 200 + 1, e := -200 })
  else
    let f := x.toFix
    let k := f / ln2Fix
    inexactFix (expFix (f - k * ln2Fix).toNat) k

/-- Bits of log2 of y in [1, 2), y in fixed point with `prec` fraction bits, most significant first. -/
def log2Bits : Nat → Nat → Nat → Nat
  | 0, _, acc => acc
  | fuel + 1, y, acc =>
    let z := y * y / 2 ^ prec
    if 2 ^ (prec + 1) ≤ z then log2Bits fuel (z / 2) (2 * acc + 1) else log2Bits fuel z (2 * acc)

/-- Fraction bits that `log2` produces; the rest of `prec` absorbs the error of the squarings. -/
def logBits : Nat := 180

/-- log2 of a positive number. -/
def Num.logTwo (x : Num) : Num :=
  let k := x.log2
  if (x.add { m := -1, e := k }).m = 0 then { m := k }
  else
    let y := ({ x with e := x.e - k } : Num).toFix.toNat
    let f := log2Bits logBits y 0
    { m := 2 * (k * 2 ^ logBits + f) + 1, e := -(logBits : Int) - 1 }

/-- tanh of a positive number. -/
def Num.tanhPos (x : Num) : Num :=
  if x.log2 < -40 then x.mul { m := 2 ^ 80 - 1, e := -80 }
  else if 6 ≤ x.log2 then { m := 2 ^ 100 - 1, e := -100 }
  else
    let t := (x.scale 1).neg.exp
    (Num.add { m := 1 } t.neg).div (Num.add { m := 1 } t)

/-- tanh of a nonzero number. -/
def Num.tanh (x : Num) : Num := if x.m < 0 then x.neg.tanhPos.neg else x.tanhPos

/-! ## Block formats (R28 to R31) -/

/-- The value of a BX mantissa under its block's exponent byte (R28). -/
def bxValue (b e : Nat) (m : Int) : Val :=
  if e = 0 then .zero false
  else if e = 255 then .nan
  else Val.ofNum { m := m, e := (e : Int) - 127 - (b - 1) }

/-- A b-bit two's-complement mantissa. -/
def bxMant (b code : Nat) : Int :=
  let c := code % 2 ^ b
  if 2 ^ (b - 1) ≤ c then (c : Int) - 2 ^ b else c

/-- The value of an AQ8 element under its block's pair (R30). -/
def aqValue (p : Nat) (z q : Int) : Val :=
  if p = 0 then .zero false
  else if p = 255 then .nan
  else Val.ofNum { m := q - z, e := (p : Int) - 127 }

/-- The greatest of a list of numbers, at least 0. -/
def maxNum : List Num → Num
  | [] => { m := 0 }
  | x :: xs => let y := maxNum xs; if y.lt x then x else y

/-- BlockQuant(b, mode, x) of R29: exponent byte and mantissas; `rnds` gives each element's rounding. -/
def blockQuant (b : Nat) (rnds : List Rnd) (xs : List Val) : Nat × List Int :=
  if xs.any (fun x => !x.isFinite) then (255, xs.map (fun _ => 0))
  else
    let a := maxNum (xs.map (fun x => x.toNum.abs))
    if a.m = 0 then (0, xs.map (fun _ => 0))
    else
      let e := clampInt 1 254 (a.log2 + 128)
      let u := e - 127 - (b - 1)
      let lim : Int := 2 ^ (b - 1) - 1
      (e.toNat, (xs.zip rnds).map (fun (x, r) => clampInt (-lim) lim (roundInt r (x.toNum.scale (-u)))))

/-- The AQ8 quantisation of R150: p, z and the elements. -/
def affineQuant (sym : Bool) (rnds : List Rnd) (xs : List Val) : Nat × Int × List Int :=
  if xs.any (fun x => !x.isFinite) then (255, 0, xs.map (fun _ => 0))
  else
    let hi := maxNum (xs.map Val.toNum)
    let nlo := maxNum (xs.map (fun x => x.toNum.neg))
    if hi.m = 0 ∧ nlo.m = 0 then (0, 0, xs.map (fun _ => 0))
    else
      let span := if sym then (if hi.lt nlo then nlo else hi).div { m := 127 } else (hi.add nlo).div { m := 255 }
      let p := clampInt 1 254 (span.ceilLog2 + 127)
      let u := p - 127
      let z : Int := if sym then 0 else clampInt (-128) 127 (roundInt rne (Num.add { m := -128 } (nlo.scale (-u))))
      let q := (xs.zip rnds).map (fun (x, r) =>
        if sym then clampInt (-127) 127 (roundInt r (x.toNum.scale (-u)))
        else clampInt (-128) 127 (roundInt r (x.toNum.scale (-u)) + z))
      (p.toNat, z, q)

/-! ## Reductions (R41) -/

/-- The operations of reductions and ordered combining. -/
inductive RedOp where
  | add | min | max
  deriving DecidableEq, Repr, Inhabited

/-- Whether a format is an integer format. -/
def Fmt.isInt (f : Fmt) : Bool := f.float.isNone

/-- Node(op, a, b) on codes of a format (R41, R162): floating sums round once, integer sums wrap. -/
def redNode (op : RedOp) (f : Fmt) (a b : Nat) : Nat :=
  match op with
  | .add => if f.isInt then (a + b) % 2 ^ f.bits else exactSum f rne [f.value a, f.value b]
  | .min => f.roundTo rne (Val.minNode (f.value a) (f.value b))
  | .max => f.roundTo rne (Val.maxNode (f.value a) (f.value b))

/-- Pad(op) (R41, R162). -/
def redPad (op : RedOp) (f : Fmt) : Nat :=
  match op with
  | .add => if f.isInt then 0 else f.roundTo rne (.zero true)
  | .min => if f.isInt then intCode f.bits f.range.2 else f.roundTo rne (.inf false)
  | .max => if f.isInt then intCode f.bits f.range.1 else f.roundTo rne (.inf true)

/-- One level of the pairwise tree. -/
def treeLevel (op : RedOp) (f : Fmt) : List Nat → List Nat
  | a :: b :: xs => redNode op f a b :: treeLevel op f xs
  | xs => xs

/-- The tree over a list whose length is a power of two; the fuel is its depth. -/
def treeFuel (op : RedOp) (f : Fmt) : Nat → List Nat → Nat
  | 0, xs => xs.headD 0
  | k + 1, xs => treeFuel op f k (treeLevel op f xs)

/-- The smallest k with n ≤ 2^k. -/
def ceilLog2Nat (n : Nat) : Nat := if n ≤ 1 then 0 else Nat.log2 (n - 1) + 1

/-- Tree(op, fmt, RNE, xs) (R41); an empty sum is +0. -/
def tree (op : RedOp) (f : Fmt) (xs : List Nat) : Nat :=
  if xs.isEmpty then (if op = .add then 0 else redPad op f)
  else
    let k := ceilLog2Nat xs.length
    treeFuel op f k (xs ++ List.replicate (2 ^ k - xs.length) (redPad op f))

/-! ## Bayer matrix (R45) -/

/-- Bayer(2^k, i, j). -/
def bayer : Nat → Nat → Nat → Nat
  | 0, _, _ => 0
  | k + 1, i, j =>
    let h := 2 ^ k
    let q := match i / h % 2, j / h % 2 with
      | 0, 0 => 0
      | 0, _ => 2
      | _, 0 => 3
      | _, _ => 1
    4 * bayer k (i % h) (j % h) + q

/-- BitRev of R257: the k low bits reversed. -/
def bitRev : Nat → Nat → Nat
  | 0, _ => 0
  | k + 1, n => (n % 2) * 2 ^ k + bitRev k (n / 2)

end Sys2Proof.Machine
end

