-- ==== Sys2Proof/Config.lean ====
section
/-! DEFINITION. What a part or its firmware fixes and the manual leaves open, and the free values. An opaque constant
has no body: every statement about it holds for every value. -/

namespace Sys2Proof.Config

/-- The die whose channels hold a 256-byte granule of device memory: the interleave hash, which programs never see
(R280, R283). The model reads it modulo 8. -/
opaque homeDie : Nat → Nat

/-- The plane hash H(G, A[56:7]) of R343, fixed for the life of the gang. The model reads it modulo 64. -/
opaque plane : Nat → Nat → Nat

/-- Which of the states that an accumulator row held a hazardous read returns (R228), by the count of draws. -/
opaque accChoice : Nat → Nat

/-- The part's harvesting (R1, R252): of a part with 60 enabled quads, which one of the quads that remain possible is the
k-th disabled one, for k below 4, and which one of its die serves it, for 4 + k. -/
opaque servingQuad : Nat → Nat

/-- The remaining open choices between agents that the manual leaves unfixed and that a step must resolve, by the count
of draws (R102, R125, R354). -/
opaque choice : Nat → Nat

/-- The ordering codes: a package or a module, with 64 or 60 enabled quads (R1). -/
inductive OrderingCode where
  | p2560 | p2400 | m2560 | m2400
  deriving DecidableEq, Repr, Inhabited

/-- The ordering code of the part (R1). -/
opaque part : OrderingCode

/-- The code under which BAR0's identity shows the part's ordering code (R327). -/
opaque orderingCode : OrderingCode → Word

/-- Of a state-table key, the version that the part's firmware implements: none for a key that it does not know (R312). -/
opaque stateVersion : Nat → Option Nat

/-- The keys of the records that the active front end writes at a live update (R313), by what they hold: 0 a queue's
indices, 1 a replay position, 2 a trace variant with its version. -/
opaque stateKey : Nat → Nat

/-- The step identifier of a boot-journal record for which the manual gives none: 0 a shutdown (R340), 1 + 128 × stack +
channel a channel whose retirement is refused (R284). -/
opaque journalStep : Nat → BitVec 16

/-- The E field of a completion record whose launch formed no e (R263, R298), by the count of draws. -/
opaque noError : Nat → BitVec 32

/-- What a host read of a BAR0 register returns in bits whose layout the manual does not give (R327). -/
opaque bar0Value : Nat → Word

/-- The SOURCE code of an event record, by kind of event (R330): 0 packet, 1 command, 2 page or quota request, 3 error
log, 4 boot or recovery. -/
opaque eventSource : Nat → BitVec 8

/-- The argument and the vector of an event whose record the manual does not detail (R330), by kind of event. -/
opaque eventArg : Nat → BitVec 64
/-- The vector of an event that names none (R330). -/
opaque eventVector : Nat → Nat

end Sys2Proof.Config
end

