-- ==== Sys2Proof/Machine/Map.lean ====
section
/-! DEFINITION. Sparse maps as plain data: a list of (key, value) pairs with strictly rising keys, none of which
holds the default value. Equal maps are equal lists. Memory, register files and every table of the state use them. -/

namespace Sys2Proof.Machine

/-- A sparse map from numbers to `α`. -/
abbrev SMap (α : Type) := List (Nat × α)

/-- The value at a key; an unlisted key holds the default `d`. -/
def SMap.get {α : Type} (d : α) : SMap α → Nat → α
  | [], _ => d
  | (j, v) :: m, k => if j = k then v else SMap.get d m k

/-- Removes a key. -/
def SMap.erase {α : Type} : SMap α → Nat → SMap α
  | [], _ => []
  | (j, v) :: m, k => if j = k then SMap.erase m k else (j, v) :: SMap.erase m k

/-- Puts a value at a key, whatever it is. -/
def SMap.put {α : Type} : SMap α → Nat → α → SMap α
  | [], k, x => [(k, x)]
  | (j, v) :: m, k, x =>
    if j = k then (k, x) :: m else if k < j then (k, x) :: (j, v) :: m else (j, v) :: SMap.put m k x

/-- Writes a value: the default value removes the entry, so the form stays canonical. -/
def SMap.set {α : Type} [DecidableEq α] (d : α) (m : SMap α) (k : Nat) (x : α) : SMap α :=
  if x = d then SMap.erase m k else SMap.put m k x

/-- Every key of a map is above `lo`, the keys rise strictly, and no value is the default. -/
def SMap.wfFrom {α : Type} [DecidableEq α] (d : α) : Nat → SMap α → Bool
  | _, [] => true
  | lo, (j, v) :: m => decide (lo ≤ j) && decide (v ≠ d) && SMap.wfFrom d (j + 1) m

/-- The canonical form of a map. -/
def SMap.wf {α : Type} [DecidableEq α] (d : α) (m : SMap α) : Bool := SMap.wfFrom d 0 m

end Sys2Proof.Machine
end

