-- ==== Sys2Proof/Syntax.lean ====
section
/-! DEFINITION. The instruction type `Instr`: one constructor for each row of spec/opcode_table.json.
Control-core instructions come first (R46 to R53), then engine words (R54 to R60), then the part's other
indivisible steps, which have no encoding (spec/95_what_each_step_holds.md). The operands of a step name the
object it concerns: a logical core, an engine, a queue, a record. -/

namespace Sys2Proof

/-- The three engines of a core (R55: 0 vector, 1 matrix, 2 copy). -/
inductive Eng where
  | v | m | c
  deriving DecidableEq, Repr, Inhabited

/-- The operand of the atomics: word0 in format M, word1 as R47's A2 row; `w` is the width bit. -/
structure AOp where
  d : Reg
  h : HReg
  x : Reg
  el : BitVec 5
  rof : BitVec 7
  a : Reg
  b : Reg
  scope : BitVec 3
  w : BitVec 1
  deriving DecidableEq, Repr, Inhabited

/-- The operand of a vector word (R57), with its stall count and repetition field (R54). -/
structure VWord where
  d : Ix6
  a : Ix6
  b : Ix6
  ty : BitVec 3
  step : BitVec 2
  mask : BitVec 3
  sc : BitVec 4
  rc : BitVec 10
  deriving DecidableEq, Repr, Inhabited

/-- The walks, channel, stall count and repetition field that the copy words share (R59). -/
structure CWord where
  ws : BitVec 5
  wd : BitVec 5
  ch : BitVec 3
  sc : BitVec 4
  rc : BitVec 10
  deriving DecidableEq, Repr, Inhabited

/-- A change of arithmetic clock by one step of 100 MHz (R340). -/
inductive ClockDir where
  | up | down
  deriving DecidableEq, Repr, Inhabited

/-- What a host access through a BAR2 window does (R286, R328): the atomics are those of PCI Express. -/
inductive HostOp where
  | read (bytes : Nat)
  | write (bytes : Nat) (data : Nat)
  | fetchAdd (inc : Word)
  | swap (new : Word)
  | cas (expected new : Word)
  deriving DecidableEq, Repr, Inhabited

/-- The operation a remote request asks its home package to perform (R347). -/
inductive RemoteOp where
  | readRow
  | writeRow (data : Row) (mask : BitVec 128)
  | atomic (aop : BitVec 6) (el : BitVec 5) (w : BitVec 1) (a b : Word)
  /-- the declared destination of a copy command of an entry: its granules, core and sequence number (R346) -/
  | claim (granules core seq : Nat)
  /-- the entry of that core and sequence number, which registered claims, has completed (R346) -/
  | release (core seq : Nat)
  /-- a row of a `cred` (R183): operation, format, launch number, key and N, elements as byte offset and bits -/
  | combine (cop fmt launch key n : Nat) (els : List (Nat × Nat))
  /-- a copy of a trace record for the gang's collector (R357) -/
  | trace (rec : BitVec 256)
  deriving DecidableEq, Repr, Inhabited

/-- The outcome that a reply carries back to the requester (R345, R347). -/
inductive RemoteStatus where
  | done | absent | discarded | poisoned | notWritable | overlap
  deriving DecidableEq, Repr, Inhabited

/-- The IEEE 1588 messages of R356. -/
inductive PtpKind where
  | sync | followUp | pdelayReq | pdelayResp | announce
  deriving DecidableEq, Repr, Inhabited

/-- The changes a refiner may make to a variant (R309). -/
inductive RefineChange where
  /-- the copy entries at positions `pos` and `pos` + 1 of the variant's task record `rec` -/
  | swap (rec pos : Nat)
  | lowerWseq (rec pos wseq : Nat)
  | prefetch (gtask depth : Nat)
  | quadMap (lq pq : Nat)
  deriving DecidableEq, Repr, Inhabited

/-- What a breakpoint comparator watches (R338): a queue's entry tag or one of four PC comparators. -/
inductive BpSource where
  | queue (e : Eng)
  | pc (k : Nat)
  deriving DecidableEq, Repr, Inhabited

/-- The eight register banks of a physical core (R206), in the order of R215. -/
inductive Bank where
  | s | v0 | v1 | v2 | v3 | t | f | a
  deriving DecidableEq, Repr, Inhabited

/-- The parts of a live update that act on the machine (R313): the active front end pauses its queues and the standby begins
to import; the standby takes over, or aborts. -/
inductive UpdateStage where
  | pause | take
  deriving DecidableEq, Repr, Inhabited

/-- What a gang's table holds beside the numbering: the package that collects the trace records (R357) and the multicast
groups (R349). -/
structure GangTable where
  collector : Nat
  groups : List (Nat × List Nat)
  deriving DecidableEq, Repr, Inhabited

/-- Every row of spec/opcode_table.json. -/
inductive Instr where
  -- register-register operations (R74)
  | add (d a b : Reg)
  | sub (d a b : Reg)
  | and (d a b : Reg)
  | or (d a b : Reg)
  | xor (d a b : Reg)
  | andn (d a b : Reg)
  | sll (d a b : Reg)
  | srl (d a b : Reg)
  | sra (d a b : Reg)
  | rol (d a b : Reg)
  | mul (d a b : Reg)
  | mulh (d a b : Reg)
  | mulhn (d a b : Reg)
  | div (d a b : Reg)
  | divn (d a b : Reg)
  | rem (d a b : Reg)
  | remn (d a b : Reg)
  | min (d a b : Reg)
  | max (d a b : Reg)
  | minn (d a b : Reg)
  | maxn (d a b : Reg)
  | slt (d a b : Reg)
  | sltn (d a b : Reg)
  | seq (d a b : Reg)
  | clz (d a : Reg)
  | ctz (d a : Reg)
  | pop (d a : Reg)
  | sext (d a : Reg) (w : BitVec 2)
  | zext (d a : Reg) (w : BitVec 2)
  | sel (d a b c : Reg)
  | addw (d a b : Reg)
  | subw (d a b : Reg)
  | mulw (d a b : Reg)
  | shadd (d a b : Reg) (n : BitVec 5)
  -- immediate operations (R75 to R77)
  | addi (d a : Reg) (i : BitVec 16)
  | andi (d a : Reg) (i : BitVec 16)
  | ori (d a : Reg) (i : BitVec 16)
  | xori (d a : Reg) (i : BitVec 16)
  | slti (d a : Reg) (i : BitVec 16)
  | sltin (d a : Reg) (i : BitVec 16)
  | slli (d a : Reg) (n : BitVec 6)
  | srli (d a : Reg) (n : BitVec 6)
  | srai (d a : Reg) (n : BitVec 6)
  | roli (d a : Reg) (n : BitVec 6)
  | lui (d : Reg) (i : BitVec 16)
  | muli (d a : Reg) (i : BitVec 16)
  | bfx (d a : Reg) (p n : BitVec 6)
  | bfxS (d a : Reg) (p n : BitVec 6)
  | bfi (d a : Reg) (p n : BitVec 6)
  -- jumps and branches (R78 to R81)
  | jalr (d a : Reg) (i : BitVec 16)
  | beq (a b : Reg) (o : BitVec 16)
  | bne (a b : Reg) (o : BitVec 16)
  | blt (a b : Reg) (o : BitVec 16)
  | bge (a b : Reg) (o : BitVec 16)
  | bltn (a b : Reg) (o : BitVec 16)
  | bgen (a b : Reg) (o : BitVec 16)
  | bmskAny (k : MReg) (w : BitVec 3) (o : BitVec 16)
  | bmskNone (k : MReg) (w : BitVec 3) (o : BitVec 16)
  | bmskAll (k : MReg) (w : BitVec 3) (o : BitVec 16)
  | loop (a : Reg) (o : BitVec 16)
  | jal (o : BitVec 26)
  -- row loads and stores (R90) and stream registers (R94)
  | ldW (d : Reg) (h : HReg) (x : Reg) (e : BitVec 5) (r : BitVec 7)
  | ldD (d : Reg) (h : HReg) (x : Reg) (e : BitVec 4) (r : BitVec 7)
  | stW (v : Reg) (h : HReg) (x : Reg) (e : BitVec 5) (r : BitVec 7)
  | stD (v : Reg) (h : HReg) (x : Reg) (e : BitVec 4) (r : BitVec 7)
  | srdW (d : Reg) (k : BitVec 3)
  | srdD (d : Reg) (k : BitVec 3)
  | savl (d : Reg) (k : BitVec 3)
  -- the SYS group (R92, R93, R118, R137)
  | nop
  | seam
  | fenceSc (s : BitVec 3)
  | fenceAcq (s : BitVec 3)
  | fenceRel (s : BitVec 3)
  | trap (k : BitVec 10)
  | ertn
  | brk
  | yield
  | texit
  | wfe
  | icinv
  | modeExposed
  | modeInterlock
  -- the HDL group (R95 to R99)
  | trnR (h : HReg) (a : Reg)
  | trnRw (h : HReg) (a : Reg)
  | vbind (h : HReg) (a : Reg)
  | hqry (d : Reg) (h : HReg)
  | hinv (h : HReg)
  | pgreq (d a : Reg) (f : Ix6)
  | hmov (d a : HReg)
  -- the FLG group (R102 to R106)
  | fsig (a : Reg) (f : Ix6)
  | fsigQuad (a : Reg) (f : Ix6) (k : BitVec 2)
  | fwait (f : Ix6)
  | fpeek (d : Reg) (f : Ix6)
  | rigw (b a : Reg) (t : BitVec 4)
  | bar (i s : BitVec 3)
  | bara (i s : BitVec 3)
  | barw (i s : BitVec 3)
  | bwait (n : Ix6) (e : BitVec 2)
  | rdvz (k : BitVec 3)
  -- CSR instructions (R84); the last four are the CSR instructions whose CSR gives the access an effect of its own
  | csrr (d : Reg) (c : BitVec 12)
  | csrw (d a : Reg) (c : BitVec 12)
  | csrs (d a : Reg) (c : BitVec 12)
  | csrc (d a : Reg) (c : BitVec 12)
  | xstatWrite (ck : BitVec 2) (d a : Reg)
  | wmWrite (ck : BitVec 2) (d a : Reg) (k : BitVec 3)
  | residAccess (ck : BitVec 2) (d a : Reg)
  | engstRead (d : Reg)
  -- the TSK group (R108 to R111, R259, R267, R272)
  | tcrd (d : Reg) (n : BitVec 2)
  | cvq (d : Reg)
  | rlay (g : BitVec 4) (f x : Ix6) (h : HReg)
  | tdld (a : Reg) (x : Ix6) (h : HReg)
  | tdst (a : Reg) (x : Ix6) (h : HReg)
  | tdrd (d : Reg) (x : Ix6) (k : BitVec 3)
  | tdwr (a : Reg) (x : Ix6) (k : BitVec 3)
  | wkld (a : Reg) (w : BitVec 5) (h : HReg)
  | wkst (a : Reg) (w : BitVec 5) (h : HReg)
  | guardW (d a : Reg) (x : Ix6)
  | guardD (d a : Reg) (x : Ix6)
  | dlaunch (d a : Reg)
  -- mask instructions (R82)
  | mmov (d a : MReg)
  | mset (d : MReg) (a b : Reg)
  | mcntE (d : Reg) (a : MReg) (w : BitVec 3)
  | mcntLo (d : Reg) (a : MReg)
  | mcntHi (d : Reg) (a : MReg)
  | mcntFfs (d : Reg) (a : MReg) (w : BitVec 3)
  | mlog (d a b : MReg) (t : BitVec 4)
  -- queue insertion (R107)
  | fork (k : BitVec 3) (a b c : Reg)
  | enqs (a b : Reg) (e : BitVec 2)
  | renq (a b : Reg) (e : BitVec 2)
  -- atomics (R100, R101)
  | faa (o : AOp)
  | faab (o : AOp)
  | fao (o : AOp)
  | cas (o : AOp)
  | swp (o : AOp)
  | amin (o : AOp)
  | amax (o : AOp)
  | aminn (o : AOp)
  | amaxn (o : AOp)
  | aor (o : AOp)
  | aand (o : AOp)
  -- long immediates (R77) and issue (R55)
  | li (d : Reg) (i : BitVec 32)
  | lih (d : Reg) (i : BitVec 32)
  | issue (e : BitVec 2) (wf sf : Ix6) (ar : BitVec 2) (scope : BitVec 3) (word : EWord)
  -- vector words (R57, R142 to R166)
  | vadd (o : VWord)
  | vsub (o : VWord)
  | vmul (o : VWord)
  | vfma (o : VWord)
  | vfms (o : VWord)
  | vfnm (o : VWord)
  | vmin (o : VWord)
  | vmax (o : VWord)
  | vabs (o : VWord)
  | vneg (o : VWord)
  | vrcp (o : VWord)
  | vrsq (o : VWord)
  | vsqrt (o : VWord)
  | vexp2 (o : VWord)
  | vlog2 (o : VWord)
  | vtanh (o : VWord)
  | viadd (o : VWord)
  | visub (o : VWord)
  | vimul (o : VWord)
  | vimulh (o : VWord)
  | vshl (o : VWord)
  | vshr (o : VWord)
  | vsra (o : VWord)
  | vand (o : VWord)
  | vor (o : VWord)
  | vxor (o : VWord)
  | vimin (o : VWord)
  | vimax (o : VWord)
  | vsadd (o : VWord)
  | vssub (o : VWord)
  | viabs (o : VWord)
  | vimac (o : VWord)
  | vceq (o : VWord)
  | vcne (o : VWord)
  | vclt (o : VWord)
  | vcle (o : VWord)
  | vcun (o : VWord)
  | vsel (o : VWord)
  | vcvt (o : VWord)
  | vqbf (o : VWord)
  | vdqbf (o : VWord)
  | vqaf (o : VWord)
  | vmov (o : VWord)
  | vbcst (o : VWord)
  | vld (o : VWord)
  | vst (o : VWord)
  | vgath (o : VWord)
  | vscat (o : VWord)
  | vrmg (o : VWord)
  | vshuf (o : VWord)
  | vpart (o : VWord)
  | vpop (o : VWord)
  | vpush (o : VWord)
  | vred (o : VWord)
  | vscan (o : VWord)
  | viota (o : VWord)
  | vmcnt (o : VWord)
  | vmlog (md ma mb : MReg) (tt sc : BitVec 4) (rc : BitVec 10)
  | vacc (o : VWord)
  | vclass (o : VWord)
  -- matrix words (R58, R230 to R235)
  | mma (bank : BitVec 2) (tA tB : Ix6) (k0 : BitVec 12) (sc : BitVec 4) (rc : BitVec 10)
  | mzero (bank : BitVec 2) (sc : BitVec 4)
  | mdrn (bank : BitVec 2) (tD : Ix6) (ep : BitVec 4) (row0 : BitVec 7) (sc : BitVec 4) (rc : BitVec 10)
  | mlease (n : Ix6) (sc : BitVec 4)
  | mcommit (sc : BitVec 4)
  | mlend (bank core : BitVec 2) (sc : BitVec 4)
  | mrecl (bank : BitVec 2) (sc : BitVec 4)
  | mldacc (bank : BitVec 2) (tS : Ix6) (row0 : BitVec 7) (sc : BitVec 4) (rc : BitVec 10)
  -- copy words (R59, R181 to R189)
  | ccpy (o : CWord)
  | ccvt (o : CWord) (mode : BitVec 3)
  | cxpd (o : CWord)
  | cfilb (o : CWord)
  | cgath (o : CWord)
  | cscat (o : CWord)
  | cred (o : CWord) (op : BitVec 3)
  | cmcst (o : CWord) (dies : BitVec 8)
  | cdsp (o : CWord) (k : BitVec 3)
  | cscl (ws : BitVec 5) (q : BitVec 1) (sc : BitVec 4) (rc : BitVec 10)
  | cbindOff (ch : BitVec 3) (sc : BitVec 4)
  | cbindRange (ch : BitVec 3) (wd : BitVec 5) (sc : BitVec 4)
  | cbindStream (ch : BitVec 3) (out : BitVec 1) (esz : BitVec 2) (sc : BitVec 4)
  | czero (wd : BitVec 5) (ch : BitVec 3) (sc : BitVec 4) (rc : BitVec 10)
  | cwmk (ch : BitVec 3) (n : BitVec 10) (sc : BitVec 4)
  -- sequencer words (R60, R135)
  | snop (sc : BitVec 4) (rc : BitVec 10)
  | swait (f : Ix6) (sc : BitVec 4)
  | ssig (f : Ix6) (sc : BitVec 4)
  | sloop (src : BitVec 3) (n : BitVec 16) (sc : BitVec 4)
  | sendl (sc : BitVec 4)
  | spho (k : Ix6) (sc : BitVec 4)
  | sphc (k : Ix6) (sc : BitVec 4)
  | sacq (s : BitVec 3) (sc : BitVec 4)
  | srel (s : BitVec 3) (sc : BitVec 4)
  | smodeExposed (sc : BitVec 4)
  | smodeInterlock (sc : BitVec 4)
  | send (k : BitVec 3) (sc : BitVec 4)
  -- steps of the queues and engines; n is a logical core, e an engine
  | entryWaitSatisfied (n : Nat) (e : Eng)
  | blockEntry (n : Nat) (e : Eng)
  | nullEntry (n : Nat) (e : Eng)
  | programRowFetch (n : Nat) (e : Eng)
  | engineFault (n : Nat) (e : Eng) (code : BitVec 8)
  | entryComplete (n : Nat) (e : Eng) (k : Nat)
  | saddlebagReturn (n : Nat) (e : Eng)
  | modeCrossing (n : Nat)
  | leaseGrant (quad : Nat)
  | lstallPass (quad : Nat)
  | loadReturn (n : Nat)
  | storePerform (n : Nat)
  | handleResolve (n : Nat) (h : HReg)
  | vectorLoadReturn (n k : Nat)
  | rowTransfer (n k pos : Nat)
  | faoGrant (n : Nat)
  | barrierGenerationComplete (k : Nat)
  | quotaStall (n : Nat)
  | trapDelivery (n : Nat)
  -- steps of tasks and launches; l indexes the launch list
  | taskBind (n : Nat)
  | taskStart (n : Nat)
  | taskRetire (n : Nat)
  | launchAdmit (l : Nat)
  | launchStart (n : Nat)
  | launchRetire (l : Nat)
  | burnish (l : Nat)
  -- packets; q is a queue-table index
  | nopPacket (q : Nat)
  | oprec (q : Nat)
  | graph (q : Nat)
  | write (q : Nat)
  | signal (q : Nat)
  | wait (q : Nat)
  | wrsig (q : Nat)
  | copy (q : Nat)
  | timestamp (q : Nat)
  | fence (q : Nat)
  | packetComplete (q : Nat)
  | qpollRotation (out : Nat) (inq : Nat)
  | ageLimit (q : Nat)
  | qslice (ctx : Nat)
  -- time slices, pre-emption and lazy banks
  | coreslice (n : Nat)
  | preemption (ctx : Nat)
  | bankClaim (n : Nat) (b : Bank)
  | forcedSpill (n : Nat) (b : Bank)
  | segmentSave (k : Nat)
  | segmentRestore (k pseg : Nat)
  -- graph steps, replay and refinement
  | dynamicStep (g : Nat)
  | replay (g : Nat)
  | refinement (hash : Word) (variant : Nat) (change : RefineChange)
  | versionNotice (hash : Word) (variant version effect : Nat)
  | versionLate (g : Nat)
  -- die units
  | skiverPatch (ctx rec p : Nat)
  | conversionComplete (ctx rec : Nat)
  | contributionArrive (k : Nat)
  | contributionRetry (k : Nat)
  -- translation, memory upkeep and host commands
  | pageReply (ctx slot : Nat)
  | tableWalk (unit ctx : Nat) (va : Word) (wr : Bool)
  | sweep (ctx : Nat)
  | scrub (pq row : Nat)
  | shoot
  | harvest
  | stop
  | image
  | resume
  | destroy
  | commandCompletion
  | queueEnable (q : Nat)
  | contextRecordEnable (ctx : Nat)
  | journalClear
  | bar0Write (off : Nat) (bytes : Nat) (data : Nat)
  | hostBar2Access (off : Nat) (op : HostOp)
  -- debug and trace
  | debugStop (ctx : Nat) (cores : List Nat)
  | breakpointMatch (n : Nat) (src : BpSource)
  | headClassSample (n : Nat) (e : Eng)
  | bankConflictSample (n : Nat) (e : Option Eng) (pq : Nat) (rows : List Nat)
  -- time, firmware and power
  | ptpAdjustment (offset rate : Int)
  | dieFence (d : Nat)
  | channelRetirement (stack ch : Nat)
  | liveUpdate (stage : UpdateStage)
  | bootStep (id : BitVec 16) (outcome : BitVec 8) (writesRemap : Bool)
  | clockStep (dir : ClockDir)
  | throttle (junction stack : Nat)
  | shutdown (junction : Nat)
  -- the fabric
  | flitReceive (port : Nat) (symErrors : Nat)
  | laneRemoval (port : Nat)
  | remoteRequest (pkg gang : Nat) (va : Word) (op : RemoteOp)
  | remoteResponse (id : Nat) (st : RemoteStatus) (data : Row)
  | remoteTimeout (id : Nat)
  | podBarrierArrival (pkg launch id gen : Nat)
  | packageFence (pkg : Nat)
  | fenceNotice (pkg : Nat)
  | ptpMessage (port : Nat) (kind : PtpKind) (stamp : Nat)
  | powerUp (alwaysOnLost : Bool)
  | packageReset
  | doubleError (vault : Bool) (word : Nat)
  | linkUp (port : Nat) (lanes : BitVec 2)
  | gangBuild (gang self size ctx : Nat) (table : GangTable)
  | syncInterval (pdelay : Bool)
  | mldaccRowArrival (n : Nat)
  deriving DecidableEq, Repr, Inhabited

end Sys2Proof
end

