-- ==== Sys2Proof/Machine/State.lean ====
section
/-! DEFINITION. The state of one Teore 9 package and of its environment as the package sees it, as plain data; the
fault and refusal reasons; the state after power-up. INVENTORY.md names the rule behind each field. -/

namespace Sys2Proof.Machine

/-! ## Stops -/

/-- What stops the machine itself. Traps and engine faults of the spec are next states, not these. -/
inductive Fault where
  /-- Raised by every step but a power-up after SHUTDOWN has stopped the package (R340); safe: the spec gives no other
  step after it. -/
  | packageStopped
  deriving DecidableEq, Repr, Inhabited

/-- Why the model gives an instruction no meaning. -/
inductive Refusal where
  /-- Raised by an arm of `exec` that has no meaning yet; safe. -/
  | notModelled (mnemonic : String)
  /-- Raised by `step` when the agenda's turn names an instruction that an agent fetches itself; safe. -/
  | notAnEvent
  deriving DecidableEq, Repr, Inhabited

/-! ## The tile task's registers (R12) -/

/-- The states of a translation (R66, R95). -/
inductive Residency where
  | resident | absent | discarded | pending
  deriving DecidableEq, Repr, Inhabited

/-- One handle (R95 to R98). `va` is the page's address as written, or the vault designator; `frame` is the physical
frame of a resident page; `tag` names the translation, which copies made by `hmov` share. -/
structure Handle where
  valid : Bool := false
  vault : Bool := false
  base : Word := 0
  st : Residency := .resident
  rd : Bool := false
  w : Bool := false
  rev : Bool := false
  /-- made by `trn.rw`, or copied from such a handle (R214) -/
  rw : Bool := false
  frame : Nat := 0
  tag : Nat := 0
  /-- the arithmetic cycle from which accesses may name it (R96, R97) -/
  readyAt : Nat := 0
  /-- a REARM shootdown waits for its next store (R319) -/
  rearm : Bool := false
  deriving DecidableEq, Repr, Inhabited

/-- What a queued access of the control core is (R89). `token` marks a `seam` or `fence`, by its number. -/
inductive LsKind where
  | load (d : Reg) (wide : Bool) (el : Nat)
  | store (data : Word) (wide : Bool) (el : Nat)
  /-- a masked row write of `tdst` or `wkst` (R108) -/
  | row (data : Row) (mask : BitVec 128)
  | token (id : Nat)
  deriving DecidableEq, Repr, Inhabited

/-- One entry of the load queue or the store queue (R89); the handle is captured at issue (R88). -/
structure LsEntry where
  kind : LsKind
  handle : Handle := {}
  /-- the number of the handle register (R214) -/
  reg : Nat := 0
  off : Nat := 0
  /-- program order within the core -/
  stamp : Nat := 0
  /-- the remote operation that carries it, when its page lies on another package (R345) -/
  remote : Option Nat := none
  deriving DecidableEq, Repr, Inhabited

/-- A trap that waits for delivery (R115): its cause code and value. -/
structure HeldTrap where
  code : BitVec 8
  value : Word
  /-- the pc of the instruction that a precise trap names, when a stop had moved past it (R204; log entry 94) -/
  pc : Option Word := none
  deriving DecidableEq, Repr, Inhabited

/-- Why the control core waits (R18, R89). The last field of `insertion` is the nanosecond its wait began (R129); `grant`
names the claim of an `fao`: twice a contribution's number, or twice a remote operation's and one; `exit` is the fence of
a task that a trap ends (R119, R120). -/
inductive Wait where
  | flag (f : Nat)
  | barrier | stream (k : Nat) | watermark | batch | fork | latch
  | insertion (target : Nat) (e : Eng) (since : Nat)
  | ring | grant (id : Nat) | device | memory | crossing | register | claim | exit
  deriving DecidableEq, Repr, Inhabited

/-- The state of one stream channel (R172 to R174). -/
inductive ChMode where
  | off | range | stream
  deriving DecidableEq, Repr, Inhabited

/-- Where a row lies: device memory by virtual address, or a vault by logical quad and context-view row. -/
inductive Loc where
  | va (a : Nat)
  | vault (quad row : Nat)
  deriving DecidableEq, Repr, Inhabited

/-- One channel in0 to in7. -/
structure Channel where
  mode : ChMode := .off
  out : Bool := false
  esz : BitVec 2 := 0
  /-- FIFO elements, oldest first -/
  fifo : List Row := []
  /-- bytes of a copy word's element that is not whole yet (R174) -/
  part : List Byte := []
  /-- bytes of an element taken in part by a copy word -/
  taken : List Byte := []
  /-- the cycle of the last copy fill, and how many elements at the end it brought (R161) -/
  late : Nat × Nat := (0, 0)
  first : Loc := .va 0
  len : Nat := 0
  wm : Nat := 0
  /-- range rows above the watermark that hold a fill mark -/
  marks : List Nat := []
  absn : Bool := false
  disc : Bool := false
  dropped : Bool := false
  pois : Bool := false
  deriving DecidableEq, Repr, Inhabited

/-! ## Queues, entries and sequencers -/

/-- The body of a queue entry (R62). -/
inductive Body where
  | word (w : EWord)
  | stream (row : Word) (slot : Nat) (p0 p1 p2 p3 : BitVec 32)
  | block (addr : Word)
  | null
  /-- an inner entry with a reserved scope, slot or zero field: ILLEGAL_WORD (R62) -/
  | illegal
  deriving DecidableEq, Repr, Inhabited

/-- A queue entry as accepted, with what acceptance captures (R62, R87, R107). -/
structure Entry where
  body : Body := .null
  wf : Ix6 := 0
  sf : Ix6 := 0
  ar : BitVec 2 := 0
  scope : BitVec 3 := 0
  fork : Option Nat := none
  seq : Nat := 0
  seed : BitVec 32 := 0
  schk : Bool := false
  lrun : Nat := 16
  rowmask : BitVec 32 := 0xFFFFFFFF
  /-- the mode crossing it stands behind (R133) -/
  epoch : Nat := 0
  /-- index of its launch in the launch list, and the task that issued it -/
  launch : Nat := 0
  task : Nat := 0
  /-- acceptance order over the three queues of the core -/
  stamp : Nat := 0
  /-- cycle of acceptance (R228) -/
  at_ : Nat := 0
  /-- carries the reissue mark of R282 -/
  reissue : Bool := false
  /-- replayed block entries are performed from the trace's copy (R306) -/
  blockCopy : List (BitVec 128) := []
  deriving DecidableEq, Repr, Inhabited

/-- One level of a stream's loop stack: count left and the position after the `sloop` (R135). -/
structure LoopLevel where
  count : Nat
  row : Word
  slot : Nat
  deriving DecidableEq, Repr, Inhabited

/-- A descriptor as an engine captures it: its image and the handle that HB names (R109, R395). -/
structure Cap where
  img : BitVec 512 := 0
  hb : Handle := {}
  deriving DecidableEq, Repr, Inhabited

/-- Which entry an effect belongs to: engine, sequence number, inner index; and, of a copy command, its number on its
core. -/
structure Tag where
  eng : Eng
  seq : Nat
  inner : Option Nat := none
  cmd : Nat := 0
  deriving DecidableEq, Repr, Inhabited

/-- Bits inside one byte of a located row. -/
structure Bits where
  loc : Loc
  off : Nat
  lo : Nat
  n : Nat
  deriving DecidableEq, Repr, Inhabited

/-- One lane, or column, on its way: where the bits of its element lie. -/
structure LaneLoc where
  lane : Nat
  parts : List Bits
  deriving DecidableEq, Repr, Inhabited

/-- Positions of a copy command that have been read and whose rows are still to be written, each an access of its own
(R178, R184, R192): the row, its data, the bytes and the bits written; the operations sent so far, and the status. -/
structure CopyPend where
  gs : List Nat := []
  rows : List (Loc × Nat × Nat × Nat) := []
  ids : List Nat := []
  st : BitVec 8 := 0
  deriving DecidableEq, Repr, Inhabited

/-- A copy command in flight (R175 to R180). -/
structure CopyCmd where
  tag : Tag
  word : EWord
  entry : Entry
  walkS : BitVec 256 := 0
  walkD : BitVec 256 := 0
  /-- source and destination descriptors, and the index descriptor of the side whose walk is of kind 1 -/
  src : Cap := {}
  dst : Cap := {}
  idx : Cap := {}
  /-- a STREAM channel replaces a side: 1 the destination, 2 the source, 0 none (R181) -/
  fifo : Nat := 0
  /-- walk length and repetition count -/
  wlen : Nat := 0
  reps : Nat := 1
  /-- every position below (rep, pos) is complete -/
  rep : Nat := 0
  pos : Nat := 0
  /-- positions at or after it that are complete, as rep × wlen + pos -/
  doneOut : List Nat := []
  status : BitVec 8 := 0
  /-- positions that wait for contributions or remote operations to complete, and which -/
  away : List (List Nat × List Nat) := []
  /-- positions read and not yet written; rows read for the positions at work: outcome as a status of R177, and the row -/
  pend : Option CopyPend := none
  cache : List (Loc × BitVec 8 × Row) := []
  /-- positions that have waited for a patch of a conversion, with its serial (R275, R276) -/
  stuck : List (Nat × Nat) := []
  /-- poisoned source rows already logged (R177) -/
  logged : List Loc := []
  /-- footprint indices of the phases open when the word issued (R136) -/
  fps : List Nat := []
  /-- of a `cdsp`: the table header; in deterministic mode the experts and weights of each token, whether the batches are
  sent, and per expert the slots granted: next and end (R352, R354) -/
  header : BitVec 512 := 0
  plan : List (List (Nat × Nat)) := []
  sent : Bool := false
  /-- the batched claims sent: the contribution's number and the expert -/
  batch : List (Nat × Nat) := []
  slots : SMap (Nat × Nat) := []
  deriving DecidableEq, Repr, Inhabited

/-- A repetition of a vector or matrix word whose rows are read or written one by one (R192): its issue cycle, its lanes,
the rows still to be read, those read, the rows still to be written, the fault that ends it, and the serials of the
conversions that it was addressed through (R276). -/
structure RepPart where
  at_ : Nat
  lanes : List LaneLoc := []
  todo : List Loc := []
  conv : List Nat := []
  got : List (Loc × Option Row) := []
  put : List (Loc × Row × BitVec 128) := []
  fault : Option (BitVec 8 × BitVec 128) := none
  deriving DecidableEq, Repr, Inhabited

/-- The head entry while the sequencer performs its body (R122, R135). -/
structure Active where
  entry : Entry
  /-- the block entry's remaining inner entries and the index of the current one (R123) -/
  inner : Option (List Entry) := none
  index : Nat := 0
  /-- the current inner entry has begun: its wait is satisfied -/
  innerBegun : Bool := false
  cur : Entry := {}
  row : Word := 0
  slot : Nat := 0
  /-- the program row held by the sequencer (R56) -/
  held : Option (Word × Row) := none
  /-- repetitions of the current word already performed -/
  rep : Nat := 0
  loops : List LoopLevel := []
  /-- nesting depth of a loop body that is being skipped -/
  skip : Nat := 0
  carry : Nat := 0
  resid : BitVec 128 := 0
  /-- the walk record and the descriptors that the word read as its first repetition issued (R109) -/
  wrec : BitVec 256 := 0
  caps : List Cap := []
  /-- bytes and tokens placed, and other counts of a word in progress -/
  count : Nat := 0
  /-- the flag that a `swait` waits on (R134), and whether a cycle has taken it (R125) -/
  waitFlag : Option Nat := none
  taken : Bool := false
  /-- the repetition at work, when some of its rows have been read or written -/
  part : Option RepPart := none
  /-- the serials of the conversions on whose patches the repetition has waited (R275, R276) -/
  stuck : List Nat := []
  /-- the command of a copy word that waits for its acceptance: its tables have been read (R109, R175) -/
  cmd : Option CopyCmd := none
  /-- the channels that the entry's copy words have named (R187) -/
  chans : List Nat := []
  /-- the next word has had to wait, or is the first: its issue cycle is now, not the cycle after the last word (R130) -/
  fresh : Bool := true
  /-- cycle in which the last fixed-latency effect of the entry lands -/
  land : Nat := 0
  deriving DecidableEq, Repr, Inhabited

/-- An entry that has issued its last word and is not complete (R122). -/
structure Flight where
  entry : Entry
  /-- inner index, when it is an inner entry of a block (R123) -/
  inner : Option Nat := none
  /-- cycle in which its last fixed-latency effect lands -/
  doneAt : Nat := 0
  /-- the channels that its copy words named (R187) -/
  chans : List Nat := []
  deriving DecidableEq, Repr, Inhabited

/-- The progress record of an entry (R298), with the inner index of a block (R123) and the row and slot of a stream
(R56, R62, R132), which the record's 32 bytes have no place for. -/
structure Progress where
  inner : Nat := 0
  pos : Option (Word × Nat) := none
  seq : Nat := 0
  rep : Nat := 0
  status : BitVec 8 := 0
  count : Nat := 0
  record : BitVec 128 := 0
  deriving DecidableEq, Repr, Inhabited

/-- A queue stopped by a fault (R115). -/
structure EngFault where
  code : BitVec 8
  seq : Nat
  prev : Bool
  task : Nat := 0
  launch : Nat := 0
  /-- the fault has been delivered or logged -/
  told : Bool := false
  progress : Progress := {}
  deriving DecidableEq, Repr, Inhabited

/-- One engine queue with its sequencer (R121 to R136). -/
structure Queue where
  hw : List Entry := []
  spill : List Entry := []
  act : Option Active := none
  flight : List Flight := []
  /-- next sequence number (R15) -/
  next : Nat := 0
  stopped : Option EngFault := none
  /-- earliest cycle of the next word (R130), and the last cycle in which a word issued -/
  readyAt : Nat := 0
  lastIssue : Nat := 0
  /-- footprint indices of the open phases, oldest first (R136) -/
  phases : List Nat := []
  issuing : Nat := 0
  waitFlag : Nat := 0
  waitEngine : Nat := 0
  empty : Nat := 0
  /-- the four class counts at the previous head-class sample (R333) -/
  sampled : List Nat := []
  /-- breakpoint comparator: a SEQ value or an SF flag (R338) -/
  bpSeq : Option Nat := none
  bpFlag : Option Nat := none
  deriving DecidableEq, Repr, Inhabited

/-- A vector register write that has issued and not landed (R130 to R132). -/
structure PendReg where
  reg : Nat
  land : Nat
  data : Row
  /-- byte mask -/
  mask : BitVec 128
  deriving DecidableEq, Repr, Inhabited

/-- A mask write of the vector engine that has not landed (R83, R132). -/
structure PendMask where
  reg : Nat
  land : Nat
  data : BitVec 128
  deriving DecidableEq, Repr, Inhabited

/-- A vector load with a variable latency (R131, R153). -/
structure VLoad where
  tag : Tag
  reg : Nat
  width : Nat
  lanes : List LaneLoc
  /-- bytes of the destination that are written: zero lanes included -/
  mask : BitVec 128
  /-- the word's residency record, 0 none (R154) -/
  group : Nat
  /-- the slots of lanes that load an element -/
  slots : BitVec 128
  /-- the rows that it has read, none for one that delivered nothing -/
  got : List (Loc × Option Row) := []
  /-- the serials of the conversions that it was addressed through (R276) -/
  conv : List Nat := []
  deriving DecidableEq, Repr, Inhabited

/-- The residency that a vector load word gathers for its mask while some of its loads have not returned (R154). -/
structure VMask where
  id : Nat
  tag : Tag
  md : Nat
  acc : BitVec 128
  /-- loads that have not returned -/
  left : Nat
  /-- the word has repetitions to issue -/
  more : Bool
  deriving DecidableEq, Repr, Inhabited

/-- A row of an `mldacc` repetition that has not arrived (R234). -/
structure MldRow where
  tag : Tag
  bank : Nat
  row : Nat
  src : List LaneLoc
  width : Nat
  fmt : Nat
  /-- acceptance stamp and cycle of its entry -/
  stamp : Nat := 0
  since : Nat := 0
  /-- the rows that it has read, none for one that delivered nothing -/
  got : List (Loc × Option Row) := []
  /-- the serials of the conversions that it was addressed through (R276) -/
  conv : List Nat := []
  deriving DecidableEq, Repr, Inhabited

/-- A snapshot of an accumulator bank: the cycle from which it can be read, and its 128 rows (R222, R228). -/
structure AccSnap where
  at_ : Nat := 0
  /-- acceptance stamp and cycle of the entry that wrote it, and the rows it wrote: first, and first beyond -/
  stamp : Nat := 0
  since : Nat := 0
  lo : Nat := 0
  hi : Nat := 0
  rows : SMap (BitVec 4096) := []
  deriving DecidableEq, Repr, Inhabited

/-- One fork id: the engines whose stream has not ended, and whether the fork's end has been observed (R127). -/
structure ForkMark where
  pending : List Eng := []
  deriving DecidableEq, Repr, Inhabited

/-! ## Logical cores -/

/-- Where a bank of a logical core is (R207, R215). -/
inductive BankState where
  | launch | saved | live (phys : Nat)
  deriving DecidableEq, Repr, Inhabited

/-- The task bound to a logical core (R8, R13, R14). -/
structure Task where
  l : Nat
  x : Nat := 0
  y : Nat := 0
  z : Nat := 0
  rowmask : BitVec 32 := 0xFFFFFFFF
  shadow : Bool := false
  started : Bool := false
  /-- performed by the replayer from a trace (R306) -/
  replayed : Bool := false
  /-- a die fence has had it run again (R253, R282) -/
  reissue : Bool := false
  /-- recorded, but skipped now: its entries are replayed as null entries (R306) -/
  nulls : Bool := false
  deriving DecidableEq, Repr, Inhabited

/-- A logical core of one context (R12), or a management core (R311). -/
structure Core where
  -- bank S
  s : SMap Word := []
  h : SMap Handle := []
  m : SMap (BitVec 128) := []
  pc : Word := 0
  seed : BitVec 32 := 0
  resid : BitVec 2 := 0
  xpc : Word := 0
  xcause : BitVec 9 := 0
  xval : Word := 0
  inh : Bool := false
  flt : Bool := false
  xhand : Word := 0
  schk : Bool := false
  lrun : BitVec 7 := 16
  interlock : Bool := false
  /-- registers that await a grant of the ordered combine unit (R204) -/
  grantPending : BitVec 32 := 0
  /-- the generation of the most recent arrival, by 8 × scope + id (R104) -/
  arrived : SMap Nat := []
  /-- the pc of a `bar` that has arrived and not completed (R104, R204) -/
  barAt : Option Word := none
  lq : List LsEntry := []
  sq : List LsEntry := []
  held : List HeldTrap := []
  /-- progress records of the engine faults since the task started, by their `XVAL` (R397) -/
  stops : SMap (BitVec 256) := []
  /-- program-order stamp of the next access, and the next acceptance stamp -/
  stamp : Nat := 1
  /-- the core's four PC comparators (R338) -/
  cmp : SMap Word := []
  /-- a row of another package that the waiting instruction has asked for: its address, the outcome, the row (R347) -/
  param : Option (Nat × RemoteStatus × Row) := none
  /-- rows held in the instruction cache, by virtual address (R118) -/
  icache : List (Nat × Row) := []
  -- bank F
  latch : Bool := false
  flags : SMap Nat := []
  /-- rigging terms: product 0 and product 1 of each (R103) -/
  rig : SMap (BitVec 50) := []
  chan : SMap Channel := []
  sqa : List Row := []
  sqb : List Row := []
  qv : Queue := {}
  qm : Queue := {}
  qc : Queue := {}
  forks : SMap ForkMark := []
  /-- closed batches of the matrix queue as ranges of sequence numbers, and the first number in none (R227) -/
  batches : List (Nat × Nat) := []
  batchLo : Nat := 0
  /-- `mma` words left in the pinned run (R225) -/
  pinned : Nat := 0
  waitCount : SMap Nat := []
  /-- crossings performed; a pending one: the target mode, the acceptance stamp it waits for, its number (R133) -/
  epoch : Nat := 0
  crossing : List (Bool × Nat × Nat) := []
  copies : List CopyCmd := []
  /-- the number of the next copy command -/
  cmds : Nat := 1
  /-- of each incomplete copy entry, by sequence number, the outcomes of the commands that have ended and the place of the
  last of them (R180) -/
  ended : SMap Progress := []
  vloads : List VLoad := []
  vmasks : List VMask := []
  /-- rows of other packages that an engine word has asked for and holds: their addresses, outcomes and contents (R347) -/
  farRows : List (Tag × Nat × RemoteStatus × Row) := []
  mrows : List MldRow := []
  -- banks T, V, A
  t : SMap (BitVec 512) := []
  w : SMap (BitVec 256) := []
  v : SMap Row := []
  pendV : List PendReg := []
  pendM : List PendMask := []
  /-- the cycle in which the latest variable-latency write of a vector register, or of mask register k as 64 + k, landed
  (R131) -/
  loadedAt : SMap Nat := []
  acc : List AccSnap := []
  -- scheduling
  bank : SMap BankState := []
  launch : Option Nat := none
  shadow : Option Nat := none
  task : Option Task := none
  waiting : Option Wait := none
  /-- the core is stopped and does not run: the cause of R215 -/
  stoppedAt : Option (BitVec 8) := none
  /-- the cause of the last stop, and whether the pc then named an instruction that executes again (R204, R215) -/
  lastCause : BitVec 8 := 0
  again : Bool := false
  /-- loans that a switch ended and a resume makes again: banks borrowed, and the core that held the home bank (R210) -/
  loanBorrowed : List Nat := []
  loanLent : Option Nat := none
  deriving DecidableEq, Repr, Inhabited

/-- A physical core (R206, R251): the logical core it serves and the owner tags of its banks (context and core). -/
structure Phys where
  serving : Option (Nat × Nat) := none
  owner : SMap (Nat × Nat) := []
  /-- nanosecond at which the current slice of CORESLICE began (R19) -/
  sliceAt : Nat := 0
  deriving DecidableEq, Repr, Inhabited

/-! ## The quad -/

/-- A phase of one engine in one vault (R242): context-view rows of the logical quad's vault as (first, count). Within a
context they stand for physical rows one to one; no two contexts hold one physical row (R238, R252). -/
structure Phase where
  quad : Nat
  ctx : Nat
  core : Nat
  eng : Eng
  fp : Nat
  seq : Nat
  reads : List (Nat × Nat) := []
  writes : List (Nat × Nat) := []
  deriving DecidableEq, Repr, Inhabited

/-- The matrix array of one logical quad (R224 to R226). Before any holder the round-robin starts as if core 3 had been
the last (DESIGN CHOICE, log entry 43). -/
structure Quad where
  holder : Option Nat := none
  lastHolder : Nat := 3
  left : Nat := 0
  /-- cycle of the grant, and the first cycle after the last `mma` cycle -/
  grantAt : Nat := 0
  busyTo : Nat := 0
  /-- bank j is lent to core k, by j (R226) -/
  lent : SMap Nat := []
  deriving DecidableEq, Repr, Inhabited

/-- The states of an owner-table entry (R212). -/
inductive SegState where
  | owned | saving | saved | restoring
  deriving DecidableEq, Repr, Inhabited

/-- One context-view segment: its owner, its logical quad and number, its state, its physical segment (512 × physical
quad + segment) and, while it is in the vault image, its bytes and its poisoned rows (R212, R213, R238). -/
structure Seg where
  ctx : Nat
  quad : Nat
  cseg : Nat
  st : SegState := .owned
  pseg : Nat := 0
  data : SMap Byte := []
  poison : List Nat := []
  deriving DecidableEq, Repr, Inhabited

/-! ## The die -/

/-- A claim-table entry (R245): granules `lo` to `hi` by virtual address, in the tables of `die`. -/
structure Claim where
  id : Nat
  die : Nat
  ctx : Nat
  core : Nat
  seq : Nat
  lo : Nat
  hi : Nat
  /-- the other package whose tables hold it (R346) -/
  pkg : Option Nat := none
  deriving DecidableEq, Repr, Inhabited

/-- A directory entry (R270, R271). A vault location is a designator and a row offset. -/
structure DirEntry where
  ctx : Nat
  key : BitVec 32
  tag : BitVec 4
  bk : Bool
  base : Word
  des : BitVec 25
  conv : Word
  deriving DecidableEq, Repr, Inhabited

/-- A conversion-state record (R273) with its patch bitmap and the patches in progress. -/
structure Conv where
  serial : Nat := 0
  obase : Word := 0
  nbase : Word := 0
  odes : BitVec 25 := 0
  ndes : BitVec 25 := 0
  obk : Bool := false
  nbk : Bool := false
  otag : BitVec 4 := 0
  ntag : BitVec 4 := 0
  key : BitVec 32 := 0
  pcount : Nat := 0
  pdone : Nat := 0
  done : List Nat := []
  flag : Ix6 := 0
  lcore : Nat := 0
  ppois : Nat := 0
  /-- the tensor entry that holds CONV, and the image's geometry -/
  tix : Nat := 0
  image : BitVec 512 := 0
  die : Nat := 0
  rel : BitVec 3 := 0
  /-- patches that a write demands (R274, R275) -/
  want : List Nat := []
  /-- patches in progress, each with the number of its elements that have moved (R274, R275) -/
  work : List (Nat × Nat) := []
  deriving DecidableEq, Repr, Inhabited

/-- The destination of a round (R280): a row by the place that the contribution names, and the element of an `fao`. -/
structure Dest where
  loc : Loc
  el : Option Nat := none
  deriving DecidableEq, Repr, Inhabited

/-- What a contribution does: a row of a `cred`, the elements as byte offset and bits, or a claim (R101, R183). -/
inductive Payload where
  | cred (op : Nat) (fmt : Nat) (els : List (Nat × Nat))
  | claim (inc : Nat)
  /-- a batched claim of a `cdsp` word: its token count (R354) -/
  | batch (count : Nat)
  deriving DecidableEq, Repr, Inhabited

/-- Where the result of a contribution goes. -/
inductive Reply where
  | reg (d : Reg)
  | command (tag : Tag)
  | remote (id : Nat)
  deriving DecidableEq, Repr, Inhabited

/-- A contribution on its way to, or buffered in, an ordered combine unit (R281). -/
structure Contrib where
  id : Nat
  die : Nat
  ctx : Nat
  core : Nat
  launch : Nat
  dest : Dest
  key : Nat
  n : Nat
  payload : Payload
  reply : Reply
  crc : BitVec 32 := 0
  reissue : Bool := false
  buffered : Bool := false
  /-- the cycle from which a refused contribution is offered again -/
  retryAt : Option Nat := none
  /-- a stop has moved past its `fao` (R204); the task that issued it has ended; a rule of R101 is broken -/
  left : Bool := false
  bad : Bool := false
  /-- the pc of its `fao` -/
  pc : Word := 0
  /-- the handle that named the row was absent, revoked or discarded: RESID's ABS as a load would set it, if so -/
  lost : Option Bool := none
  /-- the grant of an applied claim that its core has not taken yet, with the residency bits -/
  grant : Option (Word × BitVec 2) := none
  deriving DecidableEq, Repr, Inhabited

/-- A round of the ordered combine unit (R280). -/
structure Round where
  launch : Nat
  dest : Dest
  n : Nat
  next : Nat
  /-- for each applied key: the CRC and the grant -/
  applied : List (BitVec 32 × Word) := []
  deriving DecidableEq, Repr, Inhabited

/-- Gate SRAM contents of a die (R352): address and version of the loaded weights, and the weights. -/
structure Gate where
  addr : Word := 0
  ver : BitVec 32 := 0
  loaded : Bool := false
  weights : List Nat := []
  deriving DecidableEq, Repr, Inhabited

/-- A barrier id of one launch in one instance of a scope (R104, R248, R266, R300, R351). -/
structure Barrier where
  scope : Nat
  inst : Nat
  launch : Nat
  id : Nat
  /-- completed generations -/
  gen : Nat := 0
  arrived : List Nat := []
  /-- cycle of the last arrival, once every participant has arrived -/
  fullAt : Option Nat := none
  /-- arrivals of other packages for generations that are not complete: 1024 × generation + package (POD scope) -/
  pods : List Nat := []
  deriving DecidableEq, Repr, Inhabited

/-! ## Launches and the front end -/

/-- A launch (R293 to R298). -/
structure Launch where
  number : Nat
  ctx : Nat
  queue : Nat
  oprec : BitVec 2048
  /-- completion record address, 0 none -/
  crec : Word
  /-- T, and the count of the list -/
  t : Nat
  /-- the packet (queue index) or graph task that started it; none for a device-built launch -/
  packet : Option Nat := none
  graph : Option (Nat × Nat) := none
  /-- launch that built a device-built launch, and the packet behind which it and its packet's launches stand (R267) -/
  parent : Option Nat := none
  root : Nat := 0
  /-- operator record address, and whether the front end has read the record -/
  addr : Word := 0
  read : Bool := false
  argtab : Word := 0
  bad : Bool := false
  admitted : Bool := false
  started : List Nat := []
  /-- coverage code and shadow period in force (R257, R265) -/
  code : Nat := 0
  shadowS : Nat := 0
  slot : Word := 0
  pfd : Nat := 64
  quota : Nat := 0
  /-- preloads as read at admission: index, walk?, argument?, argument index, image -/
  preloads : List (Nat × Bool × Option Nat × BitVec 512) := []
  footprints : List (BitVec 512) := []
  /-- per core, how many of the indices that its placement may give it the walker has passed (R250) -/
  cursor : SMap Nat := []
  /-- per L: 1 done, 2 faulted, 3 skipped or empty; 0 not done (R298) -/
  status : SMap Nat := []
  /-- L of exited tasks that have not retired, with their core -/
  exited : List (Nat × Nat) := []
  progress : List (BitVec 256) := []
  unrecon : List Nat := []
  kept : Nat := 0
  shadows : Nat := 0
  shadowFault : Bool := false
  /-- the Burnisher has finished, and the e that it formed (R263) -/
  burnt : Bool := false
  eForm : Option Nat := none
  /-- the index that the Burnishers come to next, the sum and the number of the ratios of each shadow tile, and the rows of
  other packages that the tile at work needs: address, outcome, contents (R260, R263, R347) -/
  burnAt : Nat := 0
  tileSums : List (Nat × Nat) := []
  farRows : List (Nat × RemoteStatus × Row) := []
  error : Option Nat := none
  tstart : Nat := 0
  tretire : Nat := 0
  fenced : BitVec 8 := 0
  replayed : Bool := false
  gfail : Bool := false
  retired : Bool := false
  stopped : Bool := false
  barred : Bool := false
  reissue : Bool := false
  /-- linear indices whose tasks run again after a fence (R253, R282) -/
  redo : List Nat := []
  /-- the checks of its start have been made, and its tables filled (R256, R265, R294) -/
  begun : Bool := false
  /-- its queue was raised one level when it was admitted (R20, R299) -/
  raised : Bool := false
  /-- its place among the retirements that a live update holds back (R313) -/
  seen : Option Nat := none
  deriving DecidableEq, Repr, Inhabited

/-- Where a packet is (R291). -/
inductive PktStage where
  | consumed | stepped | done
  deriving DecidableEq, Repr, Inhabited

/-- A packet that the front end has consumed and not retired. -/
structure Packet where
  idx : Nat
  bits : BitVec 512
  stage : PktStage := .consumed
  status : BitVec 8 := 0
  launch : Option Nat := none
  graph : Option Nat := none
  /-- rows of a COPY already moved -/
  moved : Nat := 0
  /-- operations of the step on other packages: how many are sent, and the answers by their number (R290, R347) -/
  asked : Nat := 0
  got : List (Nat × RemoteStatus × Row) := []
  deriving DecidableEq, Repr, Inhabited

/-- The front end's state of one queue (R285 to R292). -/
structure PQueue where
  enabled : Bool := false
  refused : Bool := false
  active : Bool := false
  consumed : Nat := 0
  published : Nat := 0
  packets : List Packet := []
  last : BitVec 32 := 0
  nerr : Nat := 0
  waitSince : Nat := 0
  raised : Bool := false
  paused : Bool := false
  /-- order of the last operator admitted, for the round-robin of a level (R299) -/
  served : Nat := 0
  /-- nanosecond at which the ring monitor last found a packet, took the queue in, or let it go (R288) -/
  foundAt : Nat := 0
  deriving DecidableEq, Repr, Inhabited

/-- One recorded entry of a trace (R305). -/
structure TraceEntry where
  entry : Entry
  tb : Bool
  wseq : Nat
  deriving DecidableEq, Repr, Inhabited

/-- A recorded control wait (R303): a flag, a batch bound of an engine, or a fork. -/
inductive CtlWait where
  | flag (f : Nat)
  | batch (e : Eng) (n : Nat)
  | fork (k : Nat)
  deriving DecidableEq, Repr, Inhabited

/-- What was recorded for one task of one graph task's launch. -/
structure TaskTrace where
  gtask : Nat
  core : Nat
  l : Nat
  live : Bool := false
  entries : List (Eng × TraceEntry) := []
  waits : List CtlWait := []
  deriving DecidableEq, Repr, Inhabited

/-- A guard record (R305). -/
structure Guard where
  gtask : Nat
  core : Nat
  l : Nat
  tix : Nat
  index : Nat
  wide : Bool
  value : Word
  deriving DecidableEq, Repr, Inhabited

/-- A variant of a trace (R305, R308, R309). -/
structure Variant where
  number : Nat
  version : Nat := 1
  gang : Nat := 0
  rstep : Nat := 0
  rmap : Nat := 0
  fence : BitVec 8 := 0
  fencePkgs : List Nat := []
  tasks : List TaskTrace := []
  guards : List Guard := []
  /-- prefetch depths that the refiner chose, by graph task -/
  pfds : SMap Nat := []
  /-- nanosecond at which it most recently completed a step without a guard failure -/
  good : Option Nat := none
  /-- a proposed version: version, effect step, received? (R310); its tasks, depths and quad exchange -/
  next : Option (Nat × Nat × Bool) := none
  proposal : List TaskTrace := []
  newPfds : SMap Nat := []
  newMap : Option (Nat × Nat) := none
  deriving DecidableEq, Repr, Inhabited

/-- The trace of one shape hash. -/
structure Trace where
  hash : Word
  variants : List Variant := []
  deriving DecidableEq, Repr, Inhabited

/-- A graph step in progress (R301 to R308). -/
structure Graph where
  queue : Nat
  packet : Nat
  ctx : Nat
  step : Nat := 0
  hash : Word := 0
  tasks : List Word := []
  edges : List (Nat × Nat) := []
  argtab : Word := 0
  area : Word := 0
  /-- per task: the launch index once placed -/
  launches : SMap Nat := []
  /-- the variant being replayed; none runs dynamically -/
  variant : Option Nat := none
  /-- tasks placed in part: (gtask, core, l, entries placed per engine, waits satisfied) -/
  placed : List (Nat × Nat × Nat × List Nat × Nat) := []
  recording : List TaskTrace := []
  guards : List Guard := []
  gfail : Bool := false
  late : Bool := false
  heldSince : Option Nat := none
  done : Bool := false
  deriving DecidableEq, Repr, Inhabited

/-! ## Contexts, translation, images -/

/-- A request of `pgreq` that has no reply yet (R322, R323). -/
structure PageReq where
  seq : Nat
  core : Nat
  flag : Nat
  deriving DecidableEq, Repr, Inhabited

/-- A cached translation (R315, R316): unit 0 to 7 are the dies, 8 the front end's IOMMU. `wr` says that a write walk
filled it, so that its page is marked dirty already (R317, R318). -/
structure Tlb where
  unit : Nat
  ctx : Nat
  page : Nat
  frame : Nat
  w : Bool
  wr : Bool
  deriving DecidableEq, Repr, Inhabited

/-- What a context image in memory stands for (R324 to R326): the state that its bytes record. -/
structure Image where
  addr : Nat
  ctx : Nat
  complete : Bool := false
  cores : List (Nat × Core) := []
  segs : List Seg := []
  launches : List (Nat × Launch) := []
  barriers : List Barrier := []
  rounds : List Round := []
  convs : List (Nat × Conv) := []
  serial : Nat := 0
  prqSeq : Nat := 0
  reqs : List PageReq := []
  queues : List (Nat × PQueue) := []
  claims : List Claim := []
  contribs : List Contrib := []
  phases : List Phase := []
  dir : List DirEntry := []
  graphs : List (Nat × Graph) := []
  traces : List Trace := []
  /-- `TIME` at completion, by which RESUME knows the image, and the image's sections: kind, index, offset, length -/
  time : Nat := 0
  sections : List (Nat × Nat × Nat × Nat) := []
  deriving DecidableEq, Repr, Inhabited

/-- A context (R314): the state beside its translation record. -/
structure Ctx where
  enabled : Bool := false
  running : Bool := false
  /-- a stop or a pre-emption has been requested: the cause of R215 -/
  stopReq : Option Nat := none
  nextLaunch : Nat := 0
  prqSeq : Nat := 0
  reqs : List PageReq := []
  /-- slots of the error log written so far -/
  elog : Nat := 0
  serial : Nat := 0
  conv : SMap Conv := []
  /-- address of the image buffer it was stopped into, until it resumes -/
  image : Option Nat := none
  sliceAt : Nat := 0
  swept : Nat := 0
  deriving DecidableEq, Repr, Inhabited

/-! ## Host, firmware, debug, power, fabric -/

/-- BAR0 and BAR2 registers and the event arbiter (R327 to R330). -/
structure HostIf where
  cmd : Word := 0
  arg0 : Word := 0
  arg1 : Word := 0
  arg2 : Word := 0
  /-- the command at work: what it still has to do -/
  busy : Bool := false
  result : Option Nat := none
  /-- progress of HARVEST: pages examined -/
  at_ : Nat := 0
  ctxTable : SMap (BitVec 512) := []
  queueTable : SMap (BitVec 512) := []
  windows : SMap Word := []
  msix : SMap (BitVec 128) := []
  pba : List Nat := []
  evBase : Word := 0
  evLog : Nat := 8
  evNext : Nat := 0
  /-- messages sent and host reads answered, newest first: vector or data -/
  sent : List Nat := []
  readData : Nat := 0
  dbg : SMap Word := []
  deriving DecidableEq, Repr, Inhabited

/-- A firmware complex (R311 to R313). -/
structure Complex where
  role : BitVec 2 := 0
  csr : SMap Word := []
  failKey : BitVec 32 := 0
  deriving DecidableEq, Repr, Inhabited

/-- A boot-journal record (R339). -/
structure Journal where
  ts : Nat
  step : BitVec 16
  attempt : BitVec 8
  outcome : BitVec 8
  deriving DecidableEq, Repr, Inhabited

/-- A Gevor port (R341 to R344). -/
structure Port where
  corr : Nat := 0
  retry : Nat := 0
  lanes : BitVec 2 := 0
  st : BitVec 3 := 0
  /-- flits delivered on it, and accesses sent and not acknowledged -/
  flits : Nat := 0
  deriving DecidableEq, Repr, Inhabited

/-- What a remote operation of this package is (R347). -/
inductive RemoteKind where
  | load (core stamp : Nat)
  | store (core stamp : Nat)
  | atomic (core : Nat) (d : Reg) (bounded : Bool)
  /-- an `fao`, and whether a stop has moved past it (R204) -/
  | fao (core : Nat) (d : Reg) (left : Bool)
  | engRead (core : Nat) (tag : Tag)
  | copyWrite (core : Nat) (tag : Tag)
  | claim (core : Nat) (tag : Tag)
  /-- operation `k` of packet `idx` of a queue, and a posted write of the front end (R290) -/
  | front (queue idx k : Nat)
  | posted
  /-- a row of another package that a Burnisher reads or writes for a tile of a launch, by its place in the list (R260) -/
  | burn (launch tile : Nat)
  /-- a copy of a trace record for the collector (R357) -/
  | trace
  deriving DecidableEq, Repr, Inhabited

/-- A remote operation that has no reply yet. -/
structure Remote where
  id : Nat
  pkg : Nat
  va : Nat
  /-- the plane of its row, and the port that serves it (R343) -/
  plane : Nat := 0
  port : Nat
  ctx : Nat
  kind : RemoteKind
  sentAt : Nat
  op : RemoteOp := .readRow
  deriving DecidableEq, Repr, Inhabited

/-- The package's part in a gang (R345, R349, R356, R360). -/
structure Gang where
  id : Nat := 0
  self : Nat := 0
  size : Nat := 1
  ctx : Nat := 0
  groups : List (Nat × List Nat) := []
  /-- the package that collects the gang's trace records (R357) -/
  collector : Nat := 0
  fenced : List Nat := []
  /-- PTP: the offset last measured, the rate in force, whether a first lock has been reached, the last peer delay, the
  times of the last sync and peer-delay messages, messages of each kind sent -/
  offset : Int := 0
  rate : Int := 0
  locked : Bool := false
  delay : Int := 0
  t1 : Nat := 0
  t2 : Nat := 0
  seqSync : Nat := 0
  seqDelay : Nat := 0
  /-- answers sent to other packages: status code and data, newest last -/
  out : List (Nat × RemoteStatus × Row) := []
  /-- claims of other packages that wait for room in the table: package, virtual address, granules, core, sequence number
  (R245, R346) -/
  held : List (Nat × Nat × Nat × Nat × Nat) := []
  deriving DecidableEq, Repr, Inhabited

/-- An access group that a vault counts (R249): the core and agent it belongs to, its physical rows, its position. -/
structure Group where
  ctx : Nat
  core : Nat
  eng : Option Eng
  vault : Nat
  rows : List Nat
  place : Nat
  deriving DecidableEq, Repr, Inhabited

/-- The trace ring (R332 to R334): records written, records dropped, stop identifiers given. -/
structure TraceRing where
  head : Nat := 0
  count : Nat := 0
  dropped : Nat := 0
  stopId : Nat := 0
  /-- groups counted per vault since the last bank-conflict record (R249) -/
  bcCount : SMap Nat := []
  /-- groups that have reached their vault and are still to be counted, oldest first -/
  groups : List Group := []
  deriving DecidableEq, Repr, Inhabited

/-! ## The machine -/

/-- One turn of an agent: the order of turns is data (R190). -/
inductive Turn where
  /-- the control core of logical core n, or management core 256 to 263, takes an instruction -/
  | core (n : Nat)
  /-- the sequencer of engine e of core n takes its next word or entry -/
  | engine (n : Nat) (e : Eng)
  /-- a step that has no encoding -/
  | event (i : Instr)
  /-- k cycles pass -/
  | tick (k : Nat)
  /-- which waiting taker of a flag comes first from now on: 0 to 2 the queues V, M, C, 3 the control core (R102) -/
  | favour (k : Nat)
  /-- the part replaces an instruction-cache row of core n -/
  | evictI (n : Nat) (row : Nat)
  /-- the part replaces a cached translation -/
  | evictT (unit ctx page : Nat)
  /-- a single-bit error strikes a row of the vault of a physical quad (R240) -/
  | flip (pq row : Nat)
  deriving DecidableEq, Repr, Inhabited

/-- The package. `cores` is keyed by 512 × context + logical core; management core k is core 256 + k of context 0. -/
structure State where
  /-- who moves next; empty: the model's own order (log entry 5) -/
  agenda : List Turn
  /-- the actor of the current step: context, logical core, engine -/
  ctx : Nat
  cur : Nat
  eng : Eng
  favoured : Nat
  /-- arithmetic cycles since package reset (R85), the nanosecond counter (R331) and its remainder -/
  now : Nat
  time : Nat
  frac : Nat
  /-- arithmetic clock in units of 100 MHz, and the nanosecond of its last step (R340); SHUTDOWN has come -/
  clock : Nat
  clockAt : Option Nat
  dead : Bool
  /-- physical memory, device and host (bit 47), and the 16-byte words of it that are poisoned -/
  mem : List Host.Cell
  memPoison : List Nat
  /-- SRAM of the two firmware complexes (R311), keyed by 8388608 × complex + offset -/
  sram : List Host.Cell
  /-- vault bytes, keyed by 33554432 × physical quad + offset, and their poisoned 16-byte words -/
  vault : List Host.Cell
  vaultPoison : List Nat
  /-- rows that hold a single-bit error, as 262144 × physical quad + row, and the corrected-error counters, per vault (R240,
  R241) -/
  flips : List Nat
  vaultFixed : SMap Nat
  /-- rows that the patrol scrubber has read since its period began, in the order of that numbering, and the nanosecond
  at which it began (R241) -/
  scrubbed : Nat
  scrubAt : Nat
  cores : SMap Core
  phys : SMap Phys
  quads : SMap Quad
  phases : List Phase
  segs : List Seg
  claims : List Claim
  nextClaim : Nat
  dir : List DirEntry
  contribs : List Contrib
  nextContrib : Nat
  rounds : List Round
  gates : SMap Gate
  barriers : List Barrier
  launches : List Launch
  pqueues : SMap PQueue
  graphs : List Graph
  traces : List Trace
  ctxs : SMap Ctx
  tlb : List Tlb
  images : List Image
  remap : SMap (BitVec 32)
  remapVersion : BitVec 32
  fencedDies : BitVec 8
  host : HostIf
  complexes : SMap Complex
  journal : List Journal
  attempt : Nat
  recovery : Option (BitVec 16 × BitVec 8)
  ports : SMap Port
  remotes : List Remote
  nextRemote : Nat
  gang : Gang
  ring : TraceRing
  retiredChannels : List (Nat × Nat)
  /-- how many free values the part has drawn (log entry 8); the model's own field -/
  draws : Nat
  /-- which agent moves next while the agenda is empty; the model's own field -/
  turn : Nat
  deriving DecidableEq, Repr, Inhabited

/-- The complex that is active after power-up: Pommel (R311). -/
def Complex.resetOf (k : Nat) : Complex := { role := if k = 0 then 0 else 1 }

/-- The package right after power-up, before firmware's boot steps (R12, R85, R251, R311, R331, R339). -/
def State.reset : State :=
  { agenda := [], ctx := 0, cur := 0, eng := .v, favoured := 3, now := 0, time := 0, frac := 0, clock := 25, clockAt := none,
    dead := false, mem := [], memPoison := [], sram := [], vault := [], vaultPoison := [], flips := [], vaultFixed := [],
    scrubbed := 0, scrubAt := 0, cores := [], phys := [], quads := [], phases := [], segs := [], claims := [], nextClaim := 0, dir := [],
    contribs := [], nextContrib := 0, rounds := [], gates := [], barriers := [], launches := [], pqueues := [],
    graphs := [], traces := [], ctxs := [], tlb := [], images := [], remap := [], remapVersion := 0,
    fencedDies := 0, host := {}, complexes := [(1, Complex.resetOf 1)], journal := [], attempt := 0,
    recovery := none, ports := [], remotes := [], nextRemote := 0, gang := {}, ring := {}, retiredChannels := [],
    draws := 0, turn := 0 }

end Sys2Proof.Machine
end

