-- ==== Sys2Proof/Machine/Mem.lean ====
section
/-! DEFINITION. Physical memory and vault bytes: little-endian numbers (R4), whole rows (R192), byte masks (R66),
poisoned words (R240). Both spaces are canonical cell lists; an unlisted byte reads as zero (log entry 2). -/

namespace Sys2Proof.Machine

/-- What a byte that nothing has written reads as (log entry 2). -/
def blankByte : Byte := 0

/-- One byte of a space. -/
def readByte (m : List Host.Cell) (a : Nat) : Byte := SMap.get blankByte m a

/-- Writes one byte; the canonical form stays. -/
def writeByte (m : List Host.Cell) (a : Nat) (b : Byte) : List Host.Cell := SMap.set blankByte m a b

/-- The canonical form of a space: addresses rise strictly, no listed byte is blank. -/
def Memory.wf (m : List Host.Cell) : Bool := SMap.wf blankByte m

/-- The little-endian number of `n` bytes from an address. -/
def readNat (m : List Host.Cell) (a : Nat) : Nat → Nat
  | 0 => 0
  | n + 1 => (readByte m a).toNat + 256 * readNat m (a + 1) n

/-- Writes the `n` low bytes of a number, little-endian. -/
def writeNat (m : List Host.Cell) (a : Nat) : Nat → Nat → List Host.Cell
  | 0, _ => m
  | n + 1, v => writeNat (writeByte m a (BitVec.ofNat 8 v)) (a + 1) n (v / 256)

/-- The first byte of the row that holds an address. -/
def rowBase (a : Nat) : Nat := a / 128 * 128

/-- Reads a row (R192). -/
def readRow (m : List Host.Cell) (a : Nat) : Row := BitVec.ofNat 1024 (readNat m (rowBase a) 128)

/-- Writes `n` bytes of a number from bit position `i` of a byte mask on. -/
def writeMasked (m : List Host.Cell) (a : Nat) (mask : BitVec 128) : Nat → Nat → Nat → List Host.Cell
  | 0, _, _ => m
  | n + 1, i, v =>
    writeMasked (if mask.getLsbD i then writeByte m (a + i) (BitVec.ofNat 8 v) else m) a mask n (i + 1) (v / 256)

/-- Writes the masked bytes of a row (R66, R192). -/
def writeRow (m : List Host.Cell) (a : Nat) (data : Row) (mask : BitVec 128) : List Host.Cell :=
  writeMasked m (rowBase a) mask 128 0 data.toNat

/-- A mask of `n` bytes from byte `i` on. -/
def byteMask (i n : Nat) : BitVec 128 := BitVec.ofNat 128 ((2 ^ n - 1) * 2 ^ i)

/-- The bits of the first n bytes of a byte mask. -/
def expandMask : Nat → Nat → Nat
  | 0, _ => 0
  | n + 1, m => (if m % 2 = 1 then 255 else 0) + 256 * expandMask n (m / 2)

/-- A number placed at byte `i` of a row. -/
def placeAt (i v : Nat) : Row := BitVec.ofNat 1024 (v * 2 ^ (8 * i))

/-- Element `el` of a row, `n` bytes wide. -/
def rowElement (r : Row) (n el : Nat) : Nat := r.toNat / 2 ^ (8 * n * el) % 2 ^ (8 * n)

/-! ## Poisoned words (R240) -/

/-- Adds a number to a list without repeats. -/
def insertNat (l : List Nat) (k : Nat) : List Nat := if l.contains k then l else k :: l

/-- Removes a number from a list. -/
def removeNat (l : List Nat) (k : Nat) : List Nat := l.filter (fun j => j != k)

/-- Whether some word of the row is poisoned. -/
def rowPoisoned (p : List Nat) (a : Nat) : Bool := p.any (fun w => w / 8 == a / 128)

/-- A masked write clears the poison of every 16-byte word that it covers entirely. -/
def clearPoison (p : List Nat) (a : Nat) (mask : BitVec 128) : List Nat :=
  p.filter (fun w => !(w / 8 == a / 128 && mask.toNat / 2 ^ (16 * (w % 8)) % 65536 == 65535))

/-! ## The two spaces of the state -/

/-- A physical place: a byte of a vault, or of device or host memory. -/
structure Spot where
  vault : Bool
  addr : Nat
  deriving DecidableEq, Repr, Inhabited

/-- The bytes of the space that holds a spot. -/
def State.space (s : State) (vault : Bool) : List Host.Cell := if vault then s.vault else s.mem

/-- The poisoned words of a space. -/
def State.poison (s : State) (vault : Bool) : List Nat := if vault then s.vaultPoison else s.memPoison

/-- Whether the row at a spot is poisoned. -/
def State.poisoned (s : State) (p : Spot) : Bool := rowPoisoned (s.poison p.vault) p.addr

/-- The row at a spot; a poisoned row reads as zeros (R66). -/
def State.rowAt (s : State) (p : Spot) : Row := if s.poisoned p then 0 else readRow (s.space p.vault) p.addr

/-- Writes masked bytes of the row at a spot, and rewrites the ECC words it covers (R66, R240). -/
def State.writeRowAt (s : State) (p : Spot) (data : Row) (mask : BitVec 128) : State :=
  if p.vault then
    { s with vault := writeRow s.vault p.addr data mask, vaultPoison := clearPoison s.vaultPoison p.addr mask }
  else
    { s with mem := writeRow s.mem p.addr data mask, memPoison := clearPoison s.memPoison p.addr mask }

/-- An agent reads a row: a single-bit error of a vault row is corrected and counted (R240). -/
def State.correct (s : State) (p : Spot) : State :=
  let row := p.addr / 128
  if p.vault && s.flips.contains row then
    { s with flips := removeNat s.flips row,
             vaultFixed := SMap.set 0 s.vaultFixed (row / 262144) (SMap.get 0 s.vaultFixed (row / 262144) + 1) }
  else s

/-- Poisons every word of a row (R278, R254). -/
def State.poisonRow (s : State) (p : Spot) : State :=
  let ws := (List.range 8).map (fun i => p.addr / 128 * 8 + i)
  if p.vault then { s with vaultPoison := ws.foldl insertNat s.vaultPoison }
  else { s with memPoison := ws.foldl insertNat s.memPoison }

/-- A 64-bit word of physical memory (tables, rings). -/
def State.word64 (s : State) (a : Nat) : Nat := if s.poisoned ⟨false, a⟩ then 0 else readNat s.mem a 8

/-- Writes `n` bytes, inside one row of physical memory. -/
def State.putPhys (s : State) (a n v : Nat) : State :=
  s.writeRowAt ⟨false, a⟩ (placeAt (a % 128) v) (byteMask (a % 128) n)

/-- Zeroes a segment's bytes and poison (a fresh allocation of vault rows). -/
def eraseRange (m : SMap α) (lo n : Nat) : SMap α := m.filter (fun c => !(lo ≤ c.1 && c.1 < lo + n))

end Sys2Proof.Machine
end

