-- ==== Sys2Proof/Machine/Xlat.lean ====
section
/-! DEFINITION. Two-stage translation (R314 to R317), the translation caches, device virtual addresses and their
package field (R315, R345), vault segments (R212, R237, R238). -/

namespace Sys2Proof.Machine

/-- Bits hi to lo of a number. -/
def bits (x hi lo : Nat) : Nat := x / 2 ^ lo % 2 ^ (hi - lo + 1)

/-- One bit of a number. -/
def bit (x k : Nat) : Bool := x / 2 ^ k % 2 == 1

/-! ## Context records -/

/-- The context's state beside its record. -/
def State.context (s : State) (c : Nat) : Ctx := SMap.get {} s.ctxs c

/-- Replaces a context's state. -/
def State.setContext (s : State) (c : Nat) (x : Ctx) : State := { s with ctxs := SMap.set {} s.ctxs c x }

/-- The translation record of a context (R314). -/
def State.ctxRecord (s : State) (c : Nat) : Nat := (SMap.get 0 s.host.ctxTable c).toNat

/-- R314's fields. -/
def recS1Root (r : Nat) : Nat := bits r 511 448
def recS2Root (r : Nat) : Nat := bits r 447 384
def recPrq (r : Nat) : Nat := bits r 383 320
def recPrp (r : Nat) : Nat := bits r 319 256
def recElog (r : Nat) : Nat := bits r 255 192
def recElogSz (r : Nat) : Nat := bits r 71 64
def recPrvec (r : Nat) : Nat := bits r 47 32
def recHeat (r : Nat) : Bool := bit r 3
def recEccTrap (r : Nat) : Bool := bit r 2
def recS2En (r : Nat) : Bool := bit r 1
def recValid (r : Nat) : Bool := bit r 0

/-! ## Page-table entries (R315) -/

def pteV (e : Nat) : Bool := bit e 0
def pteLeaf (e : Nat) : Bool := bit e 3
def pteR (e : Nat) : Bool := bit e 4
def pteW (e : Nat) : Bool := bit e 5
def pteD (e : Nat) : Bool := bit e 6
def pteDisc (e : Nat) : Bool := bit e 7
def pteAddr (e : Nat) : Nat := bits e 47 13 * 8192

/-- Whether an entry breaks a rule of R315's table at its level. -/
def pteMalformed (level e : Nat) : Bool :=
  bits e 51 48 != 0 || bit e 12 || bits e 2 1 != 0
    || (pteLeaf e && (level == 1 || bits e 15 13 != 0 || (level == 2 && bits e 26 16 != 0)))
    || (!pteLeaf e && (level == 3 || bits e 11 4 != 0))

/-- How one stage of a walk ends. -/
inductive Stage where
  /-- the output address, the entry's physical address when the stage is on, and the entry -/
  | ok (addr : Nat) (leaf : Option Nat) (entry : Nat)
  | absent
  | malformed (stage level addr : Nat)
  deriving DecidableEq, Repr, Inhabited

/-- The index of an address at a level (R315): level 1 is 9 bits at stage 1 and 10 bits at stage 2. -/
def pteIndex (stage level a : Nat) : Nat :=
  match level with
  | 1 => if stage = 1 then bits a 46 38 else bits a 47 38
  | 2 => bits a 37 27
  | _ => bits a 26 16

/-- The address that a leaf maps an input address to. -/
def leafAddr (level e a : Nat) : Nat := if level = 2 then pteAddr e + bits a 26 0 else pteAddr e + bits a 15 0

/-- One table lookup: the entry at a physical address decides whether the walk ends. -/
def pteCheck (stage level a pa e : Nat) : Except Nat Stage :=
  if !pteV e then .ok .absent
  else if pteMalformed level e then .ok (.malformed stage level a)
  else if pteLeaf e then (if pteR e then .ok (.ok (leafAddr level e a) (some pa) e) else .ok .absent)
  else .error (pteAddr e)

/-- Stage 2 from a table at `level`, `fuel` levels to go. -/
def walk2 (s : State) (a : Nat) : Nat → Nat → Nat → Stage
  | 0, _, _ => .absent
  | fuel + 1, level, table =>
    let pa := table + 8 * pteIndex 2 level a
    match pteCheck 2 level a pa (s.word64 pa) with
    | .ok r => r
    | .error next => walk2 s a fuel (level + 1) next

/-- Stage 2 of an intermediate address (R314, R315). -/
def stage2 (s : State) (r ipa : Nat) : Stage :=
  if recS2En r then walk2 s ipa 3 1 (recS2Root r) else .ok ipa none 0

/-- Stage 1: its table reads go through stage 2. -/
def walk1 (s : State) (r a : Nat) : Nat → Nat → Nat → Stage
  | 0, _, _ => .absent
  | fuel + 1, level, table =>
    match stage2 s r (table + 8 * pteIndex 1 level a) with
    | .ok pa _ _ =>
      match pteCheck 1 level a pa (s.word64 pa) with
      | .ok x => x
      | .error next => walk1 s r a fuel (level + 1) next
    | bad => bad

/-- What a walk finds: the state, the physical address, whether it is writable, the two leaves, a malformed entry. -/
structure WalkResult where
  st : Residency
  pa : Nat := 0
  w : Bool := false
  leaves : List Nat := []
  bad : Option (Nat × Nat × Nat) := none
  deriving DecidableEq, Repr, Inhabited

/-- The translation of a local address A by both stages (R315, R316). -/
def walkBoth (s : State) (ctx a : Nat) : WalkResult :=
  let r := s.ctxRecord ctx
  if !recValid r then { st := .absent }
  else match walk1 s r a 3 1 (recS1Root r) with
  | .malformed st l x => { st := .absent, bad := some (st, l, x) }
  | .absent => { st := .absent }
  | .ok ipa leaf1 e1 =>
    match stage2 s r ipa with
    | .malformed st l x => { st := .absent, bad := some (st, l, x) }
    | .absent => { st := .absent }
    | .ok pa leaf2 e2 =>
      let disc := pteDisc e1 || (leaf2.isSome && pteDisc e2)
      let w := pteW e1 && (leaf2.isNone || pteW e2)
      { st := if disc then .discarded else .resident, pa := pa, w := w, leaves := leaf1.toList ++ leaf2.toList }

/-- The heat and dirty update of one leaf (R317): one indivisible read-modify-write. -/
def touchLeaf (wr : Bool) (s : State) (pa : Nat) : State :=
  let e := s.word64 pa
  let e' := if wr then (if bits e 11 10 < 3 then e + 1024 else e) else (if bits e 9 8 < 3 then e + 256 else e)
  let e'' := if wr && !pteD e' then e' + 64 else e'
  s.putPhys pa 8 e''

/-- Updates both leaves of a walk (R317). -/
def touchLeaves (wr : Bool) (s : State) (leaves : List Nat) : State := leaves.foldl (touchLeaf wr) s

/-! ## Addresses -/

/-- Where a virtual address lies (R315, R345). -/
inductive Where where
  | here (a : Nat)
  | package (g : Nat)
  | nowhere
  deriving DecidableEq, Repr, Inhabited

/-- The package field of a virtual address (R315). -/
def State.whereIs (s : State) (va : Nat) : Where :=
  let p := bits va 56 47
  if 2 ^ 57 ≤ va then .nowhere
  else if p = 0x3FF ∨ p = s.gang.self then .here (bits va 46 0)
  else if s.gang.id ≠ 0 ∧ p < s.gang.size then .package p
  else .nowhere

/-- A cached translation, for a write one that a write walk filled (R316, R318). -/
def State.cached (s : State) (unit ctx page : Nat) (wr : Bool) : Option Tlb :=
  s.tlb.find? (fun t => t.unit == unit && t.ctx == ctx && t.page == page && (!wr || t.wr))

/-- The result of a translation of a local page. -/
structure Xlat where
  st : Residency
  frame : Nat := 0
  w : Bool := false
  bad : Option (Nat × Nat × Nat) := none
  deriving DecidableEq, Repr, Inhabited

/-- A walk for `wr` with its updates, filling a cache when the page is resident (R316, R317). -/
def State.walkFill (s : State) (unit ctx a : Nat) (wr : Bool) : State × Xlat :=
  let r := walkBoth s ctx a
  let s1 := touchLeaves wr s r.leaves
  let x : Xlat := { st := r.st, frame := r.pa / 65536, w := r.w, bad := r.bad }
  if r.st = .resident then
    let t : Tlb := { unit := unit, ctx := ctx, page := a / 65536, frame := r.pa / 65536, w := r.w, wr := wr }
    ({ s1 with tlb := t :: s1.tlb.filter (fun u => !(u.unit == unit && u.ctx == ctx && u.page == a / 65536)) }, x)
  else (s1, x)

/-- The translation of a local page for a read or a write: a cache hit updates nothing (R317). -/
def State.translate (s : State) (unit ctx a : Nat) (wr : Bool) : State × Xlat :=
  match s.cached unit ctx (a / 65536) wr with
  | some t => (s, { st := .resident, frame := t.frame, w := t.w })
  | none => s.walkFill unit ctx a wr

/-- The physical address of a local virtual address in a frame. -/
def framePA (frame a : Nat) : Nat := frame * 65536 + a % 65536

/-! ## Vault segments -/

/-- The owner-table entry of a context-view segment (R212, R238). -/
def State.seg (s : State) (ctx quad cseg : Nat) : Option Seg :=
  s.segs.find? (fun g => g.ctx == ctx && g.quad == quad && g.cseg == cseg)

/-- Where a context-view row of a vault lies. -/
inductive VaultRow where
  | at_ (addr : Nat)
  | wait (g : Seg)
  | notHeld
  deriving DecidableEq, Repr, Inhabited

/-- The byte address of a context-view row in the vault space (R237, R238); a segment in motion or in the image makes
the access wait (R212). -/
def State.vaultRow (s : State) (ctx quad row : Nat) : VaultRow :=
  match s.seg ctx quad (row / 512) with
  | none => .notHeld
  | some g => if g.st = .owned then .at_ (g.pseg * 65536 + row % 512 * 128) else .wait g

/-- General segments that a context holds in a logical quad's vault (R238). -/
def State.segCount (s : State) (ctx quad : Nat) : Nat :=
  (s.segs.filter (fun g => g.ctx == ctx && g.quad == quad && g.cseg < 448)).length

/-- Whether the context holds every segment of a range (R97, R238). -/
def State.holdsSegs (s : State) (ctx quad first : Nat) : Nat → Bool
  | 0 => true
  | n + 1 => (s.seg ctx quad (first + n)).isSome && State.holdsSegs s ctx quad first n

/-- The logical quad that a vault designator names (R97), for a core of `own`. -/
def desQuad (own : Nat) (des : Nat) : Nat := if des % 128 = 64 then own else des % 128

/-- The first segment and the segment count of a vault designator (R97). -/
def desFirst (des : Nat) : Nat := bits des 15 7
def desCount (des : Nat) : Nat := bits des 24 16

/-- Segments named by several logical quads of one physical vault never coincide: the owner table gives each physical
segment to one context segment (R252). -/
def State.segFree (s : State) (pseg : Nat) : Bool := !s.segs.any (fun g => (g.st == .owned || g.st == .saving) && g.pseg == pseg)

end Sys2Proof.Machine
end

