-- ==== Sys2Proof/Machine/Base.lean ====
section
/-! DEFINITION. Access to the parts of the state: cores, quads, physical cores, launches and their operator records,
registers; the event arbiter, the trace ring and the error log (R330, R332 to R334, R396, R397). -/

namespace Sys2Proof.Machine

/-! ## Cores -/

/-- The key of a logical core of a context. -/
def coreKey (ctx n : Nat) : Nat := 512 * ctx + n

/-- A logical core's state. -/
def State.coreAt (s : State) (ctx n : Nat) : Core := SMap.get {} s.cores (coreKey ctx n)

/-- Replaces a logical core's state. -/
def State.setCoreAt (s : State) (ctx n : Nat) (c : Core) : State :=
  { s with cores := SMap.set {} s.cores (coreKey ctx n) c }

/-- The core of the current actor. -/
def State.core (s : State) : Core := s.coreAt s.ctx s.cur

/-- Replaces the core of the current actor. -/
def State.setCore (s : State) (c : Core) : State := s.setCoreAt s.ctx s.cur c

/-- Changes the core of the current actor. -/
def State.upd (s : State) (f : Core → Core) : State := s.setCore (f s.core)

/-- Whether the actor is a management core in supervisor mode (R311). -/
def State.supervisor (s : State) : Bool := 256 ≤ s.cur

/-- A queue of a core. -/
def Core.queue (c : Core) : Eng → Queue
  | .v => c.qv
  | .m => c.qm
  | .c => c.qc

/-- Replaces a queue of a core. -/
def Core.setQueue (c : Core) (e : Eng) (q : Queue) : Core :=
  match e with
  | .v => { c with qv := q }
  | .m => { c with qm := q }
  | .c => { c with qc := q }

/-- The number of an engine (R55). -/
def engNum : Eng → Nat
  | .v => 0
  | .m => 1
  | .c => 2

/-- The engine of a number below 3. -/
def engOf (k : Nat) : Eng := if k = 0 then .v else if k = 1 then .m else .c

/-- The queue of the current engine. -/
def State.q (s : State) : Queue := s.core.queue s.eng

/-- Replaces the queue of the current engine. -/
def State.setQ (s : State) (q : Queue) : State := s.upd (fun c => c.setQueue s.eng q)

/-! ## Registers (R73, R82) -/

/-- A scalar register; s0 reads zero. -/
def Core.rd (c : Core) (r : Reg) : Word := if r = 0 then 0 else SMap.get 0 c.s r.toNat

/-- Writes a scalar register; a write to s0 is discarded. -/
def Core.wr (c : Core) (r : Reg) (v : Word) : Core := if r = 0 then c else { c with s := SMap.set 0 c.s r.toNat v }

/-- A mask register as last settled; m0 reads all ones. -/
def Core.mask (c : Core) (k : Nat) : BitVec 128 := if k = 0 then BitVec.allOnes 128 else SMap.get 0 c.m k

/-- Writes a mask register; a write to m0 is discarded. -/
def Core.setMask (c : Core) (k : Nat) (x : BitVec 128) : Core := if k = 0 then c else { c with m := SMap.set 0 c.m k x }

/-- A handle; h0 is the null handle. -/
def Core.handle (c : Core) (k : Nat) : Handle := if k = 0 then {} else SMap.get {} c.h k

/-- Replaces a handle other than h0. -/
def Core.setHandle (c : Core) (k : Nat) (x : Handle) : Core :=
  if k = 0 then c else { c with h := SMap.set {} c.h k x }

/-- The end of an instruction: the pc moves on and the core no longer waits. -/
def Core.advancePc (c : Core) (bytes : Nat) : Core := { c with pc := c.pc + BitVec.ofNat 64 bytes, waiting := none }

/-- The logical core that a remote operation belongs to. -/
def RemoteKind.core : RemoteKind → Nat
  | .load n _ => n
  | .store n _ => n
  | .atomic n _ _ => n
  | .fao n _ _ => n
  | .engRead n _ => n
  | .copyWrite n _ => n
  | .claim n _ => n
  | .front .. => 256
  | .posted => 256
  | .burn .. => 256
  | .trace => 256

/-! ## Physical cores and quads (R251, R252) -/

/-- The remap entry of a logical core. -/
def State.remapEntry (s : State) (n : Nat) : Nat := (SMap.get 0 s.remap n).toNat

/-- The physical core that serves a logical core; none while the entry is not valid. -/
def State.physOf (s : State) (n : Nat) : Option Nat :=
  let e := s.remapEntry n
  if bit e 31 then some (bits e 23 16) else none

/-- A physical core's state. -/
def State.physCore (s : State) (p : Nat) : Phys := SMap.get {} s.phys p

/-- Replaces a physical core's state. -/
def State.setPhys (s : State) (p : Nat) (x : Phys) : State := { s with phys := SMap.set {} s.phys p x }

/-- The context whose logical core n its physical core serves now. -/
def State.servedCtx (s : State) (n : Nat) : Option Nat :=
  if 256 ≤ n then some 0
  else match s.physOf n with
  | none => none
  | some p =>
    match (s.physCore p).serving with
    | some (c, k) => if k = n then some c else none
    | none => none

/-- Whether a logical core of a context is served now. -/
def State.served (s : State) (ctx n : Nat) : Bool := s.servedCtx n == some ctx

/-- The state of a bank of a core (R207, R215). -/
def Core.bankState (c : Core) (b : Nat) : BankState := SMap.get .launch c.bank b

/-- Replaces it. -/
def Core.setBank (c : Core) (b : Nat) (x : BankState) : Core := { c with bank := SMap.set .launch c.bank b x }

/-- Whether bank F of logical core n is live on the physical core of its number: engines run only then (R206), and only
then rigging terms fire and a queue's hardware slots take entries (R209). -/
def State.holdsF (s : State) (c : Core) (n : Nat) : Bool :=
  match c.bankState 6, s.physOf n with
  | .live p, some q => p == q
  | _, _ => false

/-- The context whose logical core n runs engines now: it is served, and owns bank F (R206). -/
def State.engineCtx (s : State) (n : Nat) : Option Nat :=
  (s.servedCtx n).filter (fun ctx => 256 ≤ n || s.holdsF (s.coreAt ctx n) n)

/-- The physical quad that serves a logical quad. -/
def State.physQuad (s : State) (lq : Nat) : Nat :=
  match s.physOf (4 * lq) with
  | some p => p / 4
  | none => lq

/-- The logical quad and die of a logical core (R9). -/
def quadOf (n : Nat) : Nat := n / 4
/-- The logical die of a logical core (R9). -/
def dieOf (n : Nat) : Nat := n / 32

/-- A quad's matrix-array state. -/
def State.quad (s : State) (q : Nat) : Quad := SMap.get {} s.quads q

/-- Replaces a quad's matrix-array state. -/
def State.setQuad (s : State) (q : Nat) (x : Quad) : State := { s with quads := SMap.set {} s.quads q x }

/-! ## Operator records (R293) -/

/-- The 64-bit word at a byte offset of an operator record. -/
def orWord (r : BitVec 2048) (off : Nat) : Nat := bits r.toNat (8 * off + 63) (8 * off)

def orEntry (r : BitVec 2048) : Nat := orWord r 0x00 / 4 * 4
def orHand (r : BitVec 2048) : Nat := orWord r 0x08 / 4 * 4
def orGx (r : BitVec 2048) : Nat := bits (orWord r 0x10) 15 0 + 1
def orGy (r : BitVec 2048) : Nat := bits (orWord r 0x10) 31 16 + 1
def orGz (r : BitVec 2048) : Nat := bits (orWord r 0x10) 47 32 + 1
def orGmode (r : BitVec 2048) : Nat := bits (orWord r 0x10) 49 48
def orPlace (r : BitVec 2048) : Nat := bits (orWord r 0x10) 51 50
def orDet (r : BitVec 2048) : Bool := bit (orWord r 0x10) 52
def orOvl (r : BitVec 2048) : Bool := bit (orWord r 0x10) 53
def orLive (r : BitVec 2048) : Bool := bit (orWord r 0x10) 54
def orCov (r : BitVec 2048) : Bool := bit (orWord r 0x10) 55
def orCntind (r : BitVec 2048) : Bool := bit (orWord r 0x10) 56
def orList (r : BitVec 2048) : Nat := orWord r 0x18
def orCount (r : BitVec 2048) : Nat := orWord r 0x20
def orEtab (r : BitVec 2048) : Nat := orWord r 0x28
def orC0 (r : BitVec 2048) : Nat := bits (orWord r 0x30) 7 0
def orM (r : BitVec 2048) : Nat := bits (orWord r 0x30) 15 8 + 1
def orPfd (r : BitVec 2048) : Nat := bits (orWord r 0x30) 24 16
def orCode (r : BitVec 2048) : Nat := bits (orWord r 0x38) 7 0
def orLtype (r : BitVec 2048) : Nat := bits (orWord r 0x38) 10 8
def orPer (r : BitVec 2048) : Nat := bits (orWord r 0x38) 12 11
def orPx (r : BitVec 2048) : Nat := bits (orWord r 0x38) 15 13
def orPy (r : BitVec 2048) : Nat := bits (orWord r 0x38) 18 16
def orSlot (r : BitVec 2048) : Nat := orWord r 0x40
def orTw (r : BitVec 2048) : Nat := bits (orWord r 0x48) 15 0
def orTh (r : BitVec 2048) : Nat := bits (orWord r 0x48) 31 16
def orOutn (r : BitVec 2048) : Nat := bits (orWord r 0x48) 34 32
def orOut (r : BitVec 2048) (k : Nat) : Nat := bits (orWord r 0x48) (40 + 6 * k) (35 + 6 * k)
def orPre (r : BitVec 2048) : Nat := orWord r 0x50
def orNpre (r : BitVec 2048) : Nat := bits (orWord r 0x58) 6 0
def orFpt (r : BitVec 2048) : Nat := orWord r 0x60
def orNfp (r : BitVec 2048) : Nat := bits (orWord r 0x68) 6 0
def orVseg (r : BitVec 2048) : Nat := bits (orWord r 0x70) 8 0
def orBpg (r : BitVec 2048) : Nat := bits (orWord r 0x70) 12 9
def orQuota (r : BitVec 2048) : Nat := bits (orWord r 0x78) 31 0
def orKind (r : BitVec 2048) : Nat := bits (orWord r 0x80) 31 0
def orCrec (r : BitVec 2048) : Nat := orWord r 0x88

/-- A launch of the launch list. -/
def State.launchAt (s : State) (i : Nat) : Option Launch := s.launches[i]?

/-- Replaces a launch. -/
def State.setLaunch (s : State) (i : Nat) (x : Launch) : State := { s with launches := s.launches.set i x }

/-- Changes a launch, if the index names one. -/
def State.updLaunch (s : State) (i : Nat) (f : Launch → Launch) : State :=
  match s.launchAt i with
  | some x => s.setLaunch i (f x)
  | none => s

/-- The launch that is active on a core. -/
def State.launchOf (s : State) (c : Core) : Option Launch := c.launch.bind s.launchAt

/-- Whether a logical core lies in a launch's span (R10). -/
def Launch.spans (x : Launch) (n : Nat) : Bool := orC0 x.oprec ≤ n && n < orC0 x.oprec + orM x.oprec

/-- Whether the core's launch runs in deterministic mode (R85). -/
def State.det (s : State) (c : Core) : Bool :=
  match s.launchOf c with
  | some x => orDet x.oprec
  | none => false

/-- Whether the launch of an entry runs in deterministic mode (R85, R244). -/
def State.entryDet (s : State) (x : Entry) : Bool :=
  match s.launchAt x.launch with
  | some y => orDet y.oprec
  | none => false

/-! ## Event arbiter and trace (R330, R332 to R334) -/

/-- Raises an MSI-X vector: a masked entry sets its pending bit. -/
def State.raise (s : State) (vec : Nat) : State :=
  let h := s.host
  if bit (SMap.get 0 h.msix vec).toNat 96 then { s with host := { h with pba := insertNat h.pba vec } }
  else { s with host := { h with sent := vec :: h.sent } }

/-- Appends an event record and sends its message (R330). -/
def State.event (s : State) (kind ctx arg vec : Nat) : State :=
  let h := s.host
  let n := h.evNext
  let size := 2 ^ h.evLog
  let ph := n / size % 2
  let rec_ := (Config.eventSource kind).toNat + ctx * 2 ^ 16 + arg * 2 ^ 32 + ph * 2 ^ 96
  let s1 := { s with host := { h with evNext := n + 1 } }
  (if h.evBase = 0 then s1 else s1.putPhys (h.evBase.toNat + n % size * 16) 16 rec_).raise vec

/-- A debug register of the trace region, by the model's own offsets (log entry 13). -/
def State.dbg (s : State) (off : Nat) : Nat := (SMap.get 0 s.host.dbg off).toNat

/-- The trace ring's base (PA), its size in records, and its mode: 0 stop, 1 wrap (R334). -/
def State.traceBase (s : State) : Nat := s.dbg 0x00
/-- Ring size in records. -/
def State.traceSize (s : State) : Nat := s.dbg 0x08
/-- Ring mode. -/
def State.traceWrap (s : State) : Bool := s.dbg 0x10 == 1
/-- HCSMP (R334). -/
def State.hcsmp (s : State) : Nat := s.dbg 0x18
/-- BCTHR and BCSMP (R249); zero stands for the default. -/
def State.bcthr (s : State) (v : Nat) : Nat :=
  if s.dbg (0x1000 + 8 * v) = 0 then 4 else s.dbg (0x1000 + 8 * v)
/-- BCSMP of a vault. -/
def State.bcsmp (s : State) (v : Nat) : Nat :=
  if s.dbg (0x2000 + 8 * v) = 0 then 1024 else s.dbg (0x2000 + 8 * v)

/-- Gang trace distribution is enabled (R357). -/
def State.traceShared (s : State) : Bool := s.dbg 0x28 % 2 == 1

/-- The port that serves a plane: its own, or the next one that is up (R343). -/
def State.portFor (s : State) (plane : Nat) : Nat :=
  (((List.range 64).map (fun i => (plane + i) % 64)).find? (fun p => (SMap.get {} s.ports p).st == 2)).getD plane

/-- Sends a remote operation; the port is the one that its plane uses (R343). -/
def State.sendRemote (s : State) (pkg va : Nat) (kind : RemoteKind) (op : RemoteOp) : State :=
  let plane := Config.plane s.gang.id (va / 128) % 64
  let r : Remote := { id := s.nextRemote, pkg := pkg, va := va, plane := plane, port := s.portFor plane,
                      ctx := s.ctx, kind := kind, sentAt := s.time, op := op }
  { s with remotes := s.remotes ++ [r], nextRemote := s.nextRemote + 1 }

/-- Whether an operation waits to be sent: its plane has gone over to another port, and an earlier one that went by the old
port has not ended (R343). -/
def State.portWaits (s : State) (r : Remote) : Bool :=
  s.remotes.any (fun q => decide (q.id < r.id) && q.plane == r.plane && q.port != r.port)

/-- A trace record (R332) of this package. -/
def State.traceRecord (s : State) (kind core eng seq payload : Nat) : Nat :=
  s.time % 2 ^ 64 * 2 ^ 192 + kind * 2 ^ 184 + s.gang.self * 2 ^ 174 + core / 32 * 2 ^ 171
    + core / 4 % 8 * 2 ^ 168 + core % 4 * 2 ^ 166 + eng * 2 ^ 164 + seq % 2 ^ 32 * 2 ^ 128 + payload % 2 ^ 128

/-- Whether the trace ring has no room for a record: it is full, in stop mode (R334). -/
def State.traceFull (s : State) : Bool := !s.traceWrap && decide (s.traceSize ≤ s.ring.count)

/-- Appends a record to the package's ring. -/
def State.keepRecord (s : State) (v : Nat) : State :=
  let r := s.ring
  ({ s with ring := { r with head := (r.head + 1) % s.traceSize, count := r.count + 1 } } : State).putPhys
    (s.traceBase + r.head * 32) 32 v

/-- A record is dropped: the drop counter advances. -/
def State.dropRecord (s : State) : State := { s with ring := { s.ring with dropped := s.ring.dropped + 1 } }

/-- Sends a copy of a record to the gang's collector, when distribution is enabled and that is another package (R357). The
copy belongs to no context. -/
def State.shareRecord (s : State) (v : Nat) : State :=
  if s.traceShared && s.gang.id != 0 && s.gang.collector != s.gang.self then
    { ({ s with ctx := 4096 } : State).sendRemote s.gang.collector 0 .trace (.trace (BitVec.ofNat 256 v)) with ctx := s.ctx }
  else s

/-- Appends a trace record (R332, R334, R357); `core` is the logical core concerned. -/
def State.trace (s : State) (kind core eng seq payload : Nat) : State :=
  let v := s.traceRecord kind core eng seq payload
  (if s.traceSize = 0 then s else if s.traceFull then s.dropRecord else s.keepRecord v).shareRecord v

/-! ## The error log (R396, R397) -/

/-- `ERRLOG`: the virtual address of the next slot. -/
def State.errlog (s : State) (ctx : Nat) : Nat :=
  let r := s.ctxRecord ctx
  recElog r + 32 * ((s.context ctx).elog % 2 ^ recElogSz r)

/-- Writes one slot; a slot in a page that cannot be written is skipped and the pointer still advances. -/
def State.logSlot (s : State) (ctx v : Nat) : State :=
  let va := s.errlog ctx
  let s1 := s.setContext ctx { s.context ctx with elog := (s.context ctx).elog + 1 }
  match s1.whereIs va with
  | .here a =>
    let (s2, x) := s1.translate 8 ctx a true
    if x.st = .resident ∧ x.w then s2.putPhys (framePA x.frame a) 32 v else s2
  | _ => s1

/-- The framed slot of a record (R396). -/
def logFrame (time detail lcore eng nx kind sub launch taskn : Nat) : Nat :=
  time % 2 ^ 64 * 2 ^ 192 + detail % 2 ^ 96 * 2 ^ 96 + lcore % 256 * 2 ^ 88 + eng % 4 * 2 ^ 86 + nx % 4 * 2 ^ 84
    + kind % 256 * 2 ^ 72 + sub % 256 * 2 ^ 64 + launch % 2 ^ 32 * 2 ^ 32 + taskn % 2 ^ 32

/-- Appends a record with its continuation slots and tells the event arbiter (R330, R396). -/
def State.logRecord (s : State) (ctx kind sub detail lcore eng launch taskn : Nat) (conts : List Nat) : State :=
  let s1 := s.logSlot ctx (logFrame s.time detail lcore eng conts.length kind sub launch taskn)
  let s2 := conts.foldl (fun t v => t.logSlot ctx v) s1
  s2.event 3 ctx (Config.eventArg 3).toNat (Config.eventVector 3)

/-- The launch number and the task that a record about a core names (R396). -/
def State.logWho (s : State) (c : Core) : Nat × Nat :=
  ((match s.launchOf c with | some x => x.number | none => 0), (match c.task with | some t => t.l | none => 0))

/-- A record of KIND 0x07 for a malformed translation entry (R316, R397). -/
def State.logMalformed (s : State) (ctx lcore : Nat) (bad : Option (Nat × Nat × Nat)) : State :=
  match bad with
  | none => s
  | some (stage, level, addr) =>
    s.logRecord ctx 0x07 ((if stage = 2 then 4 else 0) + (level - 1)) (addr % 2 ^ 64 * 2 ^ 32)
      (if 256 ≤ lcore then 0xFF else lcore) 3 0 0 []

end Sys2Proof.Machine
end

