-- ==== Sys2Proof/Machine/Access.lean ====
section
/-! DEFINITION. Where an access of an agent lands: locations in device memory and vaults, handles (R88), the ranges of
RANGE channels (R173). -/

namespace Sys2Proof.Machine

/-- What a location is at the moment an access performs (R88, R153, R177, R238). -/
inductive Target where
  | spot (p : Spot)
  | absent
  | discarded
  /-- a translation that is pending, or a segment in motion -/
  | wait
  | bounds
  | remote (pkg : Nat)
  deriving DecidableEq, Repr, Inhabited

/-- A local virtual address with the package field 0x3FF, so that both names of one row compare equal (R315). -/
def State.normVa (s : State) (va : Nat) : Nat :=
  match s.whereIs va with
  | .here a => a + 0x3FF * 2 ^ 47
  | _ => va

/-- Resolves a location for a read or a write of an agent of logical core `n` (R316, R238). A resident page that is
not writable is absent for a write. A frame beyond the 576 GiB of device memory, of which the manual says nothing, is
ordinary memory here (DESIGN CHOICE, log entry 81). -/
def State.resolve (s : State) (ctx n : Nat) (loc : Loc) (wr : Bool) : State × Target :=
  match loc with
  | .va va =>
    match s.whereIs va with
    | .nowhere => (s, .absent)
    | .package g => (s, .remote g)
    | .here a =>
      let (s1, x) := s.translate (if 256 ≤ n then 8 else dieOf n) ctx a wr
      let s2 := s1.logMalformed ctx n x.bad
      match x.st with
      | .resident => if wr && !x.w then (s2, .absent) else (s2, .spot ⟨false, framePA x.frame a⟩)
      | .discarded => (s2, .discarded)
      | _ => (s2, .absent)
  | .vault q row =>
    match s.vaultRow ctx q row with
    | .at_ addr => (s, .spot ⟨true, addr⟩)
    | .wait _ => (s, .wait)
    | .notHeld => (s, .bounds)

/-- Limit(h) of R88. -/
def Handle.limit (h : Handle) : Nat := if h.vault then 65536 * desCount (h.base.toNat / 65536) else 65536

/-- The location that an offset of a handle names: by virtual address, or by quad and context-view row. -/
def Handle.loc (h : Handle) (own off : Nat) : Loc :=
  if h.vault then
    let des := h.base.toNat / 65536
    .vault (desQuad own des) (desFirst des * 512 + off / 128)
  else .va (h.base.toNat + off)

/-- The target of an access through a captured handle (R88). -/
def State.handleTarget (s : State) (ctx n : Nat) (h : Handle) (off : Nat) : Target :=
  if h.vault then (s.resolve ctx n (h.loc (quadOf n) off) false).2
  else if h.rev then .absent
  else match h.st with
  | .pending => .wait
  | .absent => .absent
  | .discarded => .discarded
  | .resident =>
    match s.whereIs h.base.toNat with
    | .package g => .remote g
    | _ => .spot ⟨false, h.frame * 65536 + off⟩

/-- Starts the restore of a saved segment that an access of its own context meets (R212): the accessor waits. -/
def State.wantSeg (s : State) (ctx : Nat) (loc : Loc) : State :=
  match loc with
  | .vault q row =>
    { s with segs := s.segs.map (fun g =>
        if g.ctx == ctx && g.quad == q && g.cseg == row / 512 && g.st == .saved then { g with st := .restoring }
        else g) }
  | .va _ => s

/-! ## RANGE channels (R173) -/

/-- The channel of a core. -/
def Core.channel (c : Core) (k : Nat) : Channel := SMap.get {} c.chan k

/-- Replaces a channel. -/
def Core.setChannel (c : Core) (k : Nat) (x : Channel) : Core := { c with chan := SMap.set {} c.chan k x }

/-- The range row on which a row falls; the location is the row's first byte (normalised). -/
def Channel.rangeRow (x : Channel) (loc : Loc) : Option Nat :=
  if x.mode = .range then
    match x.first, loc with
    | .va a0, .va a => if a0 ≤ a ∧ (a - a0) / 128 < x.len then some ((a - a0) / 128) else none
    | .vault q0 r0, .vault q r => if q0 = q ∧ r0 ≤ r ∧ r - r0 < x.len then some (r - r0) else none
    | _, _ => none
  else none

/-- A location rounded to its row, with the package field of R315 normalised. -/
def State.normLoc (s : State) (loc : Loc) : Loc :=
  match loc with
  | .va a => .va (rowBase (s.normVa a))
  | v => v

/-- Whether some RANGE channel of the core holds an access to the row back (R173). -/
def State.heldBack (s : State) (c : Core) (loc : Loc) : Bool :=
  let l := s.normLoc loc
  (List.range 8).any (fun k =>
    match (c.channel k).rangeRow l with
    | some i => decide ((c.channel k).wm ≤ i)
    | none => false)

/-- Advances the watermark over the marks above it. -/
def raiseMark : Nat → List Nat → Nat → Nat
  | 0, _, wm => wm
  | fuel + 1, marks, wm => if marks.contains wm then raiseMark fuel marks (wm + 1) else wm

/-- Marks a range row (R173): the watermark becomes the lowest unmarked row. -/
def Channel.markRow (x : Channel) (i : Nat) : Channel :=
  if i < x.wm then x
  else
    let marks := insertNat x.marks i
    let wm := raiseMark (marks.length + 1) marks x.wm
    { x with wm := wm, marks := marks.filter (fun j => wm ≤ j) }

/-- Sets the watermark as R173's CSR write and R189's `cwmk` do: every row below is marked; `clear` clears the marks at
or above it. -/
def Channel.setMark (x : Channel) (v : Nat) (clear : Bool) : Channel :=
  let wm := min v x.len
  if clear then { x with wm := wm, marks := [] }
  else
    let wm' := raiseMark (x.marks.length + 1) x.marks wm
    { x with wm := wm', marks := x.marks.filter (fun j => wm' ≤ j) }

end Sys2Proof.Machine
end

