-- ==== Sys2Proof/Machine/Conflict.lean ====
section
/-! DEFINITION. The bank conflicts of a vault (R237, R249): the degree of an access group, and the groups that a vault's
threshold has it count. -/

namespace Sys2Proof.Machine

/-- The bank of a physical row (R237). -/
def bankOf (row : Nat) : Nat := Nat.xor row (row / 32) % 32

/-- How many of a group's rows lie in each bank. -/
def bankLoads (rows : List Nat) : List Nat :=
  let l := rows.foldl insertNat []
  (List.range 32).map (fun b => (l.filter (fun r => bankOf r == b)).length)

/-- The position of a group (R249): row address and slot of a stream word, or slot 31 and the control core's pc. -/
def State.groupPlace (s : State) (e : Option Eng) : Nat :=
  let pc := 31 * 2 ^ 80 + s.core.pc.toNat % 2 ^ 57
  match e with
  | none => pc
  | some k =>
    match (s.core.queue k).act with
    | some a => a.slot % 32 * 2 ^ 80 + a.row.toNat % 2 ^ 57
    | none => pc

/-- The physical quad and row of a vault location that is in its vault. -/
def State.physRow (s : State) (l : Loc) : Option (Nat × Nat) :=
  match l with
  | .vault q row =>
    (match s.vaultRow s.ctx q row with
     | .at_ addr => some (addr / 33554432, addr % 33554432 / 128)
     | _ => none)
  | .va _ => none

/-- An access group of the current core reaches its rows (R249): each vault whose threshold the group's degree meets has
it to count. -/
def State.noteGroup (s : State) (e : Option Eng) (ls : List Loc) : State :=
  let l := ls.filterMap s.physRow
  let vaults := l.foldl (fun v x => insertNat v x.1) []
  vaults.foldl (fun (t : State) pq =>
    let rows := (l.filter (fun x => x.1 == pq)).foldl (fun r x => insertNat r x.2) []
    if (bankLoads rows).foldl max 0 < t.bcthr pq then t
    else { t with ring := { t.ring with groups := t.ring.groups ++
      [{ ctx := s.ctx, core := s.cur, eng := e, vault := pq, rows := rows, place := s.groupPlace e }] } }) s

end Sys2Proof.Machine
end

