-- ==== Sys2Proof/WellFormed.lean ====
section
/-! DEFINITION. Which terms of `Instr` stand for a word without a reserved code (R52, R61). The decoder answers only
well-formed instructions. A prohibition that names a register number (h0 in `trn`, s0 in `loop`) or a CSR number is
not part of it: such a word decodes and its meaning traps. Steps without an encoding are well formed. -/

namespace Sys2Proof

/-- A scope code of R3: 6 and 7 are reserved. -/
def wfScope (s : BitVec 3) : Bool := s.toNat < 6

/-- Element width codes below 3 (R79, R82). -/
def wfWidth (w : BitVec 3) : Bool := w.toNat < 3

/-- A rounding mode (R34): codes 5 to 7 are reserved. -/
def wfRound (m : BitVec 3) : Bool := m.toNat < 5

/-- The A2 constraints of R47, R51 and R101: `key` says whether the operation uses b, `wide` whether it requires w = 1. -/
def AOp.wf (o : AOp) (key wide : Bool) : Bool :=
  wfScope o.scope && (o.w.toNat == 0 || o.el.toNat < 16) && (key || o.b.toNat == 0) && (!wide || o.w.toNat == 1)

/-- Types F32, F16 and B16 (R142). -/
def tyF3 (t : BitVec 3) : Bool := t.toNat < 3

/-- Type E8 (R57). -/
def tyE8 (t : BitVec 3) : Bool := t.toNat == 3

/-- Types I32, I16, I8 and N8 (R144). -/
def tyInt (t : BitVec 3) : Bool := 4 ≤ t.toNat

/-- The number of lanes of a type (R138). -/
def tyLanes (t : BitVec 3) : Nat :=
  match t.toNat with
  | 0 => 32
  | 4 => 32
  | 1 => 64
  | 2 => 64
  | 5 => 64
  | _ => 128

/-- A step code advances the destination (R139). -/
def stepD (s : BitVec 2) : Nat := if s.toNat = 0 then 0 else 1
/-- A step code advances the first source (R139). -/
def stepA (s : BitVec 2) : Nat := if s.toNat = 1 ∨ s.toNat = 2 then 1 else 0
/-- A step code advances the second source (R139). -/
def stepB (s : BitVec 2) : Nat := if s.toNat = 1 then 1 else 0

/-- Repetition numbers run from 0 to RC, so D, A and B stay inside v0 to v63 (R139); an E8 word's b reaches v31 (R57). -/
def VWord.dOk (o : VWord) : Bool := o.d.toNat + o.rc.toNat * stepD o.step ≤ 63
/-- The first source stays inside v0 to v63 (R139). -/
def VWord.aOk (o : VWord) : Bool := o.a.toNat + o.rc.toNat * stepA o.step ≤ 63
/-- The second source stays inside v0 to v63, or v0 to v31 for E8 (R57, R139). -/
def VWord.bOk (o : VWord) : Bool :=
  if tyE8 o.ty then o.b.toNat % 32 + o.rc.toNat * stepB o.step ≤ 31
  else o.b.toNat + o.rc.toNat * stepB o.step ≤ 63

/-- Step codes 00, 10 and 11. -/
def stepNotDab (s : BitVec 2) : Bool := s.toNat != 1
/-- Step codes 00 and 11. -/
def stepND (s : BitVec 2) : Bool := s.toNat == 0 || s.toNat == 3
/-- Step codes 00 and 10. -/
def stepNDA (s : BitVec 2) : Bool := s.toNat == 0 || s.toNat == 2

/-- R142: binary and fused floating operations. -/
def VWord.wfFloat2 (o : VWord) : Bool := tyF3 o.ty && o.dOk && o.aOk && o.bOk
/-- R143: unary floating operations. -/
def VWord.wfFloat1 (o : VWord) : Bool :=
  tyF3 o.ty && o.b.toNat == 0 && stepNotDab o.step && o.dOk && o.aOk
/-- R144: integer and logic operations. -/
def VWord.wfInt2 (o : VWord) : Bool := tyInt o.ty && o.dOk && o.aOk && o.bOk
/-- R144: `viabs`. -/
def VWord.wfInt1 (o : VWord) : Bool :=
  tyInt o.ty && o.b.toNat == 0 && stepNotDab o.step && o.dOk && o.aOk
/-- R145: a mask destination m1 to m7 in d[2:0], d[5:3] zero. -/
def VWord.wfMaskDst (o : VWord) : Bool := 0 < o.d.toNat && o.d.toNat < 8
/-- R145: the compares. -/
def VWord.wfCmp (o : VWord) : Bool := o.wfMaskDst && o.step.toNat == 0
/-- R148: the source type of `vcvt`. -/
def VWord.srcTy (o : VWord) : BitVec 3 := o.b.extractLsb' 2 3
/-- R148: the part of `vcvt`. -/
def VWord.part (o : VWord) : Nat := o.b.toNat % 4
/-- R148: `vcvt`. -/
def VWord.wfCvt (o : VWord) : Bool :=
  let es := tyLanes o.srcTy
  let ed := tyLanes o.ty
  wfRound o.mask && stepNotDab o.step && o.dOk && o.aOk
    && o.part < max es ed / min es ed
    && (tyE8 o.ty || tyE8 o.srcTy || o.b.toNat < 32)
/-- R152: the memory words; b[5] is zero but for E8, and b[4:0] names a walk record. -/
def VWord.wfMem (o : VWord) : Bool := (tyE8 o.ty || o.b.toNat < 32) && o.dOk
/-- R162, R163: op codes 0 to 2 of the reductions, every type but E8. -/
def VWord.wfRedOp (o : VWord) : Bool := o.b.toNat % 4 < 3 && !tyE8 o.ty

/-- Every vector word but `vmlog`, by operation code (R57). -/
def VWord.wf (op : Nat) (o : VWord) : Bool :=
  if op ≤ 7 then o.wfFloat2
  else if op ≤ 15 then o.wfFloat1
  else if op ≤ 29 then o.wfInt2
  else if op = 30 then o.wfInt1
  else if op = 31 then o.wfInt2
  else if op ≤ 35 then o.wfCmp
  else match op with
  | 36 => o.wfCmp && (tyF3 o.ty || tyE8 o.ty)
  | 37 => o.dOk && o.aOk && o.bOk
  | 38 => o.wfCvt
  | 39 => tyF3 o.ty && 2 ≤ o.b.toNat && o.b.toNat ≤ 8 && wfRound o.mask && stepNotDab o.step && o.dOk && o.aOk
  | 40 => tyF3 o.ty && ((2 ≤ o.b.toNat && o.b.toNat ≤ 8) || o.b.toNat == 16) && wfRound o.mask && stepNotDab o.step
            && o.dOk && o.aOk
  | 41 => tyF3 o.ty && (o.b.toNat == 0 || o.b.toNat == 16) && wfRound o.mask && stepNotDab o.step && o.dOk && o.aOk
  | 42 => (o.b.toNat == 0 || (tyE8 o.ty && o.b.toNat == 32)) && stepNotDab o.step && o.dOk && o.aOk
  | 43 => (if tyE8 o.ty then true else decide (o.b.toNat < tyLanes o.ty)) && stepNotDab o.step && o.dOk && o.aOk
  | 44 => o.wfMem && o.a.toNat == 0 && stepND o.step
  | 45 => o.wfMem && o.a.toNat == 0 && stepND o.step
  | 46 => o.wfMem && stepNotDab o.step && o.aOk
  | 47 => o.wfMem && stepNotDab o.step && o.aOk
  | 48 => o.ty.toNat == 7 && stepNotDab o.step && o.dOk && o.bOk && o.a.toNat + o.rc.toNat * stepA o.step ≤ 62
  | 49 => o.dOk && o.aOk && o.bOk
  | 50 => tyInt o.ty && o.step.toNat == 0 && o.b.toNat < tyLanes o.ty / 32 && o.d.toNat ≤ 62
  | 51 => o.ty.toNat == 7 && stepND o.step && o.a.toNat < 8 && o.b.toNat == 0 && o.dOk
  | 52 => o.ty.toNat == 7 && stepNDA o.step && o.d.toNat < 8 && o.b.toNat == 0 && o.mask.toNat == 0 && o.aOk
  | 53 => o.wfRedOp && o.b.toNat < 4 && stepNDA o.step && o.aOk
  | 54 => o.wfRedOp && o.b.toNat < 8 && stepNotDab o.step && o.dOk && o.aOk
  | 55 => tyInt o.ty && o.a.toNat == 0 && o.b.toNat == 0 && stepND o.step && o.dOk
  | 56 => tyInt o.ty && o.a.toNat < 8 && o.b.toNat == 0 && o.step.toNat == 0 && o.mask.toNat == 0
  | 58 => tyF3 o.ty && o.a.toNat < 4 && stepND o.step && o.dOk && 8 * o.b.toNat + o.rc.toNat ≤ 511
  | 59 => o.wfCmp && (tyF3 o.ty || tyE8 o.ty)
  | _ => false

/-- Whether a term stands for a word without a reserved code. -/
def Instr.wf : Instr → Bool
  | .sext _ _ w => w.toNat < 3
  | .zext _ _ w => w.toNat < 3
  | .bfx _ _ p n => p.toNat + n.toNat + 1 ≤ 64
  | .bfxS _ _ p n => p.toNat + n.toNat + 1 ≤ 64
  | .bfi _ _ p n => p.toNat + n.toNat + 1 ≤ 64
  | .bmskAny _ w _ => wfWidth w
  | .bmskNone _ w _ => wfWidth w
  | .bmskAll _ w _ => wfWidth w
  | .fenceSc s => wfScope s
  | .fenceAcq s => wfScope s
  | .fenceRel s => wfScope s
  | .bar _ s => wfScope s
  | .bara _ s => wfScope s
  | .barw _ s => wfScope s
  | .bwait _ e => e.toNat < 3
  | .csrr _ c => !(c.toNat == 0x00C || c.toNat == 0x020)
  | .csrw _ _ c => !(c.toNat == 0x00C || c.toNat == 0x013 || c.toNat / 8 == 6)
  | .csrs _ _ c => !(c.toNat == 0x00C || c.toNat == 0x013 || c.toNat / 8 == 6)
  | .csrc _ _ c => !(c.toNat == 0x00C || c.toNat == 0x013 || c.toNat / 8 == 6)
  | .xstatWrite ck _ _ => ck.toNat != 0
  | .wmWrite ck _ _ _ => ck.toNat != 0
  | .residAccess ck _ a => ck.toNat != 0 || a.toNat == 0
  | .tcrd _ n => n.toNat < 3
  | .mcntE _ _ w => wfWidth w
  | .mcntFfs _ _ w => wfWidth w
  | .enqs _ _ e => e.toNat < 3
  | .renq _ _ e => e.toNat < 3
  | .faa o => o.wf false false
  | .faab o => o.wf false true
  | .fao o => o.wf true true
  | .cas o => o.wf true false
  | .swp o => o.wf false false
  | .amin o => o.wf false false
  | .amax o => o.wf false false
  | .aminn o => o.wf false false
  | .amaxn o => o.wf false false
  | .aor o => o.wf false false
  | .aand o => o.wf false false
  | .issue e _ _ ar scope word =>
    e.toNat < 3 && wfScope scope && (ar.toNat != 0 || scope.toNat == 0)
      && (word.toNat / 2 ^ 46 == 3 || word.toNat / 2 ^ 46 == e.toNat)
  | .vadd o => o.wf 0
  | .vsub o => o.wf 1
  | .vmul o => o.wf 2
  | .vfma o => o.wf 3
  | .vfms o => o.wf 4
  | .vfnm o => o.wf 5
  | .vmin o => o.wf 6
  | .vmax o => o.wf 7
  | .vabs o => o.wf 8
  | .vneg o => o.wf 9
  | .vrcp o => o.wf 10
  | .vrsq o => o.wf 11
  | .vsqrt o => o.wf 12
  | .vexp2 o => o.wf 13
  | .vlog2 o => o.wf 14
  | .vtanh o => o.wf 15
  | .viadd o => o.wf 16
  | .visub o => o.wf 17
  | .vimul o => o.wf 18
  | .vimulh o => o.wf 19
  | .vshl o => o.wf 20
  | .vshr o => o.wf 21
  | .vsra o => o.wf 22
  | .vand o => o.wf 23
  | .vor o => o.wf 24
  | .vxor o => o.wf 25
  | .vimin o => o.wf 26
  | .vimax o => o.wf 27
  | .vsadd o => o.wf 28
  | .vssub o => o.wf 29
  | .viabs o => o.wf 30
  | .vimac o => o.wf 31
  | .vceq o => o.wf 32
  | .vcne o => o.wf 33
  | .vclt o => o.wf 34
  | .vcle o => o.wf 35
  | .vcun o => o.wf 36
  | .vsel o => o.wf 37
  | .vcvt o => o.wf 38
  | .vqbf o => o.wf 39
  | .vdqbf o => o.wf 40
  | .vqaf o => o.wf 41
  | .vmov o => o.wf 42
  | .vbcst o => o.wf 43
  | .vld o => o.wf 44
  | .vst o => o.wf 45
  | .vgath o => o.wf 46
  | .vscat o => o.wf 47
  | .vrmg o => o.wf 48
  | .vshuf o => o.wf 49
  | .vpart o => o.wf 50
  | .vpop o => o.wf 51
  | .vpush o => o.wf 52
  | .vred o => o.wf 53
  | .vscan o => o.wf 54
  | .viota o => o.wf 55
  | .vmcnt o => o.wf 56
  | .vacc o => o.wf 58
  | .vclass o => o.wf 59
  | .vmlog md _ _ _ _ _ => md.toNat != 0
  | .mdrn _ _ ep row0 _ rc => ep.toNat < 3 && row0.toNat + 16 * (rc.toNat + 1) ≤ 128
  | .mldacc _ _ row0 _ rc => row0.toNat + 16 * (rc.toNat + 1) ≤ 128
  | .ccvt _ mode => wfRound mode
  | .cred o op => op.toNat < 3 && o.rc.toNat == 0
  | .cmcst _ dies => dies.toNat != 0
  | .cdsp o _ => o.ch.toNat == 0 && o.rc.toNat == 0
  | .cbindStream _ _ esz _ => esz.toNat < 3
  | .sloop src n _ => src.toNat == 0 || (4 ≤ src.toNat && n.toNat == 0)
  | .sacq s _ => wfScope s
  | .srel s _ => wfScope s
  | _ => true

end Sys2Proof
end

