-- ==== Sys2Proof/Decode.lean ====
section
/-! DEFINITION. The decoders of the control core's words (R46 to R53) and of engine words (R54 to R61), total and
rejecting by name, and after them the encoder, written from the same tables. A decoder answers only well-formed
instructions. A register number or a CSR that an instruction prohibits decodes: its meaning traps (R52, R84). -/

namespace Sys2Proof

/-- Why a word is no instruction. -/
inductive DecodeError where
  /-- Fewer words than the major needs (R46). -/
  | truncated
  /-- A major that R48 leaves reserved. -/
  | reservedMajor
  /-- A function, class or operation that R50, R51, R57 to R60 leave reserved. -/
  | reservedFunction
  /-- A nonzero bit in a field that the instruction does not use (R52, R61). -/
  | zeroField
  /-- A reserved code in a field that the instruction uses (R52, R61). -/
  | reservedCode
  deriving DecidableEq, Repr, Inhabited

/-- The OPR group (major 0x00): the function in bits [5:0] selects the row (R50, R74). -/
def oprRow (w : BitVec 32) : Nat → Except DecodeError Instr
  | 0 =>
    if w.extractLsb' 6 5 = 0#5 then .ok (.add (w.extractLsb' 21 5) (w.extractLsb' 16 5) (w.extractLsb' 11 5))
    else .error .zeroField
  | 1 =>
    if w.extractLsb' 6 5 = 0#5 then .ok (.sub (w.extractLsb' 21 5) (w.extractLsb' 16 5) (w.extractLsb' 11 5))
    else .error .zeroField
  | 2 =>
    if w.extractLsb' 6 5 = 0#5 then .ok (.and (w.extractLsb' 21 5) (w.extractLsb' 16 5) (w.extractLsb' 11 5))
    else .error .zeroField
  | 3 =>
    if w.extractLsb' 6 5 = 0#5 then .ok (.or (w.extractLsb' 21 5) (w.extractLsb' 16 5) (w.extractLsb' 11 5))
    else .error .zeroField
  | 4 =>
    if w.extractLsb' 6 5 = 0#5 then .ok (.xor (w.extractLsb' 21 5) (w.extractLsb' 16 5) (w.extractLsb' 11 5))
    else .error .zeroField
  | 5 =>
    if w.extractLsb' 6 5 = 0#5 then .ok (.andn (w.extractLsb' 21 5) (w.extractLsb' 16 5) (w.extractLsb' 11 5))
    else .error .zeroField
  | 6 =>
    if w.extractLsb' 6 5 = 0#5 then .ok (.sll (w.extractLsb' 21 5) (w.extractLsb' 16 5) (w.extractLsb' 11 5))
    else .error .zeroField
  | 7 =>
    if w.extractLsb' 6 5 = 0#5 then .ok (.srl (w.extractLsb' 21 5) (w.extractLsb' 16 5) (w.extractLsb' 11 5))
    else .error .zeroField
  | 8 =>
    if w.extractLsb' 6 5 = 0#5 then .ok (.sra (w.extractLsb' 21 5) (w.extractLsb' 16 5) (w.extractLsb' 11 5))
    else .error .zeroField
  | 9 =>
    if w.extractLsb' 6 5 = 0#5 then .ok (.rol (w.extractLsb' 21 5) (w.extractLsb' 16 5) (w.extractLsb' 11 5))
    else .error .zeroField
  | 10 =>
    if w.extractLsb' 6 5 = 0#5 then .ok (.mul (w.extractLsb' 21 5) (w.extractLsb' 16 5) (w.extractLsb' 11 5))
    else .error .zeroField
  | 11 =>
    if w.extractLsb' 6 5 = 0#5 then .ok (.mulh (w.extractLsb' 21 5) (w.extractLsb' 16 5) (w.extractLsb' 11 5))
    else .error .zeroField
  | 12 =>
    if w.extractLsb' 6 5 = 0#5 then .ok (.mulhn (w.extractLsb' 21 5) (w.extractLsb' 16 5) (w.extractLsb' 11 5))
    else .error .zeroField
  | 13 =>
    if w.extractLsb' 6 5 = 0#5 then .ok (.div (w.extractLsb' 21 5) (w.extractLsb' 16 5) (w.extractLsb' 11 5))
    else .error .zeroField
  | 14 =>
    if w.extractLsb' 6 5 = 0#5 then .ok (.divn (w.extractLsb' 21 5) (w.extractLsb' 16 5) (w.extractLsb' 11 5))
    else .error .zeroField
  | 15 =>
    if w.extractLsb' 6 5 = 0#5 then .ok (.rem (w.extractLsb' 21 5) (w.extractLsb' 16 5) (w.extractLsb' 11 5))
    else .error .zeroField
  | 16 =>
    if w.extractLsb' 6 5 = 0#5 then .ok (.remn (w.extractLsb' 21 5) (w.extractLsb' 16 5) (w.extractLsb' 11 5))
    else .error .zeroField
  | 17 =>
    if w.extractLsb' 6 5 = 0#5 then .ok (.min (w.extractLsb' 21 5) (w.extractLsb' 16 5) (w.extractLsb' 11 5))
    else .error .zeroField
  | 18 =>
    if w.extractLsb' 6 5 = 0#5 then .ok (.max (w.extractLsb' 21 5) (w.extractLsb' 16 5) (w.extractLsb' 11 5))
    else .error .zeroField
  | 19 =>
    if w.extractLsb' 6 5 = 0#5 then .ok (.minn (w.extractLsb' 21 5) (w.extractLsb' 16 5) (w.extractLsb' 11 5))
    else .error .zeroField
  | 20 =>
    if w.extractLsb' 6 5 = 0#5 then .ok (.maxn (w.extractLsb' 21 5) (w.extractLsb' 16 5) (w.extractLsb' 11 5))
    else .error .zeroField
  | 21 =>
    if w.extractLsb' 6 5 = 0#5 then .ok (.slt (w.extractLsb' 21 5) (w.extractLsb' 16 5) (w.extractLsb' 11 5))
    else .error .zeroField
  | 22 =>
    if w.extractLsb' 6 5 = 0#5 then .ok (.sltn (w.extractLsb' 21 5) (w.extractLsb' 16 5) (w.extractLsb' 11 5))
    else .error .zeroField
  | 23 =>
    if w.extractLsb' 6 5 = 0#5 then .ok (.seq (w.extractLsb' 21 5) (w.extractLsb' 16 5) (w.extractLsb' 11 5))
    else .error .zeroField
  | 24 =>
    if w.extractLsb' 6 10 = 0#10 then .ok (.clz (w.extractLsb' 21 5) (w.extractLsb' 16 5))
    else .error .zeroField
  | 25 =>
    if w.extractLsb' 6 10 = 0#10 then .ok (.ctz (w.extractLsb' 21 5) (w.extractLsb' 16 5))
    else .error .zeroField
  | 26 =>
    if w.extractLsb' 6 10 = 0#10 then .ok (.pop (w.extractLsb' 21 5) (w.extractLsb' 16 5))
    else .error .zeroField
  | 27 =>
    if w.extractLsb' 8 8 = 0#8 then .ok (.sext (w.extractLsb' 21 5) (w.extractLsb' 16 5) (w.extractLsb' 6 2))
    else .error .zeroField
  | 28 =>
    if w.extractLsb' 8 8 = 0#8 then .ok (.zext (w.extractLsb' 21 5) (w.extractLsb' 16 5) (w.extractLsb' 6 2))
    else .error .zeroField
  | 29 =>
    .ok (.sel (w.extractLsb' 21 5) (w.extractLsb' 16 5) (w.extractLsb' 11 5) (w.extractLsb' 6 5))
  | 30 =>
    if w.extractLsb' 6 5 = 0#5 then .ok (.addw (w.extractLsb' 21 5) (w.extractLsb' 16 5) (w.extractLsb' 11 5))
    else .error .zeroField
  | 31 =>
    if w.extractLsb' 6 5 = 0#5 then .ok (.subw (w.extractLsb' 21 5) (w.extractLsb' 16 5) (w.extractLsb' 11 5))
    else .error .zeroField
  | 32 =>
    if w.extractLsb' 6 5 = 0#5 then .ok (.mulw (w.extractLsb' 21 5) (w.extractLsb' 16 5) (w.extractLsb' 11 5))
    else .error .zeroField
  | 33 =>
    .ok (.shadd (w.extractLsb' 21 5) (w.extractLsb' 16 5) (w.extractLsb' 11 5) (w.extractLsb' 6 5))
  | _ => .error .reservedFunction

/-- The row that the code of a word selects. -/
def decodeOpr (w : BitVec 32) : Except DecodeError Instr := oprRow w (w.extractLsb' 0 6).toNat

/-- The STR group (major 0x25): the function in bits [5:0] selects the row (R49, R94). -/
def strRow (w : BitVec 32) : Nat → Except DecodeError Instr
  | 0 =>
    if w.extractLsb' 19 2 = 0#2 ∧ w.extractLsb' 6 10 = 0#10 then .ok (.srdW (w.extractLsb' 21 5) (w.extractLsb' 16 3))
    else .error .zeroField
  | 1 =>
    if w.extractLsb' 19 2 = 0#2 ∧ w.extractLsb' 6 10 = 0#10 then .ok (.srdD (w.extractLsb' 21 5) (w.extractLsb' 16 3))
    else .error .zeroField
  | 2 =>
    if w.extractLsb' 19 2 = 0#2 ∧ w.extractLsb' 6 10 = 0#10 then .ok (.savl (w.extractLsb' 21 5) (w.extractLsb' 16 3))
    else .error .zeroField
  | _ => .error .reservedFunction

/-- The row that the code of a word selects. -/
def decodeStr (w : BitVec 32) : Except DecodeError Instr := strRow w (w.extractLsb' 0 6).toNat

/-- The SYS group (major 0x28): the function in bits [5:0] selects the row (R51, R93, R118, R137). -/
def sysRow (w : BitVec 32) : Nat → Except DecodeError Instr
  | 0 =>
    if w.extractLsb' 6 20 = 0#20 then .ok (.nop)
    else .error .zeroField
  | 1 =>
    if w.extractLsb' 6 20 = 0#20 then .ok (.seam)
    else .error .zeroField
  | 2 =>
    if w.extractLsb' 9 17 = 1#17 then .ok (.fenceSc (w.extractLsb' 6 3))
    else if w.extractLsb' 9 17 = 2#17 then .ok (.fenceAcq (w.extractLsb' 6 3))
    else if w.extractLsb' 9 17 = 3#17 then .ok (.fenceRel (w.extractLsb' 6 3))
    else .error .reservedCode
  | 3 =>
    if w.extractLsb' 16 10 = 0#10 then .ok (.trap (w.extractLsb' 6 10))
    else .error .zeroField
  | 4 =>
    if w.extractLsb' 6 20 = 0#20 then .ok (.ertn)
    else .error .zeroField
  | 5 =>
    if w.extractLsb' 6 20 = 0#20 then .ok (.brk)
    else .error .zeroField
  | 6 =>
    if w.extractLsb' 6 20 = 0#20 then .ok (.yield)
    else .error .zeroField
  | 7 =>
    if w.extractLsb' 6 20 = 0#20 then .ok (.texit)
    else .error .zeroField
  | 8 =>
    if w.extractLsb' 6 20 = 0#20 then .ok (.wfe)
    else .error .zeroField
  | 9 =>
    if w.extractLsb' 6 20 = 0#20 then .ok (.icinv)
    else .error .zeroField
  | 10 =>
    if w.extractLsb' 6 20 = 0#20 then .ok (.modeExposed)
    else if w.extractLsb' 6 20 = 1#20 then .ok (.modeInterlock)
    else .error .reservedCode
  | _ => .error .reservedFunction

/-- The row that the code of a word selects. -/
def decodeSys (w : BitVec 32) : Except DecodeError Instr := sysRow w (w.extractLsb' 0 6).toNat

/-- The HDL group (major 0x29): the function in bits [5:0] selects the row (R51, R95 to R99). -/
def hdlRow (w : BitVec 32) : Nat → Except DecodeError Instr
  | 0 =>
    if w.extractLsb' 25 1 = 0#1 ∧ w.extractLsb' 6 10 = 1#10 then .ok (.trnR (w.extractLsb' 21 4) (w.extractLsb' 16 5))
    else if w.extractLsb' 25 1 = 0#1 ∧ w.extractLsb' 6 10 = 3#10 then .ok (.trnRw (w.extractLsb' 21 4) (w.extractLsb' 16 5))
    else .error .reservedCode
  | 1 =>
    if w.extractLsb' 25 1 = 0#1 ∧ w.extractLsb' 6 10 = 0#10 then .ok (.vbind (w.extractLsb' 21 4) (w.extractLsb' 16 5))
    else .error .zeroField
  | 2 =>
    if w.extractLsb' 20 1 = 0#1 ∧ w.extractLsb' 6 10 = 0#10 then .ok (.hqry (w.extractLsb' 21 5) (w.extractLsb' 16 4))
    else .error .zeroField
  | 3 =>
    if w.extractLsb' 20 6 = 0#6 ∧ w.extractLsb' 6 10 = 0#10 then .ok (.hinv (w.extractLsb' 16 4))
    else .error .zeroField
  | 4 =>
    if w.extractLsb' 6 4 = 0#4 then .ok (.pgreq (w.extractLsb' 21 5) (w.extractLsb' 16 5) (w.extractLsb' 10 6))
    else .error .zeroField
  | 5 =>
    if w.extractLsb' 25 1 = 0#1 ∧ w.extractLsb' 20 1 = 0#1 ∧ w.extractLsb' 6 10 = 0#10 then .ok (.hmov (w.extractLsb' 21 4) (w.extractLsb' 16 4))
    else .error .zeroField
  | _ => .error .reservedFunction

/-- The row that the code of a word selects. -/
def decodeHdl (w : BitVec 32) : Except DecodeError Instr := hdlRow w (w.extractLsb' 0 6).toNat

/-- The FLG group (major 0x2A): the function in bits [5:0] selects the row (R51, R102 to R106). -/
def flgRow (w : BitVec 32) : Nat → Except DecodeError Instr
  | 0 =>
    if w.extractLsb' 21 5 = 0#5 ∧ w.extractLsb' 6 2 = 2#2 then
      .ok (.fsigQuad (w.extractLsb' 16 5) (w.extractLsb' 10 6) (w.extractLsb' 8 2))
    else if w.extractLsb' 21 5 = 0#5 ∧ w.extractLsb' 6 4 = 0#4 then .ok (.fsig (w.extractLsb' 16 5) (w.extractLsb' 10 6))
    else .error .reservedCode
  | 1 =>
    if w.extractLsb' 16 10 = 0#10 ∧ w.extractLsb' 6 4 = 0#4 then .ok (.fwait (w.extractLsb' 10 6))
    else .error .zeroField
  | 2 =>
    if w.extractLsb' 16 5 = 0#5 ∧ w.extractLsb' 6 4 = 0#4 then .ok (.fpeek (w.extractLsb' 21 5) (w.extractLsb' 10 6))
    else .error .zeroField
  | 3 =>
    if w.extractLsb' 14 2 = 0#2 ∧ w.extractLsb' 6 4 = 0#4 then .ok (.rigw (w.extractLsb' 21 5) (w.extractLsb' 16 5) (w.extractLsb' 10 4))
    else .error .zeroField
  | 4 =>
    if w.extractLsb' 16 10 = 0#10 ∧ w.extractLsb' 6 4 = 0#4 then .ok (.bar (w.extractLsb' 13 3) (w.extractLsb' 10 3))
    else .error .zeroField
  | 5 =>
    if w.extractLsb' 16 10 = 0#10 ∧ w.extractLsb' 6 4 = 0#4 then .ok (.bara (w.extractLsb' 13 3) (w.extractLsb' 10 3))
    else .error .zeroField
  | 6 =>
    if w.extractLsb' 16 10 = 0#10 ∧ w.extractLsb' 6 4 = 0#4 then .ok (.barw (w.extractLsb' 13 3) (w.extractLsb' 10 3))
    else .error .zeroField
  | 7 =>
    if w.extractLsb' 16 10 = 0#10 ∧ w.extractLsb' 6 2 = 0#2 then .ok (.bwait (w.extractLsb' 10 6) (w.extractLsb' 8 2))
    else .error .zeroField
  | 8 =>
    if w.extractLsb' 13 13 = 0#13 ∧ w.extractLsb' 6 4 = 0#4 then .ok (.rdvz (w.extractLsb' 10 3))
    else .error .zeroField
  | _ => .error .reservedFunction

/-- The row that the code of a word selects. -/
def decodeFlg (w : BitVec 32) : Except DecodeError Instr := flgRow w (w.extractLsb' 0 6).toNat

/-- The TSK group (major 0x2C): the function in bits [5:0] selects the row (R51, R108 to R111). -/
def tskRow (w : BitVec 32) : Nat → Except DecodeError Instr
  | 0 =>
    if w.extractLsb' 8 13 = 0#13 then .ok (.tcrd (w.extractLsb' 21 5) (w.extractLsb' 6 2))
    else .error .zeroField
  | 1 =>
    if w.extractLsb' 6 15 = 0#15 then .ok (.cvq (w.extractLsb' 21 5))
    else .error .zeroField
  | 2 =>
    .ok (.rlay (w.extractLsb' 22 4) (w.extractLsb' 16 6) (w.extractLsb' 10 6) (w.extractLsb' 6 4))
  | 3 =>
    if w.extractLsb' 21 5 = 0#5 then .ok (.tdld (w.extractLsb' 16 5) (w.extractLsb' 10 6) (w.extractLsb' 6 4))
    else .error .zeroField
  | 4 =>
    if w.extractLsb' 21 5 = 0#5 then .ok (.tdst (w.extractLsb' 16 5) (w.extractLsb' 10 6) (w.extractLsb' 6 4))
    else .error .zeroField
  | 5 =>
    if w.extractLsb' 16 5 = 0#5 ∧ w.extractLsb' 9 1 = 0#1 then .ok (.tdrd (w.extractLsb' 21 5) (w.extractLsb' 10 6) (w.extractLsb' 6 3))
    else .error .zeroField
  | 6 =>
    if w.extractLsb' 21 5 = 0#5 ∧ w.extractLsb' 9 1 = 0#1 then .ok (.tdwr (w.extractLsb' 16 5) (w.extractLsb' 10 6) (w.extractLsb' 6 3))
    else .error .zeroField
  | 7 =>
    if w.extractLsb' 21 5 = 0#5 ∧ w.extractLsb' 15 1 = 0#1 then .ok (.wkld (w.extractLsb' 16 5) (w.extractLsb' 10 5) (w.extractLsb' 6 4))
    else .error .zeroField
  | 8 =>
    if w.extractLsb' 21 5 = 0#5 ∧ w.extractLsb' 15 1 = 0#1 then .ok (.wkst (w.extractLsb' 16 5) (w.extractLsb' 10 5) (w.extractLsb' 6 4))
    else .error .zeroField
  | 9 =>
    if w.extractLsb' 6 4 = 0#4 then .ok (.guardW (w.extractLsb' 21 5) (w.extractLsb' 16 5) (w.extractLsb' 10 6))
    else .error .zeroField
  | 10 =>
    if w.extractLsb' 6 4 = 0#4 then .ok (.guardD (w.extractLsb' 21 5) (w.extractLsb' 16 5) (w.extractLsb' 10 6))
    else .error .zeroField
  | 11 =>
    if w.extractLsb' 6 10 = 0#10 then .ok (.dlaunch (w.extractLsb' 21 5) (w.extractLsb' 16 5))
    else .error .zeroField
  | _ => .error .reservedFunction

/-- The row that the code of a word selects. -/
def decodeTsk (w : BitVec 32) : Except DecodeError Instr := tskRow w (w.extractLsb' 0 6).toNat

/-- The MSK group (major 0x2D): the function in bits [5:0] selects the row (R51, R82). -/
def mskRow (w : BitVec 32) : Nat → Except DecodeError Instr
  | 0 =>
    if w.extractLsb' 24 2 = 0#2 ∧ w.extractLsb' 19 2 = 0#2 ∧ w.extractLsb' 6 10 = 0#10 then .ok (.mmov (w.extractLsb' 21 3) (w.extractLsb' 16 3))
    else .error .zeroField
  | 1 =>
    if w.extractLsb' 24 2 = 0#2 ∧ w.extractLsb' 6 5 = 0#5 then .ok (.mset (w.extractLsb' 21 3) (w.extractLsb' 16 5) (w.extractLsb' 11 5))
    else .error .zeroField
  | 2 =>
    if w.extractLsb' 19 2 = 0#2 ∧ w.extractLsb' 9 7 = 0#7 then .ok (.mcntE (w.extractLsb' 21 5) (w.extractLsb' 16 3) (w.extractLsb' 6 3))
    else if w.extractLsb' 19 2 = 0#2 ∧ w.extractLsb' 9 7 = 1#7 ∧ w.extractLsb' 6 3 = 0#3 then .ok (.mcntLo (w.extractLsb' 21 5) (w.extractLsb' 16 3))
    else if w.extractLsb' 19 2 = 0#2 ∧ w.extractLsb' 9 7 = 2#7 ∧ w.extractLsb' 6 3 = 0#3 then .ok (.mcntHi (w.extractLsb' 21 5) (w.extractLsb' 16 3))
    else if w.extractLsb' 19 2 = 0#2 ∧ w.extractLsb' 9 7 = 3#7 then .ok (.mcntFfs (w.extractLsb' 21 5) (w.extractLsb' 16 3) (w.extractLsb' 6 3))
    else .error .reservedCode
  | 3 =>
    if w.extractLsb' 24 2 = 0#2 ∧ w.extractLsb' 19 2 = 0#2 ∧ w.extractLsb' 14 2 = 0#2 ∧ w.extractLsb' 10 1 = 0#1 then .ok (.mlog (w.extractLsb' 21 3) (w.extractLsb' 16 3) (w.extractLsb' 11 3) (w.extractLsb' 6 4))
    else .error .zeroField
  | _ => .error .reservedFunction

/-- The row that the code of a word selects. -/
def decodeMsk (w : BitVec 32) : Except DecodeError Instr := mskRow w (w.extractLsb' 0 6).toNat

/-- The QUE group (major 0x2E): the function in bits [5:0] selects the row (R51, R107). -/
def queRow (w : BitVec 32) : Nat → Except DecodeError Instr
  | 0 =>
    if w.extractLsb' 24 2 = 0#2 then .ok (.fork (w.extractLsb' 21 3) (w.extractLsb' 16 5) (w.extractLsb' 11 5) (w.extractLsb' 6 5))
    else .error .zeroField
  | 1 =>
    if w.extractLsb' 21 5 = 0#5 ∧ w.extractLsb' 8 3 = 0#3 then .ok (.enqs (w.extractLsb' 16 5) (w.extractLsb' 11 5) (w.extractLsb' 6 2))
    else .error .zeroField
  | 2 =>
    if w.extractLsb' 21 5 = 0#5 ∧ w.extractLsb' 8 3 = 0#3 then .ok (.renq (w.extractLsb' 16 5) (w.extractLsb' 11 5) (w.extractLsb' 6 2))
    else .error .zeroField
  | _ => .error .reservedFunction

/-- The row that the code of a word selects. -/
def decodeQue (w : BitVec 32) : Except DecodeError Instr := queRow w (w.extractLsb' 0 6).toNat

/-- The CSR group (major 0x2B, R84): a CSR whose access has an effect of its own has its own constructor. -/
def decodeCsr (w : BitVec 32) : Except DecodeError Instr :=
  let ck := w.extractLsb' 14 2
  let d := w.extractLsb' 21 5
  let a := w.extractLsb' 16 5
  let c := w.extractLsb' 0 12
  if w.extractLsb' 12 2 ≠ 0#2 then .error .zeroField
  else if ck = 0#2 ∧ a ≠ 0#5 then .error .zeroField
  else if c = 0x00C#12 then .ok (.residAccess ck d a)
  else if ck = 0#2 then (if c = 0x020#12 then .ok (.engstRead d) else .ok (.csrr d c))
  else if c = 0x013#12 then .ok (.xstatWrite ck d a)
  else if c.extractLsb' 3 9 = 6#9 then .ok (.wmWrite ck d a (c.extractLsb' 0 3))
  else if ck = 1#2 then .ok (.csrw d a c)
  else if ck = 2#2 then .ok (.csrs d a c)
  else .ok (.csrc d a c)

/-- The one-word majors of R48 and R49: what the fields of one word stand for, zero fields checked (R52). -/
def oneRow (w : BitVec 32) : Nat → Except DecodeError Instr
  | 0 => decodeOpr w
  | 1 =>
    .ok (.addi (w.extractLsb' 21 5) (w.extractLsb' 16 5) (w.extractLsb' 0 16))
  | 2 =>
    .ok (.andi (w.extractLsb' 21 5) (w.extractLsb' 16 5) (w.extractLsb' 0 16))
  | 3 =>
    .ok (.ori (w.extractLsb' 21 5) (w.extractLsb' 16 5) (w.extractLsb' 0 16))
  | 4 =>
    .ok (.xori (w.extractLsb' 21 5) (w.extractLsb' 16 5) (w.extractLsb' 0 16))
  | 5 =>
    .ok (.slti (w.extractLsb' 21 5) (w.extractLsb' 16 5) (w.extractLsb' 0 16))
  | 6 =>
    .ok (.sltin (w.extractLsb' 21 5) (w.extractLsb' 16 5) (w.extractLsb' 0 16))
  | 7 =>
    if w.extractLsb' 6 10 = 0#10 then .ok (.slli (w.extractLsb' 21 5) (w.extractLsb' 16 5) (w.extractLsb' 0 6))
    else if w.extractLsb' 6 10 = 1#10 then .ok (.srli (w.extractLsb' 21 5) (w.extractLsb' 16 5) (w.extractLsb' 0 6))
    else if w.extractLsb' 6 10 = 2#10 then .ok (.srai (w.extractLsb' 21 5) (w.extractLsb' 16 5) (w.extractLsb' 0 6))
    else if w.extractLsb' 6 10 = 3#10 then .ok (.roli (w.extractLsb' 21 5) (w.extractLsb' 16 5) (w.extractLsb' 0 6))
    else .error .reservedCode
  | 8 =>
    if w.extractLsb' 16 5 = 0#5 then .ok (.lui (w.extractLsb' 21 5) (w.extractLsb' 0 16))
    else .error .zeroField
  | 9 =>
    .ok (.muli (w.extractLsb' 21 5) (w.extractLsb' 16 5) (w.extractLsb' 0 16))
  | 10 =>
    if w.extractLsb' 12 4 = 0#4 then .ok (.bfx (w.extractLsb' 21 5) (w.extractLsb' 16 5) (w.extractLsb' 6 6) (w.extractLsb' 0 6))
    else if w.extractLsb' 12 4 = 1#4 then .ok (.bfxS (w.extractLsb' 21 5) (w.extractLsb' 16 5) (w.extractLsb' 6 6) (w.extractLsb' 0 6))
    else .error .reservedCode
  | 11 =>
    if w.extractLsb' 12 4 = 0#4 then .ok (.bfi (w.extractLsb' 21 5) (w.extractLsb' 16 5) (w.extractLsb' 6 6) (w.extractLsb' 0 6))
    else .error .zeroField
  | 12 =>
    .ok (.jalr (w.extractLsb' 21 5) (w.extractLsb' 16 5) (w.extractLsb' 0 16))
  | 16 =>
    .ok (.beq (w.extractLsb' 21 5) (w.extractLsb' 16 5) (w.extractLsb' 0 16))
  | 17 =>
    .ok (.bne (w.extractLsb' 21 5) (w.extractLsb' 16 5) (w.extractLsb' 0 16))
  | 18 =>
    .ok (.blt (w.extractLsb' 21 5) (w.extractLsb' 16 5) (w.extractLsb' 0 16))
  | 19 =>
    .ok (.bge (w.extractLsb' 21 5) (w.extractLsb' 16 5) (w.extractLsb' 0 16))
  | 20 =>
    .ok (.bltn (w.extractLsb' 21 5) (w.extractLsb' 16 5) (w.extractLsb' 0 16))
  | 21 =>
    .ok (.bgen (w.extractLsb' 21 5) (w.extractLsb' 16 5) (w.extractLsb' 0 16))
  | 22 =>
    if w.extractLsb' 24 2 = 0#2 ∧ w.extractLsb' 16 2 = 0#2 then .ok (.bmskAny (w.extractLsb' 21 3) (w.extractLsb' 18 3) (w.extractLsb' 0 16))
    else if w.extractLsb' 24 2 = 0#2 ∧ w.extractLsb' 16 2 = 1#2 then .ok (.bmskNone (w.extractLsb' 21 3) (w.extractLsb' 18 3) (w.extractLsb' 0 16))
    else if w.extractLsb' 24 2 = 0#2 ∧ w.extractLsb' 16 2 = 2#2 then .ok (.bmskAll (w.extractLsb' 21 3) (w.extractLsb' 18 3) (w.extractLsb' 0 16))
    else .error .reservedCode
  | 23 =>
    if w.extractLsb' 16 5 = 0#5 then .ok (.loop (w.extractLsb' 21 5) (w.extractLsb' 0 16))
    else .error .zeroField
  | 24 =>
    .ok (.jal (w.extractLsb' 0 26))
  | 32 =>
    .ok (.ldW (w.extractLsb' 21 5) (w.extractLsb' 17 4) (w.extractLsb' 12 5) (w.extractLsb' 7 5) (w.extractLsb' 0 7))
  | 33 =>
    if w.extractLsb' 11 1 = 0#1 then .ok (.ldD (w.extractLsb' 21 5) (w.extractLsb' 17 4) (w.extractLsb' 12 5) (w.extractLsb' 7 4) (w.extractLsb' 0 7))
    else .error .zeroField
  | 34 =>
    .ok (.stW (w.extractLsb' 21 5) (w.extractLsb' 17 4) (w.extractLsb' 12 5) (w.extractLsb' 7 5) (w.extractLsb' 0 7))
  | 35 =>
    if w.extractLsb' 11 1 = 0#1 then .ok (.stD (w.extractLsb' 21 5) (w.extractLsb' 17 4) (w.extractLsb' 12 5) (w.extractLsb' 7 4) (w.extractLsb' 0 7))
    else .error .zeroField
  | 37 => decodeStr w
  | 40 => decodeSys w
  | 41 => decodeHdl w
  | 42 => decodeFlg w
  | 43 => decodeCsr w
  | 44 => decodeTsk w
  | 45 => decodeMsk w
  | 46 => decodeQue w
  | _ => .error .reservedMajor

/-- The row that the code of a word selects. -/
def decodeOne (w : BitVec 32) : Except DecodeError Instr := oneRow w (w.extractLsb' 26 6).toNat

/-- How many words a first word announces, by its major (R46). -/
def wordCount (w : BitVec 32) : Nat :=
  let m := (w.extractLsb' 26 6).toNat
  if m < 0x38 then 1 else if m < 0x3E then 2 else 3

/-- What makes a long instruction illegal in its first word already, so that no later word is fetched (R52, R55). -/
def firstWordError (w : BitVec 32) : Option DecodeError :=
  match (w.extractLsb' 26 6).toNat with
  | 0x38 => none
  | 0x39 => if w.extractLsb' 0 21 = 0#21 then none else some .zeroField
  | 0x3A => if w.extractLsb' 0 21 = 0#21 then none else some .zeroField
  | 0x3E =>
    if w.extractLsb' 0 7 ≠ 0#7 then some .zeroField
    else if w.extractLsb' 24 2 = 3#2 then some .reservedCode
    else if !wfScope (w.extractLsb' 7 3) then some .reservedCode
    else if w.extractLsb' 10 2 = 0#2 ∧ w.extractLsb' 7 3 ≠ 0#3 then some .zeroField
    else none
  | m => if m < 0x38 then none else some .reservedMajor

/-- The operand fields of an atomic (R47, format A2). -/
def atomicOperand (w x : BitVec 32) : AOp :=
  { d := w.extractLsb' 21 5, h := w.extractLsb' 17 4, x := w.extractLsb' 12 5, el := w.extractLsb' 7 5,
    rof := w.extractLsb' 0 7, a := x.extractLsb' 21 5, b := x.extractLsb' 16 5, scope := x.extractLsb' 13 3,
    w := x.extractLsb' 12 1 }

/-- The atomics (major 0x38, R51, R100): aop in the second word selects the row. -/
def decodeAtm (w x : BitVec 32) : Except DecodeError Instr :=
  if x.extractLsb' 0 12 ≠ 0#12 then .error .zeroField
  else match (x.extractLsb' 26 6).toNat with
  | 0 => .ok (.faa (atomicOperand w x))
  | 1 => .ok (.faab (atomicOperand w x))
  | 2 => .ok (.fao (atomicOperand w x))
  | 3 => .ok (.cas (atomicOperand w x))
  | 4 => .ok (.swp (atomicOperand w x))
  | 5 => .ok (.amin (atomicOperand w x))
  | 6 => .ok (.amax (atomicOperand w x))
  | 7 => .ok (.aminn (atomicOperand w x))
  | 8 => .ok (.amaxn (atomicOperand w x))
  | 9 => .ok (.aor (atomicOperand w x))
  | 10 => .ok (.aand (atomicOperand w x))
  | _ => .error .reservedFunction

/-- The instruction that a first word of a two-word or three-word major begins (R47, formats A2, L2, L3). -/
def decodeLong (w : BitVec 32) (rest : List (BitVec 32)) : Except DecodeError Instr :=
  match (w.extractLsb' 26 6).toNat, rest with
  | 0x38, x :: _ => decodeAtm w x
  | 0x39, x :: _ => .ok (.li (w.extractLsb' 21 5) x)
  | 0x3A, x :: _ => .ok (.lih (w.extractLsb' 21 5) x)
  | 0x3E, x :: y :: _ =>
    if y.extractLsb' 0 16 ≠ 0#16 then .error .zeroField
    else .ok (.issue (w.extractLsb' 24 2) (w.extractLsb' 18 6) (w.extractLsb' 12 6) (w.extractLsb' 10 2)
      (w.extractLsb' 7 3) (x ++ y.extractLsb' 16 16))
  | m, _ => if m = 0x38 ∨ m = 0x39 ∨ m = 0x3A ∨ m = 0x3E then .error .truncated else .error .reservedMajor

/-- Keeps a decoded instruction that is well formed; the others hold a reserved code (R52, R61). -/
def checkWf (r : Except DecodeError Instr) : Except DecodeError Instr :=
  match r with
  | .ok i => if i.wf then .ok i else .error .reservedCode
  | .error e => .error e

/-- The control core's decoder: an instruction from its words, first word first. -/
def decodeWords : List (BitVec 32) → Except DecodeError Instr
  | [] => .error .truncated
  | w :: rest =>
    match firstWordError w with
    | some e => .error e
    | none => checkWf (if wordCount w = 1 then decodeOne w else decodeLong w rest)

/-- One little-endian word of a byte list (R4). -/
def wordOfBytes (b0 b1 b2 b3 : Byte) : BitVec 32 := b3 ++ b2 ++ b1 ++ b0

/-- The whole words of a byte list, in address order (R46). -/
def wordsOfBytes : List Byte → List (BitVec 32)
  | b0 :: b1 :: b2 :: b3 :: rest => wordOfBytes b0 b1 b2 b3 :: wordsOfBytes rest
  | _ => []

/-- The control core's decoder over any bytes. -/
def decodeBytes (bs : List Byte) : Except DecodeError Instr := decodeWords (wordsOfBytes bs)

/-- The operand of a vector word (R57). -/
def vectorOperand (w : EWord) : VWord :=
  { d := w.extractLsb' 20 6, a := w.extractLsb' 14 6, b := w.extractLsb' 8 6, ty := w.extractLsb' 5 3,
    step := w.extractLsb' 3 2, mask := w.extractLsb' 0 3, sc := w.extractLsb' 36 4, rc := w.extractLsb' 26 10 }

/-- The vector class (R57); `vmlog` has its own operand layout (R165). -/
def vecRow (w : EWord) : Nat → Except DecodeError Instr
  | 0 => .ok (.vadd (vectorOperand w))
  | 1 => .ok (.vsub (vectorOperand w))
  | 2 => .ok (.vmul (vectorOperand w))
  | 3 => .ok (.vfma (vectorOperand w))
  | 4 => .ok (.vfms (vectorOperand w))
  | 5 => .ok (.vfnm (vectorOperand w))
  | 6 => .ok (.vmin (vectorOperand w))
  | 7 => .ok (.vmax (vectorOperand w))
  | 8 => .ok (.vabs (vectorOperand w))
  | 9 => .ok (.vneg (vectorOperand w))
  | 10 => .ok (.vrcp (vectorOperand w))
  | 11 => .ok (.vrsq (vectorOperand w))
  | 12 => .ok (.vsqrt (vectorOperand w))
  | 13 => .ok (.vexp2 (vectorOperand w))
  | 14 => .ok (.vlog2 (vectorOperand w))
  | 15 => .ok (.vtanh (vectorOperand w))
  | 16 => .ok (.viadd (vectorOperand w))
  | 17 => .ok (.visub (vectorOperand w))
  | 18 => .ok (.vimul (vectorOperand w))
  | 19 => .ok (.vimulh (vectorOperand w))
  | 20 => .ok (.vshl (vectorOperand w))
  | 21 => .ok (.vshr (vectorOperand w))
  | 22 => .ok (.vsra (vectorOperand w))
  | 23 => .ok (.vand (vectorOperand w))
  | 24 => .ok (.vor (vectorOperand w))
  | 25 => .ok (.vxor (vectorOperand w))
  | 26 => .ok (.vimin (vectorOperand w))
  | 27 => .ok (.vimax (vectorOperand w))
  | 28 => .ok (.vsadd (vectorOperand w))
  | 29 => .ok (.vssub (vectorOperand w))
  | 30 => .ok (.viabs (vectorOperand w))
  | 31 => .ok (.vimac (vectorOperand w))
  | 32 => .ok (.vceq (vectorOperand w))
  | 33 => .ok (.vcne (vectorOperand w))
  | 34 => .ok (.vclt (vectorOperand w))
  | 35 => .ok (.vcle (vectorOperand w))
  | 36 => .ok (.vcun (vectorOperand w))
  | 37 => .ok (.vsel (vectorOperand w))
  | 38 => .ok (.vcvt (vectorOperand w))
  | 39 => .ok (.vqbf (vectorOperand w))
  | 40 => .ok (.vdqbf (vectorOperand w))
  | 41 => .ok (.vqaf (vectorOperand w))
  | 42 => .ok (.vmov (vectorOperand w))
  | 43 => .ok (.vbcst (vectorOperand w))
  | 44 => .ok (.vld (vectorOperand w))
  | 45 => .ok (.vst (vectorOperand w))
  | 46 => .ok (.vgath (vectorOperand w))
  | 47 => .ok (.vscat (vectorOperand w))
  | 48 => .ok (.vrmg (vectorOperand w))
  | 49 => .ok (.vshuf (vectorOperand w))
  | 50 => .ok (.vpart (vectorOperand w))
  | 51 => .ok (.vpop (vectorOperand w))
  | 52 => .ok (.vpush (vectorOperand w))
  | 53 => .ok (.vred (vectorOperand w))
  | 54 => .ok (.vscan (vectorOperand w))
  | 55 => .ok (.viota (vectorOperand w))
  | 56 => .ok (.vmcnt (vectorOperand w))
  | 57 =>
    if w.extractLsb' 23 3 ≠ 0#3 ∨ w.extractLsb' 17 3 ≠ 0#3 ∨ w.extractLsb' 11 3 ≠ 0#3 ∨ w.extractLsb' 0 4 ≠ 0#4 then .error .zeroField
    else .ok (.vmlog (w.extractLsb' 20 3) (w.extractLsb' 14 3) (w.extractLsb' 8 3) (w.extractLsb' 4 4)
      (w.extractLsb' 36 4) (w.extractLsb' 26 10))
  | 58 => .ok (.vacc (vectorOperand w))
  | 59 => .ok (.vclass (vectorOperand w))
  | _ => .error .reservedFunction

/-- The row that the code of a word selects. -/
def decodeVec (w : EWord) : Except DecodeError Instr := vecRow w (w.extractLsb' 40 6).toNat

/-- The matrix class (R58). RC is a zero field of the words whose rule gives them no repetitions (R232, R235). -/
def matRow (w : EWord) : Nat → Except DecodeError Instr
  | 0 => .ok (.mma (w.extractLsb' 24 2) (w.extractLsb' 18 6) (w.extractLsb' 12 6) (w.extractLsb' 0 12) (w.extractLsb' 36 4) (w.extractLsb' 26 10))
  | 1 => if w.extractLsb' 26 10 = 0#10 ∧ w.extractLsb' 0 24 = 0#24 then .ok (.mzero (w.extractLsb' 24 2) (w.extractLsb' 36 4)) else .error .zeroField
  | 2 => if w.extractLsb' 0 7 = 0#7 then .ok (.mdrn (w.extractLsb' 24 2) (w.extractLsb' 18 6) (w.extractLsb' 14 4) (w.extractLsb' 7 7) (w.extractLsb' 36 4) (w.extractLsb' 26 10)) else .error .zeroField
  | 3 => if w.extractLsb' 26 10 = 0#10 ∧ w.extractLsb' 0 20 = 0#20 then .ok (.mlease (w.extractLsb' 20 6) (w.extractLsb' 36 4)) else .error .zeroField
  | 4 => if w.extractLsb' 26 10 = 0#10 ∧ w.extractLsb' 0 26 = 0#26 then .ok (.mcommit (w.extractLsb' 36 4)) else .error .zeroField
  | 5 => if w.extractLsb' 26 10 = 0#10 ∧ w.extractLsb' 0 22 = 0#22 then .ok (.mlend (w.extractLsb' 24 2) (w.extractLsb' 22 2) (w.extractLsb' 36 4)) else .error .zeroField
  | 6 => if w.extractLsb' 26 10 = 0#10 ∧ w.extractLsb' 0 24 = 0#24 then .ok (.mrecl (w.extractLsb' 24 2) (w.extractLsb' 36 4)) else .error .zeroField
  | 7 => if w.extractLsb' 14 4 = 0#4 ∧ w.extractLsb' 0 7 = 0#7 then .ok (.mldacc (w.extractLsb' 24 2) (w.extractLsb' 18 6) (w.extractLsb' 7 7) (w.extractLsb' 36 4) (w.extractLsb' 26 10)) else .error .zeroField
  | _ => .error .reservedFunction

/-- The row that the code of a word selects. -/
def decodeMat (w : EWord) : Except DecodeError Instr := matRow w (w.extractLsb' 40 6).toNat

/-- The walks, channel, stall count and repetition field of a copy word (R59). -/
def copyOperand (w : EWord) : CWord :=
  { ws := w.extractLsb' 21 5, wd := w.extractLsb' 16 5, ch := w.extractLsb' 13 3, sc := w.extractLsb' 36 4,
    rc := w.extractLsb' 26 10 }

/-- The copy class (R59): mod in [12:10], aux in [9:0]; `cred`, `cdsp`, `cbind` and `cwmk` take RC = 0. -/
def cpyRow (w : EWord) : Nat → Except DecodeError Instr
  | 0 => if w.extractLsb' 10 3 = 0#3 ∧ w.extractLsb' 0 10 = 0#10 then .ok (.ccpy (copyOperand w)) else .error .zeroField
  | 1 => if w.extractLsb' 0 10 = 0#10 then .ok (.ccvt (copyOperand w) (w.extractLsb' 10 3)) else .error .zeroField
  | 2 => if w.extractLsb' 10 3 = 0#3 ∧ w.extractLsb' 0 10 = 0#10 then .ok (.cxpd (copyOperand w)) else .error .zeroField
  | 3 => if w.extractLsb' 10 3 = 0#3 ∧ w.extractLsb' 0 10 = 0#10 then .ok (.cfilb (copyOperand w)) else .error .zeroField
  | 4 => if w.extractLsb' 10 3 = 0#3 ∧ w.extractLsb' 0 10 = 0#10 then .ok (.cgath (copyOperand w)) else .error .zeroField
  | 5 => if w.extractLsb' 10 3 = 0#3 ∧ w.extractLsb' 0 10 = 0#10 then .ok (.cscat (copyOperand w)) else .error .zeroField
  | 6 => if w.extractLsb' 26 10 = 0#10 ∧ w.extractLsb' 0 10 = 0#10 then .ok (.cred (copyOperand w) (w.extractLsb' 10 3)) else .error .zeroField
  | 7 => if w.extractLsb' 10 3 = 0#3 ∧ w.extractLsb' 8 2 = 0#2 then .ok (.cmcst (copyOperand w) (w.extractLsb' 0 8)) else .error .zeroField
  | 8 => if w.extractLsb' 26 10 = 0#10 ∧ w.extractLsb' 13 3 = 0#3 ∧ w.extractLsb' 10 3 = 0#3 ∧ w.extractLsb' 3 7 = 0#7 then .ok (.cdsp (copyOperand w) (w.extractLsb' 0 3)) else .error .zeroField
  | 9 => if w.extractLsb' 16 5 = 0#5 ∧ w.extractLsb' 13 3 = 0#3 ∧ w.extractLsb' 11 2 = 0#2 ∧ w.extractLsb' 0 10 = 0#10 then .ok (.cscl (w.extractLsb' 21 5) (w.extractLsb' 10 1) (w.extractLsb' 36 4) (w.extractLsb' 26 10)) else .error .zeroField
  | 10 =>
    match (w.extractLsb' 10 3).toNat with
    | 0 => if w.extractLsb' 26 10 = 0#10 ∧ w.extractLsb' 21 5 = 0#5 ∧ w.extractLsb' 16 5 = 0#5 ∧ w.extractLsb' 0 10 = 0#10 then .ok (.cbindOff (w.extractLsb' 13 3) (w.extractLsb' 36 4)) else .error .zeroField
    | 1 => if w.extractLsb' 26 10 = 0#10 ∧ w.extractLsb' 21 5 = 0#5 ∧ w.extractLsb' 0 10 = 0#10 then .ok (.cbindRange (w.extractLsb' 13 3) (w.extractLsb' 16 5) (w.extractLsb' 36 4)) else .error .zeroField
    | 2 => if w.extractLsb' 26 10 = 0#10 ∧ w.extractLsb' 21 5 = 0#5 ∧ w.extractLsb' 17 4 = 0#4 ∧ w.extractLsb' 2 8 = 0#8 then .ok (.cbindStream (w.extractLsb' 13 3) (w.extractLsb' 16 1) (w.extractLsb' 0 2) (w.extractLsb' 36 4)) else .error .zeroField
    | _ => .error .reservedCode
  | 11 => if w.extractLsb' 21 5 = 0#5 ∧ w.extractLsb' 10 3 = 0#3 ∧ w.extractLsb' 0 10 = 0#10 then .ok (.czero (w.extractLsb' 16 5) (w.extractLsb' 13 3) (w.extractLsb' 36 4) (w.extractLsb' 26 10)) else .error .zeroField
  | 12 => if w.extractLsb' 26 10 = 0#10 ∧ w.extractLsb' 21 5 = 0#5 ∧ w.extractLsb' 16 5 = 0#5 ∧ w.extractLsb' 10 3 = 0#3 then .ok (.cwmk (w.extractLsb' 13 3) (w.extractLsb' 0 10) (w.extractLsb' 36 4)) else .error .zeroField
  | _ => .error .reservedFunction

/-- The row that the code of a word selects. -/
def decodeCpy (w : EWord) : Except DecodeError Instr := cpyRow w (w.extractLsb' 40 6).toNat

/-- The sequencer class (R60): only `snop` may carry RC ≠ 0. -/
def seqRow (w : EWord) : Nat → Except DecodeError Instr
  | 0 => if w.extractLsb' 0 26 = 0#26 then .ok (.snop (w.extractLsb' 36 4) (w.extractLsb' 26 10)) else .error .zeroField
  | 1 => if w.extractLsb' 26 10 = 0#10 ∧ w.extractLsb' 0 20 = 0#20 then .ok (.swait (w.extractLsb' 20 6) (w.extractLsb' 36 4)) else .error .zeroField
  | 2 => if w.extractLsb' 26 10 = 0#10 ∧ w.extractLsb' 0 20 = 0#20 then .ok (.ssig (w.extractLsb' 20 6) (w.extractLsb' 36 4)) else .error .zeroField
  | 3 => if w.extractLsb' 26 10 = 0#10 ∧ w.extractLsb' 16 7 = 0#7 then .ok (.sloop (w.extractLsb' 23 3) (w.extractLsb' 0 16) (w.extractLsb' 36 4)) else .error .zeroField
  | 4 => if w.extractLsb' 26 10 = 0#10 ∧ w.extractLsb' 0 26 = 0#26 then .ok (.sendl (w.extractLsb' 36 4)) else .error .zeroField
  | 5 => if w.extractLsb' 26 10 = 0#10 ∧ w.extractLsb' 0 20 = 0#20 then .ok (.spho (w.extractLsb' 20 6) (w.extractLsb' 36 4)) else .error .zeroField
  | 6 => if w.extractLsb' 26 10 = 0#10 ∧ w.extractLsb' 0 20 = 0#20 then .ok (.sphc (w.extractLsb' 20 6) (w.extractLsb' 36 4)) else .error .zeroField
  | 7 => if w.extractLsb' 26 10 = 0#10 ∧ w.extractLsb' 0 23 = 0#23 then .ok (.sacq (w.extractLsb' 23 3) (w.extractLsb' 36 4)) else .error .zeroField
  | 8 => if w.extractLsb' 26 10 = 0#10 ∧ w.extractLsb' 0 23 = 0#23 then .ok (.srel (w.extractLsb' 23 3) (w.extractLsb' 36 4)) else .error .zeroField
  | 9 =>
    if w.extractLsb' 26 10 ≠ 0#10 ∨ w.extractLsb' 0 25 ≠ 0#25 then .error .zeroField
    else if w.extractLsb' 25 1 = 0#1 then .ok (.smodeExposed (w.extractLsb' 36 4)) else .ok (.smodeInterlock (w.extractLsb' 36 4))
  | 10 => if w.extractLsb' 26 10 = 0#10 ∧ w.extractLsb' 0 23 = 0#23 then .ok (.send (w.extractLsb' 23 3) (w.extractLsb' 36 4)) else .error .zeroField
  | _ => .error .reservedFunction

/-- The row that the code of a word selects. -/
def decodeSeq (w : EWord) : Except DecodeError Instr := seqRow w (w.extractLsb' 40 6).toNat

/-- The class of an engine word (R54). -/
def classRow (w : EWord) : Nat → Except DecodeError Instr
  | 0 => decodeVec w
  | 1 => decodeMat w
  | 2 => decodeCpy w
  | _ => decodeSeq w

/-- The engines' decoder (R54, R61): an instruction from a 48-bit engine word. -/
def decodeEng (w : EWord) : Except DecodeError Instr := checkWf (classRow w (w.extractLsb' 46 2).toNat)

/-- What the part stores for an instruction: the control core's words, one engine word, or nothing. -/
inductive Encoding where
  | words (ws : List (BitVec 32))
  | engine (w : EWord)
  | step
  deriving DecidableEq, Repr, Inhabited

/-- The two words of an atomic (R47, format A2). -/
def encodeAtm (n : BitVec 6) (o : AOp) : Encoding :=
  .words [(0x38#6 ++ o.d ++ o.h ++ o.x ++ o.el ++ o.rof : BitVec 32),
    (n ++ o.a ++ o.b ++ o.scope ++ o.w ++ 0#12 : BitVec 32)]

/-- A vector word (R54, R57). -/
def encodeVec (n : BitVec 6) (o : VWord) : Encoding :=
  .engine (0#2 ++ n ++ o.sc ++ o.rc ++ o.d ++ o.a ++ o.b ++ o.ty ++ o.step ++ o.mask : BitVec 48)

/-- A matrix word (R54, R58). -/
def encodeMat (n : BitVec 6) (sc : BitVec 4) (rc : BitVec 10) (operand : BitVec 26) : Encoding :=
  .engine (1#2 ++ n ++ sc ++ rc ++ operand : BitVec 48)

/-- A copy word (R54, R59). -/
def encodeCpy (n : BitVec 6) (o : CWord) (mod : BitVec 3) (aux : BitVec 10) : Encoding :=
  .engine (2#2 ++ n ++ o.sc ++ o.rc ++ o.ws ++ o.wd ++ o.ch ++ mod ++ aux : BitVec 48)

/-- A sequencer word (R54, R60). -/
def encodeSeq (n : BitVec 6) (sc : BitVec 4) (rc : BitVec 10) (operand : BitVec 26) : Encoding :=
  .engine (3#2 ++ n ++ sc ++ rc ++ operand : BitVec 48)

/-- The encoder: the words of an instruction, from the tables of R46 to R60. A step of the part has none. -/
def encode : Instr → Encoding
  | .add d a b => .words [(0#6 ++ d ++ a ++ b ++ 0#11 : BitVec 32)]
  | .sub d a b => .words [(0#6 ++ d ++ a ++ b ++ 1#11 : BitVec 32)]
  | .and d a b => .words [(0#6 ++ d ++ a ++ b ++ 2#11 : BitVec 32)]
  | .or d a b => .words [(0#6 ++ d ++ a ++ b ++ 3#11 : BitVec 32)]
  | .xor d a b => .words [(0#6 ++ d ++ a ++ b ++ 4#11 : BitVec 32)]
  | .andn d a b => .words [(0#6 ++ d ++ a ++ b ++ 5#11 : BitVec 32)]
  | .sll d a b => .words [(0#6 ++ d ++ a ++ b ++ 6#11 : BitVec 32)]
  | .srl d a b => .words [(0#6 ++ d ++ a ++ b ++ 7#11 : BitVec 32)]
  | .sra d a b => .words [(0#6 ++ d ++ a ++ b ++ 8#11 : BitVec 32)]
  | .rol d a b => .words [(0#6 ++ d ++ a ++ b ++ 9#11 : BitVec 32)]
  | .mul d a b => .words [(0#6 ++ d ++ a ++ b ++ 10#11 : BitVec 32)]
  | .mulh d a b => .words [(0#6 ++ d ++ a ++ b ++ 11#11 : BitVec 32)]
  | .mulhn d a b => .words [(0#6 ++ d ++ a ++ b ++ 12#11 : BitVec 32)]
  | .div d a b => .words [(0#6 ++ d ++ a ++ b ++ 13#11 : BitVec 32)]
  | .divn d a b => .words [(0#6 ++ d ++ a ++ b ++ 14#11 : BitVec 32)]
  | .rem d a b => .words [(0#6 ++ d ++ a ++ b ++ 15#11 : BitVec 32)]
  | .remn d a b => .words [(0#6 ++ d ++ a ++ b ++ 16#11 : BitVec 32)]
  | .min d a b => .words [(0#6 ++ d ++ a ++ b ++ 17#11 : BitVec 32)]
  | .max d a b => .words [(0#6 ++ d ++ a ++ b ++ 18#11 : BitVec 32)]
  | .minn d a b => .words [(0#6 ++ d ++ a ++ b ++ 19#11 : BitVec 32)]
  | .maxn d a b => .words [(0#6 ++ d ++ a ++ b ++ 20#11 : BitVec 32)]
  | .slt d a b => .words [(0#6 ++ d ++ a ++ b ++ 21#11 : BitVec 32)]
  | .sltn d a b => .words [(0#6 ++ d ++ a ++ b ++ 22#11 : BitVec 32)]
  | .seq d a b => .words [(0#6 ++ d ++ a ++ b ++ 23#11 : BitVec 32)]
  | .clz d a => .words [(0#6 ++ d ++ a ++ 24#16 : BitVec 32)]
  | .ctz d a => .words [(0#6 ++ d ++ a ++ 25#16 : BitVec 32)]
  | .pop d a => .words [(0#6 ++ d ++ a ++ 26#16 : BitVec 32)]
  | .sext d a w => .words [(0#6 ++ d ++ a ++ 0#8 ++ w ++ 27#6 : BitVec 32)]
  | .zext d a w => .words [(0#6 ++ d ++ a ++ 0#8 ++ w ++ 28#6 : BitVec 32)]
  | .sel d a b c => .words [(0#6 ++ d ++ a ++ b ++ c ++ 29#6 : BitVec 32)]
  | .addw d a b => .words [(0#6 ++ d ++ a ++ b ++ 30#11 : BitVec 32)]
  | .subw d a b => .words [(0#6 ++ d ++ a ++ b ++ 31#11 : BitVec 32)]
  | .mulw d a b => .words [(0#6 ++ d ++ a ++ b ++ 32#11 : BitVec 32)]
  | .shadd d a b n => .words [(0#6 ++ d ++ a ++ b ++ n ++ 33#6 : BitVec 32)]
  | .addi d a i => .words [(1#6 ++ d ++ a ++ i : BitVec 32)]
  | .andi d a i => .words [(2#6 ++ d ++ a ++ i : BitVec 32)]
  | .ori d a i => .words [(3#6 ++ d ++ a ++ i : BitVec 32)]
  | .xori d a i => .words [(4#6 ++ d ++ a ++ i : BitVec 32)]
  | .slti d a i => .words [(5#6 ++ d ++ a ++ i : BitVec 32)]
  | .sltin d a i => .words [(6#6 ++ d ++ a ++ i : BitVec 32)]
  | .slli d a n => .words [(7#6 ++ d ++ a ++ 0#10 ++ n : BitVec 32)]
  | .srli d a n => .words [(7#6 ++ d ++ a ++ 1#10 ++ n : BitVec 32)]
  | .srai d a n => .words [(7#6 ++ d ++ a ++ 2#10 ++ n : BitVec 32)]
  | .roli d a n => .words [(7#6 ++ d ++ a ++ 3#10 ++ n : BitVec 32)]
  | .lui d i => .words [(8#6 ++ d ++ 0#5 ++ i : BitVec 32)]
  | .muli d a i => .words [(9#6 ++ d ++ a ++ i : BitVec 32)]
  | .bfx d a p n => .words [(10#6 ++ d ++ a ++ 0#4 ++ p ++ n : BitVec 32)]
  | .bfxS d a p n => .words [(10#6 ++ d ++ a ++ 1#4 ++ p ++ n : BitVec 32)]
  | .bfi d a p n => .words [(11#6 ++ d ++ a ++ 0#4 ++ p ++ n : BitVec 32)]
  | .jalr d a i => .words [(12#6 ++ d ++ a ++ i : BitVec 32)]
  | .beq a b o => .words [(16#6 ++ a ++ b ++ o : BitVec 32)]
  | .bne a b o => .words [(17#6 ++ a ++ b ++ o : BitVec 32)]
  | .blt a b o => .words [(18#6 ++ a ++ b ++ o : BitVec 32)]
  | .bge a b o => .words [(19#6 ++ a ++ b ++ o : BitVec 32)]
  | .bltn a b o => .words [(20#6 ++ a ++ b ++ o : BitVec 32)]
  | .bgen a b o => .words [(21#6 ++ a ++ b ++ o : BitVec 32)]
  | .bmskAny k w o => .words [(88#8 ++ k ++ w ++ 0#2 ++ o : BitVec 32)]
  | .bmskNone k w o => .words [(88#8 ++ k ++ w ++ 1#2 ++ o : BitVec 32)]
  | .bmskAll k w o => .words [(88#8 ++ k ++ w ++ 2#2 ++ o : BitVec 32)]
  | .loop a o => .words [(23#6 ++ a ++ 0#5 ++ o : BitVec 32)]
  | .jal o => .words [(24#6 ++ o : BitVec 32)]
  | .ldW d h x e r => .words [(32#6 ++ d ++ h ++ x ++ e ++ r : BitVec 32)]
  | .ldD d h x e r => .words [(33#6 ++ d ++ h ++ x ++ 0#1 ++ e ++ r : BitVec 32)]
  | .stW v h x e r => .words [(34#6 ++ v ++ h ++ x ++ e ++ r : BitVec 32)]
  | .stD v h x e r => .words [(35#6 ++ v ++ h ++ x ++ 0#1 ++ e ++ r : BitVec 32)]
  | .srdW d k => .words [(37#6 ++ d ++ 0#2 ++ k ++ 0#16 : BitVec 32)]
  | .srdD d k => .words [(37#6 ++ d ++ 0#2 ++ k ++ 1#16 : BitVec 32)]
  | .savl d k => .words [(37#6 ++ d ++ 0#2 ++ k ++ 2#16 : BitVec 32)]
  | .nop => .words [(2684354560#32 : BitVec 32)]
  | .seam => .words [(2684354561#32 : BitVec 32)]
  | .fenceSc s => .words [(5242881#23 ++ s ++ 2#6 : BitVec 32)]
  | .fenceAcq s => .words [(5242882#23 ++ s ++ 2#6 : BitVec 32)]
  | .fenceRel s => .words [(5242883#23 ++ s ++ 2#6 : BitVec 32)]
  | .trap k => .words [(40960#16 ++ k ++ 3#6 : BitVec 32)]
  | .ertn => .words [(2684354564#32 : BitVec 32)]
  | .brk => .words [(2684354565#32 : BitVec 32)]
  | .yield => .words [(2684354566#32 : BitVec 32)]
  | .texit => .words [(2684354567#32 : BitVec 32)]
  | .wfe => .words [(2684354568#32 : BitVec 32)]
  | .icinv => .words [(2684354569#32 : BitVec 32)]
  | .modeExposed => .words [(2684354570#32 : BitVec 32)]
  | .modeInterlock => .words [(2684354634#32 : BitVec 32)]
  | .trnR h a => .words [(82#7 ++ h ++ a ++ 64#16 : BitVec 32)]
  | .trnRw h a => .words [(82#7 ++ h ++ a ++ 192#16 : BitVec 32)]
  | .vbind h a => .words [(82#7 ++ h ++ a ++ 1#16 : BitVec 32)]
  | .hqry d h => .words [(41#6 ++ d ++ 0#1 ++ h ++ 2#16 : BitVec 32)]
  | .hinv h => .words [(2624#12 ++ h ++ 3#16 : BitVec 32)]
  | .pgreq d a f => .words [(41#6 ++ d ++ a ++ f ++ 4#10 : BitVec 32)]
  | .hmov d a => .words [(82#7 ++ d ++ 0#1 ++ a ++ 5#16 : BitVec 32)]
  | .fsig a f => .words [(1344#11 ++ a ++ f ++ 0#10 : BitVec 32)]
  | .fsigQuad a f k => .words [(1344#11 ++ a ++ f ++ k ++ 128#8 : BitVec 32)]
  | .fwait f => .words [(43008#16 ++ f ++ 1#10 : BitVec 32)]
  | .fpeek d f => .words [(42#6 ++ d ++ 0#5 ++ f ++ 2#10 : BitVec 32)]
  | .rigw b a t => .words [(42#6 ++ b ++ a ++ 0#2 ++ t ++ 3#10 : BitVec 32)]
  | .bar i s => .words [(43008#16 ++ i ++ s ++ 4#10 : BitVec 32)]
  | .bara i s => .words [(43008#16 ++ i ++ s ++ 5#10 : BitVec 32)]
  | .barw i s => .words [(43008#16 ++ i ++ s ++ 6#10 : BitVec 32)]
  | .bwait n e => .words [(43008#16 ++ n ++ e ++ 7#8 : BitVec 32)]
  | .rdvz k => .words [(344064#19 ++ k ++ 8#10 : BitVec 32)]
  | .csrr d c => .words [(43#6 ++ d ++ 0#5 ++ 0#2 ++ 0#2 ++ c : BitVec 32)]
  | .csrw d a c => .words [(43#6 ++ d ++ a ++ 1#2 ++ 0#2 ++ c : BitVec 32)]
  | .csrs d a c => .words [(43#6 ++ d ++ a ++ 2#2 ++ 0#2 ++ c : BitVec 32)]
  | .csrc d a c => .words [(43#6 ++ d ++ a ++ 3#2 ++ 0#2 ++ c : BitVec 32)]
  | .tcrd d n => .words [(44#6 ++ d ++ 0#13 ++ n ++ 0#6 : BitVec 32)]
  | .cvq d => .words [(44#6 ++ d ++ 1#21 : BitVec 32)]
  | .rlay g f x h => .words [(44#6 ++ g ++ f ++ x ++ h ++ 2#6 : BitVec 32)]
  | .tdld a x h => .words [(1408#11 ++ a ++ x ++ h ++ 3#6 : BitVec 32)]
  | .tdst a x h => .words [(1408#11 ++ a ++ x ++ h ++ 4#6 : BitVec 32)]
  | .tdrd d x k => .words [(44#6 ++ d ++ 0#5 ++ x ++ 0#1 ++ k ++ 5#6 : BitVec 32)]
  | .tdwr a x k => .words [(1408#11 ++ a ++ x ++ 0#1 ++ k ++ 6#6 : BitVec 32)]
  | .wkld a w h => .words [(1408#11 ++ a ++ 0#1 ++ w ++ h ++ 7#6 : BitVec 32)]
  | .wkst a w h => .words [(1408#11 ++ a ++ 0#1 ++ w ++ h ++ 8#6 : BitVec 32)]
  | .guardW d a x => .words [(44#6 ++ d ++ a ++ x ++ 9#10 : BitVec 32)]
  | .guardD d a x => .words [(44#6 ++ d ++ a ++ x ++ 10#10 : BitVec 32)]
  | .dlaunch d a => .words [(44#6 ++ d ++ a ++ 11#16 : BitVec 32)]
  | .mmov d a => .words [(180#8 ++ d ++ 0#2 ++ a ++ 0#16 : BitVec 32)]
  | .mset d a b => .words [(180#8 ++ d ++ a ++ b ++ 1#11 : BitVec 32)]
  | .mcntE d a w => .words [(45#6 ++ d ++ 0#2 ++ a ++ 0#7 ++ w ++ 2#6 : BitVec 32)]
  | .mcntLo d a => .words [(45#6 ++ d ++ 0#2 ++ a ++ 514#16 : BitVec 32)]
  | .mcntHi d a => .words [(45#6 ++ d ++ 0#2 ++ a ++ 1026#16 : BitVec 32)]
  | .mcntFfs d a w => .words [(45#6 ++ d ++ 0#2 ++ a ++ 3#7 ++ w ++ 2#6 : BitVec 32)]
  | .mlog d a b t => .words [(180#8 ++ d ++ 0#2 ++ a ++ 0#2 ++ b ++ 0#1 ++ t ++ 3#6 : BitVec 32)]
  | .fork k a b c => .words [(184#8 ++ k ++ a ++ b ++ c ++ 0#6 : BitVec 32)]
  | .enqs a b e => .words [(1472#11 ++ a ++ b ++ 0#3 ++ e ++ 1#6 : BitVec 32)]
  | .renq a b e => .words [(1472#11 ++ a ++ b ++ 0#3 ++ e ++ 2#6 : BitVec 32)]
  | .xstatWrite ck d a => .words [(43#6 ++ d ++ a ++ ck ++ 0#2 ++ 0x013#12 : BitVec 32)]
  | .wmWrite ck d a k => .words [(43#6 ++ d ++ a ++ ck ++ 0#2 ++ (6#9 ++ k : BitVec 12) : BitVec 32)]
  | .residAccess ck d a => .words [(43#6 ++ d ++ a ++ ck ++ 0#2 ++ 0x00C#12 : BitVec 32)]
  | .engstRead d => .words [(43#6 ++ d ++ 0#5 ++ 0#2 ++ 0#2 ++ 0x020#12 : BitVec 32)]
  | .faa o => encodeAtm 0#6 o
  | .faab o => encodeAtm 1#6 o
  | .fao o => encodeAtm 2#6 o
  | .cas o => encodeAtm 3#6 o
  | .swp o => encodeAtm 4#6 o
  | .amin o => encodeAtm 5#6 o
  | .amax o => encodeAtm 6#6 o
  | .aminn o => encodeAtm 7#6 o
  | .amaxn o => encodeAtm 8#6 o
  | .aor o => encodeAtm 9#6 o
  | .aand o => encodeAtm 10#6 o
  | .li d i => .words [(0x39#6 ++ d ++ 0#21 : BitVec 32), i]
  | .lih d i => .words [(0x3A#6 ++ d ++ 0#21 : BitVec 32), i]
  | .issue e wf sf ar scope word => .words [(0x3E#6 ++ e ++ wf ++ sf ++ ar ++ scope ++ 0#7 : BitVec 32),
      word.extractLsb' 16 32, (word.extractLsb' 0 16 ++ 0#16 : BitVec 32)]
  | .vadd o => encodeVec 0#6 o
  | .vsub o => encodeVec 1#6 o
  | .vmul o => encodeVec 2#6 o
  | .vfma o => encodeVec 3#6 o
  | .vfms o => encodeVec 4#6 o
  | .vfnm o => encodeVec 5#6 o
  | .vmin o => encodeVec 6#6 o
  | .vmax o => encodeVec 7#6 o
  | .vabs o => encodeVec 8#6 o
  | .vneg o => encodeVec 9#6 o
  | .vrcp o => encodeVec 10#6 o
  | .vrsq o => encodeVec 11#6 o
  | .vsqrt o => encodeVec 12#6 o
  | .vexp2 o => encodeVec 13#6 o
  | .vlog2 o => encodeVec 14#6 o
  | .vtanh o => encodeVec 15#6 o
  | .viadd o => encodeVec 16#6 o
  | .visub o => encodeVec 17#6 o
  | .vimul o => encodeVec 18#6 o
  | .vimulh o => encodeVec 19#6 o
  | .vshl o => encodeVec 20#6 o
  | .vshr o => encodeVec 21#6 o
  | .vsra o => encodeVec 22#6 o
  | .vand o => encodeVec 23#6 o
  | .vor o => encodeVec 24#6 o
  | .vxor o => encodeVec 25#6 o
  | .vimin o => encodeVec 26#6 o
  | .vimax o => encodeVec 27#6 o
  | .vsadd o => encodeVec 28#6 o
  | .vssub o => encodeVec 29#6 o
  | .viabs o => encodeVec 30#6 o
  | .vimac o => encodeVec 31#6 o
  | .vceq o => encodeVec 32#6 o
  | .vcne o => encodeVec 33#6 o
  | .vclt o => encodeVec 34#6 o
  | .vcle o => encodeVec 35#6 o
  | .vcun o => encodeVec 36#6 o
  | .vsel o => encodeVec 37#6 o
  | .vcvt o => encodeVec 38#6 o
  | .vqbf o => encodeVec 39#6 o
  | .vdqbf o => encodeVec 40#6 o
  | .vqaf o => encodeVec 41#6 o
  | .vmov o => encodeVec 42#6 o
  | .vbcst o => encodeVec 43#6 o
  | .vld o => encodeVec 44#6 o
  | .vst o => encodeVec 45#6 o
  | .vgath o => encodeVec 46#6 o
  | .vscat o => encodeVec 47#6 o
  | .vrmg o => encodeVec 48#6 o
  | .vshuf o => encodeVec 49#6 o
  | .vpart o => encodeVec 50#6 o
  | .vpop o => encodeVec 51#6 o
  | .vpush o => encodeVec 52#6 o
  | .vred o => encodeVec 53#6 o
  | .vscan o => encodeVec 54#6 o
  | .viota o => encodeVec 55#6 o
  | .vmcnt o => encodeVec 56#6 o
  | .vmlog md ma mb tt sc rc =>
    .engine (0#2 ++ 57#6 ++ sc ++ rc ++ 0#3 ++ md ++ 0#3 ++ ma ++ 0#3 ++ mb ++ tt ++ 0#4 : BitVec 48)
  | .vacc o => encodeVec 58#6 o
  | .vclass o => encodeVec 59#6 o
  | .mma bank tA tB k0 sc rc => encodeMat 0#6 sc rc (bank ++ tA ++ tB ++ k0 : BitVec 26)
  | .mzero bank sc => encodeMat 1#6 sc 0#10 (bank ++ 0#24 : BitVec 26)
  | .mdrn bank tD ep row0 sc rc => encodeMat 2#6 sc rc (bank ++ tD ++ ep ++ row0 ++ 0#7 : BitVec 26)
  | .mlease n sc => encodeMat 3#6 sc 0#10 (n ++ 0#20 : BitVec 26)
  | .mcommit sc => encodeMat 4#6 sc 0#10 0#26
  | .mlend bank core sc => encodeMat 5#6 sc 0#10 (bank ++ core ++ 0#22 : BitVec 26)
  | .mrecl bank sc => encodeMat 6#6 sc 0#10 (bank ++ 0#24 : BitVec 26)
  | .mldacc bank tS row0 sc rc => encodeMat 7#6 sc rc (bank ++ tS ++ 0#4 ++ row0 ++ 0#7 : BitVec 26)
  | .ccpy o => encodeCpy 0#6 o 0#3 0#10
  | .ccvt o mode => encodeCpy 1#6 o mode 0#10
  | .cxpd o => encodeCpy 2#6 o 0#3 0#10
  | .cfilb o => encodeCpy 3#6 o 0#3 0#10
  | .cgath o => encodeCpy 4#6 o 0#3 0#10
  | .cscat o => encodeCpy 5#6 o 0#3 0#10
  | .cred o op => encodeCpy 6#6 o op 0#10
  | .cmcst o dies => encodeCpy 7#6 o 0#3 (0#2 ++ dies)
  | .cdsp o k => encodeCpy 8#6 o 0#3 (0#7 ++ k)
  | .cscl ws q sc rc => encodeCpy 9#6 { ws := ws, wd := 0#5, ch := 0#3, sc := sc, rc := rc } (0#2 ++ q) 0#10
  | .cbindOff ch sc => encodeCpy 10#6 { ws := 0#5, wd := 0#5, ch := ch, sc := sc, rc := 0#10 } 0#3 0#10
  | .cbindRange ch wd sc => encodeCpy 10#6 { ws := 0#5, wd := wd, ch := ch, sc := sc, rc := 0#10 } 1#3 0#10
  | .cbindStream ch out esz sc =>
    encodeCpy 10#6 { ws := 0#5, wd := 0#4 ++ out, ch := ch, sc := sc, rc := 0#10 } 2#3 (0#8 ++ esz)
  | .czero wd ch sc rc => encodeCpy 11#6 { ws := 0#5, wd := wd, ch := ch, sc := sc, rc := rc } 0#3 0#10
  | .cwmk ch n sc => encodeCpy 12#6 { ws := 0#5, wd := 0#5, ch := ch, sc := sc, rc := 0#10 } 0#3 n
  | .snop sc rc => encodeSeq 0#6 sc rc 0#26
  | .swait f sc => encodeSeq 1#6 sc 0#10 (f ++ 0#20 : BitVec 26)
  | .ssig f sc => encodeSeq 2#6 sc 0#10 (f ++ 0#20 : BitVec 26)
  | .sloop src n sc => encodeSeq 3#6 sc 0#10 (src ++ 0#7 ++ n : BitVec 26)
  | .sendl sc => encodeSeq 4#6 sc 0#10 0#26
  | .spho k sc => encodeSeq 5#6 sc 0#10 (k ++ 0#20 : BitVec 26)
  | .sphc k sc => encodeSeq 6#6 sc 0#10 (k ++ 0#20 : BitVec 26)
  | .sacq s sc => encodeSeq 7#6 sc 0#10 (s ++ 0#23 : BitVec 26)
  | .srel s sc => encodeSeq 8#6 sc 0#10 (s ++ 0#23 : BitVec 26)
  | .smodeExposed sc => encodeSeq 9#6 sc 0#10 0#26
  | .smodeInterlock sc => encodeSeq 9#6 sc 0#10 (1#1 ++ 0#25 : BitVec 26)
  | .send k sc => encodeSeq 10#6 sc 0#10 (k ++ 0#23 : BitVec 26)
  | .saddlebagReturn _ _ => .step
  | .entryWaitSatisfied _ _ => .step
  | .entryComplete _ _ _ => .step
  | .blockEntry _ _ => .step
  | .nullEntry _ _ => .step
  | .programRowFetch _ _ => .step
  | .modeCrossing _ => .step
  | .leaseGrant _ => .step
  | .lstallPass _ => .step
  | .loadReturn _ => .step
  | .storePerform _ => .step
  | .handleResolve _ _ => .step
  | .vectorLoadReturn _ _ => .step
  | .rowTransfer _ _ _ => .step
  | .faoGrant _ => .step
  | .barrierGenerationComplete _ => .step
  | .quotaStall _ => .step
  | .engineFault _ _ _ => .step
  | .trapDelivery _ => .step
  | .taskBind _ => .step
  | .taskStart _ => .step
  | .taskRetire _ => .step
  | .launchAdmit _ => .step
  | .launchStart _ => .step
  | .launchRetire _ => .step
  | .burnish _ => .step
  | .nopPacket _ => .step
  | .oprec _ => .step
  | .graph _ => .step
  | .write _ => .step
  | .signal _ => .step
  | .wait _ => .step
  | .wrsig _ => .step
  | .copy _ => .step
  | .timestamp _ => .step
  | .fence _ => .step
  | .packetComplete _ => .step
  | .qpollRotation _ _ => .step
  | .ageLimit _ => .step
  | .qslice _ => .step
  | .coreslice _ => .step
  | .preemption _ => .step
  | .bankClaim _ _ => .step
  | .forcedSpill _ _ => .step
  | .segmentSave _ => .step
  | .segmentRestore _ _ => .step
  | .dynamicStep _ => .step
  | .replay _ => .step
  | .refinement _ _ _ => .step
  | .versionNotice _ _ _ _ => .step
  | .versionLate _ => .step
  | .skiverPatch _ _ _ => .step
  | .conversionComplete _ _ => .step
  | .contributionArrive _ => .step
  | .contributionRetry _ => .step
  | .pageReply _ _ => .step
  | .tableWalk _ _ _ _ => .step
  | .sweep _ => .step
  | .scrub _ _ => .step
  | .shoot => .step
  | .harvest => .step
  | .stop => .step
  | .image => .step
  | .resume => .step
  | .destroy => .step
  | .commandCompletion => .step
  | .queueEnable _ => .step
  | .contextRecordEnable _ => .step
  | .journalClear => .step
  | .bar0Write _ _ _ => .step
  | .hostBar2Access _ _ => .step
  | .debugStop _ _ => .step
  | .breakpointMatch _ _ => .step
  | .headClassSample _ _ => .step
  | .bankConflictSample _ _ _ _ => .step
  | .ptpAdjustment _ _ => .step
  | .dieFence _ => .step
  | .channelRetirement _ _ => .step
  | .liveUpdate _ => .step
  | .bootStep _ _ _ => .step
  | .clockStep _ => .step
  | .throttle _ _ => .step
  | .shutdown _ => .step
  | .flitReceive _ _ => .step
  | .laneRemoval _ => .step
  | .remoteRequest _ _ _ _ => .step
  | .remoteResponse _ _ _ => .step
  | .remoteTimeout _ => .step
  | .podBarrierArrival _ _ _ _ => .step
  | .packageFence _ => .step
  | .fenceNotice _ => .step
  | .ptpMessage _ _ _ => .step
  | .powerUp _ => .step
  | .packageReset => .step
  | .doubleError _ _ => .step
  | .linkUp _ _ => .step
  | .gangBuild _ _ _ _ _ => .step
  | .syncInterval _ => .step
  | .mldaccRowArrival _ => .step

/-- The first word of a control-core instruction, which a trap that rejects the instruction records (R52). -/
def firstWord (i : Instr) : BitVec 32 :=
  match encode i with
  | .words (w :: _) => w
  | _ => 0#32

/-- The length in bytes of a control-core instruction (R46). -/
def byteLength (i : Instr) : Nat :=
  match encode i with
  | .words ws => 4 * ws.length
  | _ => 4

/-- The little-endian bytes of a number, `n` of them (R4). -/
def bytesOfNat : Nat → Nat → List Byte
  | 0, _ => []
  | n + 1, w => BitVec.ofNat 8 w :: bytesOfNat n (w / 256)

/-- The instruction that the decoder reads from a table row's bits: an engine word when the row has 48 bits, the
control core's words, up to twelve bytes, otherwise. -/
def decodeTableWord (nbits w : Nat) : Option Instr :=
  match (if nbits = 48 then decodeEng (BitVec.ofNat 48 w) else decodeBytes (bytesOfNat 12 w)) with
  | .ok i => some i
  | .error _ => none

end Sys2Proof
end

