-- ==== Sys2Proof/Machine/Flags.lean ====
section
/-! DEFINITION. Flags and rigging (R66, R102, R125, R126), every flag computation of the spec: increments with their
overflow test, takes, the event latch (R118), the firing of terms. -/

namespace Sys2Proof.Machine

/-- The count of a flag; f0 has none. -/
def Core.flag (c : Core) (f : Nat) : Nat := if f = 0 then 0 else SMap.get 0 c.flags f

/-- Sets a count; a change sets the event latch (R118). -/
def Core.setFlag (c : Core) (f n : Nat) : Core :=
  if f = 0 ∨ c.flag f = n then c else { c with flags := SMap.set 0 c.flags f n, latch := true }

/-- FlagInc (R66): none when the count would pass 65,535. -/
def Core.flagInc (c : Core) (f n : Nat) : Option Core :=
  if f = 0 then some c
  else if 65535 < c.flag f + n then none
  else some (c.setFlag f (c.flag f + n))

/-- FlagTake (R66): none when the count is 0. -/
def Core.flagTake (c : Core) (f : Nat) : Option Core :=
  if f = 0 then some c
  else if 0 < c.flag f then some (c.setFlag f (c.flag f - 1))
  else none

/-- The products of a rigging term: 25 bits each (R103). -/
def rigProduct (t : BitVec 50) (p : Nat) : Nat := t.toNat / 2 ^ (25 * p) % 2 ^ 25

/-- The source flags that a product names, f0 slots left out; one that stands twice counts twice (R126). -/
def rigSources (p : Nat) : List Nat :=
  [bits p 5 0, bits p 11 6, bits p 17 12, bits p 23 18].filter (fun f => f != 0)

/-- Takes one count from each named source; none when some count does not suffice. -/
def Core.takeAll : Core → List Nat → Option Core
  | c, [] => some c
  | c, f :: fs =>
    match c.flagTake f with
    | some d => d.takeAll fs
    | none => none

/-- Fires a product of term T, if it can (R126). -/
def Core.fireProduct (c : Core) (t p : Nat) : Option Core :=
  if bit p 24 && decide (c.flag (48 + t) < 65535) then
    match c.takeAll (rigSources p) with
    | some d => some (d.setFlag (48 + t) (d.flag (48 + t) + 1))
    | none => none
  else none

/-- One term in one cycle: product 0 first, at most one firing (R126). -/
def Core.fireTerm (c : Core) (t : Nat) : Core :=
  let x := SMap.get 0 c.rig t
  match c.fireProduct t (rigProduct x 0) with
  | some d => d
  | none =>
    match c.fireProduct t (rigProduct x 1) with
    | some d => d
    | none => c

/-- The rigging of one cycle: the terms in ascending number (R126). -/
def Core.rigCycle (c : Core) : Core := if c.rig.isEmpty then c else (List.range 16).foldl Core.fireTerm c

end Sys2Proof.Machine
end

