-- ==== Sys2Proof/Machine/Record.lean ====
section
/-! DEFINITION. The recorder of graph steps (R303): which task of which graph step a core runs, and what is noted of its
entries, its control waits, its guards, and of what makes it LIVE. -/

namespace Sys2Proof.Machine

/-- The graph step and graph task that the task of a core belongs to, with its linear index, while it runs
dynamically. -/
def State.recording (s : State) (c : Core) : Option (Nat × Nat × Nat) :=
  match c.task, (s.launchOf c).bind (fun x => x.graph) with
  | some t, some (g, k) =>
    (match s.graphs[g]? with
     | some x => if !t.replayed && (x.variant.isNone || x.gfail) then some (g, k, t.l) else none
     | none => none)
  | _, _ => none

/-- A variant of the trace of a shape hash (R305). -/
def State.variantAt (s : State) (hash : Word) (n : Nat) : Option Variant :=
  (s.traces.find? (fun t => t.hash == hash)).bind (fun t => t.variants.find? (fun v => v.number == n))

/-- The graph, the graph task and the variant that a launch is replayed from; none when it runs dynamically (R306, R307). -/
def State.replayed (s : State) (x : Launch) : Option (Nat × Nat × Variant) :=
  match x.graph with
  | none => none
  | some (g, k) =>
    match s.graphs[g]? with
    | none => none
    | some y => if y.gfail then none else (y.variant.bind (s.variantAt y.hash)).map (fun v => (g, k, v))

/-- What was recorded for one task (R303, R305). -/
def Variant.taskOf (v : Variant) (k n l : Nat) : Option TaskTrace :=
  v.tasks.find? (fun t => t.gtask == k && t.core == n && t.l == l)

/-- Changes the record of one task of a graph step, making it when there is none. -/
def changeTask (ts : List TaskTrace) (k core l : Nat) (f : TaskTrace → TaskTrace) : List TaskTrace :=
  if ts.any (fun t => t.gtask == k && t.core == core && t.l == l) then
    ts.map (fun t => if t.gtask == k && t.core == core && t.l == l then f t else t)
  else ts ++ [f { gtask := k, core := core, l := l }]

/-- Notes something of the current core's task, if it is being recorded (R303). -/
def State.note (s : State) (f : TaskTrace → TaskTrace) : State :=
  match s.recording s.core with
  | none => s
  | some (g, k, l) =>
    match s.graphs[g]? with
    | some x => { s with graphs := s.graphs.set g { x with recording := changeTask x.recording k s.cur l f } }
    | none => s

/-- The current core's task is LIVE (R303). -/
def State.noteLive (s : State) : State := s.note (fun t => { t with live := true })

/-- A satisfied control wait (R303). -/
def State.noteWait (s : State) (w : CtlWait) : State := s.note (fun t => { t with waits := t.waits ++ [w] })

/-- Whether a graph step holds the record of an earlier task of the current core (R305, R372). -/
def State.laterTask (s : State) (g k l : Nat) : Bool :=
  match s.graphs[g]? with
  | some x => ((x.recording.find? (fun t => t.core == s.cur)).map (fun t => !(t.gtask == k && t.l == l))).getD false
  | none => false

/-- An entry that the current core's task has had accepted (R303, R305). -/
def State.noteEntry (s : State) (e : Eng) (x : Entry) : State :=
  let later := match s.recording s.core with | some (g, k, l) => s.laterTask g k l | none => false
  s.note (fun t => { t with entries := t.entries ++
    [(e, { entry := x, tb := later && !t.entries.any (fun y => y.1 == e), wseq := t.waits.length })] })

/-- A guard and the value it read (R303, R305). -/
def State.noteGuard (s : State) (tix index : Nat) (wide : Bool) (v : Word) : State :=
  match s.recording s.core with
  | none => s
  | some (g, k, l) =>
    match s.graphs[g]? with
    | some x =>
      let y : Guard := { gtask := k, core := s.cur, l := l, tix := tix, index := index, wide := wide, value := v }
      { s with graphs := s.graphs.set g { x with guards := x.guards ++ [y] } }
    | none => s

/-- Notes the `fwait`s of other cores that a cycle has satisfied: `before` are the cores before it. -/
def State.noteTakes (s : State) (before : SMap Core) : State :=
  if s.graphs.isEmpty then s
  else before.foldl (fun t x =>
    match x.2.waiting with
    | some (.flag f) =>
      let ctx := t.ctx
      let cur := t.cur
      let u := { t with ctx := x.1 / 512, cur := x.1 % 512 }
      if u.core.waiting.isNone then { u.noteWait (.flag f) with ctx := ctx, cur := cur } else t
    | _ => t) s

end Sys2Proof.Machine
end

