-- ==== Sys2Proof/Machine/Queue.lean ====
section
/-! DEFINITION. Engine queues (R62, R107, R121 to R129): acceptance, the Saddlebag and its quota, batches (R105, R227),
the head's wait, what a cycle does to flags and counters (R125, R126, R134), firmware settings (R311). -/

namespace Sys2Proof.Machine

/-! ## Firmware settings (R311) -/

/-- The reset value of a supervisor CSR (R311): periods in the unit that the register's row names. -/
def fwDefault (csr : Nat) : Word :=
  match csr with
  | 0x820 => 50000
  | 0x821 => 20
  | 0x822 => 2000
  | 0x823 => 1000
  | 0x824 => 256
  | 0x825 => 100
  | 0x826 => 10000
  | 0x827 => 1000
  | 0x828 => 2000
  | _ => 0

/-- The complex that is active: the one whose role is 0 (R311). -/
def State.activeComplex (s : State) : Nat := if (SMap.get {} s.complexes 0).role = 0 then 0 else 1

/-- A complex's supervisor CSR; the map holds it XORed with its reset value. -/
def Complex.setting (x : Complex) (csr : Nat) : Word := SMap.get 0 x.csr csr ^^^ fwDefault csr

/-- A firmware setting in force: the active complex's. -/
def State.setting (s : State) (csr : Nat) : Nat := ((SMap.get {} s.complexes s.activeComplex).setting csr).toNat

/-! ## Slots and quota (R121, R128) -/

/-- Slots of an entry (R121). -/
def Entry.slots (e : Entry) : Nat :=
  match e.body with
  | .stream .. => 2
  | _ => 1

/-- Slots of a list of entries. -/
def slotsOf (l : List Entry) : Nat := l.foldl (fun n e => n + e.slots) 0

/-- Hardware slots in use: the waiting entries and the head that has begun. -/
def Queue.hwSlots (q : Queue) : Nat :=
  slotsOf q.hw + (match q.act with | some a => a.entry.slots | none => 0)

/-- The quota pool of a context (R128). -/
def State.quotaPool (s : State) (ctx : Nat) : Nat :=
  s.launches.foldl (fun n x => if x.ctx == ctx && x.admitted && !x.retired then n + x.quota else n) 0

/-- Slots of the pool in use: those of spilled entries. -/
def State.quotaUsed (s : State) (ctx : Nat) : Nat :=
  s.cores.foldl (fun n c =>
    if c.1 / 512 == ctx then n + slotsOf c.2.qv.spill + slotsOf c.2.qm.spill + slotsOf c.2.qc.spill else n) 0

/-- `QUOTA` (R85). -/
def State.quotaLeft (s : State) (ctx : Nat) : Nat := s.quotaPool ctx - s.quotaUsed ctx

/-- Whether a queue can take an entry of `need` slots now: in hardware slots, or spilled (R128, R129). -/
def State.canAccept (s : State) (ctx n : Nat) (e : Eng) (need : Nat) : Bool :=
  let q := (s.coreAt ctx n).queue e
  (q.spill.isEmpty && q.hwSlots + need ≤ 32) || need ≤ s.quotaLeft ctx

/-! ## Incomplete entries and batches -/

/-- Every incomplete entry of a queue, oldest part first: in flight, at the head, waiting. -/
def Queue.incomplete (q : Queue) : List Entry :=
  (q.flight.filter (fun f => f.inner.isNone)).map (fun f => f.entry)
    ++ (q.act.map (fun a => a.entry)).toList ++ q.hw ++ q.spill

/-- Whether a queue holds no incomplete entry. -/
def Queue.idle (q : Queue) : Bool := q.flight.isEmpty && q.act.isNone && q.hw.isEmpty && q.spill.isEmpty

/-- The sequence number of the oldest incomplete entry, or of the next entry (R124). -/
def Queue.headSeq (q : Queue) : Nat := q.incomplete.foldl (fun m e => min m e.seq) q.next

/-- Closed batches of the matrix queue that are outstanding (R227). -/
def Core.openBatches (c : Core) : List (Nat × Nat) :=
  c.batches.filter (fun b => c.qm.incomplete.any (fun e => b.1 ≤ e.seq && e.seq ≤ b.2))

/-- Outstanding batches of an engine (R105): entries for vector and copy, closed batches for matrix. -/
def Core.outstanding (c : Core) (e : Eng) : Nat :=
  match e with
  | .m => c.openBatches.length
  | _ => (c.queue e).incomplete.length

/-- Whether an entry is an `mcommit` issued as a WORD entry (R227). -/
def Entry.commits (e : Entry) : Bool :=
  match e.body with
  | .word w => (match decodeEng w with | .ok (.mcommit _) => true | _ => false)
  | _ => false

/-- Closes the batch of every matrix entry up to `seq` that is in none (R227). -/
def Core.closeBatch (c : Core) (seq : Nat) : Core :=
  { c with batches := c.openBatches ++ [(c.batchLo, seq)], batchLo := max c.batchLo (seq + 1) }

/-! ## Acceptance (R15, R87, R107, R121) -/

/-- What acceptance captures from the queue's core. -/
def State.capture (s : State) (c : Core) (e : Entry) (q : Queue) : Entry :=
  { e with seq := q.next, seed := c.seed, schk := c.schk, lrun := c.lrun.toNat,
           rowmask := (match c.task with | some t => t.rowmask | none => 0xFFFFFFFF),
           epoch := c.epoch + c.crossing.length, launch := c.launch.getD 0, stamp := c.stamp, at_ := s.now }

/-- A queue takes an entry: into its hardware slots, or into its ring when those are full or `ring` asks for it. -/
def Queue.append (q : Queue) (x : Entry) (ring : Bool) : Queue :=
  if !ring && q.spill.isEmpty && q.hwSlots + x.slots ≤ 32 then { q with hw := q.hw ++ [x], next := q.next + 1 }
  else { q with spill := q.spill ++ [x], next := q.next + 1 }

/-- Accepts an entry, with what it captures, at a queue that can take it. -/
def State.acceptAs (s : State) (ctx n : Nat) (e : Eng) (x : Entry) (ring : Bool := false) : State :=
  let c := s.coreAt ctx n
  let c1 := { c.setQueue e ((c.queue e).append x ring) with stamp := c.stamp + 1 }
  let c2 := if e = .m ∧ x.commits then c1.closeBatch x.seq else c1
  s.setCoreAt ctx n c2

/-- Accepts an entry at a queue that can take it. -/
def State.accept (s : State) (ctx n : Nat) (e : Eng) (ent : Entry) : State :=
  let c := s.coreAt ctx n
  s.acceptAs ctx n e (s.capture c ent (c.queue e))

/-- Accepts an entry that is the work of another launch than the core's own may be (R107), into the queue's ring if
`ring` asks for it (R209). -/
def State.acceptFor (s : State) (ctx n : Nat) (e : Eng) (ent : Entry) (launch : Nat) (ring : Bool) : State :=
  let c := s.coreAt ctx n
  s.acceptAs ctx n e { s.capture c ent (c.queue e) with launch := launch } ring

/-- Returns spilled entries to the hardware slots as they free up (R128): none when nothing moves. -/
def Queue.unspill (q : Queue) : Option Queue :=
  match q.spill with
  | [] => none
  | x :: rest => if q.hwSlots + x.slots ≤ 32 then some { q with hw := q.hw ++ [x], spill := rest } else none

/-! ## The head's wait (R122) -/

/-- Whether the head may begin at all: not stopped, no entry at work, its mode crossing done, no breakpoint. -/
def Queue.mayBegin (c : Core) (q : Queue) : Option Entry :=
  if q.stopped.isSome || q.act.isSome then none
  else match q.hw with
  | [] => none
  | x :: _ =>
    if c.epoch < x.epoch then none
    else if q.bpSeq = some x.seq ∨ (x.sf ≠ 0 ∧ q.bpFlag = some x.sf.toNat) then none
    else some x

/-- The sequencer's state as an entry begins. -/
def Active.start (x : Entry) : Active :=
  match x.body with
  | .stream row slot .. => { entry := x, cur := x, row := row, slot := slot }
  | _ => { entry := x, cur := x }

/-- The head takes its wait flag and begins (R122): none when it cannot. -/
def Core.beginHead (c : Core) (e : Eng) : Option Core :=
  let q := c.queue e
  match q.mayBegin c with
  | none => none
  | some x =>
    match c.flagTake x.wf.toNat with
    | none => none
    | some d =>
      let q1 := d.queue e
      some (d.setQueue e { q1 with hw := q1.hw.drop 1, act := some (Active.start x) })

/-- Whether the head waits on its wait flag. -/
def Queue.waitsOn (c : Core) (q : Queue) : Option Nat :=
  match q.mayBegin c with
  | some x => if x.wf = 0 then none else some x.wf.toNat
  | none => (match q.act with | some a => a.waitFlag | none => none)

/-! ## A cycle (R125, R126, R134) -/

/-- The take of a `swait` or of a block's inner entry that waits (R123, R125). -/
def Core.takeInside (c : Core) (e : Eng) : Core :=
  match (c.queue e).act with
  | none => c
  | some a =>
    match a.waitFlag with
    | none => c
    | some f =>
      if a.taken || (c.queue e).stopped.isSome then c
      else match c.flagTake f with
      | some d => d.setQueue e { d.queue e with act := some { a with taken := true, waitFlag := none, fresh := true } }
      | none => c

/-- The takes of the waiting heads and of the waiting control core, the favoured one first (R102, R125). -/
def Core.takeOne (c : Core) (who : Nat) : Core :=
  if who = 3 then
    match c.waiting with
    | some (.flag f) =>
      (match c.flagTake f with
       | some d => d.advancePc 4
       | none => c)
    | _ => c
  else
    let e := engOf who
    match (c.queue e).mayBegin c with
    | some x => if x.wf = 0 then c else (c.beginHead e).getD c
    | none => c.takeInside e

/-- Takes, then rigging (R125). -/
def Core.cycle (favoured : Nat) (c : Core) : Core :=
  let order := favoured % 4 :: ([0, 1, 2, 3].filter (fun k => k != favoured % 4))
  (order.foldl Core.takeOne c).rigCycle

/-- The head class of a queue while it does not issue (R134): 1 WAIT_FLAG, 2 WAIT_ENGINE, 3 EMPTY. -/
def Queue.headClass (c : Core) (q : Queue) : Nat :=
  if (q.waitsOn c).isSome then 1 else if q.idle then 3 else 2

/-- Adds k cycles to a queue's class counter, modulo 2^48 (R134). -/
def Queue.count (q : Queue) (cls k : Nat) : Queue :=
  match cls with
  | 0 => { q with issuing := (q.issuing + k) % 2 ^ 48 }
  | 1 => { q with waitFlag := (q.waitFlag + k) % 2 ^ 48 }
  | 2 => { q with waitEngine := (q.waitEngine + k) % 2 ^ 48 }
  | _ => { q with empty := (q.empty + k) % 2 ^ 48 }

/-- k of the cycles counted before as WAIT_ENGINE were issue cycles: the queue issued in them while another queue's later
cycles had passed already (R134). -/
def Queue.recount (q : Queue) (k : Nat) : Queue :=
  { q with issuing := (q.issuing + k) % 2 ^ 48, waitEngine := (q.waitEngine + 2 ^ 48 - k) % 2 ^ 48 }

/-- Adds k cycles to the wait counter of a flag (R134). -/
def Core.countWait (c : Core) (f : Option Nat) (k : Nat) : Core :=
  match f with
  | some n => { c with waitCount := SMap.set 0 c.waitCount n ((SMap.get 0 c.waitCount n + k) % 2 ^ 48) }
  | none => c

/-- The counters of k cycles of one served core (R134); `issuing` names the engine whose word issues. -/
def Core.countCycles (c : Core) (issuing : Option Eng) (k : Nat) : Core :=
  let one := fun (d : Core) (e : Eng) =>
    let q := c.queue e
    let cls := if issuing = some e then 0 else q.headClass c
    (d.setQueue e ((d.queue e).count cls k)).countWait (if cls = 1 then q.waitsOn c else none) k
  let d := [Eng.v, Eng.m, Eng.c].foldl one c
  d.countWait (match c.waiting with | some (.flag f) => some f | _ => none) k

/-- One served core over k cycles: in each one the takes, the rigging, then the class of every head; cycles in which no
flag changes are alike. -/
def Core.pass (favoured : Nat) (issuing : Option Eng) : Nat → Core → Core
  | 0, c => c
  | k + 1, c =>
    let d := c.cycle favoured
    if d.flags = c.flags then c.countCycles issuing (k + 1) else (d.countCycles issuing 1).pass favoured issuing k

/-- k arithmetic cycles pass: the counters, the flag takes and the rigging of every served core (R125, R126, R134),
`CYCLE` and the nanosecond counter, slewed by the rate in force (R331); `frac` counts units of 1 / (clock × 10^9) ns;
`issuing` names a core and the engine whose word issues in them. Where bank F is not live, nothing is taken and nothing
fires (R206, R209). -/
def State.advance (s : State) (k : Nat) (issuing : Option (Nat × Eng) := none) : State :=
  if k = 0 then s
  else
    let num := s.frac + k * 10 * ((10 ^ 9 + s.gang.rate).toNat)
    let den := s.clock * 10 ^ 9
    let t := { s with
      now := s.now + k, time := s.time + num / den, frac := num % den,
      cores := s.cores.map (fun (x : Nat × Core) =>
        if x.1 % 512 < 256 && s.served (x.1 / 512) (x.1 % 512) then
          (x.1, if s.holdsF x.2 (x.1 % 512) then
              Core.pass s.favoured (issuing.bind (fun i => if i.1 = x.1 then some i.2 else none)) k x.2
            else x.2.countCycles none k)
        else x) }
    t.noteTakes s.cores

end Sys2Proof.Machine
end

