-- ==== Sys2Proof/Machine/Ops.lean ====
section
/-! DEFINITION. The operations that the meanings share: moving on and waiting, taking an exception (R113) and
returning from it (R118), ending a task (R120), stopping and releasing an engine queue (R115 to R117), delivering held
traps (R115), the effective address (R88), what a release waits for (R195). -/

namespace Sys2Proof.Machine

/-- What a meaning answers. -/
abbrev Result := Host.Outcome State Fault Refusal

/-! ## Moving on -/

/-- The instruction has completed: the pc moves past its bytes. -/
def State.done (s : State) (bytes : Nat) : Result := .next (s.upd (fun c => c.advancePc bytes))

/-- The instruction waits: the pc stays, and the next turn of the core tries again (R204). -/
def State.wait (s : State) (w : Wait) : Result := .next (s.upd (fun c => { c with waiting := some w }))

/-- Writes a scalar register and moves on. -/
def State.writeReg (s : State) (d : Reg) (v : Word) (bytes : Nat) : Result :=
  .next (s.upd (fun c => (c.wr d v).advancePc bytes))

/-! ## Cause codes (R114) -/

def cIllegalInstruction : BitVec 8 := 0x01
def cIllegalWord : BitVec 8 := 0x02
def cPrivilege : BitVec 8 := 0x03
def cFetchAbsent : BitVec 8 := 0x04
def cHandleInvalid : BitVec 8 := 0x05
def cHandleRange : BitVec 8 := 0x06
def cVaultBounds : BitVec 8 := 0x07
def cFootprintViolation : BitVec 8 := 0x08
def cFootprintOverlap : BitVec 8 := 0x09
def cStallUndersized : BitVec 8 := 0x0A
def cAccHazard : BitVec 8 := 0x0B
def cScaleImbalance : BitVec 8 := 0x0C
def cTensorDesc : BitVec 8 := 0x0D
def cQuotaStall : BitVec 8 := 0x0E
def cFlagOverflow : BitVec 8 := 0x0F
def cBreakpoint : BitVec 8 := 0x10
def cTrapInstr : BitVec 8 := 0x11
def cEccTrap : BitVec 8 := 0x12
def cRemoteFault : BitVec 8 := 0x13
def cOrderedKey : BitVec 8 := 0x14
def cProgramRow : BitVec 8 := 0x15
def cBarrierScope : BitVec 8 := 0x16
def cEngineFault : BitVec 8 := 0x17
def cLeaseInvalid : BitVec 8 := 0x18

/-! ## Engine faults (R115 to R117) -/

/-- `XVAL` of an ENGINE_FAULT (R115). -/
def faultValue (e : Eng) (f : EngFault) : Word :=
  BitVec.ofNat 64 (f.seq % 2 ^ 32 * 2 ^ 32 + (if f.prev then 2 ^ 24 else 0) + f.code.toNat * 2 ^ 16 + engNum e)

/-- The 32-byte progress record of R298. -/
def progressBits (core : Nat) (e : Eng) (p : Progress) : Nat :=
  core % 256 + engNum e * 2 ^ 8 + (if e = .c then p.rep % 1024 * 2 ^ 10 + p.status.toNat * 2 ^ 24 else 0)
    + p.seq % 2 ^ 32 * 2 ^ 32 + p.count % 2 ^ 64 * 2 ^ 64 + p.record.toNat * 2 ^ 128

/-- Marks the status of a task in its launch (R298): 2 faulted stands over 1 done. -/
def State.markTask (s : State) (launch l v : Nat) : State :=
  s.updLaunch launch (fun x =>
    if SMap.get 0 x.status l = 2 then x else { x with status := SMap.set 0 x.status l v })

/-- Appends the log record of KIND 0x02 for an engine fault (R117, R120, R397). -/
def State.logEngineFault (s : State) (e : Eng) (f : EngFault) (xpc : Nat) : State :=
  let who := s.logWho s.core
  s.logRecord s.ctx 0x02 cEngineFault.toNat ((faultValue e f).toNat * 2 ^ 32) s.cur (engNum e) who.1 f.task
    [xpc, progressBits s.cur e f.progress]

/-- The channels whose partial elements belong to a dropped command start afresh (R174). -/
def Core.dropParts (c : Core) (gone : List CopyCmd) : Core :=
  gone.foldl (fun (d : Core) x =>
    let k := (x.word.extractLsb' 13 3).toNat
    if x.fifo = 0 then d
    else { d with chan := SMap.set {} d.chan k { SMap.get {} d.chan k with part := [], taken := [] } }) c

/-- Drops the rest of a stopped entry (R116): its commands and what they hold of channels, the residency that a word with
repetitions to issue gathers, and the rows asked for. The loads of repetitions already performed stand (R167, R230). -/
def Core.dropTag (c : Core) (t : Eng) (seq : Nat) : Core :=
  let own := fun (k : Tag) => k.eng == t && k.seq == seq
  { c.dropParts (c.copies.filter (fun k => own k.tag)) with
           copies := c.copies.filter (fun k => !own k.tag),
           ended := if t = .c then SMap.set {} c.ended seq {} else c.ended,
           vmasks := c.vmasks.filter (fun k => !(own k.tag && k.more)),
           farRows := c.farRows.filter (fun k => !own k.1) }

/-- The entry's claims are released, here and on other packages (R175, R346). -/
def State.releaseClaims (s : State) (core seq : Nat) : State :=
  let own := fun (c : Claim) => c.ctx == s.ctx && c.core == core && c.seq == seq
  let far := (s.claims.filter own).filterMap (fun c => c.pkg.map (fun g => (g, c.lo)))
  far.foldl (fun t x => t.sendRemote x.1 (x.2 * 4096) (.claim core { eng := .c, seq := seq }) (.release core seq))
    { s with claims := s.claims.filter (fun c => !own c) }

/-- Releases a stopped queue (R116): the rest of its entry is abandoned, its signal and release are not made, its
claims are released, and the queue goes on with the next entry. -/
def State.releaseQueue (s : State) (e : Eng) : State :=
  let q := s.core.queue e
  match q.stopped with
  | none => s
  | some f =>
    let q1 := { q with stopped := none, act := q.act.filter (fun a => a.entry.seq != f.seq),
                       flight := q.flight.filter (fun x => x.entry.seq != f.seq) }
    let s1 := s.upd (fun c => (c.setQueue e q1).dropTag e f.seq)
    if e = .c then s1.releaseClaims s.cur f.seq else s1

/-- Releases every stopped queue at the end of a task, logging the faults that were not delivered (R117, R119); `xpc`
is the core's last pc where no task runs (DESIGN CHOICE, log entry 85). -/
def State.releaseAll (s : State) (xpc : Nat) : State :=
  [Eng.v, Eng.m, Eng.c].foldl (fun t e =>
    match (t.core.queue e).stopped with
    | none => t
    | some f => (if f.told then t else t.logEngineFault e f xpc).releaseQueue e) s

/-- The queues whose fault waits for delivery, in the order of R115. -/
def Core.untold (c : Core) : List (Eng × EngFault) :=
  [Eng.v, Eng.m, Eng.c].filterMap (fun e =>
    match (c.queue e).stopped with
    | some f => if f.told then none else some (e, f)
    | none => none)

/-- XSTAT.PEND: a deferred or asynchronous trap awaits delivery (R112). -/
def Core.pend (c : Core) : Bool := !c.held.isEmpty || !c.untold.isEmpty

/-! ## Ending a task (R119, R120) -/

/-- Logs a trap that ends a task or is pending at its end (R120); an engine fault adds its progress record (R397). -/
def State.logTrap (s : State) (code : BitVec 8) (value xpc : Nat) : State :=
  let who := s.logWho s.core
  s.logRecord s.ctx 0x02 code.toNat (value * 2 ^ 32) s.cur 3 who.1 who.2
    (xpc :: (if code = cEngineFault then [(SMap.get 0 s.core.stops value).toNat] else []))

/-- No task of the core awaits the claims that it has sent: their grants are discarded. -/
def State.leaveClaims (s : State) (ctx n : Nat) : State :=
  { s with
    contribs := s.contribs.map (fun k => if k.ctx == ctx && k.core == n then { k with left := true } else k),
    remotes := s.remotes.map (fun r => match r.kind with
      | .fao m d _ => if r.ctx == ctx && m == n then { r with kind := .fao m d true } else r
      | _ => r) }

/-- The task becomes Exited (R14, R119): pending traps are logged and discarded, stopped queues are released, loads
still on their way no longer reach a register; the next task may start. -/
def State.exitTask (s : State) (faulted : Bool) (at_ : Nat) : State :=
  let c := s.core
  let bad := faulted || !c.held.isEmpty || c.untold.any (fun x => !x.2.prev)
  let s1 := c.held.foldl (fun t h => t.logTrap h.code h.value.toNat at_) s
  let s2 := s1.releaseAll at_
  let s3 := (s2.leaveClaims s.ctx s.cur).upd (fun c => { c with
    held := [], stops := [], waiting := none, task := none, grantPending := 0, barAt := none,
    lq := c.lq.map (fun x => match x.kind with | .load _ w el => { x with kind := .load 0 w el } | _ => x) })
  match c.launch, c.task with
  | some i, some t =>
    let s4 := s3.updLaunch i (fun x => { x with exited := x.exited ++ [(t.l, s.cur)] })
    if bad then s4.markTask i t.l 2 else s4
  | _, _ => s3.upd (fun c => { c with stoppedAt := some 0 })

/-- Whether `texit`'s `fence.rel.core` has performed: every earlier access of the core (R93, R119, R195). -/
def State.exitFence (s : State) : Bool := s.core.lq.isEmpty && s.core.sq.isEmpty

/-- The end of a task that waits in EndTask, once the fence has performed: traps still pending are logged with the pc at
which the task ended (R120). -/
def State.leaveTask (s : State) : State := if s.exitFence then s.exitTask true s.core.pc.toNat else s

/-- EndTask(faulted) on a trap that no handler takes (R120): the trap is logged with the frame it would have had, and
the task ends as `texit` would, behind the same fence. -/
def State.endTask (s : State) (code : BitVec 8) (value resume : Nat) : State :=
  ((s.logTrap code value resume).upd (fun c => { c with waiting := some .exit })).leaveTask

/-! ## Taking an exception (R113) and returning (R118) -/

/-- The causes that do not mark the task faulted (R113). -/
def causeHarmless (code : BitVec 8) (value : Word) : Bool :=
  code == cTrapInstr || code == cBreakpoint || code == cQuotaStall
    || (code == cEngineFault && value.getLsbD 24)

/-- The engine that an ENGINE_FAULT's `XVAL` names (R115). -/
def valueEng (value : Word) : Eng := engOf (value.toNat % 4)

/-- TakeTrap (R113): the shared operation of every exception. `XPC` takes the resume address, `XCAUSE` and `XVAL` the
cause, INH is set, FLT is set but for the harmless causes, and the pc goes to the handler. Without a handler, or inside
one, the task ends; a fault of an exited task's entry then only releases its queue. -/
def State.takeTrap (s : State) (code : BitVec 8) (async : Bool) (value resume : Word) : State :=
  let c := s.core
  if code = cEngineFault ∧ value.getLsbD 24 = true ∧ c.xhand = 0 then s.releaseQueue (valueEng value)
  else if c.inh ∨ c.xhand = 0 then s.noteLive.endTask code value.toNat resume.toNat
  else s.noteLive.upd (fun c => { c with
    xpc := resume, xcause := (if async then 1#1 else 0#1) ++ code, xval := value, inh := true,
    flt := c.flt || !causeHarmless code value, pc := c.xhand, waiting := none })

/-- A precise trap of the current instruction: `XPC` is its pc. -/
def State.trap (s : State) (code : BitVec 8) (value : Word) : Result := .next (s.takeTrap code false value s.core.pc)

/-- ILLEGAL_INSTRUCTION with the first word as its value (R52). -/
def State.illegal (s : State) (i : Instr) : Result := s.trap cIllegalInstruction ((firstWord i).zeroExtend 64)

/-! ## Leaving a wait (R113, R133, R204) -/

/-- A crossing that is abandoned keeps its place, waits for nothing and leaves the mode as the crossing before it. -/
def cancelCrossing : Bool → List (Bool × Nat × Nat) → List (Bool × Nat × Nat)
  | _, [] => []
  | m, (t, l, w) :: rest => if w = 0 then (m, 0, 4) :: rest else (t, l, w) :: cancelCrossing t rest

/-- The register of an `fao` whose claim is sent and not granted (R101): `id` is twice the number of a contribution, or
twice that of a remote operation and one. -/
def State.claimReg (s : State) (id : Nat) : Option Reg :=
  if id % 2 = 0 then
    (s.contribs.find? (fun k => k.id == id / 2)).bind (fun k => match k.reply with | .reg d => some d | _ => none)
  else
    (s.remotes.find? (fun r => r.id == id / 2)).bind (fun r => match r.kind with | .fao _ d _ => some d | _ => none)

/-- Marks a claim as one that a stop has moved past (R204). -/
def State.leaveClaim (s : State) (id : Nat) : State :=
  if id % 2 = 0 then { s with contribs := s.contribs.map (fun k => if k.id = id / 2 then { k with left := true } else k) }
  else { s with remotes := s.remotes.map (fun r => match r.kind with
    | .fao n d _ => if r.id = id / 2 then { r with kind := .fao n d true } else r
    | _ => r) }

/-- The core leaves its wait, and the instruction executes again: a `mode` has had no effect, and an `fao` whose claim is
sent finds it again (R101, R113). -/
def State.leaveWait (s : State) : State :=
  match s.core.waiting with
  | some .crossing => s.upd (fun c => { c with crossing := cancelCrossing c.interlock c.crossing, waiting := none })
  | _ => s.upd (fun c => { c with waiting := none, param := none })

/-- The core leaves its wait at a stop (R204): as for a trap, but an `fao` whose claim is sent is complete, and its
register awaits the grant. -/
def State.leaveStop (s : State) : State :=
  match s.core.waiting with
  | some (.grant id) =>
    (match s.claimReg id with
     | some d => (s.leaveClaim id).upd (fun c => Core.advancePc (if d = 0 then c else
         { c with grantPending := c.grantPending ||| BitVec.ofNat 32 (2 ^ d.toNat) }) 8)
     | none => s.leaveWait)
  | some .exit => s
  | _ => s.leaveWait

/-- Delivers one held trap at an instruction boundary with INH = 0 (R115): deferred traps in the order they were
detected, then engine faults V, M, C. A task that ends takes no further trap (R120). -/
def State.deliver (s0 : State) : State :=
  let s := s0.leaveWait
  let c := s.core
  if c.inh ∨ s0.core.waiting = some .exit then s0
  else match c.held with
  | h :: rest => (s.upd (fun c => { c with held := rest })).takeTrap h.code h.pc.isNone h.value (h.pc.getD c.pc)
  | [] =>
    match c.untold with
    | [] => s0
    | (e, f) :: _ =>
      let told := s.upd (fun c => c.setQueue e { c.queue e with stopped := some { f with told := true } })
      let logged := if f.prev then told.logEngineFault e f c.pc.toNat else told
      logged.takeTrap cEngineFault true (faultValue e f) c.pc

/-- The return from an exception: the pc and INH are restored; held traps follow at the next boundary (R118). -/
def State.returnTrap (s : State) : State := s.upd (fun c => { c with pc := c.xpc, inh := false, waiting := none })

/-- A precise trap of the current instruction that falls on the boundary of a held one: the held one is taken first, and
the precise one recurs when its instruction executes again (R115). -/
def State.preciseTrap (s : State) (code : BitVec 8) (value : Word) : State :=
  if s.core.pend ∧ s.core.inh = false then s.deliver else s.takeTrap code false value s.core.pc

/-! ## Stopping a queue (R115) -/

/-- Whether the task that issued an entry has executed `texit` (R117). -/
def Core.entryPrev (c : Core) (x : Entry) : Bool :=
  match c.task with
  | some t => t.l != x.task || c.launch != some x.launch
  | none => true

/-- Where the sequencer stands in an entry: the inner index of a block (R123), the row and slot of a stream (R56). -/
def Queue.place (q : Queue) (seq : Nat) : Nat × Option (Word × Nat) :=
  match q.act with
  | some a =>
    if a.entry.seq = seq then
      (if a.inner.isSome then a.index else 0, match a.cur.body with | .stream .. => some (a.row, a.slot) | _ => none)
    else (0, none)
  | none => (0, none)

/-- The outcomes of all the commands of a copy entry so far (R180). -/
def Core.entryStatus (c : Core) (seq : Nat) : BitVec 8 :=
  c.copies.foldl (fun st x => if x.tag.seq = seq then st ||| x.status else st) (SMap.get {} c.ended seq).status

/-- The progress record of an entry (R123, R132, R180, R298): what the engine's fault reports, with the entry's sequence
number, the sequencer's place, and for a copy entry the outcomes of all its commands. -/
def Core.progressOf (c : Core) (e : Eng) (seq : Nat) (p : Progress) : Progress :=
  let (k, at_) := (c.queue e).place seq
  { p with seq := seq, inner := k, pos := at_,
           status := if e = .c then p.status ||| c.entryStatus seq else p.status }

/-- An engine faults: its queue stops with the entry at its head (R115). A fault of an exited task's entry marks that
task (R16, R117). A fault while the queue is stopped already is the stopped entry's own. The launch keeps the progress
record of a queue's last stop (R298; DEDUCED). -/
def State.engineFault (s : State) (e : Eng) (x : Entry) (code : BitVec 8) (p : Progress) : State :=
  let c := s.core
  let q := c.queue e
  if q.stopped.isSome then s
  else
    let prev := c.entryPrev x
    let f : EngFault := { code := code, seq := x.seq, prev := prev, task := x.task, launch := x.launch,
                          progress := c.progressOf e x.seq p }
    let r := BitVec.ofNat 256 (progressBits s.cur e f.progress)
    let s1 := s.upd (fun c => { c.setQueue e { q with stopped := some f } with
      stops := SMap.set 0 c.stops (faultValue e f).toNat r })
    let s2 := s1.updLaunch x.launch (fun y => { y with
      progress := y.progress.filter (fun o => o.extractLsb' 0 10 != r.extractLsb' 0 10) ++ [r] })
    let s3 := s2.trace 0x08 s.cur (engNum e) x.seq ((faultValue e f).toNat * 2 ^ 64 + code.toNat)
    if prev then s3.markTask x.launch x.task 2 else s3

/-- A trap that is detected after its instruction has left issue (R114): it waits for delivery. -/
def State.defer (s : State) (code : BitVec 8) (value : Word) (pc : Option Word := none) : State :=
  s.upd (fun c => { c with held := c.held ++ [{ code := code, value := value, pc := pc }] })

/-! ## The effective address (R88) -/

/-- What EffAddr finds: the handle, or the trap with its value. -/
inductive Eff where
  | ok (h : Handle)
  | trap (code : BitVec 8) (value : Word)
  deriving DecidableEq, Repr, Inhabited

/-- EffAddr(h, off) of R88. -/
def Core.effAddr (c : Core) (h : Nat) (off : Word) : Eff :=
  let x := c.handle h
  if h = 0 ∨ x.valid = false then .trap cHandleInvalid (BitVec.ofNat 64 h)
  else if x.limit ≤ off.toNat then .trap (if x.vault then cVaultBounds else cHandleRange) off
  else .ok x

/-- The offset of the M and A2 forms: s[x] + 128 × rof (R88). -/
def Core.rowOff (c : Core) (x : Reg) (rof : BitVec 7) : Word := c.rd x + BitVec.ofNat 64 (128 * rof.toNat)

/-! ## Releases (R102, R107, R195) -/

/-- The remote stores of a core that its home has not acknowledged (R348). -/
def State.remoteOwed (s : State) (ctx n : Nat) : Bool :=
  s.remotes.any (fun r => r.ctx == ctx && (match r.kind with | .store k _ => k == n | _ => false))

/-- Every program-earlier store of the core is performed at a scope: the store queue is empty, and from POD on every
remote store is acknowledged (R195, R348). -/
def State.storesDone (s : State) (scope : Nat) : Bool :=
  s.core.sq.isEmpty && (scope < 4 || !s.remoteOwed s.ctx s.cur)

/-- Every program-earlier load and store is performed at a scope. -/
def State.accessesDone (s : State) (scope : Nat) : Bool := s.core.lq.isEmpty && s.storesDone scope

/-- The smallest scope that holds two cores of the package (R107). -/
def scopeOf (a b : Nat) : Nat :=
  if a = b then 0 else if a / 4 = b / 4 then 1 else if a / 32 = b / 32 then 2 else 3

/-- Whether a core lies in the span of the current core's launch. -/
def State.inSpan (s : State) (n : Nat) : Bool :=
  match s.launchOf s.core with
  | some x => x.spans n
  | none => false

end Sys2Proof.Machine
end

