-- ==== Sys2Proof/Machine/Reads.lean ====
section
/-! DEFINITION. Row reads and writes of the core's agents with what an absent, discarded or uncorrectable row does
(R66, R88, R153, R177, R378, R114). -/

namespace Sys2Proof.Machine

/-- Who reads: engine number 0 to 2, or 3 the control core, and the sequence number of the reading entry (R378). -/
structure Reader where
  eng : Nat := 3
  seq : Nat := 0
  launch : Nat := 0
  task : Nat := 0
  deriving DecidableEq, Repr, Inhabited

/-- The reader of an entry of the current engine. -/
def State.readerOf (s : State) (x : Entry) : Reader :=
  { eng := engNum s.eng, seq := x.seq,
    launch := (match s.launchAt x.launch with | some y => y.number | none => 0), task := x.task }

/-- The control core as a reader. -/
def State.controlReader (s : State) : Reader :=
  let who := s.logWho s.core
  { launch := who.1, task := who.2 }

/-- SPACE and ADDR of a record of KIND 0x01 (R378). -/
def logAddr (loc : Loc) : Nat × Nat :=
  match loc with
  | .va a => (0, rowBase a)
  | .vault q row => (1, q * 2 ^ 56 + row)

/-- The value of ECC_TRAP (R114). -/
def eccValue (loc : Loc) : Word :=
  match loc with
  | .va a => BitVec.ofNat 64 (rowBase a)
  | .vault q row => BitVec.ofNat 64 (2 ^ 63 + q * 2 ^ 19 + row)

/-- An uncorrectable row was read: the log record, and ECC_TRAP when the context's policy asks for it (R114, R378). -/
def State.logPoison (s : State) (r : Reader) (loc : Loc) (ecc : Bool := true) : State :=
  let (space, addr) := logAddr loc
  let s1 := s.logRecord s.ctx 0x01 space (addr * 2 ^ 32 + r.seq % 2 ^ 32) s.cur r.eng r.launch r.task []
  if ecc && recEccTrap (s1.ctxRecord s.ctx) && s.cur < 256 then s1.defer cEccTrap (eccValue loc) else s1

/-- How a row read ends. -/
inductive RowRead where
  | ok (row : Row)
  | absent
  | discarded
  | poisoned
  | wait
  | bounds
  | remote (pkg : Nat)
  deriving DecidableEq, Repr, Inhabited

/-- The row of a target; an uncorrectable one is logged (R66). -/
def State.readTarget (s : State) (r : Reader) (loc : Loc) (t : Target) : State × RowRead :=
  match t with
  | .spot p => if s.poisoned p then ((s.correct p).logPoison r loc, .poisoned) else (s.correct p, .ok (s.rowAt p))
  | .absent => (s, .absent)
  | .discarded => (s, .discarded)
  | .wait => (s.wantSeg s.ctx loc, .wait)
  | .bounds => (s, .bounds)
  | .remote g => (s, .remote g)

/-- Reads the row that holds a location, for the current core. -/
def State.readLoc (s : State) (r : Reader) (loc : Loc) : State × RowRead :=
  let (s1, t) := s.resolve s.ctx s.cur loc false
  s1.readTarget r loc t

/-- The row that a read delivers: zeros but for a resident row. -/
def RowRead.row : RowRead → Row
  | .ok r => r
  | _ => 0

/-- Whether a row read delivers the row. -/
def RowRead.isOk : RowRead → Bool
  | .ok _ => true
  | _ => false

/-- How a row write ends. -/
inductive RowWrite where
  | ok
  | absent
  | discarded
  | wait
  | bounds
  | remote (pkg : Nat)
  deriving DecidableEq, Repr, Inhabited

/-- Writes masked bytes of the row that holds a location, for the current core (R66). -/
def State.writeLoc (s : State) (loc : Loc) (data : Row) (mask : BitVec 128) : State × RowWrite :=
  let (s1, t) := s.resolve s.ctx s.cur loc true
  match t with
  | .spot p => (s1.writeRowAt p data mask, .ok)
  | .absent => (s1, .absent)
  | .discarded => (s1, .discarded)
  | .wait => (s1.wantSeg s.ctx loc, .wait)
  | .bounds => (s1, .bounds)
  | .remote g => (s1, .remote g)

/-- Sets the sticky residency bits (R86): ABS is bit 0, POIS bit 1. -/
def State.setResid (s : State) (abs pois : Bool) : State :=
  s.upd (fun c => { c with resid := c.resid ||| (if abs then 1 else 0) ||| (if pois then 2 else 0) })

/-! ## Remote accesses (R345, R347) -/

/-- What an answer of the home package is to a reader (R345). -/
def answerRow (st : RemoteStatus) (row : Row) : RowRead :=
  match st with
  | .done => .ok row
  | .absent => .absent
  | .discarded => .discarded
  | .poisoned => .poisoned
  | _ => .absent

end Sys2Proof.Machine
end

