-- ==== Sys2Proof/Machine/Fetch.lean ====
section
/-! DEFINITION. What comes before an instruction: delivery of held traps (R115), PC comparators (R338), the fetch of its
words (R46, R52, R53), the register interlock (R72, R204), its issue cost (R72), and the placing of a program for the
host's question. -/

namespace Sys2Proof.Machine

/-! ## Fetch -/

/-- A fetched word, or the trap that takes its place. -/
inductive Fetched where
  | ok (w : BitVec 32)
  | missing (poisoned : Bool)
  deriving DecidableEq, Repr, Inhabited

/-- The row that holds an instruction address: from the instruction cache, or read and kept (R53, R118). A management
core fetches from its complex's SRAM (log entry 12). -/
def State.fetchRow (s : State) (va : Nat) : State × Option Row × Bool :=
  if 256 ≤ s.cur then
    (s, some (readRow s.sram ((s.cur - 256) / 4 * 8388608 + va % 8388608)), false)
  else
    let c := s.core
    match c.icache.find? (fun x => x.1 == rowBase va) with
    | some x => (s, some x.2, false)
    | none =>
      match s.resolve s.ctx s.cur (.va va) false with
      | (s1, .spot p) =>
        if s1.poisoned p then (s1, none, true)
        else (s1.upd (fun c => { c with icache := (rowBase va, s1.rowAt p) :: c.icache }), some (s1.rowAt p), false)
      | (s1, _) => (s1, none, false)

/-- One word at an instruction address. -/
def State.fetchWord (s : State) (va : Nat) : State × Fetched :=
  match s.fetchRow va with
  | (s1, some row, _) => (s1, .ok (BitVec.ofNat 32 (rowElement row 4 (va % 128 / 4))))
  | (s1, none, p) => (s1, .missing p)

/-- The words of the instruction at the pc: `fuel` more are wanted. -/
def State.fetchRest (s : State) (va : Nat) : Nat → List (BitVec 32) → State × Except (Nat × Bool) (List (BitVec 32))
  | 0, acc => (s, .ok acc)
  | n + 1, acc =>
    match s.fetchWord va with
    | (s1, .ok w) => State.fetchRest s1 (va + 4) n (acc ++ [w])
    | (s1, .missing p) => (s1, .error (va, p))

/-- FETCH_ABSENT (R53): `XVAL` is the address of the word; a poisoned row is logged as KIND 0x01 and raises no
ECC_TRAP. -/
def State.fetchTrap (s : State) (va : Nat) (poisoned : Bool) : State :=
  let s1 := if poisoned then s.logPoison s.controlReader (.va va) false else s
  s1.takeTrap cFetchAbsent false (BitVec.ofNat 64 va) s1.core.pc

/-- What a turn of the control core comes to: an instruction to perform, or a state already reached. -/
inductive Ready where
  | run (i : Instr) (s : State)
  | stop (s : State)
  deriving DecidableEq, Repr, Inhabited

/-- Fetches and decodes the instruction at the pc (R46, R52, R53). -/
def State.fetchInstr (s : State) : Ready :=
  let pc := s.core.pc.toNat
  match s.fetchWord pc with
  | (s1, .missing p) => .stop (s1.fetchTrap pc p)
  | (s1, .ok w) =>
    match firstWordError w with
    | some _ => .stop (s1.takeTrap cIllegalInstruction false (w.zeroExtend 64) s1.core.pc)
    | none =>
      match s1.fetchRest (pc + 4) (wordCount w - 1) [] with
      | (s2, .error (va, p)) => .stop (s2.fetchTrap va p)
      | (s2, .ok rest) =>
        match decodeWords (w :: rest) with
        | .ok i => .run i s2
        | .error _ => .stop (s2.takeTrap cIllegalInstruction false (w.zeroExtend 64) s2.core.pc)

/-! ## The register interlock (R72, R89, R204) -/

/-- The scalar registers that an instruction reads or writes. -/
def regsOf : Instr → List Reg
  | .add d a b => [d, a, b] | .sub d a b => [d, a, b] | .and d a b => [d, a, b] | .or d a b => [d, a, b]
  | .xor d a b => [d, a, b] | .andn d a b => [d, a, b] | .sll d a b => [d, a, b] | .srl d a b => [d, a, b]
  | .sra d a b => [d, a, b] | .rol d a b => [d, a, b] | .mul d a b => [d, a, b] | .mulh d a b => [d, a, b]
  | .mulhn d a b => [d, a, b] | .div d a b => [d, a, b] | .divn d a b => [d, a, b] | .rem d a b => [d, a, b]
  | .remn d a b => [d, a, b] | .min d a b => [d, a, b] | .max d a b => [d, a, b] | .minn d a b => [d, a, b]
  | .maxn d a b => [d, a, b] | .slt d a b => [d, a, b] | .sltn d a b => [d, a, b] | .seq d a b => [d, a, b]
  | .clz d a => [d, a] | .ctz d a => [d, a] | .pop d a => [d, a] | .sext d a _ => [d, a] | .zext d a _ => [d, a]
  | .sel d a b c => [d, a, b, c] | .addw d a b => [d, a, b] | .subw d a b => [d, a, b] | .mulw d a b => [d, a, b]
  | .shadd d a b _ => [d, a, b] | .addi d a _ => [d, a] | .andi d a _ => [d, a] | .ori d a _ => [d, a]
  | .xori d a _ => [d, a] | .slti d a _ => [d, a] | .sltin d a _ => [d, a] | .slli d a _ => [d, a]
  | .srli d a _ => [d, a] | .srai d a _ => [d, a] | .roli d a _ => [d, a] | .lui d _ => [d] | .muli d a _ => [d, a]
  | .bfx d a _ _ => [d, a] | .bfxS d a _ _ => [d, a] | .bfi d a _ _ => [d, a] | .jalr d a _ => [d, a]
  | .beq a b _ => [a, b] | .bne a b _ => [a, b] | .blt a b _ => [a, b] | .bge a b _ => [a, b]
  | .bltn a b _ => [a, b] | .bgen a b _ => [a, b] | .loop a _ => [a] | .jal _ => [31]
  | .ldW d _ x _ _ => [d, x] | .ldD d _ x _ _ => [d, x] | .stW v _ x _ _ => [v, x] | .stD v _ x _ _ => [v, x]
  | .srdW d _ => [d] | .srdD d _ => [d] | .savl d _ => [d] | .trnR _ a => [a] | .trnRw _ a => [a] | .vbind _ a => [a]
  | .hqry d _ => [d] | .pgreq d a _ => [d, a] | .fsig a _ => [a] | .fsigQuad a _ _ => [a] | .fpeek d _ => [d]
  | .rigw b a _ => [a, b] | .csrr d _ => [d] | .csrw d a _ => [d, a] | .csrs d a _ => [d, a] | .csrc d a _ => [d, a]
  | .xstatWrite _ d a => [d, a] | .wmWrite _ d a _ => [d, a] | .residAccess _ d a => [d, a] | .engstRead d => [d]
  | .tcrd d _ => [d] | .cvq d => [d] | .tdld a _ _ => [a] | .tdst a _ _ => [a] | .tdrd d _ _ => [d] | .tdwr a _ _ => [a]
  | .wkld a _ _ => [a] | .wkst a _ _ => [a] | .guardW d a _ => [d, a] | .guardD d a _ => [d, a] | .dlaunch d a => [d, a]
  | .mset _ a b => [a, b] | .mcntE d _ _ => [d] | .mcntLo d _ => [d] | .mcntHi d _ => [d] | .mcntFfs d _ _ => [d]
  | .fork _ a b c => [a, b, c] | .enqs a b _ => [a, b] | .renq a b _ => [a, b]
  | .faa o => [o.d, o.x, o.a, o.b] | .faab o => [o.d, o.x, o.a, o.b] | .fao o => [o.d, o.x, o.a, o.b]
  | .cas o => [o.d, o.x, o.a, o.b] | .swp o => [o.d, o.x, o.a, o.b] | .amin o => [o.d, o.x, o.a, o.b]
  | .amax o => [o.d, o.x, o.a, o.b] | .aminn o => [o.d, o.x, o.a, o.b] | .amaxn o => [o.d, o.x, o.a, o.b]
  | .aor o => [o.d, o.x, o.a, o.b] | .aand o => [o.d, o.x, o.a, o.b] | .li d _ => [d] | .lih d _ => [d]
  | _ => []

/-- The registers that loads on their way will write. -/
def Core.loadRegs (c : Core) : List Reg :=
  c.lq.filterMap (fun x => match x.kind with | .load d _ _ => if d = 0 then none else some d | _ => none)

/-- Whether an instruction meets a register whose value is still on its way. -/
def Core.interlocked (c : Core) (i : Instr) : Bool :=
  (regsOf i).any (fun r => c.loadRegs.contains r || c.grantPending.getLsbD r.toNat)

/-! ## The turn of a control core -/

/-- The PC comparator that matches (R338): 1 to 4. -/
def Core.cmpHit (c : Core) : Option Nat :=
  [1, 2, 3, 4].find? (fun k => decide (SMap.get 0 c.cmp k = c.pc + 1))

/-- Whether a control core has a task to run: a started task, or a management core that has not ended. -/
def State.coreRuns (s : State) : Bool :=
  let c := s.core
  if 256 ≤ s.cur then c.stoppedAt.isNone
  else c.stoppedAt.isNone && (match c.task with | some t => t.started && !t.replayed | none => false)

/-- Makes logical core n of its served context the actor. -/
def State.actor (s : State) (n : Nat) : Option State :=
  match s.servedCtx n with
  | some ctx => some { s with ctx := ctx, cur := n }
  | none => none

/-- An instruction outside the handler that is not the `bar` which has arrived: that `bar` will not go on (R104). -/
def Core.passBar (c : Core) : Core :=
  if c.inh ∨ c.barAt = none ∨ c.barAt = some c.pc then c else { c with barAt := none }

/-- What the next turn of control core n comes to. A task that a trap ends waits for its fence (R120). A held trap is
taken first (R115), then a comparator's (R338), then the instruction is fetched; one that meets a register still on its
way waits. -/
def State.readyCore (s : State) (n : Nat) : Ready :=
  match s.actor n with
  | none => .stop s
  | some s =>
    if !s.coreRuns then .stop s
    else if s.core.waiting = some .exit then .stop s.leaveTask
    else if s.core.pend && !s.core.inh && s.core.waiting != some .device then .stop s.deliver
    else match s.core.cmpHit with
    | some k => .stop (s.takeTrap cBreakpoint false (BitVec.ofNat 64 k) s.core.pc)
    | none =>
      match (s.upd Core.passBar).fetchInstr with
      | .stop t => .stop t
      | .run i t => if t.core.interlocked i then .stop (t.upd (fun c => { c with waiting := some .register })) else .run i t

/-- Issue cycles of a control-core instruction (R72): two for a control transfer taken, else one. -/
def issueCost (i : Instr) (before after : Core) : Nat :=
  if after.pc = before.pc ∨ after.pc = before.pc + BitVec.ofNat 64 (byteLength i) then 1 else 2

/-! ## Placing an instruction (log entry 4) -/

/-- Page tables, frames and the context record with which context 1 translates the page at 0 to the frame at 0x40000:
stage 1 only. -/
def State.mapOne (s : State) : State :=
  let r : Nat := 0x10000 * 2 ^ 448 + 6 * 2 ^ 64 + 0x80000 * 2 ^ 192 + 1
  let s1 := { s with host := { s.host with ctxTable := SMap.set 0 s.host.ctxTable 1 (BitVec.ofNat 512 r) } }
  -- level 1 at 0x10000, level 2 at 0x14000, level 3 at 0x18000
  ((s1.putPhys 0x10000 8 0x14001).putPhys 0x14000 8 0x18001).putPhys 0x18000 8 0x40039

/-- Writes a number's bytes into physical memory, `n` of them. -/
def State.putBytes (s : State) (a n v : Nat) : State := { s with mem := writeNat s.mem a n v }

/-- The state in which the next step fetches and runs an instruction whose bits are `w`: context 1 runs on logical core
0, its task is at address 0 of a page whose frame holds the instruction. A 48-bit word stands in the vector, matrix or
copy queue's program row. -/
def State.place (s : State) (nbits w : Nat) : State :=
  let s0 := s.mapOne
  let banks := [0, 1, 2, 3, 4, 5, 6, 7]
  let tags : SMap (Nat × Nat) := banks.map (fun b => (b, 2, 0))
  let live : SMap BankState := banks.map (fun b => (b, BankState.live 0))
  let s1 := { s0 with remap := SMap.set 0 s0.remap 0 0x80000000,
                      phys := SMap.set {} s0.phys 0 { s0.physCore 0 with serving := some (1, 0), owner := tags },
                      ctxs := SMap.set {} s0.ctxs 1 { s0.context 1 with enabled := true, running := true } }
  if nbits = 48 then
    let e := if w / 2 ^ 46 % 4 = 1 then Eng.m else if w / 2 ^ 46 % 4 = 2 then Eng.c else Eng.v
    let s2 := s1.putBytes 0x40000 128 (w % 2 ^ 48)
    let c := s2.coreAt 1 0
    let x : Entry := { body := .stream 0 0 0 0 0 0 }
    let a := { Active.start x with held := some (0, readRow s2.mem 0x40000) }
    { s2.setCoreAt 1 0 { c.setQueue e { c.queue e with act := some a } with
        task := some { l := 0, started := true }, bank := live }
      with agenda := [.engine 0 e] }
  else
    let s2 := s1.putBytes 0x40000 12 (w % 2 ^ 96)
    let c := s2.coreAt 1 0
    { s2.setCoreAt 1 0 { c with pc := 0, task := some { l := 0, started := true }, bank := live } with agenda := [.core 0] }

end Sys2Proof.Machine
end

