-- ==== Sys2Proof/Machine/Operands.lean ====
section
/-! DEFINITION. The operand forms of the control core's instructions: immediates (R75, R77), bitfields (R76), branch
targets (R78, R81), element slots of masks (R79, R82), and the masks that both agents write (R83). -/

namespace Sys2Proof.Machine

/-! ## Immediates and targets -/

/-- sext(imm16) of R75. -/
def imm16 (i : BitVec 16) : Word := i.signExtend 64

/-- zext(imm16) of R75. -/
def uimm16 (i : BitVec 16) : Word := i.zeroExtend 64

/-- The target of format B: PC + 4 × sext(off16) (R78). -/
def branchTarget (pc : Word) (o : BitVec 16) : Word := pc + 4#64 * o.signExtend 64

/-- The target of format J: PC + 4 × sext(off26) (R81). -/
def jumpTarget (pc : Word) (o : BitVec 26) : Word := pc + 4#64 * o.signExtend 64

/-- The shift amount of a register shift: bits [5:0] (R74). -/
def shiftAmount (y : Word) : Nat := y.toNat % 64

/-- A control transfer: the pc takes the target when taken, else it moves on (R78). -/
def State.branch (s : State) (taken : Bool) (target : Word) : Result :=
  .next (s.upd (fun c => if taken then { c with pc := target, waiting := none } else c.advancePc 4))

/-! ## Bitfields (R76) -/

/-- M = 2^n − 1. -/
def fieldMask (n : Nat) : Word := BitVec.ofNat 64 (2 ^ n - 1)

/-- `bfx`: the field of length n at position p, sign-extended on request. -/
def bitField (x : Word) (p n : Nat) (sign : Bool) : Word :=
  let f := (x >>> p) &&& fieldMask n
  if sign && f.getLsbD (n - 1) then f ||| ~~~ fieldMask n else f

/-- `bfi`: inserts the low n bits of x at position p of d. -/
def insertField (d x : Word) (p n : Nat) : Word :=
  (d &&& ~~~ (fieldMask n <<< p)) ||| ((x &&& fieldMask n) <<< p)

/-! ## Widths and slots (R79) -/

/-- Element slots of a width code: 128, 64 or 32. -/
def slotCount (w : Nat) : Nat := 128 / 2 ^ w

/-- The slot bits of a mask for a width code. -/
def slotBits (m : BitVec 128) (w : Nat) : BitVec 128 := m &&& BitVec.ofNat 128 (2 ^ slotCount w - 1)

/-- The number of ones among n low bits. -/
def countOnes (x : Nat) : Nat → Nat
  | 0 => 0
  | n + 1 => countOnes (x / 2) n + x % 2

/-- The index of the lowest one among n bits from `i` on, or i + n. -/
def lowestOne (x : Nat) : Nat → Nat → Nat
  | i, 0 => i
  | i, n + 1 => if x.testBit i then i else lowestOne x (i + 1) n

/-! ## Masks (R82, R83, R165) -/

/-- Bit i is the table's entry 2 × a[i] + b[i]. -/
def maskLogic (t : BitVec 4) (x y : BitVec 128) : BitVec 128 :=
  let pick := fun (k : Nat) (m : BitVec 128) => if t.getLsbD k then m else 0
  pick 0 (~~~x &&& ~~~y) ||| pick 1 (~~~x &&& y) ||| pick 2 (x &&& ~~~y) ||| pick 3 (x &&& y)

/-- The value of a mask register at cycle t: the vector engine's writes that have landed stand over the settled
value. -/
def Core.maskAt (c : Core) (t k : Nat) : BitVec 128 :=
  if k = 0 then BitVec.allOnes 128
  else c.pendM.foldl (fun x p => if p.reg = k ∧ p.land ≤ t then p.data else x) (c.mask k)

/-- A write of a mask register by the control core at cycle t: it stands over every write that has landed. -/
def Core.putMask (c : Core) (t k : Nat) (x : BitVec 128) : Core :=
  { c.setMask k x with pendM := c.pendM.filter (fun p => !(p.reg == k && decide (p.land ≤ t))) }

/-- A mask register as the control core reads it. -/
def State.readMask (s : State) (k : MReg) : BitVec 128 := s.core.maskAt s.now k.toNat

/-- Writes a mask register from the control core and moves on. -/
def State.writeMask (s : State) (k : MReg) (x : BitVec 128) : Result :=
  .next (s.upd (fun c => (c.putMask s.now k.toNat x).advancePc 4))

end Sys2Proof.Machine
end

