-- ==== Sys2Proof/Machine/CtlMem.lean ====
section
/-! DEFINITION. The control core's row loads and stores, its two queues, `seam` and `fence` (R88 to R93), the stream
registers (R94) and the handles (R95 to R98), with the steps in which queued accesses perform. -/

namespace Sys2Proof.Machine

/-! ## Entering the queues (R89) -/

/-- The next program-order stamp is used up. -/
def Core.stamped (c : Core) : Core := { c with stamp := c.stamp + 1 }

/-- Whether a handle can be named already (R96, R97). -/
def State.handleReady (s : State) (h : Handle) : Bool := decide (h.readyAt ≤ s.now)

/-- A load through a handle: EffAddr, room in the load queue, and the handle ready; the destination is interlocked until
the data return (R88, R89, R90). -/
def State.load (s : State) (d : Reg) (h : HReg) (off : Word) (wide : Bool) (el : Nat) : Result :=
  match s.core.effAddr h.toNat off with
  | .trap code v => s.trap code v
  | .ok x =>
    if !s.handleReady x || 16 ≤ s.core.lq.length then s.wait .memory
    else .next (s.upd (fun c =>
      let e : LsEntry := { kind := .load d wide el, handle := x, reg := h.toNat, off := off.toNat, stamp := c.stamp }
      (Core.stamped { c with lq := c.lq ++ [e] }).advancePc 4))

/-- A store through a handle; one without W permission traps PRIVILEGE (R88). -/
def State.store (s : State) (i : Instr) (h : HReg) (off : Word) (k : LsKind) : Result :=
  match s.core.effAddr h.toNat off with
  | .trap code v => s.trap code v
  | .ok x =>
    if !x.w then s.trap cPrivilege ((firstWord i).zeroExtend 64)
    else if !s.handleReady x || 16 ≤ s.core.sq.length then s.wait .memory
    else .next (s.noteLive.upd (fun c =>
      let e : LsEntry := { kind := k, handle := x, reg := h.toNat, off := off.toNat, stamp := c.stamp }
      (Core.stamped { c with sq := c.sq ++ [e] }).advancePc 4))

def execLdW (d : Reg) (h : HReg) (x : Reg) (e : BitVec 5) (r : BitVec 7) (s : State) : Result :=
  s.load d h (s.core.rowOff x r) false e.toNat
def execLdD (d : Reg) (h : HReg) (x : Reg) (e : BitVec 4) (r : BitVec 7) (s : State) : Result :=
  s.load d h (s.core.rowOff x r) true e.toNat
def execStW (v : Reg) (h : HReg) (x : Reg) (e : BitVec 5) (r : BitVec 7) (s : State) : Result :=
  s.store (.stW v h x e r) h (s.core.rowOff x r) (.store (s.core.rd v) false e.toNat)
def execStD (v : Reg) (h : HReg) (x : Reg) (e : BitVec 4) (r : BitVec 7) (s : State) : Result :=
  s.store (.stD v h x e r) h (s.core.rowOff x r) (.store (s.core.rd v) true e.toNat)

/-- A `seam` or `fence` enters both queues (R92, R93); the token's number holds the scope whose acknowledgements it
waits for in its low three bits, and above them its form: 0 a `seam` or `fence.sc`, 1 an acquire, 2 a release. -/
def State.fence (s : State) (form scope : Nat) : Result :=
  if 16 ≤ s.core.lq.length || 16 ≤ s.core.sq.length then s.wait .memory
  else .next (s.upd (fun c =>
    let t : LsEntry := { kind := .token (32 * c.stamp + 8 * form + scope), stamp := c.stamp }
    (Core.stamped { c with lq := c.lq ++ [t], sq := c.sq ++ [t] }).advancePc 4))

def execSeam (s : State) : Result := s.fence 0 0
def execFenceSc (sc : BitVec 3) (s : State) : Result :=
  if 6 ≤ sc.toNat then s.illegal (.fenceSc sc) else s.fence 0 sc.toNat
def execFenceAcq (sc : BitVec 3) (s : State) : Result :=
  if 6 ≤ sc.toNat then s.illegal (.fenceAcq sc) else s.fence 1 sc.toNat
def execFenceRel (sc : BitVec 3) (s : State) : Result :=
  if 6 ≤ sc.toNat then s.illegal (.fenceRel sc) else s.fence 2 sc.toNat

/-- Whether the remote stores that a token performs are acknowledged (R348): an acquire performs none. -/
def State.tokenAcked (s : State) (i : Nat) : Bool := i / 8 % 4 == 1 || i % 8 < 4 || !s.remoteOwed s.ctx s.cur

/-- The token of an acquire or a release leaves the store queue, once its twin has left the load queue. -/
def State.popStoreToken (s : State) (j : Nat) : State :=
  if j / 8 % 4 ≠ 0 ∧ s.tokenAcked j = true ∧ s.core.lq.all (fun x => x.kind != .token j) = true then
    s.upd (fun c => { c with sq := c.sq.drop 1 })
  else s

/-- Tokens at the heads of the queues (R92, R93). That of a `seam` or `fence.sc` leaves both together, once the stores
that it performs are acknowledged. That of an acquire or a release leaves the load queue as its head: every earlier load
has returned; then it leaves the store queue as its head, and no later store has performed before. A release there waits
for its acknowledgements; an acquire waits for no earlier store. -/
def State.popToken (s : State) : State :=
  match s.core.lq, s.core.sq with
  | a :: lq, b :: sq =>
    (match a.kind, b.kind with
     | .token i, .token j =>
       if i / 8 % 4 = 0 then
         (if i = j ∧ s.tokenAcked i = true then s.upd (fun c => { c with lq := lq, sq := sq })
          else s.popStoreToken j)
       else s.upd (fun c => { c with lq := lq })
     | .token i, _ => if i / 8 % 4 = 0 then s else s.upd (fun c => { c with lq := lq })
     | _, .token j => s.popStoreToken j
     | _, _ => s)
  | a :: lq, [] =>
    (match a.kind with
     | .token i => if i / 8 % 4 = 0 then s else s.upd (fun c => { c with lq := lq })
     | _ => s)
  | [], b :: _ =>
    (match b.kind with
     | .token j => s.popStoreToken j
     | _ => s)
  | [], [] => s

/-! ## Performing (R88, R91) -/

/-- The value that a load takes from its row. -/
def loadValue (row : Row) (wide : Bool) (el : Nat) : Word :=
  if wide then BitVec.ofNat 64 (rowElement row 8 el) else (BitVec.ofNat 32 (rowElement row 4 el)).signExtend 64

/-- The load at the head of the queue has its row. -/
def State.finishLoad (s : State) (d : Reg) (v : Word) (abs pois : Bool) : State :=
  (s.upd (fun c => { c.wr d v with lq := c.lq.drop 1 })).setResid abs pois

/-- What the load at the head of the queue does with the row it reads. -/
def State.loadResult (s : State) (d : Reg) (wide : Bool) (el : Nat) : RowRead → State
  | .ok row => s.finishLoad d (loadValue row wide el) false false
  | .absent => s.finishLoad d 0 true false
  | .bounds => s.finishLoad d 0 true false
  | .discarded => s.finishLoad d 0 false false
  | .poisoned => s.finishLoad d 0 false true
  | .wait => s
  | .remote _ => s

/-- The entry at the head of the load queue performs, if it can (R88, R89, R91). -/
def State.performLoad (s : State) : State :=
  match s.core.lq with
  | [] => s
  | x :: _ =>
    match x.kind with
    | .load d wide el =>
      let loc := x.handle.loc (quadOf s.cur) x.off
      if s.heldBack s.core loc then s
      else
        let t := s.handleTarget s.ctx s.cur x.handle x.off
        match t with
        | .remote g =>
          if x.remote.isSome then s
          else
            let s1 := s.upd (fun c => { c with lq := { x with remote := some s.nextRemote } :: c.lq.drop 1 })
            s1.sendRemote g (x.handle.base.toNat + x.off) (.load s.cur x.stamp) .readRow
        | _ =>
          let (s1, r) := s.readTarget s.controlReader loc t
          s1.loadResult d wide el r
    | _ => s.popToken

/-- LOAD_RETURN: the entry at the head of core n's load queue performs. -/
def execLoadReturn (n : Nat) (s : State) : Result :=
  match s.actor n with
  | none => .next s
  | some t => .next t.performLoad

/-- The row data and byte mask of a queued store. -/
def LsKind.bytes : LsKind → Row × BitVec 128
  | .store v wide el =>
    let n := if wide then 8 else 4
    (placeAt (n * el) (v.toNat % 2 ^ (8 * n)), byteMask (n * el) n)
  | .row data mask => (data, mask)
  | _ => (0, 0)

/-- Whether a program-earlier load of the core has not returned from the row of a store: it must not see that store
(R194). A load whose row is not known yet counts. -/
def State.earlierLoad (s : State) (x : LsEntry) (t : Target) : Bool :=
  s.core.lq.any (fun y =>
    decide (y.stamp < x.stamp) &&
      (match y.kind with
       | .load .. =>
         (match t, s.handleTarget s.ctx s.cur y.handle y.off with
          | .spot p, .spot q => p.vault == q.vault && p.addr / 128 == q.addr / 128
          | .remote _, .remote _ =>
            (y.handle.base.toNat + y.off) / 128 == (x.handle.base.toNat + x.off) / 128
          | _, .wait => true
          | _, _ => false)
       | _ => false))

/-- The entry at the head of the store queue performs, if it can (R88, R91). -/
def State.performStore (s : State) : State :=
  match s.core.sq with
  | [] => s
  | x :: _ =>
    match x.kind with
    | .token _ => s.popToken
    | .load .. => s
    | _ =>
      let pop := fun (t : State) => t.upd (fun c => { c with sq := c.sq.drop 1 })
      let loc := x.handle.loc (quadOf s.cur) x.off
      let t := s.handleTarget s.ctx s.cur x.handle x.off
      let (data, mask) := x.kind.bytes
      if x.handle.rearm || s.heldBack s.core loc || s.earlierLoad x t then s
      else match t with
      | .wait => s.wantSeg s.ctx loc
      | .absent => (pop s).setResid true false
      | .discarded => (pop s).setResid true false
      | .bounds => (pop s).setResid true false
      | .remote g =>
        if x.handle.w then (pop s).sendRemote g (x.handle.base.toNat + x.off) (.store s.cur x.stamp) (.writeRow data mask)
        else (pop s).setResid true false
      | .spot p => if x.handle.w then (pop s).writeRowAt p data mask else (pop s).setResid true false

/-- STORE_PERFORM: the entry at the head of core n's store queue performs. -/
def execStorePerform (n : Nat) (s : State) : Result :=
  match s.actor n with
  | none => .next s
  | some t => .next t.performStore

/-- Rounds in which the heads of both queues perform while they can (R203). -/
def State.drain : Nat → State → State
  | 0, s => s
  | k + 1, s => State.drain k s.performLoad.performStore

/-- Every entry of the load and store queues that can perform without waiting performs (R203). -/
def State.drainQueues (s : State) : State := s.drain (s.core.lq.length + s.core.sq.length)

/-! ## Stream registers (R94) -/

/-- An `srd`: the channel's mode and element size must fit; it waits while the FIFO is empty. -/
def State.streamRead (s : State) (i : Instr) (d : Reg) (k : Nat) (esz : BitVec 2) (f : Row → Word) : Result :=
  let x := s.core.channel k
  if x.mode ≠ .stream ∨ x.esz ≠ esz then s.illegal i
  else match x.fifo with
  | [] => s.wait (.stream k)
  | e :: rest => .next (s.upd (fun c => ((c.setChannel k { x with fifo := rest }).wr d (f e)).advancePc 4))

def execSrdW (d : Reg) (k : BitVec 3) (s : State) : Result :=
  s.streamRead (.srdW d k) d k.toNat 0 (fun e => (e.extractLsb' 0 32).signExtend 64)
def execSrdD (d : Reg) (k : BitVec 3) (s : State) : Result :=
  s.streamRead (.srdD d k) d k.toNat 1 (fun e => e.extractLsb' 0 64)
def execSavl (d : Reg) (k : BitVec 3) (s : State) : Result :=
  let x := s.core.channel k.toNat
  s.writeReg d (if x.mode = .stream then BitVec.ofNat 64 x.fifo.length else 0) 4

/-! ## Handles (R95 to R98) -/

/-- The state code of `hqry`: a revoked handle reads absent. -/
def Handle.stateCode (h : Handle) : Nat :=
  if h.rev then 1
  else match h.st with
  | .resident => 0
  | .absent => 1
  | .discarded => 2
  | .pending => 3

/-- The image of `hqry` (R95); an invalid handle gives 0. -/
def Handle.image (h : Handle) : Word :=
  if h.valid then
    (h.base &&& ~~~0xFFFF#64) ||| BitVec.ofNat 64 ((if h.rev then 128 else 0) + (if h.w then 64 else 0)
      + (if h.rd then 32 else 0) + (if h.vault then 16 else 0) + 8 + h.stateCode)
  else 0

/-- The handle that a resolved translation gives (R96): `.rw` on a readable page that is not writable has W = 0. -/
def Handle.resolved (h : Handle) (x : Xlat) : Handle :=
  { h with st := x.st, frame := x.frame, w := if x.st = .resident then h.rw && x.w else h.rw, rearm := false }

/-- `trn` (R96): a translation that the cache holds, or that needs no walk, is known at once; another is pending until
its walk ends (HANDLE_RESOLVE). -/
def State.translateInto (s : State) (i : Instr) (h : HReg) (a : Reg) (rw : Bool) : Result :=
  if h = 0 then s.illegal i
  else
    let va := s.core.rd a
    let x : Handle := { valid := true, base := va &&& ~~~0xFFFF#64, rd := true, w := rw, rw := rw,
                        tag := s.core.stamp, readyAt := s.now + 32 }
    let y : Handle :=
      match s.whereIs va.toNat with
      | .nowhere => { x with st := .absent }
      | .package _ => x
      | .here p =>
        match s.cached (if 256 ≤ s.cur then 8 else dieOf s.cur) s.ctx (p / 65536) rw with
        | some t => x.resolved { st := .resident, frame := t.frame, w := t.w }
        | none => { x with st := .pending }
    .next (s.upd (fun c => (c.setHandle h.toNat y).stamped.advancePc 4))

def execTrnR (h : HReg) (a : Reg) (s : State) : Result := s.translateInto (.trnR h a) h a false
def execTrnRw (h : HReg) (a : Reg) (s : State) : Result := s.translateInto (.trnRw h a) h a true

/-- Whether a handle waits for a walk: it is pending, or a REARM shootdown has asked for one (R96, R319). -/
def Handle.awaits (h : Handle) : Bool := h.valid && !h.vault && (h.st == .pending || h.rearm)

/-- The handle that HANDLE_RESOLVE walks: the register's, or for h0 the first that a queued access has captured. -/
def Core.awaiting (c : Core) (h : HReg) : Option Handle :=
  if h = 0 then ((c.lq ++ c.sq).map (fun x => x.handle)).find? Handle.awaits
  else if (c.handle h.toNat).awaits then some (c.handle h.toNat) else none

/-- Changes every handle of a core: the registers' and those that queued accesses captured. -/
def Core.mapHandles (c : Core) (f : Handle → Handle) : Core :=
  let g := fun (e : LsEntry) => { e with handle := f e.handle }
  { c with h := c.h.map (fun e => (e.1, f e.2)), lq := c.lq.map g, sq := c.sq.map g }

/-- HANDLE_RESOLVE: the walk of a pending handle completes; every copy of the translation resolves together (R96, R98,
R319). -/
def execHandleResolve (n : Nat) (h : HReg) (s : State) : Result :=
  match s.actor n with
  | none => .next s
  | some s =>
    match s.core.awaiting h with
    | none => .next s
    | some x =>
      match s.whereIs x.base.toNat with
      | .here p =>
        let (s1, t) := s.translate (if 256 ≤ s.cur then 8 else dieOf s.cur) s.ctx p x.rw
        let s2 := s1.logMalformed s.ctx s.cur t.bad
        .next (s2.upd (fun c => c.mapHandles (fun y => if y.awaits && y.tag == x.tag then y.resolved t else y)))
      | _ =>
        .next (s.upd (fun c => c.mapHandles (fun y =>
          if y.awaits && y.tag == x.tag then { y with st := .absent, rearm := false } else y)))

/-- `vbind` (R97). -/
def execVbind (h : HReg) (a : Reg) (s : State) : Result :=
  if h = 0 then s.illegal (.vbind h a)
  else
    let v := s.core.rd a
    let des := v.toNat % 2 ^ 25
    if 2 ^ 25 ≤ v.toNat ∨ 64 < des % 128 ∨ desCount des = 0
        ∨ s.holdsSegs s.ctx (desQuad (quadOf s.cur) des) (desFirst des) (desCount des) = false then
      s.trap cVaultBounds v
    else
      let x : Handle := { valid := true, vault := true, base := BitVec.ofNat 64 (des * 65536), rd := true, w := true,
                          tag := s.core.stamp, readyAt := s.now + 4 }
      .next (s.upd (fun c => (c.setHandle h.toNat x).stamped.advancePc 4))

def execHqry (d : Reg) (h : HReg) (s : State) : Result := s.writeReg d (s.core.handle h.toNat).image 4
/-- An invalidated handle; accesses already issued keep what they captured (R98). -/
def execHinv (h : HReg) (s : State) : Result := .next (s.upd (fun c => (c.setHandle h.toNat {}).advancePc 4))
def execHmov (d a : HReg) (s : State) : Result :=
  if d = 0 then s.illegal (.hmov d a)
  else .next (s.upd (fun c => (c.setHandle d.toNat (c.handle a.toNat)).advancePc 4))

end Sys2Proof.Machine
end

