-- ==== Sys2Proof/Machine/Layout.lean ====
section
/-! DEFINITION. Where the elements of a tensor lie: descriptors (R63), layout tags (R268, R269), the directory (R270,
R271), conversions in progress (R273, R275), handles of vault-bound tensors (R395), scales and metadata (R28, R30,
R32), and reads and writes of elements. -/

namespace Sys2Proof.Machine

/-! ## Descriptors (R63) -/

/-- The fields of a tensor descriptor. -/
structure Tensor where
  valid : Bool
  dir : Bool
  bk : Bool
  fmtCode : Nat
  tag : Nat
  sfmt : Nat
  nsel : Nat
  msel : Nat
  bpage : Nat
  hb : Nat
  d0 : Nat
  d1 : Nat
  d2 : Nat
  d3 : Nat
  base : Nat
  scale : Nat
  meta_ : Nat
  aux : Nat
  key : Nat
  conv : Nat
  deriving DecidableEq, Repr, Inhabited

/-- Reads a descriptor (R63). -/
def tensorOf (x : BitVec 512) : Tensor :=
  let t := x.toNat
  { valid := bit t 31, dir := bit t 30, bk := bit t 40, fmtCode := bits t 63 56, tag := bits t 55 52, sfmt := bits t 51 48,
    nsel := bits t 47 45, msel := bits t 44 43, bpage := bits t 42 41, hb := bits t 39 36,
    d0 := bits t 159 128, d1 := bits t 191 160, d2 := bits t 223 192, d3 := bits t 255 224,
    base := bits t 127 64, scale := bits t 319 256, meta_ := bits t 383 320, aux := bits t 479 448,
    key := bits t 511 480, conv := bits t 447 384 }

/-- The element format; a descriptor in the table names none that is reserved. -/
def Tensor.fmt (t : Tensor) : Fmt := (Fmt.ofCode t.fmtCode).getD .f32

/-- A block float format. -/
def Fmt.isBx : Fmt → Bool
  | .bx _ => true
  | _ => false

/-- A format with scales. -/
def Fmt.isBlock (f : Fmt) : Bool := f.isBx || f == .aq8

/-- The number of elements. -/
def Tensor.count (t : Tensor) : Nat := t.d0 * t.d1 * t.d2 * t.d3

/-- N of an N:M-sparse operand; 0 when dense (R63). -/
def Tensor.nOf (t : Tensor) : Nat := if t.nsel = 0 then 0 else 2 ^ (t.nsel - 1)
/-- M of an N:M-sparse operand. -/
def Tensor.mOf (t : Tensor) : Nat := 4 * 2 ^ t.msel

/-- The tensor of the values that an operand stores: of an N:M-sparse one N of every M along D0, packed densely (R33,
log entry 44). -/
def Tensor.stored (t : Tensor) : Tensor := if t.nsel = 0 then t else { t with d0 := t.d0 / t.mOf * t.nOf }

/-- The stored values of the 32 positions of column kc of patches, or of a chunk, in one row: their index in the row (R33,
R220). -/
def Tensor.storedOf (t : Tensor) (kc : Nat) : List Nat :=
  if t.nsel = 0 then (List.range 32).filterMap (fun i => if 32 * kc + i < t.d0 then some (32 * kc + i) else none)
  else (List.range (32 / t.mOf)).flatMap (fun g =>
    let grp := 32 / t.mOf * kc + g
    if grp * t.mOf < t.d0 then (List.range t.nOf).map (fun n => t.nOf * grp + n) else [])

/-- The SFMT that a format requires (R63). -/
def Fmt.sfmt : Fmt → Nat
  | .bx _ => 1
  | .aq8 => 2
  | _ => 0

/-- The checks of R63 on a descriptor that enters the table; all zeros pass and leave the entry invalid (R108). -/
def descriptorOk (x : BitVec 512) : Bool :=
  let t := tensorOf x
  if x = 0 then true
  else t.valid && (match Fmt.ofCode t.fmtCode with
    | some f => t.sfmt == f.sfmt
    | none => false)
    && t.tag ≤ 8 && t.nsel ≤ 3 && t.msel ≤ 2 && 1 ≤ t.d0 && 1 ≤ t.d1 && 1 ≤ t.d2 && 1 ≤ t.d3

/-- The pairings of format and tag (R268). -/
def pairingOk (f : Fmt) (tag : Nat) : Bool :=
  if f.isBx then tag == 0 || tag == 5 || tag == 8
  else if tag = 8 then false
  else if tag = 7 then f == .f16 || f == .b16 || f == .e4 || f == .e5
  else tag ≤ 8

/-- The geometry rules of a format and tag (R28, R30, R32). -/
def Tensor.geometryOk (t : Tensor) (tag : Nat) : Bool :=
  pairingOk t.fmt tag && (!t.fmt.isBlock || t.d0 % 32 == 0) && (tag != 7 || t.d0 % 4 == 0)

/-! ## Coordinates and offsets (R34, R269) -/

/-- Ceiling of a quotient. -/
def ceilDiv (a b : Nat) : Nat := (a + b - 1) / b

/-- The coordinate of a logical linear index. -/
def Tensor.coord (t : Tensor) (q : Nat) : Nat × Nat × Nat × Nat :=
  (q % t.d0, q / t.d0 % t.d1, q / (t.d0 * t.d1) % t.d2, q / (t.d0 * t.d1 * t.d2))

/-- Off of R269 in bits, for every tag but BXPK; of an SP24 tensor the offset of stored value 0 of the group. -/
def Tensor.offBits (t : Tensor) (tag q : Nat) : Nat :=
  let (i0, i1, i2, i3) := t.coord q
  let w := t.fmt.bits
  let pl := i2 + t.d2 * i3
  let l1 := i1 + t.d1 * pl
  let t0 := ceilDiv t.d0 32
  let t1 := ceilDiv t.d1 32
  let a := i0 % 32
  let c := i1 % 32
  let tile := i0 / 32 + t0 * (i1 / 32 + t1 * pl)
  let s := w / 8
  match tag with
  | 0 => w * (i0 + t.d0 * l1)
  | 1 => w * (i1 + t.d1 * (i0 + t.d0 * pl))
  | 2 => w * (1024 * tile + 32 * c + a)
  | 3 => 8 * (s * 1024 * tile + 32 * s * c + 16 * (Nat.xor (a * s / 16) (c % (2 * s))) + a * s % 16)
  | 4 => w * (128 * t.d0 * (i1 / 128 + ceilDiv t.d1 128 * pl) + 128 * i0 + i1 % 128)
  | 5 => 65536 * i0 + w * i1
  | 6 => w * (a + 32 * (i1 + t.d1 * (i2 + t.d2 * (i0 / 32 + t0 * i3))))
  | 7 => w * (t.d0 / 2 * l1 + 2 * (i0 / 4))
  | _ => 0

/-- The extent of a tag in bytes (R269). -/
def Tensor.extent (t : Tensor) (tag : Nat) : Nat :=
  let w := t.fmt.bits
  let t0 := ceilDiv t.d0 32
  let t1 := ceilDiv t.d1 32
  let pl := t.d2 * t.d3
  match tag with
  | 2 => 128 * w * t0 * t1 * pl
  | 3 => 128 * w * t0 * t1 * pl
  | 4 => 16 * w * t.d0 * ceilDiv t.d1 128 * pl
  | 5 => 1048576
  | 6 => 4 * w * t0 * t.d1 * pl
  | 7 => w * t.count / 16
  | _ => ceilDiv (w * t.count) 8

/-- A run of bits inside one byte: byte offset from the tensor's base, lowest bit, number of bits. -/
abbrev Run := Nat × Nat × Nat

/-- The runs of `n` bits from a bit offset on, low bits first. -/
def runsFrom : Nat → Nat → Nat → List Run
  | 0, _, _ => []
  | fuel + 1, o, n =>
    if n = 0 then []
    else
      let k := min n (8 - o % 8)
      (o / 8, o % 8, k) :: runsFrom fuel (o + k) (n - k)

/-- The runs that hold an element; of an SP24 tensor, those of stored value `v` of its group (R269). -/
def Tensor.runs (t : Tensor) (tag q : Nat) (v : Nat := 0) : List Run :=
  let w := t.fmt.bits
  if tag = 8 then
    let (i0, i1, i2, i3) := t.coord q
    let n := i0 / 32 + t.d0 / 32 * (i1 + t.d1 * (i2 + t.d2 * i3))
    (List.range w).map (fun k => (4 * w * n + 4 * k + i0 % 32 / 8, i0 % 8, 1))
  else runsFrom 9 (t.offBits tag q + (if tag = 7 then w * v else 0)) w

/-! ## Patches (R273) -/

/-- The number of patches. -/
def Tensor.patches (t : Tensor) : Nat := ceilDiv t.d0 32 * ceilDiv t.d1 32 * t.d2 * t.d3

/-- The patch of an element. -/
def Tensor.patchOf (t : Tensor) (q : Nat) : Nat :=
  let (i0, i1, i2, i3) := t.coord q
  i0 / 32 + ceilDiv t.d0 32 * (i1 / 32 + ceilDiv t.d1 32 * (i2 + t.d2 * i3))

/-! ## Backings -/

/-- Where a tensor's base lies: a virtual address, or a byte offset into a vault designator's range. -/
inductive Backing where
  | va (a : Nat)
  | vault (des off : Nat)
  deriving DecidableEq, Repr, Inhabited

/-- The location and the byte in its row at a byte offset; none at or beyond the range's limit (R268). -/
def Backing.place (b : Backing) (own o : Nat) : Option (Loc × Nat) :=
  match b with
  | .va a => let x := (a + o) % 2 ^ 64; some (.va (rowBase x), x % 128)
  | .vault des off =>
    let x := off + o
    if 65536 * desCount des ≤ x then none else some (.vault (desQuad own des) (desFirst des * 512 + x / 128), x % 128)

/-- The row of a backing's first byte, inside the handle's range, for the BCOL rule. -/
def Backing.firstRow : Backing → Option Nat
  | .va _ => none
  | .vault des off => if off < 65536 * desCount des then some (desFirst des * 512 + off / 128) else none

/-- The BCOL rules of R269. -/
def Tensor.bcolOk (t : Tensor) (b : Backing) : Bool :=
  t.d2 == 1 && t.d3 == 1 && t.d0 ≤ 128 && t.fmt.bits * t.d1 ≤ 65536
    && b.firstRow == some ((448 + 16 * t.bpage) * 512)

/-! ## What an access finds (R271, R275, R395) -/

/-- The captured descriptor of a table entry. -/
def Core.cap (c : Core) (n : Nat) : Cap :=
  let x := SMap.get 0 c.t n
  { img := x, hb := c.handle (tensorOf x).hb }

/-- The directory entry of a key of a context (R270). -/
def State.dirEntry (s : State) (ctx key : Nat) : Option DirEntry :=
  s.dir.find? (fun e => e.ctx == ctx && e.key.toNat == key)

/-- A conversion that a CONV names: its record is in use with the same serial (R275). -/
def State.convAt (s : State) (ctx conv : Nat) : Option Conv :=
  if conv = 0 then none
  else
    let x := SMap.get {} (s.context ctx).conv (conv % 16)
    if x.serial ≠ 0 ∧ x.serial % 2 ^ 60 = conv / 16 then some x else none

/-- The tag, the backing (none: R395's TENSOR_DESC) and the conversion that an access goes by. -/
structure View where
  tag : Nat
  back : Option Backing
  conv : Option Conv
  deriving DecidableEq, Repr, Inhabited

/-- The designator of a vault handle. -/
def Handle.des (h : Handle) : Nat := h.base.toNat / 65536

/-- The backing of a descriptor that is not registered (R268, R395). -/
def Cap.backing (x : Cap) (base : Nat) : Option Backing :=
  let t := tensorOf x.img
  if !t.bk then some (.va base)
  else if t.hb = 0 ∨ !x.hb.valid ∨ !x.hb.vault then none
  else some (.vault x.hb.des (128 * base))

/-- What the access of a captured descriptor goes by at the moment it is addressed. -/
def State.view (s : State) (ctx : Nat) (x : Cap) : View :=
  let t := tensorOf x.img
  match (if t.dir then s.dirEntry ctx t.key else none) with
  | some e =>
    { tag := e.tag.toNat, conv := s.convAt ctx e.conv.toNat,
      back := if e.bk then (if desCount e.des.toNat = 0 then none else some (.vault e.des.toNat e.base.toNat))
              else some (.va e.base.toNat) }
  | none => { tag := t.tag, back := x.backing t.base, conv := s.convAt ctx t.conv }

/-- The old location of a conversion (R273). -/
def Conv.oldBack (c : Conv) : Backing := if c.obk then .vault c.odes.toNat c.obase.toNat else .va c.obase.toNat
/-- The new location of a conversion. -/
def Conv.newBack (c : Conv) : Backing := if c.nbk then .vault c.ndes.toNat c.nbase.toNat else .va c.nbase.toNat

/-- Whether a patch is in progress (R275). -/
def Conv.works (c : Conv) (p : Nat) : Bool := c.work.any (fun x => x.1 == p)

/-- What addressing a position comes to: the bits of its element with the rows that the footprint checker tests (R244),
or a fault, or the wait for a patch. -/
inductive Addr where
  | at_ (parts : List Bits) (check : List Loc)
  | bounds
  | desc
  | wait
  deriving DecidableEq, Repr, Inhabited

/-- Places runs on a backing. -/
def placeRuns (b : Backing) (own : Nat) : List Run → Option (List Bits)
  | [] => some []
  | (o, lo, n) :: rest =>
    match b.place own o, placeRuns b own rest with
    | some (l, k), some ps => some ({ loc := l, off := k, lo := lo, n := n } :: ps)
    | _, _ => none

/-- Adds a location to a list without repeats. -/
def insertLoc (l : List Loc) (x : Loc) : List Loc := if l.contains x then l else l ++ [x]

/-- The rows of a list of bits. -/
def rowsOf (ps : List Bits) : List Loc := ps.foldl (fun l p => insertLoc l p.loc) []

/-- Whether a descriptor may be used for addressing under a view (R268, R269, R395). -/
def View.usable (v : View) (t : Tensor) : Bool :=
  t.valid && t.geometryOk v.tag && (match v.back with
    | none => false
    | some b => v.tag != 5 || t.bcolOk b)

/-- Addresses element `q` (R268, R275): a read of an unconverted patch goes to the old location, a write of one waits.
`redirect` false takes the new location whatever the conversion. -/
def State.locate (s : State) (ctx own : Nat) (x : Cap) (q : Int) (wr : Bool) (redirect : Bool := true) (v : Nat := 0) :
    Addr :=
  let t := tensorOf x.img
  let w := s.view ctx x
  match w.back with
  | none => .desc
  | some b =>
    if !w.usable t then .desc
    else if q < 0 ∨ (t.count : Int) ≤ q then .bounds
    else
      match placeRuns b own (t.runs w.tag q.toNat v) with
      | none => .bounds
      | some ps =>
        match (if redirect then w.conv else none) with
        | none => .at_ ps (rowsOf ps)
        | some c =>
          if c.done.contains (t.patchOf q.toNat) then .at_ ps (rowsOf ps)
          else if wr || c.works (t.patchOf q.toNat) then .wait
          else match placeRuns c.oldBack own (t.runs c.otag.toNat q.toNat v) with
            | none => .bounds
            | some old => .at_ old (rowsOf ps)

/-- The conversion, if any, that an access of some positions goes through: one of their patches is unconverted (R276). -/
def State.redirected (s : State) (ctx : Nat) (x : Cap) (qs : List Int) : List Nat :=
  match (s.view ctx x).conv with
  | some c =>
    if qs.any (fun q => decide (0 ≤ q) && !c.done.contains ((tensorOf x.img).patchOf q.toNat)) then [c.serial] else []
  | none => []

/-- A write of an element demands its patch (R274, R275). -/
def State.demand (s : State) (ctx : Nat) (x : Cap) (q : Nat) : State :=
  match (s.view ctx x).conv with
  | some c =>
    let p := (tensorOf x.img).patchOf q
    if c.done.contains p then s
    else
      let d := s.context ctx
      s.setContext ctx { d with conv := d.conv.map (fun y =>
        if y.2.serial = c.serial then (y.1, { y.2 with want := insertNat y.2.want p }) else y) }
  | none => s

/-! ## Scales and metadata -/

/-- Bytes of a scale or metadata tensor: it is ROW, and its base stands as the data base stands (log entry 62). -/
def State.sideParts (s : State) (ctx own : Nat) (x : Cap) (base off n : Nat) : Option (List Bits) :=
  let t := tensorOf x.img
  let b := match (if t.dir then s.dirEntry ctx t.key else none) with
    | some e => some (if e.bk then .vault e.des.toNat (128 * base) else .va base)
    | none => x.backing base
  match b with
  | none => none
  | some b => placeRuns b own (runsFrom 17 (8 * off) (8 * n))

/-- The block of an element (R28). -/
def Tensor.block (t : Tensor) (q : Nat) : Nat :=
  let (i0, i1, i2, i3) := t.coord q
  i0 / 32 + t.d0 / 32 * (i1 + t.d1 * (i2 + t.d2 * i3))

/-- The bits of an element's scale: an exponent byte, or the 16-bit pair of AQ8 (R28, R30). -/
def State.scaleParts (s : State) (ctx own : Nat) (x : Cap) (q : Nat) : Option (List Bits) :=
  let t := tensorOf x.img
  let n := if t.fmt = .aq8 then 2 else 1
  s.sideParts ctx own x t.scale (n * t.block q) n

/-- The metadata byte of an element's group of an SP24 tensor (R269). -/
def State.nibbleParts (s : State) (ctx own : Nat) (x : Cap) (q : Nat) : Option (List Bits) :=
  let t := tensorOf x.img
  let (i0, i1, i2, i3) := t.coord q
  s.sideParts ctx own x t.meta_ (ceilDiv t.d0 8 * (i1 + t.d1 * (i2 + t.d2 * i3)) + i0 / 8) 1

/-- Which stored value stands at a position under a nibble; none: +0 (R32). -/
def nibbleValue (nib pos : Nat) : Option Nat :=
  if nib / 4 % 4 = pos then some 1 else if nib % 4 = pos then some 0 else none

/-! ## Reading and writing bits -/

/-- How a reader reads the row of a location. -/
abbrev RowReader := State → Loc → State × RowRead

/-- Reads distinct rows; the first that does not answer a row decides. -/
def State.readRows (s : State) (rd : RowReader) : List Loc → State × Except RowRead (List (Loc × Row))
  | [] => (s, .ok [])
  | l :: ls =>
    match rd s l with
    | (s1, .ok row) =>
      (match State.readRows s1 rd ls with
       | (s2, .ok rows) => (s2, .ok ((l, row) :: rows))
       | bad => bad)
    | (s1, bad) => (s1, .error bad)

/-- The number that bits of rows already read hold, low bits first. -/
def gatherBits (rows : List (Loc × Row)) : List Bits → Nat
  | [] => 0
  | p :: ps =>
    let row := ((rows.find? (fun x => x.1 == p.loc)).map (fun x => x.2)).getD 0
    row.toNat / 2 ^ (8 * p.off + p.lo) % 2 ^ p.n + 2 ^ p.n * gatherBits rows ps

/-- Reads bits wherever they lie. -/
def State.readBits (s : State) (rd : RowReader) (ps : List Bits) : State × Except RowRead Nat :=
  match s.readRows rd (rowsOf ps) with
  | (s1, .ok rows) => (s1, .ok (gatherBits rows ps))
  | (s1, .error e) => (s1, .error e)

/-- The row data, the bytes and the bits that a number gives to the parts in one row. -/
def scatterBits (l : Loc) : List Bits → Nat → Nat × Nat × Nat
  | [], _ => (0, 0, 0)
  | p :: ps, v =>
    let (d, bytes, ones) := scatterBits l ps (v / 2 ^ p.n)
    if p.loc = l then
      let at_ := 8 * p.off + p.lo
      (d + v % 2 ^ p.n * 2 ^ at_, Nat.lor bytes (2 ^ p.off), ones + (2 ^ p.n - 1) * 2 ^ at_)
    else (d, bytes, ones)

/-- Writes the bits of one row: bytes written in part keep their other bits. -/
def State.writeRowBits (s : State) (l : Loc) (data bytes ones : Nat) : State × RowWrite :=
  let (s1, t) := s.resolve s.ctx s.cur l true
  match t with
  | .spot p =>
    let old := (s1.rowAt p).toNat
    let s1 := if expandMask 128 bytes = ones then s1 else s1.correct p
    let new := Nat.lor data (Nat.land old (2 ^ 1024 - 1 - ones))
    (s1.writeRowAt p (BitVec.ofNat 1024 new) (BitVec.ofNat 128 bytes), .ok)
  | .absent => (s1, .absent)
  | .discarded => (s1, .discarded)
  | .wait => (s1.wantSeg s.ctx l, .wait)
  | .bounds => (s1, .bounds)
  | .remote g => (s1, .remote g)

/-- The value of a scaled element as R28 and R30 give it. -/
def blockElement (f : Fmt) (scale code : Nat) : Val :=
  match f with
  | .bx b => bxValue b scale (bxMant b code)
  | .aq8 => aqValue (scale % 256) (intValue .i8 (scale / 256)) (intValue .i8 code)
  | _ => f.value code

end Sys2Proof.Machine
end

