-- ==== Sys2Proof/Machine/Combine.lean ====
section
/-! DEFINITION. The ordered combine unit of each die (R42, R101, R183, R280 to R282, R354): rounds, the buffer,
duplicates, and the grants that return to control cores. -/

namespace Sys2Proof.Machine

/-! ## CRC-32C (R280) -/

/-- One bit of CRC-32C, reflected. -/
def crcBit (c : Nat) : Nat := if c % 2 = 1 then Nat.xor (c / 2) 0x82F63B78 else c / 2

/-- One byte of CRC-32C. -/
def crcByte (c b : Nat) : Nat := crcBit (crcBit (crcBit (crcBit (crcBit (crcBit (crcBit (crcBit (Nat.xor c b))))))))

/-- CRC-32C of bytes. -/
def crc32c (bs : List Nat) : BitVec 32 := BitVec.ofNat 32 (Nat.xor (bs.foldl crcByte 0xFFFFFFFF) 0xFFFFFFFF)

/-- The low bytes of a number. -/
def bytesOf (v : Nat) : Nat → List Nat
  | 0 => []
  | n + 1 => v % 256 :: bytesOf (v / 256) n

/-- The bytes of a contribution: its elements, or the increment of a claim. -/
def Payload.bytes : Payload → List Nat
  | .cred _ fmt els => els.flatMap (fun e => bytesOf e.2 (((Fmt.ofCode fmt).getD .f32).bits / 8))
  | .claim inc => bytesOf inc 4
  | .batch n => bytesOf n 4

/-! ## Destinations and their home (R280) -/

/-- Where a location is now, without any effect; none while nothing is there. -/
def State.spotNow (s : State) (ctx : Nat) (loc : Loc) : Option Spot :=
  match loc with
  | .va va =>
    (match s.whereIs va with
     | .here a =>
       let w := walkBoth s ctx a
       if w.st = .resident then some ⟨false, rowBase (framePA (w.pa / 65536) a)⟩ else none
     | _ => none)
  | .vault q row =>
    (match s.vaultRow ctx q row with
     | .at_ addr => some ⟨true, addr⟩
     | _ => none)

/-- Whether two destinations of one context are one: the same name, or the same place. -/
def State.sameDest (s : State) (ctx : Nat) (a b : Dest) : Bool :=
  a.el == b.el && (s.normLoc a.loc == s.normLoc b.loc || (match s.spotNow ctx a.loc, s.spotNow ctx b.loc with
    | some x, some y => x == y
    | _, _ => false))

/-- The die whose OCU serves a destination: of the vault, or by the interleave hash (R280, R283). -/
def State.homeOf (s : State) (ctx : Nat) (loc : Loc) : Nat :=
  match loc with
  | .vault q _ => s.physQuad q / 8
  | .va va =>
    match s.spotNow ctx loc with
    | some p => Config.homeDie (p.addr / 256) % 8
    | none => Config.homeDie (va / 256) % 8

/-- The round of a launch and destination. -/
def State.roundAt (s : State) (k : Contrib) : Option Round :=
  s.rounds.find? (fun r => r.launch == k.launch && s.sameDest k.ctx r.dest k.dest)

/-- Replaces the round of a contribution, or opens it. -/
def State.setRound (s : State) (k : Contrib) (r : Round) : State :=
  let same := fun (x : Round) => x.launch == k.launch && s.sameDest k.ctx x.dest k.dest
  if s.rounds.any same then { s with rounds := s.rounds.map (fun x => if same x then r else x) }
  else { s with rounds := s.rounds ++ [r] }

/-- Sends a contribution on its way. -/
def State.contribute (s : State) (k : Contrib) : State :=
  let x := { k with id := s.nextContrib, die := s.homeOf k.ctx k.dest.loc, crc := crc32c k.payload.bytes }
  { s with contribs := s.contribs ++ [x], nextContrib := s.nextContrib + 1 }

/-! ## Applying (R42, R101, R183, R354) -/

/-- The bounded claim of R101 on a counter element: the grant and the new element. -/
def boundedClaim (old inc : Nat) : Nat × Nat :=
  let count := old % 2 ^ 32
  if count + inc ≤ old / 2 ^ 32 then (count, old / 2 ^ 32 * 2 ^ 32 + (count + inc) % 2 ^ 32) else (0xFFFFFFFF, old)

/-- The batched claim of R354: the old count with the slots granted above it, and the new element. -/
def batchClaim (old n : Nat) : Nat × Nat :=
  let count := old % 2 ^ 32
  let got := min n (old / 2 ^ 32 - count)
  (count + got * 2 ^ 32, old + got)

/-- One element of a `cred`: d := d op c (R42, R183). -/
def combineNode (op : Nat) (f : Fmt) (d c : Nat) : Nat :=
  redNode (if op = 0 then .add else if op = 1 then .max else .min) f d c

/-- The row after a `cred` contribution, with its byte mask. -/
def combineRow (op : Nat) (f : Fmt) (row : Nat) : List (Nat × Nat) → Nat × Nat
  | [] => (row, 0)
  | (off, c) :: els =>
    let n := f.bits / 8
    let d := row / 2 ^ (8 * off) % 2 ^ (8 * n)
    let x := combineNode op f d c % 2 ^ (8 * n)
    let (r, m) := combineRow op f (row - d * 2 ^ (8 * off) + x * 2 ^ (8 * off)) els
    (r, Nat.lor m ((2 ^ n - 1) * 2 ^ off))

/-- The unit meets an uncorrectable row: it is logged for the core that sent the contribution; another package's core logs
it when the answer comes (R177, R240, R345). -/
def State.unitPoison (s : State) (k : Contrib) : State :=
  match k.reply with
  | .remote _ => s
  | _ =>
    let t : State := { s with ctx := k.ctx, cur := k.core }
    let u := t.logPoison t.controlReader k.dest.loc
    { u with ctx := s.ctx, cur := s.cur }

/-- Applies a contribution at its place: the new state, the grant and the residency bits. A `cred` combines with the zeros
that an uncorrectable row reads as (R240). -/
def State.applyAt (s0 : State) (k : Contrib) (p : Spot) : State × Word × BitVec 2 :=
  let s := s0.correct p
  let bad := s.poisoned p
  match k.payload with
  | .cred op fmt els =>
    let (r, m) := combineRow op ((Fmt.ofCode fmt).getD .f32) (s.rowAt p).toNat els
    ((if bad then s.unitPoison k else s).writeRowAt p (BitVec.ofNat 1024 r) (BitVec.ofNat 128 m), 0, if bad then 2 else 0)
  | pay =>
    if bad then (s.unitPoison k, 0xFFFFFFFF, 2)
    else
      let el := k.dest.el.getD 0
      let old := rowElement (s.rowAt p) 8 el
      let (g, new) := match pay with
        | .batch n => batchClaim old n
        | .claim inc => boundedClaim old inc
        | .cred .. => (0, old)
      (s.writeRowAt p (placeAt (8 * el) new) (byteMask (8 * el) 8), BitVec.ofNat 64 g, 0)

/-- Apply(c) (R281): a claim whose row is absent is refused and consumes its key (R101); an error is the wait for the row's
segment, whose restore has begun (R212). -/
def State.applyContrib (s : State) (k : Contrib) : Except State (State × Word × BitVec 2) :=
  match k.lost with
  | some abs => .ok (s, 0xFFFFFFFF, if abs then 1 else 0)
  | none =>
    let t := { s with ctx := k.ctx, cur := k.core }
    match t.resolve k.ctx k.core k.dest.loc true with
    | (u, .spot p) => .ok ({ u with ctx := s.ctx, cur := s.cur }.applyAt k ⟨p.vault, rowBase p.addr⟩)
    | (_, .wait) => .error (s.wantSeg k.ctx k.dest.loc)
    | (u, .discarded) => .ok ({ u with ctx := s.ctx, cur := s.cur }, 0xFFFFFFFF, 0)
    | (u, _) => .ok ({ u with ctx := s.ctx, cur := s.cur }, 0xFFFFFFFF, 1)

/-! ## Answers -/

/-- Changes a logical core of a context. -/
def State.updCore (s : State) (ctx n : Nat) (f : Core → Core) : State := s.setCoreAt ctx n (f (s.coreAt ctx n))

/-- ORs outcomes of R180 into the sticky bits of a channel (R172, R180). -/
def Channel.stick (x : Channel) (st : BitVec 8) : Channel :=
  { x with absn := x.absn || st.getLsbD 0, disc := x.disc || st.getLsbD 1, dropped := x.dropped || st.getLsbD 2,
           pois := x.pois || st.getLsbD 3 }

/-- Whether a copy word names a channel: in `cdsp` and `cscl` the field is zero (R181). -/
def wordChannel (w : EWord) : Option Nat :=
  let op := (w.extractLsb' 40 6).toNat
  if op = 8 ∨ op = 9 then none else some (w.extractLsb' 13 3).toNat

/-- The outcomes of a command's positions go to its status and to its channel (R180). -/
def Core.stick (c : Core) (w : EWord) (st : BitVec 8) : Core :=
  match wordChannel w with
  | some k => if st = 0 then c else c.setChannel k ((c.channel k).stick st)
  | none => c

/-- Whether a command has moved every position and waits for nothing. -/
def CopyCmd.finished (x : CopyCmd) : Bool := decide (x.reps ≤ x.rep) && x.away.isEmpty && x.pend.isNone

/-- Positions are complete (R179): the low mark moves over those above it. -/
def CopyCmd.complete (x : CopyCmd) (gs : List Nat) : CopyCmd :=
  let d := gs.foldl insertNat x.doneOut
  let low := raiseMark (d.length + 1) d (x.rep * x.wlen + x.pos)
  { x with rep := low / x.wlen, pos := low % x.wlen, doneOut := d.filter (fun g => low ≤ g),
           stuck := x.stuck.filter (fun y => !gs.contains y.1) }

/-- Changes the command of a tag. -/
def Core.updTag (c : Core) (tag : Tag) (f : CopyCmd → CopyCmd) : Core :=
  { c with copies := c.copies.map (fun x => if x.tag = tag then f x else x) }

/-- A command that has finished ends: its entry keeps its outcomes and its place (R180). -/
def Core.endCommand (c : Core) (tag : Tag) : Core :=
  match c.copies.find? (fun x => x.tag == tag && x.finished) with
  | none => c
  | some x =>
    let o := SMap.get {} c.ended tag.seq
    { c with copies := c.copies.filter (fun y => y.tag != tag),
             ended := SMap.set {} c.ended tag.seq { o with rep := x.rep, count := x.pos, status := o.status ||| x.status },
             farRows := c.farRows.filter (fun y => y.1 != tag) }

/-- Sets the fill mark of a row that a word naming the channel has written (R173). -/
def Core.markWritten (c : Core) (w : EWord) (l : Loc) : Core :=
  match wordChannel w with
  | none => c
  | some k =>
    let ch := c.channel k
    match ch.rangeRow l with
    | none => c
    | some i =>
      let ch' := ch.markRow i
      { c.setChannel k ch' with latch := c.latch || ch'.wm != ch.wm }

/-- The number `id` of an operation leaves a group of positions; a group that waits for nothing more is complete. -/
def CopyCmd.arrived (x : CopyCmd) (id : Nat) : CopyCmd :=
  let l := x.away.map (fun y => (y.1, removeNat y.2 id))
  let done := (l.filter (fun y => y.2.isEmpty)).flatMap (fun y => y.1)
  let pend := x.pend.map (fun (p : CopyPend) => { p with ids := removeNat p.ids id })
  { x with away := l.filter (fun y => !y.2.isEmpty), pend := pend }.complete done

/-- An operation of a command has ended: its outcome adds to the command's status and channel, a row that it has written
gains its fill mark (R173, R180), and the positions that waited for nothing else are complete. An `id` is twice a
contribution's number, or twice a remote operation's and one. -/
def Core.settleAway (c : Core) (tag : Tag) (id : Nat) (st : BitVec 8) (l : Loc) : Core :=
  match c.copies.find? (fun x => x.tag == tag) with
  | none => c
  | some y =>
    let c1 := if st.getLsbD 2 then c else c.markWritten y.word l
    ((c1.stick y.word st).updTag tag (fun x => { x.arrived id with status := x.status ||| st })).endCommand tag

/-- The status of a position whose destination dropped it, or was met with an uncorrectable row (R177). -/
def dropStatus (g : Word) (bits : BitVec 2) : BitVec 8 :=
  if g = 0 then (if bits.getLsbD 1 then 8 else 0) else if bits.getLsbD 0 then 5 else 6

/-- What another package is told of its contribution (R345). -/
def remoteEnd (pay : Payload) (g : Word) (bits : BitVec 2) : RemoteStatus :=
  if bits.getLsbD 0 then .absent
  else if bits.getLsbD 1 then .poisoned
  else match pay with
    | .cred .. => if g = 0 then .done else .discarded
    | _ => .done

/-- The contribution has been applied, or dropped as a duplicate: its claim keeps the grant until it is taken; a `cred`
is complete. -/
def State.answer (s : State) (k : Contrib) (g : Word) (bits : BitVec 2) : State :=
  let rest := s.contribs.filter (fun x => x.id != k.id)
  match k.reply, k.payload with
  | .command tag, .cred .. =>
    { s.updCore k.ctx k.core (fun c => c.settleAway tag (2 * k.id) (dropStatus g bits) (s.normLoc k.dest.loc)) with contribs := rest }
  | .remote pkg, pay =>
    { s with contribs := rest, gang := { s.gang with out := s.gang.out ++ [(pkg, remoteEnd pay g bits, g.zeroExtend 1024)] } }
  | _, _ => { s with contribs := s.contribs.map (fun x =>
      if x.id = k.id then { x with grant := some (g, bits), buffered := false } else x) }

/-- The precise ORDERED_KEY of an `fao` that waits: a held trap of the same boundary is taken first, and the `fao` traps when
it executes again (R115). -/
def State.preciseKey (s : State) (k : Contrib) (value : Word) : State :=
  if s.core.pend ∧ s.core.inh = false then
    ({ s with contribs := s.contribs ++ [{ k with bad := true, buffered := false, retryAt := none, grant := none }] }).deliver
  else s.takeTrap cOrderedKey false value s.core.pc

/-- ORDERED_KEY (R101, R183): the claim's instruction traps precisely, the entry faults; nothing is written and the key
is not consumed. While a handler has taken the `fao` out of its wait, the trap stays with the claim until the `fao`
executes again; where a stop has moved past it, it is taken at the next boundary with the pc of the `fao` (log entry
94). -/
def State.orderedKey (s : State) (k : Contrib) : State :=
  let s1 : State := { s with contribs := s.contribs.filter (fun x => x.id != k.id), ctx := k.ctx, cur := k.core }
  let value := BitVec.ofNat 64 (k.key + k.n * 2 ^ 32)
  let s2 : State := match k.reply with
    | .reg d =>
      if s1.core.waiting = some (.grant (2 * k.id)) then s1.preciseKey k value
      else if k.left then
        (if s1.core.grantPending &&& BitVec.ofNat 32 (2 ^ d.toNat) = 0 ∧ d ≠ 0 then s1
         else (s1.upd (fun c => { c with grantPending := c.grantPending &&& ~~~ BitVec.ofNat 32 (2 ^ d.toNat) })).defer
           cOrderedKey value (some k.pc))
      else { s1 with contribs := s1.contribs ++ [{ k with bad := true, buffered := false, retryAt := none, grant := none }] }
    | .command tag =>
      (match s1.core.copies.find? (fun x => x.tag == tag) with
       | some x => s1.engineFault tag.eng x.entry cOrderedKey { rep := x.rep, count := x.pos, status := x.status }
       | none => s1)
    | .remote pkg => { s1 with gang := { s1.gang with out := s1.gang.out ++ [(pkg, .overlap, 0)] } }
  { s2 with ctx := s.ctx, cur := s.cur }

/-! ## Arriving (R281, R282) -/

/-- The buffered contribution that a round applies next. -/
def State.bufferedNext (s : State) (k : Contrib) (next : Nat) : Option Contrib :=
  s.contribs.find? (fun x => x.buffered && x.launch == k.launch && x.key == next && s.sameDest k.ctx x.dest k.dest)

/-- Applies a contribution and the buffered ones that follow it, at most `fuel` of them. -/
def State.applyRun : Nat → State → Round → Contrib → State
  | 0, s, _, _ => s
  | fuel + 1, s, r, k =>
    match s.applyContrib k with
    | .error s1 => s1
    | .ok (s1, g, b) =>
      let r1 := { r with next := r.next + 1, applied := r.applied ++ [(k.crc, g)] }
      let s2 := (s1.setRound k r1).answer k g b
      match s2.bufferedNext k r1.next with
      | some y => State.applyRun fuel s2 r1 y
      | none => s2

/-- Entries that a die's buffer holds. -/
def State.bufferedCount (s : State) (die : Nat) : Nat := (s.contribs.filter (fun x => x.buffered && x.die == die)).length

/-- Duplicate(c) (R282): with the reissue mark and an equal CRC it is dropped, a claim then takes the recorded grant;
one whose twin is still buffered waits for it. -/
def State.duplicate (s : State) (r : Round) (k : Contrib) : State :=
  match r.applied[k.key]? with
  | some (crc, g) => if k.reissue && crc == k.crc then s.answer k g 0 else s.orderedKey k
  | none =>
    (match s.contribs.find? (fun x => x.buffered && x.launch == k.launch && x.key == k.key && s.sameDest k.ctx x.dest k.dest) with
     | some x => if k.reissue && x.crc == k.crc then s else s.orderedKey k
     | none => s)

/-- Arrive(c) of R281. -/
def State.arriveAt (s : State) (k : Contrib) : State :=
  let r := (s.roundAt k).getD { launch := k.launch, dest := k.dest, n := k.n, next := 0 }
  if r.n ≤ k.key ∨ k.n ≠ r.n then (s.setRound k r).orderedKey k
  else if k.key < r.next ∨ (s.bufferedNext k k.key).isSome then s.duplicate r k
  else if k.key = r.next then
    State.applyRun (s.contribs.length + 1) ((s.setRound k r)) r k
  else
    let s1 := s.setRound k r
    let set := fun (f : Contrib → Contrib) =>
      { s1 with contribs := s1.contribs.map (fun x => if x.id = k.id then f x else x) }
    if s1.bufferedCount k.die < 256 then set (fun x => { x with buffered := true, retryAt := none })
    else set (fun x => { x with retryAt := some (s.now + 16) })

/-- CONTRIBUTION_ARRIVE: contribution `k` of the list of those on their way reaches its OCU. -/
def execContributionArrive (k : Nat) (s : State) : Result :=
  match s.contribs[k]? with
  | none => .next s
  | some x => if x.buffered || x.bad || x.grant.isSome || x.retryAt.isSome then .next s else .next (s.arriveAt x)

/-- CONTRIBUTION_RETRY: a refused contribution is offered again, no sooner than 16 cycles later. -/
def execContributionRetry (k : Nat) (s : State) : Result :=
  match s.contribs[k]? with
  | none => .next s
  | some x =>
    match x.retryAt with
    | none => .next s
    | some t => if x.buffered || x.grant.isSome || s.now < t then .next s else .next (s.arriveAt { x with retryAt := none })

end Sys2Proof.Machine
end

