-- ==== Sys2Proof/Machine/Atomics.lean ====
section
/-! DEFINITION. The atomics of the control core (R100, R101), at their home's row. -/

namespace Sys2Proof.Machine

/-- What Op answers: the returned value, the new element, and whether it is written (R100, R101). -/
structure AtomicResult where
  ret : Nat
  new : Nat
  wr : Bool
  deriving DecidableEq, Repr, Inhabited

/-- Op(old, a, b) of R100 for an aop, at a width of `n` bits; the bounded claim of R101 for aop 1. -/
def atomicOp (aop n old a b : Nat) : AtomicResult :=
  let m := 2 ^ n
  let sg := fun (x : Nat) => if m / 2 ≤ x then (x : Int) - m else (x : Int)
  match aop with
  | 0 => { ret := old, new := (old + a) % m, wr := true }
  | 1 =>
    let (g, new) := boundedClaim old (a % 2 ^ 32)
    { ret := g, new := new, wr := g != 0xFFFFFFFF || new != old }
  | 3 => { ret := old, new := a, wr := old == b }
  | 4 => { ret := old, new := a, wr := true }
  | 5 => { ret := old, new := if sg a < sg old then a else old, wr := true }
  | 6 => { ret := old, new := if sg old < sg a then a else old, wr := true }
  | 7 => { ret := old, new := min old a, wr := true }
  | 8 => { ret := old, new := max old a, wr := true }
  | 9 => { ret := old, new := Nat.lor old a, wr := true }
  | _ => { ret := old, new := Nat.land old a, wr := true }

/-- The value that an atomic returns when its row is absent, discarded or poisoned. -/
def atomicLost (aop : Nat) : Word := if aop = 1 ∨ aop = 2 then 0xFFFFFFFF else 0

/-- Performs an atomic on the element of a row: the state, and the value returned. -/
def State.atomicAt (s : State) (p : Spot) (aop el n a b : Nat) : State × Word :=
  let w := n / 8
  let r := atomicOp aop n (rowElement (s.rowAt p) w el) (a % 2 ^ n) (b % 2 ^ n)
  let t := s.correct p
  (if r.wr then t.writeRowAt p (placeAt (w * el) r.new) (byteMask (w * el) w) else t, BitVec.ofNat 64 r.ret)

/-- The atomic's result reaches its register. -/
def State.atomicDone (s : State) (d : Reg) (v : Word) (abs pois : Bool) : Result :=
  .next ((s.upd (fun c => (c.wr d v).advancePc 8)).setResid abs pois)

/-- Whether an aop is performed on host memory (R100): `faa`, `cas` and `swp`. -/
def hostAtomic (aop : Nat) : Bool := aop == 0 || aop == 3 || aop == 4

/-- Whether a target lies in host memory: bit 47 of its physical address (R315). -/
def Target.isHost : Target → Bool
  | .spot p => !p.vault && bit p.addr 47
  | _ => false

/-- The claim that an `fao` sends to the OCU of its element's home die (R101, R280). -/
def State.claimOf (s : State) (o : AOp) (loc : Loc) (lost : Option Bool) : Contrib :=
  let b := (s.core.rd o.b).toNat
  { id := 0, die := 0, ctx := s.ctx, core := s.cur, launch := s.core.launch.getD (2 ^ 40),
    dest := { loc := loc, el := some (o.el.toNat % 16) }, key := b % 2 ^ 32, n := b / 2 ^ 32,
    payload := .claim ((s.core.rd o.a).toNat % 2 ^ 32), reply := .reg o.d, pc := s.core.pc,
    reissue := match s.core.task with | some t => t.reissue | none => false, lost := lost }

/-- Whether a claim in the list is the one that this `fao` has sent before a trap took it out of its wait (R101, R113). -/
def Contrib.isOf (k c : Contrib) : Bool :=
  k.ctx == c.ctx && k.core == c.core && !k.left && k.reply == c.reply && k.dest == c.dest && k.key == c.key && k.n == c.n

/-- An `fao` whose claim is on its way (R101): it waits for that claim's grant; one whose claim broke a rule traps
ORDERED_KEY. -/
def State.awaitClaim (s : State) (k : Contrib) : Result :=
  if k.bad then
    ({ s with contribs := s.contribs.filter (fun x => x.id != k.id) }).trap cOrderedKey (BitVec.ofNat 64 (k.key + k.n * 2 ^ 32))
  else s.wait (.grant (2 * k.id))

/-- An `fao`: sends its claim, or finds the one that it has sent, and waits for the grant (R101). -/
def State.claim (s : State) (c : Contrib) : Result :=
  match s.contribs.find? (fun k => k.isOf c) with
  | some k => s.awaitClaim k
  | none => (s.contribute c).wait (.grant (2 * s.nextContrib))

/-- The remote operation that an `fao` of the core has sent to another package and that no stop has moved past. -/
def State.farClaim (s : State) (d : Reg) (va : Nat) (op : RemoteOp) : Option Nat :=
  (s.remotes.find? (fun r => r.ctx == s.ctx && decide (r.kind = .fao s.cur d false) && r.va == va && decide (r.op = op))).map
    (fun r => r.id)

/-- Whether the core waits for the result of an atomic. -/
def Core.onItsWay (c : Core) : Bool :=
  match c.waiting with
  | some (.grant _) => true
  | some .device => true
  | _ => false

/-- An atomic (R100): the seam, the release, the operation at its home, the seam and the acquire. -/
def State.atomic (s : State) (i : Instr) (aop : Nat) (o : AOp) : Result :=
  let n := if o.w = 1 then 64 else 32
  let off := s.core.rowOff o.x o.rof
  if s.core.onItsWay then .next s
  else match s.core.effAddr o.h.toNat off with
  | .trap code v => s.trap code v
  | .ok h =>
    if !h.w then s.trap cPrivilege ((firstWord i).zeroExtend 64)
    else if !s.handleReady h || !s.accessesDone o.scope.toNat then s.wait .memory
    else
      let loc := h.loc (quadOf s.cur) off.toNat
      let t := s.handleTarget s.ctx s.cur h off.toNat
      if s.heldBack s.core loc then s.wait .watermark
      else if t.isHost && !hostAtomic aop then s.trap cPrivilege ((firstWord i).zeroExtend 64)
      else match t with
      | .wait => (s.wantSeg s.ctx loc).wait .memory
      | .remote g =>
        let op : RemoteOp := .atomic (BitVec.ofNat 6 aop) o.el o.w (s.core.rd o.a) (s.core.rd o.b)
        let va := h.base.toNat + off.toNat
        if aop = 2 then
          (match s.farClaim o.d va op, s.contribs.find? (fun k => k.isOf (s.claimOf o (.va va) none)) with
           | some id, _ => s.wait (.grant (2 * id + 1))
           | none, some k => s.awaitClaim k
           | none, none => (s.noteLive.sendRemote g va (.fao s.cur o.d false) op).wait (.grant (2 * s.nextRemote + 1)))
        else (s.noteLive.sendRemote g va (.atomic s.cur o.d (aop == 1)) op).wait .device
      | _ =>
        let s := s.noteLive
        if aop = 2 then
          let lost := match t with | .spot _ => none | .discarded => some false | _ => some true
          s.claim (s.claimOf o loc lost)
        else match t with
        | .spot p =>
          if s.poisoned p then (s.logPoison s.controlReader loc).atomicDone o.d (atomicLost aop) false true
          else
            let (s1, v) := s.atomicAt p aop o.el.toNat n (s.core.rd o.a).toNat (s.core.rd o.b).toNat
            s1.atomicDone o.d v false false
        | .discarded => s.atomicDone o.d (atomicLost aop) false false
        | _ => s.atomicDone o.d (atomicLost aop) true false

def execFaa (o : AOp) (s : State) : Result := s.atomic (.faa o) 0 o
def execFaab (o : AOp) (s : State) : Result := s.atomic (.faab o) 1 o
def execFao (o : AOp) (s : State) : Result := s.atomic (.fao o) 2 o
def execCas (o : AOp) (s : State) : Result := s.atomic (.cas o) 3 o
def execSwp (o : AOp) (s : State) : Result := s.atomic (.swp o) 4 o
def execAmin (o : AOp) (s : State) : Result := s.atomic (.amin o) 5 o
def execAmax (o : AOp) (s : State) : Result := s.atomic (.amax o) 6 o
def execAminn (o : AOp) (s : State) : Result := s.atomic (.aminn o) 7 o
def execAmaxn (o : AOp) (s : State) : Result := s.atomic (.amaxn o) 8 o
def execAor (o : AOp) (s : State) : Result := s.atomic (.aor o) 9 o
def execAand (o : AOp) (s : State) : Result := s.atomic (.aand o) 10 o

end Sys2Proof.Machine
end

