-- ==== Sys2Proof/Machine/Remote.lean ====
section
/-! DEFINITION. Rows of another package that a control-core instruction reads in its step (R347, R358): the instruction
asks for the row, waits, and goes on when the answer has come. -/

namespace Sys2Proof.Machine

/-- How an in-step row read stands: it waits, or it has its row. -/
inductive RowWait where
  | wait (r : Result)
  | row (s : State) (x : RowRead)

/-- Whether the core has asked for a row and has no answer yet. -/
def State.asked (s : State) : Bool :=
  s.remotes.any (fun r => r.ctx == s.ctx && (match r.kind with | .load n k => n == s.cur && k == 0 | _ => false))

/-- Settles a row read: segments in motion wait, a row of another package is asked for and awaited. -/
def State.settleRow (s : State) (va : Nat) (t : State × RowRead) : RowWait :=
  match t with
  | (s1, .wait) => .wait (s1.wait .memory)
  | (s1, .remote g) =>
    (match s1.core.param with
     | some (a, st, row) =>
       if a = va then .row (s1.upd (fun c => { c with param := none })) (answerRow st row)
       else .wait ((s1.upd (fun c => { c with param := none })).wait .memory)
     | none => if s1.asked then .wait (s1.wait .memory) else .wait ((s1.sendRemote g va (.load s1.cur 0) .readRow).wait .memory))
  | (s1, x) => .row s1 x

/-- RESID after a load's row (R88). -/
def State.residOf (s : State) (x : RowRead) : State :=
  match x with
  | .absent => s.setResid true false
  | .bounds => s.setResid true false
  | .poisoned => s.setResid false true
  | _ => s

end Sys2Proof.Machine
end

