-- ==== Sys2Proof/Machine/Walks.lean ====
section
/-! DEFINITION. Walk records (R64) and the positions they yield (R168 to R171). -/

namespace Sys2Proof.Machine

/-- One level of a coordinate program (R170). -/
structure Level where
  n : Nat := 1
  stride : Int := 0
  g : Nat := 1
  gs : Int := 0
  /-- micro-operations seen at this level: ADDS, DIL, GSTEP -/
  adds : Bool := false
  dil : Bool := false
  step : Bool := false
  deriving DecidableEq, Repr, Inhabited

/-- A walk record as read by an engine. -/
structure Walk where
  kind : Nat := 0
  tix : Nat := 0
  iix : Nat := 0
  /-- iterations of levels 0 to 3 -/
  c0 : Nat := 1
  c1 : Nat := 1
  c2 : Nat := 1
  c3 : Nat := 1
  s0 : Int := 0
  s1 : Int := 0
  s2 : Int := 0
  s3 : Int := 0
  boff : Int := 0
  rb : Int := 0
  /-- the coordinate program: levels outermost first, and the EMIT count; none when it is malformed (R171) -/
  prog : Option (List Level × Nat) := none
  deriving DecidableEq, Repr, Inhabited

/-- A two's-complement field. -/
def sbits (x hi lo : Nat) : Int :=
  let v := bits x hi lo
  if bit x hi then (v : Int) - 2 ^ (hi - lo + 1) else v

/-- The slots after the EMIT: all END with zero fields. -/
def allEnd : List Nat → Bool
  | [] => true
  | o :: os => o == 0 && allEnd os

/-- The levels of a coordinate program, innermost first in `acc` (R170, R171). -/
def parseOps : List Nat → List Level → Option (List Level × Nat)
  | [], _ => none
  | o :: os, acc =>
    match o / 2 ^ 20 with
    | 1 =>
      if bits o 19 16 ≠ 0 ∨ 4 ≤ acc.length then none else parseOps os ({ n := bits o 15 0 + 1 } :: acc)
    | 2 =>
      (match acc with
       | l :: ls => if l.adds || l.dil then none else parseOps os ({ l with stride := sbits o 19 0, adds := true } :: ls)
       | [] => none)
    | 3 =>
      (match acc with
       | l :: ls =>
         if l.dil || bits o 19 8 != 0 || bits o 7 0 == 0 then none
         else parseOps os ({ l with stride := l.stride * bits o 7 0, dil := true } :: ls)
       | [] => none)
    | 4 =>
      (match acc with
       | l :: ls =>
         if l.step then none
         else parseOps os ({ l with g := bits o 19 12 + 1, gs := sbits o 11 0, step := true } :: ls)
       | [] => none)
    | 5 => if bits o 19 12 ≠ 0 ∨ allEnd os = false then none else some (acc.reverse, bits o 11 0 + 1)
    | _ => none

/-- Reads a walk record (R64). -/
def walkOf (w : BitVec 256) : Walk :=
  let x := w.toNat
  let k := bits x 255 252
  let ops := (List.range 8).map (fun i => bits x (239 - 24 * i) (216 - 24 * i))
  { kind := k, tix := bits x 251 246, iix := bits x 245 240, c0 := bits x 191 176 + 1, c1 := bits x 207 192 + 1,
    c2 := bits x 223 208 + 1, c3 := bits x 239 224 + 1, s0 := sbits x 79 48, s1 := sbits x 111 80,
    s2 := sbits x 143 112, s3 := sbits x 175 144, boff := sbits x 47 16, rb := sbits x 15 0,
    prog := if k = 2 then parseOps ops [] else none }

/-- Whether a word may start the walk (R171). -/
def Walk.wellFormed (w : Walk) : Bool := w.kind < 2 || (w.kind == 2 && w.prog.isSome)

/-- Whether a word may start the walk of a record: an all-zero record is invalid (R12). -/
def walkUsable (x : BitVec 256) : Bool := x != 0 && (walkOf x).wellFormed

/-- The walk length W (R169, R170). -/
def Walk.len (w : Walk) : Nat :=
  match w.prog with
  | some (ls, e) => ls.foldl (fun n l => n * l.n) e
  | none => w.c0 * w.c1 * w.c2 * w.c3

/-- The contribution of the levels of a program to position n, innermost level first; returns what is left of n. -/
def levelSum : List Level → Nat → Int
  | [], _ => 0
  | l :: ls, n =>
    let i := n % l.n
    (i : Int) * l.stride + (i / l.g : Nat) * l.gs + levelSum ls (n / l.n)

/-- The index element that position n of repetition r needs (R169); none for kinds 0 and 2. -/
def Walk.indexOf (w : Walk) (r n : Nat) : Option Nat :=
  if w.kind = 1 then some (n / w.c0 + r * (w.c1 * w.c2 * w.c3)) else none

/-- The logical linear index of position n of repetition r (R168 to R170); `x` is the index element of a kind 1 walk. -/
def Walk.at_ (w : Walk) (r n : Nat) (x : Int) (rebase : Bool := true) : Int :=
  let start := w.boff + if rebase then 32 * w.rb * r else 0
  match w.prog with
  | some (ls, e) => start + levelSum ls.reverse (n / e) + (n % e : Nat)
  | none =>
    let i0 : Nat := n % w.c0
    let i1 : Nat := n / w.c0 % w.c1
    let i2 : Nat := n / (w.c0 * w.c1) % w.c2
    let i3 : Nat := n / (w.c0 * w.c1 * w.c2)
    let y : Int := if w.kind = 1 then x else i1
    start + i0 * w.s0 + y * w.s1 + i2 * w.s2 + i3 * w.s3

/-- A position of a walk. -/
inductive Pos where
  | at_ (q : Int)
  | skip
  deriving DecidableEq, Repr, Inhabited

/-- The position that an index element gives; −1 marks a skip (R169). -/
def Walk.pos (w : Walk) (r n : Nat) (x : Int) (rebase : Bool := true) : Pos :=
  if w.kind = 1 ∧ x = -1 then .skip else .at_ (w.at_ r n x rebase)

/-- The walk record of a core. -/
def Core.walk (c : Core) (n : Nat) : BitVec 256 := SMap.get 0 c.w n

end Sys2Proof.Machine
end

