-- ==== Sys2Proof/Machine/Table.lean ====
section
/-! DEFINITION. The TSK group: task coordinates (R110, R259), the tensor table and the walk records (R108, R270),
`guard` (R111), `rlay` (R272, R273). -/

namespace Sys2Proof.Machine

/-! ## The task (R110, R259) -/

def execTcrd (d : Reg) (n : BitVec 2) (s : State) : Result :=
  let t := s.core.task.getD { l := 0 }
  match n.toNat with
  | 0 => s.writeReg d (BitVec.ofNat 64 t.x) 4
  | 1 => s.writeReg d (BitVec.ofNat 64 t.y) 4
  | 2 => s.writeReg d (BitVec.ofNat 64 t.z) 4
  | _ => s.illegal (.tcrd d n)

def execCvq (d : Reg) (s : State) : Result :=
  s.writeReg d (match s.core.task with | some t => if t.shadow then 1 else 0 | none => 0) 4

/-! ## The directory (R270) -/

/-- A designator whose quad is named outright, so that it is the same for every core. -/
def fixDes (own des : Nat) : Nat := des / 128 * 128 + desQuad own des

/-- The directory entry that an image gives: its tag, location and CONV. -/
def State.dirOf (s : State) (x : Cap) : DirEntry :=
  let t := tensorOf x.img
  let e : DirEntry := { ctx := s.ctx, key := BitVec.ofNat 32 t.key, tag := BitVec.ofNat 4 t.tag, bk := t.bk, base := 0, des := 0,
                        conv := BitVec.ofNat 64 t.conv }
  match x.backing t.base with
  | some (.va a) => { e with base := BitVec.ofNat 64 a }
  | some (.vault des off) => { e with des := BitVec.ofNat 25 (fixDes (quadOf s.cur) des), base := BitVec.ofNat 64 off }
  | none => e

/-- Registers a descriptor with DIR = 1; none: the key is 0 or the die's directory is full. -/
def State.register (s : State) (x : Cap) : Option State :=
  let t := tensorOf x.img
  if !t.dir then some s
  else if t.key = 0 then none
  else if (s.dirEntry s.ctx t.key).isSome then some s
  else if 256 ≤ (s.dir.filter (fun e => e.key.toNat % 8 == t.key % 8)).length then none
  else some { s with dir := s.dir ++ [s.dirOf x] }

/-- A descriptor enters the table (R63, R108, R270); a failed check traps TENSOR_DESC and changes nothing. -/
def State.putTensor (s : State) (n : Nat) (x : BitVec 512) (bytes : Nat) : Result :=
  if !descriptorOk x then s.trap cTensorDesc (BitVec.ofNat 64 n)
  else match s.register { img := x, hb := s.core.handle (tensorOf x).hb } with
  | none => s.trap cTensorDesc (BitVec.ofNat 64 n)
  | some s1 => .next (s1.upd (fun c => Core.advancePc { c with t := SMap.set 0 c.t n x } bytes))

/-! ## Table transfers (R108) -/

/-- The row of a table load: EffAddr, the earlier loads, the handle, the watermark; then the row. -/
def State.tableRow (s : State) (h : HReg) (a : Reg) : RowWait :=
  let off := s.core.rd a
  match s.core.effAddr h.toNat off with
  | .trap code v => .wait (s.trap code v)
  | .ok x =>
    let loc := x.loc (quadOf s.cur) off.toNat
    if !s.handleReady x || !s.core.lq.isEmpty then .wait (s.wait .memory)
    else if s.heldBack s.core loc then .wait (s.wait .watermark)
    else s.settleRow (x.base.toNat + off.toNat) (s.readTarget s.controlReader loc (s.handleTarget s.ctx s.cur x off.toNat))

def execTdld (a : Reg) (x : Ix6) (h : HReg) (s : State) : Result :=
  match s.tableRow h a with
  | .wait r => r
  | .row s1 r =>
    (s1.residOf r).putTensor x.toNat (BitVec.ofNat 512 (rowElement r.row 64 ((s.core.rd a).toNat % 128 / 64))) 4

def execTdst (a : Reg) (x : Ix6) (h : HReg) (s : State) : Result :=
  let at_ := (s.core.rd a).toNat % 128 / 64 * 64
  s.store (.tdst a x h) h (s.core.rd a) (.row (placeAt at_ (SMap.get 0 s.core.t x.toNat).toNat) (byteMask at_ 64))

def execTdrd (d : Reg) (x : Ix6) (k : BitVec 3) (s : State) : Result :=
  s.writeReg d ((SMap.get 0 s.core.t x.toNat).extractLsb' (64 * k.toNat) 64) 4

/-- The descriptor with word k replaced; the word that holds CONV keeps the device's value. -/
def setWord (x : BitVec 512) (k : Nat) (v : Word) : BitVec 512 :=
  if k = 6 then x
  else x &&& ~~~(BitVec.ofNat 512 ((2 ^ 64 - 1) * 2 ^ (64 * k))) ||| BitVec.ofNat 512 (v.toNat * 2 ^ (64 * k))

def execTdwr (a : Reg) (x : Ix6) (k : BitVec 3) (s : State) : Result :=
  s.putTensor x.toNat (setWord (SMap.get 0 s.core.t x.toNat) k.toNat (s.core.rd a)) 4

def execWkld (a : Reg) (w : BitVec 5) (h : HReg) (s : State) : Result :=
  match s.tableRow h a with
  | .wait r => r
  | .row s1 r =>
    let x := BitVec.ofNat 256 (rowElement r.row 32 ((s.core.rd a).toNat % 128 / 32))
    let s2 := s1.residOf r
    if 3 ≤ bits x.toNat 255 252 then s2.trap cTensorDesc (BitVec.ofNat 64 (64 + w.toNat))
    else .next (s2.upd (fun c => Core.advancePc { c with w := SMap.set 0 c.w w.toNat x } 4))

def execWkst (a : Reg) (w : BitVec 5) (h : HReg) (s : State) : Result :=
  let at_ := (s.core.rd a).toNat % 128 / 32 * 32
  s.store (.wkst a w h) h (s.core.rd a) (.row (placeAt at_ (s.core.walk w.toNat).toNat) (byteMask at_ 32))

/-! ## `guard` (R111) -/

/-- The formats that a `guard` accepts. -/
def guardFormat (f : Fmt) (wide : Bool) : Bool := if wide then f == .i64 else !f.isBlock && f != .i64

/-- `guard`: the element at a logical linear index, as a load. R268 puts an element into one row; where an unaligned BASE
makes it straddle two, a second row that does not answer gives zero bits and sets RESID as an absent one would
(DESIGN CHOICE, log entry 82). -/
def State.guard (s : State) (d a : Reg) (x : Ix6) (wide : Bool) : Result :=
  let q := s.core.rd a
  let cap := s.core.cap x.toNat
  let t := tensorOf cap.img
  let v := s.view s.ctx cap
  let own := quadOf s.cur
  if !t.valid || !guardFormat t.fmt wide || v.tag == 7 || v.tag == 8 then s.trap cTensorDesc q
  else if t.count ≤ q.toNat then s.trap cTensorDesc q
  else match s.locate s.ctx own cap q.toNat false with
  | .desc => s.trap cTensorDesc q
  | .bounds => s.trap cVaultBounds q
  | .wait => s.wait .memory
  | .at_ ps _ =>
    if !s.core.lq.isEmpty then s.wait .memory
    else if ps.any (fun p => s.heldBack s.core p.loc) then s.wait .watermark
    else
      let l := (rowsOf ps).headD (.va 0)
      let va := match l with | .va x => x | .vault _ _ => 0
      match s.settleRow va (s.readLoc s.controlReader l) with
      | .wait r => r
      | .row _ .bounds => s.trap cVaultBounds q
      | .row s1 r =>
        match s1.readRows (fun t l => t.readLoc t.controlReader l) ((rowsOf ps).drop 1) with
        | (s2, .error .wait) => s2.wait .memory
        | (s2, rest) =>
          let rows := rest.toOption.getD []
          let lost := match rest with
            | .ok _ => RowRead.ok 0
            | .error e => e
          let val := match r with
            | .ok row => BitVec.ofNat 64 (gatherBits ((l, row) :: rows) ps)
            | _ => 0
          (((s2.residOf r).residOf lost).noteGuard x.toNat q.toNat wide val).writeReg d val 4

def execGuardW (d a : Reg) (x : Ix6) (s : State) : Result := s.guard d a x false
def execGuardD (d a : Reg) (x : Ix6) (s : State) : Result := s.guard d a x true

/-! ## `rlay` (R272) -/

/-- The tensors that a walk record names. -/
def Core.walkTensors (c : Core) (n : Nat) : List Nat :=
  let w := walkOf (c.walk n)
  if w.kind = 1 then [w.tix, w.iix] else [w.tix]

/-- The tensors that an engine word names: directly, through a walk record, or as a bias (R272). -/
def Core.wordTensors (c : Core) (w : EWord) : List Nat :=
  match decodeEng w with
  | .ok i =>
    (match i with
     | .vld o => c.walkTensors (o.b.toNat % 32)
     | .vst o => c.walkTensors (o.b.toNat % 32)
     | .vgath o => c.walkTensors (o.b.toNat % 32)
     | .vscat o => c.walkTensors (o.b.toNat % 32)
     | .mma _ a b _ _ _ => [a.toNat, b.toNat]
     | .mdrn _ t ep _ _ _ =>
       t.toNat :: (if ep = 2 then [(tensorOf (SMap.get 0 c.t t.toNat)).aux % 64] else [])
     | .mldacc _ t _ _ _ => [t.toNat]
     | .ccpy o => c.walkTensors o.ws.toNat ++ c.walkTensors o.wd.toNat
     | .ccvt o _ => c.walkTensors o.ws.toNat ++ c.walkTensors o.wd.toNat
     | .cxpd o => c.walkTensors o.ws.toNat ++ c.walkTensors o.wd.toNat
     | .cfilb o => c.walkTensors o.ws.toNat ++ c.walkTensors o.wd.toNat
     | .cgath o => c.walkTensors o.ws.toNat ++ c.walkTensors o.wd.toNat
     | .cscat o => c.walkTensors o.ws.toNat ++ c.walkTensors o.wd.toNat
     | .cred o _ => c.walkTensors o.ws.toNat ++ c.walkTensors o.wd.toNat
     | .cmcst o _ => c.walkTensors o.ws.toNat ++ c.walkTensors o.wd.toNat
     | .cdsp o _ => c.walkTensors o.ws.toNat ++ c.walkTensors o.wd.toNat
     | .cscl ws _ _ _ => c.walkTensors ws.toNat
     | .cbindRange _ wd _ => c.walkTensors wd.toNat
     | .czero wd _ _ _ => c.walkTensors wd.toNat
     | _ => [])
  | .error _ => []

/-- Whether an incomplete entry of the core's queues may name a tensor (R272). -/
def Core.mayName (c : Core) (n : Nat) : Bool :=
  [Eng.v, Eng.m, Eng.c].any (fun e => (c.queue e).incomplete.any (fun x =>
    match x.body with
    | .word w => (c.wordTensors w).contains n
    | .stream .. => true
    | .block _ => true
    | _ => false))

/-- Whether a tensor may go into a tag at a new backing (R272). -/
def Tensor.mayMove (t : Tensor) (v : View) (tag : Nat) (new : Backing) : Bool :=
  t.valid && v.back.isSome && tag ≤ 8 && tag != 7 && v.tag != 7 && pairingOk t.fmt v.tag && pairingOk t.fmt tag
    && (v.tag != 5 || (match v.back with | some b => t.bcolOk b | none => false)) && (tag != 5 || t.bcolOk new)
    && t.patches ≤ 2 ^ 20

/-- The conversions in progress of a context. -/
def State.conversions (s : State) (ctx : Nat) : Nat := ((s.context ctx).conv.filter (fun x => x.2.serial != 0)).length

/-- The lowest record that is not in use. -/
def State.freeRecord (s : State) (ctx : Nat) : Nat :=
  ((List.range 16).find? (fun k => (SMap.get {} (s.context ctx).conv k).serial == 0)).getD 0

/-- Replaces TAG, BK, HB, BASE and CONV of an image. -/
def relocate (x : BitVec 512) (tag : Nat) (bk : Bool) (hb : Nat) (base conv : Nat) : BitVec 512 :=
  let n := x.toNat
  let n1 := n - bits n 55 52 * 2 ^ 52 + tag * 2 ^ 52
  let n2 := n1 - bits n 40 36 * 2 ^ 36 + ((if bk then 16 else 0) * 2 ^ 36) 
  let n3 := n2 - bits n 127 64 * 2 ^ 64 + base % 2 ^ 64 * 2 ^ 64
  let n4 := n3 - bits n 447 384 * 2 ^ 384 + conv % 2 ^ 64 * 2 ^ 384
  BitVec.ofNat 512 (n4 + (if bk then hb * 2 ^ 36 else 0))

/-- Builds the conversion-state record and replaces the descriptor, and the directory entry, in one step (R272,
R273). -/
def State.startConversion (s : State) (n : Nat) (cap : Cap) (old : Backing) (v : View) (tag : Nat) (h : Nat) (f : Ix6) : State :=
  let t := tensorOf cap.img
  let x := s.core.handle h
  let own := quadOf s.cur
  let ctx := s.context s.ctx
  let k := s.freeRecord s.ctx
  let serial := ctx.serial + 1
  let conv := k + serial % 2 ^ 60 * 16
  let ndes := fixDes own x.des
  let (obk, odes, obase) := match old with
    | .va a => (false, 0, a)
    | .vault des off => (true, fixDes own des, off)
  let c : Conv := { serial := serial, obase := BitVec.ofNat 64 obase, nbase := if x.vault then 0 else x.base,
                    odes := BitVec.ofNat 25 odes, ndes := if x.vault then BitVec.ofNat 25 ndes else 0, obk := obk, nbk := x.vault,
                    otag := BitVec.ofNat 4 v.tag, ntag := BitVec.ofNat 4 tag, key := BitVec.ofNat 32 (if t.dir then t.key else 0),
                    pcount := t.patches, flag := f, lcore := s.cur, tix := n, image := cap.img,
                    die := if x.vault then desQuad own x.des / 8 else dieOf s.cur, rel := if t.dir then 3 else 0 }
  let s1 := s.setContext s.ctx { ctx with serial := serial, conv := SMap.put ctx.conv k c }
  let img := relocate cap.img tag x.vault h (if x.vault then 0 else x.base.toNat) conv
  let s2 := s1.upd (fun d => { d with t := SMap.set 0 d.t n img })
  if t.dir then
    { s2 with dir := s2.dir.map (fun e =>
        if e.ctx == s.ctx && e.key.toNat == t.key then
          { e with tag := BitVec.ofNat 4 tag, bk := x.vault, base := if x.vault then 0 else x.base,
                   des := if x.vault then BitVec.ofNat 25 ndes else 0, conv := BitVec.ofNat 64 conv }
        else e) }
  else s2

/-- `rlay tN, tag, hB, fS`. -/
def execRlay (g : BitVec 4) (f x : Ix6) (h : HReg) (s : State) : Result :=
  let hb := s.core.handle h.toNat
  let cap := s.core.cap x.toNat
  let t := tensorOf cap.img
  let v := s.view s.ctx cap
  let new := if hb.vault then Backing.vault hb.des 0 else .va hb.base.toNat
  let ext := t.extent g.toNat
  if h = 0 ∨ !hb.valid then s.trap cHandleInvalid (h.zeroExtend 64)
  else match v.back with
  | none => s.trap cTensorDesc (x.zeroExtend 64)
  | some old =>
    if !t.mayMove v g.toNat new then s.trap cTensorDesc (x.zeroExtend 64)
    else if hb.vault ∧ hb.limit < ext then s.trap cVaultBounds (BitVec.ofNat 64 ext)
    else if !t.dir && s.core.mayName x.toNat then s.wait .ring
    else if v.conv.isSome ∨ 16 ≤ s.conversions s.ctx then s.wait .ring
    else if !s.accessesDone (if t.dir then 3 else 0) || !s.handleReady hb then s.wait .memory
    else (s.noteLive.startConversion x.toNat cap old v g.toNat h.toNat f).done 4

end Sys2Proof.Machine
end

