-- ==== Sys2Proof/Machine/Front.lean ====
section
/-! DEFINITION. The front end's reads and writes of a context's memory (R285 to R290), the fields of an operator record
and its validation (R10, R255 to R260, R265, R293 to R295), placement (R10) and the lattice (R257, R258). -/

namespace Sys2Proof.Machine

/-! ## Memory -/

/-- The front end's actor: its records name no logical core (R396). -/
def State.asFront (s : State) (ctx : Nat) : State := { s with ctx := ctx, cur := 0xFF }

/-- Reads the row at a virtual address of a context; an uncorrectable one is logged. -/
def State.feRow (s : State) (ctx va : Nat) : State × RowRead :=
  match s.resolve ctx 256 (.va va) false with
  | (s1, .spot p) =>
    if s1.poisoned p then
      let t := (s1.asFront ctx).logPoison {} (.va va) false
      ({ t with ctx := s1.ctx, cur := s1.cur }, .poisoned)
    else (s1, .ok (s1.rowAt p))
  | (s1, .discarded) => (s1, .discarded)
  | (s1, _) => (s1, .absent)

/-- Reads `k` rows from a row address on as one little-endian number; a discarded row gives zeros. -/
def State.feRows (s : State) (ctx : Nat) : Nat → Nat → State × Except RowRead Nat
  | _, 0 => (s, .ok 0)
  | va, k + 1 =>
    match s.feRow ctx va with
    | (s1, .absent) => (s1, .error .absent)
    | (s1, .poisoned) => (s1, .error .poisoned)
    | (s1, r) =>
      match State.feRows s1 ctx (va + 128) k with
      | (s2, .ok n) => (s2, .ok (r.row.toNat + 2 ^ 1024 * n))
      | bad => bad

/-- Reads n bytes at a virtual address as a little-endian number. -/
def State.feRead (s : State) (ctx va n : Nat) : State × Except RowRead Nat :=
  match s.feRows ctx (rowBase va) ((va % 128 + n + 127) / 128) with
  | (s1, .ok v) => (s1, .ok (v / 2 ^ (8 * (va % 128)) % 2 ^ (8 * n)))
  | bad => bad

/-- Writes n bytes at a virtual address, row by row; absent and discarded rows are dropped, and a row of another package
goes there (R347). -/
def State.feWriteRows (s : State) (ctx : Nat) : Nat → Nat → Nat → Nat → State
  | 0, _, _, _ => s
  | fuel + 1, va, n, v =>
    let k := min n (128 - va % 128)
    let s2 := match s.resolve ctx 256 (.va va) true with
      | (s1, .spot p) => s1.writeRowAt ⟨false, rowBase p.addr⟩ (placeAt (va % 128) (v % 2 ^ (8 * k))) (byteMask (va % 128) k)
      | (s1, .remote g) =>
        ({ ({ s1 with ctx := ctx } : State).sendRemote g (rowBase va) .posted
          (.writeRow (placeAt (va % 128) (v % 2 ^ (8 * k))) (byteMask (va % 128) k)) with ctx := s1.ctx } : State)
      | (s1, _) => s1
    if n ≤ k then s2 else State.feWriteRows s2 ctx fuel (va + k) (n - k) (v / 2 ^ (8 * k))

/-- Writes n bytes at a virtual address. -/
def State.feWrite (s : State) (ctx va n v : Nat) : State := if n = 0 then s else s.feWriteRows ctx (n / 128 + 2) va n v

/-- Whether an address is absent for the front end, for a read or a write (R290); of an address on another package the
answer to the operation says so. -/
def State.feAbsent (s : State) (ctx va : Nat) (wr : Bool) : Bool :=
  match (s.resolve ctx 256 (.va va) wr).2 with
  | .spot _ => false
  | .discarded => false
  | .remote _ => false
  | _ => true

/-! ## Fields of an operator record (R293) -/

/-- P of R257. -/
def orPeriod (r : BitVec 2048) : Nat := 2 ^ (orPer r + 1)

/-- The fields that are zero: the words' unnamed bits and the tail. -/
def recordZeros (r : BitVec 2048) : Bool :=
  r.toNat / 2 ^ 1152 == 0 && orWord r 0x00 % 4 == 0 && orWord r 0x08 % 4 == 0 && orWord r 0x10 / 2 ^ 57 == 0
    && orWord r 0x30 / 2 ^ 25 == 0 && orWord r 0x38 / 2 ^ 19 == 0 && orWord r 0x48 / 2 ^ 59 == 0 && orWord r 0x58 / 2 ^ 7 == 0
    && orWord r 0x68 / 2 ^ 7 == 0 && orWord r 0x70 / 2 ^ 13 == 0 && orWord r 0x78 / 2 ^ 32 == 0 && orWord r 0x80 / 2 ^ 32 == 0

/-- The record's own rules (R8, R10, R256, R257, R260, R293). -/
def recordFieldsOk (r : BitVec 2048) : Bool :=
  recordZeros r && orGmode r ≤ 1 && orPlace r ≤ 2 && orC0 r + orM r ≤ 256
    && (orPfd r == 0 || (16 ≤ orPfd r && orPfd r ≤ 256)) && orNpre r ≤ 96 && orNfp r ≤ 64 && orVseg r ≤ 448
    && (orGmode r == 1 || orGx r * orGy r * orGz r ≤ 2 ^ 32)
    && (orGmode r == 0 || orCntind r || orCount r ≤ 2 ^ 24) && orOutn r ≤ 4
    && (!orCov r || (orGmode r == 0 && orLtype r ≤ 3 && orPer r ≤ 2 && orPx r < orPeriod r && orPy r < orPeriod r
        && (orOutn r == 0 || (1 ≤ orTw r && 1 ≤ orTh r))))

/-- T, when the record gives it (R10, R256). -/
def recordT (r : BitVec 2048) : Nat := if orGmode r = 0 then orGx r * orGy r * orGz r else orCount r % 2 ^ 32

/-! ## Placement (R10) -/

/-- B of the block rule. -/
def blockSize (x : Launch) : Nat := (x.t + orM x.oprec - 1) / orM x.oprec

/-- The i-th index that the placement may give to logical core n: for the explicit rule, every index. -/
def Launch.candidate (x : Launch) (n i : Nat) : Nat :=
  match orPlace x.oprec with
  | 0 => (n - orC0 x.oprec) * blockSize x + i
  | 1 => n - orC0 x.oprec + i * orM x.oprec
  | _ => i

/-- Whether the walker has passed every index that core n may get. -/
def Launch.exhausted (x : Launch) (n : Nat) : Bool :=
  let i := SMap.get 0 x.cursor n
  x.t ≤ x.candidate n i || (orPlace x.oprec == 0 && blockSize x ≤ i)

/-- Whether a stopped queue of a core is released by the device (R117): no task runs and none will see the fault. -/
def State.releasesItself (s : State) (c : Core) : Bool :=
  c.task.isNone && (c.qv.stopped.isSome || c.qm.stopped.isSome || c.qc.stopped.isSome)
    && (c.xhand == 0 || (match s.launchOf c with | some x => x.exhausted s.cur | none => true))

/-! ## The lattice (R257, R258) -/

/-- K: the keep count. -/
def Launch.keep (x : Launch) : Nat := max 1 ((x.code * orPeriod x.oprec ^ 2 + 255) / 256)

/-- The coordinate of an index. -/
def Launch.coord (x : Launch) (l : Nat) : Nat × Nat × Nat :=
  if orGmode x.oprec = 0 then
    (l % orGx x.oprec, l / orGx x.oprec % orGy x.oprec, l / (orGx x.oprec * orGy x.oprec))
  else (l % 65536, l / 65536 % 65536, 0)

/-- The rank of a grid point. -/
def Launch.rank (x : Launch) (px py : Nat) : Nat :=
  let p := orPeriod x.oprec
  let i := (py + orPy x.oprec) % p
  let j := (px + orPx x.oprec) % p
  let w := orPer x.oprec + 1
  match orLtype x.oprec with
  | 1 => bayer w i j
  | 2 => p * bitRev w i + j
  | _ => p * bitRev w j + i

/-- Whether the lattice is in force. -/
def Launch.covers (x : Launch) : Bool := orCov x.oprec && orLtype x.oprec != 0

/-- Whether an index is kept. -/
def Launch.kept? (x : Launch) (l : Nat) : Bool :=
  let (px, py, _) := x.coord l
  !x.covers || x.rank px py < x.keep

/-- Whether an index is a shadow sample. -/
def Launch.shadow? (x : Launch) (l : Nat) : Bool :=
  let p := orPeriod x.oprec
  let (px, py, pz) := x.coord l
  let cx := (orGx x.oprec - 1 + orPx x.oprec) / p + 1
  let cy := (orGy x.oprec - 1 + orPy x.oprec) / p + 1
  let lc := (px + orPx x.oprec) / p + cx * ((py + orPy x.oprec) / p + cy * pz)
  x.covers && 1 ≤ x.shadowS && lc % x.shadowS == 0 && x.keep != p ^ 2 && x.rank px py == x.keep

/-! ## Preloads (R294) -/

/-- A preload entry of 16 bytes: table index, walk record?, argument index, image address. -/
structure Preload where
  tix : Nat
  walk : Bool
  arg : Option Nat
  addr : Nat
  ok : Bool
  deriving DecidableEq, Repr, Inhabited

/-- Reads a preload entry. -/
def preloadOf (v : Nat) (graph : Bool) : Preload :=
  let w := bit v 6
  let a := bit v 7
  { tix := bits v 5 0, walk := w, arg := if a then some (bits v 15 8) else none, addr := bits v 127 64,
    ok := bits v 63 16 == 0 && !(a && (w || !graph)) && !(w && 32 ≤ bits v 5 0) }

/-- Whether an image passes its check (R63, R64, R108). -/
def imageOk (walk : Bool) (v : Nat) : Bool :=
  if walk then bits v 255 252 < 3 else descriptorOk (BitVec.ofNat 512 v)

/-- Reads the preload list's entries and images, in order. -/
def State.readPreloads (s : State) (ctx base : Nat) (graph : Bool) : Nat → Nat →
    State × Option (List (Nat × Bool × Option Nat × BitVec 512))
  | _, 0 => (s, some [])
  | i, k + 1 =>
    match s.feRead ctx (base + 16 * i) 16 with
    | (s1, .error _) => (s1, none)
    | (s1, .ok v) =>
      let p := preloadOf v graph
      if !p.ok then (s1, none)
      else match s1.feRead ctx p.addr (if p.walk then 32 else 64) with
      | (s2, .error _) => (s2, none)
      | (s2, .ok img) =>
        if !imageOk p.walk img then (s2, none)
        else match State.readPreloads s2 ctx base graph (i + 1) k with
        | (s3, some l) => (s3, some ((p.tix, p.walk, p.arg, BitVec.ofNat 512 img) :: l))
        | bad => bad

/-- Registers the keys of a launch's descriptors (R294). -/
def State.registerAll (s : State) : List (Nat × Bool × Option Nat × BitVec 512) → State × Bool
  | [] => (s, true)
  | (_, walk, _, img) :: rest =>
    if walk then State.registerAll s rest
    else match s.register { img := img } with
    | none => (s, false)
    | some t => State.registerAll t rest

/-- Reads the footprint table. -/
def State.readFootprints (s : State) (ctx base : Nat) : Nat → Nat → State × Option (List (BitVec 512))
  | _, 0 => (s, some [])
  | i, k + 1 =>
    match s.feRead ctx (base + 64 * i) 64 with
    | (s1, .error _) => (s1, none)
    | (s1, .ok v) =>
      match State.readFootprints s1 ctx base (i + 1) k with
      | (s2, some l) => (s2, some (BitVec.ofNat 512 v :: l))
      | bad => bad

/-! ## Coverage outputs (R260) -/

/-- The image that a launch loads into a tensor-table index: the last of its entries. -/
def Launch.outImage (x : Launch) (tix : Nat) : Option (BitVec 512) :=
  ((x.preloads.filter (fun p => p.1 == tix && !p.2.1)).getLast?).map (fun p => p.2.2.2)

/-- Whether an output meets R260. -/
def outputOk (tw : Nat) (img : BitVec 512) : Bool :=
  let t := tensorOf img
  t.valid && (t.tag ≤ 4 || t.tag == 6 || t.tag == 8) && t.geometryOk t.tag && t.fmt != .i64 && t.fmt != .aq8
    && (!t.fmt.isBx || tw % 32 == 0) && (!t.bk || t.hb != 0)

/-- The images of a launch's outputs; none when one of them is invalid. -/
def Launch.outputs (x : Launch) : Option (List (BitVec 512)) :=
  let l := (List.range (orOutn x.oprec)).map (fun k => x.outImage (orOut x.oprec k))
  if l.all (fun o => match o with | some img => outputOk (orTw x.oprec) img | none => false) then some (l.filterMap id)
  else none

/-! ## Placement table and count -/

/-- Whether every entry of an explicit placement table is below m, from index i on: `k` entries. -/
def State.tableOk (s : State) (ctx base m : Nat) : Nat → Nat → Bool
  | _, 0 => true
  | i, k + 1 =>
    match (s.feRead ctx (base + i) 1).2 with
    | .ok v => decide (v < m) && State.tableOk s ctx base m (i + 1) k
    | .error _ => false

/-- The rules that depend on T. -/
def State.placementOk (s : State) (x : Launch) : Bool :=
  orPlace x.oprec != 2 || s.tableOk x.ctx (orEtab x.oprec) (orM x.oprec) 0 x.t

/-! ## Validation (R294, R295) -/

/-- Validates a launch whose record has been read: the launch with its lists and images, or none. -/
def State.validate (s : State) (x : Launch) : State × Option Launch :=
  let r := x.oprec
  if x.bad || !recordFieldsOk r then (s, none)
  else
    let y := { x with t := if orCntind r && orGmode r == 1 then 0 else recordT r, code := orCode r,
                      quota := if orQuota r = 0 then x.quota else orQuota r, pfd := if orPfd r = 0 then 64 else orPfd r }
    match s.readPreloads x.ctx (orPre r) x.graph.isSome 0 (orNpre r) with
    | (s1, none) => (s1, none)
    | (s1, some pre) =>
      match s1.readFootprints x.ctx (orFpt r) 0 (orNfp r) with
      | (s2, none) => (s2, none)
      | (s2, some fps) =>
        let z := { y with preloads := pre, footprints := fps }
        if (orCov r && z.outputs.isNone) || (!(orCntind r && orGmode r == 1) && !s2.placementOk z) then (s2, none)
        else
          let (s3, ok) := State.registerAll { s2 with ctx := x.ctx, cur := orC0 r } pre
          ({ s3 with ctx := s.ctx, cur := s.cur }, if ok then some z else none)

end Sys2Proof.Machine
end

