-- ==== Sys2Proof/Machine/Issue.lean ====
section
/-! DEFINITION. How a sequencer moves through its entries (R56, R122, R123, R130, R135): the issue cycle of a word, the
end of a word, waits and faults of words, the position in a stream and in a command block, and what the next turn of a
sequencer comes to. -/

namespace Sys2Proof.Machine

/-! ## The entry at work -/

/-- What the current sequencer performs; the null entry while it performs nothing. -/
def State.act (s : State) : Active := s.q.act.getD { entry := {} }

/-- Replaces what the current sequencer performs. -/
def State.setAct (s : State) (a : Active) : State := s.setQ { s.q with act := some a }

/-- Which entry an effect of the current word belongs to. -/
def Active.tag (a : Active) (e : Eng) : Tag :=
  { eng := e, seq := a.entry.seq, inner := if a.inner.isSome then some a.index else none }

/-- The tag of the word that the current engine performs. -/
def State.tag (s : State) : Tag := s.act.tag s.eng

/-- The issue cycle of the next word (R130): right where the last word left off, or later when it had to wait. -/
def State.issueAt (s : State) : Nat := if s.act.fresh then max s.q.readyAt s.now else s.q.readyAt

/-- The issue cycle of a word whose wait ends now (R130). -/
def State.issueNow (s : State) : Nat := max s.q.readyAt s.now

/-- The position after a stream word (R56): after slot 20, slot 0 of the next row. -/
def Active.nextPos (a : Active) : Active :=
  if 20 ≤ a.slot then { a with row := a.row + 128, slot := 0, held := none } else { a with slot := a.slot + 1 }

/-- The head has issued its last word (R122, R123): the entry goes on in flight; the next inner entry of a block becomes
the block's head, or the block has issued all it holds. -/
def Queue.endEntry (q : Queue) (a : Active) : Queue :=
  match a.inner with
  | none => { q with act := none, flight := q.flight ++ [{ entry := a.entry, doneAt := a.land, chans := a.chans }] }
  | some l =>
    let f : Flight := { entry := a.cur, inner := some a.index, doneAt := a.land, chans := a.chans }
    match l with
    | x :: rest =>
      let b := { Active.start x with entry := a.entry, inner := some rest, index := a.index + 1 }
      { q with act := some { b with land := a.land, chans := a.chans },
               flight := q.flight ++ [f] }
    | [] => { q with act := none,
                     flight := q.flight ++ [f, { entry := a.entry, doneAt := a.land, chans := a.chans }] }

/-- The queue issues in the `n` cycles from `t` on (R134), and the cycles up to and with `last` pass. -/
def State.passTo (s : State) (t n last : Nat) : State :=
  let s0 := s.advance (t - s.now)
  let s1 := s0.setQ (s0.q.recount (min n (s0.now - t)))
  let s2 := s1.advance (t + n - s1.now) (some (coreKey s.ctx s.cur, s.eng))
  let s3 := s2.advance (last + 1 - s2.now)
  s3.setQ { s3.q with lastIssue := max s3.q.lastIssue last }

/-- The word's last repetition has ended in cycle `last`; `land` is the cycle in which its last effect lands. In a
stream the next word follows; another entry has issued all it holds. -/
def State.endWord (s1 : State) (last sc land : Nat) : Result :=
  let q := s1.q
  let a := { s1.act with rep := 0, count := 0, carry := 0, resid := 0, wrec := 0, caps := [], part := none, cmd := none,
                         stuck := [], waitFlag := none,
                         taken := false, fresh := false, land := max s1.act.land land }
  match a.cur.body with
  | .stream .. => .next (s1.setQ { q with readyAt := last + 1 + sc, act := some a.nextPos })
  | _ => .next (s1.setQ { q.endEntry a with readyAt := last + 1 + sc })

/-- A word that issues in the cycles from `t` to `last` and is then done. -/
def State.wordDone (s : State) (t last sc land : Nat) : Result := (s.passTo t (last + 1 - t) last).endWord last sc land

/-- The stream's `send` (R135) ends the entry. -/
def State.streamDone (s : State) (last sc : Nat) : Result :=
  let s1 := s.passTo last 1 last
  let q := s1.q
  let a := { s1.act with rep := 0, waitFlag := none, taken := false, fresh := false, land := max s1.act.land last }
  .next (s1.setQ { q.endEntry a with readyAt := last + 1 + sc })

/-- The word waits: the sequencer stays, and its next turn tries again. -/
def State.wordWait (s : State) (flag : Option Nat := none) : Result :=
  .next (s.setAct { s.act with fresh := true, waitFlag := flag })

/-- The word faults (R115): the queue stops with its entry at the head. -/
def State.wordFault (s : State) (code : BitVec 8) (p : Progress := {}) : Result :=
  .next (s.engineFault s.eng s.act.entry code p)

/-- The progress count of a word none of whose repetitions is performed (R298): repetitions left for a vector word. -/
def noneDone (w : EWord) (e : Eng) : Progress :=
  { count := if e = .v then (w.extractLsb' 26 10).toNat + 1 else 0 }

/-- ILLEGAL_WORD with nothing performed (R61). -/
def State.illegalWord (s : State) (left : Nat) : Result :=
  s.wordFault cIllegalWord { count := if s.eng = .v then left else 0 }

/-- Whether the word at work stands in a stream. -/
def State.inStream (s : State) : Bool :=
  match s.act.cur.body with
  | .stream .. => true
  | _ => false

/-! ## Effects on their way -/

/-- Whether every effect of an entry's words is performed at CORE scope: its commands, loads, matrix rows and
contributions have ended and its fixed-latency effects have landed. -/
def State.effectsDone (s : State) (t : Tag) (land : Nat) : Bool :=
  let c := s.core
  let other := fun (u : Tag) => !(u.eng == t.eng && u.seq == t.seq && u.inner == t.inner)
  decide (land ≤ s.now) && c.copies.all (fun k => other k.tag) && c.vloads.all (fun k => other k.tag)
    && c.mrows.all (fun k => other k.tag)

/-- Whether every effect of the earlier words of the entry at work is performed (R135). -/
def State.earlierDone (s : State) : Bool := s.effectsDone s.tag s.act.land

/-- Lets the cycles pass in which earlier fixed-latency effects land. -/
def State.landEarlier (s : State) : State := s.advance (s.act.land - s.now)

/-- Whether an effect belongs to a word that stands before the end of the entry that `t` names, in the order of its
engine: to an earlier entry, to the entry itself or to an earlier inner entry of its block. -/
def Tag.reaches (t u : Tag) : Bool :=
  u.eng == t.eng && (decide (u.seq < t.seq) || (u.seq == t.seq &&
    (match t.inner, u.inner with
     | some i, some j => decide (j ≤ i)
     | _, _ => true)))

/-- What a release of an engine waits for (R66, R195): every effect of the engine's entries up to the one that `t` names
is performed, remote writes acknowledged. -/
def State.releaseDone (s : State) (t : Tag) : Bool :=
  let c := s.core
  c.copies.all (fun k => !t.reaches k.tag) && c.vloads.all (fun k => !t.reaches k.tag)
    && c.mrows.all (fun k => !t.reaches k.tag)
    && (c.queue t.eng).flight.all (fun f =>
      decide (f.doneAt ≤ s.now) || !t.reaches { eng := t.eng, seq := f.entry.seq, inner := f.inner })

/-- Whether a word that releases may go on: its entry's earlier words and the engine's earlier entries have performed
(R135, R195). -/
def State.earlierReleased (s : State) : Bool := s.earlierDone && s.releaseDone s.tag

/-! ## What the next turn of a sequencer comes to -/

/-- Moves past a word of a skipped loop body (R135): its `sloop` and `sendl` words are counted. -/
def Active.skipWord (a : Active) (w : EWord) : Active :=
  let op := (w.extractLsb' 40 8).toNat
  let skip := if op = 0xC3 then a.skip + 1 else if op = 0xC4 then a.skip - 1 else a.skip
  { a.nextPos with skip := skip }

/-- The engine word at the sequencer's position, when it stands in a held row or in a WORD entry. -/
def Active.word (a : Active) : Option EWord :=
  match a.cur.body with
  | .word w => some w
  | .stream .. =>
    match a.held with
    | some (va, row) => if va = a.row then some (row.extractLsb' (48 * a.slot) 48) else none
    | none => none
  | _ => none

/-- Skipped words of the held row pass, at most one row's worth in a turn. -/
def Active.skipRow : Nat → Active → Active
  | 0, a => a
  | n + 1, a =>
    if a.skip = 0 then a
    else match a.word with
    | some w => Active.skipRow n (a.skipWord w)
    | none => a

/-- What an engine word comes to: its instruction; ILLEGAL_WORD where it does not decode, or where its class is another
engine's. R62 states the latter of a stream's words; of a block's WORD entries it is the model's reading (log
entry 92). -/
def State.wordNext (s : State) (w : EWord) : Instr :=
  if (w.extractLsb' 46 2).toNat ≠ 3 ∧ (w.extractLsb' 46 2).toNat ≠ engNum s.eng then .engineFault s.cur s.eng cIllegalWord
  else match decodeEng w with
  | .ok i => i
  | .error _ => .engineFault s.cur s.eng cIllegalWord

/-- What the sequencer of engine `s.eng` does next: an instruction, or nothing. -/
def State.engineNext (s : State) : Option Instr :=
  let q := s.q
  if q.stopped.isSome then none
  else match q.act with
  | none => if (q.mayBegin s.core).isSome then some (.entryWaitSatisfied s.cur s.eng) else none
  | some a =>
    if a.inner.isSome && !a.innerBegun then some (.entryWaitSatisfied s.cur s.eng)
    else match a.cur.body with
    | .block addr =>
      if 2 ^ 57 ≤ addr.toNat then some (.engineFault s.cur s.eng cIllegalWord) else some (.blockEntry s.cur s.eng)
    | .null => some (.nullEntry s.cur s.eng)
    | .illegal => some (.engineFault s.cur s.eng cIllegalWord)
    | .word w => some (s.wordNext w)
    | .stream row .. =>
      if 2 ^ 57 ≤ row.toNat then some (.engineFault s.cur s.eng cIllegalWord)
      else match a.word with
      | none => some (.programRowFetch s.cur s.eng)
      | some w => some (s.wordNext w)

/-- A turn of the sequencer of engine `e` of core n: skipped words pass first. It runs while its core owns bank F (R206). -/
def State.readyEngine (s : State) (n : Nat) (e : Eng) : Option Instr × State :=
  match s.engineCtx n with
  | none => (none, s)
  | some ctx =>
    let s1 := { s with ctx := ctx, cur := n, eng := e }
    match s1.q.act with
    | some a =>
      if a.skip = 0 then (s1.engineNext, s1)
      else
        let b := Active.skipRow 21 a
        let s2 := s1.setAct b
        if b.skip = 0 ∨ b.word.isNone then (s2.engineNext, s2) else (none, s2)
    | none => (s1.engineNext, s1)

end Sys2Proof.Machine
end

