-- ==== Sys2Proof/Machine/Acc.lean ====
section
/-! DEFINITION. The accumulator banks (R217, R222, R223, R226, R228): which banks a core may name, their history of
states, and what a read of a row returns. -/

namespace Sys2Proof.Machine

/-- A row of a bank: 128 F32 values. -/
abbrev AccRow := BitVec 4096

/-! ## Who may name a bank (R217, R226) -/

/-- The array that a logical core uses: that of its physical quad. -/
def State.arrayOf (s : State) (n : Nat) : Nat := s.physQuad (quadOf n)

/-- The core that bank j is lent to. -/
def Quad.lentTo (q : Quad) (j : Nat) : Option Nat :=
  match SMap.get 0 q.lent j with
  | 0 => none
  | k + 1 => some k

/-- Whether the current core may name bank j. -/
def State.bankUsable (s : State) (j : Nat) : Bool :=
  match (s.quad (s.arrayOf s.cur)).lentTo j with
  | none => s.cur % 4 == j
  | some k => s.cur % 4 == k

/-- The home core of bank j in the current core's quad. -/
def State.homeCore (s : State) (j : Nat) : Nat := 4 * quadOf s.cur + j

/-- The history of bank j. -/
def State.bankHistory (s : State) (j : Nat) : List AccSnap := (s.coreAt s.ctx (s.homeCore j)).acc

/-! ## States of a bank -/

/-- The latest state of a bank in issue order. -/
def lastSnap (h : List AccSnap) : AccSnap := h.getLast?.getD {}

/-- A row of a state. -/
def AccSnap.row (x : AccSnap) (i : Nat) : AccRow := SMap.get 0 x.rows i

/-- An F32 value of a row. -/
def accCell (r : AccRow) (n : Nat) : Nat := r.toNat / 2 ^ (32 * n) % 2 ^ 32

/-- A row of F32 values from its cells. -/
def packCells : List Nat → Nat
  | [] => 0
  | x :: xs => x % 2 ^ 32 + 2 ^ 32 * packCells xs

/-- The first cycle that a word of a queue may still issue in, when it does not wait: its cycle may lie before now. -/
def Queue.nextCycle (q : Queue) (now : Nat) : Nat :=
  match q.act with
  | some a => min (if a.fresh then now else q.readyAt) ((a.part.map (fun p => p.at_)).getD now)
  | none => now

/-- The oldest cycle whose bank states a read may still return: the acceptance cycle of the oldest incomplete entry of the
quad's matrix queues, the next issue cycle of its vector and matrix words, or now. -/
def State.oldestRead (s : State) : Nat :=
  (List.range 4).foldl (fun m k =>
    let c := s.coreAt s.ctx (4 * quadOf s.cur + k)
    min (min (c.qm.incomplete.foldl (fun m x => min m x.at_) m) (c.qv.nextCycle s.now)) (c.qm.nextCycle s.now)) s.now

/-- Drops the states that no read can return any more: all but the last of those before a cycle. -/
def trimBefore (t : Nat) : List AccSnap → List AccSnap
  | a :: b :: rest => if b.at_ ≤ t then trimBefore t (b :: rest) else a :: b :: rest
  | l => l

/-- Adds a state to bank j. A bank write of the queue lands no earlier than the one issued before it (R223). -/
def State.pushSnap (s : State) (j : Nat) (x : AccSnap) : State :=
  let n := s.homeCore j
  let c := s.coreAt s.ctx n
  let h := trimBefore s.oldestRead c.acc
  s.setCoreAt s.ctx n { c with acc := h ++ [{ x with at_ := max x.at_ (lastSnap h).at_ }] }

/-! ## Reading (R228) -/

/-- Whether an incomplete matrix entry that has not issued all its words may write bank j: a WORD entry by its word, a
STREAM or BLOCK entry always, since its words are not decoded yet. -/
def Entry.mayWrite (x : Entry) (j : Nat) : Bool :=
  match x.body with
  | .word w =>
    (match decodeEng w with
     | .ok (.mma b _ _ _ _ _) => b.toNat == j
     | .ok (.mzero b _) => b.toNat == j
     | .ok (.mldacc b _ _ _ _) => b.toNat == j
     | _ => false)
  | .stream .. => true
  | .block _ => true
  | _ => false

/-- The entries of the core's matrix queue that have words to issue and were accepted before a stamp. -/
def Core.matrixAhead (c : Core) (stamp : Nat) : List Entry :=
  ((c.qm.act.map (fun a => a.entry)).toList ++ c.qm.hw ++ c.qm.spill).filter (fun x => x.stamp < stamp)

/-- The acceptance cycles of the earlier-accepted write words that are in flight for a row at cycle t. -/
def State.inFlight (s : State) (j row t stamp : Nat) : List Nat :=
  let c := s.core
  let words := (c.matrixAhead stamp).filterMap (fun x => if x.mayWrite j then some x.at_ else none)
  let snaps := (s.bankHistory j).filterMap (fun x =>
    if t < x.at_ ∧ x.stamp ≤ stamp ∧ x.lo ≤ row ∧ row < x.hi then some x.since else none)
  let loads := c.mrows.filterMap (fun x => if x.bank = j ∧ x.row = row ∧ x.stamp ≤ stamp then some x.since else none)
  words ++ snaps ++ loads

/-- The values that a row held in the cycles from `lo` to `t`, newest last. -/
def heldValues (row lo t : Nat) : List AccSnap → List AccRow
  | a :: b :: rest =>
    if b.at_ ≤ lo then heldValues row lo t (b :: rest)
    else if a.at_ ≤ t then a.row row :: heldValues row lo t (b :: rest) else []
  | [a] => if a.at_ ≤ t then [a.row row] else []
  | [] => []

/-- How a read of a bank row ends. -/
inductive AccRead where
  | value (s : State) (r : AccRow)
  | wait
  | hazard

/-- A read of a row of bank j in cycle t by a word of an entry accepted at `stamp` (R228). -/
def State.accRead (s : State) (j row t stamp : Nat) (schk : Bool) : AccRead :=
  let fl := s.inFlight j row t stamp
  let h := s.bankHistory j
  match fl with
  | [] => .value s (((heldValues row t t ({} :: h)).getLast?).getD 0)
  | a :: rest =>
    if s.core.interlock then .wait
    else if schk then .hazard
    else
      let vs := heldValues row (rest.foldl min a) t ({} :: h)
      .value { s with draws := s.draws + 1 } (vs.getD (Config.accChoice s.draws % vs.length) 0)

end Sys2Proof.Machine
end

