-- ==== Sys2Proof/Machine/Foot.lean ====
section
/-! DEFINITION. Footprints: records (R65), opening and closing phases (R136, R242, R243), the check of an access
(R244), claims of device-memory destinations (R175, R245, R277), the fault record (R246). -/

namespace Sys2Proof.Machine

/-! ## Rows -/

/-- Whether two row ranges meet. -/
def rangesMeet (a b : Nat × Nat) : Bool := a.1 < b.1 + b.2 && b.1 < a.1 + a.2

/-- The first row of `a` that lies in `b`. -/
def firstMeet (a b : Nat × Nat) : Nat := max a.1 b.1

/-- Whether a row lies in some range. -/
def inRanges (l : List (Nat × Nat)) (row : Nat) : Bool := l.any (fun r => r.1 ≤ row && row < r.1 + r.2)

/-- The first row at which some range of `as` meets some range of `bs`. -/
def meetRow (as bs : List (Nat × Nat)) : Option Nat :=
  (as.flatMap (fun a => bs.filterMap (fun b => if rangesMeet a b then some (firstMeet a b) else none))).head?

/-! ## The fault record (R246) -/

/-- The 16 bytes of R246. -/
def footRecord (oseq ocore oeng ofp fp kind quad loc : Nat) : BitVec 128 :=
  BitVec.ofNat 128 (oseq % 2 ^ 32 * 2 ^ 96 + ocore % 256 * 2 ^ 88 + oeng % 4 * 2 ^ 86 + ofp % 64 * 2 ^ 80 + fp % 64 * 2 ^ 74
    + kind % 4 * 2 ^ 72 + quad % 256 * 2 ^ 64 + loc % 2 ^ 64)

/-- A footprint or claim fault: the record in the progress record and in the error log (R246, R397). -/
def State.footFault (s : State) (e : Eng) (x : Entry) (code : BitVec 8) (r : BitVec 128) (p : Progress) : State :=
  let who := match s.launchAt x.launch with | some y => y.number | none => 0
  let s1 := s.logRecord s.ctx 0x03 code.toNat (x.seq % 2 ^ 32) s.cur (engNum e) who x.task [r.toNat]
  s1.engineFault e x code { p with record := r }

/-! ## Access checks (R244) -/

/-- The open phases of an engine of the current core among those of the given footprint indices. -/
def State.phasesOf (s : State) (e : Eng) (fps : List Nat) : List Phase :=
  s.phases.filter (fun p => p.ctx == s.ctx && p.core == s.cur && p.eng == e && fps.contains p.fp)

/-- How far a row lies from a phase: rows to the nearest range in its vault. -/
def Phase.distance (p : Phase) (quad row : Nat) : Nat :=
  if p.quad ≠ quad then 2 ^ 20
  else (p.reads ++ p.writes).foldl (fun d r =>
    min d (if row < r.1 then r.1 - row else if row < r.1 + r.2 then 0 else row + 1 - (r.1 + r.2))) (2 ^ 20)

/-- The phase nearest an access, 0x3F with none open (R246). -/
def nearestPhase (ps : List Phase) (quad row : Nat) : Nat :=
  match ps with
  | [] => 0x3F
  | p :: rest =>
    (rest.foldl (fun (best : Phase) q => if q.distance quad row < best.distance quad row then q else best) p).fp

/-- The record of an access of an engine that no open phase allows; none when it is allowed (R244). -/
def State.violation (s : State) (e : Eng) (fps : List Nat) (det : Bool) (loc : Loc) (wr : Bool) : Option (BitVec 128) :=
  match loc with
  | .va _ => none
  | .vault quad row =>
    let ps := s.phasesOf e fps
    if fps.isEmpty && !det then none
    else if ps.any (fun p => p.quad == quad && (inRanges p.writes row || (!wr && inRanges p.reads row))) then none
    else some (footRecord 0 0xFF 3 0 (nearestPhase ps quad row) 0 quad row)

/-- The first violation among several rows. -/
def State.violations (s : State) (e : Eng) (fps : List Nat) (det : Bool) (wr : Bool) : List Loc → Option (BitVec 128)
  | [] => none
  | l :: ls =>
    match s.violation e fps det l wr with
    | some r => some r
    | none => State.violations s e fps det wr ls

/-! ## Footprint records (R65) -/

/-- One range of a footprint record: vault code, first row, count. -/
structure FootRange where
  vlt : Nat
  first : Nat
  count : Nat
  deriving DecidableEq, Repr, Inhabited

/-- The i-th 64-bit field of a footprint record; ranges 0 to 3 are read, 4 and 5 written. -/
def footRange (x : BitVec 512) (i : Nat) : FootRange :=
  let v := bits x.toNat (64 * i + 63) (64 * i)
  { vlt := bits v 63 57, first := bits v 56 39, count := bits v 38 20 }

/-- Whether a record keeps R65. -/
def footOk (x : BitVec 512) : Bool :=
  x.toNat / 2 ^ 384 == 0 && (List.range 6).all (fun i =>
    let r := footRange x i
    bits x.toNat (64 * i + 19) (64 * i) == 0 && r.vlt ≤ 64 && r.count ≤ 262144 && r.first + r.count ≤ 262144)

/-- The used ranges of a record in one logical quad's vault. -/
def footIn (x : BitVec 512) (own quad : Nat) (is : List Nat) : List (Nat × Nat) :=
  is.filterMap (fun i =>
    let r := footRange x i
    if 0 < r.count ∧ (if r.vlt = 64 then own else r.vlt) = quad then some (r.first, r.count) else none)

/-- The logical quads that a record names. -/
def footQuads (x : BitVec 512) (own : Nat) : List Nat :=
  (List.range 64).filter (fun q => !(footIn x own q [0, 1, 2, 3, 4, 5]).isEmpty)

/-! ## Opening (R242, R243, R277) -/

/-- The vault rows of a conversion's old backing, as its Skiver's read set (R277). -/
def Conv.oldRows (c : Conv) (quad : Nat) : List (Nat × Nat) :=
  if c.serial ≠ 0 ∧ c.obk ∧ c.odes.toNat % 128 = quad then
    let lo := c.obase.toNat / 128
    let hi := (c.obase.toNat + (tensorOf c.image).extent c.otag.toNat + 127) / 128
    [(desFirst c.odes.toNat * 512 + lo, hi - lo)]
  else []

/-- A range of context-view rows as the physical rows that hold it: first row of a piece, its physical row, its count. -/
def State.pieces (s : State) (ctx quad : Nat) (r : Nat × Nat) : List (Nat × Nat × Nat) :=
  if r.2 = 0 then []
  else (List.range ((r.1 + r.2 - 1) / 512 + 1 - r.1 / 512)).filterMap (fun i =>
    let k := r.1 / 512 + i
    let lo := max r.1 (512 * k)
    match s.seg ctx quad k with
    | some g =>
      if g.st = .owned ∨ g.st = .saving then some (lo, g.pseg * 512 + lo % 512, min (r.1 + r.2) (512 * k + 512) - lo) else none
    | none => none)

/-- The first row of phase `n` at which one of its ranges meets one of phase `o`: by context-view row within a context, by
physical row between contexts (R242, R243). -/
def State.phasesMeet (s : State) (n o : Phase) (as bs : List (Nat × Nat)) : Option Nat :=
  if o.ctx = n.ctx then (if o.quad = n.quad then meetRow as bs else none)
  else
    let ps := bs.flatMap (s.pieces o.ctx o.quad)
    ((as.flatMap (s.pieces n.ctx n.quad)).flatMap (fun a => ps.filterMap (fun b =>
      if rangesMeet a.2 b.2 then some (a.1 + (firstMeet a.2 b.2 - a.2.1)) else none))).head?

/-- What a new phase conflicts with in one vault (R243): OSEQ, OCORE, OENG, OFP and the first row. -/
def State.phaseConflict (s : State) (n : Phase) : Option (Nat × Nat × Nat × Nat × Nat) :=
  match s.phases.findSome? (fun o =>
    if o.ctx = n.ctx ∧ o.core = n.core ∧ o.eng = n.eng then none
    else
      let who := fun (r : Nat) => (o.seq, if o.ctx = n.ctx then o.core else 0xFF, engNum o.eng, o.fp, r)
      match s.phasesMeet n o n.writes (o.reads ++ o.writes) with
      | some r => some (who r)
      | none => (s.phasesMeet n o n.reads o.writes).map who) with
  | some c => some c
  | none =>
    ((s.context n.ctx).conv.findSome? (fun c => meetRow n.writes (c.2.oldRows n.quad))).map (fun r => (0, 0xFF, 3, 0, r))

/-- Whether the phase table of an engine in a vault is full: 16 entries, in the physical vault (R242). -/
def State.tableFull (s : State) (quad : Nat) (e : Eng) : Bool :=
  16 ≤ (s.phases.filter (fun p => s.physQuad p.quad == s.physQuad quad && p.eng == e)).length

/-- The phases that opening a record makes, one for each vault. -/
def State.newPhases (s : State) (e : Eng) (k seq : Nat) (x : BitVec 512) : List Phase :=
  let own := quadOf s.cur
  (footQuads x own).map (fun q =>
    { quad := q, ctx := s.ctx, core := s.cur, eng := e, fp := k, seq := seq,
      reads := footIn x own q [0, 1, 2, 3], writes := footIn x own q [4, 5] })

/-- Whether the context holds every segment of a range of rows. -/
def State.holdsRows (s : State) (quad : Nat) (r : Nat × Nat) : Bool :=
  r.2 = 0 || s.holdsSegs s.ctx quad (r.1 / 512) ((r.1 + r.2 - 1) / 512 - r.1 / 512 + 1)

/-- How an `spho` ends. -/
inductive Opening where
  | opened (ps : List Phase)
  | wait
  | fault (code : BitVec 8) (r : BitVec 128)
  deriving DecidableEq, Repr, Inhabited

/-- Opening footprint `k` for the current engine (R136, R242, R243). -/
def State.openPhase (s : State) (k : Nat) : Opening :=
  let q := s.q
  let x := s.act.entry
  let table := match s.launchAt x.launch with | some y => y.footprints | none => []
  match table[k]? with
  | none => .fault cTensorDesc 0
  | some r =>
    if !footOk r then .fault cTensorDesc 0
    else if 4 ≤ q.phases.length || q.phases.contains k then
      .fault cFootprintViolation (footRecord 0 0xFF 3 0 k 0 0xFF 0)
    else
      let ps := s.newPhases s.eng k x.seq r
      if ps.any (fun p => (p.reads ++ p.writes).any (fun g => !s.holdsRows p.quad g)) then .fault cVaultBounds 0
      else if ps.any (fun p => s.tableFull p.quad s.eng) then .wait
      else match ps.findSome? (fun p => (s.phaseConflict p).map (fun c => (p.quad, c))) with
      | some (quad, oseq, ocore, oeng, ofp, row) =>
        .fault cFootprintOverlap (footRecord oseq ocore oeng ofp k 1 quad row)
      | none => .opened ps

/-! ## Claims (R175, R245, R277) -/

/-- The granules of the package's claim tables that a run of device memory meets: the other claim and the first
granule. -/
def State.claimConflict (s : State) (ctx core seq lo hi : Nat) : Option (Nat × Nat × Nat × Nat) :=
  match s.claims.find? (fun c => c.pkg.isNone && c.ctx == ctx && !(c.core == core && c.seq == seq) && c.lo ≤ hi && lo ≤ c.hi) with
  | some c => some (c.seq, c.core, 2, max lo c.lo)
  | none =>
    ((s.context ctx).conv.findSome? (fun c =>
      let k := c.2
      if k.serial ≠ 0 ∧ !k.obk then
        let a := s.normVa k.obase.toNat
        let b := a + (tensorOf k.image).extent k.otag.toNat - 1
        if a / 4096 ≤ hi ∧ lo ≤ b / 4096 then some (max lo (a / 4096)) else none
      else none)).map (fun g => (0, 0xFF, 3, g))

/-- Claims that a die's table holds. -/
def State.claimCount (s : State) (die : Nat) : Nat := (s.claims.filter (fun c => c.pkg.isNone && c.die == die)).length

end Sys2Proof.Machine
end

