-- ==== Sys2Proof/Machine/Far.lean ====
section
/-! DEFINITION. Row reads of an engine word (R153, R176, R177, R347): a row of another package is asked for, awaited and
then held until the word has used it; index elements of kind 1 walks (R169, R176). -/

namespace Sys2Proof.Machine

/-- A row of another package for an engine word. -/
def State.farRow (s : State) (r : Reader) (tag : Tag) (pkg : Nat) (loc : Loc) (va : Nat) : State × RowRead :=
  match s.core.farRows.find? (fun x => x.1 == tag && x.2.1 == rowBase va) with
  | some (_, _, .poisoned, _) => (s.logPoison r loc, .poisoned)
  | some (_, _, st, row) => (s, answerRow st row)
  | none =>
    if s.remotes.any (fun x => x.ctx == s.ctx && decide (x.kind = .engRead s.cur tag) && rowBase x.va == rowBase va) then
      (s, .wait)
    else (s.sendRemote pkg (rowBase va) (.engRead s.cur tag) .readRow, .wait)

/-- The row that holds a location, for an engine word. -/
def engRow (r : Reader) (tag : Tag) : RowReader := fun s loc =>
  match s.readLoc r loc, loc with
  | (s1, .remote g), .va a => s1.farRow r tag g loc a
  | x, _ => x

/-- The word has used the rows of other packages that it held. -/
def Core.dropFar (c : Core) (tag : Tag) : Core := { c with farRows := c.farRows.filter (fun x => x.1 != tag) }

/-- Whether some RANGE channel of the current core holds one of these rows back (R153, R173, R176). -/
def State.anyHeld (s : State) (ls : List Loc) : Bool := ls.any (fun l => s.heldBack s.core l)

/-- How an element is read. -/
inductive ElemRead where
  | bits (v : Nat)
  /-- the row's outcome stands for the element -/
  | lost (x : RowRead)
  | wait
  | fault (code : BitVec 8)
  | foot (record : BitVec 128)
  deriving DecidableEq, Repr, Inhabited

/-- Reads element q of a captured descriptor for an engine: addressed, checked against its open phases (R244), read. -/
def State.readElem (s : State) (rd : RowReader) (e : Eng) (fps : List Nat) (det : Bool) (cap : Cap) (q : Int)
    (held : Bool := false) : State × ElemRead :=
  match s.locate s.ctx (quadOf s.cur) cap q false with
  | .desc => (s, .fault cTensorDesc)
  | .bounds => (s, .fault cVaultBounds)
  | .wait => (s, .wait)
  | .at_ ps check =>
    match s.violations e fps det false check with
    | some r => (s, .foot r)
    | none =>
      if held && s.anyHeld (rowsOf ps) then (s, .wait)
      else match s.readBits rd ps with
      | (s1, .ok v) => (s1, .bits v)
      | (s1, .error .wait) => (s1, .wait)
      | (s1, .error .bounds) => (s1, .fault cVaultBounds)
      | (s1, .error e) => (s1, .lost e)

/-- Whether a descriptor may hold the indices of a kind 1 walk (R169). -/
def indexFmt (cap : Cap) : Bool :=
  let t := tensorOf cap.img
  t.valid && (t.fmtCode == 0x0A || t.fmtCode == 0x0B)

/-- Reads the index element at position k (R169), waiting behind a watermark (R176). -/
def State.readIndex (s : State) (rd : RowReader) (e : Eng) (fps : List Nat) (det : Bool) (cap : Cap) (k : Nat) :
    State × ElemRead :=
  if indexFmt cap then s.readElem rd e fps det cap k true else (s, .fault cTensorDesc)

/-- The index that an element holds. -/
def indexOf (cap : Cap) (v : Nat) : Int := intValue (tensorOf cap.img).fmt v

end Sys2Proof.Machine
end

