-- ==== Sys2Proof/Machine/Lanes.lean ====
section
/-! DEFINITION. The vector register file, its lanes and predicates (R138 to R141), results on their way (R130, R131),
the scoreboard and the hazards of R132, and the form of one repetition. -/

namespace Sys2Proof.Machine

/-! ## Lanes (R138) -/

/-- The lane width of a type. -/
def tyBits (t : BitVec 3) : Nat := 1024 / tyLanes t

/-- The format of a type; the variant chooses E5 for E8 (R57). -/
def tyFmt (t : BitVec 3) (e5 : Bool) : Fmt :=
  match t.toNat with
  | 0 => .f32
  | 1 => .f16
  | 2 => .b16
  | 3 => if e5 then .e5 else .e4
  | 4 => .i32
  | 5 => .i16
  | 6 => .i8
  | _ => .n8

end Sys2Proof.Machine
namespace Sys2Proof
open Machine

/-- The variant bit b[5]. -/
def VWord.variant (o : VWord) : Bool := o.b.getLsbD 5

/-- The format of a word's type, with its variant. -/
def VWord.fmt (o : VWord) : Fmt := tyFmt o.ty o.variant

end Sys2Proof
namespace Sys2Proof.Machine

/-- Lane j of a register. -/
def lane (w : Nat) (x : Row) (j : Nat) : Nat := x.toNat / 2 ^ (w * j) % 2 ^ w

/-- Lanes side by side, lane 0 lowest. -/
def packLanes (w : Nat) : List Nat → Nat
  | [] => 0
  | x :: xs => x % 2 ^ w + 2 ^ w * packLanes w xs

/-- A register from its first n lanes. -/
def packRow (w n : Nat) (f : Nat → Nat) : Row := BitVec.ofNat 1024 (packLanes w ((List.range n).map f))

/-- The bytes of the lanes below n that satisfy a condition. -/
def laneMask (w n : Nat) (p : Nat → Bool) : BitVec 128 :=
  BitVec.ofNat 128 (packLanes (w / 8) ((List.range n).map (fun j => if p j then 2 ^ (w / 8) - 1 else 0)))

/-- The bytes of `x` where the mask is one, of `old` elsewhere. -/
def mergeBytes (mask : BitVec 128) (x old : Row) : Row :=
  let ones : Row := BitVec.ofNat 1024 (expandMask 128 mask.toNat)
  (x &&& ones) ||| (old &&& ~~~ones)

/-! ## The register file in time (R130) -/

/-- A vector register as a repetition of cycle t reads it: the writes that have completed, in the order of their
completion. -/
def Core.vregAt (c : Core) (t k : Nat) : Row :=
  c.pendV.foldl (fun x p => if p.reg = k ∧ p.land ≤ t then mergeBytes p.mask p.data x else x) (SMap.get 0 c.v k)

/-- Adds a write behind those that complete no later. -/
def insertPend (p : PendReg) : List PendReg → List PendReg
  | [] => [p]
  | q :: qs => if p.land < q.land then p :: q :: qs else q :: insertPend p qs

/-- Adds a mask write behind those that complete no later. -/
def insertPendM (p : PendMask) : List PendMask → List PendMask
  | [] => [p]
  | q :: qs => if p.land < q.land then p :: q :: qs else q :: insertPendM p qs

/-- One completed write takes its place in the register file. -/
def Core.settleReg (t : Nat) (c : Core) (p : PendReg) : Core :=
  if p.land ≤ t then { c with v := SMap.set 0 c.v p.reg (mergeBytes p.mask p.data (SMap.get 0 c.v p.reg)) } else c

/-- One completed mask write takes its place. -/
def Core.settleMask (t : Nat) (c : Core) (p : PendMask) : Core := if p.land ≤ t then c.setMask p.reg p.data else c

/-- The writes that have completed by cycle t take their place. -/
def Core.settle (c : Core) (t : Nat) : Core :=
  let c1 := c.pendV.foldl (Core.settleReg t) c
  let c2 := c1.pendM.foldl (Core.settleMask t) c1
  { c2 with pendV := c2.pendV.filter (fun p => t < p.land), pendM := c2.pendM.filter (fun p => t < p.land) }

/-! ## Hazards (R131, R132) -/

/-- What a repetition reads and writes, vector registers and masks, and its result latency (R131). -/
structure Shape where
  reads : List Nat := []
  readM : List Nat := []
  writes : List Nat := []
  writeM : List Nat := []
  lat : Nat
  deriving DecidableEq, Repr, Inhabited

/-- When a repetition issues. -/
inductive IssueAt where
  | at_ (t : Nat)
  | wait
  | hazard
  deriving DecidableEq, Repr, Inhabited

/-- Whether a load of variable latency, or the residency it gathers, still owes the repetition an operand or holds its
destination (R131); the residency that the word itself gathers does not. -/
def Core.owesOperand (c : Core) (own : Tag) (x : Shape) : Bool :=
  c.vloads.any (fun l => (x.reads ++ x.writes).contains l.reg)
    || c.vmasks.any (fun m => (x.readM ++ x.writeM).contains m.md && !(m.more && m.tag == own))

/-- The first cycle from t on in which every pending write to the repetition's operands has completed. -/
def Core.scoreboard (c : Core) (x : Shape) (t : Nat) : Nat :=
  let t1 := c.pendV.foldl (fun t p => if (x.reads ++ x.writes).contains p.reg then max t p.land else t) t
  c.pendM.foldl (fun t p => if (x.readM ++ x.writeM).contains p.reg then max t p.land else t) t1

/-- Whether the repetition, issued in cycle t, reads before a pending write or overtakes one (R132). -/
def Core.undersized (c : Core) (x : Shape) (t : Nat) : Bool :=
  c.pendV.any (fun p => (x.reads.contains p.reg && t < p.land) || (x.writes.contains p.reg && t + x.lat < p.land))
    || c.pendM.any (fun p => (x.readM.contains p.reg && t < p.land) || (x.writeM.contains p.reg && t + x.lat < p.land))

/-- The first cycle from t on in which the repetition may issue after the loads of variable latency that its operands have
waited for: those are interlocked in either mode (R131). -/
def Core.afterLoads (c : Core) (x : Shape) (t : Nat) : Nat :=
  ((x.reads ++ x.writes) ++ (x.readM ++ x.writeM).map (fun k => 64 + k)).foldl (fun t k => max t (SMap.get 0 c.loadedAt k)) t

/-- The issue cycle of a repetition under the region mode (R132). -/
def Core.vIssue (c : Core) (own : Tag) (schk : Bool) (x : Shape) (t : Nat) : IssueAt :=
  if c.owesOperand own x then .wait
  else
  let t := c.afterLoads x t
  if c.interlock then .at_ (c.scoreboard x t)
  else if schk && c.undersized x t then .hazard
  else .at_ t

/-! ## Repetitions (R139, R141, R167) -/

/-- Repetitions of the word that are not performed. -/
def State.left (s : State) (rc : BitVec 10) : Nat := rc.toNat + 1 - s.act.rep

/-- The word stops before the repetition at work (R167): the count left, with the carry above it (log entry 41). -/
def State.repFault (s : State) (rc : BitVec 10) (code : BitVec 8) (record : BitVec 128 := 0) : Result :=
  s.wordFault code { count := s.left rc + s.act.carry * 2 ^ 32, record := record }

/-- A footprint fault before the repetition at work (R167, R246). -/
def State.repFoot (s : State) (rc : BitVec 10) (record : BitVec 128) : Result :=
  .next (s.footFault s.eng s.act.entry cFootprintViolation record { count := s.left rc })

/-- The repetition has issued in the `len` cycles from t on, and its effects land by `land`: the next repetition follows in
the next cycle, or the word is done. -/
def State.endRep (s : State) (t land : Nat) (rc : BitVec 10) (sc : BitVec 4) (len : Nat := 1) : Result :=
  let s1 := s.passTo t len (t + len - 1)
  let a := { s1.act with part := none, stuck := [] }
  if a.rep < rc.toNat then
    .next (s1.setQ { s1.q with readyAt := t + len, act := some { a with rep := a.rep + 1, fresh := false,
                                                                        land := max a.land land } })
  else s1.endWord (t + len - 1) sc.toNat land

/-- What a repetition writes. -/
structure Out where
  regs : List (Nat × Row × BitVec 128) := []
  masks : List (Nat × BitVec 128) := []
  carry : Nat := 0
  deriving DecidableEq, Repr, Inhabited

/-- The results of a repetition, to complete in cycle `land`. -/
def Core.put (c : Core) (land : Nat) (x : Out) : Core :=
  let c1 := x.regs.foldl (fun (c : Core) w =>
    { c with pendV := insertPend { reg := w.1, land := land, data := w.2.1, mask := w.2.2 } c.pendV }) c
  x.masks.foldl (fun (c : Core) w =>
    { c with pendM := insertPendM { reg := w.1, land := land, data := w.2 } c.pendM }) c1

/-- One repetition of a word that reads and writes registers only; `f` computes what it writes from the core as cycle t
finds it. -/
def State.regRep (s : State) (rc : BitVec 10) (sc : BitVec 4) (x : Shape) (f : Core → Nat → Out) : Result :=
  match s.core.vIssue s.tag s.act.entry.schk x s.issueAt with
  | .wait => s.wordWait
  | .hazard => s.repFault rc cStallUndersized
  | .at_ t =>
    let y := f s.core t
    let s1 := s.upd (fun c => (c.settle t).put (t + x.lat) y)
    (s1.setAct { s1.act with carry := y.carry }).endRep t (t + x.lat) rc sc

end Sys2Proof.Machine
namespace Sys2Proof
open Machine

/-- Destination register of the repetition at work (R139). -/
def VWord.rD (o : VWord) (r : Nat) : Nat := o.d.toNat + r * stepD o.step

/-- First source register (R139). -/
def VWord.rA (o : VWord) (r : Nat) : Nat := o.a.toNat + r * stepA o.step

/-- Second source register (R139); an E8 word's b reaches v0 to v31 (R57). -/
def VWord.rB (o : VWord) (r : Nat) : Nat := (if tyE8 o.ty then o.b.toNat % 32 else o.b.toNat) + r * stepB o.step

end Sys2Proof
namespace Sys2Proof.Machine

/-- A predicated operation on lanes (R141): it reads A, then B, then the old D, as many as `n` says. -/
def State.laneOp (s : State) (o : VWord) (n lat : Nat) (f : Nat → Nat → Nat → Nat) : Result :=
  let r := s.act.rep
  let w := tyBits o.ty
  let e := tyLanes o.ty
  s.regRep o.rc o.sc { reads := [o.rA r, o.rB r, o.rD r].take n, readM := [o.mask.toNat], writes := [o.rD r], lat := lat }
    (fun c t =>
      let m := c.maskAt t o.mask.toNat
      let x := c.vregAt t (o.rA r)
      let y := c.vregAt t (o.rB r)
      let z := c.vregAt t (o.rD r)
      { regs := [(o.rD r, packRow w e (fun j => f (lane w x j) (lane w y j) (lane w z j)), laneMask w e m.getLsbD)] })

/-- A condition on lanes that writes a mask (R145, R146); it reads A, then B, as many as `n` says. -/
def State.laneTest (s : State) (o : VWord) (n : Nat) (p : Nat → Nat → Bool) : Result :=
  let r := s.act.rep
  let w := tyBits o.ty
  let e := tyLanes o.ty
  s.regRep o.rc o.sc { reads := [o.rA r, o.rB r].take n, readM := [o.mask.toNat], writeM := [o.d.toNat], lat := 2 }
    (fun c t =>
      let m := c.maskAt t o.mask.toNat
      let x := c.vregAt t (o.rA r)
      let y := c.vregAt t (o.rB r)
      { masks := [(o.d.toNat, BitVec.ofNat 128 (packLanes 1 ((List.range e).map (fun j =>
          if m.getLsbD j && p (lane w x j) (lane w y j) then 1 else 0))))] })

end Sys2Proof.Machine
end

