-- ==== Sys2Proof/Machine/VecMem.lean ====
section
/-! DEFINITION. Vector words that reach tensors, streams and accumulator banks (R152 to R157, R161, R166). -/

namespace Sys2Proof

/-- The formats that a type accepts in a memory word (R152). -/
def VWord.accepts (o : VWord) (code : Nat) : Bool :=
  match o.ty.toNat with
  | 0 => code == 0x00
  | 1 => code == 0x01
  | 2 => code == 0x02
  | 3 => code == (if o.b.getLsbD 5 then 0x04 else 0x03)
  | 4 => code == 0x0A || code == 0x00
  | 5 => code == 0x09 || code == 0x01 || code == 0x02
  | _ => code == 0x08 || code == 0x0C || code == 0x03 || code == 0x04 || code == 0x20

end Sys2Proof

namespace Sys2Proof.Machine

/-- The layout tags ROW, COL, T32, T32S, APAN and CB32, those of R152. -/
def elementTag (tag : Nat) : Bool := tag ≤ 4 || tag == 6

/-- Whether a descriptor serves the repetition at work (R152). -/
def State.vecDescOk (s : State) (o : VWord) (cap : Cap) (wr : Bool) : Bool :=
  let t := tensorOf cap.img
  let v := s.view s.ctx cap
  v.usable t && o.accepts t.fmtCode && elementTag v.tag
    && (!wr || (match v.back with | some (.vault ..) => true | _ => false))

/-- The walk record of the word and the descriptors it names, read as the first repetition issues (R109). -/
def State.readTables (s : State) (o : VWord) : State :=
  if s.act.rep = 0 ∧ s.act.part.isNone then
    let c := s.core
    let w := c.walk (o.b.toNat % 32)
    let x := walkOf w
    s.setAct { s.act with wrec := w, caps := [c.cap x.tix, c.cap x.iix] }
  else s

/-- The descriptor that the word's walk names. -/
def Active.data (a : Active) : Cap := a.caps.headD {}
/-- The index descriptor that the word's walk names. -/
def Active.indexCap (a : Active) : Cap := a.caps.getD 1 {}

/-! ## Groups of a walk (R154) -/

/-- The first position of group r. -/
def Walk.groupStart (w : Walk) (e r : Nat) : Nat := if w.kind < 2 then r * w.c0 else r * e

/-- The length of group r for a word of e lanes; none when there is no such group or it is too long. -/
def Walk.groupLen (w : Walk) (e r : Nat) : Option Nat :=
  if w.kind < 2 then (if r < w.c1 * w.c2 * w.c3 ∧ w.c0 ≤ e then some w.c0 else none)
  else if r * e < w.len then some (min e (w.len - r * e)) else none

/-- The lanes of group r with their positions; `x` is the index element of a kind 1 walk. -/
def Walk.group (w : Walk) (e r : Nat) (x : Int) : List (Nat × Pos) :=
  match w.groupLen e r with
  | some n => (List.range n).map (fun j => (j, w.pos r (w.groupStart e r + j) x))
  | none => []

/-! ## Where lanes lie -/

/-- How the lanes of a repetition resolve (R152, R153). -/
inductive Resolved where
  | ok (l : List LaneLoc)
  /-- a watermark, or the patch of a position, holds the repetition back (R173, R275) -/
  | wait (patch : Option Nat)
  /-- the lanes before the one that faults -/
  | fault (before : List LaneLoc) (code : BitVec 8) (record : BitVec 128)
  deriving DecidableEq, Repr, Inhabited

/-- Whether the context holds every vault row of some bits. -/
def State.rowsHeld (s : State) (ps : List Bits) : Bool :=
  ps.all (fun p => match p.loc with
    | .va _ => true
    | .vault q row => (s.seg s.ctx q (row / 512)).isSome)

/-- Resolves lanes in order: the address, the phase check, and for the vector engine the watermark (R173). -/
def State.resolveLanes (s : State) (e : Eng) (cap : Cap) (wr : Bool) : List LaneLoc → List (Nat × Pos) → Resolved
  | acc, [] => .ok acc
  | acc, (_, .skip) :: rest => State.resolveLanes s e cap wr acc rest
  | acc, (j, .at_ q) :: rest =>
    match s.locate s.ctx (quadOf s.cur) cap q wr with
    | .desc => .fault acc cTensorDesc 0
    | .bounds => .fault acc cVaultBounds 0
    | .wait => .wait (some q.toNat)
    | .at_ ps check =>
      match s.violations e (s.core.queue e).phases (s.entryDet s.act.entry) wr check with
      | some r => .fault acc cFootprintViolation r
      | none =>
        if !s.rowsHeld ps then .fault acc cVaultBounds 0
        else if e == .v && s.anyHeld (rowsOf ps) then .wait none
        else State.resolveLanes s e cap wr (acc ++ [{ lane := j, parts := ps }]) rest

/-- The rows that lanes lie in, in the order of their first lane. -/
def laneRows (ls : List LaneLoc) : List Loc := ls.foldl (fun l x => x.parts.foldl (fun l p => insertLoc l p.loc) l) []

/-- The repetition waits for a watermark or for a patch; a write demands its patch (R173, R274, R275). -/
def State.laneWait (s : State) (cap : Cap) (wr : Bool) : Option Nat → Result
  | none => s.wordWait
  | some q =>
    let s1 := if wr then s.demand s.ctx cap q else s
    (s1.setAct { s1.act with stuck := (s.redirected s.ctx cap [(q : Int)]).foldl insertNat s1.act.stuck }).wordWait

/-- The conversions that the repetition at work goes through: those of the positions that it reads, and those on whose
patches it has waited (R276). -/
def State.throughConv (s : State) (cap : Cap) (ps : List (Nat × Pos)) : List Nat :=
  (s.redirected s.ctx cap (ps.filterMap (fun x => match x.2 with | .at_ q => some q | .skip => none))).foldl insertNat s.act.stuck

/-- A fault of the repetition at work. -/
def State.laneFault (s : State) (rc : BitVec 10) (code : BitVec 8) (record : BitVec 128) : Result :=
  if code = cFootprintViolation then s.repFoot rc record else s.repFault rc code record

/-! ## Loads (R153, R154, R156) -/

/-- Reads rows, each once. -/
def State.readAll (s : State) (rd : RowReader) : List Loc → State × List (Loc × RowRead)
  | [] => (s, [])
  | l :: ls =>
    let (s1, x) := rd s l
    let (s2, rest) := State.readAll s1 rd ls
    (s2, (l, x) :: rest)

/-- The element of a lane; none unless every row of it was delivered. -/
def LaneLoc.value (x : LaneLoc) (rows : List (Loc × RowRead)) : Option Nat :=
  if x.parts.all (fun p => rows.any (fun r => r.1 == p.loc && r.2.isOk)) then
    some (gatherBits (rows.map (fun r => (r.1, r.2.row))) x.parts)
  else none

/-- Register data from lanes; the others are zero. -/
def lanesRow (w : Nat) (ls : List LaneLoc) (rows : List (Loc × RowRead)) : Row :=
  BitVec.ofNat 1024 (ls.foldl (fun n x => n + (x.value rows).getD 0 % 2 ^ w * 2 ^ (w * x.lane)) 0)

/-- The slots of lanes that satisfy a condition. -/
def laneSlots (ls : List LaneLoc) (p : LaneLoc → Bool) : BitVec 128 :=
  BitVec.ofNat 128 ((ls.filter p).foldl (fun n x => n + 2 ^ x.lane) 0)

/-- The slots of the lanes that held a loaded, resident element. -/
def residentSlots (ls : List LaneLoc) (rows : List (Loc × RowRead)) : BitVec 128 :=
  laneSlots ls (fun x => (x.value rows).isSome)

/-- The residency that the word at work gathers across loads on their way. -/
def State.ownMask (s : State) : Option VMask := s.core.vmasks.find? (fun m => m.more && m.tag == s.tag)

/-- Changes a residency record. -/
def Core.updMask (c : Core) (id : Nat) (f : VMask → VMask) : Core :=
  { c with vmasks := c.vmasks.map (fun m => if m.id = id then f m else m) }

/-- A residency record with nothing left writes its mask (R154). -/
def Core.closeMask (c : Core) (id land : Nat) : Core :=
  match c.vmasks.find? (fun m => m.id == id) with
  | some m =>
    if m.left = 0 ∧ m.more = false then
      { (c.put land { masks := [(m.md, m.acc)] }) with vmasks := c.vmasks.filter (fun m => m.id != id) }
    else c
  | none => c

/-- The outcome of a row as a load keeps it: none where it delivers nothing. -/
def RowRead.kept (x : RowRead) : Option Row := if x.isOk then some x.row else none

/-- The rows that a load has kept, as they were read. -/
def keptRows (l : List (Loc × Option Row)) : List (Loc × RowRead) :=
  l.map (fun x => (x.1, match x.2 with | some r => .ok r | none => .absent))

/-- What a turn comes to that reads or writes one row of the repetition at work: rows are left, or it was the last. -/
inductive PartTurn where
  | more (r : Result)
  | all (s : State) (p : RepPart)

/-- Keeps the repetition at work, which goes on where it stands. -/
def State.keepPart (s : State) (p : RepPart) : State := s.setAct { s.act with part := some p, fresh := false }

/-- The repetition at work reads its next row, each row an access of its own (R192), in the order of their first lane
(log entry 105); when the row does not answer, the repetition waits with those it has. -/
def State.partRead (s : State) (rd : RowReader) (p : RepPart) : PartTurn :=
  match p.todo with
  | [] => .all s p
  | l :: rest =>
    match rd s l with
    | (s1, .wait) => .more (s1.keepPart p).wordWait
    | (s1, x) =>
      let q := { p with todo := rest, got := p.got ++ [(l, x.kept)] }
      if rest.isEmpty then .all s1 q else .more (.next (s1.keepPart q))

/-- The issue cycle of a repetition whose rows have been read: later than its first when it had to wait. -/
def State.partAt (s : State) (p : RepPart) : Nat := max p.at_ s.issueAt

/-- Whether one of these rows is still to be read by one of some loads. -/
def owesRow (l : List VLoad) (rows : List Loc) : Bool :=
  l.any (fun x => (laneRows x.lanes).any (fun y => rows.contains y && !x.got.any (fun z => z.1 == y)))

/-- Whether a load of the core on its way has not read one of these rows yet (R157). -/
def State.loadPending (s : State) (ls : List Loc) : Bool := owesRow s.core.vloads ls

/-- Puts a load of variable latency on its way (R131); a word with a residency mask keeps a record of it. -/
def State.pushLoad (s : State) (o : VWord) (reg n : Nat) (ls : List LaneLoc) (conv : List Nat) : State :=
  let w := tyBits o.ty
  let made := if o.mask.toNat = 0 then s
    else match s.ownMask with
    | some _ => s
    | none => s.upd (fun c => { c with vmasks := c.vmasks ++ [
        { id := c.vmasks.foldl (fun k m => max k m.id) 0 + 1, tag := s.tag, md := o.mask.toNat,
          acc := BitVec.allOnes 128, left := 0, more := true }] })
  let id := match made.ownMask with | some m => m.id | none => 0
  made.upd (fun c => { c.updMask id (fun m => { m with left := m.left + 1 }) with
    vloads := c.vloads ++ [{ tag := s.tag, reg := reg, width := w, lanes := ls, mask := laneMask w n (fun _ => true),
                             group := id, slots := laneSlots ls (fun _ => true), conv := conv }] })

/-- The residency of the repetitions performed so far: all ones before the first. -/
def Active.residSoFar (a : Active) : BitVec 128 := if a.rep = 0 then BitVec.allOnes 128 else a.resid

/-- Takes the residency of a repetition into the word's; after the last one the mask is written, at once or when the
loads on their way have returned (R154). -/
def State.gatherResid (s : State) (o : VWord) (land : Nat) (slots : BitVec 128) : State :=
  let x := s.act.residSoFar &&& slots
  let s1 := s.setAct { s.act with resid := x }
  if s.act.rep < o.rc.toNat ∨ o.mask.toNat = 0 then s1
  else match s.ownMask with
  | none => s1.upd (fun c => c.put land { masks := [(o.mask.toNat, x)] })
  | some m => s1.upd (fun c => (c.updMask m.id (fun m => { m with acc := m.acc &&& x, more := false })).closeMask m.id land)

/-- Whether rows all lie in the core's own vault. -/
def State.ownRows (s : State) (ls : List Loc) : Bool :=
  ls.all (fun l => match l with | .vault q _ => q == quadOf s.cur | .va _ => false)

/-- The repetition of a load from the core's own vault has its rows: the data land 12 cycles after its issue (R131). -/
def State.ownLoaded (s : State) (o : VWord) (n t : Nat) (ls : List LaneLoc) (got : List (Loc × RowRead)) : Result :=
  let w := tyBits o.ty
  let s1 := s.upd (fun c => (c.settle t).put (t + 12)
    { regs := [(o.rD s.act.rep, lanesRow w ls got, laneMask w n (fun _ => true))] })
  (s1.gatherResid o (t + 12) (residentSlots ls got)).endRep t (t + 12) o.rc o.sc

/-- A repetition of a load from the core's own vault reads its next row. -/
def State.ownLoad (s : State) (o : VWord) (n : Nat) (p : RepPart) : Result :=
  match s.partRead (engRow (s.readerOf s.act.entry) s.tag) p with
  | .more r => r
  | .all s1 q => s1.ownLoaded o n (s1.partAt q) q.lanes (keptRows q.got)

/-- A repetition of a load in cycle t whose lanes are resolved; `n` lanes of D are written. -/
def State.loadLanes (s : State) (o : VWord) (n t : Nat) (ls : List LaneLoc) (conv : List Nat) : Result :=
  let rows := laneRows ls
  if s.ownRows rows && s.loadPending rows then s.wordWait
  else
    let s := s.noteGroup (some .v) rows
    if s.ownRows rows then s.ownLoad o n { at_ := t, lanes := ls, todo := rows, conv := conv }
    else
      let s1 := (s.upd (fun c => c.settle t)).pushLoad o (o.rD s.act.rep) n ls conv
      (s1.gatherResid o t (laneSlots ls (fun _ => true))).endRep t t o.rc o.sc

/-- One repetition of a load: the hazards of R132, then the lanes that `lanes` gives in the issue cycle. -/
def State.loadRep (s : State) (o : VWord) (n : Nat) (reads : List Nat) (lanes : Core → Nat → List (Nat × Pos)) : Result :=
  let last := s.act.rep = o.rc.toNat
  let x : Shape := { reads := reads, writes := [o.rD s.act.rep], lat := 12,
                     writeM := if last ∧ o.mask.toNat ≠ 0 then [o.mask.toNat] else [] }
  match s.core.vIssue s.tag s.act.entry.schk x s.issueAt with
  | .wait => s.wordWait
  | .hazard => s.repFault o.rc cStallUndersized
  | .at_ t =>
    match s.resolveLanes .v s.act.data false [] (lanes s.core t) with
    | .wait q => s.laneWait s.act.data false q
    | .fault _ code r => s.laneFault o.rc code r
    | .ok ls => s.loadLanes o n t ls (s.throughConv s.act.data (lanes s.core t))

/-- What the index element of a group comes to: the index, a row that delivers nothing, a wait or a fault. -/
inductive GroupIndex where
  | at_ (s : State) (x : Int)
  | lost (s : State)
  | stop (r : Result)

/-- The index element of the group at work (R154, R169, R176). Groups run through the sequence of repetition 0: R154 names
the rebase of R168 as what a repetition adds, and the term of R169 that counts repetitions stays 0 (log entry 87). -/
def State.groupIndex (s : State) (o : VWord) (w : Walk) : GroupIndex :=
  match w.indexOf 0 (w.groupStart (tyLanes o.ty) s.act.rep) with
  | none => .at_ s 0
  | some k =>
    match s.readIndex (engRow (s.readerOf s.act.entry) s.tag) .v s.q.phases (s.entryDet s.act.entry) s.act.indexCap k with
    | (s1, .bits v) => .at_ s1 (indexOf s1.act.indexCap v)
    | (s1, .lost _) => .lost s1
    | (s1, .wait) => .stop s1.wordWait
    | (s1, .fault code) => .stop (s1.repFault o.rc code)
    | (s1, .foot r) => .stop (s1.repFoot o.rc r)

def execVld (o : VWord) (s : State) : Result :=
  let s := s.readTables o
  let w := walkOf s.act.wrec
  let e := tyLanes o.ty
  match s.act.part with
  | some p => s.ownLoad o e p
  | none =>
  if !walkUsable s.act.wrec then s.repFault o.rc cTensorDesc
  else if !s.vecDescOk o s.act.data false then s.repFault o.rc cTensorDesc
  else if (w.groupLen e s.act.rep).isNone then s.repFault o.rc cTensorDesc
  else match s.groupIndex o w with
  | .stop r => r
  | .lost s1 => s1.loadRep o e [] (fun _ _ => [])
  | .at_ s1 x => s1.loadRep o e [] (fun _ _ => w.group e s1.act.rep x)

/-- The positions of a gather or scatter (R156): an index of −1 marks a skip. -/
def Walk.indexed (w : Walk) (r : Nat) (idx : Row) : List (Nat × Pos) :=
  (List.range 32).map (fun j =>
    let i := intValue .i32 (lane 32 idx j)
    (j, if i = -1 then .skip else .at_ (w.boff + w.s0 * r + i)))

def execVgath (o : VWord) (s : State) : Result :=
  let s := s.readTables o
  let w := walkOf s.act.wrec
  let r := s.act.rep
  match s.act.part with
  | some p => s.ownLoad o 32 p
  | none =>
  if !walkUsable s.act.wrec || w.kind != 0 then s.repFault o.rc cTensorDesc
  else if !s.vecDescOk o s.act.data false then s.repFault o.rc cTensorDesc
  else s.loadRep o 32 [o.rA r] (fun c t => w.indexed r (c.vregAt t (o.rA r)))

/-- The entry of a queue with a sequence number. -/
def Queue.entryOf (q : Queue) (seq : Nat) : Entry := (q.incomplete.find? (fun x => x.seq == seq)).getD {}

/-- The rows that the loads of a core still have to read, as the load's place in the list and the row; a load without a
row has a place of its own. -/
def Core.owedRows (c : Core) : List (Nat × Option Loc) :=
  ((List.range c.vloads.length).zip c.vloads).flatMap (fun x =>
    match (laneRows x.2.lanes).filter (fun l => !x.2.got.any (fun y => y.1 == l)) with
    | [] => [(x.1, none)]
    | l => l.map (fun y => (x.1, some y)))

/-- A vector load of the current core has read its rows (R131, R153, R154): its register and its residency land now. -/
def State.landLoad (s : State) (k : Nat) (x : VLoad) : State :=
  let got := keptRows x.got
  s.upd (fun c =>
    let d := { c with vloads := c.vloads.eraseIdx k, loadedAt := SMap.set 0 c.loadedAt x.reg s.now }
    let e := d.put s.now { regs := [(x.reg, lanesRow x.width x.lanes got, x.mask)] }
    ((e.updMask x.group (fun m => { m with acc := m.acc &&& residentSlots x.lanes got, left := m.left - 1 })).closeMask
      x.group s.now).dropFar x.tag)

/-- A load of the current core reads one of its rows, each an access of its own (R192); it lands with the last. Loads that
name one row read it in issue order (R157, R193). -/
def State.loadRow (s : State) (k : Nat) (x : VLoad) (row : Option Loc) : State :=
  match row with
  | none => s.landLoad k x
  | some l =>
    if owesRow (s.core.vloads.take k) [l] then s
    else match engRow ({ s with eng := .v }.readerOf (s.core.qv.entryOf x.tag.seq)) x.tag s l with
    | (s1, .wait) => s1
    | (s1, r) =>
      let y := { x with got := x.got ++ [(l, r.kept)] }
      if (laneRows y.lanes).all (fun m => y.got.any (fun z => z.1 == m)) then s1.landLoad k y
      else s1.upd (fun c => { c with vloads := c.vloads.set k y })

/-- VECTOR_LOAD_RETURN: row k of those that the loads of core n have still to read returns (R131, R153, R154). -/
def execVectorLoadReturn (n k : Nat) (s : State) : Result :=
  match s.actor n with
  | none => .next s
  | some s =>
    match s.core.owedRows[k]? with
    | some (i, row) => (match s.core.vloads[i]? with | some x => .next (s.loadRow i x row) | none => .next s)
    | none => .next s

/-! ## Stores (R155, R156) -/

/-- The merged bytes of one row: data and the bytes written; a later lane stands over an earlier one. `val` gives a
lane's element. -/
def mergeLanes (val : Nat → Nat) (l : Loc) (ls : List LaneLoc) : Row × BitVec 128 :=
  let (d, m) := ls.foldl (fun (acc : Nat × Nat) x =>
    let (data, bytes, ones) := scatterBits l x.parts (val x.lane)
    (Nat.lor data (Nat.land acc.1 (2 ^ 1024 - 1 - ones)), Nat.lor acc.2 bytes)) (0, 0)
  (BitVec.ofNat 1024 d, BitVec.ofNat 128 m)

/-- The row writes of lanes, in the order of their first lane (R155). -/
def laneWrites (val : Nat → Nat) (ls : List LaneLoc) : List (Loc × Row × BitVec 128) :=
  (laneRows ls).map (fun l => (l, mergeLanes val l ls))

/-- Whether some segment of these rows is in motion or saved. -/
def State.rowsMoving (s : State) (ls : List Loc) : Bool :=
  ls.any (fun l => match l with
    | .vault q row => (match s.vaultRow s.ctx q row with | .wait _ => true | _ => false)
    | .va _ => false)

/-- The repetition of a store has written its rows: it is done, or its fault follows. -/
def State.stored (s : State) (o : VWord) (t : Nat) (fault : Option (BitVec 8 × BitVec 128)) : Result :=
  match fault with
  | some (code, r) => s.laneFault o.rc code r
  | none => (s.upd (fun c => (c.settle t).dropFar s.tag)).endRep t t o.rc o.sc

/-- The repetition at work writes its next row, each row an access of its own (R155, R192, R233); it waits while the row's
segment is in motion, and a vector store behind the core's pending loads of the row (R157). -/
def State.partWrite (s : State) (p : RepPart) : PartTurn :=
  match p.put with
  | [] => .all s p
  | (l, d, m) :: rest =>
    if s.rowsMoving [l] || (s.eng == .v && s.loadPending [l]) then .more ((s.wantSeg s.ctx l).keepPart p).wordWait
    else
      let s1 := (s.writeLoc l d m).1
      let q := { p with put := rest }
      if rest.isEmpty then .all s1 q else .more (.next (s1.keepPart q))

/-- A repetition of a store writes its next row. -/
def State.storeNext (s : State) (o : VWord) (p : RepPart) : Result :=
  match s.partWrite p with
  | .more r => r
  | .all s1 q => s1.stored o (s1.partAt q) q.fault

/-- One repetition of a store of the active lanes of `lanes` below n; lanes before a faulting one are stored. -/
def State.storeRep (s : State) (o : VWord) (n : Nat) (reads : List Nat) (on : Bool)
    (lanes : Core → Nat → List (Nat × Pos)) : Result :=
  let d := o.rD s.act.rep
  match s.core.vIssue s.tag s.act.entry.schk { reads := d :: reads, readM := [o.mask.toNat], lat := 0 } s.issueAt with
  | .wait => s.wordWait
  | .hazard => s.repFault o.rc cStallUndersized
  | .at_ t =>
    let m := s.core.maskAt t o.mask.toNat
    let src := s.core.vregAt t d
    let act := (lanes s.core t).filter (fun x => on && decide (x.1 < n) && m.getLsbD x.1)
    let put := fun (ls : List LaneLoc) (fault : Option (BitVec 8 × BitVec 128)) =>
      (s.noteGroup (some .v) (laneRows ls)).storeNext o
        { at_ := t, conv := s.act.stuck, put := laneWrites (lane (tyBits o.ty) src) ls, fault := fault }
    match s.resolveLanes .v s.act.data true [] act with
    | .wait q => s.laneWait s.act.data true q
    | .fault ls code r => put ls (some (code, r))
    | .ok ls => put ls none

def execVst (o : VWord) (s : State) : Result :=
  let s := s.readTables o
  let w := walkOf s.act.wrec
  let e := tyLanes o.ty
  let r := s.act.rep
  match s.act.part with
  | some p => s.storeNext o p
  | none =>
  if !walkUsable s.act.wrec then s.repFault o.rc cTensorDesc
  else if !s.vecDescOk o s.act.data true then s.repFault o.rc cTensorDesc
  else if (w.groupLen e r).isNone then s.repFault o.rc cTensorDesc
  else match s.groupIndex o w with
  | .stop r => r
  | .lost s1 => s1.storeRep o e [] false (fun _ _ => [])
  | .at_ s1 x => s1.storeRep o e [] (s1.act.entry.rowmask.getLsbD (r % 32)) (fun _ _ => w.group e r x)

def execVscat (o : VWord) (s : State) : Result :=
  let s := s.readTables o
  let w := walkOf s.act.wrec
  let r := s.act.rep
  match s.act.part with
  | some p => s.storeNext o p
  | none =>
  if !walkUsable s.act.wrec || w.kind != 0 then s.repFault o.rc cTensorDesc
  else if !s.vecDescOk o s.act.data true then s.repFault o.rc cTensorDesc
  else s.storeRep o 32 [o.rA r] true (fun c t => w.indexed r (c.vregAt t (o.rA r)))

/-! ## Streams (R161) -/

/-- Whether a channel is in STREAM mode with 128-byte elements. -/
def Channel.rowStream (x : Channel) : Bool := x.mode == .stream && x.esz == 2

def execVpop (o : VWord) (s : State) : Result :=
  let k := o.a.toNat
  let d := o.rD s.act.rep
  match s.core.vIssue s.tag s.act.entry.schk { readM := [o.mask.toNat], writes := [d], lat := 0 } s.issueAt with
  | .wait => s.wordWait
  | .hazard => s.repFault o.rc cStallUndersized
  | .at_ t =>
    let x := s.core.channel k
    if !x.rowStream then s.repFault o.rc cIllegalWord
    else match x.fifo with
    | [] => s.wordWait
    | e :: rest =>
      let m := s.core.maskAt t o.mask.toNat
      (s.upd (fun c => ((c.setChannel k { x with fifo := rest }).settle t).put t { regs := [(d, e, m)] })).endRep t t o.rc o.sc

/-- A pushed element enters before the elements that a copy fill brings in the same cycle (R161). -/
def Channel.pushAt (x : Channel) (t : Nat) (e : Row) : Channel :=
  let n := if t ≤ x.late.1 then min x.late.2 x.fifo.length else 0
  { x with fifo := x.fifo.take (x.fifo.length - n) ++ [e] ++ x.fifo.drop (x.fifo.length - n),
           late := if t ≤ x.late.1 then x.late else (0, 0) }

def execVpush (o : VWord) (s : State) : Result :=
  let k := o.d.toNat
  let a := o.rA s.act.rep
  match s.core.vIssue s.tag s.act.entry.schk { reads := [a], lat := 0 } s.issueAt with
  | .wait => s.wordWait
  | .hazard => s.repFault o.rc cStallUndersized
  | .at_ t =>
    let x := s.core.channel k
    if !x.rowStream then s.repFault o.rc cIllegalWord
    else if 16 ≤ x.fifo.length then s.wordWait
    else (s.upd (fun c => { (c.setChannel k (x.pushAt t (c.vregAt t a))).settle t with latch := true })).endRep t t o.rc o.sc

/-! ## Accumulator reads (R166) -/

def execVacc (o : VWord) (s : State) : Result :=
  let r := s.act.rep
  let j := o.a.toNat
  let w := tyBits o.ty
  let seg := 8 * o.b.toNat + r
  let d := o.rD r
  match s.core.vIssue s.tag s.act.entry.schk { readM := [o.mask.toNat], writes := [d], lat := 6 } s.issueAt with
  | .wait => s.wordWait
  | .hazard => s.repFault o.rc cStallUndersized
  | .at_ t =>
    if r = 0 ∧ !s.bankUsable j then s.repFault o.rc cLeaseInvalid
    else match s.accRead j (seg / 4) t s.act.entry.stamp s.act.entry.schk with
    | .wait => s.wordWait
    | .hazard => s.repFault o.rc cAccHazard
    | .value s1 row =>
      let m := s1.core.maskAt t o.mask.toNat
      let f := fun (i : Nat) => o.fmt.roundTo rne (Fmt.value .f32 (accCell row (32 * (seg % 4) + i)))
      let g := fun (i : Nat) => if o.ty.toNat = 0 then accCell row (32 * (seg % 4) + i) else f i
      (s1.upd (fun c => (c.settle t).put (t + 6) { regs := [(d, packRow w 32 g, laneMask w 32 m.getLsbD)] })).endRep
        t (t + 6) o.rc o.sc

end Sys2Proof.Machine
end

