-- ==== Sys2Proof/Machine/Matrix.lean ====
section
/-! DEFINITION. The matrix array: `mma`, `mzero`, `mdrn` and `mldacc` (R217 to R223, R228 to R234, R236). -/

namespace Sys2Proof.Machine

/-! ## Operands of `mma` (R33, R218 to R220) -/

/-- Products that a cell forms in a cycle (R219); 0 for the block formats. -/
def productsPerCycle (f : Fmt) : Nat :=
  match f with
  | .f16 => 2
  | .b16 => 2
  | .e4 => 4
  | .e5 => 4
  | _ => 0

/-- The pairs of formats that the array accepts (R219). -/
def pairOk (a b : Fmt) : Bool :=
  match a, b with
  | .f16, .f16 => true
  | .b16, .b16 => true
  | .e4, .e4 => true
  | .e4, .e5 => true
  | .e5, .e4 => true
  | .e5, .e5 => true
  | .aq8, .aq8 => true
  | .bx _, .bx _ => true
  | _, _ => false

/-- The sparsity rules of R33 and R220. -/
def Tensor.sparseOk (t : Tensor) : Bool :=
  t.nsel == 0 || (t.nOf ≤ t.mOf / 2 && t.d0 % t.mOf == 0 && productsPerCycle t.fmt != 0)

/-- Issue cycles of a chunk (R219, R220). -/
def Tensor.chunkCycles (t : Tensor) : Nat :=
  match t.fmt with
  | .aq8 => 8
  | .bx b => b
  | f => let p := productsPerCycle f; if t.nsel = 0 then 32 / p else 32 / t.mOf * ceilDiv t.nOf p

/-- Whether a view's location is bound to the vault of a logical quad. -/
def View.inVault (v : View) (own quad : Nat) : Bool :=
  match v.back with
  | some (.vault des _) => desQuad own des == quad
  | _ => false

/-- The descriptor rules of `mma` (R218 to R220). -/
def State.mmaOk (s : State) (ca cb : Cap) : Bool :=
  let a := tensorOf ca.img
  let b := tensorOf cb.img
  let va := s.view s.ctx ca
  let vb := s.view s.ctx cb
  let own := quadOf s.cur
  va.usable a && vb.usable b && va.inVault own own && vb.inVault own own
    && va.tag == (if a.fmt.isBx then 8 else 4) && vb.tag == 5 && b.nsel == 0
    && a.d2 == 1 && a.d3 == 1 && b.d2 == 1 && b.d3 == 1
    && a.d1 ≤ 128 && b.d0 ≤ 128 && a.d0 == b.d1 && pairOk a.fmt b.fmt && a.sparseOk

/-- Where elements lie (R268, R275): their bits and the rows that the footprint checker tests; a wait for a patch, or a
fault. -/
inductive Located where
  | ok (parts : List (List Bits)) (check : List Loc)
  | wait
  | fault (code : BitVec 8)
  deriving DecidableEq, Repr, Inhabited

/-- One more element stands before those located. -/
def Located.cons (a : Addr) (l : Located) : Located :=
  match a, l with
  | .bounds, _ => .fault cVaultBounds
  | .desc, _ => .fault cTensorDesc
  | .wait, _ => .wait
  | .at_ ps check, .ok rest rows => .ok (ps :: rest) (check.foldl insertLoc rows)
  | .at_ _ _, x => x

/-- Locates elements for a read; the first that does not lie anywhere decides. -/
def State.locateAll (s : State) (cap : Cap) : List Int → Located
  | [] => .ok [] []
  | q :: qs => Located.cons (s.locate s.ctx (quadOf s.cur) cap q false) (State.locateAll s cap qs)

/-- The K positions of chunk kc below K. -/
def chunkPositions (kc k : Nat) : List Nat := (List.range 32).filterMap (fun i => if 32 * kc + i < k then some (32 * kc + i) else none)

/-! ## Sparse A (R33, R220) -/

/-- The metadata bits of stored value v of row i: positions follow one another over the whole tensor (log entry 44). -/
def Tensor.positionRun (t : Tensor) (i v : Nat) : Nat × Nat :=
  let n := Nat.log2 t.mOf
  (n * (t.d0 / t.mOf * t.nOf * i + v), n)

/-- Bits of a metadata tensor from a bit offset on. -/
def State.metaBits (s : State) (cap : Cap) (off n : Nat) : Option (List Bits) :=
  match s.sideParts s.ctx (quadOf s.cur) cap (tensorOf cap.img).meta_ (off / 8) ((off % 8 + n + 7) / 8) with
  | none => none
  | some ps =>
    -- the first byte gives up its low bits, the last one its high bits
    match ps with
    | [p] => some [{ p with lo := off % 8, n := n }]
    | [p, q] => some [{ p with lo := off % 8, n := 8 - off % 8 }, { q with n := n - (8 - off % 8) }]
    | _ => none

/-- Where stored value v of row i of an N:M-sparse operand lies: the tensor of the stored values in the layout of the tag
(R220, log entry 44); the old layout while the patch of its positions is unconverted (R275). -/
def State.locateStored (s : State) (cap : Cap) (kc i v : Nat) : Addr :=
  let t := tensorOf cap.img
  let w := s.view s.ctx cap
  let own := quadOf s.cur
  let q := v + t.stored.d0 * i
  let patch := kc + ceilDiv t.d0 32 * (i / 32)
  match w.back.bind (fun b => placeRuns b own (t.stored.runs w.tag q)) with
  | none => .bounds
  | some ps =>
    match w.conv with
    | none => .at_ ps (rowsOf ps)
    | some c =>
      if c.done.contains patch then .at_ ps (rowsOf ps)
      else if c.works patch then .wait
      else match placeRuns c.oldBack own (t.stored.runs c.otag.toNat q) with
        | none => .bounds
        | some old => .at_ old (rowsOf ps)

/-- Where the stored values of a chunk and their positions lie, for one row after another: the values first. -/
def State.locateSparse (s : State) (cap : Cap) (kc : Nat) : Located :=
  let t := tensorOf cap.img
  let vs := (List.range t.d1).flatMap (fun i => (t.storedOf kc).map (fun v => (i, v)))
  let pos := vs.foldr (fun (x : Nat × Nat) l => Located.cons
    (match s.metaBits cap (t.positionRun x.1 x.2).1 (t.positionRun x.1 x.2).2 with
     | some ps => .at_ ps (rowsOf ps)
     | none => .bounds) l) (.ok [] [])
  vs.foldr (fun (x : Nat × Nat) l => Located.cons (s.locateStored cap kc x.1 x.2) l) pos

/-! ## Steps of a chunk (R38, R39, R231) -/

/-- Cuts a list into pieces of n. -/
def piecesOf (n : Nat) : Nat → List α → List (List α)
  | 0, _ => []
  | fuel + 1, l => if l.isEmpty then [] else l.take n :: piecesOf n fuel (l.drop n)

/-- A row of a bank after the cells of columns below nb have taken their terms. -/
def AccRow.step (r : AccRow) (nb : Nat) (terms : Nat → List Val) : AccRow :=
  BitVec.ofNat 4096 (packCells ((List.range 128).map (fun n =>
    let x := accCell r n
    if n < nb then
      match terms n with
      | [] => x
      | ts => exactSum .f32 rne (Fmt.value .f32 x :: ts)
    else x)))

/-- The rows of a bank after a step: row i takes `terms i`. -/
def stepRows (rows : SMap (BitVec 4096)) (ma nb : Nat) (terms : Nat → Nat → List Val) : SMap (BitVec 4096) :=
  (List.range ma).foldl (fun m i => SMap.set 0 m i ((SMap.get 0 m i : AccRow).step nb (terms i))) rows

/-- The block value of R39 and R31: the exact sum of the products, +0 when a scale is zero, NaN when one is NaN. -/
def blockValue (sa sb : Nat) (as bs : List Val) : Val :=
  if sa = 255 ∨ sb = 255 then .nan
  else if sa = 0 ∨ sb = 0 then .zero false
  else Val.ofNum (sumNum (List.zipWith Val.mul as bs))

/-- What a chunk multiplies: for each step, row and column its terms. -/
abbrev ChunkTerms := List (Nat → Nat → List Val)

/-- The steps of a dense chunk of P products a cycle: `a i k` and `b n k` for the positions ks (R38). -/
def denseTerms (p : Nat) (ks : List Nat) (a b : Nat → Nat → Val) : ChunkTerms :=
  (piecesOf p 33 ks).map (fun g => fun i n => g.map (fun k => (a i k).mul (b n k)))

/-- The steps of a sparse chunk: in each group the next P stored values of row i, with the positions they name (R220). -/
def sparseTerms (t : Tensor) (kc : Nat) (a : Nat → Nat → Val × Nat) (b : Nat → Nat → Val) : ChunkTerms :=
  let p := productsPerCycle t.fmt
  (List.range (32 / t.mOf)).flatMap (fun g =>
    let grp := 32 / t.mOf * kc + g
    (piecesOf p 5 (List.range t.nOf)).map (fun vs => fun i n =>
      if grp * t.mOf < t.d0 then
        vs.map (fun v => let (x, pos) := a i (t.nOf * g + v); x.mul (b n (grp * t.mOf + pos)))
      else []))

/-! ## Scale queues (R221) -/

/-- Scale rows that a chunk pops from each queue. -/
def scaleRows (f : Fmt) : Nat :=
  match f with
  | .bx _ => 1
  | .aq8 => 2
  | _ => 0

/-- Scale i of popped rows: an exponent byte, or an AQ8 pair. -/
def scaleAt (f : Fmt) (rows : List Row) (i : Nat) : Nat :=
  match f with
  | .aq8 => rowElement (rows.getD (i / 64) 0) 2 (i % 64)
  | _ => rowElement (rows.getD 0 0) 1 i

/-- Whether an engine word is a `cscl` into a queue: 0 SQA, 1 SQB. -/
def isScaleLoad (k : Nat) (w : EWord) : Bool :=
  match decodeEng w with
  | .ok (.cscl _ q _ _) => q.toNat == k
  | _ => false

/-- Whether a `cscl` into a queue may be outstanding in the core's copy queue (R186, R221): a stream or a block that has
not issued all its words may hold one (log entry 47). -/
def Core.scaleOutstanding (c : Core) (k : Nat) : Bool :=
  let may := fun (x : Entry) => match x.body with
    | .word w => isScaleLoad k w
    | .stream .. => true
    | .block _ => true
    | _ => false
  c.copies.any (fun x => isScaleLoad k x.word) || ((c.qc.act.map (fun a => a.entry)).toList ++ c.qc.hw ++ c.qc.spill).any may

/-! ## The lease (R224, R225) -/

/-- Whether the current core holds its quad's array. -/
def State.holdsArray (s : State) : Bool := (s.quad (s.arrayOf s.cur)).holder == some (s.cur % 4)

/-- The word that a matrix sequencer would issue next. -/
def Core.matrixWord (c : Core) : Option Instr :=
  if c.qm.stopped.isSome then none
  else match c.qm.act with
  | none => none
  | some a =>
    if (a.inner.isSome && !a.innerBegun) || a.skip != 0 then none
    else match a.word with
    | some w => (match decodeEng w with | .ok i => some i | .error _ => none)
    | none => none

/-- Whether a core requests the array: its matrix queue's head is an `mma` that is ready, or an `mlease` (R224, R225). -/
def Core.wantsArray (c : Core) : Bool :=
  match c.matrixWord with
  | some (.mma ..) => true
  | some (.mlease ..) => true
  | _ => false

/-- The core that physical core k of a quad serves. -/
def State.coreOfQuad (s : State) (qd k : Nat) : Option (Nat × Core) :=
  match (s.physCore (4 * qd + k)).serving with
  | some (ctx, n) => some (n, s.coreAt ctx n)
  | none => none

/-- Whether physical core k of a quad requests the array. -/
def State.requests (s : State) (qd k : Nat) : Bool :=
  match s.coreOfQuad qd k with
  | some (_, c) => c.wantsArray
  | none => false

/-- Whether the head of a matrix queue lets a grant go on (R224): a matrix word, or a word of a stream or a block. -/
def Core.headKeeps (c : Core) : Bool :=
  let keeps := fun (x : Entry) => match x.body with
    | .word w => w.toNat / 2 ^ 46 == 1
    | .stream .. => true
    | .block _ => true
    | .null => false
    | .illegal => true
  match c.qm.act, c.qm.hw with
  | some a, _ => keeps a.entry
  | none, x :: _ => keeps x
  | none, [] => false

/-- Whether a grant has ended (R224): the run is used up, or the head is neither matrix work nor inside a stream or block,
or the queue is empty; a pinned run outlasts these (R225). -/
def State.leaseOver (s : State) (qd : Nat) : Bool :=
  let q := s.quad qd
  match q.holder with
  | none => false
  | some k =>
    match s.coreOfQuad qd k with
    | none => true
    | some (_, c) => c.pinned == 0 && (q.left == 0 || !c.headKeeps)

/-- Ends the grants that are over; tested in every step. -/
def State.settleLeases (s : State) : State :=
  s.quads.foldl (fun t x => if t.leaseOver x.1 then t.setQuad x.1 { t.quad x.1 with holder := none } else t) s

/-- LEASE_GRANT: the free array of a physical quad goes to the next requesting core after the last holder (R224). -/
def execLeaseGrant (quad : Nat) (s : State) : Result :=
  let q := s.quad quad
  if q.holder.isSome then .next s
  else match ([1, 2, 3, 4].map (fun i => (q.lastHolder + i) % 4)).find? (fun k => s.requests quad k) with
  | none => .next s
  | some k =>
    match s.coreOfQuad quad k with
    | none => .next s
    | some (_, c) =>
      let n := match c.qm.act with | some a => a.entry.lrun | none => 16
      .next (s.setQuad quad { q with holder := some k, lastHolder := k, left := n, grantAt := s.now })

/-- LSTALL_PASS: a rival requests and the holder's head has not issued for LSTALL cycles (R224). -/
def execLstallPass (quad : Nat) (s : State) : Result :=
  let q := s.quad quad
  match q.holder with
  | none => .next s
  | some k =>
    let last := match s.coreOfQuad quad k with | some (_, c) => c.qm.lastIssue + 1 | none => 0
    if [0, 1, 2, 3].any (fun j => j != k && s.requests quad j) && max q.grantAt last + s.setting 0x824 ≤ s.now then
      .next (s.setQuad quad { q with holder := none })
    else .next s

/-- An `mma` word has issued its last chunk: it counts against the run and against the pinned run. -/
def State.countRun (s : State) : State :=
  let qd := s.arrayOf s.cur
  let q := s.quad qd
  (s.setQuad qd { q with left := q.left - 1 }).upd (fun c => { c with pinned := c.pinned - 1 })

/-! ## `mma` (R231) -/

/-- A matrix word stops with the repetitions applied so far (R230, R236). -/
def State.matrixFault (s : State) (code : BitVec 8) (record : BitVec 128 := 0) : Result :=
  if record = 0 then s.wordFault code { count := s.act.rep }
  else .next (s.footFault s.eng s.act.entry code record { count := s.act.rep })

/-- Whether rows of a bank that an `mldacc` loads are still on their way: a later write of the bank waits (R223). -/
def State.bankLoading (s : State) (j : Nat) : Bool := s.core.mrows.any (fun m => m.bank == j)

/-- A step that adds nothing. -/
def noTerms : Nat → Nat → List Val := fun _ _ => []

/-- Looks a value up in the order in which it was located. -/
def pick (l : List Nat) (width i k : Nat) : Nat := l.getD (width * i + k) 0

/-- The terms of a dense or block chunk: one step of all positions for a block format. -/
def chunkTerms (ta tb : Tensor) (ks : List Nat) (kc : Nat) (as bs : List Nat) (sa sb : List Row) : ChunkTerms :=
  let w := ks.length
  let a := fun (i k : Nat) => blockElement ta.fmt (scaleAt ta.fmt sa i) (pick as w i (k - 32 * kc))
  let b := fun (n k : Nat) => blockElement tb.fmt (scaleAt tb.fmt sb n) (pick bs w n (k - 32 * kc))
  match productsPerCycle ta.fmt with
  | 0 =>
    let last : Nat → Nat → List Val := fun i n =>
      [blockValue (scaleAt ta.fmt sa i % 256) (scaleAt tb.fmt sb n % 256) (ks.map (a i)) (ks.map (b n))]
    List.replicate (ta.chunkCycles - 1) noTerms ++ [last]
  | p => denseTerms p ks a b

/-- The steps of a chunk with those of its cycles that form no product, so that it takes its c cycles (R219, R222). -/
def fillSteps (c : Nat) (l : ChunkTerms) : ChunkTerms := l ++ List.replicate (c - l.length) noTerms

/-- Applies the steps of a chunk that issues in cycle t: step k can be read from cycle t + k + 13 (R222). -/
def State.applySteps (s : State) (j ma nb t : Nat) (k : Nat) : ChunkTerms → State
  | [] => s
  | f :: fs =>
    let x := s.act.entry
    let old := lastSnap (s.bankHistory j)
    let s1 := s.pushSnap j { at_ := t + k + 13, stamp := x.stamp, since := x.at_, lo := 0, hi := ma,
                             rows := stepRows old.rows ma nb f }
    State.applySteps s1 j ma nb t (k + 1) fs

/-- Chunk kc of an `mma` whose operands are read, in cycle t. -/
def State.mmaApply (s : State) (j t : Nat) (terms : ChunkTerms) (rc : BitVec 10) (sc : BitVec 4) : Result :=
  let ta := tensorOf (s.act.caps.headD {}).img
  let tb := tensorOf (s.act.caps.getD 1 {}).img
  let c := ta.chunkCycles
  let n := scaleRows ta.fmt
  let s1 := (s.applySteps j ta.d1 tb.d0 t 0 (fillSteps c terms)).upd (fun k => { k with sqa := k.sqa.drop n, sqb := k.sqb.drop n })
  let qd := s1.arrayOf s1.cur
  let s2 := s1.setQuad qd { s1.quad qd with busyTo := t + c }
  let s3 := if s2.act.rep < rc.toNat then s2 else s2.countRun
  s3.endRep t (t + c + 12) rc sc c

/-- The A reads of each cycle of a chunk, whose values lie at `pa` with w of them in a row of A (R249): P positions a cycle,
four for AQ8, a plane of bits for a block format, the next P stored values of a group of a sparse operand (log entry
95). -/
def Tensor.readGroups (t : Tensor) (w : Nat) (pa : List (List Bits)) : List (List Loc) :=
  let rows := piecesOf w 129 pa
  match t.fmt with
  | .bx b => (List.range b).map (fun k => rowsOf (pa.filterMap (fun ps => ps[k]?)))
  | .aq8 => (List.range 8).map (fun k => rowsOf (rows.flatMap (fun r => ((r.drop (4 * k)).take 4).flatten)))
  | f =>
    let p := productsPerCycle f
    let cuts := if t.nsel = 0 then piecesOf p 33 (List.range w)
      else (piecesOf t.nOf 33 (List.range w)).flatMap (fun g => piecesOf p 33 g)
    cuts.map (fun ks => rowsOf (rows.flatMap (fun r => (ks.map (fun k => r.getD k [])).flatten)))

/-- How a chunk begins: its operands are located, the rows that they lie in wait to be read; or a wait, or a fault. -/
inductive ChunkStart where
  | go (p : RepPart) (groups : List (List Loc))
  | wait
  | fault (code : BitVec 8) (record : BitVec 128)

/-- The K positions of a chunk as elements of A, row by row, and of B, column by column. -/
def chunkElements (ta tb : Tensor) (kc : Nat) : List Int × List Int :=
  let ks := chunkPositions kc ta.d0
  ((List.range ta.d1).flatMap (fun i => ks.map (fun (k : Nat) => ((k + ta.d0 * i : Nat) : Int))),
   (List.range tb.d0).flatMap (fun n => ks.map (fun (k : Nat) => ((n + tb.d0 * k : Nat) : Int))))

/-- Locates and checks the operands of chunk kc, to issue in cycle t. -/
def State.startChunk (s : State) (ca cb : Cap) (kc t : Nat) : ChunkStart :=
  let ta := tensorOf ca.img
  let tb := tensorOf cb.img
  let (qa, qb) := chunkElements ta tb kc
  match (if ta.nsel = 0 then s.locateAll ca qa else s.locateSparse ca kc), s.locateAll cb qb with
  | .fault e, _ => .fault e 0
  | .wait, _ => .wait
  | .ok _ _, .fault e => .fault e 0
  | .ok _ _, .wait => .wait
  | .ok pa ra, .ok pb rb =>
    match s.violations .m s.q.phases (s.entryDet s.act.entry) false (ra ++ rb) with
    | some r => .fault cFootprintViolation r
    | none =>
      let all := (pa ++ pb).flatten
      if !s.rowsHeld all then .fault cVaultBounds 0
      else
        let w := (ta.storedOf kc).length
        let conv := (s.redirected s.ctx ca qa ++ s.redirected s.ctx cb qb).foldl insertNat s.act.stuck
        .go { at_ := t, todo := rowsOf all, conv := conv,
              lanes := ((List.range (pa ++ pb).length).zip (pa ++ pb)).map (fun x => { lane := x.1, parts := x.2 }) }
          (ta.readGroups w (pa.take (w * ta.d1)))

/-- The products of chunk kc whose operands have been read: the values of A row by row, the positions of a sparse A, the
values of B column by column. -/
def Core.chunkProducts (c : Core) (ta tb : Tensor) (kc : Nat) (vals : List Nat) : ChunkTerms :=
  let ks := chunkPositions kc ta.d0
  let n := scaleRows ta.fmt
  let w := (ta.storedOf kc).length
  let as := vals.take (w * ta.d1)
  let rest := vals.drop (w * ta.d1)
  if ta.nsel = 0 then chunkTerms ta tb ks kc as rest (c.sqa.take n) (c.sqb.take n)
  else
    let ms := rest.take (w * ta.d1)
    let bs := rest.drop (w * ta.d1)
    sparseTerms ta kc (fun i v => (ta.fmt.value (pick as w i v), pick ms w i v))
      (fun m k => tb.fmt.value (pick bs ks.length m (k - 32 * kc)))

/-- A chunk reads the next row of its operands (R229); with the last one it is applied. -/
def State.mmaNext (s : State) (j kc : Nat) (p : RepPart) (rc : BitVec 10) (sc : BitVec 4) : Result :=
  match s.partRead (engRow (s.readerOf s.act.entry) s.tag) p with
  | .more r => r
  | .all s1 q =>
    let rows := q.got.map (fun (x : Loc × Option Row) => (x.1, x.2.getD 0))
    let ta := tensorOf (s1.act.caps.headD {}).img
    let tb := tensorOf (s1.act.caps.getD 1 {}).img
    s1.mmaApply j (max (s1.partAt q) (s1.quad (s1.arrayOf s1.cur)).busyTo)
      (s1.core.chunkProducts ta tb kc (q.lanes.map (fun x => gatherBits rows x.parts))) rc sc

/-- Whether an AQ8 chunk's B columns have a zero point (R31). -/
def zeroPoint (tb : Tensor) (rows : List Row) : Bool :=
  tb.fmt == .aq8 && (List.range tb.d0).any (fun n => scaleAt .aq8 rows n / 256 != 0)

/-- The descriptors of an `mma`: read as its first repetition issues (R109, R218). -/
def State.mmaCaps (s : State) (tA tB : Ix6) : List Cap :=
  if s.act.rep = 0 then [s.core.cap tA.toNat, s.core.cap tB.toNat] else s.act.caps

/-- One chunk of an `mma`: the lease, the checks of R230 as it is about to issue, the scale rows, then the operands. -/
def execMma (bank : BitVec 2) (tA tB : Ix6) (k0 : BitVec 12) (sc : BitVec 4) (rc : BitVec 10) (s : State) : Result :=
  let kc := k0.toNat + s.act.rep
  match s.act.part with
  | some p => s.mmaNext bank.toNat kc p rc sc
  | none =>
    let caps := s.mmaCaps tA tB
    let ca := caps.headD {}
    let cb := caps.getD 1 {}
    let ta := tensorOf ca.img
    let tb := tensorOf cb.img
    let n := scaleRows ta.fmt
    let c := s.core
    if !s.holdsArray || s.bankLoading bank.toNat then s.wordWait
    else if s.act.rep = 0 ∧ !s.bankUsable bank.toNat then s.matrixFault cLeaseInvalid
    else if s.act.rep = 0 ∧ !s.mmaOk ca cb then s.matrixFault cTensorDesc
    else if ta.d0 ≤ 32 * kc then s.matrixFault cVaultBounds
    else if c.sqa.length < n then (if c.scaleOutstanding 0 then s.wordWait else s.matrixFault cScaleImbalance)
    else if c.sqb.length < n then (if c.scaleOutstanding 1 then s.wordWait else s.matrixFault cScaleImbalance)
    else if zeroPoint tb (c.sqb.take n) then s.matrixFault cTensorDesc
    else
      let s := s.setAct { s.act with caps := caps }
      match s.startChunk ca cb kc s.issueAt with
      | .fault code r => s.matrixFault code r
      | .wait =>
        let conv := ((s.view s.ctx ca).conv.toList ++ (s.view s.ctx cb).conv.toList).map (fun c => c.serial)
        (s.setAct { s.act with stuck := conv.foldl insertNat s.act.stuck }).wordWait
      | .go p groups => (groups.foldl (fun u g => u.noteGroup (some .m) g) s).mmaNext bank.toNat kc p rc sc

/-- `mzero`: +0 in every cell, readable from cycle t + 8 (R222, R232). -/
def execMzero (bank : BitVec 2) (sc : BitVec 4) (s : State) : Result :=
  let j := bank.toNat
  let x := s.act.entry
  let t := s.issueAt
  if !s.bankUsable j then s.matrixFault cLeaseInvalid
  else if s.bankLoading j then s.wordWait
  else (s.pushSnap j { at_ := t + 8, stamp := x.stamp, since := x.at_, lo := 0, hi := 128 }).endRep t (t + 8) 0 sc

/-! ## `mdrn` (R233) -/

/-- A tensor that a matrix word reaches row by row: vault-bound, a tag of R152, one of the formats. -/
def State.drainOk (s : State) (cap : Cap) (fmts : List Fmt) : Bool :=
  let t := tensorOf cap.img
  let v := s.view s.ctx cap
  v.usable t && fmts.contains t.fmt && elementTag v.tag && (match v.back with | some (.vault ..) => true | _ => false)

/-- The bias tensor's rule: vault-bound F32 with D0 at least the columns. -/
def State.biasOk (s : State) (cap : Cap) (cols : Nat) : Bool :=
  let t := tensorOf cap.img
  let v := s.view s.ctx cap
  v.usable t && t.fmt == .f32 && cols ≤ t.d0 && (match v.back with | some (.vault ..) => true | _ => false)

/-- One result of a drain: the bias, the ReLU, the conversion. -/
def drainCell (ep : Nat) (f : Fmt) (x bias : Nat) : Nat :=
  let v := Fmt.value .f32 x
  let y := if ep = 2 then exactSum .f32 rne [v, Fmt.value .f32 bias] else x
  let z := Fmt.value .f32 y
  let r := if ep = 1 ∧ !z.isNan ∧ !((Val.zero false).lt z) then Val.zero false else z
  f.roundTo rne r

/-- The rows of one repetition: for each tensor row j that is written, the bank row, in order. -/
def drainRows (row0 r d1 : Nat) (rowmask : BitVec 32) : List (Nat × Nat) :=
  (List.range 16).filterMap (fun i =>
    let j := 16 * r + i
    if rowmask.getLsbD (j % 32) && j < d1 then some (j, row0 + 16 * r + i) else none)

/-- Where the elements of tensor row j lie. -/
def State.drainLanes (s : State) (cap : Cap) (wr : Bool) (cols j : Nat) : Resolved :=
  let t := tensorOf cap.img
  s.resolveLanes .m cap wr [] ((List.range cols).map (fun n => (n, Pos.at_ ((n + t.d0 * j : Nat) : Int))))

/-- Reads the bank rows of a repetition in cycle t (R228); none waits, an error is a hazard. -/
def State.drainBank (s : State) (b t : Nat) : List (Nat × Nat) → Except Bool (State × List (Nat × AccRow))
  | [] => .ok (s, [])
  | (j, row) :: rest =>
    match s.accRead b row t s.act.entry.stamp s.act.entry.schk with
    | .wait => .error false
    | .hazard => .error true
    | .value s1 x =>
      match State.drainBank s1 b t rest with
      | .ok (s2, l) => .ok (s2, (j, x) :: l)
      | .error e => .error e

/-- The row writes of a repetition: those of the tensor rows before the first that faults, and the fault; none while a
row has to wait for its patch, whose position is given (R236, R275). -/
def State.drainWrites (s : State) (cap : Cap) (cols : Nat) (val : Nat → AccRow → Nat → Nat) :
    List (Nat × AccRow) → Except Nat (List (Loc × Row × BitVec 128) × Option (BitVec 8 × BitVec 128))
  | [] => .ok ([], none)
  | (j, x) :: rest =>
    match s.drainLanes cap true cols j with
    | .wait q => .error (q.getD 0)
    | .fault _ code r => .ok ([], some (code, r))
    | .ok ls =>
      match State.drainWrites s cap cols val rest with
      | .error q => .error q
      | .ok (put, fault) => .ok (laneWrites (val j x) ls ++ put, fault)

/-- How the bias of a repetition is found: its rows, which wait to be read; or the end of the turn. -/
inductive Bias where
  | ok (p : RepPart)
  | stop (r : Result)

/-- Where the bias lies, when the epilogue asks for it (R233). -/
def State.biasPart (s : State) (ep : Nat) (cap : Cap) (cols : Nat) : Bias :=
  let ps := (List.range cols).map (fun n => (n, Pos.at_ ((n : Nat) : Int)))
  if ep ≠ 2 then .ok { at_ := s.issueAt, conv := s.act.stuck }
  else match s.resolveLanes .m cap false [] ps with
  | .wait q => .stop (s.laneWait cap false q)
  | .fault _ code r => .stop (s.matrixFault code r)
  | .ok ls => .ok { at_ := s.issueAt, lanes := ls, todo := laneRows ls, conv := s.throughConv cap ps }

/-- The repetition of an `mdrn` has written its rows: it is done, or its fault follows (R236). -/
def State.drained (s : State) (t : Nat) (fault : Option (BitVec 8 × BitVec 128)) (rc : BitVec 10) (sc : BitVec 4) : Result :=
  match fault with
  | some (code, r) => s.matrixFault code r
  | none => s.endRep t (t + 8) rc sc 8

/-- A repetition of an `mdrn` writes its next row (R192). -/
def State.drainNext (s : State) (p : RepPart) (rc : BitVec 10) (sc : BitVec 4) : Result :=
  match s.partWrite p with
  | .more r => r
  | .all s1 q => s1.drained q.at_ q.fault rc sc

/-- The bias of a repetition has been read: the bank rows are read in its cycle t (R222, R228), and the writes follow. -/
def State.drainFrom (s : State) (b ep row0 : Nat) (p : RepPart) (rc : BitVec 10) (sc : BitVec 4) : Result :=
  let cap := s.act.caps.headD {}
  let t := tensorOf cap.img
  let cols := min 128 t.d0
  let at_ := s.partAt p
  let bias := fun (n : Nat) => ((p.lanes.find? (fun x => x.lane == n)).bind (fun x => x.value (keptRows p.got))).getD 0
  match s.drainBank b at_ (drainRows row0 s.act.rep t.d1 s.act.entry.rowmask) with
  | .error true => s.matrixFault cAccHazard
  | .error false => (s.keepPart p).wordWait
  | .ok (s1, vals) =>
    match s1.drainWrites cap cols (fun _ x n => drainCell ep t.fmt (accCell x n) (bias n)) vals with
    | .error q => (s.keepPart p).laneWait cap true (some q)
    | .ok (put, fault) =>
      s1.drainNext { at_ := at_, put := put, fault := fault, conv := s1.act.stuck.foldl insertNat p.conv } rc sc

/-- A repetition of an `mdrn` reads the next row of its bias. -/
def State.biasNext (s : State) (b ep row0 : Nat) (p : RepPart) (rc : BitVec 10) (sc : BitVec 4) : Result :=
  match s.partRead (engRow (s.readerOf s.act.entry) s.tag) p with
  | .more r => r
  | .all s1 q => s1.drainFrom b ep row0 q rc sc

/-- The descriptors of an `mdrn`: its tensor and its bias, read as its first repetition issues (R109). -/
def State.drainCaps (s : State) (tD : Ix6) : List Cap :=
  if s.act.rep = 0 then
    let d := s.core.cap tD.toNat
    [d, s.core.cap ((tensorOf d.img).aux % 64)]
  else s.act.caps

def execMdrn (bank : BitVec 2) (tD : Ix6) (ep : BitVec 4) (row0 : BitVec 7) (sc : BitVec 4) (rc : BitVec 10) (s : State) :
    Result :=
  match s.act.part with
  | some p =>
    if p.put.isEmpty then s.biasNext bank.toNat ep.toNat row0.toNat p rc sc else s.drainNext p rc sc
  | none =>
    let caps := s.drainCaps tD
    let cap := caps.headD {}
    let biasCap := caps.getD 1 {}
    let cols := min 128 (tensorOf cap.img).d0
    if s.act.rep = 0 ∧ !s.bankUsable bank.toNat then s.matrixFault cLeaseInvalid
    else if s.act.rep = 0 ∧ !s.drainOk cap [.f32, .f16, .b16, .e4, .e5, .i32, .i16, .i8] then s.matrixFault cTensorDesc
    else if s.act.rep = 0 ∧ ep.toNat = 2 ∧ !s.biasOk biasCap cols then s.matrixFault cTensorDesc
    else
      let s := s.setAct { s.act with caps := caps }
      match s.biasPart ep.toNat biasCap cols with
      | .stop r => r
      | .ok p => s.biasNext bank.toNat ep.toNat row0.toNat p rc sc

/-! ## `mldacc` (R234) -/

/-- The rows of a repetition of an `mldacc` that load something: source row and bank row. -/
def loadRows (row0 r d1 : Nat) : List (Nat × Nat) := drainRows row0 r d1 0xFFFFFFFF

/-- Puts the rows of a repetition on their way; an error is a fault, or a wait for the patch of a position. -/
def State.startRows (s : State) (j : Nat) (cap : Cap) (cols : Nat) :
    List (Nat × Nat) → Except (Nat ⊕ (BitVec 8 × BitVec 128)) (List MldRow)
  | [] => .ok []
  | (src, row) :: rest =>
    match s.drainLanes cap false cols src, State.startRows s j cap cols rest with
    | .ok ls, .ok l =>
      let t := tensorOf cap.img
      let x := s.act.entry
      let qs := (List.range cols).map (fun n => (n, Pos.at_ ((n + t.d0 * src : Nat) : Int)))
      .ok ({ tag := s.tag, bank := j, row := row, src := ls, width := t.fmt.bits, fmt := t.fmtCode, stamp := x.stamp,
             since := x.at_, conv := s.throughConv cap qs } :: l)
    | .fault _ code r, _ => .error (.inr (code, r))
    | .wait q, _ => .error (.inl (q.getD 0))
    | .ok _, .error e => .error e

def execMldacc (bank : BitVec 2) (tS : Ix6) (row0 : BitVec 7) (sc : BitVec 4) (rc : BitVec 10) (s : State) : Result :=
  let cap := if s.act.rep = 0 then s.core.cap tS.toNat else s.act.caps.headD {}
  let t := tensorOf cap.img
  let at_ := s.issueAt
  if s.act.rep = 0 ∧ !s.bankUsable bank.toNat then s.matrixFault cLeaseInvalid
  else if s.act.rep = 0 ∧ !s.drainOk cap [.f32, .f16, .b16] then s.matrixFault cTensorDesc
  else
    let s := s.setAct { s.act with caps := [cap] }
    match s.startRows bank.toNat cap (min 128 t.d0) (loadRows row0.toNat s.act.rep t.d1) with
    | .error (.inl q) => s.laneWait cap false (some q)
    | .error (.inr (code, r)) => s.matrixFault code r
    | .ok ms => (s.upd (fun c => { c with mrows := c.mrows ++ ms })).endRep at_ at_ rc sc 8

/-- The bank row after a source row has arrived: the loaded columns take exact F32 values, a poisoned source zeros. -/
def MldRow.arrive (m : MldRow) (old : AccRow) (got : List (Loc × RowRead)) : AccRow :=
  let f := (Fmt.ofCode m.fmt).getD .f32
  BitVec.ofNat 4096 (packCells ((List.range 128).map (fun n =>
    match m.src.find? (fun x => x.lane == n) with
    | some x => Fmt.roundTo .f32 rne (f.value ((x.value got).getD 0))
    | none => accCell old n)))

/-- Reads a row for `m`; an uncorrectable row is logged only when no later bank row of the word waits for it (R153, R234). -/
def State.sourceRow (m : MldRow) (rest : List MldRow) : RowReader := fun s loc =>
  let r := { s with eng := .m }.readerOf (s.core.qm.entryOf m.tag.seq)
  match engRow r m.tag s loc with
  | (s1, .poisoned) =>
    (if rest.any (fun x => x.tag == m.tag && (laneRows x.src).contains loc) then s else s1, .poisoned)
  | x => x

/-- The rows that a bank row on its way has still to read. -/
def MldRow.owed (m : MldRow) : List Loc := (laneRows m.src).filter (fun l => !m.got.any (fun x => x.1 == l))

/-- A bank row whose source rows have been read arrives (R222, R234). -/
def State.arriveRow (s : State) (m : MldRow) (rest : List MldRow) : State :=
  let old := lastSnap (s.bankHistory m.bank)
  let row := m.arrive (old.row m.row) (keptRows m.got)
  (s.upd (fun c => { c with mrows := rest })).pushSnap m.bank
    { at_ := s.now, stamp := m.stamp, since := m.since, lo := m.row, hi := m.row + 1, rows := SMap.set 0 old.rows m.row row }

/-- The oldest row on its way to a bank of the current core's words reads its next source row, an access of its own
(R192); with the last it arrives. -/
def State.landRow (s : State) : State :=
  match s.core.mrows with
  | [] => s
  | m :: rest =>
    match m.owed with
    | [] => s.arriveRow m rest
    | l :: more =>
      match State.sourceRow m rest s l with
      | (s1, .wait) => s1
      | (s1, x) =>
        let k := { m with got := m.got ++ [(l, x.kept)] }
        if more.isEmpty then s1.arriveRow k rest else s1.upd (fun c => { c with mrows := k :: rest })

/-- MLDACC_ROW_ARRIVAL. -/
def execMldaccRowArrival (n : Nat) (s : State) : Result :=
  match s.actor n with
  | none => .next s
  | some s => .next s.landRow

/-! ## Leases, batches and lending (R225 to R227, R235) -/

def execMlease (n : Ix6) (sc : BitVec 4) (s : State) : Result :=
  if !s.holdsArray then s.wordWait
  else
    let t := s.issueAt
    (s.upd (fun c => { c with pinned := n.toNat + 1 })).endRep t t 0 sc

/-- `mcommit`: as a WORD entry its batch closed at acceptance; in a stream or block it closes here, unless its entry belongs
to a closed batch already (R227). -/
def execMcommit (sc : BitVec 4) (s : State) : Result :=
  let c := s.core
  let seq := s.act.entry.seq
  let t := s.issueAt
  if !(s.inStream || s.act.inner.isSome) || seq < c.batchLo then s.endRep t t 0 sc
  else if 63 ≤ c.openBatches.length then s.wordWait
  else (s.upd (fun c => c.closeBatch seq)).endRep t t 0 sc

/-- The launch whose entry the sequencer performs spans a core. -/
def State.entrySpans (s : State) (n : Nat) : Bool :=
  match s.launchAt s.act.entry.launch with
  | some x => x.spans n
  | none => false

/-- Whether a word names a bank. -/
def namesBank (j : Nat) (i : Instr) : Bool :=
  match i with
  | .mma b _ _ _ _ _ => b.toNat == j
  | .mzero b _ => b.toNat == j
  | .mdrn b _ _ _ _ _ => b.toNat == j
  | .mldacc b _ _ _ _ => b.toNat == j
  | .vacc o => o.a.toNat == j
  | _ => false

/-- Whether an entry may hold a word that names a bank: a STREAM or BLOCK entry is not inspected (log entry 43). -/
def Entry.mayNameBank (x : Entry) (j : Nat) : Bool :=
  match x.body with
  | .word w => (match decodeEng w with | .ok i => namesBank j i | .error _ => false)
  | .stream .. => true
  | .block _ => true
  | _ => false

/-- Whether a word of an earlier entry of the core that names bank j has not completed (R226): one of the vector queue's
entries that were accepted before, one of the matrix queue's that are still in flight, or rows on their way. -/
def State.earlierNames (s : State) (j : Nat) : Bool :=
  let c := s.core
  c.qv.incomplete.any (fun x => decide (x.stamp < s.act.entry.stamp) && x.mayNameBank j)
    || c.qm.flight.any (fun f => f.entry.mayNameBank j && decide (s.now < f.doneAt)) || s.bankLoading j

def execMlend (bank core : BitVec 2) (sc : BitVec 4) (s : State) : Result :=
  let j := bank.toNat
  let k := core.toNat
  let qd := s.arrayOf s.cur
  let q := s.quad qd
  if j ≠ s.cur % 4 ∨ k = s.cur % 4 ∨ !s.entrySpans (4 * quadOf s.cur + k) ∨ (q.lentTo j).isSome then
    s.matrixFault cLeaseInvalid
  else
    let s := s.landEarlier
    if s.earlierNames j then s.wordWait
    else
      let t := max s.issueNow (lastSnap (s.bankHistory j)).at_
      (s.setQuad qd { q with lent := SMap.set 0 q.lent j (k + 1) }).endRep t t 0 sc

/-- Whether a sequencer is between the first issue and the last of a word that names a bank. -/
def Queue.insideWord (q : Queue) (j : Nat) : Bool :=
  match q.act with
  | some a =>
    (0 < a.rep || a.part.isSome) && (match a.word with
      | some w => (match decodeEng w with | .ok i => namesBank j i | .error _ => false)
      | none => false)
  | none => false

/-- Whether a word of core n that names bank j of the quad is between its first issue and its completion. -/
def State.borrowerBusy (s : State) (n j t : Nat) : Bool :=
  let c := s.coreAt s.ctx n
  c.qm.insideWord j || c.qv.insideWord j || c.mrows.any (fun m => m.bank == j)
    || (c.qv.flight ++ c.qm.flight).any (fun f => f.entry.mayNameBank j && decide (t < f.doneAt)) || t < (lastSnap (s.bankHistory j)).at_

def execMrecl (bank : BitVec 2) (sc : BitVec 4) (s : State) : Result :=
  let j := bank.toNat
  let qd := s.arrayOf s.cur
  let q := s.quad qd
  let t := s.issueAt
  if j ≠ s.cur % 4 then s.matrixFault cLeaseInvalid
  else match q.lentTo j with
  | none =>
    -- a loan that a switch ended is not made again (R210)
    (match s.core.loanLent with
     | none => s.endRep t t 0 sc
     | some k =>
       let n := 4 * quadOf s.cur + k
       let c := s.coreAt s.ctx n
       let s1 := s.setCoreAt s.ctx n { c with loanBorrowed := removeNat c.loanBorrowed j }
       (s1.upd (fun c => { c with loanLent := none })).endRep t t 0 sc)
  | some k =>
    if s.borrowerBusy (4 * quadOf s.cur + k) j t then s.wordWait
    else (s.setQuad qd { q with lent := SMap.set 0 q.lent j 0 }).endRep t t 0 sc

end Sys2Proof.Machine
end

