-- ==== Sys2Proof/Machine/CopyCmd.lean ====
section
/-! DEFINITION. Copy commands: what a word names (R59, R181), the checks and the acceptance of a command (R175, R182 to
R186, R349), the declared destination, dirty marks and claims (R175, R245, R318, R346). -/

namespace Sys2Proof.Machine

/-! ## Words (R59) -/

/-- The operation code of a copy word. -/
def wordOp (w : EWord) : Nat := (w.extractLsb' 40 6).toNat
/-- Its channel. -/
def wordCh (w : EWord) : Nat := (w.extractLsb' 13 3).toNat
/-- Its mod field. -/
def wordMod (w : EWord) : Nat := (w.extractLsb' 10 3).toNat
/-- Its aux field. -/
def wordAux (w : EWord) : Nat := (w.extractLsb' 0 10).toNat
/-- Its repetition count. -/
def wordReps (w : EWord) : Nat := (w.extractLsb' 26 10).toNat + 1

def opCcpy : Nat := 0
def opCcvt : Nat := 1
def opCxpd : Nat := 2
def opCfilb : Nat := 3
def opCgath : Nat := 4
def opCscat : Nat := 5
def opCred : Nat := 6
def opCmcst : Nat := 7
def opCdsp : Nat := 8
def opCscl : Nat := 9
def opCzero : Nat := 11

/-- Whether a word's row of R181's table allows an inbound STREAM channel. -/
def inboundOk (op : Nat) : Bool := op == opCcpy || op == opCxpd || op == opCgath
/-- Whether it allows an outbound one. -/
def outboundOk (op : Nat) : Bool := op == opCcpy || op == opCfilb || op == opCscat

/-! ## A command -/

/-- The operation of a command. -/
def CopyCmd.op (x : CopyCmd) : Nat := wordOp x.word
/-- Whether a command reads a source walk. -/
def CopyCmd.hasSrc (x : CopyCmd) : Bool := x.op != opCzero && x.fifo != 2
/-- Whether a command writes through a destination walk. -/
def CopyCmd.hasDst (x : CopyCmd) : Bool := x.op != opCscl && x.op != opCdsp && x.fifo != 1
/-- Its source walk. -/
def CopyCmd.ws (x : CopyCmd) : Walk := walkOf x.walkS
/-- Its destination walk. -/
def CopyCmd.wd (x : CopyCmd) : Walk := walkOf x.walkD
/-- Its source descriptor's fields. -/
def CopyCmd.ts (x : CopyCmd) : Tensor := tensorOf x.src.img
/-- Its destination descriptor's fields. -/
def CopyCmd.td (x : CopyCmd) : Tensor := tensorOf x.dst.img
/-- Every position below it is complete. -/
def CopyCmd.low (x : CopyCmd) : Nat := x.rep * x.wlen + x.pos
/-- Positions over all repetitions. -/
def CopyCmd.total (x : CopyCmd) : Nat := x.reps * x.wlen
/-- Whether position g is complete. -/
def CopyCmd.isDone (x : CopyCmd) (g : Nat) : Bool := g < x.low || x.doneOut.contains g
/-- Whether position g needs no transfer any more: it is complete, or it has been read and what it writes is on its way. -/
def CopyCmd.isMoved (x : CopyCmd) (g : Nat) : Bool :=
  x.isDone g || x.away.any (fun y => y.1.contains g) || (match x.pend with | some p => p.gs.contains g | none => false)
/-- The first position that needs a transfer. -/
def CopyCmd.next (x : CopyCmd) : Nat :=
  (((List.range (x.total - x.low)).map (fun i => x.low + i)).find? (fun g => !x.isMoved g)).getD x.total

/-- Gang multicast (R349): the word is one that multicasts and the destination asks for it. -/
def CopyCmd.asksMulticast (x : CopyCmd) : Bool := (x.op == opCcpy || x.op == opCzero) && x.hasDst && bit x.td.aux 31

/-- The group that a multicast names. -/
def State.mcGroup (s : State) (x : CopyCmd) : Option (List Nat) :=
  (s.gang.groups.find? (fun g => g.1 == x.td.aux % 64)).map (fun g => g.2)

/-! ## Checks (R182 to R186) -/

/-- The tags of R152 with BXPK. -/
def plainTag (tag : Nat) : Bool := elementTag tag || tag == 8

/-- Whether a view lies in a vault. -/
def View.vaultBound (v : View) : Bool := match v.back with | some (.vault ..) => true | _ => false

/-- The kinds of walk that a side accepts: of kind 1 only where the word says so. -/
def kindOk (indirect : Bool) (w : Walk) : Bool := if indirect then w.kind == 1 else w.kind == 0 || w.kind == 2

/-- The bits of an element: of a stream side, a whole number of bytes. -/
def CopyCmd.elemBits (x : CopyCmd) : Nat := if x.hasSrc && x.op != opCcvt then x.ts.fmt.bits else x.td.fmt.bits

/-- The runs of 32 positions of a `ccvt` to a BX destination cover one block each, in ascending d0 order (R182). -/
def CopyCmd.blocksOk (x : CopyCmd) : Bool :=
  !(x.op == opCcvt && x.td.fmt.isBx) || (x.wlen % 32 == 0 && (List.range (x.wlen / 32)).all (fun b =>
    let q := x.wd.at_ 0 (32 * b) 0
    q % 32 == 0 && (List.range 32).all (fun (i : Nat) => x.wd.at_ 0 (32 * b + i) 0 == q + i)))

/-- Whether a word's row limits its sides to the tags of R152 and BXPK (R182, R184, R185): `cred`, `cscl` and `czero` name
no limit (R183, R186, R188). -/
def tagsLimited (op : Nat) : Bool := op != opCred && op != opCscl && op != opCzero

/-- Whether a walk's index descriptor can be used (R169, R395); a walk of another kind has none. -/
def State.indexOk (s : State) (w : Walk) (idx : Cap) : Bool :=
  w.kind != 1 || (indexFmt idx && (s.view s.ctx idx).usable (tensorOf idx.img))

/-- The rules for the source side. -/
def State.srcOk (s : State) (x : CopyCmd) : Bool :=
  let v := s.view s.ctx x.src
  let t := x.ts
  walkUsable x.walkS && (if x.op == opCscl then true else kindOk (x.op == opCgath) x.ws)
    && v.usable t && (if x.op == opCxpd then v.tag == 7 else !tagsLimited x.op || plainTag v.tag)
    && (x.op != opCscl || ((t.fmt == .n8 || t.fmt == .i16) && x.ws.len * (t.fmt.bits / 8) % 128 == 0))
    && (x.fifo == 0 || !t.fmt.isBx)
    && s.indexOk x.ws x.idx

/-- The rules for the destination side. -/
def State.dstOk (s : State) (x : CopyCmd) : Bool :=
  let v := s.view s.ctx x.dst
  let t := x.td
  walkUsable x.walkD && kindOk (x.op == opCscat) x.wd && v.usable t
    && (if x.op == opCfilb then v.tag == 5 && v.inVault (quadOf s.cur) (quadOf s.cur)
        else !tagsLimited x.op || plainTag v.tag)
    && (x.op != opCmcst || v.vaultBound)
    && (x.op != opCred || (t.key != 0 && (t.fmt == .f32 || t.fmt == .f16 || t.fmt == .b16 || t.fmt == .i32)))
    && (x.op != opCcvt || (t.fmt != .aq8 && (!t.fmt.isBx || x.ts.fmt == .f32)))
    && (x.fifo == 0 || !t.fmt.isBx)
    && s.indexOk x.wd x.idx
    && (!x.asksMulticast || (!v.vaultBound && !t.bk && t.base / 2 ^ 47 % 2 ^ 10 == 0x3FF && bits t.aux 30 6 == 0
        && (s.mcGroup x).isSome))

/-- Every rule that does not depend on a position's data (R175 step 2). -/
def State.commandOk (s : State) (x : CopyCmd) : Bool :=
  (!x.hasSrc || s.srcOk x) && (!x.hasDst || s.dstOk x)
    && (!(x.hasSrc && x.hasDst) || (x.ws.len == x.wd.len && (x.op == opCcvt || x.ts.fmt == x.td.fmt)))
    && (!x.hasDst || x.blocksOk)

/-! ## The declared destination (R175) -/

/-- The device-memory rows that a destination walk reaches: positions beyond the tensor reach none. -/
def State.reachedRows (s : State) (x : CopyCmd) : List Nat :=
  (List.range x.total).filterMap (fun g =>
    match s.locate s.ctx (quadOf s.cur) x.dst (x.wd.at_ (g / x.wlen) (g % x.wlen) 0) false false with
    | .at_ ps _ => (match (rowsOf ps).head? with | some (.va a) => some (s.normVa a) | _ => none)
    | _ => none)

/-- The first and the last byte of the declared destination in device memory, by normalised address; for a kind 1
destination the whole tensor. -/
def State.declared (s : State) (x : CopyCmd) : Option (Nat × Nat) :=
  if !x.hasDst then none
  else match (s.view s.ctx x.dst).back with
  | some (.va a) =>
    let lo := s.normVa a
    if x.wd.kind = 1 then some (lo, lo + (x.td.extent (s.view s.ctx x.dst).tag - 1))
    else match s.reachedRows x with
    | [] => none
    | r :: rs => some (rs.foldl min r, rs.foldl max r + 127)
  | _ => none

/-- The address of a granule under the package field that the destination's own base names (R246, R315). -/
def State.granuleName (s : State) (x : CopyCmd) (g : Nat) : Nat :=
  match (s.view s.ctx x.dst).back with
  | some (.va a) => match s.whereIs a with
    | .here _ => a / 2 ^ 47 * 2 ^ 47 + g * 4096 % 2 ^ 47
    | _ => g * 4096
  | _ => g * 4096

/-- Marks every page of the declared destination dirty at both stages (R175 step 3, R318). -/
def State.markDirty (s : State) (x : CopyCmd) : State :=
  match s.declared x with
  | none => s
  | some (lo, hi) =>
    (List.range (hi / 65536 + 1 - lo / 65536)).foldl (fun t i =>
      (t.resolve t.ctx t.cur (.va ((lo / 65536 + i) * 65536)) true).1) s

/-! ## Claims (R175 step 4, R245, R346) -/

/-- The packages whose tables claim a destination; `none` is this one. -/
def State.claimTargets (s : State) (x : CopyCmd) (lo : Nat) : List (Option Nat) :=
  if x.asksMulticast then
    ((s.mcGroup x).getD []).map (fun g => if g = s.gang.self then none else some g)
  else match s.whereIs lo with
  | .package g => [some g]
  | _ => [none]

/-- How registering a claim ends. -/
inductive Claimed where
  | ok (s : State)
  | wait (s : State)
  | overlap (record : BitVec 128)

/-- Registers the declared destination. Claims on other packages are asked for first and awaited: the count of the entry
at work holds one more than the answers that are missing. -/
def State.claimDest (s : State) (x : CopyCmd) : Claimed :=
  match (if s.entryDet x.entry then s.declared x else none) with
  | none => .ok s
  | some (lo, hi) =>
    let g0 := lo / 4096
    let g1 := hi / 4096
    let ts := s.claimTargets x lo
    let far := ts.filterMap id
    let claim := fun (t : State) (p : Option Nat) =>
      { t with nextClaim := t.nextClaim + 1,
               claims := t.claims ++ [{ id := t.nextClaim, die := dieOf s.cur, ctx := s.ctx, core := s.cur,
                                        seq := x.entry.seq, lo := g0, hi := g1, pkg := p }] }
    if !far.isEmpty && s.act.count == 0 then
      let s1 := far.foldl (fun t g => (claim t (some g)).sendRemote g (g0 * 4096) (.claim s.cur x.tag)
        (.claim (g1 + 1 - g0) s.cur x.entry.seq)) s
      .wait (s1.setAct { s1.act with count := 1 + far.length })
    else if 1 < s.act.count then .wait s
    else if !ts.contains none then .ok s
    else match s.claimConflict s.ctx s.cur x.entry.seq g0 g1 with
    | some (seq, core, eng, g) => .overlap (footRecord seq core eng 0 0x3F 2 0xFF (s.granuleName x g))
    | none => if 4096 ≤ s.claimCount (dieOf s.cur) then .wait s else .ok (claim s none)

/-! ## Acceptance (R175) -/

/-- The command that a word makes: its walks and the descriptors they name, read once (R109), under a number of its own. -/
def State.newCommand (s : State) (w : EWord) (fifo : Nat) : CopyCmd :=
  let c := s.core
  let wS := c.walk (w.extractLsb' 21 5).toNat
  let wD := c.walk (w.extractLsb' 16 5).toNat
  let a := walkOf wS
  let b := walkOf wD
  let x : CopyCmd := { tag := { s.tag with cmd := c.cmds }, word := w, entry := s.act.entry, walkS := wS, walkD := wD,
                       fifo := fifo, src := c.cap a.tix, dst := c.cap b.tix,
                       idx := c.cap (if wordOp w = opCscat then b.iix else a.iix),
                       fps := s.q.phases, reps := wordReps w }
  { x with wlen := if x.hasSrc then a.len else b.len }

/-- The word at work has read its tables: its command is made (R109, R175 step 1). -/
def State.holdCommand (s : State) (x : CopyCmd) : State :=
  (s.upd (fun c => { c with cmds := c.cmds + 1 })).setAct { s.act with cmd := some x }

/-- The entry at work names a channel (R187). -/
def State.nameChannel (s : State) (k : Option Nat) : State :=
  match k with
  | some k => s.setAct { s.act with chans := insertNat s.act.chans k }
  | none => s

/-- The STREAM channel that replaces a side of a word: none when the word's row does not allow it (R181). -/
def State.streamSide (s : State) (w : EWord) : Option Nat :=
  let ch := s.core.channel (wordCh w)
  if (wordChannel w).isNone || ch.mode != .stream then some 0
  else if ch.out then (if outboundOk (wordOp w) then some 2 else none)
  else (if inboundOk (wordOp w) then some 1 else none)

/-- The claim of a command that is checked and has made its dirty marks; then it is in flight and the word has issued. -/
def State.claimCommand (s : State) (x : CopyCmd) (sc : BitVec 4) : Result :=
  match s.claimDest x with
  | .wait s1 => s1.wordWait
  | .overlap r => .next (s.footFault .c s.act.entry cFootprintOverlap r {})
  | .ok s1 =>
    let t := s1.issueAt
    ((s1.nameChannel (wordChannel x.word)).upd (fun c => { c with copies := c.copies ++ [x] })).wordDone t t sc.toNat t

/-- Accepts a checked command (R175): dirty marks, then the claim. -/
def State.acceptCommand (s : State) (x : CopyCmd) (sc : BitVec 4) : Result :=
  ((s.holdCommand x).markDirty x).claimCommand x sc

/-- A copy word whose command is checked by `ok`: at most eight commands of a core are in flight (R175). A command that
waits for its claim has been made: its tables are read, its checks and its dirty marks done. -/
def State.copyWord (s : State) (sc : BitVec 4) (ok : State → CopyCmd → Bool) : Result :=
  match s.act.cmd with
  | some x => s.claimCommand x sc
  | none =>
    let w := (s.act.word).getD 0
    if 8 ≤ s.core.copies.length then s.wordWait
    else match s.streamSide w with
    | none => s.illegalWord 0
    | some fifo =>
      let x := s.newCommand w fifo
      if ok s x then s.acceptCommand x sc else s.wordFault cTensorDesc

def execCcpy (o : CWord) (s : State) : Result := s.copyWord o.sc State.commandOk
def execCcvt (o : CWord) (_ : BitVec 3) (s : State) : Result := s.copyWord o.sc State.commandOk
def execCxpd (o : CWord) (s : State) : Result := s.copyWord o.sc State.commandOk
def execCfilb (o : CWord) (s : State) : Result := s.copyWord o.sc State.commandOk
def execCgath (o : CWord) (s : State) : Result := s.copyWord o.sc State.commandOk
def execCscat (o : CWord) (s : State) : Result := s.copyWord o.sc State.commandOk
def execCred (o : CWord) (_ : BitVec 3) (s : State) : Result := s.copyWord o.sc State.commandOk
def execCmcst (o : CWord) (_ : BitVec 8) (s : State) : Result := s.copyWord o.sc State.commandOk
def execCscl (_ : BitVec 5) (_ : BitVec 1) (sc : BitVec 4) (_ : BitVec 10) (s : State) : Result :=
  s.copyWord sc State.commandOk
def execCzero (_ : BitVec 5) (_ : BitVec 3) (sc : BitVec 4) (_ : BitVec 10) (s : State) : Result :=
  s.copyWord sc State.commandOk

/-! ## Channels (R187, R189) -/

/-- A word with an effect on a channel takes one cycle. -/
def State.channelDone (s : State) (k : Nat) (x : Channel) (sc : BitVec 4) : Result :=
  let t := s.issueAt
  let moved := (if x.mode = .range then x.wm else 0) ≠ (if (s.core.channel k).mode = .range then (s.core.channel k).wm else 0)
  ((s.nameChannel (some k)).upd (fun c => { c.setChannel k x with latch := c.latch || moved })).wordDone t t sc.toNat t

/-- Whether an earlier copy entry that names the channel is incomplete (R122, R187). -/
def Core.channelBusy (c : Core) (k : Nat) : Bool := c.qc.flight.any (fun f => f.chans.contains k)

def execCbindOff (ch : BitVec 3) (sc : BitVec 4) (s : State) : Result :=
  if s.core.channelBusy ch.toNat then s.wordWait else s.channelDone ch.toNat {} sc

def execCbindStream (ch : BitVec 3) (out : BitVec 1) (esz : BitVec 2) (sc : BitVec 4) (s : State) : Result :=
  if s.core.channelBusy ch.toNat then s.wordWait
  else s.channelDone ch.toNat { mode := .stream, out := out.toNat == 1, esz := esz } sc

/-- The rows of the lowest and the highest byte of a tensor (R187). -/
def State.extentRows (s : State) (cap : Cap) : Option (Loc × Loc) :=
  let v := s.view s.ctx cap
  match v.back with
  | none => none
  | some b =>
    match b.place (quadOf s.cur) 0, b.place (quadOf s.cur) ((tensorOf cap.img).extent v.tag - 1) with
    | some (l, _), some (m, _) => some (s.normLoc l, s.normLoc m)
    | _, _ => none

/-- The rows of the first and the last position of a walk in repetition 0; for a kind 1 walk, of the tensor (R187). -/
def State.rangeRows (s : State) (w : Walk) (cap : Cap) : Except (BitVec 8) (Loc × Loc) :=
  let row := fun (n : Nat) => s.locate s.ctx (quadOf s.cur) cap (w.at_ 0 n 0) false false
  if w.kind = 1 then (match s.extentRows cap with | some x => .ok x | none => .error cVaultBounds)
  else match row 0, row (w.len - 1) with
  | .at_ ps _, .at_ qs _ =>
    (match (rowsOf ps).head?, (rowsOf qs).head? with
     | some a, some b => .ok (s.normLoc a, s.normLoc b)
     | _, _ => .error cTensorDesc)
  | .bounds, _ => .error cVaultBounds
  | _, .bounds => .error cVaultBounds
  | _, _ => .error cTensorDesc

/-- The rows from the first to the last; none when they lie in different spaces, the wrong way round, or too many. -/
def rangeLen (a b : Loc) : Option Nat :=
  let n := match a, b with
    | .va x, .va y => if x / 2 ^ 47 = y / 2 ^ 47 ∧ x ≤ y then some ((y - x) / 128 + 1) else none
    | .vault q x, .vault r y => if q = r ∧ x ≤ y then some (y - x + 1) else none
    | _, _ => none
  n.filter (fun k => k ≤ 262144)

def execCbindRange (ch : BitVec 3) (wd : BitVec 5) (sc : BitVec 4) (s : State) : Result :=
  if s.core.channelBusy ch.toNat then s.wordWait
  else
    let rec_ := s.core.walk wd.toNat
    let w := walkOf rec_
    let cap := s.core.cap w.tix
    if !walkUsable rec_ || !(s.view s.ctx cap).usable (tensorOf cap.img) then s.wordFault cTensorDesc
    else match s.rangeRows w cap with
    | .error e => s.wordFault e
    | .ok (a, b) =>
      match rangeLen a b with
      | none => s.wordFault cTensorDesc
      | some n => s.channelDone ch.toNat { mode := .range, first := a, len := n } sc

def execCwmk (ch : BitVec 3) (n : BitVec 10) (sc : BitVec 4) (s : State) : Result :=
  let x := s.core.channel ch.toNat
  if x.mode ≠ .range then s.illegalWord 0
  else s.channelDone ch.toNat (x.setMark (x.wm + n.toNat) false) sc

end Sys2Proof.Machine
end

