-- ==== Sys2Proof/Machine/CopyMove.lean ====
section
/-! DEFINITION. How a copy command moves its rows (R176 to R180, R182 to R188, R349): the order of accesses, the source
and the destination of a position, the row written, channels, and the outcomes. -/

namespace Sys2Proof.Machine

/-! ## What a position touches (R178) -/

/-- Consecutive rows of one space: device memory, a logical quad's vault, a channel or a scale queue. -/
abbrev Region := Nat × Nat × Nat

/-- The region of a row. -/
def State.region (s : State) (l : Loc) : Region :=
  match s.normLoc l with
  | .va a => (0, a / 128, 1)
  | .vault q row => (1 + q, row, 1)

/-- The region of a whole tensor. -/
def State.wholeRegion (s : State) (cap : Cap) : List Region :=
  match s.extentRows cap with
  | some (.va a, .va b) => [(0, a / 128, b / 128 + 1 - a / 128)]
  | some (.vault q a, .vault _ b) => [(1 + q, a, b + 1 - a)]
  | _ => []

/-- Whether two lists of regions meet. -/
def regionsMeet (as bs : List Region) : Bool :=
  as.any (fun a => bs.any (fun b => a.1 == b.1 && rangesMeet a.2 b.2))

/-- What a position reads and writes; `all` where that is not known before it moves. -/
structure Touch where
  reads : List Region := []
  writes : List Region := []
  all : Bool := false
  deriving DecidableEq, Repr, Inhabited

/-- Whether two positions access one row: their accesses may not change places (R178). -/
def Touch.clash (a b : Touch) : Bool := a.all || b.all || regionsMeet (a.reads ++ a.writes) (b.reads ++ b.writes)

/-- The places that a destination row stands for: the replicas of a `cmcst` (R184), the members of a multicast group
(R349), or itself. -/
def State.placesOf (s : State) (x : CopyCmd) (l : Loc) : List Loc :=
  match l with
  | .vault q row =>
    if x.op = opCmcst then
      ((List.range 8).filter (fun d => x.word.getLsbD d)).map (fun d => Loc.vault (8 * d + q % 8) row)
    else [l]
  | .va a =>
    if x.asksMulticast then ((s.mcGroup x).getD []).map (fun g => Loc.va (a / 2 ^ 57 * 2 ^ 57 + g * 2 ^ 47 + a % 2 ^ 47))
    else [l]

/-- The rows of an element, with those of its scale or metadata; of a position that waits for a patch, the new ones. -/
def State.elemRows (s : State) (cap : Cap) (q : Int) (wr : Bool) : List Loc :=
  let own := quadOf s.cur
  let side := if (tensorOf cap.img).fmt.isBlock then s.scaleParts s.ctx own cap q.toNat
              else if (s.view s.ctx cap).tag = 7 then s.nibbleParts s.ctx own cap q.toNat else none
  match s.locate s.ctx own cap q wr, s.locate s.ctx own cap q wr false with
  | .at_ ps _, _ => rowsOf (ps ++ side.getD [])
  | .wait, .at_ ps _ => rowsOf (ps ++ side.getD [])
  | _, _ => []

/-- What position g of a command reads and writes. A walk of kind 1 touches its index and may touch its whole tensor; a
`cred` writes through the ordered combine unit; where a `cdsp` places a token is not known before (log entry 49). -/
def State.touch (s : State) (x : CopyCmd) (g : Nat) : Touch :=
  let r := g / x.wlen
  let n := g % x.wlen
  let index := fun (w : Walk) => match w.indexOf r n with
    | some k => (s.elemRows x.idx k false).map s.region
    | none => []
  let src := match x.ws.indexOf r n with
    | some _ => s.wholeRegion x.src
    | none => (s.elemRows x.src (x.ws.at_ r n 0) false).map s.region
  let dst := match x.wd.indexOf r n with
    | some _ => s.wholeRegion x.dst
    | none => ((s.elemRows x.dst (x.wd.at_ r n 0) true).flatMap (s.placesOf x)).map s.region
  { all := x.op == opCdsp,
    reads := (if x.hasSrc then src ++ index x.ws else []) ++ (if x.hasDst then index x.wd else []),
    writes := (if x.hasDst && x.op != opCred then dst else [])
      ++ (if x.fifo = 0 then [] else [(2000 + wordCh x.word, 0, 1)])
      ++ (if x.op = opCscl then [(3000 + wordMod x.word % 2, 0, 1)] else []) }

/-- The incomplete positions of a command below g. -/
def CopyCmd.openBelow (x : CopyCmd) (g : Nat) : List Nat :=
  ((List.range (g - x.low)).map (fun i => x.low + i)).filter (fun h => !x.isDone h)

/-- Whether an access to the same row comes first (R178): of an earlier command, or of an open position below g0. -/
def State.mustFollow (s : State) (k g0 g : Nat) (x : CopyCmd) : Bool :=
  let t := s.touch x g
  (s.core.copies.take k).any (fun y => (y.openBelow y.total).any (fun h => t.clash (s.touch y h)))
    || (x.openBelow g0).any (fun h => t.clash (s.touch x h))

/-! ## Reading a position (R177, R182) -/

/-- The status of an element that is not delivered (R177). -/
def lossStatus : RowRead → BitVec 8
  | .discarded => 2
  | .poisoned => 8
  | _ => 1

/-- The status of a position that its destination drops. -/
def dropped : RowRead → BitVec 8
  | .poisoned => 8
  | x => lossStatus x ||| 4

/-- The outcome that a command keeps of a row that it has read, as a status of R177. -/
def RowRead.outcome (x : RowRead) : BitVec 8 := if x.isOk then 0 else lossStatus x

/-- A row as a command has read it. -/
def keptOutcome (st : BitVec 8) (row : Row) : RowRead :=
  if st = 0 then .ok row else if st = 2 then .discarded else if st = 8 then .poisoned else .absent

/-- The command of a tag, as it stands now. -/
def State.commandOf (s : State) (x : CopyCmd) : CopyCmd := (s.core.copies.find? (fun y => y.tag == x.tag)).getD x

/-- Whether the command has read a row since it stood as `x`. -/
def State.readOne (s : State) (x : CopyCmd) : Bool := decide (x.cache.length < (s.commandOf x).cache.length)

/-- The row reader of the command that a turn finds as `x`: a row that it has read for the positions at work is at hand;
one more row is read in a turn, each row an access of its own (R192), and the others wait. An uncorrectable row is logged
once for the word (R177). -/
def copyReader (x : CopyCmd) (r : Reader) : RowReader := fun s loc =>
  let cur := s.commandOf x
  match cur.cache.find? (fun y => y.1 == s.normLoc loc) with
  | some (_, st, row) => (s, keptOutcome st row)
  | none =>
    if s.readOne x then (s, .wait)
    else match engRow r x.tag s loc with
    | (s1, .wait) => (s1, .wait)
    | (s1, .bounds) => (s1, .bounds)
    | (s1, y) =>
      let again := y == .poisoned && cur.logged.contains loc
      ((if again then s else s1).upd (fun c => c.updTag x.tag (fun z => { z with
        cache := z.cache ++ [(s.normLoc loc, y.outcome, y.row)],
        logged := if y == .poisoned && !again then z.logged ++ [loc] else z.logged })), y)

/-- What a source position comes to: the element's bits and its scale, and the status. -/
inductive SrcRead where
  | value (num scale : Nat) (st : BitVec 8)
  | wait
  | fault (code : BitVec 8)
  | foot (record : BitVec 128)
  deriving DecidableEq, Repr, Inhabited

/-- An element that is used as it is. -/
def ElemRead.src : ElemRead → SrcRead
  | .bits v => .value v 0 0
  | .lost e => .value 0 0 (lossStatus e)
  | .wait => .wait
  | .fault c => .fault c
  | .foot r => .foot r

/-- Reads bits for a command: checked against its open phases, then read. -/
def State.readParts (s : State) (rd : RowReader) (x : CopyCmd) (ps : List Bits) : State × ElemRead :=
  match s.violations .c x.fps (s.entryDet x.entry) false (rowsOf ps) with
  | some r => (s, .foot r)
  | none =>
    match s.readBits rd ps with
    | (s1, .ok v) => (s1, .bits v)
    | (s1, .error .wait) => (s1, .wait)
    | (s1, .error .bounds) => (s1, .fault cVaultBounds)
    | (s1, .error e) => (s1, .lost e)

/-- The element at a dense position of an SP24 source (R32, R182). -/
def State.readStored (s : State) (rd : RowReader) (x : CopyCmd) (q : Int) : State × SrcRead :=
  let own := quadOf s.cur
  match s.locate s.ctx own x.src q false, s.nibbleParts s.ctx own x.src q.toNat with
  | .at_ .., some ps =>
    (match s.readParts rd x ps with
     | (s1, .bits b) =>
       let i0 := (x.ts.coord q.toNat).1
       (match nibbleValue (b / (if i0 / 4 % 2 = 0 then 1 else 16) % 16) (i0 % 4) with
        | none => (s1, .value 0 0 0)
        | some v =>
          match s1.locate s.ctx own x.src q false true v with
          | .at_ vs _ => let (s2, e) := s1.readParts rd x vs; (s2, e.src)
          | .wait => (s1, .wait)
          | _ => (s1, .fault cVaultBounds))
     | (s1, e) => (s1, e.src))
  | .desc, _ => (s, .fault cTensorDesc)
  | .wait, _ => (s, .wait)
  | _, _ => (s, .fault cVaultBounds)

/-- The element at position q of a source tensor. -/
def State.readSource (s : State) (rd : RowReader) (x : CopyCmd) (q : Int) : State × SrcRead :=
  if (s.view s.ctx x.src).tag = 7 then s.readStored rd x q
  else match s.readElem rd .c x.fps (s.entryDet x.entry) x.src q with
  | (s1, .bits v) =>
    if x.op = opCcvt && x.ts.fmt.isBlock then
      match s1.scaleParts s.ctx (quadOf s.cur) x.src q.toNat with
      | none => (s1, .fault cVaultBounds)
      | some ps =>
        (match s1.readParts rd x ps with
         | (s2, .bits sc) => (s2, .value v sc 0)
         | (s2, e) => (s2, e.src))
    else (s1, .value v 0 0)
  | (s1, e) => (s1, e.src)

/-- Takes n bytes of an outbound stream, little-endian (R174). -/
def Channel.take (ch : Channel) (n : Nat) : Option (Nat × Channel) :=
  let size := if ch.esz = 0 then 4 else if ch.esz = 1 then 8 else 128
  let need := (n - ch.taken.length + size - 1) / size
  if ch.fifo.length < need then none
  else
    let bytes := ch.taken ++ (ch.fifo.take need).flatMap (fun e => (bytesOf e.toNat size).map (BitVec.ofNat 8))
    some ((bytes.take n).foldr (fun b v => b.toNat + 256 * v) 0, { ch with fifo := ch.fifo.drop need, taken := bytes.drop n })

/-- The source element of position n of repetition r. -/
def State.copySource (s : State) (rd : RowReader) (x : CopyCmd) (r n : Nat) : State × SrcRead :=
  if x.fifo = 2 then
    match (s.core.channel (wordCh x.word)).take (x.elemBits / 8) with
    | none => (s, .wait)
    | some (v, ch) =>
      -- what is left of an element at the end of a repetition is discarded
      (s.upd (fun c => c.setChannel (wordCh x.word) (if n + 1 = x.wlen then { ch with taken := [] } else ch)), .value v 0 0)
  else if !x.hasSrc then (s, .value 0 0 0)
  else match x.ws.indexOf r n with
  | none => s.readSource rd x (x.ws.at_ r n 0)
  | some k =>
    match s.readIndex rd .c x.fps (s.entryDet x.entry) x.idx k with
    | (s1, .bits v) =>
      (match x.ws.pos r n (indexOf x.idx v) with
       | .skip => (s1, .value 0 0 0)
       | .at_ q => s1.readSource rd x q)
    | (s1, e) => (s1, e.src)

/-- Where a destination position lies. -/
inductive DstAt where
  | at_ (q : Int) (parts : List Bits)
  | drop (st : BitVec 8)
  | wait
  | fault (code : BitVec 8)
  | foot (record : BitVec 128)
  deriving DecidableEq, Repr, Inhabited

/-- Addresses a destination element. -/
def State.destAt (s : State) (x : CopyCmd) (q : Int) : DstAt :=
  match s.locate s.ctx (quadOf s.cur) x.dst q true with
  | .desc => .fault cTensorDesc
  | .bounds => .fault cVaultBounds
  | .wait => .wait
  | .at_ ps _ => .at_ q ps

/-- Position g of a command waits for the patch of element q, which it demands (R274 to R276). -/
def State.stallAt (s : State) (x : CopyCmd) (g : Nat) (q : Int) : State :=
  let on := (s.redirected s.ctx x.dst [q]).map (fun c => (g, c))
  (s.demand s.ctx x.dst q.toNat).upd (fun c => c.updTag x.tag (fun y => { y with
    stuck := y.stuck.filter (fun z => !on.contains z) ++ on }))

/-- The element at a position of an SP24 destination: the stored place that the group's nibble names; a position that it
does not name has no place and is dropped without a status (log entry 47). -/
def State.destStored (s : State) (rd : RowReader) (x : CopyCmd) (q : Int) : State × DstAt :=
  let own := quadOf s.cur
  match s.locate s.ctx own x.dst q true, s.nibbleParts s.ctx own x.dst q.toNat with
  | .at_ .., some ps =>
    (match s.readParts rd x ps with
     | (s1, .bits b) =>
       let i0 := (x.td.coord q.toNat).1
       (match nibbleValue (b / (if i0 / 4 % 2 = 0 then 1 else 16) % 16) (i0 % 4) with
        | none => (s1, .drop 0)
        | some v =>
          match s1.locate s.ctx own x.dst q true true v with
          | .at_ vs _ => (s1, .at_ q vs)
          | _ => (s1, .fault cVaultBounds))
     | (s1, .lost e) => (s1, .drop (dropped e))
     | (s1, .wait) => (s1, .wait)
     | (s1, .fault c) => (s1, .fault c)
     | (s1, .foot f) => (s1, .foot f))
  | .desc, _ => (s, .fault cTensorDesc)
  | .wait, _ => (s, .wait)
  | _, _ => (s, .fault cVaultBounds)

/-- The element that position n of repetition r writes; a position whose patch is not converted demands it. -/
def State.destElem (s : State) (rd : RowReader) (x : CopyCmd) (r n : Nat) (q : Int) : State × DstAt :=
  match if (s.view s.ctx x.dst).tag = 7 then s.destStored rd x q else (s, s.destAt x q) with
  | (s1, .wait) => (if s.destAt x q = .wait then s1.stallAt x (r * x.wlen + n) q else s1, .wait)
  | y => y

/-- The destination of position n of repetition r. -/
def State.copyDest (s : State) (rd : RowReader) (x : CopyCmd) (r n : Nat) : State × DstAt :=
  match x.wd.indexOf r n with
  | none => s.destElem rd x r n (x.wd.at_ r n 0)
  | some k =>
    match s.readIndex rd .c x.fps (s.entryDet x.entry) x.idx k with
    | (s1, .bits v) =>
      (match x.wd.pos r n (indexOf x.idx v) with
       | .skip => (s1, .drop 0)
       | .at_ q => s1.destElem rd x r n q)
    | (s1, .lost e) => (s1, .drop (dropped e))
    | (s1, .wait) => (s1, .wait)
    | (s1, .fault c) => (s1, .fault c)
    | (s1, .foot f) => (s1, .foot f)

/-- F(x) of R182 for a destination that is not BX: the RSD key is the destination's logical index. The word's mode also
rounds to F32 (log entry 90). -/
def CopyCmd.move (x : CopyCmd) (q : Int) (num scale : Nat) : Nat :=
  if x.op = opCcvt then
    x.td.fmt.roundTo (rndOf (x.word.extractLsb' 10 3) x.entry.seed q.toNat) (blockElement x.ts.fmt scale num)
  else num

/-! ## A run of positions -/

/-- Positions that go into one row: their elements as bits and value, the destination's logical indices, the status. -/
structure Batch where
  gs : List Nat := []
  rows : List Loc := []
  els : List (List Bits × Nat) := []
  qs : List Int := []
  st : BitVec 8 := 0
  deriving DecidableEq, Repr, Inhabited

/-- How a run ends. -/
inductive Ran where
  | ok (s : State) (b : Batch)
  | wait (s : State)
  | fault (s : State) (code : BitVec 8)
  | foot (s : State) (record : BitVec 128)

/-- Gathers the run that begins at g0, at most `fuel` positions from g on: consecutive positions of one repetition into
the same rows, as long as no row of the run is read again. A position that cannot go on ends the run; where it has just
read a row, the run is gathered again in the next turn. -/
def State.gather (s : State) (rd : RowReader) (k g0 : Nat) (x : CopyCmd) : Nat → Nat → Batch → Ran
  | 0, _, b => .ok s b
  | fuel + 1, g, b =>
    let r := g / x.wlen
    let n := g % x.wlen
    let more := !b.gs.isEmpty
    let hold := fun (t : State) => if more && (x.fifo == 2 || !t.readOne x) then Ran.ok s b else .wait t
    if x.isMoved g || (more && (s.mustFollow k g0 g x
        || regionsMeet (s.touch x g).reads ((b.rows.map s.region)))) then .ok s b
    else match s.copyDest rd x r n with
    | (s1, .wait) => hold s1
    | (s1, .fault c) => if more then .ok s b else .fault s1 c
    | (s1, .foot f) => if more then .ok s b else .foot s1 f
    | (s1, .drop st) =>
      if more then .ok s b
      else (match s1.copySource rd x r n with
        | (s2, .value _ _ st') => .ok s2 { gs := [g], st := st ||| st' }
        | (s2, .wait) => .wait s2
        | (s2, .fault c) => .fault s2 c
        | (s2, .foot f) => .foot s2 f)
    | (s1, .at_ q ps) =>
      if more && rowsOf ps != b.rows then .ok s b
      else match s1.copySource rd x r n with
      | (s2, .value num scale st) =>
        State.gather s2 rd k g0 x fuel (g + 1)
          { gs := b.gs ++ [g], rows := rowsOf ps, els := b.els ++ [(ps, x.move q num scale)], qs := b.qs ++ [q], st := b.st ||| st }
      | (s2, .wait) => hold s2
      | (s2, .fault c) => if more then .ok s b else .fault s2 c
      | (s2, .foot f) => if more then .ok s b else .foot s2 f

/-- Gathers given positions whatever their rows. -/
def State.gatherAll (s : State) (rd : RowReader) (x : CopyCmd) : List Nat → Batch → Ran
  | [], b => .ok s b
  | g :: gs, b =>
    match s.copyDest rd x (g / x.wlen) (g % x.wlen) with
    | (s1, .wait) => .wait s1
    | (s1, .fault c) => .fault s1 c
    | (s1, .foot f) => .foot s1 f
    | (s1, .drop st) => State.gatherAll s1 rd x gs { b with gs := b.gs ++ [g], st := b.st ||| st }
    | (s1, .at_ q ps) =>
      match s1.copySource rd x (g / x.wlen) (g % x.wlen) with
      | (s2, .value num scale st) =>
        State.gatherAll s2 rd x gs
          { gs := b.gs ++ [g], rows := (rowsOf ps).foldl insertLoc b.rows, els := b.els ++ [(ps, x.move q num scale)],
            qs := b.qs ++ [q], st := b.st ||| st }
      | (s2, .wait) => .wait s2
      | (s2, .fault c) => .fault s2 c
      | (s2, .foot f) => .foot s2 f

/-- A block of 32 positions into a BX destination (R29, R182): mantissas and the exponent byte. -/
def State.gatherBlock (s : State) (rd : RowReader) (x : CopyCmd) (g : Nat) : Ran :=
  let y := { x with word := x.word &&& ~~~(0x3F0000000000 : BitVec 48) }
  match s.gatherAll rd y ((List.range 32).map (fun i => g / 32 * 32 + i)) {} with
  | .ok s1 b =>
    let bits := x.td.fmt.bits
    let rnds := b.qs.map (fun (q : Int) => rndOf (x.word.extractLsb' 10 3) x.entry.seed q.toNat)
    let (e, ms) := blockQuant bits rnds (b.els.map (fun p => Fmt.value .f32 p.2))
    let els := (b.els.zip ms).map (fun (p : (List Bits × Nat) × Int) => (p.1.1, intCode bits p.2))
    (match s1.scaleParts s.ctx (quadOf s.cur) x.dst (b.qs.headD 0).toNat with
     | none => .fault s1 cVaultBounds
     | some ps => .ok s1 { b with rows := (rowsOf ps).foldl insertLoc b.rows, els := els ++ [(ps, e)] })
  | other => other

/-! ## Writing a row -/

/-- The data, bytes and bits of one row from elements; a later one stands over an earlier one (R178). -/
def mergeParts (l : Loc) (els : List (List Bits × Nat)) : Nat × Nat × Nat :=
  els.foldl (fun (acc : Nat × Nat × Nat) x =>
    let (data, bytes, ones) := scatterBits l x.1 x.2
    (Nat.lor data (Nat.land acc.1 (2 ^ 1024 - 1 - ones)), Nat.lor acc.2.1 bytes, Nat.lor acc.2.2 ones)) (0, 0, 0)

/-- Whether the context holds every replica row of a repetition of a `cmcst` (R184). -/
def State.replicasHeld (s : State) (x : CopyCmd) (r : Nat) : Bool :=
  x.op != opCmcst || (List.range x.wlen).all (fun n =>
    match s.destAt x (x.wd.at_ r n 0) with
    | .at_ _ ps => (rowsOf ps).all (fun l => (s.placesOf x l).all (fun p =>
        match p with
        | .vault q row => (s.seg s.ctx q (row / 512)).isSome
        | .va _ => true))
    | _ => true)

/-- Whether a row's bytes are written whole. -/
def wholeBytes (row : Nat × Nat × Nat) : Bool := expandMask 128 row.2.1 == row.2.2

/-- How the write of one place ends: the status and the remote operation sent, or a wait. -/
inductive PlaceEnd where
  | done (s : State) (st : BitVec 8) (ids : List Nat)
  | wait (s : State)

/-- Writes one place of a row; a row of another package that is written in part of a byte is read first. -/
def State.writePlace (s : State) (r : Reader) (x : CopyCmd) (l : Loc) (row : Nat × Nat × Nat) : PlaceEnd :=
  let (data, bytes, ones) := row
  let bad := match (s.resolve s.ctx s.cur l true).2 with | .spot p => s.poisoned p | _ => false
  let send := fun (t : State) (g : Nat) (whole : Nat) =>
    let va := match l with | .va a => a | .vault .. => 0
    PlaceEnd.done (t.sendRemote g va (.copyWrite s.cur x.tag) (.writeRow (BitVec.ofNat 1024 whole) (BitVec.ofNat 128 bytes))) 0
      [2 * t.nextRemote + 1]
  match s.writeRowBits l data bytes ones with
  | (s1, .ok) => .done (s1.upd (fun c => c.markWritten x.word (s.normLoc l))) (if bad then 8 else 0) []
  | (s1, .absent) => .done s1 5 []
  | (s1, .discarded) => .done s1 6 []
  | (s1, .remote g) =>
    if wholeBytes row then send s1 g data
    else (match engRow r x.tag s l with
      | (s2, .wait) => .wait s2
      | (s2, y) => send s2 g (Nat.lor data (Nat.land y.row.toNat (2 ^ 1024 - 1 - ones))))
  | (s1, .wait) => .wait s1
  | (s1, .bounds) => .done s1 0 []

/-- What keeps places from being written at all: a fault. -/
inductive PlaceReady where
  | ok
  | fault (code : BitVec 8)
  | foot (record : BitVec 128)

/-- Whether every place of some rows may be written: its phase and its segment. -/
def State.placesReady (s : State) (x : CopyCmd) : List Loc → PlaceReady
  | [] => .ok
  | l :: ls =>
    match s.violations .c x.fps (s.entryDet x.entry) true [l] with
    | some r => .foot r
    | none =>
      match (s.resolve s.ctx s.cur l true).2 with
      | .bounds => .fault cVaultBounds
      | _ => State.placesReady s x ls

/-! ## Completion and faults -/

/-- Positions have been read and written: they are complete, or wait for the operations sent. Operations sent for a
position before its last ones go with those. -/
def CopyCmd.settle (x : CopyCmd) (gs : List Nat) (st : BitVec 8) (ids : List Nat) : CopyCmd :=
  let y := { x with status := x.status ||| st, pend := none }
  if gs.isEmpty then (if ids.isEmpty then y else { y with away := y.away ++ [([], ids)] })
  else
    let all := ids ++ (y.away.filter (fun z => z.1.isEmpty)).flatMap (fun z => z.2)
    let z := { y with cache := [], away := y.away.filter (fun z => !z.1.isEmpty) }
    if all.isEmpty then z.complete gs else { z with away := z.away ++ [(gs, all)] }

/-- Positions of a command have been read and written; it ends when it is finished. -/
def State.finish (s : State) (x : CopyCmd) (gs : List Nat) (st : BitVec 8) (ids : List Nat) : State :=
  s.upd (fun c =>
    let c1 := (c.stick x.word st).updTag x.tag (fun y => y.settle gs st ids)
    (if gs.isEmpty then c1 else c1.dropFar x.tag).endCommand x.tag)

/-- The progress of a command (R298). -/
def CopyCmd.progress (x : CopyCmd) : Progress := { rep := x.rep, count := x.pos, status := x.status }

/-- A position faults: the copy queue stops at the command's entry (R179). -/
def State.copyFault (s : State) (x : CopyCmd) (code : BitVec 8) : State := s.engineFault .c x.entry code x.progress

/-- A footprint violation of a position. -/
def State.copyFoot (s : State) (x : CopyCmd) (r : BitVec 128) : State :=
  s.footFault .c x.entry cFootprintViolation r x.progress

/-- Writes one of the rows that a command's read positions still have to write, in any order (R178, R184, R201); with the
last one they are settled. -/
def State.writePend (s : State) (r : Reader) (x : CopyCmd) (p : CopyPend) (i : Nat) : State :=
  let j := if p.rows.isEmpty then 0 else i % p.rows.length
  match p.rows[j]? with
  | none => s.finish x p.gs p.st p.ids
  | some row =>
    match s.writePlace r x row.1 row.2 with
    | .wait t => t
    | .done t st ids =>
      let q := { p with rows := p.rows.eraseIdx j, ids := p.ids ++ ids, st := p.st ||| st }
      if q.rows.isEmpty then t.finish x q.gs q.st q.ids
      else t.upd (fun c => c.updTag x.tag (fun y => { y with pend := some q }))

/-- A gathered run is checked, and its rows wait to be written; the first of them is written now. The rows that it has read
and those that it writes are bursts of the copy engine (R249). -/
def State.landRun (s : State) (r : Reader) (x : CopyCmd) (b : Batch) : State :=
  let rep := b.gs.headD 0 / x.wlen
  let rows := b.rows.map (fun l => (l, mergeParts l b.els))
  let places := rows.flatMap (fun r => (s.placesOf x r.1).map (fun p => (p, r.2)))
  if !b.rows.isEmpty && !s.replicasHeld x rep then s.copyFault x cVaultBounds
  else match s.placesReady x (places.map (fun p => p.1)) with
  | .fault c => s.copyFault x c
  | .foot f => s.copyFoot x f
  | .ok =>
    let p : CopyPend := { gs := b.gs, rows := places, st := b.st }
    let s1 := (s.noteGroup (some .c) ((s.commandOf x).cache.map (fun y => y.1))).noteGroup (some .c) (places.map (fun y => y.1))
    (s1.upd (fun c => c.updTag x.tag (fun y => { y with pend := some p, cache := [] }))).writePend r x p 0

/-! ## Streams and scale queues (R174, R186) -/

/-- Element size and capacity of a stream channel. -/
def Channel.shape (ch : Channel) : Nat × Nat := if ch.esz = 0 then (4, 512) else if ch.esz = 1 then (8, 256) else (128, 16)

/-- The number of little-endian bytes. -/
def bytesNat (bs : List Byte) : Nat := bs.foldr (fun b v => b.toNat + 256 * v) 0

/-- Appends bytes; the last ones of a repetition are padded with zeros. None while the FIFO cannot take them. -/
def Channel.append (ch : Channel) (bs : List Byte) (last : Bool) : Option Channel :=
  let (size, cap) := ch.shape
  let p := ch.part ++ bs
  let n := if last then (p.length + size - 1) / size else p.length / size
  if cap < ch.fifo.length + n then none
  else some { ch with fifo := ch.fifo ++ (List.range n).map (fun i => BitVec.ofNat 1024 (bytesNat ((p.drop (size * i)).take size))),
                      part := p.drop (size * n) }

/-- Elements that a copy word has appended in cycle t: those of one cycle stand behind what a `vpush` of the cycle brings
(R161). -/
def Channel.filled (ch old : Channel) (t : Nat) : Channel :=
  let n := ch.fifo.length - old.fifo.length
  if n = 0 then ch else { ch with late := if old.late.1 = t then (t, old.late.2 + n) else (t, n) }

/-- Position g of a word whose destination is an inbound stream; an element that enters sets the event latch (R118). -/
def State.pushPos (s : State) (rd : RowReader) (x : CopyCmd) (g : Nat) : State :=
  let ch := wordCh x.word
  match s.copySource rd x (g / x.wlen) (g % x.wlen) with
  | (s1, .wait) => s1
  | (s1, .fault c) => s1.copyFault x c
  | (s1, .foot r) => s1.copyFoot x r
  | (s1, .value num _ st) =>
    let old := s1.core.channel ch
    match old.append ((bytesOf num (x.elemBits / 8)).map (BitVec.ofNat 8)) (g % x.wlen + 1 == x.wlen) with
    | none => s1
    | some c' => (s1.upd (fun c => { c.setChannel ch (c'.filled old s1.now) with
        latch := c.latch || c'.fifo.length != old.fifo.length })).finish x [g] st []

/-- The elements of some source positions, one after another. -/
def State.sourceAll (s : State) (rd : RowReader) (x : CopyCmd) : List Nat → State × List Nat × SrcRead
  | [] => (s, [], .value 0 0 0)
  | g :: gs =>
    match s.copySource rd x (g / x.wlen) (g % x.wlen) with
    | (s1, .value num _ st) =>
      (match State.sourceAll s1 rd x gs with
       | (s2, l, .value _ _ st') => (s2, num :: l, .value 0 0 (st ||| st'))
       | bad => bad)
    | (s1, bad) => (s1, [], bad)

/-- A row of a `cscl` (R186): 128 bytes of the walk go into SQA or SQB. -/
def State.pushScale (s : State) (rd : RowReader) (k : Nat) (x : CopyCmd) (g0 : Nat) : State :=
  let w := x.ts.fmt.bits
  let per := 1024 / w
  let gs := (List.range per).map (fun i => g0 / per * per + i)
  let b := wordMod x.word % 2 == 1
  if 16 ≤ (if b then s.core.sqb else s.core.sqa).length || gs.any (fun g => s.mustFollow k (g0 / per * per) g x) then s
  else match s.sourceAll rd x gs with
  | (s1, l, .value _ _ st) =>
    let row := BitVec.ofNat 1024 (packLanes w l)
    (s1.upd (fun c => if b then { c with sqb := c.sqb ++ [row] } else { c with sqa := c.sqa ++ [row] })).finish x gs st []
  | (s1, _, .wait) => s1
  | (s1, _, .fault c) => s1.copyFault x c
  | (s1, _, .foot r) => s1.copyFoot x r

/-! ## Contributions (R183) -/

/-- The elements of a contribution in walk order: byte offset and bits; an element named twice is combined twice (R183). -/
def creditEls (els : List (List Bits × Nat)) : List (Nat × Nat) :=
  els.flatMap (fun e => match e.1 with
    | p :: _ => [(p.off, e.2)]
    | [] => [])

/-- Every position of a `cred` into the row of position g goes to the row's ordered combine unit as one contribution. -/
def State.creditRow (s : State) (rd : RowReader) (k : Nat) (x : CopyCmd) (g : Nat) : State :=
  let rowOf := fun (h : Nat) => match s.destAt x (x.wd.at_ 0 h 0) with | .at_ _ ps => some (rowsOf ps) | _ => none
  let gs := (List.range x.wlen).filter (fun h => !x.isMoved h && (h == g || ((rowOf h).isSome && rowOf h == rowOf g)))
  if gs.any (fun h => s.mustFollow k (gs.headD g) h x) then s
  else match s.gatherAll rd x gs {} with
  | .wait t => t
  | .fault t c => t.copyFault x c
  | .foot t r => t.copyFoot x r
  | .ok t b =>
    match b.rows with
    | [] => t.finish x b.gs b.st []
    | l :: _ =>
      (match t.violations .c x.fps (t.entryDet x.entry) true b.rows with
       | some r => t.copyFoot x r
       | none =>
         let key := x.td.aux % 65536
         let n := x.td.aux / 65536
         let op := wordMod x.word
         let launch := match t.launchAt x.entry.launch with | some y => y.number | none => 0
         let els := creditEls b.els
         match t.resolve t.ctx t.cur l true with
         | (u, .remote p) =>
           let va := match l with | .va a => a | .vault .. => 0
           (u.sendRemote p va (.copyWrite t.cur x.tag) (.combine op x.td.fmtCode launch key n els)).finish x b.gs b.st
             [2 * u.nextRemote + 1]
         | (_, .bounds) => t.copyFault x cVaultBounds
         | (_, target) =>
           let c : Contrib := { id := 0, die := 0, ctx := t.ctx, core := t.cur, launch := x.entry.launch, dest := { loc := l },
                                key := key, n := n, payload := .cred op x.td.fmtCode els, reply := .command x.tag,
                                reissue := x.entry.reissue,
                                lost := (match target with | .absent => some true | .discarded => some false | _ => none) }
           (t.contribute c).finish x b.gs b.st [2 * t.nextContrib])

/-! ## The step -/

/-- A position that waits with its source under conversion goes through the conversion's record (R276). -/
def State.noteThrough (s : State) (x : CopyCmd) (g : Nat) : State :=
  let on := if x.hasSrc && x.ws.kind != 1 then
      (s.redirected s.ctx x.src [x.ws.at_ (g / x.wlen) (g % x.wlen) 0]).map (fun c => (g, c)) else []
  if on.isEmpty then s
  else s.upd (fun c => c.updTag x.tag (fun y => { y with stuck := y.stuck.filter (fun z => !on.contains z) ++ on }))

/-- The positions of a block of 32 into a BX destination, or position g alone. -/
def CopyCmd.block (x : CopyCmd) (g : Nat) : List Nat :=
  if x.op == opCcvt && x.td.fmt.isBx then (List.range 32).map (fun i => g / 32 * 32 + i) else [g]

/-- Moves position g of command k of the current core and the positions that go into the same row with it; a command whose
positions have been read writes their next row. -/
def State.moveAt (s : State) (k g : Nat) (x : CopyCmd) : State :=
  let r := s.readerOf x.entry
  let rd := copyReader x r
  match x.pend with
  | some p => s.writePend r x p g
  | none =>
    if x.isMoved g || (x.block g).any (fun h => s.mustFollow k ((x.block g).headD g) h x) then s
    else if x.op = opCscl then s.pushScale rd k x g
    else if x.fifo = 1 then s.pushPos rd x g
    else if x.op = opCred then s.creditRow rd k x g
    else
      let ran := if x.op == opCcvt && x.td.fmt.isBx then s.gatherBlock rd x g
                 else s.gather rd k g x (x.wlen - g % x.wlen) g {}
      match ran with
      | .wait t => t.noteThrough x g
      | .fault t c => t.copyFault x c
      | .foot t f => t.copyFoot x f
      | .ok t b => t.landRun r x b

/-- Whether the copy queue is stopped at a command's entry; the commands of later entries go on (R116; DESIGN CHOICE, log
entry 84). -/
def Core.copyStopped (c : Core) (x : CopyCmd) : Bool :=
  match c.qc.stopped with
  | some f => f.seq == x.tag.seq
  | none => false

end Sys2Proof.Machine
end

