-- ==== Sys2Proof/Machine/Slice.lean ====
section
/-! DEFINITION. Time slices of a physical core that serves two logical cores (R2, R19, R203): who the other one is,
whether it is runnable, and the switch. -/

namespace Sys2Proof.Machine

/-- Whether the core waits at a yield point (R18). -/
def Core.yields (c : Core) : Bool :=
  match c.waiting with
  | some (.flag _) => true
  | some .barrier => true
  | some (.stream _) => true
  | some .watermark => true
  | some .batch => true
  | some .fork => true
  | some .latch => true
  | some (.insertion ..) => true
  | some .ring => true
  | some (.grant _) => true
  | some .crossing => true
  | some .claim => true
  | _ => false

/-- Whether an access of the core waits at the head of its queue for a watermark (R89). -/
def State.marked (s : State) : Bool :=
  [s.core.lq, s.core.sq].any (fun l =>
    match l with
    | x :: _ =>
      (match x.kind with
       | .token _ => false
       | _ => s.heldBack s.core (x.handle.loc (quadOf s.cur) x.off))
    | [] => false)

/-- Whether the core is at a yield point: it waits at one, or for an access that a watermark holds back (R18, R89). -/
def State.atYield (s : State) : Bool :=
  s.core.yields || ((s.core.waiting == some .register || s.core.waiting == some .memory) && s.marked)

/-- Whether a logical core has something to do now: a task that does not wait on an empty flag, or entries. -/
def Core.runnable (c : Core) : Bool :=
  c.stoppedAt != some 2 && ((match c.task with
   | some t => t.started && (match c.waiting with | some (.flag f) => decide (0 < c.flag f) || c.pend | _ => true)
   | none => false) || !(c.qv.idle && c.qm.idle && c.qc.idle))

/-- The other logical core of the physical core that serves logical core n. -/
def State.partner (s : State) (n : Nat) : Option Nat :=
  match s.physOf n with
  | none => none
  | some p => (List.range 256).find? (fun k => k != n && s.physOf k == some p)

/-- A loan of bank j of the logical quad of core n ends, with the effect of an `mrecl`, and is noted for the resume (R210). -/
def State.endLoan (s : State) (ctx n j k : Nat) : State :=
  let qd := s.physQuad (quadOf n)
  let q := s.quad qd
  let lender := 4 * quadOf n + j
  let borrower := 4 * quadOf n + k
  let s1 := s.setQuad qd { q with lent := SMap.set 0 q.lent j 0 }
  let s2 := s1.setCoreAt ctx lender { s1.coreAt ctx lender with loanLent := some k }
  let c := s2.coreAt ctx borrower
  s2.setCoreAt ctx borrower { c with loanBorrowed := insertNat c.loanBorrowed j }

/-- The victim's loans end and its lease is released (R203, R210). -/
def State.endShares (s : State) (ctx n : Nat) : State :=
  let qd := s.physQuad (quadOf n)
  let s1 := [0, 1, 2, 3].foldl (fun (t : State) j =>
    match SMap.get 0 (t.quad qd).lent j with
    | 0 => t
    | k + 1 => if j = n % 4 ∨ k = n % 4 then t.endLoan ctx n j k else t) s
  let q := s1.quad qd
  if q.holder = some (n % 4) then s1.setQuad qd { q with holder := none } else s1

/-- The rows that a repetition at work still has to store are written, as far as none waits. -/
def State.putRows : Nat → State → State
  | 0, s => s
  | k + 1, s =>
    match s.act.part with
    | none => s
    | some p =>
      match s.partWrite p with
      | .more (.next u) => State.putRows k u
      | .more _ => s
      | .all u q => u.keepPart q

/-- An engine's repetition at work at a stop (R167, R203, R236): one whose rows are still being read has not begun; one that
stores writes the rows that remain. -/
def State.stopPart (s : State) (e : Eng) : State :=
  let t : State := { s with eng := e }
  let u := match t.q.act.bind (fun a => a.part) with
    | none => t
    | some p =>
      if p.put.isEmpty then (if p.todo.isEmpty then t else t.setAct { t.act with part := none })
      else State.putRows p.put.length t
  { u with eng := s.eng }

/-- The rows of the positions that a command has read are written, as far as none waits. -/
def State.settlePend : Nat → State → Tag → State
  | 0, s, _ => s
  | k + 1, s, tag =>
    match s.core.copies.find? (fun x => x.tag == tag) with
    | none => s
    | some x =>
      match x.pend with
      | none => s
      | some p => State.settlePend k (s.writePend (s.readerOf x.entry) x p 0) tag

/-- A stopped command keeps (r, P): later positions are written again (R179). What it has sent to an ordered combine unit,
to a counter, to a scale queue or through a FIFO is not sent again. -/
def CopyCmd.restart (x : CopyCmd) : CopyCmd :=
  if x.fifo == 0 && x.op != opCred && x.op != opCdsp && x.op != opCscl then { x with doneOut := [], cache := [] }
  else { x with cache := [] }

/-- The copy engine stops at a row boundary (R179, R203). -/
def State.stopCopies (s : State) : State :=
  let t : State := { s with eng := .c }
  let u := t.core.copies.foldl (fun (v : State) x =>
    State.settlePend (match x.pend with | some p => p.rows.length | none => 0) v x.tag) t
  { u.upd (fun c => { c with copies := c.copies.map CopyCmd.restart }) with eng := s.eng }

/-- The victim's engines stop (R203). -/
def State.stopEngines (s : State) : State := ((s.stopPart .v).stopPart .m).stopCopies

/-- The victim stops (R203): its control core at an instruction boundary, where a wait is left (R204), once the queued
accesses that can perform have performed; its engines, each at its boundary; its loans end and its lease is released. -/
def State.stopCore (s : State) (ctx n : Nat) (cause : BitVec 8) : State :=
  let u := { s with ctx := ctx, cur := n }
  let again := u.core.waiting.isSome && !(match u.core.waiting with | some (.grant _) => true | _ => false)
  let v := u.drainQueues.stopEngines.leaveStop.upd (fun c => { c with lastCause := cause, again := again })
  { v.endShares ctx n with ctx := s.ctx, cur := s.cur }

/-- The physical core of logical core n serves logical core k of the same context from now on; its slice begins. -/
def State.switchTo (s : State) (ctx n k : Nat) : State :=
  match s.physOf n with
  | none => s
  | some p =>
    let t := s.stopCore ctx n 1
    t.setPhys p { t.physCore p with serving := some (ctx, k), sliceAt := t.time }

/-- At a yield point of logical core n the physical core switches to its other logical core, if that is runnable. -/
def State.yieldCore (s : State) : State :=
  match s.partner s.cur with
  | some k => if (s.coreAt s.ctx k).runnable then s.switchTo s.ctx s.cur k else s
  | none => s

end Sys2Proof.Machine
end

