-- ==== Sys2Proof/Machine/Launching.lean ====
section
/-! DEFINITION. Launches: `dlaunch` (R267), the order of launches and packets of a queue (R291, R297), admission (R296,
R299, R300), vault requests (R213, R238), launch start (R12, R256, R265, R294). -/

namespace Sys2Proof.Machine

/-! ## Queues and their descriptors (R285) -/

/-- The descriptor of a queue. -/
def State.queueDesc (s : State) (q : Nat) : Nat := (SMap.get 0 s.host.queueTable q).toNat

def qdRing (d : Nat) : Nat := bits d 511 448
def qdRidx (d : Nat) : Nat := bits d 383 320
def qdQuota (d : Nat) : Nat := bits d 319 288
def qdCtx (d : Nat) : Nat := bits d 287 272
def qdLog (d : Nat) : Nat := bits d 271 264
def qdPubn (d : Nat) : Nat := bits d 263 256
def qdPri (d : Nat) : Nat := bits d 255 253
def qdEn (d : Nat) : Bool := bit d 252

/-- The rules of a descriptor. -/
def queueDescOk (d : Nat) : Bool :=
  qdRing d % 4096 == 0 && bits d 447 384 % 8 == 0 && qdRidx d % 16 == 0 && 4 ≤ qdLog d && qdLog d ≤ 16
    && qdPubn d + 1 ≤ 2 ^ qdLog d && d % 2 ^ 252 == 0

/-- The front end's state of a queue. -/
def State.pqueue (s : State) (q : Nat) : PQueue := SMap.get {} s.pqueues q
/-- Replaces it. -/
def State.setPqueue (s : State) (q : Nat) (x : PQueue) : State := { s with pqueues := SMap.set {} s.pqueues q x }

/-- The priority of a queue now (R299). -/
def State.pri (s : State) (q : Nat) : Nat := qdPri (s.queueDesc q) + (if (s.pqueue q).raised then 1 else 0)

/-! ## The order of a queue (R267, R291, R297) -/

/-- Whether launch b stands behind launch a in their queue. -/
def Launch.behind (b a : Launch) : Bool :=
  a.queue == b.queue && a.ctx == b.ctx && (decide (a.root < b.root)
    || (a.root == b.root && ((a.parent.isNone && b.parent.isSome) || (a.parent.isSome && b.parent.isSome && a.number < b.number))))

/-- Whether the step of a packet has ended (R291). -/
def State.stepEnded (s : State) (p : Packet) : Bool :=
  match p.stage with
  | .consumed => false
  | .done => true
  | .stepped =>
    match p.launch, p.graph with
    | some l, _ => (match s.launchAt l with | some x => x.admitted | none => true)
    | none, some g =>
      (match s.graphs[g]? with
       | some y => y.done || ((List.range y.tasks.length).all (fun k =>
           match y.launches.find? (fun z => z.1 == k) with
           | some z => (match s.launchAt (z.2 - 1) with | some x => x.admitted | none => false)
           | none => false))
       | none => true)
    | none, none => true

/-- Whether what stands before packet index i of a queue lets it begin: completed, or with `ovl` past its step. -/
def State.packetTurn (s : State) (q i : Nat) (ovl : Bool) : Bool :=
  ((s.pqueue q).packets.filter (fun p => p.idx < i)).all (fun p => ovl && s.stepEnded p)
    && s.launches.all (fun x => !(x.queue == q && x.parent.isSome && x.root < i) || x.retired || (ovl && x.admitted))

/-- Whether a launch may begin after what stands before it. The launches of packets begin with their packets' steps; in
deterministic mode none overlaps a launch with COV (R260). -/
def State.launchTurn (s : State) (x : Launch) : Bool :=
  let ovl := orOvl x.oprec
  (x.parent.isNone || (
    ((s.pqueue x.queue).packets.filter (fun p => p.idx ≤ x.root)).all (fun p => ovl && s.stepEnded p)
      && s.launches.all (fun a => !(x.behind a && a.parent.isSome) || a.retired || (ovl && a.admitted))))
    && !(ovl && orDet x.oprec && s.launches.any (fun a => x.behind a && orCov a.oprec && !a.retired))

/-! ## Barrier networks (R248, R266, R300) -/

/-- The logical quads of a launch's span. -/
def Launch.quads (x : Launch) : List Nat :=
  (List.range 64).filter (fun q => (List.range 4).any (fun k => x.spans (4 * q + k)))

/-- Launches that hold slots. -/
def State.inFlightLaunches (s : State) : List Launch := s.launches.filter (fun x => x.admitted && !x.retired && x.error.isNone)

/-- Whether every barrier network of the span has a free slot of its eight. -/
def State.barrierSlots (s : State) (x : Launch) : Bool :=
  let live := s.inFlightLaunches
  live.length < 8 && x.quads.all (fun q =>
    (live.filter (fun y => y.quads.any (fun p => s.physQuad p == s.physQuad q))).length < 8
      && (live.filter (fun y => y.quads.any (fun p => p / 8 == q / 8))).length < 8)

/-! ## Vault requests (R213, R238) -/

/-- A free physical general segment of the vault that serves a logical quad. -/
def State.freeSegment (s : State) (quad : Nat) : Option Nat :=
  ((List.range 448).map (fun k => 512 * s.physQuad quad + k)).find? s.segFree

/-- Gives a context segment: an empty one (log entry 3). -/
def State.giveSegment (s : State) (ctx quad cseg pseg : Nat) : State :=
  { s with segs := s.segs ++ [{ ctx := ctx, quad := quad, cseg := cseg, pseg := pseg }],
           vault := eraseRange s.vault (pseg * 65536) 65536,
           vaultPoison := s.vaultPoison.filter (fun w => w / 4096 != pseg) }

/-- Gives a context segment whose place another logical quad of the context holds: it begins in the vault image, and the two
take turns under the lazy save (R212, R252). -/
def State.giveSaved (s : State) (ctx quad cseg : Nat) : State :=
  { s with segs := s.segs ++ [{ ctx := ctx, quad := quad, cseg := cseg, st := .saved }] }

/-- Whether another logical quad of the context holds a physical segment that context segment `cseg` of a logical quad could
stand in: one of its kind in the vault that serves both (R252). -/
def State.sharesPlace (s : State) (ctx quad cseg : Nat) : Bool :=
  s.segs.any (fun g => g.ctx == ctx && g.quad != quad && s.physQuad g.quad == s.physQuad quad
    && (if cseg < 448 then decide (g.cseg < 448) else g.cseg == cseg))

/-- Adds general segments up to `n` in a logical quad; none while no physical segment is free. -/
def State.growGeneral (s : State) (ctx quad n : Nat) : Nat → Option State
  | 0 => some s
  | fuel + 1 =>
    let k := s.segCount ctx quad
    if n ≤ k then some s
    else match s.freeSegment quad with
    | none => if s.sharesPlace ctx quad k then State.growGeneral (s.giveSaved ctx quad k) ctx quad n fuel else none
    | some p => State.growGeneral (s.giveSegment ctx quad k p) ctx quad n fuel

/-- Adds the segments of a B page, at the same segment numbers; none while another context holds one. -/
def State.growPage (s : State) (ctx quad : Nat) : List Nat → Option State
  | [] => some s
  | c :: cs =>
    if (s.seg ctx quad c).isSome then State.growPage s ctx quad cs
    else
      let p := 512 * s.physQuad quad + c
      if s.segFree p then State.growPage (s.giveSegment ctx quad c p) ctx quad cs
      else if s.sharesPlace ctx quad c then State.growPage (s.giveSaved ctx quad c) ctx quad cs
      else none

/-- The segments of the B pages of a bitmap. -/
def pageSegments (bpg : Nat) : List Nat :=
  ((List.range 4).filter (fun p => bit bpg p)).flatMap (fun p => (List.range 16).map (fun i => 448 + 16 * p + i))

/-- The vault request of a launch (R293) in its logical quads. -/
def State.growAll (s : State) (x : Launch) : List Nat → Option State
  | [] => some s
  | q :: qs =>
    match s.growGeneral x.ctx q (orVseg x.oprec) 448 with
    | none => none
    | some t =>
      match t.growPage x.ctx q (pageSegments (orBpg x.oprec)) with
      | none => none
      | some u => State.growAll u x qs

/-! ## Admission (R296, R299) -/

/-- Whether every shadow bank of the span is free. -/
def State.shadowsFree (s : State) (x : Launch) : Bool :=
  (List.range 256).all (fun n => !x.spans n || (s.coreAt x.ctx n).shadow.isNone)

/-- Whether a launch could be admitted now; while a pre-emption is requested, only those of a graph step go on (R203, R292). -/
def State.admissible (s : State) (x : Launch) : Bool :=
  x.read && !x.admitted && !x.retired && (s.context x.ctx).running
    && ((s.context x.ctx).stopReq.isNone || x.graph.isSome) && s.launchTurn x
    && (x.bad || !recordFieldsOk x.oprec || (s.shadowsFree x && s.barrierSlots x && (s.growAll x x.quads).isSome))

/-- Whether queue `a` is served before queue `b` (R299): by priority, then round-robin. -/
def State.servedFirst (s : State) (a b : Nat) : Bool :=
  s.pri b < s.pri a || (s.pri a == s.pri b && decide ((s.pqueue a).served < (s.pqueue b).served))

/-- Whether another queue's operator is to be admitted first. -/
def State.outranked (s : State) (x : Launch) : Bool :=
  s.launches.any (fun y => y.queue != x.queue && s.servedFirst y.queue x.queue && s.admissible y)

/-- Places the launch in the shadow bank of every logical core of its span (R296). -/
def State.fillShadows (s : State) (l : Nat) (x : Launch) : State :=
  (List.range 256).foldl (fun t n =>
    if x.spans n then t.setCoreAt x.ctx n { t.coreAt x.ctx n with shadow := some l } else t) s

/-- The queue's turn at its level is over: it goes behind the others, and its wait begins again while launches of it wait;
a raise goes over to the operator (R20, R299). -/
def State.rotate (s : State) (q : Nat) : State :=
  let top := s.pqueues.foldl (fun m x => max m x.2.served) 0
  let more := s.launches.any (fun x => x.queue == q && !x.admitted && !x.retired)
  s.setPqueue q { s.pqueue q with served := top + 1, raised := false, waitSince := if more then s.time else 0 }

/-- The launch completes with BADOPREC and binds no task (R295). -/
def State.badLaunch (s : State) (l : Nat) : State :=
  s.updLaunch l (fun x => { x with admitted := true, error := some 2, tstart := s.time, t := if x.bad then 0 else x.t })

/-- Reads the operator record of a device-built launch. -/
def State.readRecord (s : State) (l : Nat) (x : Launch) : State :=
  match s.feRead x.ctx (x.addr.toNat / 256 * 256) 256 with
  | (s1, .ok v) =>
    let r := BitVec.ofNat 2048 v
    s1.updLaunch l (fun y =>
      let crec := if y.parent.isSome then BitVec.ofNat 64 (orCrec r) else y.crec
      { y with read := true, oprec := r, crec := crec })
  | (s1, .error _) => s1.updLaunch l (fun y => { y with read := true, bad := true })

/-- LAUNCH_ADMIT: launch `l` of the launch list. The record is read first; the next turn admits. -/
def execLaunchAdmit (l : Nat) (s : State) : Result :=
  match s.launchAt l with
  | none => .next s
  | some x =>
    if !x.read then .next (s.readRecord l x)
    else if !s.admissible x || s.outranked x then .next s
    else match s.validate x with
    | (s1, none) => .next ((s1.badLaunch l).rotate x.queue)
    | (s1, some y) =>
      match s1.growAll y y.quads with
      | none => .next s
      | some s2 =>
        let depth := match s2.replayed y with | some (_, k, v) => SMap.get 0 v.pfds k | none => 0
        let z := { y with admitted := true, raised := (s.pqueue x.queue).raised, pfd := if depth = 0 then y.pfd else depth }
        .next (((s2.setLaunch l z).fillShadows l z).rotate x.queue)

/-! ## Launch start (R12, R256, R265, R294) -/

/-- Reads the count word (R256) and the controller slot (R265) as the launch starts on its first core; none: BADOPREC. The
slot of a launch without coverage is read and updated alike: R265 asks for no COV. -/
def State.startChecks (s : State) (x : Launch) : State × Option Launch :=
  let r := x.oprec
  let (s1, y) : State × Option Launch :=
    if orGmode r = 1 ∧ orCntind r = true then
      match s.feRead x.ctx (orCount r) 4 with
      | (t, .ok n) => (t, if n ≤ 2 ^ 24 ∧ t.placementOk { x with t := n } = true then some { x with t := n } else none)
      | (t, .error _) => (t, none)
    else (s, some x)
  match y with
  | none => (s1, none)
  | some z =>
    if orSlot r = 0 then (s1, some z)
    else if orSlot r % 64 ≠ 0 then (s1, none)
    else match s1.feRead x.ctx (orSlot r) 64 with
    | (t, .error _) => (t, none)
    | (t, .ok v) =>
      if bits v 511 288 ≠ 0 ∨ bits v 47 42 ≠ 0 ∨ bits v 23 16 < bits v 15 8 then (t, none)
      else (t, some { z with code := min (bits v 23 16) (max (bits v 15 8) (bits v 7 0)), shadowS := bits v 63 48,
                             slot := BitVec.ofNat 64 (orSlot r) })

/-- The image that a preload entry puts into the table: BASE comes from the argument table when ARG = 1 (R294). -/
def State.preloadImage (s : State) (x : Launch) (arg : Option Nat) (img : BitVec 512) : State × BitVec 512 :=
  match arg with
  | none => (s, img)
  | some k =>
    match s.feRead x.ctx (x.argtab.toNat + 8 * k) 8 with
    | (s1, .ok v) => (s1, setWord img 1 (BitVec.ofNat 64 v))
    | (s1, .error _) => (s1, setWord img 1 0)

/-- The preloads with their bases filled in. -/
def State.fillPreloads (s : State) (x : Launch) : List (Nat × Bool × Option Nat × BitVec 512) →
    State × List (Nat × Bool × Option Nat × BitVec 512)
  | [] => (s, [])
  | (tix, walk, arg, img) :: rest =>
    let (s1, v) := s.preloadImage x arg img
    let (s2, l) := State.fillPreloads s1 x rest
    (s2, (tix, walk, arg, v) :: l)

/-- Loads the preloads into a core's tables, in list order. -/
def Core.loadPreloads (c : Core) (l : List (Nat × Bool × Option Nat × BitVec 512)) : Core :=
  l.foldl (fun (c : Core) p =>
    if p.2.1 then { c with w := SMap.set 0 c.w p.1 (p.2.2.2.extractLsb' 0 256) } else { c with t := SMap.set 0 c.t p.1 p.2.2.2 }) c

/-- A queue at launch start: an empty one begins again, one that still drains keeps its entries and its numbering (R12,
R15) and its class counters (R134). Debug comparators stay. -/
def Queue.atLaunch (q : Queue) : Queue :=
  if q.idle then { q with next := 0, phases := [], stopped := none, issuing := 0, waitFlag := 0, waitEngine := 0, empty := 0,
                          sampled := [] }
  else q

/-- The core's state at launch start (R12, R134) in cycle `now`; of the writes of an earlier launch's entries those that
have not landed are still to come (R15). -/
def Core.atLaunch (c : Core) (now l : Nat) (x : Launch) : Core :=
  let qm := c.qm.atLaunch
  { c with
    s := [], h := [], m := [], pc := 0, seed := 0, resid := 0, xpc := 0, xcause := 0, xval := 0, inh := false, flt := false,
    xhand := BitVec.ofNat 64 (orHand x.oprec), schk := false, lrun := 16, interlock := false, grantPending := 0, arrived := [],
    held := [], param := none, latch := false, flags := [], rig := [], chan := [], sqa := [], sqb := [],
    qv := c.qv.atLaunch, qm := qm, qc := c.qc.atLaunch, forks := [], batches := [], batchLo := qm.next, pinned := 0,
    epoch := c.epoch + c.crossing.length, crossing := [], t := [], w := [], v := [], acc := [],
    pendV := c.pendV.filter (fun p => decide (now < p.land)), pendM := c.pendM.filter (fun p => decide (now < p.land)),
    loadedAt := [], waitCount := if c.qv.idle && c.qm.idle && c.qc.idle then [] else c.waitCount, barAt := none,
    ended := if c.qc.idle then [] else c.ended, launch := some l, shadow := none,
    task := none, waiting := none, stoppedAt := none }

/-- Whether the shadow launch of a core may become active there (R296). -/
def State.mayStart (s : State) (n : Nat) (c : Core) (x : Launch) : Bool :=
  c.stoppedAt != some 2 && match s.launchOf c with
  | none => true
  | some p =>
    p.retired || (c.task.isNone && p.exhausted n
      && (orOvl x.oprec || !p.exited.any (fun e => e.2 == n)))

/-- Whether logical core n of a context has anything to do (R299). -/
def State.busyCore (s : State) (ctx n : Nat) : Bool :=
  let c := s.coreAt ctx n
  c.task.isSome || c.shadow.isSome || !(c.qv.idle && c.qm.idle && c.qc.idle)
    || (match s.launchOf c with | some x => !x.retired && !x.exhausted n | none => false)

/-- The context that the physical core of logical core n works for. -/
def State.nearCtx (s : State) (n : Nat) : Option Nat :=
  (s.physOf n).bind (fun p => (s.physCore p).serving.map (fun x => x.1))

/-- Whether the physical core p may go over to logical core n of a context: it serves nothing that is busy. -/
def State.coreFree (s : State) (p : Nat) : Bool :=
  match (s.physCore p).serving with
  | some (c, k) => !s.busyCore c k
  | none => true

/-- The launch that core n takes next: its shadow bank's, or one admitted before that a fence made start again (R254). -/
def State.shadowFor (s : State) (ctx n : Nat) : Option Nat :=
  let c := s.coreAt ctx n
  match c.shadow with
  | some l => some l
  | none =>
    (List.range s.launches.length).find? (fun l =>
      match s.launchAt l with
      | some x => x.reissue && x.ctx == ctx && x.admitted && !x.retired && x.error.isNone && x.spans n
          && !x.started.contains n && c.launch != some l
      | none => false)

/-- The context whose shadow launch core n takes: the one that its physical core works for, or any when that is not
busy. -/
def State.startsFor (s : State) (n : Nat) : Option Nat :=
  let wants := (s.cores.filter (fun x => x.1 % 512 == n && (s.shadowFor (x.1 / 512) n).isSome
      && (s.context (x.1 / 512)).running)).map (fun x => x.1 / 512)
  match s.physOf n with
  | none => none
  | some p =>
    match (wants.filter (fun c => s.nearCtx n == some c)).head? with
    | some c => some c
    | none => if s.coreFree p then wants.head? else none

/-- The physical core serves logical core n of a context, unless it serves another that is busy; the one it served stops
(R203, R210). -/
def State.takeCore (s : State) (ctx n p : Nat) : State :=
  if s.servedCtx n = some ctx || !s.coreFree p then s
  else
    let t := match (s.physCore p).serving with
      | some (c, k) => s.stopCore c k (if c = ctx then 1 else 0)
      | none => s
    t.setPhys p { t.physCore p with serving := some (ctx, n), sliceAt := t.time }

/-- LAUNCH_START: the shadow launch bank of logical core n becomes active. -/
def execLaunchStart (n : Nat) (s : State) : Result :=
  match s.startsFor n, s.physOf n with
  | some ctx, some p =>
    let c := s.coreAt ctx n
    (match s.shadowFor ctx n with
     | none => .next s
     | some l =>
       match s.launchAt l with
       | none => .next s
       | some x =>
         if x.retired || x.error.isSome then .next (s.setCoreAt ctx n { c with shadow := none })
         else if !s.mayStart n c x then .next s
         else
           let first := !x.begun
           let (s1, y) := if first then s.startChecks x else (s, some x)
           match y with
           | none => .next (s1.badLaunch l)
           | some z =>
             let (s2, pre) := s1.fillPreloads z (if first then z.preloads else [])
             let w := { z with started := z.started ++ [n], begun := true, tstart := if first then s.time else z.tstart,
                               preloads := if first then pre else z.preloads }
             let t := s2.takeCore ctx n p
             let s3 := (t.setLaunch l w).setCoreAt ctx n (((t.coreAt ctx n).atLaunch s2.now l w).loadPreloads w.preloads)
             let idle := fun (e : Eng) => (c.queue e).idle
             .next { s3 with phases := s3.phases.filter (fun f => !(f.ctx == ctx && f.core == n && idle f.eng)) })
  | _, _ => .next s

/-! ## Device-built launches (R267) -/

/-- Device-built launches of a context that have not retired. -/
def State.deviceBuilt (s : State) (ctx : Nat) : Nat :=
  (s.launches.filter (fun x => x.ctx == ctx && x.parent.isSome && !x.retired)).length

/-- A launch that has its number and waits for admission. -/
def State.addLaunch (s : State) (x : Launch) : State :=
  let c := s.context x.ctx
  let q := s.pqueue x.queue
  let s1 := s.setContext x.ctx { c with nextLaunch := c.nextLaunch + 1 }
  let s2 := if q.waitSince = 0 then s1.setPqueue x.queue { q with waitSince := s.time } else s1
  { s2 with launches := s2.launches ++ [{ x with number := c.nextLaunch, quota := qdQuota (s.queueDesc x.queue) }] }

/-- `dlaunch sd, sa`. -/
def execDlaunch (d a : Reg) (s : State) : Result :=
  if 16 ≤ s.deviceBuilt s.ctx then s.wait .ring
  else if !s.storesDone 3 then s.wait .memory
  else
    let s1 := s.noteLive
    let p := s1.core.launch
    let (queue, root) := match p.bind s1.launchAt with | some y => (y.queue, y.root) | none => (0, 0)
    let n := (s1.context s1.ctx).nextLaunch
    let s2 := s1.addLaunch { number := n, ctx := s1.ctx, queue := queue, oprec := 0, crec := 0, t := 0, parent := some (p.getD 0),
                             root := root, addr := s1.core.rd a }
    s2.writeReg d (BitVec.ofNat 64 n) 4

end Sys2Proof.Machine
end

