-- ==== Sys2Proof/Machine/Packets.lean ====
section
/-! DEFINITION. The front end's packets (R286 to R292): reading the ring, taking steps in order, the effects, completion
and the queue status block. -/

namespace Sys2Proof.Machine

/-! ## Fields (R289, R290) -/

/-- The 64-bit word at a byte offset of a packet. -/
def pkWord (p : BitVec 512) (off : Nat) : Nat := bits p.toNat (8 * off + 63) (8 * off)
/-- TYPE. -/
def pkType (p : BitVec 512) : Nat := bits p.toNat 7 0
/-- VEC. -/
def pkVec (p : BitVec 512) : Nat := bits p.toNat 31 16
/-- USER. -/
def pkUser (p : BitVec 512) : Nat := bits p.toNat 63 32
/-- IRQ. -/
def pkIrq (p : BitVec 512) : Bool := bit p.toNat 11
/-- PUB. -/
def pkPub (p : BitVec 512) : Bool := bit p.toNat 10
/-- PH. -/
def pkPhase (p : BitVec 512) : Nat := bits p.toNat 8 8

/-- Every byte from an offset on is zero. -/
def zeroFrom (p : BitVec 512) (off : Nat) : Bool := p.toNat / 2 ^ (8 * off) == 0

/-- A width and scope word: width in [0], scope in [3:1] (R290). -/
def widthScopeOk (v : Nat) (wide : Bool) : Bool := decide (v / 16 = 0) && decide (v / 2 < 6) && (wide || v % 2 == 0)

/-- The rules of a packet (R289, R290). -/
def packetOk (p : BitVec 512) : Bool :=
  bits p.toNat 15 12 == 0 && !bit p.toNat 9 && (match pkType p with
    | 0 => zeroFrom p 8
    | 1 => zeroFrom p 24
    | 2 => zeroFrom p 40
    | 3 => widthScopeOk (pkWord p 24) true && zeroFrom p 32
    | 4 => widthScopeOk (pkWord p 24) false && zeroFrom p 32
    | 5 => pkWord p 32 ≤ 3 && zeroFrom p 40
    | 6 => widthScopeOk (pkWord p 24) true && zeroFrom p 48
    | 7 => zeroFrom p 32 && pkWord p 8 % 128 == 0 && pkWord p 16 % 128 == 0 && pkWord p 24 % 128 == 0 && pkWord p 24 < 2 ^ 40
    | 8 => zeroFrom p 16
    | 9 => pkWord p 8 ≤ 5 && zeroFrom p 16
    | _ => false)

/-! ## Reading the ring (R286 to R288) -/

/-- Whether the front end works on a queue now. -/
def State.queueRuns (s : State) (q : Nat) : Bool :=
  let x := s.pqueue q
  let c := s.context (qdCtx (s.queueDesc q))
  x.enabled && x.active && !x.paused && s.recovery.isNone && c.running && c.stopReq.isNone

/-- Whether a WRSIG has written and not signalled: its step goes on even when its context's slice has ended (R292). -/
def Packet.midSignal (p : Packet) : Bool := pkType p.bits == 6 && p.stage == .consumed && p.moved == 1

/-- The packet at the next index of a queue, if its header is of the index's phase. -/
def State.peekPacket (s : State) (q : Nat) : State × Option (BitVec 512) :=
  let d := s.queueDesc q
  let i := (s.pqueue q).consumed
  match s.feRead (qdCtx d) (qdRing d + 64 * (i % 2 ^ qdLog d)) 64 with
  | (s1, .ok v) =>
    let p := BitVec.ofNat 512 v
    (s1, if pkType p ≠ 0xFF ∧ pkPhase p = i / 2 ^ qdLog d % 2 then some p else none)
  | (s1, .error _) => (s1, none)

/-- Writes the published read index (R287). -/
def State.publish (s : State) (q : Nat) : State :=
  let x := s.pqueue q
  let d := s.queueDesc q
  (s.setPqueue q { x with published := x.consumed }).feWrite (qdCtx d) (qdRidx d) 8 x.consumed

/-- Consumes a packet (R287). -/
def State.consume (s : State) (q : Nat) (p : BitVec 512) : State :=
  let x := s.pqueue q
  let n := x.consumed + 1
  let s1 := s.setPqueue q { x with consumed := n, foundAt := s.time, packets := x.packets ++ [{ idx := x.consumed, bits := p }] }
  if n % (qdPubn (s.queueDesc q) + 1) = 0 ∨ pkPub p = true then s1.publish q else s1

/-- The packet whose step is next: consumed already, or consumed now. -/
def State.nextPacket (s : State) (q : Nat) : State × Option Packet :=
  match (s.pqueue q).packets.find? (fun p => p.stage == .consumed) with
  | some p => (s, some p)
  | none =>
    match s.peekPacket q with
    | (s1, none) => (s1, none)
    | (s1, some b) =>
      let s2 := s1.consume q b
      (s2, (s2.pqueue q).packets.find? (fun p => p.stage == .consumed))

/-- Changes a packet of a queue. -/
def State.updPacket (s : State) (q i : Nat) (f : Packet → Packet) : State :=
  let x := s.pqueue q
  s.setPqueue q { x with packets := x.packets.map (fun p => if p.idx == i then f p else p) }

/-! ## Completion (R291) -/

/-- A packet completes: the second word of the status block, and VEC when IRQ is set. -/
def State.completePacket (s : State) (q : Nat) (p : Packet) (status : Nat) : State :=
  let x := s.pqueue q
  let d := s.queueDesc q
  let bad := status != 0
  let y := { x with packets := x.packets.filter (fun k => k.idx != p.idx),
                    last := if bad then BitVec.ofNat 32 p.idx else x.last, nerr := if bad then min 65535 (x.nerr + 1) else x.nerr }
  let s1 := (s.setPqueue q y).feWrite (qdCtx d) (qdRidx d + 8) 8 (status + y.nerr * 2 ^ 16 + y.last.toNat * 2 ^ 32)
  if pkIrq p.bits then s1.event 0 (qdCtx d) (pkUser p.bits) (pkVec p.bits) else s1

/-! ## Steps -/

/-- A packet of type `ty` of queue q takes its step by `f` when it is next, well formed and its turn has come; `ovl` says
whether its own launches may overlap. -/
def State.packetStep (s : State) (q ty : Nat) (ovl : State → Packet → Bool) (f : State → Packet → State) : Result :=
  if !(s.queueRuns q || (s.pqueue q).packets.any Packet.midSignal) then .next s
  else match s.nextPacket q with
  | (_, none) => .next s
  | (s1, some p) =>
    if pkType p.bits ≠ ty then .next s
    else if !s1.packetTurn q p.idx (packetOk p.bits && ovl s1 p) then .next s1
    else if !packetOk p.bits then .next (s1.completePacket q p 1)
    else .next (f s1 p)

/-- A step that does not overlap. -/
def noOverlap (_ : State) (_ : Packet) : Bool := false

/-- The context of a queue. -/
def State.queueCtx (s : State) (q : Nat) : Nat := qdCtx (s.queueDesc q)

/-- NOP. -/
def execNopPacket (q : Nat) (s : State) : Result := s.packetStep q 0 noOverlap (fun t p => t.completePacket q p 0)

/-- The operator record that an OPREC packet names, as the front end reads it; zero when it cannot. -/
def State.peekRecord (s : State) (q : Nat) (p : Packet) : State × Except RowRead Nat :=
  s.feRead (s.queueCtx q) (pkWord p.bits 8 / 256 * 256) 256

/-- Whether the record of an OPREC packet sets OVL. -/
def recordOverlaps (q : Nat) (s : State) (p : Packet) : Bool :=
  match (s.peekRecord q p).2 with
  | .ok v => orOvl (BitVec.ofNat 2048 v)
  | .error _ => false

/-- OPREC: the launch gets its number and waits for admission. -/
def execOprec (q : Nat) (s : State) : Result :=
  s.packetStep q 1 (recordOverlaps q) (fun t p =>
    let ctx := t.queueCtx q
    if t.feAbsent ctx (pkWord p.bits 16) true then t.completePacket q p 3
    else
      let (t1, r) := t.peekRecord q p
      let x : Launch := { number := 0, ctx := ctx, queue := q, oprec := (match r with | .ok v => BitVec.ofNat 2048 v | .error _ => 0),
                          crec := BitVec.ofNat 64 (pkWord p.bits 16), t := 0, packet := some p.idx, root := p.idx,
                          addr := BitVec.ofNat 64 (pkWord p.bits 8), read := true,
                          bad := (match r with | .ok _ => false | .error _ => true) }
      (t1.addLaunch x).updPacket q p.idx (fun k => { k with stage := .stepped, launch := some t1.launches.length }))

/-! ## Data of packets (R290, R347) -/

/-- The package that holds an address, when it is another one. -/
def State.farOf (s : State) (va : Nat) : Option Nat :=
  match s.whereIs va with
  | .package g => some g
  | _ => none

/-- The row writes that store n ≤ 128 bytes at an address. -/
def rowWrites (va n v : Nat) : List (Nat × RemoteOp) :=
  let k := min n (128 - va % 128)
  let one := (rowBase va, RemoteOp.writeRow (placeAt (va % 128) (v % 2 ^ (8 * k))) (byteMask (va % 128) k))
  if n ≤ k then [one]
  else [one, (rowBase va + 128, .writeRow (placeAt 0 (v / 2 ^ (8 * k))) (byteMask 0 (n - k)))]

/-- The row reads that bring n ≤ 128 bytes from an address. -/
def rowReads (va n : Nat) : List (Nat × RemoteOp) :=
  if va % 128 + n ≤ 128 then [(rowBase va, .readRow)] else [(rowBase va, .readRow), (rowBase va + 128, .readRow)]

/-- The packet has had its answers and asks for nothing more yet. -/
def Packet.afresh (p : Packet) (moved : Nat) : Packet := { p with asked := 0, got := [], moved := moved }

/-- Sends operation `k` of a packet to another package. -/
def State.frontAsk (s : State) (q : Nat) (p : Packet) (pkg k va : Nat) (op : RemoteOp) : State :=
  let t := ({ s with ctx := s.queueCtx q } : State).sendRemote pkg va (.front q p.idx k) op
  ({ t with ctx := s.ctx } : State).updPacket q p.idx (fun x => { x with asked := k + 1 })

/-- The operations of a packet on another package: sent once; then their answers, when every one has come. -/
def State.frontOps (s : State) (q : Nat) (p : Packet) (pkg : Nat) (ops : List (Nat × RemoteOp)) :
    State × Option (List (RemoteStatus × Row)) :=
  let got := (List.range ops.length).filterMap (fun k => (p.got.find? (fun g => g.1 == k)).map (fun g => g.2))
  if got.length = ops.length then (s, some got)
  else if p.asked ≠ 0 then (s, none)
  else (((List.range ops.length).zip ops).foldl (fun (t : State) o => t.frontAsk q p pkg o.1 o.2.1 o.2.2) s, none)

/-- The status of a packet after these answers: ABSENT where one of them found no page that it may use. -/
def answersStatus (l : List (RemoteStatus × Row)) : Nat :=
  if l.any (fun a => a.1 == .absent || a.1 == .notWritable) then 3 else 0

/-- A row that another package has answered: an uncorrectable one is logged. -/
def State.frontRow (s : State) (ctx va : Nat) (a : RemoteStatus × Row) : State × RowRead :=
  if a.1 = .poisoned then
    let t := (s.asFront ctx).logPoison {} (.va va) false
    ({ t with ctx := s.ctx, cur := s.cur }, .poisoned)
  else (s, answerRow a.1 a.2)

/-- Stores n bytes for a packet: the status with which that ends, or it goes on. -/
def State.packetStore (s : State) (q : Nat) (p : Packet) (va n v : Nat) : State × Option Nat :=
  match s.farOf va with
  | some g =>
    let (t, l) := s.frontOps q p g (rowWrites va n v)
    (t, l.map answersStatus)
  | none => if s.feAbsent (s.queueCtx q) va true then (s, some 3) else (s.feWrite (s.queueCtx q) va n v, some 0)

/-- Bytes that WRITE and WRSIG store. -/
def Packet.size (p : Packet) : Nat := if bit (pkWord p.bits 24) 0 then 8 else 4

/-- Adds to a 64-bit semaphore (R290): an uncorrectable or discarded one is not changed. -/
def State.packetSignal (s : State) (q va n : Nat) : State :=
  match s.feRow (s.queueCtx q) va with
  | (s1, .ok _) =>
    (match s1.feRead (s.queueCtx q) va 8 with
     | (s2, .ok v) => s2.feWrite (s.queueCtx q) va 8 ((v + n) % 2 ^ 64)
     | (s2, .error _) => s2)
  | (s1, _) => s1

/-- Signals for a packet: the status with which that ends, or it goes on. -/
def State.packetAdd (s : State) (q : Nat) (p : Packet) (va n : Nat) : State × Option Nat :=
  match s.farOf va with
  | some g =>
    let op := RemoteOp.atomic 0 (BitVec.ofNat 5 (va % 128 / 8)) 1 (BitVec.ofNat 64 n) 0
    let (t, l) := s.frontOps q p g [(rowBase va, op)]
    (t, l.map answersStatus)
  | none => if s.feAbsent (s.queueCtx q) va true then (s, some 3) else (s.packetSignal q va n, some 0)

/-- The packet completes once its step has a status. -/
def State.endStep (s : State) (q : Nat) (p : Packet) : Option Nat → State
  | some st => s.completePacket q p st
  | none => s

/-- WRITE. -/
def execWrite (q : Nat) (s : State) : Result :=
  s.packetStep q 3 noOverlap (fun t p =>
    let (u, st) := t.packetStore q p (pkWord p.bits 8) p.size (pkWord p.bits 16)
    u.endStep q p st)

/-- SIGNAL. -/
def execSignal (q : Nat) (s : State) : Result :=
  s.packetStep q 4 noOverlap (fun t p =>
    let (u, st) := t.packetAdd q p (pkWord p.bits 8) (pkWord p.bits 16)
    u.endStep q p st)

/-- The condition of a WAIT. -/
def waitHolds (cond v compare mask : Nat) : Bool :=
  let x := Nat.land v mask
  match cond with
  | 0 => x == compare
  | 1 => x != compare
  | 2 => decide (compare ≤ x)
  | _ => decide (x < compare)

/-- One evaluation of a WAIT, with the value of its 64-bit word. -/
def State.waitStep (s : State) (q : Nat) (p : Packet) (v : Nat) : State :=
  if waitHolds (pkWord p.bits 32) v (pkWord p.bits 16) (pkWord p.bits 24) then s.completePacket q p 0
  else s

/-- The 64-bit word of a WAIT on another package, from its answers. -/
def State.farWord (s : State) (ctx va : Nat) (l : List (RemoteStatus × Row)) : State × Nat :=
  let (t, rows) := l.foldl (fun (a : State × List Nat) x =>
    let (u, r) := a.1.frontRow ctx va x
    (u, a.2 ++ [r.row.toNat])) (s, [])
  (t, (rows.getD 0 0 + 2 ^ 1024 * rows.getD 1 0) / 2 ^ (8 * (va % 128)) % 2 ^ 64)

/-- WAIT: one evaluation. -/
def execWait (q : Nat) (s : State) : Result :=
  s.packetStep q 5 noOverlap (fun t p =>
    let ctx := t.queueCtx q
    let va := pkWord p.bits 8
    match t.farOf va with
    | some g =>
      (match t.frontOps q p g (rowReads va 8) with
       | (u, none) => u
       | (u, some l) =>
         if answersStatus l = 3 then u.completePacket q p 3
         else
           let (w, v) := u.farWord ctx va l
           (w.updPacket q p.idx (fun k => k.afresh 0)).waitStep q p v)
    | none =>
      if t.feAbsent ctx va false then t.completePacket q p 3
      else
        let (t1, r) := t.feRead ctx va 8
        t1.waitStep q p (match r with | .ok v => v | .error _ => 0))

/-- WRSIG: the write, then the signal, which waits for a write to another package. -/
def execWrsig (q : Nat) (s : State) : Result :=
  s.packetStep q 6 noOverlap (fun t p =>
    let ctx := t.queueCtx q
    let sem := pkWord p.bits 32
    if p.moved = 0 then
      if t.feAbsent ctx (pkWord p.bits 8) true || t.feAbsent ctx sem true then t.completePacket q p 3
      else match t.packetStore q p (pkWord p.bits 8) p.size (pkWord p.bits 16) with
      | (u, none) => u
      | (u, some 0) =>
        if (u.farOf sem).isNone then (u.packetSignal q sem (pkWord p.bits 40)).completePacket q p 0
        else u.updPacket q p.idx (fun k => k.afresh 1)
      | (u, some st) => u.completePacket q p st
    else
      let (u, st) := t.packetAdd q p sem (pkWord p.bits 40)
      u.endStep q p st)

/-- TIMESTAMP. -/
def execTimestamp (q : Nat) (s : State) : Result :=
  s.packetStep q 8 noOverlap (fun t p =>
    let (u, st) := t.packetStore q p (pkWord p.bits 8) 8 (t.time % 2 ^ 64)
    u.endStep q p st)

/-- FENCE: earlier packets have completed; from POD on, so have the context's remote writes. -/
def execFence (q : Nat) (s : State) : Result :=
  s.packetStep q 9 noOverlap (fun t p =>
    if 4 ≤ pkWord p.bits 8 ∧ t.remotes.any (fun r => r.ctx == t.queueCtx q) then t else t.completePacket q p 0)

/-- Whether writes of the front end for a context are on their way to other packages. -/
def State.posting (s : State) (ctx : Nat) : Bool := s.remotes.any (fun r => r.ctx == ctx && decide (r.kind = .posted))

/-! ## COPY (R177, R292) -/

/-- A row of a COPY has been written, or dropped: the next one follows, or the packet completes. -/
def State.copyPassed (s : State) (q : Nat) (p : Packet) : State :=
  let n := p.moved + 1
  if pkWord p.bits 24 ≤ 128 * n then s.completePacket q p 0 else s.updPacket q p.idx (fun k => k.afresh n)

/-- The source row of a COPY: none while another package is asked for it. -/
def State.rowSource (s : State) (q : Nat) (p : Packet) (src : Nat) : State × Option RowRead :=
  match s.farOf src, p.got.find? (fun g => g.1 == 0) with
  | none, _ =>
    let (t, r) := s.feRow (s.queueCtx q) src
    (t, some r)
  | some _, some a =>
    let (t, r) := s.frontRow (s.queueCtx q) src a.2
    (t, some r)
  | some g, none => (if p.asked = 0 then s.frontAsk q p g 0 src .readRow else s, none)

/-- One row of a COPY: an absent or uncorrectable source gives zeros, an absent destination is dropped; where the first row
finds no page on another package, the packet ends ABSENT. -/
def State.copyRow (s : State) (q : Nat) (p : Packet) : State :=
  let src := pkWord p.bits 8 + 128 * p.moved
  let dst := pkWord p.bits 16 + 128 * p.moved
  match p.got.find? (fun g => g.1 == 1) with
  | some a => if p.moved = 0 ∧ answersStatus [a.2] = 3 then s.completePacket q p 3 else s.copyPassed q p
  | none =>
    if 2 ≤ p.asked then s
    else match s.rowSource q p src with
    | (t, none) => t
    | (t, some r) =>
      if p.moved = 0 ∧ r = .absent ∧ (s.farOf src).isSome then t.completePacket q p 3
      else match s.farOf dst with
      | some g => t.frontAsk q p g 1 dst (.writeRow r.row (BitVec.allOnes 128))
      | none => (t.feWrite (t.queueCtx q) dst 128 r.row.toNat).copyPassed q p

/-- COPY: accepted when its turn comes; then each turn moves a row. -/
def execCopy (q : Nat) (s : State) : Result :=
  match (if s.queueRuns q then (s.pqueue q).packets.find? (fun p => pkType p.bits == 7 && p.stage == .stepped) else none) with
  | some p => .next (s.copyRow q p)
  | none =>
    s.packetStep q 7 noOverlap (fun t p =>
      let ctx := t.queueCtx q
      if t.feAbsent ctx (pkWord p.bits 8) false || t.feAbsent ctx (pkWord p.bits 16) true then t.completePacket q p 3
      else if pkWord p.bits 24 = 0 then t.completePacket q p 0
      else t.updPacket q p.idx (fun k => { k with stage := .stepped }))

/-! ## PACKET_COMPLETE -/

/-- The status of a packet whose launch has retired (R291). -/
def Launch.packetStatus (x : Launch) : Nat :=
  if x.error = some 2 then 2 else if x.status.any (fun p => p.2 == 2) then 4 else 0

/-- The status with which a packet can complete now. -/
def State.finalStatus (s : State) (p : Packet) : Option Nat :=
  if p.stage ≠ .stepped then none
  else match p.launch, p.graph with
  | some l, _ =>
    (match s.launchAt l with
     | some x => if x.retired then some x.packetStatus else none
     | none => none)
  | none, some g =>
    (match s.graphs[g]? with
     | some y =>
       if !y.done then none
       else
         let st := y.launches.map (fun z => match s.launchAt (z.2 - 1) with | some x => x.packetStatus | none => 0)
         some (if st.contains 2 then 2 else if st.contains 4 then 4 else 0)
     | none => none)
  | none, none => none

/-- PACKET_COMPLETE: a packet whose launch, step or graph has ended completes, once the records written on other packages are
performed there and no live update has paused the queue (R313); a packet of no known type is consumed and
completes with BADPACKET. -/
def execPacketComplete (q : Nat) (s : State) : Result :=
  match (s.pqueue q).packets.findSome? (fun p => (s.finalStatus p).map (fun st => (p, st))) with
  | some (p, st) => .next (if s.posting (s.queueCtx q) || (s.pqueue q).paused then s else s.completePacket q p st)
  | none =>
    if !s.queueRuns q then .next s
    else match s.nextPacket q with
    | (_, none) => .next s
    | (s1, some p) =>
      if pkType p.bits ≤ 9 then .next s
      else if s1.packetTurn q p.idx false then .next (s1.completePacket q p 1) else .next s1

/-! ## Scheduling of queues (R288, R299) -/

/-- Whether an active queue has found nothing for QPOLL: no packet of it waits for its step, and none is next in the ring. -/
def State.ringIdle (s : State) (q : Nat) : Bool :=
  let x := s.pqueue q
  x.active && x.packets.all (fun p => p.stage != .consumed) && (s.peekPacket q).2.isNone
    && decide (x.foundAt + 1000 * s.setting 0x825 ≤ s.time)

/-- How many queues the ring monitor watches. -/
def State.watched (s : State) : Nat := (s.pqueues.filter (fun x => x.2.active)).length

/-- The monitor takes a queue in. -/
def State.watch (s : State) (q : Nat) : State := s.setPqueue q { s.pqueue q with active := true, foundAt := s.time }

/-- QPOLL_ROTATION: firmware puts an inactive queue into the ring monitor, in the place of an active one that has found
nothing for QPOLL, or in a free place. -/
def execQpollRotation (out inq : Nat) (s : State) : Result :=
  let b := s.pqueue inq
  if !b.enabled || b.active then .next s
  else if s.ringIdle out then .next ((s.setPqueue out { s.pqueue out with active := false, foundAt := s.time }).watch inq)
  else if s.watched < 64 then .next (s.watch inq)
  else .next s

/-- The next rotation of the model's own order: the queue that has been out the longest comes in. -/
def rotateNext (s : State) : Result :=
  let waiting := s.pqueues.filter (fun x => x.2.enabled && !x.2.active)
  match waiting with
  | [] => .next s
  | x :: xs =>
    let b := xs.foldl (fun b y => if y.2.foundAt < b.2.foundAt then y else b) x
    let out := (((s.pqueues.map (fun y => y.1)).find? s.ringIdle).getD b.1)
    execQpollRotation out b.1 s

/-- AGE_LIMIT: a queue whose operator has waited too long is raised one level for one operator (R20, R299). -/
def execAgeLimit (q : Nat) (s : State) : Result :=
  let x := s.pqueue q
  if x.waitSince ≠ 0 ∧ x.waitSince + 1000 * s.setting 0x820 < s.time ∧
      s.launches.any (fun l => l.queue == q && !l.admitted && !l.retired) then
    .next (s.setPqueue q { x with raised := true })
  else .next s

end Sys2Proof.Machine
end

