-- ==== Sys2Proof/Machine/Tasks.lean ====
section
/-! DEFINITION. The life of a tile task (R12 to R17, R250, R256, R306, R307) and the end of a launch with its completion
record (R17, R264, R265, R298). -/

namespace Sys2Proof.Machine

/-! ## Binding (R250, R256) -/

/-- What the walker finds at an index. -/
inductive Point where
  /-- a task, with its row mask and whether it is a shadow sample -/
  | bind (mask : BitVec 32) (shadow : Bool)
  /-- no task: skipped or empty -/
  | empty
  /-- no task: faulted, with the log's SUB and the record's first 8 bytes (R256) -/
  | bad (sub : Nat) (first : Nat)
  /-- the placement gives it to another core -/
  | other
  deriving DecidableEq, Repr, Inhabited

/-- Looks at index l for logical core n. -/
def State.lookAt (s : State) (x : Launch) (n l : Nat) : State × Point :=
  let r := x.oprec
  let (s1, mine) : State × Bool :=
    if orPlace r = 2 then
      match s.feRead x.ctx (orEtab r + l) 1 with
      | (t, .ok v) => (t, decide (orC0 r + v = n))
      | (t, .error _) => (t, false)
    else (s, true)
  if !mine then (s1, .other)
  else if orGmode r = 0 then
    (s1, if x.shadow? l then .bind 0xFFFFFFFF true else if x.kept? l then .bind 0xFFFFFFFF false else .empty)
  else match s1.feRead x.ctx (orList r + 16 * l) 16 with
  | (t, .error .poisoned) => (t, .bad 2 0)
  | (t, .error _) => (t, .bad 1 0)
  | (t, .ok v) =>
    let rows := bits v 53 48
    (t, if rows = 0 then .empty else if rows ≤ 32 then .bind (BitVec.ofNat 32 (2 ^ rows - 1)) false else .bad 0 (v % 2 ^ 64))

/-- A task of index l. -/
def Launch.task (x : Launch) (l : Nat) (mask : BitVec 32) (shadow : Bool) : Task :=
  let (px, py, pz) := x.coord l
  { l := l, x := px, y := py, z := pz, rowmask := mask, shadow := shadow, reissue := x.redo.contains l }

/-- The status of an index that binds no task; a faulted record is logged (R250, R256). -/
def State.noTask (s : State) (l n i : Nat) (x : Launch) (p : Point) : State :=
  match p with
  | .empty => s.markTask l i 3
  | .bad sub first => (s.markTask l i 2).logRecord x.ctx 0x04 sub (first * 2 ^ 32) n 3 x.number i []
  | _ => s

/-- Changes the task of a core of a context. -/
def State.setTask (s : State) (ctx n : Nat) (t : Option Task) : State :=
  s.setCoreAt ctx n { s.coreAt ctx n with task := t }

/-- TASK_BIND: the walker passes the next index that the placement may give to logical core n. -/
def execTaskBind (n : Nat) (s : State) : Result :=
  match s.nearCtx n with
  | none => .next s
  | some ctx =>
    let c := s.coreAt ctx n
    match c.launch, s.launchOf c with
    | some i, some x =>
      if c.stoppedAt == some 2 || c.task.isSome || x.exhausted n || x.retired || x.error.isSome || x.stopped || !(s.context ctx).running then .next s
      else
        let k := SMap.get 0 x.cursor n
        let l := x.candidate n k
        let (s1, p) := s.lookAt x n l
        let s2 := s1.updLaunch i (fun y => { y with cursor := SMap.set 0 y.cursor n (k + 1) })
        (match p with
         | .other => .next s2
         | .bad .. => .next (s2.noTask i n l x p)
         | .empty =>
           (match (s2.replayed x).bind (fun g => g.2.2.taskOf g.2.1 n l) with
            | some _ =>
              .next ((s2.noTask i n l x p).setTask ctx n
                (some { x.task l 0xFFFFFFFF false with replayed := true, nulls := true }))
            | none => .next (s2.noTask i n l x p))
         | .bind mask shadow =>
           let live := match s2.replayed x with
             | some (_, g, v) => (match v.taskOf g n l with | some t => t.live | none => true)
             | none => true
           let s3 := s2.updLaunch i (fun y =>
             if shadow then { y with shadows := y.shadows + 1 } else { y with kept := y.kept + 1 })
           .next (s3.setTask ctx n (some { x.task l mask shadow with replayed := !live })))
    | _, _ => .next s

/-! ## Starting (R12, R13, R307) -/

/-- The bits of a guard's element through the current descriptors; none when it cannot be read. -/
def State.guardBits (s : State) (n : Nat) (g : Guard) : Option Nat :=
  let cap := s.core.cap g.tix
  match s.locate s.ctx (quadOf n) cap g.index false with
  | .at_ ps _ => (match (s.readBits (fun t l => t.readLoc {} l) ps).2 with | .ok v => some v | .error _ => some 0)
  | _ => none

/-- The guard of a task that fails (R307): its index in the variant's list, or the trace's code of the health guard; the
same code when the task has no record (log entry 55). None: the guards hold. -/
def State.failedGuard (s : State) (v : Variant) (k n l : Nat) : Option Nat :=
  if v.rmap ≠ s.remapVersion.toNat ∨ v.fence ≠ s.fencedDies ∨ v.fencePkgs ≠ s.gang.fenced ∨ v.taskOf k n l = none then
    some 0xFFFFFFFF
  else
    ((List.range v.guards.length).zip v.guards).findSome? (fun p =>
      if p.2.gtask = k ∧ p.2.core = n ∧ p.2.l = l ∧ s.guardBits n p.2 ≠ some p.2.value.toNat then some p.1 else none)

/-- A failed guard stops the replay of a graph step at this task (R307, R333). -/
def State.guardFail (s : State) (g l idx : Nat) : State :=
  match s.graphs[g]? with
  | some y =>
    let s1 := if y.gfail then s else s.trace 0x05 s.cur 3 0 (y.hash.toNat * 2 ^ 64 + l % 2 ^ 32 * 2 ^ 32 + idx)
    { s1 with graphs := s1.graphs.set g { y with gfail := true } }
  | none => s

/-- The core's state at task start (R12, R13, R118) in cycle `now`; mask writes of earlier entries that have not landed are
still to come. -/
def Core.atTask (c : Core) (now entry : Nat) (t : Task) : Core :=
  { c with s := [], m := [], pendM := c.pendM.filter (fun p => decide (now < p.land)), seed := 0, xpc := 0, xcause := 0,
           xval := 0, inh := false, flt := false, latch := false, barAt := none,
           pc := BitVec.ofNat 64 entry, waiting := none, task := some { t with started := true } }

/-- TASK_START: the bound task of logical core n starts; a task of a recorded step first meets its guards. -/
def execTaskStart (n : Nat) (s0 : State) : Result :=
  match s0.nearCtx n with
  | none => .next s0
  | some ctx =>
    let s : State := { s0 with ctx := ctx, cur := n }
    let c := s.core
    match c.task, c.launch, s.launchOf c with
    | some t, some i, some x =>
      if c.stoppedAt == some 2 || t.started || x.stopped || !(s.context ctx).running then .next s0
      else
        let start := fun (u : State) (k : Task) (r g : Bool) =>
          Host.Outcome.next (((u.upd (fun c => c.atTask u.now (orEntry x.oprec) k)).updLaunch i (fun y =>
            { y with replayed := y.replayed || r, gfail := y.gfail || g })).note (fun t =>
              { t with live := t.live || orLive x.oprec }))
        let late := match x.graph with
          | some (g, _) => (match s.graphs[g]? with | some y => y.gfail | none => false)
          | none => false
        (match s.replayed x with
         | none => if t.nulls then .next (s.upd (fun c => { c with task := none })) else start s { t with replayed := false } false late
         | some (g, k, v) =>
           (match s.failedGuard v k n t.l with
            | none => start s t true false
            | some idx =>
              let s1 := s.guardFail g t.l idx
              if t.nulls then .next (s1.upd (fun c => { c with task := none }))
              else start s1 { t with replayed := false } false true))
    | _, _, _ => .next s0

/-! ## Retiring (R14, R117) -/

/-- Whether every entry that a task issued has completed. -/
def Core.drained (c : Core) (launch l : Nat) : Bool :=
  [Eng.v, Eng.m, Eng.c].all (fun e => (c.queue e).incomplete.all (fun x => !(x.launch == launch && x.task == l))
    && (match (c.queue e).stopped with | some f => !(f.launch == launch && f.task == l) | none => true))

/-- TASK_RETIRE: a queue that no task can release is released; an exited task of core n whose entries have completed
retires. -/
def execTaskRetire (n : Nat) (s0 : State) : Result :=
  match s0.nearCtx n with
  | none => .next s0
  | some ctx =>
    let s : State := { s0 with ctx := ctx, cur := n }
    let c := s.core
    if s.releasesItself c then .next (s.releaseAll c.pc.toNat)
    else
      let done := (List.range s.launches.length).findSome? (fun i =>
        match s.launchAt i with
        | some x =>
          if x.ctx = ctx then (x.exited.find? (fun e => e.2 == n && c.drained i e.1)).map (fun e => (i, e.1)) else none
        | none => none)
      match done with
      | none => .next s0
      | some (i, l) =>
        .next (s.updLaunch i (fun x =>
          { x with exited := x.exited.filter (fun e => !(e.1 == l && e.2 == n)),
                   status := if SMap.get 0 x.status l = 0 then SMap.set 0 x.status l 1 else x.status }))

/-! ## The completion record (R298) -/

/-- The bitmap of the statuses, two bits per index. -/
def statusBitmap (m : SMap Nat) : Nat := m.foldl (fun v x => v + x.2 % 4 * 4 ^ x.1) 0

/-- Bytes of the record's bitmaps. -/
def Launch.bitmapBytes (x : Launch) : Nat := (x.t + 3) / 4 + (if orCov x.oprec then (x.t + 7) / 8 else 0)

/-- The record's STATUS. -/
def Launch.statusCode (x : Launch) : Nat :=
  match x.error with
  | some e => e
  | none => if x.status.any (fun p => p.2 == 2) || x.stopped then (if x.stopped then 3 else 1) else 0

/-- Bytes 0 to 63 of the record. -/
def Launch.recordHead (x : Launch) (e now : Nat) : Nat :=
  x.statusCode + x.fenced.toNat * 2 ^ 8 + (if x.replayed then 2 ^ 16 else 0) + (if x.gfail then 2 ^ 17 else 0)
    + (x.number % 2 ^ 32 + x.t % 2 ^ 32 * 2 ^ 32) * 2 ^ 64
    + (e % 2 ^ 32 + x.unrecon.length * 2 ^ 32) * 2 ^ 128
    + (x.kept + x.shadows * 2 ^ 32) * 2 ^ 192
    + ((x.status.filter (fun p => p.2 == 3)).length + x.progress.length * 2 ^ 32) * 2 ^ 256
    + x.tstart % 2 ^ 64 * 2 ^ 320 + now % 2 ^ 64 * 2 ^ 384 + x.t / 2 ^ 32 % 2 * 2 ^ 448

/-- Writes the completion record of a launch: status and counts last. -/
def State.writeRecord (s : State) (x : Launch) (e : Nat) : State :=
  if x.parent.isSome && x.crec == 0 then s
  else
    let a := x.crec.toNat
    let unrec := if orCov x.oprec then x.unrecon.foldl (fun v l => v + 2 ^ l) 0 * 2 ^ (8 * ((x.t + 3) / 4)) else 0
    let at_ := (64 + x.bitmapBytes + 63) / 64 * 64
    let s1 := s.feWrite x.ctx (a + 64) x.bitmapBytes (statusBitmap x.status + unrec)
    let prog := x.progress.foldr (fun (p : BitVec 256) v => p.toNat + 2 ^ 256 * v) 0
    (s1.feWrite x.ctx (a + at_) (32 * x.progress.length) prog).feWrite x.ctx a 64 (x.recordHead e s.time)

/-! ## The controller slot (R264, R265) -/

/-- The slot after a launch retires; `e` is none when no e was formed. -/
def slotUpdate (v number unrec : Nat) (e : Option Nat) : Nat :=
  let code := bits v 7 0
  let target := bits v 95 64
  let band := bits v 127 96
  let (code', held, nosmp, laste) := match e with
    | none => (code, true, true, bits v 159 128)
    | some x =>
      if target + band < x then (min (bits v 23 16) (code + bits v 31 24), false, false, x)
      else if x + band < target then (max (bits v 15 8) (code - bits v 39 32), false, false, x)
      else (code, true, false, x)
  code' + bits v 31 8 * 2 ^ 8 + bits v 39 32 * 2 ^ 32 + (if held then 2 ^ 40 else 0) + (if nosmp then 2 ^ 41 else 0)
    + bits v 127 42 * 2 ^ 42 + laste * 2 ^ 128 + unrec % 2 ^ 32 * 2 ^ 160 + (bits v 255 192 + 1) % 2 ^ 64 * 2 ^ 192
    + number % 2 ^ 32 * 2 ^ 256 + bits v 511 288 * 2 ^ 288

/-- Updates the slot, or logs that it could not be (R265). -/
def State.updateSlot (s : State) (x : Launch) (e : Option Nat) : State :=
  if x.slot = 0 then s
  else
    let a := x.slot.toNat
    let log := fun (t : State) (sub : Nat) => t.logRecord x.ctx 0x0A sub (a * 2 ^ 32) 0xFF 3 x.number 0 []
    match s.resolve x.ctx 256 (.va a) true with
    | (s1, .spot p) =>
      if s1.poisoned p then log s1 1
      else
        let v := readNat s1.mem p.addr 64
        s1.writeRowAt ⟨false, rowBase p.addr⟩ (placeAt (p.addr % 128) (slotUpdate v x.number x.unrecon.length e))
          (byteMask (p.addr % 128) 64)
    | (s1, _) => log s1 0

/-- Bytes that software provides for the record of a launch with T indices (R298). -/
def recordRoom (t : Nat) : Nat := (64 + (t + 3) / 4 + (t + 7) / 8 + 63) / 64 * 64 + 32 * 768

/-- T of a launch, once it is known: 0 when the record is invalid before it is. -/
def Launch.knownT (x : Launch) : Option Nat :=
  if x.error.isSome then some x.t
  else if !x.admitted || (orGmode x.oprec == 1 && orCntind x.oprec && x.started.isEmpty) then none
  else some x.t

/-- The place of the completion record: a graph task's stands after those of the tasks before it in the completion area;
none until their T is known (R298). -/
def State.recordPlace (s : State) (x : Launch) : Option Word :=
  match x.graph with
  | none => some x.crec
  | some (g, k) =>
    match s.graphs[g]? with
    | none => none
    | some y =>
      (List.range k).foldl (fun (a : Option Word) j =>
        match a, s.launchAt (SMap.get 0 y.launches j - 1) with
        | some v, some z =>
          if SMap.get 0 y.launches j = 0 then none
          else z.knownT.map (fun t => BitVec.ofNat 64 ((v.toNat + recordRoom t + 63) / 64 * 64))
        | _, _ => none) (some y.area)

/-! ## Retirement (R17, R297) -/

/-- Whether every task of a launch has retired: it has started somewhere, so its count and code are read (R256, R265). -/
def State.tasksRetired (s : State) (l : Nat) (x : Launch) : Bool :=
  !x.started.isEmpty && x.exited.isEmpty && (List.range 256).all (fun n =>
    !x.spans n || ((x.started.contains n || orPlace x.oprec != 2) && x.exhausted n
      && !((s.coreAt x.ctx n).launch == some l && (s.coreAt x.ctx n).task.isSome)))

/-- Whether a core's queues hold no incomplete entry of a launch: those that `renq` made too (R107). -/
def Core.launchDone (c : Core) (l : Nat) : Bool :=
  [Eng.v, Eng.m, Eng.c].all (fun e => (c.queue e).incomplete.all (fun x => x.launch != l))

/-- Whether a launch waits for nothing more: its tasks and its entries, the Burnisher, and the writes that its record's
release covers. A launch of a stopped context stays as its image says (R326). -/
def State.mayRetire (s : State) (l : Nat) (x : Launch) : Bool :=
  x.admitted && !x.retired && (s.context x.ctx).running && (s.recordPlace x).isSome && (x.error.isSome
    || (s.tasksRetired l x && (!orCov x.oprec || x.burnt)
        && (List.range 256).all (fun n => !x.spans n || (!s.remoteOwed x.ctx n && (s.coreAt x.ctx n).launchDone l))))

/-- The launch has retired: its barrier slots and rounds are free, no shadow bank holds it. -/
def State.closeLaunch (s : State) (l : Nat) (x : Launch) : State :=
  { s with
    launches := s.launches.set l { x with retired := true, tretire := s.time },
    barriers := s.barriers.filter (fun b => b.launch != l), rounds := s.rounds.filter (fun r => r.launch != l),
    cores := s.cores.map (fun (c : Nat × Core) => if c.2.shadow == some l then (c.1, { c.2 with shadow := none }) else c) }

/-- Whether a retirement that a live update has held back comes before this launch's (R313). -/
def State.behind (s : State) (x : Launch) : Bool :=
  s.launches.any (fun y => !y.retired && (match y.seen, x.seen with
    | some j, some k => decide (j < k)
    | some _, none => true
    | none, _ => false))

/-- The retirement occurs while a live update has its queue paused: it is held back, in its order (R313). -/
def State.holdBack (s : State) (l : Nat) (x : Launch) : State :=
  if x.seen.isSome then s
  else s.updLaunch l (fun y => { y with seen := some (s.launches.filter (fun z => z.seen.isSome)).length })

/-- LAUNCH_RETIRE. -/
def execLaunchRetire (l : Nat) (s : State) : Result :=
  match s.launchAt l with
  | none => .next s
  | some x =>
    if !s.mayRetire l x then .next s
    else if (s.pqueue x.queue).paused then .next (s.holdBack l x)
    else if s.behind x then .next s
    else
      let e := x.eForm
      let s1 := if x.error.isSome then s else s.updateSlot x e
      let s2 := s1.writeRecord { x with crec := (s1.recordPlace x).getD 0 } (e.getD (Config.noError s1.draws).toNat)
      .next ({ s2 with draws := s2.draws + (if e.isSome then 0 else 1) }.closeLaunch l x)

end Sys2Proof.Machine
end

