-- ==== Sys2Proof/Machine/Graph.lean ====
section
/-! DEFINITION. Graph steps: the GRAPH packet (R301), the shape hash (R304), dynamic scheduling (R302), replay (R306, R307),
the trace store (R305, R308), the refiner (R309) and versions (R310). -/

namespace Sys2Proof.Machine

/-! ## The graph descriptor (R301) -/

/-- The first `n` elements of `w` bits of a number. -/
def wordsOf (w n v : Nat) : List Nat := (List.range n).map (fun i => v / 2 ^ (w * i) % 2 ^ w)

/-- What a graph descriptor names: operator record addresses, edges, the argument table. -/
structure GraphDesc where
  tasks : List Nat
  edges : List (Nat × Nat)
  argtab : Nat
  deriving DecidableEq, Repr, Inhabited

/-- Reads a graph descriptor with its arrays; none when the step completes with BADOPREC. -/
def State.readGraph (s : State) (ctx a : Nat) : State × Option GraphDesc :=
  match s.feRead ctx a 64 with
  | (s1, .error _) => (s1, none)
  | (s1, .ok d) =>
    let n := bits d 15 0
    let m := bits d 47 32
    if n = 0 ∨ 4096 < n ∨ bits d 31 16 ≠ 0 ∨ bits d 63 48 ≠ 0 ∨ d / 2 ^ 256 ≠ 0 then (s1, none)
    else match s1.feRead ctx (bits d 127 64) (8 * n) with
    | (s2, .error _) => (s2, none)
    | (s2, .ok ts) =>
      match s2.feRead ctx (bits d 191 128) (4 * m) with
      | (s3, .error _) => (s3, none)
      | (s3, .ok es) =>
        match s3.feRead ctx (bits d 255 192) 2048 with
        | (s4, .error _) => (s4, none)
        | (s4, .ok _) =>
          let edges := (wordsOf 32 m es).map (fun e => (e % 65536, e / 65536))
          if edges.all (fun e => e.1 < e.2 && e.2 < n) then
            (s4, some { tasks := (wordsOf 64 n ts).map (fun t => t / 256 * 256), edges := edges, argtab := bits d 255 192 })
          else (s4, none)

/-! ## The shape hash (R304) -/

/-- One bit of CRC-64/ECMA-182. -/
def crc64Bit (c : Nat) : Nat := if 2 ^ 63 ≤ c then Nat.xor (2 * c % 2 ^ 64) 0x42F0E1EBA9EA3693 else 2 * c

/-- One byte. -/
def crc64Byte (c b : Nat) : Nat :=
  crc64Bit (crc64Bit (crc64Bit (crc64Bit (crc64Bit (crc64Bit (crc64Bit (crc64Bit (Nat.xor c (b * 2 ^ 56)))))))))

/-- The CRC of 64-bit words, each by its little-endian bytes. -/
def crc64 (ws : List Nat) : Nat := ws.foldl (fun c w => (wordsOf 8 8 w).foldl crc64Byte c) 0

/-- The value of a read of the front end, or zero. -/
def State.feValue (s : State) (ctx va n : Nat) : Nat :=
  match (s.feRead ctx va n).2 with
  | .ok v => v
  | .error _ => 0

/-- The words of one preload entry. -/
def preloadWords (tix : Nat) (walk : Bool) (img : Nat) : List Nat :=
  if walk then wordsOf 64 4 img
  else
    let t := tensorOf (BitVec.ofNat 512 img)
    [t.fmtCode + t.tag * 2 ^ 8 + t.nsel * 2 ^ 12 + t.msel * 2 ^ 15 + t.sfmt * 2 ^ 17 + (if t.bk then 2 ^ 21 else 0) + tix * 2 ^ 24,
     t.d0 + t.d1 * 2 ^ 32, t.d2 + t.d3 * 2 ^ 32]

/-- The words of one task. -/
def State.taskWords (s : State) (ctx a : Nat) : List Nat :=
  let r := BitVec.ofNat 2048 (s.feValue ctx a 256)
  [orKind r, orWord r 0x10, if orCntind r then 0 else orCount r, orWord r 0x30 % 65536, orLtype r, orNpre r]
    ++ (List.range (orNpre r)).flatMap (fun i =>
      let e := s.feValue ctx (orPre r + 16 * i) 16
      let walk := bit e 6
      preloadWords (bits e 5 0) walk (s.feValue ctx (bits e 127 64) (if walk then 32 else 64)))

/-- The shape hash of a graph. -/
def State.shapeHash (s : State) (ctx : Nat) (d : GraphDesc) : Nat :=
  crc64 (d.tasks.length :: d.tasks.flatMap (s.taskWords ctx) ++ d.edges.map (fun e => e.1 + e.2 * 65536))

/-! ## The trace store (R305, R308, R310) -/

/-- Replaces a variant of a hash. -/
def State.setVariant (s : State) (hash : Word) (v : Variant) : State :=
  { s with traces := s.traces.map (fun t =>
      if t.hash == hash then { t with variants := t.variants.map (fun x => if x.number == v.number then v else x) } else t) }

/-- The variant that a step replays (R308): the one that most recently completed a step, or variant 0. -/
def chooseVariant (vs : List Variant) : Option Variant :=
  let best := vs.foldl (fun (m : Option Variant) v =>
    match v.good, m.bind (fun x => x.good) with
    | some a, some b => if b < a then some v else m
    | some _, none => some v
    | none, _ => m) none
  best <|> vs.find? (fun v => v.number == 0)

/-- Exchanges two numbers. -/
def swapNum (a b k : Nat) : Nat := if k = a then b else if k = b then a else k

/-- Exchanges what two physical quads hold: their vaults, their cores and the logical quads they serve (R252, R309); the
remap version advances. -/
def State.exchangeQuads (s : State) (a b : Nat) : State :=
  let row := fun (k unit : Nat) => swapNum a b (k / unit) * unit + k % unit
  let cell := fun (c : Host.Cell) => (swapNum a b (c.1 / 33554432) * 33554432 + c.1 % 33554432, c.2)
  let moved := s.vault.filter (fun c => c.1 / 33554432 == a || c.1 / 33554432 == b)
  let rest := s.vault.filter (fun c => !(c.1 / 33554432 == a || c.1 / 33554432 == b))
  let core := fun (p : Nat) => row p 4
  { s with
    vault := (moved.map cell).foldl (fun m c => SMap.put m c.1 c.2) rest,
    vaultPoison := s.vaultPoison.foldl (fun l w => insertNat l (row w 2097152)) [],
    segs := s.segs.map (fun g => if g.st == .saved || g.st == .restoring then g else { g with pseg := row g.pseg 512 }),
    quads := s.quads.foldl (fun (m : SMap Quad) p => SMap.set {} m (swapNum a b p.1) p.2) [],
    phys := s.phys.foldl (fun (m : SMap Phys) p => SMap.set {} m (core p.1) p.2) [],
    cores := s.cores.map (fun (x : Nat × Core) =>
      (x.1, { x.2 with bank := x.2.bank.map (fun (k : Nat × BankState) =>
        match k.2 with | .live p => (k.1, .live (core p)) | o => (k.1, o)) })),
    remap := s.remap.map (fun (x : Nat × BitVec 32) =>
      (x.1, BitVec.ofNat 32 (x.2.toNat - bits x.2.toNat 23 16 * 65536 + core (bits x.2.toNat 23 16) * 65536))),
    remapVersion := s.remapVersion + 1 }

/-- Whether each of two physical quads serves one logical quad of its own. -/
def State.quadsPlain (s : State) (a b : Nat) : Bool :=
  (List.range 256).all (fun n => let e := s.remapEntry n; !(bits e 23 16 / 4 == a || bits e 23 16 / 4 == b) || !bit e 30)

/-- A proposed version takes effect (R310). -/
def State.applyVersion (s : State) (hash : Word) (v : Variant) (ver effect : Nat) : State × Variant :=
  let s1 := match v.newMap with
    | some (lq, pq) => if s.quadsPlain (s.physQuad lq) pq then s.exchangeQuads (s.physQuad lq) pq else s
    | none => s
  let w := { v with version := ver, rstep := effect, tasks := v.proposal, pfds := v.newPfds, next := none, proposal := [],
                    newPfds := [], newMap := none,
                    rmap := if v.newMap.isSome then s1.remapVersion.toNat else v.rmap }
  (s1.setVariant hash w, w)

/-- Whether an earlier step from the effect step on has gone on without the proposed version. -/
def State.wasLate (s : State) (hash : Word) (effect : Nat) : Bool :=
  s.graphs.any (fun y => y.hash == hash && y.late && effect ≤ y.step)

/-- The variant of a step that begins: its number, and whether the step is held for a version (R308, R310). -/
def State.variantFor (s : State) (hash : Word) (step : Nat) : State × Option (Variant × Bool) :=
  match (s.traces.find? (fun t => t.hash == hash)).bind (fun t => chooseVariant t.variants) with
  | none => (s, none)
  | some v =>
    match v.next with
    | none => (s, some (v, false))
    | some (ver, effect, got) =>
      if step < effect then (s, some (v, false))
      else if got then (let (s1, w) := s.applyVersion hash v ver effect; (s1, some (w, false)))
      else (s, some (v, !s.wasLate hash effect))

/-- The payload of a replay record (R333). -/
def replayPayload (y : Graph) (v : Variant) : Nat :=
  y.hash.toNat * 2 ^ 64 + v.version % 2 ^ 32 * 2 ^ 32 + v.number % 256 * 2 ^ 24 + y.step % 2 ^ 24

/-! ## The GRAPH packet (R291, R301) -/

/-- Whether every source task of a GRAPH packet sets OVL. -/
def graphOverlaps (q : Nat) (s : State) (p : Packet) : Bool :=
  let ctx := s.queueCtx q
  match (s.readGraph ctx (pkWord p.bits 8)).2 with
  | none => false
  | some d =>
    ((List.range d.tasks.length).filter (fun k => !d.edges.any (fun e => e.2 == k))).all (fun k =>
      orOvl (BitVec.ofNat 2048 (s.feValue ctx (d.tasks.getD k 0) 256)))

/-- GRAPH: the step begins, replayed when the trace store holds its hash. -/
def execGraph (q : Nat) (s : State) : Result :=
  s.packetStep q 2 (graphOverlaps q) (fun t p =>
    let ctx := t.queueCtx q
    let want := pkWord p.bits 24
    if t.feAbsent ctx (pkWord p.bits 32) true then t.completePacket q p 3
    else match t.readGraph ctx (pkWord p.bits 8) with
    | (t1, none) => t1.completePacket q p 2
    | (t1, some d) =>
      let h := t1.shapeHash ctx d
      if want ≠ 0 ∧ want ≠ h then t1.completePacket q p 5
      else
        let hash := BitVec.ofNat 64 h
        let (t2, v) := t1.variantFor hash (pkWord p.bits 16)
        let y : Graph := { queue := q, packet := p.idx, ctx := ctx, step := pkWord p.bits 16, hash := hash,
                           tasks := d.tasks.map (BitVec.ofNat 64), edges := d.edges, argtab := BitVec.ofNat 64 d.argtab,
                           area := BitVec.ofNat 64 (pkWord p.bits 32), variant := v.map (fun x => x.1.number),
                           heldSince := match v with | some (_, true) => some t2.time | _ => none }
        let t3 := match v with
          | some (x, _) => t2.trace 0x06 0xFF 3 0 (replayPayload y x)
          | none => t2
        ({ t3 with graphs := t3.graphs ++ [y] }).updPacket q p.idx (fun k =>
          { k with stage := .stepped, graph := some t3.graphs.length }))

/-! ## The launches of a step (R302) -/

/-- Changes a graph step. -/
def State.setGraph (s : State) (g : Nat) (y : Graph) : State := { s with graphs := s.graphs.set g y }

/-- Whether the launch of a task has retired. -/
def State.graphRetired (s : State) (y : Graph) (k : Nat) : Bool :=
  match SMap.get 0 y.launches k with
  | 0 => false
  | i + 1 => (match s.launchAt i with | some x => x.retired | none => false)

/-- The lowest task that has no launch and whose predecessors have retired. -/
def State.readyTask (s : State) (y : Graph) : Option Nat :=
  (List.range y.tasks.length).find? (fun k => SMap.get 0 y.launches k == 0
    && y.edges.all (fun e => e.2 != k || s.graphRetired y e.1))

/-- The recording of a step with what it replayed (R307): the parts of the old variant that have no new record. -/
def mergedTasks (y : Graph) (old : Option Variant) : List TaskTrace :=
  let keep := match old with
    | some v => v.tasks.filter (fun t => !y.recording.any (fun r => r.gtask == t.gtask && r.core == t.core && r.l == t.l))
    | none => []
  keep ++ y.recording

/-- The guards of a recording with those of what it replayed. -/
def mergedGuards (y : Graph) (old : Option Variant) : List Guard :=
  let keep := match old with
    | some v => v.guards.filter (fun t => !y.recording.any (fun r => r.gtask == t.gtask && r.core == t.core && r.l == t.l))
    | none => []
  keep ++ y.guards

/-- The number of the variant that a recording becomes (R308): a new one while fewer than four exist, else the one that
least recently completed a step without failure. -/
def newNumber (vs : List Variant) : Nat :=
  if vs.length < 4 then vs.length
  else match vs with
  | [] => 0
  | v :: rest => (rest.foldl (fun (m : Variant) x => if x.good.getD 0 < m.good.getD 0 then x else m) v).number

/-- The recording of a step enters the trace store. -/
def State.record (s : State) (y : Graph) : State :=
  let old := y.variant.bind (s.variantAt y.hash)
  let vs := match s.traces.find? (fun t => t.hash == y.hash) with | some t => t.variants | none => []
  let n := newNumber vs
  let v : Variant := { number := n, gang := s.gang.id, rstep := y.step, rmap := s.remapVersion.toNat, fence := s.fencedDies,
                       fencePkgs := s.gang.fenced, tasks := mergedTasks y old, guards := mergedGuards y old }
  let vs1 := vs.filter (fun x => x.number != n) ++ [v]
  { s with traces := s.traces.filter (fun t => t.hash != y.hash) ++ [{ hash := y.hash, variants := vs1 }] }

/-- The step has ended: what it recorded becomes a variant, or the replayed variant has completed a step. -/
def State.endGraph (s : State) (g : Nat) (y : Graph) : State :=
  let s1 := s.setGraph g { y with done := true }
  match y.variant.bind (s.variantAt y.hash) with
  | none => s1.record y
  | some v =>
    let s2 := s1.trace 0x07 0xFF 3 0 (replayPayload y v)
    if y.gfail then s2.record y else s2.setVariant y.hash { v with good := some s.time }

/-- The step makes its next launch, or ends when all have retired; none when it can do neither. -/
def State.graphAdvance (s : State) (g : Nat) (y : Graph) : Option State :=
  if y.done || y.heldSince.isSome || !(s.context y.ctx).running then none
  else match s.readyTask y with
  | some k =>
    let a := y.tasks.getD k 0
    let (s1, r) := s.feRead y.ctx a.toNat 256
    let x : Launch := { number := 0, ctx := y.ctx, queue := y.queue, crec := 0, t := 0, graph := some (g, k), root := y.packet,
                        addr := a, read := true, argtab := y.argtab,
                        oprec := (match r with | .ok v => BitVec.ofNat 2048 v | .error _ => 0),
                        bad := (match r with | .ok _ => false | .error _ => true) }
    some ((s1.addLaunch x).setGraph g { y with launches := SMap.set 0 y.launches k (s1.launches.length + 1) })
  | none => if (List.range y.tasks.length).all (s.graphRetired y) then some (s.endGraph g y) else none

/-- DYNAMIC_STEP: graph step `g`, on a miss or after a guard failure, makes its next launch or ends. -/
def execDynamicStep (g : Nat) (s : State) : Result :=
  match s.graphs[g]? with
  | some y => if y.variant.isNone || y.gfail then .next ((s.graphAdvance g y).getD s) else .next s
  | none => .next s

/-! ## Replay (R306) -/

/-- How far the replay of a task has come: entries placed per engine, control waits performed. -/
def Graph.progress (y : Graph) (k n l : Nat) : List Nat × Nat :=
  match y.placed.find? (fun p => p.1 == k && p.2.1 == n && p.2.2.1 == l) with
  | some p => p.2.2.2
  | none => ([0, 0, 0], 0)

/-- Notes how far it has come. -/
def Graph.setProgress (y : Graph) (k n l : Nat) (p : List Nat × Nat) : Graph :=
  { y with placed := (k, n, l, p) :: y.placed.filter (fun q => !(q.1 == k && q.2.1 == n && q.2.2.1 == l)) }

/-- The entries of an engine in a task's record, in order. -/
def TaskTrace.list (t : TaskTrace) (e : Eng) : List TraceEntry := (t.entries.filter (fun p => p.1 == e)).map (fun p => p.2)

/-- The entry that stands for a recorded one: NULL when the task is skipped now. -/
def replayEntry (x : Entry) (nulls : Bool) : Entry :=
  if nulls then { body := .null, wf := x.wf, sf := x.sf, task := x.task } else x

/-- Places a recorded entry as acceptance would (R15); what acceptance captured of the control core is the record's
(log entry 54). -/
def State.placeEntry (s : State) (e : Eng) (x : Entry) : State :=
  let c := s.core
  let y := s.capture c x (c.queue e)
  let s1 := s.acceptAs s.ctx s.cur e { y with seed := x.seed, schk := x.schk, lrun := x.lrun }
  match x.fork with
  | some k => s1.upd (fun c => { c with forks := SMap.set {} c.forks k { pending := (SMap.get {} c.forks k).pending ++ [e] } })
  | none => s1

/-- Whether an entry can be placed now. -/
def State.canPlace (s : State) (e : Eng) (x : Entry) : Bool :=
  s.canAccept s.ctx s.cur e x.slots && (!(e == .m && x.commits) || s.core.openBatches.length < 63)
    && (match x.fork with | some k => !(SMap.get {} s.core.forks k).pending.contains e | none => true)

/-- The next entry that the replayer can place for a task. -/
def State.nextPlaced (s : State) (t : TaskTrace) (nulls : Bool) (p : List Nat × Nat) : Option (Eng × Entry) :=
  [Eng.v, Eng.m, Eng.c].findSome? (fun e =>
    match (t.list e)[p.1.getD (engNum e) 0]? with
    | some te =>
      let x := replayEntry te.entry nulls
      if te.wseq ≤ p.2 && s.canPlace e x then some (e, x) else none
    | none => none)

/-- Whether every entry that stands before the next control wait is placed. -/
def TaskTrace.placedTo (t : TaskTrace) (p : List Nat × Nat) : Bool :=
  [Eng.v, Eng.m, Eng.c].all (fun e =>
    match (t.list e)[p.1.getD (engNum e) 0]? with
    | some te => decide (p.2 < te.wseq)
    | none => true)

/-- Performs a control wait; none while it is not satisfied. -/
def Core.replayWait (c : Core) : CtlWait → Option Core
  | .flag f => c.flagTake f
  | .batch e n => if c.outstanding e ≤ n then some c else none
  | .fork k => if (SMap.get {} c.forks k).pending.isEmpty then some c else none

/-- One act of the replayer for the replayed task of the current core: a trap ends it; an entry is placed; a control wait
is performed; with nothing left the task exits. None when it can do nothing. -/
def State.replayTask (s : State) (g : Nat) (y : Graph) (k : Nat) (tr : TaskTrace) (t : Task) : Option State :=
  let c := s.core
  let p := y.progress k s.cur t.l
  let old := c.untold.filter (fun x => x.2.prev)
  match old, c.pend with
  | (e, f) :: _, _ => some ((s.logEngineFault e f 0).releaseQueue e)
  | [], true => some (s.exitTask true 0)
  | [], false =>
    match s.nextPlaced tr t.nulls p with
    | some (e, x) =>
      let n := engNum e
      let q := (p.1.set n (p.1.getD n 0 + 1), p.2)
      some ((s.placeEntry e { x with task := t.l }).setGraph g (y.setProgress k s.cur t.l q))
    | none =>
      if !tr.placedTo p then none
      else match tr.waits[p.2]? with
      | none => some (s.exitTask false 0)
      | some w =>
        (c.replayWait w).map (fun d => (s.setCore d).setGraph g (y.setProgress k s.cur t.l (p.1, p.2 + 1)))

/-- One act of the replayer on logical core n. -/
def State.replayCore (s : State) (g : Nat) (y : Graph) (v : Variant) (n : Nat) : Option State :=
  if !s.served y.ctx n then none
  else
    let u : State := { s with ctx := y.ctx, cur := n }
    match u.core.task, (u.launchOf u.core).bind (fun x => x.graph) with
    | some t, some (g', k) =>
      if g' ≠ g ∨ t.started = false ∨ t.replayed = false then none
      else (v.taskOf k n t.l).bind (fun tr => u.replayTask g y k tr t)
    | _, _ => none

/-- REPLAY: graph step `g` takes a version that has come, makes its next launch, performs recorded entries, or ends. -/
def execReplay (g : Nat) (s : State) : Result :=
  match s.graphs[g]? with
  | none => .next s
  | some y =>
    match y.variant.bind (s.variantAt y.hash) with
    | none => .next s
    | some v =>
      match y.heldSince, v.next with
      | some _, some (ver, effect, true) =>
        .next (((s.applyVersion y.hash v ver effect).1).setGraph g { y with heldSince := none })
      | some _, _ => .next s
      | none, _ =>
        match (List.range 256).findSome? (s.replayCore g y v) with
        | some t => .next t
        | none => .next ((if y.gfail then none else s.graphAdvance g y).getD s)

/-! ## The refiner (R309) -/

/-- A range of bytes that an entry reads or writes: in device memory or in a vault (none: the refiner does not know which),
and its ends; a range that can change with the argument table, or that it does not know, has none. -/
structure Range where
  device : Bool
  quad : Option Nat := none
  ends : Option (Nat × Nat) := none
  deriving DecidableEq, Repr, Inhabited

/-- Whether two ranges may meet. -/
def Range.meets (a b : Range) : Bool :=
  if a.device != b.device then false
  else if a.quad.isSome && b.quad.isSome && a.quad != b.quad then false
  else match a.ends, b.ends with
  | some (l, h), some (l', h') => decide (l < h' ∧ l' < h)
  | _, _ => true

/-- The range of a descriptor's image in a launch; `arg`: its base comes from the argument table. -/
def State.imageRange (s : State) (x : Launch) (own : Nat) (arg : Bool) (img : BitVec 512) : Range :=
  let t := tensorOf img
  let v := s.view x.ctx { img := img }
  let size := t.extent v.tag
  match v.back with
  | some (.va a) => { device := true, ends := if arg then none else some (a, a + size) }
  | some (.vault des off) =>
    if arg || !t.dir then { device := false }
    else
      let at_ := desFirst des * 65536 + off
      { device := false, quad := some (desQuad own des), ends := some (at_, at_ + size) }
  | none => { device := false }

/-- The image that a launch's preload entries load into a table entry, and whether its base comes from the argument
table. -/
def Launch.image (x : Launch) (n : Nat) (walk : Bool) : Option (Bool × BitVec 512) :=
  ((x.preloads.filter (fun p => p.1 == n && p.2.1 == walk)).getLast?).map (fun p => (p.2.2.1.isSome, p.2.2.2))

/-- The range of a descriptor that a step's launch loads; none when it loads none. -/
def State.tixRange (s : State) (x : Launch) (own n : Nat) : Option Range :=
  (x.image n false).map (fun d => s.imageRange x own d.1 d.2)

/-- The range of the rows that a walk can reach, and of the index rows that it reads; none when the step's launch loads no
such image. -/
def State.walkRange (s : State) (x : Launch) (own w : Nat) : Option (Range × List Range) :=
  (x.image w true).bind (fun p =>
    let k := walkOf (p.2.extractLsb' 0 256)
    match s.tixRange x own k.tix, k.kind with
    | some r, 1 => (s.tixRange x own k.iix).map (fun i => (r, [i]))
    | some r, _ => some (r, [])
    | none, _ => none)

/-- What a copy entry reads, what it writes, and the channel it names; `binds`: it is a `cbind` or a `cwmk` (R309), or a
`cscl`, whose queue counts as channel 8 or 9, since a swap there would change a result. -/
structure CopyUse where
  reads : List Range := []
  writes : List Range := []
  chan : Option Nat := none
  binds : Bool := false
  deriving DecidableEq, Repr, Inhabited

/-- What a copy entry uses; none when the refiner does not tell. -/
def State.copyUse (s : State) (x : Launch) (core : Nat) (e : Entry) : Option CopyUse :=
  let range := s.walkRange x (quadOf core)
  let both := fun (o : CWord) =>
    match range o.ws.toNat, range o.wd.toNat with
    | some a, some b => some ({ reads := a.1 :: a.2 ++ b.2, writes := [b.1], chan := some o.ch.toNat } : CopyUse)
    | _, _ => none
  match e.body with
  | .word w =>
    (match decodeEng w with
     | .ok (.ccpy o) => both o
     | .ok (.ccvt o _) => both o
     | .ok (.cxpd o) => both o
     | .ok (.cfilb o) => both o
     | .ok (.cgath o) => both o
     | .ok (.cscat o) => both o
     | .ok (.czero wd ch _ _) =>
       (range wd.toNat).map (fun b => ({ reads := b.2, writes := [b.1], chan := some ch.toNat } : CopyUse))
     | .ok (.cscl ws q _ _) =>
       (range ws.toNat).map (fun a => ({ reads := a.1 :: a.2, chan := some (8 + q.toNat), binds := true } : CopyUse))
     | .ok (.cbindOff ch _) => some { chan := some ch.toNat, binds := true }
     | .ok (.cbindRange ch _ _) => some { chan := some ch.toNat, binds := true }
     | .ok (.cbindStream ch _ _ _) => some { chan := some ch.toNat, binds := true }
     | .ok (.cwmk ch _ _) => some { chan := some ch.toNat, binds := true }
     | _ => none)
  | _ => none

/-- Whether two uses conflict: a write range of one meets a read or write range of the other, or one binds a channel that
the other names. -/
def CopyUse.conflicts (a b : CopyUse) : Bool :=
  let hits := fun (p q : CopyUse) => p.writes.any (fun r => q.reads.any r.meets || q.writes.any r.meets)
  hits a b || hits b a || ((a.binds || b.binds) && a.chan.isSome && a.chan == b.chan)

/-- Whether two entries of a task may pass each other (R309). -/
def State.mayPass (s : State) (x : Launch) (core : Nat) (a b : Entry) : Bool :=
  (a.wf == 0 || a.wf != b.sf) && (b.wf == 0 || b.wf != a.sf) && (match s.copyUse x core a, s.copyUse x core b with
    | some p, some q => !p.conflicts q
    | _, _ => false)

/-- Replaces the copy entries of a record. -/
def TaskTrace.setCopies (t : TaskTrace) (l : List TraceEntry) : TaskTrace :=
  { t with entries := t.entries.filter (fun p => p.1 != .c) ++ l.map (fun x => (Eng.c, x)) }

/-- The launch that ran a task of the last replay of a hash. -/
def State.refLaunch (s : State) (hash : Word) (gtask : Nat) : Option Launch :=
  (s.graphs.reverse.find? (fun y => y.hash == hash && y.done)).bind (fun y =>
    match SMap.get 0 y.launches gtask with
    | 0 => none
    | i + 1 => s.launchAt i)

/-- Whether a control wait waits for what an entry signals. -/
def CtlWait.onFlag (f : Ix6) : CtlWait → Bool
  | .flag g => f != 0 && g == f.toNat
  | _ => false

/-- A task's record after a change, if the change is allowed (R309). -/
def State.refineTask (s : State) (hash : Word) (t : TaskTrace) : RefineChange → Option TaskTrace
  | .swap _ pos =>
    let l := t.list .c
    (match l[pos]?, l[pos + 1]?, s.refLaunch hash t.gtask with
     | some a, some b, some x =>
       if s.mayPass x t.core a.entry b.entry then some (t.setCopies ((l.set pos { b with tb := a.tb }).set (pos + 1) { a with tb := b.tb }))
       else none
     | _, _, _ => none)
  | .lowerWseq _ pos wseq =>
    let l := t.list .c
    (match l[pos]?, s.refLaunch hash t.gtask with
     | some a, some x =>
       let between := t.entries.filter (fun p => p.2 != a && wseq ≤ p.2.wseq && p.2.wseq ≤ a.wseq)
       if wseq < a.wseq && between.all (fun p => p.1 == .c && s.mayPass x t.core a.entry p.2.entry)
           && ((t.waits.drop wseq).take (a.wseq - wseq)).all (fun w => !w.onFlag a.entry.sf && !w.onFlag a.entry.wf)
       then some (t.setCopies (l.set pos { a with wseq := wseq })) else none
     | _, _ => none)
  | _ => none

/-- The variant with a change proposed, if it is allowed. -/
def State.propose (s : State) (hash : Word) (v : Variant) : RefineChange → Option Variant
  | .swap r pos =>
    (v.tasks[r]?.bind (fun t => s.refineTask hash t (.swap r pos))).map (fun t => { v with proposal := v.tasks.set r t, newPfds := v.pfds })
  | .lowerWseq r pos w =>
    (v.tasks[r]?.bind (fun t => s.refineTask hash t (.lowerWseq r pos w))).map (fun t =>
      { v with proposal := v.tasks.set r t, newPfds := v.pfds })
  | .prefetch k d =>
    if 16 ≤ d ∧ d ≤ 256 then some { v with proposal := v.tasks, newPfds := SMap.set 0 v.pfds k d } else none
  | .quadMap lq pq =>
    if lq < 64 ∧ pq < 64 then some { v with proposal := v.tasks, newPfds := v.pfds, newMap := some (lq, pq) } else none

/-- The last step of a hash that was replayed. -/
def State.lastReplayed (s : State) (hash : Word) : Nat :=
  s.graphs.foldl (fun m y => if y.hash == hash && y.variant.isSome then max m y.step else m) 0

/-- REFINEMENT: between replays the refiner proposes a new version of a variant with an effect step beyond the last
replayed step + 1 (R309, R310). -/
def execRefinement (hash : Word) (variant : Nat) (change : RefineChange) (s : State) : Result :=
  if s.graphs.any (fun y => y.hash == hash && !y.done) then .next s
  else match s.variantAt hash variant with
  | none => .next s
  | some v =>
    if v.next.isSome then .next s
    else match s.propose hash v change with
    | none => .next s
    | some w =>
      let effect := s.lastReplayed hash + 2 + Config.choice s.draws
      .next ({ s with draws := s.draws + 1 }.setVariant hash { w with next := some (v.version + 1, effect, s.gang.self == 0) })

/-- VERSION_NOTICE: a proposed version reaches this package. -/
def execVersionNotice (hash : Word) (variant version effect : Nat) (s : State) : Result :=
  match s.variantAt hash variant with
  | none => .next s
  | some v =>
    match v.next with
    | some (ver, e, _) =>
      if ver = version ∧ e = effect then .next (s.setVariant hash { v with next := some (ver, e, true) }) else .next s
    | none => .next s

/-- VERSION_LATE: after 10 ms the held step goes on with the old version (R310, R333). -/
def execVersionLate (g : Nat) (s : State) : Result :=
  match s.graphs[g]? with
  | none => .next s
  | some y =>
    match y.heldSince, (y.variant.bind (s.variantAt y.hash)).bind (fun v => v.next) with
    | some t, some (ver, _, false) =>
      if t + 10000000 ≤ s.time then
        .next ((s.trace 0x0A 0xFF 3 0 (y.hash.toNat * 2 ^ 64 + ver % 2 ^ 32 * 2 ^ 32)).setGraph g
          { y with heldSince := none, late := true })
      else .next s
    | _, _ => .next s

end Sys2Proof.Machine
end

