-- ==== Sys2Proof/Machine/Sync.lean ====
section
/-! DEFINITION. Flags and rigging of the control core (R102, R103, R247), barriers (R104, R248, R266, R300, R351),
batches (R105), rendezvous (R106), the mode crossing of the control core (R133, R137). -/

namespace Sys2Proof.Machine

/-! ## Flags (R102) -/

/-- The increment of an `fsig`: 1 for s0, else the register. -/
def Core.increment (c : Core) (a : Reg) : Nat := if a = 0 then 1 else (c.rd a).toNat

/-- `fsig` to the core's own flag. -/
def execFsig (a : Reg) (f : Ix6) (s : State) : Result :=
  if !s.storesDone 0 then s.wait .memory
  else match s.core.flagInc f.toNat (s.core.increment a) with
  | some c => .next (s.setCore (c.advancePc 4))
  | none => s.trap cFlagOverflow (BitVec.ofNat 64 f.toNat)

/-- `fsig` over the quad flag network: the increment lands two cycles after the release (R247). -/
def execFsigQuad (a : Reg) (f : Ix6) (k : BitVec 2) (s : State) : Result :=
  let target := 4 * quadOf s.cur + k.toNat
  if !s.inSpan target then s.trap cBarrierScope ((firstWord (.fsigQuad a f k)).zeroExtend 64)
  else if !s.storesDone 1 then s.wait .memory
  else
    let n := s.core.increment a
    let s1 := (if target = s.cur then s else s.noteLive).advance 2
    match (s1.coreAt s1.ctx target).flagInc f.toNat n with
    | some c => (s1.setCoreAt s1.ctx target c).done 4
    | none => s1.trap cFlagOverflow (BitVec.ofNat 64 (1024 + 256 * k.toNat + f.toNat))

/-- `fwait`: takes a count, or waits for one. -/
def execFwait (f : Ix6) (s : State) : Result :=
  match s.core.flagTake f.toNat with
  | some c => (s.setCore c).noteWait (.flag f.toNat) |>.done 4
  | none => s.wait (.flag f.toNat)

def execFpeek (d : Reg) (f : Ix6) (s : State) : Result := s.writeReg d (BitVec.ofNat 64 (s.core.flag f.toNat)) 4

/-! ## Rigging (R103) -/

/-- Whether an image may stand as a product of the term that drives flag `target`. -/
def productOk (v : Word) (target : Nat) : Bool :=
  let p := v.toNat
  let slots := [bits p 5 0, bits p 11 6, bits p 17 12, bits p 23 18]
  decide (p < 2 ^ 25) && (if bit p 24 then slots.any (fun f => f != 0) else slots.all (fun f => f == 0))
    && slots.all (fun f => f != target)

/-- `rigw`: field a holds product 0, field d product 1. -/
def execRigw (b a : Reg) (t : BitVec 4) (s : State) : Result :=
  let p0 := s.core.rd a
  let p1 := s.core.rd b
  if productOk p0 (48 + t.toNat) && productOk p1 (48 + t.toNat) then
    .next (s.upd (fun c =>
      Core.advancePc { c with rig := SMap.set 0 c.rig t.toNat (p1.extractLsb' 0 25 ++ p0.extractLsb' 0 25) } 4))
  else s.illegal (.rigw b a t)

/-! ## Barriers (R104) -/

/-- The instance of a scope that holds a logical core: its quad, its die, or the whole (R191). -/
def scopeInst (scope n : Nat) : Nat := if scope = 1 then n / 4 else if scope = 2 then n / 32 else 0

/-- Whether a scope and id name a barrier (R104). -/
def barrierNamed (scope id : Nat) : Bool := (1 ≤ scope && scope ≤ 3) || (scope == 4 && id < 4)

/-- The participants of a barrier: the launch's logical cores in the instance. -/
def participants (x : Launch) (scope inst : Nat) : List Nat :=
  (List.range 256).filter (fun n => x.spans n && scopeInst scope n == inst)

/-- The barrier of a launch at a scope, for the instance that holds a core; its state lies in the network. -/
def State.barrier (s : State) (launch scope id n : Nat) : Barrier :=
  (s.barriers.find? (fun b => b.launch == launch && b.scope == scope && b.id == id && b.inst == scopeInst scope n)).getD
    { scope := scope, inst := scopeInst scope n, launch := launch, id := id }

/-- Replaces a barrier. -/
def State.setBarrier (s : State) (b : Barrier) : State :=
  let same := fun (x : Barrier) => x.launch == b.launch && x.scope == b.scope && x.id == b.id && x.inst == b.inst
  if s.barriers.any same then { s with barriers := s.barriers.map (fun x => if same x then b else x) }
  else { s with barriers := s.barriers ++ [b] }

/-- The key of a barrier id in a core's record of arrivals. -/
def arrivalKey (scope id : Nat) : Nat := 8 * scope + id

/-- Whether the generation of the core's most recent arrival has completed; true with none outstanding. -/
def State.arrivalDone (s : State) (launch scope id : Nat) : Bool :=
  decide (SMap.get 0 s.core.arrived (arrivalKey scope id) ≤ (s.barrier launch scope id s.cur).gen)

/-- The core arrives for the current generation (R104); the last arrival starts the network's delay. -/
def State.arrive (s : State) (launch scope id : Nat) : State :=
  match s.launchAt launch with
  | none => s
  | some x =>
    let b := s.barrier launch scope id s.cur
    let arrived := insertNat b.arrived s.cur
    let full := (participants x scope b.inst).all (fun n => arrived.contains n)
    let s1 := s.setBarrier { b with arrived := arrived, fullAt := if full then some s.now else none }
    (s1.updLaunch launch (fun y => if 2 ≤ scope then { y with barred := true } else y)).upd (fun c =>
      { c with arrived := SMap.set 0 c.arrived (arrivalKey scope id) (b.gen + 1) })

/-- A barrier instruction's traps: a reserved scope, or one without such a barrier (R52, R104). -/
def State.barrierTrap (s : State) (i : Instr) (scope id : Nat) : Option Result :=
  if 6 ≤ scope then some (s.illegal i)
  else if barrierNamed scope id && s.core.launch.isSome then none
  else some (s.trap cBarrierScope ((firstWord i).zeroExtend 64))

/-- An arrival at a POD barrier of a gang that has a fenced package traps REMOTE_FAULT until the gang is rebuilt
(R358, R360). -/
def State.podBroken (s : State) (scope : Nat) : Bool := scope == 4 && !s.gang.fenced.isEmpty

/-- `bara`: waits for earlier accesses and for the generation of its previous arrival, then arrives. -/
def execBara (i sc : BitVec 3) (s : State) : Result :=
  match s.barrierTrap (.bara i sc) sc.toNat i.toNat with
  | some r => r
  | none =>
    let l := s.core.launch.getD 0
    if s.podBroken sc.toNat then s.trap cRemoteFault (BitVec.allOnes 64)
    else if !s.accessesDone sc.toNat then s.wait .memory
    else if !s.arrivalDone l sc.toNat i.toNat then s.wait .barrier
    else (s.noteLive.arrive l sc.toNat i.toNat).done 4

/-- `barw`: waits for the generation of the most recent arrival. -/
def execBarw (i sc : BitVec 3) (s : State) : Result :=
  match s.barrierTrap (.barw i sc) sc.toNat i.toNat with
  | some r => r
  | none =>
    if s.arrivalDone (s.core.launch.getD 0) sc.toNat i.toNat then s.noteLive.done 4 else s.wait .barrier

/-- `bar`: `bara` then `barw`; while it waits in its second half, `barAt` holds its pc, so that it does not arrive twice
when it executes again (R113, R204). -/
def execBar (i sc : BitVec 3) (s : State) : Result :=
  match s.barrierTrap (.bar i sc) sc.toNat i.toNat with
  | some r => r
  | none =>
    let l := s.core.launch.getD 0
    if s.core.barAt = some s.core.pc then
      (if s.arrivalDone l sc.toNat i.toNat then (s.upd (fun c => { c with barAt := none })).done 4 else s.wait .barrier)
    else if s.podBroken sc.toNat then s.trap cRemoteFault (BitVec.allOnes 64)
    else if !s.accessesDone sc.toNat then s.wait .memory
    else if !s.arrivalDone l sc.toNat i.toNat then s.wait .barrier
    else ((s.noteLive.arrive l sc.toNat i.toNat).upd (fun c => { c with barAt := some c.pc })).wait .barrier

/-- Cycles from the last arrival to the end of a generation, by the network that carries it (R248, R266, R300). -/
def barrierDelay (scope : Nat) : Nat := if scope = 1 then 4 else if scope = 2 then 12 else 40

/-- Whether the logical cores of a logical die are served on more than one physical die: DIE scope is then performed at
PKG scope (R252). -/
def State.dieSplit (s : State) (die : Nat) : Bool :=
  (List.range 8).any (fun q => s.physQuad (8 * die + q) / 8 != s.physQuad (8 * die) / 8)

/-- BARRIER_GENERATION_COMPLETE: the generation of barrier `k` completes, its delay after the last arrival; POD scope
waits for every package's arrival (R351). -/
def execBarrierGenerationComplete (k : Nat) (s : State) : Result :=
  match s.barriers[k]? with
  | none => .next s
  | some b =>
    match b.fullAt with
    | none => .next s
    | some t =>
      let scope := if b.scope = 2 ∧ s.dieSplit b.inst then 3 else b.scope
      let others := (List.range s.gang.size).filter (fun p => p != s.gang.self)
      if s.now < t + barrierDelay scope ∨ (b.scope = 4 ∧ others.any (fun p => !b.pods.contains (1024 * (b.gen + 1) + p))) then .next s
      else
        match s.launchAt b.launch with
        | none => .next s
        | some x =>
          let woken := { s with cores := s.cores.map (fun (e : Nat × Core) =>
            if e.1 / 512 = x.ctx ∧ b.arrived.contains (e.1 % 512) then (e.1, { e.2 with latch := true }) else e) }
          .next (woken.setBarrier { b with gen := b.gen + 1, arrived := [], fullAt := none,
                                           pods := b.pods.filter (fun p => b.gen + 1 < p / 1024) })

/-! ## Batches and rendezvous (R105, R106) -/

def execBwait (n : Ix6) (e : BitVec 2) (s : State) : Result :=
  if e.toNat = 3 then s.illegal (.bwait n e)
  else if s.core.outstanding (engOf e.toNat) ≤ n.toNat then
    (s.noteWait (.batch (engOf e.toNat) n.toNat)).done 4
  else s.wait .batch

def execRdvz (k : BitVec 3) (s : State) : Result :=
  if (SMap.get {} s.core.forks k.toNat).pending.isEmpty then (s.noteWait (.fork k.toNat)).done 4 else s.wait .fork

/-! ## The mode crossing (R133, R137) -/

/-- The control core's crossing: at once when the mode is in force; else it waits until every entry that the core's
queues accepted before it has completed. MODE_CROSSING then ends the wait. -/
def State.crossMode (s : State) (interlock : Bool) : Result :=
  let c := s.core
  if c.crossing.any (fun x => x.2.2 == 0) then s.wait .crossing
  else if c.interlock = interlock then s.done 4
  else .next (s.upd (fun c => { c with crossing := c.crossing ++ [(interlock, c.stamp, 0)], waiting := some .crossing }))

def execModeExposed (s : State) : Result := s.crossMode false
def execModeInterlock (s : State) : Result := s.crossMode true

/-- The entries that a crossing waits for have completed: those that the core's queues accepted before it; for the
`smode` of an engine, all of them but its own entry. -/
def Core.crossingDue (c : Core) (limit who : Nat) : Bool :=
  [Eng.v, Eng.m, Eng.c].all (fun e =>
    (c.queue e).incomplete.all (fun x => decide (limit ≤ x.stamp) || (who == engNum e + 1 &&
      (match (c.queue e).act with
       | some a => a.entry.seq == x.seq
       | none => false))))

/-- MODE_CROSSING: the first crossing of core n takes place, once its waits have ended (R133); the entries behind it
may begin. -/
def execModeCrossing (n : Nat) (s0 : State) : Result :=
  match s0.engineCtx n with
  | none => .next s0
  | some ctx =>
    let s : State := { s0 with ctx := ctx, cur := n }
    match s.core.crossing with
    | [] => .next s
    | (mode, limit, who) :: rest =>
      if s.core.crossingDue limit who then
        .next (s.upd (fun c =>
          let d := { c with crossing := rest, interlock := mode, epoch := c.epoch + 1 }
          if who = 0 ∧ c.waiting = some .crossing then d.advancePc 4 else d))
      else .next s

end Sys2Proof.Machine
end

