-- ==== Sys2Proof/Machine/System.lean ====
section
/-! DEFINITION. The system group (R118 to R120) and the control and status registers (R84 to R87, R112, R124, R172,
R173, R311). -/

namespace Sys2Proof.Machine

/-! ## SYS (R118) -/

def execNop (s : State) : Result := s.done 4
/-- TakeTrap(TRAP_INSTR, 0, k, PC + 4). -/
def execTrap (k : BitVec 10) (s : State) : Result :=
  .next (s.takeTrap cTrapInstr false (k.zeroExtend 64) (s.core.pc + 4))
def execBrk (s : State) : Result := s.trap cBreakpoint 0
def execErtn (s : State) : Result := if s.core.inh then .next s.returnTrap else s.illegal .ertn
/-- The physical core goes to its other logical core, if that is runnable (R19). -/
def execYield (s : State) : Result := .next (s.upd (fun c => c.advancePc 4)).yieldCore
def execWfe (s : State) : Result :=
  if s.core.latch then .next (s.upd (fun c => Core.advancePc { c with latch := false } 4)) else s.wait .latch
def execIcinv (s : State) : Result :=
  if s.storesDone 0 then .next (s.upd (fun c => Core.advancePc { c with icache := [] } 4)) else s.wait .memory

/-- `texit` (R119): `fence.rel.core`, then the task ends; a frame that sets FLT is logged (R120). -/
def execTexit (s : State) : Result :=
  if !s.accessesDone 0 then s.wait .memory
  else
    let c := s.core
    let s1 := if c.flt then s.logTrap (c.xcause.extractLsb' 0 8) c.xval.toNat c.xpc.toNat else s
    .next (s1.exitTask c.flt c.pc.toNat)

/-! ## What a CSR reads (R85, R86, R112, R124, R172, R173) -/

/-- `COVER` (R86). -/
def coverValue (x : Launch) : Word :=
  if orCov x.oprec && decide (0 < orLtype x.oprec) then
    BitVec.ofNat 64 (orPy x.oprec * 2 ^ 16 + orPx x.oprec * 2 ^ 13 + orPer x.oprec * 2 ^ 11 + orLtype x.oprec * 2 ^ 8 + x.code % 256)
  else 0

/-- A bit of a register. -/
def bitIf (b : Bool) (k : Nat) : Nat := if b then 2 ^ k else 0

/-- `XSTAT` (R112). -/
def Core.xstat (c : Core) : Word :=
  BitVec.ofNat 64 (bitIf c.qc.stopped.isSome 7 + bitIf c.qm.stopped.isSome 6 + bitIf c.qv.stopped.isSome 5
    + bitIf c.flt 2 + bitIf c.pend 1 + bitIf c.inh 0)

/-- Whether a queue is stopped by a fault and every earlier entry has completed: its status is FAULTED (R124, R200). -/
def Queue.faulted (q : Queue) : Bool :=
  match q.stopped with
  | some f => q.incomplete.all (fun x => decide (f.seq ≤ x.seq))
  | none => false

/-- One engine's field of `ENGST` (R124): status, then SEQ[17:0] of the oldest incomplete entry. -/
def Queue.status (q : Queue) : Nat :=
  (if q.faulted then 2 else if q.idle && q.stopped.isNone then 0 else 1) * 2 ^ 18 + q.headSeq % 2 ^ 18

/-- `ENGST` (R124). -/
def Core.engst (c : Core) : Word :=
  BitVec.ofNat 64 (c.qv.status + c.qm.status * 2 ^ 20 + c.qc.status * 2 ^ 40)

/-- `MODEST` (R133): bit 1 while a crossing waits; one that is abandoned does not wait. -/
def Core.modest (c : Core) : Word :=
  BitVec.ofNat 64 (bitIf c.interlock 0 + bitIf (c.crossing.any (fun x => x.2.2 != 4)) 1)

/-- `CHSTk` (R172). -/
def Channel.status (x : Channel) : Word :=
  let avl := if x.mode = .stream then x.fifo.length else 0
  let len := if x.mode = .range then x.len else 0
  BitVec.ofNat 64 (avl * 2 ^ 35 + len * 2 ^ 16 + bitIf x.dropped 11 + bitIf x.pois 10 + bitIf x.absn 9 + bitIf x.disc 8
    + (if x.mode = .stream then bitIf x.out 4 + x.esz.toNat * 4 else 0)
    + (match x.mode with | .off => 0 | .range => 1 | .stream => 2))

/-- The value of a CSR of R85; none where the number is unassigned. -/
def State.tileCsr (s : State) (n : Nat) : Option Word :=
  let c := s.core
  let l := s.launchOf c
  if 0x030 ≤ n ∧ n < 0x038 then some (let x := c.channel (n - 0x030); if x.mode = .range then BitVec.ofNat 64 x.wm else 0)
  else if 0x038 ≤ n ∧ n < 0x040 then some (c.channel (n - 0x038)).status
  else match n with
  | 0x000 => some (BitVec.ofNat 64 s.time)
  | 0x001 => some (BitVec.ofNat 64 s.now)
  | 0x002 => some (BitVec.ofNat 64 (s.cur % 256))
  | 0x003 => some (BitVec.ofNat 64 ((s.physOf s.cur).getD 0))
  | 0x004 => some (BitVec.ofNat 64 s.ctx)
  | 0x006 => some (BitVec.ofNat 64 (bitIf (s.det c) 0))
  | 0x007 => some (match l with | some x => coverValue x | none => 0)
  | 0x008 => some (match c.task with | some t => t.rowmask.zeroExtend 64 | none => 0)
  | 0x009 => some (c.seed.zeroExtend 64)
  | 0x00A => some (BitVec.ofNat 64 (s.quotaLeft s.ctx % 2 ^ 32))
  | 0x00B => some (BitVec.ofNat 64 (s.errlog s.ctx))
  | 0x00C => some (c.resid.zeroExtend 64)
  | 0x010 => some c.xpc
  | 0x011 => some (c.xcause.zeroExtend 64)
  | 0x012 => some c.xval
  | 0x013 => some c.xstat
  | 0x014 => some c.xhand
  | 0x020 => some c.engst
  | 0x021 => some (BitVec.ofNat 64 (bitIf c.schk 0))
  | 0x022 => some (c.lrun.zeroExtend 64)
  | 0x023 => some c.modest
  | 0x040 => some (match l with | some x => BitVec.ofNat 64 (x.number % 2 ^ 32) | none => 0)
  | 0x041 => some (match c.task with | some t => BitVec.ofNat 64 t.l | none => 0)
  | _ => none

/-- The complex and the management core of a supervisor (R311). -/
def State.complexOf (s : State) : Nat := (s.cur - 256) / 4

/-- The value of a supervisor CSR (R311). -/
def State.fwCsr (s : State) (n : Nat) : Option Word :=
  let x := SMap.get {} s.complexes s.complexOf
  match n with
  | 0x800 => some (x.role.zeroExtend 64)
  | 0x801 => some (BitVec.ofNat 64 (s.cur - 256))
  | 0x810 => some (x.setting 0x810)
  | 0x820 => some (x.setting 0x820)
  | 0x821 => some (x.setting 0x821)
  | 0x822 => some (x.setting 0x822)
  | 0x823 => some (x.setting 0x823)
  | 0x824 => some (x.setting 0x824)
  | 0x825 => some (x.setting 0x825)
  | 0x826 => some (x.setting 0x826)
  | 0x827 => some (x.setting 0x827)
  | 0x828 => some (x.setting 0x828)
  | _ => none

/-- What a CSR instruction reads: supervisor numbers answer only a management core (R84). -/
def State.csrValue (s : State) (n : Nat) : Option Word :=
  if 0x800 ≤ n then (if s.supervisor then s.fwCsr n else none) else s.tileCsr n

/-! ## What a CSR write does -/

/-- Read-only CSRs (R85, R311). -/
def csrReadOnly (n : Nat) : Bool :=
  !((n == 0x009) || (n == 0x00C) || (n == 0x010) || (n == 0x013) || (n == 0x014) || (n == 0x021) || (n == 0x022)
    || (0x030 ≤ n && n < 0x038) || (0x810 ≤ n && n ≤ 0x828))

/-- The engine of a stop bit of `XSTAT` (R112). -/
def stopBit (k : Nat) : Eng := if k = 5 then .v else if k = 6 then .m else .c

/-- Clears a stop bit that reads 1: the queue is released (R112, R116). A fault that has not been delivered is discarded
(DESIGN CHOICE, log entry 86); that of an exited task's entry is logged (R117). -/
def State.clearStop (s : State) (new : Word) (k : Nat) : State :=
  if s.core.xstat.getLsbD k && !new.getLsbD k then
    let e := stopBit k
    match (s.core.queue e).stopped with
    | some f => (if f.prev && !f.told then s.logEngineFault e f s.core.pc.toNat else s).releaseQueue e
    | none => s
  else s

/-- The write of `XSTAT` (R112): INH and FLT are written; FV, FM and FC can only be cleared. -/
def State.writeXstat (s : State) (new : Word) : State :=
  let s1 := s.upd (fun c => { c with inh := new.getLsbD 0, flt := new.getLsbD 2 })
  ((s1.clearStop new 5).clearStop new 6).clearStop new 7

/-- The write of `WMk` (R84, R173): its bits [18:0], ignored but in RANGE mode; a change sets the event latch (R118). -/
def Core.writeMark (c : Core) (k : Nat) (new : Word) : Core :=
  let x := c.channel k
  if x.mode = .range then
    let y := x.setMark (new.toNat % 2 ^ 19) true
    { c.setChannel k y with latch := c.latch || y.wm != x.wm }
  else c

/-- The write of a supervisor CSR (R311): a period of 0 is ignored; the map holds the value XORed with its reset. -/
def State.writeFw (s : State) (n : Nat) (new : Word) : State :=
  if 0x820 ≤ n ∧ new = 0 then s
  else
    let k := s.complexOf
    let x := SMap.get {} s.complexes k
    { s with complexes := SMap.set {} s.complexes k { x with csr := SMap.set 0 x.csr n (new ^^^ fwDefault n) } }

/-- Writes the writable bits of a CSR. -/
def State.writeCsr (s : State) (n : Nat) (new : Word) : State :=
  if 0x800 ≤ n then s.writeFw n new
  else if 0x030 ≤ n ∧ n < 0x038 then s.upd (fun c => c.writeMark (n - 0x030) new)
  else match n with
  | 0x009 => s.upd (fun c => { c with seed := new.extractLsb' 0 32 })
  | 0x00C => s.upd (fun c => { c with resid := new.extractLsb' 0 2 })
  | 0x010 => s.upd (fun c => { c with xpc := new &&& ~~~3#64 })
  | 0x013 => s.writeXstat new
  | 0x014 => s.upd (fun c => { c with xhand := new &&& ~~~3#64 })
  | 0x021 => s.upd (fun c => { c with schk := new.getLsbD 0 })
  | 0x022 => s.upd (fun c => { c with lrun := new.extractLsb' 0 7 })
  | _ => s

/-- The value that ck forms from the old value and s[a] (R84). -/
def csrNew (ck : Nat) (old a : Word) : Word := if ck = 1 then a else if ck = 2 then old ||| a else old &&& ~~~a

/-- A CSR instruction that writes (R84); s[a] is read before s[d] is written. -/
def State.csrModify (s : State) (i : Instr) (ck : Nat) (d a : Reg) (n : Nat) : Result :=
  match s.csrValue n with
  | none => s.illegal i
  | some old =>
    let new := csrNew ck old (s.core.rd a)
    if csrReadOnly n ∨ (n = 0x022 ∧ (new = 0 ∨ 64 < new.toNat)) then s.illegal i
    else (s.writeCsr n new).writeReg d old 4

/-- A CSR instruction that reads. -/
def State.csrRead (s : State) (i : Instr) (d : Reg) (n : Nat) : Result :=
  match s.csrValue n with
  | none => s.illegal i
  | some old => s.writeReg d old 4

def execCsrr (d : Reg) (c : BitVec 12) (s : State) : Result := s.csrRead (.csrr d c) d c.toNat
def execCsrw (d a : Reg) (c : BitVec 12) (s : State) : Result := s.csrModify (.csrw d a c) 1 d a c.toNat
def execCsrs (d a : Reg) (c : BitVec 12) (s : State) : Result := s.csrModify (.csrs d a c) 2 d a c.toNat
def execCsrc (d a : Reg) (c : BitVec 12) (s : State) : Result := s.csrModify (.csrc d a c) 3 d a c.toNat

/-- A write of `XSTAT` (R112, R116); ck 0 is its read. -/
def execXstatWrite (ck : BitVec 2) (d a : Reg) (s : State) : Result :=
  if ck = 0 then s.csrRead (.xstatWrite ck d a) d 0x013 else s.csrModify (.xstatWrite ck d a) ck.toNat d a 0x013

/-- A write of `WMk` (R173); ck 0 is its read. -/
def execWmWrite (ck : BitVec 2) (d a : Reg) (k : BitVec 3) (s : State) : Result :=
  if ck = 0 then s.csrRead (.wmWrite ck d a k) d (0x030 + k.toNat)
  else s.csrModify (.wmWrite ck d a k) ck.toNat d a (0x030 + k.toNat)

/-- An access of `RESID` waits until every earlier load and store has performed, those of other packages too (R87). -/
def execResidAccess (ck : BitVec 2) (d a : Reg) (s : State) : Result :=
  if !s.accessesDone 5 then s.wait .memory
  else if ck = 0 then (if a = 0 then s.csrRead (.residAccess ck d a) d 0x00C else s.illegal (.residAccess ck d a))
  else s.csrModify (.residAccess ck d a) ck.toNat d a 0x00C

/-- The three queues at one instant (R124, R200). -/
def execEngstRead (d : Reg) (s : State) : Result := s.csrRead (.engstRead d) d 0x020

/-! ## Delivery (R115, R117) -/

/-- TRAP_DELIVERY: a held trap of core n is taken at an instruction boundary with INH = 0; a queue that a fault of an
exited task's entry has stopped is released by the device when no task of the core can see it (R117). -/
def execTrapDelivery (n : Nat) (s : State) : Result :=
  match s.actor n with
  | none => .next s
  | some s =>
    if s.coreRuns then (if s.core.pend && !s.core.inh && s.core.waiting != some .device then .next s.deliver else .next s)
    else if s.releasesItself s.core then .next (s.releaseAll s.core.pc.toNat)
    else .next s

/-- QUOTA_STALL: the insertion that core n waits in traps after STALL_LIMIT, when the task has a handler and INH = 0; the
quota request is posted in either case (R129, R330). -/
def execQuotaStall (n : Nat) (s : State) : Result :=
  match s.actor n with
  | none => .next s
  | some s =>
    match s.core.waiting with
    | some (.insertion target e since) =>
      if s.time ≤ since + 1000 * s.setting 0x823 then .next s
      else
        let s1 := s.event 2 s.ctx (Config.eventArg 2).toNat (recPrvec (s.ctxRecord s.ctx))
        if s1.core.xhand = 0 ∨ s1.core.inh then
          .next (s1.upd (fun c => { c with waiting := some (.insertion target e s.time) }))
        else .next (s1.preciseTrap cQuotaStall (BitVec.ofNat 64 (256 * target + engNum e)))
    | _ => .next s

/-- The causes that an engine raises (R114): the rows of kind E. -/
def engineCauses : List (BitVec 8) :=
  [cIllegalWord, cVaultBounds, cFootprintViolation, cFootprintOverlap, cStallUndersized, cAccHazard, cScaleImbalance,
   cTensorDesc, cFlagOverflow, cRemoteFault, cOrderedKey, cProgramRow, cLeaseInvalid]

/-- ENGINE_FAULT: engine e of core n faults with a cause of kind E; its queue stops (R115). Other codes are never
produced (R114). -/
def execEngineFault (n : Nat) (e : Eng) (code : BitVec 8) (s0 : State) : Result :=
  match if engineCauses.contains code then s0.actor n else none with
  | none => .next s0
  | some s =>
    let q := s.core.queue e
    match q.act with
    | some a =>
      let left := match a.word with
        | some w => if e = .v then (w.extractLsb' 26 10).toNat + 1 - a.rep else a.rep
        | none => 0
      .next (({ s with eng := e }).engineFault e a.entry code { count := left, rep := a.rep })
    | none =>
      match q.flight with
      | f :: _ => .next (({ s with eng := e }).engineFault e f.entry code {})
      | [] => .next s

end Sys2Proof.Machine
end

