-- ==== Sys2Proof/Machine/Section.lean ====
section
/-! DEFINITION. The core section of a context image (R214, R215): the bytes of each bank where the manual gives their place,
and the state that a section's bytes restore (R211, R216). Of an area whose inner layout the manual does not give the bytes
are free values, and the image record of the state holds what they stand for (log entry 34). -/

namespace Sys2Proof.Config

/-- The bytes of an area of a core section whose inner layout the manual does not give (R214), by the core and the area's
offset. -/
opaque coreArea : Sys2Proof.Machine.Core → Nat → Nat

end Sys2Proof.Config

namespace Sys2Proof.Machine

/-! ## Banks (R206) -/

/-- The number of a bank, in the order of R215. -/
def bankNum : Bank → Nat
  | .s => 0
  | .v0 => 1
  | .v1 => 2
  | .v2 => 3
  | .v3 => 4
  | .t => 5
  | .f => 6
  | .a => 7

/-- The core with every fixed-latency effect landed. -/
def Core.landed (c : Core) : Core :=
  c.settle (c.pendM.foldl (fun m p => max m p.land) (c.pendV.foldl (fun m p => max m p.land) 0))

/-! ## Fields: offset in the section, bytes, value -/

/-- A field of a section. -/
abbrev SecField := Nat × Nat × Nat

/-- `n` numbers of `w` bytes from an offset on. -/
def fieldRun (base w n : Nat) (f : Nat → Nat) : List SecField := (List.range n).map (fun i => (base + w * i, w, f i))

/-- A handle's 16 bytes. -/
def Handle.saved (h : Handle) : Nat := h.image.toNat + (if h.rw then 2 ^ 64 else 0)

/-- The 32 bytes of a queued load or store: row address, data, element, handle number, a word each (R214). -/
def LsEntry.saved (x : LsEntry) : Nat :=
  let (data, el) : Nat × Nat := match x.kind with
    | .load _ _ el => (0, el)
    | .store d _ el => (d.toNat, el)
    | .row d m => (((List.range 128).find? (fun i => m.getLsbD i)).elim 0 (fun i => d.toNat / 2 ^ (8 * i) % 2 ^ 64), 0)
    | .token id => (id, 0)
  rowBase (x.handle.base.toNat + x.off) % 2 ^ 64 + data * 2 ^ 64 + el * 2 ^ 128 + x.reg * 2 ^ 192

/-- The S area. -/
def Core.fieldsS (c : Core) : List SecField :=
  fieldRun 0x400 8 32 (fun i => (c.rd (BitVec.ofNat 5 i)).toNat) ++ fieldRun 0x500 16 16 (fun i => (c.handle i).saved)
    ++ fieldRun 0x600 16 8 (fun i => (c.mask i).toNat)
    ++ [(0x680, 8, c.seed.toNat), (0x688, 8, c.resid.toNat), (0x690, 8, c.xpc.toNat), (0x698, 8, c.xcause.toNat),
        (0x6A0, 8, c.xval.toNat), (0x6A8, 8, c.xstat.toNat), (0x6B0, 8, c.xhand.toNat), (0x6B8, 8, bitIf c.schk 0),
        (0x6C0, 8, c.lrun.toNat), (0x6C8, 8, c.modest.toNat), (0x6F8, 8, c.grantPending.toNat)]
    ++ fieldRun 0x780 4 32 (fun i => SMap.get 0 c.arrived (8 + i))
    ++ fieldRun 0x800 32 c.lq.length (fun i => ((c.lq[i]?).map LsEntry.saved).getD 0)
    ++ fieldRun 0xA00 32 c.sq.length (fun i => ((c.sq[i]?).map LsEntry.saved).getD 0)

/-- The counters of a queue at its place in the F area. -/
def Queue.counters (q : Queue) : List Nat := [q.issuing, q.waitFlag, q.waitEngine, q.empty]

/-- The fill marks of a channel: every row below the watermark, and the marks above it. -/
def Channel.markBits (x : Channel) : Nat := x.marks.foldl (fun v i => Nat.lor v (2 ^ i)) (2 ^ x.wm - 1)

/-- The channel and FIFO fields of the F area, and the mark bitmaps. -/
def Core.fieldsChannels (c : Core) : List SecField :=
  (List.range 8).flatMap (fun k =>
    let x := c.channel k
    let range := x.mode == .range
    [(0x6200 + 64 * k, 8, x.status.toNat), (0x6208 + 64 * k, 8, if range then x.wm else 0)]
      ++ fieldRun (0x8000 + 2048 * k) 128 x.fifo.length (fun i => (x.fifo.getD i 0).toNat)
      ++ (if range then [(0x20000 + 0x8000 * k, ceilDiv x.len 8, x.markBits)] else []))

/-- The F area. -/
def Core.fieldsF (c : Core) : List SecField :=
  fieldRun 0x4000 2 64 (fun i => c.flag i)
    ++ fieldRun 0x4080 8 32 (fun i => (SMap.get 0 c.rig (i / 2)).toNat / 2 ^ (25 * (i % 2)) % 2 ^ 25)
    ++ [(0x4180, 128, Config.coreArea c 0x4180)] ++ fieldRun 0x4200 1024 3 (fun e => Config.coreArea c (0x4200 + 1024 * e))
    ++ fieldRun 0x4E00 8 12 (fun i => ((c.queue (engOf (i / 4))).counters).getD (i % 4) 0)
    ++ fieldRun 0x5000 128 c.sqa.length (fun i => (c.sqa.getD i 0).toNat)
    ++ fieldRun 0x5800 128 c.sqb.length (fun i => (c.sqb.getD i 0).toNat)
    ++ fieldRun 0x6000 8 64 (fun i => SMap.get 0 c.waitCount i)
    ++ c.fieldsChannels

/-- The fields of one bank, and the areas that its bytes fill: offset and size. -/
def Core.fieldsOf (c : Core) (b : Nat) : List SecField × List (Nat × Nat) :=
  match b with
  | 0 => (c.fieldsS, [(0x400, 0x800)])
  | 5 => (fieldRun 0x2C00 64 64 (fun i => (SMap.get 0 c.t i).toNat) ++ fieldRun 0x3C00 32 32 (fun i => (SMap.get 0 c.w i).toNat),
          [(0x2C00, 0x1400)])
  | 6 => (c.fieldsF, [(0x4000, 0x8000), (0x20000, 0x40000)])
  | 7 => (fieldRun 0x10000 512 128 (fun i => ((lastSnap c.acc).row i).toNat), [(0x10000, 0x10000)])
  | _ => (fieldRun (0xC00 + 2048 * (b - 1)) 128 16 (fun i => (SMap.get 0 c.v (16 * (b - 1) + i)).toNat),
          [(0xC00 + 2048 * (b - 1), 2048)])

/-- The header (R215); LAUNCH and TASKN are 0 without a launch or a task (DESIGN CHOICE, log entry 89). -/
def State.sectionHeader (s : State) (ctx n : Nat) : List SecField :=
  let c := s.coreAt ctx n
  let st := fun (i : Nat) => match c.bankState i with | .saved => 0 | .live _ => 1 | .launch => 2
  let pc := fun (i : Nat) => match c.bankState i with | .live p => p | _ => 0
  let borr := c.loanBorrowed.foldl (fun v j => Nat.lor v (2 ^ (16 + j))) 0
  let lent := match c.loanLent with | some k => 2 ^ 7 + k * 2 ^ 4 | none => 0
  let who := s.logWho c
  [(0, 8, n % 256 + ctx * 2 ^ 32 + 1 * 2 ^ 48 + 1 * 2 ^ 56)] ++ fieldRun 0x08 1 8 st ++ fieldRun 0x10 1 8 pc
    ++ [(0x18, 8, c.pc.toNat), (0x20, 8, c.lastCause.toNat * 2 ^ 8 + bitIf c.again 0), (0x28, 8, who.2 % 2 ^ 32 + who.1 * 2 ^ 32),
        (0x30, 8, borr + lent)]

/-! ## Writing -/

/-- Writes bytes of physical memory that may span rows. -/
def State.putRange (s : State) (a n v : Nat) : State :=
  { s with mem := writeNat s.mem a n v, memPoison := s.memPoison.filter (fun w => !(a ≤ 16 * w && 16 * w + 16 ≤ a + n)) }

/-- Zeros bytes of physical memory. -/
def State.zeroRange (s : State) (a n : Nat) : State :=
  { s with mem := eraseRange s.mem a n, memPoison := s.memPoison.filter (fun w => !(a ≤ 16 * w && 16 * w + 16 ≤ a + n)) }

/-- Writes fields of a section at a physical address. -/
def State.putFields (s : State) (base : Nat) (l : List SecField) : State :=
  l.foldl (fun t f => t.putRange (base + f.1) f.2.1 f.2.2) s

/-- Writes one bank's area: its fields, zeros elsewhere. -/
def State.putBank (s : State) (base ctx n b : Nat) : State :=
  let (fs, areas) := (s.coreAt ctx n).landed.fieldsOf b
  (areas.foldl (fun t a => t.zeroRange (base + a.1) a.2) s).putFields base fs

/-- Writes a section's header. -/
def State.putHeader (s : State) (base ctx n : Nat) : State :=
  (s.zeroRange base 0x400).putFields base (s.sectionHeader ctx n)

/-! ## Reading back (R211, R216) -/

/-- Whether a section's header can be resumed. -/
def sectionHeaderOk (v : Nat) : Bool :=
  bits v 63 56 == 1 && bits v 55 48 == 1 && bits v 31 8 == 0
    && (List.range 8).all (fun i => decide (bits v (64 + 8 * i + 7) (64 + 8 * i) ≤ 2))
    && bits v (192 + 1) 192 == 0 && bits v (256 + 63) (256 + 16) == 0 && bits v (256 + 15) (256 + 8) ≤ 3
    && bits v (256 + 7) (256 + 1) == 0 && bits v (384 + 63) (384 + 20) == 0 && bits v (384 + 15) (384 + 8) == 0
    && bits v (384 + 6) (384 + 6) == 0 && bits v (384 + 3) 384 == 0

/-- A handle from its 16 bytes: a page handle is translated again, a vault handle is bound again (R211). -/
def handleOf (v : Nat) (tag : Nat) : Handle :=
  if bit v 3 then
    { valid := true, vault := bit v 4, base := BitVec.ofNat 64 (v % 2 ^ 64 / 65536 * 65536),
      st := if bit v 4 then .resident else .pending, rd := bit v 5, w := bit v 6 || bit v 64, rev := bit v 7, rw := bit v 64,
      tag := tag }
  else {}

/-- A queue whose stop a section's XSTAT no longer shows goes on. -/
def Queue.stopAs (q : Queue) (b : Bool) : Queue := if b then q else { q with stopped := none }

/-- The S area of a section restores into a core; what the bytes do not say stays as the image record has it. -/
def Core.restoreS (c : Core) (rd : Nat → Nat → Nat) : Core :=
  let s := (List.range 32).foldl (fun m i => if i = 0 then m else SMap.set 0 m i (BitVec.ofNat 64 (rd (0x400 + 8 * i) 8))) ([] : SMap Word)
  let h := (List.range 16).foldl (fun m i => if i = 0 then m else SMap.set {} m i (handleOf (rd (0x500 + 16 * i) 16) (c.handle i).tag)) ([] : SMap Handle)
  let m := (List.range 8).foldl (fun m i => if i = 0 then m else SMap.set 0 m i (BitVec.ofNat 128 (rd (0x600 + 16 * i) 16))) ([] : SMap (BitVec 128))
  let x := rd 0x6A8 8
  let c1 := { c with s := s, h := h, m := m, seed := BitVec.ofNat 32 (rd 0x680 8), resid := BitVec.ofNat 2 (rd 0x688 8) }
  let c2 := { c1 with xpc := BitVec.ofNat 64 (rd 0x690 8), xcause := BitVec.ofNat 9 (rd 0x698 8), xval := BitVec.ofNat 64 (rd 0x6A0 8) }
  let c3 := { c2 with inh := bit x 0, flt := bit x 2, xhand := BitVec.ofNat 64 (rd 0x6B0 8), schk := bit (rd 0x6B8 8) 0 }
  { c3 with lrun := BitVec.ofNat 7 (rd 0x6C0 8), interlock := bit (rd 0x6C8 8) 0, grantPending := BitVec.ofNat 32 (rd 0x6F8 8),
            pc := BitVec.ofNat 64 (rd 0x18 8 / 4 * 4), held := if bit x 1 then c.held else [],
            arrived := (List.range 32).foldl (fun m i => SMap.set 0 m (8 + i) (rd (0x780 + 4 * i) 4)) c.arrived,
            qv := c.qv.stopAs (bit x 5), qm := c.qm.stopAs (bit x 6), qc := c.qc.stopAs (bit x 7) }

/-- A register map from a run of fields. -/
def mapRun (w n base bytes : Nat) (rd : Nat → Nat → Nat) : SMap (BitVec w) :=
  (List.range n).foldl (fun m i => SMap.set 0 m i (BitVec.ofNat w (rd (base + bytes * i) bytes))) []

/-- A channel from its 64 bytes, its FIFO and its mark bitmap. -/
def Channel.restore (x : Channel) (rd : Nat → Nat → Nat) (k : Nat) : Channel :=
  let v := rd (0x6200 + 64 * k) 8
  let wm := rd (0x6208 + 64 * k) 8
  let len := bits v 34 16
  let marks := rd (0x20000 + 0x8000 * k) (ceilDiv len 8)
  let mode : ChMode := match v % 4 with | 0 => .off | 1 => .range | _ => .stream
  let x := { x with mode := mode, dropped := bit v 11, pois := bit v 10, absn := bit v 9, disc := bit v 8 }
  match mode with
  | .off => x
  | .range => { x with len := len, wm := wm, marks := (List.range len).filter (fun i => decide (wm ≤ i) && bit marks i) }
  | .stream =>
    { x with out := bit v 4, esz := BitVec.ofNat 2 (bits v 3 2),
             fifo := (List.range (v / 2 ^ 35)).map (fun i => BitVec.ofNat 1024 (rd (0x8000 + 2048 * k + 128 * i) 128)) }

/-- The class counters of a queue from their words. -/
def Queue.restore (q : Queue) (rd : Nat → Nat → Nat) (e : Nat) : Queue :=
  let f := fun (i : Nat) => rd (0x4E00 + 8 * (4 * e + i)) 8
  { q with issuing := f 0, waitFlag := f 1, waitEngine := f 2, empty := f 3 }

/-- The F area of a section restores into a core. -/
def Core.restoreF (c : Core) (rd : Nat → Nat → Nat) : Core :=
  let flags := (List.range 64).foldl (fun m i => if i = 0 then m else SMap.set 0 m i (rd (0x4000 + 2 * i) 2)) ([] : SMap Nat)
  let rig := (List.range 16).foldl (fun m i =>
    SMap.set 0 m i (BitVec.ofNat 50 (rd (0x4080 + 16 * i) 8 % 2 ^ 25 + rd (0x4088 + 16 * i) 8 % 2 ^ 25 * 2 ^ 25))) ([] : SMap (BitVec 50))
  let row := fun (base i : Nat) => BitVec.ofNat 1024 (rd (base + 128 * i) 128)
  let chan := (List.range 8).foldl (fun m k => SMap.set {} m k ((c.channel k).restore rd k)) ([] : SMap Channel)
  { c with flags := flags, rig := rig, chan := chan, sqa := (List.range c.sqa.length).map (row 0x5000),
           sqb := (List.range c.sqb.length).map (row 0x5800),
           waitCount := (List.range 64).foldl (fun m i => SMap.set 0 m i (rd (0x6000 + 8 * i) 8)) ([] : SMap Nat),
           qv := c.qv.restore rd 0, qm := c.qm.restore rd 1, qc := c.qc.restore rd 2 }

/-- A bank at its launch-start value (R12, R207). -/
def Core.launchBank (c : Core) (b : Nat) : Core :=
  match b with
  | 0 => { c with s := [], h := [], m := [], pendM := [], seed := 0, resid := 0, xpc := 0, xcause := 0, xval := 0, inh := false,
                  flt := false, schk := false, lrun := 16, interlock := false, grantPending := 0, arrived := [], barAt := none,
                  lq := [], sq := [], held := [] }
  | 5 => { c with t := [], w := [] }
  | 6 => { c with latch := false, flags := [], rig := [], chan := [], sqa := [], sqb := [], qv := {}, qm := {}, qc := {},
                  forks := [], batches := [], batchLo := 0, pinned := 0, waitCount := [], crossing := [], copies := [],
                  ended := [], vloads := [], vmasks := [], farRows := [], mrows := [] }
  | 7 => { c with acc := [] }
  | _ => { c with v := c.v.filter (fun r => r.1 / 16 != b - 1), pendV := c.pendV.filter (fun p => p.reg / 16 != b - 1) }

/-- One bank of a section restores into a core. -/
def Core.restoreBank (c : Core) (rd : Nat → Nat → Nat) (b : Nat) : Core :=
  match b with
  | 0 => c.restoreS rd
  | 5 => { c with t := mapRun 512 64 0x2C00 64 rd, w := mapRun 256 32 0x3C00 32 rd }
  | 6 => c.restoreF rd
  | 7 => { c with acc := c.acc.dropLast ++ [{ lastSnap c.acc with rows := mapRun 4096 128 0x10000 512 rd }] }
  | _ =>
    { c with v := (List.range 16).foldl (fun m i =>
        SMap.set 0 m (16 * (b - 1) + i) (BitVec.ofNat 1024 (rd (0xC00 + 2048 * (b - 1) + 128 * i) 128))) c.v }

end Sys2Proof.Machine
end

