-- ==== Sys2Proof/Machine/Preempt.lean ====
section
/-! DEFINITION. Time slices and pre-emption (R19, R203, R299), lazy banks (R206 to R210), vault segments in motion (R212,
R213). -/

namespace Sys2Proof.Machine

/-! ## Who competes for cores (R299) -/

/-- The level of a context: the highest of its enabled queues, and of the operators that a raise has admitted and that
have not retired (R20). -/
def State.ctxLevel (s : State) (ctx : Nat) : Nat :=
  s.launches.foldl (fun m x =>
      if x.raised && !x.retired && x.ctx == ctx then max m (qdPri (s.queueDesc x.queue) + 1) else m)
    (s.pqueues.foldl (fun m x => if x.2.enabled && qdCtx (s.queueDesc x.1) == ctx then max m (s.pri x.1) else m) 0)

/-- Whether a context has work for logical core n and its physical core works for another. -/
def State.wantsCore (s : State) (ctx n : Nat) : Bool :=
  (s.context ctx).running && s.busyCore ctx n && s.nearCtx n != some ctx && (s.physOf n).isSome
    && (s.coreAt ctx n).stoppedAt != some 2

/-- Physical cores that serve nothing take the logical cores of a context that want them. -/
def State.serveFree (s : State) (ctx : Nat) : State :=
  (List.range 256).foldl (fun (t : State) n =>
    match t.physOf n with
    | some p =>
      if (t.physCore p).serving = none ∧ t.wantsCore ctx n = true then
        t.setPhys p { t.physCore p with serving := some (ctx, n), sliceAt := t.time }
      else t
    | none => t) s

/-- Contexts other than the victim that want logical core n. -/
def State.rivals (s : State) (victim n : Nat) : List Nat :=
  (s.ctxs.map (fun x => x.1)).filter (fun c => c != victim && s.wantsCore c n)

/-- Whether a packet of a context is in the middle of its steps, a GRAPH of its launches or a WRSIG between write and signal:
the front end pre-empts after its last one (R203, R292). -/
def State.midPacket (s : State) (ctx : Nat) : Bool :=
  s.pqueues.any (fun x => s.queueCtx x.1 == ctx
    && x.2.packets.any (fun p => p.midSignal || (p.graph.isSome && p.stage == .stepped && !s.stepEnded p)))

/-- The newcomer that takes logical core n from a victim: at a packet boundary of the victim, one of higher level, or of its
level when the victim's slice is over; or any when the victim has nothing to do there; the highest level first, then the one
that waits longest. -/
def State.newcomer (s : State) (victim n : Nat) : Option Nat :=
  if (s.coreAt victim n).waiting = some .device then none else
  let own := s.ctxLevel victim
  let idle := !s.busyCore victim n
  let atEnd := !s.midPacket victim
  let ended := (s.context victim).stopReq.isSome
  ((s.rivals victim n).filter (fun c =>
      idle || (atEnd && (own < s.ctxLevel c || (ended && own == s.ctxLevel c))))).foldl
    (fun (m : Option Nat) c =>
      match m with
      | none => some c
      | some b =>
        if s.ctxLevel b < s.ctxLevel c ∨ (s.ctxLevel b = s.ctxLevel c ∧ (s.context c).sliceAt < (s.context b).sliceAt) then some c
        else m) none

/-- QSLICE: the slice of a context is over while another of its level is runnable: a pre-emption is requested. -/
def execQslice (ctx : Nat) (s : State) : Result :=
  let x := s.context ctx
  let rival := (List.range 256).any (fun n => s.nearCtx n == some ctx
    && (s.rivals ctx n).any (fun c => s.ctxLevel c == s.ctxLevel ctx))
  if x.running && x.stopReq.isNone && rival && x.sliceAt + 1000 * s.setting 0x822 ≤ s.time then
    .next (s.setContext ctx { x with stopReq := some 0 })
  else .next s

/-- The physical core of logical core n goes over to another context (R203); it serves nothing else. -/
def State.handOver (s : State) (victim n newcomer : Nat) : State :=
  match s.physOf n with
  | none => s
  | some p =>
    let t := match (s.physCore p).serving with
      | some (c, k) => if c = victim then s.stopCore c k 0 else s
      | none => s
    let u := t.setPhys p { t.physCore p with serving := some (newcomer, n), sliceAt := t.time }
    u.setContext newcomer { u.context newcomer with sliceAt := u.time }

/-- PREEMPTION: the victim's cores that a newcomer may take change hands, at a packet boundary of the victim (R203, R292); it
takes the cores it wants that serve nothing. -/
def execPreemption (ctx : Nat) (s : State) : Result :=
  let t := (List.range 256).foldl (fun (t : State) n =>
    if t.nearCtx n = some ctx then
      (match t.newcomer ctx n with
       | some c => t.handOver ctx n c
       | none => t)
    else t) s
  let u := t.serveFree ctx
  .next (if s.midPacket ctx then u else u.setContext ctx { u.context ctx with stopReq := none })

/-- CORESLICE: at the end of a slice the physical core switches to its other logical core, if that is runnable. -/
def execCoreslice (n : Nat) (s : State) : Result :=
  match s.servedCtx n, s.physOf n, s.partner n with
  | some ctx, some p, some k =>
    if n < 256 ∧ (s.physCore p).sliceAt + 1000 * s.setting 0x821 ≤ s.time ∧ (s.coreAt ctx k).runnable = true
        ∧ (s.coreAt ctx n).waiting ≠ some .device then
      .next (s.switchTo ctx n k)
    else .next s
  | _, _, _ => .next s

/-! ## Lazy banks (R206 to R208) -/

/-- The owner of a bank of a physical core: context and logical core. -/
def State.bankOwner (s : State) (p b : Nat) : Option (Nat × Nat) :=
  match SMap.get (0, 0) (s.physCore p).owner b with
  | (0, _) => none
  | (c + 1, n) => some (c, n)

/-- Replaces the owner tag. -/
def State.setOwner (s : State) (p b : Nat) (o : Option (Nat × Nat)) : State :=
  let x := s.physCore p
  let tag := match o with | some (c, n) => (c + 1, n) | none => (0, 0)
  s.setPhys p { x with owner := SMap.set (0, 0) x.owner b tag }

/-- Where a section of a stopped context's image lies: in the buffer that STOP was given, as its table says (R325). -/
def State.sectionAt (s : State) (ctx kind idx : Nat) : Option Nat :=
  match (s.context ctx).image with
  | none => none
  | some base =>
    (List.range (readNat s.mem (base + 10) 2)).findSome? (fun i =>
      let e := readNat s.mem (base + 64 + 32 * i) 32
      if bits e 191 184 = kind ∧ bits e 159 128 = idx then some (base + bits e 63 0) else none)

/-- A bank that is not live has changed, or has just been saved: the core section of a stopped context's image holds it
(R207, R209). -/
def State.syncSection (s : State) (ctx n b : Nat) : State :=
  match s.sectionAt ctx 1 n with
  | some a => if (s.coreAt ctx n).bankState b = .saved then (s.putBank a ctx n b).putHeader a ctx n else s
  | none => s

/-- A bank of a core is spilled: its section holds it. -/
def State.spill (s : State) (ctx n b : Nat) : State :=
  let c := s.coreAt ctx n
  match c.bankState b with
  | .live p => ((s.setCoreAt ctx n (c.setBank b .saved)).setOwner p b none).syncSection ctx n b
  | _ => s

/-- A bank is forced off the physical core that holds it (R208); the section's header says so, but for a debug stop's dump,
which keeps its cause (R215, R336). -/
def State.forceOff (s : State) (ctx n b : Nat) : State :=
  let c := s.coreAt ctx n
  match c.bankState b with
  | .live _ => (s.setCoreAt ctx n { c with lastCause := if c.lastCause = 2 then 2 else 3 }).spill ctx n b
  | _ => s

/-- Writes of the victim to the bank that have not landed (R207): one of them goes on; none when every one has. A load from
another package that is on its way is awaited. -/
def State.landOne (s : State) (ctx n b : Nat) : Option State :=
  let u : State := { s with ctx := ctx, cur := n }
  let back := fun (t : State) => { t with ctx := s.ctx, cur := s.cur }
  let c := u.core
  if b = 0 then (if c.lq.any (fun x => x.remote.isSome) then some s else none)
  else if b = 7 then (if c.mrows.isEmpty then none else some (back u.landRow))
  else if 1 ≤ b ∧ b ≤ 4 then
    (if c.vloads.any (fun x => x.reg / 16 == b - 1) then
       (match c.owedRows with
        | (i, row) :: _ => (match c.vloads[i]? with | some x => some (back ({ u with eng := .v }.loadRow i x row)) | none => none)
        | [] => none)
     else none)
  else none

/-- Bank S is restored (R211): a page handle is translated again from its base, with its saved access; a revoked one stays
so; a vault handle whose segments the context still holds is bound again. -/
def State.rebind (s : State) (ctx n : Nat) : State :=
  let f := fun (h : Handle) =>
    if !h.valid then h
    else if h.vault then
      let d := h.base.toNat / 65536
      if s.holdsSegs ctx (desQuad (quadOf n) d) (desFirst d) (desCount d) then h else { h with valid := false }
    else match s.whereIs h.base.toNat with
    | .here _ => { h with st := .pending, w := h.rw, rearm := false }
    | _ => h
  s.setCoreAt ctx n ((s.coreAt ctx n).mapHandles f)

/-- A bank whose claim has freed its physical place: the section's bytes come back, or the launch-start value stands (R207). -/
def State.takeBank (s : State) (ctx n b p : Nat) : State :=
  let c := s.coreAt ctx n
  let t := (s.setCoreAt ctx n (c.setBank b (.live p))).setOwner p b (some (ctx, n))
  if b = 0 ∧ c.bankState 0 = .saved then t.rebind ctx n else t

/-- BANK_CLAIM: logical core n claims bank b of the physical core that serves it (R207): the bank that stands there is
spilled, and its own is forced off another physical core (R208), each once every write to it has landed. -/
def execBankClaim (n : Nat) (b : Bank) (s : State) : Result :=
  match s.servedCtx n, s.physOf n with
  | some ctx, some p =>
    let k := bankNum b
    let away := match (s.coreAt ctx n).bankState k with | .live _ => true | _ => false
    if 256 ≤ n ∨ s.bankOwner p k = some (ctx, n) then .next s
    else
      let victim := s.bankOwner p k
      (match victim.bind (fun v => s.landOne v.1 v.2 k), if away then s.landOne ctx n k else none with
       | some t, _ => .next t
       | none, some t => .next t
       | none, none =>
         let s1 := match victim with | some (vc, vn) => s.spill vc vn k | none => s
         .next ((s1.forceOff ctx n k).takeBank ctx n k p))
  | _, _ => .next s

/-- FORCED_SPILL: bank b of a context's logical core n is LIVE on a physical core that does not serve it: it is spilled
there. -/
def execForcedSpill (n : Nat) (b : Bank) (s : State) : Result :=
  let k := bankNum b
  match s.cores.find? (fun (x : Nat × Core) => x.1 % 512 == n && n < 256 && !s.served (x.1 / 512) n
      && (match x.2.bankState k with | .live _ => true | _ => false)) with
  | none => .next s
  | some x =>
    (match s.landOne (x.1 / 512) n k with
     | some t => .next t
     | none => .next (s.forceOff (x.1 / 512) n k))

/-! ## Grants (R101, R204, R209) -/

/-- Whether a grant can be taken: no task awaits it any more, its register awaits it, or its `fao` waits for it. -/
def State.takesGrant (s : State) (k : Contrib) : Bool :=
  k.grant.isSome && (match k.reply with | .reg _ => true | _ => false)
    && (k.left || (s.coreAt k.ctx k.core).waiting == some (.grant (2 * k.id)))

/-- FAO_GRANT: the oldest grant of core n that can be taken is written to s[d], which awaits it or whose instruction waits
(R101, R204); where bank S is saved, the core section takes it too (R209). -/
def execFaoGrant (n : Nat) (s : State) : Result :=
  match s.contribs.find? (fun k => k.core == n && s.takesGrant k) with
  | none => .next s
  | some k =>
    match k.reply, k.grant with
    | .reg d, some (g, b) =>
      let s1 : State := { s with contribs := s.contribs.filter (fun x => x.id != k.id), ctx := k.ctx, cur := k.core }
      let c := s1.core
      let bit := BitVec.ofNat 32 (2 ^ d.toNat)
      let s2 :=
        if c.waiting = some (.grant (2 * k.id)) then
          (s1.upd (fun c => (c.wr d g).advancePc 8)).setResid (b.getLsbD 0) (b.getLsbD 1)
        else if c.grantPending &&& bit = 0 then s1
        else (s1.upd (fun c => { c.wr d g with grantPending := c.grantPending &&& ~~~bit })).setResid (b.getLsbD 0) (b.getLsbD 1)
      .next (({ s2 with ctx := s.ctx, cur := s.cur } : State).syncSection k.ctx k.core 0)
    | _, _ => .next s

/-! ## Vault segments (R212, R213) -/

/-- Whether any logical core of a context is served now and has anything to do. -/
def State.ctxOnCores (s : State) (ctx : Nat) : Bool :=
  (List.range 256).any (fun n => s.nearCtx n == some ctx && s.busyCore ctx n)

/-- Whether a served logical core of a context may access a segment of it: it holds a vault handle that names the segment, in
a register or captured (R97, R213). -/
def State.reaches (s : State) (g : Seg) (n : Nat) : Bool :=
  let c := s.coreAt g.ctx n
  let names := fun (h : Handle) =>
    let d := h.base.toNat / 65536
    h.valid && h.vault && desQuad (quadOf n) d == g.quad && decide (desFirst d ≤ g.cseg)
      && decide (g.cseg < desFirst d + desCount d)
  let caps := [c.qv, c.qm, c.qc].flatMap (fun q => match q.act with | some a => a.caps | none => [])
    ++ c.copies.flatMap (fun x => [x.src, x.dst, x.idx])
  c.h.any (fun x => names x.2) || (c.lq ++ c.sq).any (fun x => names x.handle) || caps.any (fun x => names x.hb)

/-- Contexts that wait for a physical segment that only the place of segment `g` can give: for a launch, or for a segment to
be restored; FREE segments are taken first (R213). Of the general segments of a vault each stands for any other; a segment
of the B region has a place of its own (R238). -/
def State.claimants (s : State) (g : Seg) : List Nat :=
  let free := ((List.range 448).filter (fun k => s.segFree (512 * s.physQuad g.quad + k))).length
  let near := fun (q : Nat) => s.physQuad q == s.physQuad g.quad
  let launch := fun (x : Launch) => x.read && !x.admitted && !x.retired && !x.bad && x.quads.any (fun q => near q &&
    (if g.cseg < 448 then decide (free + s.segCount x.ctx q < orVseg x.oprec)
     else (pageSegments (orBpg x.oprec)).contains g.cseg && (s.seg x.ctx q g.cseg).isNone))
  ((s.launches.filter launch).map (fun x => x.ctx))
    ++ (s.segs.filter (fun r => r.st == .restoring && near r.quad
      && (if g.cseg < 448 then decide (r.cseg < 448) && free == 0 else r.cseg == g.cseg))).map (fun r => r.ctx)

/-- Whether a segment may be saved now: something must have its place, and no running logical core of its context may access
it (R213); for the context itself, whose logical quads share a vault (R252), no served core does. -/
def State.mayEvict (s : State) (g : Seg) : Bool :=
  (s.claimants g).any (fun c =>
    if c = g.ctx then (List.range 256).all (fun n => !s.served g.ctx n || !s.reaches g n) else !s.ctxOnCores g.ctx)

/-- The words of every row that holds one of these words (R240). -/
def wholeRows (ws : List Nat) : List Nat :=
  (ws.foldl (fun l w => insertNat l (w / 8)) []).flatMap (fun r => (List.range 8).map (fun i => 8 * r + i))

/-- The bytes of a physical segment, by offset, and the words that its restore poisons: the bitmap has one bit a row. -/
def State.takeSegment (s : State) (pseg : Nat) : SMap Byte × List Nat :=
  ((s.vault.filter (fun c => c.1 / 65536 == pseg)).map (fun c => (c.1 % 65536, c.2)),
   wholeRows ((s.vaultPoison.filter (fun w => w / 4096 == pseg)).map (fun w => w % 4096)))

/-- Every row of a physical segment is read: single-bit errors are corrected and counted (R240). -/
def State.correctSegment (s : State) (pseg : Nat) : State :=
  (s.flips.filter (fun r => r / 512 == pseg)).foldl (fun (t : State) r => t.correct { vault := true, addr := 128 * r }) s

/-- The segment's save has ended: its data are in the image, the physical segment is free. -/
def State.saveSegment (s : State) (k : Nat) (g : Seg) : State :=
  let (d, p) := s.takeSegment g.pseg
  let s := s.correctSegment g.pseg
  { s with segs := s.segs.set k { g with st := .saved, pseg := 0, data := d, poison := p },
           vault := s.vault.filter (fun c => c.1 / 65536 != g.pseg),
           vaultPoison := s.vaultPoison.filter (fun w => w / 4096 != g.pseg) }

/-- SEGMENT_SAVE: entry `k` of the owner tables is claimed: it is SAVING first, then SAVED. -/
def execSegmentSave (k : Nat) (s : State) : Result :=
  match s.segs[k]? with
  | none => .next s
  | some g =>
    match g.st with
    | .owned =>
      if s.mayEvict g then .next { s with segs := s.segs.set k { g with st := .saving } } else .next s
    | .saving => .next (s.saveSegment k g)
    | _ => .next s

/-- Puts a saved segment's data into a free physical segment. -/
def State.restoreSegment (s : State) (k pseg : Nat) (g : Seg) : State :=
  { s with segs := s.segs.set k { g with st := .owned, pseg := pseg, data := [], poison := [] },
           vault := g.data.foldl (fun m c => SMap.set 0 m (pseg * 65536 + c.1) c.2) (eraseRange s.vault (pseg * 65536) 65536),
           vaultPoison := (s.vaultPoison.filter (fun w => w / 4096 != pseg)) ++ g.poison.map (fun w => pseg * 4096 + w) }

/-- Whether a physical segment may hold a context segment: free, in the vault that serves its quad, and of its kind. -/
def State.segmentFits (s : State) (g : Seg) (pseg : Nat) : Bool :=
  s.segFree pseg && pseg / 512 == s.physQuad g.quad && (if g.cseg < 448 then pseg % 512 < 448 else pseg % 512 == g.cseg)

/-- SEGMENT_RESTORE: entry `k` of the owner tables, which its context has accessed, is read back into physical segment
`pseg`. -/
def execSegmentRestore (k pseg : Nat) (s : State) : Result :=
  match s.segs[k]? with
  | none => .next s
  | some g =>
    if g.st = .restoring ∧ s.segmentFits g pseg = true then .next (s.restoreSegment k pseg g) else .next s

end Sys2Proof.Machine
end

