-- ==== Sys2Proof/Machine/Translate.lean ====
section
/-! DEFINITION. Upkeep of translation and memory: walks and sweeps (R317), shootdowns (R319), HARVEST (R320), page replies
(R323), the scrubber (R241), double errors (R240), channel retirement (R284). -/

namespace Sys2Proof.Machine

/-! ## Walks and sweeps (R317) -/

/-- TABLE_WALK: a unit that misses its cache has walked for a page. -/
def execTableWalk (unit ctx : Nat) (va : Word) (wr : Bool) (s : State) : Result :=
  match s.whereIs va.toNat with
  | .here a =>
    if 8 < unit ∨ (s.cached unit ctx (a / 65536) wr).isSome then .next s
    else
      let (s1, x) := s.walkFill unit ctx a wr
      .next (s1.logMalformed ctx 0xFF x.bad)
  | _ => .next s

/-- The entries of one stage-2 table: the physical addresses of its leaves; `level` counts down the levels to go. -/
def State.leaves2 (s : State) : Nat → Nat → Nat → List Nat
  | 0, _, _ => []
  | fuel + 1, level, table =>
    (List.range (if level = 1 then 1024 else 2048)).flatMap (fun i =>
      let pa := table + 8 * i
      let e := s.word64 pa
      if !pteV e || pteMalformed level e then []
      else if pteLeaf e then [pa]
      else State.leaves2 s fuel (level + 1) (pteAddr e))

/-- The leaves of one stage-1 table, whose address is an IPA. -/
def State.leaves1 (s : State) (r : Nat) : Nat → Nat → Nat → List Nat
  | 0, _, _ => []
  | fuel + 1, level, table =>
    (List.range (if level = 1 then 512 else 2048)).flatMap (fun i =>
      match stage2 s r (table + 8 * i) with
      | .ok pa _ _ =>
        let e := s.word64 pa
        if !pteV e || pteMalformed level e then []
        else if pteLeaf e then [pa]
        else State.leaves1 s r fuel (level + 1) (pteAddr e)
      | _ => [])

/-- Halves RH and WH of a leaf in one read-modify-write. -/
def halveHeat (s : State) (pa : Nat) : State :=
  let e := s.word64 pa
  s.putPhys pa 8 (e - bits e 11 8 * 256 + bits e 9 8 / 2 * 256 + bits e 11 10 / 2 * 1024)

/-- SWEEP: the sweeper serves a context with HEAT = 1 once every SWEEP period. -/
def execSweep (ctx : Nat) (s : State) : Result :=
  let r := s.ctxRecord ctx
  let x := s.context ctx
  if recValid r && recHeat r && x.swept + 1000000 * s.setting 0x827 ≤ s.time then
    let l := (s.leaves1 r 3 1 (recS1Root r) ++ (if recS2En r then s.leaves2 3 1 (recS2Root r) else [])).eraseDups
    let s1 := l.foldl halveHeat s
    .next (s1.setContext ctx { s1.context ctx with swept := s.time })
  else .next s

/-! ## Shootdowns (R319) -/

/-- A range of pages of a context: local page numbers `lo` up to `hi`. -/
structure PageRange where
  lo : Nat
  hi : Nat
  deriving DecidableEq, Repr, Inhabited

/-- Whether a virtual address lies in a range. -/
def State.inPages (s : State) (r : PageRange) (va : Nat) : Bool :=
  match s.whereIs va with
  | .here a => r.lo ≤ a / 65536 && a / 65536 < r.hi
  | _ => false

/-- What a shootdown does to one handle. -/
def State.shootHandle (s : State) (r : PageRange) (rearm : Bool) (h : Handle) : Handle :=
  if !h.valid || h.vault || !s.inPages r h.base.toNat then h
  else if rearm then { h with rearm := h.rearm || h.w }
  else { h with rev := true }

/-- Every copy command of a context whose declared destination meets the range marks it dirty again, one that still waits
for its acceptance too. -/
def State.redirty (s : State) (ctx : Nat) (r : PageRange) : State :=
  s.cores.foldl (fun (t : State) (x : Nat × Core) =>
    if x.1 / 512 ≠ ctx then t
    else
      let u : State := { t with ctx := ctx, cur := x.1 % 512 }
      let waits := match x.2.qc.act with | some a => a.cmd.toList | none => []
      let v := (x.2.copies ++ waits).foldl (fun (v : State) k =>
        match v.declared k with
        | some (lo, hi) =>
          let a := bits lo 46 0 / 65536
          let b := bits hi 46 0 / 65536
          if a < r.hi ∧ r.lo ≤ b then v.markDirty k else v
        | none => v) u
      { v with ctx := t.ctx, cur := t.cur }) s

/-- A shootdown of a range of pages of a context. -/
def State.shootdown (s : State) (ctx : Nat) (r : PageRange) (rearm : Bool) : State :=
  let hs := fun (c : Core) => { c.mapHandles (s.shootHandle r rearm) with lq := c.lq }
  let s1 : State := { s with
    cores := s.cores.map (fun (x : Nat × Core) => if x.1 / 512 = ctx then (x.1, hs x.2) else x),
    tlb := s.tlb.filter (fun t => !(t.ctx == ctx && r.lo ≤ t.page && t.page < r.hi)) }
  s1.redirty ctx r

/-! ## Host commands on ranges (R320, R329) -/

/-- The command at work. -/
def State.cmdOp (s : State) : Nat := bits s.host.cmd.toNat 7 0
/-- The context that it names. -/
def State.cmdCtx (s : State) : Nat := bits s.host.cmd.toNat 31 16

/-- Whether a translation record can be used (R314). -/
def recordOk (r : Nat) : Bool :=
  recValid r && bits r 191 72 == 0 && bits r 63 48 == 0 && bits r 31 4 == 0 && recS1Root r % 8192 == 0 && recS2Root r % 8192 == 0
    && recPrq r % 4096 == 0 && recPrp r % 4096 == 0 && recElog r % 4096 == 0 && 6 ≤ recElogSz r && recElogSz r ≤ 16

/-- Whether the command names a context that it can act on. -/
def State.cmdCtxOk (s : State) : Bool := s.cmdCtx < 4096 && recordOk (s.ctxRecord s.cmdCtx)

/-- Runs the command at work when its code is `op` and it is not done. -/
def State.command (s : State) (op : Nat) (f : Nat → State → State) : Result :=
  if s.host.busy && s.host.result.isNone && s.cmdOp == op && s.cmdCtxOk then .next (f s.cmdCtx s) else .next s

/-- The command has done its work with a status. -/
def State.commandDone (s : State) (status : Nat) : State := { s with host := { s.host with result := some status } }

/-- The pages of a command. -/
def rangeOf (base : Word) (n : Nat) : PageRange :=
  let p := bits base.toNat 46 0 / 65536
  { lo := p, hi := p + n }

/-- Whether loads that were issued through old translations of a range are still to perform, on cores that run (R319). -/
def State.oldLoads (s : State) (ctx : Nat) (r : PageRange) : Bool :=
  s.cores.any (fun x => x.1 / 512 == ctx && s.served ctx (x.1 % 512) && x.2.lq.any (fun e =>
    e.handle.valid && !e.handle.vault && e.handle.st == .resident && s.inPages r e.handle.base.toNat))

/-- The last turns of a command with a shootdown: turn `n` makes it, and the command is done once no access that used an old
translation is left (R319). -/
def State.shootOut (s : State) (ctx n : Nat) (r : PageRange) (rearm : Bool) : State :=
  if s.host.at_ ≤ n then
    (let u := s.shootdown ctx r rearm; { u with host := { u.host with at_ := n + 1 } })
  else if s.oldLoads ctx r then s
  else
    let u := s.commandDone 0
    { u with host := { u.host with at_ := 0 } }

/-- SHOOT. -/
def execShoot (s : State) : Result :=
  s.command 1 (fun ctx t => t.shootOut ctx 0 (rangeOf t.host.arg0 t.host.arg1.toNat) (t.host.arg2.getLsbD 0))

/-- The leaf of stage 2 that maps an IPA, or of stage 1 that maps a VA. -/
def State.leafOf (s : State) (ctx : Nat) (stage1 : Bool) (a : Nat) : Option Nat :=
  let r := s.ctxRecord ctx
  match (if stage1 then walk1 s r a 3 1 (recS1Root r) else if recS2En r then walk2 s a 3 1 (recS2Root r) else .absent) with
  | .ok _ leaf _ => leaf
  | _ => none

/-- Clears D of the leaf of page `i` of the range, and sets bit `i` of the bitmap when it held 1. -/
def State.harvestPage (s : State) (ctx i : Nat) : State :=
  let stage1 := bit s.host.arg1.toNat 32
  let a := bits s.host.arg0.toNat (if stage1 then 46 else 47) 0 + 65536 * i
  match s.leafOf ctx stage1 a with
  | none => s
  | some pa =>
    let e := s.word64 pa
    if pteD e then
      let s1 := s.putPhys pa 8 (e - 64)
      let b := s.host.arg2.toNat + i / 8
      s1.putPhys b 1 (Nat.lor (readNat s1.mem b 1) (2 ^ (i % 8)))
    else s

/-- HARVEST: one leaf a turn, in ascending order; then the REARM shootdown, of every page when the range is of
intermediate addresses. -/
def execHarvest (s : State) : Result :=
  s.command 2 (fun ctx t =>
    let n := bits t.host.arg1.toNat 31 0
    let i := t.host.at_
    if i < n then (let u := t.harvestPage ctx i; { u with host := { u.host with at_ := i + 1 } })
    else t.shootOut ctx n (if bit t.host.arg1.toNat 32 then rangeOf t.host.arg0 n else { lo := 0, hi := 2 ^ 31 }) true)

/-! ## Page replies (R323) -/

/-- PAGE_REPLY: the front end takes the reply in slot `slot` of a context's reply ring. -/
def execPageReply (ctx slot : Nat) (s : State) : Result :=
  let x := s.context ctx
  match x.reqs.find? (fun q => q.seq % 1024 == slot) with
  | none => .next s
  | some q =>
    let v := readNat s.mem (recPrp (s.ctxRecord ctx) + 16 * slot) 16
    if (if bit v 0 then 1 else 0) ≠ q.seq / 1024 % 2 then .next s
    else if bits v 127 96 ≠ q.seq % 2 ^ 32 then
      .next (s.logRecord ctx 0x08 0 (bits v 127 96 * 2 ^ 64) 0xFF 3 0 0 [])
    else
      let s1 := s.setContext ctx { x with reqs := x.reqs.filter (fun p => p.seq != q.seq) }
      match (s1.coreAt ctx q.core).flagInc q.flag 1 with
      | some c => .next ((s1.setCoreAt ctx q.core c).syncSection ctx q.core 6)
      | none => .next (s1.logRecord ctx 0x08 1 (q.seq % 2 ^ 32 * 2 ^ 64 + q.flag * 2 ^ 32) q.core 3 0 0 [])

/-! ## Errors and upkeep of storage (R240, R241, R284) -/

/-- The rows of every vault, the patrol scrubber's round. -/
def scrubRows : Nat := 64 * 262144

/-- Whether the scrubber's next row is due: it reads every row once per SCRUB period, evenly spaced (log entry 91). -/
def State.scrubDue (s : State) : Bool :=
  s.scrubAt + 1000000 * s.setting 0x826 * s.scrubbed / scrubRows ≤ s.time

/-- SCRUB: the scrubber reads row `row` of vault `pq` and writes back what it corrects: no value, no poison and no place in
an order changes. The row next in the ascending order advances the round. -/
def execScrub (pq row : Nat) (s : State) : Result :=
  if 64 ≤ pq ∨ 262144 ≤ row then .next s
  else
    let k := 262144 * pq + row
    let t := s.correct { vault := true, addr := 128 * k }
    .next (if k ≠ t.scrubbed then t
      else if k + 1 = scrubRows then { t with scrubbed := 0, scrubAt := t.scrubAt + 1000000 * t.setting 0x826 }
      else { t with scrubbed := k + 1 })

/-- DOUBLE_ERROR: a stored 128-bit word is poisoned. -/
def execDoubleError (vault : Bool) (word : Nat) (s : State) : Result :=
  if vault then .next { s with vaultPoison := insertNat s.vaultPoison word }
  else .next { s with memPoison := insertNat s.memPoison word }

end Sys2Proof.Machine
end

