-- ==== Sys2Proof/Machine/Bars.lean ====
section
/-! DEFINITION. The host interface (R327 to R330): BAR0 writes, the command interface, enabling of queues and contexts (R285,
R314), the journal-clear bit (R339), BAR2 windows (R328). -/

namespace Sys2Proof.Machine

/-! ## BAR0 (R327) -/

/-- Replaces `n` bytes at a byte offset of a number. -/
def putField (old off n v : Nat) : Nat :=
  old - old / 2 ^ (8 * off) % 2 ^ (8 * n) * 2 ^ (8 * off) + v % 2 ^ (8 * n) * 2 ^ (8 * off)

/-- The write of a window's word: ABS of word 3 is cleared by a 1 (R328). -/
def windowWord (j old new : Nat) : Nat :=
  if j = 3 then bits new 16 0 + (if bit old 17 && !bit new 17 then 2 ^ 17 else 0) else new

/-- A write of command word 0: ignored while BUSY; it starts a command (R329). -/
def State.startCommand (s : State) (v : Nat) : State :=
  if s.host.busy then s
  else
    let cmd := bits v 7 0 + bits v 31 16 * 2 ^ 16 + bits v 63 48 * 2 ^ 48
    { s with host := { s.host with cmd := BitVec.ofNat 64 cmd, busy := true, result := none, at_ := 0 } }

/-- A debug register: the comparators of a core lie in banks S and F of the core that it names (R338); the offsets are the
model's own (log entry 13). -/
def State.writeDebug (s : State) (off v : Nat) : State :=
  let s1 : State := { s with host := { s.host with dbg := SMap.set 0 s.host.dbg off (BitVec.ofNat 64 v) } }
  if off < 0x100000 ∨ 0x108000 ≤ off then s1
  else
    let n := (off - 0x100000) / 128
    let k := off % 128 / 8
    let ctx := s.dbg 0x20
    let c := s.coreAt ctx n
    let opt := if v = 0 then none else some (v - 1)
    let d := if k < 4 then { c with cmp := SMap.set 0 c.cmp (k + 1) (BitVec.ofNat 64 v) }
      else if k < 7 then c.setQueue (engOf (k - 4)) { c.queue (engOf (k - 4)) with bpSeq := opt }
      else if k < 10 then c.setQueue (engOf (k - 7)) { c.queue (engOf (k - 7)) with bpFlag := opt }
      else c
    s1.setCoreAt ctx n d

/-- A write of `n` bytes inside one 64-bit register of BAR0; reserved and read-only offsets ignore it. -/
def State.bar0Put (s : State) (off n v : Nat) : State :=
  let h := s.host
  let b := off % 8
  let word := fun (w : Word) => BitVec.ofNat 64 (putField w.toNat b n v)
  if 0x100000 ≤ off ∧ off < 0x140000 then
    let k := (off - 0x100000) / 64
    let r := putField (SMap.get 0 h.ctxTable k).toNat (off % 64) n v
    { s with host := { h with ctxTable := SMap.set 0 h.ctxTable k (BitVec.ofNat 512 r) } }
  else if 0x200000 ≤ off ∧ off < 0x210000 then
    let k := (off - 0x200000) / 64
    let r := putField (SMap.get 0 h.queueTable k).toNat (off % 64) n v
    { s with host := { h with queueTable := SMap.set 0 h.queueTable k (BitVec.ofNat 512 r) } }
  else if 0x300000 ≤ off ∧ off < 0x300020 then
    (match (off - 0x300000) / 8 with
     | 0 => s.startCommand (putField 0 b n v)
     | 1 => { s with host := { h with arg0 := word h.arg0 } }
     | 2 => { s with host := { h with arg1 := word h.arg1 } }
     | _ => { s with host := { h with arg2 := word h.arg2 } })
  else if 0x500000 ≤ off ∧ off < 0x500200 then
    let k := (off - 0x500000) / 8
    let old := (SMap.get 0 h.windows k).toNat
    let base := if k % 4 = 3 then old - (if bit old 17 then 2 ^ 17 else 0) else old
    let new := windowWord (k % 4) old (putField base b n v)
    { s with host := { h with windows := SMap.set 0 h.windows k (BitVec.ofNat 64 new) } }
  else if 0x600000 ≤ off ∧ off < 0x608000 then
    let k := (off - 0x600000) / 16
    let r := putField (SMap.get 0 h.msix k).toNat (off % 16) n v
    let s1 : State := { s with host := { h with msix := SMap.set 0 h.msix k (BitVec.ofNat 128 r) } }
    -- an unmasked vector whose bit pends is sent
    if h.pba.contains k ∧ bit r 96 = false then
      ({ s1 with host := { s1.host with pba := removeNat h.pba k } }).raise k
    else s1
  else if 0x700000 ≤ off ∧ off < 0x700008 then { s with host := { h with evBase := word h.evBase } }
  else if off = 0x700008 then { s with host := { h with evLog := max 8 (min 16 (v % 256)) } }
  else if 0x2000000 ≤ off ∧ off < 0x4000000 then
    let o := off - 0x2000000 - b
    s.writeDebug o (putField (s.dbg o) b n v)
  else s

/-- BAR0_WRITE: up to 8 bytes, inside an aligned 64-bit register; other sizes go register by register. -/
def execBar0Write (off bytes data : Nat) (s : State) : Result :=
  if bytes = 0 then .next s
  else
    let first := min bytes (8 - off % 8)
    let s1 := s.bar0Put off first data
    let rest := (List.range ((bytes - first + 7) / 8)).foldl (fun (t : State) i =>
      let o := first + 8 * i
      t.bar0Put (off + o) (min 8 (bytes - o)) (data / 2 ^ (8 * o))) s1
    .next rest

/-- COMMAND_COMPLETION: BUSY clears, STATUS and VEC are given (R329, R330); an unknown command, or one that names a context
without a usable record, completes with BADCMD. -/
def execCommandCompletion (s : State) : Result :=
  let h := s.host
  let status := match h.result with
    | some st => some st
    | none => if s.cmdOp = 0 ∨ 6 < s.cmdOp ∨ s.cmdCtxOk = false then some 1 else none
  match h.busy, status with
  | true, some st =>
    let vec := bits h.cmd.toNat 63 48
    let s1 : State := { s with host := { h with cmd := h.cmd ||| BitVec.ofNat 64 (st * 2 ^ 40), busy := false, result := none } }
    .next (s1.event 1 s.cmdCtx (Config.eventArg 1).toNat vec)
  | _, _ => .next s

/-! ## Enabling (R285, R314) -/

/-- QUEUE_ENABLE: the descriptor as it stands takes effect; one that breaks a rule is refused, and no packet is read. -/
def execQueueEnable (q : Nat) (s : State) : Result :=
  let d := s.queueDesc q
  let x := s.pqueue q
  if 1024 ≤ q then .next s
  else if !qdEn d then .next (s.setPqueue q { x with enabled := false, active := false, refused := false })
  else if x.enabled then .next s
  else if !(queueDescOk d && qdCtx d < 4096) then .next (s.setPqueue q { refused := true })
  else
    let actives := (s.pqueues.filter (fun y => y.2.active)).length
    .next (s.setPqueue q { enabled := true, active := decide (actives < 64), foundAt := s.time })

/-- CONTEXT_RECORD_ENABLE: a translation record as it stands takes effect. -/
def execContextRecordEnable (ctx : Nat) (s : State) : Result :=
  let x := s.context ctx
  if 4096 ≤ ctx then .next s
  else if recordOk (s.ctxRecord ctx) then
    .next (if x.enabled then s else s.setContext ctx { x with enabled := true, running := true, sliceAt := s.time })
  else .next (s.setContext ctx { x with enabled := false, running := false })

/-- JOURNAL_CLEAR. -/
def execJournalClear (s : State) : Result := .next { s with journal := [] }

/-! ## BAR2 (R286, R328) -/

/-- A word of a window. -/
def State.window (s : State) (w j : Nat) : Nat := (SMap.get 0 s.host.windows (4 * w + j)).toNat

/-- The window that covers an offset. -/
def State.windowOf (s : State) (off : Nat) : Option Nat :=
  (List.range 16).find? (fun w => bit (s.window w 3) 16 && s.window w 0 ≤ off && off < s.window w 0 + s.window w 1)

/-- Sets the sticky ABS of a window; an address on another package sets it too (DESIGN CHOICE, log entry 93). -/
def State.windowAbs (s : State) (w : Nat) : State :=
  { s with host := { s.host with windows := SMap.set 0 s.host.windows (4 * w + 3) (BitVec.ofNat 64 (s.window w 3) ||| 0x20000#64) } }

/-- Whether some row of a range does not answer the IOMMU. -/
def State.hostLost (s : State) (ctx va n : Nat) (wr : Bool) : Bool :=
  (List.range ((va % 128 + n + 127) / 128)).any (fun i =>
    match (s.resolve ctx 256 (.va (rowBase va + 128 * i)) wr).2 with
    | .spot _ => false
    | _ => true)

/-- Reads bytes of a context's memory for the host: rows that do not answer read as zeros. -/
def State.hostRows (s : State) (ctx : Nat) : Nat → Nat → State × Nat
  | _, 0 => (s, 0)
  | va, k + 1 =>
    let (s1, r) := s.feRow ctx va
    let (s2, v) := State.hostRows s1 ctx (va + 128) k
    (s2, r.row.toNat + 2 ^ 1024 * v)

/-- What a 64-bit PCI Express atomic writes; none: nothing. -/
def pcieAtomic (op : HostOp) (old : Nat) : Option Nat :=
  match op with
  | .fetchAdd i => some ((old + i.toNat) % 2 ^ 64)
  | .swap v => some v.toNat
  | .cas e v => if old = e.toNat then some v.toNat else none
  | _ => none

/-- The answer to a host read. -/
def State.answerHost (s : State) (v : Nat) : State := { s with host := { s.host with readData := v } }

/-- HOST_BAR2_ACCESS: an access at an offset of BAR2, through the window that covers it. -/
def execHostBar2Access (off : Nat) (op : HostOp) (s : State) : Result :=
  match s.windowOf off with
  | none =>
    .next (match op with | .write .. => s | _ => s.answerHost 0)
  | some w =>
    let ctx := bits (s.window w 3) 15 0
    let va := s.window w 2 + (off - s.window w 0)
    let mark := fun (t : State) (lost : Bool) => if lost then t.windowAbs w else t
    match op with
    | .read n =>
      let (s1, v) := s.hostRows ctx (rowBase va) ((va % 128 + n + 127) / 128)
      .next (mark (s1.answerHost (v / 2 ^ (8 * (va % 128)) % 2 ^ (8 * n))) (s.hostLost ctx va n false))
    | .write n d =>
      (match s.whereIs va with
       | .package _ => .next (s.windowAbs w)
       | _ => .next (mark (s.feWrite ctx va n d) (s.hostLost ctx va n true)))
    | _ =>
      if s.hostLost ctx va 8 true then .next (mark (s.answerHost 0) true)
      else match s.feRead ctx va 8 with
      | (s1, .error _) => .next (s1.answerHost 0)
      | (s1, .ok v) =>
        (match pcieAtomic op v with
         | some x => .next ((s1.feWrite ctx va 8 x).answerHost v)
         | none => .next (s1.answerHost v))

end Sys2Proof.Machine
end

