-- ==== Sys2Proof/Machine/Burnish.lean ====
section
/-! DEFINITION. The Burnisher (R260 to R263): reconstruction of skipped tiles, and the error metric of shadow samples. -/

namespace Sys2Proof.Machine

/-! ## Tiles and elements (R260) -/

/-- The logical core that the placement gives an index to. -/
def State.coreOfIndex (s : State) (x : Launch) (l : Nat) : Nat :=
  match orPlace x.oprec with
  | 0 => orC0 x.oprec + l / blockSize x
  | 1 => orC0 x.oprec + l % orM x.oprec
  | _ => orC0 x.oprec + (match (s.feRead x.ctx (orEtab x.oprec + l) 1).2 with | .ok v => v | .error _ => 0)

/-- The index of a tile. -/
def Launch.indexOf (x : Launch) (px py pz : Nat) : Nat := px + orGx x.oprec * (py + orGy x.oprec * pz)

/-- The descriptor of an output with the handle of a logical core (R260). -/
def State.outCap (s : State) (x : Launch) (img : BitVec 512) (n : Nat) : Cap :=
  { img := img, hb := (s.coreAt x.ctx n).handle (tensorOf img).hb }

/-- The logical linear index of offset (u, v) of a tile, when it lies inside the tensor. -/
def Launch.element (x : Launch) (t : Tensor) (px py pz u v i3 : Nat) : Option Nat :=
  let a := px * orTw x.oprec + u
  let b := py * orTh x.oprec + v
  if a < t.d0 ∧ b < t.d1 ∧ pz < t.d2 ∧ i3 < t.d3 then some (a + t.d0 * (b + t.d1 * (pz + t.d2 * i3))) else none

/-- How an element of an output is read: its value, rounded to an F32 code, its bits, and the rows read. -/
structure Seen where
  code : Nat
  raw : Nat
  rows : List Loc := []
  deriving DecidableEq, Repr, Inhabited

/-- The row of a location for a Burnisher of a launch: zeros for an uncorrectable one; none when it cannot be read. -/
def State.burnRow (s : State) (x : Launch) (n : Nat) (l : Loc) : Option Row :=
  match (s.resolve x.ctx n l false).2, l with
  | .spot p, _ => some (s.rowAt p)
  | .remote _, .va a =>
    (match x.farRows.find? (fun r => r.1 == rowBase a) with
     | some (_, .done, row) => some row
     | some (_, .poisoned, _) => some 0
     | _ => none)
  | _, _ => none

/-- The bits at some parts and the rows that hold them, without any effect; none when one of the rows cannot be read. -/
def State.peekBits (s : State) (x : Launch) (n : Nat) (ps : List Bits) : Option (Nat × List Loc) :=
  let rows := (rowsOf ps).map (fun l => (l, s.burnRow x n l))
  if rows.all (fun r => r.2.isSome) then some (gatherBits (rows.map (fun r => (r.1, r.2.getD 0))) ps, rowsOf ps) else none

/-- Reads an element of an output for the Burnisher (R260, R261). -/
def State.burnRead (s : State) (x : Launch) (img : BitVec 512) (n q : Nat) : Option Seen :=
  let cap := s.outCap x img n
  let t := tensorOf img
  match s.locate x.ctx (quadOf n) cap q false with
  | .at_ ps _ =>
    (match s.peekBits x n ps with
     | none => none
     | some (raw, rows) =>
       if t.fmt.isBx then
         match (s.scaleParts x.ctx (quadOf n) cap q).bind (s.peekBits x n) with
         | none => none
         | some (e, more) =>
           some { code := Fmt.roundTo .f32 rne (blockElement t.fmt e raw), raw := raw, rows := rows ++ more }
       else some { code := Fmt.roundTo .f32 rne (t.fmt.value raw), raw := raw, rows := rows })
  | _ => none

/-! ## Neighbours (R261, R262) -/

/-- The element that a kept tile provides at an offset. -/
def State.provides (s : State) (x : Launch) (img : BitVec 512) (px py pz u v i3 : Nat) : Option Seen :=
  let l := x.indexOf px py pz
  if !x.kept? l then none
  else match x.element (tensorOf img) px py pz u v i3 with
  | none => none
  | some q => s.burnRead x img (s.coreOfIndex x l) q

/-- The nearest of some positions that provides an element. -/
def firstSeen (f : Nat → Option Seen) : List Nat → Option (Nat × Seen)
  | [] => none
  | k :: ks => match f k with
    | some e => some (k, e)
    | none => firstSeen f ks

/-- The nearest below and above a position along one line of `n` tiles. -/
def bothSides (f : Nat → Option Seen) (at_ n : Nat) : Option (Nat × Seen) × Option (Nat × Seen) :=
  (firstSeen f (List.range at_).reverse, firstSeen f ((List.range (n - at_ - 1)).map (fun i => at_ + 1 + i)))

/-- One line of ReconF: the F32 code, and the rows met. -/
def reconLine (at_ : Nat) : Option (Nat × Seen) × Option (Nat × Seen) → Option (Nat × List Loc)
  | (some (l, a), some (r, b)) =>
    let va := Fmt.value .f32 a.code
    let vb := Fmt.value .f32 b.code
    let d := exactSum .f32 rne [vb, va.neg]
    let w := Fmt.roundTo .f32 rne (Val.ofNum (Num.div { m := (at_ - l : Nat) } { m := (r - l : Nat) }))
    some (exactSum .f32 rne [(Fmt.value .f32 w).mul (Fmt.value .f32 d), va], a.rows ++ b.rows)
  | (some (_, a), none) => some (a.code, a.rows)
  | (none, some (_, b)) => some (b.code, b.rows)
  | (none, none) => none

/-- What an element is reconstructed to: its F32 code, or for an integer its bits; whether a kept tile was found, and the rows read. -/
structure Recon where
  v : Nat := 0
  found : Bool := false
  rows : List Loc := []
  deriving DecidableEq, Repr, Inhabited

/-- ReconF of R261. -/
def State.reconF (s : State) (x : Launch) (img : BitVec 512) (px py pz u v i3 : Nat) : Recon :=
  let row := bothSides (fun k => s.provides x img k py pz u v i3) px (orGx x.oprec)
  let col := bothSides (fun k => s.provides x img px k pz u v i3) py (orGy x.oprec)
  match reconLine px row with
  | some (c, b) => { v := c, found := true, rows := b }
  | none =>
    match reconLine py col with
    | some (c, b) => { v := c, found := true, rows := b }
    | none => {}

/-- The nearest kept tile of R262: distance first, then the lower x, then the lower y. -/
def State.reconI (s : State) (x : Launch) (img : BitVec 512) (px py pz u v i3 : Nat) : Recon :=
  let row := bothSides (fun k => s.provides x img k py pz u v i3) px (orGx x.oprec)
  let col := bothSides (fun k => s.provides x img px k pz u v i3) py (orGy x.oprec)
  let near := row.1.toList.map (fun a => (px - a.1, a.1, py, a.2)) ++ row.2.toList.map (fun a => (a.1 - px, a.1, py, a.2))
    ++ col.1.toList.map (fun a => (py - a.1, px, a.1, a.2)) ++ col.2.toList.map (fun a => (a.1 - py, px, a.1, a.2))
  let less := fun (a b : Nat × Nat × Nat × Seen) =>
    a.1 < b.1 || (a.1 == b.1 && (a.2.1 < b.2.1 || (a.2.1 == b.2.1 && a.2.2.1 < b.2.2.1)))
  match near with
  | [] => {}
  | y :: ys =>
    let best := ys.foldl (fun b z => if less z b then z else b) y
    { v := best.2.2.2.raw, found := true, rows := best.2.2.2.rows }

/-- The reconstruction of the elements (u0 to u0 + k − 1, v) of a tile as the output's format holds them: a list of
(logical index, element bits), the exponent of a BX block, whether every element had a neighbour, the rows read. -/
def State.reconRun (s : State) (x : Launch) (img : BitVec 512) (px py pz u0 v i3 k : Nat) :
    List (Nat × Nat) × Nat × Bool × List Loc :=
  let t := tensorOf img
  let us := ((List.range k).map (fun i => u0 + i)).filter (fun u => (x.element t px py pz u v i3).isSome)
  let rs := us.map (fun u => if t.fmt.isInt && !t.fmt.isBx then s.reconI x img px py pz u v i3
                             else s.reconF x img px py pz u v i3)
  let qs := us.map (fun u => (x.element t px py pz u v i3).getD 0)
  let found := rs.all (fun r => r.found)
  let rows := rs.flatMap (fun r => r.rows)
  if t.fmt.isBx then
    let (e, ms) := blockQuant t.fmt.bits (rs.map (fun _ => rne)) (rs.map (fun r => Fmt.value .f32 r.v))
    (qs.zip (ms.map (intCode t.fmt.bits)), e, found, rows)
  else if t.fmt.isInt then (qs.zip (rs.map (fun r => r.v)), 0, found, rows)
  else (qs.zip (rs.map (fun r => t.fmt.roundTo rne (Fmt.value .f32 r.v))), 0, found, rows)

/-! ## What a tile waits for (R212, R275, R347) -/

/-- Asks another package for a row that a tile needs. -/
def State.burnAsk (s : State) (l : Nat) (x : Launch) (i pkg a : Nat) : State :=
  if s.remotes.any (fun r => decide (r.kind = .burn l i) && rowBase r.va == rowBase a) then s
  else { ({ s with ctx := x.ctx } : State).sendRemote pkg (rowBase a) (.burn l i) .readRow with ctx := s.ctx }

/-- Whether an access of element q of an output can be made: its patch is converted, its segments are in the vault and
the rows of other packages are here; each is asked for otherwise. -/
def State.burnReady (s : State) (l : Nat) (x : Launch) (i : Nat) (img : BitVec 512) (n q : Nat) (wr : Bool) : State × Bool :=
  let cap := s.outCap x img n
  match s.locate x.ctx (quadOf n) cap q wr with
  | .wait => (s.demand x.ctx cap q, false)
  | .at_ ps _ =>
    let all := ps ++ (if (tensorOf img).fmt.isBx then (s.scaleParts x.ctx (quadOf n) cap q).getD [] else [])
    (rowsOf all).foldl (fun (t : State × Bool) r =>
      match (t.1.resolve x.ctx n r wr).2, r with
      | .wait, _ => (t.1.wantSeg x.ctx r, false)
      | .remote g, .va a => if x.farRows.any (fun f => f.1 == rowBase a) then t else (t.1.burnAsk l x i g a, false)
      | _, _ => t) (s, true)
  | _ => (s, true)

/-- The runs of a tile of one output: blocks of 32 along d0 for BX, single elements otherwise. -/
def Launch.runs (x : Launch) (t : Tensor) : List (Nat × Nat × Nat × Nat) :=
  let k := if t.fmt.isBx then 32 else 1
  (List.range t.d3).flatMap (fun i3 => (List.range (orTh x.oprec)).flatMap (fun v =>
    (List.range (orTw x.oprec / k)).map (fun j => (k * j, v, i3, k))))

/-- Whether every access of a tile can be made: its own elements, and those of the kept tiles of its row and column. -/
def State.tileReady (s : State) (l : Nat) (x : Launch) (outs : List (BitVec 512)) (i : Nat) (wr : Bool) : State × Bool :=
  let (px, py, pz) := x.coord i
  let near := ((List.range (orGx x.oprec)).map (fun k => (k, py)) ++ (List.range (orGy x.oprec)).map (fun k => (px, k))).filter
    (fun p => x.kept? (x.indexOf p.1 p.2 pz))
  outs.foldl (fun (a : State × Bool) img =>
    (x.runs (tensorOf img)).foldl (fun (a : State × Bool) r => (List.range r.2.2.2).foldl (fun (a : State × Bool) j =>
      (((px, py), wr) :: near.map (fun p => (p, false))).foldl (fun (a : State × Bool) p =>
        match x.element (tensorOf img) p.1.1 p.1.2 pz (r.1 + j) r.2.1 r.2.2.1 with
        | none => a
        | some q =>
          let (t, ok) := a.1.burnReady l x i img (a.1.coreOfIndex x (x.indexOf p.1.1 p.1.2 pz)) q p.2
          (t, a.2 && ok)) a) a) a) (s, true)

/-! ## Skipped tiles (R260) -/

/-- What the Burnisher gathers over a tile. -/
structure TileState where
  s : State
  unrec : Bool := false
  /-- the first element that could not be written -/
  lost : Option Loc := none
  /-- the rows read so far -/
  read : List Loc := []

/-- The effects of reading a row: an error corrected or logged (R240). -/
def State.burnSeen (s : State) (x : Launch) (n : Nat) (l : Loc) : State :=
  let log := fun (t : State) =>
    let u := (t.asFront x.ctx).logPoison {} l false
    ({ u with ctx := s.ctx, cur := s.cur } : State)
  match (s.resolve x.ctx n l false).2, l with
  | .spot p, _ => if s.poisoned p then log (s.correct p) else s.correct p
  | .remote _, .va a => if x.farRows.any (fun r => r.1 == rowBase a && r.2.1 == .poisoned) then log s else s
  | _, _ => s

/-- Rows that a tile's work has read, each read once. -/
def TileState.seen (w : TileState) (x : Launch) (n : Nat) (rows : List Loc) : TileState :=
  rows.foldl (fun (w : TileState) l =>
    if w.read.contains l then w else { w with s := w.s.burnSeen x n l, read := w.read ++ [l] }) w

/-- Writes the bits of an output that lie in one row; whether they could be written. -/
def State.burnPut (s : State) (l : Nat) (x : Launch) (i n : Nat) (ps : List Bits) (v : Nat) (row : Loc) : State × Bool :=
  let (d, bytes, ones) := scatterBits row ps v
  let t : State := { s with ctx := x.ctx, cur := n }
  let back := fun (u : State) => ({ u with ctx := s.ctx, cur := s.cur } : State)
  match t.writeRowBits row d bytes ones with
  | (u, .ok) => (back u, true)
  | (u, .remote g) =>
    (match row with
     | .va a =>
       let old := ((s.burnRow x n row).getD 0).toNat
       let new := Nat.lor d (Nat.land old (2 ^ 1024 - 1 - ones))
       (back (u.sendRemote g (rowBase a) (.burn l i) (.writeRow (BitVec.ofNat 1024 new) (BitVec.ofNat 128 bytes))), true)
     | .vault .. => (s, false))
  | _ => (s, false)

/-- Writes bits of an output: an element of which a row cannot be written is not written; its place, then. -/
def State.burnWrite (s : State) (l : Nat) (x : Launch) (i n : Nat) (ps : List Bits) (v : Nat) : State × Option Loc :=
  let bad := (rowsOf ps).find? (fun r => match (s.resolve x.ctx n r true).2 with
    | .spot _ => false
    | .remote _ => false
    | _ => true)
  match bad with
  | some r => (s, some r)
  | none => ((rowsOf ps).foldl (fun (t : State) r => (t.burnPut l x i n ps v r).1) s, none)

/-- Where an element that cannot be addressed would lie. -/
def State.lostAt (s : State) (x : Launch) (cap : Cap) (n q : Nat) : Loc :=
  let t := tensorOf cap.img
  let v := s.view x.ctx cap
  match v.back with
  | some (.va a) => .va (a + t.offBits v.tag q / 8)
  | some (.vault des off) => .vault (desQuad (quadOf n) des) (desFirst des * 512 + (off + t.offBits v.tag q / 8) / 128)
  | none => .va 0

/-- What was written, or where nothing could be. -/
def TileState.wrote (w : TileState) : State × Option Loc → TileState
  | (t, none) => { w with s := t }
  | (t, some r) => { w with s := t, unrec := true, lost := w.lost.orElse (fun _ => some r) }

/-- Writes one element of a skipped tile. -/
def TileState.put (w : TileState) (l : Nat) (x : Launch) (i : Nat) (img : BitVec 512) (n q v : Nat) : TileState :=
  let cap := w.s.outCap x img n
  match w.s.locate x.ctx (quadOf n) cap q true with
  | .at_ ps _ => w.wrote (w.s.burnWrite l x i n ps v)
  | _ => w.wrote (w.s, some (w.s.lostAt x cap n q))

/-- Writes the exponent byte of a BX block. -/
def TileState.putScale (w : TileState) (l : Nat) (x : Launch) (i : Nat) (img : BitVec 512) (n q e : Nat) : TileState :=
  let cap := w.s.outCap x img n
  match w.s.scaleParts x.ctx (quadOf n) cap q with
  | none => w.wrote (w.s, some (w.s.lostAt x cap n q))
  | some ps => w.wrote (w.s.burnWrite l x i n ps e)

/-- Reconstructs and writes one run of a skipped tile. -/
def TileState.run (w : TileState) (l : Nat) (x : Launch) (i : Nat) (img : BitVec 512) (n px py pz u0 v i3 k : Nat) :
    TileState :=
  let (els, e, found, rows) := w.s.reconRun x img px py pz u0 v i3 k
  let w1 := els.foldl (fun (w : TileState) p => w.put l x i img n p.1 p.2) (w.seen x n rows)
  let w2 := if (tensorOf img).fmt.isBx then (match els with | p :: _ => w1.putScale l x i img n p.1 e | [] => w1) else w1
  if found then w2 else { w2 with unrec := true }

/-- The tile of an index is UNRECON. -/
def State.unrecTile (s : State) (l i : Nat) : State := s.updLaunch l (fun y => { y with unrecon := insertNat y.unrecon i })

/-- The record of KIND 0x09 of a tile: its first element that could not be written. -/
def State.logLost (s : State) (x : Launch) (i : Nat) (r : Loc) : State :=
  let (space, addr) := logAddr r
  let t := (s.asFront x.ctx).logRecord x.ctx 0x09 space (addr * 2 ^ 32) 0xFF 3 x.number i []
  { t with ctx := s.ctx, cur := s.cur }

/-- Reconstructs a skipped tile in every output. -/
def State.burnTile (s : State) (l : Nat) (x : Launch) (outs : List (BitVec 512)) (i : Nat) : State :=
  let (px, py, pz) := x.coord i
  let n := s.coreOfIndex x i
  let w := outs.foldl (fun (w : TileState) img =>
    (x.runs (tensorOf img)).foldl (fun (w : TileState) r => w.run l x i img n px py pz r.1 r.2.1 r.2.2.1 r.2.2.2) w) { s := s }
  let s1 := if w.unrec then w.s.unrecTile l i else w.s
  match w.lost with
  | some r => s1.logLost x i r
  | none => s1

/-! ## The error metric (R263) -/

/-- q of one element. -/
def errorRatio (rec_ cmp : Val) : Nat :=
  let num := sumNum [rec_, cmp.neg]
  if rec_.isFinite && cmp.isFinite then
    let den := Fmt.value .f32 (exactSum .f32 rne [cmp.abs, .num { m := 1, e := -10 }])
    Fmt.roundTo .f32 rne (Val.ofNum (num.abs.div den.toNum))
  else
    let d := (exactSumVal [rec_, cmp.neg]).abs
    let den := exactSumVal [cmp.abs, .num { m := 1, e := -10 }]
    match d, den with
    | .num a, .num b => Fmt.roundTo .f32 rne (Val.ofNum (a.div b))
    | .num _, .inf _ => 0
    | .inf n, .num _ => Fmt.roundTo .f32 rne (.inf n)
    | _, _ => Fmt.canonicalNaN .f32

/-- The F32 value of an element's bits as an output holds them. -/
def heldValue (f : Fmt) (e raw : Nat) : Val := Fmt.value .f32 (Fmt.roundTo .f32 rne (blockElement f e raw))

/-- The terms of a shadow tile, in ascending logical index of each output in turn, and the rows read. An element of the
tile that cannot be read counts as the zeros of R66 (log entry 52). -/
def State.shadowTerms (s : State) (x : Launch) (outs : List (BitVec 512)) (i : Nat) : List Nat × List Loc :=
  let (px, py, pz) := x.coord i
  let n := s.coreOfIndex x i
  let per : List (List Nat × List Loc) := outs.map (fun img =>
    let t := tensorOf img
    let runs : List (List (Nat × Val) × List Loc) := (x.runs t).map (fun r =>
      let (es, e, _, rows) := s.reconRun x img px py pz r.1 r.2.1 r.2.2.1 r.2.2.2
      (es.map (fun p => (p.1, heldValue t.fmt e p.2)), rows))
    let els := runs.flatMap (fun r => r.1)
    let sorted := els.foldl (fun (l : List (Nat × Val)) p => l.takeWhile (fun y => y.1 < p.1) ++ [p] ++ l.dropWhile (fun y => y.1 < p.1)) []
    let held := sorted.map (fun p => (p.2, s.burnRead x img n p.1))
    (held.map (fun h => errorRatio h.1 (Fmt.value .f32 ((h.2.map (fun c => c.code)).getD 0))),
     runs.flatMap (fun r => r.2) ++ held.flatMap (fun h => (h.2.map (fun c => c.rows)).getD [])))
  (per.flatMap (fun p => p.1), per.flatMap (fun p => p.2))

/-- A left-to-right F32 sum. -/
def sumF32 (xs : List Nat) : Nat :=
  xs.foldl (fun a x => exactSum .f32 rne [Fmt.value .f32 a, Fmt.value .f32 x]) 0

/-- e from the sum and the number of ratios of each shadow tile, when it is formed. -/
def errorForm (tiles : List (Nat × Nat)) : Nat :=
  let n : Nat := tiles.foldl (fun (k : Nat) t => k + t.2) 0
  let total := Fmt.value .f32 (sumF32 (tiles.map (fun t => t.1)))
  if n = 0 ∨ total.isFinite = false then 0xFFFFFFFF
  else
    let quo := Fmt.value .f32 (Fmt.roundTo .f32 rne (Val.ofNum (total.toNum.div { m := n })))
    if quo.isFinite then (roundRange 0 0xFFFFFFFF rne (Val.ofNum (quo.toNum.scale 16))).toNat else 0xFFFFFFFF

/-- The e of a launch: none without shadow tiles, or when one of them faulted. -/
def Launch.errorMetric (x : Launch) : Option Nat :=
  let shadows := (List.range x.t).filter (fun i => x.shadow? i)
  if shadows.isEmpty || shadows.any (fun i => SMap.get 0 x.status i == 2) then none else some (errorForm x.tileSums)

/-- Measures a shadow tile. -/
def State.shadowTile (s : State) (l : Nat) (x : Launch) (outs : List (BitVec 512)) (i : Nat) : State :=
  let (terms, rows) := s.shadowTerms x outs i
  let w := ({ s := s } : TileState).seen x (s.coreOfIndex x i) rows
  w.s.updLaunch l (fun y => { y with tileSums := y.tileSums ++ [(sumF32 terms, terms.length)] })

/-- The next index that the Burnishers work on: one that is not kept. -/
def Launch.nextTile (x : Launch) : Option Nat := (List.range x.t).find? (fun i => decide (x.burnAt ≤ i) && !x.kept? i)

/-- A tile is done: its index is passed. -/
def State.tileDone (s : State) (l i : Nat) : State := s.updLaunch l (fun y => { y with burnAt := i + 1, farRows := [] })

/-- BURNISH: the Burnishers of a launch whose tasks have all retired work on its next tile; after the last one, and once
their writes to other packages have ended, the error metric is formed. Reads go to kept tiles only, so the order of the
tiles does not matter. -/
def execBurnish (l : Nat) (s : State) : Result :=
  match s.launchAt l with
  | none => .next s
  | some x =>
    if !orCov x.oprec || x.burnt || !x.admitted || x.retired || x.error.isSome || !s.tasksRetired l x
        || !(s.context x.ctx).running then .next s
    else
      let outs := x.outputs.getD []
      match x.nextTile with
      | some i =>
        let wr := !x.shadow? i
        (match s.tileReady l x outs i wr with
         | (t, false) => .next t
         | (t, true) => .next ((if wr then t.burnTile l x outs i else t.shadowTile l x outs i).tileDone l i))
      | none =>
        if s.remotes.any (fun r => match r.kind with | .burn k _ => k == l | _ => false) then .next s
        else .next (s.updLaunch l (fun y => { y with burnt := true, eForm := x.errorMetric }))

end Sys2Proof.Machine
end

