-- ==== Sys2Proof/Machine/Images.lean ====
section
/-! DEFINITION. Context images (R324 to R326, R216, R273): STOP, IMAGE, RESUME, DESTROY. The image record of the state holds
what the sections whose inner layout the manual does not give stand for (log entry 33). -/

namespace Sys2Proof.Config

/-- The bytes of an image's section whose inner layout the manual does not give (R325), by the state, the context, and the
section's kind and index. -/
opaque sectionBytes : Sys2Proof.Machine.State → Nat → Nat → Nat → Nat

/-- What the sections of an image that this package has not written stand for, where the manual gives no layout: by the
state and the image's address. Its launches and graphs follow those of the state. -/
opaque foreignImage : Sys2Proof.Machine.State → Nat → Sys2Proof.Machine.Image

end Sys2Proof.Config

namespace Sys2Proof.Machine

/-! ## Sections (R325) -/

/-- A number rounded up to a multiple of 128. -/
def up128 (n : Nat) : Nat := (n + 127) / 128 * 128

/-- Bytes of a conversion-state section. -/
def Conv.sectionSize (c : Conv) (k : Nat) : Nat :=
  64 + (if c.serial = 0 then 0 else (c.pcount + 7) / 8) + (if k = 0 then 8 else 0)

/-- The cores of a context that have a state. -/
def State.ctxCores (s : State) (ctx : Nat) : List Nat :=
  (s.cores.filter (fun x => x.1 / 512 == ctx && x.1 % 512 < 256)).map (fun x => x.1 % 512)

/-- The sections of a context: kind, index, length, in order. -/
def State.sectionList (s : State) (ctx : Nat) : List (Nat × Nat × Nat) :=
  let cores := s.ctxCores ctx
  let x := s.context ctx
  let segs := s.segs.filter (fun g => g.ctx == ctx)
  let graphs := s.graphs.filter (fun y => y.ctx == ctx && !y.done && y.variant.isSome)
  cores.map (fun n => (1, n, 0x60000))
    ++ (List.range 64).filterMap (fun q => if cores.any (fun n => n / 4 == q) then some (2, q, 128) else none)
    ++ (List.range 64).flatMap (fun q => (List.range 512).filterMap (fun k =>
      if segs.any (fun g => g.quad == q && g.cseg == k) then some (3, 512 * q + k, 65600) else none))
    ++ ((s.launches.filter (fun l => l.ctx == ctx && !l.retired)).map (fun l => (4, l.number, 128)))
    ++ (List.range 16).filterMap (fun k =>
      let c := SMap.get {} x.conv k
      if k = 0 ∨ c.serial ≠ 0 then some (5, k, c.sectionSize k) else none)
    ++ [(6, 0, 128)]
    ++ (s.pqueues.filter (fun q => qdCtx (s.queueDesc q.1) == ctx && q.2.enabled)).map (fun q => (7, q.1, 128))
    ++ graphs.map (fun y => (8, y.hash.toNat % 2 ^ 32, 128))
    ++ [(9, 0, 128)]
    ++ cores.flatMap (fun n => (List.range 3).filterMap (fun e =>
      if ((s.coreAt ctx n).queue (engOf e)).spill.isEmpty then none else some (10, 4 * n + e, 128)))

/-- Sections with their offsets, from an offset on. -/
def placeSections (off : Nat) : List (Nat × Nat × Nat) → List (Nat × Nat × Nat × Nat)
  | [] => []
  | (k, i, n) :: rest => (k, i, off, n) :: placeSections (up128 (off + n)) rest

/-- The sections of an image and its length. -/
def State.layout (s : State) (ctx : Nat) : List (Nat × Nat × Nat × Nat) × Nat :=
  let l := s.sectionList ctx
  let p := placeSections (up128 (64 + 32 * l.length)) l
  (p, match p.getLast? with | some (_, _, o, n) => o + n | none => 64)

/-- The header and bitmap of a conversion-state record (R273). -/
def Conv.header (c : Conv) : Nat :=
  if c.serial = 0 then 0
  else c.serial % 2 ^ 60 + c.ppois % 2 ^ 32 * 2 ^ 160 + c.lcore % 256 * 2 ^ 210 + c.flag.toNat * 2 ^ 218
    + c.pcount % 2 ^ 32 * 2 ^ 224 + c.pdone % 2 ^ 32 * 2 ^ 256 + c.key.toNat * 2 ^ 288 + c.ntag.toNat * 2 ^ 324
    + c.otag.toNat * 2 ^ 328 + (if c.nbk then 2 ^ 332 else 0) + (if c.obk then 2 ^ 333 else 0) + c.ndes.toNat * 2 ^ 334
    + c.odes.toNat * 2 ^ 359 + c.nbase.toNat * 2 ^ 384 + c.obase.toNat * 2 ^ 448

/-- The bytes of a segment in the image: 512 rows, then one poison bit a row (R213, R240). -/
def State.putSegment (s : State) (at_ : Nat) (d : SMap Byte) (poison : List Nat) : State :=
  let s1 := s.zeroRange at_ 65600
  let s2 := d.foldl (fun (t : State) c => t.putRange (at_ + c.1) 1 c.2.toNat) s1
  s2.putRange (at_ + 65536) 64 (poison.foldl (fun v w => Nat.lor v (2 ^ (w / 8))) 0)

/-- Whether a core holds a LIVE bank. -/
def Core.anyLive (c : Core) : Bool := (List.range 8).any (fun b => match c.bankState b with | .live _ => true | _ => false)

/-- Whether the bytes of a section must wait for IMAGE: LIVE banks, OWNED segments. -/
def State.lazySection (s : State) (ctx kind idx : Nat) : Bool :=
  match kind with
  | 1 => (s.coreAt ctx idx).anyLive
  | 3 => (match s.seg ctx (idx / 512) (idx % 512) with | some g => g.st != .saved | none => false)
  | _ => false

/-- Writes one section. -/
def State.putSection (s : State) (ctx kind idx at_ n : Nat) : State :=
  match kind with
  | 1 =>
    let s1 := s.putHeader at_ ctx idx
    (List.range 8).foldl (fun (t : State) b =>
      if (t.coreAt ctx idx).bankState b = .saved then t.putBank at_ ctx idx b else t) s1
  | 3 => (match s.seg ctx (idx / 512) (idx % 512) with | some g => s.putSegment at_ g.data g.poison | none => s)
  | 5 =>
    let x := s.context ctx
    let c := SMap.get {} x.conv idx
    let bitmap := c.done.foldl (fun v p => Nat.lor v (2 ^ p)) 0
    let s1 := (s.zeroRange at_ n).putRange at_ 64 c.header
    let s2 := if c.serial = 0 then s1 else s1.putRange (at_ + 64) ((c.pcount + 7) / 8) bitmap
    if idx = 0 then s2.putRange (at_ + n - 8) 8 x.serial else s2
  | _ => s.putRange at_ n (Config.sectionBytes s ctx kind idx)

/-- The header and the section table. -/
def State.putTable (s : State) (base ctx len : Nat) (l : List (Nat × Nat × Nat × Nat)) (complete : Bool) (time : Nat) : State :=
  let s1 := s.putRange base 64 (0x58454443 + 2 ^ 32 + (ctx + l.length * 2 ^ 16 + (if complete then 2 ^ 32 else 0)) * 2 ^ 64
    + len * 2 ^ 128 + time * 2 ^ 256)
  ((List.range l.length).zip l).foldl (fun (t : State) x =>
    let (k, i, o, n) := x.2
    let lz := if !complete && t.lazySection ctx k i then 2 ^ 40 else 0
    t.putRange (base + 64 + 32 * x.1) 32 (o + n * 2 ^ 64 + (i % 2 ^ 32 + lz + 2 ^ 48 + k * 2 ^ 56) * 2 ^ 128)) s1

/-- The CRC-32C of an image, its own field taken as zero. -/
def State.imageCrc (s : State) (base len : Nat) : Nat :=
  (crc32c ((List.range len).map (fun i => if 24 ≤ i ∧ i < 28 then 0 else (readByte s.mem (base + i)).toNat))).toNat

/-! ## STOP (R203, R326) -/

/-- Every core of a context stops, and its physical core is free. -/
def State.haltCores (s : State) (ctx : Nat) : State :=
  (List.range 256).foldl (fun (t : State) p =>
    match (t.physCore p).serving with
    | some (c, n) => if c = ctx then (let u := t.stopCore c n 0; u.setPhys p { u.physCore p with serving := none }) else t
    | none => t) s

/-- STOP: halts a context at a packet boundary, once its remote operations have ended; then the sections that are ready are
written. A buffer that is too small takes none. -/
def execStop (s : State) : Result :=
  s.command 3 (fun ctx t =>
    if t.midPacket ctx || t.remotes.any (fun r => r.ctx == ctx) then t.setContext ctx { t.context ctx with stopReq := some 0 }
    else
      let base := t.host.arg0.toNat
      let t1 := t.haltCores ctx
      let t2 := t1.setContext ctx { t1.context ctx with running := false, stopReq := none, image := none }
      let (l, len) := t2.layout ctx
      if t.host.arg1.toNat < len then t2.commandDone 3
      else
        let t3 := l.foldl (fun (u : State) x =>
          if u.lazySection ctx x.1 x.2.1 then u else u.putSection ctx x.1 x.2.1 (base + x.2.2.1) x.2.2.2) t2
        let t4 := t3.setContext ctx { t3.context ctx with image := some base }
        (t4.putTable base ctx len l false 0).commandDone 0)

/-! ## IMAGE (R208, R326) -/

/-- The next act that completes an image: a victim write lands, a LIVE bank is spilled, an OWNED segment is saved. -/
def State.imageStep (s : State) (ctx : Nat) : Option State :=
  let bank := (s.ctxCores ctx).findSome? (fun n =>
    ((List.range 8).find? (fun b => match (s.coreAt ctx n).bankState b with | .live _ => true | _ => false)).map (fun b => (n, b)))
  match bank with
  | some (n, b) => some ((s.landOne ctx n b).getD (s.forceOff ctx n b))
  | none =>
    match s.segs.findIdx? (fun g => g.ctx == ctx && (g.st == .owned || g.st == .saving)) with
    | some k => (s.segs[k]?).map (fun g => s.saveSegment k g)
    | none => none

/-- The record of a completed image. -/
def State.imageOf (s : State) (ctx base : Nat) (l : List (Nat × Nat × Nat × Nat)) : Image :=
  let x := s.context ctx
  let ls := ((List.range s.launches.length).zip s.launches).filter (fun p => p.2.ctx == ctx && !p.2.retired)
  { addr := base, ctx := ctx, complete := true,
    cores := (s.cores.filter (fun c => c.1 / 512 == ctx && c.1 % 512 < 256)).map (fun c => (c.1 % 512, c.2.landed)),
    segs := s.segs.filter (fun g => g.ctx == ctx), launches := ls,
    barriers := s.barriers.filter (fun b => ls.any (fun p => p.1 == b.launch)),
    rounds := s.rounds.filter (fun r => ls.any (fun p => p.1 == r.launch)),
    convs := x.conv, serial := x.serial, prqSeq := x.prqSeq, reqs := x.reqs,
    queues := s.pqueues.filter (fun q => qdCtx (s.queueDesc q.1) == ctx), claims := s.claims.filter (fun c => c.ctx == ctx),
    contribs := s.contribs.filter (fun k => k.ctx == ctx), phases := s.phases.filter (fun p => p.ctx == ctx),
    dir := s.dir.filter (fun e => e.ctx == ctx),
    graphs := ((List.range s.graphs.length).zip s.graphs).filter (fun y => y.2.ctx == ctx && !y.2.done), traces := s.traces,
    time := s.time, sections := l }

/-- IMAGE: completes the image of a stopped context. -/
def execImage (s : State) : Result :=
  s.command 4 (fun ctx t =>
    match (t.context ctx).running, (t.context ctx).image with
    | false, some base =>
      (match t.imageStep ctx with
       | some u => u
       | none =>
         let (l, len) := t.layout ctx
         let t1 := l.foldl (fun (u : State) x => u.putSection ctx x.1 x.2.1 (base + x.2.2.1) x.2.2.2) t
         let t2 := t1.putTable base ctx len l true t.time
         let t3 := t2.putRange (base + 24) 4 (t2.imageCrc base len)
         ({ t3 with images := t.imageOf ctx base l :: t3.images.filter (fun i => i.addr != base) }).commandDone 0)
    | _, _ => t.commandDone 1)

/-! ## RESUME (R216, R325, R326) -/

/-- Whether an image's header and table can be taken (R324, R325). -/
def State.imageOk (s : State) (base : Nat) : Bool :=
  let h := readNat s.mem base 64
  let len := bits h 191 128
  let n := bits h 95 80
  bits h 31 0 == 0x58454443 && bits h 47 32 ≤ 1 && bits h 63 48 == 0 && bits h 79 64 < 4096 && bit h 96 && bits h 127 97 == 0
    && bits h 255 224 == 0 && h / 2 ^ 320 == 0 && bits h 223 192 == s.imageCrc base len
    && (List.range n).all (fun i =>
      let e := readNat s.mem (base + 64 + 32 * i) 32
      1 ≤ bits e 191 184 && bits e 191 184 ≤ 10 && bits e 183 176 == 1 && bits e 175 160 == 0 && bits e 255 192 == 0
        && bits e 63 0 % 128 == 0)

/-- A reader of a section's bytes. -/
def State.sectionReader (s : State) (at_ : Nat) (off n : Nat) : Nat := readNat s.mem (at_ + off) n

/-- The fields of a section's header that a core takes (R215). -/
def State.headerFrom (s : State) (ctx at_ : Nat) (c : Core) : Core :=
  let rd := s.sectionReader at_
  let l := rd 0x2C 4
  let loans := rd 0x30 8
  let launch := if (s.launchOf c).map (fun x => x.number) = some l then c.launch
    else ((List.range s.launches.length).find? (fun i => match s.launchAt i with
      | some x => x.ctx == ctx && x.number == l && !x.retired
      | none => false)).orElse (fun _ => c.launch)
  { c with pc := BitVec.ofNat 64 (rd 0x18 8 / 4 * 4), lastCause := BitVec.ofNat 8 (rd 0x21 1), again := bit (rd 0x20 1) 0,
           launch := launch, task := c.task.map (fun t => { t with l := rd 0x28 4 }),
           loanBorrowed := (List.range 4).filter (fun j => bit loans (16 + j)),
           loanLent := if bit loans 7 then some (bits loans 5 4) else none }

/-- The core that a section restores: every bank with bytes is SAVED, with what its bytes say; the others have their
launch-start values. -/
def State.coreFrom (s : State) (ctx at_ : Nat) (c : Core) : Core :=
  let rd := s.sectionReader at_
  (List.range 8).foldl (fun (d : Core) b =>
    if rd (8 + b) 1 = 0 then (d.restoreBank rd b).setBank b .saved
    else if d.bankState b = .launch then d else (d.launchBank b).setBank b .launch) (s.headerFrom ctx at_ c)

/-- Installs an image's cores. -/
def State.installCores (s : State) (ctx base : Nat) (i : Image) : State :=
  i.sections.foldl (fun (t : State) x =>
    if x.1 = 1 then
      let c := ((i.cores.find? (fun c => c.1 == x.2.1)).map (fun c => c.2)).getD {}
      t.setCoreAt ctx x.2.1 (t.coreFrom ctx (base + x.2.2.1) c)
    else t) s

/-- The segment that a section of an image holds (R213, R240). -/
def State.segFrom (s : State) (ctx base : Nat) (x : Nat × Nat × Nat × Nat) : Option Seg :=
  if x.1 ≠ 3 then none
  else
    let at_ := base + x.2.2.1
    let rows := (List.range 512).filter (fun r => bit (readNat s.mem (at_ + 65536 + r / 8) 1) (r % 8))
    some { ctx := ctx, quad := x.2.1 / 512, cseg := x.2.1 % 512, st := .saved,
           data := (List.range 65536).foldl (fun m i => SMap.set 0 m i (readByte s.mem (at_ + i))) [],
           poison := rows.flatMap (fun r => (List.range 8).map (fun k => 8 * r + k)) }

/-- Installs an image's launches at the places that its record gives, or after those of the state. -/
def State.installLaunches (s : State) (i : Image) (known : Bool) : State :=
  if known then
    let t := i.launches.foldl (fun (t : State) p => t.setLaunch p.1 p.2) s
    i.graphs.foldl (fun (t : State) y => { t with graphs := t.graphs.set y.1 y.2 }) t
  else { s with launches := s.launches ++ i.launches.map (fun p => p.2), graphs := s.graphs ++ i.graphs.map (fun y => y.2),
                traces := s.traces ++ i.traces }

/-- Installs the front-end, launch, barrier, conversion and request sections, and marks banks and segments SAVED. -/
def State.install (s : State) (ctx base : Nat) (i : Image) (known : Bool) : State :=
  let s1 := s.installLaunches i known
  let mine := fun (l : Nat) => i.launches.any (fun p => p.1 == l)
  let s2 : State := { s1 with
    segs := s1.segs.filter (fun g => g.ctx != ctx) ++ i.sections.filterMap (s1.segFrom ctx base),
    barriers := s1.barriers.filter (fun b => !mine b.launch) ++ i.barriers,
    rounds := s1.rounds.filter (fun r => !mine r.launch) ++ i.rounds,
    claims := s1.claims.filter (fun c => c.ctx != ctx) ++ i.claims,
    contribs := s1.contribs.filter (fun k => k.ctx != ctx) ++ i.contribs,
    phases := s1.phases.filter (fun p => p.ctx != ctx) ++ i.phases,
    dir := s1.dir.filter (fun e => e.ctx != ctx) ++ i.dir }
  let s3 := i.queues.foldl (fun (t : State) q => t.setPqueue q.1 q.2) s2
  let x := s3.context ctx
  let y : Ctx := { x with enabled := true, running := true, conv := i.convs, serial := i.serial, prqSeq := i.prqSeq,
                          reqs := i.reqs, image := none }
  (s3.setContext ctx y).installCores ctx base i

/-- The entries of an image's section table: kind, index, offset, length, and whether the section's bytes are written. -/
def State.tableOf (s : State) (base : Nat) : List ((Nat × Nat × Nat × Nat) × Bool) :=
  (List.range (readNat s.mem (base + 10) 2)).map (fun k =>
    let e := readNat s.mem (base + 64 + 32 * k) 32
    ((bits e 191 184, bits e 159 128, bits e 63 0, bits e 127 64), !bit e 168))

/-- Whether the header of every core section of a list can be resumed; a bank of state LIVE is refused too (DESIGN CHOICE,
log entry 88). -/
def State.headersOk (s : State) (base : Nat) (l : List (Nat × Nat × Nat × Nat)) : Bool :=
  l.all (fun x => x.1 != 1 || (let v := readNat s.mem (base + x.2.2.1) 64
    sectionHeaderOk v && (List.range 8).all (fun b => bits v (64 + 8 * b + 7) (64 + 8 * b) != 1)))

/-- Logical cores of a context that a debug stop has halted go on (R336). -/
def State.goOn (s : State) (ctx : Nat) : State :=
  { s with cores := s.cores.map (fun (x : Nat × Core) =>
      if x.1 / 512 = ctx ∧ x.2.stoppedAt = some 2 then (x.1, { x.2 with stoppedAt := none }) else x) }

/-- The record of a complete image for context `ctx`: one that IMAGE has made of it here, known by its completion time, or what
an image of another package or context stands for. -/
def State.imageAt (s : State) (ctx base : Nat) : Image × Bool :=
  let time := readNat s.mem (base + 32) 8
  match s.images.find? (fun i => i.complete && i.ctx == ctx && ctx == readNat s.mem (base + 8) 2 && i.time == time) with
  | some i => (i, true)
  | none =>
    let i := Config.foreignImage s base
    ({ i with addr := base, ctx := ctx, complete := true, time := time, sections := (s.tableOf base).map (fun x => x.1) }, false)

/-- RESUME in place: the core sections that STOP or IMAGE has written, which software may have changed since, are read back
(R216). -/
def State.resumeHere (s : State) (ctx : Nat) : State :=
  let x := s.context ctx
  let base := x.image.getD 0
  let l := if x.image.isSome then ((s.tableOf base).filter (fun e => e.1.1 == 1 && e.2)).map (fun e => e.1) else []
  if !s.headersOk base l then s.commandDone 2
  else
    let t := l.foldl (fun (t : State) e => t.setCoreAt ctx e.2.1 (t.coreFrom ctx (base + e.2.2.1) (t.coreAt ctx e.2.1))) s
    (((t.goOn ctx).setContext ctx { x with running := true, stopReq := none, image := none }).serveFree ctx).commandDone 0

/-- RESUME: in place, or from an image in memory. -/
def execResume (s : State) : Result :=
  s.command 5 (fun ctx t =>
    let base := t.host.arg0.toNat
    if base = 0 then t.resumeHere ctx
    else if !t.imageOk base then t.commandDone 2
    else
      let (i, known) := t.imageAt ctx base
      if t.headersOk base i.sections then ((t.install ctx base i known).serveFree ctx).commandDone 0 else t.commandDone 2)

/-! ## DESTROY (R17, R329) -/

/-- A launch of a destroyed context ends: tasks that have not exited are not done (R17). -/
def State.endLaunch (s : State) (l : Nat) (x : Launch) : State :=
  let y := { x with stopped := true }
  let s1 := if x.admitted then (match s.recordPlace x with | some a => s.writeRecord { y with crec := a } 0 | none => s) else s
  s1.closeLaunch l y

/-- DESTROY: the context's launches end, and its segments, directory entries, rounds and cores are freed. -/
def execDestroy (s : State) : Result :=
  s.command 6 (fun ctx t =>
    let t1 := t.haltCores ctx
    let t2 := ((List.range t1.launches.length).zip t1.launches).foldl (fun (u : State) p =>
      if p.2.ctx = ctx ∧ p.2.retired = false then u.endLaunch p.1 p.2 else u) t1
    let mine := fun (q : Nat) => qdCtx (t2.queueDesc q) == ctx
    let t3 : State := { t2 with
      cores := t2.cores.filter (fun c => !(c.1 / 512 == ctx && c.1 % 512 < 256)),
      segs := t2.segs.filter (fun g => g.ctx != ctx), dir := t2.dir.filter (fun e => e.ctx != ctx),
      contribs := t2.contribs.filter (fun c => c.ctx != ctx), claims := t2.claims.filter (fun c => c.ctx != ctx),
      phases := t2.phases.filter (fun p => p.ctx != ctx), remotes := t2.remotes.filter (fun r => r.ctx != ctx),
      pqueues := t2.pqueues.map (fun (q : Nat × PQueue) => if mine q.1 then (q.1, { q.2 with enabled := false, active := false }) else q),
      graphs := t2.graphs.map (fun y => if y.ctx == ctx then { y with done := true } else y),
      phys := t2.phys.map (fun (p : Nat × Phys) => (p.1, { p.2 with owner := p.2.owner.filter (fun o => o.2.1 != ctx + 1) })) }
    (t3.setContext ctx { elog := (t3.context ctx).elog }).commandDone 0)

end Sys2Proof.Machine
end

