-- ==== Sys2Proof/Machine/Debug.lean ====
section
/-! DEFINITION. Debug stops and dumps (R336, R337), breakpoint comparators (R338), head-class and bank-conflict samples
(R249, R333, R334). -/

namespace Sys2Proof.Machine

/-! ## Dumps (R336) -/

/-- The core as a dump records it: every effect landed, every live bank's contents in the section. -/
def Core.frozen (c : Core) : Core :=
  { c.landed with bank := c.bank.map (fun b => (b.1, match b.2 with | .live _ => .saved | x => x)) }

/-- The segment as a dump records it: its bytes in the image. -/
def State.frozenSeg (s : State) (g : Seg) : Seg :=
  if g.st = .owned ∨ g.st = .saving then
    let (d, p) := s.takeSegment g.pseg
    { g with st := .saved, data := d, poison := p }
  else g

/-- What a dump of some logical cores of a context records. -/
def State.dumpView (s : State) (ctx : Nat) (ns : List Nat) : State :=
  { s with
    cores := s.cores.filterMap (fun (x : Nat × Core) =>
      if x.1 / 512 = ctx then (if ns.contains (x.1 % 512) then some (x.1, x.2.frozen) else none) else some x),
    segs := s.segs.map (fun g => if g.ctx == ctx then s.frozenSeg g else g) }

/-- Writes a dump in the format of a complete context image. -/
def State.dump (s : State) (ctx : Nat) (ns : List Nat) : State :=
  let base := s.dbg 0x28
  if base = 0 then s
  else
    let v := s.dumpView ctx ns
    let (l, len) := v.layout ctx
    let t1 := l.foldl (fun (u : State) x => u.putSection ctx x.1 x.2.1 (base + x.2.2.1) x.2.2.2) v
    let t2 := t1.putTable base ctx len l true s.time
    let t3 := t2.putRange (base + 24) 4 (t2.imageCrc base len)
    { s with mem := t3.mem, memPoison := t3.memPoison }

/-! ## Debug stops (R336) -/

/-- The stop records of one logical core: its queues, then its control core. -/
def State.stopRecords (s : State) (ctx n id : Nat) : State :=
  let c := s.coreAt ctx n
  let v := id % 2 ^ 32 * 2 ^ 32 + c.pc.toNat % 2 ^ 32
  let s1 := [Eng.v, Eng.m, Eng.c].foldl (fun (t : State) e => t.trace 0x04 n (engNum e) (c.queue e).headSeq v) s
  s1.trace 0x04 n 3 0 v

/-- A logical core of a context halts (R203) and its physical core serves nothing. -/
def State.haltCore (s : State) (ctx n : Nat) : State :=
  let s1 := if s.served ctx n then s.stopCore ctx n 2 else s
  let s2 := s1.setCoreAt ctx n { s1.coreAt ctx n with lastCause := 2, stoppedAt := some 2 }
  match s2.physOf n with
  | some p => if (s2.physCore p).serving = some (ctx, n) then s2.setPhys p { s2.physCore p with serving := none } else s2
  | none => s2

/-- The logical cores that a debug stop names: an empty list names every core of the context that has a state. -/
def State.stopNames (s : State) (ctx : Nat) (ns : List Nat) : List Nat :=
  if ns.isEmpty then s.ctxCores ctx else (s.ctxCores ctx).filter (fun n => ns.contains n)

/-- Whether remote rows of these cores are still on their way. -/
def State.rowsOut (s : State) (ctx : Nat) (ns : List Nat) : Bool :=
  s.remotes.any (fun r => r.ctx == ctx && ns.contains r.kind.core && (match r.kind with | .fao .. => false | _ => true))

/-- A debug stop: every named core halts, then the stop records with one stop identifier, then the dump. -/
def State.debugStop (s : State) (ctx : Nat) (ns : List Nat) : State :=
  let l := s.stopNames ctx ns
  if s.rowsOut ctx l then s
  else
    let s1 := l.foldl (fun (t : State) n => t.haltCore ctx n) s
    let s2 := if ns.isEmpty then s1.setContext ctx { s1.context ctx with running := false, stopReq := none } else s1
    let id := s2.ring.stopId
    let s3 : State := { s2 with ring := { s2.ring with stopId := id + 1 } }
    (l.foldl (fun (t : State) n => t.stopRecords ctx n id) s3).dump ctx l

/-- DEBUG_STOP. -/
def execDebugStop (ctx : Nat) (ns : List Nat) (s : State) : Result := .next (s.debugStop ctx ns)

/-! ## Breakpoints (R338) -/

/-- Whether a queue's comparator matches its head, whose wait has not begun. -/
def Queue.atBreak (q : Queue) : Bool :=
  q.stopped.isNone && q.act.isNone &&
    (match q.hw with
     | x :: _ => q.bpSeq == some x.seq || (x.sf != 0 && q.bpFlag == some x.sf.toNat)
     | [] => false)

/-- BREAKPOINT_MATCH: a queue's comparator starts a debug stop of the context; a PC comparator traps BREAKPOINT. -/
def execBreakpointMatch (n : Nat) (src : BpSource) (s : State) : Result :=
  match s.actor n with
  | none => .next s
  | some t =>
    match src with
    | .queue e => if (t.core.queue e).atBreak then .next (s.debugStop t.ctx []) else .next s
    | .pc k =>
      if t.coreRuns && t.core.cmpHit == some k && !(t.core.pend && !t.core.inh) then
        .next (t.takeTrap cBreakpoint false (BitVec.ofNat 64 k) t.core.pc)
      else .next s

/-! ## Samples (R249, R333, R334) -/

/-- A count cut to 32 bits by saturation. -/
def sat32 (n : Nat) : Nat := min n (2 ^ 32 - 1)

/-- Cycles of each class since the last sample of a queue. -/
def Queue.since (q : Queue) : List Nat :=
  ((List.range 4).map (fun k => (q.counters.getD k 0 + 2 ^ 48 - q.sampled.getD k 0) % 2 ^ 48))

/-- The wait counters of a core's flags as flag-wait summaries (R333): one for each flag whose counter is not 0. The rule
gives no moment; they follow the samples of the vector queue (log entry 103). -/
def State.waitSummaries (s : State) (n : Nat) (c : Core) : State :=
  (List.range 64).foldl (fun (t : State) f =>
    match SMap.get 0 c.waitCount f with
    | 0 => t
    | k => t.trace 0x03 n 3 0 (k % 2 ^ 48 * 2 ^ 80 + f * 2 ^ 64)) s

/-- HEAD_CLASS_SAMPLE: a sample of a queue's class counts, every HCSMP cycles. -/
def execHeadClassSample (n : Nat) (e : Eng) (s : State) : Result :=
  match s.actor n with
  | none => .next s
  | some t =>
    let q := t.core.queue e
    let d := q.since
    if s.hcsmp = 0 ∨ d.foldl (· + ·) 0 < s.hcsmp then .next s
    else
      let v := d.foldl (fun v k => v * 2 ^ 32 + sat32 k) 0
      let u := (t.upd (fun c => c.setQueue e { q with sampled := q.counters })).trace 0x01 n (engNum e) 0 v
      .next (if e = .v then u.waitSummaries n t.core else u)

/-- Counts a group (R249): every BCSMP-th group of its vault gives a record. -/
def State.countGroup (s : State) (g : Group) : State :=
  let k := SMap.get 0 s.ring.bcCount g.vault + 1
  let hit := decide (s.bcsmp g.vault ≤ k)
  let s1 : State := { s with ring := { s.ring with bcCount := SMap.set 0 s.ring.bcCount g.vault (if hit then 0 else k) } }
  if hit then
    let loads := bankLoads g.rows
    let vec := ((List.range 32).zip loads).foldl (fun v x => if 1 < x.2 then v + 2 ^ x.1 else v) 0
    s1.trace 0x02 g.core (match g.eng with | some k => engNum k | none => 3) 0
      (vec * 2 ^ 96 + loads.foldl max 0 % 64 * 2 ^ 88 + g.place)
  else s1

/-- BANK_CONFLICT_SAMPLE: an access group of some agent of core n, whose rows have reached the vault of a physical quad
with a conflict degree of BCTHR or more, is counted; every BCSMP-th counted group gives a record. -/
def execBankConflictSample (n : Nat) (e : Option Eng) (pq : Nat) (rows : List Nat) (s : State) : Result :=
  let is := fun (g : Group) => g.core == n && g.eng == e && g.vault == pq && g.rows == rows
  match s.ring.groups.find? is with
  | none => .next s
  | some g =>
    let rest := s.ring.groups.eraseP is
    .next ({ s with ring := { s.ring with groups := rest } }.countGroup g)

end Sys2Proof.Machine
end

