-- ==== Sys2Proof/Machine/House.lean ====
section
/-! DEFINITION. Time corrections (R331), boot journal and recovery (R339), power and clock (R340), power-up and reset,
fenced dies (R251 to R254, R279), retired channels (R284), live update (R313). -/

namespace Sys2Proof.Machine

/-! ## Time (R331) -/

/-- A signed number in two's complement. -/
def signedBits (w : Nat) (i : Int) : Nat := (i % (2 ^ w : Int)).toNat

/-- PTP_ADJUSTMENT: one forward step at first lock when the offset is above 1 ms, else a slew by at most 200 parts per
million; either is recorded. -/
def execPtpAdjustment (offset rate : Int) (s : State) : Result :=
  if 200000 < rate ∨ rate < -200000 then .next s
  else
    let g := s.gang
    let step := !g.locked && decide (1000000 < offset)
    let s1 : State := { s with time := s.time + (if step then offset.toNat else 0),
                               gang := { g with locked := true, rate := rate, offset := offset } }
    .next (s1.trace 0x09 0xFF 3 0 (signedBits 64 offset * 2 ^ 64 + signedBits 32 rate * 2 ^ 32))

/-! ## The boot journal (R339) -/

/-- Appends a record; the oldest of 512 is overwritten. -/
def State.journalize (s : State) (step : BitVec 16) (outcome : BitVec 8) : State :=
  let r : Journal := { ts := s.time, step := step, attempt := BitVec.ofNat 8 s.attempt, outcome := outcome }
  let l := s.journal ++ [r]
  { s with journal := l.drop (l.length - 512) }

/-- Whether a step failed at an earlier start that the journal still shows. -/
def State.failedBefore (s : State) (step : BitVec 16) : Bool :=
  s.journal.any (fun r => r.step == step && (r.outcome == 1 || r.outcome == 4) && r.attempt != BitVec.ofNat 8 s.attempt)

/-- Whether a step that ends so leaves the device in recovery mode. -/
def State.recovers (s : State) (step : BitVec 16) (outcome : BitVec 8) : Bool :=
  outcome == 4 || (outcome == 1 && s.failedBefore step)

/-! ## The remap table at boot (R251, R252) -/

/-- Whether a quad is enabled and serves its own logical quad alone, under the pairs of disabled quad and server chosen so
far. -/
def quadFree (m : List (Nat × Nat)) (q : Nat) : Bool := m.all (fun x => x.1 != q && x.2 != q)

/-- The quads of a quad's die that may serve its logical quad as well. -/
def serversOf (m : List (Nat × Nat)) (q : Nat) : List Nat :=
  (List.range 64).filter (fun p => p / 8 == q / 8 && p != q && quadFree m p)

/-- The k-th disabled quad and the quad of its die that serves its logical quad: which ones is the part's (R1, R252). -/
def harvestStep (m : List (Nat × Nat)) (k : Nat) : List (Nat × Nat) :=
  let qs := (List.range 64).filter (fun q => quadFree m q && !(serversOf m q).isEmpty)
  let q := qs.getD (Config.servingQuad k % qs.length) 0
  let ps := serversOf m q
  m ++ [(q, ps.getD (Config.servingQuad (4 + k) % ps.length) 0)]

/-- The disabled quads of the part, each with its server: four on a harvested part, none on another (R1, R252). -/
def harvested : List (Nat × Nat) :=
  match Config.part with
  | .p2400 | .m2400 => [0, 1, 2, 3].foldl harvestStep []
  | .p2560 | .m2560 => []

/-- The physical quad of a logical quad at boot. -/
def bootQuad (q : Nat) : Nat := ((harvested.find? (fun x => x.1 == q)).map (fun x => x.2)).getD q

/-- The entry of logical core n, served by core j of a physical quad, with the other logical core there, if any. -/
def remapWord (n pq : Nat) (partner : Option Nat) : BitVec 32 :=
  BitVec.ofNat 32 (2 ^ 31 + (4 * pq + n % 4) * 2 ^ 16 +
    (match partner with | some k => 2 ^ 30 + k * 2 ^ 8 | none => 0))

/-- The table that serves each logical quad from a physical quad. -/
def remapOf (f : Nat → Option Nat) : SMap (BitVec 32) :=
  (List.range 256).foldl (fun m n =>
    match f (n / 4) with
    | none => m
    | some pq =>
      let other := (List.range 64).find? (fun q => q != n / 4 && f q == some pq)
      SMap.set 0 m n (remapWord n pq (other.map (fun q => 4 * q + n % 4)))) []

/-- BOOT_STEP: a step's outcome is journalled. A step that failed at an earlier start is skipped, performed by its
fallback, or leaves the device in recovery mode; another passes or fails. -/
def execBootStep (id : BitVec 16) (outcome : BitVec 8) (writesRemap : Bool) (s : State) : Result :=
  let allowed := if s.failedBefore id then outcome.toNat ≤ 4 && outcome.toNat ≠ 0 else decide (outcome.toNat ≤ 1)
  if !allowed || s.recovery.isSome then .next s
  else
    let s1 := s.journalize id outcome
    let s2 : State := if s.recovers id outcome then
        ({ s1 with recovery := some (id, outcome) }).event 4 0 (Config.eventArg 4).toNat (Config.eventVector 4)
      else s1
    if writesRemap ∧ (outcome = 0 ∨ outcome = 3) ∧ s.remapVersion = 0 then
      .next { s2 with remap := remapOf (fun q => some (bootQuad q)), remapVersion := 1 }
    else .next s2

/-! ## Clock, thermal limits, power (R340) -/

/-- Changes the arithmetic clock; the part of a nanosecond that has passed is kept. -/
def State.setClock (s : State) (k : Nat) : State := { s with clock := k, clockAt := some s.time, frac := s.frac * k / s.clock }

/-- Whether the last clock step is at least so many nanoseconds ago. -/
def State.clockIdle (s : State) (ns : Nat) : Bool := match s.clockAt with | none => true | some t => decide (t + ns ≤ s.time)

/-- CLOCK_STEP: one step of 100 MHz within 1.0 to 2.5 GHz, one per 1 ms at most. -/
def execClockStep (dir : ClockDir) (s : State) : Result :=
  let k := match dir with | .up => s.clock + 1 | .down => s.clock - 1
  if 10 ≤ k ∧ k ≤ 25 ∧ s.clockIdle 1000000 = true then .next (s.setClock k) else .next s

/-- THROTTLE: a reading at or above a limit steps down, one below steps up, at their intervals. -/
def execThrottle (junction stack : Nat) (s : State) : Result :=
  if 105 ≤ junction ∨ 95 ≤ stack then
    (if 10 < s.clock ∧ s.clockIdle 1000000 = true then .next (s.setClock (s.clock - 1)) else .next s)
  else if s.clock < 25 ∧ s.clockIdle 10000000 = true then .next (s.setClock (s.clock + 1))
  else .next s

/-- SHUTDOWN: the package stops at once. -/
def execShutdown (junction : Nat) (s : State) : Result :=
  if 115 ≤ junction then .next { s.journalize (Config.journalStep 0) 1 with dead := true } else .next s

/-- Host memory, which is not the package's: bit 47 of the physical address (R315). -/
def hostCells (m : List Host.Cell) : List Host.Cell := m.filter (fun c => bit c.1 47)

/-- POWER_UP: the state after power-up; the counter of nanoseconds starts at 0, the journal is empty after a loss of
always-on power. -/
def execPowerUp (alwaysOnLost : Bool) (s : State) : Result :=
  .next { State.reset with
    agenda := s.agenda, mem := hostCells s.mem, memPoison := s.memPoison.filter (fun w => bit (16 * w) 47),
    journal := if alwaysOnLost then [] else s.journal, attempt := s.attempt + 1, draws := s.draws }

/-- PACKAGE_RESET: `CYCLE` is 0 again; the counter of nanoseconds, the journal and the memories stay. -/
def execPackageReset (s : State) : Result :=
  .next { State.reset with
    agenda := s.agenda, time := s.time, frac := s.frac, clock := s.clock, clockAt := s.clockAt,
    mem := s.mem, memPoison := s.memPoison, journal := s.journal, attempt := s.attempt,
    retiredChannels := s.retiredChannels, draws := s.draws }

/-! ## Retired channels (R284) -/

/-- CHANNEL_RETIREMENT: at most 8 channels of a stack; a further one is refused and journalled. Where granules lie is not
visible. -/
def execChannelRetirement (stack ch : Nat) (s : State) : Result :=
  if 12 ≤ stack ∨ 128 ≤ ch ∨ s.retiredChannels.contains (stack, ch) = true then .next s
  else if (s.retiredChannels.filter (fun x => x.1 == stack)).length < 8 then
    .next { s with retiredChannels := s.retiredChannels ++ [(stack, ch)] }
  else .next (s.journalize (Config.journalStep (1 + 128 * stack + ch)) 1)

/-! ## Live update (R311 to R313) -/

/-- Every enabled queue is paused, or resumed. -/
def State.pauseQueues (s : State) (b : Bool) : State :=
  { s with pqueues := s.pqueues.map (fun (q : Nat × PQueue) => (q.1, { q.2 with paused := b && q.2.enabled })) }

/-- Whether every enabled queue stands at a packet boundary: no packet in the middle of its steps. -/
def State.quiescent (s : State) : Bool :=
  s.pqueues.all (fun q => q.2.packets.all (fun p => p.stage != .stepped || p.launch.isSome || p.graph.isSome))

/-- A record of the state table (R312); `cut`: it does not end inside the SRAM. -/
structure StateRecord where
  key : Nat
  version : Nat
  len : Nat
  value : Nat := 0
  cut : Bool := false
  deriving DecidableEq, Repr, Inhabited

/-- Bytes of the SRAM of a complex (R311). -/
def sramSize : Nat := 8388608

/-- Bytes of a record: its head and its value, padded to 8. -/
def StateRecord.size (r : StateRecord) : Nat := 8 + (r.len + 7) / 8 * 8

/-- The head of a record. -/
def StateRecord.head (r : StateRecord) : Nat := r.key + r.version % 2 ^ 16 * 2 ^ 32 + r.len * 2 ^ 48

/-- The records of the table of the complex whose SRAM begins at `base`, from offset `off` on, up to key 0. -/
def readTable (m : List Host.Cell) (base : Nat) : Nat → Nat → List StateRecord
  | 0, _ => []
  | fuel + 1, off =>
    if sramSize < off + 8 then []
    else
      let h := readNat m (base + off) 8
      let r : StateRecord := { key := bits h 31 0, version := bits h 47 32, len := bits h 63 48 }
      if r.key = 0 then []
      else if sramSize < off + 8 + r.len then [{ r with cut := true }]
      else { r with value := readNat m (base + off + 8) r.len } :: readTable m base fuel (off + r.size)

/-- Where the state table of a complex begins in its SRAM. -/
def State.tableStart (s : State) (k : Nat) : Nat := (SMap.get 0 (SMap.get {} s.complexes k).csr 0x810).toNat % sramSize / 8 * 8

/-- The state table of a complex. -/
def State.stateTable (s : State) (k : Nat) : List StateRecord :=
  readTable s.sram (sramSize * k) (sramSize / 8) (s.tableStart k)

/-- A reader accepts a record of the version that it implements or of the one before, and skips an unknown one with
REQ = 0 (R312). -/
def StateRecord.accepted (r : StateRecord) : Bool :=
  !r.cut && (match Config.stateVersion r.key with
    | some n => r.version == n || r.version + 1 == n
    | none => !bit r.key 31)

/-- A record of what `k` names, of `len` bytes; none while the firmware's key for it is 0. -/
def ownRecord (k len value : Nat) : List StateRecord :=
  let key := Config.stateKey k % 2 ^ 32
  if key = 0 then [] else [{ key := key, version := (Config.stateVersion key).getD 0, len := len, value := value }]

/-- The indices of the enabled queues, the replay positions, and the variants with their versions, as records (R313); the
layout of the values is the model's own (log entry 72). -/
def State.positions (s : State) : List StateRecord :=
  (s.pqueues.filter (fun q => q.2.enabled)).flatMap (fun q => ownRecord 0 16 (q.1 + q.2.consumed % 2 ^ 64 * 2 ^ 64))
    ++ (s.graphs.filter (fun y => !y.done && y.variant.isSome)).flatMap (fun y =>
      ownRecord 1 24 (y.hash.toNat + y.step % 2 ^ 64 * 2 ^ 64 + y.placed.length * 2 ^ 128))
    ++ s.traces.flatMap (fun t => t.variants.flatMap (fun v =>
      ownRecord 2 16 (t.hash.toNat + v.number % 2 ^ 32 * 2 ^ 64 + v.version % 2 ^ 32 * 2 ^ 96)))

/-- Writes records one after the other, and the end key. -/
def putRecords (m : List Host.Cell) (a : Nat) : List StateRecord → List Host.Cell
  | [] => writeNat m a 8 0
  | r :: rs => putRecords (writeNat (writeNat m a 8 r.head) (a + 8) (r.size - 8) r.value) (a + r.size) rs

/-- The active complex writes the positions into its state table, in the place of those of an earlier update; a table that
would not fit its SRAM stays as it is. -/
def State.writePositions (s : State) (k : Nat) : State :=
  let own := fun (r : StateRecord) => [0, 1, 2].any (fun i => Config.stateKey i % 2 ^ 32 == r.key)
  let l := (s.stateTable k).filter (fun r => !own r) ++ s.positions
  let start := s.tableStart k
  if sramSize < start + l.foldl (fun n r => n + r.size) 8 then s
  else { s with sram := putRecords s.sram (sramSize * k + start) l }

/-- LIVE_UPDATE: at a quiescent boundary the standby begins to import, and the active front end pauses its queues and writes
the positions into the state table; then the standby imports the table: it becomes active with the settings that it has
imported, or a record that it cannot accept aborts the import and its key is recorded. -/
def execLiveUpdate (stage : UpdateStage) (s : State) : Result :=
  let a := s.activeComplex
  let b := 1 - a
  let old := SMap.get {} s.complexes a
  let new := SMap.get {} s.complexes b
  let put := fun (t : State) (k : Nat) (x : Complex) => { t with complexes := SMap.set {} t.complexes k x }
  match stage with
  | .pause =>
    if new.role = 2 ∨ s.quiescent = false then .next s
    else .next (((put s b { new with role := 2 }).pauseQueues true).writePositions a)
  | .take =>
    if new.role ≠ 2 then .next s
    else match (s.stateTable a).find? (fun r => !r.accepted) with
    | some r => .next ((put s b { new with role := 1, failKey := BitVec.ofNat 32 r.key }).pauseQueues false)
    | none =>
      let csr := old.csr.filter (fun x => x.1 != 0x810)
      let base := SMap.get 0 new.csr 0x810
      .next ((put (put s a { old with role := 1 }) b { new with role := 0, csr := SMap.set 0 csr 0x810 base }).pauseQueues false)

/-! ## Fenced dies (R253, R254) -/

/-- The master: the lowest-numbered die that is not fenced. -/
def State.masterDie (s : State) : Nat := ((List.range 8).find? (fun d => !s.fencedDies.getLsbD d)).getD 0

/-- The physical quad of each logical quad. -/
def State.quadMap (s : State) (q : Nat) : Option Nat := (s.physOf (4 * q)).map (fun p => p / 4)

/-- The logical quads that a die serves. -/
def State.quadsOn (s : State) (d : Nat) : List Nat :=
  (List.range 64).filter (fun q => (s.quadMap q).map (fun p => p / 8) == some d)

/-- Physical quads of dies that are not fenced and that serve one logical quad under a map. -/
def State.roomyQuads (s : State) (f : Nat → Option Nat) : List Nat :=
  (List.range 64).filter (fun p => !s.fencedDies.getLsbD (p / 8) && ((List.range 64).filter (fun q => f q == some p)).length == 1)

/-- Gives each quad of a list a new physical quad; which one is the firmware's choice, a free value. One that finds none
is served no more. -/
def State.rehouse (s : State) : List Nat → (Nat → Option Nat) → State × (Nat → Option Nat)
  | [], f => (s, f)
  | q :: qs, f =>
    let l := s.roomyQuads f
    let pick := l[Config.choice s.draws % l.length]?
    State.rehouse { s with draws := s.draws + 1 } qs (fun k => if k = q then pick else f k)

/-- Unretired indices of a launch on logical core n. -/
def State.unretired (s : State) (l : Nat) (x : Launch) (n : Nat) : List Nat :=
  let c := s.coreAt x.ctx n
  (x.exited.filter (fun e => e.2 == n)).map (fun e => e.1)
    ++ (if c.launch = some l then (c.task.map (fun t => t.l)).toList else [])

/-- The indices that core n runs again: from its cursor, the lowest that has not retired, to where the walker stands
(R250). -/
def State.reruns (s : State) (l : Nat) (x : Launch) (n : Nat) : List Nat :=
  let passed := (List.range (SMap.get 0 x.cursor n)).map (x.candidate n)
  match s.unretired l x n with
  | [] => []
  | u :: us => let lo := us.foldl min u; passed.dropWhile (fun k => k != lo)

/-- How many kept and shadow tasks the walker has counted among indices that run again. -/
def State.counted (s : State) (x : Launch) (n : Nat) (ls : List Nat) : Nat × Nat :=
  ls.foldl (fun (r : Nat × Nat) k =>
    match (s.lookAt x n k).2 with
    | .bind _ true => (r.1, r.2 + 1)
    | .bind _ false => (r.1 + 1, r.2)
    | _ => r) (0, 0)

/-- The recorder and the replayer forget the tasks that run again. -/
def State.forget (s : State) (x : Launch) (n : Nat) (ls : List Nat) : State :=
  match x.graph with
  | none => s
  | some (g, k) =>
    match s.graphs[g]? with
    | none => s
    | some y =>
      let mine := fun (gt core l : Nat) => gt == k && core == n && ls.contains l
      { s with graphs := s.graphs.set g { y with
          recording := y.recording.filter (fun t => !mine t.gtask t.core t.l),
          guards := y.guards.filter (fun t => !mine t.gtask t.core t.l),
          placed := y.placed.filter (fun p => !mine p.1 p.2.1 p.2.2.1) } }

/-- A launch that is reissued (R254): core n goes back to its cursor. -/
def State.rewind (s : State) (l n : Nat) (x : Launch) : State :=
  let ls := s.reruns l x n
  let (kept, shadows) := s.counted x n ls
  let y := { x with
    cursor := SMap.set 0 x.cursor n (SMap.get 0 x.cursor n - ls.length),
    exited := x.exited.filter (fun e => e.2 != n),
    status := x.status.filter (fun e => !ls.contains e.1), redo := x.redo ++ ls,
    kept := x.kept - kept, shadows := x.shadows - shadows }
  (s.setLaunch l y).forget x n ls

/-- The walker passes the indices of core n from its `k`-th on that bind no task: they keep the status that they have
anyway (R250, R256). -/
def State.passEmpty (s : State) (l n : Nat) (x : Launch) : Nat → Nat → State
  | 0, _ => s
  | fuel + 1, k =>
    if ({ x with cursor := SMap.set 0 x.cursor n k }).exhausted n then s
    else
      let i := x.candidate n k
      let (s1, p) := s.lookAt x n i
      State.passEmpty (s1.noTask l n i x p) l n x fuel (k + 1)

/-- A launch that is not reissued (R254): its unretired tasks on core n are not done, and the core runs no more of it. -/
def State.abandon (s : State) (l n : Nat) (x : Launch) : State :=
  let ls := s.unretired l x n
  let s1 := s.passEmpty l n x (x.t + 1) (SMap.get 0 x.cursor n)
  s1.updLaunch l (fun y => { y with
    cursor := SMap.set 0 y.cursor n x.t, started := if y.started.contains n then y.started else y.started ++ [n],
    exited := y.exited.filter (fun e => e.2 != n), status := y.status.filter (fun e => !ls.contains e.1) })

/-- Running launches of a context whose span holds core n. -/
def State.runningOn (s : State) (ctx n : Nat) : List Nat :=
  (List.range s.launches.length).filter (fun l =>
    match s.launchAt l with
    | some x => x.ctx == ctx && x.admitted && !x.retired && x.error.isNone && x.spans n
    | none => false)

/-- Logical core n of a context restarts at its cursor with the launch-start state (R12, R253). -/
def State.restartCore (s : State) (ctx n : Nat) : State :=
  let shadow := (s.coreAt ctx n).shadow
  let all := s.runningOn ctx n
  let s1 := all.foldl (fun (t : State) l =>
    match t.launchAt l with
    | some x => if x.barred then t.abandon l n x else if x.started.contains n then t.rewind l n x else t
    | none => t) s
  let again := all.filter (fun l =>
    match s1.launchAt l with
    | some x => !x.barred && x.started.contains n && !x.exhausted n
    | none => false)
  let keep := shadow.filter (fun l => match s1.launchAt l with | some x => !x.barred | none => false)
  match again with
  | [] => s1.setCoreAt ctx n { shadow := keep }
  | l :: rest =>
    match s1.launchAt l with
    | none => s1.setCoreAt ctx n { shadow := keep }
    | some x =>
      let s2 := rest.foldl (fun (t : State) k => t.updLaunch k (fun y => { y with started := y.started.filter (fun m => m != n) })) s1
      let c := (Core.atLaunch {} s.now l x).loadPreloads x.preloads
      s2.setCoreAt ctx n { c with shadow := rest.head?.or keep }

/-- Every word of a segment. -/
def allWords : List Nat := List.range 4096

/-- A segment that was on the fenced die is rebuilt on the new vault with every row poisoned; with no room there it waits
in the image, poisoned alike. -/
def State.rebuildSeg (s : State) (k : Nat) (g : Seg) : State :=
  match ((List.range 512).map (fun i => 512 * s.physQuad g.quad + i)).find? (s.segmentFits g) with
  | some p =>
    { s with segs := s.segs.set k { g with st := .owned, pseg := p, data := [], poison := [] },
             vault := eraseRange s.vault (p * 65536) 65536,
             vaultPoison := s.vaultPoison.filter (fun w => w / 4096 != p) ++ allWords.map (fun w => p * 4096 + w) }
  | none => { s with segs := s.segs.set k { g with st := .saved, pseg := 0, data := [], poison := allWords } }

/-- The segments of the moved quads. -/
def State.rebuildSegs (s : State) (qs : List Nat) : State :=
  let moved := fun (g : Seg) => qs.contains g.quad && g.st != .saved
  let freed : State := { s with segs := s.segs.map (fun g => if moved g then { g with st := .restoring, pseg := 0 } else g) }
  (List.range s.segs.length).foldl (fun (t : State) k =>
    match s.segs[k]?, t.segs[k]? with
    | some g, some h => if moved g then t.rebuildSeg k h else t
    | _, _ => t) freed

/-- Claims, phases, contributions and remote operations of the moved cores are gone; claims on other packages are
released. -/
def State.dropWork (s : State) (ns : List Nat) : State :=
  let far := s.claims.filter (fun c => ns.contains c.core && c.pkg.isSome)
  let s1 : State := { s with
    claims := s.claims.filter (fun c => !ns.contains c.core), phases := s.phases.filter (fun p => !ns.contains p.core),
    contribs := s.contribs.filter (fun c => !ns.contains c.core),
    remotes := s.remotes.filter (fun r => !ns.contains r.kind.core) }
  far.foldl (fun (t : State) c =>
    { ({ t with ctx := c.ctx }.sendRemote (c.pkg.getD 0) (c.lo * 4096) (.claim c.core { eng := .c, seq := c.seq }) (.release c.core c.seq))
      with ctx := s.ctx }) s1

/-- Launches that were running when the fence fell (R254). -/
def State.fenceLaunches (s : State) (d : Nat) : State :=
  { s with launches := s.launches.map (fun x =>
      if x.admitted && !x.retired then { x with fenced := x.fenced ||| BitVec.ofNat 8 (2 ^ d), reissue := x.reissue || (!x.barred && !x.started.isEmpty) }
      else x) }

/-- DIE_FENCE: firmware fences die d; its logical quads move to other dies, their cores restart. -/
def execDieFence (d : Nat) (s : State) : Result :=
  let fenced := s.fencedDies ||| BitVec.ofNat 8 (2 ^ d)
  if 8 ≤ d ∨ s.fencedDies.getLsbD d = true ∨ fenced = BitVec.allOnes 8 then .next s
  else
    let qs := s.quadsOn d
    let ns := qs.flatMap (fun q => (List.range 4).map (fun j => 4 * q + j))
    let s1 : State := { s with fencedDies := fenced }
    let (s2, f) := s1.rehouse qs s.quadMap
    let s3 : State := { s2 with
      remap := remapOf f, remapVersion := s2.remapVersion + 1,
      phys := s2.phys.filter (fun p => p.1 / 32 != d), quads := s2.quads.filter (fun q => q.1 / 8 != d),
      barriers := s2.barriers.filter (fun b => !(b.scope == 1 && qs.contains b.inst)) }
    let s4 := s3.fenceLaunches d
    let ctxs := (s4.cores.filter (fun x => ns.contains (x.1 % 512))).map (fun x => (x.1 / 512, x.1 % 512))
    let s5 := ctxs.foldl (fun (t : State) x => t.restartCore x.1 x.2) (s4.dropWork ns)
    let s6 := s5.rebuildSegs qs
    let m := s6.masterDie
    .next { s6 with ctxs := s6.ctxs.map (fun (x : Nat × Ctx) =>
      (x.1, { x.2 with conv := x.2.conv.map (fun (c : Nat × Conv) =>
        (c.1, if c.2.serial ≠ 0 ∧ c.2.die = d then { c.2 with die := m, work := [] } else c.2)) })) }

end Sys2Proof.Machine
end

