-- ==== Sys2Proof/Machine/Fabric.lean ====
section
/-! DEFINITION. Ports and links (R341 to R344), the gang (R345, R349, R356, R360), remote operations at their home and their
answers (R346 to R348, R358), POD barriers across packages (R351). -/

namespace Sys2Proof.Machine

/-! ## Ports (R341 to R344) -/

/-- A port. -/
def State.port (s : State) (p : Nat) : Port := SMap.get {} s.ports p

/-- Replaces a port. -/
def State.setPort (s : State) (p : Nat) (x : Port) : State := { s with ports := SMap.set {} s.ports p x }

/-- FLIT_RECEIVE: a codeword arrives with so many symbol errors: up to 15 are corrected and its ten flits delivered; with
more it is retransmitted. -/
def execFlitReceive (p symErrors : Nat) (s : State) : Result :=
  let x := s.port p
  if 64 ≤ p ∨ x.st ≠ 2 then .next s
  else if symErrors ≤ 15 then
    .next (s.setPort p { x with flits := x.flits + 10,
                                corr := if symErrors = 0 then x.corr else min (x.corr + 1) (2 ^ 32 - 1) })
  else .next (s.setPort p { x with retry := min (x.retry + 1) (2 ^ 16 - 1) })

/-- LANE_REMOVAL: the port goes on with two lanes, then one; with none it is down. -/
def execLaneRemoval (p : Nat) (s : State) : Result :=
  let x := s.port p
  if 64 ≤ p ∨ x.lanes = 0 then .next s
  else
    let l := x.lanes - 1
    .next (s.setPort p { x with lanes := l, st := if l = 0 then 0 else x.st })

/-- LINK_UP: a port that finishes training comes up with its lanes; one that is down and has no lanes yet begins to
train. -/
def execLinkUp (p : Nat) (lanes : BitVec 2) (s : State) : Result :=
  let x := s.port p
  if 64 ≤ p ∨ x.st = 2 then .next s
  else .next (s.setPort p { x with lanes := lanes, st := if lanes = 0 then 1 else 2 })

/-- The state word of a port (R344). -/
def Port.word (x : Port) : Nat := x.corr * 2 ^ 32 + x.retry * 2 ^ 16 + x.lanes.toNat * 2 ^ 3 + x.st.toNat

/-! ## The gang (R345, R349, R356) -/

/-- GANG_BUILD: firmware numbers the packages, names the collector of trace records (R357) and configures the multicast
groups; group 0 holds every package. -/
def execGangBuild (gang self size ctx : Nat) (table : GangTable) (s : State) : Result :=
  if gang = 0 ∨ 2 ^ 32 ≤ gang ∨ 1024 < size ∨ size ≤ self ∨ 4096 ≤ ctx then .next s
  else
    let own := (table.groups.filter (fun g => g.1 != 0 && g.1 < 64)).map (fun g => (g.1, g.2.filter (fun p => p < size)))
    .next { s with gang := { s.gang with
      id := gang, self := self, size := size, ctx := ctx, collector := table.collector, groups := (0, List.range size) :: own, fenced := [] } }

/-- SYNC_INTERVAL: sync messages at each 2^−4 s, peer-delay requests at each 1 s. -/
def execSyncInterval (pdelay : Bool) (s : State) : Result :=
  let g := s.gang
  if s.time < 62500000 * g.seqSync then .next s
  else
    let d := pdelay && decide (1000000000 * g.seqDelay ≤ s.time)
    .next { s with gang := { g with
      seqSync := g.seqSync + 1, seqDelay := g.seqDelay + (if d then 1 else 0), t1 := if d then s.time else g.t1 } }

/-- PTP_MESSAGE: a sync message's arrival is timestamped, its follow-up carries the time at which it was sent and gives
the offset; a peer-delay response carries the time that the peer took and gives the delay. A request and an announce
change nothing here (log entry 67). -/
def execPtpMessage (p : Nat) (kind : PtpKind) (stamp : Nat) (s : State) : Result :=
  let g := s.gang
  if 64 ≤ p ∨ (s.port p).st ≠ 2 then .next s
  else match kind with
  | .sync => .next { s with gang := { g with t2 := s.time } }
  | .followUp => .next { s with gang := { g with offset := (stamp : Int) + g.delay - g.t2 } }
  | .pdelayResp => .next { s with gang := { g with delay := ((s.time : Int) - g.t1 - stamp) / 2 } }
  | .pdelayReq => .next s
  | .announce => .next s

/-! ## Ends of remote operations (R345, R347, R358) -/

/-- Performs something as a logical core of a context; the actor of the step stays. -/
def State.asCore (s : State) (ctx n : Nat) (f : State → State) : State :=
  { f { s with ctx := ctx, cur := n } with ctx := s.ctx, cur := s.cur }

/-- The entry that a tag names, and what a fault of it reports (R167, R179, R230). -/
def Core.tagged (c : Core) (t : Tag) : Option (Entry × Progress) :=
  match c.copies.find? (fun x => x.tag == t) with
  | some x => some (x.entry, { rep := x.rep, count := x.pos, status := x.status })
  | none =>
    let q := c.queue t.eng
    match q.act with
    | some a =>
      if a.entry.seq = t.seq then
        some (a.entry, match t.eng, a.word with
          | .v, some w => { count := (w.extractLsb' 26 10).toNat + 1 - a.rep }
          | .m, _ => { count := a.rep }
          | _, _ => {})
      else none
    | none => (q.flight.find? (fun f => f.entry.seq == t.seq)).map (fun f => (f.entry, {}))

/-- The entry of a tag faults. -/
def State.tagFault (s : State) (t : Tag) (code : BitVec 8) : State :=
  match s.core.tagged t with
  | some (x, p) => s.engineFault t.eng x code p
  | none => s

/-- The entry of a tag faults FOOTPRINT_OVERLAP, with its record. -/
def State.tagOverlap (s : State) (t : Tag) (record : BitVec 128) : State :=
  match s.core.tagged t with
  | some (x, p) => s.footFault t.eng x cFootprintOverlap record p
  | none => s

/-- The head of the load queue, when it is the load that a remote operation carries. -/
def Core.remoteLoad (c : Core) (id : Nat) : Option LsEntry :=
  match c.lq with
  | x :: _ => if x.remote = some id then some x else none
  | [] => none

/-- A row for a control-core load, or for a row that a waiting instruction has asked for. -/
def State.answerLoad (s : State) (r : Remote) (stamp : Nat) (st : RemoteStatus) (data : Row) : State :=
  if stamp = 0 then
    (match s.core.waiting with
     | some .memory => s.upd (fun c => { c with param := some (r.va, st, data) })
     | _ => s)
  else
    match s.core.remoteLoad r.id with
    | none => s
    | some x =>
      match x.kind with
      | .load d wide el =>
        let s1 := if st = .poisoned then s.logPoison s.controlReader (.va r.va) else s
        s1.loadResult d wide el (answerRow st data)
      | _ => s

/-- The result of an atomic. -/
def State.answerAtomic (s : State) (r : Remote) (d : Reg) (bounded : Bool) (st : RemoteStatus) (data : Row) : State :=
  let lost := if bounded then 0xFFFFFFFF#64 else 0
  let finish := fun (t : State) (v : Word) (a p : Bool) => (t.upd (fun c => (c.wr d v).advancePc 8)).setResid a p
  if s.core.waiting ≠ some .device then s
  else match st with
  | .done => finish s (data.extractLsb' 0 64) false false
  | .poisoned => finish (s.logPoison s.controlReader (.va r.va)) lost false true
  | .discarded => finish s lost false false
  | _ => finish s lost true false

/-- The claim of an `fao` of the current core that another package has answered: as a local one that is granted, or that
has broken a rule (R101, R204). -/
def State.answerFao (s : State) (r : Remote) (d : Reg) (left : Bool) (st : RemoteStatus) (data : Row) : State :=
  match r.op with
  | .atomic _ el _ a b =>
    let (g, bits) : Word × BitVec 2 := match st with
      | .done => (data.extractLsb' 0 64, 0)
      | .discarded => (0xFFFFFFFF, 0)
      | .poisoned => (0xFFFFFFFF, 2)
      | _ => (0xFFFFFFFF, 1)
    let k : Contrib := { id := s.nextContrib, die := 0, ctx := s.ctx, core := s.cur, launch := s.core.launch.getD (2 ^ 40),
                         dest := { loc := .va r.va, el := some (el.toNat % 16) }, key := b.toNat % 2 ^ 32, n := b.toNat / 2 ^ 32,
                         payload := .claim (a.toNat % 2 ^ 32), reply := .reg d, left := left, pc := s.core.pc,
                         grant := if st = .overlap then none else some (g, bits) }
    let s1 := if st = .poisoned then s.logPoison s.controlReader (.va r.va) else s
    let s2 := ({ s1 with nextContrib := s1.nextContrib + 1, contribs := s1.contribs ++ [k] } : State).upd (fun c =>
      if c.waiting = some (Wait.grant (2 * r.id + 1)) then { c with waiting := some (.grant (2 * k.id)) } else c)
    if st = .overlap then s2.orderedKey k else s2
  | _ => s

/-- The outcome of a row written by a copy word (R177, R180). -/
def writeOutcome (st : RemoteStatus) : BitVec 8 :=
  match st with
  | .done => 0
  | .discarded => 6
  | .poisoned => 8
  | _ => 5

/-- What an overlap's reply carries: OSEQ, OCORE, OENG and the first overlapping granule (R246, R346). -/
def overlapData (c : Nat × Nat × Nat × Nat) : Row :=
  BitVec.ofNat 1024 (c.1 % 2 ^ 32 + c.2.1 % 256 * 2 ^ 32 + c.2.2.1 % 4 * 2 ^ 40 + c.2.2.2 % 2 ^ 64 * 2 ^ 64)

/-- The record of R246 that the reply makes; the granule stands under the package field of the requester's own address. -/
def overlapRecord (r : Remote) (d : Row) : BitVec 128 :=
  let v := d.toNat
  footRecord (v % 2 ^ 32) (bits v 39 32) (bits v 41 40) 0 0x3F 2 0xFF (r.va / 2 ^ 47 * 2 ^ 47 + bits v 127 64 * 4096 % 2 ^ 47)

/-- The home has written a row of a copy word or combined with it, or refused it: the row's outcome counts, and a written
row gains its fill mark (R173, R177, R180). An uncorrectable row that a `cred` met is logged here (R240, R345). -/
def State.answerWrite (s : State) (r : Remote) (tag : Tag) (st : RemoteStatus) (data : Row) : State :=
  match st, r.op with
  | .overlap, .combine .. => s.tagFault tag cOrderedKey
  | .overlap, _ => s.tagOverlap tag (overlapRecord r data)
  | .poisoned, .combine .. =>
    (s.logPoison s.controlReader (.va r.va)).upd (fun c => c.settleAway tag (2 * r.id + 1) 8 (s.normLoc (.va r.va)))
  | _, _ => s.upd (fun c => c.settleAway tag (2 * r.id + 1) (writeOutcome st) (s.normLoc (.va r.va)))

/-- The home has registered a claim, or found an overlap (R346). -/
def State.answerClaim (s : State) (r : Remote) (tag : Tag) (st : RemoteStatus) (data : Row) : State :=
  match r.op with
  | .claim .. =>
    if st = .overlap then s.tagOverlap tag (overlapRecord r data)
    else
      s.upd (fun c =>
        match c.qc.act with
        | some a => if a.entry.seq = tag.seq then { c with qc := { c.qc with act := some { a with count := a.count - 1 } } } else c
        | none => c)
  | _ => s

/-- The operation is over; those that waited for it to change their port are sent (R343). -/
def State.dropRemote (s : State) (id : Nat) : State :=
  let t : State := { s with remotes := s.remotes.filter (fun r => r.id != id) }
  { t with remotes := t.remotes.map (fun r => if s.portWaits r && !t.portWaits r then { r with sentAt := s.time } else r) }

/-- The answer to an operation of a packet's step (R290). -/
def State.answerFront (s : State) (q idx k : Nat) (st : RemoteStatus) (data : Row) : State :=
  s.updPacket q idx (fun p => { p with got := p.got ++ [(k, st, data)] })

/-- The answer to a Burnisher's operation on another package: a row for its tile, or a write that may have found no page, as
a local one does (R260). -/
def State.answerBurn (s : State) (r : Remote) (l tile : Nat) (st : RemoteStatus) (data : Row) : State :=
  match r.op, s.launchAt l with
  | .readRow, _ => s.updLaunch l (fun x => { x with farRows := x.farRows ++ [(rowBase r.va, st, data)] })
  | _, some x =>
    if st = .done ∨ st = .poisoned then s
    else
      let t := s.unrecTile l tile
      if x.unrecon.contains tile then t else t.logLost x tile (.va r.va)
  | _, none => s

/-- What a reply does at the requester. -/
def State.answered (s : State) (r : Remote) (st : RemoteStatus) (data : Row) : State :=
  match r.kind with
  | .load n stamp => s.asCore r.ctx n (fun t => t.answerLoad r stamp st data)
  | .store n _ => s.asCore r.ctx n (fun t => if st = .done ∨ st = .poisoned then t else t.setResid true false)
  | .atomic n d b => s.asCore r.ctx n (fun t => t.answerAtomic r d b st data)
  | .fao n d left => s.asCore r.ctx n (fun t => t.answerFao r d left st data)
  | .engRead n tag => s.asCore r.ctx n (fun t => t.upd (fun c => { c with farRows := c.farRows ++ [(tag, rowBase r.va, st, data)] }))
  | .copyWrite n tag => s.asCore r.ctx n (fun t => t.answerWrite r tag st data)
  | .claim n tag => s.asCore r.ctx n (fun t => t.answerClaim r tag st data)
  | .front q idx k => s.answerFront q idx k st data
  | .posted => s
  | .burn l tile => s.answerBurn r l tile st data
  | .trace => if st = .done then s else s.dropRecord

/-- REMOTE_RESPONSE: the reply to remote operation `id` arrives. -/
def execRemoteResponse (id : Nat) (st : RemoteStatus) (data : Row) (s : State) : Result :=
  match s.remotes.find? (fun r => r.id == id) with
  | none => .next s
  | some r => if s.portWaits r then .next s else .next ((s.dropRemote id).answered r st data)

/-- REMOTE_FAULT of a control core, with the virtual address (R114, R358). -/
def State.deferRemote (s : State) (r : Remote) : State := s.defer cRemoteFault (BitVec.ofNat 64 r.va)

/-- What an operation without a reply does at the requester (R358). A packet's address counts as absent then, and a copy of
a trace record is dropped (log entry 98). -/
def State.timedOut (s : State) (r : Remote) : State :=
  match r.kind with
  | .load n stamp => s.asCore r.ctx n (fun t => (t.answerLoad r stamp .done 0).deferRemote r)
  | .store n _ => s.asCore r.ctx n (fun t => t.deferRemote r)
  | .atomic n d b => s.asCore r.ctx n (fun t =>
      (t.answerAtomic r d b .done (if b then 0xFFFFFFFF#1024 else 0)).deferRemote r)
  | .fao n d left => s.asCore r.ctx n (fun t => (t.answerFao r d left .done 0xFFFFFFFF#1024).deferRemote r)
  | .engRead n tag => s.asCore r.ctx n (fun t => t.tagFault tag cRemoteFault)
  | .copyWrite n tag => s.asCore r.ctx n (fun t => t.tagFault tag cRemoteFault)
  | .claim n tag => s.asCore r.ctx n (fun t => match r.op with | .claim .. => t.tagFault tag cRemoteFault | _ => t)
  | .front q idx k => s.answerFront q idx k .absent 0
  | .posted => s
  | .burn l tile => s.answerBurn r l tile .absent 0
  | .trace => s.dropRecord

/-- Ends one remote operation without a reply. -/
def State.endRemote (s : State) (r : Remote) : State := (s.dropRemote r.id).timedOut r

/-- REMOTE_TIMEOUT: REMOTE_TIMEOUT has passed, or the home package is fenced. -/
def execRemoteTimeout (id : Nat) (s : State) : Result :=
  match s.remotes.find? (fun r => r.id == id) with
  | none => .next s
  | some r =>
    if (!s.portWaits r && decide (r.sentAt + 1000 * s.setting 0x828 ≤ s.time)) || s.gang.fenced.contains r.pkg then
      .next (s.endRemote r)
    else .next s

/-! ## Remote operations at home (R345 to R348) -/

/-- Sends an answer to another package. -/
def State.reply (s : State) (pkg : Nat) (st : RemoteStatus) (data : Row) : State :=
  { s with gang := { s.gang with out := s.gang.out ++ [(pkg, st, data)] } }

/-- A core of another package at its home: its claims are kept under this core number. -/
def farCore (pkg core : Nat) : Nat := 1024 * (pkg + 1) + core

/-- The place of a row for another package: its context is the gang's, the IOMMU translates. -/
def State.homeSpot (s : State) (va : Nat) (wr : Bool) : State × Except RemoteStatus Spot :=
  match s.resolve s.gang.ctx 256 (.va va) wr with
  | (s1, .spot p) => (s1, .ok p)
  | (s1, .discarded) => (s1, .error .discarded)
  | (s1, _) => (s1, .error .absent)

/-- A copy command of another package registers its declared destination here (R245, R346): an overlap is answered with what
it meets; a claim for which the table has no room waits. -/
def State.homeClaim (s : State) (pkg va k core seq : Nat) : State :=
  let lo := s.normVa va / 4096
  match s.claimConflict s.gang.ctx (farCore pkg core) seq lo (lo + k - 1) with
  | some c => s.reply pkg .overlap (overlapData c)
  | none =>
    if 4096 ≤ s.claimCount s.masterDie then { s with gang := { s.gang with held := s.gang.held ++ [(pkg, va, k, core, seq)] } }
    else
      let c : Claim := { id := s.nextClaim, die := s.masterDie, ctx := s.gang.ctx, core := farCore pkg core, seq := seq,
                         lo := lo, hi := lo + k - 1 }
      ({ s with nextClaim := s.nextClaim + 1, claims := s.claims ++ [c] } : State).reply pkg .done 0

/-- The claims that wait for room are offered again, in their order. -/
def State.retryClaims (s : State) : State :=
  s.gang.held.foldl (fun (t : State) h =>
    ({ t with gang := { t.gang with held := t.gang.held.drop 1 } } : State).homeClaim h.1 h.2.1 h.2.2.1 h.2.2.2.1 h.2.2.2.2) s

/-- The claims of an entry of another package are released, and one that still waits is forgotten. -/
def State.homeRelease (s : State) (pkg core seq : Nat) : State :=
  ({ s with claims := s.claims.filter (fun c => !(c.core == farCore pkg core && c.seq == seq)),
            gang := { s.gang with held := s.gang.held.filter (fun h =>
              !(h.1 == pkg && h.2.2.2.1 == core && h.2.2.2.2 == seq)) } } : State).reply pkg .done 0

/-- A trace record of another package of the gang arrives at the collector: a full ring drops it (R357). -/
def State.collect (s : State) (pkg : Nat) (rec_ : BitVec 256) : State :=
  if s.gang.collector ≠ s.gang.self ∨ s.traceSize = 0 ∨ s.traceFull = true then s.reply pkg .notWritable 0
  else (s.keepRecord rec_.toNat).reply pkg .done 0

/-- The claim of an `fao` of another package at its home die; `lost`: the row is discarded, or absent, and the key is consumed
all the same (R101). -/
def State.homeClaimFao (s : State) (pkg va : Nat) (el : BitVec 5) (a b : Word) (lost : Option Bool) : State :=
  s.contribute { id := 0, die := 0, ctx := s.gang.ctx, core := farCore pkg 0, launch := 2 ^ 40,
                 dest := { loc := .va va, el := some (el.toNat % 16) }, key := b.toNat % 2 ^ 32, n := b.toNat / 2 ^ 32,
                 payload := .claim (a.toNat % 2 ^ 32), reply := .remote pkg, lost := lost }

/-- Performs an operation at home and answers it. -/
def State.homeOp (s : State) (pkg va : Nat) (op : RemoteOp) : State :=
  match op with
  | .readRow =>
    (match s.homeSpot va false with
     | (s1, .ok p) => if s1.poisoned p then s1.reply pkg .poisoned 0 else s1.reply pkg .done (s1.rowAt p)
     | (s1, .error e) => s1.reply pkg e 0)
  | .writeRow data mask =>
    (match s.homeSpot va true with
     | (s1, .ok p) => (s1.writeRowAt p data mask).reply pkg (if s1.poisoned p then .poisoned else .done) 0
     | (s1, .error e) => s1.reply pkg e 0)
  | .atomic aop el w a b =>
    let n := if w = 1 then 64 else 32
    (match s.homeSpot va true with
     | (s1, .error e) => if aop = 2 then s1.homeClaimFao pkg va el a b (some (e != .discarded)) else s1.reply pkg e 0
     | (s1, .ok p) =>
       if bit p.addr 47 && !hostAtomic aop.toNat then s1.reply pkg .notWritable 0
       else if aop = 2 then s1.homeClaimFao pkg va el a b none
       else if s1.poisoned p then s1.reply pkg .poisoned 0
       else
         let (s2, v) := s1.atomicAt p aop.toNat el.toNat n a.toNat b.toNat
         s2.reply pkg .done (v.zeroExtend 1024))
  | .claim k core seq => s.homeClaim pkg va k core seq
  | .release core seq => s.homeRelease pkg core seq
  | .trace rec_ => s.collect pkg rec_
  | .combine cop fmt launch key n els =>
    s.contribute { id := 0, die := 0, ctx := s.gang.ctx, core := farCore pkg 0, launch := 2 ^ 40 + 1 + launch,
                   dest := { loc := .va va }, key := key, n := n, payload := .cred cop fmt els, reply := .remote pkg }

/-- REMOTE_REQUEST: an operation of another package of the gang on this package's memory. -/
def execRemoteRequest (pkg gang : Nat) (va : Word) (op : RemoteOp) (s : State) : Result :=
  let g := s.gang
  if g.id = 0 ∨ gang ≠ g.id ∨ g.size ≤ pkg ∨ pkg = g.self then .next s
  else match op, s.whereIs va.toNat with
  | .trace rec_, _ => .next (s.collect pkg rec_)
  | _, .here _ => .next (s.homeOp pkg va.toNat op)
  | _, _ => .next s

/-! ## POD barriers and fences (R351, R360) -/

/-- POD_BARRIER_ARRIVAL: another package's arrival for a generation of a POD barrier of the launch of that number. -/
def execPodBarrierArrival (pkg launch id gen : Nat) (s : State) : Result :=
  let g := s.gang
  if g.id = 0 ∨ g.size ≤ pkg ∨ pkg = g.self ∨ g.fenced.isEmpty = false ∨ 4 ≤ id then .next s
  else
    match (List.range s.launches.length).find? (fun l =>
        match s.launchAt l with
        | some x => x.number == launch && x.ctx == g.ctx && x.admitted && !x.retired
        | none => false) with
    | none => .next s
    | some l =>
      let b := s.barrier l 4 id 0
      if gen ≤ b.gen then .next s
      else .next (s.setBarrier { b with pods := insertNat b.pods (1024 * gen + pkg) })

/-- A pending generation of a POD barrier ends: every logical core that has arrived takes REMOTE_FAULT (R358, R360). -/
def State.endPod (s : State) (k : Nat) (b : Barrier) : State :=
  match s.launchAt b.launch with
  | none => s
  | some x =>
    if b.scope ≠ 4 ∨ x.ctx ≠ s.gang.ctx ∨ (b.arrived.isEmpty ∧ b.pods.isEmpty) then s
    else
      let s1 := b.arrived.foldl (fun (t : State) n => t.asCore x.ctx n (fun u =>
        (u.defer cRemoteFault (BitVec.allOnes 64)).upd (fun c => { c with latch := true }))) s
      { s1 with barriers := s1.barriers.set k { b with
          gen := if b.arrived.isEmpty then b.gen else b.gen + 1, arrived := [], fullAt := none, pods := [] } }

/-- A package of the gang is fenced from now on. -/
def State.fencePackage (s : State) (pkg : Nat) : State :=
  let g := s.gang
  let s1 : State := { s with gang := { g with
    fenced := g.fenced ++ [pkg], groups := g.groups.map (fun x => (x.1, x.2.filter (fun p => p != pkg))) } }
  let s2 := (s1.remotes.filter (fun r => r.pkg == pkg)).foldl (fun (t : State) r => t.endRemote r) s1
  ((List.range s2.barriers.length).zip s2.barriers).foldl (fun (t : State) x => t.endPod x.1 x.2) s2

/-- Whether a package of the gang can be fenced. -/
def State.fenceable (s : State) (pkg : Nat) : Bool :=
  s.gang.id != 0 && decide (pkg < s.gang.size) && !s.gang.fenced.contains pkg

/-- PACKAGE_FENCE: the gang's firmware fences a package, here. -/
def execPackageFence (pkg : Nat) (s : State) : Result :=
  if s.fenceable pkg ∧ pkg ≠ s.gang.self then .next (s.fencePackage pkg) else .next s

/-- FENCE_NOTICE: the notice of a fence that another package's firmware has made. -/
def execFenceNotice (pkg : Nat) (s : State) : Result := if s.fenceable pkg then .next (s.fencePackage pkg) else .next s

end Sys2Proof.Machine
end

