-- ==== Sys2Proof/Machine/Gate.lean ====
section
/-! DEFINITION. Expert dispatch (R185, R352 to R355): the routing table, the gate scorer, the claims of slots in and
outside deterministic mode, the rows and entries written; and the step of the copy engine. -/

namespace Sys2Proof.Machine

/-! ## The routing table (R352) -/

/-- GATE. -/
def hdGate (h : BitVec 512) : Nat := bits h.toNat 511 448
/-- GVER. -/
def hdVer (h : BitVec 512) : Nat := bits h.toNat 447 416
/-- E. -/
def hdExperts (h : BitVec 512) : Nat := bits h.toNat 415 400
/-- HS. -/
def hdSize (h : BitVec 512) : Nat := bits h.toNat 399 384
/-- OVF. -/
def hdOvf (h : BitVec 512) : Nat := bits h.toNat 383 320
/-- OVL. -/
def hdOvl (h : BitVec 512) : Nat := bits h.toNat 319 256

/-- The rules for a header against C0 + 1 elements of a token. -/
def headerOk (h : BitVec 512) (c0 : Nat) : Bool :=
  1 ≤ hdExperts h && hdExperts h ≤ 512 && 1 ≤ hdSize h && hdSize h ≤ 8192 && hdExperts h * hdSize h * 2 ≤ 8388608
    && bits h.toNat 255 0 == 0 && hdSize h == c0

/-- Bytes of the routing table: it begins at the first position of walk wd (log entry 49). -/
def State.tableParts (s : State) (x : CopyCmd) (off n : Nat) : Option (List Bits) :=
  match (s.view s.ctx x.dst).back with
  | some (.va a) => placeRuns (.va a) (quadOf s.cur) (runsFrom (n + 1) (8 * ((x.wd.at_ 0 0 0).toNat + off)) (8 * n))
  | _ => none

/-- The rules for the walks of a `cdsp`. -/
def State.dispatchOk (s : State) (x : CopyCmd) : Bool :=
  let vs := s.view s.ctx x.src
  let vd := s.view s.ctx x.dst
  walkUsable x.walkS && walkUsable x.walkD && x.ws.kind == 0 && x.wd.kind == 0 && x.ts.fmt == .b16 && vs.usable x.ts
    && plainTag vs.tag && x.td.fmt == .n8 && vd.usable x.td && vd.tag == 0 && !vd.vaultBound && decide (0 ≤ x.wd.at_ 0 0 0)

/-- CDSP: the header is read and checked at acceptance, and with the walks and descriptors read once (R109, R185, R352). -/
def execCdsp (o : CWord) (_ : BitVec 3) (s : State) : Result :=
  match s.act.cmd with
  | some x => s.claimCommand x o.sc
  | none =>
    if 8 ≤ s.core.copies.length then s.wordWait
    else
      let x0 := s.newCommand ((s.act.word).getD 0) 0
      let x := { x0 with wlen := x0.ws.c1 * x0.ws.c2 * x0.ws.c3 }
      if !s.dispatchOk x then s.wordFault cTensorDesc
      else match s.tableParts x 0 64 with
      | none => s.wordFault cVaultBounds
      | some ps =>
        match s.readParts (engRow (s.readerOf x.entry) x.tag) x ps with
        | (t, .wait) => t.wordWait
        | (t, .foot r) => .next (t.footFault .c x.entry cFootprintViolation r {})
        | (t, .fault c) => t.wordFault c
        | (t, e) =>
          let h : BitVec 512 := match e with | .bits v => BitVec.ofNat 512 v | _ => 0
          if !headerOk h x.ws.c0 then t.wordFault cTensorDesc
          else if x.td.count < (x.wd.at_ 0 0 0).toNat + 64 + 32 * hdExperts h then t.wordFault cVaultBounds
          else (t.upd (fun c => c.dropFar x.tag)).acceptCommand { x with header := h } o.sc

/-! ## The scorer (R353) -/

/-- The greater of two logits first: a NaN ranks below −infinity. -/
def logitLt (a b : Val) : Bool :=
  match a.isNan, b.isNan with
  | true, true => false
  | true, false => true
  | false, true => false
  | false, false => a.lt b

/-- The expert with the greatest logit among those not taken, the lowest of equals. -/
def bestExpert (ls : List Val) (taken : List Nat) : Option Nat :=
  ((List.range ls.length).filter (fun e => !taken.contains e)).foldl (fun best e =>
    match best with
    | none => some e
    | some b => if logitLt (ls.getD b .nan) (ls.getD e .nan) then some e else best) none

/-- The k experts of a token in selection order. -/
def selectExperts (ls : List Val) : Nat → List Nat → List Nat
  | 0, acc => acc
  | k + 1, acc =>
    match bestExpert ls acc with
    | some e => selectExperts ls k (acc ++ [e])
    | none => acc

/-- The logits of a token: one exact sum per expert. -/
def tokenLogits (xs ws : List Nat) (experts : Nat) : List Nat :=
  (List.range experts).map (fun e =>
    exactSum .f32 rne ((xs.zip ((ws.drop (e * xs.length)).take xs.length)).map (fun p =>
      (Fmt.value .b16 p.1).mul (Fmt.value .b16 p.2))))

/-- The selected experts with their weights (R353). -/
def scoreToken (xs ws : List Nat) (experts k : Nat) : List (Nat × Nat) :=
  let ls := (tokenLogits xs ws experts).map (Fmt.value .f32)
  let sel := selectExperts ls k []
  let vs := sel.map (fun e => ls.getD e .nan)
  if vs.any (fun v => !v.isFinite) then sel.map (fun e => (e, Fmt.canonicalNaN .f32))
  else
    let m := (vs.headD (.zero false)).toNum
    let us := vs.map (fun v => Fmt.roundTo .f32 rne (Val.ofNum ((v.toNum.add m.neg).exp)))
    let sum := (Fmt.value .f32 (tree .add .f32 us)).toNum
    (sel.zip us).map (fun (p : Nat × Nat) => (p.1, Fmt.roundTo .f32 rne (Val.ofNum ((Fmt.value .f32 p.2).toNum.div sum))))

/-- The source positions of token t. -/
def CopyCmd.tokenPos (x : CopyCmd) (t : Nat) : List Int :=
  (List.range x.ws.c0).map (fun h => x.ws.at_ 0 (t * x.ws.c0 + h) 0)

/-- The elements at some positions of the source, with their status. -/
def State.sourceElems (s : State) (rd : RowReader) (x : CopyCmd) : List Int → State × List Nat × SrcRead
  | [] => (s, [], .value 0 0 0)
  | q :: qs =>
    match s.readSource rd x q with
    | (s1, .value v _ st) =>
      (match State.sourceElems s1 rd x qs with
       | (s2, l, .value _ _ st') => (s2, v :: l, .value 0 0 (st ||| st'))
       | bad => bad)
    | (s1, bad) => (s1, [], bad)

/-- Loads the gate weights into the die's gate SRAM when GATE or GVER differs (R352): none while rows are awaited. -/
def State.loadGate (s : State) (rd : RowReader) (x : CopyCmd) : State × Option (List Nat × BitVec 8) :=
  let h := x.header
  let g := SMap.get {} s.gates (dieOf s.cur)
  let n := hdExperts h * hdSize h
  if g.loaded && g.addr.toNat == hdGate h && g.ver.toNat == hdVer h && n ≤ g.weights.length then (s, some (g.weights, 0))
  else
    let rows := (List.range ((hdGate h % 128 + 2 * n + 127) / 128)).map (fun i => Loc.va (rowBase (hdGate h) + 128 * i))
    let (s1, got) := s.readAll rd rows
    if got.any (fun r => r.2 == .wait) then (s1, none)
    else
      let st := got.foldl (fun (st : BitVec 8) r => if r.2.isOk then st else st ||| lossStatus r.2) 0
      let data := got.flatMap (fun r => bytesOf r.2.row.toNat 128)
      let bs := data.drop (hdGate h % 128)
      let ws := (List.range n).map (fun i => bs.getD (2 * i) 0 + 256 * bs.getD (2 * i + 1) 0)
      let sram : Gate := { addr := BitVec.ofNat 64 (hdGate h), ver := BitVec.ofNat 32 (hdVer h), loaded := true, weights := ws }
      ({ s1 with gates := SMap.set {} s1.gates (dieOf s.cur) sram }, some (ws, st))

/-- Adds outcomes to a command (R180). -/
def State.addStatus (s : State) (x : CopyCmd) (st : BitVec 8) : State :=
  s.upd (fun c => (c.stick x.word st).updTag x.tag (fun y => { y with status := y.status ||| st }))

/-- The scorer takes token t of a command: its experts and weights join the plan. The token's row stays at hand where it is
placed next. -/
def State.scoreNext (s : State) (rd : RowReader) (x : CopyCmd) (t : Nat) (keep : Bool) : State :=
  match s.loadGate rd x with
  | (s1, none) => s1
  | (s1, some (ws, st0)) =>
    match s1.sourceElems rd x (x.tokenPos t) with
    | (s2, xs, .value _ _ st) =>
      let sel := scoreToken xs ws (hdExperts x.header) (wordAux x.word % 8 + 1)
      ((s2.addStatus x (st0 ||| st)).upd (fun c =>
        (c.updTag x.tag (fun y => { y with plan := y.plan ++ [sel], cache := if keep then y.cache else [] })).dropFar x.tag))
    | (s2, _, .wait) => s2
    | (s2, _, .fault c) => s2.copyFault x c
    | (s2, _, .foot r) => s2.copyFoot x r

/-! ## Claims (R354) -/

/-- An expert entry of the routing table; a lost row reads as zeros (R177). -/
def State.expertEntry (s : State) (rd : RowReader) (x : CopyCmd) (e : Nat) : State × ElemRead :=
  match s.tableParts x (64 + 32 * e) 32 with
  | none => (s, .fault cVaultBounds)
  | some ps =>
    match s.readParts rd x ps with
    | (s1, .lost y) => (s1.addStatus x (lossStatus y), .bits 0)
    | y => y

/-- BUF of an entry. -/
def exBuf (v : Nat) : Nat := bits v 255 192
/-- RTL of an entry. -/
def exRtl (v : Nat) : Nat := bits v 191 128
/-- The counter's row of an entry. -/
def exRow (v : Nat) : Loc := .vault (bits v 127 121) (bits v 120 102)
/-- The counter's element. -/
def exEl (v : Nat) : Nat := bits v 101 98

/-- How an unordered claim of one slot ends (R101, R354). -/
inductive Slot where
  | granted (s : State) (slot : Nat)
  | refused (s : State)
  | wait (s : State)
  | bounds
  | foot (record : BitVec 128)

/-- Claims one slot of a counter with `faab` semantics; a counter in a vault lies inside an open phase (R244). -/
def State.claimSlot (s : State) (rd : Reader) (x : CopyCmd) (l : Loc) (el : Nat) : Slot :=
  match s.violations .c x.fps (s.entryDet x.entry) true [l] with
  | some r => .foot r
  | none =>
  match s.resolve s.ctx s.cur l true with
  | (s0, .spot p) =>
    let s1 := s0.correct p
    let q : Spot := ⟨p.vault, rowBase p.addr⟩
    if s1.poisoned q then .refused (s1.logPoison rd l)
    else
      let (g, new) := boundedClaim (rowElement (s1.rowAt q) 8 el) 1
      if g = 0xFFFFFFFF then .refused s1
      else .granted (s1.writeRowAt q (placeAt (8 * el) new) (byteMask (8 * el) 8)) g
  | (s1, .wait) => .wait (s1.wantSeg s.ctx l)
  | (_, .bounds) => .bounds
  | (s1, _) => .refused s1

/-- The 16-byte routing or overflow entry (R352). -/
def routeEntry (t core e w slot : Nat) : Nat :=
  t % 2 ^ 32 + core % 256 * 2 ^ 32 + e * 2 ^ 40 + w * 2 ^ 64 + slot * 2 ^ 96

/-- The rows of n bytes at a virtual address, with what a write of them puts there. -/
def bytesRows (va n v : Nat) : List (Loc × Nat × Nat × Nat) :=
  match placeRuns (.va va) 0 (runsFrom (n + 1) 0 (8 * n)) with
  | none => []
  | some ps => (rowsOf ps).map (fun l => (l, scatterBits l ps v))

/-- One expert of token t has its slot, or overflows: its writes are posted one by one (R192, R354), and the plan goes on;
those of the last expert complete the position. `rest` is what is left of the token. -/
def State.placed (s : State) (x : CopyCmd) (t : Nat) (rest : List (Nat × Nat)) (st : BitVec 8)
    (rows : List (Loc × Nat × Nat × Nat)) : State :=
  let gs := if rest.isEmpty then [t] else []
  s.upd (fun c => c.updTag x.tag (fun y => { y with
    plan := (if rest.isEmpty then [] else [rest]) ++ y.plan.drop 1, pend := some { gs := gs, rows := rows, st := st } }))

/-- The token goes into the sender's overflow list; a full one faults (R354). -/
def State.overflow (s : State) (x : CopyCmd) (t e w : Nat) (rest : List (Nat × Nat)) : State :=
  let ovf := hdOvf x.header
  match s.claimSlot (s.readerOf x.entry) x (.va (rowBase ovf)) (ovf % 128 / 8) with
  | .wait s1 => s1
  | .bounds => s.copyFault x cVaultBounds
  | .foot r => s.copyFoot x r
  | .refused s1 => s1.copyFault x cVaultBounds
  | .granted s1 g =>
    s1.placed x t rest 0 (bytesRows (hdOvl x.header + 16 * g) 16 (routeEntry t s.cur e w 0xFFFFFFFF))

/-- The token goes into slot `g` of an expert: its row, padded with zeros, and the routing entry. -/
def State.putToken (s : State) (rd : RowReader) (x : CopyCmd) (t e w entry g : Nat) (rest : List (Nat × Nat)) : State :=
  match s.sourceElems rd x (x.tokenPos t) with
  | (s1, xs, .value _ _ st) =>
    let size := (2 * x.ws.c0 + 127) / 128 * 128
    s1.placed x t rest st (bytesRows (exBuf entry + g * size) size (packLanes 16 xs)
      ++ bytesRows (exRtl entry + 16 * g) 16 (routeEntry t s.cur e w g))
  | (s1, _, .fault c) => s1.copyFault x c
  | (s1, _, .foot r) => s1.copyFoot x r
  | (s1, _, _) => s1

/-- What a placement needs is at hand: the expert's entry; or what else the turn comes to. -/
inductive TokenReady where
  | ok (s : State) (entry : Nat)
  | stop (s : State)

/-- Whether the rows of token t and the entry of expert e have been read: the claim follows in a turn of its own. -/
def State.tokenReady (s : State) (rd : RowReader) (x : CopyCmd) (t e : Nat) : TokenReady :=
  match s.sourceElems rd x (x.tokenPos t) with
  | (s1, _, .value ..) =>
    (match s1.expertEntry rd x e with
     | (s2, .bits v) => if s2.readOne x then .stop s2 else .ok s2 v
     | (s2, .fault c) => .stop (s2.copyFault x c)
     | (s2, .foot r) => .stop (s2.copyFoot x r)
     | (s2, _) => .stop s2)
  | (s1, _, .fault c) => .stop (s1.copyFault x c)
  | (s1, _, .foot r) => .stop (s1.copyFoot x r)
  | (s1, _, .wait) => .stop s1

/-- The next claim of a command outside deterministic mode. -/
def State.placeFree (s : State) (rd : RowReader) (x : CopyCmd) (t e w : Nat) (rest : List (Nat × Nat)) : State :=
  match s.tokenReady rd x t e with
  | .stop s1 => s1
  | .ok s1 entry =>
    match s1.claimSlot (s.readerOf x.entry) x (exRow entry) (exEl entry) with
    | .wait s2 => s2
    | .bounds => s1.copyFault x cVaultBounds
    | .foot r => s1.copyFoot x r
    | .refused s2 => s2.overflow x t e w rest
    | .granted s2 g => s2.putToken rd x t e w entry g rest

/-! ## Deterministic mode (R354) -/

/-- The tokens that a plan sends to an expert. -/
def planCount (plan : List (List (Nat × Nat))) (e : Nat) : Nat :=
  plan.foldl (fun n l => n + (l.filter (fun p => p.1 == e)).length) 0

/-- Sends the batched claim of expert e, whose entry has been read (R354). -/
def State.sendBatch (s : State) (x : CopyCmd) (e entry : Nat) : State :=
  let (c0, m) := match s.launchAt x.entry.launch with | some y => (orC0 y.oprec, orM y.oprec) | none => (0, 1)
  let c : Contrib := { id := 0, die := 0, ctx := s.ctx, core := s.cur, launch := x.entry.launch,
                       dest := { loc := exRow entry, el := some (exEl entry) }, key := s.cur - c0, n := m,
                       payload := .batch (planCount x.plan e), reply := .command x.tag, reissue := x.entry.reissue }
  (s.contribute c).upd (fun d => d.updTag x.tag (fun y => { y with batch := y.batch ++ [(s.nextContrib, e)],
                                                                   sent := e + 1 == hdExperts x.header, cache := [] }))

/-- The next batched claim of a command: the expert's entry is read, then the claim is sent; the counter lies inside an open
phase (R244). -/
def State.batchNext (s : State) (rd : RowReader) (x : CopyCmd) : State :=
  let e := x.batch.length
  match s.expertEntry rd x e with
  | (s1, .bits v) =>
    (match s1.violations .c x.fps (s1.entryDet x.entry) true [exRow v] with
     | some r => s1.copyFoot x r
     | none => s1.sendBatch x e v)
  | (s1, .fault c) => s1.copyFault x c
  | (s1, .foot r) => s1.copyFoot x r
  | (s1, _) => s1

/-- The batched claims of a command that have been granted. -/
def State.batchGrants (s : State) (x : CopyCmd) : List Contrib :=
  s.contribs.filter (fun k => k.ctx == s.ctx && k.core == s.cur && k.grant.isSome && k.reply == .command x.tag)

/-- Takes the grants: the slots of each expert are those above the old count (R354). -/
def State.takeGrants (s : State) (x : CopyCmd) : State :=
  let gs := s.batchGrants x
  let slots := gs.foldl (fun (m : SMap (Nat × Nat)) y =>
    match x.batch.find? (fun b => b.1 == y.id), y.grant with
    | some (_, e), some (g, _) =>
      SMap.set (0, 0) m e (g.toNat % 2 ^ 32, if g = 0xFFFFFFFF then 0xFFFFFFFF else g.toNat % 2 ^ 32 + g.toNat / 2 ^ 32)
    | _, _ => m) x.slots
  { s with contribs := s.contribs.filter (fun y => !(gs.any (fun z => z.id == y.id))) }.upd (fun c =>
    c.updTag x.tag (fun y => { y with slots := slots }))

/-- Whether some batched claim of a command is still to be granted. -/
def State.batchesOwed (s : State) (x : CopyCmd) : Bool :=
  s.contribs.any (fun k => k.ctx == s.ctx && k.core == s.cur && k.grant.isNone && k.reply == .command x.tag)

/-- The next token of a command in deterministic mode, once its batches are granted. -/
def State.placeGranted (s : State) (rd : RowReader) (x : CopyCmd) (t e w : Nat) (rest : List (Nat × Nat)) : State :=
  match s.tokenReady rd x t e with
  | .stop s1 => s1
  | .ok s1 entry =>
    let (next, last) := SMap.get (0, 0) x.slots e
    if last ≤ next then s1.overflow x t e w rest
    else
      let s2 := s1.upd (fun c => c.updTag x.tag (fun z => { z with slots := SMap.set (0, 0) z.slots e (next + 1, last) }))
      s2.putToken rd x t e w entry next rest

/-- One turn of a `cdsp` in deterministic mode: scoring, the batches, the grants, then the tokens in order. -/
def State.dispatchDet (s : State) (rd : RowReader) (x : CopyCmd) : State :=
  if !x.sent then
    if x.plan.length < x.wlen then s.scoreNext rd x x.plan.length false else s.batchNext rd x
  else if s.batchesOwed x then s
  else if !(s.batchGrants x).isEmpty then s.takeGrants x
  else match x.plan with
  | ((e, w) :: rest) :: _ => s.placeGranted rd x x.next e w rest
  | _ => s

/-- One turn of a `cdsp`: the writes of the token at work, or its next claim. -/
def State.dispatch (s : State) (x : CopyCmd) (i : Nat) : State :=
  let r := s.readerOf x.entry
  let rd := copyReader x r
  match x.pend with
  | some p => s.writePend r x p i
  | none =>
    if s.entryDet x.entry then s.dispatchDet rd x
    else match x.plan with
    | ((e, w) :: rest) :: _ => s.placeFree rd x x.next e w rest
    | _ => s.scoreNext rd x x.next true

/-! ## The step of the copy engine -/

/-- ROW_TRANSFER: position `pos`, counted over the repetitions, of command `k` of core n goes on: it is read with those that
share its row, or a row of the positions already read is written. -/
def execRowTransfer (n k pos : Nat) (s : State) : Result :=
  match s.engineCtx n with
  | none => .next s
  | some ctx =>
    let s1 : State := { s with ctx := ctx, cur := n, eng := .c }
    match s1.core.copies[k]? with
    | none => .next s
    | some x =>
      if s1.core.copyStopped x || (x.pend.isNone && (x.isMoved pos || decide (x.total ≤ pos))) then .next s
      else if x.op = opCdsp then .next (if s1.mustFollow k x.next x.next x then s1 else s1.dispatch x pos)
      else .next (s1.moveAt k pos x)

end Sys2Proof.Machine
end

