-- ==== Sys2Proof/Machine/Insert.lean ====
section
/-! DEFINITION. Queue insertion by the control core (R55, R62, R107, R129) and page requests (R99, R322). -/

namespace Sys2Proof.Machine

/-! ## Accepting (R107, R121, R129) -/

/-- The insertion waits on a queue that cannot accept; the period of STALL_LIMIT counts from its first try (R129). -/
def State.waitInsert (s : State) (target : Nat) (e : Eng) : Result :=
  match s.core.waiting with
  | some (.insertion t f since) =>
    s.wait (.insertion target e (if t = target ∧ f = e then since else s.time))
  | _ => s.wait (.insertion target e s.time)

/-- An entry marked with the task, and the reissue mark, of the core that issues it. -/
def State.entryOf (s : State) (b : Body) : Entry :=
  { body := b, task := (match s.core.task with | some t => t.l | none => 0),
    reissue := (match s.core.task with | some t => t.reissue | none => false) }

/-- The entry is accepted at a queue of the issuing core, and recorded (R303). -/
def State.insertOwn (s : State) (e : Eng) (x : Entry) : State :=
  let s1 := s.accept s.ctx s.cur e x
  let q := s1.core.queue e
  match (q.hw ++ q.spill).getLast? with
  | some y => s1.noteEntry e y
  | none => s1

/-- Whether the matrix queue can take an entry that closes a batch: at most 63 closed batches are outstanding (R227). -/
def State.batchRoom (s : State) (e : Eng) (x : Entry) : Bool :=
  !(e == .m && x.commits) || s.core.openBatches.length < 63

/-- An insertion into one queue of the core. -/
def State.insert (s : State) (e : Eng) (x : Entry) (bytes : Nat) : Result :=
  if !s.storesDone 0 then s.wait .memory
  else if !s.canAccept s.ctx s.cur e x.slots || !s.batchRoom e x then s.waitInsert s.cur e
  else (s.insertOwn e x).done bytes

/-- `issue` (R55): one WORD entry. -/
def execIssue (e : BitVec 2) (wf sf : Ix6) (ar : BitVec 2) (scope : BitVec 3) (word : EWord) (s : State) : Result :=
  s.insert (engOf e.toNat) { s.entryOf (.word word) with wf := wf, sf := sf, ar := ar, scope := scope } 12

/-- A stream address: bits [6:0] are ignored (R107). -/
def streamRow (a : Word) : Word := a &&& ~~~0x7F#64

/-- `fork` (R107): one STREAM entry in each named queue, all together or none. -/
def execFork (k : BitVec 3) (a b c : Reg) (s : State) : Result :=
  let named := [(Eng.v, a), (Eng.m, b), (Eng.c, c)].filter (fun x => x.2 != 0)
  if !(SMap.get {} s.core.forks k.toNat).pending.isEmpty then s.wait .fork
  else if !s.storesDone 0 then s.wait .memory
  else match named.find? (fun x => !s.canAccept s.ctx s.cur x.1 2) with
  | some (e, _) => s.waitInsert s.cur e
  | none =>
    let need := (named.filter (fun x =>
      let q := s.core.queue x.1
      !(q.spill.isEmpty && q.hwSlots + 2 ≤ 32))).length
    if need ≠ 0 ∧ s.quotaLeft s.ctx < 2 * need then s.waitInsert s.cur ((named.headD (.v, 0)).1)
    else
      let s1 := s.upd (fun c => { c with forks := SMap.set {} c.forks k.toNat { pending := named.map (fun x => x.1) } })
      let s2 := named.foldl (fun (t : State) x =>
        t.insertOwn x.1 { t.entryOf (.stream (streamRow (t.core.rd x.2)) 0 0 0 0 0) with fork := some k.toNat }) s1
      s2.done 4

/-- The 16 bytes of an `enqs` parameter block: read as a load of the control core, through the page's translation. -/
def State.paramBlock (s : State) (va : Nat) : State × RowRead := s.readLoc s.controlReader (.va va)

/-- The four parameters in a row, for the 16 bytes at an address. -/
def paramOf (row : Row) (va k : Nat) : BitVec 32 := BitVec.ofNat 32 (rowElement row 4 (va % 128 / 16 * 4 + k))

/-- `enqs` (R107): one STREAM entry with its parameters; their read is a load of the control core, which follows the
earlier loads (R91, R194). -/
def execEnqs (a b : Reg) (e : BitVec 2) (s : State) : Result :=
  if e.toNat = 3 then s.illegal (.enqs a b e)
  else
    let eng := engOf e.toNat
    let row := streamRow (s.core.rd a)
    if !s.storesDone 0 then s.wait .memory
    else if !s.canAccept s.ctx s.cur eng 2 then s.waitInsert s.cur eng
    else if b ≠ 0 ∧ !s.core.lq.isEmpty then s.wait .memory
    else if b = 0 then (s.insertOwn eng (s.entryOf (.stream row 0 0 0 0 0))).done 4
    else
      let va := (s.core.rd b).toNat
      match s.settleRow va (s.paramBlock va) with
      | .wait r => r
      | .row s1 r =>
        let x := Body.stream row 0 (paramOf r.row va 0) (paramOf r.row va 1) (paramOf r.row va 2) (paramOf r.row va 3)
        let s2 := if r = .discarded then s1.setResid true false else s1.residOf r
        (s2.insertOwn eng (s2.entryOf x)).done 4

/-- Whether an entry for core n goes straight to the queue's ring: the core's bank F is not live (R209). -/
def State.toRing (s : State) (ctx n : Nat) : Bool := n != s.cur && !s.holdsF (s.coreAt ctx n) n

/-- `renq` (R107): one BLOCK entry in a queue of a core of the launch's span. -/
def execRenq (a b : Reg) (e : BitVec 2) (s : State) : Result :=
  if e.toNat = 3 then s.illegal (.renq a b e)
  else
    let eng := engOf e.toNat
    let target := (s.core.rd a).toNat % 256
    if !s.inSpan target then s.trap cBarrierScope ((firstWord (.renq a b e)).zeroExtend 64)
    else if !s.storesDone (scopeOf s.cur target) then s.wait .memory
    else if !(if s.toRing s.ctx target then decide (1 ≤ s.quotaLeft s.ctx) else s.canAccept s.ctx target eng 1) then
      s.waitInsert target eng
    else
      let x := s.entryOf (.block (s.core.rd b))
      let y := { x with task := (match (s.coreAt s.ctx target).task with | some t => t.l | none => x.task) }
      (s.noteLive.acceptFor s.ctx target eng y (s.core.launch.getD 0) (s.toRing s.ctx target)).done 4

/-! ## Page requests (R99, R322) -/

/-- The record of a page request (R322). -/
def requestRecord (va count seq core flag launch : Nat) : Nat :=
  va % 2 ^ 64 * 2 ^ 192 + count * 2 ^ 160 + seq % 2 ^ 32 * 2 ^ 128 + core % 256 * 2 ^ 120 + flag * 2 ^ 114
    + launch % 2 ^ 32 * 2 ^ 64 + seq / 1024 % 2

/-- `pgreq`: the request goes to the ring, which the context's record names by physical address (R314, R322). -/
def execPgreq (d a : Reg) (f : Ix6) (s : State) : Result :=
  let count := min (s.core.rd d).toNat 2048
  let s := s.noteLive
  if count = 0 then
    (match s.core.flagInc f.toNat 1 with
     | some c => (s.setCore c).done 4
     | none => s.trap cFlagOverflow (BitVec.ofNat 64 f.toNat))
  else
    let x := s.context s.ctx
    if 1024 ≤ x.reqs.length then s.wait .ring
    else
      let va := (s.core.rd a).toNat / 65536 * 65536
      let r := s.ctxRecord s.ctx
      let rec_ := requestRecord va count x.prqSeq s.cur f.toNat (s.logWho s.core).1
      let s1 := s.setContext s.ctx { x with prqSeq := x.prqSeq + 1, reqs := x.reqs ++ [{ seq := x.prqSeq, core := s.cur, flag := f.toNat }] }
      let s2 := s1.putPhys (recPrq r + 32 * (x.prqSeq % 1024)) 32 rec_
      (s2.event 2 s.ctx (Config.eventArg 2).toNat (recPrvec r)).done 4

end Sys2Proof.Machine
end

