-- ==== Sys2Proof/Machine/Scalar.lean ====
section
/-! DEFINITION. The scalar, branch and mask instructions of the control core (R72 to R83). -/

namespace Sys2Proof.Machine

/-! ## Results (R74) -/

/-- A signed 64-bit number's 128-bit product, high half. -/
def mulHighSigned (x y : Word) : Word := BitVec.ofInt 64 ((x.toInt * y.toInt) / 2 ^ 64)

/-- The unsigned product's high half. -/
def mulHighUnsigned (x y : Word) : Word := BitVec.ofNat 64 (x.toNat * y.toNat / 2 ^ 64)

/-- `div`: truncated toward zero; a zero divisor gives all ones. -/
def divSigned (x y : Word) : Word := if y = 0 then BitVec.allOnes 64 else x.sdiv y

/-- `rem`: x − y × div(x, y); a zero divisor gives x. -/
def remSigned (x y : Word) : Word := if y = 0 then x else x - y * divSigned x y

/-- `divn`: a zero divisor gives all ones. -/
def divUnsigned (x y : Word) : Word := if y = 0 then BitVec.allOnes 64 else x / y

/-- `remn`: a zero divisor gives x. -/
def remUnsigned (x y : Word) : Word := if y = 0 then x else x % y

/-- A truth value as a register value. -/
def truth (b : Bool) : Word := if b then 1 else 0

/-- Leading zeros; 64 for 0. -/
def leadingZeros (x : Word) : Word := if x = 0 then 64 else BitVec.ofNat 64 (63 - Nat.log2 x.toNat)

/-- Trailing zeros; 64 for 0. -/
def trailingZeros (x : Word) : Word := BitVec.ofNat 64 (lowestOne x.toNat 0 64)

/-- The width of a width code below 3: 8, 16 or 32. -/
def widthBits (w : BitVec 2) : Nat := 8 * 2 ^ w.toNat

/-- The low n bits sign-extended. -/
def signExtendLow (x : Word) (n : Nat) : Word := bitField x 0 n true

/-- The low n bits zero-extended. -/
def zeroExtendLow (x : Word) (n : Nat) : Word := bitField x 0 n false

/-! ## Register-register operations (R74) -/

/-- s[d] := f (s[a], s[b]). -/
def State.opr (s : State) (d a b : Reg) (f : Word → Word → Word) : Result :=
  s.writeReg d (f (s.core.rd a) (s.core.rd b)) 4

def execAdd (d a b : Reg) (s : State) : Result := s.opr d a b (· + ·)
def execSub (d a b : Reg) (s : State) : Result := s.opr d a b (· - ·)
def execAnd (d a b : Reg) (s : State) : Result := s.opr d a b (· &&& ·)
def execOr (d a b : Reg) (s : State) : Result := s.opr d a b (· ||| ·)
def execXor (d a b : Reg) (s : State) : Result := s.opr d a b (· ^^^ ·)
def execAndn (d a b : Reg) (s : State) : Result := s.opr d a b (fun x y => x &&& ~~~ y)
def execSll (d a b : Reg) (s : State) : Result := s.opr d a b (fun x y => x <<< shiftAmount y)
def execSrl (d a b : Reg) (s : State) : Result := s.opr d a b (fun x y => x >>> shiftAmount y)
def execSra (d a b : Reg) (s : State) : Result := s.opr d a b (fun x y => x.sshiftRight (shiftAmount y))
def execRol (d a b : Reg) (s : State) : Result := s.opr d a b (fun x y => x.rotateLeft (shiftAmount y))
def execMul (d a b : Reg) (s : State) : Result := s.opr d a b (· * ·)
def execMulh (d a b : Reg) (s : State) : Result := s.opr d a b mulHighSigned
def execMulhn (d a b : Reg) (s : State) : Result := s.opr d a b mulHighUnsigned
def execDiv (d a b : Reg) (s : State) : Result := s.opr d a b divSigned
def execDivn (d a b : Reg) (s : State) : Result := s.opr d a b divUnsigned
def execRem (d a b : Reg) (s : State) : Result := s.opr d a b remSigned
def execRemn (d a b : Reg) (s : State) : Result := s.opr d a b remUnsigned
def execMin (d a b : Reg) (s : State) : Result := s.opr d a b (fun x y => if x.slt y then x else y)
def execMax (d a b : Reg) (s : State) : Result := s.opr d a b (fun x y => if x.slt y then y else x)
def execMinn (d a b : Reg) (s : State) : Result := s.opr d a b (fun x y => if x.ult y then x else y)
def execMaxn (d a b : Reg) (s : State) : Result := s.opr d a b (fun x y => if x.ult y then y else x)
def execSlt (d a b : Reg) (s : State) : Result := s.opr d a b (fun x y => truth (x.slt y))
def execSltn (d a b : Reg) (s : State) : Result := s.opr d a b (fun x y => truth (x.ult y))
def execSeq (d a b : Reg) (s : State) : Result := s.opr d a b (fun x y => truth (x == y))
def execAddw (d a b : Reg) (s : State) : Result := s.opr d a b (fun x y => signExtendLow (x + y) 32)
def execSubw (d a b : Reg) (s : State) : Result := s.opr d a b (fun x y => signExtendLow (x - y) 32)
def execMulw (d a b : Reg) (s : State) : Result := s.opr d a b (fun x y => signExtendLow (x * y) 32)
def execShadd (d a b : Reg) (n : BitVec 5) (s : State) : Result := s.opr d a b (fun x y => (x <<< n.toNat) + y)

/-- s[d] := f (s[a]). -/
def State.opu (s : State) (d a : Reg) (f : Word → Word) : Result := s.writeReg d (f (s.core.rd a)) 4

def execClz (d a : Reg) (s : State) : Result := s.opu d a leadingZeros
def execCtz (d a : Reg) (s : State) : Result := s.opu d a trailingZeros
def execPop (d a : Reg) (s : State) : Result := s.opu d a (fun x => BitVec.ofNat 64 (countOnes x.toNat 64))
/-- A reserved width traps (R52, R74). -/
def execSext (d a : Reg) (w : BitVec 2) (s : State) : Result :=
  if w.toNat < 3 then s.opu d a (fun x => signExtendLow x (widthBits w)) else s.illegal (.sext d a w)
def execZext (d a : Reg) (w : BitVec 2) (s : State) : Result :=
  if w.toNat < 3 then s.opu d a (fun x => zeroExtendLow x (widthBits w)) else s.illegal (.zext d a w)
def execSel (d a b c : Reg) (s : State) : Result :=
  s.opr d a b (fun x y => if s.core.rd c = 0 then y else x)

/-! ## Immediate operations (R75, R76, R77) -/

def execAddi (d a : Reg) (i : BitVec 16) (s : State) : Result := s.opu d a (fun x => x + imm16 i)
def execAndi (d a : Reg) (i : BitVec 16) (s : State) : Result := s.opu d a (fun x => x &&& uimm16 i)
def execOri (d a : Reg) (i : BitVec 16) (s : State) : Result := s.opu d a (fun x => x ||| uimm16 i)
def execXori (d a : Reg) (i : BitVec 16) (s : State) : Result := s.opu d a (fun x => x ^^^ uimm16 i)
def execSlti (d a : Reg) (i : BitVec 16) (s : State) : Result := s.opu d a (fun x => truth (x.slt (imm16 i)))
def execSltin (d a : Reg) (i : BitVec 16) (s : State) : Result := s.opu d a (fun x => truth (x.ult (imm16 i)))
def execSlli (d a : Reg) (n : BitVec 6) (s : State) : Result := s.opu d a (fun x => x <<< n.toNat)
def execSrli (d a : Reg) (n : BitVec 6) (s : State) : Result := s.opu d a (fun x => x >>> n.toNat)
def execSrai (d a : Reg) (n : BitVec 6) (s : State) : Result := s.opu d a (fun x => x.sshiftRight n.toNat)
def execRoli (d a : Reg) (n : BitVec 6) (s : State) : Result := s.opu d a (fun x => x.rotateLeft n.toNat)
def execLui (d : Reg) (i : BitVec 16) (s : State) : Result := s.writeReg d (imm16 i <<< 16) 4
def execMuli (d a : Reg) (i : BitVec 16) (s : State) : Result := s.opu d a (fun x => x * imm16 i)
/-- A field that reaches past bit 63 traps (R76). -/
def execBfx (d a : Reg) (p n : BitVec 6) (s : State) : Result :=
  if p.toNat + n.toNat + 1 ≤ 64 then s.opu d a (fun x => bitField x p.toNat (n.toNat + 1) false)
  else s.illegal (.bfx d a p n)
def execBfxS (d a : Reg) (p n : BitVec 6) (s : State) : Result :=
  if p.toNat + n.toNat + 1 ≤ 64 then s.opu d a (fun x => bitField x p.toNat (n.toNat + 1) true)
  else s.illegal (.bfxS d a p n)
def execBfi (d a : Reg) (p n : BitVec 6) (s : State) : Result :=
  if p.toNat + n.toNat + 1 ≤ 64 then s.opu d a (fun x => insertField (s.core.rd d) x p.toNat (n.toNat + 1))
  else s.illegal (.bfi d a p n)
def execLi (d : Reg) (i : BitVec 32) (s : State) : Result := s.writeReg d (i.signExtend 64) 8
def execLih (d : Reg) (i : BitVec 32) (s : State) : Result :=
  s.writeReg d (i ++ (s.core.rd d).extractLsb' 0 32) 8

/-! ## Branches and jumps (R78 to R81) -/

/-- A conditional branch on two registers. -/
def State.branchIf (s : State) (a b : Reg) (o : BitVec 16) (p : Word → Word → Bool) : Result :=
  s.branch (p (s.core.rd a) (s.core.rd b)) (branchTarget s.core.pc o)

def execBeq (a b : Reg) (o : BitVec 16) (s : State) : Result := s.branchIf a b o (· == ·)
def execBne (a b : Reg) (o : BitVec 16) (s : State) : Result := s.branchIf a b o (· != ·)
def execBlt (a b : Reg) (o : BitVec 16) (s : State) : Result := s.branchIf a b o (fun x y => x.slt y)
def execBge (a b : Reg) (o : BitVec 16) (s : State) : Result := s.branchIf a b o (fun x y => !x.slt y)
def execBltn (a b : Reg) (o : BitVec 16) (s : State) : Result := s.branchIf a b o (fun x y => x.ult y)
def execBgen (a b : Reg) (o : BitVec 16) (s : State) : Result := s.branchIf a b o (fun x y => !x.ult y)

/-- A branch on the slot bits of a mask; a reserved width traps (R79). -/
def State.branchMask (s : State) (i : Instr) (k : MReg) (w : BitVec 3) (o : BitVec 16) (p : BitVec 128 → Bool) : Result :=
  if w.toNat < 3 then s.branch (p (slotBits (s.readMask k) w.toNat)) (branchTarget s.core.pc o) else s.illegal i

def execBmskAny (k : MReg) (w : BitVec 3) (o : BitVec 16) (s : State) : Result :=
  s.branchMask (.bmskAny k w o) k w o (fun x => x != 0)
def execBmskNone (k : MReg) (w : BitVec 3) (o : BitVec 16) (s : State) : Result :=
  s.branchMask (.bmskNone k w o) k w o (fun x => x == 0)
def execBmskAll (k : MReg) (w : BitVec 3) (o : BitVec 16) (s : State) : Result :=
  s.branchMask (.bmskAll k w o) k w o (fun x => x == slotBits (BitVec.allOnes 128) w.toNat)

/-- s0 is a reserved operand (R80). -/
def execLoop (a : Reg) (o : BitVec 16) (s : State) : Result :=
  if a = 0 then s.illegal (.loop a o)
  else
    let v := s.core.rd a - 1
    (s.upd (fun c => c.wr a v)).branch (v != 0) (branchTarget s.core.pc o)

def execJal (o : BitVec 26) (s : State) : Result :=
  (s.upd (fun c => c.wr 31 (c.pc + 4))).branch true (jumpTarget s.core.pc o)

/-- s[a] is read before s[d] is written (R81). -/
def execJalr (d a : Reg) (i : BitVec 16) (s : State) : Result :=
  let t := (s.core.rd a + imm16 i) &&& ~~~ 3#64
  (s.upd (fun c => c.wr d (c.pc + 4))).branch true t

/-! ## Mask instructions (R82) -/

def execMmov (d a : MReg) (s : State) : Result := s.writeMask d (s.readMask a)
def execMset (d : MReg) (a b : Reg) (s : State) : Result := s.writeMask d (s.core.rd b ++ s.core.rd a)
def execMlog (d a b : MReg) (t : BitVec 4) (s : State) : Result :=
  s.writeMask d (maskLogic t (s.readMask a) (s.readMask b))
def execMcntE (d : Reg) (a : MReg) (w : BitVec 3) (s : State) : Result :=
  if w.toNat < 3 then
    s.writeReg d (BitVec.ofNat 64 (countOnes (slotBits (s.readMask a) w.toNat).toNat 128)) 4
  else s.illegal (.mcntE d a w)
def execMcntLo (d : Reg) (a : MReg) (s : State) : Result := s.writeReg d ((s.readMask a).extractLsb' 0 64) 4
def execMcntHi (d : Reg) (a : MReg) (s : State) : Result := s.writeReg d ((s.readMask a).extractLsb' 64 64) 4
def execMcntFfs (d : Reg) (a : MReg) (w : BitVec 3) (s : State) : Result :=
  if w.toNat < 3 then
    s.writeReg d (BitVec.ofNat 64 (lowestOne (slotBits (s.readMask a) w.toNat).toNat 0 (slotCount w.toNat))) 4
  else s.illegal (.mcntFfs d a w)

end Sys2Proof.Machine
end

