-- ==== Sys2Proof/Machine/Sequencer.lean ====
section
/-! DEFINITION. The steps of a queue's entries (R56, R122, R123, R128) and the sequencer words (R127, R133, R135,
R136). -/

namespace Sys2Proof.Machine

/-- Makes engine e of core n the actor; nothing happens while the core is not served, or does not own bank F (R206). -/
def State.onEngine (s : State) (n : Nat) (e : Eng) (f : State → Result) : Result :=
  match s.engineCtx n with
  | none => .next s
  | some ctx => f { s with ctx := ctx, cur := n, eng := e }

/-! ## Entries (R122, R123) -/

/-- Whether an entry's AR holds an acquire, or a release. -/
def Entry.releases (x : Entry) : Bool := x.ar.getLsbD 1

/-- ENTRY_WAIT_SATISFIED: the head, or the block's head, takes its wait flag and begins; an inner entry that is illegal
(R62) takes its flag first (DESIGN CHOICE, log entry 83). -/
def execEntryWaitSatisfied (n : Nat) (e : Eng) (s : State) : Result :=
  s.onEngine n e (fun s =>
    if s.q.stopped.isSome then .next s
    else match s.q.act with
    | none =>
      (match s.core.beginHead e with
       | some c => .next (s.setCore c)
       | none => .next s)
    | some a =>
      if a.inner.isSome && !a.innerBegun then
        let b := { a with innerBegun := true, waitFlag := none, taken := false, fresh := true }
        (match if a.taken then some s.core else s.core.flagTake a.cur.wf.toNat with
         | some c => .next ((s.setCore c).setAct b)
         | none => .next (s.setAct { a with waitFlag := some a.cur.wf.toNat }))
      else .next s)

/-- Reads the 16-byte slots of a command block one by one (R123): an error while a row does not answer, and when it is
absent or poisoned; a slot in a discarded page reads zeros (R66). -/
def State.readSlots (s : State) (r : Reader) (addr : Nat) : Nat → State × Except RowRead (List Nat)
  | 0 => (s, .ok [])
  | n + 1 =>
    match s.readLoc r (.va addr) with
    | (s1, x) =>
      if !x.isOk && x != .discarded then (s1, .error x)
      else match State.readSlots s1 r (addr + 16) n with
      | (s2, .ok l) => (s2, .ok (rowElement x.row 16 (addr % 128 / 16) :: l))
      | bad => bad

/-- The body of an inner entry (R62): illegal where a reserved scope, slot or zero field stands. -/
def slotBody (x y : Nat) : Body :=
  let kind := bits x 63 60
  let ar := bits x 47 46
  let scope := bits x 45 43
  let slot := bits x 42 38
  if bits x 33 32 ≠ 0 ∨ (ar = 0 ∧ scope ≠ 0) ∨ 6 ≤ scope then .illegal
  else match kind with
  | 0 => if bits x 79 64 ≠ 0 ∨ slot ≠ 0 then .illegal else .word (BitVec.ofNat 48 (bits x 127 80))
  | 1 =>
    if bits x 127 121 ≠ 0 ∨ 20 < slot then .illegal
    else .stream (BitVec.ofNat 64 (bits x 120 71 * 128)) slot (BitVec.ofNat 32 (bits y 31 0)) (BitVec.ofNat 32 (bits y 63 32))
      (BitVec.ofNat 32 (bits y 95 64)) (BitVec.ofNat 32 (bits y 127 96))
  | _ => if bits x 127 64 ≠ 0 ∨ slot ≠ 0 then .illegal else .null

/-- The inner entry of a slot, with what the block's acceptance captured. -/
def slotEntry (block : Entry) (x y : Nat) : Entry :=
  { block with body := slotBody x y, wf := BitVec.ofNat 6 (bits x 59 54), sf := BitVec.ofNat 6 (bits x 53 48),
               ar := BitVec.ofNat 2 (bits x 47 46), scope := BitVec.ofNat 3 (bits x 45 43), fork := none, blockCopy := [] }

/-- The inner entries of a block's slots; none for a reserved kind, a BLOCK, or a stream without its second slot. -/
def innerEntries (block : Entry) : Nat → List Nat → Option (List Entry)
  | 0, _ => some []
  | _, [] => some []
  | fuel + 1, x :: xs =>
    match bits x 63 60, xs with
    | 1, y :: rest => (innerEntries block fuel rest).map (fun l => slotEntry block x y :: l)
    | 1, [] => none
    | 0, _ => (innerEntries block fuel xs).map (fun l => slotEntry block x 0 :: l)
    | 3, _ => (innerEntries block fuel xs).map (fun l => slotEntry block x 0 :: l)
    | _, _ => none

/-- The block's inner entries begin with the first. -/
def Active.open_ (a : Active) : List Entry → Active
  | [] => a
  | x :: rest => { Active.start x with entry := a.entry, inner := some rest, index := 0, land := a.land }

/-- BLOCK_ENTRY: the block is read once, and its inner entries become the body (R123). -/
def execBlockEntry (n : Nat) (e : Eng) (s : State) : Result :=
  s.onEngine n e (fun s =>
    let a := s.act
    match s.q.stopped.isSome, a.cur.body with
    | false, .block addr =>
      let base := addr.toNat / 16 * 16
      let start := fun (t : State) (slots : List Nat) =>
        match slots with
        | [] => t.wordFault cIllegalWord
        | h :: rest =>
          if h / 64 ≠ 0 ∨ h % 64 = 0 then t.wordFault cIllegalWord
          else match innerEntries a.entry 64 (rest.take (h % 64)) with
          | some (x :: xs) => .next (t.setAct (a.open_ (x :: xs)))
          | _ => t.wordFault cIllegalWord
      if !a.entry.blockCopy.isEmpty then start s (a.entry.blockCopy.map (fun x => x.toNat))
      else match s.readSlots (s.readerOf a.entry) base 1 with
      | (_, .error .wait) => s.wordWait
      | (t, .error _) => t.wordFault cIllegalWord
      | (t, .ok head) =>
        (match t.readSlots (t.readerOf a.entry) (base + 16) (head.headD 0 % 64) with
         | (_, .error .wait) => s.wordWait
         | (u, .error _) => u.wordFault cIllegalWord
         | (u, .ok rest) => start u (head ++ rest))
    | _, _ => .next s)

/-- NULL_ENTRY: nothing but its wait and its signal (R122). -/
def execNullEntry (n : Nat) (e : Eng) (s : State) : Result :=
  s.onEngine n e (fun s =>
    match s.q.stopped.isSome, s.q.act with
    | false, some a =>
      (match a.cur.body with
       | .null => .next (s.setQ (s.q.endEntry { a with land := max a.land s.now }))
       | _ => .next s)
    | _, _ => .next s)

/-- PROGRAM_ROW_FETCH: the row at the stream's position arrives, or faults PROGRAM_ROW (R56). -/
def execProgramRowFetch (n : Nat) (e : Eng) (s : State) : Result :=
  s.onEngine n e (fun s =>
    let a := s.act
    match s.q.stopped.isSome, a.cur.body with
    | false, .stream .. =>
      let (t, r) := s.readLoc (s.readerOf a.entry) (.va a.row.toNat)
      (match r with
       | .wait => .next s
       | .ok row =>
         if row.toNat / 2 ^ 1008 ≠ 0 then t.wordFault cProgramRow
         else .next (t.setAct { a with held := some (a.row, row), fresh := true })
       | _ => t.wordFault cProgramRow)
    | _, _ => .next s)

/-- Whether entry `k` in flight has nothing left to wait for: its effects, its block's inner entries, and, when it
releases, what the engine's earlier entries still have to perform (R122, R195). -/
def State.flightDone (s : State) (f : Flight) : Bool :=
  let t : Tag := { eng := s.eng, seq := f.entry.seq, inner := f.inner }
  let block := match f.entry.body with | .block _ => true | _ => false
  s.effectsDone t f.doneAt && (!f.entry.releases || s.releaseDone t)
    && (!(f.inner.isNone && block) || s.q.flight.all (fun g => !(g.inner.isSome && g.entry.seq == f.entry.seq)))

/-- Removes the k-th element of a list. -/
def dropAt {α : Type} (l : List α) (k : Nat) : List α := l.take k ++ l.drop (k + 1)

/-- The stream of a fork has ended, its effects performed (R127). -/
def Core.markFork (c : Core) (x : Entry) (e : Eng) : Core :=
  match x.fork with
  | some k => { c with forks := SMap.set {} c.forks k { pending := (SMap.get {} c.forks k).pending.filter (fun g => g != e) } }
  | none => c

/-- ENTRY_COMPLETE: entry `k` in flight of the queue releases, signals its flag and is complete (R122). -/
def execEntryComplete (n : Nat) (e : Eng) (k : Nat) (s : State) : Result :=
  s.onEngine n e (fun s =>
    match s.q.flight[k]? with
    | none => .next s
    | some f =>
      if !s.flightDone f || (s.q.stopped.any (fun x => x.seq == f.entry.seq)) then .next s
      else
        let s1 := s.upd (fun c => c.markFork f.entry e)
        match s1.core.flagInc f.entry.sf.toNat 1 with
        | none =>
          let done := if e = .c then SMap.get {} s1.core.ended f.entry.seq else {}
          .next (s1.engineFault e f.entry cFlagOverflow { rep := done.rep, count := done.count })
        | some c =>
          let s2 := s1.setCore c
          let s3 := (s2.setQ { s2.q with flight := dropAt s2.q.flight k }).upd (fun c =>
            if f.inner.isNone ∧ e = .c then { c with ended := SMap.set {} c.ended f.entry.seq {} } else c)
          .next (if f.inner.isNone ∧ e = .c then s3.releaseClaims s.cur f.entry.seq else s3))

/-- SADDLEBAG_RETURN: a spilled entry returns to freed hardware slots, and its quota is free again (R128). -/
def execSaddlebagReturn (n : Nat) (e : Eng) (s : State) : Result :=
  s.onEngine n e (fun s =>
    match s.q.unspill with
    | some q => .next (s.setQ q)
    | none => .next s)

/-! ## Sequencer words (R135) -/

/-- A sequencer word that takes one issue cycle and is done. -/
def State.seqDone (s : State) (sc : BitVec 4) : Result := s.wordDone s.issueAt s.issueAt sc.toNat s.issueAt

/-- A sequencer word whose wait has ended now (R130). -/
def State.seqNow (s : State) (sc : BitVec 4) : Result := s.wordDone s.issueNow s.issueNow sc.toNat s.issueNow

def execSnop (sc : BitVec 4) (rc : BitVec 10) (s : State) : Result :=
  s.wordDone s.issueAt (s.issueAt + rc.toNat) sc.toNat (s.issueAt + rc.toNat)

/-- `swait`: the count is taken now, at the end of the wait, or has been taken by a cycle (R125). -/
def execSwait (f : Ix6) (sc : BitVec 4) (s : State) : Result :=
  if s.act.taken then s.seqNow sc
  else match s.core.flagTake f.toNat with
  | some c => (s.setCore c).seqNow sc
  | none => s.wordWait (some f.toNat)

/-- `ssig`: a release at CORE (R195), then the signal. -/
def execSsig (f : Ix6) (sc : BitVec 4) (s : State) : Result :=
  let s := s.landEarlier
  if !s.earlierReleased then s.wordWait
  else match s.core.flagInc f.toNat 1 with
  | some c => (s.setCore c).seqNow sc
  | none => s.wordFault cFlagOverflow

/-- The count of an `sloop` (R60, R135). -/
def Active.loopCount (a : Active) (src : BitVec 3) (n : BitVec 16) : Nat :=
  match a.cur.body with
  | .stream _ _ p0 p1 p2 p3 =>
    (match src.toNat with
     | 4 => p0.toNat
     | 5 => p1.toNat
     | 6 => p2.toNat
     | 7 => p3.toNat
     | _ => n.toNat)
  | _ => n.toNat

def execSloop (src : BitVec 3) (n : BitVec 16) (sc : BitVec 4) (s : State) : Result :=
  let a := s.act
  if !s.inStream || 4 ≤ a.loops.length || (1 ≤ src.toNat && src.toNat ≤ 3) then s.illegalWord 1
  else
    let count := a.loopCount src n
    let next := a.nextPos
    if count = 0 then (s.setAct { a with skip := 1 }).seqDone sc
    else (s.setAct { a with loops := { count := count, row := next.row, slot := next.slot } :: a.loops }).seqDone sc

def execSendl (sc : BitVec 4) (s : State) : Result :=
  let a := s.act
  if !s.inStream then s.illegalWord 1
  else match a.loops with
  | [] => s.illegalWord 1
  | l :: rest =>
    if l.count ≤ 1 then (s.setAct { a with loops := rest }).seqDone sc
    else
      let t := s.issueAt
      let s1 := s.passTo t 1 t
      let b := { s1.act with loops := { l with count := l.count - 1 } :: rest, row := l.row, slot := l.slot, fresh := false,
                             waitFlag := none, taken := false, rep := 0 }
      .next (s1.setQ { s1.q with readyAt := t + 1 + sc.toNat, act := some b })

/-- Whether every vault access of the engine's earlier words has performed. -/
def State.accessesPerformed (s : State) : Bool :=
  let c := s.core
  match s.eng with
  | .v => c.vloads.isEmpty
  | .m => c.mrows.isEmpty
  | .c => c.copies.isEmpty

/-- The place of a request to open or to close a phase among all of them (R242): by its cycle; within one, closes first,
then by logical core and engine. -/
def State.phaseRank (s : State) (opens : Bool) : Nat :=
  ((s.issueAt * 2 + (if opens then 1 else 0)) * 512 + s.cur) * 4 + engNum s.eng

/-- The place of the request that engine `e` of core n makes with its next word; none where the word makes none, or waits. -/
def State.phaseRequest (s : State) (n : Nat) (e : Eng) : Option Nat :=
  match s.readyEngine n e with
  | (some (.spho k _), t) => if t.openPhase k.toNat = .wait then none else some (t.phaseRank true)
  | (some (.sphc k _), t) =>
    if t.q.phases.contains k.toNat && !t.accessesPerformed then none else some (t.phaseRank false)
  | _ => none

/-- Whether no other engine of the package makes a request that the checkers apply before the current one. -/
def State.phaseTurn (s : State) (opens : Bool) : Bool :=
  let own := s.phaseRank opens
  (s.cores.filter (fun x => x.1 % 512 < 256 && s.served (x.1 / 512) (x.1 % 512))).all (fun x =>
    [Eng.v, Eng.m, Eng.c].all (fun e =>
      (x.1 == coreKey s.ctx s.cur && e == s.eng) || (match s.phaseRequest (x.1 % 512) e with
        | some r => own ≤ r
        | none => true)))

/-- `spho` (R136, R242, R243): it stays where it is while another engine's request comes before its own. -/
def execSpho (k : Ix6) (sc : BitVec 4) (s : State) : Result :=
  if !s.phaseTurn true then .next s else
  match s.openPhase k.toNat with
  | .wait => s.wordWait
  | .fault code r =>
    if r = 0 then s.wordFault code else .next (s.footFault s.eng s.act.entry code r {})
  | .opened ps =>
    ({ s with phases := s.phases ++ ps }.setQ { s.q with phases := s.q.phases ++ [k.toNat] }).seqDone sc

/-- `sphc` (R136, R242). -/
def execSphc (k : Ix6) (sc : BitVec 4) (s : State) : Result :=
  if !s.phaseTurn false then .next s
  else if !s.q.phases.contains k.toNat then
    .next (s.footFault s.eng s.act.entry cFootprintViolation (footRecord 0 0xFF 3 0 k.toNat 0 0xFF 0) {})
  else if !s.accessesPerformed then s.wordWait
  else if s.eng = .m ∧ ¬(s.core.sqa.isEmpty ∧ s.core.sqb.isEmpty) then s.wordFault cScaleImbalance
  else
    let own := fun (p : Phase) => p.ctx == s.ctx && p.core == s.cur && p.eng == s.eng && p.fp == k.toNat
    ({ s with phases := s.phases.filter (fun p => !own p) }.setQ { s.q with phases := removeNat s.q.phases k.toNat }).seqDone sc

/-- `sacq`: every wait of the stream that is satisfied has acquired; reads of the model see every performed write. -/
def execSacq (_ : BitVec 3) (sc : BitVec 4) (s : State) : Result := s.seqDone sc

/-- `srel`: waits until every effect of the engine's earlier words is performed (R135, R195). -/
def execSrel (_ : BitVec 3) (sc : BitVec 4) (s : State) : Result :=
  let s := s.landEarlier
  if s.earlierReleased then s.seqNow sc else s.wordWait

/-- An engine's crossing stands before the crossings that wait for its own entry; entries behind those stay behind
them. -/
def Core.crossFirst (c : Core) (mode : Bool) (who : Nat) : Core :=
  let bump := fun (q : Queue) =>
    let f := fun (x : Entry) => if c.epoch < x.epoch then { x with epoch := x.epoch + 1 } else x
    { q with hw := q.hw.map f, spill := q.spill.map f }
  { c with crossing := (mode, c.stamp, who) :: c.crossing, qv := bump c.qv, qm := bump c.qm, qc := bump c.qc }

/-- `smode` (R133): at once when the mode is in force; else it waits for its crossing. -/
def State.crossEngine (s : State) (mode : Bool) (sc : BitVec 4) : Result :=
  let s := s.landEarlier
  let a := s.act
  let who := 1 + engNum s.eng
  if a.count = 1 then (if s.core.crossing.any (fun x => x.2.2 == who) then s.wordWait else s.seqNow sc)
  else if s.core.interlock = mode then s.seqDone sc
  else if !s.earlierDone then s.wordWait
  else ((s.upd (fun c => c.crossFirst mode who)).setAct { a with count := 1 }).wordWait

def execSmodeExposed (sc : BitVec 4) (s : State) : Result := s.crossEngine false sc
def execSmodeInterlock (sc : BitVec 4) (s : State) : Result := s.crossEngine true sc

def execSend (k : BitVec 3) (sc : BitVec 4) (s : State) : Result :=
  let a := s.act
  if !s.inStream || !a.loops.isEmpty then s.illegalWord 1
  else match a.cur.fork with
  | some f => if f = k.toNat then s.streamDone s.issueAt sc.toNat else s.illegalWord 1
  | none => s.streamDone s.issueAt sc.toNat

end Sys2Proof.Machine
end

