-- ==== Sys2Proof/Machine/Skiver.lean ====
section
/-! DEFINITION. The Skiver (R274, R276, R278, R279): converting the elements of a patch, and the end of a conversion. -/

namespace Sys2Proof.Machine

/-- The elements of patch p: logical linear indices (R273); of an N:M-sparse tensor, the values that it stores for them. -/
def Tensor.patchElements (t : Tensor) (p : Nat) : List Nat :=
  let t0 := ceilDiv t.d0 32
  let t1 := ceilDiv t.d1 32
  let pl := p / (t0 * t1)
  let x1 := p / t0 % t1 * 32
  (List.range 32).flatMap (fun c => if t.d1 ≤ x1 + c then [] else
    (t.storedOf (p % t0)).map (fun a => a + t.stored.d0 * (x1 + c + t.d1 * pl)))

/-- The Skiver reads a row: an uncorrectable one is logged, with no logical core named. -/
def State.skiverRead (s : State) (l : Loc) : State × RowRead :=
  let (s1, t) := s.resolve s.ctx s.cur l false
  match t with
  | .spot p =>
    if s1.poisoned p then
      let u := { s1.correct p with cur := 0xFF }.logPoison {} l false
      ({ u with cur := s1.cur }, .poisoned)
    else (s1.correct p, .ok (s1.rowAt p))
  | _ => s1.readTarget {} l t

/-- The parts of an element at a backing; none beyond a designator's range. -/
def Tensor.parts (t : Tensor) (b : Backing) (own tag q : Nat) : List Bits :=
  (placeRuns b own (t.stored.runs tag q)).getD []

/-- Writes a number over the rows of an element; an error names what a row that cannot be written does. -/
def State.writeParts (s : State) (ps : List Bits) (v : Nat) : List Loc → State × Except RowRead Unit
  | [] => (s, .ok ())
  | l :: ls =>
    let (d, bytes, ones) := scatterBits l ps v
    match s.writeRowBits l d bytes ones with
    | (u, .ok) => State.writeParts u ps v ls
    | (u, .wait) => (u, .error .wait)
    | (u, _) => (u, .error .absent)

/-- Copies one element from the old location to the new one (R274). -/
def State.moveElement (s : State) (t : Tensor) (c : Conv) (own q : Nat) : State × Except RowRead Unit :=
  match s.readBits State.skiverRead (t.parts c.oldBack own c.otag.toNat q) with
  | (s1, .error e) => (s1, .error e)
  | (s1, .ok v) =>
    let ps := t.parts c.newBack own c.ntag.toNat q
    s1.writeParts ps v (rowsOf ps)

/-- Poisons every word of the rows of a patch at the new location (R278). -/
def State.poisonPatch (s : State) (t : Tensor) (c : Conv) (own : Nat) (qs : List Nat) : State :=
  (rowsOf (qs.flatMap (fun q => t.parts c.newBack own c.ntag.toNat q))).foldl (fun u l =>
    match u.resolve u.ctx u.cur l true with
    | (v, .spot p) => v.poisonRow ⟨p.vault, rowBase p.addr⟩
    | (v, _) => v) s

/-- Replaces a conversion record. -/
def State.setConv (s : State) (ctx rec : Nat) (c : Conv) : State :=
  let x := s.context ctx
  s.setContext ctx { x with conv := SMap.put x.conv rec c }

/-- Whether patch p may go on: it is in progress, or it is the lowest one neither converted nor in progress or one that a
write demands, and fewer than four are in progress (R274). A context that has stopped finishes those in progress (R279). -/
def Conv.mayMove (c : Conv) (p : Nat) (running : Bool) : Bool :=
  c.serial != 0 && (c.works p || (running && c.work.length < 4 && !c.done.contains p && decide (p < c.pcount)
    && (c.want.contains p || (List.range p).all (fun k => c.done.contains k || c.works k))))

/-- The record after `k` elements of patch p have moved, or after all of them. -/
def Conv.moved (c : Conv) (p k : Nat) (last : Bool) : Conv :=
  let w := c.work.filter (fun x => x.1 != p)
  if last then { c with work := w, want := removeNat c.want p, done := insertNat c.done p, pdone := c.pdone + 1 }
  else { c with work := (p, k) :: w }

/-- SKIVER_PATCH: the next element of patch p of conversion record `rec` of a context moves; with the last one the patch is
converted (R274). A patch whose rows are lost is poisoned (R278). -/
def execSkiverPatch (ctx rec p : Nat) (s : State) : Result :=
  let c := SMap.get {} (s.context ctx).conv rec
  if !c.mayMove p (s.context ctx).running then .next s
  else
    let t := tensorOf c.image
    let own := quadOf c.lcore
    let qs := t.patchElements p
    let k := ((c.work.find? (fun x => x.1 == p)).map (fun x => x.2)).getD 0
    let back := fun (u : State) => { u with ctx := s.ctx, cur := s.cur }
    let s0 : State := { s with ctx := ctx, cur := 32 * c.die }
    match qs[k]? with
    | none => .next (back (s0.setConv ctx rec (c.moved p k true)))
    | some q =>
      match s0.moveElement t c own q with
      | (s1, .ok _) => .next (back (s1.setConv ctx rec (c.moved p (k + 1) (qs.length ≤ k + 1))))
      | (s1, .error .wait) => .next (back (s1.setConv ctx rec (c.moved p k false)))
      | (s1, .error _) =>
        let s2 := s1.poisonPatch t c own qs
        let s3 := s2.setConv ctx rec { c.moved p k true with ppois := c.ppois + 1 }
        .next (back (s3.logRecord ctx 0x06 0 (c.key.toNat * 2 ^ 64 + p % 2 ^ 32 * 2 ^ 32) 0xFF 3 0 0 []))

/-- Whether engine work goes through a conversion: the repetition at work, or one that waits for a patch (R276). -/
def Queue.through (q : Queue) (serial : Nat) : Bool :=
  match q.act with
  | some a => a.stuck.contains serial || (match a.part with | some p => p.conv.contains serial | none => false)
  | none => false

/-- Whether every access that went through a conversion's record has performed, on every core of the context: the reads
redirected to the old location, and those that waited on a patch (R276). -/
def State.redirectsDone (s : State) (ctx : Nat) (c : Conv) : Bool :=
  s.cores.all (fun (x : Nat × Core) => x.1 / 512 != ctx
    || (x.2.vloads.all (fun v => !v.conv.contains c.serial) && x.2.mrows.all (fun v => !v.conv.contains c.serial)
        && x.2.copies.all (fun v => v.stuck.all (fun y => y.2 != c.serial))
        && [Eng.v, Eng.m, Eng.c].all (fun e => !(x.2.queue e).through c.serial)))

/-- The descriptor goes on without its conversion: CONV is 0 in the table entry, or in the directory. -/
def State.clearConv (s : State) (ctx : Nat) (c : Conv) (conv : Nat) : State :=
  if c.key ≠ 0 then
    { s with dir := s.dir.map (fun e => if e.ctx == ctx && e.conv.toNat == conv then { e with conv := 0 } else e) }
  else
    let d := s.coreAt ctx c.lcore
    let img := SMap.get 0 d.t c.tix
    if (tensorOf img).conv = conv then
      s.setCoreAt ctx c.lcore { d with t := SMap.set 0 d.t c.tix (BitVec.ofNat 512 (img.toNat - conv * 2 ^ 384)) }
    else s

/-- CONVERSION_COMPLETE: after the last patch, the four acts of R276. -/
def execConversionComplete (ctx rec : Nat) (s : State) : Result :=
  let x := s.context ctx
  let c := SMap.get {} x.conv rec
  if c.serial = 0 ∨ !x.running ∨ c.done.length < c.pcount ∨ !s.redirectsDone ctx c then .next s
  else
    let s1 := s.clearConv ctx c (rec + c.serial % 2 ^ 60 * 16)
    let s2 := s1.setContext ctx { s1.context ctx with conv := SMap.erase (s1.context ctx).conv rec }
    match (s2.coreAt ctx c.lcore).flagInc c.flag.toNat 1 with
    | some d => .next (s2.setCoreAt ctx c.lcore d)
    | none => .next (s2.logRecord ctx 0x05 0 (c.key.toNat * 2 ^ 64 + c.flag.toNat * 2 ^ 32) c.lcore 3 0 0 [])

end Sys2Proof.Machine
end

