-- ==== Sys2Proof/Machine/Vector.lean ====
section
/-! DEFINITION. Vector words that compute on registers (R142 to R151, R158 to R165). -/

namespace Sys2Proof.Machine

/-! ## Floating arithmetic (R142, R143) -/

/-- A binary or fused operation: the exact value of its result from the values of x, y and z. -/
def State.floatOp (s : State) (o : VWord) (n lat : Nat) (f : Val → Val → Val → Val) : Result :=
  let g := o.fmt
  s.laneOp o n lat (fun x y z => g.roundTo rne (f (g.value x) (g.value y) (g.value z)))

def execVadd (o : VWord) (s : State) : Result := s.floatOp o 2 4 (fun x y _ => exactSumVal [x, y])
def execVsub (o : VWord) (s : State) : Result := s.floatOp o 2 4 (fun x y _ => exactSumVal [x, y.neg])
def execVmul (o : VWord) (s : State) : Result := s.floatOp o 2 4 (fun x y _ => exactSumVal [x.mul y])
def execVfma (o : VWord) (s : State) : Result := s.floatOp o 3 4 (fun x y z => exactSumVal [x.mul y, z])
def execVfms (o : VWord) (s : State) : Result := s.floatOp o 3 4 (fun x y z => exactSumVal [x.mul y, z.neg])
def execVfnm (o : VWord) (s : State) : Result := s.floatOp o 3 4 (fun x y z => exactSumVal [(x.mul y).neg, z])
def execVmin (o : VWord) (s : State) : Result := s.floatOp o 2 2 (fun x y _ => Val.minNode x y)
def execVmax (o : VWord) (s : State) : Result := s.floatOp o 2 2 (fun x y _ => Val.maxNode x y)

/-- 1/x (R143). -/
def fRcp : Val → Val
  | .nan => .nan
  | .inf s => .zero s
  | .zero s => .inf s
  | .num x => .num (Num.div { m := 1 } x)

/-- 1/√x (R143). -/
def fRsq : Val → Val
  | .nan => .nan
  | .inf s => if s then .nan else .zero false
  | .zero s => .inf s
  | .num x => if x.m < 0 then .nan else .num x.rsqrt

/-- √x (R143). -/
def fSqrt : Val → Val
  | .nan => .nan
  | .inf s => if s then .nan else .inf false
  | .zero s => .zero s
  | .num x => if x.m < 0 then .nan else .num x.sqrt

/-- 2^x (R143). -/
def fExp2 : Val → Val
  | .nan => .nan
  | .inf s => if s then .zero false else .inf false
  | .zero _ => .num { m := 1 }
  | .num x => .num x.exp2

/-- log2 x (R143). -/
def fLog2 : Val → Val
  | .nan => .nan
  | .inf s => if s then .nan else .inf false
  | .zero _ => .inf true
  | .num x => if x.m < 0 then .nan else Val.ofNum x.logTwo

/-- tanh x (R143). -/
def fTanh : Val → Val
  | .nan => .nan
  | .inf s => .num { m := if s then -1 else 1 }
  | .zero s => .zero s
  | .num x => .num x.tanh

def execVabs (o : VWord) (s : State) : Result := s.floatOp o 1 2 (fun x _ _ => x.abs)
def execVneg (o : VWord) (s : State) : Result := s.floatOp o 1 2 (fun x _ _ => x.neg)
def execVrcp (o : VWord) (s : State) : Result := s.floatOp o 1 12 (fun x _ _ => fRcp x)
def execVrsq (o : VWord) (s : State) : Result := s.floatOp o 1 12 (fun x _ _ => fRsq x)
def execVsqrt (o : VWord) (s : State) : Result := s.floatOp o 1 12 (fun x _ _ => fSqrt x)
def execVexp2 (o : VWord) (s : State) : Result := s.floatOp o 1 12 (fun x _ _ => fExp2 x)
def execVlog2 (o : VWord) (s : State) : Result := s.floatOp o 1 12 (fun x _ _ => fLog2 x)
def execVtanh (o : VWord) (s : State) : Result := s.floatOp o 1 12 (fun x _ _ => fTanh x)

/-! ## Integer and logic arithmetic (R144) -/

/-- An operation that wraps, on the values of x, y and z. -/
def State.wrapOp (s : State) (o : VWord) (n lat : Nat) (f : Int → Int → Int → Int) : Result :=
  let g := o.fmt
  s.laneOp o n lat (fun x y z => intCode (tyBits o.ty) (f (intValue g x) (intValue g y) (intValue g z)))

/-- An operation that saturates. -/
def State.satOp (s : State) (o : VWord) (n : Nat) (f : Int → Int → Int) : Result :=
  let g := o.fmt
  s.laneOp o n 2 (fun x y _ => intCode (tyBits o.ty) (clampInt g.range.1 g.range.2 (f (intValue g x) (intValue g y))))

/-- A right shift with copies of the sign; of N8 with zeros. -/
def shiftRight (g : Fmt) (w x n : Nat) : Nat := intCode w (intValue g x / 2 ^ min n w)

def execViadd (o : VWord) (s : State) : Result := s.wrapOp o 2 2 (fun x y _ => x + y)
def execVisub (o : VWord) (s : State) : Result := s.wrapOp o 2 2 (fun x y _ => x - y)
def execVimul (o : VWord) (s : State) : Result := s.wrapOp o 2 3 (fun x y _ => x * y)
def execVimulh (o : VWord) (s : State) : Result := s.wrapOp o 2 3 (fun x y _ => x * y / 2 ^ tyBits o.ty)
def execVshl (o : VWord) (s : State) : Result :=
  s.laneOp o 2 2 (fun x n _ => if tyBits o.ty ≤ n then 0 else x * 2 ^ n % 2 ^ tyBits o.ty)
def execVshr (o : VWord) (s : State) : Result := s.laneOp o 2 2 (fun x n _ => if tyBits o.ty ≤ n then 0 else x / 2 ^ n)
def execVsra (o : VWord) (s : State) : Result := s.laneOp o 2 2 (fun x n _ => shiftRight o.fmt (tyBits o.ty) x n)
def execVand (o : VWord) (s : State) : Result := s.laneOp o 2 2 (fun x y _ => Nat.land x y)
def execVor (o : VWord) (s : State) : Result := s.laneOp o 2 2 (fun x y _ => Nat.lor x y)
def execVxor (o : VWord) (s : State) : Result := s.laneOp o 2 2 (fun x y _ => Nat.xor x y)
def execVimin (o : VWord) (s : State) : Result := s.wrapOp o 2 2 (fun x y _ => if y < x then y else x)
def execVimax (o : VWord) (s : State) : Result := s.wrapOp o 2 2 (fun x y _ => if x < y then y else x)
def execVsadd (o : VWord) (s : State) : Result := s.satOp o 2 (fun x y => x + y)
def execVssub (o : VWord) (s : State) : Result := s.satOp o 2 (fun x y => x - y)
def execViabs (o : VWord) (s : State) : Result := s.satOp o 1 (fun x _ => if x < 0 then -x else x)
def execVimac (o : VWord) (s : State) : Result := s.wrapOp o 3 4 (fun x y z => z + x * y)

/-! ## Compares, classify, select and moves (R145 to R147) -/

/-- A compare of the values of x and y (R145). -/
def State.compare (s : State) (o : VWord) (p : Val → Val → Bool) : Result :=
  let g := o.fmt
  s.laneTest o 2 (fun x y => p (g.value x) (g.value y))

def execVceq (o : VWord) (s : State) : Result := s.compare o (fun x y => x.eqv y)
def execVcne (o : VWord) (s : State) : Result := s.compare o (fun x y => !x.eqv y)
def execVclt (o : VWord) (s : State) : Result := s.compare o (fun x y => x.lt y)
def execVcle (o : VWord) (s : State) : Result := s.compare o (fun x y => x.lt y || x.eqv y)
def execVcun (o : VWord) (s : State) : Result := s.compare o (fun x y => x.isNan || y.isNan)

/-- The class bit of a floating code (R146): 0 infinity, 1 normal, 2 subnormal, 3 zero, 4 NaN. -/
def FloatFmt.classOf (g : FloatFmt) (code : Nat) : Nat :=
  match g.value code with
  | .nan => 4
  | .inf _ => 0
  | .zero _ => 3
  | .num _ => if code % 2 ^ (g.width - 1) < 2 ^ g.mant then 2 else 1

def execVclass (o : VWord) (s : State) : Result :=
  match o.fmt.float with
  | some g =>
    s.laneTest o 1 (fun x _ => o.b.getLsbD (g.classOf x) && (tyE8 o.ty || !o.variant || 2 ^ (g.width - 1) ≤ x))
  | none => s.illegalWord (s.left o.rc)

def execVsel (o : VWord) (s : State) : Result :=
  let r := s.act.rep
  let w := tyBits o.ty
  let e := tyLanes o.ty
  s.regRep o.rc o.sc { reads := [o.rA r, o.rB r], readM := [o.mask.toNat], writes := [o.rD r], lat := 2 } (fun c t =>
    let m := c.maskAt t o.mask.toNat
    let x := c.vregAt t (o.rA r)
    let y := c.vregAt t (o.rB r)
    { regs := [(o.rD r, packRow w e (fun j => if m.getLsbD j then lane w x j else lane w y j), BitVec.allOnes 128)] })

def execVmov (o : VWord) (s : State) : Result := s.laneOp o 1 2 (fun x _ _ => x)

/-- A predicated write of lanes that depend on the whole of A (R147, R158, R159). -/
def State.permute (s : State) (o : VWord) (lat : Nat) (reads : List Nat) (f : Core → Nat → Nat → Nat) : Result :=
  let r := s.act.rep
  let w := tyBits o.ty
  let e := tyLanes o.ty
  s.regRep o.rc o.sc { reads := reads, readM := [o.mask.toNat], writes := [o.rD r], lat := lat } (fun c t =>
    { regs := [(o.rD r, packRow w e (f c t), laneMask w e (c.maskAt t o.mask.toNat).getLsbD)] })

def execVbcst (o : VWord) (s : State) : Result :=
  let r := s.act.rep
  let k := if tyE8 o.ty then o.b.toNat % 32 else o.b.toNat
  s.permute o 2 [o.rA r] (fun c t _ => lane (tyBits o.ty) (c.vregAt t (o.rA r)) k)

def execViota (o : VWord) (s : State) : Result :=
  s.permute o 2 [] (fun _ _ j => (j + tyLanes o.ty * s.act.rep) % 2 ^ tyBits o.ty)

/-! ## Conversions and quantisation (R148 to R151) -/

end Sys2Proof.Machine
namespace Sys2Proof
open Machine

/-- The source format of `vcvt`. -/
def VWord.srcFmt (o : VWord) : Fmt := tyFmt o.srcTy (if tyE8 o.ty then !o.variant else o.variant)

end Sys2Proof
namespace Sys2Proof.Machine

def execVcvt (o : VWord) (s : State) : Result :=
  let r := s.act.rep
  let ws := tyBits o.srcTy
  let wd := tyBits o.ty
  let es := tyLanes o.srcTy
  let ed := tyLanes o.ty
  -- where the destination lanes begin, how many they are, and the first source lane
  let first := if es < ed then o.part * es else 0
  let count := min es ed
  let src := if ed < es then o.part * ed else 0
  s.regRep o.rc o.sc { reads := [o.rA r], writes := [o.rD r], lat := 4 } (fun c t =>
    let x := c.vregAt t (o.rA r)
    let conv := fun (j : Nat) =>
      o.fmt.roundTo (rndOf o.mask s.act.entry.seed (j + 128 * r)) (o.srcFmt.value (lane ws x (src + (j - first))))
    let inside := fun (j : Nat) => first ≤ j && j < first + count
    { regs := [(o.rD r, packRow wd ed (fun j => if inside j then conv j else 0), laneMask wd ed inside)] })

end Sys2Proof.Machine
namespace Sys2Proof
open Machine

/-- The roundings of the 32 elements of repetition r (R34). -/
def VWord.roundings (o : VWord) (seed : BitVec 32) (r : Nat) : List Rnd :=
  (List.range 32).map (fun i => rndOf o.mask seed (i + 128 * r))

/-- The values of lanes 0 to 31. -/
def VWord.values (o : VWord) (x : Row) : List Val := (List.range 32).map (fun i => o.fmt.value (lane (tyBits o.ty) x i))

end Sys2Proof
namespace Sys2Proof.Machine

/-- A quantisation: it writes the whole of D with a block image (R150). -/
def State.quantise (s : State) (o : VWord) (f : List Rnd → List Val → Nat) : Result :=
  let r := s.act.rep
  s.regRep o.rc o.sc { reads := [o.rA r], writes := [o.rD r], lat := 8 } (fun c t =>
    { regs := [(o.rD r, BitVec.ofNat 1024 (f (o.roundings s.act.entry.seed r) (o.values (c.vregAt t (o.rA r)))),
                BitVec.allOnes 128)] })

/-- The block image of a BX block (R149). -/
def bxImage (b : Nat) (q : Nat × List Int) : Nat := packLanes b (q.2.map (intCode b)) + q.1 * 2 ^ 1016

/-- The block image of an AQ8 block (R149). -/
def aqImage (q : Nat × Int × List Int) : Nat :=
  packLanes 8 (q.2.2.map (intCode 8)) + intCode 8 q.2.1 * 2 ^ 1008 + q.1 * 2 ^ 1016

def execVqbf (o : VWord) (s : State) : Result :=
  s.quantise o (fun rs xs => bxImage o.b.toNat (blockQuant o.b.toNat rs xs))

def execVqaf (o : VWord) (s : State) : Result :=
  s.quantise o (fun rs xs => aqImage (affineQuant (o.b.toNat == 16) rs xs))

/-- The value of element i of a block image (R151). -/
def imageValue (b : Nat) (x : Row) (i : Nat) : Val :=
  if b = 16 then aqValue (lane 8 x 127) (intValue .i8 (lane 8 x 126)) (intValue .i8 (lane 8 x i))
  else bxValue b (lane 8 x 127) (bxMant b (lane b x i))

/-- `vdqbf` (R151): the word's mode also rounds to F32 (log entry 90). -/
def execVdqbf (o : VWord) (s : State) : Result :=
  let r := s.act.rep
  let w := tyBits o.ty
  s.regRep o.rc o.sc { reads := [o.rA r], writes := [o.rD r], lat := 4 } (fun c t =>
    let x := c.vregAt t (o.rA r)
    { regs := [(o.rD r, packRow w 32 (fun i =>
        o.fmt.roundTo (rndOf o.mask s.act.entry.seed (i + 128 * r)) (imageValue o.b.toNat x i)),
        laneMask w 32 (fun _ => true))] })

/-! ## Permutation and partition (R158 to R160) -/

def execVrmg (o : VWord) (s : State) : Result :=
  let r := s.act.rep
  s.permute o 3 [o.rA r, o.rA r + 1, o.rB r] (fun c t j =>
    let k := lane 8 (c.vregAt t (o.rB r)) 0 % 128
    let i := k + j
    if i < 128 then lane 8 (c.vregAt t (o.rA r)) i else lane 8 (c.vregAt t (o.rA r + 1)) (i - 128))

def execVshuf (o : VWord) (s : State) : Result :=
  let r := s.act.rep
  let w := tyBits o.ty
  s.permute o 3 [o.rA r, o.rB r] (fun c t j =>
    let i := lane w (c.vregAt t (o.rB r)) j
    if i < tyLanes o.ty then lane w (c.vregAt t (o.rA r)) i else 0)

/-- A list of indices as 32 I32 lanes, padded with −1. -/
def indexRow (l : List Nat) : Row := packRow 32 32 (fun i => l.getD i 0xFFFFFFFF)

def execVpart (o : VWord) (s : State) : Result :=
  let r := s.act.rep
  let d := o.d.toNat
  s.regRep o.rc o.sc { reads := [o.rA r], readM := [o.mask.toNat], writes := [d, d + 1], lat := 10 } (fun c t =>
    let m := c.maskAt t o.mask.toNat
    let base := lane 32 (c.vregAt t (o.rA r)) 0
    let slots := (List.range 32).map (fun i => 32 * o.b.toNat + i)
    let yes := slots.filter (fun i => m.getLsbD i)
    let no := slots.filter (fun i => !m.getLsbD i)
    { regs := [(d, indexRow (yes.map (fun i => base + i)), BitVec.allOnes 128),
               (d + 1, indexRow (no.map (fun i => base + i)), BitVec.allOnes 128)] })

/-! ## Reductions and scans (R162, R163) -/

end Sys2Proof.Machine
namespace Sys2Proof
open Machine

/-- The operation that b[1:0] selects. -/
def VWord.redOp (o : VWord) : RedOp :=
  match o.b.toNat % 4 with
  | 0 => .add
  | 1 => .min
  | _ => .max

/-- Pad(op), or +0 for a floating add: the result of no lanes, and a scan's start. -/
def VWord.empty (o : VWord) : Nat := if o.redOp = .add then 0 else redPad o.redOp o.fmt

end Sys2Proof
namespace Sys2Proof.Machine

def execVred (o : VWord) (s : State) : Result :=
  let r := s.act.rep
  let w := tyBits o.ty
  let e := tyLanes o.ty
  let d := o.d.toNat
  s.regRep o.rc o.sc { reads := [o.rA r], readM := [o.mask.toNat], writes := [d], lat := 8 } (fun c t =>
    let m := c.maskAt t o.mask.toNat
    let x := c.vregAt t (o.rA r)
    let ls := (List.range e).map (fun j => if m.getLsbD j then lane w x j else redPad o.redOp o.fmt)
    let v := if (List.range e).any (fun j => m.getLsbD j) then tree o.redOp o.fmt ls else o.empty
    { regs := [(d, placeAt (w / 8 * (r % e)) v, byteMask (w / 8 * (r % e)) (w / 8))] })

/-- The running values of a scan, and the last one. -/
def scanLanes (node : Nat → Nat → Nat) (active : Nat → Bool) : Nat → Nat → List Nat → List Nat × Nat
  | _, acc, [] => ([], acc)
  | j, acc, x :: xs =>
    if active j then
      let a := node acc x
      let (ys, z) := scanLanes node active (j + 1) a xs
      (a :: ys, z)
    else
      let (ys, z) := scanLanes node active (j + 1) acc xs
      (0 :: ys, z)

def execVscan (o : VWord) (s : State) : Result :=
  let r := s.act.rep
  let w := tyBits o.ty
  let e := tyLanes o.ty
  s.regRep o.rc o.sc { reads := [o.rA r], readM := [o.mask.toNat], writes := [o.rD r], lat := 10 } (fun c t =>
    let m := c.maskAt t o.mask.toNat
    let x := c.vregAt t (o.rA r)
    let start := if o.b.getLsbD 2 && 0 < r then s.act.carry else o.empty
    let (ys, z) := scanLanes (redNode o.redOp o.fmt) m.getLsbD 0 start ((List.range e).map (lane w x))
    { regs := [(o.rD r, BitVec.ofNat 1024 (packLanes w ys), laneMask w e m.getLsbD)],
      carry := if o.b.getLsbD 2 then z else 0 })

/-! ## Mask operations (R164, R165) -/

def execVmcnt (o : VWord) (s : State) : Result :=
  let w := tyBits o.ty
  let e := tyLanes o.ty
  s.regRep o.rc o.sc { readM := [o.a.toNat], writes := [o.d.toNat], lat := 2 } (fun c t =>
    let n := countOnes ((c.maskAt t o.a.toNat).toNat % 2 ^ e) e
    let v := intCode w (clampInt o.fmt.range.1 o.fmt.range.2 n)
    { regs := [(o.d.toNat, placeAt 0 v, byteMask 0 (w / 8))] })

def execVmlog (md ma mb : MReg) (tt sc : BitVec 4) (rc : BitVec 10) (s : State) : Result :=
  s.regRep rc sc { readM := [ma.toNat, mb.toNat], writeM := [md.toNat], lat := 2 } (fun c t =>
    { masks := [(md.toNat, maskLogic tt (c.maskAt t ma.toNat) (c.maskAt t mb.toNat))] })

end Sys2Proof.Machine
end

