-- ==== Sys2Proof/Machine/Dispatch.lean ====
section
/-! DEFINITION. The meaning of each instruction: one arm per row of spec/opcode_table.json. -/

namespace Sys2Proof.Machine

open Sys2Proof

def exec (i : Instr) (s : State) : Host.Outcome State Fault Refusal :=
  match i with
  | .add d a b => Sys2Proof.Machine.execAdd d a b s
  | .sub d a b => Sys2Proof.Machine.execSub d a b s
  | .and d a b => Sys2Proof.Machine.execAnd d a b s
  | .or d a b => Sys2Proof.Machine.execOr d a b s
  | .xor d a b => Sys2Proof.Machine.execXor d a b s
  | .andn d a b => Sys2Proof.Machine.execAndn d a b s
  | .sll d a b => Sys2Proof.Machine.execSll d a b s
  | .srl d a b => Sys2Proof.Machine.execSrl d a b s
  | .sra d a b => Sys2Proof.Machine.execSra d a b s
  | .rol d a b => Sys2Proof.Machine.execRol d a b s
  | .mul d a b => Sys2Proof.Machine.execMul d a b s
  | .mulh d a b => Sys2Proof.Machine.execMulh d a b s
  | .mulhn d a b => Sys2Proof.Machine.execMulhn d a b s
  | .div d a b => Sys2Proof.Machine.execDiv d a b s
  | .divn d a b => Sys2Proof.Machine.execDivn d a b s
  | .rem d a b => Sys2Proof.Machine.execRem d a b s
  | .remn d a b => Sys2Proof.Machine.execRemn d a b s
  | .min d a b => Sys2Proof.Machine.execMin d a b s
  | .max d a b => Sys2Proof.Machine.execMax d a b s
  | .minn d a b => Sys2Proof.Machine.execMinn d a b s
  | .maxn d a b => Sys2Proof.Machine.execMaxn d a b s
  | .slt d a b => Sys2Proof.Machine.execSlt d a b s
  | .sltn d a b => Sys2Proof.Machine.execSltn d a b s
  | .seq d a b => Sys2Proof.Machine.execSeq d a b s
  | .clz d a => Sys2Proof.Machine.execClz d a s
  | .ctz d a => Sys2Proof.Machine.execCtz d a s
  | .pop d a => Sys2Proof.Machine.execPop d a s
  | .sext d a w => Sys2Proof.Machine.execSext d a w s
  | .zext d a w => Sys2Proof.Machine.execZext d a w s
  | .sel d a b c => Sys2Proof.Machine.execSel d a b c s
  | .addw d a b => Sys2Proof.Machine.execAddw d a b s
  | .subw d a b => Sys2Proof.Machine.execSubw d a b s
  | .mulw d a b => Sys2Proof.Machine.execMulw d a b s
  | .shadd d a b n => Sys2Proof.Machine.execShadd d a b n s
  | .addi d a imm => Sys2Proof.Machine.execAddi d a imm s
  | .andi d a imm => Sys2Proof.Machine.execAndi d a imm s
  | .ori d a imm => Sys2Proof.Machine.execOri d a imm s
  | .xori d a imm => Sys2Proof.Machine.execXori d a imm s
  | .slti d a imm => Sys2Proof.Machine.execSlti d a imm s
  | .sltin d a imm => Sys2Proof.Machine.execSltin d a imm s
  | .slli d a n => Sys2Proof.Machine.execSlli d a n s
  | .srli d a n => Sys2Proof.Machine.execSrli d a n s
  | .srai d a n => Sys2Proof.Machine.execSrai d a n s
  | .roli d a n => Sys2Proof.Machine.execRoli d a n s
  | .lui d imm => Sys2Proof.Machine.execLui d imm s
  | .muli d a imm => Sys2Proof.Machine.execMuli d a imm s
  | .bfx d a p n => Sys2Proof.Machine.execBfx d a p n s
  | .bfxS d a p n => Sys2Proof.Machine.execBfxS d a p n s
  | .bfi d a p n => Sys2Proof.Machine.execBfi d a p n s
  | .jalr d a imm => Sys2Proof.Machine.execJalr d a imm s
  | .beq a b o => Sys2Proof.Machine.execBeq a b o s
  | .bne a b o => Sys2Proof.Machine.execBne a b o s
  | .blt a b o => Sys2Proof.Machine.execBlt a b o s
  | .bge a b o => Sys2Proof.Machine.execBge a b o s
  | .bltn a b o => Sys2Proof.Machine.execBltn a b o s
  | .bgen a b o => Sys2Proof.Machine.execBgen a b o s
  | .bmskAny k w o => Sys2Proof.Machine.execBmskAny k w o s
  | .bmskNone k w o => Sys2Proof.Machine.execBmskNone k w o s
  | .bmskAll k w o => Sys2Proof.Machine.execBmskAll k w o s
  | .loop a o => Sys2Proof.Machine.execLoop a o s
  | .jal o => Sys2Proof.Machine.execJal o s
  | .ldW d h x e r => Sys2Proof.Machine.execLdW d h x e r s
  | .ldD d h x e r => Sys2Proof.Machine.execLdD d h x e r s
  | .stW v h x e r => Sys2Proof.Machine.execStW v h x e r s
  | .stD v h x e r => Sys2Proof.Machine.execStD v h x e r s
  | .srdW d k => Sys2Proof.Machine.execSrdW d k s
  | .srdD d k => Sys2Proof.Machine.execSrdD d k s
  | .savl d k => Sys2Proof.Machine.execSavl d k s
  | .nop => Sys2Proof.Machine.execNop s
  | .seam => Sys2Proof.Machine.execSeam s
  | .fenceSc sco => Sys2Proof.Machine.execFenceSc sco s
  | .fenceAcq sco => Sys2Proof.Machine.execFenceAcq sco s
  | .fenceRel sco => Sys2Proof.Machine.execFenceRel sco s
  | .trap k => Sys2Proof.Machine.execTrap k s
  | .ertn => Sys2Proof.Machine.execErtn s
  | .brk => Sys2Proof.Machine.execBrk s
  | .yield => Sys2Proof.Machine.execYield s
  | .texit => Sys2Proof.Machine.execTexit s
  | .wfe => Sys2Proof.Machine.execWfe s
  | .icinv => Sys2Proof.Machine.execIcinv s
  | .modeExposed => Sys2Proof.Machine.execModeExposed s
  | .modeInterlock => Sys2Proof.Machine.execModeInterlock s
  | .trnR h a => Sys2Proof.Machine.execTrnR h a s
  | .trnRw h a => Sys2Proof.Machine.execTrnRw h a s
  | .vbind h a => Sys2Proof.Machine.execVbind h a s
  | .hqry d h => Sys2Proof.Machine.execHqry d h s
  | .hinv h => Sys2Proof.Machine.execHinv h s
  | .pgreq d a f => Sys2Proof.Machine.execPgreq d a f s
  | .hmov d a => Sys2Proof.Machine.execHmov d a s
  | .fsig a f => Sys2Proof.Machine.execFsig a f s
  | .fsigQuad a f k => Sys2Proof.Machine.execFsigQuad a f k s
  | .fwait f => Sys2Proof.Machine.execFwait f s
  | .fpeek d f => Sys2Proof.Machine.execFpeek d f s
  | .rigw b a t => Sys2Proof.Machine.execRigw b a t s
  | .bar imm sco => Sys2Proof.Machine.execBar imm sco s
  | .bara imm sco => Sys2Proof.Machine.execBara imm sco s
  | .barw imm sco => Sys2Proof.Machine.execBarw imm sco s
  | .bwait n e => Sys2Proof.Machine.execBwait n e s
  | .rdvz k => Sys2Proof.Machine.execRdvz k s
  | .csrr d c => Sys2Proof.Machine.execCsrr d c s
  | .csrw d a c => Sys2Proof.Machine.execCsrw d a c s
  | .csrs d a c => Sys2Proof.Machine.execCsrs d a c s
  | .csrc d a c => Sys2Proof.Machine.execCsrc d a c s
  | .xstatWrite ck d a => Sys2Proof.Machine.execXstatWrite ck d a s
  | .wmWrite ck d a k => Sys2Proof.Machine.execWmWrite ck d a k s
  | .residAccess ck d a => Sys2Proof.Machine.execResidAccess ck d a s
  | .engstRead d => Sys2Proof.Machine.execEngstRead d s
  | .tcrd d n => Sys2Proof.Machine.execTcrd d n s
  | .cvq d => Sys2Proof.Machine.execCvq d s
  | .rlay g f x h => Sys2Proof.Machine.execRlay g f x h s
  | .tdld a x h => Sys2Proof.Machine.execTdld a x h s
  | .tdst a x h => Sys2Proof.Machine.execTdst a x h s
  | .tdrd d x k => Sys2Proof.Machine.execTdrd d x k s
  | .tdwr a x k => Sys2Proof.Machine.execTdwr a x k s
  | .wkld a w h => Sys2Proof.Machine.execWkld a w h s
  | .wkst a w h => Sys2Proof.Machine.execWkst a w h s
  | .guardW d a x => Sys2Proof.Machine.execGuardW d a x s
  | .guardD d a x => Sys2Proof.Machine.execGuardD d a x s
  | .dlaunch d a => Sys2Proof.Machine.execDlaunch d a s
  | .mmov d a => Sys2Proof.Machine.execMmov d a s
  | .mset d a b => Sys2Proof.Machine.execMset d a b s
  | .mcntE d a w => Sys2Proof.Machine.execMcntE d a w s
  | .mcntLo d a => Sys2Proof.Machine.execMcntLo d a s
  | .mcntHi d a => Sys2Proof.Machine.execMcntHi d a s
  | .mcntFfs d a w => Sys2Proof.Machine.execMcntFfs d a w s
  | .mlog d a b t => Sys2Proof.Machine.execMlog d a b t s
  | .fork k a b c => Sys2Proof.Machine.execFork k a b c s
  | .enqs a b e => Sys2Proof.Machine.execEnqs a b e s
  | .renq a b e => Sys2Proof.Machine.execRenq a b e s
  | .faa o => Sys2Proof.Machine.execFaa o s
  | .faab o => Sys2Proof.Machine.execFaab o s
  | .fao o => Sys2Proof.Machine.execFao o s
  | .cas o => Sys2Proof.Machine.execCas o s
  | .swp o => Sys2Proof.Machine.execSwp o s
  | .amin o => Sys2Proof.Machine.execAmin o s
  | .amax o => Sys2Proof.Machine.execAmax o s
  | .aminn o => Sys2Proof.Machine.execAminn o s
  | .amaxn o => Sys2Proof.Machine.execAmaxn o s
  | .aor o => Sys2Proof.Machine.execAor o s
  | .aand o => Sys2Proof.Machine.execAand o s
  | .li d imm => Sys2Proof.Machine.execLi d imm s
  | .lih d imm => Sys2Proof.Machine.execLih d imm s
  | .issue e wf sf ar scope word => Sys2Proof.Machine.execIssue e wf sf ar scope word s
  | .vadd o => Sys2Proof.Machine.execVadd o s
  | .vsub o => Sys2Proof.Machine.execVsub o s
  | .vmul o => Sys2Proof.Machine.execVmul o s
  | .vfma o => Sys2Proof.Machine.execVfma o s
  | .vfms o => Sys2Proof.Machine.execVfms o s
  | .vfnm o => Sys2Proof.Machine.execVfnm o s
  | .vmin o => Sys2Proof.Machine.execVmin o s
  | .vmax o => Sys2Proof.Machine.execVmax o s
  | .vabs o => Sys2Proof.Machine.execVabs o s
  | .vneg o => Sys2Proof.Machine.execVneg o s
  | .vrcp o => Sys2Proof.Machine.execVrcp o s
  | .vrsq o => Sys2Proof.Machine.execVrsq o s
  | .vsqrt o => Sys2Proof.Machine.execVsqrt o s
  | .vexp2 o => Sys2Proof.Machine.execVexp2 o s
  | .vlog2 o => Sys2Proof.Machine.execVlog2 o s
  | .vtanh o => Sys2Proof.Machine.execVtanh o s
  | .viadd o => Sys2Proof.Machine.execViadd o s
  | .visub o => Sys2Proof.Machine.execVisub o s
  | .vimul o => Sys2Proof.Machine.execVimul o s
  | .vimulh o => Sys2Proof.Machine.execVimulh o s
  | .vshl o => Sys2Proof.Machine.execVshl o s
  | .vshr o => Sys2Proof.Machine.execVshr o s
  | .vsra o => Sys2Proof.Machine.execVsra o s
  | .vand o => Sys2Proof.Machine.execVand o s
  | .vor o => Sys2Proof.Machine.execVor o s
  | .vxor o => Sys2Proof.Machine.execVxor o s
  | .vimin o => Sys2Proof.Machine.execVimin o s
  | .vimax o => Sys2Proof.Machine.execVimax o s
  | .vsadd o => Sys2Proof.Machine.execVsadd o s
  | .vssub o => Sys2Proof.Machine.execVssub o s
  | .viabs o => Sys2Proof.Machine.execViabs o s
  | .vimac o => Sys2Proof.Machine.execVimac o s
  | .vceq o => Sys2Proof.Machine.execVceq o s
  | .vcne o => Sys2Proof.Machine.execVcne o s
  | .vclt o => Sys2Proof.Machine.execVclt o s
  | .vcle o => Sys2Proof.Machine.execVcle o s
  | .vcun o => Sys2Proof.Machine.execVcun o s
  | .vsel o => Sys2Proof.Machine.execVsel o s
  | .vcvt o => Sys2Proof.Machine.execVcvt o s
  | .vqbf o => Sys2Proof.Machine.execVqbf o s
  | .vdqbf o => Sys2Proof.Machine.execVdqbf o s
  | .vqaf o => Sys2Proof.Machine.execVqaf o s
  | .vmov o => Sys2Proof.Machine.execVmov o s
  | .vbcst o => Sys2Proof.Machine.execVbcst o s
  | .vld o => Sys2Proof.Machine.execVld o s
  | .vst o => Sys2Proof.Machine.execVst o s
  | .vgath o => Sys2Proof.Machine.execVgath o s
  | .vscat o => Sys2Proof.Machine.execVscat o s
  | .vrmg o => Sys2Proof.Machine.execVrmg o s
  | .vshuf o => Sys2Proof.Machine.execVshuf o s
  | .vpart o => Sys2Proof.Machine.execVpart o s
  | .vpop o => Sys2Proof.Machine.execVpop o s
  | .vpush o => Sys2Proof.Machine.execVpush o s
  | .vred o => Sys2Proof.Machine.execVred o s
  | .vscan o => Sys2Proof.Machine.execVscan o s
  | .viota o => Sys2Proof.Machine.execViota o s
  | .vmcnt o => Sys2Proof.Machine.execVmcnt o s
  | .vmlog md ma mb tt sc rc => Sys2Proof.Machine.execVmlog md ma mb tt sc rc s
  | .vacc o => Sys2Proof.Machine.execVacc o s
  | .vclass o => Sys2Proof.Machine.execVclass o s
  | .mma bank tA tB k0 sc rc => Sys2Proof.Machine.execMma bank tA tB k0 sc rc s
  | .mzero bank sc => Sys2Proof.Machine.execMzero bank sc s
  | .mdrn bank tD ep row0 sc rc => Sys2Proof.Machine.execMdrn bank tD ep row0 sc rc s
  | .mlease n sc => Sys2Proof.Machine.execMlease n sc s
  | .mcommit sc => Sys2Proof.Machine.execMcommit sc s
  | .mlend bank core sc => Sys2Proof.Machine.execMlend bank core sc s
  | .mrecl bank sc => Sys2Proof.Machine.execMrecl bank sc s
  | .mldacc bank tS row0 sc rc => Sys2Proof.Machine.execMldacc bank tS row0 sc rc s
  | .ccpy o => Sys2Proof.Machine.execCcpy o s
  | .ccvt o mode => Sys2Proof.Machine.execCcvt o mode s
  | .cxpd o => Sys2Proof.Machine.execCxpd o s
  | .cfilb o => Sys2Proof.Machine.execCfilb o s
  | .cgath o => Sys2Proof.Machine.execCgath o s
  | .cscat o => Sys2Proof.Machine.execCscat o s
  | .cred o op => Sys2Proof.Machine.execCred o op s
  | .cmcst o dies => Sys2Proof.Machine.execCmcst o dies s
  | .cdsp o k => Sys2Proof.Machine.execCdsp o k s
  | .cscl ws q sc rc => Sys2Proof.Machine.execCscl ws q sc rc s
  | .cbindOff ch sc => Sys2Proof.Machine.execCbindOff ch sc s
  | .cbindRange ch wd sc => Sys2Proof.Machine.execCbindRange ch wd sc s
  | .cbindStream ch out esz sc => Sys2Proof.Machine.execCbindStream ch out esz sc s
  | .czero wd ch sc rc => Sys2Proof.Machine.execCzero wd ch sc rc s
  | .cwmk ch n sc => Sys2Proof.Machine.execCwmk ch n sc s
  | .snop sc rc => Sys2Proof.Machine.execSnop sc rc s
  | .swait f sc => Sys2Proof.Machine.execSwait f sc s
  | .ssig f sc => Sys2Proof.Machine.execSsig f sc s
  | .sloop src n sc => Sys2Proof.Machine.execSloop src n sc s
  | .sendl sc => Sys2Proof.Machine.execSendl sc s
  | .spho k sc => Sys2Proof.Machine.execSpho k sc s
  | .sphc k sc => Sys2Proof.Machine.execSphc k sc s
  | .sacq sco sc => Sys2Proof.Machine.execSacq sco sc s
  | .srel sco sc => Sys2Proof.Machine.execSrel sco sc s
  | .smodeExposed sc => Sys2Proof.Machine.execSmodeExposed sc s
  | .smodeInterlock sc => Sys2Proof.Machine.execSmodeInterlock sc s
  | .send k sc => Sys2Proof.Machine.execSend k sc s
  | .entryWaitSatisfied n e => Sys2Proof.Machine.execEntryWaitSatisfied n e s
  | .blockEntry n e => Sys2Proof.Machine.execBlockEntry n e s
  | .nullEntry n e => Sys2Proof.Machine.execNullEntry n e s
  | .programRowFetch n e => Sys2Proof.Machine.execProgramRowFetch n e s
  | .engineFault n e code => Sys2Proof.Machine.execEngineFault n e code s
  | .entryComplete n e k => Sys2Proof.Machine.execEntryComplete n e k s
  | .saddlebagReturn n e => Sys2Proof.Machine.execSaddlebagReturn n e s
  | .modeCrossing n => Sys2Proof.Machine.execModeCrossing n s
  | .leaseGrant quad => Sys2Proof.Machine.execLeaseGrant quad s
  | .lstallPass quad => Sys2Proof.Machine.execLstallPass quad s
  | .loadReturn n => Sys2Proof.Machine.execLoadReturn n s
  | .storePerform n => Sys2Proof.Machine.execStorePerform n s
  | .handleResolve n h => Sys2Proof.Machine.execHandleResolve n h s
  | .vectorLoadReturn n k => Sys2Proof.Machine.execVectorLoadReturn n k s
  | .rowTransfer n k pos => Sys2Proof.Machine.execRowTransfer n k pos s
  | .faoGrant n => Sys2Proof.Machine.execFaoGrant n s
  | .barrierGenerationComplete k => Sys2Proof.Machine.execBarrierGenerationComplete k s
  | .quotaStall n => Sys2Proof.Machine.execQuotaStall n s
  | .trapDelivery n => Sys2Proof.Machine.execTrapDelivery n s
  | .taskBind n => Sys2Proof.Machine.execTaskBind n s
  | .taskStart n => Sys2Proof.Machine.execTaskStart n s
  | .taskRetire n => Sys2Proof.Machine.execTaskRetire n s
  | .launchAdmit l => Sys2Proof.Machine.execLaunchAdmit l s
  | .launchStart n => Sys2Proof.Machine.execLaunchStart n s
  | .launchRetire l => Sys2Proof.Machine.execLaunchRetire l s
  | .burnish l => Sys2Proof.Machine.execBurnish l s
  | .nopPacket q => Sys2Proof.Machine.execNopPacket q s
  | .oprec q => Sys2Proof.Machine.execOprec q s
  | .graph q => Sys2Proof.Machine.execGraph q s
  | .write q => Sys2Proof.Machine.execWrite q s
  | .signal q => Sys2Proof.Machine.execSignal q s
  | .wait q => Sys2Proof.Machine.execWait q s
  | .wrsig q => Sys2Proof.Machine.execWrsig q s
  | .copy q => Sys2Proof.Machine.execCopy q s
  | .timestamp q => Sys2Proof.Machine.execTimestamp q s
  | .fence q => Sys2Proof.Machine.execFence q s
  | .packetComplete q => Sys2Proof.Machine.execPacketComplete q s
  | .qpollRotation out inq => Sys2Proof.Machine.execQpollRotation out inq s
  | .ageLimit q => Sys2Proof.Machine.execAgeLimit q s
  | .qslice ctx => Sys2Proof.Machine.execQslice ctx s
  | .coreslice n => Sys2Proof.Machine.execCoreslice n s
  | .preemption ctx => Sys2Proof.Machine.execPreemption ctx s
  | .bankClaim n b => Sys2Proof.Machine.execBankClaim n b s
  | .forcedSpill n b => Sys2Proof.Machine.execForcedSpill n b s
  | .segmentSave k => Sys2Proof.Machine.execSegmentSave k s
  | .segmentRestore k pseg => Sys2Proof.Machine.execSegmentRestore k pseg s
  | .dynamicStep g => Sys2Proof.Machine.execDynamicStep g s
  | .replay g => Sys2Proof.Machine.execReplay g s
  | .refinement hash variant change => Sys2Proof.Machine.execRefinement hash variant change s
  | .versionNotice hash variant version effect => Sys2Proof.Machine.execVersionNotice hash variant version effect s
  | .versionLate g => Sys2Proof.Machine.execVersionLate g s
  | .skiverPatch ctx rec p => Sys2Proof.Machine.execSkiverPatch ctx rec p s
  | .conversionComplete ctx rec => Sys2Proof.Machine.execConversionComplete ctx rec s
  | .contributionArrive k => Sys2Proof.Machine.execContributionArrive k s
  | .contributionRetry k => Sys2Proof.Machine.execContributionRetry k s
  | .pageReply ctx slot => Sys2Proof.Machine.execPageReply ctx slot s
  | .tableWalk unit ctx va wr => Sys2Proof.Machine.execTableWalk unit ctx va wr s
  | .sweep ctx => Sys2Proof.Machine.execSweep ctx s
  | .scrub pq row => Sys2Proof.Machine.execScrub pq row s
  | .shoot => Sys2Proof.Machine.execShoot s
  | .harvest => Sys2Proof.Machine.execHarvest s
  | .stop => Sys2Proof.Machine.execStop s
  | .image => Sys2Proof.Machine.execImage s
  | .resume => Sys2Proof.Machine.execResume s
  | .destroy => Sys2Proof.Machine.execDestroy s
  | .commandCompletion => Sys2Proof.Machine.execCommandCompletion s
  | .queueEnable q => Sys2Proof.Machine.execQueueEnable q s
  | .contextRecordEnable ctx => Sys2Proof.Machine.execContextRecordEnable ctx s
  | .journalClear => Sys2Proof.Machine.execJournalClear s
  | .bar0Write off bytes data => Sys2Proof.Machine.execBar0Write off bytes data s
  | .hostBar2Access off op => Sys2Proof.Machine.execHostBar2Access off op s
  | .debugStop ctx cores => Sys2Proof.Machine.execDebugStop ctx cores s
  | .breakpointMatch n src => Sys2Proof.Machine.execBreakpointMatch n src s
  | .headClassSample n e => Sys2Proof.Machine.execHeadClassSample n e s
  | .bankConflictSample n e pq rows => Sys2Proof.Machine.execBankConflictSample n e pq rows s
  | .ptpAdjustment offset rate => Sys2Proof.Machine.execPtpAdjustment offset rate s
  | .dieFence d => Sys2Proof.Machine.execDieFence d s
  | .channelRetirement stack ch => Sys2Proof.Machine.execChannelRetirement stack ch s
  | .liveUpdate stage => Sys2Proof.Machine.execLiveUpdate stage s
  | .bootStep id outcome writesRemap => Sys2Proof.Machine.execBootStep id outcome writesRemap s
  | .clockStep dir => Sys2Proof.Machine.execClockStep dir s
  | .throttle junction stack => Sys2Proof.Machine.execThrottle junction stack s
  | .shutdown junction => Sys2Proof.Machine.execShutdown junction s
  | .flitReceive port symErrors => Sys2Proof.Machine.execFlitReceive port symErrors s
  | .laneRemoval port => Sys2Proof.Machine.execLaneRemoval port s
  | .remoteRequest pkg gang va op => Sys2Proof.Machine.execRemoteRequest pkg gang va op s
  | .remoteResponse id st data => Sys2Proof.Machine.execRemoteResponse id st data s
  | .remoteTimeout id => Sys2Proof.Machine.execRemoteTimeout id s
  | .podBarrierArrival pkg launch id gen => Sys2Proof.Machine.execPodBarrierArrival pkg launch id gen s
  | .packageFence pkg => Sys2Proof.Machine.execPackageFence pkg s
  | .fenceNotice pkg => Sys2Proof.Machine.execFenceNotice pkg s
  | .ptpMessage port kind stamp => Sys2Proof.Machine.execPtpMessage port kind stamp s
  | .powerUp alwaysOnLost => Sys2Proof.Machine.execPowerUp alwaysOnLost s
  | .packageReset => Sys2Proof.Machine.execPackageReset s
  | .doubleError vault word => Sys2Proof.Machine.execDoubleError vault word s
  | .linkUp port lanes => Sys2Proof.Machine.execLinkUp port lanes s
  | .gangBuild gang self size ctx table => Sys2Proof.Machine.execGangBuild gang self size ctx table s
  | .syncInterval pdelay => Sys2Proof.Machine.execSyncInterval pdelay s
  | .mldaccRowArrival n => Sys2Proof.Machine.execMldaccRowArrival n s

end Sys2Proof.Machine
end

