-- ==== Sys2Proof/Machine/Banks.lean ====
section
/-! DEFINITION. Which register banks an instruction or an engine word touches (R206), and the loans that a resumed core makes
again before its first matrix word (R210). -/

namespace Sys2Proof.Machine

/-- A CSR that lies in bank F (R206). -/
def csrInF (n : Nat) : Bool := n == 0x020 || (0x030 ≤ n && n < 0x040)

/-- The banks, by number, that an instruction of the control core touches: S always, then F, then T; of a `renq` see
`State.touchedBanks`. -/
def controlBanks : Instr → List Nat
  | .fsig .. => [0, 6] | .fsigQuad .. => [0, 6] | .fwait _ => [0, 6] | .fpeek .. => [0, 6] | .rigw .. => [0, 6]
  | .bara .. => [0, 6] | .barw .. => [0, 6] | .bar .. => [0, 6] | .bwait .. => [0, 6] | .rdvz _ => [0, 6]
  | .srdW .. => [0, 6] | .srdD .. => [0, 6] | .savl .. => [0, 6] | .modeExposed => [0, 6] | .modeInterlock => [0, 6]
  | .issue .. => [0, 6] | .fork .. => [0, 6] | .enqs .. => [0, 6] | .engstRead _ => [0, 6] | .wmWrite .. => [0, 6]
  | .ldW .. => [0, 6] | .ldD .. => [0, 6] | .stW .. => [0, 6] | .stD .. => [0, 6]
  | .faa _ => [0, 6] | .faab _ => [0, 6] | .fao _ => [0, 6] | .cas _ => [0, 6] | .swp _ => [0, 6] | .amin _ => [0, 6]
  | .amax _ => [0, 6] | .aminn _ => [0, 6] | .amaxn _ => [0, 6] | .aor _ => [0, 6] | .aand _ => [0, 6]
  | .csrr _ c => if csrInF c.toNat then [0, 6] else [0] | .csrw _ _ c => if csrInF c.toNat then [0, 6] else [0]
  | .csrs _ _ c => if csrInF c.toNat then [0, 6] else [0] | .csrc _ _ c => if csrInF c.toNat then [0, 6] else [0]
  | .tdld .. => [0, 5] | .tdst .. => [0, 5] | .tdrd .. => [0, 5] | .tdwr .. => [0, 5] | .wkld .. => [0, 5] | .wkst .. => [0, 5]
  | .guardW .. => [0, 5] | .guardD .. => [0, 5] | .rlay .. => [0, 5] | .dlaunch .. => [0, 5]
  | _ => [0]

/-- The banks that an instruction of the current core touches: a `renq` into the core's own queue is accepted there, and
touches F. -/
def State.touchedBanks (s : State) (i : Instr) : List Nat :=
  match i with
  | .renq a _ _ => if (s.core.rd a).toNat % 256 = s.cur then [0, 6] else [0]
  | i => controlBanks i

/-- The vector registers that a repetition of a vector word reads or writes. -/
def vectorRegs (r : Nat) : Instr → List Nat
  | .vadd o => [o.rA r, o.rB r, o.rD r] | .vsub o => [o.rA r, o.rB r, o.rD r] | .vmul o => [o.rA r, o.rB r, o.rD r]
  | .vfma o => [o.rA r, o.rB r, o.rD r] | .vfms o => [o.rA r, o.rB r, o.rD r] | .vfnm o => [o.rA r, o.rB r, o.rD r]
  | .vmin o => [o.rA r, o.rB r, o.rD r] | .vmax o => [o.rA r, o.rB r, o.rD r] | .viadd o => [o.rA r, o.rB r, o.rD r]
  | .visub o => [o.rA r, o.rB r, o.rD r] | .vimul o => [o.rA r, o.rB r, o.rD r] | .vimulh o => [o.rA r, o.rB r, o.rD r]
  | .vshl o => [o.rA r, o.rB r, o.rD r] | .vshr o => [o.rA r, o.rB r, o.rD r] | .vsra o => [o.rA r, o.rB r, o.rD r]
  | .vand o => [o.rA r, o.rB r, o.rD r] | .vor o => [o.rA r, o.rB r, o.rD r] | .vxor o => [o.rA r, o.rB r, o.rD r]
  | .vimin o => [o.rA r, o.rB r, o.rD r] | .vimax o => [o.rA r, o.rB r, o.rD r] | .vsadd o => [o.rA r, o.rB r, o.rD r]
  | .vssub o => [o.rA r, o.rB r, o.rD r] | .vimac o => [o.rA r, o.rB r, o.rD r] | .vsel o => [o.rA r, o.rB r, o.rD r]
  | .vshuf o => [o.rA r, o.rB r, o.rD r] | .vrmg o => [o.rA r, o.rA r + 1, o.rB r, o.rD r]
  | .vpart o => [o.rA r, o.rD r, o.rD r + 1]
  | .vabs o => [o.rA r, o.rD r] | .vneg o => [o.rA r, o.rD r] | .vrcp o => [o.rA r, o.rD r] | .vrsq o => [o.rA r, o.rD r]
  | .vsqrt o => [o.rA r, o.rD r] | .vexp2 o => [o.rA r, o.rD r] | .vlog2 o => [o.rA r, o.rD r] | .vtanh o => [o.rA r, o.rD r]
  | .viabs o => [o.rA r, o.rD r] | .vcvt o => [o.rA r, o.rD r] | .vqbf o => [o.rA r, o.rD r] | .vdqbf o => [o.rA r, o.rD r]
  | .vqaf o => [o.rA r, o.rD r] | .vmov o => [o.rA r, o.rD r] | .vbcst o => [o.rA r, o.rD r] | .vred o => [o.rA r, o.rD r]
  | .vscan o => [o.rA r, o.rD r] | .vgath o => [o.rA r, o.rD r] | .vscat o => [o.rA r, o.rD r]
  | .vceq o => [o.rA r, o.rB r] | .vcne o => [o.rA r, o.rB r] | .vclt o => [o.rA r, o.rB r] | .vcle o => [o.rA r, o.rB r]
  | .vcun o => [o.rA r, o.rB r] | .vclass o => [o.rA r] | .viota o => [o.rD r]
  | .vld o => [o.rD r] | .vst o => [o.rD r] | .vpop o => [o.rD r] | .vpush o => [o.rA r] | .vacc o => [o.rD r]
  | _ => []

/-- Whether an engine word names entries of the tables. -/
def namesEntries : Instr → Bool
  | .vld _ => true | .vst _ => true | .vgath _ => true | .vscat _ => true | .mma .. => true | .mdrn .. => true
  | .mldacc .. => true | .ccpy _ => true | .ccvt .. => true | .cxpd _ => true | .cfilb _ => true | .cgath _ => true
  | .cscat _ => true | .cred .. => true | .cmcst .. => true | .cdsp .. => true | .cscl .. => true | .cbindRange .. => true
  | .czero .. => true
  | _ => false

/-- Whether an engine word touches bank A of its core, whose home bank is j. -/
def touchesA (j : Nat) : Instr → Bool
  | .mma b _ _ _ _ _ => b.toNat == j | .mzero b _ => b.toNat == j | .mdrn b _ _ _ _ _ => b.toNat == j
  | .mldacc b _ _ _ _ => b.toNat == j
  | .mlend .. => true | .mrecl .. => true | .vacc o => o.a.toNat == j
  | _ => false

/-- The banks that an engine word touches: F, then V, T and A. -/
def engineBanks (n r : Nat) (i : Instr) : List Nat :=
  6 :: ((vectorRegs r i).map (fun v => 1 + v / 16 % 4)) ++ (if namesEntries i then [5] else [])
    ++ (if touchesA (n % 4) i then [7] else [])

/-- The bank of a number. -/
def bankAt : Nat → Bank
  | 0 => .s
  | 1 => .v0
  | 2 => .v1
  | 3 => .v2
  | 4 => .v3
  | 5 => .t
  | 6 => .f
  | _ => .a

/-- The first of these banks that the physical core of logical core n does not hold for it; a management core has its
own. -/
def State.unclaimed (s : State) (n : Nat) (bs : List Nat) : Option Nat :=
  if 256 ≤ n then none
  else match s.servedCtx n, s.physOf n with
  | some ctx, some p => bs.find? (fun b => s.bankOwner p b != some (ctx, n))
  | _, _ => none

/-! ## Loans (R210) -/

/-- The loan of bank j to core k of the quad of core n is made again. -/
def State.relend (s : State) (ctx n j k : Nat) : State :=
  let qd := s.physQuad (quadOf n)
  let q := s.quad qd
  let lender := 4 * quadOf n + j
  let borrower := 4 * quadOf n + k
  let s1 := s.setQuad qd { q with lent := SMap.set 0 q.lent j (k + 1) }
  let s2 := s1.setCoreAt ctx lender { s1.coreAt ctx lender with loanLent := none }
  let c := s2.coreAt ctx borrower
  s2.setCoreAt ctx borrower { c with loanBorrowed := removeNat c.loanBorrowed j }

/-- Before a matrix word of core n: a loan that a switch ended is made again, once both its cores are served. The lender
goes on without the borrower; the borrower waits for the lender: none while it does. -/
def State.renewLoans (s : State) (ctx n : Nat) : Option State :=
  let c := s.coreAt ctx n
  let s1 := match c.loanLent with
    | some k => if s.served ctx (4 * quadOf n + k) then s.relend ctx n (n % 4) k else s
    | none => s
  c.loanBorrowed.foldl (fun (t : Option State) j =>
    match t with
    | none => none
    | some u => if u.served ctx (4 * quadOf n + j) then some (u.relend ctx n j (n % 4)) else none) (some s1)

end Sys2Proof.Machine
end

