-- ==== Sys2Proof/Machine/Sched.lean ====
section
/-! DEFINITION. Who moves next (R190: the manual orders agents only where a rule does), and what a turn comes to. The
agenda names the turns; when it is empty the model takes its own order (log entry 5). -/

namespace Sys2Proof.Machine

/-- What the next turn comes to. -/
inductive Plan where
  /-- the control core performs an instruction -/
  | core (i : Instr) (s : State)
  /-- an engine performs a word or an entry's step -/
  | engine (i : Instr) (s : State)
  /-- a step without an encoding -/
  | event (i : Instr) (s : State)
  /-- the turn is over -/
  | stop (s : State)
  /-- the turn is a step without an encoding that the model's own order or a bank claim names -/
  | did (r : Result)
  /-- the agenda names an instruction that an agent fetches itself -/
  | refuse

/-- Whether a term is a step without an encoding. -/
def isStep (i : Instr) : Bool :=
  match encode i with
  | .step => true
  | _ => false

/-! ## Turns -/

/-- Whether the control core of logical core n has a turn to take. -/
def State.coreTurn (s : State) (n : Nat) : Bool := match s.actor n with | some t => t.coreRuns | none => false

/-- A control core's turn: it claims the banks that it touches first (R206, R207). -/
def State.planCore (s : State) (n : Nat) : Plan :=
  match if s.coreTurn n then s.unclaimed n [0] else none with
  | some _ => .did (execBankClaim n .s s)
  | none =>
    match s.readyCore n with
    | .stop t => .stop (if t.atYield then t.yieldCore else t)
    | .run i t =>
      match s.unclaimed n (t.touchedBanks i) with
      | some b => .did (execBankClaim n (bankAt b) s)
      | none => .core i t

/-- An engine's turn once its word is known: it claims the banks that it touches, and a matrix word has its core's loans
made again (R206, R207, R210). -/
def State.planWord (s : State) (n : Nat) (i : Instr) (t : State) : Plan :=
  match s.unclaimed n (engineBanks n t.act.rep i) with
  | some b => .did (execBankClaim n (bankAt b) s)
  | none =>
    if t.eng = .m ∧ !isStep i then
      (match t.renewLoans t.ctx n with
       | some u => .engine i u
       | none => .stop s)
    else .engine i t

/-- Whether a served core has engine work but does not own bank F, without which its engines do not run (R206). -/
def State.wantsF (s : State) (n : Nat) : Bool :=
  match s.actor n with
  | some t => !(t.core.qv.idle && t.core.qm.idle && t.core.qc.idle && t.core.copies.isEmpty) && (s.unclaimed n [6]).isSome
  | none => false

/-- A sequencer's turn: with work to do, it claims bank F first. -/
def State.planEngine (s : State) (n : Nat) (e : Eng) : Plan :=
  if s.wantsF n then .did (execBankClaim n .f s)
  else match s.readyEngine n e with
  | (some i, t) => s.planWord n i t
  | (none, t) => .stop t

/-- What a turn comes to. -/
def State.planTurn (s : State) : Turn → Plan
  | .core n => s.planCore n
  | .engine n e => s.planEngine n e
  | .event i => if isStep i then .event i s else .refuse
  | .tick k => .stop (s.advance k)
  | .favour k => .stop { s with favoured := k }
  | .evictI n row =>
    (match s.actor n with
     | some t => .stop (t.upd (fun c => { c with icache := c.icache.filter (fun x => x.1 != row) }))
     | none => .stop s)
  | .flip pq row => .stop { s with flips := insertNat s.flips (262144 * pq + row) }
  | .evictT unit ctx page =>
    .stop { s with tlb := s.tlb.filter (fun t => !(t.unit == unit && t.ctx == ctx && t.page == page)) }

/-! ## The model's own order (log entry 5) -/

/-- A turn of the model's own order. -/
abbrev Act := State → Plan

/-- A step without an encoding, by its meaning. -/
def evt (f : State → Result) : Act := fun s => .did (f s)

/-- A position in a list that the turns go round. -/
def State.spin (s : State) (n : Nat) : Nat := if n = 0 then 0 else s.turn % n

/-- The next row of one of the commands of a core. -/
def nextRow (n : Nat) (s : State) : Result :=
  match s.actor n with
  | none => .next s
  | some t =>
    let k := s.spin t.core.copies.length
    match t.core.copies[k]? with
    | some x => execRowTransfer n k x.next s
    | none => .next s

/-- The turns of one logical core and of its queues. -/
def coreActs (n : Nat) : List Act :=
  let eng := [Eng.v, Eng.m, Eng.c]
  [fun s => s.planCore n] ++ eng.map (fun e s => s.planEngine n e)
    ++ [evt (execStorePerform n), evt (execLoadReturn n)]
    ++ (List.range 16).map (fun h => evt (execHandleResolve n (BitVec.ofNat 4 h)))
    ++ [evt (fun s => execVectorLoadReturn n (s.spin ((s.actor n).map (fun t => t.core.owedRows.length) |>.getD 0)) s),
        evt (execMldaccRowArrival n), evt (nextRow n)]
    ++ eng.map (fun e => evt (fun s => execEntryComplete n e (s.spin ((s.actor n).map (fun t => (t.core.queue e).flight.length) |>.getD 0)) s))
    ++ eng.map (fun e => evt (execSaddlebagReturn n e))
    ++ [evt (execModeCrossing n), evt (execQuotaStall n), evt (execTrapDelivery n), evt (execFaoGrant n), evt (execTaskRetire n),
        evt (execTaskStart n), evt (execTaskBind n), evt (execCoreslice n)]
    ++ eng.map (fun e => evt (execBreakpointMatch n (.queue e))) ++ eng.map (fun e => evt (execHeadClassSample n e))

/-- The turns of a launch: its admission, its starts, its Burnisher, its end. -/
def launchActs (l : Nat) (x : Launch) : List Act :=
  if x.retired then []
  else [evt (execLaunchAdmit l)]
    ++ ((List.range 256).filter (fun n => x.admitted && x.spans n && !x.started.contains n)).map (fun n => evt (execLaunchStart n))
    ++ [evt (execBurnish l), evt (execLaunchRetire l)]

/-- The turns of a queue of the front end. -/
def queueActs (q : Nat) : List Act :=
  [evt (execNopPacket q), evt (execOprec q), evt (execGraph q), evt (execWrite q), evt (execSignal q), evt (execWait q),
   evt (execWrsig q), evt (execCopy q), evt (execTimestamp q), evt (execFence q), evt (execPacketComplete q), evt (execAgeLimit q)]

/-- The restore of the first segment that is wanted. -/
def restoreNext (s : State) : Result :=
  match (List.range s.segs.length).findSome? (fun k =>
      (s.segs[k]?).bind (fun g => if g.st = .restoring then
        ((List.range 512).map (fun i => 512 * s.physQuad g.quad + i)).find? (s.segmentFits g) |>.map (fun p => (k, p)) else none)) with
  | some (k, p) => execSegmentRestore k p s
  | none => .next s

/-- The next patch of a conversion: one in progress, then one that a write demands, then the lowest. -/
def patchNext (ctx rec : Nat) (s : State) : Result :=
  let c := SMap.get {} (s.context ctx).conv rec
  match (c.work.map (fun x => x.1) ++ c.want ++ List.range c.pcount).find? (fun p => !c.done.contains p) with
  | some p => execSkiverPatch ctx rec p s
  | none => execConversionComplete ctx rec s

/-- The turns of a context. -/
def ctxActs (ctx : Nat) (x : Ctx) : List Act :=
  [evt (execQslice ctx), evt (execPreemption ctx), evt (execSweep ctx)] ++ x.conv.map (fun c => evt (patchNext ctx c.1))

/-- The turns of one round of the model's own order. -/
def State.autoActs (s : State) : List Act :=
  let ns := ((s.cores.filter (fun x => s.served (x.1 / 512) (x.1 % 512))).map (fun x => x.1 % 512))
  let quads := (ns.foldl (fun l n => insertNat l (quadOf n)) []).filter (fun q => q < 64)
  let ls := (List.range s.launches.length).zip s.launches
  ns.flatMap coreActs ++ (quads.map s.physQuad).flatMap (fun q => [evt (execLeaseGrant q), evt (execLstallPass q)])
    ++ (List.range s.barriers.length).map (fun k => evt (execBarrierGenerationComplete k))
    ++ (List.range s.contribs.length).flatMap (fun k => [evt (execContributionArrive k), evt (execContributionRetry k)])
    ++ ls.flatMap (fun x => launchActs x.1 x.2)
    ++ ((s.pqueues.filter (fun q => q.2.enabled)).map (fun q => q.1)).flatMap queueActs
    ++ (List.range s.graphs.length).flatMap (fun g => [evt (execDynamicStep g), evt (execReplay g), evt (execVersionLate g)])
    ++ s.ctxs.flatMap (fun x => ctxActs x.1 x.2)
    ++ s.host.ctxTable.map (fun x => evt (execContextRecordEnable x.1)) ++ s.host.queueTable.map (fun x => evt (execQueueEnable x.1))
    ++ (List.range s.segs.length).map (fun k => evt (execSegmentSave k)) ++ [evt restoreNext]
    ++ (if s.host.busy then [evt execShoot, evt execHarvest, evt execStop, evt execImage, evt execResume, evt execDestroy,
          evt execCommandCompletion] else [])
    ++ (if s.pqueues.any (fun q => q.2.enabled && !q.2.active) then [evt rotateNext] else [])
    ++ (if s.scrubDue then [evt (execScrub (s.scrubbed / 262144) (s.scrubbed % 262144))] else [])
    ++ (s.ring.groups.take 1).map (fun g => evt (execBankConflictSample g.core g.eng g.vault g.rows))
    ++ s.remotes.map (fun r => evt (execRemoteTimeout r.id)) ++ [fun s => .stop (s.advance 1)]

/-- What has come about by itself before a turn: grants of the arrays that are over end (R224), and claims of other
packages for which a table now has room are taken in (R245). -/
def State.settled (s : State) : State := s.settleLeases.retryClaims

/-- The next turn: the agenda's first, or the model's own. -/
def State.plan (s : State) : Plan :=
  let s := s.settled
  match s.agenda with
  | t :: rest => { s with agenda := rest }.planTurn t
  | [] =>
    let l := s.autoActs
    (l.getD (s.turn % l.length) (fun s => .stop (s.advance 1))) { s with turn := s.turn + 1 }

/-- After an instruction of the control core: the cycles that it takes pass (R72), and at a yield point the physical core
may go to its other logical core (R18, R19). -/
def State.pay (before after : State) (i : Instr) : State :=
  let s := after.advance (issueCost i before.core after.core)
  if s.atYield then s.yieldCore else s

end Sys2Proof.Machine
end

