-- ==== Sys2Proof/Machine/Step.lean ====
section
/-! DEFINITION. One step of the package: the next turn, the instruction it comes to, and its cycles; and the placing of
an instruction where the next step fetches it. -/

namespace Sys2Proof.Machine

/-- What a plan comes to. -/
def perform : Plan → Host.Outcome State Fault Refusal
  | .core i t =>
    (match exec i t with
     | .next u => .next (State.pay t u i)
     | o => o)
  | .engine i t => exec i t
  | .event i t => exec i t
  | .stop t => .next t
  | .did r => r
  | .refuse => .refused .notAnEvent

/-- One step. A package that SHUTDOWN has stopped takes a power-up only (R340). -/
def step (s : State) : Host.Outcome State Fault Refusal :=
  if s.dead then
    (match s.agenda with
     | .event (.powerUp lost) :: rest => exec (.powerUp lost) { s with agenda := rest }
     | _ => .fault .packageStopped)
  else perform s.plan

/-- The state in which the next step fetches and runs the instruction whose table bits are `w` (log entry 4). -/
def State.withFetchWord (s : State) (nbits w : Nat) : State := s.place nbits w

end Sys2Proof.Machine
end

