-- ==== Sys2Proof/Laws/PerInstr.lean ====
section
/-! SUPPORT. Decoding undoes encoding (R46 to R61), one lemma per constructor of `Instr`, with the lemmas about the fields of
a word that they rest on. -/

namespace Sys2Proof.Laws.RoundTrip

set_option Elab.async false
set_option linter.unusedSimpArgs false
set_option linter.unnecessarySeqFocus false
set_option linter.unreachableTactic false
set_option linter.unusedTactic false

open Sys2Proof

/-! ## Fields of a word made of fields -/

/-- A field in the high part. -/
theorem fieldHigh {n m : Nat} (x : BitVec n) (y : BitVec m) (i k : Nat) (h : m ≤ i) :
    (x ++ y).extractLsb' i k = x.extractLsb' (i - m) k := BitVec.extractLsb'_append_eq_of_le h

/-- A field in the low part. -/
theorem fieldLow {n m : Nat} (x : BitVec n) (y : BitVec m) (i k : Nat) (h : i + k ≤ m) :
    (x ++ y).extractLsb' i k = y.extractLsb' i k := BitVec.extractLsb'_append_eq_of_add_le h

/-- The whole. -/
theorem fieldWhole {n : Nat} (x : BitVec n) : x.extractLsb' 0 n = x := BitVec.extractLsb'_eq_self

/-! ## The statement -/

/-- A well-formed instruction's words decode to it, with every operand; a step of the part has no words. -/
def Statement (i : Instr) : Prop :=
  i.wf = true →
    match encode i with
    | .words ws => decodeWords ws = .ok i
    | .engine w => decodeEng w = .ok i
    | .step => True

/-- A step has no words. -/
theorem step {i : Instr} (h : encode i = .step) : Statement i := by
  intro _
  rw [h]
  trivial

/-- A one-word instruction (R46). -/
theorem one {w : BitVec 32} {rest : List (BitVec 32)} {i : Instr} (hw : i.wf = true)
    (h : (w.extractLsb' 26 6).toNat < 0x38) (hd : decodeOne w = .ok i) : decodeWords (w :: rest) = .ok i := by
  have h1 : firstWordError w = none := by
    rw [firstWordError]
    split <;> first | omega | rfl | rw [if_pos h]
  have h2 : wordCount w = 1 := by simp only [wordCount, if_pos h]
  simp only [decodeWords, h1, h2, if_true, hd, checkWf, hw]

/-- A longer instruction (R46). -/
theorem long {w : BitVec 32} {rest : List (BitVec 32)} {i : Instr} (hw : i.wf = true)
    (h0 : firstWordError w = none) (h : 0x38 ≤ (w.extractLsb' 26 6).toNat) (hd : decodeLong w rest = .ok i) :
    decodeWords (w :: rest) = .ok i := by
  have h2 : wordCount w ≠ 1 := by
    simp only [wordCount, if_neg (Nat.not_lt.mpr h)]
    split <;> decide
  simp only [decodeWords, h0, if_neg h2, hd, checkWf, hw, if_true]

/-- An engine word (R54). -/
theorem engine {w : EWord} {i : Instr} (hw : i.wf = true)
    (hd : classRow w (w.extractLsb' 46 2).toNat = .ok i) : decodeEng w = .ok i := by
  simp only [decodeEng, hd, checkWf, hw, if_true]

/-! ## The fields of matrix and sequencer words (R58, R60) -/

theorem operandClass (c : BitVec 2) (n : BitVec 6) (sc : BitVec 4) (rc : BitVec 10) (p : BitVec 26) :
    (c ++ n ++ sc ++ rc ++ p).extractLsb' 46 2 = c := by simp (disch := decide) only [fieldHigh, fieldLow, fieldWhole, Nat.reduceSub]

theorem operandCode (c : BitVec 2) (n : BitVec 6) (sc : BitVec 4) (rc : BitVec 10) (p : BitVec 26) :
    (c ++ n ++ sc ++ rc ++ p).extractLsb' 40 6 = n := by simp (disch := decide) only [fieldHigh, fieldLow, fieldWhole, Nat.reduceSub]

theorem operandStall (c : BitVec 2) (n : BitVec 6) (sc : BitVec 4) (rc : BitVec 10) (p : BitVec 26) :
    (c ++ n ++ sc ++ rc ++ p).extractLsb' 36 4 = sc := by simp (disch := decide) only [fieldHigh, fieldLow, fieldWhole, Nat.reduceSub]

theorem operandCount (c : BitVec 2) (n : BitVec 6) (sc : BitVec 4) (rc : BitVec 10) (p : BitVec 26) :
    (c ++ n ++ sc ++ rc ++ p).extractLsb' 26 10 = rc := by simp (disch := decide) only [fieldHigh, fieldLow, fieldWhole, Nat.reduceSub]

theorem operandField (c : BitVec 2) (n : BitVec 6) (sc : BitVec 4) (rc : BitVec 10) (p : BitVec 26) (i k : Nat)
    (h : i + k ≤ 26) : (c ++ n ++ sc ++ rc ++ p).extractLsb' i k = p.extractLsb' i k := fieldLow _ _ _ _ h

/-! ## The fields of a copy word (R59) -/

theorem copyClass (n : BitVec 6) (sc : BitVec 4) (rc : BitVec 10) (ws wd : BitVec 5) (ch md : BitVec 3)
    (aux : BitVec 10) : (2#2 ++ n ++ sc ++ rc ++ ws ++ wd ++ ch ++ md ++ aux).extractLsb' 46 2 = 2#2 := by
  simp (disch := decide) only [fieldHigh, fieldLow, fieldWhole, Nat.reduceSub]

theorem copyCode (n : BitVec 6) (sc : BitVec 4) (rc : BitVec 10) (ws wd : BitVec 5) (ch md : BitVec 3)
    (aux : BitVec 10) : (2#2 ++ n ++ sc ++ rc ++ ws ++ wd ++ ch ++ md ++ aux).extractLsb' 40 6 = n := by
  simp (disch := decide) only [fieldHigh, fieldLow, fieldWhole, Nat.reduceSub]

theorem copyStall (n : BitVec 6) (sc : BitVec 4) (rc : BitVec 10) (ws wd : BitVec 5) (ch md : BitVec 3)
    (aux : BitVec 10) : (2#2 ++ n ++ sc ++ rc ++ ws ++ wd ++ ch ++ md ++ aux).extractLsb' 36 4 = sc := by
  simp (disch := decide) only [fieldHigh, fieldLow, fieldWhole, Nat.reduceSub]

theorem copyCount (n : BitVec 6) (sc : BitVec 4) (rc : BitVec 10) (ws wd : BitVec 5) (ch md : BitVec 3)
    (aux : BitVec 10) : (2#2 ++ n ++ sc ++ rc ++ ws ++ wd ++ ch ++ md ++ aux).extractLsb' 26 10 = rc := by
  simp (disch := decide) only [fieldHigh, fieldLow, fieldWhole, Nat.reduceSub]

theorem copySource (n : BitVec 6) (sc : BitVec 4) (rc : BitVec 10) (ws wd : BitVec 5) (ch md : BitVec 3)
    (aux : BitVec 10) : (2#2 ++ n ++ sc ++ rc ++ ws ++ wd ++ ch ++ md ++ aux).extractLsb' 21 5 = ws := by
  simp (disch := decide) only [fieldHigh, fieldLow, fieldWhole, Nat.reduceSub]

theorem copyDest (n : BitVec 6) (sc : BitVec 4) (rc : BitVec 10) (ws wd : BitVec 5) (ch md : BitVec 3)
    (aux : BitVec 10) : (2#2 ++ n ++ sc ++ rc ++ ws ++ wd ++ ch ++ md ++ aux).extractLsb' 16 5 = wd := by
  simp (disch := decide) only [fieldHigh, fieldLow, fieldWhole, Nat.reduceSub]

theorem copyChannel (n : BitVec 6) (sc : BitVec 4) (rc : BitVec 10) (ws wd : BitVec 5) (ch md : BitVec 3)
    (aux : BitVec 10) : (2#2 ++ n ++ sc ++ rc ++ ws ++ wd ++ ch ++ md ++ aux).extractLsb' 13 3 = ch := by
  simp (disch := decide) only [fieldHigh, fieldLow, fieldWhole, Nat.reduceSub]

theorem copyMod (n : BitVec 6) (sc : BitVec 4) (rc : BitVec 10) (ws wd : BitVec 5) (ch md : BitVec 3)
    (aux : BitVec 10) : (2#2 ++ n ++ sc ++ rc ++ ws ++ wd ++ ch ++ md ++ aux).extractLsb' 10 3 = md := by
  simp (disch := decide) only [fieldHigh, fieldLow, fieldWhole, Nat.reduceSub]

theorem copyDestHigh (n : BitVec 6) (sc : BitVec 4) (rc : BitVec 10) (ws wd : BitVec 5) (ch md : BitVec 3)
    (aux : BitVec 10) : (2#2 ++ n ++ sc ++ rc ++ ws ++ wd ++ ch ++ md ++ aux).extractLsb' 17 4 = wd.extractLsb' 1 4 := by
  simp (disch := decide) only [fieldHigh, fieldLow, fieldWhole, Nat.reduceSub]

theorem copyDestLow (n : BitVec 6) (sc : BitVec 4) (rc : BitVec 10) (ws wd : BitVec 5) (ch md : BitVec 3)
    (aux : BitVec 10) : (2#2 ++ n ++ sc ++ rc ++ ws ++ wd ++ ch ++ md ++ aux).extractLsb' 16 1 = wd.extractLsb' 0 1 := by
  simp (disch := decide) only [fieldHigh, fieldLow, fieldWhole, Nat.reduceSub]

theorem copyAux (n : BitVec 6) (sc : BitVec 4) (rc : BitVec 10) (ws wd : BitVec 5) (ch md : BitVec 3)
    (aux : BitVec 10) (i k : Nat) (h : i + k ≤ 10) : (2#2 ++ n ++ sc ++ rc ++ ws ++ wd ++ ch ++ md ++ aux).extractLsb' i k = aux.extractLsb' i k := fieldLow _ _ _ _ h

/-! ## The CSR group (R84) -/

/-- What a word of the CSR group decodes to, by its fields. -/
theorem csrWord (d a : BitVec 5) (ck : BitVec 2) (c : BitVec 12) :
    decodeOne (43#6 ++ d ++ a ++ ck ++ 0#2 ++ c : BitVec 32) =
      if ck = 0#2 ∧ a ≠ 0#5 then .error .zeroField
      else if c = 0x00C#12 then .ok (.residAccess ck d a)
      else if ck = 0#2 then (if c = 0x020#12 then .ok (.engstRead d) else .ok (.csrr d c))
      else if c = 0x013#12 then .ok (.xstatWrite ck d a)
      else if c.extractLsb' 3 9 = 6#9 then .ok (.wmWrite ck d a (c.extractLsb' 0 3))
      else if ck = 1#2 then .ok (.csrw d a c)
      else if ck = 2#2 then .ok (.csrs d a c)
      else .ok (.csrc d a c) := by
  simp (disch := decide) only [fieldHigh, fieldLow, fieldWhole, Nat.reduceSub, BitVec.reduceExtractLsb', BitVec.reduceToNat, decodeOne, oneRow, decodeCsr, ne_eq, not_true, if_false]

/-- A CSR number with no effect of its own (R84). -/
theorem csrOrdinary (c : BitVec 12)
    (h : (¬c.toNat = 0x00C ∧ ¬c.toNat = 0x013) ∧ ¬c.toNat / 8 = 6) :
    c ≠ 0x00C#12 ∧ c ≠ 0x013#12 ∧ c.extractLsb' 3 9 ≠ 6#9 := by
  refine ⟨fun e => h.1.1 (by rw [e]; rfl), fun e => h.1.2 (by rw [e]; rfl), fun e => h.2 ?_⟩
  have e' : c.toNat / 8 % 512 = 6 := by
    have e' := congrArg BitVec.toNat e
    rwa [BitVec.extractLsb'_toNat, Nat.shiftRight_eq_div_pow] at e'
  have := c.isLt
  omega

/-- The two parts of an engine word that `issue` carries (R47, format L3). -/
theorem issueHalves (w : EWord) : (w.extractLsb' 16 32 ++ w.extractLsb' 0 16 : BitVec 48) = w := by
  rw [BitVec.extractLsb'_append_extractLsb'_eq_extractLsb' (by decide)]
  exact fieldWhole w

/-! ## The constructors -/

theorem add (d a b : Reg) : Statement (.add d a b) := fun h => one h
  (by simp (disch := decide) only [fieldHigh, fieldLow, fieldWhole, Nat.reduceSub, BitVec.reduceExtractLsb', BitVec.reduceToNat]; decide)
  (by simp (disch := decide) only [fieldHigh, fieldLow, fieldWhole, Nat.reduceSub, BitVec.reduceExtractLsb', BitVec.reduceToNat, decodeOne, oneRow, decodeOpr, oprRow, if_true] <;> rfl)

theorem sub (d a b : Reg) : Statement (.sub d a b) := fun h => one h
  (by simp (disch := decide) only [fieldHigh, fieldLow, fieldWhole, Nat.reduceSub, BitVec.reduceExtractLsb', BitVec.reduceToNat]; decide)
  (by simp (disch := decide) only [fieldHigh, fieldLow, fieldWhole, Nat.reduceSub, BitVec.reduceExtractLsb', BitVec.reduceToNat, decodeOne, oneRow, decodeOpr, oprRow, if_true] <;> rfl)

theorem and (d a b : Reg) : Statement (.and d a b) := fun h => one h
  (by simp (disch := decide) only [fieldHigh, fieldLow, fieldWhole, Nat.reduceSub, BitVec.reduceExtractLsb', BitVec.reduceToNat]; decide)
  (by simp (disch := decide) only [fieldHigh, fieldLow, fieldWhole, Nat.reduceSub, BitVec.reduceExtractLsb', BitVec.reduceToNat, decodeOne, oneRow, decodeOpr, oprRow, if_true] <;> rfl)

theorem or (d a b : Reg) : Statement (.or d a b) := fun h => one h
  (by simp (disch := decide) only [fieldHigh, fieldLow, fieldWhole, Nat.reduceSub, BitVec.reduceExtractLsb', BitVec.reduceToNat]; decide)
  (by simp (disch := decide) only [fieldHigh, fieldLow, fieldWhole, Nat.reduceSub, BitVec.reduceExtractLsb', BitVec.reduceToNat, decodeOne, oneRow, decodeOpr, oprRow, if_true] <;> rfl)

theorem xor (d a b : Reg) : Statement (.xor d a b) := fun h => one h
  (by simp (disch := decide) only [fieldHigh, fieldLow, fieldWhole, Nat.reduceSub, BitVec.reduceExtractLsb', BitVec.reduceToNat]; decide)
  (by simp (disch := decide) only [fieldHigh, fieldLow, fieldWhole, Nat.reduceSub, BitVec.reduceExtractLsb', BitVec.reduceToNat, decodeOne, oneRow, decodeOpr, oprRow, if_true] <;> rfl)

theorem andn (d a b : Reg) : Statement (.andn d a b) := fun h => one h
  (by simp (disch := decide) only [fieldHigh, fieldLow, fieldWhole, Nat.reduceSub, BitVec.reduceExtractLsb', BitVec.reduceToNat]; decide)
  (by simp (disch := decide) only [fieldHigh, fieldLow, fieldWhole, Nat.reduceSub, BitVec.reduceExtractLsb', BitVec.reduceToNat, decodeOne, oneRow, decodeOpr, oprRow, if_true] <;> rfl)

theorem sll (d a b : Reg) : Statement (.sll d a b) := fun h => one h
  (by simp (disch := decide) only [fieldHigh, fieldLow, fieldWhole, Nat.reduceSub, BitVec.reduceExtractLsb', BitVec.reduceToNat]; decide)
  (by simp (disch := decide) only [fieldHigh, fieldLow, fieldWhole, Nat.reduceSub, BitVec.reduceExtractLsb', BitVec.reduceToNat, decodeOne, oneRow, decodeOpr, oprRow, if_true] <;> rfl)

theorem srl (d a b : Reg) : Statement (.srl d a b) := fun h => one h
  (by simp (disch := decide) only [fieldHigh, fieldLow, fieldWhole, Nat.reduceSub, BitVec.reduceExtractLsb', BitVec.reduceToNat]; decide)
  (by simp (disch := decide) only [fieldHigh, fieldLow, fieldWhole, Nat.reduceSub, BitVec.reduceExtractLsb', BitVec.reduceToNat, decodeOne, oneRow, decodeOpr, oprRow, if_true] <;> rfl)

theorem sra (d a b : Reg) : Statement (.sra d a b) := fun h => one h
  (by simp (disch := decide) only [fieldHigh, fieldLow, fieldWhole, Nat.reduceSub, BitVec.reduceExtractLsb', BitVec.reduceToNat]; decide)
  (by simp (disch := decide) only [fieldHigh, fieldLow, fieldWhole, Nat.reduceSub, BitVec.reduceExtractLsb', BitVec.reduceToNat, decodeOne, oneRow, decodeOpr, oprRow, if_true] <;> rfl)

theorem rol (d a b : Reg) : Statement (.rol d a b) := fun h => one h
  (by simp (disch := decide) only [fieldHigh, fieldLow, fieldWhole, Nat.reduceSub, BitVec.reduceExtractLsb', BitVec.reduceToNat]; decide)
  (by simp (disch := decide) only [fieldHigh, fieldLow, fieldWhole, Nat.reduceSub, BitVec.reduceExtractLsb', BitVec.reduceToNat, decodeOne, oneRow, decodeOpr, oprRow, if_true] <;> rfl)

theorem mul (d a b : Reg) : Statement (.mul d a b) := fun h => one h
  (by simp (disch := decide) only [fieldHigh, fieldLow, fieldWhole, Nat.reduceSub, BitVec.reduceExtractLsb', BitVec.reduceToNat]; decide)
  (by simp (disch := decide) only [fieldHigh, fieldLow, fieldWhole, Nat.reduceSub, BitVec.reduceExtractLsb', BitVec.reduceToNat, decodeOne, oneRow, decodeOpr, oprRow, if_true] <;> rfl)

theorem mulh (d a b : Reg) : Statement (.mulh d a b) := fun h => one h
  (by simp (disch := decide) only [fieldHigh, fieldLow, fieldWhole, Nat.reduceSub, BitVec.reduceExtractLsb', BitVec.reduceToNat]; decide)
  (by simp (disch := decide) only [fieldHigh, fieldLow, fieldWhole, Nat.reduceSub, BitVec.reduceExtractLsb', BitVec.reduceToNat, decodeOne, oneRow, decodeOpr, oprRow, if_true] <;> rfl)

theorem mulhn (d a b : Reg) : Statement (.mulhn d a b) := fun h => one h
  (by simp (disch := decide) only [fieldHigh, fieldLow, fieldWhole, Nat.reduceSub, BitVec.reduceExtractLsb', BitVec.reduceToNat]; decide)
  (by simp (disch := decide) only [fieldHigh, fieldLow, fieldWhole, Nat.reduceSub, BitVec.reduceExtractLsb', BitVec.reduceToNat, decodeOne, oneRow, decodeOpr, oprRow, if_true] <;> rfl)

theorem div (d a b : Reg) : Statement (.div d a b) := fun h => one h
  (by simp (disch := decide) only [fieldHigh, fieldLow, fieldWhole, Nat.reduceSub, BitVec.reduceExtractLsb', BitVec.reduceToNat]; decide)
  (by simp (disch := decide) only [fieldHigh, fieldLow, fieldWhole, Nat.reduceSub, BitVec.reduceExtractLsb', BitVec.reduceToNat, decodeOne, oneRow, decodeOpr, oprRow, if_true] <;> rfl)

theorem divn (d a b : Reg) : Statement (.divn d a b) := fun h => one h
  (by simp (disch := decide) only [fieldHigh, fieldLow, fieldWhole, Nat.reduceSub, BitVec.reduceExtractLsb', BitVec.reduceToNat]; decide)
  (by simp (disch := decide) only [fieldHigh, fieldLow, fieldWhole, Nat.reduceSub, BitVec.reduceExtractLsb', BitVec.reduceToNat, decodeOne, oneRow, decodeOpr, oprRow, if_true] <;> rfl)

theorem rem (d a b : Reg) : Statement (.rem d a b) := fun h => one h
  (by simp (disch := decide) only [fieldHigh, fieldLow, fieldWhole, Nat.reduceSub, BitVec.reduceExtractLsb', BitVec.reduceToNat]; decide)
  (by simp (disch := decide) only [fieldHigh, fieldLow, fieldWhole, Nat.reduceSub, BitVec.reduceExtractLsb', BitVec.reduceToNat, decodeOne, oneRow, decodeOpr, oprRow, if_true] <;> rfl)

theorem remn (d a b : Reg) : Statement (.remn d a b) := fun h => one h
  (by simp (disch := decide) only [fieldHigh, fieldLow, fieldWhole, Nat.reduceSub, BitVec.reduceExtractLsb', BitVec.reduceToNat]; decide)
  (by simp (disch := decide) only [fieldHigh, fieldLow, fieldWhole, Nat.reduceSub, BitVec.reduceExtractLsb', BitVec.reduceToNat, decodeOne, oneRow, decodeOpr, oprRow, if_true] <;> rfl)

theorem min (d a b : Reg) : Statement (.min d a b) := fun h => one h
  (by simp (disch := decide) only [fieldHigh, fieldLow, fieldWhole, Nat.reduceSub, BitVec.reduceExtractLsb', BitVec.reduceToNat]; decide)
  (by simp (disch := decide) only [fieldHigh, fieldLow, fieldWhole, Nat.reduceSub, BitVec.reduceExtractLsb', BitVec.reduceToNat, decodeOne, oneRow, decodeOpr, oprRow, if_true] <;> rfl)

theorem max (d a b : Reg) : Statement (.max d a b) := fun h => one h
  (by simp (disch := decide) only [fieldHigh, fieldLow, fieldWhole, Nat.reduceSub, BitVec.reduceExtractLsb', BitVec.reduceToNat]; decide)
  (by simp (disch := decide) only [fieldHigh, fieldLow, fieldWhole, Nat.reduceSub, BitVec.reduceExtractLsb', BitVec.reduceToNat, decodeOne, oneRow, decodeOpr, oprRow, if_true] <;> rfl)

theorem minn (d a b : Reg) : Statement (.minn d a b) := fun h => one h
  (by simp (disch := decide) only [fieldHigh, fieldLow, fieldWhole, Nat.reduceSub, BitVec.reduceExtractLsb', BitVec.reduceToNat]; decide)
  (by simp (disch := decide) only [fieldHigh, fieldLow, fieldWhole, Nat.reduceSub, BitVec.reduceExtractLsb', BitVec.reduceToNat, decodeOne, oneRow, decodeOpr, oprRow, if_true] <;> rfl)

theorem maxn (d a b : Reg) : Statement (.maxn d a b) := fun h => one h
  (by simp (disch := decide) only [fieldHigh, fieldLow, fieldWhole, Nat.reduceSub, BitVec.reduceExtractLsb', BitVec.reduceToNat]; decide)
  (by simp (disch := decide) only [fieldHigh, fieldLow, fieldWhole, Nat.reduceSub, BitVec.reduceExtractLsb', BitVec.reduceToNat, decodeOne, oneRow, decodeOpr, oprRow, if_true] <;> rfl)

theorem slt (d a b : Reg) : Statement (.slt d a b) := fun h => one h
  (by simp (disch := decide) only [fieldHigh, fieldLow, fieldWhole, Nat.reduceSub, BitVec.reduceExtractLsb', BitVec.reduceToNat]; decide)
  (by simp (disch := decide) only [fieldHigh, fieldLow, fieldWhole, Nat.reduceSub, BitVec.reduceExtractLsb', BitVec.reduceToNat, decodeOne, oneRow, decodeOpr, oprRow, if_true] <;> rfl)

theorem sltn (d a b : Reg) : Statement (.sltn d a b) := fun h => one h
  (by simp (disch := decide) only [fieldHigh, fieldLow, fieldWhole, Nat.reduceSub, BitVec.reduceExtractLsb', BitVec.reduceToNat]; decide)
  (by simp (disch := decide) only [fieldHigh, fieldLow, fieldWhole, Nat.reduceSub, BitVec.reduceExtractLsb', BitVec.reduceToNat, decodeOne, oneRow, decodeOpr, oprRow, if_true] <;> rfl)

theorem seq (d a b : Reg) : Statement (.seq d a b) := fun h => one h
  (by simp (disch := decide) only [fieldHigh, fieldLow, fieldWhole, Nat.reduceSub, BitVec.reduceExtractLsb', BitVec.reduceToNat]; decide)
  (by simp (disch := decide) only [fieldHigh, fieldLow, fieldWhole, Nat.reduceSub, BitVec.reduceExtractLsb', BitVec.reduceToNat, decodeOne, oneRow, decodeOpr, oprRow, if_true] <;> rfl)

theorem clz (d a : Reg) : Statement (.clz d a) := fun h => one h
  (by simp (disch := decide) only [fieldHigh, fieldLow, fieldWhole, Nat.reduceSub, BitVec.reduceExtractLsb', BitVec.reduceToNat]; decide)
  (by simp (disch := decide) only [fieldHigh, fieldLow, fieldWhole, Nat.reduceSub, BitVec.reduceExtractLsb', BitVec.reduceToNat, decodeOne, oneRow, decodeOpr, oprRow, if_true] <;> rfl)

theorem ctz (d a : Reg) : Statement (.ctz d a) := fun h => one h
  (by simp (disch := decide) only [fieldHigh, fieldLow, fieldWhole, Nat.reduceSub, BitVec.reduceExtractLsb', BitVec.reduceToNat]; decide)
  (by simp (disch := decide) only [fieldHigh, fieldLow, fieldWhole, Nat.reduceSub, BitVec.reduceExtractLsb', BitVec.reduceToNat, decodeOne, oneRow, decodeOpr, oprRow, if_true] <;> rfl)

theorem pop (d a : Reg) : Statement (.pop d a) := fun h => one h
  (by simp (disch := decide) only [fieldHigh, fieldLow, fieldWhole, Nat.reduceSub, BitVec.reduceExtractLsb', BitVec.reduceToNat]; decide)
  (by simp (disch := decide) only [fieldHigh, fieldLow, fieldWhole, Nat.reduceSub, BitVec.reduceExtractLsb', BitVec.reduceToNat, decodeOne, oneRow, decodeOpr, oprRow, if_true] <;> rfl)

theorem sext (d a : Reg) (w : BitVec 2) : Statement (.sext d a w) := fun h => one h
  (by simp (disch := decide) only [fieldHigh, fieldLow, fieldWhole, Nat.reduceSub, BitVec.reduceExtractLsb', BitVec.reduceToNat]; decide)
  (by simp (disch := decide) only [fieldHigh, fieldLow, fieldWhole, Nat.reduceSub, BitVec.reduceExtractLsb', BitVec.reduceToNat, decodeOne, oneRow, decodeOpr, oprRow, if_true] <;> rfl)

theorem zext (d a : Reg) (w : BitVec 2) : Statement (.zext d a w) := fun h => one h
  (by simp (disch := decide) only [fieldHigh, fieldLow, fieldWhole, Nat.reduceSub, BitVec.reduceExtractLsb', BitVec.reduceToNat]; decide)
  (by simp (disch := decide) only [fieldHigh, fieldLow, fieldWhole, Nat.reduceSub, BitVec.reduceExtractLsb', BitVec.reduceToNat, decodeOne, oneRow, decodeOpr, oprRow, if_true] <;> rfl)

theorem sel (d a b c : Reg) : Statement (.sel d a b c) := fun h => one h
  (by simp (disch := decide) only [fieldHigh, fieldLow, fieldWhole, Nat.reduceSub, BitVec.reduceExtractLsb', BitVec.reduceToNat]; decide)
  (by simp (disch := decide) only [fieldHigh, fieldLow, fieldWhole, Nat.reduceSub, BitVec.reduceExtractLsb', BitVec.reduceToNat, decodeOne, oneRow, decodeOpr, oprRow, if_true] <;> rfl)

theorem addw (d a b : Reg) : Statement (.addw d a b) := fun h => one h
  (by simp (disch := decide) only [fieldHigh, fieldLow, fieldWhole, Nat.reduceSub, BitVec.reduceExtractLsb', BitVec.reduceToNat]; decide)
  (by simp (disch := decide) only [fieldHigh, fieldLow, fieldWhole, Nat.reduceSub, BitVec.reduceExtractLsb', BitVec.reduceToNat, decodeOne, oneRow, decodeOpr, oprRow, if_true] <;> rfl)

theorem subw (d a b : Reg) : Statement (.subw d a b) := fun h => one h
  (by simp (disch := decide) only [fieldHigh, fieldLow, fieldWhole, Nat.reduceSub, BitVec.reduceExtractLsb', BitVec.reduceToNat]; decide)
  (by simp (disch := decide) only [fieldHigh, fieldLow, fieldWhole, Nat.reduceSub, BitVec.reduceExtractLsb', BitVec.reduceToNat, decodeOne, oneRow, decodeOpr, oprRow, if_true] <;> rfl)

theorem mulw (d a b : Reg) : Statement (.mulw d a b) := fun h => one h
  (by simp (disch := decide) only [fieldHigh, fieldLow, fieldWhole, Nat.reduceSub, BitVec.reduceExtractLsb', BitVec.reduceToNat]; decide)
  (by simp (disch := decide) only [fieldHigh, fieldLow, fieldWhole, Nat.reduceSub, BitVec.reduceExtractLsb', BitVec.reduceToNat, decodeOne, oneRow, decodeOpr, oprRow, if_true] <;> rfl)

theorem shadd (d a b : Reg) (n : BitVec 5) : Statement (.shadd d a b n) := fun h => one h
  (by simp (disch := decide) only [fieldHigh, fieldLow, fieldWhole, Nat.reduceSub, BitVec.reduceExtractLsb', BitVec.reduceToNat]; decide)
  (by simp (disch := decide) only [fieldHigh, fieldLow, fieldWhole, Nat.reduceSub, BitVec.reduceExtractLsb', BitVec.reduceToNat, decodeOne, oneRow, decodeOpr, oprRow, if_true] <;> rfl)

theorem addi (d a : Reg) (i : BitVec 16) : Statement (.addi d a i) := fun h => one h
  (by simp (disch := decide) only [fieldHigh, fieldLow, fieldWhole, Nat.reduceSub, BitVec.reduceExtractLsb', BitVec.reduceToNat]; decide)
  (by simp (disch := decide) only [fieldHigh, fieldLow, fieldWhole, Nat.reduceSub, BitVec.reduceExtractLsb', BitVec.reduceToNat, decodeOne, oneRow, if_true] <;> rfl)

theorem andi (d a : Reg) (i : BitVec 16) : Statement (.andi d a i) := fun h => one h
  (by simp (disch := decide) only [fieldHigh, fieldLow, fieldWhole, Nat.reduceSub, BitVec.reduceExtractLsb', BitVec.reduceToNat]; decide)
  (by simp (disch := decide) only [fieldHigh, fieldLow, fieldWhole, Nat.reduceSub, BitVec.reduceExtractLsb', BitVec.reduceToNat, decodeOne, oneRow, if_true] <;> rfl)

theorem ori (d a : Reg) (i : BitVec 16) : Statement (.ori d a i) := fun h => one h
  (by simp (disch := decide) only [fieldHigh, fieldLow, fieldWhole, Nat.reduceSub, BitVec.reduceExtractLsb', BitVec.reduceToNat]; decide)
  (by simp (disch := decide) only [fieldHigh, fieldLow, fieldWhole, Nat.reduceSub, BitVec.reduceExtractLsb', BitVec.reduceToNat, decodeOne, oneRow, if_true] <;> rfl)

theorem xori (d a : Reg) (i : BitVec 16) : Statement (.xori d a i) := fun h => one h
  (by simp (disch := decide) only [fieldHigh, fieldLow, fieldWhole, Nat.reduceSub, BitVec.reduceExtractLsb', BitVec.reduceToNat]; decide)
  (by simp (disch := decide) only [fieldHigh, fieldLow, fieldWhole, Nat.reduceSub, BitVec.reduceExtractLsb', BitVec.reduceToNat, decodeOne, oneRow, if_true] <;> rfl)

theorem slti (d a : Reg) (i : BitVec 16) : Statement (.slti d a i) := fun h => one h
  (by simp (disch := decide) only [fieldHigh, fieldLow, fieldWhole, Nat.reduceSub, BitVec.reduceExtractLsb', BitVec.reduceToNat]; decide)
  (by simp (disch := decide) only [fieldHigh, fieldLow, fieldWhole, Nat.reduceSub, BitVec.reduceExtractLsb', BitVec.reduceToNat, decodeOne, oneRow, if_true] <;> rfl)

theorem sltin (d a : Reg) (i : BitVec 16) : Statement (.sltin d a i) := fun h => one h
  (by simp (disch := decide) only [fieldHigh, fieldLow, fieldWhole, Nat.reduceSub, BitVec.reduceExtractLsb', BitVec.reduceToNat]; decide)
  (by simp (disch := decide) only [fieldHigh, fieldLow, fieldWhole, Nat.reduceSub, BitVec.reduceExtractLsb', BitVec.reduceToNat, decodeOne, oneRow, if_true] <;> rfl)

theorem slli (d a : Reg) (n : BitVec 6) : Statement (.slli d a n) := fun h => one h
  (by simp (disch := decide) only [fieldHigh, fieldLow, fieldWhole, Nat.reduceSub, BitVec.reduceExtractLsb', BitVec.reduceToNat]; decide)
  (by simp (disch := decide) only [fieldHigh, fieldLow, fieldWhole, Nat.reduceSub, BitVec.reduceExtractLsb', BitVec.reduceToNat, decodeOne, oneRow, if_true] <;> rfl)

theorem srli (d a : Reg) (n : BitVec 6) : Statement (.srli d a n) := fun h => one h
  (by simp (disch := decide) only [fieldHigh, fieldLow, fieldWhole, Nat.reduceSub, BitVec.reduceExtractLsb', BitVec.reduceToNat]; decide)
  (by simp (disch := decide) only [fieldHigh, fieldLow, fieldWhole, Nat.reduceSub, BitVec.reduceExtractLsb', BitVec.reduceToNat, decodeOne, oneRow, if_true] <;> rfl)

theorem srai (d a : Reg) (n : BitVec 6) : Statement (.srai d a n) := fun h => one h
  (by simp (disch := decide) only [fieldHigh, fieldLow, fieldWhole, Nat.reduceSub, BitVec.reduceExtractLsb', BitVec.reduceToNat]; decide)
  (by simp (disch := decide) only [fieldHigh, fieldLow, fieldWhole, Nat.reduceSub, BitVec.reduceExtractLsb', BitVec.reduceToNat, decodeOne, oneRow, if_true] <;> rfl)

theorem roli (d a : Reg) (n : BitVec 6) : Statement (.roli d a n) := fun h => one h
  (by simp (disch := decide) only [fieldHigh, fieldLow, fieldWhole, Nat.reduceSub, BitVec.reduceExtractLsb', BitVec.reduceToNat]; decide)
  (by simp (disch := decide) only [fieldHigh, fieldLow, fieldWhole, Nat.reduceSub, BitVec.reduceExtractLsb', BitVec.reduceToNat, decodeOne, oneRow, if_true] <;> rfl)

theorem lui (d : Reg) (i : BitVec 16) : Statement (.lui d i) := fun h => one h
  (by simp (disch := decide) only [fieldHigh, fieldLow, fieldWhole, Nat.reduceSub, BitVec.reduceExtractLsb', BitVec.reduceToNat]; decide)
  (by simp (disch := decide) only [fieldHigh, fieldLow, fieldWhole, Nat.reduceSub, BitVec.reduceExtractLsb', BitVec.reduceToNat, decodeOne, oneRow, if_true] <;> rfl)

theorem muli (d a : Reg) (i : BitVec 16) : Statement (.muli d a i) := fun h => one h
  (by simp (disch := decide) only [fieldHigh, fieldLow, fieldWhole, Nat.reduceSub, BitVec.reduceExtractLsb', BitVec.reduceToNat]; decide)
  (by simp (disch := decide) only [fieldHigh, fieldLow, fieldWhole, Nat.reduceSub, BitVec.reduceExtractLsb', BitVec.reduceToNat, decodeOne, oneRow, if_true] <;> rfl)

theorem bfx (d a : Reg) (p n : BitVec 6) : Statement (.bfx d a p n) := fun h => one h
  (by simp (disch := decide) only [fieldHigh, fieldLow, fieldWhole, Nat.reduceSub, BitVec.reduceExtractLsb', BitVec.reduceToNat]; decide)
  (by simp (disch := decide) only [fieldHigh, fieldLow, fieldWhole, Nat.reduceSub, BitVec.reduceExtractLsb', BitVec.reduceToNat, decodeOne, oneRow, if_true] <;> rfl)

theorem bfxS (d a : Reg) (p n : BitVec 6) : Statement (.bfxS d a p n) := fun h => one h
  (by simp (disch := decide) only [fieldHigh, fieldLow, fieldWhole, Nat.reduceSub, BitVec.reduceExtractLsb', BitVec.reduceToNat]; decide)
  (by simp (disch := decide) only [fieldHigh, fieldLow, fieldWhole, Nat.reduceSub, BitVec.reduceExtractLsb', BitVec.reduceToNat, decodeOne, oneRow, if_true] <;> rfl)

theorem bfi (d a : Reg) (p n : BitVec 6) : Statement (.bfi d a p n) := fun h => one h
  (by simp (disch := decide) only [fieldHigh, fieldLow, fieldWhole, Nat.reduceSub, BitVec.reduceExtractLsb', BitVec.reduceToNat]; decide)
  (by simp (disch := decide) only [fieldHigh, fieldLow, fieldWhole, Nat.reduceSub, BitVec.reduceExtractLsb', BitVec.reduceToNat, decodeOne, oneRow, if_true] <;> rfl)

theorem jalr (d a : Reg) (i : BitVec 16) : Statement (.jalr d a i) := fun h => one h
  (by simp (disch := decide) only [fieldHigh, fieldLow, fieldWhole, Nat.reduceSub, BitVec.reduceExtractLsb', BitVec.reduceToNat]; decide)
  (by simp (disch := decide) only [fieldHigh, fieldLow, fieldWhole, Nat.reduceSub, BitVec.reduceExtractLsb', BitVec.reduceToNat, decodeOne, oneRow, if_true] <;> rfl)

theorem beq (a b : Reg) (o : BitVec 16) : Statement (.beq a b o) := fun h => one h
  (by simp (disch := decide) only [fieldHigh, fieldLow, fieldWhole, Nat.reduceSub, BitVec.reduceExtractLsb', BitVec.reduceToNat]; decide)
  (by simp (disch := decide) only [fieldHigh, fieldLow, fieldWhole, Nat.reduceSub, BitVec.reduceExtractLsb', BitVec.reduceToNat, decodeOne, oneRow, if_true] <;> rfl)

theorem bne (a b : Reg) (o : BitVec 16) : Statement (.bne a b o) := fun h => one h
  (by simp (disch := decide) only [fieldHigh, fieldLow, fieldWhole, Nat.reduceSub, BitVec.reduceExtractLsb', BitVec.reduceToNat]; decide)
  (by simp (disch := decide) only [fieldHigh, fieldLow, fieldWhole, Nat.reduceSub, BitVec.reduceExtractLsb', BitVec.reduceToNat, decodeOne, oneRow, if_true] <;> rfl)

theorem blt (a b : Reg) (o : BitVec 16) : Statement (.blt a b o) := fun h => one h
  (by simp (disch := decide) only [fieldHigh, fieldLow, fieldWhole, Nat.reduceSub, BitVec.reduceExtractLsb', BitVec.reduceToNat]; decide)
  (by simp (disch := decide) only [fieldHigh, fieldLow, fieldWhole, Nat.reduceSub, BitVec.reduceExtractLsb', BitVec.reduceToNat, decodeOne, oneRow, if_true] <;> rfl)

theorem bge (a b : Reg) (o : BitVec 16) : Statement (.bge a b o) := fun h => one h
  (by simp (disch := decide) only [fieldHigh, fieldLow, fieldWhole, Nat.reduceSub, BitVec.reduceExtractLsb', BitVec.reduceToNat]; decide)
  (by simp (disch := decide) only [fieldHigh, fieldLow, fieldWhole, Nat.reduceSub, BitVec.reduceExtractLsb', BitVec.reduceToNat, decodeOne, oneRow, if_true] <;> rfl)

theorem bltn (a b : Reg) (o : BitVec 16) : Statement (.bltn a b o) := fun h => one h
  (by simp (disch := decide) only [fieldHigh, fieldLow, fieldWhole, Nat.reduceSub, BitVec.reduceExtractLsb', BitVec.reduceToNat]; decide)
  (by simp (disch := decide) only [fieldHigh, fieldLow, fieldWhole, Nat.reduceSub, BitVec.reduceExtractLsb', BitVec.reduceToNat, decodeOne, oneRow, if_true] <;> rfl)

theorem bgen (a b : Reg) (o : BitVec 16) : Statement (.bgen a b o) := fun h => one h
  (by simp (disch := decide) only [fieldHigh, fieldLow, fieldWhole, Nat.reduceSub, BitVec.reduceExtractLsb', BitVec.reduceToNat]; decide)
  (by simp (disch := decide) only [fieldHigh, fieldLow, fieldWhole, Nat.reduceSub, BitVec.reduceExtractLsb', BitVec.reduceToNat, decodeOne, oneRow, if_true] <;> rfl)

theorem bmskAny (k : MReg) (w : BitVec 3) (o : BitVec 16) : Statement (.bmskAny k w o) := fun h => one h
  (by simp (disch := decide) only [fieldHigh, fieldLow, fieldWhole, Nat.reduceSub, BitVec.reduceExtractLsb', BitVec.reduceToNat]; decide)
  (by simp (disch := decide) only [fieldHigh, fieldLow, fieldWhole, Nat.reduceSub, BitVec.reduceExtractLsb', BitVec.reduceToNat, decodeOne, oneRow, if_true] <;> rfl)

theorem bmskNone (k : MReg) (w : BitVec 3) (o : BitVec 16) : Statement (.bmskNone k w o) := fun h => one h
  (by simp (disch := decide) only [fieldHigh, fieldLow, fieldWhole, Nat.reduceSub, BitVec.reduceExtractLsb', BitVec.reduceToNat]; decide)
  (by simp (disch := decide) only [fieldHigh, fieldLow, fieldWhole, Nat.reduceSub, BitVec.reduceExtractLsb', BitVec.reduceToNat, decodeOne, oneRow, if_true] <;> rfl)

theorem bmskAll (k : MReg) (w : BitVec 3) (o : BitVec 16) : Statement (.bmskAll k w o) := fun h => one h
  (by simp (disch := decide) only [fieldHigh, fieldLow, fieldWhole, Nat.reduceSub, BitVec.reduceExtractLsb', BitVec.reduceToNat]; decide)
  (by simp (disch := decide) only [fieldHigh, fieldLow, fieldWhole, Nat.reduceSub, BitVec.reduceExtractLsb', BitVec.reduceToNat, decodeOne, oneRow, if_true] <;> rfl)

theorem loop (a : Reg) (o : BitVec 16) : Statement (.loop a o) := fun h => one h
  (by simp (disch := decide) only [fieldHigh, fieldLow, fieldWhole, Nat.reduceSub, BitVec.reduceExtractLsb', BitVec.reduceToNat]; decide)
  (by simp (disch := decide) only [fieldHigh, fieldLow, fieldWhole, Nat.reduceSub, BitVec.reduceExtractLsb', BitVec.reduceToNat, decodeOne, oneRow, if_true] <;> rfl)

theorem jal (o : BitVec 26) : Statement (.jal o) := fun h => one h
  (by simp (disch := decide) only [fieldHigh, fieldLow, fieldWhole, Nat.reduceSub, BitVec.reduceExtractLsb', BitVec.reduceToNat]; decide)
  (by simp (disch := decide) only [fieldHigh, fieldLow, fieldWhole, Nat.reduceSub, BitVec.reduceExtractLsb', BitVec.reduceToNat, decodeOne, oneRow, if_true] <;> rfl)

theorem ldW (d : Reg) (h : HReg) (x : Reg) (e : BitVec 5) (r : BitVec 7) : Statement (.ldW d h x e r) := fun h => one h
  (by simp (disch := decide) only [fieldHigh, fieldLow, fieldWhole, Nat.reduceSub, BitVec.reduceExtractLsb', BitVec.reduceToNat]; decide)
  (by simp (disch := decide) only [fieldHigh, fieldLow, fieldWhole, Nat.reduceSub, BitVec.reduceExtractLsb', BitVec.reduceToNat, decodeOne, oneRow, if_true] <;> rfl)

theorem ldD (d : Reg) (h : HReg) (x : Reg) (e : BitVec 4) (r : BitVec 7) : Statement (.ldD d h x e r) := fun h => one h
  (by simp (disch := decide) only [fieldHigh, fieldLow, fieldWhole, Nat.reduceSub, BitVec.reduceExtractLsb', BitVec.reduceToNat]; decide)
  (by simp (disch := decide) only [fieldHigh, fieldLow, fieldWhole, Nat.reduceSub, BitVec.reduceExtractLsb', BitVec.reduceToNat, decodeOne, oneRow, if_true] <;> rfl)

theorem stW (v : Reg) (h : HReg) (x : Reg) (e : BitVec 5) (r : BitVec 7) : Statement (.stW v h x e r) := fun h => one h
  (by simp (disch := decide) only [fieldHigh, fieldLow, fieldWhole, Nat.reduceSub, BitVec.reduceExtractLsb', BitVec.reduceToNat]; decide)
  (by simp (disch := decide) only [fieldHigh, fieldLow, fieldWhole, Nat.reduceSub, BitVec.reduceExtractLsb', BitVec.reduceToNat, decodeOne, oneRow, if_true] <;> rfl)

theorem stD (v : Reg) (h : HReg) (x : Reg) (e : BitVec 4) (r : BitVec 7) : Statement (.stD v h x e r) := fun h => one h
  (by simp (disch := decide) only [fieldHigh, fieldLow, fieldWhole, Nat.reduceSub, BitVec.reduceExtractLsb', BitVec.reduceToNat]; decide)
  (by simp (disch := decide) only [fieldHigh, fieldLow, fieldWhole, Nat.reduceSub, BitVec.reduceExtractLsb', BitVec.reduceToNat, decodeOne, oneRow, if_true] <;> rfl)

theorem srdW (d : Reg) (k : BitVec 3) : Statement (.srdW d k) := fun h => one h
  (by simp (disch := decide) only [fieldHigh, fieldLow, fieldWhole, Nat.reduceSub, BitVec.reduceExtractLsb', BitVec.reduceToNat]; decide)
  (by simp (disch := decide) only [fieldHigh, fieldLow, fieldWhole, Nat.reduceSub, BitVec.reduceExtractLsb', BitVec.reduceToNat, decodeOne, oneRow, decodeStr, strRow, if_true] <;> rfl)

theorem srdD (d : Reg) (k : BitVec 3) : Statement (.srdD d k) := fun h => one h
  (by simp (disch := decide) only [fieldHigh, fieldLow, fieldWhole, Nat.reduceSub, BitVec.reduceExtractLsb', BitVec.reduceToNat]; decide)
  (by simp (disch := decide) only [fieldHigh, fieldLow, fieldWhole, Nat.reduceSub, BitVec.reduceExtractLsb', BitVec.reduceToNat, decodeOne, oneRow, decodeStr, strRow, if_true] <;> rfl)

theorem savl (d : Reg) (k : BitVec 3) : Statement (.savl d k) := fun h => one h
  (by simp (disch := decide) only [fieldHigh, fieldLow, fieldWhole, Nat.reduceSub, BitVec.reduceExtractLsb', BitVec.reduceToNat]; decide)
  (by simp (disch := decide) only [fieldHigh, fieldLow, fieldWhole, Nat.reduceSub, BitVec.reduceExtractLsb', BitVec.reduceToNat, decodeOne, oneRow, decodeStr, strRow, if_true] <;> rfl)

theorem nop : Statement (.nop) := fun h => one h
  (by simp (disch := decide) only [fieldHigh, fieldLow, fieldWhole, Nat.reduceSub, BitVec.reduceExtractLsb', BitVec.reduceToNat]; decide)
  (by simp (disch := decide) only [fieldHigh, fieldLow, fieldWhole, Nat.reduceSub, BitVec.reduceExtractLsb', BitVec.reduceToNat, decodeOne, oneRow, decodeSys, sysRow, if_true] <;> rfl)

theorem seam : Statement (.seam) := fun h => one h
  (by simp (disch := decide) only [fieldHigh, fieldLow, fieldWhole, Nat.reduceSub, BitVec.reduceExtractLsb', BitVec.reduceToNat]; decide)
  (by simp (disch := decide) only [fieldHigh, fieldLow, fieldWhole, Nat.reduceSub, BitVec.reduceExtractLsb', BitVec.reduceToNat, decodeOne, oneRow, decodeSys, sysRow, if_true] <;> rfl)

theorem fenceSc (s : BitVec 3) : Statement (.fenceSc s) := fun h => one h
  (by simp (disch := decide) only [fieldHigh, fieldLow, fieldWhole, Nat.reduceSub, BitVec.reduceExtractLsb', BitVec.reduceToNat]; decide)
  (by simp (disch := decide) only [fieldHigh, fieldLow, fieldWhole, Nat.reduceSub, BitVec.reduceExtractLsb', BitVec.reduceToNat, decodeOne, oneRow, decodeSys, sysRow, if_true] <;> rfl)

theorem fenceAcq (s : BitVec 3) : Statement (.fenceAcq s) := fun h => one h
  (by simp (disch := decide) only [fieldHigh, fieldLow, fieldWhole, Nat.reduceSub, BitVec.reduceExtractLsb', BitVec.reduceToNat]; decide)
  (by simp (disch := decide) only [fieldHigh, fieldLow, fieldWhole, Nat.reduceSub, BitVec.reduceExtractLsb', BitVec.reduceToNat, decodeOne, oneRow, decodeSys, sysRow, if_true] <;> rfl)

theorem fenceRel (s : BitVec 3) : Statement (.fenceRel s) := fun h => one h
  (by simp (disch := decide) only [fieldHigh, fieldLow, fieldWhole, Nat.reduceSub, BitVec.reduceExtractLsb', BitVec.reduceToNat]; decide)
  (by simp (disch := decide) only [fieldHigh, fieldLow, fieldWhole, Nat.reduceSub, BitVec.reduceExtractLsb', BitVec.reduceToNat, decodeOne, oneRow, decodeSys, sysRow, if_true] <;> rfl)

theorem trap (k : BitVec 10) : Statement (.trap k) := fun h => one h
  (by simp (disch := decide) only [fieldHigh, fieldLow, fieldWhole, Nat.reduceSub, BitVec.reduceExtractLsb', BitVec.reduceToNat]; decide)
  (by simp (disch := decide) only [fieldHigh, fieldLow, fieldWhole, Nat.reduceSub, BitVec.reduceExtractLsb', BitVec.reduceToNat, decodeOne, oneRow, decodeSys, sysRow, if_true] <;> rfl)

theorem ertn : Statement (.ertn) := fun h => one h
  (by simp (disch := decide) only [fieldHigh, fieldLow, fieldWhole, Nat.reduceSub, BitVec.reduceExtractLsb', BitVec.reduceToNat]; decide)
  (by simp (disch := decide) only [fieldHigh, fieldLow, fieldWhole, Nat.reduceSub, BitVec.reduceExtractLsb', BitVec.reduceToNat, decodeOne, oneRow, decodeSys, sysRow, if_true] <;> rfl)

theorem brk : Statement (.brk) := fun h => one h
  (by simp (disch := decide) only [fieldHigh, fieldLow, fieldWhole, Nat.reduceSub, BitVec.reduceExtractLsb', BitVec.reduceToNat]; decide)
  (by simp (disch := decide) only [fieldHigh, fieldLow, fieldWhole, Nat.reduceSub, BitVec.reduceExtractLsb', BitVec.reduceToNat, decodeOne, oneRow, decodeSys, sysRow, if_true] <;> rfl)

theorem yield : Statement (.yield) := fun h => one h
  (by simp (disch := decide) only [fieldHigh, fieldLow, fieldWhole, Nat.reduceSub, BitVec.reduceExtractLsb', BitVec.reduceToNat]; decide)
  (by simp (disch := decide) only [fieldHigh, fieldLow, fieldWhole, Nat.reduceSub, BitVec.reduceExtractLsb', BitVec.reduceToNat, decodeOne, oneRow, decodeSys, sysRow, if_true] <;> rfl)

theorem texit : Statement (.texit) := fun h => one h
  (by simp (disch := decide) only [fieldHigh, fieldLow, fieldWhole, Nat.reduceSub, BitVec.reduceExtractLsb', BitVec.reduceToNat]; decide)
  (by simp (disch := decide) only [fieldHigh, fieldLow, fieldWhole, Nat.reduceSub, BitVec.reduceExtractLsb', BitVec.reduceToNat, decodeOne, oneRow, decodeSys, sysRow, if_true] <;> rfl)

theorem wfe : Statement (.wfe) := fun h => one h
  (by simp (disch := decide) only [fieldHigh, fieldLow, fieldWhole, Nat.reduceSub, BitVec.reduceExtractLsb', BitVec.reduceToNat]; decide)
  (by simp (disch := decide) only [fieldHigh, fieldLow, fieldWhole, Nat.reduceSub, BitVec.reduceExtractLsb', BitVec.reduceToNat, decodeOne, oneRow, decodeSys, sysRow, if_true] <;> rfl)

theorem icinv : Statement (.icinv) := fun h => one h
  (by simp (disch := decide) only [fieldHigh, fieldLow, fieldWhole, Nat.reduceSub, BitVec.reduceExtractLsb', BitVec.reduceToNat]; decide)
  (by simp (disch := decide) only [fieldHigh, fieldLow, fieldWhole, Nat.reduceSub, BitVec.reduceExtractLsb', BitVec.reduceToNat, decodeOne, oneRow, decodeSys, sysRow, if_true] <;> rfl)

theorem modeExposed : Statement (.modeExposed) := fun h => one h
  (by simp (disch := decide) only [fieldHigh, fieldLow, fieldWhole, Nat.reduceSub, BitVec.reduceExtractLsb', BitVec.reduceToNat]; decide)
  (by simp (disch := decide) only [fieldHigh, fieldLow, fieldWhole, Nat.reduceSub, BitVec.reduceExtractLsb', BitVec.reduceToNat, decodeOne, oneRow, decodeSys, sysRow, if_true] <;> rfl)

theorem modeInterlock : Statement (.modeInterlock) := fun h => one h
  (by simp (disch := decide) only [fieldHigh, fieldLow, fieldWhole, Nat.reduceSub, BitVec.reduceExtractLsb', BitVec.reduceToNat]; decide)
  (by simp (disch := decide) only [fieldHigh, fieldLow, fieldWhole, Nat.reduceSub, BitVec.reduceExtractLsb', BitVec.reduceToNat, decodeOne, oneRow, decodeSys, sysRow, if_true] <;> rfl)

theorem trnR (h : HReg) (a : Reg) : Statement (.trnR h a) := fun h => one h
  (by simp (disch := decide) only [fieldHigh, fieldLow, fieldWhole, Nat.reduceSub, BitVec.reduceExtractLsb', BitVec.reduceToNat]; decide)
  (by simp (disch := decide) only [fieldHigh, fieldLow, fieldWhole, Nat.reduceSub, BitVec.reduceExtractLsb', BitVec.reduceToNat, decodeOne, oneRow, decodeHdl, hdlRow, if_true] <;> rfl)

theorem trnRw (h : HReg) (a : Reg) : Statement (.trnRw h a) := fun h => one h
  (by simp (disch := decide) only [fieldHigh, fieldLow, fieldWhole, Nat.reduceSub, BitVec.reduceExtractLsb', BitVec.reduceToNat]; decide)
  (by simp (disch := decide) only [fieldHigh, fieldLow, fieldWhole, Nat.reduceSub, BitVec.reduceExtractLsb', BitVec.reduceToNat, decodeOne, oneRow, decodeHdl, hdlRow, if_true] <;> rfl)

theorem vbind (h : HReg) (a : Reg) : Statement (.vbind h a) := fun h => one h
  (by simp (disch := decide) only [fieldHigh, fieldLow, fieldWhole, Nat.reduceSub, BitVec.reduceExtractLsb', BitVec.reduceToNat]; decide)
  (by simp (disch := decide) only [fieldHigh, fieldLow, fieldWhole, Nat.reduceSub, BitVec.reduceExtractLsb', BitVec.reduceToNat, decodeOne, oneRow, decodeHdl, hdlRow, if_true] <;> rfl)

theorem hqry (d : Reg) (h : HReg) : Statement (.hqry d h) := fun h => one h
  (by simp (disch := decide) only [fieldHigh, fieldLow, fieldWhole, Nat.reduceSub, BitVec.reduceExtractLsb', BitVec.reduceToNat]; decide)
  (by simp (disch := decide) only [fieldHigh, fieldLow, fieldWhole, Nat.reduceSub, BitVec.reduceExtractLsb', BitVec.reduceToNat, decodeOne, oneRow, decodeHdl, hdlRow, if_true] <;> rfl)

theorem hinv (h : HReg) : Statement (.hinv h) := fun h => one h
  (by simp (disch := decide) only [fieldHigh, fieldLow, fieldWhole, Nat.reduceSub, BitVec.reduceExtractLsb', BitVec.reduceToNat]; decide)
  (by simp (disch := decide) only [fieldHigh, fieldLow, fieldWhole, Nat.reduceSub, BitVec.reduceExtractLsb', BitVec.reduceToNat, decodeOne, oneRow, decodeHdl, hdlRow, if_true] <;> rfl)

theorem pgreq (d a : Reg) (f : Ix6) : Statement (.pgreq d a f) := fun h => one h
  (by simp (disch := decide) only [fieldHigh, fieldLow, fieldWhole, Nat.reduceSub, BitVec.reduceExtractLsb', BitVec.reduceToNat]; decide)
  (by simp (disch := decide) only [fieldHigh, fieldLow, fieldWhole, Nat.reduceSub, BitVec.reduceExtractLsb', BitVec.reduceToNat, decodeOne, oneRow, decodeHdl, hdlRow, if_true] <;> rfl)

theorem hmov (d a : HReg) : Statement (.hmov d a) := fun h => one h
  (by simp (disch := decide) only [fieldHigh, fieldLow, fieldWhole, Nat.reduceSub, BitVec.reduceExtractLsb', BitVec.reduceToNat]; decide)
  (by simp (disch := decide) only [fieldHigh, fieldLow, fieldWhole, Nat.reduceSub, BitVec.reduceExtractLsb', BitVec.reduceToNat, decodeOne, oneRow, decodeHdl, hdlRow, if_true] <;> rfl)

theorem fsig (a : Reg) (f : Ix6) : Statement (.fsig a f) := fun h => one h
  (by simp (disch := decide) only [fieldHigh, fieldLow, fieldWhole, Nat.reduceSub, BitVec.reduceExtractLsb', BitVec.reduceToNat]; decide)
  (by simp (disch := decide) only [fieldHigh, fieldLow, fieldWhole, Nat.reduceSub, BitVec.reduceExtractLsb', BitVec.reduceToNat, decodeOne, oneRow, decodeFlg, flgRow, if_true] <;> rfl)

theorem fsigQuad (a : Reg) (f : Ix6) (k : BitVec 2) : Statement (.fsigQuad a f k) := fun h => one h
  (by simp (disch := decide) only [fieldHigh, fieldLow, fieldWhole, Nat.reduceSub, BitVec.reduceExtractLsb', BitVec.reduceToNat]; decide)
  (by simp (disch := decide) only [fieldHigh, fieldLow, fieldWhole, Nat.reduceSub, BitVec.reduceExtractLsb', BitVec.reduceToNat, decodeOne, oneRow, decodeFlg, flgRow, if_true] <;> rfl)

theorem fwait (f : Ix6) : Statement (.fwait f) := fun h => one h
  (by simp (disch := decide) only [fieldHigh, fieldLow, fieldWhole, Nat.reduceSub, BitVec.reduceExtractLsb', BitVec.reduceToNat]; decide)
  (by simp (disch := decide) only [fieldHigh, fieldLow, fieldWhole, Nat.reduceSub, BitVec.reduceExtractLsb', BitVec.reduceToNat, decodeOne, oneRow, decodeFlg, flgRow, if_true] <;> rfl)

theorem fpeek (d : Reg) (f : Ix6) : Statement (.fpeek d f) := fun h => one h
  (by simp (disch := decide) only [fieldHigh, fieldLow, fieldWhole, Nat.reduceSub, BitVec.reduceExtractLsb', BitVec.reduceToNat]; decide)
  (by simp (disch := decide) only [fieldHigh, fieldLow, fieldWhole, Nat.reduceSub, BitVec.reduceExtractLsb', BitVec.reduceToNat, decodeOne, oneRow, decodeFlg, flgRow, if_true] <;> rfl)

theorem rigw (b a : Reg) (t : BitVec 4) : Statement (.rigw b a t) := fun h => one h
  (by simp (disch := decide) only [fieldHigh, fieldLow, fieldWhole, Nat.reduceSub, BitVec.reduceExtractLsb', BitVec.reduceToNat]; decide)
  (by simp (disch := decide) only [fieldHigh, fieldLow, fieldWhole, Nat.reduceSub, BitVec.reduceExtractLsb', BitVec.reduceToNat, decodeOne, oneRow, decodeFlg, flgRow, if_true] <;> rfl)

theorem bar (i s : BitVec 3) : Statement (.bar i s) := fun h => one h
  (by simp (disch := decide) only [fieldHigh, fieldLow, fieldWhole, Nat.reduceSub, BitVec.reduceExtractLsb', BitVec.reduceToNat]; decide)
  (by simp (disch := decide) only [fieldHigh, fieldLow, fieldWhole, Nat.reduceSub, BitVec.reduceExtractLsb', BitVec.reduceToNat, decodeOne, oneRow, decodeFlg, flgRow, if_true] <;> rfl)

theorem bara (i s : BitVec 3) : Statement (.bara i s) := fun h => one h
  (by simp (disch := decide) only [fieldHigh, fieldLow, fieldWhole, Nat.reduceSub, BitVec.reduceExtractLsb', BitVec.reduceToNat]; decide)
  (by simp (disch := decide) only [fieldHigh, fieldLow, fieldWhole, Nat.reduceSub, BitVec.reduceExtractLsb', BitVec.reduceToNat, decodeOne, oneRow, decodeFlg, flgRow, if_true] <;> rfl)

theorem barw (i s : BitVec 3) : Statement (.barw i s) := fun h => one h
  (by simp (disch := decide) only [fieldHigh, fieldLow, fieldWhole, Nat.reduceSub, BitVec.reduceExtractLsb', BitVec.reduceToNat]; decide)
  (by simp (disch := decide) only [fieldHigh, fieldLow, fieldWhole, Nat.reduceSub, BitVec.reduceExtractLsb', BitVec.reduceToNat, decodeOne, oneRow, decodeFlg, flgRow, if_true] <;> rfl)

theorem bwait (n : Ix6) (e : BitVec 2) : Statement (.bwait n e) := fun h => one h
  (by simp (disch := decide) only [fieldHigh, fieldLow, fieldWhole, Nat.reduceSub, BitVec.reduceExtractLsb', BitVec.reduceToNat]; decide)
  (by simp (disch := decide) only [fieldHigh, fieldLow, fieldWhole, Nat.reduceSub, BitVec.reduceExtractLsb', BitVec.reduceToNat, decodeOne, oneRow, decodeFlg, flgRow, if_true] <;> rfl)

theorem rdvz (k : BitVec 3) : Statement (.rdvz k) := fun h => one h
  (by simp (disch := decide) only [fieldHigh, fieldLow, fieldWhole, Nat.reduceSub, BitVec.reduceExtractLsb', BitVec.reduceToNat]; decide)
  (by simp (disch := decide) only [fieldHigh, fieldLow, fieldWhole, Nat.reduceSub, BitVec.reduceExtractLsb', BitVec.reduceToNat, decodeOne, oneRow, decodeFlg, flgRow, if_true] <;> rfl)

theorem csrr (d : Reg) (c : BitVec 12) : Statement (.csrr d c) := fun h => one h
  (by simp (disch := decide) only [fieldHigh, fieldLow, fieldWhole, Nat.reduceSub, BitVec.reduceExtractLsb', BitVec.reduceToNat]; decide)
  (by
    have h' : c.toNat ≠ 0x00C ∧ c.toNat ≠ 0x020 := by simpa [Instr.wf] using h
    have h1 : c ≠ 0x00C#12 := fun e => h'.1 (by rw [e]; rfl)
    have h2 : c ≠ 0x020#12 := fun e => h'.2 (by rw [e]; rfl)
    rw [csrWord]
    simp [h1, h2])

theorem csrw (d a : Reg) (c : BitVec 12) : Statement (.csrw d a c) := fun h => one h
  (by simp (disch := decide) only [fieldHigh, fieldLow, fieldWhole, Nat.reduceSub, BitVec.reduceExtractLsb', BitVec.reduceToNat]; decide)
  (by
    obtain ⟨h1, h2, h3⟩ := csrOrdinary c (by simpa [Instr.wf] using h)
    rw [csrWord]
    simp [h1, h2, h3])

theorem csrs (d a : Reg) (c : BitVec 12) : Statement (.csrs d a c) := fun h => one h
  (by simp (disch := decide) only [fieldHigh, fieldLow, fieldWhole, Nat.reduceSub, BitVec.reduceExtractLsb', BitVec.reduceToNat]; decide)
  (by
    obtain ⟨h1, h2, h3⟩ := csrOrdinary c (by simpa [Instr.wf] using h)
    rw [csrWord]
    simp [h1, h2, h3])

theorem csrc (d a : Reg) (c : BitVec 12) : Statement (.csrc d a c) := fun h => one h
  (by simp (disch := decide) only [fieldHigh, fieldLow, fieldWhole, Nat.reduceSub, BitVec.reduceExtractLsb', BitVec.reduceToNat]; decide)
  (by
    obtain ⟨h1, h2, h3⟩ := csrOrdinary c (by simpa [Instr.wf] using h)
    rw [csrWord]
    simp [h1, h2, h3])

theorem xstatWrite (ck : BitVec 2) (d a : Reg) : Statement (.xstatWrite ck d a) := fun h => one h
  (by simp (disch := decide) only [fieldHigh, fieldLow, fieldWhole, Nat.reduceSub, BitVec.reduceExtractLsb', BitVec.reduceToNat]; decide)
  (by
    have h1 : ck ≠ 0#2 := fun e => by rw [e] at h; exact absurd h (by simp [Instr.wf])
    rw [csrWord]
    simp [h1])

theorem wmWrite (ck : BitVec 2) (d a : Reg) (k : BitVec 3) : Statement (.wmWrite ck d a k) := fun h => one h
  (by simp (disch := decide) only [fieldHigh, fieldLow, fieldWhole, Nat.reduceSub, BitVec.reduceExtractLsb', BitVec.reduceToNat]; decide)
  (by
    have h1 : ck ≠ 0#2 := fun e => by rw [e] at h; exact absurd h (by simp [Instr.wf])
    have h2 : ∀ k : BitVec 3, (6#9 ++ k : BitVec 12) ≠ 0x00C#12 ∧ (6#9 ++ k : BitVec 12) ≠ 0x013#12 := by decide
    rw [csrWord]
    simp (disch := decide) only [h1, false_and, if_false, (h2 k).1, (h2 k).2, fieldHigh, fieldLow, fieldWhole, Nat.reduceSub, BitVec.reduceExtractLsb', BitVec.reduceToNat, if_true])

theorem residAccess (ck : BitVec 2) (d a : Reg) : Statement (.residAccess ck d a) := fun h => one h
  (by simp (disch := decide) only [fieldHigh, fieldLow, fieldWhole, Nat.reduceSub, BitVec.reduceExtractLsb', BitVec.reduceToNat]; decide)
  (by
    have h1 : ¬(ck = 0#2 ∧ a ≠ 0#5) := fun e => e.2 (by
      have h' : ck.toNat ≠ 0 ∨ a.toNat = 0 := by simpa [Instr.wf] using h
      rcases h' with h' | h'
      · exact absurd (by rw [e.1]; rfl) h'
      · exact BitVec.eq_of_toNat_eq h')
    rw [csrWord]
    simp [h1])

theorem engstRead (d : Reg) : Statement (.engstRead d) := fun h => one h
  (by simp (disch := decide) only [fieldHigh, fieldLow, fieldWhole, Nat.reduceSub, BitVec.reduceExtractLsb', BitVec.reduceToNat]; decide) (by rw [csrWord]; simp)

theorem tcrd (d : Reg) (n : BitVec 2) : Statement (.tcrd d n) := fun h => one h
  (by simp (disch := decide) only [fieldHigh, fieldLow, fieldWhole, Nat.reduceSub, BitVec.reduceExtractLsb', BitVec.reduceToNat]; decide)
  (by simp (disch := decide) only [fieldHigh, fieldLow, fieldWhole, Nat.reduceSub, BitVec.reduceExtractLsb', BitVec.reduceToNat, decodeOne, oneRow, decodeTsk, tskRow, if_true] <;> rfl)

theorem cvq (d : Reg) : Statement (.cvq d) := fun h => one h
  (by simp (disch := decide) only [fieldHigh, fieldLow, fieldWhole, Nat.reduceSub, BitVec.reduceExtractLsb', BitVec.reduceToNat]; decide)
  (by simp (disch := decide) only [fieldHigh, fieldLow, fieldWhole, Nat.reduceSub, BitVec.reduceExtractLsb', BitVec.reduceToNat, decodeOne, oneRow, decodeTsk, tskRow, if_true] <;> rfl)

theorem rlay (g : BitVec 4) (f x : Ix6) (h : HReg) : Statement (.rlay g f x h) := fun h => one h
  (by simp (disch := decide) only [fieldHigh, fieldLow, fieldWhole, Nat.reduceSub, BitVec.reduceExtractLsb', BitVec.reduceToNat]; decide)
  (by simp (disch := decide) only [fieldHigh, fieldLow, fieldWhole, Nat.reduceSub, BitVec.reduceExtractLsb', BitVec.reduceToNat, decodeOne, oneRow, decodeTsk, tskRow, if_true] <;> rfl)

theorem tdld (a : Reg) (x : Ix6) (h : HReg) : Statement (.tdld a x h) := fun h => one h
  (by simp (disch := decide) only [fieldHigh, fieldLow, fieldWhole, Nat.reduceSub, BitVec.reduceExtractLsb', BitVec.reduceToNat]; decide)
  (by simp (disch := decide) only [fieldHigh, fieldLow, fieldWhole, Nat.reduceSub, BitVec.reduceExtractLsb', BitVec.reduceToNat, decodeOne, oneRow, decodeTsk, tskRow, if_true] <;> rfl)

theorem tdst (a : Reg) (x : Ix6) (h : HReg) : Statement (.tdst a x h) := fun h => one h
  (by simp (disch := decide) only [fieldHigh, fieldLow, fieldWhole, Nat.reduceSub, BitVec.reduceExtractLsb', BitVec.reduceToNat]; decide)
  (by simp (disch := decide) only [fieldHigh, fieldLow, fieldWhole, Nat.reduceSub, BitVec.reduceExtractLsb', BitVec.reduceToNat, decodeOne, oneRow, decodeTsk, tskRow, if_true] <;> rfl)

theorem tdrd (d : Reg) (x : Ix6) (k : BitVec 3) : Statement (.tdrd d x k) := fun h => one h
  (by simp (disch := decide) only [fieldHigh, fieldLow, fieldWhole, Nat.reduceSub, BitVec.reduceExtractLsb', BitVec.reduceToNat]; decide)
  (by simp (disch := decide) only [fieldHigh, fieldLow, fieldWhole, Nat.reduceSub, BitVec.reduceExtractLsb', BitVec.reduceToNat, decodeOne, oneRow, decodeTsk, tskRow, if_true] <;> rfl)

theorem tdwr (a : Reg) (x : Ix6) (k : BitVec 3) : Statement (.tdwr a x k) := fun h => one h
  (by simp (disch := decide) only [fieldHigh, fieldLow, fieldWhole, Nat.reduceSub, BitVec.reduceExtractLsb', BitVec.reduceToNat]; decide)
  (by simp (disch := decide) only [fieldHigh, fieldLow, fieldWhole, Nat.reduceSub, BitVec.reduceExtractLsb', BitVec.reduceToNat, decodeOne, oneRow, decodeTsk, tskRow, if_true] <;> rfl)

theorem wkld (a : Reg) (w : BitVec 5) (h : HReg) : Statement (.wkld a w h) := fun h => one h
  (by simp (disch := decide) only [fieldHigh, fieldLow, fieldWhole, Nat.reduceSub, BitVec.reduceExtractLsb', BitVec.reduceToNat]; decide)
  (by simp (disch := decide) only [fieldHigh, fieldLow, fieldWhole, Nat.reduceSub, BitVec.reduceExtractLsb', BitVec.reduceToNat, decodeOne, oneRow, decodeTsk, tskRow, if_true] <;> rfl)

theorem wkst (a : Reg) (w : BitVec 5) (h : HReg) : Statement (.wkst a w h) := fun h => one h
  (by simp (disch := decide) only [fieldHigh, fieldLow, fieldWhole, Nat.reduceSub, BitVec.reduceExtractLsb', BitVec.reduceToNat]; decide)
  (by simp (disch := decide) only [fieldHigh, fieldLow, fieldWhole, Nat.reduceSub, BitVec.reduceExtractLsb', BitVec.reduceToNat, decodeOne, oneRow, decodeTsk, tskRow, if_true] <;> rfl)

theorem guardW (d a : Reg) (x : Ix6) : Statement (.guardW d a x) := fun h => one h
  (by simp (disch := decide) only [fieldHigh, fieldLow, fieldWhole, Nat.reduceSub, BitVec.reduceExtractLsb', BitVec.reduceToNat]; decide)
  (by simp (disch := decide) only [fieldHigh, fieldLow, fieldWhole, Nat.reduceSub, BitVec.reduceExtractLsb', BitVec.reduceToNat, decodeOne, oneRow, decodeTsk, tskRow, if_true] <;> rfl)

theorem guardD (d a : Reg) (x : Ix6) : Statement (.guardD d a x) := fun h => one h
  (by simp (disch := decide) only [fieldHigh, fieldLow, fieldWhole, Nat.reduceSub, BitVec.reduceExtractLsb', BitVec.reduceToNat]; decide)
  (by simp (disch := decide) only [fieldHigh, fieldLow, fieldWhole, Nat.reduceSub, BitVec.reduceExtractLsb', BitVec.reduceToNat, decodeOne, oneRow, decodeTsk, tskRow, if_true] <;> rfl)

theorem dlaunch (d a : Reg) : Statement (.dlaunch d a) := fun h => one h
  (by simp (disch := decide) only [fieldHigh, fieldLow, fieldWhole, Nat.reduceSub, BitVec.reduceExtractLsb', BitVec.reduceToNat]; decide)
  (by simp (disch := decide) only [fieldHigh, fieldLow, fieldWhole, Nat.reduceSub, BitVec.reduceExtractLsb', BitVec.reduceToNat, decodeOne, oneRow, decodeTsk, tskRow, if_true] <;> rfl)

theorem mmov (d a : MReg) : Statement (.mmov d a) := fun h => one h
  (by simp (disch := decide) only [fieldHigh, fieldLow, fieldWhole, Nat.reduceSub, BitVec.reduceExtractLsb', BitVec.reduceToNat]; decide)
  (by simp (disch := decide) only [fieldHigh, fieldLow, fieldWhole, Nat.reduceSub, BitVec.reduceExtractLsb', BitVec.reduceToNat, decodeOne, oneRow, decodeMsk, mskRow, if_true] <;> rfl)

theorem mset (d : MReg) (a b : Reg) : Statement (.mset d a b) := fun h => one h
  (by simp (disch := decide) only [fieldHigh, fieldLow, fieldWhole, Nat.reduceSub, BitVec.reduceExtractLsb', BitVec.reduceToNat]; decide)
  (by simp (disch := decide) only [fieldHigh, fieldLow, fieldWhole, Nat.reduceSub, BitVec.reduceExtractLsb', BitVec.reduceToNat, decodeOne, oneRow, decodeMsk, mskRow, if_true] <;> rfl)

theorem mcntE (d : Reg) (a : MReg) (w : BitVec 3) : Statement (.mcntE d a w) := fun h => one h
  (by simp (disch := decide) only [fieldHigh, fieldLow, fieldWhole, Nat.reduceSub, BitVec.reduceExtractLsb', BitVec.reduceToNat]; decide)
  (by simp (disch := decide) only [fieldHigh, fieldLow, fieldWhole, Nat.reduceSub, BitVec.reduceExtractLsb', BitVec.reduceToNat, decodeOne, oneRow, decodeMsk, mskRow, if_true] <;> rfl)

theorem mcntLo (d : Reg) (a : MReg) : Statement (.mcntLo d a) := fun h => one h
  (by simp (disch := decide) only [fieldHigh, fieldLow, fieldWhole, Nat.reduceSub, BitVec.reduceExtractLsb', BitVec.reduceToNat]; decide)
  (by simp (disch := decide) only [fieldHigh, fieldLow, fieldWhole, Nat.reduceSub, BitVec.reduceExtractLsb', BitVec.reduceToNat, decodeOne, oneRow, decodeMsk, mskRow, if_true] <;> rfl)

theorem mcntHi (d : Reg) (a : MReg) : Statement (.mcntHi d a) := fun h => one h
  (by simp (disch := decide) only [fieldHigh, fieldLow, fieldWhole, Nat.reduceSub, BitVec.reduceExtractLsb', BitVec.reduceToNat]; decide)
  (by simp (disch := decide) only [fieldHigh, fieldLow, fieldWhole, Nat.reduceSub, BitVec.reduceExtractLsb', BitVec.reduceToNat, decodeOne, oneRow, decodeMsk, mskRow, if_true] <;> rfl)

theorem mcntFfs (d : Reg) (a : MReg) (w : BitVec 3) : Statement (.mcntFfs d a w) := fun h => one h
  (by simp (disch := decide) only [fieldHigh, fieldLow, fieldWhole, Nat.reduceSub, BitVec.reduceExtractLsb', BitVec.reduceToNat]; decide)
  (by simp (disch := decide) only [fieldHigh, fieldLow, fieldWhole, Nat.reduceSub, BitVec.reduceExtractLsb', BitVec.reduceToNat, decodeOne, oneRow, decodeMsk, mskRow, if_true] <;> rfl)

theorem mlog (d a b : MReg) (t : BitVec 4) : Statement (.mlog d a b t) := fun h => one h
  (by simp (disch := decide) only [fieldHigh, fieldLow, fieldWhole, Nat.reduceSub, BitVec.reduceExtractLsb', BitVec.reduceToNat]; decide)
  (by simp (disch := decide) only [fieldHigh, fieldLow, fieldWhole, Nat.reduceSub, BitVec.reduceExtractLsb', BitVec.reduceToNat, decodeOne, oneRow, decodeMsk, mskRow, if_true] <;> rfl)

theorem fork (k : BitVec 3) (a b c : Reg) : Statement (.fork k a b c) := fun h => one h
  (by simp (disch := decide) only [fieldHigh, fieldLow, fieldWhole, Nat.reduceSub, BitVec.reduceExtractLsb', BitVec.reduceToNat]; decide)
  (by simp (disch := decide) only [fieldHigh, fieldLow, fieldWhole, Nat.reduceSub, BitVec.reduceExtractLsb', BitVec.reduceToNat, decodeOne, oneRow, decodeQue, queRow, if_true] <;> rfl)

theorem enqs (a b : Reg) (e : BitVec 2) : Statement (.enqs a b e) := fun h => one h
  (by simp (disch := decide) only [fieldHigh, fieldLow, fieldWhole, Nat.reduceSub, BitVec.reduceExtractLsb', BitVec.reduceToNat]; decide)
  (by simp (disch := decide) only [fieldHigh, fieldLow, fieldWhole, Nat.reduceSub, BitVec.reduceExtractLsb', BitVec.reduceToNat, decodeOne, oneRow, decodeQue, queRow, if_true] <;> rfl)

theorem renq (a b : Reg) (e : BitVec 2) : Statement (.renq a b e) := fun h => one h
  (by simp (disch := decide) only [fieldHigh, fieldLow, fieldWhole, Nat.reduceSub, BitVec.reduceExtractLsb', BitVec.reduceToNat]; decide)
  (by simp (disch := decide) only [fieldHigh, fieldLow, fieldWhole, Nat.reduceSub, BitVec.reduceExtractLsb', BitVec.reduceToNat, decodeOne, oneRow, decodeQue, queRow, if_true] <;> rfl)

theorem faa (o : AOp) : Statement (.faa o) := fun h => long h
  (by simp (disch := decide) only [fieldHigh, fieldLow, fieldWhole, Nat.reduceSub, BitVec.reduceExtractLsb', BitVec.reduceToNat, firstWordError])
  (by simp (disch := decide) only [fieldHigh, fieldLow, fieldWhole, Nat.reduceSub, BitVec.reduceExtractLsb', BitVec.reduceToNat]; decide)
  (by simp (disch := decide) only [fieldHigh, fieldLow, fieldWhole, Nat.reduceSub, BitVec.reduceExtractLsb', BitVec.reduceToNat, decodeLong, decodeAtm, atomicOperand, ne_eq, not_true, if_false] <;> rfl)

theorem faab (o : AOp) : Statement (.faab o) := fun h => long h
  (by simp (disch := decide) only [fieldHigh, fieldLow, fieldWhole, Nat.reduceSub, BitVec.reduceExtractLsb', BitVec.reduceToNat, firstWordError])
  (by simp (disch := decide) only [fieldHigh, fieldLow, fieldWhole, Nat.reduceSub, BitVec.reduceExtractLsb', BitVec.reduceToNat]; decide)
  (by simp (disch := decide) only [fieldHigh, fieldLow, fieldWhole, Nat.reduceSub, BitVec.reduceExtractLsb', BitVec.reduceToNat, decodeLong, decodeAtm, atomicOperand, ne_eq, not_true, if_false] <;> rfl)

theorem fao (o : AOp) : Statement (.fao o) := fun h => long h
  (by simp (disch := decide) only [fieldHigh, fieldLow, fieldWhole, Nat.reduceSub, BitVec.reduceExtractLsb', BitVec.reduceToNat, firstWordError])
  (by simp (disch := decide) only [fieldHigh, fieldLow, fieldWhole, Nat.reduceSub, BitVec.reduceExtractLsb', BitVec.reduceToNat]; decide)
  (by simp (disch := decide) only [fieldHigh, fieldLow, fieldWhole, Nat.reduceSub, BitVec.reduceExtractLsb', BitVec.reduceToNat, decodeLong, decodeAtm, atomicOperand, ne_eq, not_true, if_false] <;> rfl)

theorem cas (o : AOp) : Statement (.cas o) := fun h => long h
  (by simp (disch := decide) only [fieldHigh, fieldLow, fieldWhole, Nat.reduceSub, BitVec.reduceExtractLsb', BitVec.reduceToNat, firstWordError])
  (by simp (disch := decide) only [fieldHigh, fieldLow, fieldWhole, Nat.reduceSub, BitVec.reduceExtractLsb', BitVec.reduceToNat]; decide)
  (by simp (disch := decide) only [fieldHigh, fieldLow, fieldWhole, Nat.reduceSub, BitVec.reduceExtractLsb', BitVec.reduceToNat, decodeLong, decodeAtm, atomicOperand, ne_eq, not_true, if_false] <;> rfl)

theorem swp (o : AOp) : Statement (.swp o) := fun h => long h
  (by simp (disch := decide) only [fieldHigh, fieldLow, fieldWhole, Nat.reduceSub, BitVec.reduceExtractLsb', BitVec.reduceToNat, firstWordError])
  (by simp (disch := decide) only [fieldHigh, fieldLow, fieldWhole, Nat.reduceSub, BitVec.reduceExtractLsb', BitVec.reduceToNat]; decide)
  (by simp (disch := decide) only [fieldHigh, fieldLow, fieldWhole, Nat.reduceSub, BitVec.reduceExtractLsb', BitVec.reduceToNat, decodeLong, decodeAtm, atomicOperand, ne_eq, not_true, if_false] <;> rfl)

theorem amin (o : AOp) : Statement (.amin o) := fun h => long h
  (by simp (disch := decide) only [fieldHigh, fieldLow, fieldWhole, Nat.reduceSub, BitVec.reduceExtractLsb', BitVec.reduceToNat, firstWordError])
  (by simp (disch := decide) only [fieldHigh, fieldLow, fieldWhole, Nat.reduceSub, BitVec.reduceExtractLsb', BitVec.reduceToNat]; decide)
  (by simp (disch := decide) only [fieldHigh, fieldLow, fieldWhole, Nat.reduceSub, BitVec.reduceExtractLsb', BitVec.reduceToNat, decodeLong, decodeAtm, atomicOperand, ne_eq, not_true, if_false] <;> rfl)

theorem amax (o : AOp) : Statement (.amax o) := fun h => long h
  (by simp (disch := decide) only [fieldHigh, fieldLow, fieldWhole, Nat.reduceSub, BitVec.reduceExtractLsb', BitVec.reduceToNat, firstWordError])
  (by simp (disch := decide) only [fieldHigh, fieldLow, fieldWhole, Nat.reduceSub, BitVec.reduceExtractLsb', BitVec.reduceToNat]; decide)
  (by simp (disch := decide) only [fieldHigh, fieldLow, fieldWhole, Nat.reduceSub, BitVec.reduceExtractLsb', BitVec.reduceToNat, decodeLong, decodeAtm, atomicOperand, ne_eq, not_true, if_false] <;> rfl)

theorem aminn (o : AOp) : Statement (.aminn o) := fun h => long h
  (by simp (disch := decide) only [fieldHigh, fieldLow, fieldWhole, Nat.reduceSub, BitVec.reduceExtractLsb', BitVec.reduceToNat, firstWordError])
  (by simp (disch := decide) only [fieldHigh, fieldLow, fieldWhole, Nat.reduceSub, BitVec.reduceExtractLsb', BitVec.reduceToNat]; decide)
  (by simp (disch := decide) only [fieldHigh, fieldLow, fieldWhole, Nat.reduceSub, BitVec.reduceExtractLsb', BitVec.reduceToNat, decodeLong, decodeAtm, atomicOperand, ne_eq, not_true, if_false] <;> rfl)

theorem amaxn (o : AOp) : Statement (.amaxn o) := fun h => long h
  (by simp (disch := decide) only [fieldHigh, fieldLow, fieldWhole, Nat.reduceSub, BitVec.reduceExtractLsb', BitVec.reduceToNat, firstWordError])
  (by simp (disch := decide) only [fieldHigh, fieldLow, fieldWhole, Nat.reduceSub, BitVec.reduceExtractLsb', BitVec.reduceToNat]; decide)
  (by simp (disch := decide) only [fieldHigh, fieldLow, fieldWhole, Nat.reduceSub, BitVec.reduceExtractLsb', BitVec.reduceToNat, decodeLong, decodeAtm, atomicOperand, ne_eq, not_true, if_false] <;> rfl)

theorem aor (o : AOp) : Statement (.aor o) := fun h => long h
  (by simp (disch := decide) only [fieldHigh, fieldLow, fieldWhole, Nat.reduceSub, BitVec.reduceExtractLsb', BitVec.reduceToNat, firstWordError])
  (by simp (disch := decide) only [fieldHigh, fieldLow, fieldWhole, Nat.reduceSub, BitVec.reduceExtractLsb', BitVec.reduceToNat]; decide)
  (by simp (disch := decide) only [fieldHigh, fieldLow, fieldWhole, Nat.reduceSub, BitVec.reduceExtractLsb', BitVec.reduceToNat, decodeLong, decodeAtm, atomicOperand, ne_eq, not_true, if_false] <;> rfl)

theorem aand (o : AOp) : Statement (.aand o) := fun h => long h
  (by simp (disch := decide) only [fieldHigh, fieldLow, fieldWhole, Nat.reduceSub, BitVec.reduceExtractLsb', BitVec.reduceToNat, firstWordError])
  (by simp (disch := decide) only [fieldHigh, fieldLow, fieldWhole, Nat.reduceSub, BitVec.reduceExtractLsb', BitVec.reduceToNat]; decide)
  (by simp (disch := decide) only [fieldHigh, fieldLow, fieldWhole, Nat.reduceSub, BitVec.reduceExtractLsb', BitVec.reduceToNat, decodeLong, decodeAtm, atomicOperand, ne_eq, not_true, if_false] <;> rfl)

theorem li (d : Reg) (i : BitVec 32) : Statement (.li d i) := fun h => long h
  (by simp (disch := decide) only [fieldHigh, fieldLow, fieldWhole, Nat.reduceSub, BitVec.reduceExtractLsb', BitVec.reduceToNat, firstWordError]; rfl)
  (by simp (disch := decide) only [fieldHigh, fieldLow, fieldWhole, Nat.reduceSub, BitVec.reduceExtractLsb', BitVec.reduceToNat]; decide)
  (by simp (disch := decide) only [fieldHigh, fieldLow, fieldWhole, Nat.reduceSub, BitVec.reduceExtractLsb', BitVec.reduceToNat, decodeLong])

theorem lih (d : Reg) (i : BitVec 32) : Statement (.lih d i) := fun h => long h
  (by simp (disch := decide) only [fieldHigh, fieldLow, fieldWhole, Nat.reduceSub, BitVec.reduceExtractLsb', BitVec.reduceToNat, firstWordError]; rfl)
  (by simp (disch := decide) only [fieldHigh, fieldLow, fieldWhole, Nat.reduceSub, BitVec.reduceExtractLsb', BitVec.reduceToNat]; decide)
  (by simp (disch := decide) only [fieldHigh, fieldLow, fieldWhole, Nat.reduceSub, BitVec.reduceExtractLsb', BitVec.reduceToNat, decodeLong])

theorem issue (e : BitVec 2) (wf sf : BitVec 6) (ar : BitVec 2) (scope : BitVec 3) (word : EWord) :
    Statement (.issue e wf sf ar scope word) := fun h => by
  have h' := h
  simp only [Instr.wf, Bool.and_eq_true, Bool.or_eq_true, decide_eq_true_eq, bne_iff_ne, beq_iff_eq] at h'
  obtain ⟨⟨⟨h1, h2⟩, h3⟩, -⟩ := h'
  have e1 : e ≠ 3#2 := fun c => by rw [c] at h1; exact absurd h1 (by decide)
  have e2 : ¬(ar = 0#2 ∧ scope ≠ 0#3) := fun c => by
    rcases h3 with h3 | h3
    · exact h3 (by rw [c.1]; rfl)
    · exact c.2 (BitVec.eq_of_toNat_eq h3)
  refine long h ?_ ?_ ?_
  · simp (disch := decide) only [fieldHigh, fieldLow, fieldWhole, Nat.reduceSub, BitVec.reduceExtractLsb', BitVec.reduceToNat, firstWordError, e1, h2, e2, ne_eq, not_true, if_false, Bool.not_true, Bool.false_eq_true]
  · simp (disch := decide) only [fieldHigh, fieldLow, fieldWhole, Nat.reduceSub, BitVec.reduceExtractLsb', BitVec.reduceToNat]; decide
  · simp (disch := decide) only [fieldHigh, fieldLow, fieldWhole, Nat.reduceSub, BitVec.reduceExtractLsb', BitVec.reduceToNat, decodeLong, ne_eq, not_true, if_false, issueHalves]

theorem vadd (o : VWord) : Statement (.vadd o) := fun h => engine h
  (by simp (disch := decide) only [fieldHigh, fieldLow, fieldWhole, Nat.reduceSub, BitVec.reduceExtractLsb', BitVec.reduceToNat, classRow, decodeVec, vecRow, vectorOperand] <;> rfl)

theorem vsub (o : VWord) : Statement (.vsub o) := fun h => engine h
  (by simp (disch := decide) only [fieldHigh, fieldLow, fieldWhole, Nat.reduceSub, BitVec.reduceExtractLsb', BitVec.reduceToNat, classRow, decodeVec, vecRow, vectorOperand] <;> rfl)

theorem vmul (o : VWord) : Statement (.vmul o) := fun h => engine h
  (by simp (disch := decide) only [fieldHigh, fieldLow, fieldWhole, Nat.reduceSub, BitVec.reduceExtractLsb', BitVec.reduceToNat, classRow, decodeVec, vecRow, vectorOperand] <;> rfl)

theorem vfma (o : VWord) : Statement (.vfma o) := fun h => engine h
  (by simp (disch := decide) only [fieldHigh, fieldLow, fieldWhole, Nat.reduceSub, BitVec.reduceExtractLsb', BitVec.reduceToNat, classRow, decodeVec, vecRow, vectorOperand] <;> rfl)

theorem vfms (o : VWord) : Statement (.vfms o) := fun h => engine h
  (by simp (disch := decide) only [fieldHigh, fieldLow, fieldWhole, Nat.reduceSub, BitVec.reduceExtractLsb', BitVec.reduceToNat, classRow, decodeVec, vecRow, vectorOperand] <;> rfl)

theorem vfnm (o : VWord) : Statement (.vfnm o) := fun h => engine h
  (by simp (disch := decide) only [fieldHigh, fieldLow, fieldWhole, Nat.reduceSub, BitVec.reduceExtractLsb', BitVec.reduceToNat, classRow, decodeVec, vecRow, vectorOperand] <;> rfl)

theorem vmin (o : VWord) : Statement (.vmin o) := fun h => engine h
  (by simp (disch := decide) only [fieldHigh, fieldLow, fieldWhole, Nat.reduceSub, BitVec.reduceExtractLsb', BitVec.reduceToNat, classRow, decodeVec, vecRow, vectorOperand] <;> rfl)

theorem vmax (o : VWord) : Statement (.vmax o) := fun h => engine h
  (by simp (disch := decide) only [fieldHigh, fieldLow, fieldWhole, Nat.reduceSub, BitVec.reduceExtractLsb', BitVec.reduceToNat, classRow, decodeVec, vecRow, vectorOperand] <;> rfl)

theorem vabs (o : VWord) : Statement (.vabs o) := fun h => engine h
  (by simp (disch := decide) only [fieldHigh, fieldLow, fieldWhole, Nat.reduceSub, BitVec.reduceExtractLsb', BitVec.reduceToNat, classRow, decodeVec, vecRow, vectorOperand] <;> rfl)

theorem vneg (o : VWord) : Statement (.vneg o) := fun h => engine h
  (by simp (disch := decide) only [fieldHigh, fieldLow, fieldWhole, Nat.reduceSub, BitVec.reduceExtractLsb', BitVec.reduceToNat, classRow, decodeVec, vecRow, vectorOperand] <;> rfl)

theorem vrcp (o : VWord) : Statement (.vrcp o) := fun h => engine h
  (by simp (disch := decide) only [fieldHigh, fieldLow, fieldWhole, Nat.reduceSub, BitVec.reduceExtractLsb', BitVec.reduceToNat, classRow, decodeVec, vecRow, vectorOperand] <;> rfl)

theorem vrsq (o : VWord) : Statement (.vrsq o) := fun h => engine h
  (by simp (disch := decide) only [fieldHigh, fieldLow, fieldWhole, Nat.reduceSub, BitVec.reduceExtractLsb', BitVec.reduceToNat, classRow, decodeVec, vecRow, vectorOperand] <;> rfl)

theorem vsqrt (o : VWord) : Statement (.vsqrt o) := fun h => engine h
  (by simp (disch := decide) only [fieldHigh, fieldLow, fieldWhole, Nat.reduceSub, BitVec.reduceExtractLsb', BitVec.reduceToNat, classRow, decodeVec, vecRow, vectorOperand] <;> rfl)

theorem vexp2 (o : VWord) : Statement (.vexp2 o) := fun h => engine h
  (by simp (disch := decide) only [fieldHigh, fieldLow, fieldWhole, Nat.reduceSub, BitVec.reduceExtractLsb', BitVec.reduceToNat, classRow, decodeVec, vecRow, vectorOperand] <;> rfl)

theorem vlog2 (o : VWord) : Statement (.vlog2 o) := fun h => engine h
  (by simp (disch := decide) only [fieldHigh, fieldLow, fieldWhole, Nat.reduceSub, BitVec.reduceExtractLsb', BitVec.reduceToNat, classRow, decodeVec, vecRow, vectorOperand] <;> rfl)

theorem vtanh (o : VWord) : Statement (.vtanh o) := fun h => engine h
  (by simp (disch := decide) only [fieldHigh, fieldLow, fieldWhole, Nat.reduceSub, BitVec.reduceExtractLsb', BitVec.reduceToNat, classRow, decodeVec, vecRow, vectorOperand] <;> rfl)

theorem viadd (o : VWord) : Statement (.viadd o) := fun h => engine h
  (by simp (disch := decide) only [fieldHigh, fieldLow, fieldWhole, Nat.reduceSub, BitVec.reduceExtractLsb', BitVec.reduceToNat, classRow, decodeVec, vecRow, vectorOperand] <;> rfl)

theorem visub (o : VWord) : Statement (.visub o) := fun h => engine h
  (by simp (disch := decide) only [fieldHigh, fieldLow, fieldWhole, Nat.reduceSub, BitVec.reduceExtractLsb', BitVec.reduceToNat, classRow, decodeVec, vecRow, vectorOperand] <;> rfl)

theorem vimul (o : VWord) : Statement (.vimul o) := fun h => engine h
  (by simp (disch := decide) only [fieldHigh, fieldLow, fieldWhole, Nat.reduceSub, BitVec.reduceExtractLsb', BitVec.reduceToNat, classRow, decodeVec, vecRow, vectorOperand] <;> rfl)

theorem vimulh (o : VWord) : Statement (.vimulh o) := fun h => engine h
  (by simp (disch := decide) only [fieldHigh, fieldLow, fieldWhole, Nat.reduceSub, BitVec.reduceExtractLsb', BitVec.reduceToNat, classRow, decodeVec, vecRow, vectorOperand] <;> rfl)

theorem vshl (o : VWord) : Statement (.vshl o) := fun h => engine h
  (by simp (disch := decide) only [fieldHigh, fieldLow, fieldWhole, Nat.reduceSub, BitVec.reduceExtractLsb', BitVec.reduceToNat, classRow, decodeVec, vecRow, vectorOperand] <;> rfl)

theorem vshr (o : VWord) : Statement (.vshr o) := fun h => engine h
  (by simp (disch := decide) only [fieldHigh, fieldLow, fieldWhole, Nat.reduceSub, BitVec.reduceExtractLsb', BitVec.reduceToNat, classRow, decodeVec, vecRow, vectorOperand] <;> rfl)

theorem vsra (o : VWord) : Statement (.vsra o) := fun h => engine h
  (by simp (disch := decide) only [fieldHigh, fieldLow, fieldWhole, Nat.reduceSub, BitVec.reduceExtractLsb', BitVec.reduceToNat, classRow, decodeVec, vecRow, vectorOperand] <;> rfl)

theorem vand (o : VWord) : Statement (.vand o) := fun h => engine h
  (by simp (disch := decide) only [fieldHigh, fieldLow, fieldWhole, Nat.reduceSub, BitVec.reduceExtractLsb', BitVec.reduceToNat, classRow, decodeVec, vecRow, vectorOperand] <;> rfl)

theorem vor (o : VWord) : Statement (.vor o) := fun h => engine h
  (by simp (disch := decide) only [fieldHigh, fieldLow, fieldWhole, Nat.reduceSub, BitVec.reduceExtractLsb', BitVec.reduceToNat, classRow, decodeVec, vecRow, vectorOperand] <;> rfl)

theorem vxor (o : VWord) : Statement (.vxor o) := fun h => engine h
  (by simp (disch := decide) only [fieldHigh, fieldLow, fieldWhole, Nat.reduceSub, BitVec.reduceExtractLsb', BitVec.reduceToNat, classRow, decodeVec, vecRow, vectorOperand] <;> rfl)

theorem vimin (o : VWord) : Statement (.vimin o) := fun h => engine h
  (by simp (disch := decide) only [fieldHigh, fieldLow, fieldWhole, Nat.reduceSub, BitVec.reduceExtractLsb', BitVec.reduceToNat, classRow, decodeVec, vecRow, vectorOperand] <;> rfl)

theorem vimax (o : VWord) : Statement (.vimax o) := fun h => engine h
  (by simp (disch := decide) only [fieldHigh, fieldLow, fieldWhole, Nat.reduceSub, BitVec.reduceExtractLsb', BitVec.reduceToNat, classRow, decodeVec, vecRow, vectorOperand] <;> rfl)

theorem vsadd (o : VWord) : Statement (.vsadd o) := fun h => engine h
  (by simp (disch := decide) only [fieldHigh, fieldLow, fieldWhole, Nat.reduceSub, BitVec.reduceExtractLsb', BitVec.reduceToNat, classRow, decodeVec, vecRow, vectorOperand] <;> rfl)

theorem vssub (o : VWord) : Statement (.vssub o) := fun h => engine h
  (by simp (disch := decide) only [fieldHigh, fieldLow, fieldWhole, Nat.reduceSub, BitVec.reduceExtractLsb', BitVec.reduceToNat, classRow, decodeVec, vecRow, vectorOperand] <;> rfl)

theorem viabs (o : VWord) : Statement (.viabs o) := fun h => engine h
  (by simp (disch := decide) only [fieldHigh, fieldLow, fieldWhole, Nat.reduceSub, BitVec.reduceExtractLsb', BitVec.reduceToNat, classRow, decodeVec, vecRow, vectorOperand] <;> rfl)

theorem vimac (o : VWord) : Statement (.vimac o) := fun h => engine h
  (by simp (disch := decide) only [fieldHigh, fieldLow, fieldWhole, Nat.reduceSub, BitVec.reduceExtractLsb', BitVec.reduceToNat, classRow, decodeVec, vecRow, vectorOperand] <;> rfl)

theorem vceq (o : VWord) : Statement (.vceq o) := fun h => engine h
  (by simp (disch := decide) only [fieldHigh, fieldLow, fieldWhole, Nat.reduceSub, BitVec.reduceExtractLsb', BitVec.reduceToNat, classRow, decodeVec, vecRow, vectorOperand] <;> rfl)

theorem vcne (o : VWord) : Statement (.vcne o) := fun h => engine h
  (by simp (disch := decide) only [fieldHigh, fieldLow, fieldWhole, Nat.reduceSub, BitVec.reduceExtractLsb', BitVec.reduceToNat, classRow, decodeVec, vecRow, vectorOperand] <;> rfl)

theorem vclt (o : VWord) : Statement (.vclt o) := fun h => engine h
  (by simp (disch := decide) only [fieldHigh, fieldLow, fieldWhole, Nat.reduceSub, BitVec.reduceExtractLsb', BitVec.reduceToNat, classRow, decodeVec, vecRow, vectorOperand] <;> rfl)

theorem vcle (o : VWord) : Statement (.vcle o) := fun h => engine h
  (by simp (disch := decide) only [fieldHigh, fieldLow, fieldWhole, Nat.reduceSub, BitVec.reduceExtractLsb', BitVec.reduceToNat, classRow, decodeVec, vecRow, vectorOperand] <;> rfl)

theorem vcun (o : VWord) : Statement (.vcun o) := fun h => engine h
  (by simp (disch := decide) only [fieldHigh, fieldLow, fieldWhole, Nat.reduceSub, BitVec.reduceExtractLsb', BitVec.reduceToNat, classRow, decodeVec, vecRow, vectorOperand] <;> rfl)

theorem vsel (o : VWord) : Statement (.vsel o) := fun h => engine h
  (by simp (disch := decide) only [fieldHigh, fieldLow, fieldWhole, Nat.reduceSub, BitVec.reduceExtractLsb', BitVec.reduceToNat, classRow, decodeVec, vecRow, vectorOperand] <;> rfl)

theorem vcvt (o : VWord) : Statement (.vcvt o) := fun h => engine h
  (by simp (disch := decide) only [fieldHigh, fieldLow, fieldWhole, Nat.reduceSub, BitVec.reduceExtractLsb', BitVec.reduceToNat, classRow, decodeVec, vecRow, vectorOperand] <;> rfl)

theorem vqbf (o : VWord) : Statement (.vqbf o) := fun h => engine h
  (by simp (disch := decide) only [fieldHigh, fieldLow, fieldWhole, Nat.reduceSub, BitVec.reduceExtractLsb', BitVec.reduceToNat, classRow, decodeVec, vecRow, vectorOperand] <;> rfl)

theorem vdqbf (o : VWord) : Statement (.vdqbf o) := fun h => engine h
  (by simp (disch := decide) only [fieldHigh, fieldLow, fieldWhole, Nat.reduceSub, BitVec.reduceExtractLsb', BitVec.reduceToNat, classRow, decodeVec, vecRow, vectorOperand] <;> rfl)

theorem vqaf (o : VWord) : Statement (.vqaf o) := fun h => engine h
  (by simp (disch := decide) only [fieldHigh, fieldLow, fieldWhole, Nat.reduceSub, BitVec.reduceExtractLsb', BitVec.reduceToNat, classRow, decodeVec, vecRow, vectorOperand] <;> rfl)

theorem vmov (o : VWord) : Statement (.vmov o) := fun h => engine h
  (by simp (disch := decide) only [fieldHigh, fieldLow, fieldWhole, Nat.reduceSub, BitVec.reduceExtractLsb', BitVec.reduceToNat, classRow, decodeVec, vecRow, vectorOperand] <;> rfl)

theorem vbcst (o : VWord) : Statement (.vbcst o) := fun h => engine h
  (by simp (disch := decide) only [fieldHigh, fieldLow, fieldWhole, Nat.reduceSub, BitVec.reduceExtractLsb', BitVec.reduceToNat, classRow, decodeVec, vecRow, vectorOperand] <;> rfl)

theorem vld (o : VWord) : Statement (.vld o) := fun h => engine h
  (by simp (disch := decide) only [fieldHigh, fieldLow, fieldWhole, Nat.reduceSub, BitVec.reduceExtractLsb', BitVec.reduceToNat, classRow, decodeVec, vecRow, vectorOperand] <;> rfl)

theorem vst (o : VWord) : Statement (.vst o) := fun h => engine h
  (by simp (disch := decide) only [fieldHigh, fieldLow, fieldWhole, Nat.reduceSub, BitVec.reduceExtractLsb', BitVec.reduceToNat, classRow, decodeVec, vecRow, vectorOperand] <;> rfl)

theorem vgath (o : VWord) : Statement (.vgath o) := fun h => engine h
  (by simp (disch := decide) only [fieldHigh, fieldLow, fieldWhole, Nat.reduceSub, BitVec.reduceExtractLsb', BitVec.reduceToNat, classRow, decodeVec, vecRow, vectorOperand] <;> rfl)

theorem vscat (o : VWord) : Statement (.vscat o) := fun h => engine h
  (by simp (disch := decide) only [fieldHigh, fieldLow, fieldWhole, Nat.reduceSub, BitVec.reduceExtractLsb', BitVec.reduceToNat, classRow, decodeVec, vecRow, vectorOperand] <;> rfl)

theorem vrmg (o : VWord) : Statement (.vrmg o) := fun h => engine h
  (by simp (disch := decide) only [fieldHigh, fieldLow, fieldWhole, Nat.reduceSub, BitVec.reduceExtractLsb', BitVec.reduceToNat, classRow, decodeVec, vecRow, vectorOperand] <;> rfl)

theorem vshuf (o : VWord) : Statement (.vshuf o) := fun h => engine h
  (by simp (disch := decide) only [fieldHigh, fieldLow, fieldWhole, Nat.reduceSub, BitVec.reduceExtractLsb', BitVec.reduceToNat, classRow, decodeVec, vecRow, vectorOperand] <;> rfl)

theorem vpart (o : VWord) : Statement (.vpart o) := fun h => engine h
  (by simp (disch := decide) only [fieldHigh, fieldLow, fieldWhole, Nat.reduceSub, BitVec.reduceExtractLsb', BitVec.reduceToNat, classRow, decodeVec, vecRow, vectorOperand] <;> rfl)

theorem vpop (o : VWord) : Statement (.vpop o) := fun h => engine h
  (by simp (disch := decide) only [fieldHigh, fieldLow, fieldWhole, Nat.reduceSub, BitVec.reduceExtractLsb', BitVec.reduceToNat, classRow, decodeVec, vecRow, vectorOperand] <;> rfl)

theorem vpush (o : VWord) : Statement (.vpush o) := fun h => engine h
  (by simp (disch := decide) only [fieldHigh, fieldLow, fieldWhole, Nat.reduceSub, BitVec.reduceExtractLsb', BitVec.reduceToNat, classRow, decodeVec, vecRow, vectorOperand] <;> rfl)

theorem vred (o : VWord) : Statement (.vred o) := fun h => engine h
  (by simp (disch := decide) only [fieldHigh, fieldLow, fieldWhole, Nat.reduceSub, BitVec.reduceExtractLsb', BitVec.reduceToNat, classRow, decodeVec, vecRow, vectorOperand] <;> rfl)

theorem vscan (o : VWord) : Statement (.vscan o) := fun h => engine h
  (by simp (disch := decide) only [fieldHigh, fieldLow, fieldWhole, Nat.reduceSub, BitVec.reduceExtractLsb', BitVec.reduceToNat, classRow, decodeVec, vecRow, vectorOperand] <;> rfl)

theorem viota (o : VWord) : Statement (.viota o) := fun h => engine h
  (by simp (disch := decide) only [fieldHigh, fieldLow, fieldWhole, Nat.reduceSub, BitVec.reduceExtractLsb', BitVec.reduceToNat, classRow, decodeVec, vecRow, vectorOperand] <;> rfl)

theorem vmcnt (o : VWord) : Statement (.vmcnt o) := fun h => engine h
  (by simp (disch := decide) only [fieldHigh, fieldLow, fieldWhole, Nat.reduceSub, BitVec.reduceExtractLsb', BitVec.reduceToNat, classRow, decodeVec, vecRow, vectorOperand] <;> rfl)

theorem vmlog (md ma mb : MReg) (tt sc : BitVec 4) (rc : BitVec 10) : Statement (.vmlog md ma mb tt sc rc) := fun h => engine h
  (by simp (disch := decide) only [fieldHigh, fieldLow, fieldWhole, Nat.reduceSub, BitVec.reduceExtractLsb', BitVec.reduceToNat, classRow, decodeVec, vecRow, copyOperand, if_true, ne_eq, not_true, or_self, if_false] <;> rfl)

theorem vacc (o : VWord) : Statement (.vacc o) := fun h => engine h
  (by simp (disch := decide) only [fieldHigh, fieldLow, fieldWhole, Nat.reduceSub, BitVec.reduceExtractLsb', BitVec.reduceToNat, classRow, decodeVec, vecRow, vectorOperand] <;> rfl)

theorem vclass (o : VWord) : Statement (.vclass o) := fun h => engine h
  (by simp (disch := decide) only [fieldHigh, fieldLow, fieldWhole, Nat.reduceSub, BitVec.reduceExtractLsb', BitVec.reduceToNat, classRow, decodeVec, vecRow, vectorOperand] <;> rfl)

theorem mma (bank : BitVec 2) (tA tB : Ix6) (k0 : BitVec 12) (sc : BitVec 4) (rc : BitVec 10) : Statement (.mma bank tA tB k0 sc rc) := fun h => engine h
  (by
    simp (disch := decide) only [operandClass, operandCode, operandStall, operandCount, operandField, BitVec.reduceToNat, classRow, decodeMat, matRow]
    simp (disch := decide) only [fieldHigh, fieldLow, fieldWhole, Nat.reduceSub, BitVec.reduceExtractLsb', BitVec.reduceToNat, if_true, and_self, ne_eq, not_true, or_self, if_false] <;> rfl)

theorem mzero (bank : BitVec 2) (sc : BitVec 4) : Statement (.mzero bank sc) := fun h => engine h
  (by
    simp (disch := decide) only [operandClass, operandCode, operandStall, operandCount, operandField, BitVec.reduceToNat, classRow, decodeMat, matRow]
    simp (disch := decide) only [fieldHigh, fieldLow, fieldWhole, Nat.reduceSub, BitVec.reduceExtractLsb', BitVec.reduceToNat, if_true, and_self, ne_eq, not_true, or_self, if_false] <;> rfl)

theorem mdrn (bank : BitVec 2) (tD : Ix6) (ep : BitVec 4) (row0 : BitVec 7) (sc : BitVec 4) (rc : BitVec 10) : Statement (.mdrn bank tD ep row0 sc rc) := fun h => engine h
  (by
    simp (disch := decide) only [operandClass, operandCode, operandStall, operandCount, operandField, BitVec.reduceToNat, classRow, decodeMat, matRow]
    simp (disch := decide) only [fieldHigh, fieldLow, fieldWhole, Nat.reduceSub, BitVec.reduceExtractLsb', BitVec.reduceToNat, if_true, and_self, ne_eq, not_true, or_self, if_false] <;> rfl)

theorem mlease (n : Ix6) (sc : BitVec 4) : Statement (.mlease n sc) := fun h => engine h
  (by
    simp (disch := decide) only [operandClass, operandCode, operandStall, operandCount, operandField, BitVec.reduceToNat, classRow, decodeMat, matRow]
    simp (disch := decide) only [fieldHigh, fieldLow, fieldWhole, Nat.reduceSub, BitVec.reduceExtractLsb', BitVec.reduceToNat, if_true, and_self, ne_eq, not_true, or_self, if_false] <;> rfl)

theorem mcommit (sc : BitVec 4) : Statement (.mcommit sc) := fun h => engine h
  (by
    simp (disch := decide) only [operandClass, operandCode, operandStall, operandCount, operandField, BitVec.reduceToNat, classRow, decodeMat, matRow]
    simp (disch := decide) only [fieldHigh, fieldLow, fieldWhole, Nat.reduceSub, BitVec.reduceExtractLsb', BitVec.reduceToNat, if_true, and_self, ne_eq, not_true, or_self, if_false] <;> rfl)

theorem mlend (bank core : BitVec 2) (sc : BitVec 4) : Statement (.mlend bank core sc) := fun h => engine h
  (by
    simp (disch := decide) only [operandClass, operandCode, operandStall, operandCount, operandField, BitVec.reduceToNat, classRow, decodeMat, matRow]
    simp (disch := decide) only [fieldHigh, fieldLow, fieldWhole, Nat.reduceSub, BitVec.reduceExtractLsb', BitVec.reduceToNat, if_true, and_self, ne_eq, not_true, or_self, if_false] <;> rfl)

theorem mrecl (bank : BitVec 2) (sc : BitVec 4) : Statement (.mrecl bank sc) := fun h => engine h
  (by
    simp (disch := decide) only [operandClass, operandCode, operandStall, operandCount, operandField, BitVec.reduceToNat, classRow, decodeMat, matRow]
    simp (disch := decide) only [fieldHigh, fieldLow, fieldWhole, Nat.reduceSub, BitVec.reduceExtractLsb', BitVec.reduceToNat, if_true, and_self, ne_eq, not_true, or_self, if_false] <;> rfl)

theorem mldacc (bank : BitVec 2) (tS : Ix6) (row0 : BitVec 7) (sc : BitVec 4) (rc : BitVec 10) : Statement (.mldacc bank tS row0 sc rc) := fun h => engine h
  (by
    simp (disch := decide) only [operandClass, operandCode, operandStall, operandCount, operandField, BitVec.reduceToNat, classRow, decodeMat, matRow]
    simp (disch := decide) only [fieldHigh, fieldLow, fieldWhole, Nat.reduceSub, BitVec.reduceExtractLsb', BitVec.reduceToNat, if_true, and_self, ne_eq, not_true, or_self, if_false] <;> rfl)

theorem ccpy (o : CWord) : Statement (.ccpy o) := fun h => engine h
  (by
    simp (disch := decide) only [copyClass, copyCode, copyStall, copyCount, copySource, copyDest, copyDestHigh, copyDestLow, copyChannel, copyMod, copyAux, BitVec.reduceToNat, classRow, decodeCpy, cpyRow, copyOperand]
    simp (disch := decide) only [fieldHigh, fieldLow, fieldWhole, Nat.reduceSub, BitVec.reduceExtractLsb', BitVec.reduceToNat, if_true, and_self, ne_eq, not_true, or_self, if_false] <;> rfl)

theorem ccvt (o : CWord) (mode : BitVec 3) : Statement (.ccvt o mode) := fun h => engine h
  (by
    simp (disch := decide) only [copyClass, copyCode, copyStall, copyCount, copySource, copyDest, copyDestHigh, copyDestLow, copyChannel, copyMod, copyAux, BitVec.reduceToNat, classRow, decodeCpy, cpyRow, copyOperand]
    simp (disch := decide) only [fieldHigh, fieldLow, fieldWhole, Nat.reduceSub, BitVec.reduceExtractLsb', BitVec.reduceToNat, if_true, and_self, ne_eq, not_true, or_self, if_false] <;> rfl)

theorem cxpd (o : CWord) : Statement (.cxpd o) := fun h => engine h
  (by
    simp (disch := decide) only [copyClass, copyCode, copyStall, copyCount, copySource, copyDest, copyDestHigh, copyDestLow, copyChannel, copyMod, copyAux, BitVec.reduceToNat, classRow, decodeCpy, cpyRow, copyOperand]
    simp (disch := decide) only [fieldHigh, fieldLow, fieldWhole, Nat.reduceSub, BitVec.reduceExtractLsb', BitVec.reduceToNat, if_true, and_self, ne_eq, not_true, or_self, if_false] <;> rfl)

theorem cfilb (o : CWord) : Statement (.cfilb o) := fun h => engine h
  (by
    simp (disch := decide) only [copyClass, copyCode, copyStall, copyCount, copySource, copyDest, copyDestHigh, copyDestLow, copyChannel, copyMod, copyAux, BitVec.reduceToNat, classRow, decodeCpy, cpyRow, copyOperand]
    simp (disch := decide) only [fieldHigh, fieldLow, fieldWhole, Nat.reduceSub, BitVec.reduceExtractLsb', BitVec.reduceToNat, if_true, and_self, ne_eq, not_true, or_self, if_false] <;> rfl)

theorem cgath (o : CWord) : Statement (.cgath o) := fun h => engine h
  (by
    simp (disch := decide) only [copyClass, copyCode, copyStall, copyCount, copySource, copyDest, copyDestHigh, copyDestLow, copyChannel, copyMod, copyAux, BitVec.reduceToNat, classRow, decodeCpy, cpyRow, copyOperand]
    simp (disch := decide) only [fieldHigh, fieldLow, fieldWhole, Nat.reduceSub, BitVec.reduceExtractLsb', BitVec.reduceToNat, if_true, and_self, ne_eq, not_true, or_self, if_false] <;> rfl)

theorem cscat (o : CWord) : Statement (.cscat o) := fun h => engine h
  (by
    simp (disch := decide) only [copyClass, copyCode, copyStall, copyCount, copySource, copyDest, copyDestHigh, copyDestLow, copyChannel, copyMod, copyAux, BitVec.reduceToNat, classRow, decodeCpy, cpyRow, copyOperand]
    simp (disch := decide) only [fieldHigh, fieldLow, fieldWhole, Nat.reduceSub, BitVec.reduceExtractLsb', BitVec.reduceToNat, if_true, and_self, ne_eq, not_true, or_self, if_false] <;> rfl)

theorem cred (o : CWord) (op : BitVec 3) : Statement (.cred o op) := fun h => engine h
  (by
    have hz : o.rc = 0#10 := BitVec.eq_of_toNat_eq (by simp only [Instr.wf, Bool.and_eq_true, beq_iff_eq] at h; exact h.2)
    simp (disch := decide) only [copyClass, copyCode, copyStall, copyCount, copySource, copyDest, copyDestHigh, copyDestLow, copyChannel, copyMod, copyAux, BitVec.reduceToNat, classRow, decodeCpy, cpyRow, copyOperand]
    simp (disch := decide) only [fieldHigh, fieldLow, fieldWhole, Nat.reduceSub, BitVec.reduceExtractLsb', BitVec.reduceToNat, if_true, and_self, ne_eq, not_true, or_self, if_false, hz] 
    cases o
    simp_all)

theorem cmcst (o : CWord) (dies : BitVec 8) : Statement (.cmcst o dies) := fun h => engine h
  (by
    simp (disch := decide) only [copyClass, copyCode, copyStall, copyCount, copySource, copyDest, copyDestHigh, copyDestLow, copyChannel, copyMod, copyAux, BitVec.reduceToNat, classRow, decodeCpy, cpyRow, copyOperand]
    simp (disch := decide) only [fieldHigh, fieldLow, fieldWhole, Nat.reduceSub, BitVec.reduceExtractLsb', BitVec.reduceToNat, if_true, and_self, ne_eq, not_true, or_self, if_false] <;> rfl)

theorem cdsp (o : CWord) (k : BitVec 3) : Statement (.cdsp o k) := fun h => engine h
  (by
    have hh : o.ch.toNat = 0 ∧ o.rc.toNat = 0 := by simpa only [Instr.wf, Bool.and_eq_true, beq_iff_eq] using h
    have hc : o.ch = 0#3 := BitVec.eq_of_toNat_eq hh.1
    have hz : o.rc = 0#10 := BitVec.eq_of_toNat_eq hh.2
    simp (disch := decide) only [copyClass, copyCode, copyStall, copyCount, copySource, copyDest, copyDestHigh, copyDestLow, copyChannel, copyMod, copyAux, BitVec.reduceToNat, classRow, decodeCpy, cpyRow, copyOperand]
    simp (disch := decide) only [fieldHigh, fieldLow, fieldWhole, Nat.reduceSub, BitVec.reduceExtractLsb', BitVec.reduceToNat, if_true, and_self, ne_eq, not_true, or_self, if_false, hz, hc] 
    cases o
    simp_all)

theorem cscl (ws : BitVec 5) (q : BitVec 1) (sc : BitVec 4) (rc : BitVec 10) : Statement (.cscl ws q sc rc) := fun h => engine h
  (by
    simp (disch := decide) only [copyClass, copyCode, copyStall, copyCount, copySource, copyDest, copyDestHigh, copyDestLow, copyChannel, copyMod, copyAux, BitVec.reduceToNat, classRow, decodeCpy, cpyRow, copyOperand]
    simp (disch := decide) only [fieldHigh, fieldLow, fieldWhole, Nat.reduceSub, BitVec.reduceExtractLsb', BitVec.reduceToNat, if_true, and_self, ne_eq, not_true, or_self, if_false] <;> rfl)

theorem cbindOff (ch : BitVec 3) (sc : BitVec 4) : Statement (.cbindOff ch sc) := fun h => engine h
  (by
    simp (disch := decide) only [copyClass, copyCode, copyStall, copyCount, copySource, copyDest, copyDestHigh, copyDestLow, copyChannel, copyMod, copyAux, BitVec.reduceToNat, classRow, decodeCpy, cpyRow, copyOperand]
    simp (disch := decide) only [fieldHigh, fieldLow, fieldWhole, Nat.reduceSub, BitVec.reduceExtractLsb', BitVec.reduceToNat, if_true, and_self, ne_eq, not_true, or_self, if_false] <;> rfl)

theorem cbindRange (ch : BitVec 3) (wd : BitVec 5) (sc : BitVec 4) : Statement (.cbindRange ch wd sc) := fun h => engine h
  (by
    simp (disch := decide) only [copyClass, copyCode, copyStall, copyCount, copySource, copyDest, copyDestHigh, copyDestLow, copyChannel, copyMod, copyAux, BitVec.reduceToNat, classRow, decodeCpy, cpyRow, copyOperand]
    simp (disch := decide) only [fieldHigh, fieldLow, fieldWhole, Nat.reduceSub, BitVec.reduceExtractLsb', BitVec.reduceToNat, if_true, and_self, ne_eq, not_true, or_self, if_false] <;> rfl)

theorem cbindStream (ch : BitVec 3) (out : BitVec 1) (esz : BitVec 2) (sc : BitVec 4) : Statement (.cbindStream ch out esz sc) := fun h => engine h
  (by
    simp (disch := decide) only [copyClass, copyCode, copyStall, copyCount, copySource, copyDest, copyDestHigh, copyDestLow, copyChannel, copyMod, copyAux, BitVec.reduceToNat, classRow, decodeCpy, cpyRow, copyOperand]
    simp (disch := decide) only [fieldHigh, fieldLow, fieldWhole, Nat.reduceSub, BitVec.reduceExtractLsb', BitVec.reduceToNat, if_true, and_self, ne_eq, not_true, or_self, if_false] <;> rfl)

theorem czero (wd : BitVec 5) (ch : BitVec 3) (sc : BitVec 4) (rc : BitVec 10) : Statement (.czero wd ch sc rc) := fun h => engine h
  (by
    simp (disch := decide) only [copyClass, copyCode, copyStall, copyCount, copySource, copyDest, copyDestHigh, copyDestLow, copyChannel, copyMod, copyAux, BitVec.reduceToNat, classRow, decodeCpy, cpyRow, copyOperand]
    simp (disch := decide) only [fieldHigh, fieldLow, fieldWhole, Nat.reduceSub, BitVec.reduceExtractLsb', BitVec.reduceToNat, if_true, and_self, ne_eq, not_true, or_self, if_false] <;> rfl)

theorem cwmk (ch : BitVec 3) (n : BitVec 10) (sc : BitVec 4) : Statement (.cwmk ch n sc) := fun h => engine h
  (by
    simp (disch := decide) only [copyClass, copyCode, copyStall, copyCount, copySource, copyDest, copyDestHigh, copyDestLow, copyChannel, copyMod, copyAux, BitVec.reduceToNat, classRow, decodeCpy, cpyRow, copyOperand]
    simp (disch := decide) only [fieldHigh, fieldLow, fieldWhole, Nat.reduceSub, BitVec.reduceExtractLsb', BitVec.reduceToNat, if_true, and_self, ne_eq, not_true, or_self, if_false] <;> rfl)

theorem snop (sc : BitVec 4) (rc : BitVec 10) : Statement (.snop sc rc) := fun h => engine h
  (by
    simp (disch := decide) only [operandClass, operandCode, operandStall, operandCount, operandField, BitVec.reduceToNat, classRow, decodeSeq, seqRow]
    simp (disch := decide) only [fieldHigh, fieldLow, fieldWhole, Nat.reduceSub, BitVec.reduceExtractLsb', BitVec.reduceToNat, if_true, and_self, ne_eq, not_true, or_self, if_false] <;> rfl)

theorem swait (f : Ix6) (sc : BitVec 4) : Statement (.swait f sc) := fun h => engine h
  (by
    simp (disch := decide) only [operandClass, operandCode, operandStall, operandCount, operandField, BitVec.reduceToNat, classRow, decodeSeq, seqRow]
    simp (disch := decide) only [fieldHigh, fieldLow, fieldWhole, Nat.reduceSub, BitVec.reduceExtractLsb', BitVec.reduceToNat, if_true, and_self, ne_eq, not_true, or_self, if_false] <;> rfl)

theorem ssig (f : Ix6) (sc : BitVec 4) : Statement (.ssig f sc) := fun h => engine h
  (by
    simp (disch := decide) only [operandClass, operandCode, operandStall, operandCount, operandField, BitVec.reduceToNat, classRow, decodeSeq, seqRow]
    simp (disch := decide) only [fieldHigh, fieldLow, fieldWhole, Nat.reduceSub, BitVec.reduceExtractLsb', BitVec.reduceToNat, if_true, and_self, ne_eq, not_true, or_self, if_false] <;> rfl)

theorem sloop (src : BitVec 3) (n : BitVec 16) (sc : BitVec 4) : Statement (.sloop src n sc) := fun h => engine h
  (by
    simp (disch := decide) only [operandClass, operandCode, operandStall, operandCount, operandField, BitVec.reduceToNat, classRow, decodeSeq, seqRow]
    simp (disch := decide) only [fieldHigh, fieldLow, fieldWhole, Nat.reduceSub, BitVec.reduceExtractLsb', BitVec.reduceToNat, if_true, and_self, ne_eq, not_true, or_self, if_false] <;> rfl)

theorem sendl (sc : BitVec 4) : Statement (.sendl sc) := fun h => engine h
  (by
    simp (disch := decide) only [operandClass, operandCode, operandStall, operandCount, operandField, BitVec.reduceToNat, classRow, decodeSeq, seqRow]
    simp (disch := decide) only [fieldHigh, fieldLow, fieldWhole, Nat.reduceSub, BitVec.reduceExtractLsb', BitVec.reduceToNat, if_true, and_self, ne_eq, not_true, or_self, if_false] <;> rfl)

theorem spho (k : Ix6) (sc : BitVec 4) : Statement (.spho k sc) := fun h => engine h
  (by
    simp (disch := decide) only [operandClass, operandCode, operandStall, operandCount, operandField, BitVec.reduceToNat, classRow, decodeSeq, seqRow]
    simp (disch := decide) only [fieldHigh, fieldLow, fieldWhole, Nat.reduceSub, BitVec.reduceExtractLsb', BitVec.reduceToNat, if_true, and_self, ne_eq, not_true, or_self, if_false] <;> rfl)

theorem sphc (k : Ix6) (sc : BitVec 4) : Statement (.sphc k sc) := fun h => engine h
  (by
    simp (disch := decide) only [operandClass, operandCode, operandStall, operandCount, operandField, BitVec.reduceToNat, classRow, decodeSeq, seqRow]
    simp (disch := decide) only [fieldHigh, fieldLow, fieldWhole, Nat.reduceSub, BitVec.reduceExtractLsb', BitVec.reduceToNat, if_true, and_self, ne_eq, not_true, or_self, if_false] <;> rfl)

theorem sacq (s : BitVec 3) (sc : BitVec 4) : Statement (.sacq s sc) := fun h => engine h
  (by
    simp (disch := decide) only [operandClass, operandCode, operandStall, operandCount, operandField, BitVec.reduceToNat, classRow, decodeSeq, seqRow]
    simp (disch := decide) only [fieldHigh, fieldLow, fieldWhole, Nat.reduceSub, BitVec.reduceExtractLsb', BitVec.reduceToNat, if_true, and_self, ne_eq, not_true, or_self, if_false] <;> rfl)

theorem srel (s : BitVec 3) (sc : BitVec 4) : Statement (.srel s sc) := fun h => engine h
  (by
    simp (disch := decide) only [operandClass, operandCode, operandStall, operandCount, operandField, BitVec.reduceToNat, classRow, decodeSeq, seqRow]
    simp (disch := decide) only [fieldHigh, fieldLow, fieldWhole, Nat.reduceSub, BitVec.reduceExtractLsb', BitVec.reduceToNat, if_true, and_self, ne_eq, not_true, or_self, if_false] <;> rfl)

theorem smodeExposed (sc : BitVec 4) : Statement (.smodeExposed sc) := fun h => engine h
  (by
    simp (disch := decide) only [operandClass, operandCode, operandStall, operandCount, operandField, BitVec.reduceToNat, classRow, decodeSeq, seqRow]
    simp (disch := decide) only [fieldHigh, fieldLow, fieldWhole, Nat.reduceSub, BitVec.reduceExtractLsb', BitVec.reduceToNat, if_true, and_self, ne_eq, not_true, or_self, if_false] <;> rfl)

theorem smodeInterlock (sc : BitVec 4) : Statement (.smodeInterlock sc) := fun h => engine h
  (by
    simp (disch := decide) only [operandClass, operandCode, operandStall, operandCount, operandField, BitVec.reduceToNat, classRow, decodeSeq, seqRow]
    simp (disch := decide) only [fieldHigh, fieldLow, fieldWhole, Nat.reduceSub, BitVec.reduceExtractLsb', BitVec.reduceToNat, if_true, and_self, ne_eq, not_true, or_self, if_false] <;> rfl)

theorem send (k : BitVec 3) (sc : BitVec 4) : Statement (.send k sc) := fun h => engine h
  (by
    simp (disch := decide) only [operandClass, operandCode, operandStall, operandCount, operandField, BitVec.reduceToNat, classRow, decodeSeq, seqRow]
    simp (disch := decide) only [fieldHigh, fieldLow, fieldWhole, Nat.reduceSub, BitVec.reduceExtractLsb', BitVec.reduceToNat, if_true, and_self, ne_eq, not_true, or_self, if_false] <;> rfl)

theorem entryWaitSatisfied (n : Nat) (e : Eng) : Statement (.entryWaitSatisfied n e) := step rfl

theorem blockEntry (n : Nat) (e : Eng) : Statement (.blockEntry n e) := step rfl

theorem nullEntry (n : Nat) (e : Eng) : Statement (.nullEntry n e) := step rfl

theorem programRowFetch (n : Nat) (e : Eng) : Statement (.programRowFetch n e) := step rfl

theorem engineFault (n : Nat) (e : Eng) (code : BitVec 8) : Statement (.engineFault n e code) := step rfl

theorem entryComplete (n : Nat) (e : Eng) (k : Nat) : Statement (.entryComplete n e k) := step rfl

theorem saddlebagReturn (n : Nat) (e : Eng) : Statement (.saddlebagReturn n e) := step rfl

theorem modeCrossing (n : Nat) : Statement (.modeCrossing n) := step rfl

theorem leaseGrant (quad : Nat) : Statement (.leaseGrant quad) := step rfl

theorem lstallPass (quad : Nat) : Statement (.lstallPass quad) := step rfl

theorem loadReturn (n : Nat) : Statement (.loadReturn n) := step rfl

theorem storePerform (n : Nat) : Statement (.storePerform n) := step rfl

theorem handleResolve (n : Nat) (h : HReg) : Statement (.handleResolve n h) := step rfl

theorem vectorLoadReturn (n k : Nat) : Statement (.vectorLoadReturn n k) := step rfl

theorem rowTransfer (n k pos : Nat) : Statement (.rowTransfer n k pos) := step rfl

theorem faoGrant (n : Nat) : Statement (.faoGrant n) := step rfl

theorem barrierGenerationComplete (k : Nat) : Statement (.barrierGenerationComplete k) := step rfl

theorem quotaStall (n : Nat) : Statement (.quotaStall n) := step rfl

theorem trapDelivery (n : Nat) : Statement (.trapDelivery n) := step rfl

theorem taskBind (n : Nat) : Statement (.taskBind n) := step rfl

theorem taskStart (n : Nat) : Statement (.taskStart n) := step rfl

theorem taskRetire (n : Nat) : Statement (.taskRetire n) := step rfl

theorem launchAdmit (l : Nat) : Statement (.launchAdmit l) := step rfl

theorem launchStart (n : Nat) : Statement (.launchStart n) := step rfl

theorem launchRetire (l : Nat) : Statement (.launchRetire l) := step rfl

theorem burnish (l : Nat) : Statement (.burnish l) := step rfl

theorem nopPacket (q : Nat) : Statement (.nopPacket q) := step rfl

theorem oprec (q : Nat) : Statement (.oprec q) := step rfl

theorem graph (q : Nat) : Statement (.graph q) := step rfl

theorem write (q : Nat) : Statement (.write q) := step rfl

theorem signal (q : Nat) : Statement (.signal q) := step rfl

theorem wait (q : Nat) : Statement (.wait q) := step rfl

theorem wrsig (q : Nat) : Statement (.wrsig q) := step rfl

theorem copy (q : Nat) : Statement (.copy q) := step rfl

theorem timestamp (q : Nat) : Statement (.timestamp q) := step rfl

theorem fence (q : Nat) : Statement (.fence q) := step rfl

theorem packetComplete (q : Nat) : Statement (.packetComplete q) := step rfl

theorem qpollRotation (out : Nat) (inq : Nat) : Statement (.qpollRotation out inq) := step rfl

theorem ageLimit (q : Nat) : Statement (.ageLimit q) := step rfl

theorem qslice (ctx : Nat) : Statement (.qslice ctx) := step rfl

theorem coreslice (n : Nat) : Statement (.coreslice n) := step rfl

theorem preemption (ctx : Nat) : Statement (.preemption ctx) := step rfl

theorem bankClaim (n : Nat) (b : Bank) : Statement (.bankClaim n b) := step rfl

theorem forcedSpill (n : Nat) (b : Bank) : Statement (.forcedSpill n b) := step rfl

theorem segmentSave (k : Nat) : Statement (.segmentSave k) := step rfl

theorem segmentRestore (k pseg : Nat) : Statement (.segmentRestore k pseg) := step rfl

theorem dynamicStep (g : Nat) : Statement (.dynamicStep g) := step rfl

theorem replay (g : Nat) : Statement (.replay g) := step rfl

theorem refinement (hash : Word) (variant : Nat) (change : RefineChange) : Statement (.refinement hash variant change) := step rfl

theorem versionNotice (hash : Word) (variant version effect : Nat) : Statement (.versionNotice hash variant version effect) := step rfl

theorem versionLate (g : Nat) : Statement (.versionLate g) := step rfl

theorem skiverPatch (ctx rec p : Nat) : Statement (.skiverPatch ctx rec p) := step rfl

theorem conversionComplete (ctx rec : Nat) : Statement (.conversionComplete ctx rec) := step rfl

theorem contributionArrive (k : Nat) : Statement (.contributionArrive k) := step rfl

theorem contributionRetry (k : Nat) : Statement (.contributionRetry k) := step rfl

theorem pageReply (ctx slot : Nat) : Statement (.pageReply ctx slot) := step rfl

theorem tableWalk (unit ctx : Nat) (va : Word) (wr : Bool) : Statement (.tableWalk unit ctx va wr) := step rfl

theorem sweep (ctx : Nat) : Statement (.sweep ctx) := step rfl

theorem scrub (pq row : Nat) : Statement (.scrub pq row) := step rfl

theorem shoot : Statement (.shoot) := step rfl

theorem harvest : Statement (.harvest) := step rfl

theorem stop : Statement (.stop) := step rfl

theorem image : Statement (.image) := step rfl

theorem resume : Statement (.resume) := step rfl

theorem destroy : Statement (.destroy) := step rfl

theorem commandCompletion : Statement (.commandCompletion) := step rfl

theorem queueEnable (q : Nat) : Statement (.queueEnable q) := step rfl

theorem contextRecordEnable (ctx : Nat) : Statement (.contextRecordEnable ctx) := step rfl

theorem journalClear : Statement (.journalClear) := step rfl

theorem bar0Write (off : Nat) (bytes : Nat) (data : Nat) : Statement (.bar0Write off bytes data) := step rfl

theorem hostBar2Access (off : Nat) (op : HostOp) : Statement (.hostBar2Access off op) := step rfl

theorem debugStop (ctx : Nat) (cores : List Nat) : Statement (.debugStop ctx cores) := step rfl

theorem breakpointMatch (n : Nat) (src : BpSource) : Statement (.breakpointMatch n src) := step rfl

theorem headClassSample (n : Nat) (e : Eng) : Statement (.headClassSample n e) := step rfl

theorem bankConflictSample (n : Nat) (e : Option Eng) (pq : Nat) (rows : List Nat) : Statement (.bankConflictSample n e pq rows) := step rfl

theorem ptpAdjustment (offset rate : Int) : Statement (.ptpAdjustment offset rate) := step rfl

theorem dieFence (d : Nat) : Statement (.dieFence d) := step rfl

theorem channelRetirement (stack ch : Nat) : Statement (.channelRetirement stack ch) := step rfl

theorem liveUpdate (stage : UpdateStage) : Statement (.liveUpdate stage) := step rfl

theorem bootStep (id : BitVec 16) (outcome : BitVec 8) (writesRemap : Bool) : Statement (.bootStep id outcome writesRemap) := step rfl

theorem clockStep (dir : ClockDir) : Statement (.clockStep dir) := step rfl

theorem throttle (junction stack : Nat) : Statement (.throttle junction stack) := step rfl

theorem shutdown (junction : Nat) : Statement (.shutdown junction) := step rfl

theorem flitReceive (port : Nat) (symErrors : Nat) : Statement (.flitReceive port symErrors) := step rfl

theorem laneRemoval (port : Nat) : Statement (.laneRemoval port) := step rfl

theorem remoteRequest (pkg gang : Nat) (va : Word) (op : RemoteOp) : Statement (.remoteRequest pkg gang va op) := step rfl

theorem remoteResponse (id : Nat) (st : RemoteStatus) (data : Row) : Statement (.remoteResponse id st data) := step rfl

theorem remoteTimeout (id : Nat) : Statement (.remoteTimeout id) := step rfl

theorem podBarrierArrival (pkg launch id gen : Nat) : Statement (.podBarrierArrival pkg launch id gen) := step rfl

theorem packageFence (pkg : Nat) : Statement (.packageFence pkg) := step rfl

theorem fenceNotice (pkg : Nat) : Statement (.fenceNotice pkg) := step rfl

theorem ptpMessage (port : Nat) (kind : PtpKind) (stamp : Nat) : Statement (.ptpMessage port kind stamp) := step rfl

theorem powerUp (alwaysOnLost : Bool) : Statement (.powerUp alwaysOnLost) := step rfl

theorem packageReset : Statement (.packageReset) := step rfl

theorem doubleError (vault : Bool) (word : Nat) : Statement (.doubleError vault word) := step rfl

theorem linkUp (port : Nat) (lanes : BitVec 2) : Statement (.linkUp port lanes) := step rfl

theorem gangBuild (gang self size ctx : Nat) (table : GangTable) : Statement (.gangBuild gang self size ctx table) := step rfl

theorem syncInterval (pdelay : Bool) : Statement (.syncInterval pdelay) := step rfl

theorem mldaccRowArrival (n : Nat) : Statement (.mldaccRowArrival n) := step rfl

end Sys2Proof.Laws.RoundTrip
end

