-- ==== Sys2Proof/Safety.lean ====
section
/-! DEFINITION. What a safe run is: the machine does not stop, and its byte spaces keep their canonical form. -/

namespace Sys2Proof.Safety

open Sys2Proof.Machine

/-- Every byte space of the state has the canonical form. -/
def MemoryOk (s : State) : Prop := Memory.wf s.mem = true ∧ Memory.wf s.vault = true ∧ Memory.wf s.sram = true

/-- The run of `k` steps does not stop, and ends in a state whose memory is canonical. -/
def SafeRun (k : Nat) (s : State) : Prop := ∃ t, Host.Core.run Sys2Proof.core k s = .next t ∧ MemoryOk t

end Sys2Proof.Safety
end

