-- ==== Sys2Proof/Certificates/Slice0/Obligations.lean ====
section
/-! DEFINITION. The statements for the provers, with the predicates that they share: what an instruction leaves as it was,
and what it writes. -/

namespace Sys2Proof.Claims

open Sys2Proof.Machine

/-! ## What is left as it was -/

/-- Every byte of device and host memory, of the vaults and of the firmware memories reads as before. -/
def SameBytes (s t : State) : Prop :=
  (∀ a, readByte t.mem a = readByte s.mem a) ∧ (∀ a, readByte t.vault a = readByte s.vault a)
    ∧ ∀ a, readByte t.sram a = readByte s.sram a

/-- Nothing but the acting core differs: no byte of memory, no other core, no other part of the package. -/
def OnlyCore (s t : State) : Prop :=
  t = { s with cores := t.cores } ∧ SameBytes s t
    ∧ ∀ ctx n, coreKey ctx n ≠ coreKey s.ctx s.cur → t.coreAt ctx n = s.coreAt ctx n

/-- Of the acting core only scalar registers and the pc differ, and it no longer waits. -/
def OnlyScalars (s t : State) : Prop :=
  OnlyCore s t ∧ t.core = { s.core with s := t.core.s, pc := t.core.pc, waiting := none }

/-- Register d takes the value v (s0 still reads zero), the pc moves on by n bytes, and nothing else changes. -/
def WritesReg (s t : State) (d : Reg) (v : Word) (n : Nat) : Prop :=
  OnlyScalars s t ∧ t.core.pc = s.core.pc + BitVec.ofNat 64 n
    ∧ ∀ k : Reg, t.core.rd k = if k = 0 then 0 else if k = d then v else s.core.rd k

/-- Control goes to `target`; no register and nothing else changes. -/
def GoesTo (s t : State) (target : Word) : Prop :=
  OnlyScalars s t ∧ t.core.pc = target ∧ ∀ k : Reg, t.core.rd k = s.core.rd k

/-- Mask register d takes the value x (m0 still reads all ones), the pc moves on, and nothing else changes but the mask
writes of the vector engine to d that had landed. -/
def WritesMask (s t : State) (d : MReg) (x : BitVec 128) : Prop :=
  OnlyCore s t ∧ t.core = { s.core with m := t.core.m, pendM := t.core.pendM, pc := s.core.pc + 4, waiting := none }
    ∧ ∀ k : MReg, t.readMask k = if k = 0 then BitVec.allOnes 128 else if k = d then x else s.readMask k

/-- The exception entry of R113 with a handler in force and no exception at work: the frame is saved, INH is set, FLT is
set unless the cause leaves the task unfaulted, and control is at the handler. -/
def TakesTrap (s t : State) (code : BitVec 8) (value resume : Word) : Prop :=
  (t.core.xpc = resume ∧ t.core.xcause = 0#1 ++ code ∧ t.core.xval = value ∧ t.core.inh = true
    ∧ t.core.flt = (s.core.flt || !causeHarmless code value) ∧ t.core.pc = s.core.xhand)
  ∧ t.core = { s.core with xpc := t.core.xpc, xcause := t.core.xcause, xval := t.core.xval, inh := true,
                           flt := t.core.flt, pc := t.core.pc, waiting := none }
  ∧ t = { s with cores := t.cores, graphs := t.graphs } ∧ SameBytes s t
  ∧ ∀ ctx n, coreKey ctx n ≠ coreKey s.ctx s.cur → t.coreAt ctx n = s.coreAt ctx n

/-- The acting core becomes c, and nothing else changes. -/
def CoreBecomes (s t : State) (c : Core) : Prop := OnlyCore s t ∧ t.core = c

/-- The acting core becomes c; beside it only the recording of a graph step may change (R303). -/
def CoreRecorded (s t : State) (c : Core) : Prop :=
  t.core = c ∧ t = { s with cores := t.cores, graphs := t.graphs } ∧ SameBytes s t
    ∧ ∀ ctx n, coreKey ctx n ≠ coreKey s.ctx s.cur → t.coreAt ctx n = s.coreAt ctx n

/-- The core at its next instruction, `n` bytes on. -/
def movedOn (c : Core) (n : Nat) : Core := { c with pc := c.pc + BitVec.ofNat 64 n, waiting := none }

/-- The core with register d holding v, `n` bytes on. -/
def regSet (c : Core) (d : Reg) (v : Word) (n : Nat) : Core := movedOn (c.wr d v) n

/-- `n` bytes of a space from `base` on hold the little-endian number v, and every other byte reads as before. -/
def Stores (s t : State) (vault : Bool) (base n v : Nat) : Prop :=
  ∀ (w : Bool) (a : Nat), readByte (t.space w) a =
    if w = vault ∧ base ≤ a ∧ a < base + n then BitVec.ofNat 8 (v / 256 ^ (a - base)) else readByte (s.space w) a

/-- `v` is the little-endian number in the `n` bytes of a space from `base` on. -/
def Holds (s : State) (vault : Bool) (base n : Nat) (v : Nat) : Prop :=
  v < 256 ^ n ∧ ∀ j, j < n → BitVec.ofNat 8 (v / 256 ^ j) = readByte (s.space vault) (base + j)

/-- The core of the current actor is served, so that a step of the part on its behalf takes place. -/
def Serves (s : State) : Prop := s.servedCtx s.cur = some s.ctx

/-- The core of the current actor is served and owns bank F: its engines run (R206). -/
def Engines (s : State) : Prop := s.engineCtx s.cur = some s.ctx

end Sys2Proof.Claims

open Sys2Proof Sys2Proof.Machine Sys2Proof.Claims

/-! ## Scalar registers -/

/-- R74: the two-operand group. Every result is formed from the values that s[a] and s[b] hold before the write. -/
def Sys2Proof.Claims.RegisterOperations : Prop :=
  ∀ (s : State) (d a b c : Reg) (n : BitVec 5),
    let x := s.core.rd a
    let y := s.core.rd b
    let k := y.toNat % 64
    ∀ p ∈ [
      (Instr.add d a b, x + y), (.sub d a b, x - y), (.and d a b, x &&& y), (.or d a b, x ||| y), (.xor d a b, x ^^^ y),
      (.andn d a b, x &&& ~~~y), (.sll d a b, x <<< k), (.srl d a b, x >>> k), (.sra d a b, x.sshiftRight k),
      (.rol d a b, (x <<< k) ||| (x >>> (64 - k))),
      (.mul d a b, BitVec.ofNat 64 (x.toNat * y.toNat)),
      (.mulh d a b, BitVec.ofInt 64 (x.toInt * y.toInt / 2 ^ 64)),
      (.mulhn d a b, BitVec.ofNat 64 (x.toNat * y.toNat / 2 ^ 64)),
      (.div d a b, if y = 0 then BitVec.allOnes 64 else BitVec.ofInt 64 (x.toInt.tdiv y.toInt)),
      (.divn d a b, if y = 0 then BitVec.allOnes 64 else BitVec.ofNat 64 (x.toNat / y.toNat)),
      (.rem d a b, if y = 0 then x else BitVec.ofInt 64 (x.toInt.tmod y.toInt)),
      (.remn d a b, if y = 0 then x else BitVec.ofNat 64 (x.toNat % y.toNat)),
      (.min d a b, BitVec.ofInt 64 (min x.toInt y.toInt)), (.max d a b, BitVec.ofInt 64 (max x.toInt y.toInt)),
      (.minn d a b, BitVec.ofNat 64 (min x.toNat y.toNat)), (.maxn d a b, BitVec.ofNat 64 (max x.toNat y.toNat)),
      (.slt d a b, if x.toInt < y.toInt then 1 else 0), (.sltn d a b, if x.toNat < y.toNat then 1 else 0),
      (.seq d a b, if x = y then 1 else 0),
      (.sel d a b c, if s.core.rd c = 0 then y else x),
      (.addw d a b, (BitVec.ofNat 32 (x.toNat + y.toNat)).signExtend 64),
      (.subw d a b, (x.extractLsb' 0 32 - y.extractLsb' 0 32).signExtend 64),
      (.mulw d a b, (BitVec.ofNat 32 (x.toNat * y.toNat)).signExtend 64),
      (.shadd d a b n, (x <<< n.toNat) + y)],
    ∃ t, exec p.1 s = .next t ∧ WritesReg s t d p.2 4

/-- R74: counts of bits, and the extensions of the low 8, 16 or 32 bits. -/
def Sys2Proof.Claims.BitCountsAndExtensions : Prop :=
  ∀ (s : State) (d a : Reg),
    let x := s.core.rd a
    (∃ t v, exec (.clz d a) s = .next t ∧ WritesReg s t d v 4 ∧ v.toNat ≤ 64
      ∧ (∀ j, 64 - v.toNat ≤ j → x.getLsbD j = false) ∧ (v.toNat < 64 → x.getLsbD (63 - v.toNat) = true))
    ∧ (∃ t v, exec (.ctz d a) s = .next t ∧ WritesReg s t d v 4 ∧ v.toNat ≤ 64
      ∧ (∀ j, j < v.toNat → x.getLsbD j = false) ∧ (v.toNat < 64 → x.getLsbD v.toNat = true))
    ∧ (∃ t, exec (.pop d a) s = .next t
      ∧ WritesReg s t d (BitVec.ofNat 64 ((List.range 64).filter (fun j => x.getLsbD j)).length) 4)
    ∧ ∀ (w : BitVec 2), w.toNat < 3 →
      (∃ t, exec (.sext d a w) s = .next t
        ∧ WritesReg s t d ((x.extractLsb' 0 (8 * 2 ^ w.toNat)).signExtend 64) 4)
      ∧ ∃ t, exec (.zext d a w) s = .next t
        ∧ WritesReg s t d ((x.extractLsb' 0 (8 * 2 ^ w.toNat)).zeroExtend 64) 4

/-- R75 and R77: the immediate group and the long immediates. -/
def Sys2Proof.Claims.ImmediateOperations : Prop :=
  ∀ (s : State) (d a : Reg) (i : BitVec 16) (n : BitVec 6) (j : BitVec 32),
    let x := s.core.rd a
    let se := i.signExtend 64
    let ze := i.zeroExtend 64
    (∀ p ∈ [
      (Instr.addi d a i, x + se), (.andi d a i, x &&& ze), (.ori d a i, x ||| ze), (.xori d a i, x ^^^ ze),
      (.slti d a i, if x.toInt < i.toInt then 1 else 0), (.sltin d a i, if x.toNat < se.toNat then 1 else 0),
      (.slli d a n, x <<< n.toNat), (.srli d a n, x >>> n.toNat), (.srai d a n, x.sshiftRight n.toNat),
      (.roli d a n, (x <<< n.toNat) ||| (x >>> (64 - n.toNat))), (.lui d i, BitVec.ofInt 64 (i.toInt * 2 ^ 16)),
      (.muli d a i, BitVec.ofInt 64 (x.toInt * i.toInt))],
      ∃ t, exec p.1 s = .next t ∧ WritesReg s t d p.2 4)
    ∧ (∃ t, exec (.li d j) s = .next t ∧ WritesReg s t d (j.signExtend 64) 8)
    ∧ ∃ t, exec (.lih d j) s = .next t ∧ WritesReg s t d (j ++ (s.core.rd d).extractLsb' 0 32) 8

/-- R76: a field at position p of length n + 1 that lies inside the register. -/
def Sys2Proof.Claims.Bitfields : Prop :=
  ∀ (s : State) (d a : Reg) (p n : BitVec 6), p.toNat + n.toNat + 1 ≤ 64 →
    let x := s.core.rd a
    (∃ t v, exec (.bfx d a p n) s = .next t ∧ WritesReg s t d v 4
      ∧ ∀ j, v.getLsbD j = (decide (j ≤ n.toNat) && x.getLsbD (p.toNat + j)))
    ∧ (∃ t v, exec (.bfxS d a p n) s = .next t ∧ WritesReg s t d v 4
      ∧ ∀ j, j < 64 → v.getLsbD j = x.getLsbD (p.toNat + min j n.toNat))
    ∧ ∃ t v, exec (.bfi d a p n) s = .next t ∧ WritesReg s t d v 4
      ∧ ∀ j, v.getLsbD j = if p.toNat ≤ j ∧ j ≤ p.toNat + n.toNat then x.getLsbD (j - p.toNat) else (s.core.rd d).getLsbD j

/-- R74 to R77: the instructions that form a value from scalar registers and immediates. -/
def Obligations.ScalarOperations : Prop := RegisterOperations ∧ BitCountsAndExtensions ∧ ImmediateOperations ∧ Bitfields

/-- R78 to R81: the conditional branches, `bmsk`, `loop`, which s0 makes illegal, `jal` and `jalr`. -/
def Obligations.ControlTransfer : Prop :=
  ∀ (s : State) (d a b : Reg) (k : MReg) (w : BitVec 3) (o : BitVec 16) (j : BitVec 26),
    let x := s.core.rd a
    let y := s.core.rd b
    let pc := s.core.pc
    let target := pc + 4 * o.signExtend 64
    let slots := (s.readMask k).extractLsb' 0 (128 / 2 ^ w.toNat)
    (∀ p ∈ [
      (Instr.beq a b o, decide (x = y)), (.bne a b o, decide (x ≠ y)),
      (.blt a b o, decide (x.toInt < y.toInt)), (.bge a b o, decide (y.toInt ≤ x.toInt)),
      (.bltn a b o, decide (x.toNat < y.toNat)), (.bgen a b o, decide (y.toNat ≤ x.toNat))],
      ∃ t, exec p.1 s = .next t ∧ GoesTo s t (if p.2 then target else pc + 4))
    ∧ (w.toNat < 3 → ∀ p ∈ [
      (Instr.bmskAny k w o, decide (slots ≠ 0)), (.bmskNone k w o, decide (slots = 0)),
      (.bmskAll k w o, decide (slots = BitVec.allOnes _))],
      ∃ t, exec p.1 s = .next t ∧ GoesTo s t (if p.2 then target else pc + 4))
    ∧ (a ≠ 0 → ∃ t, exec (.loop a o) s = .next t ∧ OnlyScalars s t
      ∧ t.core.pc = (if x - 1 = 0 then pc + 4 else target)
      ∧ ∀ r : Reg, t.core.rd r = if r = a then x - 1 else s.core.rd r)
    ∧ (s.core.inh = false → s.core.xhand ≠ 0 →
      ∃ t, exec (.loop 0 o) s = .next t ∧ TakesTrap s t 0x01 ((firstWord (.loop 0 o)).zeroExtend 64) pc)
    ∧ (∃ t, exec (.jal j) s = .next t ∧ OnlyScalars s t ∧ t.core.pc = pc + 4 * j.signExtend 64
      ∧ ∀ r : Reg, t.core.rd r = if r = 31 then pc + 4 else s.core.rd r)
    ∧ ∃ t, exec (.jalr d a o) s = .next t ∧ OnlyScalars s t ∧ t.core.pc = (x + o.signExtend 64) &&& ~~~3#64
      ∧ ∀ r : Reg, t.core.rd r = if r = 0 then 0 else if r = d then pc + 4 else s.core.rd r

/-- R82: the mask instructions. m0 reads all ones and is never written. -/
def Obligations.MaskInstructions : Prop :=
  ∀ (s : State) (d a b : MReg) (r x y : Reg) (t4 : BitVec 4) (w : BitVec 3),
    let A := s.readMask a
    let slots := A.extractLsb' 0 (128 / 2 ^ w.toNat)
    (∃ t, exec (.mmov d a) s = .next t ∧ WritesMask s t d A)
    ∧ (∃ t, exec (.mset d x y) s = .next t ∧ WritesMask s t d (s.core.rd y ++ s.core.rd x))
    ∧ (∃ t v, exec (.mlog d a b t4) s = .next t ∧ WritesMask s t d v
      ∧ ∀ j, j < 128 → v.getLsbD j = t4.getLsbD ((if A.getLsbD j then 2 else 0) + if (s.readMask b).getLsbD j then 1 else 0))
    ∧ (∃ t, exec (.mcntLo r a) s = .next t ∧ WritesReg s t r (A.extractLsb' 0 64) 4)
    ∧ (∃ t, exec (.mcntHi r a) s = .next t ∧ WritesReg s t r (A.extractLsb' 64 64) 4)
    ∧ (w.toNat < 3 →
      (∃ t, exec (.mcntE r a w) s = .next t
        ∧ WritesReg s t r (BitVec.ofNat 64 ((List.range (128 / 2 ^ w.toNat)).filter (fun j => slots.getLsbD j)).length) 4)
      ∧ ∃ t v, exec (.mcntFfs r a w) s = .next t ∧ WritesReg s t r v 4 ∧ v.toNat ≤ 128 / 2 ^ w.toNat
        ∧ (∀ j, j < v.toNat → slots.getLsbD j = false) ∧ (v.toNat < 128 / 2 ^ w.toNat → slots.getLsbD v.toNat = true))

/-! ## Exceptions and the system group -/

/-- R113: with a handler and no exception at work, TakeTrap saves the frame and goes to the handler. The only cause that
can be taken otherwise is the engine fault of an exited task, which needs XHAND = 0. -/
def Sys2Proof.Claims.TrapEntryFrame : Prop :=
  ∀ (s : State) (code : BitVec 8) (async : Bool) (value resume : Word), s.core.inh = false → s.core.xhand ≠ 0 →
    let t := s.takeTrap code async value resume
    t.core.xpc = resume ∧ t.core.xcause = (if async then 1#1 else 0#1) ++ code ∧ t.core.xval = value
    ∧ t.core.inh = true ∧ t.core.flt = (s.core.flt || !causeHarmless code value) ∧ t.core.pc = s.core.xhand
    ∧ t.core.waiting = none ∧ (∀ r : Reg, t.core.rd r = s.core.rd r) ∧ t.core.held = s.core.held
    ∧ t = { s with cores := t.cores, graphs := t.graphs } ∧ SameBytes s t

/-- R113, R118: `trap`, `brk` and `ertn`. A `trap` resumes behind itself, a `brk` at itself; `ertn` outside a handler is
illegal. -/
def Sys2Proof.Claims.TrapBrkErtn : Prop :=
  ∀ (s : State) (k : BitVec 10),
    (s.core.inh = false → s.core.xhand ≠ 0 →
      (∃ t, exec (.trap k) s = .next t ∧ TakesTrap s t 0x11 (k.zeroExtend 64) (s.core.pc + 4))
      ∧ (∃ t, exec .brk s = .next t ∧ TakesTrap s t 0x10 0 s.core.pc)
      ∧ ∃ t, exec .ertn s = .next t ∧ TakesTrap s t 0x01 0xA0000004 s.core.pc)
    ∧ (s.core.inh = true → ∃ t, exec .ertn s = .next t ∧ OnlyCore s t
      ∧ t.core = { s.core with pc := s.core.xpc, inh := false, waiting := none })

/-- R52: reserved codes and prohibited operands trap ILLEGAL_INSTRUCTION with the word as XVAL, at the instruction. -/
def Obligations.IllegalInstructions : Prop :=
  ∀ (s : State) (d a : Reg) (h : HReg) (k : MReg) (w2 : BitVec 2) (w3 sc id : BitVec 3) (p n f : BitVec 6)
    (o : BitVec 16) (c : BitVec 12),
    s.core.inh = false → s.core.xhand ≠ 0 →
    (∀ i ∈ [Instr.loop 0 o, .trnR 0 a, .trnRw 0 a, .vbind 0 a, .hmov 0 h],
      ∃ t, exec i s = .next t ∧ TakesTrap s t 0x01 ((firstWord i).zeroExtend 64) s.core.pc)
    ∧ (w2.toNat = 3 → ∀ i ∈ [Instr.sext d a w2, .zext d a w2, .tcrd d w2, .bwait f w2],
      ∃ t, exec i s = .next t ∧ TakesTrap s t 0x01 ((firstWord i).zeroExtend 64) s.core.pc)
    ∧ (3 ≤ w3.toNat → ∀ i ∈ [Instr.bmskAny k w3 o, .bmskNone k w3 o, .bmskAll k w3 o, .mcntE d k w3, .mcntFfs d k w3],
      ∃ t, exec i s = .next t ∧ TakesTrap s t 0x01 ((firstWord i).zeroExtend 64) s.core.pc)
    ∧ (6 ≤ sc.toNat → ∀ i ∈ [Instr.fenceSc sc, .fenceAcq sc, .fenceRel sc, .bar id sc, .bara id sc, .barw id sc],
      ∃ t, exec i s = .next t ∧ TakesTrap s t 0x01 ((firstWord i).zeroExtend 64) s.core.pc)
    ∧ (64 < p.toNat + n.toNat + 1 → ∀ i ∈ [Instr.bfx d a p n, .bfxS d a p n, .bfi d a p n],
      ∃ t, exec i s = .next t ∧ TakesTrap s t 0x01 ((firstWord i).zeroExtend 64) s.core.pc)
    ∧ (s.csrValue c.toNat = none → ∀ i ∈ [Instr.csrr d c, .csrw d a c, .csrs d a c, .csrc d a c],
      ∃ t, exec i s = .next t ∧ TakesTrap s t 0x01 ((firstWord i).zeroExtend 64) s.core.pc)
    ∧ (csrReadOnly c.toNat = true → ∀ i ∈ [Instr.csrw d a c, .csrs d a c, .csrc d a c],
      ∃ t, exec i s = .next t ∧ TakesTrap s t 0x01 ((firstWord i).zeroExtend 64) s.core.pc)

/-- R119, R120: a trap that no handler takes ends the task, behind the fence of `texit`: its status is faulted, and the core
holds no trap any more; while accesses stand in the queues, the core waits for them. -/
def Sys2Proof.Claims.UnhandledTrapEndsTask : Prop :=
  ∀ (s : State) (code : BitVec 8) (value resume : Word) (l : Nat) (x : Launch) (tk : Task),
    s.core.inh = true ∨ s.core.xhand = 0 → code ≠ 0x17 →
    s.core.launch = some l → s.launchAt l = some x → s.core.task = some tk →
    let t := s.takeTrap code false value resume
    (s.core.lq = [] → s.core.sq = [] → t.core.task = none ∧ t.core.held = [] ∧ t.core.waiting = none
      ∧ (∀ e, (t.core.queue e).stopped = none)
      ∧ ∃ y, t.launchAt l = some y ∧ SMap.get 0 y.status tk.l = 2 ∧ (tk.l, s.cur) ∈ y.exited)
    ∧ (s.core.lq ≠ [] ∨ s.core.sq ≠ [] → t.core = { s.core with waiting := some .exit })

/-- R112 to R120: a trap enters the handler in force, or ends its task. -/
def Obligations.TrapEntry : Prop := TrapBrkErtn ∧ TrapEntryFrame ∧ UnhandledTrapEndsTask

/-- R118, R119: `nop`, `wfe` with the latch set, `icinv`, `yield` and `texit`. -/
def Sys2Proof.Claims.SystemGroup : Prop :=
  ∀ (s : State),
    (∃ t, exec .nop s = .next t ∧ GoesTo s t (s.core.pc + 4))
    ∧ (s.core.latch = true → ∃ t, exec .wfe s = .next t ∧ OnlyCore s t
      ∧ t.core = { s.core with latch := false, pc := s.core.pc + 4, waiting := none })
    ∧ (s.core.latch = false → ∃ t, exec .wfe s = .next t ∧ OnlyCore s t
      ∧ t.core = { s.core with waiting := some .latch })
    ∧ (s.core.sq = [] → ∃ t, exec .icinv s = .next t ∧ OnlyCore s t
      ∧ t.core = { s.core with icache := [], pc := s.core.pc + 4, waiting := none })
    ∧ (s.partner s.cur = none → ∃ t, exec .yield s = .next t ∧ GoesTo s t (s.core.pc + 4))
    ∧ (∀ k p, s.physOf s.cur = some p → s.partner s.cur = some k → k ≠ s.cur → (s.coreAt s.ctx k).runnable = true →
      s.core.lq = [] → s.core.sq = [] → s.core.copies = [] → (∀ e, (s.core.queue e).act = none) →
      ∃ t, exec .yield s = .next t ∧ (t.physCore p).serving = some (s.ctx, k) ∧ t.core.pc = s.core.pc + 4
        ∧ (∀ r : Reg, t.core.rd r = s.core.rd r) ∧ SameBytes s t)
    ∧ (∀ l x tk, s.core.lq = [] → s.core.sq = [] → s.core.launch = some l → s.launchAt l = some x → s.core.task = some tk →
      s.core.flt = false → s.core.held = [] → (∀ e, (s.core.queue e).stopped = none) →
      ∃ t y, exec .texit s = .next t ∧ t.core.task = none ∧ t.launchAt l = some y ∧ (tk.l, s.cur) ∈ y.exited
        ∧ y.status = x.status ∧ SameBytes s t)

/-- R92, R93: `seam` and `fence` with a scope that is not reserved enter both queues behind everything that stands in
them, under one number that tells their form: 0 orders both queues, 1 is an acquire, 2 a release. -/
def Sys2Proof.Claims.SeamsAndFences : Prop :=
  ∀ (s : State) (sc : BitVec 3), s.core.lq.length < 16 → s.core.sq.length < 16 → sc.toNat < 6 →
    ∀ i ∈ [(Instr.seam, 0), (.fenceSc sc, 0), (.fenceAcq sc, 1), (.fenceRel sc, 2)],
      ∃ t id, exec i.1 s = .next t ∧ OnlyCore s t ∧ id / 8 % 4 = i.2
        ∧ t.core = { s.core with
            lq := s.core.lq ++ [{ kind := .token id, stamp := s.core.stamp }],
            sq := s.core.sq ++ [{ kind := .token id, stamp := s.core.stamp }],
            stamp := s.core.stamp + 1, pc := s.core.pc + 4, waiting := none }

/-- R133, R137: `mode` with the mode in force goes on; otherwise the crossing is noted and waits. MODE_CROSSING performs
the oldest crossing once every entry accepted before it has completed; the `mode` instruction then completes. -/
def Sys2Proof.Claims.ModeCrossings : Prop :=
  ∀ (s : State) (m : Bool),
    (s.core.crossing = [] → s.core.interlock = m →
      ∃ t, exec (if m then .modeInterlock else .modeExposed) s = .next t ∧ GoesTo s t (s.core.pc + 4))
    ∧ (s.core.crossing = [] → s.core.interlock ≠ m →
      ∃ t, exec (if m then .modeInterlock else .modeExposed) s = .next t ∧ OnlyCore s t
        ∧ t.core = { s.core with crossing := [(m, s.core.stamp, 0)], waiting := some .crossing })
    ∧ (∀ limit rest, Engines s → s.core.crossing = (m, limit, 0) :: rest →
      s.core.waiting = some .crossing → (∀ e, ∀ x ∈ (s.core.queue e).incomplete, limit ≤ x.stamp) →
      ∃ t, exec (.modeCrossing s.cur) s = .next t ∧ OnlyCore s t
        ∧ t.core = { s.core with crossing := rest, interlock := m, epoch := s.core.epoch + 1, pc := s.core.pc + 4,
                                 waiting := none })

/-- R92, R93, R106, R118, R119, R133, R137, R204: the SYS group, and the crossing of a mode. -/
def Obligations.SystemAndModes : Prop := SystemGroup ∧ SeamsAndFences ∧ ModeCrossings

/-! ## Control and status registers -/

/-- R84 to R86, R112: what the numbers of a tile task read, and that `csrr` delivers it. -/
def Sys2Proof.Claims.CsrReads : Prop :=
  ∀ (s : State) (d : Reg) (c : BitVec 12) (v : Word),
    let k := s.core
    (s.csrValue c.toNat = some v → ∃ t, exec (.csrr d c) s = .next t ∧ WritesReg s t d v 4)
    ∧ (∃ t, exec (.engstRead d) s = .next t ∧ WritesReg s t d k.engst 4)
    ∧ (∀ p ∈ [
        (0x000, BitVec.ofNat 64 s.time), (0x001, BitVec.ofNat 64 s.now), (0x002, BitVec.ofNat 64 (s.cur % 256)),
        (0x004, BitVec.ofNat 64 s.ctx), (0x006, if s.det k then 1 else 0), (0x009, k.seed.zeroExtend 64),
        (0x00C, k.resid.zeroExtend 64), (0x010, k.xpc), (0x011, k.xcause.zeroExtend 64), (0x012, k.xval),
        (0x013, k.xstat), (0x014, k.xhand), (0x020, k.engst), (0x021, if k.schk then 1 else 0),
        (0x022, k.lrun.zeroExtend 64)],
        s.csrValue p.1 = some p.2)
    ∧ (∀ tk, k.task = some tk → s.csrValue 0x008 = some (tk.rowmask.zeroExtend 64)
        ∧ s.csrValue 0x041 = some (BitVec.ofNat 64 tk.l))
    ∧ (∀ j, k.xstat.getLsbD j = if j = 0 then k.inh else if j = 1 then k.pend else if j = 2 then k.flt
        else if j = 5 then k.qv.stopped.isSome else if j = 6 then k.qm.stopped.isSome
        else if j = 7 then k.qc.stopped.isSome else false)
    ∧ ∀ n ∈ [0x005, 0x00D, 0x00E, 0x00F, 0x015, 0x01F, 0x024, 0x02F, 0x042, 0x7FF], s.csrValue n = none

/-- R84, R85: a write delivers the old value and changes the register's writable bits only; `ck` forms the new value. -/
def Sys2Proof.Claims.CsrWrites : Prop :=
  ∀ (s : State) (d a : Reg),
    let x := s.core.rd a
    ∀ p ∈ [(1, fun (_ : Word) => x, Instr.csrw d a), (2, fun old => old ||| x, Instr.csrs d a),
           (3, fun old => old &&& ~~~x, Instr.csrc d a)],
      let new := p.2.1
      (∃ t, exec (p.2.2 0x009) s = .next t ∧ OnlyCore s t
        ∧ t.core = { s.core with s := t.core.s, seed := (new (s.core.seed.zeroExtend 64)).extractLsb' 0 32,
                                 pc := s.core.pc + 4, waiting := none }
        ∧ ∀ r : Reg, t.core.rd r = if r = 0 then 0 else if r = d then s.core.seed.zeroExtend 64 else s.core.rd r)
      ∧ (∃ t, exec (p.2.2 0x010) s = .next t ∧ OnlyCore s t
        ∧ t.core = { s.core with s := t.core.s, xpc := new s.core.xpc &&& ~~~3#64, pc := s.core.pc + 4, waiting := none }
        ∧ ∀ r : Reg, t.core.rd r = if r = 0 then 0 else if r = d then s.core.xpc else s.core.rd r)
      ∧ (∃ t, exec (p.2.2 0x014) s = .next t ∧ OnlyCore s t
        ∧ t.core = { s.core with s := t.core.s, xhand := new s.core.xhand &&& ~~~3#64, pc := s.core.pc + 4,
                                 waiting := none }
        ∧ ∀ r : Reg, t.core.rd r = if r = 0 then 0 else if r = d then s.core.xhand else s.core.rd r)
      ∧ (∃ t, exec (p.2.2 0x021) s = .next t ∧ OnlyCore s t
        ∧ t.core = { s.core with s := t.core.s, schk := (new (if s.core.schk then 1 else 0)).getLsbD 0,
                                 pc := s.core.pc + 4, waiting := none }
        ∧ ∀ r : Reg, t.core.rd r = if r = 0 then 0 else if r = d then (if s.core.schk then 1 else 0) else s.core.rd r)
      ∧ (1 ≤ (new (s.core.lrun.zeroExtend 64)).toNat → (new (s.core.lrun.zeroExtend 64)).toNat ≤ 64 →
        ∃ t, exec (p.2.2 0x022) s = .next t ∧ OnlyCore s t
          ∧ t.core = { s.core with s := t.core.s, lrun := (new (s.core.lrun.zeroExtend 64)).extractLsb' 0 7,
                                   pc := s.core.pc + 4, waiting := none }
          ∧ ∀ r : Reg, t.core.rd r = if r = 0 then 0 else if r = d then s.core.lrun.zeroExtend 64 else s.core.rd r)

/-- R83 to R86: reading and writing the CSRs. -/
def Obligations.CsrAccess : Prop := CsrReads ∧ CsrWrites

/-- R84, R87, R112, R173: the registers whose access has an effect of its own. `RESID` waits for the earlier loads and
stores, those of other packages too; a write of `XSTAT` releases each stopped queue whose bit it clears, and writes the log
only for a fault of an exited task that no task has seen; a write of `WMk` of a RANGE channel is the
watermark's. -/
def Obligations.CsrsWithEffects : Prop :=
  ∀ (s : State) (ck : BitVec 2) (d a : Reg) (k : BitVec 3), ck ≠ 0 →
    let new := csrNew ck.toNat
    let x := s.core.rd a
    (s.core.lq = [] → s.core.sq = [] → s.remoteOwed s.ctx s.cur = false → ∃ t, exec (.residAccess ck d a) s = .next t ∧ OnlyCore s t
      ∧ t.core = { s.core with s := t.core.s, resid := (new (s.core.resid.zeroExtend 64) x).extractLsb' 0 2,
                               pc := s.core.pc + 4, waiting := none }
      ∧ ∀ r : Reg, t.core.rd r = if r = 0 then 0 else if r = d then s.core.resid.zeroExtend 64 else s.core.rd r)
    ∧ (s.core.lq = [] → s.core.sq = [] → s.remoteOwed s.ctx s.cur = false → ∃ t, exec (.residAccess 0 d 0) s = .next t
      ∧ WritesReg s t d (s.core.resid.zeroExtend 64) 4)
    ∧ (∃ t, exec (.xstatWrite ck d a) s = .next t
      ∧ t.core.inh = (new s.core.xstat x).getLsbD 0 ∧ t.core.flt = (new s.core.xstat x).getLsbD 2
      ∧ t.core.pc = s.core.pc + 4
      ∧ (∀ e ∈ [(Eng.v, 5), (Eng.m, 6), (Eng.c, 7)],
          (t.core.queue e.1).stopped = if (new s.core.xstat x).getLsbD e.2 then (s.core.queue e.1).stopped else none)
      ∧ (∀ r : Reg, t.core.rd r = if r = 0 then 0 else if r = d then s.core.xstat else s.core.rd r)
      ∧ ((∀ e f, (s.core.queue e).stopped = some f → f.prev = true → f.told = true) → SameBytes s t))
    ∧ ((s.core.channel k.toNat).mode = .off → ∃ t, exec (.wmWrite ck d a k) s = .next t ∧ WritesReg s t d 0 4)
    ∧ ((s.core.channel k.toNat).mode = .range → ∃ t, exec (.wmWrite ck d a k) s = .next t ∧ OnlyCore s t
      ∧ t.core.pc = s.core.pc + 4
      ∧ (t.core.channel k.toNat).wm =
          min ((new (BitVec.ofNat 64 (s.core.channel k.toNat).wm) x).toNat % 2 ^ 19) (s.core.channel k.toNat).len
      ∧ ∀ r : Reg, t.core.rd r =
          if r = 0 then 0 else if r = d then BitVec.ofNat 64 (s.core.channel k.toNat).wm else s.core.rd r)

/-! ## Handles, loads and stores -/

/-- R88, R89, R90: a load or a store through a valid handle whose offset lies below the handle's limit enters its queue,
with the handle as it stands; a store needs W. -/
def Obligations.LoadsAndStoresIssue : Prop :=
  ∀ (s : State) (d x : Reg) (h : HReg) (e5 : BitVec 5) (e4 : BitVec 4) (r : BitVec 7),
    let hd := s.core.handle h.toNat
    let off := s.core.rd x + BitVec.ofNat 64 (128 * r.toNat)
    let entry := fun (k : LsKind) =>
      ({ kind := k, handle := hd, reg := h.toNat, off := off.toNat, stamp := s.core.stamp } : LsEntry)
    h ≠ 0 → hd.valid = true → off.toNat < hd.limit → hd.readyAt ≤ s.now →
    (s.core.lq.length < 16 → ∀ p ∈ [(Instr.ldW d h x e5 r, LsKind.load d false e5.toNat),
                                    (Instr.ldD d h x e4 r, LsKind.load d true e4.toNat)],
      ∃ t, exec p.1 s = .next t ∧ CoreBecomes s t
        (movedOn { s.core with lq := s.core.lq ++ [entry p.2], stamp := s.core.stamp + 1 } 4))
    ∧ (hd.w = true → s.core.sq.length < 16 → ∀ p ∈ [(Instr.stW d h x e5 r, LsKind.store (s.core.rd d) false e5.toNat),
                                                    (Instr.stD d h x e4 r, LsKind.store (s.core.rd d) true e4.toNat)],
      ∃ t, exec p.1 s = .next t ∧ CoreRecorded s t
        (movedOn { s.core with sq := s.core.sq ++ [entry p.2], stamp := s.core.stamp + 1 } 4))

/-- R88: the checks of an access trap before anything is done: the handle's validity, its limit, and W for a store. -/
def Obligations.AccessChecksTrap : Prop :=
  ∀ (s : State) (d x : Reg) (h : HReg) (e5 : BitVec 5) (e4 : BitVec 4) (r : BitVec 7),
    let hd := s.core.handle h.toNat
    let off := s.core.rd x + BitVec.ofNat 64 (128 * r.toNat)
    s.core.inh = false → s.core.xhand ≠ 0 →
    (h = 0 ∨ hd.valid = false → ∀ i ∈ [Instr.ldW d h x e5 r, .ldD d h x e4 r, .stW d h x e5 r, .stD d h x e4 r],
      ∃ t, exec i s = .next t ∧ TakesTrap s t 0x05 (BitVec.ofNat 64 h.toNat) s.core.pc)
    ∧ (h ≠ 0 → hd.valid = true → hd.limit ≤ off.toNat →
      ∀ i ∈ [Instr.ldW d h x e5 r, .ldD d h x e4 r, .stW d h x e5 r, .stD d h x e4 r],
      ∃ t, exec i s = .next t ∧ TakesTrap s t (if hd.vault then 0x07 else 0x06) off s.core.pc)
    ∧ (h ≠ 0 → hd.valid = true → off.toNat < hd.limit → hd.w = false → ∀ i ∈ [Instr.stW d h x e5 r, .stD d h x e4 r],
      ∃ t, exec i s = .next t ∧ TakesTrap s t 0x03 ((firstWord i).zeroExtend 64) s.core.pc)

/-- R88, R91: the load at the head of the load queue returns. From a resident row that is not poisoned it brings the
element's bytes, a 32-bit one sign-extended, and a single-bit error of a vault row is corrected (R240); an absent page gives zero and sets ABS, a discarded one gives zero. Behind
the watermark of a RANGE channel it does not return yet (R173). -/
def Sys2Proof.Claims.LoadReturns : Prop :=
  ∀ (s : State) (d : Reg) (wide : Bool) (el : Nat) (x : LsEntry) (rest : List LsEntry),
    let loc := x.handle.loc (quadOf s.cur) x.off
    let n := if wide then 8 else 4
    Serves s → s.core.lq = x :: rest → x.kind = .load d wide el → el < 128 / n → s.heldBack s.core loc = false →
    (∀ p, s.handleTarget s.ctx s.cur x.handle x.off = .spot p → s.poisoned p = false →
      ∃ t v m, exec (.loadReturn s.cur) s = .next t ∧ CoreBecomes (s.correct p) t { s.core.wr d v with lq := rest }
        ∧ Holds s p.vault (p.addr / 128 * 128 + n * el) n m
        ∧ v = if wide then BitVec.ofNat 64 m else (BitVec.ofNat 32 m).signExtend 64)
    ∧ (s.handleTarget s.ctx s.cur x.handle x.off = .absent →
      ∃ t, exec (.loadReturn s.cur) s = .next t
        ∧ CoreBecomes s t { s.core.wr d 0 with lq := rest, resid := s.core.resid ||| 1 })
    ∧ (s.handleTarget s.ctx s.cur x.handle x.off = .discarded →
      ∃ t, exec (.loadReturn s.cur) s = .next t ∧ CoreBecomes s t { s.core.wr d 0 with lq := rest })

/-- R88, R91, R194: the store at the head of the store queue performs when no earlier load still has to return from its
row. It writes its element's bytes, and no other byte of either space changes; a store to an absent page is dropped and
sets ABS. -/
def Sys2Proof.Claims.StoresPerform : Prop :=
  ∀ (s : State) (data : Word) (wide : Bool) (el : Nat) (x : LsEntry) (rest : List LsEntry),
    let loc := x.handle.loc (quadOf s.cur) x.off
    let n := if wide then 8 else 4
    let tg := s.handleTarget s.ctx s.cur x.handle x.off
    Serves s → s.core.sq = x :: rest → x.kind = .store data wide el → el < 128 / n → x.handle.rearm = false →
    s.heldBack s.core loc = false → s.earlierLoad x tg = false →
    (∀ p, tg = .spot p → x.handle.w = true →
      ∃ t, exec (.storePerform s.cur) s = .next t ∧ t.core = { s.core with sq := rest }
        ∧ Stores s t p.vault (p.addr / 128 * 128 + n * el) n data.toNat
        ∧ t = { s with cores := t.cores, mem := t.mem, memPoison := t.memPoison, vault := t.vault,
                       vaultPoison := t.vaultPoison })
    ∧ (tg = .absent → ∃ t, exec (.storePerform s.cur) s = .next t
        ∧ CoreBecomes s t { s.core with sq := rest, resid := s.core.resid ||| 1 })

/-- R92, R93: when no remote store has to be acknowledged, a `seam` or `fence.sc` that heads both queues leaves them
together; the token of an acquire or a release leaves the load queue as its head, and the store queue as its head once its
twin has left the load queue. -/
def Sys2Proof.Claims.TokensLeaveTogether : Prop :=
  ∀ (s : State) (x y : LsEntry) (l q : List LsEntry) (id : Nat), Serves s → s.remoteOwed s.ctx s.cur = false →
    (s.core.lq = x :: l → s.core.sq = y :: q → x.kind = .token id → y.kind = .token id → id / 8 % 4 = 0 →
      ∀ i ∈ [Instr.loadReturn s.cur, .storePerform s.cur],
        ∃ t, exec i s = .next t ∧ CoreBecomes s t { s.core with lq := l, sq := q })
    ∧ (s.core.lq = x :: l → x.kind = .token id → id / 8 % 4 ≠ 0 →
      ∃ t, exec (.loadReturn s.cur) s = .next t ∧ CoreBecomes s t { s.core with lq := l })
    ∧ (s.core.sq = y :: q → y.kind = .token id → id / 8 % 4 ≠ 0 → (∀ z ∈ s.core.lq, ∀ j, z.kind ≠ .token j) →
      ∃ t, exec (.storePerform s.cur) s = .next t ∧ CoreBecomes s t { s.core with sq := q })

/-- R88 to R92, R194, R195: what a load delivers, what a store writes, and that the tokens of fences leave with them. -/
def Obligations.AccessesPerform : Prop := LoadReturns ∧ StoresPerform ∧ TokensLeaveTogether

/-- R94: `srd` takes the oldest element of an inbound stream of its element size; `savl` counts the elements. -/
def Obligations.StreamReads : Prop :=
  ∀ (s : State) (d : Reg) (k : BitVec 3) (e : Row) (rest : List Row),
    let ch := s.core.channel k.toNat
    (ch.mode = .stream → ch.fifo = e :: rest →
      (ch.esz = 0 → ∃ t, exec (.srdW d k) s = .next t ∧ CoreBecomes s t
        (regSet (s.core.setChannel k.toNat { ch with fifo := rest }) d ((e.extractLsb' 0 32).signExtend 64) 4))
      ∧ (ch.esz = 1 → ∃ t, exec (.srdD d k) s = .next t ∧ CoreBecomes s t
        (regSet (s.core.setChannel k.toNat { ch with fifo := rest }) d (e.extractLsb' 0 64) 4)))
    ∧ (ch.mode = .stream → ∃ t, exec (.savl d k) s = .next t ∧ WritesReg s t d (BitVec.ofNat 64 ch.fifo.length) 4)
    ∧ (ch.mode ≠ .stream → ∃ t, exec (.savl d k) s = .next t ∧ WritesReg s t d 0 4)

/-- R95 to R98: `trn` on a page whose translation is cached, `vbind` on segments that the context holds, `hqry`, `hinv`
and `hmov`. -/
def Obligations.HandleInstructions : Prop :=
  ∀ (s : State) (d a : Reg) (h g : HReg),
    let va := s.core.rd a
    let des := va.toNat % 2 ^ 25
    (h ≠ 0 → ∀ p rw c, s.whereIs va.toNat = .here p →
      s.cached (if 256 ≤ s.cur then 8 else dieOf s.cur) s.ctx (p / 65536) rw = some c →
      ∃ t, exec (if rw then .trnRw h a else .trnR h a) s = .next t ∧ CoreBecomes s t
        (movedOn ({ s.core with stamp := s.core.stamp + 1 }.setHandle h.toNat
          { valid := true, base := va &&& ~~~0xFFFF#64, rd := true, w := rw && c.w, rw := rw, st := .resident,
            frame := c.frame, tag := s.core.stamp, readyAt := s.now + 32 }) 4))
    ∧ (h ≠ 0 → va.toNat < 2 ^ 25 → des % 128 ≤ 64 → desCount des ≠ 0 →
      s.holdsSegs s.ctx (desQuad (quadOf s.cur) des) (desFirst des) (desCount des) = true →
      ∃ t, exec (.vbind h a) s = .next t ∧ CoreBecomes s t
        (movedOn ({ s.core with stamp := s.core.stamp + 1 }.setHandle h.toNat
          { valid := true, vault := true, base := BitVec.ofNat 64 (des * 65536), rd := true, w := true,
            tag := s.core.stamp, readyAt := s.now + 4 }) 4))
    ∧ (∃ t v, exec (.hqry d h) s = .next t ∧ WritesReg s t d v 4
      ∧ ((s.core.handle h.toNat).valid = false → v = 0)
      ∧ ((s.core.handle h.toNat).valid = true → v.getLsbD 3 = true ∧ v.getLsbD 4 = (s.core.handle h.toNat).vault
        ∧ v.getLsbD 6 = (s.core.handle h.toNat).w ∧ v.extractLsb' 16 48 = (s.core.handle h.toNat).base.extractLsb' 16 48))
    ∧ (∃ t, exec (.hinv h) s = .next t ∧ CoreBecomes s t (movedOn (s.core.setHandle h.toNat {}) 4))
    ∧ (h ≠ 0 → ∃ t, exec (.hmov h g) s = .next t
      ∧ CoreBecomes s t (movedOn (s.core.setHandle h.toNat (s.core.handle g.toNat)) 4))

/-- R96, R98: HANDLE_RESOLVE ends the walk of a pending handle: the register takes the page's state and frame, and W only
when the page is writable and the handle was made by `trn.rw`. -/
def Obligations.HandlesResolve : Prop :=
  ∀ (s s1 : State) (h : HReg) (p : Nat) (x : Xlat),
    let y := s.core.handle h.toNat
    Serves s → h ≠ 0 → y.valid = true → y.vault = false → y.st = .pending → s.whereIs y.base.toNat = .here p →
    s.translate (if 256 ≤ s.cur then 8 else dieOf s.cur) s.ctx p y.rw = (s1, x) →
    ∃ t, exec (.handleResolve s.cur h) s = .next t
      ∧ t.core.handle h.toNat = { y with st := x.st, frame := x.frame, rearm := false,
                                         w := if x.st = .resident then y.rw && x.w else y.rw }
      ∧ t.core.pc = s.core.pc ∧ ∀ r : Reg, t.core.rd r = s.core.rd r

/-! ## Task coordinates, tables, `guard` and `rlay` -/

/-- R108, R110, R259: coordinates, of which code 3 is illegal, and the coverage question; words of a tensor entry, read and written; the word that holds
CONV keeps the device's value. -/
def Obligations.TaskAndTableWords : Prop :=
  ∀ (s : State) (d a : Reg) (x : Ix6) (k : BitVec 3) (tk : Task),
    let entry := SMap.get 0 s.core.t x.toNat
    let new := setWord entry k.toNat (s.core.rd a)
    (s.core.task = some tk →
      (∀ p ∈ [(0#2, tk.x), (1#2, tk.y), (2#2, tk.z)],
        ∃ t, exec (.tcrd d p.1) s = .next t ∧ WritesReg s t d (BitVec.ofNat 64 p.2) 4)
      ∧ ∃ t, exec (.cvq d) s = .next t ∧ WritesReg s t d (if tk.shadow then 1 else 0) 4)
    ∧ (∃ t, exec (.tdrd d x k) s = .next t ∧ WritesReg s t d (entry.extractLsb' (64 * k.toNat) 64) 4)
    ∧ (descriptorOk new = true → (tensorOf new).dir = false →
      ∃ t, exec (.tdwr a x k) s = .next t ∧ OnlyCore s t
        ∧ t.core = movedOn { s.core with t := t.core.t } 4
        ∧ (∀ j : Ix6, SMap.get 0 t.core.t j.toNat = if j = x then new else SMap.get 0 s.core.t j.toNat)
        ∧ ∀ j, j < 8 → new.extractLsb' (64 * j) 64 =
            if j = k.toNat ∧ j ≠ 6 then s.core.rd a else entry.extractLsb' (64 * j) 64)
    ∧ (s.core.inh = false → s.core.xhand ≠ 0 → descriptorOk new = false →
      ∃ t, exec (.tdwr a x k) s = .next t ∧ TakesTrap s t 0x0D (BitVec.ofNat 64 x.toNat) s.core.pc)
    ∧ (s.core.inh = false → s.core.xhand ≠ 0 →
      ∃ t, exec (.tcrd d 3) s = .next t ∧ TakesTrap s t 0x01 ((firstWord (.tcrd d 3)).zeroExtend 64) s.core.pc)

/-- R108: a table load takes the 64 or 32 bytes at its offset of a resident row, once every earlier load has returned; a
table store enters the store queue with the bytes of the entry. -/
def Obligations.TableTransfers : Prop :=
  ∀ (s s1 : State) (a : Reg) (x : Ix6) (w : BitVec 5) (h : HReg) (row : Row),
    let hd := s.core.handle h.toNat
    let off := s.core.rd a
    let loc := hd.loc (quadOf s.cur) off.toNat
    let image := row.extractLsb' (512 * (off.toNat % 128 / 64)) 512
    let walk := row.extractLsb' (256 * (off.toNat % 128 / 32)) 256
    h ≠ 0 → hd.valid = true → off.toNat < hd.limit → hd.readyAt ≤ s.now →
    (s.core.lq = [] → s.heldBack s.core loc = false →
      s.readTarget s.controlReader loc (s.handleTarget s.ctx s.cur hd off.toNat) = (s1, .ok row) →
      (descriptorOk image = true → (tensorOf image).dir = false →
        ∃ t, exec (.tdld a x h) s = .next t ∧ CoreBecomes s1 t
          (movedOn { s1.core with t := SMap.set 0 s1.core.t x.toNat image } 4))
      ∧ (walk.toNat / 2 ^ 252 < 3 →
        ∃ t, exec (.wkld a w h) s = .next t ∧ CoreBecomes s1 t
          (movedOn { s1.core with w := SMap.set 0 s1.core.w w.toNat walk } 4)))
    ∧ (hd.w = true → s.core.sq.length < 16 →
      (∃ t m data, exec (.tdst a x h) s = .next t ∧ CoreRecorded s t (movedOn { s.core with
          sq := s.core.sq ++ [{ kind := .row data m, handle := hd, reg := h.toNat, off := off.toNat, stamp := s.core.stamp }],
          stamp := s.core.stamp + 1 } 4)
        ∧ (∀ j, m.getLsbD j = (decide (j < 128) && decide (j / 64 = off.toNat % 128 / 64)))
        ∧ data.extractLsb' (512 * (off.toNat % 128 / 64)) 512 = SMap.get 0 s.core.t x.toNat)
      ∧ ∃ t m data, exec (.wkst a w h) s = .next t ∧ CoreRecorded s t (movedOn { s.core with
          sq := s.core.sq ++ [{ kind := .row data m, handle := hd, reg := h.toNat, off := off.toNat, stamp := s.core.stamp }],
          stamp := s.core.stamp + 1 } 4)
        ∧ (∀ j, m.getLsbD j = (decide (j < 128) && decide (j / 32 = off.toNat % 128 / 32)))
        ∧ data.extractLsb' (256 * (off.toNat % 128 / 32)) 256 = s.core.walk w.toNat)

/-- R111: `guard` on an element that lies in one row which the core can read delivers its bits, in the format's width. -/
def Obligations.GuardReads : Prop :=
  ∀ (s s1 : State) (d a : Reg) (x : Ix6) (wide : Bool) (ps : List Bits) (l : Loc) (row : Row)
    (fin : List Loc),
    let q := (s.core.rd a).toNat
    let cap := s.core.cap x.toNat
    let tn := tensorOf cap.img
    let tag := (s.view s.ctx cap).tag
    tn.valid = true → guardFormat tn.fmt wide = true → tag ≠ 7 → tag ≠ 8 → q < tn.count →
    s.locate s.ctx (quadOf s.cur) cap q false = .at_ ps fin → rowsOf ps = [l] → s.core.lq = [] →
    (∀ p ∈ ps, s.heldBack s.core p.loc = false) → s.readLoc s.controlReader l = (s1, .ok row) →
    ∃ t, exec (if wide then .guardD d a x else .guardW d a x) s = .next t
      ∧ t.core = regSet s1.core d (BitVec.ofNat 64 (gatherBits [(l, row)] ps)) 4 ∧ SameBytes s1 t

/-- R272, R273: `rlay` of a tensor outside the directory gives the entry its new tag and backing at once and opens a
conversion with the next serial number, the old location and the flag. -/
def Obligations.RelayoutStarts : Prop :=
  ∀ (s : State) (g : BitVec 4) (f x : Ix6) (h : HReg) (old : Backing),
    let hb := s.core.handle h.toNat
    let cap := s.core.cap x.toNat
    let tn := tensorOf cap.img
    let v := s.view s.ctx cap
    let new := if hb.vault then Backing.vault hb.des 0 else .va hb.base.toNat
    h ≠ 0 → hb.valid = true → v.back = some old → tn.mayMove v g.toNat new = true →
    (hb.vault = true → tn.extent g.toNat ≤ hb.limit) → tn.dir = false → s.core.mayName x.toNat = false →
    v.conv = none → s.conversions s.ctx < 16 → s.accessesDone 0 = true → hb.readyAt ≤ s.now →
    ∃ t k c, exec (.rlay g f x h) s = .next t ∧ (t.context s.ctx).conv = SMap.put (s.context s.ctx).conv k c
      ∧ c.serial = (s.context s.ctx).serial + 1 ∧ (t.context s.ctx).serial = (s.context s.ctx).serial + 1
      ∧ c.otag = BitVec.ofNat 4 v.tag ∧ c.ntag = g ∧ c.flag = f ∧ c.lcore = s.cur ∧ c.nbk = hb.vault
      ∧ c.pcount = tn.patches ∧ c.pdone = 0
      ∧ SMap.get 0 t.core.t x.toNat = relocate cap.img g.toNat hb.vault h.toNat
          (if hb.vault then 0 else hb.base.toNat) (k + c.serial % 2 ^ 60 * 16)
      ∧ t.core.pc = s.core.pc + 4 ∧ (∀ r : Reg, t.core.rd r = s.core.rd r) ∧ SameBytes s t

/-! ## Flags, rigging, barriers, batches -/

/-- R66, R102: a flag's count after `fsig`, `fsig` in the quad, `fwait` and `fpeek`; f0 has no count. -/
def Obligations.FlagInstructions : Prop :=
  ∀ (s : State) (a d : Reg) (f : Ix6) (k : BitVec 2),
    let n := if a = 0 then 1 else (s.core.rd a).toNat
    let target := 4 * (s.cur / 4) + k.toNat
    (s.core.sq = [] → f ≠ 0 → s.core.flag f.toNat + n ≤ 65535 →
      ∃ t, exec (.fsig a f) s = .next t ∧ CoreBecomes s t
        (movedOn (s.core.setFlag f.toNat (s.core.flag f.toNat + n)) 4)
        ∧ ∀ j : Ix6, t.core.flag j.toNat = if j = f then s.core.flag f.toNat + n else s.core.flag j.toNat)
    ∧ (s.core.sq = [] → f ≠ 0 → s.core.inh = false → s.core.xhand ≠ 0 → 65535 < s.core.flag f.toNat + n →
      ∃ t, exec (.fsig a f) s = .next t ∧ TakesTrap s t 0x0F (BitVec.ofNat 64 f.toNat) s.core.pc)
    ∧ (f ≠ 0 → 0 < s.core.flag f.toNat →
      ∃ t, exec (.fwait f) s = .next t ∧ CoreRecorded s t
        (movedOn (s.core.setFlag f.toNat (s.core.flag f.toNat - 1)) 4)
        ∧ ∀ j : Ix6, t.core.flag j.toNat = if j = f then s.core.flag f.toNat - 1 else s.core.flag j.toNat)
    ∧ (f ≠ 0 → s.core.flag f.toNat = 0 →
      ∃ t, exec (.fwait f) s = .next t ∧ CoreBecomes s t { s.core with waiting := some (.flag f.toNat) })
    ∧ (∃ t, exec (.fpeek d f) s = .next t ∧ WritesReg s t d (BitVec.ofNat 64 (s.core.flag f.toNat)) 4)
    ∧ (s.inSpan target = true → target ≠ s.cur → s.core.sq = [] → f ≠ 0 →
      let u := s.noteLive.advance 2
      (u.coreAt s.ctx target).flag f.toNat + n ≤ 65535 →
      ∃ t, exec (.fsigQuad a f k) s = .next t ∧ t.core.pc = u.core.pc + 4
        ∧ (t.coreAt s.ctx target).flag f.toNat = (u.coreAt s.ctx target).flag f.toNat + n ∧ SameBytes s t)

/-- R103, R126: `rigw` sets both products of a term; the products fire in the cycles that follow, product 0 first: each
firing takes one count of every source and adds one to the term's flag. -/
def Obligations.RiggingTerms : Prop :=
  ∀ (s : State) (b a : Reg) (t4 : BitVec 4) (c d : Core) (n p : Nat),
    (productOk (s.core.rd a) (48 + t4.toNat) = true → productOk (s.core.rd b) (48 + t4.toNat) = true →
      ∃ t, exec (.rigw b a t4) s = .next t ∧ OnlyCore s t
        ∧ t.core = movedOn { s.core with rig := t.core.rig } 4
        ∧ (∀ j, j ≠ t4.toNat → SMap.get 0 t.core.rig j = SMap.get 0 s.core.rig j)
        ∧ rigProduct (SMap.get 0 t.core.rig t4.toNat) 0 = (s.core.rd a).toNat
        ∧ rigProduct (SMap.get 0 t.core.rig t4.toNat) 1 = (s.core.rd b).toNat)
    ∧ (n < 16 → c.fireProduct n p = some d → 48 + n ∉ rigSources p →
      p.testBit 24 = true ∧ d.flag (48 + n) = c.flag (48 + n) + 1
      ∧ ∀ f, f ≠ 48 + n → d.flag f + (rigSources p).count f = c.flag f)

/-- R104: an arrival at a named barrier of the core's launch whose previous generation is complete marks the core, and the
generation is full exactly when every participant has arrived; `barw` passes once the generation has completed. -/
def Sys2Proof.Claims.BarrierArrivals : Prop :=
  ∀ (s : State) (id sc : BitVec 3) (l : Nat) (x : Launch),
    let b := s.barrier l sc.toNat id.toNat s.cur
    s.core.launch = some l → s.launchAt l = some x → barrierNamed sc.toNat id.toNat = true →
    (s.podBroken sc.toNat = false → s.accessesDone sc.toNat = true → s.arrivalDone l sc.toNat id.toNat = true →
      ∃ t, exec (.bara id sc) s = .next t ∧ t.core.pc = s.core.pc + 4
        ∧ SMap.get 0 t.core.arrived (8 * sc.toNat + id.toNat) = b.gen + 1
        ∧ (s.cur ∈ (t.barrier l sc.toNat id.toNat s.cur).arrived)
        ∧ (t.barrier l sc.toNat id.toNat s.cur).gen = b.gen
        ∧ ((t.barrier l sc.toNat id.toNat s.cur).fullAt =
            if ∀ n ∈ participants x sc.toNat b.inst, n = s.cur ∨ n ∈ b.arrived then some s.now else none)
        ∧ (∀ r : Reg, t.core.rd r = s.core.rd r) ∧ SameBytes s t)
    ∧ (s.arrivalDone l sc.toNat id.toNat = true →
      ∃ t, exec (.barw id sc) s = .next t ∧ CoreRecorded s t (movedOn s.core 4))
    ∧ (s.core.barAt = some s.core.pc → s.arrivalDone l sc.toNat id.toNat = true →
      ∃ t, exec (.bar id sc) s = .next t ∧ CoreBecomes s t (movedOn { s.core with barAt := none } 4))
    ∧ (s.core.barAt ≠ some s.core.pc → s.podBroken sc.toNat = false →
      s.accessesDone sc.toNat = true → s.arrivalDone l sc.toNat id.toNat = true →
      ∃ t, exec (.bar id sc) s = .next t ∧ t.core.waiting = some .barrier ∧ t.core.pc = s.core.pc
        ∧ t.core.barAt = some s.core.pc ∧ SMap.get 0 t.core.arrived (8 * sc.toNat + id.toNat) = b.gen + 1
        ∧ s.cur ∈ (t.barrier l sc.toNat id.toNat s.cur).arrived)

/-- R104, R248, R266, R300: a full generation completes its network's cycles after the last arrival: the generation
number rises by one and nobody has arrived for the next. -/
def Sys2Proof.Claims.BarrierGenerations : Prop :=
  ∀ (s : State) (k : Nat) (b : Barrier) (x : Launch) (t0 : Nat),
    s.barriers[k]? = some b → b.fullAt = some t0 → s.launchAt b.launch = some x →
    (b.scope = 1 ∧ t0 + 4 ≤ s.now ∨ b.scope = 2 ∧ s.dieSplit b.inst = false ∧ t0 + 12 ≤ s.now
      ∨ b.scope = 3 ∧ t0 + 40 ≤ s.now) →
    ∃ t c, exec (.barrierGenerationComplete k) s = .next t ∧ t.barriers[k]? = some c
      ∧ c.gen = b.gen + 1 ∧ c.arrived = [] ∧ c.fullAt = none ∧ c.launch = b.launch ∧ c.scope = b.scope ∧ c.id = b.id
      ∧ t = { s with cores := t.cores, barriers := t.barriers } ∧ SameBytes s t

/-- R104, R105, R246: arrivals at barriers and the end of a generation. -/
def Obligations.Barriers : Prop := BarrierArrivals ∧ BarrierGenerations

/-- R105, R106: `bwait` passes with at most n batches outstanding, `rdvz` once no forked stream is left; both wait
otherwise. -/
def Obligations.BatchesAndRendezvous : Prop :=
  ∀ (s : State) (n : Ix6) (k : BitVec 3),
    (∀ p ∈ [(0#2, Eng.v), (1#2, Eng.m), (2#2, Eng.c)],
      (s.core.outstanding p.2 ≤ n.toNat → ∃ t, exec (.bwait n p.1) s = .next t ∧ CoreRecorded s t (movedOn s.core 4))
      ∧ (n.toNat < s.core.outstanding p.2 →
        ∃ t, exec (.bwait n p.1) s = .next t ∧ CoreBecomes s t { s.core with waiting := some .batch }))
    ∧ ((SMap.get {} s.core.forks k.toNat).pending = [] →
      ∃ t, exec (.rdvz k) s = .next t ∧ CoreRecorded s t (movedOn s.core 4))
    ∧ ((SMap.get {} s.core.forks k.toNat).pending ≠ [] →
      ∃ t, exec (.rdvz k) s = .next t ∧ CoreBecomes s t { s.core with waiting := some .fork })

/-! ## Queue insertion, page requests, atomics -/

/-- R15, R62, R87, R107: the queue of engine e of the core after it has accepted x at the end of what waits: the next
sequence number, and what acceptance captures. -/
def Sys2Proof.Claims.AcceptsLast (s t : State) (n : Nat) (e : Eng) (x : Entry) : Prop :=
  let c := s.coreAt s.ctx n
  let q := c.queue e
  let q' := (t.coreAt s.ctx n).queue e
  q'.hw ++ q'.spill = q.hw ++ q.spill ++ [{ x with
      seq := q.next, seed := c.seed, schk := c.schk, lrun := c.lrun.toNat, launch := s.core.launch.getD 0, stamp := x.stamp,
      rowmask := (match c.task with | some k => k.rowmask | none => 0xFFFFFFFF), epoch := c.epoch + c.crossing.length,
      at_ := s.now }]
    ∧ q'.next = q.next + 1 ∧ q'.act = q.act ∧ q'.flight = q.flight

/-- R55, R107, R121: `issue`, `enqs` without parameters and `renq` put one entry behind everything that waits in the
queue, which has room; the rest of memory and of the package is as it was. -/
def Obligations.QueueInsertion : Prop :=
  ∀ (s : State) (a b : Reg) (wf sf : Ix6) (ar : BitVec 2) (scope : BitVec 3) (word : EWord),
    let rel := s.core.sq = []
    let task := match s.core.task with | some k => k.l | none => 0
    let mark := match s.core.task with | some k => k.reissue | none => false
    let target := (s.core.rd a).toNat % 256
    ∀ p ∈ [(0#2, Eng.v), (1#2, Eng.m), (2#2, Eng.c)],
      let x : Entry := { body := .word word, wf := wf, sf := sf, ar := ar, scope := scope, task := task, reissue := mark,
                         stamp := s.core.stamp }
      (rel → s.canAccept s.ctx s.cur p.2 1 = true → s.batchRoom p.2 x = true →
        ∃ t, exec (.issue p.1 wf sf ar scope word) s = .next t ∧ AcceptsLast s t s.cur p.2 x
          ∧ t.core.pc = s.core.pc + 12 ∧ (∀ r : Reg, t.core.rd r = s.core.rd r)
          ∧ t = { s with cores := t.cores, graphs := t.graphs } ∧ SameBytes s t)
      ∧ (rel → s.canAccept s.ctx s.cur p.2 2 = true →
        ∃ t, exec (.enqs a 0 p.1) s = .next t
          ∧ AcceptsLast s t s.cur p.2 { body := .stream (s.core.rd a &&& ~~~0x7F#64) 0 0 0 0 0, task := task,
                                        reissue := mark, stamp := s.core.stamp }
          ∧ t.core.pc = s.core.pc + 4 ∧ (∀ r : Reg, t.core.rd r = s.core.rd r)
          ∧ t = { s with cores := t.cores, graphs := t.graphs } ∧ SameBytes s t)
      ∧ (s.inSpan target = true → target ≠ s.cur → s.storesDone (scopeOf s.cur target) = true →
        (if s.toRing s.ctx target = true then 1 ≤ s.quotaLeft s.ctx else s.canAccept s.ctx target p.2 1 = true) →
        ∃ t y, exec (.renq a b p.1) s = .next t ∧ AcceptsLast s t target p.2 y ∧ y.body = .block (s.core.rd b)
          ∧ t.core = movedOn s.core 4 ∧ t = { s with cores := t.cores, graphs := t.graphs } ∧ SameBytes s t)

/-- R107, R127: `fork` enters one stream entry in each queue whose register is named, all under the fork's id, which is
pending until their streams have ended. -/
def Obligations.Forks : Prop :=
  ∀ (s : State) (k : BitVec 3) (a b c : Reg),
    let named := [(Eng.v, a), (Eng.m, b), (Eng.c, c)].filter (fun p => p.2 != 0)
    (SMap.get {} s.core.forks k.toNat).pending = [] → s.core.sq = [] →
    (∀ p ∈ named, (s.core.queue p.1).spill = [] ∧ (s.core.queue p.1).hwSlots ≤ 30) →
    ∃ t, exec (.fork k a b c) s = .next t ∧ t.core.pc = s.core.pc + 4
      ∧ (SMap.get {} t.core.forks k.toNat).pending = named.map (fun p => p.1)
      ∧ (∀ p ∈ named, ∃ y, (t.core.queue p.1).hw = (s.core.queue p.1).hw ++ [y]
          ∧ y.body = .stream (s.core.rd p.2 &&& ~~~0x7F#64) 0 0 0 0 0 ∧ y.fork = some k.toNat
          ∧ y.seq = (s.core.queue p.1).next)
      ∧ (∀ e, (∀ p ∈ named, p.1 ≠ e) → t.core.queue e = s.core.queue e)
      ∧ (∀ r : Reg, t.core.rd r = s.core.rd r) ∧ t = { s with cores := t.cores, graphs := t.graphs } ∧ SameBytes s t

/-- R99, R322, R323: `pgreq` with a count posts a request under the context's next number; with count 0 it increments the
flag at once. PAGE_REPLY with the valid bit and the number of an outstanding request retires it and increments its flag. -/
def Obligations.PageRequests : Prop :=
  ∀ (s : State) (d a : Reg) (f : Ix6),
    let x := s.context s.ctx
    ((s.core.rd d).toNat ≠ 0 → x.reqs.length < 1024 →
      ∃ t, exec (.pgreq d a f) s = .next t ∧ t.core.pc = s.core.pc + 4 ∧ (∀ r : Reg, t.core.rd r = s.core.rd r)
        ∧ (t.context s.ctx).prqSeq = x.prqSeq + 1
        ∧ (t.context s.ctx).reqs = x.reqs ++ [{ seq := x.prqSeq, core := s.cur, flag := f.toNat }])
    ∧ ((s.core.rd d).toNat = 0 → f ≠ 0 → s.core.flag f.toNat < 65535 →
      ∃ t, exec (.pgreq d a f) s = .next t
        ∧ CoreRecorded s t (movedOn (s.core.setFlag f.toNat (s.core.flag f.toNat + 1)) 4))
    ∧ (∀ slot q, x.reqs.find? (fun r => r.seq % 1024 == slot) = some q →
      let v := readNat s.mem (recPrp (s.ctxRecord s.ctx) + 16 * slot) 16
      v % 2 = q.seq / 1024 % 2 → v / 2 ^ 96 % 2 ^ 32 = q.seq % 2 ^ 32 → q.flag ≠ 0 →
      (s.coreAt s.ctx q.core).flag q.flag < 65535 → (s.coreAt s.ctx q.core).bankState 6 ≠ .saved →
      ∃ t, exec (.pageReply s.ctx slot) s = .next t
        ∧ (t.coreAt s.ctx q.core).flag q.flag = (s.coreAt s.ctx q.core).flag q.flag + 1
        ∧ (t.context s.ctx).reqs = x.reqs.filter (fun r => r.seq != q.seq)
        ∧ t = { s with cores := t.cores, ctxs := t.ctxs } ∧ SameBytes s t)

/-- R100: what an atomic writes and returns, by operation, on a `n`-bit element. -/
def Sys2Proof.Claims.atomicValue (n old a b : Nat) : Nat → Nat
  | 0 => (old + a) % 2 ^ n
  | 3 => if old = b then a else old
  | 4 => a
  | 5 => if (BitVec.ofNat n a).toInt < (BitVec.ofNat n old).toInt then a else old
  | 6 => if (BitVec.ofNat n old).toInt < (BitVec.ofNat n a).toInt then a else old
  | 7 => min a old
  | 8 => max a old
  | 9 => a ||| old
  | 10 => a &&& old
  | _ => old

/-- R100: an atomic through a valid writable handle whose element lies in a resident row of this package's device memory
or vaults returns the old element and writes the new one, and no other byte changes; the earlier accesses have performed
at the scope. -/
def Sys2Proof.Claims.Atomics : Prop :=
  ∀ (s : State) (o : AOp) (p : Spot),
    let hd := s.core.handle o.h.toNat
    let off := s.core.rd o.x + BitVec.ofNat 64 (128 * o.rof.toNat)
    let n := if o.w = 1 then 8 else 4
    let loc := hd.loc (quadOf s.cur) off.toNat
    let A := (s.core.rd o.a).toNat % 2 ^ (8 * n)
    let B := (s.core.rd o.b).toNat % 2 ^ (8 * n)
    s.core.onItsWay = false → o.h ≠ 0 → hd.valid = true → off.toNat < hd.limit →
    hd.w = true → hd.readyAt ≤ s.now → s.accessesDone o.scope.toNat = true → s.heldBack s.core loc = false →
    s.handleTarget s.ctx s.cur hd off.toNat = .spot p → (p.vault = true ∨ p.addr / 2 ^ 47 % 2 = 0) →
    s.poisoned p = false → o.el.toNat < 128 / n →
    ∀ q ∈ [(Instr.faa o, 0), (.cas o, 3), (.swp o, 4), (.amin o, 5), (.amax o, 6), (.aminn o, 7), (.amaxn o, 8),
           (.aor o, 9), (.aand o, 10)],
      ∃ t old, exec q.1 s = .next t ∧ Holds s p.vault (p.addr / 128 * 128 + n * o.el.toNat) n old
        ∧ t.core = regSet s.core o.d (BitVec.ofNat 64 old) 8
        ∧ Stores s t p.vault (p.addr / 128 * 128 + n * o.el.toNat) n (atomicValue (8 * n) old A B q.2)

/-- R101: `faab` claims from a counter: below the limit it returns the count and adds the increment, else it returns
0xFFFF_FFFF and writes nothing. -/
def Sys2Proof.Claims.BoundedClaims : Prop :=
  ∀ (s : State) (o : AOp) (p : Spot) (count limit : Nat),
    let hd := s.core.handle o.h.toNat
    let off := s.core.rd o.x + BitVec.ofNat 64 (128 * o.rof.toNat)
    let inc := (s.core.rd o.a).toNat % 2 ^ 32
    let base := p.addr / 128 * 128 + 8 * o.el.toNat
    s.core.onItsWay = false → o.h ≠ 0 → hd.valid = true → off.toNat < hd.limit →
    hd.w = true → hd.readyAt ≤ s.now → s.accessesDone o.scope.toNat = true →
    s.heldBack s.core (hd.loc (quadOf s.cur) off.toNat) = false →
    s.handleTarget s.ctx s.cur hd off.toNat = .spot p → (p.vault = true ∨ p.addr / 2 ^ 47 % 2 = 0) →
    s.poisoned p = false → o.w = 1 → o.el.toNat < 16 → Holds s p.vault base 4 count → Holds s p.vault (base + 4) 4 limit →
    (count + inc ≤ limit → ∃ t, exec (.faab o) s = .next t ∧ t.core = regSet s.core o.d (BitVec.ofNat 64 count) 8
      ∧ Stores s t p.vault base 4 (count + inc))
    ∧ (limit < count + inc → ∃ t, exec (.faab o) s = .next t ∧ CoreRecorded (s.correct p) t (regSet s.core o.d 0xFFFFFFFF 8))

/-- R100, R101: the atomics and the bounded claim. -/
def Obligations.AtomicOperations : Prop := Atomics ∧ BoundedClaims

/-- R101, R280: `fao` sends its claim, with key s[b][31:0], N s[b][63:32] and increment s[a][31:0], and waits; FAO_GRANT
then delivers the grant to s[d] and the instruction completes. -/
def Sys2Proof.Claims.OrderedClaims : Prop :=
  ∀ (s : State) (o : AOp) (p : Spot) (k : Contrib) (d : Reg) (g : Word),
    let hd := s.core.handle o.h.toNat
    let off := s.core.rd o.x + BitVec.ofNat 64 (128 * o.rof.toNat)
    (s.core.onItsWay = false → (∀ c ∈ s.contribs, c.ctx ≠ s.ctx ∨ c.core ≠ s.cur) → o.h ≠ 0 → hd.valid = true → off.toNat < hd.limit →
      hd.w = true → hd.readyAt ≤ s.now → s.accessesDone o.scope.toNat = true →
      s.heldBack s.core (hd.loc (quadOf s.cur) off.toNat) = false →
      s.handleTarget s.ctx s.cur hd off.toNat = .spot p → (p.vault = true ∨ p.addr / 2 ^ 47 % 2 = 0) →
      ∃ t c, exec (.fao o) s = .next t ∧ t.contribs = s.contribs ++ [c] ∧ c.id = s.nextContrib ∧ c.core = s.cur ∧ c.ctx = s.ctx
        ∧ c.key = (s.core.rd o.b).toNat % 2 ^ 32 ∧ c.n = (s.core.rd o.b).toNat / 2 ^ 32
        ∧ c.payload = .claim ((s.core.rd o.a).toNat % 2 ^ 32) ∧ c.reply = .reg o.d
        ∧ t.core = { s.core with waiting := some (.grant (2 * s.nextContrib)) } ∧ SameBytes s t)
    ∧ (s.contribs = [k] → k.core = s.cur → k.ctx = s.ctx → k.reply = .reg d → k.grant = some (g, 0) →
      s.core.waiting = some (.grant (2 * k.id)) → s.core.bankState 0 ≠ .saved →
      ∃ t, exec (.faoGrant s.cur) s = .next t ∧ t.contribs = [] ∧ t.core = regSet s.core d g 8
        ∧ t = { s with cores := t.cores, contribs := [] })

/-- R280, R281: a claim that arrives in turn at its round is applied at once, and the count of the round moves on; one that
arrives ahead of its turn is buffered and nothing is written; a key at or beyond N traps ORDERED_KEY. -/
def Sys2Proof.Claims.OrderedArrivals : Prop :=
  ∀ (s : State) (i : Nat) (k : Contrib) (r : Round),
    s.contribs[i]? = some k → k.buffered = false → k.bad = false → k.grant = none → k.retryAt = none → s.roundAt k = some r →
    (k.key < r.n → k.n = r.n → r.next < k.key → s.bufferedNext k k.key = none → s.bufferedCount k.die < 256 →
      ∃ t, exec (.contributionArrive i) s = .next t ∧ SameBytes s t ∧ t.cores = s.cores
        ∧ t.contribs = s.contribs.map (fun x => if x.id = k.id then { x with buffered := true, retryAt := none } else x))
    ∧ (r.n ≤ k.key ∨ k.n ≠ r.n → (∃ d, k.reply = .reg d) → k.ctx = s.ctx → k.core = s.cur →
      s.core.waiting = some (.grant (2 * k.id)) → s.core.pend = false → s.core.inh = false → s.core.xhand ≠ 0 →
      ∃ t, exec (.contributionArrive i) s = .next t ∧ SameBytes s t
        ∧ t.contribs = s.contribs.filter (fun x => x.id != k.id) ∧ t.core.pc = s.core.xhand
        ∧ t.core.xcause = 0x014 ∧ t.core.xval = BitVec.ofNat 64 (k.key + k.n * 2 ^ 32) ∧ t.core.xpc = s.core.pc)


/-- R101, R280, R281: ordered claims, from the instruction to the round and the grant. -/
def Obligations.OrderedRounds : Prop := OrderedClaims ∧ OrderedArrivals

/-! ## Entries and their sequencers -/

/-- How a sequencer goes on once cycles have passed (p) after the word of u's entry at work (R56, R122, R123, R130): the next
word issues `sc` cycles after the cycle `last` at the earliest; in a stream the next slot follows, any other entry has
issued all it holds. -/
def Sys2Proof.Claims.GoesOn (u p t : State) (last sc land : Nat) : Prop :=
  t = p.setQ t.q ∧ t.q = { p.q with readyAt := last + 1 + sc, act := t.q.act, flight := t.q.flight }
  ∧ ∀ a, u.q.act = some a →
    ((∃ row slot p0 p1 p2 p3, a.cur.body = .stream row slot p0 p1 p2 p3) → t.q.flight = u.q.flight
      ∧ ∃ b, t.q.act = some b ∧ b.entry = a.entry ∧ b.cur = a.cur ∧ b.rep = 0 ∧ b.loops = a.loops
        ∧ b.row = (if 20 ≤ a.slot then a.row + 128 else a.row) ∧ b.slot = (if 20 ≤ a.slot then 0 else a.slot + 1)
        ∧ b.land = max a.land land)
    ∧ (∀ w, a.cur.body = .word w →
      (a.inner = none → t.q.act = none
        ∧ t.q.flight = u.q.flight ++ [{ entry := a.entry, doneAt := max a.land land, chans := a.chans }])
      ∧ (a.inner = some [] → t.q.act = none
        ∧ t.q.flight = u.q.flight ++ [{ entry := a.cur, inner := some a.index, doneAt := max a.land land, chans := a.chans },
                                      { entry := a.entry, doneAt := max a.land land, chans := a.chans }])
      ∧ ∀ x rest, a.inner = some (x :: rest) →
        t.q.flight = u.q.flight ++ [{ entry := a.cur, inner := some a.index, doneAt := max a.land land, chans := a.chans }]
        ∧ ∃ b, t.q.act = some b ∧ b.entry = a.entry ∧ b.cur = x ∧ b.inner = some rest ∧ b.index = a.index + 1
          ∧ b.innerBegun = false ∧ b.rep = 0 ∧ b.land = max a.land land)

/-- A sequencer word that issues in the cycles from `first` to `last`, with its effects in u. -/
def Sys2Proof.Claims.WordGoesOn (u t : State) (first last sc land : Nat) : Prop :=
  GoesOn u (u.passTo first (last + 1 - first) last) t last sc land

/-- A repetition of `len` cycles from `first` on, with its effects in u, landed by `land`: the next repetition follows in
the next cycle, and after the last one the sequencer goes on (R130, R139). -/
def Sys2Proof.Claims.RepGoesOn (u t : State) (first len land : Nat) (rc : BitVec 10) (sc : Nat) : Prop :=
  let p := u.passTo first len (first + len - 1)
  (rc.toNat ≤ u.act.rep → GoesOn u p t (first + len - 1) sc land)
  ∧ (u.act.rep < rc.toNat → t = p.setQ t.q ∧ t.q = { p.q with readyAt := first + len, act := t.q.act }
    ∧ t.q.act = some { p.act with rep := u.act.rep + 1, fresh := false, land := max u.act.land land, part := none, stuck := [] })

/-- The word faults: its queue stops with the entry at its head, under the cause `code`; only the acting core, the launches
and the trace can differ (R115). -/
def Sys2Proof.Claims.QueueStops (s t : State) (e : Eng) (x : Entry) (code : BitVec 8) (p : Progress) : Prop :=
  (∃ f, (t.core.queue e).stopped = some f ∧ f.code = code ∧ f.seq = x.seq ∧ f.told = false ∧ f.task = x.task
    ∧ f.launch = x.launch ∧ f.prev = s.core.entryPrev x ∧ f.progress = s.core.progressOf e x.seq p)
  ∧ t.core.pc = s.core.pc ∧ (∀ r : Reg, t.core.rd r = s.core.rd r) ∧ (t.core.queue e).act = (s.core.queue e).act
  ∧ (t.core.queue e).flight = (s.core.queue e).flight ∧ (∀ g, g ≠ e → t.core.queue g = s.core.queue g)
  ∧ ∀ ctx n, coreKey ctx n ≠ coreKey s.ctx s.cur → t.coreAt ctx n = s.coreAt ctx n

/-- R122, R123, R128: the head of a queue begins once its flag has a count, which it takes; a null entry has issued all it
holds; a block's slots are read once and its first inner entry follows; an entry in flight whose effects have landed
signals its flag and is complete; a spilled entry returns when slots are free. -/
def Obligations.QueueEntries : Prop :=
  ∀ (s : State) (x y : Entry) (a : Active) (rest : List Entry) (k : Nat) (f : Flight),
    let e := s.eng
    let q := s.q
    Engines s → q.stopped = none →
    (q.act = none → q.hw = x :: rest → x.epoch ≤ s.core.epoch → q.bpSeq = none → q.bpFlag = none →
      (x.wf = 0 ∨ 0 < s.core.flag x.wf.toNat) →
      ∃ t b, exec (.entryWaitSatisfied s.cur e) s = .next t ∧ OnlyCore s t
        ∧ t.q = { q with hw := rest, act := some b } ∧ b.entry = x ∧ b.cur = x ∧ b.rep = 0 ∧ b.inner = none
        ∧ t.core = { s.core with flags := t.core.flags, latch := t.core.latch }.setQueue e t.q
        ∧ ∀ j : Ix6, t.core.flag j.toNat = if j = x.wf ∧ j ≠ 0 then s.core.flag j.toNat - 1 else s.core.flag j.toNat)
    ∧ (q.act = some a → a.inner ≠ none → a.innerBegun = false →
      (a.taken = true ∨ a.cur.wf = 0 ∨ 0 < s.core.flag a.cur.wf.toNat →
        ∃ t, exec (.entryWaitSatisfied s.cur e) s = .next t ∧ OnlyCore s t
          ∧ t.q = { q with act := some { a with innerBegun := true, waitFlag := none, taken := false, fresh := true } }
          ∧ ∀ j : Ix6, t.core.flag j.toNat =
              if a.taken = false ∧ j = a.cur.wf ∧ j ≠ 0 then s.core.flag j.toNat - 1 else s.core.flag j.toNat)
      ∧ (a.taken = false → a.cur.wf ≠ 0 → s.core.flag a.cur.wf.toNat = 0 →
        ∃ t, exec (.entryWaitSatisfied s.cur e) s = .next t
          ∧ CoreBecomes s t (s.core.setQueue e { q with act := some { a with waitFlag := some a.cur.wf.toNat } })))
    ∧ (q.act = some a → a.cur.body = .null → a.inner = none →
      ∃ t, exec (.nullEntry s.cur e) s = .next t ∧ CoreBecomes s t (s.core.setQueue e
        { q with act := none, flight := q.flight ++ [{ entry := a.entry, doneAt := max a.land s.now, chans := a.chans }] }))
    ∧ (∀ s1 s2 addr h l, q.act = some a → a.cur.body = .block addr → a.entry.blockCopy = [] → 1 ≤ h → h < 64 →
      s.readSlots (s.readerOf a.entry) (addr.toNat / 16 * 16) 1 = (s1, .ok [h]) →
      s1.readSlots (s1.readerOf a.entry) (addr.toNat / 16 * 16 + 16) h = (s2, .ok l) → l.length = h →
      innerEntries a.entry 64 l = some (y :: rest) →
      ∃ t b, exec (.blockEntry s.cur e) s = .next t ∧ CoreBecomes s2 t (s2.core.setQueue s2.eng { s2.q with act := some b })
        ∧ b.entry = a.entry ∧ b.cur = y ∧ b.inner = some rest ∧ b.index = 0 ∧ b.innerBegun = false)
    ∧ (∀ s1 row, (∃ r0 sl p0 p1 p2 p3, a.cur.body = .stream r0 sl p0 p1 p2 p3) → q.act = some a →
      s.readLoc (s.readerOf a.entry) (.va a.row.toNat) = (s1, .ok row) →
      (row.toNat < 2 ^ 1008 → ∃ t, exec (.programRowFetch s.cur e) s = .next t
        ∧ CoreBecomes s1 t (s1.core.setQueue s1.eng { s1.q with act := some { a with held := some (a.row, row), fresh := true } }))
      ∧ (2 ^ 1008 ≤ row.toNat → s1.q = q → ∃ t, exec (.programRowFetch s.cur e) s = .next t
        ∧ QueueStops s1 t s1.eng a.entry 0x15 {}))
    ∧ (q.flight[k]? = some f → s.flightDone f = true → e ≠ .c → (f.entry.sf = 0 ∨ s.core.flag f.entry.sf.toNat < 65535) →
      ∃ t, exec (.entryComplete s.cur e k) s = .next t ∧ OnlyCore s t
        ∧ t.q = { q with flight := q.flight.take k ++ q.flight.drop (k + 1) }
        ∧ t.core = { s.core with flags := t.core.flags, latch := t.core.latch, forks := t.core.forks }.setQueue e t.q
        ∧ (f.entry.fork = none → t.core.forks = s.core.forks)
        ∧ (∀ i, f.entry.fork = some i → (SMap.get {} t.core.forks i).pending =
            (SMap.get {} s.core.forks i).pending.filter (fun g => g != e))
        ∧ ∀ j : Ix6, t.core.flag j.toNat = if j = f.entry.sf ∧ j ≠ 0 then s.core.flag j.toNat + 1 else s.core.flag j.toNat)
    ∧ (q.flight[k]? = some f → s.flightDone f = true → f.entry.sf ≠ 0 → 65535 ≤ s.core.flag f.entry.sf.toNat →
      f.entry.fork = none → ∃ t p, exec (.entryComplete s.cur e k) s = .next t ∧ QueueStops s t e f.entry 0x0F p
        ∧ (e ≠ .c → p = {}) ∧ (e = .c → p = { rep := (SMap.get {} s.core.ended f.entry.seq).rep,
                                              count := (SMap.get {} s.core.ended f.entry.seq).count }))
    ∧ (q.flight[k]? = some f → s.flightDone f = true → e = .c → f.inner = none → f.entry.fork = none →
      (∀ c, c ∈ s.claims → c.ctx = s.ctx → c.core = s.cur → c.seq = f.entry.seq → c.pkg = none) →
      (f.entry.sf = 0 ∨ s.core.flag f.entry.sf.toNat < 65535) →
      ∃ t, exec (.entryComplete s.cur e k) s = .next t ∧ t = { s with cores := t.cores, claims := t.claims }
        ∧ t.q = { q with flight := q.flight.take k ++ q.flight.drop (k + 1) }
        ∧ (∀ c, c ∈ t.claims ↔ c ∈ s.claims ∧ ¬(c.ctx = s.ctx ∧ c.core = s.cur ∧ c.seq = f.entry.seq))
        ∧ SMap.get {} t.core.ended f.entry.seq = {}
        ∧ ∀ j : Ix6, t.core.flag j.toNat = if j = f.entry.sf ∧ j ≠ 0 then s.core.flag j.toNat + 1 else s.core.flag j.toNat)
    ∧ (q.spill = x :: rest → q.hwSlots + x.slots ≤ 32 →
      ∃ t, exec (.saddlebagReturn s.cur e) s = .next t
        ∧ CoreBecomes s t (s.core.setQueue e { q with hw := q.hw ++ [x], spill := rest }))

/-- R115 to R117, R129: an engine fault stops its queue; a held deferred trap is taken at the next boundary with INH = 0; an
insertion that has waited longer than the limit traps QUOTA_STALL. -/
def Obligations.FaultsAndDelivery : Prop :=
  ∀ (s : State) (code : BitVec 8) (a : Active) (h : HeldTrap) (rest : List HeldTrap) (target since : Nat) (e : Eng)
    (f : EngFault),
    Serves s →
    ((s.core.queue e).act = some a → (s.core.queue e).stopped = none →
      code ∈ [0x02, 0x07, 0x08, 0x09, 0x0A, 0x0B, 0x0C, 0x0D, 0x0F, 0x13, 0x14, 0x15, 0x18] →
      ∃ t p, exec (.engineFault s.cur e code) s = .next t ∧ QueueStops s t e a.entry code p ∧ p.rep = a.rep)
    ∧ (s.coreRuns = true → s.core.inh = false → s.core.xhand ≠ 0 → s.core.held = h :: rest → s.core.waiting = none →
      ∃ t, exec (.trapDelivery s.cur) s = .next t ∧ t.core.held = rest ∧ t.core.xpc = h.pc.getD s.core.pc
        ∧ t.core.xcause = (if h.pc = none then 1#1 else 0#1) ++ h.code ∧ t.core.xval = h.value ∧ t.core.inh = true
        ∧ t.core.pc = s.core.xhand ∧ (∀ r : Reg, t.core.rd r = s.core.rd r) ∧ SameBytes s t)
    ∧ (s.coreRuns = true → s.core.inh = false → s.core.xhand ≠ 0 → s.core.held = [] → s.core.waiting = none →
      s.core.qv.stopped = some f → f.told = false → f.prev = false →
      ∃ t, exec (.trapDelivery s.cur) s = .next t ∧ t.core.qv.stopped = some { f with told := true }
        ∧ t.core.xpc = s.core.pc ∧ t.core.xcause = 1#1 ++ 0x17#8 ∧ t.core.inh = true ∧ t.core.pc = s.core.xhand
        ∧ t.core.xval.toNat = f.seq % 2 ^ 32 * 2 ^ 32 + f.code.toNat * 2 ^ 16
        ∧ (∀ r : Reg, t.core.rd r = s.core.rd r) ∧ SameBytes s t)
    ∧ (s.core.waiting = some (.insertion target e since) → since + 1000 * s.setting 0x823 < s.time →
      let u := s.event 2 s.ctx (Config.eventArg 2).toNat (recPrvec (s.ctxRecord s.ctx))
      (s.core.inh = false → s.core.xhand ≠ 0 → s.core.pend = false →
        ∃ t, exec (.quotaStall s.cur) s = .next t
          ∧ TakesTrap u t 0x0E (BitVec.ofNat 64 (256 * target + engNum e)) s.core.pc)
      ∧ (s.core.inh = true ∨ s.core.xhand = 0 →
        ∃ t, exec (.quotaStall s.cur) s = .next t
          ∧ CoreBecomes u t { s.core with waiting := some (.insertion target e s.time) }))

/-- R127, R133, R135, R136: the sequencer words at work in a queue: `snop` holds its engine, `swait` and `ssig` take and
give a count, `sloop` and `sendl` repeat a body, `spho` opens a footprint and `sphc` closes it, `srel` and `smode` wait for
the earlier words, `send` ends the stream. A word that waits stays where it is; a loop word or a `send` outside a stream, and
an `spho` or `sphc` that may not act, stops the queue. -/
def Obligations.SequencerWords : Prop :=
  ∀ (s : State) (a : Active) (f k : Ix6) (sc : BitVec 4) (rc : BitVec 10) (src sco : BitVec 3) (n : BitVec 16) (m : Bool)
    (ps : List Phase) (l : LoopLevel) (ls : List LoopLevel) (code : BitVec 8),
    let i := s.issueAt
    let w := s.issueNow
    let v := s.landEarlier
    let out : Progress := { count := if s.eng = .v then 1 else 0 }
    s.q.act = some a →
    (∃ t, exec (.snop sc rc) s = .next t ∧ WordGoesOn s t i (i + rc.toNat) sc.toNat (i + rc.toNat))
    ∧ (a.taken = true → ∃ t, exec (.swait f sc) s = .next t ∧ WordGoesOn s t w w sc.toNat w)
    ∧ (a.taken = false → f = 0 ∨ 0 < s.core.flag f.toNat →
      let u := s.setCore (if f = 0 then s.core else s.core.setFlag f.toNat (s.core.flag f.toNat - 1))
      ∃ t, exec (.swait f sc) s = .next t ∧ WordGoesOn u t w w sc.toNat w)
    ∧ (a.taken = false → f ≠ 0 → s.core.flag f.toNat = 0 → ∃ t, exec (.swait f sc) s = .next t
      ∧ CoreBecomes s t (s.core.setQueue s.eng { s.q with act := some { a with fresh := true, waitFlag := some f.toNat } }))
    ∧ (v.earlierReleased = true → f = 0 ∨ v.core.flag f.toNat < 65535 →
      let u := v.setCore (if f = 0 then v.core else v.core.setFlag f.toNat (v.core.flag f.toNat + 1))
      ∃ t, exec (.ssig f sc) s = .next t ∧ WordGoesOn u t v.issueNow v.issueNow sc.toNat v.issueNow)
    ∧ (v.earlierReleased = true → f ≠ 0 → 65535 ≤ v.core.flag f.toNat → v.q.stopped = none →
      ∃ t, exec (.ssig f sc) s = .next t ∧ QueueStops v t v.eng v.act.entry 0x0F {})
    ∧ (∀ row slot p0 p1 p2 p3, a.cur.body = .stream row slot p0 p1 p2 p3 → a.loops.length < 4 →
      src = 0 ∨ 4 ≤ src.toNat →
      let c := if src = 0 then n.toNat else if src = 4 then p0.toNat else if src = 5 then p1.toNat
        else if src = 6 then p2.toNat else p3.toNat
      (0 < c → ∃ t b, exec (.sloop src n sc) s = .next t
        ∧ WordGoesOn (s.setAct b) t i i sc.toNat i
        ∧ b = { a with loops := { count := c, row := if 20 ≤ a.slot then a.row + 128 else a.row,
                                  slot := if 20 ≤ a.slot then 0 else a.slot + 1 } :: a.loops })
      ∧ (c = 0 → ∃ t, exec (.sloop src n sc) s = .next t ∧ WordGoesOn (s.setAct { a with skip := 1 }) t i i sc.toNat i))
    ∧ (s.inStream = true → a.loops = l :: ls →
      (l.count ≤ 1 → ∃ t, exec (.sendl sc) s = .next t ∧ WordGoesOn (s.setAct { a with loops := ls }) t i i sc.toNat i)
      ∧ (1 < l.count → ∃ t b, exec (.sendl sc) s = .next t ∧ t = (s.passTo i 1 i).setQ t.q ∧ t.q.act = some b
        ∧ t.q.readyAt = i + 1 + sc.toNat ∧ b.row = l.row ∧ b.slot = l.slot ∧ b.rep = 0 ∧ b.fresh = false
        ∧ b.loops = { l with count := l.count - 1 } :: ls ∧ b.entry = a.entry))
    ∧ (s.inStream = false → s.q.stopped = none →
      (∃ t, exec (.sloop src n sc) s = .next t ∧ QueueStops s t s.eng a.entry 0x02 out)
      ∧ (∃ t, exec (.sendl sc) s = .next t ∧ QueueStops s t s.eng a.entry 0x02 out)
      ∧ ∃ t, exec (.send src sc) s = .next t ∧ QueueStops s t s.eng a.entry 0x02 out)
    ∧ (s.phaseTurn true = true → s.openPhase k.toNat = .opened ps → ∃ t, exec (.spho k sc) s = .next t
      ∧ WordGoesOn ({ s with phases := s.phases ++ ps }.setQ { s.q with phases := s.q.phases ++ [k.toNat] }) t i i sc.toNat i)
    ∧ (s.phaseTurn true = true → s.openPhase k.toNat = .wait → ∃ t, exec (.spho k sc) s = .next t
      ∧ CoreBecomes s t (s.core.setQueue s.eng { s.q with act := some { a with fresh := true, waitFlag := none } }))
    ∧ (s.phaseTurn true = true → s.openPhase k.toNat = .fault code 0 → s.q.stopped = none →
      ∃ t, exec (.spho k sc) s = .next t ∧ QueueStops s t s.eng a.entry code {})
    ∧ (s.phaseTurn false = true → s.q.phases.contains k.toNat = true → s.accessesPerformed = true →
      (s.eng = .m → s.core.sqa = [] ∧ s.core.sqb = []) → ∃ t u, exec (.sphc k sc) s = .next t
      ∧ WordGoesOn u t i i sc.toNat i ∧ u.q.act = some a ∧ k.toNat ∉ u.q.phases
      ∧ (∀ j, j ≠ k.toNat → (j ∈ u.q.phases ↔ j ∈ s.q.phases))
      ∧ u.phases = s.phases.filter (fun p => !(p.ctx == s.ctx && p.core == s.cur && p.eng == s.eng && p.fp == k.toNat)))
    ∧ (s.phaseTurn false = true → s.q.phases.contains k.toNat = false → s.q.stopped = none →
      ∃ t p, exec (.sphc k sc) s = .next t ∧ QueueStops s t s.eng a.entry 0x08 p ∧ p.record ≠ 0)
    ∧ (∃ t, exec (.sacq sco sc) s = .next t ∧ WordGoesOn s t i i sc.toNat i)
    ∧ (v.earlierReleased = true →
      ∃ t, exec (.srel sco sc) s = .next t ∧ WordGoesOn v t v.issueNow v.issueNow sc.toNat v.issueNow)
    ∧ (v.earlierReleased = false → ∃ t, exec (.srel sco sc) s = .next t
      ∧ CoreBecomes v t (v.core.setQueue v.eng { v.q with act := some { v.act with fresh := true, waitFlag := none } }))
    ∧ (v.core.interlock = m → v.act.count ≠ 1 → ∃ t, exec (if m then .smodeInterlock sc else .smodeExposed sc) s = .next t
      ∧ WordGoesOn v t v.issueAt v.issueAt sc.toNat v.issueAt)
    ∧ (v.act.count = 1 → (∀ x, x ∈ v.core.crossing → x.2.2 ≠ 1 + engNum s.eng) →
      ∃ t, exec (if m then .smodeInterlock sc else .smodeExposed sc) s = .next t
        ∧ WordGoesOn v t v.issueNow v.issueNow sc.toNat v.issueNow)
    ∧ (v.core.interlock ≠ m → v.act.count ≠ 1 → v.earlierDone = true →
      ∃ t, exec (if m then .smodeInterlock sc else .smodeExposed sc) s = .next t ∧ OnlyCore v t
        ∧ t.core.crossing = (m, v.core.stamp, 1 + engNum s.eng) :: v.core.crossing ∧ t.core.interlock = v.core.interlock
        ∧ t.q.act = some { v.act with count := 1, fresh := true, waitFlag := none })
    ∧ (s.inStream = true → a.loops = [] → a.cur.fork = none ∨ a.cur.fork = some src.toNat →
      ∃ t, exec (.send src sc) s = .next t
      ∧ t = (s.passTo i 1 i).setQ t.q ∧ t.q.readyAt = i + 1 + sc.toNat
      ∧ (a.inner = none → t.q.act = none
        ∧ t.q.flight = s.q.flight ++ [{ entry := a.entry, doneAt := max a.land i, chans := a.chans }]))

/-! ## The vector engine -/

/-- R130, R131, R132: a repetition of latency `lat` reads the registers `reads` and the masks `readM`; it issues in cycle i,
and its results `regs` and `masks` complete in cycle i + lat. -/
def Sys2Proof.Claims.VectorResult (s t : State) (i lat : Nat) (rc : BitVec 10) (sc : BitVec 4)
    (regs : List (Nat × Row × BitVec 128)) (masks : List (Nat × BitVec 128)) : Prop :=
  ∃ carry, RepGoesOn ((s.setCore ((s.core.settle i).put (i + lat) { regs := regs, masks := masks })).setAct
    { s.act with carry := carry }) t i 1 (i + lat) rc sc.toNat

/-- Register k takes `f j` in each lane j that `on` holds for, and keeps its other lanes. -/
def Sys2Proof.Claims.VectorLanes (s t : State) (i lat : Nat) (o : VWord) (k : Nat) (on : Nat → Bool) (f : Nat → Nat) : Prop :=
  let w := tyBits o.ty
  ∃ data mask, VectorResult s t i lat o.rc o.sc [(k, data, mask)] []
    ∧ (∀ j, j < tyLanes o.ty → on j = true → lane w data j = f j % 2 ^ w)
    ∧ ∀ b, b < 128 → mask.getLsbD b = on (b / (w / 8))

/-- R131, R132: a repetition waits while a load of variable latency owes it an operand, and issues no earlier than the cycle in
which such a load landed; under INTERLOCK it issues when the writes
pending to its registers have completed, under EXPOSED at once, and with SCHK a read before a pending write, or a write
that would overtake one, stops it. -/
def Obligations.VectorIssue : Prop :=
  ∀ (c : Core) (own : Tag) (schk : Bool) (x : Shape) (i : Nat),
    let landed := ∀ k, SMap.get 0 c.loadedAt k ≤ i
    (c.vloads.any (fun l => (x.reads ++ x.writes).contains l.reg) = true → c.vIssue own schk x i = .wait)
    ∧ (c.vloads = [] → c.vmasks = [] → c.interlock = true ∨ schk = false → ∃ j, c.vIssue own schk x i = .at_ j ∧ i ≤ j
      ∧ (∀ k ∈ x.reads ++ x.writes, SMap.get 0 c.loadedAt k ≤ j)
      ∧ ∀ k ∈ x.readM ++ x.writeM, SMap.get 0 c.loadedAt (64 + k) ≤ j)
    ∧ (landed → c.vloads = [] → c.vmasks = [] → c.interlock = true → ∃ j, c.vIssue own schk x i = .at_ j ∧ i ≤ j
      ∧ (∀ p ∈ c.pendV, p.reg ∈ x.reads ++ x.writes → p.land ≤ j)
      ∧ (∀ p ∈ c.pendM, p.reg ∈ x.readM ++ x.writeM → p.land ≤ j)
      ∧ (i < j → (∃ p ∈ c.pendV, p.reg ∈ x.reads ++ x.writes ∧ p.land = j)
        ∨ ∃ p ∈ c.pendM, p.reg ∈ x.readM ++ x.writeM ∧ p.land = j))
    ∧ (landed → c.vloads = [] → c.vmasks = [] → c.interlock = false → schk = false → c.vIssue own schk x i = .at_ i)
    ∧ (landed → c.vloads = [] → c.vmasks = [] → c.interlock = false → schk = true →
      (c.vIssue own schk x i = .hazard ↔
        (∃ p ∈ c.pendV, (p.reg ∈ x.reads ∧ i < p.land) ∨ (p.reg ∈ x.writes ∧ i + x.lat < p.land))
          ∨ ∃ p ∈ c.pendM, (p.reg ∈ x.readM ∧ i < p.land) ∨ (p.reg ∈ x.writeM ∧ i + x.lat < p.land))
      ∧ (c.vIssue own schk x i ≠ .hazard → c.vIssue own schk x i = .at_ i))

/-- R141 to R144, R147: the predicated arithmetic of the vector engine. In each active lane the result is the stated function
of the lanes of A, B and the old D, rounded once for floating types; the other lanes of D stay. -/
def Obligations.VectorArithmetic : Prop :=
  ∀ (s : State) (a : Active) (o : VWord) (i : Nat),
    let r := a.rep
    let w := tyBits o.ty
    let g := o.fmt
    let iv := intValue g
    let on := fun j => (s.core.maskAt i o.mask.toNat).getLsbD j
    let A := fun j => lane w (s.core.vregAt i (o.rA r)) j
    let B := fun j => lane w (s.core.vregAt i (o.rB r)) j
    let D := fun j => lane w (s.core.vregAt i (o.rD r)) j
    let issues := fun (n lat : Nat) => s.core.vIssue s.tag a.entry.schk
      { reads := [o.rA r, o.rB r, o.rD r].take n, readM := [o.mask.toNat], writes := [o.rD r], lat := lat } s.issueAt = .at_ i
    let sum := fun (l : List Val) => exactSum g rne l
    s.q.act = some a →
    (o.ty.toNat < 3 →
      (∀ p ∈ [(Instr.vadd o, 4, fun x y => sum [g.value x, g.value y]),
              (.vsub o, 4, fun x y => sum [g.value x, (g.value y).neg]),
              (.vmul o, 4, fun x y => sum [(g.value x).mul (g.value y)]),
              (.vmin o, 2, fun x y => g.roundTo rne (Val.minNode (g.value x) (g.value y))),
              (.vmax o, 2, fun x y => g.roundTo rne (Val.maxNode (g.value x) (g.value y)))],
        issues 2 p.2.1 → ∃ t, exec p.1 s = .next t ∧ VectorLanes s t i p.2.1 o (o.rD r) on (fun j => p.2.2 (A j) (B j)))
      ∧ (∀ p ∈ [(Instr.vfma o, fun x y z => sum [(g.value x).mul (g.value y), g.value z]),
                (.vfms o, fun x y z => sum [(g.value x).mul (g.value y), (g.value z).neg]),
                (.vfnm o, fun x y z => sum [((g.value x).mul (g.value y)).neg, g.value z])],
        issues 3 4 → ∃ t, exec p.1 s = .next t ∧ VectorLanes s t i 4 o (o.rD r) on (fun j => p.2 (A j) (B j) (D j)))
      ∧ (∀ p ∈ [(Instr.vabs o, 2, Val.abs), (.vneg o, 2, Val.neg), (.vrcp o, 12, fRcp), (.vrsq o, 12, fRsq),
                (.vsqrt o, 12, fSqrt), (.vexp2 o, 12, fExp2), (.vlog2 o, 12, fLog2), (.vtanh o, 12, fTanh)],
        issues 1 p.2.1 → ∃ t, exec p.1 s = .next t
          ∧ VectorLanes s t i p.2.1 o (o.rD r) on (fun j => g.roundTo rne (p.2.2 (g.value (A j))))))
    ∧ (4 ≤ o.ty.toNat →
      (∀ p ∈ [(Instr.viadd o, 2, fun x y => x + y), (.visub o, 2, fun x y => x + 2 ^ w - y), (.vimul o, 3, fun x y => x * y),
              (.vimulh o, 3, fun x y => (iv x * iv y / 2 ^ w % 2 ^ w).toNat),
              (.vshl o, 2, fun x n => if w ≤ n then 0 else x * 2 ^ n), (.vshr o, 2, fun x n => x / 2 ^ n),
              (.vsra o, 2, fun x n => (iv x / 2 ^ min n w % 2 ^ w).toNat),
              (.vand o, 2, fun x y => x &&& y), (.vor o, 2, fun x y => x ||| y), (.vxor o, 2, fun x y => x ^^^ y),
              (.vimin o, 2, fun x y => (min (iv x) (iv y) % 2 ^ w).toNat),
              (.vimax o, 2, fun x y => (max (iv x) (iv y) % 2 ^ w).toNat),
              (.vsadd o, 2, fun x y => (max g.range.1 (min g.range.2 (iv x + iv y)) % 2 ^ w).toNat),
              (.vssub o, 2, fun x y => (max g.range.1 (min g.range.2 (iv x - iv y)) % 2 ^ w).toNat)],
        issues 2 p.2.1 → ∃ t, exec p.1 s = .next t ∧ VectorLanes s t i p.2.1 o (o.rD r) on (fun j => p.2.2 (A j) (B j)))
      ∧ (issues 1 2 → ∃ t, exec (.viabs o) s = .next t
        ∧ VectorLanes s t i 2 o (o.rD r) on (fun j => (min g.range.2 (iv (A j)).natAbs % 2 ^ w).toNat))
      ∧ (issues 3 4 → ∃ t, exec (.vimac o) s = .next t
        ∧ VectorLanes s t i 4 o (o.rD r) on (fun j => D j + A j * B j)))
    ∧ (issues 1 2 → ∃ t, exec (.vmov o) s = .next t ∧ VectorLanes s t i 2 o (o.rD r) on A)

/-- R83, R145 to R151, R158 to R165: compares and classes into a mask, selection, broadcast, permutation, conversion,
quantisation, partition, reduction, scan and mask operations. -/
def Obligations.VectorRegisters : Prop :=
  ∀ (s : State) (a : Active) (o : VWord) (md ma mb : MReg) (tt sc : BitVec 4) (rc : BitVec 10) (i : Nat),
    let r := a.rep
    let w := tyBits o.ty
    let e := tyLanes o.ty
    let g := o.fmt
    let m := s.core.maskAt i o.mask.toNat
    let on := fun j => m.getLsbD j
    let all := fun (_ : Nat) => true
    let RA := s.core.vregAt i (o.rA r)
    let RB := s.core.vregAt i (o.rB r)
    let A := fun j => lane w RA j
    let B := fun j => lane w RB j
    let issues := fun (reads readM writes writeM : List Nat) (lat : Nat) => s.core.vIssue s.tag a.entry.schk
      { reads := reads, readM := readM, writes := writes, writeM := writeM, lat := lat } s.issueAt = .at_ i
    let k := o.mask.toNat
    let rnd := fun (j : Nat) => rndOf o.mask a.entry.seed (j + 128 * r)
    s.q.act = some a →
    (∀ p ∈ [(Instr.vceq o, fun x y => (g.value x).eqv (g.value y)), (.vcne o, fun x y => !(g.value x).eqv (g.value y)),
            (.vclt o, fun x y => (g.value x).lt (g.value y)),
            (.vcle o, fun x y => (g.value x).lt (g.value y) || (g.value x).eqv (g.value y)),
            (.vcun o, fun x y => (g.value x).isNan || (g.value y).isNan)],
      issues [o.rA r, o.rB r] [k] [] [o.d.toNat] 2 →
      ∃ t x, exec p.1 s = .next t ∧ VectorResult s t i 2 o.rc o.sc [] [(o.d.toNat, x)]
        ∧ ∀ j, x.getLsbD j = (decide (j < e) && on j && p.2 (A j) (B j)))
    ∧ (∀ f, g.float = some f → issues [o.rA r] [k] [] [o.d.toNat] 2 →
      ∃ t x, exec (.vclass o) s = .next t ∧ VectorResult s t i 2 o.rc o.sc [] [(o.d.toNat, x)]
        ∧ ∀ j, x.getLsbD j = (decide (j < e) && on j && o.b.getLsbD (f.classOf (A j))
            && (tyE8 o.ty || !o.variant || (A j).testBit (f.width - 1))))
    ∧ (issues [o.rA r, o.rB r] [k] [o.rD r] [] 2 → ∃ t, exec (.vsel o) s = .next t
      ∧ VectorLanes s t i 2 o (o.rD r) all (fun j => if on j then A j else B j))
    ∧ (issues [o.rA r] [k] [o.rD r] [] 2 → ∃ t, exec (.vbcst o) s = .next t
      ∧ VectorLanes s t i 2 o (o.rD r) on (fun _ => A (if tyE8 o.ty then o.b.toNat % 32 else o.b.toNat)))
    ∧ (issues [] [k] [o.rD r] [] 2 → ∃ t, exec (.viota o) s = .next t
      ∧ VectorLanes s t i 2 o (o.rD r) on (fun j => j + e * r))
    ∧ (tyBits o.ty = 8 → issues [o.rA r, o.rA r + 1, o.rB r] [k] [o.rD r] [] 3 → ∃ t, exec (.vrmg o) s = .next t
      ∧ VectorLanes s t i 3 o (o.rD r) on (fun j =>
          let n := lane 8 RB 0 % 128 + j
          if n < 128 then lane 8 RA n else lane 8 (s.core.vregAt i (o.rA r + 1)) (n - 128)))
    ∧ (issues [o.rA r, o.rB r] [k] [o.rD r] [] 3 → ∃ t, exec (.vshuf o) s = .next t
      ∧ VectorLanes s t i 3 o (o.rD r) on (fun j => if B j < e then A (B j) else 0))
    ∧ (let es := tyLanes o.srcTy
       let first := if es < e then o.part * es else 0
       let src := if e < es then o.part * e else 0
       issues [o.rA r] [] [o.rD r] [] 4 → ∃ t, exec (.vcvt o) s = .next t
        ∧ VectorLanes s t i 4 o (o.rD r) (fun j => decide (first ≤ j ∧ j < first + min es e))
            (fun j => g.roundTo (rnd j) (o.srcFmt.value (lane (tyBits o.srcTy) RA (src + (j - first))))))
    ∧ (∀ p ∈ [(Instr.vqbf o, bxImage o.b.toNat (blockQuant o.b.toNat ((List.range 32).map rnd)
                ((List.range 32).map (fun j => g.value (A j))))),
              (.vqaf o, aqImage (affineQuant (o.b.toNat == 16) ((List.range 32).map rnd)
                ((List.range 32).map (fun j => g.value (A j)))))],
      issues [o.rA r] [] [o.rD r] [] 8 → ∃ t, exec p.1 s = .next t
        ∧ VectorResult s t i 8 o.rc o.sc [(o.rD r, BitVec.ofNat 1024 p.2, BitVec.allOnes 128)] [])
    ∧ (issues [o.rA r] [] [o.rD r] [] 4 → ∃ t, exec (.vdqbf o) s = .next t
      ∧ VectorLanes s t i 4 o (o.rD r) (fun j => decide (j < 32)) (fun j => g.roundTo (rnd j) (imageValue o.b.toNat RA j)))
    ∧ (let slots := (List.range 32).map (fun j => 32 * o.b.toNat + j)
       let base := lane 32 RA 0
       issues [o.rA r] [k] [o.d.toNat, o.d.toNat + 1] [] 10 → ∃ t y n, exec (.vpart o) s = .next t
        ∧ VectorResult s t i 10 o.rc o.sc [(o.d.toNat, y, BitVec.allOnes 128), (o.d.toNat + 1, n, BitVec.allOnes 128)] []
        ∧ ∀ j, j < 32 → lane 32 y j = ((slots.filter on).map (fun x => (base + x) % 2 ^ 32)).getD j (2 ^ 32 - 1)
          ∧ lane 32 n j = ((slots.filter (fun x => !on x)).map (fun x => (base + x) % 2 ^ 32)).getD j (2 ^ 32 - 1))
    ∧ (issues [o.rA r] [k] [o.d.toNat] [] 8 → ∃ t data mask, exec (.vred o) s = .next t
      ∧ VectorResult s t i 8 o.rc o.sc [(o.d.toNat, data, mask)] []
      ∧ (∀ b, b < 128 → mask.getLsbD b = decide (b / (w / 8) = r % e))
      ∧ lane w data (r % e) = (if (List.range e).any on then
          tree o.redOp g ((List.range e).map (fun j => if on j then A j else redPad o.redOp g)) else o.empty) % 2 ^ w)
    ∧ (issues [o.rA r] [k] [o.rD r] [] 10 →
      let start := if o.b.getLsbD 2 ∧ 0 < r then a.carry else o.empty
      ∃ t, exec (.vscan o) s = .next t ∧ VectorLanes s t i 10 o (o.rD r) on (fun j =>
        ((List.range (j + 1)).filter on).foldl (fun x l => redNode o.redOp g x (A l)) start))
    ∧ (issues [] [o.a.toNat] [o.d.toNat] [] 2 → ∃ t data mask, exec (.vmcnt o) s = .next t
      ∧ VectorResult s t i 2 o.rc o.sc [(o.d.toNat, data, mask)] []
      ∧ (∀ b, b < 128 → mask.getLsbD b = decide (b < w / 8))
      ∧ lane w data 0 = (min g.range.2
          ((List.range e).filter (fun j => (s.core.maskAt i o.a.toNat).getLsbD j)).length % 2 ^ w).toNat)
    ∧ (s.core.vIssue s.tag a.entry.schk { readM := [ma.toNat, mb.toNat], writeM := [md.toNat], lat := 2 } s.issueAt = .at_ i →
      ∃ t x, exec (.vmlog md ma mb tt sc rc) s = .next t ∧ VectorResult s t i 2 rc sc [] [(md.toNat, x)]
        ∧ ∀ j, j < 128 → x.getLsbD j = tt.getLsbD ((if (s.core.maskAt i ma.toNat).getLsbD j then 2 else 0)
            + if (s.core.maskAt i mb.toNat).getLsbD j then 1 else 0))

/-- R155, R157: u is s with the bytes `m` of one vault row written from `d`, and no other byte of any memory. -/
def Sys2Proof.Claims.RowWritten (s u : State) (l : Loc) (d : Row) (m : BitVec 128) : Prop :=
  ∀ q row a, l = .vault q row → s.vaultRow s.ctx q row = .at_ a →
    (∀ p, readByte u.mem p = readByte s.mem p) ∧ (∀ p, readByte u.sram p = readByte s.sram p)
    ∧ ∀ p, readByte u.vault p =
        if a / 128 = p / 128 ∧ m.getLsbD (p % 128) = true then d.extractLsb' (8 * (p % 128)) 8 else readByte s.vault p

/-- R131, R153: the rows `got` of a repetition of a load from the core's own vault have been read, with the state then u0: the
lanes land in D twelve cycles after its issue: the element, or zero where its row gives none or no lane stands. -/
def Sys2Proof.Claims.LoadLands (u0 t : State) (o : VWord) (n r : Nat) (p : RepPart) (got : List (Loc × Option Row)) : Prop :=
  let i := max p.at_ u0.issueAt
  let w := tyBits o.ty
  (p.lanes.map (fun l => l.lane)).Nodup → (∀ l ∈ p.lanes, l.lane < tyLanes o.ty) →
    ∃ u data mask, RepGoesOn u t i 1 (i + 12) o.rc o.sc.toNat ∧ SameBytes u0 u
      ∧ { reg := o.rD r, land := i + 12, data := data, mask := mask } ∈ u.core.pendV
      ∧ (∀ b, b < 128 → mask.getLsbD b = decide (b / (w / 8) < n))
      ∧ (∀ l ∈ p.lanes, lane w data l.lane = (l.value (keptRows got)).getD 0 % 2 ^ w)
      ∧ ∀ j, j < tyLanes o.ty → (∀ l ∈ p.lanes, l.lane ≠ j) → lane w data j = 0

/-- R192: a repetition reads the next of its rows, each in a turn of its own, and keeps what each delivers; with the last one it
goes on as `ends` says. -/
def Sys2Proof.Claims.ReadTurn (s t : State) (p : RepPart) (ends : State → List (Loc × Option Row) → Prop) : Prop :=
  (p.todo = [] → ends s p.got)
  ∧ ∀ l rest s2 x, p.todo = l :: rest → engRow (s.readerOf s.act.entry) s.tag s l = (s2, x) → x ≠ .wait →
    let got := p.got ++ [(l, x.kept)]
    (rest ≠ [] → CoreBecomes s2 t (s2.core.setQueue s2.eng { s2.q with
      act := some { s2.act with part := some { p with todo := rest, got := got }, fresh := false } }))
    ∧ (rest = [] → ends s2 got)

/-- R192: a repetition writes the next of its rows, each in a turn of its own, a vector store behind the loads that still owe that
row (R157); with the last one it goes on as `ends` says. -/
def Sys2Proof.Claims.WriteTurn (s t : State) (p : RepPart) (ends : State → Prop) : Prop :=
  (p.put = [] → ends s)
  ∧ ∀ l d m rest, p.put = (l, d, m) :: rest → s.rowsMoving [l] = false → (s.eng = .v → s.loadPending [l] = false) →
    let u := (s.writeLoc l d m).1
    RowWritten s u l d m
    ∧ (rest ≠ [] → CoreBecomes u t (u.core.setQueue u.eng { u.q with
        act := some { u.act with part := some { p with put := rest }, fresh := false } }))
    ∧ (rest = [] → ends u)

/-- R131, R153: a repetition of a load from the core's own vault reads its rows, and lands with the last one. -/
def Sys2Proof.Claims.LoadTurn (s t : State) (o : VWord) (n : Nat) (p : RepPart) : Prop :=
  ReadTurn s t p (fun u got => LoadLands u t o n s.act.rep p got)

/-- R152 to R154, R156: a repetition of `vld` or `vgath` whose lanes resolve. From the core's own vault it reads row by row,
behind the loads that still owe one of its rows; otherwise it goes on its way, and each VECTOR_LOAD_RETURN reads one of its
rows, loads that name one row in the order of their issue; with the last row the load lands. -/
def Obligations.VectorLoads : Prop :=
  ∀ (s s2 : State) (a : Active) (o : VWord) (ls : List LaneLoc) (i j k : Nat) (x : VLoad) (p : RepPart) (l : Loc)
    (z : RowRead),
    let s1 := s.readTables o
    let wk := walkOf s1.act.wrec
    let e := tyLanes o.ty
    let w := tyBits o.ty
    let r := a.rep
    (s.q.act = some a → a.part = none → walkUsable s1.act.wrec = true → s1.vecDescOk o s1.act.data false = true → wk.kind = 0 →
      ∀ y ∈ [(Instr.vld o, ([] : List Nat), e, wk.group e r 0),
             (.vgath o, [o.rA r], 32, wk.indexed r (s.core.vregAt i (o.rA r)))],
        (y.1 = .vld o → (wk.groupLen e r).isSome = true) →
        let last := if r = o.rc.toNat ∧ o.mask.toNat ≠ 0 then [o.mask.toNat] else []
        let rows := laneRows ls
        s1.core.vIssue s1.tag a.entry.schk { reads := y.2.1, writes := [o.rD r], lat := 12, writeM := last } s1.issueAt = .at_ i →
        s1.resolveLanes .v s1.act.data false [] y.2.2.2 = .ok ls →
        (s1.ownRows rows = true → s1.loadPending rows = true → ∃ t, exec y.1 s = .next t ∧ CoreBecomes s1 t
          (s1.core.setQueue s1.eng { s1.q with act := some { s1.act with fresh := true, waitFlag := none } }))
        ∧ (s1.ownRows rows = true → s1.loadPending rows = false → ∃ t conv, exec y.1 s = .next t
          ∧ LoadTurn (s1.noteGroup (some .v) rows) t o y.2.2.1 { at_ := i, lanes := ls, todo := rows, conv := conv })
        ∧ (s1.ownRows rows = false →
          ∃ t u v, exec y.1 s = .next t ∧ RepGoesOn u t i 1 i o.rc o.sc.toNat ∧ u.core.vloads = s1.core.vloads ++ [v]
            ∧ v.reg = o.rD r ∧ v.lanes = ls ∧ v.width = w ∧ v.tag = s1.tag ∧ v.got = [] ∧ SameBytes s1 u))
    ∧ (s.q.act = some a → a.part = some p →
      (∃ t, exec (.vld o) s = .next t ∧ LoadTurn s t o e p) ∧ ∃ t, exec (.vgath o) s = .next t ∧ LoadTurn s t o 32 p)
    ∧ (Serves s → s.core.vloads[j]? = some x → s.core.owedRows[k]? = some (j, none) →
      ∃ t, exec (.vectorLoadReturn s.cur k) s = .next t ∧ OnlyCore s t ∧ t.core.vloads = s.core.vloads.eraseIdx j)
    ∧ (Serves s → s.core.vloads[j]? = some x → s.core.owedRows[k]? = some (j, some l) →
      (owesRow (s.core.vloads.take j) [l] = true → exec (.vectorLoadReturn s.cur k) s = .next s)
      ∧ (owesRow (s.core.vloads.take j) [l] = false → z ≠ .wait → s2.ctx = s.ctx → s2.cur = s.cur →
        engRow ({ s with eng := .v }.readerOf (s.core.qv.entryOf x.tag.seq)) x.tag s l = (s2, z) →
        let got := x.got ++ [(l, z.kept)]
        ((∃ m ∈ laneRows x.lanes, ∀ y ∈ got, y.1 ≠ m) → ∃ t, exec (.vectorLoadReturn s.cur k) s = .next t
          ∧ CoreBecomes s2 t { s2.core with vloads := s2.core.vloads.set j { x with got := got } })
        ∧ ((∀ m ∈ laneRows x.lanes, ∃ y ∈ got, y.1 = m) → ∃ t, exec (.vectorLoadReturn s.cur k) s = .next t
          ∧ OnlyCore s2 t ∧ t.core.vloads = s2.core.vloads.eraseIdx j ∧ SMap.get 0 t.core.loadedAt x.reg = s2.now
          ∧ { reg := x.reg, land := s2.now, data := lanesRow x.width x.lanes (keptRows got), mask := x.mask } ∈ t.core.pendV
          ∧ t.core.pc = s2.core.pc ∧ ∀ d : Reg, t.core.rd d = s2.core.rd d)))

/-- R155, R157: a repetition of a store writes its rows; with the last one, or with no active lane, it is done. -/
def Sys2Proof.Claims.StoreTurn (s t : State) (o : VWord) (p : RepPart) : Prop :=
  p.fault = none → WriteTurn s t p (fun u =>
    let i := max p.at_ u.issueAt
    RepGoesOn (u.setCore ((u.core.settle i).dropFar u.tag)) t i 1 i o.rc o.sc.toNat)

/-- R152, R155 to R157: a repetition of `vst` or `vscat` stores the elements of its active lanes, row by row; a `vst` whose bit of
ROWMASK is 0 stores none. -/
def Obligations.VectorStores : Prop :=
  ∀ (s : State) (a : Active) (o : VWord) (ls : List LaneLoc) (i : Nat) (p : RepPart),
    let s1 := s.readTables o
    let wk := walkOf s1.act.wrec
    let e := tyLanes o.ty
    let r := a.rep
    let m := s1.core.maskAt i o.mask.toNat
    s.q.act = some a → s.eng = .v →
    (a.part = none → walkUsable s1.act.wrec = true → s1.vecDescOk o s1.act.data true = true → wk.kind = 0 →
      ∀ y ∈ [(Instr.vst o, ([] : List Nat), (wk.group e r 0).filter (fun x => a.entry.rowmask.getLsbD (r % 32)
                && decide (x.1 < e) && m.getLsbD x.1)),
             (.vscat o, [o.rA r], (wk.indexed r (s1.core.vregAt i (o.rA r))).filter (fun x => m.getLsbD x.1))],
        (y.1 = .vst o → (wk.groupLen e r).isSome = true) →
        s1.core.vIssue s1.tag a.entry.schk { reads := o.rD r :: y.2.1, readM := [o.mask.toNat], lat := 0 } s1.issueAt = .at_ i →
        s1.resolveLanes .v s1.act.data true [] y.2.2 = .ok ls →
        ∃ t conv, exec y.1 s = .next t ∧ StoreTurn (s1.noteGroup (some .v) (laneRows ls)) t o
          { at_ := i, conv := conv, put := laneWrites (lane (tyBits o.ty) (s1.core.vregAt i (o.rD r))) ls })
    ∧ (a.part = some p →
      (∃ t, exec (.vst o) s = .next t ∧ StoreTurn s t o p) ∧ ∃ t, exec (.vscat o) s = .next t ∧ StoreTurn s t o p)

/-- R161, R166, R228: `vpop` takes the oldest 128-byte element of an inbound stream into D, `vpush` appends a register to an
outbound one, and `vacc` rounds 32 cells of a bank row that no earlier write is in flight for. -/
def Obligations.VectorStreamsAndBanks : Prop :=
  ∀ (s s1 : State) (a : Active) (o : VWord) (i : Nat) (e : Row) (rest : List Row) (row : AccRow),
    let r := a.rep
    let d := o.rD r
    let w := tyBits o.ty
    let m := s.core.maskAt i o.mask.toNat
    s.q.act = some a →
    (let ch := s.core.channel o.a.toNat
     s.core.vIssue s.tag a.entry.schk { readM := [o.mask.toNat], writes := [d], lat := 0 } s.issueAt = .at_ i →
     ch.mode = .stream → ch.esz = 2 → ch.fifo = e :: rest →
      ∃ t, exec (.vpop o) s = .next t ∧ RepGoesOn (s.setCore (((s.core.setChannel o.a.toNat { ch with fifo := rest }).settle
        i).put i { regs := [(d, e, m)] })) t i 1 i o.rc o.sc.toNat)
    ∧ (let ch := s.core.channel o.d.toNat
       s.core.vIssue s.tag a.entry.schk { reads := [o.rA r], lat := 0 } s.issueAt = .at_ i →
       ch.mode = .stream → ch.esz = 2 → ch.fifo.length < 16 →
      -- the elements that a copy fill has brought in this cycle, or in a later one, stay behind the pushed one
      let n := if i ≤ ch.late.1 then min ch.late.2 ch.fifo.length else 0
      let k := ch.fifo.length - n
      ∃ t, exec (.vpush o) s = .next t ∧ RepGoesOn (s.setCore { (s.core.setChannel o.d.toNat
        { ch with fifo := ch.fifo.take k ++ [s.core.vregAt i (o.rA r)] ++ ch.fifo.drop k,
                  late := if i ≤ ch.late.1 then ch.late else (0, 0) }).settle i with latch := true }) t i 1 i o.rc o.sc.toNat)
    ∧ (let seg := 8 * o.b.toNat + r
       (r = 0 → s.bankUsable o.a.toNat = true) →
       s.core.vIssue s.tag a.entry.schk { readM := [o.mask.toNat], writes := [d], lat := 6 } s.issueAt = .at_ i →
       s.accRead o.a.toNat (seg / 4) i a.entry.stamp a.entry.schk = .value s1 row →
      let m := s1.core.maskAt i o.mask.toNat
      ∃ t data mask, exec (.vacc o) s = .next t
        ∧ RepGoesOn (s1.setCore ((s1.core.settle i).put (i + 6) { regs := [(d, data, mask)] })) t i 1 (i + 6) o.rc o.sc.toNat
        ∧ (∀ b, b < 128 → mask.getLsbD b = (decide (b / (w / 8) < 32) && m.getLsbD (b / (w / 8))))
        ∧ ∀ j, j < 32 → m.getLsbD j = true →
            let cell := accCell row (32 * (seg % 4) + j)
            lane w data j = (if o.ty = 0 then cell else o.fmt.roundTo rne (Fmt.value .f32 cell)) % 2 ^ w)

/-! ## The matrix array -/

/-- R217, R224 to R227, R232, R235: the lease of a quad's array, `mlease`, `mcommit`, `mlend`, `mrecl` and `mzero`. -/
def Obligations.MatrixControl : Prop :=
  ∀ (s : State) (a : Active) (quad k : Nat) (n : Ix6) (bank core : BitVec 2) (sc : BitVec 4),
    let i := s.issueAt
    let j := bank.toNat
    let qd := s.arrayOf s.cur
    let q := s.quad qd
    let own := s.cur % 4
    (∀ m c, (s.quad quad).holder = none → s.coreOfQuad quad k = some (m, c) → s.requests quad k = true → k < 4 →
      (∀ d, 1 ≤ d → d ≤ 4 → ((s.quad quad).lastHolder + d) % 4 = k →
        ∀ f, 1 ≤ f → f < d → s.requests quad (((s.quad quad).lastHolder + f) % 4) = false) →
      ∃ t, exec (.leaseGrant quad) s = .next t ∧ t = { s with quads := t.quads } ∧ (t.quad quad).holder = some k
        ∧ (t.quad quad).lastHolder = k ∧ (t.quad quad).grantAt = s.now
        ∧ (∀ b, c.qm.act = some b → (t.quad quad).left = b.entry.lrun) ∧ (t.quad quad).lent = (s.quad quad).lent
        ∧ ∀ p, p ≠ quad → t.quad p = s.quad p)
    ∧ (∀ h m c r, (s.quad quad).holder = some h → s.coreOfQuad quad h = some (m, c) → r < 4 → r ≠ h →
      s.requests quad r = true → (s.quad quad).grantAt + s.setting 0x824 ≤ s.now →
      c.qm.lastIssue + 1 + s.setting 0x824 ≤ s.now →
      ∃ t, exec (.lstallPass quad) s = .next t ∧ t = { s with quads := t.quads }
        ∧ t.quad quad = { s.quad quad with holder := none } ∧ ∀ p, p ≠ quad → t.quad p = s.quad p)
    ∧ (s.q.act = some a → s.eng = .m →
      (s.holdsArray = true → ∃ t, exec (.mlease n sc) s = .next t
        ∧ RepGoesOn (s.setCore { s.core with pinned := n.toNat + 1 }) t i 1 i 0 sc.toNat)
      ∧ (s.inStream = true ∨ a.inner ≠ none → s.core.batchLo ≤ a.entry.seq → s.core.openBatches.length < 63 →
        ∃ t, exec (.mcommit sc) s = .next t ∧ RepGoesOn (s.setCore { s.core with
          batches := s.core.openBatches ++ [(s.core.batchLo, a.entry.seq)], batchLo := a.entry.seq + 1 }) t i 1 i 0 sc.toNat)
      ∧ (s.inStream = false → a.inner = none → ∃ t, exec (.mcommit sc) s = .next t ∧ RepGoesOn s t i 1 i 0 sc.toNat)
      ∧ (j = own → core.toNat ≠ own → s.entrySpans (4 * quadOf s.cur + core.toNat) = true → q.lentTo j = none →
        s.landEarlier.earlierNames j = false → ∃ t u at_, exec (.mlend bank core sc) s = .next t
          ∧ RepGoesOn u t at_ 1 at_ 0 sc.toNat ∧ u = { s.landEarlier with quads := u.quads }
          ∧ at_ = max s.landEarlier.issueNow (lastSnap (s.landEarlier.bankHistory j)).at_
          ∧ (u.quad qd).lentTo j = some core.toNat ∧ (∀ b, b ≠ j → (u.quad qd).lentTo b = q.lentTo b)
          ∧ ∀ p, p ≠ qd → u.quad p = s.quad p)
      ∧ (∀ b, j = own → q.lentTo j = some b → s.borrowerBusy (4 * quadOf s.cur + b) j i = false →
        ∃ t u, exec (.mrecl bank sc) s = .next t ∧ RepGoesOn u t i 1 i 0 sc.toNat ∧ u = { s with quads := u.quads }
          ∧ (u.quad qd).lentTo j = none ∧ (∀ b, b ≠ j → (u.quad qd).lentTo b = q.lentTo b)
          ∧ ∀ p, p ≠ qd → u.quad p = s.quad p)
      ∧ (j = own → q.lentTo j = none → s.core.loanLent = none →
        ∃ t, exec (.mrecl bank sc) s = .next t ∧ RepGoesOn s t i 1 i 0 sc.toNat)
      ∧ (∀ b, j = own → q.lentTo j = none → s.core.loanLent = some b → b ≠ own →
        ∃ t u, exec (.mrecl bank sc) s = .next t ∧ RepGoesOn u t i 1 i 0 sc.toNat ∧ u = { s with cores := u.cores }
          ∧ u.core = { s.core with loanLent := none }
          ∧ ∀ x, x ∈ (u.coreAt s.ctx (4 * quadOf s.cur + b)).loanBorrowed ↔
              x ∈ (s.coreAt s.ctx (4 * quadOf s.cur + b)).loanBorrowed ∧ x ≠ j)
      ∧ (s.bankUsable j = true → s.bankLoading j = false → ∃ t u, exec (.mzero bank sc) s = .next t
        ∧ RepGoesOn u t i 1 (i + 8) 0 sc.toNat ∧ u = { s with cores := u.cores }
        ∧ i + 8 ≤ (lastSnap (u.bankHistory j)).at_ ∧ ∀ r, (lastSnap (u.bankHistory j)).row r = 0)
      ∧ (s.bankUsable j = false → s.q.stopped = none →
        ∃ t, exec (.mzero bank sc) s = .next t ∧ QueueStops s t .m a.entry 0x18 { count := a.rep }))

/-- R38, R39, R231: a step adds to each cell the exact sum of its terms, rounded once; a cell without terms stays. -/
def Sys2Proof.Claims.AccumulatorSteps : Prop :=
  ∀ (rows : SMap (BitVec 4096)) (ma nb : Nat) (f : Nat → Nat → List Val) (i n : Nat), n < 128 →
    accCell (SMap.get 0 (stepRows rows ma nb f) i) n =
      if i < ma ∧ n < nb ∧ f i n ≠ [] then
        exactSum .f32 rne (Fmt.value .f32 (accCell (SMap.get 0 rows i) n) :: f i n) % 2 ^ 32
      else accCell (SMap.get 0 rows i) n

/-- R31, R38, R221, R222, R231: the operands of chunk kc of an `mma` have been read, with the state then v: the chunk applies its
steps to the bank, uses its scale rows, holds the array for its cycles, and counts against the run with the word's last
chunk. -/
def Sys2Proof.Claims.ChunkApplied (v t : State) (j kc : Nat) (p : RepPart) (got : List (Loc × Option Row)) (rc : BitVec 10)
    (sc : Nat) : Prop :=
  let ta := tensorOf (v.act.caps.headD {}).img
  let tb := tensorOf (v.act.caps.getD 1 {}).img
  let ks := chunkPositions kc ta.d0
  let n := scaleRows ta.fmt
  let c := ta.chunkCycles
  let w := (ta.storedOf kc).length
  let qd := v.arrayOf v.cur
  let i := max (max p.at_ v.issueAt) (v.quad qd).busyTo
  let vals := p.lanes.map (fun x => gatherBits (got.map (fun y => (y.1, y.2.getD 0))) x.parts)
  let as := vals.take (w * ta.d1)
  let rest := vals.drop (w * ta.d1)
  let ends := if v.act.rep < rc.toNat then 0 else 1
  ∃ u, RepGoesOn u t i c (i + c + 12) rc sc
    ∧ (∀ r, (lastSnap (u.bankHistory j)).row r = SMap.get 0
        ((if ta.nsel = 0 then chunkTerms ta tb ks kc as rest (v.core.sqa.take n) (v.core.sqb.take n)
          else sparseTerms ta kc (fun x y => (ta.fmt.value (pick as w x y), pick (rest.take (w * ta.d1)) w x y))
            (fun x k => tb.fmt.value (pick (rest.drop (w * ta.d1)) ks.length x (k - 32 * kc)))).foldl
          (fun m f => stepRows m ta.d1 tb.d0 f) (lastSnap (v.bankHistory j)).rows) r)
    ∧ (0 < c → i + c + 12 ≤ (lastSnap (u.bankHistory j)).at_)
    ∧ u.core.sqa = v.core.sqa.drop n ∧ u.core.sqb = v.core.sqb.drop n ∧ u.core.pinned = v.core.pinned - ends
    ∧ (u.quad qd).busyTo = i + c ∧ (u.quad qd).left = (v.quad qd).left - ends ∧ SameBytes v u

/-- R222, R228, R233, R236: the bias of a repetition of an `mdrn` has been read, with the state then v: its bank rows are read in
its cycle, and its tensor rows are written. -/
def Sys2Proof.Claims.DrainBegins (v t : State) (j ep row0 : Nat) (p : RepPart) (got : List (Loc × Option Row)) (rc : BitVec 10)
    (sc : Nat) : Prop :=
  let cap := v.act.caps.headD {}
  let td := tensorOf cap.img
  let i := max p.at_ v.issueAt
  let bias := fun (n : Nat) => ((p.lanes.find? (fun x => x.lane == n)).bind (fun x => x.value (keptRows got))).getD 0
  ∀ v1 vals put, v.drainBank j i (drainRows row0 v.act.rep td.d1 v.act.entry.rowmask) = .ok (v1, vals) →
    v1.drainWrites cap (min 128 td.d0) (fun _ x n => drainCell ep td.fmt (accCell x n) (bias n)) vals = .ok (put, none) →
    ∃ q : RepPart, q.at_ = i ∧ q.put = put ∧ WriteTurn v1 t q (fun u => RepGoesOn u t i 8 (i + 8) rc sc)

/-- R222, R234: the source rows of a bank row of an `mldacc` have been read, with the state then v: the bank row arrives. -/
def Sys2Proof.Claims.BankRowArrives (v t : State) (m : MldRow) (rest : List MldRow) (got : List (Loc × Option Row)) : Prop :=
  let old := lastSnap (v.bankHistory m.bank)
  t.core.mrows = rest ∧ SameBytes v t ∧ v.now ≤ (lastSnap (t.bankHistory m.bank)).at_
    ∧ ∀ r, (lastSnap (t.bankHistory m.bank)).row r =
        if r = m.row then m.arrive (old.row m.row) (keptRows got) else old.row r

/-- R218 to R223, R230 to R234: a chunk of an `mma` reads the rows of its operands and is applied; a repetition of an `mdrn`
reads the rows of its bias and its bank rows, and writes its tensor rows; `mldacc` sends its rows for, and MLDACC_ROW_ARRIVAL
reads their source rows and writes them into the bank. -/
def Sys2Proof.Claims.MatrixWords : Prop :=
  ∀ (s s2 : State) (a : Active) (bank : BitVec 2) (tA tB tD : Ix6) (k0 : BitVec 12) (ep sc : BitVec 4) (row0 : BitVec 7)
    (rc : BitVec 10) (pa pb : List (List Bits)) (ra rb : List Loc) (m : MldRow) (rest ms : List MldRow) (p : RepPart)
    (ls : List LaneLoc) (l : Loc) (more : List Loc) (z : RowRead),
    let j := bank.toNat
    let kc := k0.toNat + a.rep
    (s.q.act = some a → s.eng = .m →
      (let caps := if a.rep = 0 then [s.core.cap tA.toNat, s.core.cap tB.toNat] else a.caps
       let s1 := s.setAct { a with caps := caps }
       let ca := caps.headD {}
       let cb := caps.getD 1 {}
       let ta := tensorOf ca.img
       let tb := tensorOf cb.img
       let n := scaleRows ta.fmt
       let ks := chunkPositions kc ta.d0
       a.part = none → (a.rep = 0 → s.bankUsable j = true ∧ s.mmaOk ca cb = true) → 32 * kc < ta.d0 →
       s.holdsArray = true → s.bankLoading j = false →
       n ≤ s.core.sqa.length → n ≤ s.core.sqb.length → zeroPoint tb (s.core.sqb.take n) = false →
       (if ta.nsel = 0 then s1.locateAll ca ((List.range ta.d1).flatMap (fun x => ks.map (fun k => ((k + ta.d0 * x : Nat) : Int))))
        else s1.locateSparse ca kc) = .ok pa ra →
       s1.locateAll cb ((List.range tb.d0).flatMap (fun x => ks.map (fun k => ((x + tb.d0 * k : Nat) : Int)))) = .ok pb rb →
       s1.violations .m s1.q.phases (s1.entryDet a.entry) false (ra ++ rb) = none → s1.rowsHeld (pa ++ pb).flatten = true →
       ∃ t u q, exec (.mma bank tA tB k0 sc rc) s = .next t ∧ u = { s1 with ring := u.ring }
        ∧ q.at_ = s1.issueAt ∧ q.todo = rowsOf (pa ++ pb).flatten ∧ q.got = [] ∧ q.lanes.map (fun x => x.parts) = pa ++ pb
        ∧ ReadTurn u t q (fun v got => ChunkApplied v t j kc q got rc sc.toNat))
      ∧ (a.part = some p → ∃ t, exec (.mma bank tA tB k0 sc rc) s = .next t
        ∧ ReadTurn s t p (fun v got => ChunkApplied v t j kc p got rc sc.toNat))
      ∧ (let d := s.core.cap tD.toNat
         let caps := if a.rep = 0 then [d, s.core.cap ((tensorOf d.img).aux % 64)] else a.caps
         let s1 := s.setAct { a with caps := caps }
         let cap := caps.headD {}
         let cols := min 128 (tensorOf cap.img).d0
         a.part = none →
         (a.rep = 0 → s.bankUsable j = true ∧ s.drainOk cap [.f32, .f16, .b16, .e4, .e5, .i32, .i16, .i8] = true
           ∧ (ep = 2 → s.biasOk (caps.getD 1 {}) cols = true)) →
         (if ep = 2 then s1.resolveLanes .m (caps.getD 1 {}) false []
            ((List.range cols).map (fun n => (n, Pos.at_ ((n : Nat) : Int)))) else .ok []) = .ok ls →
         ∃ t q, exec (.mdrn bank tD ep row0 sc rc) s = .next t ∧ q.at_ = s1.issueAt ∧ q.lanes = ls ∧ q.todo = laneRows ls
          ∧ q.got = [] ∧ ReadTurn s1 t q (fun v got => DrainBegins v t j ep.toNat row0.toNat q got rc sc.toNat))
      ∧ (a.part = some p → ∃ t, exec (.mdrn bank tD ep row0 sc rc) s = .next t
        ∧ (p.put = [] → ReadTurn s t p (fun v got => DrainBegins v t j ep.toNat row0.toNat p got rc sc.toNat))
        ∧ (p.put ≠ [] → p.fault = none → WriteTurn s t p (fun u => RepGoesOn u t p.at_ 8 (p.at_ + 8) rc sc.toNat)))
      ∧ (let cap := if a.rep = 0 then s.core.cap tD.toNat else a.caps.headD {}
         let td := tensorOf cap.img
         let s1 := s.setAct { a with caps := [cap] }
         (a.rep = 0 → s.bankUsable j = true ∧ s.drainOk cap [.f32, .f16, .b16] = true) →
         s1.startRows j cap (min 128 td.d0) (drainRows row0.toNat a.rep td.d1 0xFFFFFFFF) = .ok ms →
         ∃ t, exec (.mldacc bank tD row0 sc rc) s = .next t
          ∧ RepGoesOn (s1.setCore { s1.core with mrows := s1.core.mrows ++ ms }) t s1.issueAt 8 s1.issueAt rc sc.toNat
          ∧ SameBytes s t))
    ∧ (Serves s → s.core.mrows = m :: rest → m.owed = [] →
      ∃ t, exec (.mldaccRowArrival s.cur) s = .next t ∧ BankRowArrives s t m rest m.got)
    ∧ (Serves s → s.core.mrows = m :: rest → m.owed = l :: more → State.sourceRow m rest s l = (s2, z) → z ≠ .wait →
      s2.ctx = s.ctx → s2.cur = s.cur →
      let got := m.got ++ [(l, z.kept)]
      ∃ t, exec (.mldaccRowArrival s.cur) s = .next t
        ∧ (more ≠ [] → CoreBecomes s2 t { s2.core with mrows := { m with got := got } :: rest })
        ∧ (more = [] → BankRowArrives s2 t m rest got))

/-- R219 to R235: the numbers of the matrix engine, and its words. -/
def Obligations.MatrixAndAccumulator : Prop := AccumulatorSteps ∧ MatrixWords

/-! ## The copy engine -/

/-- R175, R181 to R188, R245: a copy word whose command keeps its rules makes it once, marks the pages of its destination dirty and
claims it; with the claim the command is accepted, at most eight at a time, and goes in flight, and while the claim waits the
word holds its command; `cbind` and `cwmk` change their channel. -/
def Obligations.CopyWords : Prop :=
  ∀ (s s2 : State) (a : Active) (o : CWord) (k : BitVec 3) (k8 : BitVec 8) (ws wd : BitVec 5) (q out : BitVec 1)
    (esz : BitVec 2) (sc : BitVec 4) (rc n : BitVec 10) (w : EWord) (fifo : Nat) (ra rb : Loc) (len : Nat) (x : CopyCmd),
    let i := s.issueAt
    let nm := s.nameChannel (some k.toNat)
    let words := [(Instr.ccpy o, o.sc), (.ccvt o k, o.sc), (.cxpd o, o.sc), (.cfilb o, o.sc), (.cgath o, o.sc), (.cscat o, o.sc),
                  (.cred o k, o.sc), (.cmcst o k8, o.sc), (.cscl ws q sc rc, sc), (.czero wd k sc rc, sc)]
    let held := fun (u t : State) => CoreBecomes u t
      (u.core.setQueue u.eng { u.q with act := some { u.act with fresh := true, waitFlag := none } })
    let accepted := fun (u t : State) (y : CopyCmd) (c : BitVec 4) =>
      let v := u.nameChannel (wordChannel y.word)
      WordGoesOn (v.setCore { v.core with copies := v.core.copies ++ [y] }) t u.issueAt u.issueAt c.toNat u.issueAt
    s.q.act = some a → s.eng = .c →
    (a.cmd = none → a.word = some w → s.core.copies.length < 8 → s.streamSide w = some fifo →
      let y := s.newCommand w fifo
      let h := (s.holdCommand y).markDirty y
      s.commandOk y = true → ∀ p ∈ words,
        (h.claimDest y = .ok s2 → ∃ t, exec p.1 s = .next t ∧ accepted s2 t y p.2)
        ∧ (h.claimDest y = .wait s2 → ∃ t, exec p.1 s = .next t ∧ held s2 t))
    ∧ (a.cmd = some x → ∀ p ∈ (Instr.cdsp o k, o.sc) :: words,
        (s.claimDest x = .ok s2 → ∃ t, exec p.1 s = .next t ∧ accepted s2 t x p.2)
        ∧ (s.claimDest x = .wait s2 → ∃ t, exec p.1 s = .next t ∧ held s2 t))
    ∧ (∀ s1 v ps, a.cmd = none → a.word = some w → s.core.copies.length < 8 →
      let y0 := s.newCommand w 0
      let y := { y0 with wlen := y0.ws.c1 * y0.ws.c2 * y0.ws.c3 }
      let d := BitVec.ofNat 512 v
      s.dispatchOk y = true → s.tableParts y 0 64 = some ps →
      s.readParts (engRow (s.readerOf a.entry) s.tag) y ps = (s1, .bits v) → headerOk d y.ws.c0 = true →
      (y.wd.at_ 0 0 0).toNat + 64 + 32 * hdExperts d ≤ y.td.count →
      let z := { y with header := d }
      let h := ((s1.setCore (s1.core.dropFar y.tag)).holdCommand z).markDirty z
      h.claimDest z = .ok s2 → ∃ t, exec (.cdsp o k) s = .next t ∧ accepted s2 t z o.sc)
    ∧ (a.cmd = none → 8 ≤ s.core.copies.length → ∀ p ∈ (Instr.cdsp o k, o.sc) :: words,
        ∃ t, exec p.1 s = .next t ∧ held s t)
    ∧ (s.core.channelBusy k.toNat = false →
      let goes := fun (i0 : Instr) (c : Channel) => ∃ t b, exec i0 s = .next t
        ∧ WordGoesOn (nm.setCore { nm.core.setChannel k.toNat c with latch := b }) t i i sc.toNat i
      goes (.cbindOff k sc) {}
      ∧ goes (.cbindStream k out esz sc) { mode := .stream, out := out.toNat == 1, esz := esz }
      ∧ (walkUsable (s.core.walk wd.toNat) = true →
        let cap := s.core.cap (walkOf (s.core.walk wd.toNat)).tix
        (s.view s.ctx cap).usable (tensorOf cap.img) = true →
        s.rangeRows (walkOf (s.core.walk wd.toNat)) cap = .ok (ra, rb) → rangeLen ra rb = some len →
        goes (.cbindRange k wd sc) { mode := .range, first := ra, len := len }))
    ∧ (s.core.channelBusy k.toNat = true → ∀ p ∈ [Instr.cbindOff k sc, .cbindStream k out esz sc, .cbindRange k wd sc],
        ∃ t, exec p s = .next t ∧ held s t)
    ∧ (let c := s.core.channel k.toNat
       c.mode = .range → ∃ t b y, exec (.cwmk k n sc) s = .next t
        ∧ WordGoesOn (nm.setCore { nm.core.setChannel k.toNat y with latch := b }) t i i sc.toNat i
        ∧ y = { c with wm := y.wm, marks := y.marks } ∧ min (c.wm + n.toNat) c.len ≤ y.wm
        ∧ ∀ m, m ∈ c.marks → y.wm ≤ m → m ∈ y.marks)
    ∧ ((s.core.channel k.toNat).mode ≠ .range → s.q.stopped = none →
      ∃ t, exec (.cwmk k n sc) s = .next t ∧ QueueStops s t .c a.entry 0x02 {})

/-- R176 to R178, R182, R192: ROW_TRANSFER. A run of positions that falls into one row of this package is read, its row's bits
take their values and every other bit of memory stays, and the positions are complete; a command whose positions have been
read writes one of their rows, and is done with them after the last. -/
def Obligations.RowTransfers : Prop :=
  ∀ (s s1 s2 : State) (k g : Nat) (x : CopyCmd) (b : Batch) (l : Loc) (p : Spot) (pd : CopyPend) (data bytes ones : Nat),
    let rd := copyReader x (s.readerOf x.entry)
    let base := p.addr / 128 * 128
    let row := fun (t : State) (data bytes ones : Nat) =>
      (∀ j, j < 128 → readByte (t.space p.vault) (base + j) =
        if bytes.testBit j then
          (BitVec.ofNat 1024 (data ||| ((s2.rowAt p).toNat &&& (2 ^ 1024 - 1 - ones)))).extractLsb' (8 * j) 8
        else readByte (s2.space p.vault) (base + j))
      ∧ ∀ v a, (v = p.vault → a < base ∨ base + 128 ≤ a) → readByte (t.space v) a = readByte (s2.space v) a
    let ends := fun (t : State) (gs : List Nat) => ∃ y : CopyCmd, y.word = x.word ∧ y.pend = none
      ∧ (∀ h ∈ gs, y.isDone h = true) ∧ (y.finished = false → y ∈ t.core.copies)
    Engines s → s.eng = .c → s.core.copies[k]? = some x → s.core.copyStopped x = false → x.op ≠ opCdsp →
    (∀ (j : Nat) (z : CopyCmd), s.core.copies[j]? = some z → z.tag = x.tag → j = k) → (∀ z ∈ x.away, z.1 ≠ []) →
    (x.pend = none → x.isMoved g = false → g < x.total → x.op ≠ opCscl → x.op ≠ opCred → x.op ≠ opCmcst →
      x.asksMulticast = false → x.fifo ≠ 1 → (x.op = opCcvt → x.td.fmt.isBx = false) → s.mustFollow k g g x = false →
      s.gather rd k g x (x.wlen - g % x.wlen) g {} = .ok s1 b → b.rows = [l] → s1.ctx = s.ctx → s1.cur = s.cur →
      s1.violations .c x.fps (s1.entryDet x.entry) true [l] = none → s1.resolve s1.ctx s1.cur l true = (s2, .spot p) →
      let m := mergeParts l b.els
      ∃ t, exec (.rowTransfer s.cur k g) s = .next t ∧ row t m.1 m.2.1 m.2.2 ∧ ends t b.gs)
    ∧ (x.pend = some pd → pd.rows[g % pd.rows.length]? = some (l, data, bytes, ones) →
      s.resolve s.ctx s.cur l true = (s2, .spot p) → s2.ctx = s.ctx → s2.cur = s.cur →
      ∃ t, exec (.rowTransfer s.cur k g) s = .next t ∧ row t data bytes ones
        ∧ (1 < pd.rows.length → ∃ y ∈ t.core.copies, y.word = x.word ∧ y.away = x.away ∧ ∃ r, y.pend = some r
            ∧ r.gs = pd.gs ∧ r.ids = pd.ids ∧ r.rows = pd.rows.eraseIdx (g % pd.rows.length))
        ∧ (pd.rows.length = 1 → pd.ids = [] → pd.gs ≠ [] → ends t pd.gs))

/-! ## Launches and tasks -/

/-- R12, R250, R260, R263, R265 to R267, R294 to R299, R313: `dlaunch` gives a launch its number; LAUNCH_ADMIT reads a record and
admits a valid launch to the shadow banks of its span; LAUNCH_START gives a core its state at launch start; BURNISH works on one
tile that is not kept, and forms the error metric after the last; LAUNCH_RETIRE ends a launch, unless a live update holds it
back. -/
def Obligations.Launches : Prop :=
  ∀ (s s1 s2 : State) (d a : Reg) (l n p ctx : Nat) (x y : Launch) (v : Nat) (pre : List (Nat × Bool × Option Nat × BitVec 512)),
    (s.deviceBuilt s.ctx < 16 → s.storesDone 3 = true →
      ∃ t z, exec (.dlaunch d a) s = .next t ∧ t.launches = s.launches ++ [z] ∧ z.number = (s.context s.ctx).nextLaunch
        ∧ z.addr = s.core.rd a ∧ z.parent = some (s.core.launch.getD 0) ∧ z.read = false ∧ z.admitted = false
        ∧ (t.context s.ctx).nextLaunch = (s.context s.ctx).nextLaunch + 1
        ∧ t.core = regSet s.core d (BitVec.ofNat 64 (s.context s.ctx).nextLaunch) 4 ∧ SameBytes s t)
    ∧ (s.launchAt l = some x → x.read = false → (s1.launchAt l).isSome = true →
      s.feRead x.ctx (x.addr.toNat / 256 * 256) 256 = (s1, .ok v) →
      ∃ t z, exec (.launchAdmit l) s = .next t ∧ t.launchAt l = some z ∧ z.read = true ∧ z.oprec = BitVec.ofNat 2048 v
        ∧ SameBytes s1 t)
    ∧ (s.launchAt l = some x → x.read = true → s.admissible x = true → s.outranked x = false → (s1.launchAt l).isSome = true →
      (s.validate x = (s1, none) →
        ∃ t z, exec (.launchAdmit l) s = .next t ∧ t.launchAt l = some z ∧ z.error = some 2 ∧ z.admitted = true)
      ∧ (s.validate x = (s1, some y) → s1.growAll y y.quads = some s2 → (s2.launchAt l).isSome = true → y.spans n = true →
        n < 256 → ∃ t z, exec (.launchAdmit l) s = .next t ∧ t.launchAt l = some z ∧ z.admitted = true ∧ z.oprec = y.oprec
          ∧ (t.coreAt y.ctx n).shadow = some l))
    ∧ (∀ z, s.startsFor n = some ctx → s.physOf n = some p → s.shadowFor ctx n = some l → s.launchAt l = some x →
      x.retired = false → x.error = none → s.mayStart n (s.coreAt ctx n) x = true →
      let first := !x.begun
      (if first then s.startChecks x else (s, some x)) = (s1, some z) →
      s1.fillPreloads z (if first then z.preloads else []) = (s2, pre) → ((s2.takeCore ctx n p).launchAt l).isSome = true →
      ∃ t w, exec (.launchStart n) s = .next t ∧ t.launchAt l = some w ∧ w.started = z.started ++ [n] ∧ w.begun = true
        ∧ (let c := t.coreAt ctx n
           c.launch = some l ∧ c.shadow = none ∧ c.task = none ∧ c.pc = 0 ∧ c.interlock = false ∧ c.inh = false
            ∧ c.xhand = BitVec.ofNat 64 (orHand z.oprec) ∧ c.schk = false ∧ c.lrun = 16 ∧ c.seed = 0 ∧ c.resid = 0
            ∧ (∀ r : Reg, c.rd r = 0) ∧ (∀ h : HReg, (c.handle h.toNat).valid = false) ∧ (∀ f : Ix6, c.flag f.toNat = 0)
            ∧ c.chan = [] ∧ c.rig = [] ∧ c.v = [] ∧ c.m = [] ∧ c.acc = [] ∧ (∀ q ∈ c.pendV, s2.now < q.land)
            ∧ (∀ q ∈ c.pendM, s2.now < q.land) ∧ c.held = [] ∧ (w.preloads = [] → c.t = [] ∧ c.w = [])))
    ∧ (∀ i outs, s.launchAt l = some x → orCov x.oprec = true → x.burnt = false → x.admitted = true → x.retired = false →
      x.error = none → s.tasksRetired l x = true → (s.context x.ctx).running = true → outs = x.outputs.getD [] →
      (x.nextTile = none → (∀ r ∈ s.remotes, ∀ j, r.kind ≠ .burn l j) →
        ∃ t z, exec (.burnish l) s = .next t ∧ t.launchAt l = some z ∧ z.burnt = true ∧ z.eForm = x.errorMetric)
      ∧ (x.nextTile = some i → s.tileReady l x outs i (!x.shadow? i) = (s1, true) → s1.launchAt l = some x →
        ∃ t z, exec (.burnish l) s = .next t ∧ t.launchAt l = some z ∧ z.burnt = false ∧ z.burnAt = i + 1
          ∧ (let ts := (s1.shadowTerms x outs i).1
             z.tileSums = x.tileSums ++ if x.shadow? i then [(sumF32 ts, ts.length)] else []))
      ∧ (x.nextTile = some i → s.tileReady l x outs i (!x.shadow? i) = (s1, false) → exec (.burnish l) s = .next s1))
    ∧ (s.launchAt l = some x → s.mayRetire l x = true → (s.pqueue x.queue).paused = true →
      ∃ t z, exec (.launchRetire l) s = .next t ∧ t.launchAt l = some z ∧ z = { x with seen := z.seen } ∧ z.seen.isSome = true)
    ∧ (s.launchAt l = some x → s.mayRetire l x = true → (s.pqueue x.queue).paused = false → s.behind x = false →
      ∃ t z, exec (.launchRetire l) s = .next t ∧ t.launchAt l = some z ∧ z = { x with retired := true, tretire := z.tretire }
        ∧ (∀ b ∈ t.barriers, b.launch ≠ l) ∧ (∀ r ∈ t.rounds, r.launch ≠ l)
        ∧ ∀ c ∈ t.cores, c.2.shadow ≠ some l)

/-- R12 to R14, R250, R256, R298: TASK_BIND gives a core the task of its next index, or marks the index skipped; TASK_START
clears the registers of R12 and begins at ENTRY; TASK_RETIRE marks a drained task done. -/
def Obligations.Tasks : Prop :=
  ∀ (s s1 : State) (n ctx i l : Nat) (x : Launch) (tk : Task) (mask : BitVec 32) (sh : Bool) (rest : List (Nat × Nat)),
    let c := s.coreAt ctx n
    s.nearCtx n = some ctx → c.launch = some i → s.launchAt i = some x → c.stoppedAt = none → x.stopped = false →
    x.graph = none →
    (c.task = none → x.exhausted n = false → x.retired = false → x.error = none → (s.context ctx).running = true →
      (s1.launchAt i) = some x → (s1.coreAt ctx n) = c →
      let j := x.candidate n (SMap.get 0 x.cursor n)
      (s.lookAt x n j = (s1, .bind mask sh) → ∃ t k y, exec (.taskBind n) s = .next t
        ∧ (t.coreAt ctx n).task = some k ∧ k.l = j ∧ (k.x, k.y, k.z) = x.coord j ∧ k.rowmask = mask ∧ k.shadow = sh
        ∧ k.started = false ∧ t.launchAt i = some y ∧ SMap.get 0 y.cursor n = SMap.get 0 x.cursor n + 1
        ∧ y.kept = x.kept + (if sh then 0 else 1) ∧ y.shadows = x.shadows + (if sh then 1 else 0) ∧ SameBytes s1 t)
      ∧ (s.lookAt x n j = (s1, .empty) → SMap.get 0 x.status j ≠ 2 → ∃ t y, exec (.taskBind n) s = .next t
        ∧ (t.coreAt ctx n).task = none ∧ t.launchAt i = some y ∧ SMap.get 0 y.status j = 3
        ∧ SMap.get 0 y.cursor n = SMap.get 0 x.cursor n + 1 ∧ SameBytes s1 t))
    ∧ (c.task = some tk → tk.started = false → tk.nulls = false → (s.context ctx).running = true →
      ∃ t, exec (.taskStart n) s = .next t
        ∧ (let d := t.coreAt ctx n
           d.pc = BitVec.ofNat 64 (orEntry x.oprec) ∧ d.task = some { tk with replayed := false, started := true }
            ∧ (∀ r : Reg, d.rd r = 0) ∧ (∀ k : MReg, k ≠ 0 → d.mask k.toNat = 0) ∧ d.inh = false ∧ d.flt = false ∧ d.xpc = 0
            ∧ d.xcause = 0 ∧ d.xval = 0 ∧ d.seed = 0 ∧ d.latch = false ∧ (∀ q ∈ d.pendM, s.now < q.land) ∧ d.xhand = c.xhand ∧ d.flags = c.flags ∧ d.h = c.h ∧ d.v = c.v
            ∧ d.qv = c.qv ∧ d.qm = c.qm ∧ d.qc = c.qc) ∧ SameBytes s t)
    ∧ (c.task = none → c.qv.stopped = none → c.qm.stopped = none → c.qc.stopped = none →
      (∀ j y, j < i → s.launchAt j = some y → y.ctx = ctx → ∀ e ∈ y.exited, e.2 ≠ n) →
      x.ctx = ctx → x.exited = (l, n) :: rest → c.drained i l = true →
      ∃ t y, exec (.taskRetire n) s = .next t ∧ t.launchAt i = some y ∧ (l, n) ∉ y.exited
        ∧ SMap.get 0 y.status l = (if SMap.get 0 x.status l = 0 then 1 else SMap.get 0 x.status l)
        ∧ t.cores = s.cores ∧ SameBytes s t)

/-! ## Packets -/

/-- The packet p of type `ty` is the next of queue q, keeps its rules, and its turn has come (R288, R291); s1 is the state
once the front end has read it. -/
def Sys2Proof.Claims.PacketNext (s s1 : State) (q ty : Nat) (p : Packet) : Prop :=
  s.queueRuns q = true ∧ s.nextPacket q = (s1, some p) ∧ pkType p.bits = ty ∧ packetOk p.bits = true
    ∧ s1.packetTurn q p.idx false = true

/-- The packet completes with a status (R287, R291): it leaves the queue, the second word of the queue's status block is
written, and a message goes out when the packet asks for one. -/
def Sys2Proof.Claims.PacketEnds (u t : State) (q : Nat) (p : Packet) (status : Nat) : Prop :=
  let x := u.pqueue q
  let d := u.queueDesc q
  ∃ y v, v = (u.setPqueue q y).feWrite (qdCtx d) (qdRidx d + 8) 8 (status + y.nerr * 2 ^ 16 + y.last.toNat * 2 ^ 32)
    ∧ t = (if pkIrq p.bits then v.event 0 (qdCtx d) (pkUser p.bits) (pkVec p.bits) else v)
    ∧ y = { x with packets := x.packets.filter (fun k => k.idx != p.idx), nerr := y.nerr, last := y.last }
    ∧ (status = 0 → y.nerr = x.nerr ∧ y.last = x.last)
    ∧ (status ≠ 0 → y.nerr = min 65535 (x.nerr + 1) ∧ y.last = BitVec.ofNat 32 p.idx)

/-- R289 to R292, R347: the packets without launches. Each completes with ABSENT, status 3, where it names an absent address; a
malformed packet completes with status 1; operations on another package end with their answers. -/
def Obligations.SimplePackets : Prop :=
  ∀ (s s1 s2 s3 : State) (q va n v pkg : Nat) (p : Packet) (a : Nat) (row : Row),
    let ctx := s1.queueCtx q
    let w := pkWord p.bits
    let size := if bit (w 24) 0 then 8 else 4
    -- a write of the front end inside one row
    (n ≠ 0 → va % 128 + n ≤ 128 → s.resolve s.ctx 256 (.va va) true = (s1, .spot ⟨false, a⟩) → a % 128 = va % 128 →
      Stores s1 (s.feWrite s.ctx va n v) false a n v)
    ∧ (PacketNext s s1 q 0 p → ∃ t, exec (.nopPacket q) s = .next t ∧ PacketEnds s1 t q p 0)
    ∧ (PacketNext s s1 q 3 p → s1.farOf (w 8) = none → s1.feAbsent ctx (w 8) true = false → ∃ t, exec (.write q) s = .next t
      ∧ PacketEnds (s1.feWrite ctx (w 8) size (w 16)) t q p 0)
    ∧ (PacketNext s s1 q 4 p → s1.farOf (w 8) = none → s1.feAbsent ctx (w 8) true = false → s1.feRow ctx (w 8) = (s2, .ok row) →
      s2.feRead ctx (w 8) 8 = (s3, .ok v) → ∃ t, exec (.signal q) s = .next t
        ∧ PacketEnds (s3.feWrite ctx (w 8) 8 ((v + w 16) % 2 ^ 64)) t q p 0)
    ∧ (PacketNext s s1 q 5 p → s1.farOf (w 8) = none → s1.feAbsent ctx (w 8) false = false →
      s1.feRead ctx (w 8) 8 = (s2, .ok v) →
      let m := v &&& w 24
      let holds := (w 32 = 0 ∧ m = w 16) ∨ (w 32 = 1 ∧ m ≠ w 16) ∨ (w 32 = 2 ∧ w 16 ≤ m) ∨ (w 32 = 3 ∧ m < w 16)
      (holds → ∃ t, exec (.wait q) s = .next t ∧ PacketEnds s2 t q p 0) ∧ (¬holds → exec (.wait q) s = .next s2))
    ∧ (PacketNext s s1 q 6 p → s1.farOf (w 8) = none → s1.farOf (w 32) = none → s1.feAbsent ctx (w 8) true = false →
      s1.feAbsent ctx (w 32) true = false → ∃ t, exec (.wrsig q) s = .next t
        ∧ (p.moved = 0 → PacketEnds ((s1.feWrite ctx (w 8) size (w 16)).packetSignal q (w 32) (w 40)) t q p 0)
        ∧ (p.moved ≠ 0 → PacketEnds (s1.packetSignal q (w 32) (w 40)) t q p 0))
    ∧ (PacketNext s s1 q 8 p → s1.farOf (w 8) = none → s1.feAbsent ctx (w 8) true = false → ∃ t, exec (.timestamp q) s = .next t
      ∧ PacketEnds (s1.feWrite ctx (w 8) 8 (s1.time % 2 ^ 64)) t q p 0)
    ∧ (PacketNext s s1 q 9 p → (w 8 < 4 ∨ (∀ r ∈ s1.remotes, r.ctx ≠ ctx) → ∃ t, exec (.fence q) s = .next t ∧ PacketEnds s1 t q p 0)
      ∧ (4 ≤ w 8 → (∃ r ∈ s1.remotes, r.ctx = ctx) → exec (.fence q) s = .next s1))
    ∧ (∀ b ∈ [(Instr.write q, 3), (.signal q, 4), (.wrsig q, 6), (.timestamp q, 8)],
      PacketNext s s1 q b.2 p → s1.farOf (w 8) = none → p.moved = 0 → s1.feAbsent ctx (w 8) true = true →
      ∃ t, exec b.1 s = .next t ∧ PacketEnds s1 t q p 3)
    -- an address on another package: the operations are sent, and their answers end the step
    ∧ (∀ b ∈ [(Instr.write q, 3, rowWrites (w 8) size (w 16)), (.timestamp q, 8, rowWrites (w 8) 8 (s1.time % 2 ^ 64)),
              (.signal q, 4, [(rowBase (w 8), .atomic 0 (BitVec.ofNat 5 (w 8 % 128 / 8)) 1 (BitVec.ofNat 64 (w 16)) 0)])],
      PacketNext s s1 q b.2.1 p → s1.farOf (w 8) = some pkg →
      (s1.frontOps q p pkg b.2.2 = (s2, none) → exec b.1 s = .next s2)
      ∧ ∀ l, s1.frontOps q p pkg b.2.2 = (s2, some l) → ∃ t, exec b.1 s = .next t ∧ PacketEnds s2 t q p
          (if l.any (fun a => a.1 == .absent || a.1 == .notWritable) then 3 else 0))
    ∧ (∀ b ∈ [(Instr.nopPacket q, 0), (.oprec q, 1), (.graph q, 2), (.write q, 3), (.signal q, 4), (.wait q, 5), (.wrsig q, 6),
              (.timestamp q, 8), (.fence q, 9)],
      s.queueRuns q = true → s.nextPacket q = (s1, some p) → pkType p.bits = b.2 → packetOk p.bits = false →
      s1.packetTurn q p.idx false = true → ∃ t, exec b.1 s = .next t ∧ PacketEnds s1 t q p 1)

/-- R267, R285, R288, R291, R292, R299, R301, R314: OPREC and GRAPH packets take their step; COPY moves a row a turn;
PACKET_COMPLETE ends a packet whose launch or graph has ended; the ring monitor, the age limit, and the enabling of queues and
contexts. -/
def Obligations.PacketsAndQueues : Prop :=
  ∀ (s s1 s2 : State) (q b v st : Nat) (p : Packet) (ps : List Packet),
    let ctx := s1.queueCtx q
    let w := pkWord p.bits
    let dq := s.queueDesc q
    let stepped := fun (t u : State) (f : Packet → Packet) => (t.pqueue q).packets = (u.pqueue q).packets.map
      (fun k => if k.idx = p.idx then f k else k)
    (PacketNext s s1 q 1 p → s1.feAbsent ctx (w 16) true = false →
      s1.feRead ctx (w 8 / 256 * 256) 256 = (s2, .ok v) →
      s2.pqueue q = s1.pqueue q → s2.context ctx = s1.context ctx →
      ∃ t x, exec (.oprec q) s = .next t ∧ t.launches = s2.launches ++ [x] ∧ x.number = (s1.context ctx).nextLaunch
        ∧ x.oprec = BitVec.ofNat 2048 v ∧ x.ctx = ctx ∧ x.queue = q ∧ x.packet = some p.idx ∧ x.read = true ∧ x.bad = false
        ∧ x.crec = BitVec.ofNat 64 (w 16) ∧ stepped t s1 (fun k => { k with stage := .stepped, launch := some s2.launches.length }))
    ∧ (∀ d, PacketNext s s1 q 2 p → s1.feAbsent ctx (w 32) true = false →
      s1.readGraph ctx (w 8) = (s2, some d) → (w 24 = 0 ∨ w 24 = s2.shapeHash ctx d) → s2.traces = [] →
      s2.pqueue q = s1.pqueue q →
      ∃ t y, exec (.graph q) s = .next t ∧ t.graphs = s2.graphs ++ [y] ∧ y.queue = q ∧ y.packet = p.idx ∧ y.ctx = ctx
        ∧ y.step = w 16 ∧ y.hash = BitVec.ofNat 64 (s2.shapeHash ctx d) ∧ y.edges = d.edges ∧ y.variant = none
        ∧ y.heldSince = none ∧ stepped t s1 (fun k => { k with stage := .stepped, graph := some s2.graphs.length }))
    ∧ ((∀ k ∈ (s.pqueue q).packets, ¬(pkType k.bits = 7 ∧ k.stage = .stepped)) → PacketNext s s1 q 7 p →
      s1.feAbsent ctx (w 8) false = false → s1.feAbsent ctx (w 16) true = false →
      (w 24 = 0 → ∃ t, exec (.copy q) s = .next t ∧ PacketEnds s1 t q p 0)
      ∧ (w 24 ≠ 0 → ∃ t, exec (.copy q) s = .next t ∧ stepped t s1 (fun k => { k with stage := .stepped }) ∧ SameBytes s1 t))
    ∧ (s.queueRuns q = true → (s.pqueue q).packets = p :: ps → pkType p.bits = 7 → p.stage = .stepped →
      s.farOf (w 8 + 128 * p.moved) = none → s.farOf (w 16 + 128 * p.moved) = none → p.asked < 2 → (∀ g ∈ p.got, g.1 ≠ 1) →
      let z := s.feRow (s.queueCtx q) (w 8 + 128 * p.moved)
      let u := z.1.feWrite (z.1.queueCtx q) (w 16 + 128 * p.moved) 128 z.2.row.toNat
      (w 24 ≤ 128 * (p.moved + 1) → ∃ t, exec (.copy q) s = .next t ∧ PacketEnds u t q p 0)
      ∧ (128 * (p.moved + 1) < w 24 → ∃ t, exec (.copy q) s = .next t ∧ SameBytes u t
        ∧ stepped t u (fun k => { k with moved := p.moved + 1, asked := 0, got := [] })))
    ∧ ((s.pqueue q).packets = p :: ps → s.finalStatus p = some st → s.posting (s.queueCtx q) = false →
      (s.pqueue q).paused = false → ∃ t, exec (.packetComplete q) s = .next t ∧ PacketEnds s t q p st)
    ∧ ((s.pqueue q).packets = p :: ps → s.finalStatus p = some st → s.posting (s.queueCtx q) = true ∨ (s.pqueue q).paused = true →
      exec (.packetComplete q) s = .next s)
    ∧ (∀ l x, p.stage = .stepped → p.launch = some l → s.launchAt l = some x → x.retired = true →
      s.finalStatus p = some (if x.error = some 2 then 2 else if x.status.any (fun z => z.2 == 2) then 4 else 0))
    ∧ (let x := s.pqueue q
       let y := s.pqueue b
       q ≠ b → y.enabled = true → y.active = false →
       (x.active = true → (∀ k ∈ x.packets, k.stage ≠ .consumed) → (s.peekPacket q).2 = none →
        x.foundAt + 1000 * s.setting 0x825 ≤ s.time →
        ∃ t, exec (.qpollRotation q b) s = .next t ∧ t = { s with pqueues := t.pqueues }
          ∧ t.pqueue q = { x with active := false, foundAt := s.time } ∧ t.pqueue b = { y with active := true, foundAt := s.time }
          ∧ ∀ j, j ≠ q → j ≠ b → t.pqueue j = s.pqueue j)
       ∧ (x.active = false → s.watched < 64 → ∃ t, exec (.qpollRotation q b) s = .next t ∧ t = { s with pqueues := t.pqueues }
          ∧ t.pqueue b = { y with active := true, foundAt := s.time } ∧ ∀ j, j ≠ b → t.pqueue j = s.pqueue j))
    ∧ ((s.pqueue q).waitSince ≠ 0 → (s.pqueue q).waitSince + 1000 * s.setting 0x820 < s.time →
      (∃ l ∈ s.launches, l.queue = q ∧ l.admitted = false ∧ l.retired = false) →
      ∃ t, exec (.ageLimit q) s = .next t ∧ t = { s with pqueues := t.pqueues } ∧ t.pqueue q = { s.pqueue q with raised := true }
        ∧ t.pri q = qdPri dq + 1)
    ∧ (q < 1024 → qdEn dq = true → (s.pqueue q).enabled = false →
      ∃ t, exec (.queueEnable q) s = .next t ∧ t = { s with pqueues := t.pqueues }
        ∧ (t.pqueue q).enabled = (queueDescOk dq && decide (qdCtx dq < 4096)) ∧ (t.pqueue q).packets = []
        ∧ (t.pqueue q).consumed = 0 ∧ (t.pqueue q).refused = !(queueDescOk dq && decide (qdCtx dq < 4096)))
    ∧ (q < 4096 → (recordOk (s.ctxRecord q) = true → (s.context q).enabled = false →
        ∃ t, exec (.contextRecordEnable q) s = .next t ∧ t = { s with ctxs := t.ctxs }
          ∧ t.context q = { s.context q with enabled := true, running := true, sliceAt := s.time })
      ∧ (recordOk (s.ctxRecord q) = false →
        ∃ t, exec (.contextRecordEnable q) s = .next t ∧ t = { s with ctxs := t.ctxs }
          ∧ t.context q = { s.context q with enabled := false, running := false }))

/-! ## Sharing cores, banks and segments -/

/-- No register of any logical core and no byte changes. -/
def Sys2Proof.Claims.KeepsData (s t : State) : Prop :=
  (∀ c n (r : Reg), (t.coreAt c n).rd r = (s.coreAt c n).rd r) ∧ SameBytes s t

/-- Nothing of a logical core is between two of its boundaries: no access is queued, no repetition of an engine and no
position of a copy command is at work on its rows. -/
def Sys2Proof.Claims.AtBoundary (c : Core) : Prop :=
  c.lq = [] ∧ c.sq = [] ∧ (∀ e a, (c.queue e).act = some a → a.part = none) ∧ ∀ x ∈ c.copies, x.pend = none

/-- R19, R203, R206 to R213, R299: QSLICE asks for a pre-emption when the slice of a context is over and another of its level
wants its core; CORESLICE and PREEMPTION hand a physical core over; the victim's lease ends and, at a boundary, its registers,
its pc and memory stay; a bank claim spills the last owner and takes the tag; a page handle of a restored bank S is
translated again; a forced spill saves a bank and says so; a segment that something must have the place of, and that its
context does not reach, is saved, and one is restored, byte for byte. -/
def Obligations.Sharing : Prop :=
  ∀ (s : State) (ctx n c k p : Nat) (b : Bank) (g : Seg) (x : Nat × Core),
    let j := bankNum b
    (n < 256 → s.nearCtx n = some ctx → c ∈ s.rivals ctx n → s.ctxLevel c = s.ctxLevel ctx → (s.context ctx).running = true →
      (s.context ctx).stopReq = none → (s.context ctx).sliceAt + 1000 * s.setting 0x822 ≤ s.time →
      ∃ t, exec (.qslice ctx) s = .next t ∧ t = { s with ctxs := t.ctxs }
        ∧ (∀ d, t.context d = if d = ctx then { s.context ctx with stopReq := some 0 } else s.context d))
    ∧ (n < 256 → s.servedCtx n = some ctx → s.physOf n = some p → s.partner n = some k →
      (s.physCore p).sliceAt + 1000 * s.setting 0x821 ≤ s.time → (s.coreAt ctx k).runnable = true →
      (s.coreAt ctx n).waiting ≠ some .device →
      ∃ t, exec (.coreslice n) s = .next t ∧ (t.physCore p).serving = some (ctx, k) ∧ (t.physCore p).sliceAt = t.time
        ∧ (t.quad (s.physQuad (quadOf n))).holder ≠ some (n % 4) ∧ (t.coreAt ctx n).lastCause = 1
        ∧ (AtBoundary (s.coreAt ctx n) → KeepsData s t ∧ t.time = s.time ∧ (∀ q, q ≠ p → t.physCore q = s.physCore q)
          ∧ ((∀ id, (s.coreAt ctx n).waiting ≠ some (.grant id)) → (t.coreAt ctx n).pc = (s.coreAt ctx n).pc)))
    ∧ (n < 256 → s.nearCtx n = some ctx → (∀ m, m < 256 → s.nearCtx m = some ctx → m = n) → s.physOf n = some p →
      s.newcomer ctx n = some c → AtBoundary (s.coreAt ctx n) → s.servedCtx n = some ctx →
      ∃ t, exec (.preemption ctx) s = .next t ∧ KeepsData s t ∧ (t.physCore p).serving = some (c, n)
        ∧ (t.coreAt ctx n).lastCause = 0 ∧ (s.midPacket ctx = false → (t.context ctx).stopReq = none))
    ∧ (n < 256 → s.servedCtx n = some ctx → s.physOf n = some p → s.bankOwner p j ≠ some (ctx, n) →
      (∀ v, s.bankOwner p j = some v → s.landOne v.1 v.2 j = none) →
      (∀ q, (s.coreAt ctx n).bankState j = .live q → s.landOne ctx n j = none) →
      ∃ t, exec (.bankClaim n b) s = .next t ∧ t.bankOwner p j = some (ctx, n)
        ∧ (t.coreAt ctx n).bankState j = .live p ∧ ((∀ d, (s.context d).image = none) → KeepsData s t)
        ∧ (∀ i h, b = .s → (s.coreAt ctx n).bankState 0 = .saved → (s.coreAt ctx n).handle i = h → h.valid = true →
            h.vault = false → (∃ a, s.whereIs h.base.toNat = .here a) →
            (t.coreAt ctx n).handle i = { h with st := .pending, w := h.rw, rearm := false })
        ∧ ∀ v q, s.bankOwner p j = some v → coreKey v.1 v.2 ≠ coreKey ctx n → (s.coreAt v.1 v.2).bankState j = .live q →
            (t.coreAt v.1 v.2).bankState j = .saved)
    ∧ (s.cores.find? (fun y => y.1 % 512 == n && n < 256 && !s.served (y.1 / 512) n
          && (match y.2.bankState j with | .live _ => true | _ => false)) = some x → s.coreAt (x.1 / 512) n = x.2 →
      s.landOne (x.1 / 512) n j = none →
      ∃ t, exec (.forcedSpill n b) s = .next t ∧ (t.coreAt (x.1 / 512) n).bankState j = .saved
        ∧ ((∀ d, (s.context d).image = none) → KeepsData s t)
        ∧ (x.2.lastCause ≠ 2 → (t.coreAt (x.1 / 512) n).lastCause = 3)
        ∧ ∀ q, x.2.bankState j = .live q → t.bankOwner q j = none)
    ∧ (s.segs[k]? = some g →
      (g.st = .owned → s.mayEvict g = true →
        exec (.segmentSave k) s = .next { s with segs := s.segs.set k { g with st := .saving } })
      ∧ (g.st = .saving → ∃ t h, exec (.segmentSave k) s = .next t ∧ t.segs[k]? = some h ∧ h.st = .saved
        ∧ (∀ a, a < 65536 → readByte h.data a = readByte s.vault (65536 * g.pseg + a))
        ∧ (∀ a, readByte t.vault a = if a / 65536 = g.pseg then 0 else readByte s.vault a)
        ∧ t.mem = s.mem ∧ t.cores = s.cores)
      ∧ (g.st = .restoring → s.segmentFits g p = true → (g.data.map Prod.fst).Nodup → (∀ y ∈ g.data, y.1 < 65536) →
        ∃ t h, exec (.segmentRestore k p) s = .next t ∧ t.segs[k]? = some h ∧ h.st = .owned ∧ h.pseg = p
          ∧ (∀ a, readByte t.vault a = if a / 65536 = p then readByte g.data (a % 65536) else readByte s.vault a)
          ∧ t.mem = s.mem ∧ t.cores = s.cores))

/-! ## Graphs, traces, conversions -/

/-- R302, R305 to R310: a step makes the launch of its next ready task, and ends when every launch has retired; a replayed
task's entries are placed and it exits; a held step goes on with a version that has come. -/
def Obligations.GraphSteps : Prop :=
  ∀ (s s1 : State) (g k v : Nat) (y : Graph) (w : Variant),
    let next := fun (t : State) => ∃ z, t.launches = s1.launches ++ [z] ∧ z.oprec = BitVec.ofNat 2048 v ∧ z.graph = some (g, k)
      ∧ z.ctx = y.ctx ∧ z.addr = y.tasks.getD k 0 ∧ z.number = (s1.context y.ctx).nextLaunch ∧ z.argtab = y.argtab
      ∧ t.graphs = s.graphs.set g { y with launches := SMap.set 0 y.launches k (s1.launches.length + 1) } ∧ SameBytes s1 t
    let makes := y.done = false ∧ y.heldSince = none ∧ (s.context y.ctx).running = true ∧ s.readyTask y = some k
      ∧ s.feRead y.ctx (y.tasks.getD k 0).toNat 256 = (s1, .ok v) ∧ s1.graphs = s.graphs
    let ends := y.done = false ∧ y.heldSince = none ∧ (s.context y.ctx).running = true ∧ s.readyTask y = none
      ∧ ∀ i, i < y.tasks.length → s.graphRetired y i = true
    s.graphs[g]? = some y →
    (y.variant = none ∨ y.gfail = true → makes → ∃ t, exec (.dynamicStep g) s = .next t ∧ next t)
    ∧ (y.variant = none → ends → (∀ tr ∈ s.traces, tr.hash ≠ y.hash) →
      ∃ t r, exec (.dynamicStep g) s = .next t ∧ t.graphs = s.graphs.set g { y with done := true }
        ∧ t.traces = s.traces ++ [{ hash := y.hash, variants := [r] }] ∧ r.number = 0 ∧ r.version = 1
        ∧ r.tasks = y.recording ∧ r.guards = y.guards ∧ r.rstep = y.step ∧ r.gang = s.gang.id ∧ r.fence = s.fencedDies)
    ∧ (y.variant.bind (s.variantAt y.hash) = some w → y.gfail = false → y.heldSince = none →
      (∀ n, n < 256 → s.replayCore g y w n = none) →
      (makes → ∃ t, exec (.replay g) s = .next t ∧ next t)
      ∧ (ends → ∃ t, exec (.replay g) s = .next t ∧ t.graphs = s.graphs.set g { y with done := true }
        ∧ t.variantAt y.hash w.number = some { w with good := some s.time }))
    ∧ (∀ since ver effect u, y.variant.bind (s.variantAt y.hash) = some w → y.heldSince = some since →
      w.next = some (ver, effect, true) → w.newMap = none →
      u = { w with version := ver, rstep := effect, tasks := w.proposal, pfds := w.newPfds, next := none, proposal := [], newPfds := [] } →
      ∃ t, exec (.replay g) s = .next t ∧ t.variantAt y.hash w.number = some u
        ∧ t.graphs = s.graphs.set g { y with heldSince := none } ∧ t.cores = s.cores ∧ SameBytes s t)
    ∧ (∀ tr tk n, y.variant.bind (s.variantAt y.hash) = some w → y.gfail = false → y.heldSince = none → n < 256 →
      (∀ m, m < n → s.replayCore g y w m = none) → s.served y.ctx n = true → (s.coreAt y.ctx n).task = some tk →
      (s.launchOf (s.coreAt y.ctx n)).bind (fun x => x.graph) = some (g, k) → tk.started = true → tk.replayed = true →
      w.taskOf k n tk.l = some tr → (s.coreAt y.ctx n).pend = false → (∀ f ∈ (s.coreAt y.ctx n).untold, f.2.prev = false) → y.progress k n tk.l = ([0, 0, 0], 0) → tk.nulls = false →
      (∀ te rest, tr.list .v = te :: rest → te.wseq = 0 → te.entry.fork = none →
        ({ s with ctx := y.ctx, cur := n } : State).canAccept y.ctx n .v te.entry.slots = true →
        ∃ t z, exec (.replay g) s = .next t
          ∧ (let q := (s.coreAt y.ctx n).qv
             let q' := (t.coreAt y.ctx n).qv
             q'.hw ++ q'.spill = q.hw ++ q.spill ++ [z] ∧ z.body = te.entry.body ∧ z.seed = te.entry.seed ∧ z.task = tk.l
              ∧ z.seq = q.next ∧ q'.next = q.next + 1))
      ∧ (tr.entries = [] → tr.waits = [] →
        ∃ t, exec (.replay g) s = .next t ∧ (t.coreAt y.ctx n).task = none))

/-- R309, R310, R333: the refiner proposes a version whose effect step lies beyond the next step; a notice marks it as
received; a step that has waited 10 ms for a version goes on with the old one. -/
def Obligations.Versions : Prop :=
  ∀ (s : State) (hash : Word) (n k d g version effect since : Nat) (got : Bool) (w : Variant) (y : Graph),
    (s.variantAt hash n = some w → w.next = none → (∀ z ∈ s.graphs, z.hash = hash → z.done = true) → 16 ≤ d → d ≤ 256 →
      ∃ t u e, exec (.refinement hash n (.prefetch k d)) s = .next t ∧ t.variantAt hash n = some u ∧ s.lastReplayed hash + 2 ≤ e
        ∧ u = { w with proposal := w.tasks, newPfds := SMap.set 0 w.pfds k d,
                       next := some (w.version + 1, e, decide (s.gang.self = 0)) } ∧ t.cores = s.cores ∧ SameBytes s t)
    ∧ (s.variantAt hash n = some w → w.next = some (version, effect, got) →
      ∃ t, exec (.versionNotice hash n version effect) s = .next t ∧ t = { s with traces := t.traces }
        ∧ t.variantAt hash n = some { w with next := some (version, effect, true) })
    ∧ (s.graphs[g]? = some y → y.heldSince = some since → y.variant.bind (s.variantAt y.hash) = some w →
      w.next = some (version, effect, false) → since + 10000000 ≤ s.time →
      ∃ t, exec (.versionLate g) s = .next t ∧ t.graphs = s.graphs.set g { y with heldSince := none, late := true }
        ∧ t.cores = s.cores ∧ t.traces = s.traces)

/-- R273 to R279, R281: the Skiver converts a patch, once, element by element, the patches in ascending order but for those
that a write demands, four at a time; a patch of which a row does not answer is poisoned at its new place; when every patch
is converted and what went through the record has performed, the record is erased and its flag incremented. A contribution that
was turned away is offered again after 16 cycles, and turned away again while the buffer is full. -/
def Obligations.Conversions : Prop :=
  ∀ (s s1 : State) (ctx r p q n i : Nat) (e : RowRead) (k : Contrib) (rd : Round),
    let c := SMap.get {} (s.context ctx).conv r
    let t0 := tensorOf c.image
    let own := quadOf c.lcore
    let start : State := { s with ctx := ctx, cur := 32 * c.die }
    let qs := t0.patchElements p
    let rest := c.work.filter (fun x => x.1 != p)
    let after := fun (m : Nat) (u : Conv) => u = if m = qs.length then
        { c with work := rest, want := removeNat c.want p, done := insertNat c.done p, pdone := c.pdone + 1 }
      else { c with work := (p, m) :: rest }
    let goes := c.serial ≠ 0 ∧ ((p, n) ∈ c.work ∧ (∀ m, (p, m) ∈ c.work → m = n) ∨ n = 0 ∧ (∀ m, (p, m) ∉ c.work)
      ∧ (s.context ctx).running = true ∧ c.work.length < 4 ∧ p ∉ c.done ∧ p < c.pcount
      ∧ (p ∈ c.want ∨ ∀ j, j < p → j ∈ c.done ∨ ∃ m, (j, m) ∈ c.work))
    (goes → qs[n]? = some q →
      (start.moveElement t0 c own q = (s1, .ok ()) →
        ∃ t, exec (.skiverPatch ctx r p) s = .next t ∧ after (n + 1) (SMap.get {} (t.context ctx).conv r) ∧ SameBytes s1 t
          ∧ t.cores = s1.cores)
      ∧ (start.moveElement t0 c own q = (s1, .error e) → e ≠ .wait →
        ∃ t, exec (.skiverPatch ctx r p) s = .next t
          ∧ (let u := { c with work := rest, want := removeNat c.want p, done := insertNat c.done p, pdone := c.pdone + 1 }
             SMap.get {} (t.context ctx).conv r = { u with ppois := c.ppois + 1 })
          ∧ ∀ vq row a, Loc.vault vq row ∈ rowsOf (qs.flatMap (fun x => t0.parts c.newBack own c.ntag.toNat x)) →
              s1.vaultRow ctx vq row = .at_ a → ∀ w, w / 8 = a / 128 → w ∈ t.vaultPoison)
      ∧ (start.moveElement t0 c own q = (s1, .error .wait) →
        ∃ t, exec (.skiverPatch ctx r p) s = .next t ∧ after n (SMap.get {} (t.context ctx).conv r) ∧ SameBytes s1 t))
    ∧ ((∀ m, (p, m) ∉ c.work) → p ∉ c.want → (∃ j, j < p ∧ j ∉ c.done ∧ ∀ m, (j, m) ∉ c.work) →
      exec (.skiverPatch ctx r p) s = .next s)
    ∧ (c.serial ≠ 0 → (s.context ctx).running = true → c.pcount ≤ c.done.length → s.redirectsDone ctx c = true →
      c.flag ≠ 0 → (s.coreAt ctx c.lcore).flag c.flag.toNat < 65535 →
      ∃ t, exec (.conversionComplete ctx r) s = .next t ∧ SMap.get {} (t.context ctx).conv r = {} ∧ KeepsData s t
        ∧ (t.coreAt ctx c.lcore).flag c.flag.toNat = (s.coreAt ctx c.lcore).flag c.flag.toNat + 1
        ∧ (c.key ≠ 0 → ∀ d ∈ t.dir, d.ctx = ctx → d.conv.toNat ≠ r + c.serial % 2 ^ 60 * 16 ∨ d.conv = 0))
    ∧ (∀ since, s.contribs[i]? = some k → k.buffered = false → k.grant = none → k.retryAt = some since →
      s.roundAt k = some rd → k.key < rd.n → k.n = rd.n → rd.next < k.key → s.bufferedNext k k.key = none →
      (s.now < since → exec (.contributionRetry i) s = .next s)
      ∧ (since ≤ s.now → ∃ t, exec (.contributionRetry i) s = .next t ∧ SameBytes s t ∧ t.cores = s.cores
        ∧ t.contribs = s.contribs.map (fun x => if x.id = k.id then
            (if s.bufferedCount k.die < 256 then { x with buffered := true, retryAt := none }
             else { x with retryAt := some (s.now + 16) }) else x)))

/-! ## Upkeep of translation, the host -/

/-- R240, R241, R315 to R317: a walk of a unit fills its cache and updates the heat and D of the leaf; a sweep halves the heat
of every leaf; the scrubber corrects and counts a single-bit error of its row and changes no byte and no poison, and its
round goes on in ascending order (the model's choice: log entry 91); a double error poisons its word. -/
def Obligations.TranslationUpkeep : Prop :=
  ∀ (s : State) (unit ctx a pa word q : Nat) (va : Word) (wr vault : Bool),
    let r := s.ctxRecord ctx
    let l := (s.leaves1 r 3 1 (recS1Root r) ++ (if recS2En r then s.leaves2 3 1 (recS2Root r) else [])).eraseDups
    (s.whereIs va.toNat = .here a → unit ≤ 8 → s.cached unit ctx (a / 65536) wr = none →
      let x := walkBoth s ctx a
      let e := s.word64 pa
      (x.st = .resident → ∃ t c, exec (.tableWalk unit ctx va wr) s = .next t ∧ t.cached unit ctx (a / 65536) wr = some c
        ∧ c.frame = x.pa / 65536 ∧ c.w = x.w ∧ t.cores = s.cores
        ∧ (∀ u, u ≠ unit → ∀ c' p w', t.cached u c' p w' = s.cached u c' p w')
        ∧ (x.leaves = [pa] → pa % 8 = 0 → Stores s t false pa 8
            (if wr then e + (if e / 2 ^ 10 % 4 < 3 then 2 ^ 10 else 0) + (if e / 2 ^ 6 % 2 = 0 then 2 ^ 6 else 0)
             else e + (if e / 2 ^ 8 % 4 < 3 then 2 ^ 8 else 0))))
      ∧ (x.st = .absent → x.bad = none → exec (.tableWalk unit ctx va wr) s = .next s))
    ∧ (recValid r = true → recHeat r = true → (s.context ctx).swept + 1000000 * s.setting 0x827 ≤ s.time →
      (∀ p ∈ l, p % 8 = 0) → l.Nodup →
      ∃ t, exec (.sweep ctx) s = .next t ∧ (t.context ctx).swept = s.time ∧ t.cores = s.cores ∧ t.tlb = s.tlb
        ∧ (∀ p ∈ l, let e := s.word64 p
            let f := t.word64 p
            f % 2 ^ 8 = e % 2 ^ 8 ∧ f / 2 ^ 12 = e / 2 ^ 12 ∧ f / 2 ^ 8 % 4 = e / 2 ^ 8 % 4 / 2 ∧ f / 2 ^ 10 % 4 = e / 2 ^ 10 % 4 / 2)
        ∧ ∀ b, (∀ p ∈ l, b < p ∨ p + 8 ≤ b) → readByte t.mem b = readByte s.mem b)
    ∧ (q < 64 → word < 262144 → let k := 262144 * q + word
      ∃ t, exec (.scrub q word) s = .next t
        ∧ t = { s with vaultFixed := t.vaultFixed, flips := s.flips.filter (fun x => x != k), scrubbed := t.scrubbed, scrubAt := t.scrubAt }
        ∧ (∀ p, SMap.get 0 t.vaultFixed p = SMap.get 0 s.vaultFixed p + (if p = q ∧ k ∈ s.flips then 1 else 0))
        ∧ t.scrubbed = (if s.scrubbed = k then (k + 1) % 2 ^ 24 else s.scrubbed)
        ∧ t.scrubAt = s.scrubAt + (if s.scrubbed = k ∧ k + 1 = 2 ^ 24 then 1000000 * s.setting 0x826 else 0))
    ∧ (64 ≤ q ∨ 262144 ≤ word → exec (.scrub q word) s = .next s)
    ∧ ∃ t, exec (.doubleError vault word) s = .next t
      ∧ t = { s with vaultPoison := t.vaultPoison, memPoison := t.memPoison }
      ∧ (∀ w, w ∈ t.vaultPoison ↔ w ∈ s.vaultPoison ∨ (vault = true ∧ w = word))
      ∧ ∀ w, w ∈ t.memPoison ↔ w ∈ s.memPoison ∨ (vault = false ∧ w = word)

/-- A host command is at work (R329): its code, a context with a usable record, no result yet. -/
def Sys2Proof.Claims.Command (s : State) (op : Nat) : Prop :=
  s.host.busy = true ∧ s.host.result = none ∧ s.host.cmd.toNat % 256 = op ∧ s.cmdCtxOk = true

/-- R88, R203, R208, R216, R319, R320, R324 to R326, R329: what the six host commands do, and their completion: a shootdown
changes handles and leaves the loads that are queued, and ends once none of them used the range; a STOP waits for a packet
boundary and for what is on its way to other packages; a RESUME takes back what a section's bytes say. -/
def Obligations.HostCommands : Prop :=
  ∀ (s : State) (n k off len : Nat) (i : Image) (known : Bool),
    let ctx := s.host.cmd.toNat / 2 ^ 16 % 2 ^ 16
    let page := s.host.arg0.toNat % 2 ^ 47 / 65536
    let inRange := fun (h : Handle) (m : Nat) => ∃ a, s.whereIs h.base.toNat = .here a ∧ page ≤ a / 65536 ∧ a / 65536 < page + m
    let shot := fun (rearm : Bool) (m : Nat) (h h' : Handle) =>
      (h.valid = true ∧ h.vault = false ∧ inRange h m → h' = if rearm then { h with rearm := h.rearm || h.w } else { h with rev := true })
      ∧ (¬(h.valid = true ∧ h.vault = false ∧ inRange h m) → h' = h)
    let range : PageRange := { lo := page, hi := page + s.host.arg1.toNat }
    let quiet := ∀ x ∈ s.cores, x.2.copies = [] ∧ ∀ a, x.2.qc.act = some a → a.cmd = none
    (Command s 1 → s.host.at_ = 0 → let rearm := s.host.arg2.getLsbD 0
      ∃ t, exec .shoot s = .next t ∧ t.host = { s.host with at_ := 1 }
        ∧ (∀ (m : Nat) (h : HReg), m < 512 → shot rearm s.host.arg1.toNat ((s.coreAt ctx m).handle h.toNat) ((t.coreAt ctx m).handle h.toNat))
        ∧ (∀ c m, m < 512 → c ≠ ctx → t.coreAt c m = s.coreAt c m)
        ∧ (quiet → KeepsData s t ∧ (∀ m, (t.coreAt ctx m).lq = (s.coreAt ctx m).lq)
          ∧ ∀ x ∈ t.tlb, ¬(x.ctx = ctx ∧ page ≤ x.page ∧ x.page < page + s.host.arg1.toNat)))
    ∧ (Command s 1 → 0 < s.host.at_ →
      (s.oldLoads ctx range = true → exec .shoot s = .next s)
      ∧ (s.oldLoads ctx range = false → exec .shoot s = .next { s with host := { s.host with result := some 0, at_ := 0 } }))
    ∧ (Command s 2 → s.host.at_ < s.host.arg1.toNat % 2 ^ 32 →
      let j := s.host.at_
      let stage1 := s.host.arg1.getLsbD 32
      let leaf := s.leafOf ctx stage1 (s.host.arg0.toNat % 2 ^ (if stage1 then 47 else 48) + 65536 * j)
      let bm := s.host.arg2.toNat + j / 8
      (∀ pa, leaf = some pa → pa % 8 = 0 → s.word64 pa / 2 ^ 6 % 2 = 1 → (bm < pa ∨ pa + 8 ≤ bm) →
        ∃ t, exec .harvest s = .next t ∧ t.host = { s.host with at_ := j + 1 } ∧ t.word64 pa = s.word64 pa - 2 ^ 6
          ∧ readByte t.mem bm = readByte s.mem bm ||| BitVec.ofNat 8 (2 ^ (j % 8))
          ∧ ∀ a, a ≠ bm → (a < pa ∨ pa + 8 ≤ a) → readByte t.mem a = readByte s.mem a)
      ∧ ((leaf = none ∨ ∃ pa, leaf = some pa ∧ s.word64 pa / 2 ^ 6 % 2 = 0) →
        exec .harvest s = .next { s with host := { s.host with at_ := j + 1 } }))
    ∧ (Command s 2 → s.host.at_ = s.host.arg1.toNat % 2 ^ 32 →
      ∃ t, exec .harvest s = .next t ∧ t.host = { s.host with at_ := s.host.at_ + 1 }
        ∧ ∀ (m : Nat) (h : HReg), m < 512 → let b := (s.coreAt ctx m).handle h.toNat
          (s.host.arg1.getLsbD 32 = true → shot true s.host.at_ b ((t.coreAt ctx m).handle h.toNat))
          ∧ (s.host.arg1.getLsbD 32 = false → let hit := b.valid = true ∧ b.vault = false ∧ ∃ a, s.whereIs b.base.toNat = .here a
              (hit → (t.coreAt ctx m).handle h.toNat = { b with rearm := b.rearm || b.w })
              ∧ (¬hit → (t.coreAt ctx m).handle h.toNat = b)))
    ∧ (Command s 2 → s.host.arg1.toNat % 2 ^ 32 < s.host.at_ → (∀ r, s.oldLoads ctx r = false) →
      exec .harvest s = .next { s with host := { s.host with result := some 0, at_ := 0 } })
    ∧ (Command s 3 → s.midPacket ctx = false → (∀ r ∈ s.remotes, r.ctx ≠ ctx) →
      (∀ p m, (s.physCore p).serving = some (ctx, m) → AtBoundary (s.coreAt ctx m)) →
      ∃ t, exec .stop s = .next t ∧ (t.context ctx).running = false
        ∧ (∀ p m, p < 256 → (t.physCore p).serving ≠ some (ctx, m))
        ∧ (let small := s.host.arg1.toNat < (t.layout ctx).2
           t.host.result = some (if small then 3 else 0) ∧ (t.context ctx).image = if small then none else some s.host.arg0.toNat)
        ∧ ∀ c m (r : Reg), (t.coreAt c m).rd r = (s.coreAt c m).rd r)
    ∧ (Command s 3 → (s.midPacket ctx = true ∨ ∃ r ∈ s.remotes, r.ctx = ctx) →
      ∃ t, exec .stop s = .next t ∧ t = { s with ctxs := t.ctxs }
        ∧ ∀ d, t.context d = if d = ctx then { s.context ctx with stopReq := some 0 } else s.context d)
    ∧ (Command s 4 → (s.context ctx).running = false →
      (∀ base, (s.context ctx).image = some base →
        (∀ u, s.imageStep ctx = some u → exec .image s = .next u)
        ∧ (s.imageStep ctx = none → ∃ t j rest, exec .image s = .next t ∧ t.host.result = some 0 ∧ t.images = j :: rest
          ∧ j.ctx = ctx ∧ j.addr = base ∧ j.complete = true ∧ j.time = s.time ∧ t.cores = s.cores
          ∧ readNat t.mem base 4 = 0x58454443 ∧ readNat t.mem (base + 24) 4 = t.imageCrc base (s.layout ctx).2
          ∧ ∀ m ∈ s.ctxCores ctx, ∃ c, (m, c) ∈ j.cores ∧ c.pc = (s.coreAt ctx m).pc
              ∧ ∀ r : Reg, c.rd r = (s.coreAt ctx m).rd r))
      ∧ ((s.context ctx).image = none → exec .image s = .next { s with host := { s.host with result := some 1 } }))
    ∧ (Command s 5 → let base := s.host.arg0.toNat
      (base = 0 → (s.context ctx).image = none → ∃ t, exec .resume s = .next t ∧ t.host.result = some 0 ∧ (t.context ctx).running = true
        ∧ (∀ m, m < 512 → (t.coreAt ctx m).stoppedAt ≠ some 2) ∧ KeepsData s t)
      ∧ (base ≠ 0 → s.imageOk base = false → exec .resume s = .next { s with host := { s.host with result := some 2 } })
      ∧ (base = 0 → ∀ b, (s.context ctx).image = some b →
        (let l := ((s.tableOf b).filter (fun e => e.1.1 == 1 && e.2)).map (fun e => e.1)
         (s.headersOk b l = false → exec .resume s = .next { s with host := { s.host with result := some 2 } })
         ∧ (s.headersOk b l = true → ∃ t, exec .resume s = .next t ∧ t.host.result = some 0 ∧ (t.context ctx).running = true
           ∧ (t.context ctx).image = none ∧ SameBytes s t)))
      ∧ (base ≠ 0 → s.imageOk base = true → s.imageAt ctx base = (i, known) →
        s.headersOk base i.sections = false → exec .resume s = .next { s with host := { s.host with result := some 2 } })
      ∧ (base ≠ 0 → s.imageOk base = true → s.imageAt ctx base = (i, known) →
        s.headersOk base i.sections = true → (∀ x ∈ i.sections, x.2.1 < 256) →
        i.sections.filter (fun x => x.1 == 1 && x.2.1 == n) = [(1, n, off, len)] →
        readNat s.mem (base + off + 8) 1 = 0 →
        ∃ t, exec .resume s = .next t ∧ t.host.result = some 0 ∧ (t.context ctx).running = true
          ∧ (t.coreAt ctx n).pc = BitVec.ofNat 64 (readNat s.mem (base + off + 0x18) 8 / 4 * 4)
          ∧ ∀ r : Reg, (t.coreAt ctx n).rd r =
              if r = 0 then 0 else BitVec.ofNat 64 (readNat s.mem (base + off + (0x400 + 8 * r.toNat)) 8)))
    ∧ (Command s 6 → ∃ t, exec .destroy s = .next t ∧ t.host.result = some 0 ∧ (t.context ctx).running = false
      ∧ (∀ x ∈ t.cores, ¬(x.1 / 512 = ctx ∧ x.1 % 512 < 256)) ∧ (∀ x ∈ t.segs, x.ctx ≠ ctx) ∧ (∀ x ∈ t.dir, x.ctx ≠ ctx)
      ∧ (∀ x ∈ t.claims, x.ctx ≠ ctx) ∧ (∀ x ∈ t.phases, x.ctx ≠ ctx) ∧ (∀ x ∈ t.contribs, x.ctx ≠ ctx)
      ∧ (∀ x ∈ t.remotes, x.ctx ≠ ctx) ∧ (∀ p m, p < 256 → (t.physCore p).serving ≠ some (ctx, m))
      ∧ ∀ j x, t.launchAt j = some x → x.ctx = ctx → x.retired = true)
    ∧ (s.host.busy = true → s.host.result = some k →
      let done : State := { s with host := { s.host with
        cmd := s.host.cmd ||| BitVec.ofNat 64 (k * 2 ^ 40), busy := false, result := none } }
      exec .commandCompletion s = .next (done.event 1 ctx (Config.eventArg 1).toNat (s.host.cmd.toNat / 2 ^ 48)))
    ∧ (s.host.busy = true → s.host.result = none → 6 < s.host.cmd.toNat % 256 →
      let done : State := { s with host := { s.host with
        cmd := s.host.cmd ||| BitVec.ofNat 64 (2 ^ 40), busy := false, result := none } }
      exec .commandCompletion s = .next (done.event 1 ctx (Config.eventArg 1).toNat (s.host.cmd.toNat / 2 ^ 48)))

/-- R286, R327 to R330, R339: writes of BAR0 to the tables, the command words and the windows; reads, writes and atomics
through a window of BAR2; the journal-clear bit. -/
def Obligations.HostRegisters : Prop :=
  ∀ (s s1 : State) (off n v w k x : Nat) (row : Row) (inc exp sw : Word),
    let field := fun (old new : BitVec 512) => ∀ j, j < 64 → new.extractLsb' (8 * j) 8 =
      if off % 64 ≤ j ∧ j < off % 64 + n then BitVec.ofNat 8 (v / 256 ^ (j - off % 64)) else old.extractLsb' (8 * j) 8
    let ctx := s.window w 3 % 2 ^ 16
    let va := s.window w 2 + (off - s.window w 0)
    (0 < n → n ≤ 8 - off % 8 →
      (0x100000 ≤ off → off < 0x140000 → ∃ t, exec (.bar0Write off n v) s = .next t
        ∧ t = { s with host := { s.host with ctxTable := t.host.ctxTable } }
        ∧ ∀ j, if j = (off - 0x100000) / 64 then field (SMap.get 0 s.host.ctxTable j) (SMap.get 0 t.host.ctxTable j)
               else SMap.get 0 t.host.ctxTable j = SMap.get 0 s.host.ctxTable j)
      ∧ (0x200000 ≤ off → off < 0x210000 → ∃ t, exec (.bar0Write off n v) s = .next t
        ∧ t = { s with host := { s.host with queueTable := t.host.queueTable } }
        ∧ ∀ j, if j = (off - 0x200000) / 64 then field (SMap.get 0 s.host.queueTable j) (SMap.get 0 t.host.queueTable j)
               else SMap.get 0 t.host.queueTable j = SMap.get 0 s.host.queueTable j)
      ∧ (off < 0x100000 → exec (.bar0Write off n v) s = .next s))
    ∧ (s.host.busy = false → ∃ t, exec (.bar0Write 0x300000 8 v) s = .next t
      ∧ t = { s with host := { s.host with cmd := t.host.cmd, busy := true, result := none, at_ := 0 } }
      ∧ t.host.cmd = BitVec.ofNat 64 v &&& 0xFFFF0000FFFF00FF)
    ∧ (s.host.busy = true → exec (.bar0Write 0x300000 8 v) s = .next s)
    ∧ (exec (.bar0Write 0x300008 8 v) s = .next { s with host := { s.host with arg0 := BitVec.ofNat 64 v } })
    ∧ (exec (.bar0Write 0x300010 8 v) s = .next { s with host := { s.host with arg1 := BitVec.ofNat 64 v } })
    ∧ (exec (.bar0Write 0x300018 8 v) s = .next { s with host := { s.host with arg2 := BitVec.ofNat 64 v } })
    ∧ (k < 64 → ∃ t, exec (.bar0Write (0x500000 + 8 * k) 8 v) s = .next t
      ∧ t = { s with host := { s.host with windows := t.host.windows } }
      ∧ (∀ j, j ≠ k → SMap.get 0 t.host.windows j = SMap.get 0 s.host.windows j)
      ∧ (let old := SMap.get 0 s.host.windows k
         let new := SMap.get 0 t.host.windows k
         (k % 4 ≠ 3 → new = BitVec.ofNat 64 v)
         ∧ (k % 4 = 3 → ∀ j, new.getLsbD j = if j < 17 then (BitVec.ofNat 64 v).getLsbD j
              else decide (j = 17) && old.getLsbD 17 && !(BitVec.ofNat 64 v).getLsbD 17)))
    ∧ (s.windowOf off = none →
      exec (.hostBar2Access off (.write n v)) s = .next s
      ∧ exec (.hostBar2Access off (.read n)) s = .next { s with host := { s.host with readData := 0 } })
    ∧ (s.windowOf off = some w →
      (∀ s2, va % 128 + n ≤ 128 → 0 < n → s.hostLost ctx va n false = false → s.feRow ctx (va / 128 * 128) = (s2, .ok row) →
        exec (.hostBar2Access off (.read n)) s =
          .next { s2 with host := { s2.host with readData := row.toNat / 2 ^ (8 * (va % 128)) % 2 ^ (8 * n) } })
      ∧ (s.hostLost ctx va n true = false → exec (.hostBar2Access off (.write n v)) s = .next (s.feWrite ctx va n v))
      ∧ (∀ g, s.whereIs va = .package g → exec (.hostBar2Access off (.write n v)) s = .next (s.windowAbs w))
      ∧ (s.hostLost ctx va n true = true → ∃ t, exec (.hostBar2Access off (.write n v)) s = .next t
        ∧ t.window w 3 / 2 ^ 17 % 2 = 1)
      ∧ (s.hostLost ctx va 8 true = false → s.feRead ctx va 8 = (s1, .ok x) →
        let answered := fun (u : State) => (.next { u with host := { u.host with readData := x } } : Result)
        exec (.hostBar2Access off (.fetchAdd inc)) s = answered (s1.feWrite ctx va 8 ((x + inc.toNat) % 2 ^ 64))
        ∧ exec (.hostBar2Access off (.swap sw)) s = answered (s1.feWrite ctx va 8 sw.toNat)
        ∧ exec (.hostBar2Access off (.cas exp sw)) s = answered (if x = exp.toNat then s1.feWrite ctx va 8 sw.toNat else s1)))
    ∧ exec .journalClear s = .next { s with journal := [] }

/-! ## Debug, samples, time -/

/-- R249, R331, R333, R334, R336, R338: a debug stop halts the cores that it names; a comparator of a queue starts one, a
comparator of the pc traps BREAKPOINT; head-class samples, the groups of one row that a vault counts and their samples; the adjustment of time, sync intervals and
messages. -/
def Obligations.Observation : Prop :=
  ∀ (s : State) (ctx n pq k p stamp : Nat) (ns rows : List Nat) (e : Eng) (oe : Option Eng) (off rate : Int) (y : Group)
    (later : List Group) (l : Loc),
    let named := s.stopNames ctx ns
    let q := s.core.queue e
    let spent := (q.since.foldl (· + ·) 0)
    let g := s.gang
    (s.rowsOut ctx named = false → ∃ t, exec (.debugStop ctx ns) s = .next t
      ∧ (∀ n ∈ named, (t.coreAt ctx n).stoppedAt = some 2 ∧ t.servedCtx n ≠ some ctx)
      ∧ ((∀ n, s.servedCtx n = some ctx → AtBoundary (s.coreAt ctx n)) → ∀ c n (r : Reg), (t.coreAt c n).rd r = (s.coreAt c n).rd r)
      ∧ t.ring.stopId = s.ring.stopId + 1 ∧ (∀ n ∈ named, (t.coreAt ctx n).lastCause = 2)
      ∧ (ns = [] → (t.context ctx).running = false))
    ∧ (s.rowsOut ctx named = true → exec (.debugStop ctx ns) s = .next s)
    ∧ (Serves s → q.atBreak = true → exec (.breakpointMatch s.cur (.queue e)) s = exec (.debugStop s.ctx []) s)
    ∧ (Serves s → s.coreRuns = true → s.core.cmpHit = some k → s.core.pend = false → s.core.inh = false → s.core.xhand ≠ 0 →
      ∃ t, exec (.breakpointMatch s.cur (.pc k)) s = .next t ∧ TakesTrap s t 0x10 (BitVec.ofNat 64 k) s.core.pc)
    ∧ (Serves s → s.hcsmp ≠ 0 → s.hcsmp ≤ spent → ∃ t, exec (.headClassSample s.cur e) s = .next t
      ∧ t.core = s.core.setQueue e { q with sampled := q.counters }
      ∧ (s.traceSize ≠ 0 → s.traceWrap = true → (e ≠ .v ∨ ∀ f, f < 64 → SMap.get 0 s.core.waitCount f = 0) →
          t.ring.count = s.ring.count + 1))
    ∧ (Serves s → (s.hcsmp = 0 ∨ spent < s.hcsmp) → exec (.headClassSample s.cur e) s = .next s)
    ∧ ((∀ y ∈ s.ring.groups, ¬(y.core = n ∧ y.eng = oe ∧ y.vault = pq ∧ y.rows = rows)) →
      exec (.bankConflictSample n oe pq rows) s = .next s)
    ∧ (s.ring.groups = y :: later →
      ∃ t, exec (.bankConflictSample y.core y.eng y.vault y.rows) s = .next t ∧ t.cores = s.cores ∧ t.ring.groups = later
        ∧ (let k := SMap.get 0 s.ring.bcCount y.vault + 1
           SMap.get 0 t.ring.bcCount y.vault = (if k < s.bcsmp y.vault then k else 0)
           ∧ (k < s.bcsmp y.vault → SameBytes s t ∧ t.ring.count = s.ring.count)
           ∧ (s.bcsmp y.vault ≤ k → s.traceSize ≠ 0 → s.traceWrap = true → t.ring.count = s.ring.count + 1)))
    ∧ (∃ t, t = s.noteGroup oe [l] ∧ t = { s with ring := t.ring }
      ∧ (∀ vp vr, s.physRow l = some (vp, vr) → t.ring.groups = s.ring.groups ++ (if 1 < s.bcthr vp then [] else
          [{ ctx := s.ctx, core := s.cur, eng := oe, vault := vp, rows := [vr], place := s.groupPlace oe }])))
    ∧ (rate ≤ 200000 → -200000 ≤ rate → ∃ t, exec (.ptpAdjustment off rate) s = .next t
      ∧ t.gang = { g with locked := true, rate := rate, offset := off } ∧ t.cores = s.cores
      ∧ t.time = if g.locked = false ∧ 1000000 < off then s.time + off.toNat else s.time)
    ∧ (62500000 * g.seqSync ≤ s.time → exec (.syncInterval false) s = .next { s with gang := { g with seqSync := g.seqSync + 1 } }
      ∧ (1000000000 * g.seqDelay ≤ s.time → exec (.syncInterval true) s =
          .next { s with gang := { g with seqSync := g.seqSync + 1, seqDelay := g.seqDelay + 1, t1 := s.time } }))
    ∧ (p < 64 → (s.port p).st = 2 →
      exec (.ptpMessage p .sync stamp) s = .next { s with gang := { g with t2 := s.time } }
      ∧ exec (.ptpMessage p .followUp stamp) s = .next { s with gang := { g with offset := (stamp : Int) + g.delay - g.t2 } }
      ∧ exec (.ptpMessage p .pdelayResp stamp) s =
          .next { s with gang := { g with delay := ((s.time : Int) - g.t1 - stamp) / 2 } })

/-! ## Ports and the gang -/

/-- R342 to R344: what a codeword, the loss of a lane and the end of training do to a port. -/
def Obligations.Links : Prop :=
  ∀ (s : State) (p n : Nat) (lanes : BitVec 2),
    let x := s.port p
    let becomes := fun (t : State) (y : Port) => t = { s with ports := t.ports } ∧ ∀ j, t.port j = if j = p then y else s.port j
    p < 64 →
    (x.st = 2 → n ≤ 15 → ∃ t, exec (.flitReceive p n) s = .next t ∧ becomes t { x with
      flits := x.flits + 10, corr := if n = 0 then x.corr else min (x.corr + 1) (2 ^ 32 - 1) })
    ∧ (x.st = 2 → 15 < n → ∃ t, exec (.flitReceive p n) s = .next t ∧ becomes t { x with retry := min (x.retry + 1) 65535 })
    ∧ (x.lanes ≠ 0 → ∃ t, exec (.laneRemoval p) s = .next t
      ∧ becomes t { x with lanes := x.lanes - 1, st := if x.lanes = 1 then 0 else x.st })
    ∧ (x.st ≠ 2 → ∃ t, exec (.linkUp p lanes) s = .next t
      ∧ becomes t { x with lanes := lanes, st := if lanes = 0 then 1 else 2 })

/-- R345 to R348, R351, R356, R358, R360: the gang; a remote operation at its home, its answer and its end without one; an
arrival at a POD barrier; a fence. -/
def Obligations.GangAndRemotes : Prop :=
  ∀ (s s1 : State) (pkg id self size ctx a l launch gen : Nat) (va : Word) (p : Spot) (data : Row) (mask : BitVec 128)
    (r : Remote) (groups : List (Nat × List Nat)) (row : Row) (collector : Nat),
    let g := s.gang
    let fenced : Gang := { g with
      fenced := g.fenced ++ [pkg], groups := g.groups.map (fun m => (m.1, m.2.filter (fun k => k != pkg))) }
    (id ≠ 0 → id < 2 ^ 32 → size ≤ 1024 → self < size → ctx < 4096 →
      ∃ t, exec (.gangBuild id self size ctx ⟨collector, groups⟩) s = .next t ∧ t = { s with gang := t.gang }
        ∧ t.gang = { g with id := id, self := self, size := size, ctx := ctx, collector := collector, groups := t.gang.groups,
                              fenced := [] }
        ∧ (t.gang.groups.find? (fun m => m.1 == 0)).map (fun m => m.2) = some (List.range size))
    ∧ (g.id ≠ 0 → pkg < g.size → pkg ≠ g.self → s.whereIs va.toNat = .here a →
      (s.homeSpot va.toNat false = (s1, .ok p) → s1.poisoned p = false →
        ∃ t d, exec (.remoteRequest pkg g.id va .readRow) s = .next t ∧ t.gang.out = s1.gang.out ++ [(pkg, .done, d)]
          ∧ SameBytes s1 t ∧ ∀ j, j < 128 → d.extractLsb' (8 * j) 8 = readByte (s1.space p.vault) (p.addr / 128 * 128 + j))
      ∧ (s.homeSpot va.toNat true = (s1, .ok p) → s1.poisoned p = false →
        ∃ t, exec (.remoteRequest pkg g.id va (.writeRow data mask)) s = .next t
          ∧ t.gang.out = s1.gang.out ++ [(pkg, .done, 0)]
          ∧ ∀ w b, readByte (t.space w) b = if w = p.vault ∧ b / 128 = p.addr / 128 ∧ mask.getLsbD (b % 128) = true
              then data.extractLsb' (8 * (b % 128)) 8 else readByte (s1.space w) b))
    ∧ (∀ op, g.id = 0 ∨ id ≠ g.id ∨ g.size ≤ pkg ∨ pkg = g.self → exec (.remoteRequest pkg id va op) s = .next s)
    ∧ (∀ n tag st, s.remotes.find? (fun m => m.id == id) = some r → (∀ m ∈ s.remotes, s.portWaits m = false) → r.kind = .engRead n tag → r.ctx = s.ctx → n = s.cur →
      ∃ t, exec (.remoteResponse id st row) s = .next t ∧ t.remotes = s.remotes.filter (fun m => m.id != id)
        ∧ t.core = { s.core with farRows := s.core.farRows ++ [(tag, r.va / 128 * 128, st, row)] } ∧ SameBytes s t)
    ∧ (∀ st, s.remotes.find? (fun m => m.id == id) = some r → s.portWaits r = true → exec (.remoteResponse id st row) s = .next s)
    ∧ (∀ n stamp, s.remotes.find? (fun m => m.id == id) = some r → (∀ m ∈ s.remotes, s.portWaits m = false) → r.id = id → r.kind = .store n stamp → r.ctx = s.ctx →
      n = s.cur → (r.sentAt + 1000 * s.setting 0x828 ≤ s.time ∨ r.pkg ∈ g.fenced) →
      ∃ t, exec (.remoteTimeout id) s = .next t ∧ t.remotes = s.remotes.filter (fun m => m.id != id) ∧ SameBytes s t
        ∧ t.core = { s.core with held := s.core.held ++ [{ code := 0x13, value := BitVec.ofNat 64 r.va }] })
    ∧ (g.id ≠ 0 → pkg < g.size → pkg ≠ g.self → g.fenced = [] → a < 4 →
      (List.range s.launches.length).find? (fun i => match s.launchAt i with
        | some y => y.number == launch && y.ctx == g.ctx && y.admitted && !y.retired
        | none => false) = some l →
      (s.barrier l 4 a 0).gen < gen →
      ∃ t, exec (.podBarrierArrival pkg launch a gen) s = .next t ∧ t = { s with barriers := t.barriers }
        ∧ t.barrier l 4 a 0 = { s.barrier l 4 a 0 with pods := insertNat (s.barrier l 4 a 0).pods (1024 * gen + pkg) })
    ∧ (s.fenceable pkg = true → (∀ m ∈ s.remotes, m.pkg ≠ pkg) → (∀ b ∈ s.barriers, b.scope ≠ 4) →
      exec (.fenceNotice pkg) s = .next { s with gang := fenced }
      ∧ (pkg ≠ g.self → exec (.packageFence pkg) s = .next { s with gang := fenced }))
    ∧ (s.fenceable pkg = false → exec (.fenceNotice pkg) s = .next s ∧ exec (.packageFence pkg) s = .next s)

/-! ## The package's upkeep -/

/-- R251 to R253, R284, R311 to R313, R339, R340: fencing a die, retiring a channel, live update, the steps of boot, the
clock, thermal throttling and shutdown, power-up and reset. -/
def Sys2Proof.Claims.Upkeep : Prop :=
  ∀ (s : State) (d stack ch j k : Nat) (r : StateRecord) (step : BitVec 16) (outcome : BitVec 8) (remap lost : Bool),
    let a := s.activeComplex
    let old := SMap.get {} s.complexes a
    let new := SMap.get {} s.complexes (1 - a)
    let idle := fun (ns : Nat) => ∀ t, s.clockAt = some t → t + ns ≤ s.time
    let clocked := fun (c : Nat) => (.next
      { s with clock := c, clockAt := some s.time, frac := s.frac * c / s.clock } : Result)
    let log := fun (o : BitVec 8) (st : BitVec 16) =>
      (s.journal ++ [{ ts := s.time, step := st, attempt := BitVec.ofNat 8 s.attempt, outcome := o }] : List Journal)
    (d < 8 → s.fencedDies.getLsbD d = false → (∃ e, e < 8 ∧ e ≠ d ∧ s.fencedDies.getLsbD e = false) →
      ∃ t, exec (.dieFence d) s = .next t ∧ t.remapVersion = s.remapVersion + 1
        ∧ (∀ e, e < 8 → t.fencedDies.getLsbD e = (s.fencedDies.getLsbD e || decide (e = d)))
        ∧ ∀ q pq, q < 64 → t.quadMap q = some pq → pq / 8 ≠ d)
    ∧ (d < 8 → s.fencedDies.getLsbD d = true → exec (.dieFence d) s = .next s)
    ∧ (stack < 12 → ch < 128 → (stack, ch) ∉ s.retiredChannels → (s.retiredChannels.filter (fun x => x.1 == stack)).length < 8 →
      exec (.channelRetirement stack ch) s = .next { s with retiredChannels := s.retiredChannels ++ [(stack, ch)] })
    ∧ (stack < 12 → ch < 128 → (stack, ch) ∉ s.retiredChannels → 8 ≤ (s.retiredChannels.filter (fun x => x.1 == stack)).length →
      s.journal.length < 512 →
      exec (.channelRetirement stack ch) s = .next { s with journal := log 1 (Config.journalStep (1 + 128 * stack + ch)) })
    ∧ (new.role ≠ 2 → s.quiescent = true → ∃ t, exec (.liveUpdate .pause) s = .next t
      ∧ t = { s with complexes := t.complexes, pqueues := t.pqueues, sram := t.sram } ∧ SMap.get {} t.complexes (1 - a) = { new with role := 2 }
      ∧ SMap.get {} t.complexes a = old ∧ ∀ q ∈ t.pqueues, q.2.enabled = true → q.2.paused = true)
    ∧ (new.role = 2 → (s.stateTable a).find? (fun x => !x.accepted) = some r → ∃ t, exec (.liveUpdate .take) s = .next t
      ∧ t = { s with complexes := t.complexes, pqueues := t.pqueues }
      ∧ SMap.get {} t.complexes (1 - a) = { new with role := 1, failKey := BitVec.ofNat 32 r.key } ∧ SMap.get {} t.complexes a = old
      ∧ ∀ q ∈ t.pqueues, q.2.paused = false)
    ∧ (new.role = 2 → (∀ x ∈ s.stateTable a, x.accepted = true) → ∃ t, exec (.liveUpdate .take) s = .next t ∧ t = { s with complexes := t.complexes, pqueues := t.pqueues }
      ∧ (SMap.get {} t.complexes (1 - a)).role = 0
      ∧ (∀ m, SMap.get 0 (SMap.get {} t.complexes (1 - a)).csr m =
          if m = 0x810 then SMap.get 0 new.csr m else SMap.get 0 old.csr m) ∧ (SMap.get {} t.complexes a) = { old with role := 1 }
      ∧ ∀ q ∈ t.pqueues, q.2.paused = false)
    ∧ (s.recovery = none → s.failedBefore step = false → s.journal.length < 512 →
      (outcome.toNat ≤ 1 → (remap = false ∨ outcome ≠ 0 ∨ s.remapVersion ≠ 0) →
        exec (.bootStep step outcome remap) s = .next { s with journal := log outcome step })
      ∧ (s.remapVersion = 0 → ∃ t, exec (.bootStep step 0 true) s = .next t ∧ t.journal = log 0 step ∧ t.remapVersion = 1
        ∧ ∀ n, n < 256 → t.physOf n = some (4 * bootQuad (n / 4) + n % 4)))
    ∧ (idle 1000000 → (10 ≤ s.clock → s.clock < 25 → exec (.clockStep .up) s = clocked (s.clock + 1))
      ∧ (10 < s.clock → s.clock ≤ 25 → exec (.clockStep .down) s = clocked (s.clock - 1))
      ∧ (10 < s.clock → 105 ≤ j ∨ 95 ≤ k → exec (.throttle j k) s = clocked (s.clock - 1)))
    ∧ (idle 10000000 → s.clock < 25 → j < 105 → k < 95 → exec (.throttle j k) s = clocked (s.clock + 1))
    ∧ (115 ≤ j → s.journal.length < 512 → ∃ t st, exec (.shutdown j) s = .next t ∧ t = { s with dead := true, journal := log 1 st })
    ∧ (j < 115 → exec (.shutdown j) s = .next s)
    ∧ (∃ t, exec (.powerUp lost) s = .next t ∧ t.time = 0 ∧ t.now = 0 ∧ t.cores = [] ∧ t.launches = [] ∧ t.host = {}
      ∧ t.journal = (if lost then [] else s.journal) ∧ t.dead = false
      ∧ ∀ b, readByte t.mem b = if b / 2 ^ 47 % 2 = 1 then readByte s.mem b else 0)
    ∧ ∃ t, exec .packageReset s = .next t ∧ t.now = 0 ∧ t.time = s.time ∧ t.cores = [] ∧ t.launches = [] ∧ t.host = {}
      ∧ t.journal = s.journal ∧ t.mem = s.mem

/-! ## Steps, words, reset -/

/-- The instruction cache of the acting core holds w at an address. -/
def Sys2Proof.Claims.CachedWord (s : State) (a : Nat) (w : BitVec 32) : Prop :=
  ∃ x, s.core.icache.find? (fun x => x.1 == a / 128 * 128) = some x ∧ w = x.2.extractLsb' (32 * (a % 128 / 4)) 32

/-- What has come about by itself stands first: leases that are over have ended, claims of other packages have their room.
A turn of a control core runs the instruction that the words at its pc decode to, and the cycles that it takes pass; a
turn of a sequencer runs the word at its position; a turn of a step without an encoding performs it. -/
def Obligations.StepRunsTheInstruction : Prop :=
  ∀ (s : State) (n ctx : Nat) (e : Eng) (i : Instr) (w : BitVec 32) (ws : List (BitVec 32)) (rest : List Turn) (a : Active)
    (row : Row),
    let s0 : State := { s.settled with agenda := rest }
    s.dead = false → n < 256 → s0.servedCtx n = some ctx →
    (let v : State := ({ s0 with ctx := ctx, cur := n } : State).upd Core.passBar
     s.settled.agenda = .core n :: rest → v.coreRuns = true → v.core.waiting ≠ some .exit → (v.core.pend = false ∨ v.core.inh = true) → v.core.cmpHit = none →
     (∀ j, j < ws.length + 1 → CachedWord v (v.core.pc.toNat + 4 * j) ((w :: ws).getD j 0)) →
     firstWordError w = none → wordCount w = ws.length + 1 → decodeWords (w :: ws) = .ok i → v.core.interlocked i = false →
     s0.unclaimed n [0] = none → s0.unclaimed n (v.touchedBanks i) = none →
     (∀ u, exec i v = .next u → u.core.waiting = none ∨ (∀ k, u.partner u.cur ≠ some k) → ∃ t, step s = .next t ∧ KeepsData u t ∧ t.launches = u.launches
       ∧ t.now = u.now + (if u.core.pc = v.core.pc ∨ u.core.pc = v.core.pc + BitVec.ofNat 64 (byteLength i) then 1 else 2)
       ∧ ∀ c m, (u.coreAt c m).waiting = none → (t.coreAt c m).pc = (u.coreAt c m).pc)
     ∧ (∀ f, exec i v = .fault f → step s = .fault f) ∧ ∀ r, exec i v = .refused r → step s = .refused r)
    ∧ (let v : State := { s0 with ctx := ctx, cur := n, eng := e }
       let x := row.extractLsb' (48 * a.slot) 48
       s.settled.agenda = .engine n e :: rest → s0.engineCtx n = some ctx → v.q.stopped = none → v.q.act = some a → a.skip = 0 →
       (a.inner = none ∨ a.innerBegun = true) → (∃ r0 sl p0 p1 p2 p3, r0.toNat < 2 ^ 57 ∧ a.cur.body = .stream r0 sl p0 p1 p2 p3) →
       a.held = some (a.row, row) → ((x.extractLsb' 46 2).toNat = 3 ∨ (x.extractLsb' 46 2).toNat = engNum e) →
       decodeEng x = .ok i → s0.unclaimed n (engineBanks n a.rep i) = none →
       (e = .m → v.core.loanLent = none ∧ v.core.loanBorrowed = []) → step s = exec i v)
    ∧ (s.settled.agenda = .event i :: rest → encode i = .step → step s = exec i s0)

/-- R340: a package that SHUTDOWN has stopped takes nothing but a power-up. -/
def Sys2Proof.Claims.DeadPackage : Prop :=
  ∀ (s : State) (lost : Bool) (rest : List Turn), s.dead = true →
    (s.agenda = .event (.powerUp lost) :: rest → step s = exec (.powerUp lost) { s with agenda := rest })
    ∧ ((∀ l r, s.agenda ≠ .event (.powerUp l) :: r) → step s = .fault .packageStopped)

/-- R251 to R253, R284, R311 to R313, R339, R340: the upkeep of the package, and the package that SHUTDOWN has stopped. -/
def Obligations.PackageUpkeep : Prop := Upkeep ∧ DeadPackage

/-- R46 to R60: words written out bit by bit from the encoding tables decode to the instructions that they stand for. -/
def Obligations.WordsDecode : Prop :=
  decodeWords [0x00221800] = .ok (.add 1 2 3)
  ∧ decodeWords [0x0422FFFF] = .ok (.addi 1 2 0xFFFF)
  ∧ decodeWords [0x43B20004] = .ok (.beq 29 18 4)
  ∧ decodeWords [0x80A60189] = .ok (.ldW 5 3 0 3 9)
  ∧ decodeWords [0xF8146880, 0x00200C10, 0x83080000] = .ok (.issue 0 5 6 2 1 0x00200C108308)
  ∧ decodeEng 0x00200C108308 = .ok (.vadd { d := 1, a := 2, b := 3, ty := 0, step := 1, mask := 0, sc := 2, rc := 3 })
  ∧ decodeEng 0x03003C801049 = .ok (.vfma { d := 8, a := 0, b := 16, ty := 2, step := 1, mask := 1, sc := 0, rc := 15 })
  ∧ decodeEng 0xCA0000000000 = .ok (.send 0 0)

/-- R12, R85, R251, R331: the package right after power-up: no task, no launch, every register zero, the counters at 0, no
remap entry valid, memory in its canonical form. The zero of each register is the model's choice (log entry 1). -/
def Obligations.ResetState : Prop :=
  let s := State.reset
  s.now = 0 ∧ s.time = 0 ∧ s.remapVersion = 0 ∧ s.launches = [] ∧ s.traces = [] ∧ s.dead = false
  ∧ (∀ n, s.physOf n = none) ∧ (∀ c n (r : Reg), (s.coreAt c n).rd r = 0) ∧ (∀ c n (k : HReg), ((s.coreAt c n).handle k.toNat).valid = false)
  ∧ (∀ c n, (s.coreAt c n).task = none ∧ (s.coreAt c n).interlock = false ∧ (s.coreAt c n).inh = false)
  ∧ (∀ q, (s.pqueue q).enabled = false) ∧ s.gang.id = 0 ∧ Sys2Proof.Safety.MemoryOk s

/-- R46 to R61: the encoder writes a well-formed instruction into words that the decoder reads back as that instruction, with
every operand; a step of the part has no words. -/
def Obligations.EncodingRoundTrips : Prop :=
  (∀ i : Instr, Sys2Proof.Laws.RoundTrip.Statement i)
  ∧ ∀ i j : Instr, i.wf = true → j.wf = true → encode i ≠ .step → encode i = encode j → i = j

/-- R192, R237, R240: device and host memory, the vaults and the firmware memories keep their one form, addresses rising and
no byte listed that reads as an unlisted one, whatever a step does: an instruction, a word, a row of a command, a save, a
restore, an image, a move of quads, a power-up. The form is the model's way to hold memory (log entry 2). -/
def Obligations.MemoryStaysCanonical : Prop :=
  ∀ s t : State, Sys2Proof.Safety.MemoryOk s → step s = .next t → Sys2Proof.Safety.MemoryOk t
end

