-- ==== Sys2Proof/Laws/Map.lean ====
section
/-! SUPPORT. The laws of sparse maps: a read after a write, and the canonical form that every operation keeps. -/

namespace Sys2Proof.Machine

variable {α : Type}

/-! ## Reading -/

@[simp] theorem SMap.get_nil (d : α) (k : Nat) : SMap.get d [] k = d := rfl

theorem SMap.get_erase (d : α) (m : SMap α) (k j : Nat) :
    SMap.get d (SMap.erase m k) j = if j = k then d else SMap.get d m j := by
  induction m with
  | nil => simp [SMap.erase]
  | cons p m ih =>
    obtain ⟨i, v⟩ := p
    by_cases hi : i = k
    · by_cases hj : j = k
      · rw [SMap.erase, if_pos hi, ih, if_pos hj, if_pos hj]
      · rw [SMap.erase, if_pos hi, ih, if_neg hj, if_neg hj, SMap.get, if_neg (by omega)]
    · by_cases hj : j = k
      · rw [SMap.erase, if_neg hi, SMap.get, ih, if_pos hj, if_neg (by omega), if_pos hj]
      · rw [SMap.erase, if_neg hi, SMap.get, ih, if_neg hj, if_neg hj, SMap.get]

theorem SMap.get_put (d : α) (m : SMap α) (k : Nat) (x : α) (j : Nat) :
    SMap.get d (SMap.put m k x) j = if j = k then x else SMap.get d m j := by
  induction m with
  | nil =>
    rw [SMap.put, SMap.get, SMap.get]
    by_cases hj : j = k
    · rw [if_pos hj.symm, if_pos hj]
    · rw [if_neg (Ne.symm hj), if_neg hj, SMap.get_nil]
  | cons p m ih =>
    obtain ⟨i, v⟩ := p
    by_cases hj : j = k
    · subst hj
      rw [SMap.put, if_pos rfl]
      split
      · rw [SMap.get, if_pos rfl]
      · split
        · rw [SMap.get, if_pos rfl]
        · rw [SMap.get, ih, if_neg ‹_›, if_pos rfl]
    · rw [SMap.put, if_neg hj]
      split
      · subst_vars
        rw [SMap.get, SMap.get, if_neg (Ne.symm hj), if_neg (Ne.symm hj)]
      · split
        · rw [SMap.get, if_neg (Ne.symm hj)]
        · rw [SMap.get, SMap.get, ih, if_neg hj]

/-- A read after a write. -/
theorem SMap.get_set [DecidableEq α] (d : α) (m : SMap α) (k : Nat) (x : α) (j : Nat) :
    SMap.get d (SMap.set d m k x) j = if j = k then x else SMap.get d m j := by
  unfold SMap.set
  split
  · rename_i h
    rw [SMap.get_erase, h]
  · exact SMap.get_put d m k x j

@[simp] theorem SMap.get_set_same [DecidableEq α] (d : α) (m : SMap α) (k : Nat) (x : α) :
    SMap.get d (SMap.set d m k x) k = x := by rw [SMap.get_set, if_pos rfl]

theorem SMap.get_set_ne [DecidableEq α] (d : α) (m : SMap α) {k j : Nat} (x : α) (h : j ≠ k) :
    SMap.get d (SMap.set d m k x) j = SMap.get d m j := by rw [SMap.get_set, if_neg h]

/-! ## The canonical form -/

theorem SMap.wfFrom_mono [DecidableEq α] (d : α) {m : SMap α} {lo hi : Nat} (h : lo ≤ hi)
    (w : SMap.wfFrom d hi m = true) : SMap.wfFrom d lo m = true := by
  cases m with
  | nil => rfl
  | cons p m =>
    obtain ⟨j, v⟩ := p
    simp only [SMap.wfFrom, Bool.and_eq_true, decide_eq_true_eq] at w ⊢
    exact ⟨⟨Nat.le_trans h w.1.1, w.1.2⟩, w.2⟩

theorem SMap.wfFrom_erase [DecidableEq α] (d : α) {m : SMap α} {lo k : Nat} (w : SMap.wfFrom d lo m = true) :
    SMap.wfFrom d lo (SMap.erase m k) = true := by
  induction m generalizing lo with
  | nil => rfl
  | cons p m ih =>
    obtain ⟨j, v⟩ := p
    simp only [SMap.wfFrom, Bool.and_eq_true, decide_eq_true_eq] at w
    simp only [SMap.erase]
    split
    · exact ih (SMap.wfFrom_mono d (by omega) w.2)
    · simp only [SMap.wfFrom, Bool.and_eq_true, decide_eq_true_eq]
      exact ⟨w.1, ih w.2⟩

theorem SMap.wfFrom_put [DecidableEq α] (d : α) {m : SMap α} {lo k : Nat} {x : α} (hx : x ≠ d) (hk : lo ≤ k)
    (w : SMap.wfFrom d lo m = true) : SMap.wfFrom d lo (SMap.put m k x) = true := by
  induction m generalizing lo with
  | nil => simp [SMap.put, SMap.wfFrom, hx, hk]
  | cons p m ih =>
    obtain ⟨j, v⟩ := p
    simp only [SMap.wfFrom, Bool.and_eq_true, decide_eq_true_eq] at w
    simp only [SMap.put]
    split
    · subst_vars
      simp only [SMap.wfFrom, Bool.and_eq_true, decide_eq_true_eq]
      exact ⟨⟨hk, hx⟩, w.2⟩
    · split
      · simp only [SMap.wfFrom, Bool.and_eq_true, decide_eq_true_eq]
        exact ⟨⟨hk, hx⟩, ⟨by omega, w.1.2⟩, w.2⟩
      · simp only [SMap.wfFrom, Bool.and_eq_true, decide_eq_true_eq]
        exact ⟨w.1, ih (by omega) w.2⟩

theorem SMap.wf_set [DecidableEq α] (d : α) {m : SMap α} (k : Nat) (x : α) (w : SMap.wf d m = true) :
    SMap.wf d (SMap.set d m k x) = true := by
  unfold SMap.set
  split
  · exact SMap.wfFrom_erase d w
  · rename_i h
    exact SMap.wfFrom_put d h (Nat.zero_le k) w

/-- A filter keeps the canonical form. -/
theorem SMap.wfFrom_filter [DecidableEq α] (d : α) (p : Nat × α → Bool) {m : SMap α} {lo : Nat}
    (w : SMap.wfFrom d lo m = true) : SMap.wfFrom d lo (m.filter p) = true := by
  induction m generalizing lo with
  | nil => rfl
  | cons x m ih =>
    obtain ⟨j, v⟩ := x
    simp only [SMap.wfFrom, Bool.and_eq_true, decide_eq_true_eq] at w
    rw [List.filter_cons]
    split
    · simp only [SMap.wfFrom, Bool.and_eq_true, decide_eq_true_eq]
      exact ⟨w.1, ih w.2⟩
    · exact ih (SMap.wfFrom_mono d (by omega) w.2)

/-- A key below every listed one reads as the default. -/
theorem SMap.get_below [DecidableEq α] (d : α) {m : SMap α} {lo k : Nat} (w : SMap.wfFrom d lo m = true) (h : k < lo) :
    SMap.get d m k = d := by
  induction m generalizing lo with
  | nil => rfl
  | cons p m ih =>
    obtain ⟨j, v⟩ := p
    simp only [SMap.wfFrom, Bool.and_eq_true, decide_eq_true_eq] at w
    rw [SMap.get, if_neg (by omega)]
    exact ih w.2 (by omega)

/-- Two canonical maps that read alike are equal. -/
theorem SMap.ext_wfFrom [DecidableEq α] (d : α) {m n : SMap α} {lo : Nat} (wm : SMap.wfFrom d lo m = true)
    (wn : SMap.wfFrom d lo n = true) (h : ∀ k, SMap.get d m k = SMap.get d n k) : m = n := by
  induction m generalizing n lo with
  | nil =>
    cases n with
    | nil => rfl
    | cons q n =>
      obtain ⟨j, v⟩ := q
      simp only [SMap.wfFrom, Bool.and_eq_true, decide_eq_true_eq] at wn
      have := h j
      simp only [SMap.get, if_true] at this
      exact absurd this.symm wn.1.2
  | cons p m ih =>
    obtain ⟨i, u⟩ := p
    simp only [SMap.wfFrom, Bool.and_eq_true, decide_eq_true_eq] at wm
    cases n with
    | nil =>
      have := h i
      simp only [SMap.get, if_true] at this
      exact absurd this wm.1.2
    | cons q n =>
      obtain ⟨j, v⟩ := q
      simp only [SMap.wfFrom, Bool.and_eq_true, decide_eq_true_eq] at wn
      have hij : i = j := by
        rcases Nat.lt_trichotomy i j with c | c | c
        · have := h i
          rw [SMap.get, if_pos rfl, SMap.get, if_neg (by omega), SMap.get_below d wn.2 (by omega)] at this
          exact absurd this wm.1.2
        · exact c
        · have := h j
          rw [SMap.get, if_neg (by omega), SMap.get_below d wm.2 (by omega), SMap.get, if_pos rfl] at this
          exact absurd this.symm wn.1.2
      subst hij
      have huv : u = v := by
        have := h i
        simpa only [SMap.get, if_true] using this
      subst huv
      rw [ih wm.2 wn.2]
      intro k
      by_cases hk : k ≤ i
      · rw [SMap.get_below d wm.2 (by omega), SMap.get_below d wn.2 (by omega)]
      · have := h k
        rwa [SMap.get, SMap.get, if_neg (by omega), if_neg (by omega)] at this

/-- Canonical maps that read alike are equal. -/
theorem SMap.ext_wf [DecidableEq α] (d : α) {m n : SMap α} (wm : SMap.wf d m = true) (wn : SMap.wf d n = true)
    (h : ∀ k, SMap.get d m k = SMap.get d n k) : m = n := SMap.ext_wfFrom d wm wn h

end Sys2Proof.Machine
end

