-- ==== Sys2Proof/Laws/Mem.lean ====
section
/-! SUPPORT. The laws of memory and of vault bytes: a byte read after a write, and the canonical form that every memory
operation keeps. -/

namespace Sys2Proof.Machine

/-! ## One byte -/

theorem readByte_writeByte (m : List Host.Cell) (a : Nat) (b : Byte) (j : Nat) :
    readByte (writeByte m a b) j = if j = a then b else readByte m j := SMap.get_set blankByte m a b j

theorem wf_writeByte {m : List Host.Cell} (a : Nat) (b : Byte) (w : Memory.wf m = true) :
    Memory.wf (writeByte m a b) = true := SMap.wf_set blankByte a b w

/-- Two canonical memories that read alike are one list. -/
theorem Memory.ext {m n : List Host.Cell} (wm : Memory.wf m = true) (wn : Memory.wf n = true)
    (h : ∀ a, readByte m a = readByte n a) : m = n := SMap.ext_wf blankByte wm wn h

/-! ## Numbers -/

theorem readByte_writeNat (m : List Host.Cell) (a n v j : Nat) :
    readByte (writeNat m a n v) j =
      if a ≤ j ∧ j < a + n then BitVec.ofNat 8 (v / 256 ^ (j - a)) else readByte m j := by
  induction n generalizing m a v with
  | zero => rw [writeNat, if_neg (by omega)]
  | succ n ih =>
    rw [writeNat, ih, readByte_writeByte]
    by_cases h : j = a
    · subst h
      rw [if_neg (by omega), if_pos rfl, if_pos (by omega)]
      simp
    · by_cases h1 : a + 1 ≤ j ∧ j < a + 1 + n
      · rw [if_pos h1, if_pos (by omega), Nat.div_div_eq_div_mul, ← Nat.pow_succ']
        congr 3
        omega
      · rw [if_neg h1, if_neg h, if_neg (by omega)]

theorem wf_writeNat {m : List Host.Cell} (a n v : Nat) (w : Memory.wf m = true) : Memory.wf (writeNat m a n v) = true := by
  induction n generalizing m a v with
  | zero => exact w
  | succ n ih => exact ih _ _ (wf_writeByte _ _ w)

/-! ## Rows -/

theorem readByte_writeMasked (m : List Host.Cell) (a : Nat) (mask : BitVec 128) (n i v j : Nat) :
    readByte (writeMasked m a mask n i v) j =
      if a + i ≤ j ∧ j < a + i + n ∧ mask.getLsbD (j - a) = true then BitVec.ofNat 8 (v / 256 ^ (j - a - i))
      else readByte m j := by
  induction n generalizing m i v with
  | zero => rw [writeMasked, if_neg (by omega)]
  | succ n ih =>
    rw [writeMasked, ih]
    by_cases h : j = a + i
    · subst h
      rw [if_neg (by omega)]
      by_cases hm : mask.getLsbD i
      · rw [if_pos hm, readByte_writeByte, if_pos rfl, if_pos ⟨by omega, by omega, by simpa using hm⟩]
        simp
      · rw [if_neg hm, if_neg]
        rintro ⟨-, -, c⟩
        exact hm (by simpa using c)
    · have hr : readByte (if mask.getLsbD i = true then writeByte m (a + i) (BitVec.ofNat 8 v) else m) j = readByte m j := by
        split
        · rw [readByte_writeByte, if_neg h]
        · rfl
      rw [hr]
      by_cases h1 : a + (i + 1) ≤ j ∧ j < a + (i + 1) + n ∧ mask.getLsbD (j - a) = true
      · rw [if_pos h1, if_pos ⟨by omega, by omega, h1.2.2⟩, Nat.div_div_eq_div_mul, ← Nat.pow_succ']
        congr 3
        omega
      · rw [if_neg h1, if_neg (fun c => h1 ⟨by omega, by omega, c.2.2⟩)]

theorem wf_writeMasked {m : List Host.Cell} (a : Nat) (mask : BitVec 128) (n i v : Nat) (w : Memory.wf m = true) :
    Memory.wf (writeMasked m a mask n i v) = true := by
  induction n generalizing m i v with
  | zero => exact w
  | succ n ih =>
    refine ih _ _ ?_
    split
    · exact wf_writeByte _ _ w
    · exact w

/-- A masked row write changes the masked bytes of its row and no other byte (R66). -/
theorem readByte_writeRow (m : List Host.Cell) (a : Nat) (data : Row) (mask : BitVec 128) (j : Nat) :
    readByte (writeRow m a data mask) j =
      if j / 128 = a / 128 ∧ mask.getLsbD (j % 128) = true then data.extractLsb' (8 * (j % 128)) 8 else readByte m j := by
  rw [writeRow, readByte_writeMasked]
  have hb : rowBase a = a / 128 * 128 := rfl
  by_cases h : j / 128 = a / 128
  · have e : j - rowBase a = j % 128 := by omega
    by_cases hm : mask.getLsbD (j % 128) = true
    · rw [if_pos ⟨by omega, by omega, by rw [e]; exact hm⟩, if_pos ⟨h, hm⟩]
      rw [show j - rowBase a - 0 = j % 128 by omega]
      apply BitVec.eq_of_toNat_eq
      rw [BitVec.toNat_ofNat, BitVec.extractLsb'_toNat, Nat.shiftRight_eq_div_pow, Nat.pow_mul]
    · rw [if_neg (fun c => hm (by rw [← e]; exact c.2.2)), if_neg (fun c => hm c.2)]
  · rw [if_neg (by omega), if_neg (fun c => h c.1)]

theorem wf_writeRow {m : List Host.Cell} (a : Nat) (data : Row) (mask : BitVec 128) (w : Memory.wf m = true) :
    Memory.wf (writeRow m a data mask) = true := wf_writeMasked _ _ _ _ _ w

/-- Erasing a range of bytes keeps the canonical form. -/
theorem wf_eraseRange {m : List Host.Cell} (lo n : Nat) (w : Memory.wf m = true) : Memory.wf (eraseRange m lo n) = true :=
  SMap.wfFrom_filter blankByte _ w

/-! ## The spaces of the state -/

/-- The bytes that a write of a row leaves, in both spaces. -/
theorem State.readByte_writeRowAt (s : State) (p : Spot) (data : Row) (mask : BitVec 128) (v : Bool) (j : Nat) :
    readByte ((s.writeRowAt p data mask).space v) j =
      if v = p.vault ∧ j / 128 = p.addr / 128 ∧ mask.getLsbD (j % 128) = true then data.extractLsb' (8 * (j % 128)) 8
      else readByte (s.space v) j := by
  unfold State.writeRowAt State.space
  by_cases hp : p.vault = true <;> by_cases hv : v = true <;> simp [hp, hv, readByte_writeRow]

/-- A write of a row changes memory, vault bytes and their poison only. -/
theorem State.writeRowAt_frame (s : State) (p : Spot) (data : Row) (mask : BitVec 128) :
    ∃ m mp v vp, s.writeRowAt p data mask = { s with mem := m, memPoison := mp, vault := v, vaultPoison := vp } := by
  unfold State.writeRowAt
  split
  · exact ⟨s.mem, s.memPoison, _, _, rfl⟩
  · exact ⟨_, _, s.vault, s.vaultPoison, rfl⟩

end Sys2Proof.Machine
end

