-- ==== Sys2Proof/Laws/State.lean ====
section
/-! SUPPORT. What each update of the state and of a core leaves as it was, field by field, and what it reads back. -/

namespace Sys2Proof.Machine

set_option Elab.async false

/-! ## Cores of the state -/

theorem State.coreAt_setCoreAt (s : State) (a n b k : Nat) (c : Core) :
    (s.setCoreAt a n c).coreAt b k = if coreKey b k = coreKey a n then c else s.coreAt b k :=
  SMap.get_set ({} : Core) s.cores (coreKey a n) c (coreKey b k)

@[simp] theorem State.core_setCore (s : State) (c : Core) : (s.setCore c).core = c :=
  SMap.get_set_same ({} : Core) s.cores (coreKey s.ctx s.cur) c

@[simp] theorem State.core_upd (s : State) (f : Core → Core) : (s.upd f).core = f s.core := State.core_setCore s (f s.core)

theorem State.coreAt_upd_ne (s : State) (f : Core → Core) {b k : Nat} (h : coreKey b k ≠ coreKey s.ctx s.cur) :
    (s.upd f).coreAt b k = s.coreAt b k := by
  rw [State.upd, State.setCore, State.coreAt_setCoreAt, if_neg h]

/-! ## Registers -/

@[simp] theorem Core.rd_zero (c : Core) : c.rd 0 = 0 := rfl

/-- Register d holds what was written, s0 still zero; the other registers are as they were (R73). -/
theorem Core.rd_wr (c : Core) (d : Reg) (v : Word) (k : Reg) :
    (c.wr d v).rd k = if k = d ∧ d ≠ 0 then v else c.rd k := by
  unfold Core.wr Core.rd
  by_cases hd : d = 0
  · simp [hd]
  · by_cases hk : k = 0
    · have : ¬(k = d ∧ d ≠ 0) := fun h => hd (h.1 ▸ hk)
      simp [hk]
      intro h
      exact absurd h.symm hd
    · rw [if_neg hd, if_neg hk, SMap.get_set, if_neg hk]
      by_cases h : k = d
      · rw [if_pos (by rw [h]), if_pos ⟨h, hd⟩]
      · have : ¬k.toNat = d.toNat := fun e => h (BitVec.eq_of_toNat_eq e)
        simp [h, this]

@[simp] theorem Core.rd_advancePc (c : Core) (n : Nat) (k : Reg) : (c.advancePc n).rd k = c.rd k := rfl

/-- Mask d holds what was written, m0 still all ones; the others are as they were (R82). -/
theorem Core.mask_setMask (c : Core) (d : Nat) (x : BitVec 128) (k : Nat) :
    (c.setMask d x).mask k = if k = d ∧ d ≠ 0 then x else c.mask k := by
  unfold Core.setMask Core.mask
  by_cases hd : d = 0
  · simp [hd]
  · by_cases hk : k = 0
    · have : ¬(k = d ∧ d ≠ 0) := fun h => hd (h.1 ▸ hk)
      simp [hk]
      intro h
      exact absurd h.symm hd
    · rw [if_neg hd, if_neg hk, SMap.get_set, if_neg hk]
      by_cases h : k = d <;> simp [h, hd]

/-- Handle d holds what was written, h0 still the null handle; the others are as they were (R12). -/
theorem Core.handle_setHandle (c : Core) (d : Nat) (x : Handle) (k : Nat) :
    (c.setHandle d x).handle k = if k = d ∧ d ≠ 0 then x else c.handle k := by
  unfold Core.setHandle Core.handle
  by_cases hd : d = 0
  · simp [hd]
  · by_cases hk : k = 0
    · have : ¬(k = d ∧ d ≠ 0) := fun h => hd (h.1 ▸ hk)
      simp [hk]
      intro h
      exact absurd h.symm hd
    · rw [if_neg hd, if_neg hk, SMap.get_set, if_neg hk]
      by_cases h : k = d <;> simp [h, hd]

/-- A queue reads back; the other two are as they were (R121). -/
theorem Core.queue_setQueue (c : Core) (e k : Eng) (q : Queue) :
    (c.setQueue e q).queue k = if k = e then q else c.queue k := by
  cases e <;> cases k <;> rfl

/-! ## Frames -/

@[simp] theorem State.setCoreAt_agenda (s : State) (a n : Nat) (c : Core) : (s.setCoreAt a n c).agenda = s.agenda := rfl
@[simp] theorem State.setCoreAt_ctx (s : State) (a n : Nat) (c : Core) : (s.setCoreAt a n c).ctx = s.ctx := rfl
@[simp] theorem State.setCoreAt_cur (s : State) (a n : Nat) (c : Core) : (s.setCoreAt a n c).cur = s.cur := rfl
@[simp] theorem State.setCoreAt_eng (s : State) (a n : Nat) (c : Core) : (s.setCoreAt a n c).eng = s.eng := rfl
@[simp] theorem State.setCoreAt_favoured (s : State) (a n : Nat) (c : Core) : (s.setCoreAt a n c).favoured = s.favoured := rfl
@[simp] theorem State.setCoreAt_now (s : State) (a n : Nat) (c : Core) : (s.setCoreAt a n c).now = s.now := rfl
@[simp] theorem State.setCoreAt_time (s : State) (a n : Nat) (c : Core) : (s.setCoreAt a n c).time = s.time := rfl
@[simp] theorem State.setCoreAt_frac (s : State) (a n : Nat) (c : Core) : (s.setCoreAt a n c).frac = s.frac := rfl
@[simp] theorem State.setCoreAt_clock (s : State) (a n : Nat) (c : Core) : (s.setCoreAt a n c).clock = s.clock := rfl
@[simp] theorem State.setCoreAt_clockAt (s : State) (a n : Nat) (c : Core) : (s.setCoreAt a n c).clockAt = s.clockAt := rfl
@[simp] theorem State.setCoreAt_dead (s : State) (a n : Nat) (c : Core) : (s.setCoreAt a n c).dead = s.dead := rfl
@[simp] theorem State.setCoreAt_mem (s : State) (a n : Nat) (c : Core) : (s.setCoreAt a n c).mem = s.mem := rfl
@[simp] theorem State.setCoreAt_memPoison (s : State) (a n : Nat) (c : Core) : (s.setCoreAt a n c).memPoison = s.memPoison := rfl
@[simp] theorem State.setCoreAt_sram (s : State) (a n : Nat) (c : Core) : (s.setCoreAt a n c).sram = s.sram := rfl
@[simp] theorem State.setCoreAt_vault (s : State) (a n : Nat) (c : Core) : (s.setCoreAt a n c).vault = s.vault := rfl
@[simp] theorem State.setCoreAt_vaultPoison (s : State) (a n : Nat) (c : Core) : (s.setCoreAt a n c).vaultPoison = s.vaultPoison := rfl
@[simp] theorem State.setCoreAt_flips (s : State) (a n : Nat) (c : Core) : (s.setCoreAt a n c).flips = s.flips := rfl
@[simp] theorem State.setCoreAt_vaultFixed (s : State) (a n : Nat) (c : Core) : (s.setCoreAt a n c).vaultFixed = s.vaultFixed := rfl
@[simp] theorem State.setCoreAt_scrubbed (s : State) (a n : Nat) (c : Core) : (s.setCoreAt a n c).scrubbed = s.scrubbed := rfl
@[simp] theorem State.setCoreAt_scrubAt (s : State) (a n : Nat) (c : Core) : (s.setCoreAt a n c).scrubAt = s.scrubAt := rfl
@[simp] theorem State.setCoreAt_phys (s : State) (a n : Nat) (c : Core) : (s.setCoreAt a n c).phys = s.phys := rfl
@[simp] theorem State.setCoreAt_quads (s : State) (a n : Nat) (c : Core) : (s.setCoreAt a n c).quads = s.quads := rfl
@[simp] theorem State.setCoreAt_phases (s : State) (a n : Nat) (c : Core) : (s.setCoreAt a n c).phases = s.phases := rfl
@[simp] theorem State.setCoreAt_segs (s : State) (a n : Nat) (c : Core) : (s.setCoreAt a n c).segs = s.segs := rfl
@[simp] theorem State.setCoreAt_claims (s : State) (a n : Nat) (c : Core) : (s.setCoreAt a n c).claims = s.claims := rfl
@[simp] theorem State.setCoreAt_nextClaim (s : State) (a n : Nat) (c : Core) : (s.setCoreAt a n c).nextClaim = s.nextClaim := rfl
@[simp] theorem State.setCoreAt_dir (s : State) (a n : Nat) (c : Core) : (s.setCoreAt a n c).dir = s.dir := rfl
@[simp] theorem State.setCoreAt_contribs (s : State) (a n : Nat) (c : Core) : (s.setCoreAt a n c).contribs = s.contribs := rfl
@[simp] theorem State.setCoreAt_nextContrib (s : State) (a n : Nat) (c : Core) : (s.setCoreAt a n c).nextContrib = s.nextContrib := rfl
@[simp] theorem State.setCoreAt_rounds (s : State) (a n : Nat) (c : Core) : (s.setCoreAt a n c).rounds = s.rounds := rfl
@[simp] theorem State.setCoreAt_gates (s : State) (a n : Nat) (c : Core) : (s.setCoreAt a n c).gates = s.gates := rfl
@[simp] theorem State.setCoreAt_barriers (s : State) (a n : Nat) (c : Core) : (s.setCoreAt a n c).barriers = s.barriers := rfl
@[simp] theorem State.setCoreAt_launches (s : State) (a n : Nat) (c : Core) : (s.setCoreAt a n c).launches = s.launches := rfl
@[simp] theorem State.setCoreAt_pqueues (s : State) (a n : Nat) (c : Core) : (s.setCoreAt a n c).pqueues = s.pqueues := rfl
@[simp] theorem State.setCoreAt_graphs (s : State) (a n : Nat) (c : Core) : (s.setCoreAt a n c).graphs = s.graphs := rfl
@[simp] theorem State.setCoreAt_traces (s : State) (a n : Nat) (c : Core) : (s.setCoreAt a n c).traces = s.traces := rfl
@[simp] theorem State.setCoreAt_ctxs (s : State) (a n : Nat) (c : Core) : (s.setCoreAt a n c).ctxs = s.ctxs := rfl
@[simp] theorem State.setCoreAt_tlb (s : State) (a n : Nat) (c : Core) : (s.setCoreAt a n c).tlb = s.tlb := rfl
@[simp] theorem State.setCoreAt_images (s : State) (a n : Nat) (c : Core) : (s.setCoreAt a n c).images = s.images := rfl
@[simp] theorem State.setCoreAt_remap (s : State) (a n : Nat) (c : Core) : (s.setCoreAt a n c).remap = s.remap := rfl
@[simp] theorem State.setCoreAt_remapVersion (s : State) (a n : Nat) (c : Core) : (s.setCoreAt a n c).remapVersion = s.remapVersion := rfl
@[simp] theorem State.setCoreAt_fencedDies (s : State) (a n : Nat) (c : Core) : (s.setCoreAt a n c).fencedDies = s.fencedDies := rfl
@[simp] theorem State.setCoreAt_host (s : State) (a n : Nat) (c : Core) : (s.setCoreAt a n c).host = s.host := rfl
@[simp] theorem State.setCoreAt_complexes (s : State) (a n : Nat) (c : Core) : (s.setCoreAt a n c).complexes = s.complexes := rfl
@[simp] theorem State.setCoreAt_journal (s : State) (a n : Nat) (c : Core) : (s.setCoreAt a n c).journal = s.journal := rfl
@[simp] theorem State.setCoreAt_attempt (s : State) (a n : Nat) (c : Core) : (s.setCoreAt a n c).attempt = s.attempt := rfl
@[simp] theorem State.setCoreAt_recovery (s : State) (a n : Nat) (c : Core) : (s.setCoreAt a n c).recovery = s.recovery := rfl
@[simp] theorem State.setCoreAt_ports (s : State) (a n : Nat) (c : Core) : (s.setCoreAt a n c).ports = s.ports := rfl
@[simp] theorem State.setCoreAt_remotes (s : State) (a n : Nat) (c : Core) : (s.setCoreAt a n c).remotes = s.remotes := rfl
@[simp] theorem State.setCoreAt_nextRemote (s : State) (a n : Nat) (c : Core) : (s.setCoreAt a n c).nextRemote = s.nextRemote := rfl
@[simp] theorem State.setCoreAt_gang (s : State) (a n : Nat) (c : Core) : (s.setCoreAt a n c).gang = s.gang := rfl
@[simp] theorem State.setCoreAt_ring (s : State) (a n : Nat) (c : Core) : (s.setCoreAt a n c).ring = s.ring := rfl
@[simp] theorem State.setCoreAt_retiredChannels (s : State) (a n : Nat) (c : Core) : (s.setCoreAt a n c).retiredChannels = s.retiredChannels := rfl
@[simp] theorem State.setCoreAt_draws (s : State) (a n : Nat) (c : Core) : (s.setCoreAt a n c).draws = s.draws := rfl
@[simp] theorem State.setCoreAt_turn (s : State) (a n : Nat) (c : Core) : (s.setCoreAt a n c).turn = s.turn := rfl
@[simp] theorem State.upd_agenda (s : State) (f : Core → Core) : (s.upd f).agenda = s.agenda := rfl
@[simp] theorem State.upd_ctx (s : State) (f : Core → Core) : (s.upd f).ctx = s.ctx := rfl
@[simp] theorem State.upd_cur (s : State) (f : Core → Core) : (s.upd f).cur = s.cur := rfl
@[simp] theorem State.upd_eng (s : State) (f : Core → Core) : (s.upd f).eng = s.eng := rfl
@[simp] theorem State.upd_favoured (s : State) (f : Core → Core) : (s.upd f).favoured = s.favoured := rfl
@[simp] theorem State.upd_now (s : State) (f : Core → Core) : (s.upd f).now = s.now := rfl
@[simp] theorem State.upd_time (s : State) (f : Core → Core) : (s.upd f).time = s.time := rfl
@[simp] theorem State.upd_frac (s : State) (f : Core → Core) : (s.upd f).frac = s.frac := rfl
@[simp] theorem State.upd_clock (s : State) (f : Core → Core) : (s.upd f).clock = s.clock := rfl
@[simp] theorem State.upd_clockAt (s : State) (f : Core → Core) : (s.upd f).clockAt = s.clockAt := rfl
@[simp] theorem State.upd_dead (s : State) (f : Core → Core) : (s.upd f).dead = s.dead := rfl
@[simp] theorem State.upd_mem (s : State) (f : Core → Core) : (s.upd f).mem = s.mem := rfl
@[simp] theorem State.upd_memPoison (s : State) (f : Core → Core) : (s.upd f).memPoison = s.memPoison := rfl
@[simp] theorem State.upd_sram (s : State) (f : Core → Core) : (s.upd f).sram = s.sram := rfl
@[simp] theorem State.upd_vault (s : State) (f : Core → Core) : (s.upd f).vault = s.vault := rfl
@[simp] theorem State.upd_vaultPoison (s : State) (f : Core → Core) : (s.upd f).vaultPoison = s.vaultPoison := rfl
@[simp] theorem State.upd_flips (s : State) (f : Core → Core) : (s.upd f).flips = s.flips := rfl
@[simp] theorem State.upd_vaultFixed (s : State) (f : Core → Core) : (s.upd f).vaultFixed = s.vaultFixed := rfl
@[simp] theorem State.upd_scrubbed (s : State) (f : Core → Core) : (s.upd f).scrubbed = s.scrubbed := rfl
@[simp] theorem State.upd_scrubAt (s : State) (f : Core → Core) : (s.upd f).scrubAt = s.scrubAt := rfl
@[simp] theorem State.upd_phys (s : State) (f : Core → Core) : (s.upd f).phys = s.phys := rfl
@[simp] theorem State.upd_quads (s : State) (f : Core → Core) : (s.upd f).quads = s.quads := rfl
@[simp] theorem State.upd_phases (s : State) (f : Core → Core) : (s.upd f).phases = s.phases := rfl
@[simp] theorem State.upd_segs (s : State) (f : Core → Core) : (s.upd f).segs = s.segs := rfl
@[simp] theorem State.upd_claims (s : State) (f : Core → Core) : (s.upd f).claims = s.claims := rfl
@[simp] theorem State.upd_nextClaim (s : State) (f : Core → Core) : (s.upd f).nextClaim = s.nextClaim := rfl
@[simp] theorem State.upd_dir (s : State) (f : Core → Core) : (s.upd f).dir = s.dir := rfl
@[simp] theorem State.upd_contribs (s : State) (f : Core → Core) : (s.upd f).contribs = s.contribs := rfl
@[simp] theorem State.upd_nextContrib (s : State) (f : Core → Core) : (s.upd f).nextContrib = s.nextContrib := rfl
@[simp] theorem State.upd_rounds (s : State) (f : Core → Core) : (s.upd f).rounds = s.rounds := rfl
@[simp] theorem State.upd_gates (s : State) (f : Core → Core) : (s.upd f).gates = s.gates := rfl
@[simp] theorem State.upd_barriers (s : State) (f : Core → Core) : (s.upd f).barriers = s.barriers := rfl
@[simp] theorem State.upd_launches (s : State) (f : Core → Core) : (s.upd f).launches = s.launches := rfl
@[simp] theorem State.upd_pqueues (s : State) (f : Core → Core) : (s.upd f).pqueues = s.pqueues := rfl
@[simp] theorem State.upd_graphs (s : State) (f : Core → Core) : (s.upd f).graphs = s.graphs := rfl
@[simp] theorem State.upd_traces (s : State) (f : Core → Core) : (s.upd f).traces = s.traces := rfl
@[simp] theorem State.upd_ctxs (s : State) (f : Core → Core) : (s.upd f).ctxs = s.ctxs := rfl
@[simp] theorem State.upd_tlb (s : State) (f : Core → Core) : (s.upd f).tlb = s.tlb := rfl
@[simp] theorem State.upd_images (s : State) (f : Core → Core) : (s.upd f).images = s.images := rfl
@[simp] theorem State.upd_remap (s : State) (f : Core → Core) : (s.upd f).remap = s.remap := rfl
@[simp] theorem State.upd_remapVersion (s : State) (f : Core → Core) : (s.upd f).remapVersion = s.remapVersion := rfl
@[simp] theorem State.upd_fencedDies (s : State) (f : Core → Core) : (s.upd f).fencedDies = s.fencedDies := rfl
@[simp] theorem State.upd_host (s : State) (f : Core → Core) : (s.upd f).host = s.host := rfl
@[simp] theorem State.upd_complexes (s : State) (f : Core → Core) : (s.upd f).complexes = s.complexes := rfl
@[simp] theorem State.upd_journal (s : State) (f : Core → Core) : (s.upd f).journal = s.journal := rfl
@[simp] theorem State.upd_attempt (s : State) (f : Core → Core) : (s.upd f).attempt = s.attempt := rfl
@[simp] theorem State.upd_recovery (s : State) (f : Core → Core) : (s.upd f).recovery = s.recovery := rfl
@[simp] theorem State.upd_ports (s : State) (f : Core → Core) : (s.upd f).ports = s.ports := rfl
@[simp] theorem State.upd_remotes (s : State) (f : Core → Core) : (s.upd f).remotes = s.remotes := rfl
@[simp] theorem State.upd_nextRemote (s : State) (f : Core → Core) : (s.upd f).nextRemote = s.nextRemote := rfl
@[simp] theorem State.upd_gang (s : State) (f : Core → Core) : (s.upd f).gang = s.gang := rfl
@[simp] theorem State.upd_ring (s : State) (f : Core → Core) : (s.upd f).ring = s.ring := rfl
@[simp] theorem State.upd_retiredChannels (s : State) (f : Core → Core) : (s.upd f).retiredChannels = s.retiredChannels := rfl
@[simp] theorem State.upd_draws (s : State) (f : Core → Core) : (s.upd f).draws = s.draws := rfl
@[simp] theorem State.upd_turn (s : State) (f : Core → Core) : (s.upd f).turn = s.turn := rfl
@[simp] theorem Core.advancePc_s (c : Core) (n : Nat) : (c.advancePc n).s = c.s := rfl
@[simp] theorem Core.advancePc_h (c : Core) (n : Nat) : (c.advancePc n).h = c.h := rfl
@[simp] theorem Core.advancePc_m (c : Core) (n : Nat) : (c.advancePc n).m = c.m := rfl
@[simp] theorem Core.advancePc_seed (c : Core) (n : Nat) : (c.advancePc n).seed = c.seed := rfl
@[simp] theorem Core.advancePc_resid (c : Core) (n : Nat) : (c.advancePc n).resid = c.resid := rfl
@[simp] theorem Core.advancePc_xpc (c : Core) (n : Nat) : (c.advancePc n).xpc = c.xpc := rfl
@[simp] theorem Core.advancePc_xcause (c : Core) (n : Nat) : (c.advancePc n).xcause = c.xcause := rfl
@[simp] theorem Core.advancePc_xval (c : Core) (n : Nat) : (c.advancePc n).xval = c.xval := rfl
@[simp] theorem Core.advancePc_inh (c : Core) (n : Nat) : (c.advancePc n).inh = c.inh := rfl
@[simp] theorem Core.advancePc_flt (c : Core) (n : Nat) : (c.advancePc n).flt = c.flt := rfl
@[simp] theorem Core.advancePc_xhand (c : Core) (n : Nat) : (c.advancePc n).xhand = c.xhand := rfl
@[simp] theorem Core.advancePc_schk (c : Core) (n : Nat) : (c.advancePc n).schk = c.schk := rfl
@[simp] theorem Core.advancePc_lrun (c : Core) (n : Nat) : (c.advancePc n).lrun = c.lrun := rfl
@[simp] theorem Core.advancePc_interlock (c : Core) (n : Nat) : (c.advancePc n).interlock = c.interlock := rfl
@[simp] theorem Core.advancePc_grantPending (c : Core) (n : Nat) : (c.advancePc n).grantPending = c.grantPending := rfl
@[simp] theorem Core.advancePc_arrived (c : Core) (n : Nat) : (c.advancePc n).arrived = c.arrived := rfl
@[simp] theorem Core.advancePc_barAt (c : Core) (n : Nat) : (c.advancePc n).barAt = c.barAt := rfl
@[simp] theorem Core.advancePc_lq (c : Core) (n : Nat) : (c.advancePc n).lq = c.lq := rfl
@[simp] theorem Core.advancePc_sq (c : Core) (n : Nat) : (c.advancePc n).sq = c.sq := rfl
@[simp] theorem Core.advancePc_held (c : Core) (n : Nat) : (c.advancePc n).held = c.held := rfl
@[simp] theorem Core.advancePc_stops (c : Core) (n : Nat) : (c.advancePc n).stops = c.stops := rfl
@[simp] theorem Core.advancePc_stamp (c : Core) (n : Nat) : (c.advancePc n).stamp = c.stamp := rfl
@[simp] theorem Core.advancePc_cmp (c : Core) (n : Nat) : (c.advancePc n).cmp = c.cmp := rfl
@[simp] theorem Core.advancePc_param (c : Core) (n : Nat) : (c.advancePc n).param = c.param := rfl
@[simp] theorem Core.advancePc_icache (c : Core) (n : Nat) : (c.advancePc n).icache = c.icache := rfl
@[simp] theorem Core.advancePc_latch (c : Core) (n : Nat) : (c.advancePc n).latch = c.latch := rfl
@[simp] theorem Core.advancePc_flags (c : Core) (n : Nat) : (c.advancePc n).flags = c.flags := rfl
@[simp] theorem Core.advancePc_rig (c : Core) (n : Nat) : (c.advancePc n).rig = c.rig := rfl
@[simp] theorem Core.advancePc_chan (c : Core) (n : Nat) : (c.advancePc n).chan = c.chan := rfl
@[simp] theorem Core.advancePc_sqa (c : Core) (n : Nat) : (c.advancePc n).sqa = c.sqa := rfl
@[simp] theorem Core.advancePc_sqb (c : Core) (n : Nat) : (c.advancePc n).sqb = c.sqb := rfl
@[simp] theorem Core.advancePc_qv (c : Core) (n : Nat) : (c.advancePc n).qv = c.qv := rfl
@[simp] theorem Core.advancePc_qm (c : Core) (n : Nat) : (c.advancePc n).qm = c.qm := rfl
@[simp] theorem Core.advancePc_qc (c : Core) (n : Nat) : (c.advancePc n).qc = c.qc := rfl
@[simp] theorem Core.advancePc_forks (c : Core) (n : Nat) : (c.advancePc n).forks = c.forks := rfl
@[simp] theorem Core.advancePc_batches (c : Core) (n : Nat) : (c.advancePc n).batches = c.batches := rfl
@[simp] theorem Core.advancePc_batchLo (c : Core) (n : Nat) : (c.advancePc n).batchLo = c.batchLo := rfl
@[simp] theorem Core.advancePc_pinned (c : Core) (n : Nat) : (c.advancePc n).pinned = c.pinned := rfl
@[simp] theorem Core.advancePc_waitCount (c : Core) (n : Nat) : (c.advancePc n).waitCount = c.waitCount := rfl
@[simp] theorem Core.advancePc_epoch (c : Core) (n : Nat) : (c.advancePc n).epoch = c.epoch := rfl
@[simp] theorem Core.advancePc_crossing (c : Core) (n : Nat) : (c.advancePc n).crossing = c.crossing := rfl
@[simp] theorem Core.advancePc_copies (c : Core) (n : Nat) : (c.advancePc n).copies = c.copies := rfl
@[simp] theorem Core.advancePc_cmds (c : Core) (n : Nat) : (c.advancePc n).cmds = c.cmds := rfl
@[simp] theorem Core.advancePc_ended (c : Core) (n : Nat) : (c.advancePc n).ended = c.ended := rfl
@[simp] theorem Core.advancePc_vloads (c : Core) (n : Nat) : (c.advancePc n).vloads = c.vloads := rfl
@[simp] theorem Core.advancePc_vmasks (c : Core) (n : Nat) : (c.advancePc n).vmasks = c.vmasks := rfl
@[simp] theorem Core.advancePc_farRows (c : Core) (n : Nat) : (c.advancePc n).farRows = c.farRows := rfl
@[simp] theorem Core.advancePc_mrows (c : Core) (n : Nat) : (c.advancePc n).mrows = c.mrows := rfl
@[simp] theorem Core.advancePc_t (c : Core) (n : Nat) : (c.advancePc n).t = c.t := rfl
@[simp] theorem Core.advancePc_w (c : Core) (n : Nat) : (c.advancePc n).w = c.w := rfl
@[simp] theorem Core.advancePc_v (c : Core) (n : Nat) : (c.advancePc n).v = c.v := rfl
@[simp] theorem Core.advancePc_pendV (c : Core) (n : Nat) : (c.advancePc n).pendV = c.pendV := rfl
@[simp] theorem Core.advancePc_pendM (c : Core) (n : Nat) : (c.advancePc n).pendM = c.pendM := rfl
@[simp] theorem Core.advancePc_loadedAt (c : Core) (n : Nat) : (c.advancePc n).loadedAt = c.loadedAt := rfl
@[simp] theorem Core.advancePc_acc (c : Core) (n : Nat) : (c.advancePc n).acc = c.acc := rfl
@[simp] theorem Core.advancePc_bank (c : Core) (n : Nat) : (c.advancePc n).bank = c.bank := rfl
@[simp] theorem Core.advancePc_launch (c : Core) (n : Nat) : (c.advancePc n).launch = c.launch := rfl
@[simp] theorem Core.advancePc_shadow (c : Core) (n : Nat) : (c.advancePc n).shadow = c.shadow := rfl
@[simp] theorem Core.advancePc_task (c : Core) (n : Nat) : (c.advancePc n).task = c.task := rfl
@[simp] theorem Core.advancePc_stoppedAt (c : Core) (n : Nat) : (c.advancePc n).stoppedAt = c.stoppedAt := rfl
@[simp] theorem Core.advancePc_lastCause (c : Core) (n : Nat) : (c.advancePc n).lastCause = c.lastCause := rfl
@[simp] theorem Core.advancePc_again (c : Core) (n : Nat) : (c.advancePc n).again = c.again := rfl
@[simp] theorem Core.advancePc_loanBorrowed (c : Core) (n : Nat) : (c.advancePc n).loanBorrowed = c.loanBorrowed := rfl
@[simp] theorem Core.advancePc_loanLent (c : Core) (n : Nat) : (c.advancePc n).loanLent = c.loanLent := rfl
@[simp] theorem Core.advancePc_pc (c : Core) (n : Nat) : (c.advancePc n).pc = c.pc + BitVec.ofNat 64 n := rfl
@[simp] theorem Core.advancePc_waiting (c : Core) (n : Nat) : (c.advancePc n).waiting = none := rfl
@[simp] theorem Core.wr_h (c : Core) (d : Reg) (v : Word) : (c.wr d v).h = c.h := by
  unfold Core.wr; split <;> rfl
@[simp] theorem Core.wr_m (c : Core) (d : Reg) (v : Word) : (c.wr d v).m = c.m := by
  unfold Core.wr; split <;> rfl
@[simp] theorem Core.wr_pc (c : Core) (d : Reg) (v : Word) : (c.wr d v).pc = c.pc := by
  unfold Core.wr; split <;> rfl
@[simp] theorem Core.wr_seed (c : Core) (d : Reg) (v : Word) : (c.wr d v).seed = c.seed := by
  unfold Core.wr; split <;> rfl
@[simp] theorem Core.wr_resid (c : Core) (d : Reg) (v : Word) : (c.wr d v).resid = c.resid := by
  unfold Core.wr; split <;> rfl
@[simp] theorem Core.wr_xpc (c : Core) (d : Reg) (v : Word) : (c.wr d v).xpc = c.xpc := by
  unfold Core.wr; split <;> rfl
@[simp] theorem Core.wr_xcause (c : Core) (d : Reg) (v : Word) : (c.wr d v).xcause = c.xcause := by
  unfold Core.wr; split <;> rfl
@[simp] theorem Core.wr_xval (c : Core) (d : Reg) (v : Word) : (c.wr d v).xval = c.xval := by
  unfold Core.wr; split <;> rfl
@[simp] theorem Core.wr_inh (c : Core) (d : Reg) (v : Word) : (c.wr d v).inh = c.inh := by
  unfold Core.wr; split <;> rfl
@[simp] theorem Core.wr_flt (c : Core) (d : Reg) (v : Word) : (c.wr d v).flt = c.flt := by
  unfold Core.wr; split <;> rfl
@[simp] theorem Core.wr_xhand (c : Core) (d : Reg) (v : Word) : (c.wr d v).xhand = c.xhand := by
  unfold Core.wr; split <;> rfl
@[simp] theorem Core.wr_schk (c : Core) (d : Reg) (v : Word) : (c.wr d v).schk = c.schk := by
  unfold Core.wr; split <;> rfl
@[simp] theorem Core.wr_lrun (c : Core) (d : Reg) (v : Word) : (c.wr d v).lrun = c.lrun := by
  unfold Core.wr; split <;> rfl
@[simp] theorem Core.wr_interlock (c : Core) (d : Reg) (v : Word) : (c.wr d v).interlock = c.interlock := by
  unfold Core.wr; split <;> rfl
@[simp] theorem Core.wr_grantPending (c : Core) (d : Reg) (v : Word) : (c.wr d v).grantPending = c.grantPending := by
  unfold Core.wr; split <;> rfl
@[simp] theorem Core.wr_arrived (c : Core) (d : Reg) (v : Word) : (c.wr d v).arrived = c.arrived := by
  unfold Core.wr; split <;> rfl
@[simp] theorem Core.wr_barAt (c : Core) (d : Reg) (v : Word) : (c.wr d v).barAt = c.barAt := by
  unfold Core.wr; split <;> rfl
@[simp] theorem Core.wr_lq (c : Core) (d : Reg) (v : Word) : (c.wr d v).lq = c.lq := by
  unfold Core.wr; split <;> rfl
@[simp] theorem Core.wr_sq (c : Core) (d : Reg) (v : Word) : (c.wr d v).sq = c.sq := by
  unfold Core.wr; split <;> rfl
@[simp] theorem Core.wr_held (c : Core) (d : Reg) (v : Word) : (c.wr d v).held = c.held := by
  unfold Core.wr; split <;> rfl
@[simp] theorem Core.wr_stops (c : Core) (d : Reg) (v : Word) : (c.wr d v).stops = c.stops := by
  unfold Core.wr; split <;> rfl
@[simp] theorem Core.wr_stamp (c : Core) (d : Reg) (v : Word) : (c.wr d v).stamp = c.stamp := by
  unfold Core.wr; split <;> rfl
@[simp] theorem Core.wr_cmp (c : Core) (d : Reg) (v : Word) : (c.wr d v).cmp = c.cmp := by
  unfold Core.wr; split <;> rfl
@[simp] theorem Core.wr_param (c : Core) (d : Reg) (v : Word) : (c.wr d v).param = c.param := by
  unfold Core.wr; split <;> rfl
@[simp] theorem Core.wr_icache (c : Core) (d : Reg) (v : Word) : (c.wr d v).icache = c.icache := by
  unfold Core.wr; split <;> rfl
@[simp] theorem Core.wr_latch (c : Core) (d : Reg) (v : Word) : (c.wr d v).latch = c.latch := by
  unfold Core.wr; split <;> rfl
@[simp] theorem Core.wr_flags (c : Core) (d : Reg) (v : Word) : (c.wr d v).flags = c.flags := by
  unfold Core.wr; split <;> rfl
@[simp] theorem Core.wr_rig (c : Core) (d : Reg) (v : Word) : (c.wr d v).rig = c.rig := by
  unfold Core.wr; split <;> rfl
@[simp] theorem Core.wr_chan (c : Core) (d : Reg) (v : Word) : (c.wr d v).chan = c.chan := by
  unfold Core.wr; split <;> rfl
@[simp] theorem Core.wr_sqa (c : Core) (d : Reg) (v : Word) : (c.wr d v).sqa = c.sqa := by
  unfold Core.wr; split <;> rfl
@[simp] theorem Core.wr_sqb (c : Core) (d : Reg) (v : Word) : (c.wr d v).sqb = c.sqb := by
  unfold Core.wr; split <;> rfl
@[simp] theorem Core.wr_qv (c : Core) (d : Reg) (v : Word) : (c.wr d v).qv = c.qv := by
  unfold Core.wr; split <;> rfl
@[simp] theorem Core.wr_qm (c : Core) (d : Reg) (v : Word) : (c.wr d v).qm = c.qm := by
  unfold Core.wr; split <;> rfl
@[simp] theorem Core.wr_qc (c : Core) (d : Reg) (v : Word) : (c.wr d v).qc = c.qc := by
  unfold Core.wr; split <;> rfl
@[simp] theorem Core.wr_forks (c : Core) (d : Reg) (v : Word) : (c.wr d v).forks = c.forks := by
  unfold Core.wr; split <;> rfl
@[simp] theorem Core.wr_batches (c : Core) (d : Reg) (v : Word) : (c.wr d v).batches = c.batches := by
  unfold Core.wr; split <;> rfl
@[simp] theorem Core.wr_batchLo (c : Core) (d : Reg) (v : Word) : (c.wr d v).batchLo = c.batchLo := by
  unfold Core.wr; split <;> rfl
@[simp] theorem Core.wr_pinned (c : Core) (d : Reg) (v : Word) : (c.wr d v).pinned = c.pinned := by
  unfold Core.wr; split <;> rfl
@[simp] theorem Core.wr_waitCount (c : Core) (d : Reg) (v : Word) : (c.wr d v).waitCount = c.waitCount := by
  unfold Core.wr; split <;> rfl
@[simp] theorem Core.wr_epoch (c : Core) (d : Reg) (v : Word) : (c.wr d v).epoch = c.epoch := by
  unfold Core.wr; split <;> rfl
@[simp] theorem Core.wr_crossing (c : Core) (d : Reg) (v : Word) : (c.wr d v).crossing = c.crossing := by
  unfold Core.wr; split <;> rfl
@[simp] theorem Core.wr_copies (c : Core) (d : Reg) (v : Word) : (c.wr d v).copies = c.copies := by
  unfold Core.wr; split <;> rfl
@[simp] theorem Core.wr_cmds (c : Core) (d : Reg) (v : Word) : (c.wr d v).cmds = c.cmds := by
  unfold Core.wr; split <;> rfl
@[simp] theorem Core.wr_ended (c : Core) (d : Reg) (v : Word) : (c.wr d v).ended = c.ended := by
  unfold Core.wr; split <;> rfl
@[simp] theorem Core.wr_vloads (c : Core) (d : Reg) (v : Word) : (c.wr d v).vloads = c.vloads := by
  unfold Core.wr; split <;> rfl
@[simp] theorem Core.wr_vmasks (c : Core) (d : Reg) (v : Word) : (c.wr d v).vmasks = c.vmasks := by
  unfold Core.wr; split <;> rfl
@[simp] theorem Core.wr_farRows (c : Core) (d : Reg) (v : Word) : (c.wr d v).farRows = c.farRows := by
  unfold Core.wr; split <;> rfl
@[simp] theorem Core.wr_mrows (c : Core) (d : Reg) (v : Word) : (c.wr d v).mrows = c.mrows := by
  unfold Core.wr; split <;> rfl
@[simp] theorem Core.wr_t (c : Core) (d : Reg) (v : Word) : (c.wr d v).t = c.t := by
  unfold Core.wr; split <;> rfl
@[simp] theorem Core.wr_w (c : Core) (d : Reg) (v : Word) : (c.wr d v).w = c.w := by
  unfold Core.wr; split <;> rfl
@[simp] theorem Core.wr_v (c : Core) (d : Reg) (v : Word) : (c.wr d v).v = c.v := by
  unfold Core.wr; split <;> rfl
@[simp] theorem Core.wr_pendV (c : Core) (d : Reg) (v : Word) : (c.wr d v).pendV = c.pendV := by
  unfold Core.wr; split <;> rfl
@[simp] theorem Core.wr_pendM (c : Core) (d : Reg) (v : Word) : (c.wr d v).pendM = c.pendM := by
  unfold Core.wr; split <;> rfl
@[simp] theorem Core.wr_loadedAt (c : Core) (d : Reg) (v : Word) : (c.wr d v).loadedAt = c.loadedAt := by
  unfold Core.wr; split <;> rfl
@[simp] theorem Core.wr_acc (c : Core) (d : Reg) (v : Word) : (c.wr d v).acc = c.acc := by
  unfold Core.wr; split <;> rfl
@[simp] theorem Core.wr_bank (c : Core) (d : Reg) (v : Word) : (c.wr d v).bank = c.bank := by
  unfold Core.wr; split <;> rfl
@[simp] theorem Core.wr_launch (c : Core) (d : Reg) (v : Word) : (c.wr d v).launch = c.launch := by
  unfold Core.wr; split <;> rfl
@[simp] theorem Core.wr_shadow (c : Core) (d : Reg) (v : Word) : (c.wr d v).shadow = c.shadow := by
  unfold Core.wr; split <;> rfl
@[simp] theorem Core.wr_task (c : Core) (d : Reg) (v : Word) : (c.wr d v).task = c.task := by
  unfold Core.wr; split <;> rfl
@[simp] theorem Core.wr_waiting (c : Core) (d : Reg) (v : Word) : (c.wr d v).waiting = c.waiting := by
  unfold Core.wr; split <;> rfl
@[simp] theorem Core.wr_stoppedAt (c : Core) (d : Reg) (v : Word) : (c.wr d v).stoppedAt = c.stoppedAt := by
  unfold Core.wr; split <;> rfl
@[simp] theorem Core.wr_lastCause (c : Core) (d : Reg) (v : Word) : (c.wr d v).lastCause = c.lastCause := by
  unfold Core.wr; split <;> rfl
@[simp] theorem Core.wr_again (c : Core) (d : Reg) (v : Word) : (c.wr d v).again = c.again := by
  unfold Core.wr; split <;> rfl
@[simp] theorem Core.wr_loanBorrowed (c : Core) (d : Reg) (v : Word) : (c.wr d v).loanBorrowed = c.loanBorrowed := by
  unfold Core.wr; split <;> rfl
@[simp] theorem Core.wr_loanLent (c : Core) (d : Reg) (v : Word) : (c.wr d v).loanLent = c.loanLent := by
  unfold Core.wr; split <;> rfl
@[simp] theorem Core.setMask_s (c : Core) (k : Nat) (x : BitVec 128) : (c.setMask k x).s = c.s := by
  unfold Core.setMask; split <;> rfl
@[simp] theorem Core.setMask_h (c : Core) (k : Nat) (x : BitVec 128) : (c.setMask k x).h = c.h := by
  unfold Core.setMask; split <;> rfl
@[simp] theorem Core.setMask_pc (c : Core) (k : Nat) (x : BitVec 128) : (c.setMask k x).pc = c.pc := by
  unfold Core.setMask; split <;> rfl
@[simp] theorem Core.setMask_seed (c : Core) (k : Nat) (x : BitVec 128) : (c.setMask k x).seed = c.seed := by
  unfold Core.setMask; split <;> rfl
@[simp] theorem Core.setMask_resid (c : Core) (k : Nat) (x : BitVec 128) : (c.setMask k x).resid = c.resid := by
  unfold Core.setMask; split <;> rfl
@[simp] theorem Core.setMask_xpc (c : Core) (k : Nat) (x : BitVec 128) : (c.setMask k x).xpc = c.xpc := by
  unfold Core.setMask; split <;> rfl
@[simp] theorem Core.setMask_xcause (c : Core) (k : Nat) (x : BitVec 128) : (c.setMask k x).xcause = c.xcause := by
  unfold Core.setMask; split <;> rfl
@[simp] theorem Core.setMask_xval (c : Core) (k : Nat) (x : BitVec 128) : (c.setMask k x).xval = c.xval := by
  unfold Core.setMask; split <;> rfl
@[simp] theorem Core.setMask_inh (c : Core) (k : Nat) (x : BitVec 128) : (c.setMask k x).inh = c.inh := by
  unfold Core.setMask; split <;> rfl
@[simp] theorem Core.setMask_flt (c : Core) (k : Nat) (x : BitVec 128) : (c.setMask k x).flt = c.flt := by
  unfold Core.setMask; split <;> rfl
@[simp] theorem Core.setMask_xhand (c : Core) (k : Nat) (x : BitVec 128) : (c.setMask k x).xhand = c.xhand := by
  unfold Core.setMask; split <;> rfl
@[simp] theorem Core.setMask_schk (c : Core) (k : Nat) (x : BitVec 128) : (c.setMask k x).schk = c.schk := by
  unfold Core.setMask; split <;> rfl
@[simp] theorem Core.setMask_lrun (c : Core) (k : Nat) (x : BitVec 128) : (c.setMask k x).lrun = c.lrun := by
  unfold Core.setMask; split <;> rfl
@[simp] theorem Core.setMask_interlock (c : Core) (k : Nat) (x : BitVec 128) : (c.setMask k x).interlock = c.interlock := by
  unfold Core.setMask; split <;> rfl
@[simp] theorem Core.setMask_grantPending (c : Core) (k : Nat) (x : BitVec 128) : (c.setMask k x).grantPending = c.grantPending := by
  unfold Core.setMask; split <;> rfl
@[simp] theorem Core.setMask_arrived (c : Core) (k : Nat) (x : BitVec 128) : (c.setMask k x).arrived = c.arrived := by
  unfold Core.setMask; split <;> rfl
@[simp] theorem Core.setMask_barAt (c : Core) (k : Nat) (x : BitVec 128) : (c.setMask k x).barAt = c.barAt := by
  unfold Core.setMask; split <;> rfl
@[simp] theorem Core.setMask_lq (c : Core) (k : Nat) (x : BitVec 128) : (c.setMask k x).lq = c.lq := by
  unfold Core.setMask; split <;> rfl
@[simp] theorem Core.setMask_sq (c : Core) (k : Nat) (x : BitVec 128) : (c.setMask k x).sq = c.sq := by
  unfold Core.setMask; split <;> rfl
@[simp] theorem Core.setMask_held (c : Core) (k : Nat) (x : BitVec 128) : (c.setMask k x).held = c.held := by
  unfold Core.setMask; split <;> rfl
@[simp] theorem Core.setMask_stops (c : Core) (k : Nat) (x : BitVec 128) : (c.setMask k x).stops = c.stops := by
  unfold Core.setMask; split <;> rfl
@[simp] theorem Core.setMask_stamp (c : Core) (k : Nat) (x : BitVec 128) : (c.setMask k x).stamp = c.stamp := by
  unfold Core.setMask; split <;> rfl
@[simp] theorem Core.setMask_cmp (c : Core) (k : Nat) (x : BitVec 128) : (c.setMask k x).cmp = c.cmp := by
  unfold Core.setMask; split <;> rfl
@[simp] theorem Core.setMask_param (c : Core) (k : Nat) (x : BitVec 128) : (c.setMask k x).param = c.param := by
  unfold Core.setMask; split <;> rfl
@[simp] theorem Core.setMask_icache (c : Core) (k : Nat) (x : BitVec 128) : (c.setMask k x).icache = c.icache := by
  unfold Core.setMask; split <;> rfl
@[simp] theorem Core.setMask_latch (c : Core) (k : Nat) (x : BitVec 128) : (c.setMask k x).latch = c.latch := by
  unfold Core.setMask; split <;> rfl
@[simp] theorem Core.setMask_flags (c : Core) (k : Nat) (x : BitVec 128) : (c.setMask k x).flags = c.flags := by
  unfold Core.setMask; split <;> rfl
@[simp] theorem Core.setMask_rig (c : Core) (k : Nat) (x : BitVec 128) : (c.setMask k x).rig = c.rig := by
  unfold Core.setMask; split <;> rfl
@[simp] theorem Core.setMask_chan (c : Core) (k : Nat) (x : BitVec 128) : (c.setMask k x).chan = c.chan := by
  unfold Core.setMask; split <;> rfl
@[simp] theorem Core.setMask_sqa (c : Core) (k : Nat) (x : BitVec 128) : (c.setMask k x).sqa = c.sqa := by
  unfold Core.setMask; split <;> rfl
@[simp] theorem Core.setMask_sqb (c : Core) (k : Nat) (x : BitVec 128) : (c.setMask k x).sqb = c.sqb := by
  unfold Core.setMask; split <;> rfl
@[simp] theorem Core.setMask_qv (c : Core) (k : Nat) (x : BitVec 128) : (c.setMask k x).qv = c.qv := by
  unfold Core.setMask; split <;> rfl
@[simp] theorem Core.setMask_qm (c : Core) (k : Nat) (x : BitVec 128) : (c.setMask k x).qm = c.qm := by
  unfold Core.setMask; split <;> rfl
@[simp] theorem Core.setMask_qc (c : Core) (k : Nat) (x : BitVec 128) : (c.setMask k x).qc = c.qc := by
  unfold Core.setMask; split <;> rfl
@[simp] theorem Core.setMask_forks (c : Core) (k : Nat) (x : BitVec 128) : (c.setMask k x).forks = c.forks := by
  unfold Core.setMask; split <;> rfl
@[simp] theorem Core.setMask_batches (c : Core) (k : Nat) (x : BitVec 128) : (c.setMask k x).batches = c.batches := by
  unfold Core.setMask; split <;> rfl
@[simp] theorem Core.setMask_batchLo (c : Core) (k : Nat) (x : BitVec 128) : (c.setMask k x).batchLo = c.batchLo := by
  unfold Core.setMask; split <;> rfl
@[simp] theorem Core.setMask_pinned (c : Core) (k : Nat) (x : BitVec 128) : (c.setMask k x).pinned = c.pinned := by
  unfold Core.setMask; split <;> rfl
@[simp] theorem Core.setMask_waitCount (c : Core) (k : Nat) (x : BitVec 128) : (c.setMask k x).waitCount = c.waitCount := by
  unfold Core.setMask; split <;> rfl
@[simp] theorem Core.setMask_epoch (c : Core) (k : Nat) (x : BitVec 128) : (c.setMask k x).epoch = c.epoch := by
  unfold Core.setMask; split <;> rfl
@[simp] theorem Core.setMask_crossing (c : Core) (k : Nat) (x : BitVec 128) : (c.setMask k x).crossing = c.crossing := by
  unfold Core.setMask; split <;> rfl
@[simp] theorem Core.setMask_copies (c : Core) (k : Nat) (x : BitVec 128) : (c.setMask k x).copies = c.copies := by
  unfold Core.setMask; split <;> rfl
@[simp] theorem Core.setMask_cmds (c : Core) (k : Nat) (x : BitVec 128) : (c.setMask k x).cmds = c.cmds := by
  unfold Core.setMask; split <;> rfl
@[simp] theorem Core.setMask_ended (c : Core) (k : Nat) (x : BitVec 128) : (c.setMask k x).ended = c.ended := by
  unfold Core.setMask; split <;> rfl
@[simp] theorem Core.setMask_vloads (c : Core) (k : Nat) (x : BitVec 128) : (c.setMask k x).vloads = c.vloads := by
  unfold Core.setMask; split <;> rfl
@[simp] theorem Core.setMask_vmasks (c : Core) (k : Nat) (x : BitVec 128) : (c.setMask k x).vmasks = c.vmasks := by
  unfold Core.setMask; split <;> rfl
@[simp] theorem Core.setMask_farRows (c : Core) (k : Nat) (x : BitVec 128) : (c.setMask k x).farRows = c.farRows := by
  unfold Core.setMask; split <;> rfl
@[simp] theorem Core.setMask_mrows (c : Core) (k : Nat) (x : BitVec 128) : (c.setMask k x).mrows = c.mrows := by
  unfold Core.setMask; split <;> rfl
@[simp] theorem Core.setMask_t (c : Core) (k : Nat) (x : BitVec 128) : (c.setMask k x).t = c.t := by
  unfold Core.setMask; split <;> rfl
@[simp] theorem Core.setMask_w (c : Core) (k : Nat) (x : BitVec 128) : (c.setMask k x).w = c.w := by
  unfold Core.setMask; split <;> rfl
@[simp] theorem Core.setMask_v (c : Core) (k : Nat) (x : BitVec 128) : (c.setMask k x).v = c.v := by
  unfold Core.setMask; split <;> rfl
@[simp] theorem Core.setMask_pendV (c : Core) (k : Nat) (x : BitVec 128) : (c.setMask k x).pendV = c.pendV := by
  unfold Core.setMask; split <;> rfl
@[simp] theorem Core.setMask_pendM (c : Core) (k : Nat) (x : BitVec 128) : (c.setMask k x).pendM = c.pendM := by
  unfold Core.setMask; split <;> rfl
@[simp] theorem Core.setMask_loadedAt (c : Core) (k : Nat) (x : BitVec 128) : (c.setMask k x).loadedAt = c.loadedAt := by
  unfold Core.setMask; split <;> rfl
@[simp] theorem Core.setMask_acc (c : Core) (k : Nat) (x : BitVec 128) : (c.setMask k x).acc = c.acc := by
  unfold Core.setMask; split <;> rfl
@[simp] theorem Core.setMask_bank (c : Core) (k : Nat) (x : BitVec 128) : (c.setMask k x).bank = c.bank := by
  unfold Core.setMask; split <;> rfl
@[simp] theorem Core.setMask_launch (c : Core) (k : Nat) (x : BitVec 128) : (c.setMask k x).launch = c.launch := by
  unfold Core.setMask; split <;> rfl
@[simp] theorem Core.setMask_shadow (c : Core) (k : Nat) (x : BitVec 128) : (c.setMask k x).shadow = c.shadow := by
  unfold Core.setMask; split <;> rfl
@[simp] theorem Core.setMask_task (c : Core) (k : Nat) (x : BitVec 128) : (c.setMask k x).task = c.task := by
  unfold Core.setMask; split <;> rfl
@[simp] theorem Core.setMask_waiting (c : Core) (k : Nat) (x : BitVec 128) : (c.setMask k x).waiting = c.waiting := by
  unfold Core.setMask; split <;> rfl
@[simp] theorem Core.setMask_stoppedAt (c : Core) (k : Nat) (x : BitVec 128) : (c.setMask k x).stoppedAt = c.stoppedAt := by
  unfold Core.setMask; split <;> rfl
@[simp] theorem Core.setMask_lastCause (c : Core) (k : Nat) (x : BitVec 128) : (c.setMask k x).lastCause = c.lastCause := by
  unfold Core.setMask; split <;> rfl
@[simp] theorem Core.setMask_again (c : Core) (k : Nat) (x : BitVec 128) : (c.setMask k x).again = c.again := by
  unfold Core.setMask; split <;> rfl
@[simp] theorem Core.setMask_loanBorrowed (c : Core) (k : Nat) (x : BitVec 128) : (c.setMask k x).loanBorrowed = c.loanBorrowed := by
  unfold Core.setMask; split <;> rfl
@[simp] theorem Core.setMask_loanLent (c : Core) (k : Nat) (x : BitVec 128) : (c.setMask k x).loanLent = c.loanLent := by
  unfold Core.setMask; split <;> rfl
@[simp] theorem Core.setHandle_s (c : Core) (k : Nat) (x : Handle) : (c.setHandle k x).s = c.s := by
  unfold Core.setHandle; split <;> rfl
@[simp] theorem Core.setHandle_m (c : Core) (k : Nat) (x : Handle) : (c.setHandle k x).m = c.m := by
  unfold Core.setHandle; split <;> rfl
@[simp] theorem Core.setHandle_pc (c : Core) (k : Nat) (x : Handle) : (c.setHandle k x).pc = c.pc := by
  unfold Core.setHandle; split <;> rfl
@[simp] theorem Core.setHandle_seed (c : Core) (k : Nat) (x : Handle) : (c.setHandle k x).seed = c.seed := by
  unfold Core.setHandle; split <;> rfl
@[simp] theorem Core.setHandle_resid (c : Core) (k : Nat) (x : Handle) : (c.setHandle k x).resid = c.resid := by
  unfold Core.setHandle; split <;> rfl
@[simp] theorem Core.setHandle_xpc (c : Core) (k : Nat) (x : Handle) : (c.setHandle k x).xpc = c.xpc := by
  unfold Core.setHandle; split <;> rfl
@[simp] theorem Core.setHandle_xcause (c : Core) (k : Nat) (x : Handle) : (c.setHandle k x).xcause = c.xcause := by
  unfold Core.setHandle; split <;> rfl
@[simp] theorem Core.setHandle_xval (c : Core) (k : Nat) (x : Handle) : (c.setHandle k x).xval = c.xval := by
  unfold Core.setHandle; split <;> rfl
@[simp] theorem Core.setHandle_inh (c : Core) (k : Nat) (x : Handle) : (c.setHandle k x).inh = c.inh := by
  unfold Core.setHandle; split <;> rfl
@[simp] theorem Core.setHandle_flt (c : Core) (k : Nat) (x : Handle) : (c.setHandle k x).flt = c.flt := by
  unfold Core.setHandle; split <;> rfl
@[simp] theorem Core.setHandle_xhand (c : Core) (k : Nat) (x : Handle) : (c.setHandle k x).xhand = c.xhand := by
  unfold Core.setHandle; split <;> rfl
@[simp] theorem Core.setHandle_schk (c : Core) (k : Nat) (x : Handle) : (c.setHandle k x).schk = c.schk := by
  unfold Core.setHandle; split <;> rfl
@[simp] theorem Core.setHandle_lrun (c : Core) (k : Nat) (x : Handle) : (c.setHandle k x).lrun = c.lrun := by
  unfold Core.setHandle; split <;> rfl
@[simp] theorem Core.setHandle_interlock (c : Core) (k : Nat) (x : Handle) : (c.setHandle k x).interlock = c.interlock := by
  unfold Core.setHandle; split <;> rfl
@[simp] theorem Core.setHandle_grantPending (c : Core) (k : Nat) (x : Handle) : (c.setHandle k x).grantPending = c.grantPending := by
  unfold Core.setHandle; split <;> rfl
@[simp] theorem Core.setHandle_arrived (c : Core) (k : Nat) (x : Handle) : (c.setHandle k x).arrived = c.arrived := by
  unfold Core.setHandle; split <;> rfl
@[simp] theorem Core.setHandle_barAt (c : Core) (k : Nat) (x : Handle) : (c.setHandle k x).barAt = c.barAt := by
  unfold Core.setHandle; split <;> rfl
@[simp] theorem Core.setHandle_lq (c : Core) (k : Nat) (x : Handle) : (c.setHandle k x).lq = c.lq := by
  unfold Core.setHandle; split <;> rfl
@[simp] theorem Core.setHandle_sq (c : Core) (k : Nat) (x : Handle) : (c.setHandle k x).sq = c.sq := by
  unfold Core.setHandle; split <;> rfl
@[simp] theorem Core.setHandle_held (c : Core) (k : Nat) (x : Handle) : (c.setHandle k x).held = c.held := by
  unfold Core.setHandle; split <;> rfl
@[simp] theorem Core.setHandle_stops (c : Core) (k : Nat) (x : Handle) : (c.setHandle k x).stops = c.stops := by
  unfold Core.setHandle; split <;> rfl
@[simp] theorem Core.setHandle_stamp (c : Core) (k : Nat) (x : Handle) : (c.setHandle k x).stamp = c.stamp := by
  unfold Core.setHandle; split <;> rfl
@[simp] theorem Core.setHandle_cmp (c : Core) (k : Nat) (x : Handle) : (c.setHandle k x).cmp = c.cmp := by
  unfold Core.setHandle; split <;> rfl
@[simp] theorem Core.setHandle_param (c : Core) (k : Nat) (x : Handle) : (c.setHandle k x).param = c.param := by
  unfold Core.setHandle; split <;> rfl
@[simp] theorem Core.setHandle_icache (c : Core) (k : Nat) (x : Handle) : (c.setHandle k x).icache = c.icache := by
  unfold Core.setHandle; split <;> rfl
@[simp] theorem Core.setHandle_latch (c : Core) (k : Nat) (x : Handle) : (c.setHandle k x).latch = c.latch := by
  unfold Core.setHandle; split <;> rfl
@[simp] theorem Core.setHandle_flags (c : Core) (k : Nat) (x : Handle) : (c.setHandle k x).flags = c.flags := by
  unfold Core.setHandle; split <;> rfl
@[simp] theorem Core.setHandle_rig (c : Core) (k : Nat) (x : Handle) : (c.setHandle k x).rig = c.rig := by
  unfold Core.setHandle; split <;> rfl
@[simp] theorem Core.setHandle_chan (c : Core) (k : Nat) (x : Handle) : (c.setHandle k x).chan = c.chan := by
  unfold Core.setHandle; split <;> rfl
@[simp] theorem Core.setHandle_sqa (c : Core) (k : Nat) (x : Handle) : (c.setHandle k x).sqa = c.sqa := by
  unfold Core.setHandle; split <;> rfl
@[simp] theorem Core.setHandle_sqb (c : Core) (k : Nat) (x : Handle) : (c.setHandle k x).sqb = c.sqb := by
  unfold Core.setHandle; split <;> rfl
@[simp] theorem Core.setHandle_qv (c : Core) (k : Nat) (x : Handle) : (c.setHandle k x).qv = c.qv := by
  unfold Core.setHandle; split <;> rfl
@[simp] theorem Core.setHandle_qm (c : Core) (k : Nat) (x : Handle) : (c.setHandle k x).qm = c.qm := by
  unfold Core.setHandle; split <;> rfl
@[simp] theorem Core.setHandle_qc (c : Core) (k : Nat) (x : Handle) : (c.setHandle k x).qc = c.qc := by
  unfold Core.setHandle; split <;> rfl
@[simp] theorem Core.setHandle_forks (c : Core) (k : Nat) (x : Handle) : (c.setHandle k x).forks = c.forks := by
  unfold Core.setHandle; split <;> rfl
@[simp] theorem Core.setHandle_batches (c : Core) (k : Nat) (x : Handle) : (c.setHandle k x).batches = c.batches := by
  unfold Core.setHandle; split <;> rfl
@[simp] theorem Core.setHandle_batchLo (c : Core) (k : Nat) (x : Handle) : (c.setHandle k x).batchLo = c.batchLo := by
  unfold Core.setHandle; split <;> rfl
@[simp] theorem Core.setHandle_pinned (c : Core) (k : Nat) (x : Handle) : (c.setHandle k x).pinned = c.pinned := by
  unfold Core.setHandle; split <;> rfl
@[simp] theorem Core.setHandle_waitCount (c : Core) (k : Nat) (x : Handle) : (c.setHandle k x).waitCount = c.waitCount := by
  unfold Core.setHandle; split <;> rfl
@[simp] theorem Core.setHandle_epoch (c : Core) (k : Nat) (x : Handle) : (c.setHandle k x).epoch = c.epoch := by
  unfold Core.setHandle; split <;> rfl
@[simp] theorem Core.setHandle_crossing (c : Core) (k : Nat) (x : Handle) : (c.setHandle k x).crossing = c.crossing := by
  unfold Core.setHandle; split <;> rfl
@[simp] theorem Core.setHandle_copies (c : Core) (k : Nat) (x : Handle) : (c.setHandle k x).copies = c.copies := by
  unfold Core.setHandle; split <;> rfl
@[simp] theorem Core.setHandle_cmds (c : Core) (k : Nat) (x : Handle) : (c.setHandle k x).cmds = c.cmds := by
  unfold Core.setHandle; split <;> rfl
@[simp] theorem Core.setHandle_ended (c : Core) (k : Nat) (x : Handle) : (c.setHandle k x).ended = c.ended := by
  unfold Core.setHandle; split <;> rfl
@[simp] theorem Core.setHandle_vloads (c : Core) (k : Nat) (x : Handle) : (c.setHandle k x).vloads = c.vloads := by
  unfold Core.setHandle; split <;> rfl
@[simp] theorem Core.setHandle_vmasks (c : Core) (k : Nat) (x : Handle) : (c.setHandle k x).vmasks = c.vmasks := by
  unfold Core.setHandle; split <;> rfl
@[simp] theorem Core.setHandle_farRows (c : Core) (k : Nat) (x : Handle) : (c.setHandle k x).farRows = c.farRows := by
  unfold Core.setHandle; split <;> rfl
@[simp] theorem Core.setHandle_mrows (c : Core) (k : Nat) (x : Handle) : (c.setHandle k x).mrows = c.mrows := by
  unfold Core.setHandle; split <;> rfl
@[simp] theorem Core.setHandle_t (c : Core) (k : Nat) (x : Handle) : (c.setHandle k x).t = c.t := by
  unfold Core.setHandle; split <;> rfl
@[simp] theorem Core.setHandle_w (c : Core) (k : Nat) (x : Handle) : (c.setHandle k x).w = c.w := by
  unfold Core.setHandle; split <;> rfl
@[simp] theorem Core.setHandle_v (c : Core) (k : Nat) (x : Handle) : (c.setHandle k x).v = c.v := by
  unfold Core.setHandle; split <;> rfl
@[simp] theorem Core.setHandle_pendV (c : Core) (k : Nat) (x : Handle) : (c.setHandle k x).pendV = c.pendV := by
  unfold Core.setHandle; split <;> rfl
@[simp] theorem Core.setHandle_pendM (c : Core) (k : Nat) (x : Handle) : (c.setHandle k x).pendM = c.pendM := by
  unfold Core.setHandle; split <;> rfl
@[simp] theorem Core.setHandle_loadedAt (c : Core) (k : Nat) (x : Handle) : (c.setHandle k x).loadedAt = c.loadedAt := by
  unfold Core.setHandle; split <;> rfl
@[simp] theorem Core.setHandle_acc (c : Core) (k : Nat) (x : Handle) : (c.setHandle k x).acc = c.acc := by
  unfold Core.setHandle; split <;> rfl
@[simp] theorem Core.setHandle_bank (c : Core) (k : Nat) (x : Handle) : (c.setHandle k x).bank = c.bank := by
  unfold Core.setHandle; split <;> rfl
@[simp] theorem Core.setHandle_launch (c : Core) (k : Nat) (x : Handle) : (c.setHandle k x).launch = c.launch := by
  unfold Core.setHandle; split <;> rfl
@[simp] theorem Core.setHandle_shadow (c : Core) (k : Nat) (x : Handle) : (c.setHandle k x).shadow = c.shadow := by
  unfold Core.setHandle; split <;> rfl
@[simp] theorem Core.setHandle_task (c : Core) (k : Nat) (x : Handle) : (c.setHandle k x).task = c.task := by
  unfold Core.setHandle; split <;> rfl
@[simp] theorem Core.setHandle_waiting (c : Core) (k : Nat) (x : Handle) : (c.setHandle k x).waiting = c.waiting := by
  unfold Core.setHandle; split <;> rfl
@[simp] theorem Core.setHandle_stoppedAt (c : Core) (k : Nat) (x : Handle) : (c.setHandle k x).stoppedAt = c.stoppedAt := by
  unfold Core.setHandle; split <;> rfl
@[simp] theorem Core.setHandle_lastCause (c : Core) (k : Nat) (x : Handle) : (c.setHandle k x).lastCause = c.lastCause := by
  unfold Core.setHandle; split <;> rfl
@[simp] theorem Core.setHandle_again (c : Core) (k : Nat) (x : Handle) : (c.setHandle k x).again = c.again := by
  unfold Core.setHandle; split <;> rfl
@[simp] theorem Core.setHandle_loanBorrowed (c : Core) (k : Nat) (x : Handle) : (c.setHandle k x).loanBorrowed = c.loanBorrowed := by
  unfold Core.setHandle; split <;> rfl
@[simp] theorem Core.setHandle_loanLent (c : Core) (k : Nat) (x : Handle) : (c.setHandle k x).loanLent = c.loanLent := by
  unfold Core.setHandle; split <;> rfl
@[simp] theorem Core.setQueue_s (c : Core) (e : Eng) (q : Queue) : (c.setQueue e q).s = c.s := by cases e <;> rfl
@[simp] theorem Core.setQueue_h (c : Core) (e : Eng) (q : Queue) : (c.setQueue e q).h = c.h := by cases e <;> rfl
@[simp] theorem Core.setQueue_m (c : Core) (e : Eng) (q : Queue) : (c.setQueue e q).m = c.m := by cases e <;> rfl
@[simp] theorem Core.setQueue_pc (c : Core) (e : Eng) (q : Queue) : (c.setQueue e q).pc = c.pc := by cases e <;> rfl
@[simp] theorem Core.setQueue_seed (c : Core) (e : Eng) (q : Queue) : (c.setQueue e q).seed = c.seed := by cases e <;> rfl
@[simp] theorem Core.setQueue_resid (c : Core) (e : Eng) (q : Queue) : (c.setQueue e q).resid = c.resid := by cases e <;> rfl
@[simp] theorem Core.setQueue_xpc (c : Core) (e : Eng) (q : Queue) : (c.setQueue e q).xpc = c.xpc := by cases e <;> rfl
@[simp] theorem Core.setQueue_xcause (c : Core) (e : Eng) (q : Queue) : (c.setQueue e q).xcause = c.xcause := by cases e <;> rfl
@[simp] theorem Core.setQueue_xval (c : Core) (e : Eng) (q : Queue) : (c.setQueue e q).xval = c.xval := by cases e <;> rfl
@[simp] theorem Core.setQueue_inh (c : Core) (e : Eng) (q : Queue) : (c.setQueue e q).inh = c.inh := by cases e <;> rfl
@[simp] theorem Core.setQueue_flt (c : Core) (e : Eng) (q : Queue) : (c.setQueue e q).flt = c.flt := by cases e <;> rfl
@[simp] theorem Core.setQueue_xhand (c : Core) (e : Eng) (q : Queue) : (c.setQueue e q).xhand = c.xhand := by cases e <;> rfl
@[simp] theorem Core.setQueue_schk (c : Core) (e : Eng) (q : Queue) : (c.setQueue e q).schk = c.schk := by cases e <;> rfl
@[simp] theorem Core.setQueue_lrun (c : Core) (e : Eng) (q : Queue) : (c.setQueue e q).lrun = c.lrun := by cases e <;> rfl
@[simp] theorem Core.setQueue_interlock (c : Core) (e : Eng) (q : Queue) : (c.setQueue e q).interlock = c.interlock := by cases e <;> rfl
@[simp] theorem Core.setQueue_grantPending (c : Core) (e : Eng) (q : Queue) : (c.setQueue e q).grantPending = c.grantPending := by cases e <;> rfl
@[simp] theorem Core.setQueue_arrived (c : Core) (e : Eng) (q : Queue) : (c.setQueue e q).arrived = c.arrived := by cases e <;> rfl
@[simp] theorem Core.setQueue_barAt (c : Core) (e : Eng) (q : Queue) : (c.setQueue e q).barAt = c.barAt := by cases e <;> rfl
@[simp] theorem Core.setQueue_lq (c : Core) (e : Eng) (q : Queue) : (c.setQueue e q).lq = c.lq := by cases e <;> rfl
@[simp] theorem Core.setQueue_sq (c : Core) (e : Eng) (q : Queue) : (c.setQueue e q).sq = c.sq := by cases e <;> rfl
@[simp] theorem Core.setQueue_held (c : Core) (e : Eng) (q : Queue) : (c.setQueue e q).held = c.held := by cases e <;> rfl
@[simp] theorem Core.setQueue_stops (c : Core) (e : Eng) (q : Queue) : (c.setQueue e q).stops = c.stops := by cases e <;> rfl
@[simp] theorem Core.setQueue_stamp (c : Core) (e : Eng) (q : Queue) : (c.setQueue e q).stamp = c.stamp := by cases e <;> rfl
@[simp] theorem Core.setQueue_cmp (c : Core) (e : Eng) (q : Queue) : (c.setQueue e q).cmp = c.cmp := by cases e <;> rfl
@[simp] theorem Core.setQueue_param (c : Core) (e : Eng) (q : Queue) : (c.setQueue e q).param = c.param := by cases e <;> rfl
@[simp] theorem Core.setQueue_icache (c : Core) (e : Eng) (q : Queue) : (c.setQueue e q).icache = c.icache := by cases e <;> rfl
@[simp] theorem Core.setQueue_latch (c : Core) (e : Eng) (q : Queue) : (c.setQueue e q).latch = c.latch := by cases e <;> rfl
@[simp] theorem Core.setQueue_flags (c : Core) (e : Eng) (q : Queue) : (c.setQueue e q).flags = c.flags := by cases e <;> rfl
@[simp] theorem Core.setQueue_rig (c : Core) (e : Eng) (q : Queue) : (c.setQueue e q).rig = c.rig := by cases e <;> rfl
@[simp] theorem Core.setQueue_chan (c : Core) (e : Eng) (q : Queue) : (c.setQueue e q).chan = c.chan := by cases e <;> rfl
@[simp] theorem Core.setQueue_sqa (c : Core) (e : Eng) (q : Queue) : (c.setQueue e q).sqa = c.sqa := by cases e <;> rfl
@[simp] theorem Core.setQueue_sqb (c : Core) (e : Eng) (q : Queue) : (c.setQueue e q).sqb = c.sqb := by cases e <;> rfl
@[simp] theorem Core.setQueue_forks (c : Core) (e : Eng) (q : Queue) : (c.setQueue e q).forks = c.forks := by cases e <;> rfl
@[simp] theorem Core.setQueue_batches (c : Core) (e : Eng) (q : Queue) : (c.setQueue e q).batches = c.batches := by cases e <;> rfl
@[simp] theorem Core.setQueue_batchLo (c : Core) (e : Eng) (q : Queue) : (c.setQueue e q).batchLo = c.batchLo := by cases e <;> rfl
@[simp] theorem Core.setQueue_pinned (c : Core) (e : Eng) (q : Queue) : (c.setQueue e q).pinned = c.pinned := by cases e <;> rfl
@[simp] theorem Core.setQueue_waitCount (c : Core) (e : Eng) (q : Queue) : (c.setQueue e q).waitCount = c.waitCount := by cases e <;> rfl
@[simp] theorem Core.setQueue_epoch (c : Core) (e : Eng) (q : Queue) : (c.setQueue e q).epoch = c.epoch := by cases e <;> rfl
@[simp] theorem Core.setQueue_crossing (c : Core) (e : Eng) (q : Queue) : (c.setQueue e q).crossing = c.crossing := by cases e <;> rfl
@[simp] theorem Core.setQueue_copies (c : Core) (e : Eng) (q : Queue) : (c.setQueue e q).copies = c.copies := by cases e <;> rfl
@[simp] theorem Core.setQueue_cmds (c : Core) (e : Eng) (q : Queue) : (c.setQueue e q).cmds = c.cmds := by cases e <;> rfl
@[simp] theorem Core.setQueue_ended (c : Core) (e : Eng) (q : Queue) : (c.setQueue e q).ended = c.ended := by cases e <;> rfl
@[simp] theorem Core.setQueue_vloads (c : Core) (e : Eng) (q : Queue) : (c.setQueue e q).vloads = c.vloads := by cases e <;> rfl
@[simp] theorem Core.setQueue_vmasks (c : Core) (e : Eng) (q : Queue) : (c.setQueue e q).vmasks = c.vmasks := by cases e <;> rfl
@[simp] theorem Core.setQueue_farRows (c : Core) (e : Eng) (q : Queue) : (c.setQueue e q).farRows = c.farRows := by cases e <;> rfl
@[simp] theorem Core.setQueue_mrows (c : Core) (e : Eng) (q : Queue) : (c.setQueue e q).mrows = c.mrows := by cases e <;> rfl
@[simp] theorem Core.setQueue_t (c : Core) (e : Eng) (q : Queue) : (c.setQueue e q).t = c.t := by cases e <;> rfl
@[simp] theorem Core.setQueue_w (c : Core) (e : Eng) (q : Queue) : (c.setQueue e q).w = c.w := by cases e <;> rfl
@[simp] theorem Core.setQueue_v (c : Core) (e : Eng) (q : Queue) : (c.setQueue e q).v = c.v := by cases e <;> rfl
@[simp] theorem Core.setQueue_pendV (c : Core) (e : Eng) (q : Queue) : (c.setQueue e q).pendV = c.pendV := by cases e <;> rfl
@[simp] theorem Core.setQueue_pendM (c : Core) (e : Eng) (q : Queue) : (c.setQueue e q).pendM = c.pendM := by cases e <;> rfl
@[simp] theorem Core.setQueue_loadedAt (c : Core) (e : Eng) (q : Queue) : (c.setQueue e q).loadedAt = c.loadedAt := by cases e <;> rfl
@[simp] theorem Core.setQueue_acc (c : Core) (e : Eng) (q : Queue) : (c.setQueue e q).acc = c.acc := by cases e <;> rfl
@[simp] theorem Core.setQueue_bank (c : Core) (e : Eng) (q : Queue) : (c.setQueue e q).bank = c.bank := by cases e <;> rfl
@[simp] theorem Core.setQueue_launch (c : Core) (e : Eng) (q : Queue) : (c.setQueue e q).launch = c.launch := by cases e <;> rfl
@[simp] theorem Core.setQueue_shadow (c : Core) (e : Eng) (q : Queue) : (c.setQueue e q).shadow = c.shadow := by cases e <;> rfl
@[simp] theorem Core.setQueue_task (c : Core) (e : Eng) (q : Queue) : (c.setQueue e q).task = c.task := by cases e <;> rfl
@[simp] theorem Core.setQueue_waiting (c : Core) (e : Eng) (q : Queue) : (c.setQueue e q).waiting = c.waiting := by cases e <;> rfl
@[simp] theorem Core.setQueue_stoppedAt (c : Core) (e : Eng) (q : Queue) : (c.setQueue e q).stoppedAt = c.stoppedAt := by cases e <;> rfl
@[simp] theorem Core.setQueue_lastCause (c : Core) (e : Eng) (q : Queue) : (c.setQueue e q).lastCause = c.lastCause := by cases e <;> rfl
@[simp] theorem Core.setQueue_again (c : Core) (e : Eng) (q : Queue) : (c.setQueue e q).again = c.again := by cases e <;> rfl
@[simp] theorem Core.setQueue_loanBorrowed (c : Core) (e : Eng) (q : Queue) : (c.setQueue e q).loanBorrowed = c.loanBorrowed := by cases e <;> rfl
@[simp] theorem Core.setQueue_loanLent (c : Core) (e : Eng) (q : Queue) : (c.setQueue e q).loanLent = c.loanLent := by cases e <;> rfl

end Sys2Proof.Machine
end

