-- ==== Sys2Proof/Laws/Operands.lean ====
section
/-! SUPPORT. What the operand helpers of the control core compute, bit by bit: fields (R76), slots and counts (R74, R79,
R82), truth tables and mask registers (R82, R83). -/

namespace Sys2Proof.Machine

set_option Elab.async false

/-! ## Bitfields (R76) -/

theorem fieldMask_bit (n j : Nat) : (fieldMask n).getLsbD j = (decide (j < 64) && decide (j < n)) := by
  rw [fieldMask, BitVec.getLsbD_ofNat, Nat.testBit_two_pow_sub_one]

/-- A field, bit by bit: the n bits from p on, then zeros or copies of the field's highest bit. -/
theorem bitField_bit (x : Word) (p n j : Nat) (sign : Bool) (h0 : 0 < n) (h : p + n ≤ 64) (hj : j < 64) :
    (bitField x p n sign).getLsbD j = if j < n then x.getLsbD (p + j) else sign && x.getLsbD (p + (n - 1)) := by
  have hf : ∀ j, ((x >>> p) &&& fieldMask n).getLsbD j = (x.getLsbD (p + j) && (decide (j < 64) && decide (j < n))) := by
    intro j
    rw [BitVec.getLsbD_and, BitVec.getLsbD_ushiftRight, fieldMask_bit]
  have ht : ((x >>> p) &&& fieldMask n).getLsbD (n - 1) = x.getLsbD (p + (n - 1)) := by
    rw [hf]
    simp only [show n - 1 < 64 by omega, show n - 1 < n by omega, decide_true, Bool.and_true]
  unfold bitField
  simp only [ht]
  by_cases c : (sign && x.getLsbD (p + (n - 1))) = true
  · rw [if_pos c, BitVec.getLsbD_or, BitVec.getLsbD_not, hf, fieldMask_bit, c]
    by_cases hn : j < n <;> simp only [hj, hn, decide_true, decide_false, Bool.and_true, Bool.and_false, Bool.not_true,
      Bool.not_false, Bool.or_false, Bool.or_true, if_true, if_false]
  · rw [if_neg c, hf, Bool.not_eq_true _ |>.mp c]
    by_cases hn : j < n <;> simp only [hj, hn, decide_true, decide_false, Bool.and_true, Bool.and_false, if_true, if_false]

/-- An insertion, bit by bit. -/
theorem insertField_bit (d x : Word) (p n j : Nat) (h : p + n ≤ 64) :
    (insertField d x p n).getLsbD j = if p ≤ j ∧ j < p + n then x.getLsbD (j - p) else d.getLsbD j := by
  unfold insertField
  rw [BitVec.getLsbD_or, BitVec.getLsbD_and, BitVec.getLsbD_not, BitVec.getLsbD_shiftLeft, BitVec.getLsbD_shiftLeft,
    BitVec.getLsbD_and, fieldMask_bit]
  by_cases hj : j < 64
  · by_cases c : p ≤ j ∧ j < p + n
    · simp only [hj, c, show ¬j < p by omega, show j - p < 64 by omega, show j - p < n by omega, decide_true, decide_false,
        Bool.not_false, Bool.true_and, Bool.and_true, Bool.not_true, Bool.and_false, Bool.false_or, and_self, if_true]
    · rw [if_neg c]
      by_cases hp : j < p
      · simp only [hj, hp, decide_true, Bool.not_true, Bool.and_false, Bool.false_and, Bool.not_false, Bool.and_true,
          Bool.or_false]
      · simp only [hj, hp, show ¬j - p < n by omega, decide_true, decide_false, Bool.not_false,
          Bool.and_false, Bool.and_true, Bool.or_false]
  · rw [if_neg (by omega)]
    simp only [hj, decide_false, Bool.false_and, Bool.and_false, Bool.or_false]
    exact (BitVec.getLsbD_of_ge d j (by omega)).symm

theorem signExtendLow_eq (x : Word) (n : Nat) (h0 : 0 < n) (h : n ≤ 64) :
    signExtendLow x n = (x.extractLsb' 0 n).signExtend 64 := by
  apply BitVec.eq_of_getLsbD_eq
  intro j hj
  rw [signExtendLow, bitField_bit x 0 n j true h0 (by omega) hj, BitVec.getLsbD_signExtend]
  simp only [Nat.zero_add, BitVec.getLsbD_extractLsb', hj, decide_true, Bool.true_and]
  by_cases c : j < n
  · simp only [c, if_true, decide_true, Bool.true_and]
  · simp only [c, if_false, BitVec.msb_eq_getLsbD_last, BitVec.getLsbD_extractLsb', show n - 1 < n by omega, decide_true,
      Bool.true_and, Nat.zero_add]

theorem zeroExtendLow_eq (x : Word) (n : Nat) (h0 : 0 < n) (h : n ≤ 64) :
    zeroExtendLow x n = (x.extractLsb' 0 n).zeroExtend 64 := by
  apply BitVec.eq_of_getLsbD_eq
  intro j hj
  rw [zeroExtendLow, bitField_bit x 0 n j false h0 (by omega) hj, BitVec.getLsbD_setWidth]
  simp only [Nat.zero_add, BitVec.getLsbD_extractLsb', hj, decide_true, Bool.true_and, Bool.false_and]
  by_cases c : j < n <;> simp only [c, if_true, if_false, decide_true, decide_false, Bool.true_and, Bool.false_and]

/-! ## Counts (R74, R82) -/

theorem lowestOne_le (x i n : Nat) : i ≤ lowestOne x i n ∧ lowestOne x i n ≤ i + n := by
  induction n generalizing i with
  | zero => exact ⟨Nat.le_refl _, Nat.le_refl _⟩
  | succ n ih =>
    rw [lowestOne]
    split
    · omega
    · have := ih (i + 1)
      omega

theorem lowestOne_below (x i n j : Nat) (h0 : i ≤ j) (h : j < lowestOne x i n) : x.testBit j = false := by
  induction n generalizing i with
  | zero => rw [lowestOne] at h; omega
  | succ n ih =>
    rw [lowestOne] at h
    split at h
    · omega
    · rename_i c
      by_cases e : j = i
      · subst e; exact Bool.not_eq_true _ |>.mp c
      · exact ih (i + 1) (by omega) h

theorem lowestOne_hit (x i n : Nat) (h : lowestOne x i n < i + n) : x.testBit (lowestOne x i n) = true := by
  induction n generalizing i with
  | zero => rw [lowestOne] at h; omega
  | succ n ih =>
    rw [lowestOne] at h ⊢
    split
    · assumption
    · rename_i c
      rw [if_neg c] at h
      exact ih (i + 1) (by omega)

theorem countOnes_eq (x n : Nat) : countOnes x n = ((List.range n).filter (fun j => x.testBit j)).length := by
  induction n generalizing x with
  | zero => rfl
  | succ n ih =>
    rw [countOnes, ih, List.range_succ_eq_map, List.filter_cons, List.filter_map]
    have e : ((fun j => x.testBit j) ∘ Nat.succ) = fun j => (x / 2).testBit j := by
      funext j
      simp only [Function.comp, Nat.succ_eq_add_one, Nat.testBit_succ]
    by_cases h : x.testBit 0 = true
    · rw [if_pos h, List.length_cons, List.length_map, e]
      rw [Nat.testBit_zero, decide_eq_true_eq] at h
      rw [h]
    · rw [if_neg h, List.length_map, e]
      rw [Nat.testBit_zero, decide_eq_true_eq] at h
      omega

/-! ## Masks (R79, R82, R83) -/

theorem slotBits_bit (m : BitVec 128) (w j : Nat) (h : slotCount w ≤ 128) :
    (slotBits m w).getLsbD j = (m.getLsbD j && decide (j < slotCount w)) := by
  rw [slotBits, BitVec.getLsbD_and, BitVec.getLsbD_ofNat, Nat.testBit_two_pow_sub_one]
  by_cases hj : j < 128
  · simp only [hj, decide_true, Bool.true_and]
  · simp only [BitVec.getLsbD_of_ge m j (by omega), Bool.false_and]

theorem maskLogic_bit (t : BitVec 4) (x y : BitVec 128) (j : Nat) (h : j < 128) :
    (maskLogic t x y).getLsbD j =
      t.getLsbD ((if x.getLsbD j then 2 else 0) + if y.getLsbD j then 1 else 0) := by
  have hp : ∀ (k : Nat) (m : BitVec 128), (if t.getLsbD k = true then m else 0).getLsbD j = (t.getLsbD k && m.getLsbD j) := by
    intro k m
    by_cases c : t.getLsbD k = true
    · rw [if_pos c, c, Bool.true_and]
    · rw [if_neg c, Bool.not_eq_true _ |>.mp c, Bool.false_and]
      exact BitVec.getLsbD_zero
  unfold maskLogic
  simp only [BitVec.getLsbD_or, hp, BitVec.getLsbD_and, BitVec.getLsbD_not, h, decide_true, Bool.true_and]
  cases x.getLsbD j <;> cases y.getLsbD j <;> simp

/-- A mask register that the control core has written reads back; m0 reads all ones; the others are as they were. -/
theorem Core.maskAt_putMask (c : Core) (t d : Nat) (x : BitVec 128) (k : Nat) :
    (c.putMask t d x).maskAt t k = if k = 0 then BitVec.allOnes 128 else if k = d then x else c.maskAt t k := by
  unfold Core.maskAt
  by_cases h0 : k = 0
  · rw [if_pos h0, if_pos h0]
  · rw [if_neg h0, if_neg h0, if_neg h0]
    have hm : (c.putMask t d x).mask k = if k = d ∧ d ≠ 0 then x else c.mask k := by
      have : (c.putMask t d x).mask k = (c.setMask d x).mask k := rfl
      rw [this, Core.mask_setMask]
    have hp : (c.putMask t d x).pendM = c.pendM.filter (fun p => !(p.reg == d && decide (p.land ≤ t))) := rfl
    rw [hm, hp]
    by_cases hk : k = d
    · rw [if_pos ⟨hk, hk ▸ h0⟩, if_pos hk]
      suffices ∀ (l : List PendMask) (z : BitVec 128),
          (l.filter (fun p => !(p.reg == d && decide (p.land ≤ t)))).foldl
            (fun x p => if p.reg = k ∧ p.land ≤ t then p.data else x) z = z by exact this _ _
      intro l
      induction l with
      | nil => intro z; rfl
      | cons p l ih =>
        intro z
        rw [List.filter_cons]
        split
        · rename_i c
          rw [List.foldl_cons, if_neg, ih]
          rintro ⟨e1, e2⟩
          simp [e1, e2, hk] at c
        · exact ih z
    · rw [if_neg (fun e => hk e.1), if_neg hk]
      suffices ∀ (l : List PendMask) (z : BitVec 128),
          (l.filter (fun p => !(p.reg == d && decide (p.land ≤ t)))).foldl
            (fun x p => if p.reg = k ∧ p.land ≤ t then p.data else x) z =
          l.foldl (fun x p => if p.reg = k ∧ p.land ≤ t then p.data else x) z by exact this _ _
      intro l
      induction l with
      | nil => intro z; rfl
      | cons p l ih =>
        intro z
        rw [List.filter_cons, List.foldl_cons]
        split
        · rw [List.foldl_cons, ih]
        · rename_i c
          have e : ¬(p.reg = k ∧ p.land ≤ t) := by
            rintro ⟨e1, e2⟩
            apply c
            have : ¬p.reg = d := by omega
            simp [this]
          rw [if_neg e, ih]

end Sys2Proof.Machine
end

