-- ==== Sys2Proof/Machine/View.lean ====
section
/-! DEFINITION. What a host read of BAR0 returns (R285, R327, R329, R334, R335, R339, R344). -/

namespace Sys2Proof.Machine

/-- The head-class and wait counters of a logical core of the context that the debug region selects (R335): words 0 to 11
are the class counters of the queues V, M, C, word 64 + f the wait counter of flag f; the offsets are the model's own. -/
def State.counterWord (s : State) (n k : Nat) : Nat :=
  let c := s.coreAt (s.dbg 0x20) n
  if k < 12 then ((c.queue (engOf (k / 4))).counters).getD (k % 4) 0
  else if 64 ≤ k ∧ k < 128 then SMap.get 0 c.waitCount (k - 64)
  else 0

/-- The trace and debug region, by offset in it. -/
def State.debugRead (s : State) (off : Nat) : Nat :=
  if 0x1F00000 ≤ off ∧ off < 0x1F00200 then (s.port ((off - 0x1F00000) / 8)).word
  else if 0x110000 ≤ off ∧ off < 0x150000 then s.counterWord ((off - 0x110000) / 1024) (off % 1024 / 8)
  else if off = 0x30 then s.ring.head
  else if off = 0x38 then s.ring.dropped
  else s.dbg off

/-- Boot and recovery status (R339): a recovering device shows the step and the outcome. -/
def State.bootStatus (s : State) : Nat :=
  match s.recovery with
  | some (step, outcome) => 2 ^ 63 + step.toNat * 2 ^ 16 + outcome.toNat
  | none => 0

/-- The identity block; the places of its fields are the model's own (log entry 13). -/
def State.identity (s : State) (k : Nat) : Nat :=
  match k with
  | 0 => (Config.orderingCode Config.part).toNat
  | 1 => s.gang.self
  | 2 => s.bootStatus
  | 3 => (SMap.get {} s.complexes (1 - s.activeComplex)).failKey.toNat
  | _ => (Config.bar0Value k).toNat

/-- A translation record as it is read: its zero fields read zero (R5, R314). -/
def shownRecord (r : Nat) : Nat := r - bits r 191 72 * 2 ^ 72 - bits r 63 48 * 2 ^ 48 - bits r 31 4 * 2 ^ 4

/-- A queue descriptor as it is read (R5, R285). -/
def shownQueue (d : Nat) : Nat := d / 2 ^ 252 * 2 ^ 252

/-- One 64-bit word at an aligned offset; reserved offsets read zero. -/
def State.bar0Read (s : State) (off : Nat) : Nat :=
  let h := s.host
  if off < 0x40 then s.identity (off / 8)
  else if 0x100000 ≤ off ∧ off < 0x140000 then
    shownRecord (SMap.get 0 h.ctxTable ((off - 0x100000) / 64)).toNat / 2 ^ (8 * (off % 64)) % 2 ^ 64
  else if 0x200000 ≤ off ∧ off < 0x210000 then
    shownQueue (SMap.get 0 h.queueTable ((off - 0x200000) / 64)).toNat / 2 ^ (8 * (off % 64)) % 2 ^ 64
  else if 0x2F0000 ≤ off ∧ off < 0x2F0080 then
    (List.range 64).foldl (fun v i => if (s.pqueue (8 * (off - 0x2F0000) + i)).refused then v + 2 ^ i else v) 0
  else if 0x300000 ≤ off ∧ off < 0x300020 then
    (match (off - 0x300000) / 8 with
     | 0 => h.cmd.toNat + (if h.busy then 2 ^ 32 else 0)
     | 1 => h.arg0.toNat
     | 2 => h.arg1.toNat
     | _ => h.arg2.toNat)
  else if 0x400000 ≤ off ∧ off < 0x400400 then
    s.remapEntry ((off - 0x400000) / 4) + s.remapEntry ((off - 0x400000) / 4 + 1) * 2 ^ 32
  else if off = 0x400400 then s.remapVersion.toNat
  else if 0x500000 ≤ off ∧ off < 0x500200 then (SMap.get 0 h.windows ((off - 0x500000) / 8)).toNat
  else if 0x600000 ≤ off ∧ off < 0x608000 then
    (SMap.get 0 h.msix ((off - 0x600000) / 16)).toNat / 2 ^ (8 * (off % 16)) % 2 ^ 64
  else if 0x680000 ≤ off ∧ off < 0x680100 then
    (List.range 64).foldl (fun v i => if h.pba.contains (8 * (off - 0x680000) + i) then v + 2 ^ i else v) 0
  else if off = 0x700000 then h.evBase.toNat
  else if off = 0x700008 then h.evLog
  else if 0x1000000 ≤ off ∧ off < 0x1800000 then
    let k := s.activeComplex
    readNat s.sram (8388608 * k + (((SMap.get {} s.complexes k).setting 0x810).toNat + (off - 0x1000000)) % 8388608) 8
  else if 0x2000000 ≤ off ∧ off < 0x4000000 then s.debugRead (off - 0x2000000)
  else 0

end Sys2Proof.Machine
end

