-- ==== Sys2Proof/Tests/Slice0.lean ====
section
/-! SUPPORT. The model's own tests: ill-formed terms that WellFormed refuses; for every encodable constructor one word written
out from the encoding tables R46 to R60, decoded and encoded; single steps on small states; and for every obligation with
hypotheses a state that meets them. -/

namespace Sys2Proof.Tests

set_option Elab.async false

open Sys2Proof Sys2Proof.Machine Sys2Proof.Claims

/-! ## Encoding -/

/-- The words decode to the instruction, which is well formed and encodes to them. -/
def decodesTo (ws : List (BitVec 32)) (i : Instr) : Bool := decodeWords ws == .ok i && i.wf && encode i == .words ws

/-- The engine word decodes to the instruction, which is well formed and encodes to it. -/
def engineWordIs (w : EWord) (i : Instr) : Bool := decodeEng w == .ok i && i.wf && encode i == .engine w


/-- One ill-formed term for each check of WellFormed. -/
theorem test_wf_refuses : ∀ i ∈ [
    Instr.sext 1 2 3, .zext 1 2 3, .bfx 1 2 60 10, .bfxS 1 2 63 1, .bfi 1 2 40 30,
    .bmskAny 1 3 0, .bmskNone 1 7 0, .bmskAll 1 4 0, .fenceSc 6, .fenceAcq 7, .fenceRel 6, .bar 0 6, .bara 0 7, .barw 0 6,
    .bwait 0 3, .csrr 1 0x00C, .csrr 1 0x020, .csrw 1 2 0x00C, .csrw 1 2 0x013, .csrw 1 2 0x031, .csrs 1 2 0x013,
    .csrc 1 2 0x037, .xstatWrite 0 1 2, .wmWrite 0 1 2 3, .residAccess 0 1 2, .tcrd 1 3, .mcntE 1 2 3, .mcntFfs 1 2 5,
    .enqs 1 2 3, .renq 1 2 3, .issue 3 0 0 0 0 0, .issue 0 0 0 1 6 0, .issue 0 0 0 0 1 0, .issue 0 0 0 0 0 0x400000000000,
    .mdrn 0 0 3 0 0 0, .mdrn 0 0 0 113 0 0, .mldacc 0 0 112 0 1, .vmlog 0 1 2 8 0 0, .sloop 1 0 0, .sloop 4 1 0,
    .sacq 6 0, .srel 7 0, .cbindStream 0 0 3 0] ++
    (let c : CWord := { ws := 1, wd := 2, ch := 3, sc := 0, rc := 1 }
     [Instr.ccvt c 5, .cred c 0, .cred { c with rc := 0 } 3, .cmcst c 0, .cdsp { c with rc := 0 } 0, .cdsp { c with ch := 0 } 0]) ++
    (let o : AOp := { d := 1, h := 2, x := 3, el := 0, rof := 0, a := 4, b := 0, scope := 0, w := 1 }
     [Instr.faa { o with scope := 6 }, .swp { o with el := 16 }, .amin { o with b := 1 }, .amax { o with b := 1 },
      .aminn { o with b := 1 }, .amaxn { o with b := 1 }, .aor { o with b := 1 }, .aand { o with b := 1 },
      .faab { o with w := 0 }, .fao { o with w := 0 }, .cas { o with scope := 7 }]) ++
    (let o : VWord := { d := 1, a := 2, b := 3, ty := 0, step := 0, mask := 0, sc := 0, rc := 0 }
     [Instr.vadd { o with ty := 3 }, .vsub { o with ty := 4 }, .vmul { o with d := 63, step := 3, rc := 1 },
      .vfma { o with a := 63, step := 2, rc := 1 }, .vfms { o with b := 63, step := 1, rc := 1 }, .vfnm { o with ty := 7 },
      .vmin { o with ty := 5 }, .vmax { o with ty := 6 }, .vabs o, .vneg { o with b := 0, step := 1 },
      .vrcp { o with b := 0, ty := 3 }, .vrsq o, .vsqrt o, .vexp2 o, .vlog2 o, .vtanh o,
      .viadd o, .visub o, .vimul o, .vimulh { o with ty := 3 }, .vshl o, .vshr o, .vsra o, .vand o, .vor o, .vxor o,
      .vimin o, .vimax o, .vsadd o, .vssub o, .viabs { o with ty := 4 }, .vimac o,
      .vceq { o with d := 0 }, .vcne { o with d := 8 }, .vclt { o with step := 1 }, .vcle { o with d := 0 },
      .vcun { o with ty := 4 }, .vsel { o with ty := 3, b := 31, step := 1, rc := 1 }, .vcvt { o with mask := 5, b := 0 },
      .vcvt { o with b := 1 }, .vcvt { o with b := 32, ty := 1 }, .vqbf { o with b := 1 }, .vqbf { o with b := 9 },
      .vdqbf { o with b := 15 }, .vqaf { o with b := 8 }, .vmov o, .vbcst { o with b := 32 }, .vld { o with a := 1 },
      .vst { o with a := 0, step := 2 }, .vgath { o with step := 1 }, .vscat { o with b := 32 }, .vrmg { o with ty := 6 },
      .vrmg { o with ty := 7, a := 63 }, .vshuf { o with b := 63, step := 1, rc := 1 }, .vpart { o with ty := 4, b := 1 },
      .vpart { o with ty := 4, b := 0, d := 63 }, .vpop { o with ty := 7, b := 0, a := 8 }, .vpush { o with ty := 7, b := 0, mask := 1 },
      .vred { o with b := 3 }, .vred { o with ty := 3, b := 0 }, .vscan { o with b := 8 }, .viota { o with ty := 4 },
      .vmcnt { o with ty := 4, b := 0, mask := 1 }, .vacc { o with a := 4 }, .vacc { o with b := 63, rc := 8 },
      .vclass { o with ty := 4 }]),
    i.wf = false := by decide +kernel


theorem test_decode_registers : ∀ p ∈ [
    ([0x0022F000], (Instr.add 1 2 30)),
    ([0x0022F001], (Instr.sub 1 2 30)),
    ([0x0022F002], (Instr.and 1 2 30)),
    ([0x0022F003], (Instr.or 1 2 30)),
    ([0x0022F004], (Instr.xor 1 2 30)),
    ([0x0022F005], (Instr.andn 1 2 30)),
    ([0x0022F006], (Instr.sll 1 2 30)),
    ([0x0022F007], (Instr.srl 1 2 30)),
    ([0x0022F008], (Instr.sra 1 2 30)),
    ([0x0022F009], (Instr.rol 1 2 30)),
    ([0x0022F00A], (Instr.mul 1 2 30)),
    ([0x0022F00B], (Instr.mulh 1 2 30)),
    ([0x0022F00C], (Instr.mulhn 1 2 30)),
    ([0x0022F00D], (Instr.div 1 2 30)),
    ([0x0022F00E], (Instr.divn 1 2 30)),
    ([0x0022F00F], (Instr.rem 1 2 30)),
    ([0x0022F010], (Instr.remn 1 2 30)),
    ([0x0022F011], (Instr.min 1 2 30)),
    ([0x0022F012], (Instr.max 1 2 30)),
    ([0x0022F013], (Instr.minn 1 2 30)),
    ([0x0022F014], (Instr.maxn 1 2 30)),
    ([0x0022F015], (Instr.slt 1 2 30)),
    ([0x0022F016], (Instr.sltn 1 2 30)),
    ([0x0022F017], (Instr.seq 1 2 30)),
    ([0x00640018], (Instr.clz 3 4)),
    ([0x00640019], (Instr.ctz 3 4)),
    ([0x0064001A], (Instr.pop 3 4)),
    ([0x0064009B], (Instr.sext 3 4 2)),
    ([0x0064005C], (Instr.zext 3 4 1)),
    ([0x0064299D], (Instr.sel 3 4 5 6)),
    ([0x0064281E], (Instr.addw 3 4 5)),
    ([0x0064281F], (Instr.subw 3 4 5)),
    ([0x00642820], (Instr.mulw 3 4 5)),
    ([0x00642FE1], (Instr.shadd 3 4 5 31))],
    decodesTo p.1 p.2 = true := by decide +kernel

theorem test_decode_immediates : ∀ p ∈ [
    ([0x052A8001], (Instr.addi 9 10 0x8001)),
    ([0x092A8001], (Instr.andi 9 10 0x8001)),
    ([0x0D2A8001], (Instr.ori 9 10 0x8001)),
    ([0x112A8001], (Instr.xori 9 10 0x8001)),
    ([0x152A8001], (Instr.slti 9 10 0x8001)),
    ([0x192A8001], (Instr.sltin 9 10 0x8001)),
    ([0x1D2A0021], (Instr.slli 9 10 33)),
    ([0x1D2A0061], (Instr.srli 9 10 33)),
    ([0x1D2A00A1], (Instr.srai 9 10 33)),
    ([0x1D2A00E1], (Instr.roli 9 10 33)),
    ([0x21208001], (Instr.lui 9 0x8001)),
    ([0x252A8001], (Instr.muli 9 10 0x8001)),
    ([0x292A01CF], (Instr.bfx 9 10 7 15)),
    ([0x292A11CF], (Instr.bfxS 9 10 7 15)),
    ([0x2D2A01CF], (Instr.bfi 9 10 7 15)),
    ([0xE5200000, 0x80000001], (Instr.li 9 0x80000001)),
    ([0xE9200000, 0x80000001], (Instr.lih 9 0x80000001))],
    decodesTo p.1 p.2 = true := by decide +kernel

theorem test_decode_transfers : ∀ p ∈ [
    ([0x33E2FFFC], (Instr.jalr 31 2 0xFFFC)),
    ([0x43B2FFFE], (Instr.beq 29 18 0xFFFE)),
    ([0x47B2FFFE], (Instr.bne 29 18 0xFFFE)),
    ([0x4BB2FFFE], (Instr.blt 29 18 0xFFFE)),
    ([0x4FB2FFFE], (Instr.bge 29 18 0xFFFE)),
    ([0x53B2FFFE], (Instr.bltn 29 18 0xFFFE)),
    ([0x57B2FFFE], (Instr.bgen 29 18 0xFFFE)),
    ([0x58A8000C], (Instr.bmskAny 5 2 12)),
    ([0x58A9000C], (Instr.bmskNone 5 2 12)),
    ([0x58AA000C], (Instr.bmskAll 5 2 12)),
    ([0x5CC0FFFD], (Instr.loop 6 0xFFFD)),
    ([0x63FFFFFF], (Instr.jal 0x3FFFFFF))],
    decodesTo p.1 p.2 = true := by decide +kernel

theorem test_decode_memory : ∀ p ∈ [
    ([0x80A67889], (Instr.ldW 5 3 7 17 9)),
    ([0x84A677FF], (Instr.ldD 5 3 7 15 127)),
    ([0x88A67889], (Instr.stW 5 3 7 17 9)),
    ([0x8CA677FF], (Instr.stD 5 3 7 15 127)),
    ([0x95060000], (Instr.srdW 8 6)),
    ([0x95060001], (Instr.srdD 8 6)),
    ([0x95060002], (Instr.savl 8 6)),
    ([0xE0A674E4, 0x01406000], (Instr.faa { d := 5, h := 3, x := 7, el := 9, rof := 100, a := 10, b := 0, scope := 3, w := 0 })),
    ([0xE0A674E4, 0x05407000], (Instr.faab { d := 5, h := 3, x := 7, el := 9, rof := 100, a := 10, b := 0, scope := 3, w := 1 })),
    ([0xE0A674E4, 0x094B7000], (Instr.fao { d := 5, h := 3, x := 7, el := 9, rof := 100, a := 10, b := 11, scope := 3, w := 1 })),
    ([0xE0A674E4, 0x0D4B7000], (Instr.cas { d := 5, h := 3, x := 7, el := 9, rof := 100, a := 10, b := 11, scope := 3, w := 1 })),
    ([0xE0A674E4, 0x11406000], (Instr.swp { d := 5, h := 3, x := 7, el := 9, rof := 100, a := 10, b := 0, scope := 3, w := 0 })),
    ([0xE0A674E4, 0x15406000], (Instr.amin { d := 5, h := 3, x := 7, el := 9, rof := 100, a := 10, b := 0, scope := 3, w := 0 })),
    ([0xE0A674E4, 0x19406000], (Instr.amax { d := 5, h := 3, x := 7, el := 9, rof := 100, a := 10, b := 0, scope := 3, w := 0 })),
    ([0xE0A674E4, 0x1D406000], (Instr.aminn { d := 5, h := 3, x := 7, el := 9, rof := 100, a := 10, b := 0, scope := 3, w := 0 })),
    ([0xE0A674E4, 0x21406000], (Instr.amaxn { d := 5, h := 3, x := 7, el := 9, rof := 100, a := 10, b := 0, scope := 3, w := 0 })),
    ([0xE0A674E4, 0x25406000], (Instr.aor { d := 5, h := 3, x := 7, el := 9, rof := 100, a := 10, b := 0, scope := 3, w := 0 })),
    ([0xE0A674E4, 0x29406000], (Instr.aand { d := 5, h := 3, x := 7, el := 9, rof := 100, a := 10, b := 0, scope := 3, w := 0 }))],
    decodesTo p.1 p.2 = true := by decide +kernel

theorem test_decode_system : ∀ p ∈ [
    ([0xA0000000], Instr.nop),
    ([0xA0000001], Instr.seam),
    ([0xA00002C2], (Instr.fenceSc 3)),
    ([0xA0000542], (Instr.fenceAcq 5)),
    ([0xA0000602], (Instr.fenceRel 0)),
    ([0xA000FFC3], (Instr.trap 1023)),
    ([0xA0000004], Instr.ertn),
    ([0xA0000005], Instr.brk),
    ([0xA0000006], Instr.yield),
    ([0xA0000007], Instr.texit),
    ([0xA0000008], Instr.wfe),
    ([0xA0000009], Instr.icinv),
    ([0xA000000A], Instr.modeExposed),
    ([0xA000004A], Instr.modeInterlock),
    ([0xAC800003], (Instr.csrr 4 0x003)),
    ([0xAC854002], (Instr.csrw 4 5 0x002)),
    ([0xAC858002], (Instr.csrs 4 5 0x002)),
    ([0xAC85C002], (Instr.csrc 4 5 0x002)),
    ([0xAC854013], (Instr.xstatWrite 1 4 5)),
    ([0xAC858036], (Instr.wmWrite 2 4 5 6)),
    ([0xAC80000C], (Instr.residAccess 0 4 0)),
    ([0xAC800020], (Instr.engstRead 4))],
    decodesTo p.1 p.2 = true := by decide +kernel

theorem test_decode_handles : ∀ p ∈ [
    ([0xA5240040], (Instr.trnR 9 4)),
    ([0xA52400C0], (Instr.trnRw 9 4)),
    ([0xA5240001], (Instr.vbind 9 4)),
    ([0xA4E90002], (Instr.hqry 7 9)),
    ([0xA4090003], (Instr.hinv 9)),
    ([0xA4E4A404], (Instr.pgreq 7 4 41)),
    ([0xA52C0005], (Instr.hmov 9 12))],
    decodesTo p.1 p.2 = true := by decide +kernel

theorem test_decode_flags : ∀ p ∈ [
    ([0xA804A400], (Instr.fsig 4 41)),
    ([0xA804A680], (Instr.fsigQuad 4 41 2)),
    ([0xA800A401], (Instr.fwait 41)),
    ([0xA8E0A402], (Instr.fpeek 7 41)),
    ([0xA8E43403], (Instr.rigw 7 4 13)),
    ([0xA800AC04], (Instr.bar 5 3)),
    ([0xA800AC05], (Instr.bara 5 3)),
    ([0xA800AC06], (Instr.barw 5 3)),
    ([0xA800FE07], (Instr.bwait 63 2)),
    ([0xA8001808], (Instr.rdvz 6))],
    decodesTo p.1 p.2 = true := by decide +kernel

theorem test_decode_tasks : ∀ p ∈ [
    ([0xB0E00080], (Instr.tcrd 7 2)),
    ([0xB0E00001], (Instr.cvq 7)),
    ([0xB1E1CAC2], (Instr.rlay 7 33 50 11)),
    ([0xB004CAC3], (Instr.tdld 4 50 11)),
    ([0xB004CAC4], (Instr.tdst 4 50 11)),
    ([0xB0E0C985], (Instr.tdrd 7 50 6)),
    ([0xB004C986], (Instr.tdwr 4 50 6)),
    ([0xB00476C7], (Instr.wkld 4 29 11)),
    ([0xB00476C8], (Instr.wkst 4 29 11)),
    ([0xB0E4C809], (Instr.guardW 7 4 50)),
    ([0xB0E4C80A], (Instr.guardD 7 4 50)),
    ([0xB0E4000B], (Instr.dlaunch 7 4))],
    decodesTo p.1 p.2 = true := by decide +kernel

theorem test_decode_masks : ∀ p ∈ [
    ([0xB4A20000], (Instr.mmov 5 2)),
    ([0xB4B4A801], (Instr.mset 5 20 21)),
    ([0xB6820082], (Instr.mcntE 20 2 2)),
    ([0xB6820202], (Instr.mcntLo 20 2)),
    ([0xB6820402], (Instr.mcntHi 20 2)),
    ([0xB6820642], (Instr.mcntFfs 20 2 1)),
    ([0xB4A23103], (Instr.mlog 5 2 6 4))],
    decodesTo p.1 p.2 = true := by decide +kernel

theorem test_decode_queues : ∀ p ∈ [
    ([0xB8D4AD80], (Instr.fork 6 20 21 22)),
    ([0xB814A881], (Instr.enqs 20 21 2)),
    ([0xB814A842], (Instr.renq 20 21 1)),
    ([0xF8146880, 0x00200C10, 0x83080000], (Instr.issue 0 5 6 2 1 0x00200C108308))],
    decodesTo p.1 p.2 = true := by decide +kernel

theorem test_decode_vector_float : ∀ p ∈ [
    (0x00900E18A34D, Instr.vadd { d := 33, a := 34, b := 35, ty := 2, step := 1, mask := 5, sc := 9, rc := 3 }),
    (0x01900E18A34D, Instr.vsub { d := 33, a := 34, b := 35, ty := 2, step := 1, mask := 5, sc := 9, rc := 3 }),
    (0x02900E18A34D, Instr.vmul { d := 33, a := 34, b := 35, ty := 2, step := 1, mask := 5, sc := 9, rc := 3 }),
    (0x03900E18A34D, Instr.vfma { d := 33, a := 34, b := 35, ty := 2, step := 1, mask := 5, sc := 9, rc := 3 }),
    (0x04900E18A34D, Instr.vfms { d := 33, a := 34, b := 35, ty := 2, step := 1, mask := 5, sc := 9, rc := 3 }),
    (0x05900E18A34D, Instr.vfnm { d := 33, a := 34, b := 35, ty := 2, step := 1, mask := 5, sc := 9, rc := 3 }),
    (0x06900E18A34D, Instr.vmin { d := 33, a := 34, b := 35, ty := 2, step := 1, mask := 5, sc := 9, rc := 3 }),
    (0x07900E18A34D, Instr.vmax { d := 33, a := 34, b := 35, ty := 2, step := 1, mask := 5, sc := 9, rc := 3 }),
    (0x08900E188035, Instr.vabs { d := 33, a := 34, b := 0, ty := 1, step := 2, mask := 5, sc := 9, rc := 3 }),
    (0x09900E188035, Instr.vneg { d := 33, a := 34, b := 0, ty := 1, step := 2, mask := 5, sc := 9, rc := 3 }),
    (0x0A900E188035, Instr.vrcp { d := 33, a := 34, b := 0, ty := 1, step := 2, mask := 5, sc := 9, rc := 3 }),
    (0x0B900E188035, Instr.vrsq { d := 33, a := 34, b := 0, ty := 1, step := 2, mask := 5, sc := 9, rc := 3 }),
    (0x0C900E188035, Instr.vsqrt { d := 33, a := 34, b := 0, ty := 1, step := 2, mask := 5, sc := 9, rc := 3 }),
    (0x0D900E188035, Instr.vexp2 { d := 33, a := 34, b := 0, ty := 1, step := 2, mask := 5, sc := 9, rc := 3 }),
    (0x0E900E188035, Instr.vlog2 { d := 33, a := 34, b := 0, ty := 1, step := 2, mask := 5, sc := 9, rc := 3 }),
    (0x0F900E188035, Instr.vtanh { d := 33, a := 34, b := 0, ty := 1, step := 2, mask := 5, sc := 9, rc := 3 })],
    engineWordIs p.1 p.2 = true := by decide +kernel

theorem test_decode_vector_integer : ∀ p ∈ [
    (0x10900E18A3CD, Instr.viadd { d := 33, a := 34, b := 35, ty := 6, step := 1, mask := 5, sc := 9, rc := 3 }),
    (0x11900E18A3CD, Instr.visub { d := 33, a := 34, b := 35, ty := 6, step := 1, mask := 5, sc := 9, rc := 3 }),
    (0x12900E18A3CD, Instr.vimul { d := 33, a := 34, b := 35, ty := 6, step := 1, mask := 5, sc := 9, rc := 3 }),
    (0x13900E18A3CD, Instr.vimulh { d := 33, a := 34, b := 35, ty := 6, step := 1, mask := 5, sc := 9, rc := 3 }),
    (0x14900E18A3CD, Instr.vshl { d := 33, a := 34, b := 35, ty := 6, step := 1, mask := 5, sc := 9, rc := 3 }),
    (0x15900E18A3CD, Instr.vshr { d := 33, a := 34, b := 35, ty := 6, step := 1, mask := 5, sc := 9, rc := 3 }),
    (0x16900E18A3CD, Instr.vsra { d := 33, a := 34, b := 35, ty := 6, step := 1, mask := 5, sc := 9, rc := 3 }),
    (0x17900E18A3CD, Instr.vand { d := 33, a := 34, b := 35, ty := 6, step := 1, mask := 5, sc := 9, rc := 3 }),
    (0x18900E18A3CD, Instr.vor { d := 33, a := 34, b := 35, ty := 6, step := 1, mask := 5, sc := 9, rc := 3 }),
    (0x19900E18A3CD, Instr.vxor { d := 33, a := 34, b := 35, ty := 6, step := 1, mask := 5, sc := 9, rc := 3 }),
    (0x1A900E18A3CD, Instr.vimin { d := 33, a := 34, b := 35, ty := 6, step := 1, mask := 5, sc := 9, rc := 3 }),
    (0x1B900E18A3CD, Instr.vimax { d := 33, a := 34, b := 35, ty := 6, step := 1, mask := 5, sc := 9, rc := 3 }),
    (0x1C900E18A3CD, Instr.vsadd { d := 33, a := 34, b := 35, ty := 6, step := 1, mask := 5, sc := 9, rc := 3 }),
    (0x1D900E18A3CD, Instr.vssub { d := 33, a := 34, b := 35, ty := 6, step := 1, mask := 5, sc := 9, rc := 3 }),
    (0x1E900E1880B5, Instr.viabs { d := 33, a := 34, b := 0, ty := 5, step := 2, mask := 5, sc := 9, rc := 3 }),
    (0x1F900E18A38D, Instr.vimac { d := 33, a := 34, b := 35, ty := 4, step := 1, mask := 5, sc := 9, rc := 3 })],
    engineWordIs p.1 p.2 = true := by decide +kernel

theorem test_decode_vector_masks : ∀ p ∈ [
    (0x20900058A3A6, Instr.vceq { d := 5, a := 34, b := 35, ty := 5, step := 0, mask := 6, sc := 9, rc := 0 }),
    (0x21900058A3A6, Instr.vcne { d := 5, a := 34, b := 35, ty := 5, step := 0, mask := 6, sc := 9, rc := 0 }),
    (0x22900058A3A6, Instr.vclt { d := 5, a := 34, b := 35, ty := 5, step := 0, mask := 6, sc := 9, rc := 0 }),
    (0x23900058A3A6, Instr.vcle { d := 5, a := 34, b := 35, ty := 5, step := 0, mask := 6, sc := 9, rc := 0 }),
    (0x24900058A306, Instr.vcun { d := 5, a := 34, b := 35, ty := 0, step := 0, mask := 6, sc := 9, rc := 0 }),
    (0x3B9000588926, Instr.vclass { d := 5, a := 34, b := 9, ty := 1, step := 0, mask := 6, sc := 9, rc := 0 }),
    (0x25900E18A3ED, Instr.vsel { d := 33, a := 34, b := 35, ty := 7, step := 1, mask := 5, sc := 9, rc := 3 }),
    (0x399008508640, Instr.vmlog 5 2 6 4 9 2)],
    engineWordIs p.1 p.2 = true := by decide +kernel

theorem test_decode_vector_convert : ∀ p ∈ [
    (0x26900E189934, Instr.vcvt { d := 33, a := 34, b := 25, ty := 1, step := 2, mask := 4, sc := 9, rc := 3 }),
    (0x27900E188813, Instr.vqbf { d := 33, a := 34, b := 8, ty := 0, step := 2, mask := 3, sc := 9, rc := 3 }),
    (0x28900E189053, Instr.vdqbf { d := 33, a := 34, b := 16, ty := 2, step := 2, mask := 3, sc := 9, rc := 3 }),
    (0x29900E189033, Instr.vqaf { d := 33, a := 34, b := 16, ty := 1, step := 2, mask := 3, sc := 9, rc := 3 }),
    (0x2A900E1880F5, Instr.vmov { d := 33, a := 34, b := 0, ty := 7, step := 2, mask := 5, sc := 9, rc := 3 }),
    (0x2B900E189F15, Instr.vbcst { d := 33, a := 34, b := 31, ty := 0, step := 2, mask := 5, sc := 9, rc := 3 })],
    engineWordIs p.1 p.2 = true := by decide +kernel

theorem test_decode_vector_memory : ∀ p ∈ [
    (0x2C900E101D3D, Instr.vld { d := 33, a := 0, b := 29, ty := 1, step := 3, mask := 5, sc := 9, rc := 3 }),
    (0x2D900E101D3D, Instr.vst { d := 33, a := 0, b := 29, ty := 1, step := 3, mask := 5, sc := 9, rc := 3 }),
    (0x2E900E189D35, Instr.vgath { d := 33, a := 34, b := 29, ty := 1, step := 2, mask := 5, sc := 9, rc := 3 }),
    (0x2F900E189D35, Instr.vscat { d := 33, a := 34, b := 29, ty := 1, step := 2, mask := 5, sc := 9, rc := 3 })],
    engineWordIs p.1 p.2 = true := by decide +kernel

theorem test_decode_vector_lanes : ∀ p ∈ [
    (0x30900E18A3F5, Instr.vrmg { d := 33, a := 34, b := 35, ty := 7, step := 2, mask := 5, sc := 9, rc := 3 }),
    (0x31900E18A3CD, Instr.vshuf { d := 33, a := 34, b := 35, ty := 6, step := 1, mask := 5, sc := 9, rc := 3 }),
    (0x3290021881A5, Instr.vpart { d := 33, a := 34, b := 1, ty := 5, step := 0, mask := 5, sc := 9, rc := 0 }),
    (0x33900E1180FD, Instr.vpop { d := 33, a := 6, b := 0, ty := 7, step := 3, mask := 5, sc := 9, rc := 3 }),
    (0x34900C6880F0, Instr.vpush { d := 6, a := 34, b := 0, ty := 7, step := 2, mask := 0, sc := 9, rc := 3 }),
    (0x35900E1882D5, Instr.vred { d := 33, a := 34, b := 2, ty := 6, step := 2, mask := 5, sc := 9, rc := 3 }),
    (0x36900E1886D5, Instr.vscan { d := 33, a := 34, b := 6, ty := 6, step := 2, mask := 5, sc := 9, rc := 3 }),
    (0x37900E1000BD, Instr.viota { d := 33, a := 0, b := 0, ty := 5, step := 3, mask := 5, sc := 9, rc := 3 }),
    (0x3890021180A0, Instr.vmcnt { d := 33, a := 6, b := 0, ty := 5, step := 0, mask := 0, sc := 9, rc := 0 }),
    (0x3A900E10FC5D, Instr.vacc { d := 33, a := 3, b := 60, ty := 2, step := 3, mask := 5, sc := 9, rc := 3 })],
    engineWordIs p.1 p.2 = true := by decide +kernel

theorem test_decode_matrix : ∀ p ∈ [
    (0x40900E862ABC, Instr.mma 2 33 34 0xABC 9 3),
    (0x419002000000, Instr.mzero 2 9),
    (0x42900E84A000, Instr.mdrn 2 33 2 64 9 3),
    (0x439003F00000, Instr.mlease 63 9),
    (0x449000000000, Instr.mcommit 9),
    (0x459002400000, Instr.mlend 2 1 9),
    (0x469002000000, Instr.mrecl 2 9),
    (0x47900E842000, Instr.mldacc 2 33 64 9 3)],
    engineWordIs p.1 p.2 = true := by decide +kernel

theorem test_decode_copy : ∀ p ∈ [
    (0x80900FDDC000, Instr.ccpy { ws := 30, wd := 29, ch := 6, sc := 9, rc := 3 }),
    (0x82900FDDC000, Instr.cxpd { ws := 30, wd := 29, ch := 6, sc := 9, rc := 3 }),
    (0x83900FDDC000, Instr.cfilb { ws := 30, wd := 29, ch := 6, sc := 9, rc := 3 }),
    (0x84900FDDC000, Instr.cgath { ws := 30, wd := 29, ch := 6, sc := 9, rc := 3 }),
    (0x85900FDDC000, Instr.cscat { ws := 30, wd := 29, ch := 6, sc := 9, rc := 3 }),
    (0x81900FDDD000, Instr.ccvt { ws := 30, wd := 29, ch := 6, sc := 9, rc := 3 } 4),
    (0x869003DDC800, Instr.cred { ws := 30, wd := 29, ch := 6, sc := 9, rc := 0 } 2),
    (0x87900FDDC081, Instr.cmcst { ws := 30, wd := 29, ch := 6, sc := 9, rc := 3 } 0x81),
    (0x889003DD0007, Instr.cdsp { ws := 30, wd := 29, ch := 0, sc := 9, rc := 0 } 7),
    (0x89900FC00400, Instr.cscl 30 1 9 3),
    (0x8A900000C000, Instr.cbindOff 6 9),
    (0x8A90001DC400, Instr.cbindRange 6 29 9),
    (0x8B900C1DC000, Instr.czero 29 6 9 3),
    (0x8C900000C3FF, Instr.cwmk 6 1023 9),
    (0x8A900001C801, Instr.cbindStream 6 1 1 9)],
    engineWordIs p.1 p.2 = true := by decide +kernel

theorem test_decode_sequencer : ∀ p ∈ [
    (0xC09AF0000000, Instr.snop 9 700),
    (0xC19002900000, Instr.swait 41 9),
    (0xC29002900000, Instr.ssig 41 9),
    (0xC39000008001, Instr.sloop 0 0x8001 9),
    (0xC39003000000, Instr.sloop 6 0 9),
    (0xC49000000000, Instr.sendl 9),
    (0xC59002900000, Instr.spho 41 9),
    (0xC69002900000, Instr.sphc 41 9),
    (0xC79001800000, Instr.sacq 3 9),
    (0xC89001800000, Instr.srel 3 9),
    (0xC99000000000, Instr.smodeExposed 9),
    (0xC99002000000, Instr.smodeInterlock 9),
    (0xCA9003000000, Instr.send 6 9)],
    engineWordIs p.1 p.2 = true := by decide +kernel


/-! ## States that meet the hypotheses of the statements

A launch of four cores runs one task on core 0 of context 1. -/

/-- The launch: span 0 to 3, four tasks. -/
def launch0 : Launch :=
  { number := 1, ctx := 1, queue := 0, oprec := BitVec.ofNat 2048 (3 * 2 ^ 392), crec := 0, t := 4, read := true,
    admitted := true }

/-- Every bank live on a physical core. -/
def liveOn (p : Nat) : SMap BankState := (List.range 8).map (fun b => (b, BankState.live p))

/-- Core 0 with a handler and a task; it owns its banks. -/
def taskCore : Core := { xhand := 0x1000, launch := some 0, task := some { l := 0, started := true }, bank := liveOn 0 }

/-- The package with cores 0 and 1 served for context 1, one segment in vault 0, and core 0 as given. -/
def withCore (c : Core) : State :=
  { State.reset with
    ctx := 1, cur := 0, remap := [(0, 0x80000000), (1, 0x80010000)], launches := [launch0],
    phys := [(0, { serving := some (1, 0), owner := (List.range 8).map (fun b => (b, 2, 0)) }), (1, { serving := some (1, 1) })],
    ctxs := [(1, { enabled := true, running := true })], cores := [(512, c)], segs := [{ ctx := 1, quad := 0, cseg := 0 }] }

/-- A handle of one segment of the core's own vault. -/
def vaultHandle : Handle := { valid := true, vault := true, base := BitVec.ofNat 64 ((64 + 65536) * 65536), rd := true, w := true }

/-- A handle of a resident page. -/
def pageHandle : Handle := { valid := true, base := 0x1FF800000010000, rd := true, w := true, frame := 5 }

def spotOf : Target → Option Spot
  | .spot p => some p
  | _ => none

theorem meets_ScalarOperations :
    (2#2).toNat < 3 ∧ (63#6).toNat + (0#6).toNat + 1 ≤ 64 ∧ (0#6).toNat + (63#6).toNat + 1 ≤ 64 := by decide

theorem meets_ControlTransfer :
    (2#3).toNat < 3 ∧ (31#5 : Reg) ≠ 0
      ∧ (let s := withCore taskCore
         s.core.inh = false ∧ s.core.xhand ≠ 0) := by decide +kernel

theorem meets_MaskInstructions : (0#3).toNat < 3 ∧ (2#3).toNat < 3 := by decide

theorem meets_IllegalInstructions :
    let s := withCore taskCore
    (s.core.inh = false ∧ s.core.xhand ≠ 0) ∧ (3#2).toNat = 3 ∧ 3 ≤ (3#3).toNat ∧ 6 ≤ (6#3).toNat
      ∧ 64 < (63#6).toNat + (1#6).toNat + 1 ∧ s.csrValue 0x005 = none ∧ csrReadOnly 0x000 = true := by decide +kernel

theorem meets_TrapEntry :
    let s := withCore taskCore
    let u := withCore { taskCore with inh := true, xpc := 0x40 }
    (s.core.inh = false ∧ s.core.xhand ≠ 0) ∧ u.core.inh = true
      ∧ ((u.core.inh = true ∨ u.core.xhand = 0) ∧ (1#8) ≠ 0x17 ∧ u.core.launch = some 0 ∧ u.launchAt 0 = some launch0
        ∧ u.core.task = some { l := 0, started := true })
      ∧ (withCore { taskCore with xhand := 0 }).core.xhand = 0
      ∧ (s.core.lq = [] ∧ s.core.sq = []) ∧ (withCore { taskCore with lq := [{ kind := .token 0 }] }).core.lq ≠ [] := by decide +kernel

/-- Cores 0 and 2 share one physical core, which serves core 0. -/
def twoOnOne : State :=
  let s := withCore taskCore
  { s with remap := [(0, 0x80000000), (2, 0x80000000)], cores := [(512, taskCore), (514, taskCore)] }

theorem meets_SystemAndModes :
    let s := withCore taskCore
    (withCore { taskCore with latch := true }).core.latch = true ∧ s.core.latch = false ∧ s.core.sq = []
      ∧ s.partner s.cur = none
      ∧ (twoOnOne.physOf 0 = some 0 ∧ twoOnOne.partner 0 = some 2 ∧ (twoOnOne.coreAt 1 2).runnable = true
        ∧ twoOnOne.core.lq = [] ∧ twoOnOne.core.sq = [] ∧ twoOnOne.core.copies = []
        ∧ ∀ e ∈ [Eng.v, .m, .c], (twoOnOne.core.queue e).act = none)
      ∧ (s.core.lq = [] ∧ s.core.launch = some 0 ∧ s.launchAt 0 = some launch0
        ∧ s.core.task = some { l := 0, started := true } ∧ s.core.flt = false ∧ s.core.held = []
        ∧ (s.core.qv.stopped = none ∧ s.core.qm.stopped = none ∧ s.core.qc.stopped = none))
      ∧ (s.core.lq.length < 16 ∧ s.core.sq.length < 16 ∧ (5#3).toNat < 6)
      ∧ (s.core.crossing = [] ∧ s.core.interlock = false ∧ s.core.interlock ≠ true)
      ∧ (let u := withCore { taskCore with crossing := [(true, 3, 0)], waiting := some .crossing,
                                           qv := { hw := [{ stamp := 3 }] } }
         u.engineCtx u.cur = some u.ctx ∧ u.core.crossing = (true, 3, 0) :: [] ∧ u.core.waiting = some .crossing
          ∧ (∀ e ∈ [Eng.v, .m, .c], ∀ x ∈ (u.core.queue e).incomplete, 3 ≤ x.stamp)) := by decide +kernel

theorem meets_CsrAccess :
    let s := withCore taskCore
    s.csrValue 0x022 = some 16 ∧ s.core.task = some { l := 0, started := true }
      ∧ (1 ≤ (s.core.rd 1 ||| (s.core.lrun.zeroExtend 64)).toNat ∧ (s.core.rd 1 ||| (s.core.lrun.zeroExtend 64)).toNat ≤ 64)
      ∧ (let u := withCore { taskCore with s := [(1, 64)] }; 1 ≤ (u.core.rd 1).toNat ∧ (u.core.rd 1).toNat ≤ 64) := by decide +kernel

/-- A RANGE channel of four vault rows with two marked. -/
def rangeCore : Core := { taskCore with chan := [(2, { mode := .range, first := .vault 0 8, len := 4, wm := 2 }),
                                                 (3, { mode := .stream, esz := 0, fifo := [7] }),
                                                 (4, { mode := .stream, esz := 1, fifo := [7, 8] })] }

theorem meets_CsrsWithEffects :
    let s := withCore rangeCore
    (3#2) ≠ 0 ∧ s.core.lq = [] ∧ s.core.sq = [] ∧ s.remoteOwed s.ctx s.cur = false ∧ (s.core.channel 0).mode = .off ∧ (s.core.channel 2).mode = .range := by
  decide +kernel

/-- A core that holds both handles, a segment's last row and a page's last row as offsets. -/
def handleCore : Core := { taskCore with h := [(1, vaultHandle), (2, pageHandle), (3, { pageHandle with w := false })],
                                         s := [(1, 65535), (2, 65536)] }

theorem meets_LoadsAndStoresIssue :
    let s := withCore handleCore
    ∀ h ∈ [1, 2], let hd := s.core.handle h
      hd.valid = true ∧ (s.core.rd 1).toNat < hd.limit ∧ hd.readyAt ≤ s.now ∧ s.core.lq.length < 16 ∧ hd.w = true
        ∧ s.core.sq.length < 16 := by decide +kernel

theorem meets_AccessChecksTrap :
    let s := withCore handleCore
    (s.core.inh = false ∧ s.core.xhand ≠ 0) ∧ (s.core.handle 9).valid = false
      ∧ (∀ h ∈ [1, 2], (s.core.handle h).valid = true ∧ (s.core.handle h).limit ≤ (s.core.rd 2).toNat)
      ∧ ((s.core.handle 3).valid = true ∧ (s.core.rd 1).toNat < (s.core.handle 3).limit ∧ (s.core.handle 3).w = false) := by
  decide +kernel

/-- Accesses at the heads of both queues: the last doubleword of the last row of the segment, or as the handle says. -/
def queued (hd : Handle) : Core := { handleCore with lq := [{ kind := .load 4 true 15, handle := hd, off := 65535, stamp := 2 }],
                                                     sq := [{ kind := .store 9 true 15, handle := hd, off := 65535, stamp := 1 }] }

theorem meets_AccessesPerform :
    (∀ hd ∈ [vaultHandle, pageHandle], let s := withCore (queued hd)
      Serves s ∧ 15 < 128 / 8 ∧ s.heldBack s.core (hd.loc (quadOf s.cur) 65535) = false
        ∧ (spotOf (s.handleTarget s.ctx s.cur hd 65535)).isSome = true
        ∧ (∀ p ∈ (spotOf (s.handleTarget s.ctx s.cur hd 65535)).toList, s.poisoned p = false) ∧ hd.rearm = false
        ∧ (∀ x ∈ s.core.sq, s.earlierLoad x (s.handleTarget s.ctx s.cur hd 65535) = false) ∧ hd.w = true)
    ∧ (let hd := { pageHandle with rev := true }; let s := withCore (queued hd)
      s.handleTarget s.ctx s.cur hd 65535 = .absent
        ∧ (∀ x ∈ s.core.sq, s.earlierLoad x (s.handleTarget s.ctx s.cur hd 65535) = false))
    ∧ (let hd := { pageHandle with st := .discarded }; let s := withCore (queued hd)
      s.handleTarget s.ctx s.cur hd 65535 = .discarded)
    ∧ (let c := { taskCore with lq := [{ kind := .token 16 }], sq := [{ kind := .token 16 }] }
      let s := withCore c
      Serves s ∧ s.core.lq = { kind := .token 16 } :: [] ∧ s.core.sq = { kind := .token 16 } :: []
        ∧ s.remoteOwed s.ctx s.cur = false ∧ 16 / 8 % 4 ≠ 0)
    ∧ (let c := { taskCore with lq := [{ kind := .token 32 }], sq := [{ kind := .token 32 }] }
      let s := withCore c
      s.core.lq = { kind := .token 32 } :: [] ∧ s.core.sq = { kind := .token 32 } :: [] ∧ 32 / 8 % 4 = 0)
    ∧ (let s := withCore { taskCore with sq := [{ kind := .token 16 }] }
      s.core.sq = { kind := .token 16 } :: [] ∧ s.core.lq = []) := by
  unfold Serves
  decide +kernel

theorem meets_StreamReads :
    let s := withCore rangeCore
    ((s.core.channel 3).mode = .stream ∧ (s.core.channel 3).fifo = 7 :: [] ∧ (s.core.channel 3).esz = 0)
      ∧ ((s.core.channel 4).mode = .stream ∧ (s.core.channel 4).fifo = 7 :: [8] ∧ (s.core.channel 4).esz = 1)
      ∧ (s.core.channel 0).mode ≠ .stream := by decide +kernel

/-- Core 0 with a page's address in s1 and a designator of its own vault in s2, and cached translations of the page. -/
def pages : State :=
  let s := withCore { taskCore with s := [(1, 0x1FF800000010000), (2, 64 + 65536)],
                                    h := [(2, pageHandle), (3, { pageHandle with st := .pending, rw := true })] }
  { s with tlb := [{ unit := 0, ctx := 1, page := 1, frame := 5, w := true, wr := true }] }

theorem meets_HandleInstructions :
    let des := (pages.core.rd 2).toNat % 2 ^ 25
    (pages.whereIs (pages.core.rd 1).toNat = .here 0x10000
      ∧ ∀ rw ∈ [false, true], pages.cached 0 1 1 rw = some { unit := 0, ctx := 1, page := 1, frame := 5, w := true, wr := true })
    ∧ (pages.core.rd 2).toNat < 2 ^ 25 ∧ des % 128 ≤ 64 ∧ desCount des ≠ 0
    ∧ pages.holdsSegs 1 (desQuad 0 des) (desFirst des) (desCount des) = true
    ∧ (pages.core.handle 2).valid = true ∧ (pages.core.handle 9).valid = false := by decide +kernel

theorem meets_HandlesResolve :
    let y := pages.core.handle 3
    Serves pages ∧ y.valid = true ∧ y.vault = false ∧ y.st = .pending ∧ pages.whereIs y.base.toNat = .here 0x10000
      ∧ pages.translate 0 1 0x10000 true = (pages, { st := .resident, frame := 5, w := true }) := by
  unfold Serves
  decide +kernel


/-! ### Tensors, flags, barriers, queues -/

/-- A descriptor image in the core's own vault, behind the handle h1: format code, tag, sizes, base row. -/
def vimg (fmt tag d0 d1 : Nat) (base : Nat := 0) (extra : Nat := 0) : BitVec 512 :=
  BitVec.ofNat 512 (2 ^ 31 + 2 ^ 40 + 2 ^ 36 + tag * 2 ^ 52 + fmt * 2 ^ 56 + base * 2 ^ 64 + d0 * 2 ^ 128 + d1 * 2 ^ 160
    + 2 ^ 192 + 2 ^ 224 + extra)

/-- Core 0 with the vault handle h1, and the tensor t1 of 64 × 32 INT32 elements and t2 of 32 INT64 elements in it. -/
def tensorCore : Core := { taskCore with h := [(1, vaultHandle), (2, pageHandle)], t := [(1, vimg 0x0A 0 64 32), (2, vimg 0x0B 0 32 1)],
                                         s := [(1, 2047), (2, 31)] }

theorem meets_TaskAndTableWords :
    let s := withCore tensorCore
    let entry := SMap.get 0 s.core.t 1
    s.core.task = some { l := 0, started := true }
      ∧ (descriptorOk (setWord entry 6 (s.core.rd 1)) = true ∧ (tensorOf (setWord entry 6 (s.core.rd 1))).dir = false)
      ∧ (descriptorOk (setWord entry 7 (s.core.rd 1)) = true ∧ (tensorOf (setWord entry 7 (s.core.rd 1))).dir = false)
      ∧ (s.core.inh = false ∧ s.core.xhand ≠ 0 ∧ descriptorOk (setWord entry 0 (s.core.rd 1)) = false) := by decide +kernel

def rowOf : State × RowRead → Option Row
  | (_, .ok row) => some row
  | _ => none

/-- Vault row 1 holds the image of t1 in its upper half; the walk records of row 2 are those of kind 0. -/
def tableState : State :=
  let s := withCore { tensorCore with s := [(1, 192), (2, 256 + 96)] }
  { s with vault := (List.range 64).filterMap (fun j =>
      let b := BitVec.ofNat 8 ((vimg 0x0A 0 64 32).toNat / 256 ^ j)
      if b = 0 then none else some (192 + j, b)) }

/-- What a table load needs of the row that it reads. -/
def tableRowOk (off : Nat) : Option Row → Bool
  | some row =>
    let image := row.extractLsb' (512 * (off % 128 / 64)) 512
    descriptorOk image && !(tensorOf image).dir && decide ((row.extractLsb' (256 * (off % 128 / 32)) 256).toNat / 2 ^ 252 < 3)
  | none => false

theorem meets_TableTransfers :
    ∀ p ∈ [((1 : Reg), (1 : HReg)), (2, 1)], let s := tableState
      let hd := s.core.handle p.2.toNat
      let off := s.core.rd p.1
      let loc := hd.loc (quadOf s.cur) off.toNat
      p.2 ≠ 0 ∧ hd.valid = true ∧ off.toNat < hd.limit ∧ hd.readyAt ≤ s.now ∧ s.core.lq = []
        ∧ s.heldBack s.core loc = false ∧ hd.w = true ∧ s.core.sq.length < 16
        ∧ tableRowOk off.toNat (rowOf (s.readTarget s.controlReader loc (s.handleTarget s.ctx s.cur hd off.toNat))) = true := by
  decide +kernel

def partsOf : Addr → List Bits
  | .at_ ps _ => ps
  | _ => []

theorem meets_GuardReads :
    ∀ p ∈ [((1 : Reg), 1, false), (2, 2, true)], let s := withCore tensorCore
      let q := (s.core.rd p.1).toNat
      let cap := s.core.cap p.2.1
      let tn := tensorOf cap.img
      let tag := (s.view s.ctx cap).tag
      let ps := partsOf (s.locate s.ctx (quadOf s.cur) cap q false)
      tn.valid = true ∧ guardFormat tn.fmt p.2.2 = true ∧ tag ≠ 7 ∧ tag ≠ 8 ∧ q < tn.count ∧ ps ≠ []
        ∧ (rowsOf ps).length = 1 ∧ s.core.lq = [] ∧ (∀ b ∈ ps, s.heldBack s.core b.loc = false)
        ∧ ∀ l ∈ rowsOf ps, (rowOf (s.readLoc s.controlReader l)).isSome = true := by decide +kernel

theorem meets_RelayoutStarts :
    let s := withCore tensorCore
    let cap := s.core.cap 1
    let tn := tensorOf cap.img
    let v := s.view s.ctx cap
    ∀ h ∈ [1, 2], let hb := s.core.handle h
      let new := if hb.vault then Backing.vault hb.des 0 else .va hb.base.toNat
      hb.valid = true ∧ v.back.isSome = true ∧ tn.mayMove v 2 new = true ∧ (hb.vault = true → tn.extent 2 ≤ hb.limit)
        ∧ tn.dir = false ∧ s.core.mayName 1 = false ∧ v.conv = none ∧ s.conversions s.ctx < 16 ∧ s.accessesDone 0 = true
        ∧ hb.readyAt ≤ s.now := by decide +kernel

theorem meets_FlagInstructions :
    let s := withCore { taskCore with flags := [(7, 65534)], s := [(1, 2)] }
    s.core.sq = [] ∧ s.core.flag 7 + 1 ≤ 65535 ∧ 65535 < s.core.flag 7 + (s.core.rd 1).toNat ∧ s.core.inh = false
      ∧ s.core.xhand ≠ 0 ∧ 0 < s.core.flag 7 ∧ s.core.flag 8 = 0
      ∧ (let target := 4 * (s.cur / 4) + (3#2).toNat
        s.inSpan target = true ∧ target ≠ s.cur
          ∧ ((s.noteLive.advance 2).coreAt s.ctx target).flag 7 + 1 ≤ 65535) := by decide +kernel

theorem meets_RiggingTerms :
    let s := withCore { taskCore with s := [(1, 0x1000000 + 5 + 6 * 64 + 5 * 4096)], flags := [(5, 2), (6, 1)] }
    productOk (s.core.rd 1) (48 + (15#4).toNat) = true ∧ productOk (s.core.rd 0) (48 + (15#4).toNat) = true
      ∧ (s.core.fireProduct 15 (s.core.rd 1).toNat).isSome = true ∧ 48 + 15 ∉ rigSources (s.core.rd 1).toNat := by decide +kernel

/-- Core 0 has arrived once at barrier 2 of the quad, whose first generation is complete. -/
def barrierState (arrived : List Nat) (fullAt : Option Nat) (waiting : SMap Nat) (at_ : Option Word := none) : State :=
  let s := withCore { taskCore with arrived := waiting, barAt := at_ }
  { s with barriers := [{ scope := 1, inst := 0, launch := 0, id := 2, gen := 1, arrived := arrived, fullAt := fullAt }],
           now := 100 }

theorem meets_Barriers :
    let s := barrierState [1, 2, 3] none [(10, 1)]
    (s.core.launch = some 0 ∧ s.launchAt 0 = some launch0 ∧ barrierNamed 1 2 = true ∧ barrierNamed 4 3 = true
      ∧ s.podBroken 1 = false ∧ s.accessesDone 1 = true ∧ s.arrivalDone 0 1 2 = true)
      ∧ s.core.barAt ≠ some s.core.pc
      ∧ (let u := barrierState [] none [(10, 1)] (some 0)
        u.core.barAt = some u.core.pc ∧ u.arrivalDone 0 1 2 = true)
      ∧ (let u := barrierState [0, 1, 2, 3] (some 96) [(10, 2)]
        ∃ b ∈ u.barriers[0]?, b.fullAt = some 96 ∧ u.launchAt b.launch = some launch0 ∧ b.scope = 1 ∧ 96 + 4 ≤ u.now)
      ∧ ∀ sc ∈ [2, 3], let u := { barrierState [] none [] with
            barriers := [{ scope := sc, inst := 0, launch := 0, id := 7, arrived := [0, 1, 2, 3], fullAt := some 60 }] }
        (∃ b ∈ u.barriers[0]?, b.fullAt = some 60 ∧ u.launchAt b.launch = some launch0
          ∧ (b.scope = 2 ∧ u.dieSplit b.inst = false ∧ 60 + 12 ≤ u.now ∨ b.scope = 3 ∧ 60 + 40 ≤ u.now)) := by decide +kernel

/-- One entry waits in each queue, and fork 5 has a stream in the vector queue. -/
def queuesCore : Core := { taskCore with qv := { hw := [{ seq := 0 }], next := 1 }, qm := { hw := [{ seq := 0 }], next := 1 },
                                         qc := { hw := [{ seq := 0 }], next := 1 }, forks := [(5, { pending := [.v] })],
                                         batches := [(0, 0)], batchLo := 1, s := [(1, 1), (2, 2), (3, 1)] }

theorem meets_BatchesAndRendezvous :
    let s := withCore queuesCore
    (∀ e ∈ [Eng.v, .m, .c], s.core.outstanding e ≤ (1#6).toNat ∧ (0#6).toNat < s.core.outstanding e)
      ∧ (SMap.get {} s.core.forks 4).pending = [] ∧ (SMap.get {} s.core.forks 5).pending ≠ [] := by decide +kernel

theorem meets_QueueInsertion :
    let s := { withCore queuesCore with launches := [{ launch0 with quota := 1 }] }
    let target := (s.core.rd 3).toNat % 256
    (∀ e ∈ [Eng.v, .m, .c], s.core.sq = [] ∧ s.canAccept s.ctx s.cur e 2 = true ∧ s.canAccept s.ctx s.cur e 1 = true)
      ∧ (∀ e ∈ [Eng.v, .m, .c], s.batchRoom e { body := .word 0, stamp := s.core.stamp } = true)
      ∧ s.toRing s.ctx target = true ∧ 1 ≤ s.quotaLeft s.ctx
      ∧ (let u := { s with cores := [(512, queuesCore), (513, { bank := liveOn 1 })] }
        u.toRing u.ctx target = false ∧ ∀ e ∈ [Eng.v, .m, .c], u.canAccept u.ctx target e 1 = true)
      ∧ s.inSpan target = true ∧ target ≠ s.cur ∧ s.storesDone (scopeOf s.cur target) = true := by decide +kernel

theorem meets_Forks :
    let s := withCore queuesCore
    let named := [(Eng.v, (1 : Reg)), (Eng.m, 2), (Eng.c, 0)].filter (fun p => p.2 != 0)
    named.length = 2 ∧ (SMap.get {} s.core.forks 4).pending = [] ∧ s.core.sq = []
      ∧ ∀ p ∈ named, (s.core.queue p.1).spill = [] ∧ (s.core.queue p.1).hwSlots ≤ 30 := by decide +kernel

/-- One page request is outstanding, and its reply stands in slot 3. -/
def requested : State :=
  let s := withCore { taskCore with s := [(1, 2)] }
  { s with ctxs := [(1, { enabled := true, running := true, prqSeq := 4, reqs := [{ seq := 3, core := 0, flag := 9 }] })],
           host := { s.host with ctxTable := [(1, BitVec.ofNat 512 (0x4000 * 2 ^ 256))] }, mem := [(0x4000 + 48 + 12, 3)] }

theorem meets_PageRequests :
    let s := requested
    let x := s.context s.ctx
    (s.core.rd 1).toNat ≠ 0 ∧ x.reqs.length < 1024 ∧ (s.core.rd 0).toNat = 0 ∧ s.core.flag 9 < 65535
      ∧ (let q : PageReq := { seq := 3, core := 0, flag := 9 }
        let v := readNat s.mem (recPrp (s.ctxRecord s.ctx) + 16 * 3) 16
        x.reqs.find? (fun r => r.seq % 1024 == 3) = some q ∧ v % 2 = q.seq / 1024 % 2 ∧ v / 2 ^ 96 % 2 ^ 32 = q.seq % 2 ^ 32
          ∧ q.flag ≠ 0 ∧ (s.coreAt s.ctx q.core).flag q.flag < 65535
          ∧ (s.coreAt s.ctx q.core).bankState 6 ≠ .saved) := by decide +kernel

/-- The operands of an atomic through handle h, at the last element of the row. -/
def aopThrough (h : HReg) (w : BitVec 1) : AOp := { d := 3, h := h, x := 1, el := if w = 1 then 15 else 31, rof := 0, a := 2, b := 2, scope := 5, w := w }

theorem meets_AtomicOperations :
    ∀ h ∈ [(1 : HReg), 2], ∀ w ∈ [0#1, 1], let o := aopThrough h w
      let s := withCore handleCore
      let hd := s.core.handle o.h.toNat
      let off := s.core.rd o.x + BitVec.ofNat 64 (128 * o.rof.toNat)
      let tg := s.handleTarget s.ctx s.cur hd off.toNat
      s.core.onItsWay = false ∧ s.contribs = [] ∧ o.h ≠ 0 ∧ hd.valid = true ∧ off.toNat < hd.limit
        ∧ hd.w = true ∧ hd.readyAt ≤ s.now ∧ s.accessesDone o.scope.toNat = true
        ∧ s.heldBack s.core (hd.loc (quadOf s.cur) off.toNat) = false ∧ (spotOf tg).isSome = true
        ∧ (∀ p ∈ (spotOf tg).toList, (p.vault = true ∨ p.addr / 2 ^ 47 % 2 = 0) ∧ s.poisoned p = false)
        ∧ o.el.toNat < 128 / (if o.w = 1 then 8 else 4) := by decide +kernel

/-- A bounded counter at the last doubleword of the segment: 5 of 7. -/
def counterState : State :=
  let s := withCore { handleCore with s := [(1, 65408), (2, 2), (4, 3)] }
  { s with vault := [(65408 + 120, 5), (65408 + 124, 7)] }

theorem meets_BoundedClaims :
    let s := counterState
    let base := 65408 / 128 * 128 + 8 * 15
    (s.handleTarget s.ctx s.cur (s.core.handle 1) 65408 = .spot ⟨true, 65408⟩)
      ∧ ((5 : Nat) < 256 ^ 4 ∧ ∀ j < 4, BitVec.ofNat 8 (5 / 256 ^ j) = readByte (s.space true) (base + j))
      ∧ ((7 : Nat) < 256 ^ 4 ∧ ∀ j < 4, BitVec.ofNat 8 (7 / 256 ^ j) = readByte (s.space true) (base + 4 + j))
      ∧ 5 + (s.core.rd 2).toNat % 2 ^ 32 ≤ 7 ∧ 7 < 5 + (s.core.rd 4).toNat % 2 ^ 32 := by decide +kernel

/-- Key 2 of 4 of core 0 is on its way; the round stands at key 1. -/
def roundState (key n : Nat) (grant : Option (Word × BitVec 2)) : State :=
  let s := withCore { taskCore with waiting := some (.grant 0) }
  { s with contribs := [{ id := 0, die := 0, ctx := 1, core := 0, launch := 0, dest := { loc := .vault 0 0, el := some 3 },
                          key := key, n := n, payload := .claim 1, reply := .reg 4, grant := grant }],
           rounds := [{ launch := 0, dest := { loc := .vault 0 0, el := some 3 }, n := 4, next := 1 }] }

theorem meets_OrderedArrivals :
    (let s := roundState 3 4 none
      ∃ k ∈ s.contribs[0]?, ∃ r ∈ s.roundAt k, k.buffered = false ∧ k.bad = false ∧ k.grant = none ∧ k.retryAt = none ∧ k.key < r.n ∧ k.n = r.n
        ∧ r.next < k.key ∧ s.bufferedNext k k.key = none ∧ s.bufferedCount k.die < 256)
    ∧ (∀ p ∈ [(4, 4), (2, 5)], let s := roundState p.1 p.2 none
      ∃ k ∈ s.contribs[0]?, ∃ r ∈ s.roundAt k, k.buffered = false ∧ k.bad = false ∧ k.grant = none ∧ k.retryAt = none
        ∧ (r.n ≤ k.key ∨ k.n ≠ r.n) ∧ k.reply = .reg 4 ∧ k.ctx = s.ctx ∧ k.core = s.cur
        ∧ s.core.waiting = some (.grant (2 * k.id)) ∧ s.core.pend = false ∧ s.core.inh = false ∧ s.core.xhand ≠ 0) := by
  decide +kernel

theorem meets_OrderedClaims :
    (let s := roundState 1 4 (some (7, 0))
      ∃ k ∈ s.contribs[0]?, s.contribs = [k] ∧ k.core = s.cur ∧ k.ctx = s.ctx ∧ k.reply = .reg 4 ∧ k.grant = some (7, 0)
        ∧ s.core.waiting = some (.grant (2 * k.id)) ∧ s.core.bankState 0 ≠ .saved)
    ∧ (let o := aopThrough 1 1
      let s := withCore handleCore
      s.accessesDone o.scope.toNat = true ∧ s.core.onItsWay = false ∧ (s.core.rd 1).toNat < (s.core.handle 1).limit) := by
  decide +kernel


/-! ### Entries and sequencers -/

/-- An entry at work whose body is one word, and one at work in a stream. -/
def wordAct (w : EWord) : Active := { entry := { body := .word w }, cur := { body := .word w } }
def streamAct : Active := { entry := { body := .stream 0 0 0 0 0 0 }, cur := { body := .stream 0 0 0 0 0 0 } }

/-- The core as given, with an engine at work on `a`. -/
def engState (e : Eng) (a : Active) (c : Core) : State :=
  { withCore (c.setQueue e { c.queue e with act := some a }) with eng := e }

/-- Flags 5 and 9 hold one count and flag 6 all that it can. -/
def flagCore : Core := { taskCore with flags := [(5, 1), (6, 65535), (9, 1)] }

def slotsAnswered : State × Except RowRead (List Nat) → Option (State × List Nat)
  | (s, .ok l) => some (s, l)
  | _ => none

/-- A page of device memory that a cached translation maps: a command block of two slots at its start, words from 128 on. -/
def blockState (body : Body) : State :=
  let a : Active := { entry := { body := body }, cur := { body := body } }
  { engState .c a taskCore with
    tlb := [{ unit := 0, ctx := 1, page := 1, frame := 5, w := true, wr := true }],
    mem := [(5 * 65536, 2), (5 * 65536 + 23, 0x30), (5 * 65536 + 39, 0x30), (5 * 65536 + 128, 7)] }

def blockReads (s : State) (addr : Nat) : Bool :=
  match slotsAnswered (s.readSlots (s.readerOf s.act.entry) addr 1) with
  | some (s1, [h]) =>
    decide (1 ≤ h ∧ h < 64) && (match slotsAnswered (s1.readSlots (s1.readerOf s.act.entry) (addr + 16) h) with
      | some (_, l) => l.length == h && ((innerEntries s.act.entry 64 l).getD []).length == h
      | none => false)
  | _ => false

theorem meets_QueueEntries :
    (let x : Entry := { wf := 5 }
     let s := withCore { flagCore with qv := { hw := [x] } }
     Engines s ∧ s.q.stopped = none ∧ s.q.act = none ∧ s.q.hw = x :: [] ∧ x.epoch ≤ s.core.epoch ∧ s.q.bpSeq = none
      ∧ s.q.bpFlag = none ∧ 0 < s.core.flag x.wf.toNat)
    ∧ (let a : Active := { entry := { body := .block 0 }, cur := { wf := 5 }, inner := some [] }
       let s := engState .m a flagCore
       Engines s ∧ s.q.stopped = none ∧ s.q.act = some a ∧ a.inner ≠ none ∧ a.innerBegun = false ∧ a.taken = false
        ∧ 0 < s.core.flag a.cur.wf.toNat ∧ a.cur.wf ≠ 0)
    ∧ (∀ b ∈ [false, true], let a : Active := { entry := { body := .block 0 }, cur := { wf := 7 }, inner := some [], taken := b }
       let s := engState .c a flagCore
       Engines s ∧ s.q.stopped = none ∧ s.q.act = some a ∧ a.inner ≠ none ∧ a.innerBegun = false
        ∧ s.core.flag a.cur.wf.toNat = 0 ∧ a.cur.wf ≠ 0)
    ∧ (let s := engState .v { entry := {} } taskCore
       Engines s ∧ s.q.stopped = none ∧ s.act.cur.body = .null ∧ s.act.inner = none)
    ∧ (let s := blockState (.block 0x1FF800000010000)
       Engines s ∧ s.q.stopped = none ∧ s.act.entry.blockCopy = [] ∧ blockReads s 0x1FF800000010000 = true)
    ∧ (let s := blockState (.stream 0x1FF800000010080 0 0 0 0 0)
       let s1 := s.readLoc (s.readerOf s.act.entry) (.va 0x1FF800000010080)
       Engines s ∧ s.q.stopped = none ∧ (rowOf s1).any (fun row => Nat.blt row.toNat (2 ^ 1008)) = true)
    ∧ (let s := { blockState (.stream 0x1FF800000010080 0 0 0 0 0) with mem := [(5 * 65536 + 255, 1)] }
       let s1 := s.readLoc (s.readerOf s.act.entry) (.va 0x1FF800000010080)
       Engines s ∧ (rowOf s1).any (fun row => Nat.ble (2 ^ 1008) row.toNat) = true ∧ s1.1.q = s.q) := by
  unfold Engines
  decide +kernel

theorem meets_QueueEntriesEnd :
    (∀ k ∈ [none, some 3], let f : Flight := { entry := { sf := 5, fork := k } }
       let s := withCore { flagCore with qv := { flight := [f] } }
       Engines s ∧ s.q.stopped = none ∧ s.q.flight[0]? = some f ∧ s.flightDone f = true ∧ s.core.flag f.entry.sf.toNat < 65535)
    ∧ (∀ e ∈ [Eng.v, .m, .c], let f : Flight := { entry := { sf := 6 } }
       let s := { withCore (flagCore.setQueue e { flight := [f] }) with eng := e }
       Engines s ∧ s.q.stopped = none ∧ s.q.flight[0]? = some f ∧ s.flightDone f = true ∧ f.entry.sf ≠ 0
        ∧ 65535 ≤ s.core.flag f.entry.sf.toNat ∧ f.entry.fork = none)
    ∧ (let f : Flight := { entry := { sf := 5 } }
       let s := { withCore { flagCore with qc := { flight := [f] } } with
         eng := .c, claims := [{ id := 0, ctx := 1, core := 0, seq := 0, die := 0, lo := 3, hi := 4 }] }
       Engines s ∧ s.q.stopped = none ∧ s.q.flight[0]? = some f ∧ s.flightDone f = true ∧ f.inner = none ∧ f.entry.fork = none
        ∧ s.core.flag f.entry.sf.toNat < 65535 ∧ ∀ c ∈ s.claims, c.pkg = none)
    ∧ (let s := withCore { taskCore with qv := { spill := [{}], hw := List.replicate 31 {} } }
       Engines s ∧ s.q.stopped = none ∧ s.q.spill = {} :: [] ∧ s.q.hwSlots + ({} : Entry).slots ≤ 32) := by
  unfold Engines
  decide +kernel

theorem meets_FaultsAndDelivery :
    (let s := engState .m streamAct taskCore
     Serves s ∧ (s.core.queue .m).act = some streamAct ∧ (s.core.queue .m).stopped = none)
    ∧ (let h : HeldTrap := { code := 0x15, value := 7 }
       let s := withCore { taskCore with held := [h] }
       Serves s ∧ s.coreRuns = true ∧ s.core.inh = false ∧ s.core.xhand ≠ 0 ∧ s.core.held = h :: [] ∧ s.core.waiting = none)
    ∧ (let f : EngFault := { code := 0x0B, seq := 7, prev := false }
       let s := withCore { taskCore with qv := { stopped := some f } }
       Serves s ∧ s.coreRuns = true ∧ s.core.inh = false ∧ s.core.xhand ≠ 0 ∧ s.core.held = [] ∧ s.core.waiting = none
        ∧ s.core.qv.stopped = some f ∧ f.told = false ∧ f.prev = false)
    ∧ (∀ z ∈ [false, true], let s := { withCore { taskCore with xhand := if z then 0 else 0x1000, waiting := some (.insertion 3 .m 5) } with time := 1000006 }
       Serves s ∧ s.core.waiting = some (.insertion 3 .m 5) ∧ Nat.blt (5 + 1000 * s.setting 0x823) s.time = true
        ∧ (z = false → s.core.inh = false ∧ s.core.xhand ≠ 0 ∧ s.core.pend = false) ∧ (z = true → s.core.xhand = 0)) := by
  unfold Serves
  decide +kernel

/-- How a request to open a footprint ends: 0 a fault without a record, 1 it waits, 2 phases open. -/
def openingIs : Opening → Nat → Bool
  | .fault _ 0, 0 => true
  | .wait, 1 => true
  | .opened (_ :: _), 2 => true
  | _, _ => false

theorem meets_SequencerWords :
    (let s := engState .c streamAct flagCore
     let v := s.landEarlier
     s.q.act = some streamAct ∧ streamAct.taken = false ∧ 0 < s.core.flag 5 ∧ s.core.flag 7 = 0 ∧ v.earlierReleased = true
      ∧ v.earlierDone = true ∧ v.core.flag 5 < 65535 ∧ 65535 ≤ v.core.flag 6 ∧ v.q.stopped = none
      ∧ s.inStream = true ∧ streamAct.loops.length < 4 ∧ streamAct.loops = [] ∧ streamAct.cur.fork = none
      ∧ v.core.interlock = false ∧ v.act.count ≠ 1 ∧ streamAct.inner = none)
    ∧ (let v := (engState .c streamAct { flagCore with interlock := true }).landEarlier
       v.core.interlock = true ∧ v.act.count ≠ 1)
    ∧ (∀ n ∈ [1, 2], let l : LoopLevel := { count := n, row := 0, slot := 3 }
       let a := { streamAct with loops := [l] }
       let s := engState .v a taskCore
       s.q.act = some a ∧ s.inStream = true ∧ (l.count ≤ 1 ∨ 1 < l.count))
    ∧ (let a := { streamAct with taken := true }
       (engState .v a taskCore).q.act = some a ∧ a.taken = true)
    ∧ (let s := engState .m (wordAct 0) taskCore
       s.inStream = false ∧ s.q.stopped = none ∧ s.q.act = some (wordAct 0))
    ∧ (let v := (engState .m { streamAct with count := 1 } taskCore).landEarlier
       v.act.count = 1 ∧ v.core.crossing = [])
    ∧ (let s := engState .c streamAct { flagCore with copies := [{ entry := {}, tag := { eng := .c, seq := 0 }, word := 0 }] }
       s.q.act = some streamAct ∧ s.landEarlier.earlierReleased = false)
    ∧ (let p : Phase := { quad := 0, ctx := 1, core := 1, eng := .v, fp := 0, seq := 0, reads := [], writes := [] }
       ∀ full ∈ [false, true],
       let s := { engState .v streamAct taskCore with
         launches := [{ launch0 with footprints := [BitVec.ofNat 512 (64 * 2 ^ 57 + 4 * 2 ^ 20)] }], phases := if full then List.replicate 16 p else [] }
       s.phaseTurn true = true ∧ openingIs (s.openPhase 0) (if full then 1 else 2) = true ∧ openingIs (s.openPhase 1) 0 = true
        ∧ s.q.phases.contains 0 = false ∧ s.q.stopped = none)
    ∧ (let s := engState .v streamAct taskCore
       s.phaseTurn false = true ∧ s.q.phases.contains 63 = false ∧ s.q.stopped = none)
    ∧ (∀ e ∈ [Eng.v, .m, .c], let s := { engState e streamAct (taskCore.setQueue e { phases := [63] }) with eng := e }
       s.phaseTurn false = true ∧ s.q.phases.contains 63 = true ∧ s.accessesPerformed = true ∧ s.core.sqa = [] ∧ s.core.sqb = []) := by decide +kernel

/-! ### The vector engine -/

/-- Two writes on their way: to v5 until cycle 9 and to m2 until cycle 7. -/
def pendingCore (interlock : Bool) : Core :=
  { interlock := interlock, pendV := [{ reg := 5, land := 9, data := 0, mask := 0 }], pendM := [{ reg := 2, land := 7, data := 0 }] }

theorem meets_VectorIssue :
    (let c : Core := { vloads := [{ tag := { eng := .v, seq := 0 }, reg := 5, width := 32, lanes := [], mask := 0, group := 0, slots := 0 }] }
     c.vloads.any (fun l => ([5] ++ [6]).contains l.reg) = true)
    ∧ (∀ b ∈ [false, true], (pendingCore b).vloads = [] ∧ (pendingCore b).vmasks = [] ∧ (pendingCore b).interlock = b)
    ∧ (pendingCore false).vIssue { eng := .v, seq := 0 } true { reads := [5], writes := [6], lat := 4 } 8 = .hazard
    ∧ (pendingCore false).vIssue { eng := .v, seq := 0 } true { reads := [5], writes := [6], lat := 4 } 9 = .at_ 9
    ∧ (pendingCore true).vIssue { eng := .v, seq := 0 } true { reads := [5], readM := [2], lat := 4 } 3 = .at_ 9
    ∧ (∀ b ∈ [false, true], (pendingCore b).loadedAt = [])
    ∧ { pendingCore true with loadedAt := [(5, 11)] }.vIssue { eng := .v, seq := 0 } true { reads := [5], lat := 4 } 3 = .at_ 11 := by
  decide +kernel

/-- Register fields of an operation whose type is `ty`. -/
def vop (ty : BitVec 3) : VWord := { d := 6, a := 5, b := 4, ty := ty, step := 0, mask := 2, sc := 0, rc := 3 }

theorem meets_VectorArithmetic :
    ∀ c ∈ [pendingCore true, { pendingCore true with interlock := false }], ∀ ty ∈ [0#3, 1, 2, 3, 4, 5, 6], ∀ lat ∈ [2, 3, 4, 12], ∀ n ∈ [1, 2, 3],
      let s := engState .v streamAct { c with launch := some 0, task := taskCore.task }
      let o := vop ty
      s.q.act = some streamAct ∧ (ty.toNat < 3 ∨ 4 ≤ ty.toNat ∨ ty = 3)
        ∧ s.core.vIssue s.tag streamAct.entry.schk
          { reads := [o.rA 0, o.rB 0, o.rD 0].take n, readM := [o.mask.toNat], writes := [o.rD 0], lat := lat } s.issueAt
          = .at_ (if c.interlock then 9 else 0) := by decide +kernel

theorem meets_VectorRegisters :
    let s := engState .v streamAct { pendingCore true with launch := some 0, task := taskCore.task }
    let issues := fun (reads readM writes writeM : List Nat) (lat : Nat) => s.core.vIssue s.tag streamAct.entry.schk
      { reads := reads, readM := readM, writes := writes, writeM := writeM, lat := lat } s.issueAt
    (∀ ty ∈ [0#3, 1, 2, 3, 4, 5, 6], let o := vop ty
      let k := o.mask.toNat
      s.q.act = some streamAct
      ∧ issues [o.rA 0, o.rB 0] [k] [] [o.d.toNat] 2 = .at_ 9 ∧ issues [o.rA 0] [k] [] [o.d.toNat] 2 = .at_ 9
      ∧ issues [o.rA 0, o.rB 0] [k] [o.rD 0] [] 2 = .at_ 9 ∧ issues [o.rA 0] [k] [o.rD 0] [] 2 = .at_ 9
      ∧ issues [] [k] [o.rD 0] [] 2 = .at_ 7 ∧ issues [o.rA 0, o.rB 0] [k] [o.rD 0] [] 3 = .at_ 9
      ∧ (∀ lat ∈ [4, 8], issues [o.rA 0] [] [o.rD 0] [] lat = .at_ 9)
      ∧ issues [o.rA 0] [k] [o.d.toNat, o.d.toNat + 1] [] 10 = .at_ 9 ∧ issues [o.rA 0] [k] [o.d.toNat] [] 8 = .at_ 9
      ∧ issues [o.rA 0] [k] [o.rD 0] [] 10 = .at_ 9 ∧ issues [] [o.a.toNat] [o.d.toNat] [] 2 = .at_ 0)
    ∧ (∀ ty ∈ [0#3, 1, 2, 3], (vop ty).fmt.float.isSome = true)
    ∧ (let o := vop 3
       tyBits o.ty = 8 ∧ issues [o.rA 0, o.rA 0 + 1, o.rB 0] [o.mask.toNat] [o.rD 0] [] 3 = .at_ 9)
    ∧ s.core.vIssue s.tag streamAct.entry.schk { readM := [2, 3], writeM := [4], lat := 2 } s.issueAt = .at_ 7 := by
  decide +kernel

/-- Core 0 at work in a stream, with the walk w1 over the first 32 elements of t1 (vault rows 0) and w2 over those of t3,
in the page that h2 names. -/
def walkCore : Core :=
  { tensorCore with
    t := tensorCore.t ++ [(3, BitVec.ofNat 512 (2 ^ 31 + 0x0A * 2 ^ 56 + 0x1FF800000010000 * 2 ^ 64 + 64 * 2 ^ 128 + 32 * 2 ^ 160
      + 2 ^ 192 + 2 ^ 224))],
    w := [(1, BitVec.ofNat 256 (1 * 2 ^ 246 + 31 * 2 ^ 176 + 1 * 2 ^ 48)), (2, BitVec.ofNat 256 (3 * 2 ^ 246 + 31 * 2 ^ 176 + 1 * 2 ^ 48))] }

def walkState : State :=
  { engState .v streamAct walkCore with tlb := [{ unit := 0, ctx := 1, page := 1, frame := 5, w := true, wr := true }] }

/-- A memory word of INT32 through walk b. -/
def memOp (b : BitVec 6) : VWord := { d := 6, a := 5, b := b, ty := 4, step := 0, mask := 0, sc := 0, rc := 0 }

def lanesOf : Resolved → List LaneLoc
  | .ok ls => ls
  | _ => []

/-- What a repetition of `vld` or `vgath` through walk b needs; `own`: its rows lie in the core's own vault. -/
def loadMeets (b : BitVec 6) (gather own behind : Bool) : Bool :=
  let o := memOp b
  let x : VLoad := { tag := { eng := .v, seq := 0 }, reg := 9, width := 32, mask := 0, group := 0, slots := 0,
                     lanes := [{ lane := 0, parts := [{ loc := .vault 0 0, off := 0, lo := 0, n := 8 }] }] }
  let s := walkState.upd (fun c => { c with vloads := if behind then [x] else [] })
  let s1 := s.readTables o
  let wk := walkOf s1.act.wrec
  let e := tyLanes o.ty
  let ps := if gather then wk.indexed 0 (s.core.vregAt 0 (o.rA 0)) else wk.group e 0 0
  let ls := lanesOf (s1.resolveLanes .v s1.act.data false [] ps)
  let got := (s1.readAll (engRow (s1.readerOf streamAct.entry) s1.tag) (laneRows ls)).2
  walkUsable s1.act.wrec && s1.vecDescOk o s1.act.data false && wk.kind == 0 && decide ((ls.map (fun l => l.lane)).Nodup)
    && ls.all (fun l => decide (l.lane < e)) && (wk.groupLen e 0).isSome && ls.length == 32
    && s1.core.vIssue s1.tag streamAct.entry.schk { reads := if gather then [o.rA 0] else [], writes := [o.rD 0], lat := 12 } s1.issueAt
        == .at_ 0
    && s1.ownRows (laneRows ls) == own && s1.loadPending (laneRows ls) == (behind && own) && got.all (fun x => x.2 != .wait)

theorem meets_VectorLoads :
    (∀ g ∈ [false, true], loadMeets 1 g true false = true ∧ loadMeets 1 g true true = true ∧ loadMeets 2 g false false = true)
    ∧ (let x : VLoad := { tag := { eng := .v, seq := 0 }, reg := 6, width := 32, mask := 15, group := 0, slots := 1,
                          lanes := [{ lane := 0, parts := [{ loc := .vault 0 0, off := 0, lo := 0, n := 8 }] },
                                    { lane := 1, parts := [{ loc := .vault 0 1, off := 0, lo := 0, n := 8 }] }] }
       ∀ y ∈ [x, { x with got := [(.vault 0 0, none)] }],
       let s := withCore { walkCore with vloads := [y, { x with got := [] }] }
       let l := Loc.vault 0 (y.got.length)
       let z := engRow ({ s with eng := .v }.readerOf (s.core.qv.entryOf y.tag.seq)) y.tag s l
       Serves s ∧ s.core.vloads[0]? = some y ∧ s.core.owedRows[0]? = some (0, some l) ∧ owesRow (s.core.vloads.take 0) [l] = false
        ∧ z.2 ≠ .wait ∧ z.1.ctx = s.ctx ∧ z.1.cur = s.cur ∧ (laneRows y.lanes).length = 2
        ∧ s.core.owedRows[2 - y.got.length]? = some (1, some (.vault 0 0))
        ∧ owesRow (s.core.vloads.take 1) [.vault 0 0] = y.got.isEmpty)
    ∧ (let x : VLoad := { tag := { eng := .v, seq := 0 }, reg := 6, width := 32, mask := 15, group := 0, slots := 0, lanes := [] }
       let s := withCore { walkCore with vloads := [x] }
       Serves s ∧ s.core.vloads[0]? = some x ∧ s.core.owedRows[0]? = some (0, none))
    ∧ (∀ p ∈ [({ at_ := 0 } : RepPart), { at_ := 0, todo := [.vault 0 0] }, { at_ := 0, todo := [.vault 0 0, .vault 0 1] }],
       let s := engState .v { streamAct with part := some p } walkCore
       s.q.act = some s.act ∧ s.act.part = some p
        ∧ ∀ l ∈ p.todo, (engRow (s.readerOf s.act.entry) s.tag s l).2 ≠ .wait) := by
  unfold Serves
  decide +kernel

/-- What a repetition of `vst` or `vscat` through walk 1 needs. -/
def storeMeets (scatter : Bool) : Bool :=
  let o := memOp 1
  let s := walkState
  let s1 := s.readTables o
  let wk := walkOf s1.act.wrec
  let e := tyLanes o.ty
  let m := s1.core.maskAt 0 o.mask.toNat
  let ps := if scatter then (wk.indexed 0 (s1.core.vregAt 0 (o.rA 0))).filter (fun x => m.getLsbD x.1)
    else (wk.group e 0 0).filter (fun x => streamAct.entry.rowmask.getLsbD (0 % 32) && decide (x.1 < e) && m.getLsbD x.1)
  let ls := lanesOf (s1.resolveLanes .v s1.act.data true [] ps)
  walkUsable s1.act.wrec && s1.vecDescOk o s1.act.data true && wk.kind == 0 && ls.length == 32
    && (laneRows ls).all (fun l => match l with
      | .vault q row => (match s1.vaultRow s1.ctx q row with | .at_ _ => true | _ => false)
      | .va _ => false)
    && (laneRows ls).length == 1 && !s1.loadPending (laneRows ls) && (wk.groupLen e 0).isSome
    && s1.core.vIssue s1.tag streamAct.entry.schk
        { reads := o.rD 0 :: (if scatter then [o.rA 0] else []), readM := [o.mask.toNat], lat := 0 } s1.issueAt == .at_ 0

theorem meets_VectorStores : storeMeets false = true ∧ storeMeets true = true
    ∧ ∀ p ∈ [({ at_ := 0 } : RepPart), { at_ := 0, put := [(.vault 0 0, 7, 1)] },
             { at_ := 0, put := [(.vault 0 0, 7, 1), (.vault 0 1, 7, 1)] }],
       let s := engState .v { streamAct with part := some p } walkCore
       s.eng = .v ∧ s.act.part = some p ∧ p.fault = none
        ∧ ∀ y ∈ p.put, s.rowsMoving [y.1] = false ∧ s.loadPending [y.1] = false := by decide +kernel

def accValue : AccRead → Option AccRow
  | .value _ r => some r
  | _ => none

theorem meets_VectorStreamsAndBanks :
    let ch : Channel := { mode := .stream, esz := 2, fifo := [7] }
    let s := engState .v streamAct { taskCore with chan := [(3, ch)] }
    let o : VWord := { d := 3, a := 3, b := 0, ty := 0, step := 0, mask := 0, sc := 0, rc := 0 }
    s.q.act = some streamAct
      ∧ s.core.vIssue s.tag streamAct.entry.schk { readM := [o.mask.toNat], writes := [o.rD 0], lat := 0 } s.issueAt = .at_ 0
      ∧ s.core.vIssue s.tag streamAct.entry.schk { reads := [o.rA 0], lat := 0 } s.issueAt = .at_ 0
      ∧ s.core.vIssue s.tag streamAct.entry.schk { readM := [o.mask.toNat], writes := [o.rD 0], lat := 6 } s.issueAt = .at_ 0
      ∧ s.core.channel 3 = ch ∧ ch.mode = .stream ∧ ch.esz = 2 ∧ ch.fifo = 7 :: [] ∧ ch.fifo.length < 16 ∧ s.act.rep = 0
      ∧ s.bankUsable 0 = true ∧ accValue (s.accRead 0 ((8 * 15 + 3) / 4) 0 streamAct.entry.stamp streamAct.entry.schk) = some 0 := by
  decide +kernel


/-! ### The matrix engine -/

/-- The engine word of an instruction. -/
def wordOf (i : Instr) : EWord := match encode i with | .engine w => w | _ => 0

/-- Core 0 has an `mma` at work, with the lease as `qd` says, at cycle 1000. -/
def mmaState (qd : Quad) : State :=
  { engState .m (wordAct (wordOf (.mma 0 1 2 0 0 0))) taskCore with quads := [(0, qd)], now := 1000 }

theorem meets_MatrixControl :
    (let s := mmaState {}
     (s.quad 0).holder = none ∧ (s.coreOfQuad 0 0).isSome = true ∧ s.requests 0 0 = true
      ∧ ((s.quad 0).lastHolder + 1) % 4 = 0)
    ∧ (let s := mmaState { holder := some 1 }
       (s.quad 0).holder = some 1 ∧ (s.coreOfQuad 0 1).isSome = true ∧ s.requests 0 0 = true
        ∧ (s.quad 0).grantAt + s.setting 0x824 ≤ s.now ∧ ({} : Core).qm.lastIssue + 1 + s.setting 0x824 ≤ s.now)
    ∧ (let s := { engState .m streamAct taskCore with quads := [(0, { holder := some 0 })] }
       s.q.act = some streamAct ∧ s.holdsArray = true ∧ s.inStream = true ∧ s.core.batchLo ≤ streamAct.entry.seq
        ∧ s.core.openBatches.length < 63 ∧ s.entrySpans 1 = true ∧ (s.quad (s.arrayOf s.cur)).lentTo 0 = none
        ∧ s.landEarlier.earlierNames 0 = false ∧ s.bankLoading 0 = false ∧ s.core.loanLent = none ∧ s.bankUsable 0 = true ∧ s.bankUsable 1 = false ∧ s.q.stopped = none)
    ∧ (let a := wordAct (wordOf (.mcommit 0))
       let s := engState .m a taskCore
       s.q.act = some a ∧ s.inStream = false ∧ a.inner = none)
    ∧ (let s := { engState .m streamAct taskCore with quads := [(0, { lent := [(0, 2)] })] }
       s.q.act = some streamAct ∧ (s.quad (s.arrayOf s.cur)).lentTo 0 = some 1 ∧ s.borrowerBusy 1 0 s.issueAt = false)
    ∧ (let s := engState .m streamAct { taskCore with loanLent := some 2 }
       s.q.act = some streamAct ∧ (s.quad (s.arrayOf s.cur)).lentTo 0 = none ∧ s.core.loanLent = some 2 ∧ 2 ≠ s.cur % 4) := by decide +kernel

/-- Core 0 with the panels of an `mma`: t1 of 2 × 32 FP16 in the first segment, t2 of 1 × 32 in the bank page, and t3 of
2 F32 elements in row 256. -/
def panelCore : Core :=
  { taskCore with
    h := [(1, { vaultHandle with base := BitVec.ofNat 64 ((64 + 65536) * 65536) }),
          (3, { vaultHandle with base := BitVec.ofNat 64 ((64 + 448 * 128 + 65536) * 65536) })],
    t := [(1, vimg 0x01 4 32 2), (2, vimg 0x01 5 1 32 0 (2 ^ 37)), (3, vimg 0x00 0 2 1 256), (4, vimg 0x00 0 2 1 256 (3 * 2 ^ 448))] }

def panelState : State :=
  { engState .m streamAct panelCore with
    quads := [(0, { holder := some 0 })], segs := [{ ctx := 1, quad := 0, cseg := 0 }, { ctx := 1, quad := 0, cseg := 448, pseg := 1 }] }

/-- What chunk 0 of an `mma` of t1 and t2 needs. -/
def mmaMeets : Bool :=
  let s := panelState
  let s1 := s.setAct { streamAct with caps := [s.core.cap 1, s.core.cap 2] }
  let ca := s1.act.caps.headD {}
  let cb := s1.act.caps.getD 1 {}
  let ta := tensorOf ca.img
  let tb := tensorOf cb.img
  let ks := chunkPositions 0 ta.d0
  match s1.locateAll ca ((List.range ta.d1).flatMap (fun x => ks.map (fun k => ((k + ta.d0 * x : Nat) : Int)))),
        s1.locateAll cb ((List.range tb.d0).flatMap (fun x => ks.map (fun k => ((x + tb.d0 * k : Nat) : Int)))) with
  | .ok pa ra, .ok pb rb =>
    let rd := engRow (s1.readerOf streamAct.entry) s1.tag
    let rows := rowsOf (pa ++ pb).flatten
    s1.bankUsable 0 && s1.mmaOk ca cb && s1.holdsArray && !s1.bankLoading 0 && scaleRows ta.fmt == 0
      && zeroPoint tb [] == false && ta.nsel == 0 && s1.violations .m s1.q.phases (s1.entryDet streamAct.entry) false (ra ++ rb) == none
      && s1.rowsHeld (pa ++ pb).flatten && rows.length == 33 && rows.all (fun l => (rd s1 l).2 != .wait)
  | _, _ => false

/-- What an `mdrn` of bank 0 into tensor `n` needs, with or without a bias. -/
def lanesAt (r : Resolved) (n : Nat) : Bool := match r with | .ok ls => ls.length == n | _ => false

def drainMeets (n ep : Nat) : Bool :=
  let s := panelState
  let d := s.core.cap n
  let s1 := s.setAct { streamAct with caps := [d, s.core.cap ((tensorOf d.img).aux % 64)] }
  let cap := s1.act.caps.headD {}
  let td := tensorOf cap.img
  let cols := min 128 td.d0
  let rows := drainRows 0 0 td.d1 streamAct.entry.rowmask
  match s1.drainBank 0 s1.issueAt rows with
  | .ok (s2, vals) =>
    s1.drainOk cap [.f32, .f16, .b16, .e4, .e5, .i32, .i16, .i8] && s1.biasOk (s1.act.caps.getD 1 {}) cols == (ep == 2)
      && s1.bankUsable 0 && vals.length == 1
      && (ep != 2 || lanesAt (s1.resolveLanes .m (s1.act.caps.getD 1 {}) false []
        ((List.range cols).map (fun n => (n, Pos.at_ ((n : Nat) : Int))))) cols)
      && (match s2.drainWrites cap cols (fun _ x n => drainCell ep td.fmt (accCell x n) n) vals with
        | .ok (put, none) => put.length == 1
        | _ => false)
  | .error _ => false

/-- What an `mldacc` of t3 into bank 0 needs, and the arrival of a row of its. -/
def loadAccMeets : Bool :=
  let s := panelState
  let s1 := s.setAct { streamAct with caps := [s.core.cap 3] }
  let cap := s1.act.caps.headD {}
  let td := tensorOf cap.img
  match s1.startRows 0 cap (min 128 td.d0) (drainRows 0 0 td.d1 0xFFFFFFFF) with
  | .ok [m] =>
    let u := withCore { panelCore with mrows := [m] }
    let l := m.owed.headD (.va 0)
    let r := State.sourceRow m [] u l
    let v := withCore { panelCore with mrows := [{ m with got := [(l, some 7)] }] }
    s1.drainOk cap [.f32, .f16, .b16] && s1.bankUsable 0 && u.servedCtx u.cur == some u.ctx && u.core.mrows == [m]
      && m.owed == [l] && r.2 != .wait && r.1.ctx == u.ctx && r.1.cur == u.cur
      && v.servedCtx v.cur == some v.ctx && (v.core.mrows.headD m).owed == []
  | _ => false

theorem meets_MatrixWords :
    mmaMeets = true ∧ drainMeets 3 1 = true ∧ drainMeets 4 2 = true ∧ loadAccMeets = true := by decide +kernel

theorem meets_MatrixWordsGoOn :
    (∀ p ∈ [({ at_ := 0 } : RepPart), { at_ := 0, todo := [.vault 0 0] }, { at_ := 0, todo := [.vault 0 0, .vault 0 1] },
            { at_ := 0, put := [(.vault 0 0, 7, 1)] }, { at_ := 0, put := [(.vault 0 0, 7, 1), (.vault 0 1, 7, 1)] }],
      let s := engState .m { streamAct with part := some p } panelCore
      s.q.act = some s.act ∧ s.eng = .m ∧ s.act.part = some p ∧ p.fault = none
        ∧ (∀ l ∈ p.todo, (engRow (s.readerOf s.act.entry) s.tag s l).2 ≠ .wait) ∧ ∀ y ∈ p.put, s.rowsMoving [y.1] = false)
    ∧ (0 : Nat) < 128 := by decide +kernel

/-! ### The copy engine -/

/-- The operands of a copy word from walk 1 to walk d. -/
def cword (d : BitVec 5) : CWord := { ws := 1, wd := d, ch := 7, sc := 2, rc := 0 }

/-- How a claim ends: 0 it is registered or none is needed, 1 it waits. -/
def claimedIs : Claimed → Nat → Bool
  | .ok _, 0 => true
  | .wait _, 1 => true
  | _, _ => false

/-- What the copy word i needs to be accepted on `walkState`'s core. -/
def copyMeets (i : Instr) : Bool :=
  let w := wordOf i
  let s := { engState .c (wordAct w) walkCore with tlb := walkState.tlb }
  match s.streamSide w with
  | some fifo =>
    let x := s.newCommand w fifo
    (wordAct w).word == some w && (wordAct w).cmd.isNone && decide (s.core.copies.length < 8) && s.commandOk x
      && claimedIs (((s.holdCommand x).markDirty x).claimDest x) 0 && claimedIs (s.claimDest x) 0
  | none => false

/-- The routing table of one expert of 32-element rows at the page's start, t4 of 32 × 4 BF16 tokens and t5 over the page's
first 128 bytes. -/
def dispatchState : State :=
  let c := { walkCore with
    t := [(4, vimg 0x02 0 32 4), (5, BitVec.ofNat 512 (2 ^ 31 + 0x0C * 2 ^ 56 + 0x1FF800000010000 * 2 ^ 64 + 128 * 2 ^ 128 + 2 ^ 160
      + 2 ^ 192 + 2 ^ 224))],
    w := [(1, BitVec.ofNat 256 (4 * 2 ^ 246 + 3 * 2 ^ 192 + 31 * 2 ^ 176 + 32 * 2 ^ 80 + 2 ^ 48)), (2, BitVec.ofNat 256 (5 * 2 ^ 246))] }
  { engState .c (wordAct (wordOf (.cdsp { cword 2 with ch := 0, rc := 1 } 0))) c with
    tlb := walkState.tlb, mem := [(5 * 65536 + 48, 32), (5 * 65536 + 50, 1)] }

/-- What the `cdsp` of `dispatchState` needs. -/
def dispatchMeets : Bool :=
  let s := dispatchState
  let w := (s.act.word).getD 0
  let x0 := s.newCommand w 0
  let x := { x0 with wlen := x0.ws.c1 * x0.ws.c2 * x0.ws.c3 }
  match s.tableParts x 0 64 with
  | some ps =>
    (match s.readParts (engRow (s.readerOf s.act.entry) s.tag) x ps with
     | (s1, .bits v) =>
       let h := BitVec.ofNat 512 v
       let y := { x with header := h }
       let s1' := s1.setCore (s1.core.dropFar x.tag)
       s.dispatchOk x && headerOk h x.ws.c0 && decide ((x.wd.at_ 0 0 0).toNat + 64 + 32 * hdExperts h ≤ x.td.count)
        && claimedIs (((s1'.holdCommand y).markDirty y).claimDest y) 0 && hdExperts h == 1
     | _ => false)
  | none => false

/-- Eight commands of the core are in flight. -/
def fullState : State :=
  engState .c (wordAct 0) { walkCore with copies := List.replicate 8 { tag := { eng := .c, seq := 0 }, word := 0, entry := {} } }

/-- What `cbindRange` of walk b needs. -/
def rangeMeets (b : Nat) : Bool :=
  let s := { engState .c streamAct walkCore with tlb := walkState.tlb }
  let w := walkOf (s.core.walk b)
  let cap := s.core.cap w.tix
  match s.rangeRows w cap with
  | .ok (x, y) => walkUsable (s.core.walk b) && (s.view s.ctx cap).usable (tensorOf cap.img) && (rangeLen x y).isSome
      && !s.core.channelBusy 3
  | .error _ => false

/-- A copy word of a deterministic launch waits for the answers to its claims on other packages. -/
def claimWaits : Bool :=
  let w := wordOf (.ccpy (cword 2))
  let s := { engState .c { wordAct w with count := 2 } walkCore with
    tlb := walkState.tlb, launches := [{ launch0 with oprec := launch0.oprec + BitVec.ofNat 2048 (2 ^ 180) }] }
  let x := s.newCommand w 0
  claimedIs (s.claimDest x) 1 && claimedIs (((s.holdCommand x).markDirty x).claimDest x) 1 && s.commandOk x

theorem meets_CopyWords :
    (∀ i ∈ [Instr.ccpy (cword 1), .ccpy (cword 2), .czero 2 7 2 0], copyMeets i = true)
    ∧ dispatchMeets = true ∧ claimWaits = true
    ∧ (8 ≤ fullState.core.copies.length ∧ (wordAct 0).word = some 0 ∧ (wordAct 0).cmd = none ∧ fullState.core.channelBusy 1 = false)
    ∧ (let s := engState .c streamAct { walkCore with qc := { flight := [{ entry := {}, chans := [3] }] } }
       s.core.channelBusy 3 = true ∧ s.core.channelBusy 2 = false ∧ s.q.act = some streamAct)
    ∧ rangeMeets 1 = true ∧ rangeMeets 2 = true
    ∧ (let s := engState .c streamAct { taskCore with chan := rangeCore.chan }
       (s.core.channel 2).mode = .range ∧ (s.core.channel 7).mode ≠ .range ∧ s.q.stopped = none) := by decide +kernel

def ranOf : Ran → Option (State × Batch)
  | .ok s b => some (s, b)
  | _ => none

/-- What ROW_TRANSFER of the first position of a `ccpy` from walk 1 to walk d needs. -/
def transferMeets (d : BitVec 5) : Bool :=
  let w := wordOf (.ccpy (cword d))
  let s0 := { engState .c (wordAct w) walkCore with tlb := walkState.tlb }
  let x := s0.newCommand w 0
  let s := s0.setCore { s0.core with copies := [x] }
  let rd := copyReader x (s.readerOf x.entry)
  match ranOf (s.gather rd 0 0 x (x.wlen - 0 % x.wlen) 0 {}) with
  | some (s1, b) =>
    (match b.rows with
     | [l] =>
       s.engineCtx s.cur == some s.ctx && s.core.copies == [x] && !s.core.copyStopped x && x.pend.isNone && x.away.isEmpty
        && !x.isMoved 0 && decide (0 < x.total) && x.op == opCcpy && !x.asksMulticast && x.fifo != 1 && !s.mustFollow 0 0 0 x
        && s1.ctx == s.ctx && s1.cur == s.cur
        && s1.violations .c x.fps (s1.entryDet x.entry) true [l] == none && (spotOf (s1.resolve s1.ctx s1.cur l true).2).isSome
        && b.gs.length == 32
     | _ => false)
  | none => false

/-- What ROW_TRANSFER needs of a command with `n` rows still to be written. -/
def writeMeets (n : Nat) : Bool :=
  let w := wordOf (.ccpy (cword 1))
  let s0 := engState .c (wordAct w) walkCore
  let x := { s0.newCommand w 0 with
    pend := some { gs := [0], rows := (List.range n).map (fun r => (.vault 0 r, 7, 1, 255)) } }
  let s := s0.setCore { s0.core with copies := [x] }
  let r := s.resolve s.ctx s.cur (.vault 0 0) true
  s.engineCtx s.cur == some s.ctx && s.core.copies == [x] && !s.core.copyStopped x && x.away.isEmpty && x.op == opCcpy
    && (spotOf r.2).isSome && r.1.ctx == s.ctx && r.1.cur == s.cur

theorem meets_RowTransfers : transferMeets 2 = true ∧ writeMeets 1 = true ∧ writeMeets 2 = true := by decide +kernel


/-- The package with a page that the front end reads and writes for context 1, and the launches given. -/
def frontState (l : List Launch) (c : Core) : State :=
  { withCore c with launches := l, tlb := [{ unit := 8, ctx := 1, page := 1, frame := 5, w := true, wr := true }] }

/-- The virtual address of the page. -/
def pageVa : Nat := 0x1FF800000010000

/-- A launch that LAUNCH_ADMIT would read. -/
def unreadMeets : Bool :=
  let x := { launch0 with read := false, admitted := false, addr := BitVec.ofNat 64 pageVa }
  let s := frontState [x] {}
  match s.feRead 1 (x.addr.toNat / 256 * 256) 256 with
  | (s1, .ok _) => !x.read && (s1.launchAt 0).isSome
  | _ => false

/-- A launch that LAUNCH_ADMIT admits, or refuses when it is bad. -/
def admitMeets (bad : Bool) : Bool :=
  let x := { launch0 with admitted := false, bad := bad }
  let s := frontState [x] {}
  s.admissible x && !s.outranked x && (match s.validate x with
    | (s1, some y) => !bad && (match s1.growAll y y.quads with
      | some s2 => (s2.launchAt 0).isSome && y.spans 0
      | none => false)
    | (s1, none) => bad && (s1.launchAt 0).isSome)

/-- A launch in the shadow bank of core 0, not started yet or started on core 1. -/
def startMeets (first : Bool) : Bool :=
  let x := { launch0 with started := if first then [] else [1], begun := !first }
  let s := frontState [x] { shadow := some 0 }
  s.startsFor 0 == some 1 && s.physOf 0 == some 0 && s.shadowFor 1 0 == some 0 && s.mayStart 0 (s.coreAt 1 0) x
    && !x.retired && x.error.isNone
    && (match (if first then s.startChecks x else (s, some x)) with
      | (s1, some z) => (((s1.fillPreloads z (if first then z.preloads else [])).1.takeCore 1 0 0).launchAt 0).isSome
      | _ => false)

theorem meets_Launches :
    ((withCore taskCore).deviceBuilt 1 < 16 ∧ (withCore taskCore).storesDone 3 = true)
      ∧ unreadMeets = true ∧ admitMeets true = true ∧ admitMeets false = true ∧ startMeets true = true
      ∧ startMeets false = true
      ∧ (∀ b ∈ [false, true], let x := { launch0 with t := 0, started := [0] }
         let s := { frontState [x] {} with pqueues := [(0, { paused := b })] }
         s.mayRetire 0 x = true ∧ (s.pqueue x.queue).paused = b ∧ s.behind x = false) := by decide +kernel

/-- A launch of 4 by 4 by 1 tasks on cores 0 to 3, with the lattice in force when `cov`. -/
def gridLaunch (cov : Bool) : Launch :=
  let r := 3 * 2 ^ 392 + 3 * 2 ^ 128 + 3 * 2 ^ 144
  { launch0 with oprec := BitVec.ofNat 2048 (if cov then r + 2 ^ 183 + 2 ^ 456 + 2 ^ 461 else r), t := 16, started := [0] }

/-- The launch of the grid with the lattice in force, none of its tiles but the first kept and all its indices passed. -/
def burnLaunch (at_ : Nat) (out : Bool) : Launch :=
  let x := gridLaunch true
  { x with oprec := x.oprec + BitVec.ofNat 2048 (2 ^ 576 + 2 ^ 592 + if out then 2 ^ 608 + 2 ^ 611 else 0), burnAt := at_,
           preloads := [(1, false, none, vimg 0x00 0 4 4)], cursor := [(0, 16), (1, 16), (2, 16), (3, 16)] }

/-- The package when the Burnishers of `burnLaunch` work; the segment of its output is saved or not. -/
def burnState (x : Launch) (saved : Bool) : State :=
  let s := frontState [x] { handleCore with launch := none, task := none }
  { s with segs := [{ ctx := 1, quad := 0, cseg := 0, st := if saved then .saved else .owned }] }

/-- What BURNISH needs: it has tiles left (2), whose accesses may all be made, or wait (1), or none is left (0). -/
def burnMeets (at_ : Nat) (out saved : Bool) (n : Nat) : Bool :=
  let x := burnLaunch at_ out
  let outs := x.outputs.getD []
  let s := burnState x saved
  orCov x.oprec && !x.burnt && x.admitted && !x.retired && x.error.isNone && s.tasksRetired 0 x && (s.context 1).running
    && (match x.nextTile with
      | none => n == 0 && s.remotes.isEmpty
      | some i => (match s.tileReady 0 x outs i (!x.shadow? i) with
        | (s1, true) => n == 2 && s1.launchAt 0 == some x
        | (_, false) => n == 1))

theorem meets_Burnish :
    burnMeets 0 false false 2 = true ∧ burnMeets 16 true false 0 = true ∧ burnMeets 0 true false 2 = true
      ∧ burnMeets 0 true true 1 = true := by decide +kernel

/-- Core 0 with no task binds the next one, or passes an index that the lattice drops. -/
def bindMeets (cov : Bool) : Bool :=
  let x := gridLaunch cov
  let c : Core := { xhand := 0x1000, launch := some 0 }
  let s := frontState [x] c
  s.nearCtx 0 == some 1 && c.task.isNone && !x.exhausted 0 && !x.retired && x.error.isNone && (s.context 1).running
    && (match s.lookAt x 0 (x.candidate 0 0) with
      | (s1, .bind _ _) => !cov && s1.launchAt 0 == some x && s1.coreAt 1 0 == c
      | (s1, .empty) => cov && SMap.get 0 x.status (x.candidate 0 0) != 2 && s1.launchAt 0 == some x && s1.coreAt 1 0 == c
      | _ => false)

theorem meets_Tasks :
    (let c : Core := { xhand := 0x1000, launch := some 0 }
     let s := frontState [gridLaunch false] c
     s.nearCtx 0 = some 1 ∧ s.coreAt 1 0 = c ∧ c.stoppedAt = none ∧ (gridLaunch false).stopped = false
      ∧ (gridLaunch false).graph = none)
    ∧ bindMeets false = true ∧ bindMeets true = true
    ∧ (let tk : Task := { l := 2 }
       let s := frontState [gridLaunch false] { xhand := 0x1000, launch := some 0, task := some tk }
       (s.coreAt 1 0).task = some tk ∧ tk.started = false ∧ tk.nulls = false ∧ (s.context 1).running = true)
    ∧ (let c : Core := { xhand := 0x1000, launch := some 0 }
       let x := { gridLaunch false with exited := [(2, 0)] }
       let s := frontState [x] c
       s.launchAt 0 = some x ∧ s.coreAt 1 0 = c ∧ c.task = none ∧ c.qv.stopped = none ∧ c.qm.stopped = none
        ∧ c.qc.stopped = none ∧ x.ctx = 1 ∧ x.exited = (2, 0) :: [] ∧ c.drained 0 2 = true) := by decide +kernel

/-! Queue 3 of context 1, whose ring and status block stand in the page. -/

/-- The queue's descriptor: 16 packets, enabled. -/
def queue3 : Nat := pageVa * 2 ^ 448 + pageVa * 2 ^ 384 + (pageVa + 0x8000) * 2 ^ 320 + 2 ^ 272 + 4 * 2 ^ 264 + 2 ^ 252

/-- The package with queue 3 at work on the packets. -/
def queueState (ps : List Packet) : State :=
  let s := frontState [launch0] {}
  { s with host := { s.host with queueTable := [(3, BitVec.ofNat 512 queue3)] },
           pqueues := [(3, { enabled := true, active := true, consumed := 8, packets := ps })] }

/-- A packet of a type with three words, at index 7. -/
def pkt (ty a b c d : Nat) : Packet :=
  { idx := 7, bits := BitVec.ofNat 512 (ty + a * 2 ^ 64 + b * 2 ^ 128 + c * 2 ^ 192 + d * 2 ^ 256) }

/-- The packet is the next of queue 3. -/
def nextMeets (ty : Nat) (p : Packet) (f : State → State → Bool) : Bool :=
  let s := queueState [p]
  s.queueRuns 3 && (match s.nextPacket 3 with
    | (s1, some k) => k == p && pkType p.bits == ty && s1.packetTurn 3 p.idx false && s1.queueCtx 3 == 1 && f s s1
    | _ => false)

/-- The same, for a packet that keeps its rules. -/
def goodMeets (ty : Nat) (p : Packet) (f : State → State → Bool) : Bool := packetOk p.bits && nextMeets ty p f

/-- A read of the front end answers. -/
def readsAt (s : State) (va n : Nat) (v : Option Nat) : Bool :=
  match s.feRead 1 va n with
  | (_, .ok k) => v.isNone || v == some k
  | _ => false

/-- An address on package 1 of a gang of two. -/
def farVa : Nat := 0x800000010000

/-- A packet of that type on the address, whose operations are answered, or to be sent. -/
def farMeets (ty : Nat) (got : Bool) : Bool :=
  let p := { pkt ty farVa (if ty = 8 then 0 else 5) 0 0 with got := if got then [(0, .done, 7)] else [] }
  let s := { queueState [p] with gang := { id := 1, size := 2 } }
  packetOk p.bits && s.queueRuns 3 && (match s.nextPacket 3 with
    | (s1, some k) =>
      let w := pkWord p.bits
      let ops := if ty = 4 then [(rowBase (w 8), RemoteOp.atomic 0 (BitVec.ofNat 5 (w 8 % 128 / 8)) 1 (BitVec.ofNat 64 (w 16)) 0)]
        else rowWrites (w 8) (if ty = 8 then 8 else 4) (w 16)
      k == p && pkType p.bits == ty && s1.packetTurn 3 p.idx false && s1.farOf (w 8) == some 1
        && (s1.frontOps 3 p 1 ops).2.isSome == got
    | _ => false)

theorem meets_SimplePackets :
    (128 % 128 + 8 ≤ 128 ∧ spotOf ((frontState [] {}).resolve 1 256 (.va (pageVa + 128)) true).2 = some ⟨false, 327808⟩)
    ∧ goodMeets 0 (pkt 0 0 0 0 0) (fun _ _ => true) = true
    ∧ goodMeets 3 (pkt 3 pageVa 5 1 0) (fun _ s1 => (s1.farOf pageVa).isNone && !s1.feAbsent 1 pageVa true) = true
    ∧ goodMeets 4 (pkt 4 pageVa 5 0 0) (fun _ s1 => !s1.feAbsent 1 pageVa true
        && (match s1.feRow 1 pageVa with | (s2, .ok _) => readsAt s2 pageVa 8 (some 0) | _ => false)) = true
    ∧ goodMeets 5 (pkt 5 pageVa 0 255 0) (fun _ s1 => !s1.feAbsent 1 pageVa false && readsAt s1 pageVa 8 (some 0)) = true
    ∧ goodMeets 5 (pkt 5 pageVa 0 255 3) (fun _ s1 => !s1.feAbsent 1 pageVa false && readsAt s1 pageVa 8 (some 0)) = true
    ∧ goodMeets 6 (pkt 6 pageVa 5 1 (pageVa + 64)) (fun _ s1 => !s1.feAbsent 1 pageVa true && !s1.feAbsent 1 (pageVa + 64) true)
        = true
    ∧ goodMeets 6 { pkt 6 pageVa 5 1 (pageVa + 64) with moved := 1 } (fun _ s1 => !s1.feAbsent 1 pageVa true) = true
    ∧ goodMeets 8 (pkt 8 pageVa 0 0 0) (fun _ s1 => !s1.feAbsent 1 pageVa true) = true
    ∧ goodMeets 9 (pkt 9 3 0 0 0) (fun _ _ => true) = true ∧ goodMeets 9 (pkt 9 5 0 0 0) (fun _ s1 => s1.remotes.isEmpty) = true
    ∧ ([3, 4, 8].all fun ty => farMeets ty false && farMeets ty true) = true
    ∧ ([3, 4, 6, 8].all fun ty => goodMeets ty (pkt ty 0x1FF800000020000 0 0 0)
        (fun _ s1 => s1.feAbsent 1 0x1FF800000020000 true)) = true
    ∧ ([0, 1, 2, 3, 4, 5, 6, 8, 9].all fun ty =>
        !packetOk (pkt (ty + 512) 0 0 0 0).bits && nextMeets ty (pkt (ty + 512) 0 0 0 0) (fun _ _ => true)) = true := by
  decide +kernel


/-- Queue 3 with a packet whose launch or graph would take its step. -/
def stepMeets (graph : Bool) : Bool :=
  if graph then
    let p := pkt 2 (pageVa + 0x1000) 5 0 (pageVa + 0x3000)
    let d := 1 + (pageVa + 0x2000) * 2 ^ 64 + (pageVa + 0x2800) * 2 ^ 128 + (pageVa + 0x4000) * 2 ^ 192
    let s := ((queueState [p]).feWrite 1 (pageVa + 0x1000) 64 d).feWrite 1 (pageVa + 0x2000) 8 (pageVa + 0x5000)
    packetOk p.bits && s.queueRuns 3 && (match s.nextPacket 3 with
      | (s1, some k) => k == p && pkType p.bits == 2 && s1.packetTurn 3 p.idx false && s1.queueCtx 3 == 1
          && !s1.feAbsent 1 (pkWord p.bits 32) true && !graphOverlaps 3 s1 p
          && (match s1.readGraph 1 (pkWord p.bits 8) with
            | (s2, some _) => pkWord p.bits 24 == 0 && s2.traces == [] && s2.pqueue 3 == s1.pqueue 3
            | _ => false)
      | _ => false)
  else
    let p := pkt 1 (pageVa + 0x1000) (pageVa + 0x2000) 0 0
    goodMeets 1 p (fun _ s1 => !s1.feAbsent 1 (pkWord p.bits 16) true
      && (match s1.feRead 1 (pkWord p.bits 8 / 256 * 256) 256 with
        | (s2, .ok v) => !orOvl (BitVec.ofNat 2048 v) && s2.pqueue 3 == s1.pqueue 3 && s2.context 1 == s1.context 1
        | _ => false))

/-- Queue 3 with a COPY of n bytes that could be accepted. -/
def copyPacketMeets (n : Nat) : Bool :=
  let p := pkt 7 pageVa (pageVa + 0x1000) n 0
  goodMeets 7 p (fun s s1 => (s.pqueue 3).packets.all (fun k => !(pkType k.bits == 7 && k.stage == .stepped))
    && !s1.feAbsent 1 (pkWord p.bits 8) false && (s1.farOf pageVa).isNone && !s1.feAbsent 1 (pkWord p.bits 16) true && pkWord p.bits 24 == n)

/-- A COPY of two rows under way. -/
def copying (moved : Nat) : Packet := { pkt 7 pageVa (pageVa + 0x1000) 256 0 with stage := .stepped, moved := moved }

theorem meets_PacketsAndQueues :
    stepMeets false = true ∧ stepMeets true = true ∧ copyPacketMeets 0 = true ∧ copyPacketMeets 256 = true
    ∧ (let s := queueState [copying 1]
       s.queueRuns 3 = true ∧ (s.pqueue 3).packets = copying 1 :: [] ∧ pkType (copying 1).bits = 7
        ∧ (copying 1).stage = .stepped ∧ s.farOf (pageVa + 128) = none ∧ s.farOf (pageVa + 0x1080) = none ∧ (copying 1).asked = 0
        ∧ (copying 1).got = [] ∧ pkWord (copying 1).bits 24 ≤ 128 * ((copying 1).moved + 1)
        ∧ 128 * ((copying 0).moved + 1) < pkWord (copying 0).bits 24)
    ∧ (let p := { pkt 1 pageVa pageVa 0 0 with stage := .stepped, launch := some 0 }
       let s := { queueState [p] with launches := [{ launch0 with retired := true }] }
       (s.pqueue 3).packets = p :: [] ∧ p.stage = .stepped ∧ s.finalStatus p = some 0 ∧ s.posting (s.queueCtx 3) = false
        ∧ (s.pqueue 3).paused = false
        ∧ (let u := { s with pqueues := [(3, { enabled := true, active := true, consumed := 8, packets := [p], paused := true })] }
           (u.pqueue 3).packets = p :: [] ∧ u.finalStatus p = some 0 ∧ (u.pqueue 3).paused = true))
    ∧ (let s := queueState []
       let u := { s with pqueues := [(3, { enabled := true, active := true, consumed := 24 }), (4, { enabled := true })],
                         time := 2 ^ 40 }
       (3 : Nat) ≠ 4 ∧ (u.pqueue 3).active = true ∧ (u.pqueue 3).packets.isEmpty = true ∧ (u.peekPacket 3).2 = none
        ∧ (u.pqueue 4).enabled = true ∧ (u.pqueue 4).active = false
        ∧ Nat.ble ((u.pqueue 3).foundAt + 1000 * u.setting 0x825) u.time = true ∧ (u.pqueue 5).active = false ∧ u.watched < 64)
    ∧ (let s := queueState []
       let u := { s with time := 2 ^ 40, launches := [{ launch0 with queue := 3, admitted := false }],
                         pqueues := [(3, { enabled := true, waitSince := 1 })] }
       (u.pqueue 3).waitSince ≠ 0 ∧ (u.pqueue 3).waitSince + 1000 * u.setting 0x820 < u.time)
    ∧ (let s := { queueState [] with pqueues := [] }
       qdEn (s.queueDesc 3) = true ∧ (s.pqueue 3).enabled = false)
    ∧ (let s := queueState []
       let u := { s with ctxs := [], host := { s.host with ctxTable := [(1, BitVec.ofNat 512 (6 * 2 ^ 64 + 1))] } }
       recordOk (u.ctxRecord 1) = true ∧ (u.context 1).enabled = false ∧ recordOk (s.ctxRecord 1) = false) := by decide +kernel


/-- Contexts 1 and 2, whose cores 0 share physical core 0; core 0 of context 2 has a launch to start. -/
def sharedState (c d : Core) (stop : Option Nat) : State :=
  let s := withCore c
  { s with time := 2 ^ 40, phys := [(0, { serving := some (1, 0), owner := [(6, (3, 0))] })],
           ctxs := [(1, { enabled := true, running := true, stopReq := stop }), (2, { enabled := true, running := true })],
           cores := [(512, c), (1024, d)], segs := [{ ctx := 2, quad := 0, cseg := 0, st := .restoring, data := [(5, 7)] }] }

def hereOf : Where → Bool
  | .here _ => true
  | _ => false

/-- Core 0 of context 2, with bank F left on physical core 0. -/
def otherCore : Core := { shadow := some 0, bank := [(6, .live 0)] }

theorem meets_Sharing :
    AtBoundary taskCore ∧ (let s := sharedState taskCore otherCore none
     s.nearCtx 0 = some 1 ∧ (s.rivals 1 0).contains 2 = true ∧ s.ctxLevel 2 = s.ctxLevel 1 ∧ (s.context 1).running = true
      ∧ (s.context 1).stopReq = none ∧ (s.context 1).sliceAt + 1000 * s.setting 0x822 ≤ s.time)
    ∧ (let s := { twoOnOne with time := 2 ^ 40 }
       s.servedCtx 0 = some 1 ∧ s.physOf 0 = some 0 ∧ s.partner 0 = some 2
        ∧ (s.physCore 0).sliceAt + 1000 * s.setting 0x821 ≤ s.time ∧ (s.coreAt 1 2).runnable = true
        ∧ (s.coreAt 1 0).waiting ≠ some .device ∧ s.coreAt 1 0 = taskCore)
    ∧ (let s := sharedState taskCore otherCore (some 0)
       s.nearCtx 0 = some 1 ∧ ((List.range 256).all fun m => s.nearCtx m != some 1 || m == 0) = true ∧ s.physOf 0 = some 0
        ∧ s.newcomer 1 0 = some 2 ∧ s.coreAt 1 0 = taskCore ∧ s.servedCtx 0 = some 1 ∧ s.midPacket 1 = false)
    ∧ (let s := sharedState taskCore otherCore none
       s.servedCtx 0 = some 1 ∧ s.physOf 0 = some 0 ∧ s.bankOwner 0 6 = some (2, 0) ∧ s.landOne 2 0 6 = none
        ∧ coreKey 2 0 ≠ coreKey 1 0 ∧ (s.coreAt 2 0).bankState 6 = .live 0 ∧ s.bankOwner 0 5 = none ∧ s.landOne 1 0 6 = none
        ∧ (s.context 1).image = none)
    ∧ (let s := sharedState { handleCore with bank := [(0, .saved)] } otherCore none
       s.servedCtx 0 = some 1 ∧ s.physOf 0 = some 0 ∧ s.bankOwner 0 0 = none ∧ (s.coreAt 1 0).bankState 0 = .saved
        ∧ ((s.coreAt 1 0).handle 2).valid = true ∧ ((s.coreAt 1 0).handle 2).vault = false
        ∧ hereOf (s.whereIs ((s.coreAt 1 0).handle 2).base.toNat) = true)
    ∧ (let s := sharedState taskCore otherCore none
       s.cores.find? (fun y => y.1 % 512 == 0 && 0 < 256 && !s.served (y.1 / 512) 0
          && (match y.2.bankState 6 with | .live _ => true | _ => false)) = some (1024, otherCore)
        ∧ s.coreAt 2 0 = otherCore ∧ s.landOne 2 0 6 = none ∧ otherCore.lastCause ≠ 2)
    ∧ (let s := sharedState {} {} none
       let g : Seg := { ctx := 1, quad := 0, cseg := 448, pseg := 448 }
       let u := { s with segs := [g, { g with ctx := 2, st := .restoring, pseg := 0 }, { g with st := .saving }] }
       u.segs[0]? = some g ∧ g.st = .owned ∧ u.mayEvict g = true ∧ u.segs[2]? = some { g with st := .saving })
    ∧ (let s := sharedState {} {} none
       let g : Seg := { ctx := 2, quad := 0, cseg := 0, st := .restoring, data := [(5, 7)] }
       s.segs[0]? = some g ∧ s.segmentFits g 3 = true ∧ (g.data.map Prod.fst).Nodup ∧ (g.data.all fun y => y.1 < 65536) = true) := by
  refine ⟨⟨rfl, rfl, ?_, ?_⟩, by decide +kernel⟩
  · intro e a h; cases e <;> cases h
  · intro x h; cases h

/-- A graph of one task, whose step replays variant 0 when `rep`. -/
def step0 (rep : Bool) : Graph :=
  { queue := 3, packet := 7, ctx := 1, hash := 5, tasks := [BitVec.ofNat 64 pageVa], variant := if rep then some 0 else none }

/-- The package with that step, the variant and the launches. -/
def graphState (y : Graph) (w : Variant) (l : List Launch) (c : Core) : State :=
  { frontState l c with graphs := [y], traces := if y.variant.isSome then [{ hash := 5, variants := [w] }] else [] }

/-- The step makes its next launch. -/
def makesMeets (y : Graph) (w : Variant) : Bool :=
  let s := graphState y w [] {}
  !y.done && y.heldSince.isNone && (s.context 1).running && s.readyTask y == some 0
    && (match s.feRead 1 (y.tasks.getD 0 0).toNat 256 with | (s1, .ok _) => s1.graphs == s.graphs | _ => false)

/-- The step ends. -/
def endsMeets (y : Graph) (w : Variant) : Bool :=
  let s := graphState y w [{ launch0 with retired := true }] {}
  !y.done && y.heldSince.isNone && (s.context 1).running && s.readyTask y == none && s.graphRetired y 0

/-- Core 0 with a task that the replayer performs. -/
def replayedCore : Core := { launch := some 0, task := some { l := 2, started := true, replayed := true } }

/-- The variant with a record of that task. -/
def variant0 (es : List (Eng × TraceEntry)) : Variant := { number := 0, tasks := [{ gtask := 0, core := 0, l := 2, entries := es }] }

/-- No core has anything to replay. -/
def quietMeets (y : Graph) (w : Variant) (l : List Launch) : Bool :=
  let s := graphState y w l {}
  y.variant.bind (s.variantAt y.hash) == some w && !y.gfail && y.heldSince.isNone
    && (List.range 256).all (fun n => (s.replayCore 0 y w n).isNone)

/-- A task to replay, with an entry or with nothing left. -/
def replayMeets (es : List (Eng × TraceEntry)) : Bool :=
  let y := { step0 true with launches := [(0, 1)] }
  let w := variant0 es
  let s := graphState y w [{ launch0 with graph := some (0, 0) }] replayedCore
  y.variant.bind (s.variantAt y.hash) == some w && !y.gfail && y.heldSince.isNone && s.served 1 0
    && (s.launchOf (s.coreAt 1 0)).bind (fun x => x.graph) == some (0, 0) && (w.taskOf 0 0 2).isSome && !(s.coreAt 1 0).pend && (s.coreAt 1 0).untold.isEmpty
    && y.progress 0 0 2 == ([0, 0, 0], 0)
    && (match w.taskOf 0 0 2 with
      | some tr => (match tr.list .v with
        | te :: _ => te.wseq == 0 && te.entry.fork.isNone && ({ s with ctx := 1, cur := 0 } : State).canAccept 1 0 .v te.entry.slots
        | [] => tr.entries.isEmpty && tr.waits.isEmpty)
      | none => false)

theorem meets_GraphSteps :
    makesMeets (step0 false) {number := 0} = true
    ∧ endsMeets { step0 false with launches := [(0, 1)] } { number := 0 } = true
    ∧ (makesMeets (step0 true) { number := 0 } && quietMeets (step0 true) { number := 0 } []) = true
    ∧ (let y := { step0 true with launches := [(0, 1)] }
       (endsMeets y { number := 0 } && quietMeets y { number := 0 } [{ launch0 with retired := true }]) = true)
    ∧ (let y := { step0 true with heldSince := some 0 }
       let w : Variant := { number := 0, next := some (2, 9, true) }
       let s := graphState y w [] {}
       y.variant.bind (s.variantAt y.hash) = some w ∧ y.heldSince = some 0 ∧ w.newMap = none)
    ∧ replayMeets [(.v, { entry := {}, tb := false, wseq := 0 })] = true ∧ replayMeets [] = true := by decide +kernel

theorem meets_Versions :
    (let s := graphState { step0 true with done := true } { number := 0 } [] {}
     s.variantAt 5 0 = some { number := 0 } ∧ (s.graphs.all fun z => z.hash != 5 || z.done) = true)
    ∧ (let w : Variant := { number := 0, next := some (2, 9, false) }
       let y := { step0 true with heldSince := some 0 }
       let s := { graphState y w [] {} with time := 10000000 }
       s.variantAt 5 0 = some w ∧ s.graphs[0]? = some y ∧ y.variant.bind (s.variantAt y.hash) = some w
        ∧ 0 + 10000000 ≤ s.time) := by decide +kernel

/-- A conversion of one patch of two INT32 elements, from an address or core 0's own vault to the page. -/
def conv0 (own : Bool) (a : Nat) : Conv :=
  { serial := 1, obk := own, odes := 64 + 65536, obase := BitVec.ofNat 64 a, nbase := BitVec.ofNat 64 (pageVa + 0x8000),
    pcount := 1, flag := 5, image := vimg 0x0A 0 2 1 }

/-- The package with that conversion. -/
def convState (c : Conv) : State :=
  { withCore {} with tlb := [{ unit := 0, ctx := 1, page := 1, frame := 5, w := true, wr := true }],
                     ctxs := [(1, { enabled := true, running := true, conv := [(3, c)] })],
                     segs := [{ ctx := 1, quad := 0, cseg := 0, st := .saved }] }

/-- What moving patch 0 answers: 0 moved, 1 wait, 2 another error. -/
def patchMeets (c : Conv) : Nat :=
  let s : State := { convState c with ctx := 1, cur := 0 }
  let t := tensorOf c.image
  match s.moveElement t c 0 ((t.patchElements 0).headD 0) with
  | (_, .ok ()) => 0
  | (_, .error .wait) => 1
  | (_, .error _) => 2

/-- A refused contribution of a round of four, with the first key not applied. -/
def contrib0 : Contrib :=
  { id := 1, die := 0, ctx := 1, core := 0, launch := 0, dest := { loc := .va pageVa }, key := 2, n := 4, payload := .claim 1,
    reply := .reg 5, retryAt := some 9 }

/-- The package with it, `now` cycles on. -/
def retryState (now : Nat) : State :=
  { withCore taskCore with now := now, contribs := [contrib0],
                           rounds := [{ launch := 0, dest := { loc := .va pageVa }, n := 4, next := 1 }] }

theorem meets_Conversions :
    (let c := SMap.get {} ((convState (conv0 false pageVa)).context 1).conv 3
     c.serial ≠ 0 ∧ ((convState (conv0 false pageVa)).context 1).running = true ∧ c.done = [] ∧ 0 < c.pcount ∧ c.die = 0
      ∧ quadOf c.lcore = 0 ∧ c.work = [] ∧ (tensorOf c.image).patchElements 0 = [0, 1])
    ∧ (let c := { conv0 false pageVa with work := [(0, 1)] }
       let s := convState c
       SMap.get {} (s.context 1).conv 3 = c ∧ (0, 1) ∈ c.work)
    ∧ (let c := { conv0 false pageVa with pcount := 2 }
       let s := convState c
       SMap.get {} (s.context 1).conv 3 = c ∧ c.work = [] ∧ 1 ∉ c.want ∧ 0 ∉ c.done)
    ∧ patchMeets (conv0 false pageVa) = 0 ∧ patchMeets (conv0 true 0) = 1 ∧ patchMeets (conv0 false 0x1FF800000020000) = 2
    ∧ (let s := convState { conv0 false pageVa with done := [0] }
       let c := SMap.get {} (s.context 1).conv 3
       c.serial ≠ 0 ∧ c.pcount ≤ c.done.length ∧ s.redirectsDone 1 c = true ∧ c.flag ≠ 0 ∧ (s.coreAt 1 c.lcore).flag 5 < 65535)
    ∧ (∀ now ∈ [0, 9], let s := retryState now
       s.contribs[0]? = some contrib0 ∧ contrib0.buffered = false ∧ contrib0.grant = none ∧ contrib0.retryAt = some 9
        ∧ s.roundAt contrib0 = some { launch := 0, dest := { loc := .va pageVa }, n := 4, next := 1 }
        ∧ s.bufferedNext contrib0 contrib0.key = none) := by decide +kernel


/-- The translation record of context 1: stage 1 only, its root at 0x2000, HEAT. -/
def record1 : BitVec 512 := BitVec.ofNat 512 (0x2000 * 2 ^ 448 + 6 * 2 ^ 64 + 8 + 1)

/-- The package with that record and tables that map the first 128 MiB of context 1 to 0x8000000, with the flags given. -/
def walkTables (leaf : Nat) (op : Nat) (a0 a1 a2 : Nat) : State :=
  let s := withCore handleCore
  { s with mem := [(0x2000, 1), (0x2001, 0x40), (0x4000, BitVec.ofNat 8 leaf), (0x4003, 8)],
           host := { cmd := BitVec.ofNat 64 (2 ^ 16 + op), busy := true, arg0 := BitVec.ofNat 64 a0, arg1 := BitVec.ofNat 64 a1,
                     arg2 := BitVec.ofNat 64 a2, ctxTable := [(1, record1)] } }

theorem meets_TranslationUpkeep_walk :
    let s := walkTables 0x39 0 0 0 0
    ∀ wr ∈ [false, true], let x := walkBoth s 1 0x10000
      s.whereIs pageVa = .here 0x10000 ∧ s.cached 8 1 1 wr = none ∧ x.st = .resident ∧ x.leaves = [0x4000] := by decide +kernel

theorem meets_TranslationUpkeep_absent :
    let s := { walkTables 0x39 0 0 0 0 with mem := [] }
    let x := walkBoth s 1 0x10000
    s.whereIs pageVa = .here 0x10000 ∧ s.cached 8 1 1 true = none ∧ x.st = .absent ∧ x.bad = none := by decide +kernel

theorem meets_TranslationUpkeep_sweep :
    let s := { walkTables 0x39 0 0 0 0 with time := 2 ^ 40 }
    let r := s.ctxRecord 1
    recValid r = true ∧ recHeat r = true ∧ (s.context 1).swept + 1000000 * s.setting 0x827 ≤ s.time
      ∧ (s.leaves1 r 3 1 (recS1Root r) ++ (if recS2En r then s.leaves2 3 1 (recS2Root r) else [])).eraseDups = [0x4000]
      ∧ (0x4000 : Nat) % 8 = 0 := by
  decide +kernel

/-- The command is at work. -/
def commandMeets (s : State) (op : Nat) : Bool :=
  s.host.busy && s.host.result.isNone && s.host.cmd.toNat % 256 == op && s.cmdCtxOk

/-- SHOOT and HARVEST in the turn after their shootdown. -/
def shotState (op n : Nat) (c : Core) : State :=
  let s := walkTables 0x39 op 0x10000 (2 ^ 32 + n) 0x9000
  { s with host := { s.host with at_ := n + 1 }, cores := [(512, c)] }

/-- A load through the page handle, which it has resolved. -/
def loadCore : Core := { handleCore with lq := [{ kind := .token 0, handle := { pageHandle with st := .resident } }] }

theorem meets_Shootdowns :
    ((walkTables 0x39 1 0x10000 1 0).host.at_ = 0 ∧ (walkTables 0x39 1 0x10000 1 0).cores = [(512, handleCore)]
      ∧ handleCore.copies = [] ∧ handleCore.qc.act = none)
    ∧ (commandMeets (shotState 1 1 handleCore) 1 = true ∧ (shotState 1 1 handleCore).oldLoads 1 { lo := 1, hi := 2 } = false)
    ∧ (commandMeets (shotState 1 1 loadCore) 1 = true ∧ (shotState 1 1 loadCore).oldLoads 1 { lo := 1, hi := 2 } = true)
    ∧ (∀ b ∈ [0, 1], let s := walkTables 0x79 2 0x10000 (b * 2 ^ 32) 0x9000
       commandMeets s 2 = true ∧ s.host.at_ = s.host.arg1.toNat % 2 ^ 32 ∧ (s.host.arg1.getLsbD 32 = true ↔ b = 1))
    ∧ commandMeets (shotState 2 1 handleCore) 2 = true
    ∧ (shotState 2 1 handleCore).host.arg1.toNat % 2 ^ 32 < (shotState 2 1 handleCore).host.at_ := by decide +kernel

theorem meets_Harvested : ∀ r, (shotState 2 1 handleCore).oldLoads 1 r = false := fun _ => rfl

theorem meets_Stops :
    (let s := walkTables 0x39 3 0 0 0
     (∀ p m, (s.physCore p).serving = some (1, m) → m = 0 ∨ m = 1) ∧ AtBoundary (s.coreAt 1 0) ∧ AtBoundary (s.coreAt 1 1))
    ∧ (let s := { walkTables 0x39 3 0 0 0 with
         remotes := [{ id := 1, pkg := 1, va := 0, port := 0, ctx := 1, kind := .load 0 1, sentAt := 0 }] }
       commandMeets s 3 = true ∧ s.remotes.any (fun r => r.ctx == 1) = true) := by
  refine ⟨⟨?_, ⟨rfl, rfl, ?_, ?_⟩, rfl, rfl, ?_, ?_⟩, by decide +kernel⟩
  · intro p m h
    match p with
    | 0 => cases h; exact .inl rfl
    | 1 => cases h; exact .inr rfl
    | _ + 2 => cases h
  · intro e a h; cases e <;> cases h
  · intro x h; cases h
  · intro e a h; cases e <;> cases h
  · intro x h; cases h

theorem meets_HostCommands :
    commandMeets (walkTables 0x39 1 0x10000 1 0) 1 = true
    ∧ (let s := walkTables 0x79 2 0x10000 (2 ^ 32 + 1) 0x9000
       commandMeets s 2 = true ∧ s.host.at_ < s.host.arg1.toNat % 2 ^ 32 ∧ s.leafOf 1 true 0x10000 = some 0x4000
        ∧ s.word64 0x4000 / 2 ^ 6 % 2 = 1 ∧ (walkTables 0x39 2 0x10000 (2 ^ 32 + 1) 0x9000).word64 0x4000 / 2 ^ 6 % 2 = 0
        ∧ s.leafOf 1 true 0x8000000 = none)
    ∧ (commandMeets (walkTables 0x39 3 0 0 0) 3 && (walkTables 0x39 3 0 0 0).remotes.isEmpty
      && !(walkTables 0x39 3 0 0 0).midPacket 1) = true
    ∧ (let s := walkTables 0x39 4 0 0 0
       let u := { s with ctxs := [(1, { image := some 0x20000 })] }
       commandMeets u 4 = true ∧ (u.context 1).running = false ∧ (u.imageStep 1).isSome = true
        ∧ (let v := { u with segs := [], cores := [(512, { handleCore with bank := [] })] }; commandMeets v 4 = true ∧ v.imageStep 1 = none)
        ∧ (let v := { u with ctxs := [] }; (v.context 1).running = false ∧ (v.context 1).image = none))
    ∧ commandMeets (walkTables 0x39 5 0 0 0) 5 = true ∧ (walkTables 0x39 5 0x20000 0 0).imageOk 0x20000 = false
    ∧ commandMeets (walkTables 0x39 6 0 0 0) 6 = true ∧ 6 < (walkTables 0x39 7 0 0 0).host.cmd.toNat % 256 := by
  decide +kernel

/-- An image at 0x20000 whose one section is that of core 0; its length takes in the header and the table. -/
def imaged : State :=
  let s := walkTables 0x39 5 0x20000 0 0
  let h := 0x58454443 + 2 ^ 32 + (1 + 2 ^ 16 + 2 ^ 32) * 2 ^ 64 + 96 * 2 ^ 128 + 9 * 2 ^ 256
  let e := 128 + 0x60000 * 2 ^ 64 + (2 ^ 48 + 2 ^ 56) * 2 ^ 128
  let s1 := ((s.putRange 0x20000 64 h).putRange 0x20040 32 e).putRange 0x20080 8 (2 ^ 32 + 2 ^ 48 + 2 ^ 56)
  let s2 := s1.putRange 0x20018 4 (s1.imageCrc 0x20000 96)
  { s2 with images := [{ addr := 0x20000, ctx := 1, complete := true, cores := [(0, {})], time := 9,
                         sections := [(1, 0, 128, 0x60000)] }] }

/-- What RESUME finds: an image that this package has made or another has, whose core section it can resume or not. -/
def resumeMeets (known ok : Bool) : Bool :=
  let s0 := if ok then imaged else imaged.putRange 0x20086 1 7
  let s := if known then s0 else { s0 with images := [] }
  let x := s.imageAt 1 0x20000
  commandMeets s 5 && s.host.arg0.toNat == 0x20000 && s.imageOk 0x20000 && x.2 == known
    && x.1.sections == [(1, 0, 128, 0x60000)] && s.headersOk 0x20000 x.1.sections == ok && readNat s.mem (0x20000 + 128 + 8) 1 == 0

/-- What RESUME in place finds. -/
def resumeHereMeets (ok : Bool) : Bool :=
  let s0 := if ok then imaged else imaged.putRange 0x20086 1 7
  let s := { s0 with ctxs := [(1, { image := some 0x20000 })], host := { s0.host with arg0 := 0 } }
  let l := ((s.tableOf 0x20000).filter (fun e => e.1.1 == 1 && e.2)).map (fun e => e.1)
  commandMeets s 5 && l == [(1, 0, 128, 0x60000)] && s.headersOk 0x20000 l == ok

theorem meets_HostCommands_resume :
    resumeMeets true true = true ∧ resumeMeets false true = true ∧ resumeMeets true false = true ∧ resumeHereMeets true = true
      ∧ resumeHereMeets false = true := by decide +kernel

/-- A window of BAR2 at offset 0x1000 onto an address of context 1. -/
def windowed (va : Nat) : State :=
  let s := frontState [] {}
  { s with host := { s.host with windows := [(0, 0x1000), (1, 0x1000), (2, BitVec.ofNat 64 va), (3, 0x10001)] } }

/-- A read of the front end answers with a row. -/
def rowRead (s : State) (va : Nat) : Bool := match s.feRow 1 va with | (_, .ok _) => true | _ => false

theorem meets_HostRegisters :
    (windowed pageVa).windowOf 0x2000 = none ∧ (windowed pageVa).windowOf 0x1000 = some 0
      ∧ (windowed pageVa).window 0 2 + (0x1000 - (windowed pageVa).window 0 0) = pageVa
      ∧ ((windowed pageVa).hostLost 1 pageVa 8 false = false ∧ rowRead (windowed pageVa) (pageVa / 128 * 128) = true)
      ∧ (windowed pageVa).hostLost 1 pageVa 8 true = false ∧ readsAt (windowed pageVa) pageVa 8 (some 0) = true
      ∧ (windowed 0x1FF800000020000).hostLost 1 0x1FF800000020000 8 true = true
      ∧ (let s := { windowed farVa with gang := { id := 1, size := 2 } }
         s.windowOf 0x1000 = some 0 ∧ s.window 0 2 = farVa ∧ hereOf (s.whereIs farVa) = false ∧ s.farOf farVa = some 1)
      ∧ (0 < 8 ∧ 8 ≤ 8 - 0x13FFF8 % 8) ∧ State.reset.host.busy = false ∧ (walkTables 0 1 0 0 0).host.busy = true := by
  decide +kernel

theorem meets_Observation :
    (withCore taskCore).rowsOut 1 ((withCore taskCore).stopNames 1 []) = false
    ∧ (let y : Group := { ctx := 1, core := 0, eng := none, vault := 0, rows := [3], place := 0 }
       let s := withCore taskCore
       let u := { s with ring := { s.ring with groups := [y] } }
       u.ring.groups = y :: [] ∧ s.ring.groups = [] ∧ s.physRow (.vault 0 8) = some (0, 8))
    ∧ (let s := withCore taskCore
       let u := { s with remotes := [{ id := 1, pkg := 2, va := 0, port := 0, ctx := 1, kind := .load 0 1, sentAt := 0 }] }
       u.rowsOut 1 (u.stopNames 1 []) = true)
    ∧ (let s := withCore { taskCore with qv := { hw := [{ seq := 6 }], bpSeq := some 6 } }
       s.servedCtx s.cur = some s.ctx ∧ (s.core.queue .v).atBreak = true)
    ∧ (let s := withCore { taskCore with cmp := [(2, 1)] }
       s.servedCtx s.cur = some s.ctx ∧ s.coreRuns = true ∧ s.core.cmpHit = some 2 ∧ s.core.pend = false ∧ s.core.inh = false
        ∧ s.core.xhand ≠ 0)
    ∧ (let s := withCore { taskCore with qv := { issuing := 5, empty := 4 } }
       let u := { s with host := { dbg := [(0x18, 9), (0x08, 16), (0x10, 1)] } }
       u.hcsmp ≠ 0 ∧ u.hcsmp ≤ (u.core.queue .v).since.foldl (· + ·) 0 ∧ u.traceSize ≠ 0 ∧ u.traceWrap = true ∧ s.hcsmp = 0)
    ∧ (let s := withCore taskCore
       SMap.get 0 s.ring.bcCount 0 + 1 < s.bcsmp 0 ∧ 1 < s.bcthr 0)
    ∧ (let s := withCore taskCore
       let u := { s with ring := { s.ring with bcCount := [(0, s.bcsmp 0)] }, host := { dbg := [(0x08, 16), (0x10, 1)] } }
       u.bcsmp 0 ≤ SMap.get 0 u.ring.bcCount 0 + 1 ∧ u.traceSize ≠ 0 ∧ u.traceWrap = true)
    ∧ (let s := { withCore taskCore with time := 10 ^ 9, ports := [(3, { st := 2 })] }
       62500000 * s.gang.seqSync ≤ s.time ∧ 1000000000 * s.gang.seqDelay ≤ s.time ∧ (s.port 3).st = 2) := by decide +kernel

theorem meets_Links :
    let s := { State.reset with ports := [(3, { st := 2, lanes := 3 }), (4, { st := 1 })] }
    (s.port 3).st = 2 ∧ (s.port 3).lanes ≠ 0 ∧ (s.port 4).st ≠ 2 := by decide +kernel

/-- Package 0 of a gang of two, whose context is context 1. -/
def ganged (rs : List Remote) : State :=
  { frontState [launch0] taskCore with gang := { id := 7, size := 2, ctx := 1 }, remotes := rs, time := 2 ^ 40 }

/-- A remote operation of core 0. -/
def remote0 (k : RemoteKind) : Remote := { id := 4, pkg := 1, va := pageVa, port := 0, ctx := 1, kind := k, sentAt := 0 }

/-- The page is at home, readable and writable. -/
def homeMeets (wr : Bool) : Bool :=
  match (ganged []).homeSpot pageVa wr with
  | (s1, .ok p) => !s1.poisoned p
  | _ => false

theorem meets_GangAndRemotes :
    (ganged []).whereIs pageVa = .here 0x10000 ∧ homeMeets false = true ∧ homeMeets true = true
    ∧ (let r := remote0 (.engRead 0 { eng := .v, seq := 0 })
       (ganged [r]).remotes.find? (fun m => m.id == 4) = some r ∧ r.ctx = (ganged [r]).ctx
        ∧ ((ganged [r]).remotes.all fun m => !(ganged [r]).portWaits m) = true
        ∧ (let s := ganged [{ r with id := 3, port := 1 }, r]
           s.remotes.find? (fun m => m.id == 4) = some r ∧ s.portWaits r = true))
    ∧ (let r := remote0 (.store 0 1)
       let s := ganged [r]
       s.remotes.find? (fun m => m.id == 4) = some r ∧ (s.remotes.all fun m => !s.portWaits m) = true ∧ r.id = 4 ∧ r.ctx = s.ctx
        ∧ r.sentAt + 1000 * s.setting 0x828 ≤ s.time)
    ∧ (let s := ganged []
       (s.gang.id ≠ 0 ∧ 1 < s.gang.size ∧ 1 ≠ s.gang.self ∧ s.gang.fenced = [])
        ∧ (List.range s.launches.length).find? (fun i => match s.launchAt i with
            | some y => y.number == 1 && y.ctx == s.gang.ctx && y.admitted && !y.retired
            | none => false) = some 0
        ∧ (s.barrier 0 4 3 0).gen < 1
        ∧ s.fenceable 1 = true ∧ s.remotes = [] ∧ s.barriers = [] ∧ s.fenceable 2 = false) := by decide +kernel

theorem meets_PackageUpkeep :
    let s := State.reset
    let a := s.activeComplex
    let u := { s with complexes := [(1, { role := 2 })] }
    (s.fencedDies.getLsbD 3 = false ∧ s.fencedDies.getLsbD 0 = false)
      ∧ ({ s with fencedDies := 8 } : State).fencedDies.getLsbD 3 = true
      ∧ ((s.retiredChannels.filter (fun x => x.1 == 2)).length < 8 ∧ s.retiredChannels.length = 0)
      ∧ (let full := (List.range 8).map (fun c => (2, c))
         (full.all fun x => x != (2, 9)) = true ∧ 8 ≤ (full.filter (fun x => x.1 == 2)).length ∧ s.journal.length < 512)
      ∧ ((SMap.get ({} : Machine.Complex) s.complexes (1 - a)).role ≠ 2 ∧ s.quiescent = true)
      ∧ (SMap.get ({} : Machine.Complex) u.complexes (1 - u.activeComplex)).role = 2 ∧ u.stateTable u.activeComplex = []
      ∧ (let v := { s with complexes := [(0, { role := 0, csr := [(0x810, 8388600)] }), (1, { role := 2 })], sram := [(8388600, 5), (8388607, 1)] }
         v.activeComplex = 0 ∧ (SMap.get ({} : Machine.Complex) v.complexes 1).role = 2
          ∧ v.stateTable 0 = [{ key := 5, version := 0, len := 256, cut := true }]
          ∧ ({ key := 5, version := 0, len := 256, cut := true } : StateRecord).accepted = false)
      ∧ (s.recovery = none ∧ s.failedBefore 3 = false ∧ s.remapVersion = 0)
      ∧ s.clockAt = none ∧ s.clock = 25
      ∧ (let w := { s with clock := 12 }; 10 < w.clock ∧ w.clock < 25) := by decide +kernel

/-- Core 0 about to run `add s1, s2, s30`, the owner of banks S, F, T and V2 to V3. -/
def running : State :=
  let s := withCore { taskCore with icache := [(0, 0x0022F000)],
                                    qv := { act := some { entry := {}, cur := { body := .stream 0 0 0 0 0 0 },
                                                          held := some (0, 0x00900E18A34D) } } }
  { s with phys := [(0, { serving := some (1, 0), owner := [(0, (2, 0)), (3, (2, 0)), (6, (2, 0))] })] }

/-- What stands before the next turn of `running`, for the control core and for an engine. -/
def beforeTurn (t : Turn) (e : Eng) : State :=
  { { running with agenda := [t] }.settled with agenda := [], ctx := 1, cur := 0, eng := e }

def stepsOn : Result → Bool
  | .next u => u.core.waiting == none
  | _ => false

theorem meets_StepRunsTheInstruction :
    (let s := { running with agenda := [.core 0] }
     let v := (beforeTurn (.core 0) .v).upd Core.passBar
     s.dead = false ∧ s.settled.agenda = [.core 0] ∧ v.servedCtx 0 = some 1 ∧ v.coreRuns = true ∧ v.core.waiting = none
      ∧ v.core.pend = false ∧ v.core.cmpHit = none
      ∧ v.core.icache.find? (fun x => x.1 == v.core.pc.toNat / 128 * 128) = some (0, 0x0022F000)
      ∧ (let w := (0x0022F000#1024).extractLsb' 0 32
         firstWordError w = none ∧ wordCount w = 1 ∧ decodeWords [w] = .ok (.add 1 2 30) ∧ v.core.interlocked (.add 1 2 30) = false)
      ∧ v.unclaimed 0 [0] = none ∧ v.unclaimed 0 (v.touchedBanks (.add 1 2 30)) = none ∧ stepsOn (exec (.add 1 2 30) v) = true)
    ∧ (let s := { running with agenda := [.engine 0 .v] }
       let v := beforeTurn (.engine 0 .v) .v
       let x := (0x00900E18A34D#1024).extractLsb' 0 48
       let i := Instr.vadd { d := 33, a := 34, b := 35, ty := 2, step := 1, mask := 5, sc := 9, rc := 3 }
       s.settled.agenda = [.engine 0 .v] ∧ v.engineCtx 0 = some 1 ∧ v.q.stopped = none ∧ (v.q.act.map (fun a => a.skip)) = some 0
        ∧ (x.extractLsb' 46 2).toNat = engNum .v ∧ decodeEng x = .ok i ∧ v.unclaimed 0 (engineBanks 0 0 i) = none)
    ∧ (let s := { running with agenda := [.event (.bankClaim 3 .a)] }
       s.settled.agenda = [.event (.bankClaim 3 .a)] ∧ encode (.bankClaim 3 .a) = .step) := by decide +kernel

theorem meets_DeadPackage :
    let s := { State.reset with dead := true, agenda := [.event (.powerUp true)] }
    s.dead = true ∧ State.reset.agenda = [] := ⟨rfl, rfl⟩

theorem meets_MemoryStaysCanonical :
    Sys2Proof.Safety.MemoryOk State.reset
      ∧ (match step { State.reset with agenda := [.event (.powerUp true)] } with | .next _ => true | _ => false) = true :=
  ⟨⟨rfl, rfl, rfl⟩, by decide +kernel⟩

end Sys2Proof.Tests
end

