-- ==== Sys2Proof/Proofs/Frames.lean ====
section
/-! PROOF. What the shared operations leave as it was, and the predicates of the statements as rules. -/

namespace Sys2Proof.Claims

open Sys2Proof.Machine

/-! ## The predicates of the statements -/

theorem SameBytes.of_eq {s t : State} (hm : t.mem = s.mem) (hv : t.vault = s.vault) (hr : t.sram = s.sram) :
    SameBytes s t :=
  ⟨fun _ => by rw [hm], fun _ => by rw [hv], fun _ => by rw [hr]⟩

theorem SameBytes.refl (s : State) : SameBytes s s := .of_eq rfl rfl rfl

/-- A change of the acting core changes nothing else. -/
theorem OnlyCore.upd (s : State) (f : Core → Core) : OnlyCore s (s.upd f) :=
  ⟨rfl, .of_eq rfl rfl rfl, fun _ _ h => State.coreAt_upd_ne s f h⟩

theorem CoreBecomes.upd (s : State) (f : Core → Core) : CoreBecomes s (s.upd f) (f s.core) :=
  ⟨.upd s f, State.core_upd s f⟩

/-- Two changes of the acting core, one after the other. -/
theorem CoreBecomes.upd_upd (s : State) (f g : Core → Core) : CoreBecomes s ((s.upd f).upd g) (g (f s.core)) := by
  refine ⟨⟨rfl, .of_eq rfl rfl rfl, fun c n h => ?_⟩, ?_⟩
  · exact (State.coreAt_upd_ne (s.upd f) g h).trans (State.coreAt_upd_ne s f h)
  · rw [State.core_upd, State.core_upd]

/-- An instruction that only moves on goes to the next one. -/
theorem GoesTo.advance (s : State) (n : Nat) : GoesTo s (s.upd (fun c => c.advancePc n)) (s.core.pc + BitVec.ofNat 64 n) := by
  refine ⟨⟨.upd s _, ?_⟩, ?_, fun k => ?_⟩ <;> rw [State.core_upd] <;> rfl

/-- A change of the acting core beside the recorder (R303). -/
theorem CoreRecorded.upd (s : State) (g : List Graph) (f : Core → Core) :
    CoreRecorded s (({ s with graphs := g } : State).upd f) (f s.core) :=
  ⟨State.core_upd { s with graphs := g } f, rfl, .of_eq rfl rfl rfl,
    fun _ _ h => State.coreAt_upd_ne { s with graphs := g } f h⟩

end Sys2Proof.Claims

namespace Sys2Proof.Machine

open Sys2Proof.Claims

/-! ## The recorder -/

/-- The recorder changes the graph steps only (R303). -/
theorem State.note_eq (s : State) (f : TaskTrace → TaskTrace) : ∃ g, s.note f = { s with graphs := g } := by
  unfold State.note
  split
  · exact ⟨s.graphs, rfl⟩
  · split
    · exact ⟨_, rfl⟩
    · exact ⟨s.graphs, rfl⟩

theorem State.noteLive_eq (s : State) : ∃ g, s.noteLive = { s with graphs := g } := s.note_eq _

theorem State.noteEntry_eq (s : State) (e : Eng) (x : Entry) : ∃ g, s.noteEntry e x = { s with graphs := g } := s.note_eq _

/-! ## Leaving queues that hold nothing -/

theorem State.drainQueues_of_empty (s : State) (hl : s.core.lq = []) (hs : s.core.sq = []) : s.drainQueues = s := by
  rw [State.drainQueues, hl, hs]; rfl

theorem State.stopPart_of_noPart (s : State) (e : Eng) (h : ∀ a, (s.core.queue e).act = some a → a.part = none) :
    s.stopPart e = s := by
  have hp : ({ s with eng := e } : State).q.act.bind (fun a => a.part) = none := by
    cases ha : (s.core.queue e).act with
    | none => exact congrArg (fun o : Option Active => o.bind (fun a => a.part)) ha
    | some a => exact (congrArg (fun o : Option Active => o.bind (fun a => a.part)) ha).trans (h a ha)
  unfold State.stopPart
  simp only [hp]

/-- Commands with no row to write keep their rows; each begins its open positions again (R179). -/
theorem State.stopCopies_of_noPend (s : State) (h : ∀ x ∈ s.core.copies, x.pend = none) :
    s.stopCopies = s.upd (fun c => { c with copies := c.copies.map CopyCmd.restart }) := by
  have hf : ∀ (l : List CopyCmd) (t : State), (∀ x ∈ l, x.pend = none) →
      l.foldl (fun (v : State) x =>
        State.settlePend (match x.pend with | some p => p.rows.length | none => 0) v x.tag) t = t := by
    intro l
    induction l with
    | nil => intro t _; rfl
    | cons x l ih =>
      intro t hl
      rw [List.foldl_cons, hl x (List.mem_cons_self ..)]
      exact ih _ (fun y hy => hl y (List.mem_cons_of_mem _ hy))
  exact (congrArg (fun u : State =>
    ({ u.upd (fun c => { c with copies := c.copies.map CopyCmd.restart }) with eng := s.eng } : State))
    (hf s.core.copies { s with eng := .c } h)).trans rfl

end Sys2Proof.Machine
end

