-- ==== Sys2Proof/Proofs/Modes.lean ====
section
namespace Sys2Proof.Machine
open Sys2Proof.Claims

/-! ## `seam`, `fence` and the mode (R92, R93, R133) -/

theorem State.fence_enters (s : State) (form scope : Nat) (hl : s.core.lq.length < 16) (hs : s.core.sq.length < 16)
    (hf : form < 4) (hc : scope < 8) :
    ∃ t id, s.fence form scope = .next t ∧ OnlyCore s t ∧ id / 8 % 4 = form
      ∧ t.core = { s.core with
          lq := s.core.lq ++ [{ kind := .token id, stamp := s.core.stamp }],
          sq := s.core.sq ++ [{ kind := .token id, stamp := s.core.stamp }],
          stamp := s.core.stamp + 1, pc := s.core.pc + 4, waiting := none } := by
  have hroom : ¬((decide (16 ≤ s.core.lq.length) || decide (16 ≤ s.core.sq.length)) = true) := by simp [hl, hs]
  refine ⟨_, 32 * s.core.stamp + 8 * form + scope, if_neg hroom, .upd s _, by omega, ?_⟩
  rw [State.core_upd]
  rfl

theorem State.crossMode_done (s : State) (m : Bool) (hc : s.core.crossing = []) (hm : s.core.interlock = m) :
    s.crossMode m = s.done 4 := by
  simp only [State.crossMode, hc, hm, List.any_nil, Bool.false_eq_true, if_false, if_true]

theorem State.crossMode_waits (s : State) (m : Bool) (hc : s.core.crossing = []) (hm : s.core.interlock ≠ m) :
    s.crossMode m = .next (s.upd (fun c =>
      { c with crossing := c.crossing ++ [(m, c.stamp, 0)], waiting := some .crossing })) := by
  simp only [State.crossMode, hc, hm, List.any_nil, Bool.false_eq_true, if_false]

theorem exec_mode (s : State) (m : Bool) : exec (if m then .modeInterlock else .modeExposed) s = s.crossMode m := by
  cases m <;> rfl

theorem Core.crossingDue_of_later (c : Core) (limit who : Nat)
    (h : ∀ e, ∀ x ∈ (c.queue e).incomplete, limit ≤ x.stamp) : c.crossingDue limit who = true := by
  unfold Core.crossingDue
  rw [List.all_eq_true]
  intro e _
  rw [List.all_eq_true]
  intro x hx
  rw [decide_eq_true (h e x hx), Bool.true_or]

/-- MODE_CROSSING performs the first crossing, when every entry that it waits for has completed (R133). -/
theorem execModeCrossing_due (s : State) {m : Bool} {limit who : Nat} {rest : List (Bool × Nat × Nat)}
    (he : s.engineCtx s.cur = some s.ctx) (hc : s.core.crossing = (m, limit, who) :: rest)
    (hd : s.core.crossingDue limit who = true) :
    execModeCrossing s.cur s = .next (s.upd (fun c =>
      let d := { c with crossing := rest, interlock := m, epoch := c.epoch + 1 }
      if who = 0 ∧ c.waiting = some .crossing then d.advancePc 4 else d)) := by
  unfold execModeCrossing
  rw [he]
  show (match s.core.crossing with | [] => _ | (_, _, _) :: _ => _) = _
  rw [hc]
  exact if_pos hd

end Sys2Proof.Machine

namespace Sys2Proof.Claims
open Sys2Proof.Machine

theorem seamsAndFences : SeamsAndFences := by
  intro s sc hl hs hsc i hi
  have h6 : ¬6 ≤ sc.toNat := by omega
  have hsmall := fun form (hf : form < 4) => s.fence_enters form sc.toNat hl hs hf (by omega)
  simp only [List.mem_cons, List.not_mem_nil, or_false] at hi
  obtain rfl | rfl | rfl | rfl := hi
  · exact s.fence_enters 0 0 hl hs (by omega) (by omega)
  · obtain ⟨t, id, ht, hrest⟩ := hsmall 0 (by omega)
    exact ⟨t, id, (if_neg h6).trans ht, hrest⟩
  · obtain ⟨t, id, ht, hrest⟩ := hsmall 1 (by omega)
    exact ⟨t, id, (if_neg h6).trans ht, hrest⟩
  · obtain ⟨t, id, ht, hrest⟩ := hsmall 2 (by omega)
    exact ⟨t, id, (if_neg h6).trans ht, hrest⟩

theorem modeCrossings : ModeCrossings := by
  intro s m
  refine ⟨fun hc hm => ?_, fun hc hm => ?_, fun limit rest he hc hw hlate => ?_⟩
  · exact ⟨_, (exec_mode s m).trans (s.crossMode_done m hc hm), .advance s 4⟩
  · refine ⟨_, (exec_mode s m).trans (s.crossMode_waits m hc hm), .upd s _, ?_⟩
    rw [State.core_upd, hc]
    rfl
  · have hdue := s.core.crossingDue_of_later limit 0 hlate
    refine ⟨_, execModeCrossing_due s he hc hdue, .upd s _, ?_⟩
    rw [State.core_upd]
    exact if_pos ⟨rfl, hw⟩

end Sys2Proof.Claims
end

