-- ==== Sys2Proof/Proofs/CoreStops.lean ====
section
namespace Sys2Proof.Machine
open Sys2Proof.Claims

/-! ## Loans that end (R210) -/

/-- Core d is core c but for its notes of loans. -/
def Core.SameButLoans (c d : Core) : Prop := d = { c with loanBorrowed := d.loanBorrowed, loanLent := d.loanLent }

theorem Core.SameButLoans.refl (c : Core) : c.SameButLoans c := rfl

theorem Core.SameButLoans.trans {c d e : Core} (h : c.SameButLoans d) (k : d.SameButLoans e) : c.SameButLoans e :=
  Eq.trans k (congrArg (fun x : Core => { x with loanBorrowed := e.loanBorrowed, loanLent := e.loanLent }) h)

/-- State t is state s but for matrix arrays and the cores' notes of loans. -/
structure State.LoansOnly (s t : State) : Prop where
  frame : t = { s with cores := t.cores, quads := t.quads }
  cores : ∀ c m, (s.coreAt c m).SameButLoans (t.coreAt c m)

theorem State.LoansOnly.refl (s : State) : s.LoansOnly s := ⟨rfl, fun _ _ => .refl _⟩

theorem State.LoansOnly.trans {s t u : State} (h : s.LoansOnly t) (k : t.LoansOnly u) : s.LoansOnly u :=
  ⟨k.frame.trans (congrArg (fun x : State => { x with cores := u.cores, quads := u.quads }) h.frame),
    fun c m => (h.cores c m).trans (k.cores c m)⟩

theorem State.LoansOnly.setQuad (s : State) (q : Nat) (x : Quad) : s.LoansOnly (s.setQuad q x) :=
  ⟨rfl, fun _ _ => .refl _⟩

/-- Two names of one core. -/
theorem State.coreAt_congr (s : State) {a n b k : Nat} (h : coreKey a n = coreKey b k) : s.coreAt a n = s.coreAt b k :=
  congrArg (SMap.get ({} : Core) s.cores) h

theorem State.LoansOnly.setCoreAt (s : State) (a n : Nat) {c : Core} (h : (s.coreAt a n).SameButLoans c) :
    s.LoansOnly (s.setCoreAt a n c) := by
  refine ⟨rfl, fun b k => ?_⟩
  rw [State.coreAt_setCoreAt]
  split
  · next hk => rwa [s.coreAt_congr hk]
  · exact .refl _

theorem State.endLoan_loansOnly (s : State) (ctx n j k : Nat) : s.LoansOnly (s.endLoan ctx n j k) := by
  refine ((State.LoansOnly.setQuad s _ _).trans (.setCoreAt _ _ _ ?_)).trans (.setCoreAt _ _ _ ?_) <;> rfl

/-- The loans of a core that stops, ended one after the other. -/
theorem State.endShares_loansOnly (s : State) (ctx n : Nat) : s.LoansOnly (s.endShares ctx n) := by
  unfold State.endShares
  extract_lets qd s1 q
  have h1 : s.LoansOnly s1 := by
    refine List.foldlRecOn (motive := s.LoansOnly) _ _ (.refl s) (fun t ht j _ => ?_)
    split
    · exact ht
    · split
      · exact ht.trans (t.endLoan_loansOnly ctx n j _)
      · exact ht
  split
  · exact h1.trans (.setQuad _ _ _)
  · exact h1

/-- The lease of a core that stops is released (R210). -/
theorem State.endShares_holder (s : State) (ctx n : Nat) :
    ((s.endShares ctx n).quad (s.physQuad (quadOf n))).holder ≠ some (n % 4) := by
  unfold State.endShares
  extract_lets qd s1 q
  split
  · rw [State.quad, State.setQuad, SMap.get_set_same]
    exact nofun
  · next h => exact h

/-! ## A core that stops at a boundary (R203, R204) -/

/-- State t is state s but for what the stop of a core at a boundary changes: no register of any core, no byte, no time, no
other physical core; and no pc, where `still` holds. -/
structure State.Paused (still : Prop) (s t : State) : Prop where
  frame : t = { s with cores := t.cores, quads := t.quads, contribs := t.contribs, remotes := t.remotes }
  regs : ∀ c m, (t.coreAt c m).s = (s.coreAt c m).s
  pcs : still → ∀ c m, (t.coreAt c m).pc = (s.coreAt c m).pc

variable {P : Prop} {s t u : State}

theorem State.Paused.refl (s : State) : s.Paused P s := ⟨rfl, fun _ _ => rfl, fun _ _ _ => rfl⟩

theorem State.Paused.trans (h : s.Paused P t) (k : t.Paused P u) : s.Paused P u where
  frame := k.frame.trans (congrArg (fun x : State =>
    { x with cores := u.cores, quads := u.quads, contribs := u.contribs, remotes := u.remotes }) h.frame)
  regs c m := (k.regs c m).trans (h.regs c m)
  pcs p c m := (k.pcs p c m).trans (h.pcs p c m)

theorem State.LoansOnly.paused (h : s.LoansOnly t) : s.Paused P t where
  frame := h.frame.trans (by rw [h.frame])
  regs c m := by rw [h.cores c m]
  pcs _ c m := by rw [h.cores c m]

theorem State.Paused.upd (s : State) (f : Core → Core) (hs : (f s.core).s = s.core.s) (hp : P → (f s.core).pc = s.core.pc) :
    s.Paused P (s.upd f) := by
  have hat : ∀ c m, (s.upd f).coreAt c m = if coreKey c m = coreKey s.ctx s.cur then f s.core else s.coreAt c m :=
    fun c m => State.coreAt_setCoreAt s s.ctx s.cur c m (f s.core)
  refine ⟨rfl, fun c m => ?_, fun p c m => ?_⟩ <;> rw [hat] <;> split
  · next hk => rw [hs, s.coreAt_congr hk]; rfl
  · rfl
  · next hk => rw [hp p, s.coreAt_congr hk]; rfl
  · rfl

theorem State.leaveClaim_paused (s : State) (id : Nat) : s.Paused P (s.leaveClaim id) := by
  unfold State.leaveClaim
  split <;> exact ⟨rfl, fun _ _ => rfl, fun _ _ _ => rfl⟩

theorem State.leaveWait_paused (s : State) : s.Paused P s.leaveWait := by
  unfold State.leaveWait
  split <;> exact .upd s _ rfl (fun _ => rfl)

/-- A wait that is left at a stop: only an `fao` whose claim is sent moves on (R204). -/
theorem State.leaveStop_paused (s : State) : s.Paused (∀ id, s.core.waiting ≠ some (.grant id)) s.leaveStop := by
  unfold State.leaveStop
  split
  · next id hw =>
    split
    · refine (s.leaveClaim_paused id).trans (.upd _ _ ?_ (fun h => absurd hw (h id)))
      simp only [Core.advancePc_s]
      split <;> rfl
    · exact s.leaveWait_paused
  · exact .refl s
  · exact s.leaveWait_paused

/-- The engines of a core at a boundary stop where they are (R203). -/
theorem State.stopEngines_paused (s : State) (h : AtBoundary s.core) :
    s.Paused P s.stopEngines ∧ s.stopEngines.core.waiting = s.core.waiting := by
  obtain ⟨-, -, hact, hpend⟩ := h
  have hs : s.stopEngines = s.upd (fun c => { c with copies := c.copies.map CopyCmd.restart }) := by
    rw [State.stopEngines, s.stopPart_of_noPart .v (hact .v), s.stopPart_of_noPart .m (hact .m),
      s.stopCopies_of_noPend hpend]
  rw [hs]
  refine ⟨.upd s _ rfl (fun _ => rfl), ?_⟩
  rw [State.core_upd]

/-- The actor of a step on behalf of another core comes back. -/
theorem State.Paused.back {a b : Nat} (h : ({ s with ctx := a, cur := b } : State).Paused P t) :
    s.Paused P { t with ctx := s.ctx, cur := s.cur } :=
  ⟨congrArg (fun x : State => { x with ctx := s.ctx, cur := s.cur }) h.frame, h.regs, h.pcs⟩

/-- The stop of a core that stands at a boundary. -/
theorem State.stopCore_paused (s : State) (ctx n : Nat) (cause : BitVec 8) (h : AtBoundary (s.coreAt ctx n)) :
    s.Paused (∀ id, (s.coreAt ctx n).waiting ≠ some (.grant id)) (s.stopCore ctx n cause) := by
  unfold State.stopCore
  extract_lets u again v
  have hu : AtBoundary u.core := h
  have hv : u.Paused (∀ id, u.core.waiting ≠ some (.grant id)) v := by
    obtain ⟨heng, hw⟩ := u.stopEngines_paused (P := ∀ id, u.core.waiting ≠ some (.grant id)) hu
    have hleave := u.stopEngines.leaveStop_paused
    rw [hw] at hleave
    show u.Paused _ (u.drainQueues.stopEngines.leaveStop.upd _)
    rw [u.drainQueues_of_empty hu.1 hu.2.1]
    exact (heng.trans hleave).trans (.upd _ _ rfl (fun _ => rfl))
  exact (hv.trans (v.endShares_loansOnly ctx n).paused).back

theorem State.Paused.keepsData (h : s.Paused P t) : KeepsData s t := by
  refine ⟨fun c n r => ?_, ?_⟩
  · simp only [Core.rd, h.regs]
  · rw [h.frame]
    exact .of_eq rfl rfl rfl

end Sys2Proof.Machine
end

