-- ==== Sys2Proof/Proofs/System.lean ====
section
namespace Sys2Proof.Machine
open Sys2Proof.Claims

/-! ## Physical cores, queues and launches after a write -/

@[simp] theorem Core.queue_advancePc (c : Core) (n : Nat) (e : Eng) : (c.advancePc n).queue e = c.queue e := by
  cases e <;> rfl

theorem State.physCore_setPhys (s : State) (p q : Nat) (x : Phys) :
    (s.setPhys p x).physCore q = if q = p then x else s.physCore q := SMap.get_set _ _ _ _ _

theorem State.launchAt_setLaunch (s : State) {i : Nat} (x : Launch) (h : (s.launchAt i).isSome = true) (j : Nat) :
    (s.setLaunch i x).launchAt j = if j = i then some x else s.launchAt j := by
  obtain ⟨y, hy⟩ := Option.isSome_iff_exists.mp h
  have hlt : i < s.launches.length := (List.getElem?_eq_some_iff.mp hy).1
  simp only [State.launchAt, State.setLaunch, List.getElem?_set, hlt, if_true]
  by_cases e : i = j
  · rw [if_pos e, if_pos e.symm]
  · rw [if_neg e, if_neg (Ne.symm e)]

theorem State.launchAt_updLaunch {s : State} {i : Nat} {x : Launch} (h : s.launchAt i = some x) (f : Launch → Launch)
    (j : Nat) : (s.updLaunch i f).launchAt j = if j = i then some (f x) else s.launchAt j := by
  rw [State.updLaunch, h]
  exact s.launchAt_setLaunch _ (h ▸ rfl) j

/-- A change of a launch changes the launch list only. -/
theorem State.updLaunch_eq (s : State) (i : Nat) (f : Launch → Launch) :
    s.updLaunch i f = { s with launches := (s.updLaunch i f).launches } := by
  unfold State.updLaunch
  split <;> rfl

@[simp] theorem State.updLaunch_coreAt (s : State) (i : Nat) (f : Launch → Launch) (c n : Nat) :
    (s.updLaunch i f).coreAt c n = s.coreAt c n := by
  rw [s.updLaunch_eq i f]
  rfl

@[simp] theorem State.updLaunch_core (s : State) (i : Nat) (f : Launch → Launch) : (s.updLaunch i f).core = s.core := by
  rw [s.updLaunch_eq i f]
  rfl

/-! ## `yield` (R19) -/

/-- The other logical core takes the physical core of one that stands at a boundary. -/
theorem State.switchTo_boundary (s : State) {ctx n k p : Nat} (hp : s.physOf n = some p) (h : AtBoundary (s.coreAt ctx n)) :
    ((s.switchTo ctx n k).physCore p).serving = some (ctx, k) ∧ KeepsData s (s.switchTo ctx n k)
      ∧ (s.switchTo ctx n k).time = s.time ∧ (∀ q, q ≠ p → (s.switchTo ctx n k).physCore q = s.physCore q)
      ∧ ((∀ id, (s.coreAt ctx n).waiting ≠ some (.grant id)) →
          ((s.switchTo ctx n k).coreAt ctx n).pc = (s.coreAt ctx n).pc)
      ∧ (s.switchTo ctx n k).ctx = s.ctx ∧ (s.switchTo ctx n k).cur = s.cur := by
  have ht := s.stopCore_paused ctx n 1 h
  have hs : s.switchTo ctx n k = (s.stopCore ctx n 1).setPhys p
      { (s.stopCore ctx n 1).physCore p with serving := some (ctx, k), sliceAt := (s.stopCore ctx n 1).time } := by
    unfold State.switchTo
    rw [hp]
  rw [hs]
  generalize s.stopCore ctx n 1 = t at ht
  refine ⟨?_, ht.keepsData, ?_, fun q hq => ?_, fun hw => ht.pcs hw ctx n, ?_, ?_⟩
  · rw [State.physCore_setPhys, if_pos rfl]
  · show t.time = _
    rw [ht.frame]
  · rw [State.physCore_setPhys, if_neg hq]
    show SMap.get {} t.phys q = _
    rw [ht.frame]
    rfl
  · show t.ctx = _
    rw [ht.frame]
  · show t.cur = _
    rw [ht.frame]

/-- `yield` gives the physical core to the partner, when that has something to do (R19). -/
theorem State.yieldCore_runnable (s : State) {k : Nat} (hk : s.partner s.cur = some k)
    (hr : (s.coreAt s.ctx k).runnable = true) : s.yieldCore = s.switchTo s.ctx s.cur k := by
  unfold State.yieldCore
  rw [hk]
  exact if_pos hr

theorem State.yieldCore_alone (s : State) (h : s.partner s.cur = none) : s.yieldCore = s := by
  unfold State.yieldCore
  rw [h]

/-! ## `texit` (R119) -/

theorem State.releaseAll_of_running (s : State) (pc : Nat) (h : ∀ e, (s.core.queue e).stopped = none) :
    s.releaseAll pc = s := by
  simp only [State.releaseAll, List.foldl_cons, List.foldl_nil, h]

theorem Core.untold_of_running (c : Core) (h : ∀ e, (c.queue e).stopped = none) : c.untold = [] := by
  simp only [Core.untold, List.filterMap_cons, List.filterMap_nil, h]

/-- A task that no trap marks exits: its index waits to retire, its status is as it was (R14). -/
theorem State.exitTask_clean (s : State) (pc : Nat) {l : Nat} {x : Launch} {k : Task} (hl : s.core.launch = some l)
    (hx : s.launchAt l = some x) (hk : s.core.task = some k) (hh : s.core.held = [])
    (hq : ∀ e, (s.core.queue e).stopped = none) :
    (s.exitTask false pc).core.task = none
      ∧ (s.exitTask false pc).launchAt l = some { x with exited := x.exited ++ [(k.l, s.cur)] }
      ∧ SameBytes s (s.exitTask false pc) := by
  unfold State.exitTask
  extract_lets c bad s1 s2 s3
  have hbad : bad = false := by
    simp only [bad, c, hh, s.core.untold_of_running hq, List.isEmpty_nil, List.any_nil, Bool.not_true, Bool.or_self]
  have h1 : s1 = s := by simp only [s1, c, hh, List.foldl_nil]
  have h2 : s2 = s := by rw [show s2 = s1.releaseAll pc from rfl, h1, s.releaseAll_of_running pc hq]
  have h3 : s3.launchAt l = some x := by
    rw [show s3 = (s2.leaveClaims s.ctx s.cur).upd _ from rfl, h2]
    exact hx
  have h3b : SameBytes s s3 := by
    rw [show s3 = (s2.leaveClaims s.ctx s.cur).upd _ from rfl, h2]
    exact .of_eq rfl rfl rfl
  simp only [show c.launch = some l from hl, show c.task = some k from hk, hbad, Bool.false_eq_true, if_false]
  refine ⟨?_, ?_, ?_⟩
  · rw [State.updLaunch_core, show s3.core = _ from State.core_upd _ _]
  · rw [State.launchAt_updLaunch h3, if_pos rfl]
  · rw [State.updLaunch_eq]
    exact h3b

end Sys2Proof.Machine

namespace Sys2Proof.Claims
open Sys2Proof.Machine

/-- `yield` beside a runnable partner, with nothing of the core at work (R18, R19). -/
theorem yield_handsOver (s : State) {k p : Nat} (hp : s.physOf s.cur = some p) (hk : s.partner s.cur = some k)
    (hne : k ≠ s.cur) (hr : (s.coreAt s.ctx k).runnable = true) (hl : s.core.lq = []) (hs : s.core.sq = [])
    (hc : s.core.copies = []) (ha : ∀ e, (s.core.queue e).act = none) :
    ∃ t, exec .yield s = .next t ∧ (t.physCore p).serving = some (s.ctx, k) ∧ t.core.pc = s.core.pc + 4
      ∧ (∀ r : Reg, t.core.rd r = s.core.rd r) ∧ SameBytes s t := by
  obtain ⟨u, hu⟩ : ∃ u, u = s.upd (fun c => c.advancePc 4) := ⟨_, rfl⟩
  have hctx : u.ctx = s.ctx := by rw [hu]; rfl
  have hcur : u.cur = s.cur := by rw [hu]; rfl
  have hcore : u.coreAt s.ctx s.cur = s.core.advancePc 4 := by rw [hu]; exact State.core_upd s _
  have hpartner : u.coreAt s.ctx k = s.coreAt s.ctx k := by
    rw [hu]
    exact State.coreAt_upd_ne s _ (fun e => hne (Nat.add_left_cancel e))
  have hb : AtBoundary (u.coreAt s.ctx s.cur) := by
    rw [hcore]
    refine ⟨hl, hs, fun e a h => ?_, fun y hy => ?_⟩
    · rw [Core.queue_advancePc, ha] at h
      exact absurd h nofun
    · exact absurd (hc ▸ hy : y ∈ []) List.not_mem_nil
  have hexec : exec .yield s = .next (u.switchTo s.ctx s.cur k) := by
    have h := u.yieldCore_runnable (k := k) (by rw [hu]; exact hk) (by rwa [hctx, hpartner])
    rw [hctx, hcur] at h
    rw [← h, hu]
    rfl
  obtain ⟨hserve, ⟨hregs, hbytes⟩, -, -, hpc, htc, htn⟩ :=
    u.switchTo_boundary (k := k) (show u.physOf s.cur = some p by rw [hu]; exact hp) hb
  have hat : (u.switchTo s.ctx s.cur k).core = (u.switchTo s.ctx s.cur k).coreAt s.ctx s.cur := by
    rw [State.core, htc, htn, hctx, hcur]
  refine ⟨_, hexec, hserve, ?_, fun r => ?_, ?_⟩
  · rw [hat, hpc (by rw [hcore]; exact nofun), hcore]
    rfl
  · rw [hat, hregs, hcore]
    rfl
  · rw [hu] at hbytes ⊢
    exact hbytes

theorem systemGroup : SystemGroup := by
  intro s
  refine ⟨⟨_, rfl, .advance s 4⟩, fun h => ?_, fun h => ?_, fun h => ?_, fun h => ?_, fun k p hp hk hne hr hl hs hc ha => ?_,
    fun l x tk hlq hsq hl hx ht hf hh hq => ?_⟩
  · exact ⟨_, if_pos h, .upd s _, State.core_upd s _⟩
  · exact ⟨_, if_neg (by simp [h]), .upd s _, State.core_upd s _⟩
  · have hd : s.storesDone 0 = true := by simp [State.storesDone, h]
    exact ⟨_, if_pos hd, .upd s _, State.core_upd s _⟩
  · refine ⟨s.upd (fun c => c.advancePc 4), ?_, .advance s 4⟩
    exact congrArg Host.Outcome.next (State.yieldCore_alone (s.upd (fun c => c.advancePc 4)) h)
  · exact yield_handsOver s hp hk hne hr hl hs hc ha
  · have hd : s.accessesDone 0 = true := by simp [State.accessesDone, State.storesDone, hlq, hsq]
    have hexec : exec .texit s = .next (s.exitTask false s.core.pc.toNat) := by
      show execTexit s = _
      simp [execTexit, hd, hf]
    obtain ⟨h1, h2, h3⟩ := s.exitTask_clean s.core.pc.toNat hl hx ht hh hq
    exact ⟨_, _, hexec, h1, h2, List.mem_append_right _ (List.mem_singleton.mpr rfl), rfl, h3⟩

/-- Settles O6: each instruction by its own rule; the crossing by the entries that it waits for. -/
theorem systemAndModes : Obligations.SystemAndModes := ⟨systemGroup, seamsAndFences, modeCrossings⟩

end Sys2Proof.Claims
end

