-- ==== Sys2Proof/Proofs/Barriers.lean ====
section
namespace Sys2Proof.Machine
open Sys2Proof.Claims

/-! ## Barriers (R104) -/

theorem mem_insertNat {l : List Nat} {k j : Nat} : j ∈ insertNat l k ↔ j = k ∨ j ∈ l := by
  unfold insertNat
  split
  · next h =>
    rw [List.contains_iff_mem] at h
    exact ⟨Or.inr, fun o => o.elim (fun e => e ▸ h) id⟩
  · exact List.mem_cons

/-- The barrier that a core sees is the one of its launch, scope, id and place. -/
theorem State.barrier_names (s : State) (l scope id n : Nat) :
    (s.barrier l scope id n).launch = l ∧ (s.barrier l scope id n).scope = scope ∧ (s.barrier l scope id n).id = id
      ∧ (s.barrier l scope id n).inst = scopeInst scope n := by
  unfold State.barrier
  cases h : s.barriers.find? (fun b => b.launch == l && b.scope == scope && b.id == id && b.inst == scopeInst scope n) with
  | none => exact ⟨rfl, rfl, rfl, rfl⟩
  | some b =>
    have hb := List.find?_some h
    simp only [Bool.and_eq_true, beq_iff_eq] at hb
    obtain ⟨⟨⟨h1, h2⟩, h3⟩, h4⟩ := hb
    exact ⟨h1, h2, h3, h4⟩

/-- A barrier that has been replaced reads back. -/
theorem State.barrier_setBarrier (s : State) {l scope id n : Nat} {b : Barrier} (hl : b.launch = l) (hs : b.scope = scope)
    (hi : b.id = id) (hn : b.inst = scopeInst scope n) : (s.setBarrier b).barrier l scope id n = b := by
  obtain ⟨same, hsame⟩ : ∃ same : Barrier → Bool, same = fun x =>
    x.launch == l && x.scope == scope && x.id == id && x.inst == scopeInst scope n := ⟨_, rfl⟩
  have hb : same b = true := by simp [hsame, hl, hs, hi, hn]
  have hfind : ∀ bs : List Barrier, bs.any same = true → (bs.map (fun x => if same x then b else x)).find? same = some b := by
    intro bs
    induction bs with
    | nil => exact nofun
    | cons x bs ih =>
      intro h
      rw [List.any_cons, Bool.or_eq_true] at h
      rw [List.map_cons, List.find?_cons]
      by_cases hx : same x = true
      · rw [if_pos hx, hb]
      · rw [if_neg hx, Bool.not_eq_true _ |>.mp hx]
        exact ih (h.resolve_left hx)
  unfold State.setBarrier State.barrier
  rw [hl, hs, hi, hn, ← hsame]
  by_cases h : s.barriers.any same = true
  · rw [if_pos h, hfind _ h]
    rfl
  · rw [if_neg h, List.find?_append, List.find?_eq_none.mpr (fun x hx => by
      rw [Bool.not_eq_true, List.any_eq_false] at h
      exact h x hx), List.find?_cons, hb]
    rfl

/-- The list of barriers is all that a replacement changes. -/
theorem State.setBarrier_eq (s : State) (b : Barrier) : s.setBarrier b = { s with barriers := (s.setBarrier b).barriers } := by
  unfold State.setBarrier
  extract_lets same
  split <;> rfl

/-- What an arrival leaves in the barrier (R104): the core has arrived, and the generation is full with its last participant. -/
def Barrier.joined (b : Barrier) (x : Launch) (n now : Nat) : Barrier :=
  { b with arrived := insertNat b.arrived n,
           fullAt := if (participants x b.scope b.inst).all (fun k => (insertNat b.arrived n).contains k) then some now else none }

theorem Barrier.joined_fullAt (b : Barrier) (x : Launch) (n now : Nat) :
    (b.joined x n now).fullAt =
      if ∀ k ∈ participants x b.scope b.inst, k = n ∨ k ∈ b.arrived then some now else none := by
  have h : ((participants x b.scope b.inst).all (fun k => (insertNat b.arrived n).contains k) = true)
      ↔ ∀ k ∈ participants x b.scope b.inst, k = n ∨ k ∈ b.arrived := by
    simp only [List.all_eq_true, List.contains_iff_mem, mem_insertNat]
  exact if_congr h rfl rfl

/-- An arrival (R104): the core notes the generation, the barrier notes the core. -/
theorem State.arrive_spec (s : State) {l scope id : Nat} {x : Launch} (hx : s.launchAt l = some x) :
    (s.arrive l scope id).core =
        { s.core with arrived := SMap.set 0 s.core.arrived (arrivalKey scope id) ((s.barrier l scope id s.cur).gen + 1) }
      ∧ (s.arrive l scope id).barrier l scope id s.cur = (s.barrier l scope id s.cur).joined x s.cur s.now
      ∧ SameBytes s (s.arrive l scope id) ∧ (s.arrive l scope id).cur = s.cur := by
  obtain ⟨hl, hs, hi, hn⟩ := s.barrier_names l scope id s.cur
  obtain ⟨b, hb⟩ : ∃ b, b = (s.barrier l scope id s.cur).joined x s.cur s.now := ⟨_, rfl⟩
  have hs' : participants x (s.barrier l scope id s.cur).scope (s.barrier l scope id s.cur).inst
      = participants x scope (s.barrier l scope id s.cur).inst := by rw [hs]
  have harr : s.arrive l scope id = ((s.setBarrier b).updLaunch l
      (fun y => if 2 ≤ scope then { y with barred := true } else y)).upd (fun c =>
        { c with arrived := SMap.set 0 c.arrived (arrivalKey scope id) ((s.barrier l scope id s.cur).gen + 1) }) := by
    unfold State.arrive
    rw [hx, hb, Barrier.joined, hs']
  have hbar := s.barrier_setBarrier (l := l) (scope := scope) (id := id) (n := s.cur) (b := b)
    (by rw [hb]; exact hl) (by rw [hb]; exact hs) (by rw [hb]; exact hi) (by rw [hb]; exact hn)
  rw [harr, State.updLaunch_eq, s.setBarrier_eq]
  rw [s.setBarrier_eq] at hbar
  exact ⟨State.core_upd _ _, hbar.trans hb, .of_eq rfl rfl rfl, rfl⟩

/-- A barrier instruction of a launch's core that names a barrier does not trap (R52, R104). -/
theorem State.barrierTrap_named (s : State) (i : Instr) {l scope id : Nat} (hl : s.core.launch = some l)
    (hn : barrierNamed scope id = true) : s.barrierTrap i scope id = none := by
  have h6 : ¬6 ≤ scope := by
    simp only [barrierNamed, Bool.or_eq_true, Bool.and_eq_true, decide_eq_true_eq, beq_iff_eq] at hn
    omega
  simp only [State.barrierTrap, h6, hn, hl, Option.isSome_some, Bool.and_self, if_true, if_false]

/-! ## The end of a generation (R104) -/

/-- A barrier of the list keeps its place when it is replaced. -/
theorem State.setBarrier_at (s : State) {k : Nat} {b c : Barrier} (hk : s.barriers[k]? = some b) (hl : c.launch = b.launch)
    (hs : c.scope = b.scope) (hi : c.id = b.id) (hn : c.inst = b.inst) : (s.setBarrier c).barriers[k]? = some c := by
  unfold State.setBarrier
  extract_lets same
  have hb : same b = true := by simp [same, hl, hs, hi, hn]
  rw [if_pos (List.any_eq_true.mpr ⟨b, List.mem_of_getElem? hk, hb⟩)]
  show (s.barriers.map _)[k]? = _
  rw [List.getElem?_map, hk, Option.map_some, if_pos hb]

end Sys2Proof.Machine

namespace Sys2Proof.Claims
open Sys2Proof.Machine

theorem barrierArrivals : BarrierArrivals := by
  intro s id sc l x b hl hx hn
  obtain ⟨-, hscope, -, -⟩ := s.barrier_names l sc.toNat id.toNat s.cur
  obtain ⟨g, hg⟩ := s.noteLive_eq
  obtain ⟨hcore, hbar, hbytes, hcur⟩ := State.arrive_spec (s := { s with graphs := g }) (scope := sc.toNat) (id := id.toNat) hx
  refine ⟨fun hp ha hd => ?_, fun hd => ?_, fun hat hd => ?_, fun hat hp ha hd => ?_⟩
  · have hexec : exec (.bara id sc) s = (({ s with graphs := g } : State).arrive l sc.toNat id.toNat).done 4 := by
      show execBara id sc s = _
      simp only [execBara, s.barrierTrap_named _ hl hn, hl, Option.getD_some, hp, ha, hd, hg, Bool.not_true,
        Bool.false_eq_true, if_false]
    generalize ({ s with graphs := g } : State).arrive l sc.toNat id.toNat = t at *
    have hup : (t.upd (fun c => c.advancePc 4)).core = t.core.advancePc 4 := State.core_upd t _
    have hcur' : s.cur = t.cur := hcur.symm
    have hbar' : (t.upd (fun c => c.advancePc 4)).barrier l sc.toNat id.toNat s.cur = b.joined x s.cur s.now := hbar
    refine ⟨_, hexec, ?_, ?_, ?_, ?_, ?_, fun r => ?_, hbytes⟩
    · rw [hup, hcore]
      rfl
    · rw [hup, hcore]
      exact SMap.get_set_same (0 : Nat) s.core.arrived (arrivalKey sc.toNat id.toNat) (b.gen + 1)
    · rw [hbar']
      exact mem_insertNat.mpr (Or.inl rfl)
    · rw [hbar']
      rfl
    · rw [hbar', Barrier.joined_fullAt, hscope]
    · rw [hup, hcore]
      rfl
  · refine ⟨({ s with graphs := g } : State).upd (fun c => c.advancePc 4), ?_, .upd s g _⟩
    show execBarw id sc s = _
    simp only [execBarw, s.barrierTrap_named _ hl hn, hl, Option.getD_some, hd, hg, if_true]
    rfl
  · refine ⟨(s.upd (fun c => { c with barAt := none })).upd (fun c => c.advancePc 4), ?_, .upd_upd s _ _⟩
    show execBar id sc s = _
    simp only [execBar, s.barrierTrap_named _ hl hn, hl, Option.getD_some, hat, hd, if_true]
    rfl
  · have hexec : exec (.bar id sc) s = ((({ s with graphs := g } : State).arrive l sc.toNat id.toNat).upd
        (fun c => { c with barAt := some c.pc })).wait .barrier := by
      show execBar id sc s = _
      simp only [execBar, s.barrierTrap_named _ hl hn, hl, Option.getD_some, hat, hp, ha, hd, hg, Bool.not_true,
        Bool.false_eq_true, if_false]
    generalize ({ s with graphs := g } : State).arrive l sc.toNat id.toNat = t at *
    obtain ⟨u, hu⟩ : ∃ u, u = t.upd (fun c => { c with barAt := some c.pc }) := ⟨_, rfl⟩
    have hup : (u.upd (fun c => { c with waiting := some .barrier })).core
        = { t.core with barAt := some t.core.pc, waiting := some .barrier } := by
      rw [State.core_upd, hu, State.core_upd]
    rw [← hu] at hexec
    refine ⟨_, hexec, ?_, ?_, ?_, ?_, ?_⟩
    · rw [hup]
    · rw [hup, hcore]
      rfl
    · rw [hup, hcore]
      rfl
    · rw [hup, hcore]
      exact SMap.get_set_same (0 : Nat) s.core.arrived (arrivalKey sc.toNat id.toNat) (b.gen + 1)
    · have hbar' : (u.upd (fun c => { c with waiting := some .barrier })).barrier l sc.toNat id.toNat s.cur
          = b.joined x s.cur s.now := by rw [hu]; exact hbar
      rw [hbar']
      exact mem_insertNat.mpr (Or.inl rfl)

theorem barrierGenerations : BarrierGenerations := by
  intro s k b x t0 hk hfull hx hdue
  obtain ⟨c, hc⟩ : ∃ c : Barrier, c = { b with gen := b.gen + 1, arrived := [], fullAt := none,
                                               pods := b.pods.filter (fun p => b.gen + 1 < p / 1024) } := ⟨_, rfl⟩
  obtain ⟨woken, hw⟩ : ∃ w : State, w = { s with cores := s.cores.map (fun (e : Nat × Core) =>
      if e.1 / 512 = x.ctx ∧ b.arrived.contains (e.1 % 512) then (e.1, { e.2 with latch := true }) else e) } := ⟨_, rfl⟩
  have hexec : exec (.barrierGenerationComplete k) s = .next (woken.setBarrier c) := by
    show execBarrierGenerationComplete k s = _
    unfold execBarrierGenerationComplete
    rw [hk]
    simp only [hfull, hx]
    rw [if_neg, hw, hc]
    rcases hdue with ⟨h1, h2⟩ | ⟨h1, h2, h3⟩ | ⟨h1, h2⟩
    · simp [h1, barrierDelay]; omega
    · simp [h1, h2, barrierDelay]; omega
    · simp [h1, barrierDelay]; omega
  have hat := woken.setBarrier_at (k := k) (b := b) (c := c) (by rw [hw]; exact hk) (by rw [hc]) (by rw [hc]) (by rw [hc])
    (by rw [hc])
  refine ⟨_, c, hexec, hat, ?_⟩
  rw [woken.setBarrier_eq, hw, hc]
  exact ⟨rfl, rfl, rfl, rfl, rfl, rfl, rfl, .of_eq rfl rfl rfl⟩

/-- Settles O21: an arrival by `State.arrive_spec`, the end of a generation by the barrier's place in the list. -/
theorem barriers : Obligations.Barriers := ⟨barrierArrivals, barrierGenerations⟩

end Sys2Proof.Claims
end

