-- ==== Sys2Proof/Proofs/Insertion.lean ====
section
namespace Sys2Proof.Machine
open Sys2Proof.Claims

/-! ## Acceptance (R15, R107, R121) -/

/-- An entry goes behind everything that waits: into the hardware slots only when nothing is spilled (R128). -/
theorem Queue.append_spec (q : Queue) (x : Entry) (ring : Bool) :
    (q.append x ring).hw ++ (q.append x ring).spill = q.hw ++ q.spill ++ [x] ∧ (q.append x ring).next = q.next + 1
      ∧ (q.append x ring).act = q.act ∧ (q.append x ring).flight = q.flight := by
  unfold Queue.append
  split
  · next h =>
    simp only [Bool.and_eq_true, List.isEmpty_iff] at h
    refine ⟨?_, rfl, rfl, rfl⟩
    show q.hw ++ [x] ++ q.spill = _
    rw [h.1.2, List.append_nil, List.append_nil]
  · exact ⟨(List.append_assoc ..).symm, rfl, rfl, rfl⟩

/-- What acceptance makes of the core: queue e takes the entry; no scalar register and no pc changes (R107). -/
theorem State.acceptAs_spec (s : State) (n : Nat) (e : Eng) (x : Entry) (ring : Bool) :
    (((s.acceptAs s.ctx n e x ring).coreAt s.ctx n).queue e = ((s.coreAt s.ctx n).queue e).append x ring)
      ∧ ((s.acceptAs s.ctx n e x ring).coreAt s.ctx n).s = (s.coreAt s.ctx n).s
      ∧ ((s.acceptAs s.ctx n e x ring).coreAt s.ctx n).pc = (s.coreAt s.ctx n).pc := by
  unfold State.acceptAs
  extract_lets c d c1 c2
  rw [State.coreAt_setCoreAt, if_pos rfl]
  have hc1 : c1.queue e = (c.queue e).append x ring := by
    refine Eq.trans ?_ ((c.queue_setQueue e e _).trans (if_pos rfl))
    cases e <;> rfl
  have hs : c1.s = c.s := by cases e <;> rfl
  have hp : c1.pc = c.pc := by cases e <;> rfl
  by_cases h : e = .m ∧ x.commits = true
  · rw [show c2 = c1.closeBatch x.seq from if_pos h]
    refine ⟨Eq.trans ?_ hc1, hs, hp⟩
    cases e <;> rfl
  · rw [show c2 = c1 from if_neg h]
    exact ⟨hc1, hs, hp⟩

end Sys2Proof.Machine

namespace Sys2Proof.Claims
open Sys2Proof.Machine

/-- An entry that a queue has taken stands last, with what acceptance captures. -/
theorem AcceptsLast.of_queue {s t : State} {n : Nat} {e : Eng} {x : Entry} {ring : Bool}
    (hq : (t.coreAt s.ctx n).queue e = ((s.coreAt s.ctx n).queue e).append
      { s.capture (s.coreAt s.ctx n) x ((s.coreAt s.ctx n).queue e) with launch := s.core.launch.getD 0 } ring) :
    AcceptsLast s t n e { x with stamp := (s.coreAt s.ctx n).stamp } := by
  obtain ⟨h1, h2, h3, h4⟩ := ((s.coreAt s.ctx n).queue e).append_spec
    { s.capture (s.coreAt s.ctx n) x ((s.coreAt s.ctx n).queue e) with launch := s.core.launch.getD 0 } ring
  unfold AcceptsLast
  simp only [hq, h1, h2, h3, h4, and_self, and_true]
  rfl

end Sys2Proof.Claims

namespace Sys2Proof.Machine
open Sys2Proof.Claims

/-- An insertion is an acceptance that the recorder notes (R303). -/
theorem State.insertOwn_eq (s : State) (e : Eng) (x : Entry) :
    ∃ g, s.insertOwn e x = { s.accept s.ctx s.cur e x with graphs := g } := by
  unfold State.insertOwn
  extract_lets u q
  split
  · exact u.noteEntry_eq e _
  · exact ⟨u.graphs, rfl⟩

theorem State.insert_ok (s : State) (e : Eng) (x : Entry) (n : Nat) (hd : s.storesDone 0 = true)
    (ha : s.canAccept s.ctx s.cur e x.slots = true) (hr : s.batchRoom e x = true) :
    s.insert e x n = (s.insertOwn e x).done n := by
  simp only [State.insert, hd, ha, hr, Bool.not_true, Bool.or_self, Bool.false_eq_true, if_false]

/-- An entry that a core inserts into a queue of its own (R107). -/
theorem State.insertOwn_done (s : State) (e : Eng) (x : Entry) (n : Nat) :
    ∃ t, (s.insertOwn e x).done n = .next t ∧ AcceptsLast s t s.cur e { x with stamp := s.core.stamp }
      ∧ t.core.pc = s.core.pc + BitVec.ofNat 64 n ∧ (∀ r : Reg, t.core.rd r = s.core.rd r) ∧ t = { s with cores := t.cores, graphs := t.graphs } ∧ SameBytes s t := by
  obtain ⟨hq, hs, hp⟩ := s.acceptAs_spec s.cur e (s.capture s.core x (s.core.queue e)) false
  obtain ⟨u, hu⟩ : ∃ u, u = s.acceptAs s.ctx s.cur e (s.capture s.core x (s.core.queue e)) false := ⟨_, rfl⟩
  have hframe : u = { s with cores := u.cores } := by rw [hu]; rfl
  rw [← hu] at hq hs hp
  obtain ⟨g, hg⟩ := s.insertOwn_eq e x
  rw [show s.accept s.ctx s.cur e x = u from hu.symm] at hg
  have hcu : u.coreAt s.ctx s.cur = u.core := by rw [hframe]; rfl
  rw [hcu] at hq hs hp
  have hcore : (({ u with graphs := g } : State).upd (fun c => c.advancePc n)).coreAt s.ctx s.cur = u.core.advancePc n := by
    rw [hframe]
    exact State.core_upd _ _
  have hcore' : (({ u with graphs := g } : State).upd (fun c => c.advancePc n)).core = u.core.advancePc n :=
    State.core_upd _ _
  refine ⟨_, congrArg (fun v : State => v.done n) hg, ?_, ?_, fun r => ?_, ?_, ?_⟩
  · refine AcceptsLast.of_queue (ring := false) ?_
    rw [hcore, Core.queue_advancePc, hq]
    rfl
  · rw [hcore']
    show u.core.pc + _ = _
    rw [hp]
    rfl
  · rw [hcore']
    show (if r = 0 then 0 else SMap.get 0 u.core.s r.toNat) = _
    rw [hs]
    rfl
  · rw [hframe]
    rfl
  · rw [hframe]
    exact .of_eq rfl rfl rfl

end Sys2Proof.Machine

namespace Sys2Proof.Claims
open Sys2Proof.Machine

/-- `renq` puts one entry into a queue of another core of the span (R107). -/
theorem renq_appends {s : State} {a b : Reg} {p : BitVec 2 × Eng} {target : Nat} (ht : (s.core.rd a).toNat % 256 = target)
    (heng : engOf p.1.toNat = p.2) (h3 : p.1.toNat ≠ 3) (hspan : s.inSpan target = true) (hne : target ≠ s.cur)
    (hrel : s.storesDone (scopeOf s.cur target) = true)
    (hacc : if s.toRing s.ctx target = true then 1 ≤ s.quotaLeft s.ctx else s.canAccept s.ctx target p.2 1 = true) :
    ∃ t y, exec (.renq a b p.1) s = .next t ∧ AcceptsLast s t target p.2 y ∧ y.body = .block (s.core.rd b)
      ∧ t.core = movedOn s.core 4 ∧ t = { s with cores := t.cores, graphs := t.graphs } ∧ SameBytes s t := by
  obtain ⟨g, hg⟩ := s.noteLive_eq
  obtain ⟨z, hz⟩ : ∃ z : Entry, z = { s.entryOf (.block (s.core.rd b)) with
    task := (match (s.coreAt s.ctx target).task with | some t => t.l | none => (s.entryOf (.block (s.core.rd b))).task) } := ⟨_, rfl⟩
  obtain ⟨u, hu⟩ : ∃ u, u = ({ s with graphs := g } : State).acceptFor s.ctx target p.2 z (s.core.launch.getD 0)
    (s.toRing s.ctx target) := ⟨_, rfl⟩
  have hexec : exec (.renq a b p.1) s = u.done 4 := by
    show execRenq a b p.1 s = _
    have hroom : (if s.toRing s.ctx target = true then decide (1 ≤ s.quotaLeft s.ctx)
        else s.canAccept s.ctx target p.2 1) = true := by
      by_cases hr : s.toRing s.ctx target = true
      · rw [if_pos hr] at hacc ⊢
        exact decide_eq_true hacc
      · rwa [if_neg hr] at hacc ⊢
    unfold execRenq
    rw [if_neg h3, heng]
    simp only [ht, hspan, hrel, hroom, hg, Bool.not_true, Bool.false_eq_true,
      if_false]
    rw [hu, hz] <;> rfl
  have hother : coreKey s.ctx target ≠ coreKey s.ctx s.cur := fun e => hne (Nat.add_left_cancel e)
  have hcore : u.core = s.core := by
    rw [hu]
    exact (State.coreAt_setCoreAt _ _ _ _ _ _).trans (if_neg (Ne.symm hother))
  have hframe : u = { s with cores := u.cores, graphs := g } := by rw [hu]; rfl
  have hq : (u.coreAt s.ctx target).queue p.2 = ((s.coreAt s.ctx target).queue p.2).append
      { s.capture (s.coreAt s.ctx target) z ((s.coreAt s.ctx target).queue p.2) with launch := s.core.launch.getD 0 }
      (s.toRing s.ctx target) := by
    rw [hu]
    exact (State.acceptAs_spec { s with graphs := g } target p.2 _ _).1
  have hat : (u.upd (fun c => c.advancePc 4)).coreAt s.ctx target = u.coreAt s.ctx target := by
    refine State.coreAt_upd_ne u _ ?_
    rw [hframe]
    exact hother
  refine ⟨_, _, hexec, AcceptsLast.of_queue (x := z) (ring := s.toRing s.ctx target) ?_, ?_, ?_, ?_, ?_⟩
  · rw [hat, hq]
  · rw [hz]
    rfl
  · rw [State.core_upd, hcore]
    rfl
  · rw [hframe]
    rfl
  · rw [hframe]
    exact .of_eq rfl rfl rfl

/-- Settles O23: each insertion is one acceptance, `State.acceptAs_spec`, behind what waits, `Queue.append_spec`. -/
theorem queueInsertion : Obligations.QueueInsertion := by
  intro s a b wf sf ar scope word rel task mark target p hp x
  have he : engOf p.1.toNat = p.2 ∧ p.1.toNat ≠ 3 := by
    simp only [List.mem_cons, List.not_mem_nil, or_false] at hp
    obtain rfl | rfl | rfl := hp <;> decide
  obtain ⟨heng, h3⟩ := he
  refine ⟨fun hrel hacc hroom => ?_, fun hrel hacc => ?_, fun hspan hne hrel hacc => ?_⟩
  · have hd : s.storesDone 0 = true := by simp [State.storesDone, show s.core.sq = [] from hrel]
    obtain ⟨t, ht, hrest⟩ :=
      s.insertOwn_done p.2 { s.entryOf (.word word) with wf := wf, sf := sf, ar := ar, scope := scope } 12
    refine ⟨t, ?_, hrest⟩
    rw [← ht]
    show s.insert (engOf p.1.toNat) _ 12 = _
    rw [heng]
    exact s.insert_ok p.2 _ 12 hd hacc hroom
  · have hd : s.storesDone 0 = true := by simp [State.storesDone, show s.core.sq = [] from hrel]
    obtain ⟨t, ht, hrest⟩ := s.insertOwn_done p.2 (s.entryOf (.stream (streamRow (s.core.rd a)) 0 0 0 0 0)) 4
    refine ⟨t, ?_, hrest⟩
    rw [← ht]
    show execEnqs a 0 p.1 s = _
    simp only [execEnqs, h3, heng, hd, hacc, Bool.not_true, Bool.false_eq_true, if_false, ne_eq, not_true_eq_false, false_and,
      if_true]
  · exact renq_appends rfl heng h3 hspan hne hrel hacc

end Sys2Proof.Claims
end

