-- ==== Sys2Proof/Proofs/Reset.lean ====
section
namespace Sys2Proof.Machine

/-! ## The package right after power-up -/

/-- No physical core is mapped at reset (R251). -/
theorem State.reset_physOf (n : Nat) : State.reset.physOf n = none := by
  have hw : State.reset.remapEntry n = 0 := rfl
  unfold State.physOf
  rw [hw]
  rfl

/-- Every logical core reads as the empty core at reset. -/
theorem State.reset_coreAt (c n : Nat) : State.reset.coreAt c n = {} := rfl

/-- No handle of an empty core is valid. -/
theorem Core.handle_empty (k : Nat) : ({} : Core).handle k = {} := by
  unfold Core.handle
  split <;> rfl

/-- Every scalar register of an empty core reads 0. -/
theorem Core.rd_empty (r : Reg) : ({} : Core).rd r = 0 := by
  unfold Core.rd
  split <;> rfl

end Sys2Proof.Machine

namespace Sys2Proof.Claims
open Sys2Proof.Machine

/-- Settles O58: the reset state has empty maps, which read as their defaults. -/
theorem resetState : Obligations.ResetState :=
  ⟨rfl, rfl, rfl, rfl, rfl, rfl, State.reset_physOf,
    fun c n r => (congrArg (fun d : Core => d.rd r) (State.reset_coreAt c n)).trans (Core.rd_empty r),
    fun c n k => (congrArg (fun d : Core => (d.handle k.toNat).valid) (State.reset_coreAt c n)).trans
      (congrArg Handle.valid (Core.handle_empty k.toNat)), fun _ _ => ⟨rfl, rfl, rfl⟩, fun _ => rfl, rfl, ⟨rfl, rfl, rfl⟩⟩

end Sys2Proof.Claims
end

