-- ==== Sys2Proof/Proofs/Tasks.lean ====
section
namespace Sys2Proof.Machine
open Sys2Proof.Claims

/-! ## Binding (R250) -/

theorem State.coreAt_setTask (s : State) (ctx n : Nat) (k : Option Task) :
    (s.setTask ctx n k).coreAt ctx n = { s.coreAt ctx n with task := k } := by
  rw [State.setTask, State.coreAt_setCoreAt, if_pos rfl]

theorem Launch.task_spec (x : Launch) (l : Nat) (mask : BitVec 32) (shadow : Bool) :
    (x.task l mask shadow).l = l ∧ ((x.task l mask shadow).x, (x.task l mask shadow).y, (x.task l mask shadow).z) = x.coord l
      ∧ (x.task l mask shadow).rowmask = mask ∧ (x.task l mask shadow).shadow = shadow
      ∧ (x.task l mask shadow).started = false := ⟨rfl, rfl, rfl, rfl, rfl⟩

/-- A launch that is no graph task is not replayed (R306). -/
theorem State.replayed_none (s : State) {x : Launch} (h : x.graph = none) : s.replayed x = none := by
  unfold State.replayed
  rw [h]

/-- The walker of TASK_BIND has passed an index of core n. -/
def State.passIndex (s : State) (i n k : Nat) : State :=
  s.updLaunch i (fun y => { y with cursor := SMap.set 0 y.cursor n (k + 1) })

section
variable {s s1 : State} {n ctx i : Nat} {x : Launch}
variable (hn : s.nearCtx n = some ctx) (hl : (s.coreAt ctx n).launch = some i) (hx : s.launchAt i = some x)
  (hs : (s.coreAt ctx n).stoppedAt = none) (hxs : x.stopped = false) (hg : x.graph = none)
  (hrun : (s.context ctx).running = true)
include hn hl hx hs hxs hg hrun

/-- TASK_BIND at an index that the placement gives to the core: bound, or skipped (R250). -/
theorem execTaskBind_free {p : Point} (ht : (s.coreAt ctx n).task = none) (hex : x.exhausted n = false)
    (hr : x.retired = false) (he : x.error = none)
    (hlook : s.lookAt x n (x.candidate n (SMap.get 0 x.cursor n)) = (s1, p)) :
    (∀ mask sh, p = .bind mask sh → execTaskBind n s = .next
      (((s1.passIndex i n (SMap.get 0 x.cursor n)).updLaunch i (fun y =>
          if sh then { y with shadows := y.shadows + 1 } else { y with kept := y.kept + 1 })).setTask ctx n
        (some { x.task (x.candidate n (SMap.get 0 x.cursor n)) mask sh with replayed := false })))
    ∧ (p = .empty → execTaskBind n s = .next
        ((s1.passIndex i n (SMap.get 0 x.cursor n)).markTask i (x.candidate n (SMap.get 0 x.cursor n)) 3)) := by
  have hof : s.launchOf (s.coreAt ctx n) = some x := by rw [State.launchOf, hl]; exact hx
  have hgo : ((s.coreAt ctx n).stoppedAt == some 2 || (s.coreAt ctx n).task.isSome || x.exhausted n || x.retired
      || x.error.isSome || x.stopped || !(s.context ctx).running) = false := by
    simp [hs, ht, hex, hr, he, hxs, hrun]
  unfold execTaskBind
  rw [hn]
  simp only [hl, hof, hgo, hlook, Bool.false_eq_true, if_false]
  refine ⟨fun mask sh hp => ?_, fun hp => ?_⟩
  · subst hp
    simp only [State.replayed_none _ hg, Bool.not_true]
    rfl
  · subst hp
    simp only [State.replayed_none _ hg, Option.bind_none]
    rfl

end

/-- A status that is not faulted takes the mark (R14). -/
theorem State.launchAt_markTask {s : State} {i : Nat} {x : Launch} (h : s.launchAt i = some x) (l v : Nat)
    (hs : SMap.get 0 x.status l ≠ 2) :
    (s.markTask i l v).launchAt i = some { x with status := SMap.set 0 x.status l v } := by
  rw [State.markTask, State.launchAt_updLaunch h, if_pos rfl, if_neg hs]

/-! ## Starting (R12, R13) -/

/-- TASK_START of a task outside a replayed graph step. -/
theorem execTaskStart_due {s : State} {n ctx i : Nat} {x : Launch} {tk : Task} (hn : s.nearCtx n = some ctx)
    (hl : (s.coreAt ctx n).launch = some i) (hx : s.launchAt i = some x) (hs : (s.coreAt ctx n).stoppedAt = none)
    (hxs : x.stopped = false) (hg : x.graph = none) (ht : (s.coreAt ctx n).task = some tk) (hst : tk.started = false)
    (hnull : tk.nulls = false) (hrun : (s.context ctx).running = true) :
    ∃ t, execTaskStart n s = .next t ∧ SameBytes s t
      ∧ t.coreAt ctx n = (s.coreAt ctx n).atTask s.now (orEntry x.oprec) { tk with replayed := false } := by
  obtain ⟨u, hu⟩ : ∃ u : State, u = { s with ctx := ctx, cur := n } := ⟨_, rfl⟩
  have hcore : u.core = s.coreAt ctx n := by rw [hu]; rfl
  have hof : u.launchOf u.core = some x := by
    rw [State.launchOf, hcore, hl, hu]
    exact hx
  have hrep : u.replayed x = none := u.replayed_none hg
  have hgo : (u.core.stoppedAt == some 2 || tk.started || x.stopped || !(u.context ctx).running) = false := by
    rw [hcore, hs, hst, hxs, show (u.context ctx).running = true by rw [hu]; exact hrun]
    rfl
  obtain ⟨v, hv⟩ : ∃ v, v = (u.upd (fun c => c.atTask s.now (orEntry x.oprec) { tk with replayed := false })).updLaunch i
      (fun y => { y with replayed := y.replayed || false, gfail := y.gfail || false }) := ⟨_, rfl⟩
  obtain ⟨g, hgn⟩ := v.note_eq (fun t => { t with live := t.live || orLive x.oprec })
  have hexec : execTaskStart n s = .next { v with graphs := g } := by
    unfold execTaskStart
    rw [hn]
    simp only [← hu, hof, hgo, hrep, hg, show u.core.task = some tk from hcore ▸ ht,
      show u.core.launch = some i from hcore ▸ hl, Bool.false_eq_true, if_false]
    rw [if_neg (by rw [hnull]; exact Bool.false_ne_true), ← hv, hgn]
  refine ⟨_, hexec, ?_, ?_⟩
  · rw [hv, State.updLaunch_eq, hu]
    exact .of_eq rfl rfl rfl
  · rw [hv, State.updLaunch_eq, hu]
    exact (State.coreAt_setCoreAt _ _ _ _ _ _).trans (if_pos rfl)

/-! ## Retiring (R14) -/

/-- The numbers below n, cut at one of them. -/
theorem range_cut {n i : Nat} (hi : i < n) :
    List.range n = List.range i ++ i :: (List.range (n - i - 1)).map (fun k => i + (k + 1)) := by
  have e : n = i + ((n - i - 1) + 1) := by omega
  conv_lhs => rw [e, List.range_add, List.range_succ_eq_map, List.map_cons, List.map_map]
  rfl

/-- The first number below n that has a result. -/
theorem findSome?_range_first {α : Type} {f : Nat → Option α} {n i : Nat} {b : α} (hi : i < n) (hb : f i = some b)
    (hfirst : ∀ j, j < i → f j = none) : (List.range n).findSome? f = some b :=
  List.findSome?_eq_some_iff.mpr ⟨_, i, _, range_cut hi, hb, fun j hj => hfirst j (List.mem_range.mp hj)⟩

/-- TASK_RETIRE takes the first exited task of the core whose entries have completed. -/
theorem execTaskRetire_first {s : State} {n ctx i l : Nat} {x : Launch} {rest : List (Nat × Nat)}
    (hn : s.nearCtx n = some ctx) (hx : s.launchAt i = some x) (hq : ∀ e, ((s.coreAt ctx n).queue e).stopped = none)
    (hfirst : ∀ j y, j < i → s.launchAt j = some y → y.ctx = ctx → ∀ e ∈ y.exited, e.2 ≠ n) (hxc : x.ctx = ctx)
    (hex : x.exited = (l, n) :: rest) (hd : (s.coreAt ctx n).drained i l = true) :
    execTaskRetire n s = .next (({ s with ctx := ctx, cur := n } : State).updLaunch i (fun x =>
      { x with exited := x.exited.filter (fun e => !(e.1 == l && e.2 == n)),
               status := if SMap.get 0 x.status l = 0 then SMap.set 0 x.status l 1 else x.status })) := by
  obtain ⟨u, hu⟩ : ∃ u : State, u = { s with ctx := ctx, cur := n } := ⟨_, rfl⟩
  have hcore : u.core = s.coreAt ctx n := by rw [hu]; rfl
  have hself : u.releasesItself u.core = false := by
    have hv : u.core.qv.stopped = none := by rw [hcore]; exact hq .v
    have hm : u.core.qm.stopped = none := by rw [hcore]; exact hq .m
    have hc : u.core.qc.stopped = none := by rw [hcore]; exact hq .c
    simp [State.releasesItself, hv, hm, hc]
  have hat : ∀ j, u.launchAt j = s.launchAt j := fun j => by rw [hu]; rfl
  have hlt : i < s.launches.length := (List.getElem?_eq_some_iff.mp hx).1
  unfold execTaskRetire
  rw [hn]
  simp only [← hu, hself, Bool.false_eq_true, if_false]
  rw [findSome?_range_first (b := (i, l)) hlt ?_ fun j hj => ?_]
  · rw [hat, hx, hcore]
    simp only [hxc, if_true, hex, List.find?_cons, hd, beq_self_eq_true, Bool.and_self, Option.map_some]
  · rw [hat]
    cases hy : s.launchAt j with
    | none => rfl
    | some y =>
      by_cases hc : y.ctx = ctx
      · have hnone : y.exited.find? (fun e => e.2 == n && u.core.drained j e.1) = none :=
          List.find?_eq_none.mpr fun e he => by simp [hfirst j y hj hy hc e he]
        simp only [if_pos hc, hnone, Option.map_none]
      · exact if_neg hc

end Sys2Proof.Machine

namespace Sys2Proof.Claims
open Sys2Proof.Machine

/-- Settles O42: TASK_BIND by `execTaskBind_free`, TASK_START by `execTaskStart_due`, TASK_RETIRE by `execTaskRetire_first`. -/
theorem tasks : Obligations.Tasks := by
  intro s s1 n ctx i l x tk mask sh rest c hn hl hx hs hxs hg
  refine ⟨fun ht hex hr he hrun hx1 hc1 => ?_, fun ht hst hnull hrun => ?_, fun ht hqv hqm hqc hfirst hxc hexd hd => ?_⟩
  · have hbind := fun p => execTaskBind_free (s1 := s1) (p := p) hn hl hx hs hxs hg hrun ht hex hr he
    have hpass : (s1.passIndex i n (SMap.get 0 x.cursor n)).launchAt i
        = some { x with cursor := SMap.set 0 x.cursor n (SMap.get 0 x.cursor n + 1) } :=
      (State.launchAt_updLaunch hx1 _ i).trans (if_pos rfl)
    have hframe : s1.passIndex i n (SMap.get 0 x.cursor n)
        = { s1 with launches := (s1.passIndex i n (SMap.get 0 x.cursor n)).launches } := State.updLaunch_eq _ _ _
    generalize s1.passIndex i n (SMap.get 0 x.cursor n) = w at hbind hpass hframe
    have hcur : SMap.get 0 (SMap.set 0 x.cursor n (SMap.get 0 x.cursor n + 1)) n = SMap.get 0 x.cursor n + 1 :=
      SMap.get_set_same _ _ _ _
    intro j
    refine ⟨fun hlook => ?_, fun hlook h2 => ?_⟩
    · have hres := (hbind _ hlook).1 mask sh rfl
      obtain ⟨hk1, hk2, hk3, hk4, hk5⟩ := x.task_spec j mask sh
      refine ⟨_, { x.task j mask sh with replayed := false }, _, hres, ?_, hk1, hk2, hk3, hk4, hk5,
        (State.launchAt_updLaunch hpass _ i).trans (if_pos rfl), ?_, ?_, ?_, ?_⟩
      · rw [State.coreAt_setTask]
      · cases sh <;> exact hcur
      · cases sh <;> rfl
      · cases sh <;> rfl
      · rw [State.updLaunch_eq, hframe]
        exact .of_eq rfl rfl rfl
    · have hres := (hbind _ hlook).2 rfl
      refine ⟨_, _, hres, ?_, State.launchAt_markTask hpass _ _ h2,
        SMap.get_set_same (0 : Nat) x.status j 3, hcur, ?_⟩
      · rw [State.markTask, State.updLaunch_coreAt, hframe]
        exact (congrArg Core.task hc1).trans ht
      · rw [State.markTask, State.updLaunch_eq, hframe]
        exact .of_eq rfl rfl rfl
  · obtain ⟨t, hres, hbytes, hat⟩ := execTaskStart_due hn hl hx hs hxs hg ht hst hnull hrun
    refine ⟨t, hres, ?_, hbytes⟩
    rw [hat]
    refine ⟨rfl, rfl, fun r => ?_, fun k hk => ?_, rfl, rfl, rfl, rfl, rfl, rfl, rfl, fun q hq => ?_, rfl, rfl, rfl, rfl, rfl,
      rfl, rfl⟩
    · exact ite_self _
    · exact if_neg fun h => hk (BitVec.eq_of_toNat_eq h)
    · exact of_decide_eq_true (List.mem_filter.mp hq).2
  · have hq : ∀ e, ((s.coreAt ctx n).queue e).stopped = none := fun e => by cases e <;> assumption
    have hres := execTaskRetire_first hn hx hq hfirst hxc hexd hd
    obtain ⟨u, hu⟩ : ∃ u : State, u = { s with ctx := ctx, cur := n } := ⟨_, rfl⟩
    rw [← hu] at hres
    refine ⟨_, _, hres, (State.launchAt_updLaunch (by rw [hu]; exact hx) _ i).trans (if_pos rfl), ?_, ?_, ?_, ?_⟩
    · simp
    · by_cases h0 : SMap.get 0 x.status l = 0
      · simp only [if_pos h0, SMap.get_set_same]
      · simp only [if_neg h0]
    · rw [State.updLaunch_eq, hu]
    · rw [State.updLaunch_eq, hu]
      exact .of_eq rfl rfl rfl

end Sys2Proof.Claims
end

