-- ==== Sys2Proof/Proofs/Banks.lean ====
section
namespace Sys2Proof.Machine
open Sys2Proof.Claims

/-- Mapping the values of a map maps what it reads, when the default stays. -/
theorem SMap.get_map_default {α : Type} {d : α} (f : α → α) (h : f d = d) (m : SMap α) (k : Nat) :
    SMap.get d (m.map (fun e => (e.1, f e.2))) k = f (SMap.get d m k) := by
  induction m with
  | nil => exact h.symm
  | cons e m ih =>
    obtain ⟨j, v⟩ := e
    show (if j = k then f v else SMap.get d (m.map _) k) = f (if j = k then v else SMap.get d m k)
    split
    · rfl
    · exact ih

/-! ## Owner tags and bank states -/

theorem State.bankOwner_setOwner (s : State) (p b : Nat) (o : Option (Nat × Nat)) : (s.setOwner p b o).bankOwner p b = o := by
  unfold State.bankOwner State.setOwner
  extract_lets x tag
  rw [State.physCore_setPhys, if_pos rfl]
  show (match SMap.get (0, 0) (SMap.set (0, 0) x.owner b tag) b with | (0, _) => none | (c + 1, n) => some (c, n)) = o
  rw [SMap.get_set_same]
  cases o <;> rfl

theorem Core.bankState_setBank (c : Core) (b : Nat) (x : BankState) : (c.setBank b x).bankState b = x :=
  SMap.get_set_same _ _ _ _

/-- The core after a spill of bank b. -/
def Core.spilled (c : Core) (b : Nat) : Core :=
  match c.bankState b with
  | .live _ => c.setBank b .saved
  | _ => c

/-- A core of which a bank has been forced off keeps its cause of a debug stop, or says so (R215, R336). -/
def Core.noteForced (c : Core) : Core := { c with lastCause := if c.lastCause = 2 then 2 else 3 }

/-- The core after bank b is forced off (R208). -/
def Core.forced (c : Core) (b : Nat) : Core :=
  match c.bankState b with
  | .live _ => c.noteForced.setBank b .saved
  | _ => c

theorem Core.spilled_of_live {c : Core} {b p : Nat} (h : c.bankState b = .live p) : c.spilled b = c.setBank b .saved := by
  rw [Core.spilled, h]

theorem Core.spilled_of_not_live {c : Core} {b : Nat} (h : ∀ p, c.bankState b ≠ .live p) : c.spilled b = c := by
  unfold Core.spilled
  split
  · next p hp => exact absurd hp (h p)
  · rfl

theorem Core.forced_of_live {c : Core} {b p : Nat} (h : c.bankState b = .live p) :
    c.forced b = c.noteForced.setBank b .saved := by
  rw [Core.forced, h]

theorem Core.forced_of_not_live {c : Core} {b : Nat} (h : ∀ p, c.bankState b ≠ .live p) : c.forced b = c := by
  unfold Core.forced
  split
  · next p hp => exact absurd hp (h p)
  · rfl

/-! ## Sections -/

/-- Writing fields into device memory changes device memory only. -/
theorem State.putFields_eq (s : State) (base : Nat) (l : List SecField) :
    ∃ m w, s.putFields base l = { s with mem := m, memPoison := w } := by
  refine List.foldlRecOn (motive := fun t : State => ∃ m w, t = { s with mem := m, memPoison := w }) _ _ ⟨_, _, rfl⟩ ?_
  rintro _ ⟨m, w, rfl⟩ f -
  exact ⟨_, _, rfl⟩

theorem State.putBank_eq (s : State) (base ctx n b : Nat) :
    ∃ m w, s.putBank base ctx n b = { s with mem := m, memPoison := w } := by
  unfold State.putBank
  have h : ∀ areas : List (Nat × Nat), ∃ m w,
      areas.foldl (fun t a => t.zeroRange (base + a.1) a.2) s = { s with mem := m, memPoison := w } := fun areas => by
    refine List.foldlRecOn (motive := fun t : State => ∃ m w, t = { s with mem := m, memPoison := w }) _ _ ⟨_, _, rfl⟩ ?_
    rintro _ ⟨m, w, rfl⟩ f -
    exact ⟨_, _, rfl⟩
  obtain ⟨fs, areas⟩ := (s.coreAt ctx n).landed.fieldsOf b
  obtain ⟨m, w, hz⟩ := h areas
  show ∃ m w, (areas.foldl (fun t a => t.zeroRange (base + a.1) a.2) s).putFields base fs = _
  rw [hz]
  obtain ⟨m', w', hp⟩ := ({ s with mem := m, memPoison := w } : State).putFields_eq base fs
  exact ⟨m', w', hp⟩

/-- The image of a section is all that changes with it (R207, R209). -/
theorem State.syncSection_eq (s : State) (ctx n b : Nat) :
    ∃ m w, s.syncSection ctx n b = { s with mem := m, memPoison := w } := by
  unfold State.syncSection
  split
  · next a _ =>
    split
    · obtain ⟨m, w, hb⟩ := s.putBank_eq a ctx n b
      rw [hb]
      obtain ⟨m', w', hh⟩ := (({ s with mem := m, memPoison := w } : State).zeroRange a 0x400).putFields_eq a
        (({ s with mem := m, memPoison := w } : State).sectionHeader ctx n)
      exact ⟨m', w', hh⟩
    · exact ⟨_, _, rfl⟩
  · exact ⟨_, _, rfl⟩

/-- A context that no image holds has no section in memory. -/
theorem State.syncSection_noImage (s : State) (ctx n b : Nat) (h : (s.context ctx).image = none) :
    s.syncSection ctx n b = s := by
  unfold State.syncSection State.sectionAt
  rw [h]

/-! ## Spills -/

/-- What a change of banks leaves: only cores, owner tags and the images of stopped contexts change; no register does, and
without an image no byte. -/
structure State.BanksMoved (s t : State) : Prop where
  frame : t = { s with cores := t.cores, phys := t.phys, mem := t.mem, memPoison := t.memPoison }
  regs : ∀ c m (r : Reg), (t.coreAt c m).rd r = (s.coreAt c m).rd r
  bytes : (∀ d, (s.context d).image = none) → t.mem = s.mem

theorem State.BanksMoved.refl (s : State) : s.BanksMoved s := ⟨rfl, fun _ _ _ => rfl, fun _ => rfl⟩

theorem State.BanksMoved.trans {s t u : State} (h : s.BanksMoved t) (k : t.BanksMoved u) : s.BanksMoved u where
  frame := k.frame.trans (congrArg (fun x : State =>
    { x with cores := u.cores, phys := u.phys, mem := u.mem, memPoison := u.memPoison }) h.frame)
  regs c m r := (k.regs c m r).trans (h.regs c m r)
  bytes hi := (k.bytes (by rw [h.frame]; exact hi)).trans (h.bytes hi)

theorem State.BanksMoved.keepsData {s t : State} (h : s.BanksMoved t) (hi : ∀ d, (s.context d).image = none) : KeepsData s t :=
  ⟨h.regs, .of_eq (h.bytes hi) (by rw [h.frame]) (by rw [h.frame])⟩

theorem State.BanksMoved.setOwner (s : State) (p b : Nat) (o : Option (Nat × Nat)) : s.BanksMoved (s.setOwner p b o) :=
  ⟨rfl, fun _ _ _ => rfl, fun _ => rfl⟩

theorem State.BanksMoved.setCoreAt (s : State) (a k : Nat) {d : Core} (h : ∀ r : Reg, d.rd r = (s.coreAt a k).rd r) :
    s.BanksMoved (s.setCoreAt a k d) := by
  refine ⟨rfl, fun c m r => ?_, fun _ => rfl⟩
  rw [State.coreAt_setCoreAt]
  split
  · next hk => rw [h, s.coreAt_congr hk]
  · rfl

theorem State.BanksMoved.syncSection (s : State) (ctx n b : Nat) : s.BanksMoved (s.syncSection ctx n b) := by
  obtain ⟨m, w, h⟩ := s.syncSection_eq ctx n b
  refine ⟨by rw [h], fun c k r => by rw [h]; rfl, fun hi => by rw [s.syncSection_noImage _ _ _ (hi ctx)]⟩

theorem State.spill_of_live {s : State} {a k b p : Nat} (h : (s.coreAt a k).bankState b = .live p) :
    s.spill a k b = ((s.setCoreAt a k ((s.coreAt a k).setBank b .saved)).setOwner p b none).syncSection a k b := by
  simp only [State.spill, h]

theorem State.spill_of_not_live {s : State} {a k b : Nat} (h : ∀ p, (s.coreAt a k).bankState b ≠ .live p) :
    s.spill a k b = s := by
  simp only [State.spill]

theorem State.forceOff_of_live {s : State} {a k b p : Nat} (h : (s.coreAt a k).bankState b = .live p) :
    s.forceOff a k b = (s.setCoreAt a k (s.coreAt a k).noteForced).spill a k b := by
  simp only [State.forceOff, h]
  rfl

theorem State.forceOff_of_not_live {s : State} {a k b : Nat} (h : ∀ p, (s.coreAt a k).bankState b ≠ .live p) :
    s.forceOff a k b = s := by
  simp only [State.forceOff]

/-- A core that is written back as it was. -/
theorem State.coreAt_self (s : State) (a k c m : Nat) :
    s.coreAt c m = if coreKey c m = coreKey a k then s.coreAt a k else s.coreAt c m := by
  split
  · next hk => exact s.coreAt_congr hk
  · rfl

/-- A bank of a core is spilled: the core's bank is saved, its place is free (R207). -/
theorem State.spill_spec (s : State) (a k b : Nat) :
    s.BanksMoved (s.spill a k b)
      ∧ (∀ c m, (s.spill a k b).coreAt c m = if coreKey c m = coreKey a k then (s.coreAt a k).spilled b else s.coreAt c m)
      ∧ ∀ q, (s.coreAt a k).bankState b = .live q → (s.spill a k b).bankOwner q b = none := by
  by_cases hlive : ∃ p, (s.coreAt a k).bankState b = .live p
  · obtain ⟨p, hp⟩ := hlive
    rw [State.spill_of_live hp, Core.spilled_of_live hp]
    have hset := State.BanksMoved.setCoreAt s a k (d := (s.coreAt a k).setBank b .saved) fun _ => rfl
    have hat := fun c m => State.coreAt_setCoreAt s a k c m ((s.coreAt a k).setBank b .saved)
    generalize s.setCoreAt a k ((s.coreAt a k).setBank b .saved) = v at hset hat
    have hown := v.bankOwner_setOwner p b none
    obtain ⟨m, w, he⟩ := (v.setOwner p b none).syncSection_eq a k b
    refine ⟨(hset.trans (.setOwner v p b none)).trans (.syncSection _ a k b), ?_, fun q hq => ?_⟩
    · rw [he]
      exact hat
    · rw [hp] at hq
      cases hq
      rw [he]
      exact hown
  · have hnot := not_exists.mp hlive
    rw [State.spill_of_not_live hnot, Core.spilled_of_not_live hnot]
    exact ⟨.refl s, s.coreAt_self a k, fun q hq => absurd hq (hnot q)⟩

/-- A bank is forced off the place that holds it (R208). -/
theorem State.forceOff_spec (s : State) (a k b : Nat) :
    s.BanksMoved (s.forceOff a k b)
      ∧ (∀ c m, (s.forceOff a k b).coreAt c m = if coreKey c m = coreKey a k then (s.coreAt a k).forced b else s.coreAt c m)
      ∧ ∀ q, (s.coreAt a k).bankState b = .live q → (s.forceOff a k b).bankOwner q b = none := by
  by_cases hlive : ∃ p, (s.coreAt a k).bankState b = .live p
  · obtain ⟨p, hp⟩ := hlive
    rw [State.forceOff_of_live hp, Core.forced_of_live hp]
    have hset := State.BanksMoved.setCoreAt s a k (d := (s.coreAt a k).noteForced) fun _ => rfl
    have hother := fun c m => State.coreAt_setCoreAt s a k c m (s.coreAt a k).noteForced
    have hself := (hother a k).trans (if_pos rfl)
    obtain ⟨hmoved, hat, hown⟩ := (s.setCoreAt a k (s.coreAt a k).noteForced).spill_spec a k b
    rw [hself] at hat hown
    refine ⟨hset.trans hmoved, fun c m => ?_, hown⟩
    rw [hat, Core.spilled_of_live (c := (s.coreAt a k).noteForced) (p := p) hp]
    split
    · rfl
    · next hk => exact (hother c m).trans (if_neg hk)
  · have hnot := not_exists.mp hlive
    rw [State.forceOff_of_not_live hnot, Core.forced_of_not_live hnot]
    exact ⟨.refl s, s.coreAt_self a k, fun q hq => absurd hq (hnot q)⟩

/-! ## Claims (R207, R211) -/

/-- A page handle whose page lies here is translated again when bank S comes back (R211). -/
theorem State.rebind_spec (s : State) (a k : Nat) :
    ∃ f : Handle → Handle, s.rebind a k = s.setCoreAt a k ((s.coreAt a k).mapHandles f) ∧ f {} = {}
      ∧ ∀ h : Handle, h.valid = true → h.vault = false → (∃ p, s.whereIs h.base.toNat = .here p) →
        f h = { h with st := .pending, w := h.rw, rearm := false } := by
  refine ⟨_, rfl, rfl, ?_⟩
  rintro h hv hva ⟨p, hp⟩
  simp only [hv, hva, hp, Bool.not_true, Bool.false_eq_true, if_false]

theorem Core.handle_mapHandles (c : Core) (f : Handle → Handle) (h0 : f {} = {}) (i : Nat) (hi : i ≠ 0) :
    (c.mapHandles f).handle i = f (c.handle i) := by
  rw [Core.handle, Core.handle, if_neg hi, if_neg hi]
  exact SMap.get_map_default f h0 c.h i

/-- A claim takes the place: its tag and its bank say so, and nothing else of the part changes (R207). -/
theorem State.takeBank_spec (s : State) (a k b p : Nat) :
    s.BanksMoved (s.takeBank a k b p) ∧ (s.takeBank a k b p).bankOwner p b = some (a, k)
      ∧ ((s.takeBank a k b p).coreAt a k).bankState b = .live p
      ∧ (∀ c m, coreKey c m ≠ coreKey a k → (s.takeBank a k b p).coreAt c m = s.coreAt c m)
      ∧ ∀ i h, b = 0 → (s.coreAt a k).bankState 0 = .saved → (s.coreAt a k).handle i = h → h.valid = true → h.vault = false →
          (∃ q, s.whereIs h.base.toNat = .here q) →
          ((s.takeBank a k b p).coreAt a k).handle i = { h with st := .pending, w := h.rw, rearm := false } := by
  obtain ⟨d, hd⟩ : ∃ d, d = (s.coreAt a k).setBank b (.live p) := ⟨_, rfl⟩
  have hlive : d.bankState b = .live p := hd ▸ (s.coreAt a k).bankState_setBank b _
  have hset := State.BanksMoved.setCoreAt s a k (d := d) fun _ => by rw [hd]; rfl
  have hat := fun c m => State.coreAt_setCoreAt s a k c m d
  have hwhere : (s.setCoreAt a k d).whereIs = s.whereIs := rfl
  have htake : s.takeBank a k b p = if b = 0 ∧ (s.coreAt a k).bankState 0 = .saved then
      ((s.setCoreAt a k d).setOwner p b (some (a, k))).rebind a k else (s.setCoreAt a k d).setOwner p b (some (a, k)) := by
    rw [hd]
    rfl
  generalize s.setCoreAt a k d = v at hset hat htake hwhere
  have hown := v.bankOwner_setOwner p b (some (a, k))
  have hself : v.coreAt a k = d := (hat a k).trans (if_pos rfl)
  have hmoved := hset.trans (.setOwner v p b (some (a, k)))
  by_cases hsaved : b = 0 ∧ (s.coreAt a k).bankState 0 = .saved
  · rw [if_pos hsaved] at htake
    obtain ⟨f, hf, hf0, hpage⟩ := (v.setOwner p b (some (a, k))).rebind_spec a k
    rw [show (v.setOwner p b (some (a, k))).coreAt a k = d from hself] at hf
    have hat' := fun c m => State.coreAt_setCoreAt (v.setOwner p b (some (a, k))) a k c m (d.mapHandles f)
    rw [htake, hf]
    refine ⟨hmoved.trans (.setCoreAt _ a k fun r => ?_), hown, ?_, fun c m hk => ?_, fun i h _ _ hh hv hva hw => ?_⟩
    · show d.rd r = (v.coreAt a k).rd r
      rw [hself]
    · rw [hat', if_pos rfl]
      exact hlive
    · rw [hat', if_neg hk]
      exact (hat c m).trans (if_neg hk)
    · have hi : i ≠ 0 := fun e => by
        rw [e] at hh
        rw [← hh] at hv
        exact Bool.false_ne_true hv
      rw [hat', if_pos rfl, Core.handle_mapHandles d f hf0 i hi, show d.handle i = h by rw [hd]; exact hh]
      exact hpage h hv hva (by rw [show (v.setOwner p b (some (a, k))).whereIs = s.whereIs from hwhere]; exact hw)
  · rw [if_neg hsaved] at htake
    rw [htake]
    exact ⟨hmoved, hown, by rw [show (v.setOwner p b (some (a, k))).coreAt a k = d from hself]; exact hlive,
      fun c m hk => (hat c m).trans (if_neg hk), fun i h h0 hs => absurd ⟨h0, hs⟩ hsaved⟩

/-- BANK_CLAIM, when every write to the banks that move has landed (R207). -/
theorem execBankClaim_landed {s : State} {ctx n p : Nat} {b : Bank} (hn : n < 256) (hs : s.servedCtx n = some ctx)
    (hp : s.physOf n = some p) (ho : s.bankOwner p (bankNum b) ≠ some (ctx, n))
    (hv : ∀ v, s.bankOwner p (bankNum b) = some v → s.landOne v.1 v.2 (bankNum b) = none)
    (hl : ∀ q, (s.coreAt ctx n).bankState (bankNum b) = .live q → s.landOne ctx n (bankNum b) = none) :
    execBankClaim n b s = .next (((match s.bankOwner p (bankNum b) with
      | some v => s.spill v.1 v.2 (bankNum b)
      | none => s).forceOff ctx n (bankNum b)).takeBank ctx n (bankNum b) p) := by
  have hvictim : (s.bankOwner p (bankNum b)).bind (fun v => s.landOne v.1 v.2 (bankNum b)) = none := by
    cases h : s.bankOwner p (bankNum b) with
    | none => rfl
    | some v => exact hv v h
  have hown : (if (match (s.coreAt ctx n).bankState (bankNum b) with | .live _ => true | _ => false) = true then
      s.landOne ctx n (bankNum b) else none) = none := by
    cases h : (s.coreAt ctx n).bankState (bankNum b) with
    | live q => exact hl q h
    | saved => rfl
    | launch => rfl
  unfold execBankClaim
  rw [hs, hp]
  simp only [ho, hvictim, show ¬256 ≤ n by omega, or_self, if_false]
  split
  · next h => exact nomatch h
  · next h => exact nomatch hown.symm.trans h
  · cases s.bankOwner p (bankNum b) <;> rfl

end Sys2Proof.Machine

namespace Sys2Proof.Claims
open Sys2Proof.Machine

/-- The claim of O45: the last owner is spilled, the tag taken, bank S translated again (R207, R211). -/
theorem bankClaim_moves {s : State} {ctx n p : Nat} {b : Bank} (hn : n < 256) (hs : s.servedCtx n = some ctx)
    (hp : s.physOf n = some p) (ho : s.bankOwner p (bankNum b) ≠ some (ctx, n))
    (hv : ∀ v, s.bankOwner p (bankNum b) = some v → s.landOne v.1 v.2 (bankNum b) = none)
    (hl : ∀ q, (s.coreAt ctx n).bankState (bankNum b) = .live q → s.landOne ctx n (bankNum b) = none) :
    ∃ t, exec (.bankClaim n b) s = .next t ∧ t.bankOwner p (bankNum b) = some (ctx, n)
      ∧ (t.coreAt ctx n).bankState (bankNum b) = .live p ∧ ((∀ d, (s.context d).image = none) → KeepsData s t)
      ∧ (∀ i h, b = .s → (s.coreAt ctx n).bankState 0 = .saved → (s.coreAt ctx n).handle i = h → h.valid = true →
          h.vault = false → (∃ a, s.whereIs h.base.toNat = .here a) →
          (t.coreAt ctx n).handle i = { h with st := .pending, w := h.rw, rearm := false })
      ∧ ∀ v q, s.bankOwner p (bankNum b) = some v → coreKey v.1 v.2 ≠ coreKey ctx n →
          (s.coreAt v.1 v.2).bankState (bankNum b) = .live q → (t.coreAt v.1 v.2).bankState (bankNum b) = .saved := by
  have hexec : exec (.bankClaim n b) s = _ := execBankClaim_landed hn hs hp ho hv hl
  obtain ⟨u, hu⟩ : ∃ u, u = (match s.bankOwner p (bankNum b) with
      | some v => s.spill v.1 v.2 (bankNum b)
      | none => s) := ⟨_, rfl⟩
  rw [← hu] at hexec
  have hspill : s.BanksMoved u ∧ (∀ c m, (s.coreAt c m).bankState (bankNum b) ≠ .saved ∨ u.coreAt c m = s.coreAt c m)
      ∧ ∀ v, s.bankOwner p (bankNum b) = some v → u.coreAt v.1 v.2 = (s.coreAt v.1 v.2).spilled (bankNum b) := by
    cases h : s.bankOwner p (bankNum b) with
    | none =>
      rw [h] at hu
      exact hu ▸ ⟨.refl s, fun _ _ => .inr rfl, nofun⟩
    | some v =>
      rw [h] at hu
      obtain ⟨hm, hat, -⟩ := s.spill_spec v.1 v.2 (bankNum b)
      refine hu ▸ ⟨hm, fun c m => ?_, ?_⟩
      · by_cases hsv : (s.coreAt c m).bankState (bankNum b) = .saved
        · refine .inr ?_
          rw [hat]
          split
          · next hk =>
            rw [s.coreAt_congr hk] at hsv ⊢
            exact Core.spilled_of_not_live fun q hq => absurd (hq.symm.trans hsv) nofun
          · rfl
        · exact .inl hsv
      · rintro w ⟨⟩
        exact (hat _ _).trans (if_pos rfl)
  obtain ⟨hm1, hkept, hvict⟩ := hspill
  obtain ⟨hm2, hat2, -⟩ := u.forceOff_spec ctx n (bankNum b)
  generalize u.forceOff ctx n (bankNum b) = w at hexec hm2 hat2
  obtain ⟨hm3, hown, hlive, hother, hpage⟩ := w.takeBank_spec ctx n (bankNum b) p
  refine ⟨_, hexec, hown, hlive, ((hm1.trans hm2).trans hm3).keepsData, fun i h hb hsv hh hva hvl hw => ?_, fun v q hov hne hq => ?_⟩
  · have hb0 : bankNum b = 0 := by rw [hb]; rfl
    have hsv' : (s.coreAt ctx n).bankState (bankNum b) = .saved := by rw [hb0]; exact hsv
    have hsame : u.coreAt ctx n = s.coreAt ctx n := (hkept ctx n).resolve_left fun hno => hno hsv'
    have hkeep : w.coreAt ctx n = s.coreAt ctx n := by
      rw [hat2, if_pos rfl, hsame, Core.forced_of_not_live fun q hq => nomatch hq.symm.trans hsv']
    have hgang : w.whereIs = s.whereIs := by rw [hm2.frame, hm1.frame]; rfl
    rw [hkeep, hgang] at hpage
    exact hpage i h hb0 hsv hh hva hvl hw
  · rw [hother _ _ hne, hat2, if_neg hne, hvict v hov, Core.spilled_of_live hq]
    exact Core.bankState_setBank _ _ _

/-- The forced spill of O45 (R208). -/
theorem forcedSpill_saves {s : State} {n : Nat} {b : Bank} {x : Nat × Core}
    (hx : s.cores.find? (fun y => y.1 % 512 == n && n < 256 && !s.served (y.1 / 512) n
      && (match y.2.bankState (bankNum b) with | .live _ => true | _ => false)) = some x)
    (hc : s.coreAt (x.1 / 512) n = x.2) (hl : s.landOne (x.1 / 512) n (bankNum b) = none) :
    ∃ t, exec (.forcedSpill n b) s = .next t ∧ (t.coreAt (x.1 / 512) n).bankState (bankNum b) = .saved
      ∧ ((∀ d, (s.context d).image = none) → KeepsData s t)
      ∧ (x.2.lastCause ≠ 2 → (t.coreAt (x.1 / 512) n).lastCause = 3)
      ∧ ∀ q, x.2.bankState (bankNum b) = .live q → t.bankOwner q (bankNum b) = none := by
  have hexec : exec (.forcedSpill n b) s = .next (s.forceOff (x.1 / 512) n (bankNum b)) := by
    show execForcedSpill n b s = _
    unfold execForcedSpill
    extract_lets k
    split
    · next h => exact nomatch hx.symm.trans h
    · next y h =>
      obtain rfl : x = y := Option.some.inj (hx.symm.trans h)
      rw [show s.landOne (x.1 / 512) n k = none from hl]
  obtain ⟨q, hq⟩ : ∃ q, x.2.bankState (bankNum b) = .live q := by
    have hcond := List.find?_some hx
    cases h : x.2.bankState (bankNum b) with
    | live q => exact ⟨q, rfl⟩
    | saved => simp [h] at hcond
    | launch => simp [h] at hcond
  obtain ⟨hm, hat, hown⟩ := s.forceOff_spec (x.1 / 512) n (bankNum b)
  rw [hc] at hat hown
  have hself : (s.forceOff (x.1 / 512) n (bankNum b)).coreAt (x.1 / 512) n = x.2.noteForced.setBank (bankNum b) .saved :=
    ((hat _ _).trans (if_pos rfl)).trans (Core.forced_of_live hq)
  refine ⟨_, hexec, ?_, hm.keepsData, fun h2 => ?_, hown⟩
  · rw [hself]
    exact Core.bankState_setBank _ _ _
  · rw [hself]
    exact if_neg h2

end Sys2Proof.Claims
end

