-- ==== Sys2Proof/Proofs/Segments.lean ====
section
namespace Sys2Proof.Machine
open Sys2Proof.Claims

/-! ## Maps that are filtered, moved and merged -/

theorem SMap.get_filter {α : Type} {d : α} (p : Nat → Bool) (m : SMap α) (k : Nat) :
    SMap.get d (m.filter (fun c => p c.1)) k = if p k then SMap.get d m k else d := by
  induction m with
  | nil => exact (ite_self d).symm
  | cons e m ih =>
    obtain ⟨j, v⟩ := e
    show SMap.get d (List.filter _ ((j, v) :: m)) k = if p k then (if j = k then v else SMap.get d m k) else d
    by_cases hp : p j
    · rw [List.filter_cons, if_pos hp]
      show (if j = k then v else SMap.get d (m.filter fun c => p c.1) k) = _
      rw [ih]
      by_cases hj : j = k
      · rw [if_pos hj, if_pos hj, if_pos (hj ▸ hp)]
      · rw [if_neg hj, if_neg hj]
    · rw [List.filter_cons, if_neg hp, ih]
      by_cases hj : j = k
      · rw [if_neg (hj ▸ hp), if_neg (hj ▸ hp)]
      · rw [if_neg hj]

/-- A window of a map, moved to 0. -/
theorem SMap.get_window {α : Type} {d : α} (w i : Nat) (m : SMap α) {a : Nat} (ha : a < w) :
    SMap.get d ((m.filter (fun c => c.1 / w == i)).map (fun c => (c.1 % w, c.2))) a = SMap.get d m (w * i + a) := by
  induction m with
  | nil => rfl
  | cons e m ih =>
    obtain ⟨j, v⟩ := e
    show _ = if j = w * i + a then v else SMap.get d m (w * i + a)
    by_cases hw : j / w = i
    · rw [List.filter_cons_of_pos (by simp [hw]), List.map_cons, ← ih]
      have hj : j % w = a ↔ j = w * i + a := by
        have h := Nat.div_add_mod j w
        rw [hw] at h
        omega
      exact if_congr hj rfl rfl
    · rw [List.filter_cons_of_neg (by simp [hw]), ih, if_neg]
      rintro rfl
      exact hw (by rw [Nat.mul_add_div (by omega), Nat.div_eq_of_lt ha, Nat.add_zero])

/-- A map written into another at an offset; no key comes twice. -/
theorem SMap.get_merge {α : Type} [DecidableEq α] {d : α} (o : Nat) (data : SMap α) (hnd : (data.map Prod.fst).Nodup)
    (m : SMap α) (k : Nat) :
    SMap.get d (data.foldl (fun m c => SMap.set d m (o + c.1) c.2) m) k
      = if o ≤ k ∧ k - o ∈ data.map Prod.fst then SMap.get d data (k - o) else SMap.get d m k := by
  induction data generalizing m with
  | nil => rw [if_neg (fun h => List.not_mem_nil h.2)]; rfl
  | cons e data ih =>
    obtain ⟨j, v⟩ := e
    obtain ⟨hj, hnd'⟩ := List.nodup_cons.mp hnd
    rw [List.foldl_cons, ih hnd', SMap.get_set]
    show _ = if o ≤ k ∧ k - o ∈ j :: data.map Prod.fst then (if j = k - o then v else SMap.get d data (k - o)) else SMap.get d m k
    by_cases hk : k = o + j
    · have hkj : k - o = j := by omega
      rw [if_neg (fun h => hj (hkj ▸ h.2)), if_pos hk, if_pos ⟨by omega, by rw [hkj]; exact List.mem_cons_self⟩, if_pos hkj.symm]
    · by_cases ho : o ≤ k
      · have hkj : j ≠ k - o := by omega
        simp only [ho, true_and, List.mem_cons, hkj.symm, false_or, if_neg hk, if_neg hkj]
      · simp only [ho, false_and, if_false, if_neg hk]

/-- What a map does not list reads as the default. -/
theorem SMap.get_of_not_mem {α : Type} {d : α} {m : SMap α} {k : Nat} (h : k ∉ m.map Prod.fst) : SMap.get d m k = d := by
  induction m with
  | nil => rfl
  | cons e m ih =>
    obtain ⟨j, v⟩ := e
    rw [List.map_cons, List.mem_cons, not_or] at h
    exact (if_neg (Ne.symm h.1)).trans (ih h.2)

/-! ## Vault segments in motion (R212, R213) -/

/-- Reading every row of a segment corrects bits of the vault's code; no byte changes (R240). -/
theorem State.correctSegment_eq (s : State) (p : Nat) :
    ∃ f v, s.correctSegment p = { s with flips := f, vaultFixed := v } := by
  refine List.foldlRecOn (motive := fun t : State => ∃ f v, t = { s with flips := f, vaultFixed := v }) _ _ ⟨_, _, rfl⟩ ?_
  rintro _ ⟨f, v, rfl⟩ r -
  unfold State.correct
  extract_lets row
  split <;> exact ⟨_, _, rfl⟩

end Sys2Proof.Machine

namespace Sys2Proof.Claims
open Sys2Proof.Machine

/-- A segment that is being saved: its bytes go to the image, its place is free (R213). -/
theorem segmentSave_saves {s : State} {k : Nat} {g : Seg} (hk : s.segs[k]? = some g) (hg : g.st = .saving) :
    ∃ t h, exec (.segmentSave k) s = .next t ∧ t.segs[k]? = some h ∧ h.st = .saved
      ∧ (∀ a, a < 65536 → readByte h.data a = readByte s.vault (65536 * g.pseg + a))
      ∧ (∀ a, readByte t.vault a = if a / 65536 = g.pseg then 0 else readByte s.vault a)
      ∧ t.mem = s.mem ∧ t.cores = s.cores := by
  obtain ⟨f, v, hc⟩ := s.correctSegment_eq g.pseg
  have hlt : k < s.segs.length := (List.getElem?_eq_some_iff.mp hk).1
  have hexec : exec (.segmentSave k) s = .next (s.saveSegment k g) := by
    show execSegmentSave k s = _
    simp only [execSegmentSave, hk, hg]
  unfold State.saveSegment at hexec
  rw [hc] at hexec
  refine ⟨_, _, hexec, List.getElem?_set_self hlt, rfl, fun a ha => ?_, fun a => ?_, rfl, rfl⟩
  · exact SMap.get_window 65536 g.pseg s.vault ha
  · refine (SMap.get_filter (fun j => j / 65536 != g.pseg) s.vault a).trans ?_
    by_cases h : a / 65536 = g.pseg
    · simp [h]; rfl
    · simp [h]; rfl

/-- A segment that comes back: its bytes stand at their place again (R213). -/
theorem segmentRestore_restores {s : State} {k p : Nat} {g : Seg} (hk : s.segs[k]? = some g) (hg : g.st = .restoring)
    (hf : s.segmentFits g p = true) (hnd : (g.data.map Prod.fst).Nodup) (hb : ∀ y ∈ g.data, y.1 < 65536) :
    ∃ t h, exec (.segmentRestore k p) s = .next t ∧ t.segs[k]? = some h ∧ h.st = .owned ∧ h.pseg = p
      ∧ (∀ a, readByte t.vault a = if a / 65536 = p then readByte g.data (a % 65536) else readByte s.vault a)
      ∧ t.mem = s.mem ∧ t.cores = s.cores := by
  have hlt : k < s.segs.length := (List.getElem?_eq_some_iff.mp hk).1
  have hexec : exec (.segmentRestore k p) s = .next (s.restoreSegment k p g) := by
    show execSegmentRestore k p s = _
    simp only [execSegmentRestore, hk, hg, hf, and_self, if_true]
  refine ⟨_, _, hexec, List.getElem?_set_self hlt, rfl, rfl, fun a => ?_, rfl, rfl⟩
  refine (SMap.get_merge (p * 65536) g.data hnd _ a).trans ?_
  have herase : SMap.get blankByte (eraseRange s.vault (p * 65536) 65536) a = if a / 65536 = p then 0 else readByte s.vault a := by
    refine (SMap.get_filter (fun j => !(p * 65536 ≤ j && j < p * 65536 + 65536)) s.vault a).trans ?_
    by_cases h : a / 65536 = p
    · rw [if_pos h, if_neg (by simp; omega)]
      rfl
    · rw [if_neg h, if_pos (by simp; omega)]
      rfl
  rw [herase]
  by_cases hp : a / 65536 = p
  · have ha : p * 65536 ≤ a ∧ a - p * 65536 = a % 65536 := by omega
    rw [if_pos hp, if_pos hp, ha.2]
    by_cases hm : a % 65536 ∈ g.data.map Prod.fst
    · exact if_pos ⟨ha.1, hm⟩
    · rw [if_neg (fun h => hm h.2)]
      exact (SMap.get_of_not_mem hm).symm
  · rw [if_neg hp, if_neg hp, if_neg]
    rintro ⟨ho, hm⟩
    obtain ⟨y, hy, he⟩ := List.mem_map.mp hm
    have := hb y hy
    omega

end Sys2Proof.Claims
end

