-- ==== Sys2Proof/Proofs/Scene.lean ====
section
namespace Sys2Proof.Machine
open Sys2Proof.Claims

/-! ## The scene: who acts, where logical cores run, which launches there are -/

/-- Two states with the same actor, remap table and launches: what the data path of the part leaves as it was. -/
structure State.SameScene (s t : State) : Prop where
  ctx : t.ctx = s.ctx
  cur : t.cur = s.cur
  remap : t.remap = s.remap
  launches : t.launches = s.launches

variable {s t u : State}

@[refl] theorem State.SameScene.refl (s : State) : s.SameScene s := ⟨rfl, rfl, rfl, rfl⟩

@[trans] theorem State.SameScene.trans (h : s.SameScene t) (k : t.SameScene u) : s.SameScene u :=
  ⟨k.ctx.trans h.ctx, k.cur.trans h.cur, k.remap.trans h.remap, k.launches.trans h.launches⟩

/-- A step on behalf of another core leaves the scene, once the actor is back. -/
theorem State.SameScene.back {a b : Nat} (h : ({ s with ctx := a, cur := b } : State).SameScene t) :
    s.SameScene { t with ctx := s.ctx, cur := s.cur } := ⟨rfl, rfl, h.remap, h.launches⟩

theorem State.SameScene.foldl {α : Type} {f : State → α → State} (h : ∀ (s : State) (a : α), s.SameScene (f s a)) (l : List α) (s : State) :
    s.SameScene (l.foldl f s) :=
  List.foldlRecOn (motive := s.SameScene) l f (.refl s) fun t ht a _ => ht.trans (h t a)

/-! ### Memory and translation -/

theorem State.upd_scene (s : State) (f : Core → Core) : s.SameScene (s.upd f) := ⟨rfl, rfl, rfl, rfl⟩

theorem State.writeRowAt_scene (s : State) (p : Spot) (d : Row) (m : BitVec 128) : s.SameScene (s.writeRowAt p d m) := by
  unfold State.writeRowAt
  split <;> exact ⟨rfl, rfl, rfl, rfl⟩

theorem State.putPhys_scene (s : State) (a n v : Nat) : s.SameScene (s.putPhys a n v) := s.writeRowAt_scene _ _ _

theorem State.correct_scene (s : State) (p : Spot) : s.SameScene (s.correct p) := by
  unfold State.correct
  extract_lets row
  split <;> exact ⟨rfl, rfl, rfl, rfl⟩

theorem touchLeaves_scene (wr : Bool) (s : State) (l : List Nat) : s.SameScene (touchLeaves wr s l) :=
  .foldl (fun s pa => s.putPhys_scene pa 8 _) l s

theorem State.walkFill_scene (s : State) (unit ctx a : Nat) (wr : Bool) : s.SameScene (s.walkFill unit ctx a wr).1 := by
  unfold State.walkFill
  extract_lets r s1 x
  have h : s.SameScene s1 := touchLeaves_scene wr s r.leaves
  split
  · exact h.trans ⟨rfl, rfl, rfl, rfl⟩
  · exact h

theorem State.translate_scene (s : State) (unit ctx a : Nat) (wr : Bool) : s.SameScene (s.translate unit ctx a wr).1 := by
  unfold State.translate
  split
  · exact .refl s
  · exact s.walkFill_scene unit ctx a wr

/-! ### Events and the error log -/

theorem State.raise_scene (s : State) (vec : Nat) : s.SameScene (s.raise vec) := by
  unfold State.raise
  extract_lets h
  split <;> exact ⟨rfl, rfl, rfl, rfl⟩

theorem State.event_scene (s : State) (kind ctx arg vec : Nat) : s.SameScene (s.event kind ctx arg vec) := by
  unfold State.event
  extract_lets h n size ph v s1
  have h1 : s.SameScene s1 := ⟨rfl, rfl, rfl, rfl⟩
  refine State.SameScene.trans ?_ (State.raise_scene _ vec)
  split
  · exact h1
  · exact h1.trans (s1.putPhys_scene _ 16 v)

theorem State.logSlot_scene (s : State) (ctx v : Nat) : s.SameScene (s.logSlot ctx v) := by
  unfold State.logSlot
  extract_lets va x0 s1
  have h1 : s.SameScene s1 := ⟨rfl, rfl, rfl, rfl⟩
  split
  · next a _ =>
    have h2 := h1.trans (s1.translate_scene 8 ctx a true)
    generalize s1.translate 8 ctx a true = r at h2
    obtain ⟨s2, x⟩ := r
    show s.SameScene (if x.st = .resident ∧ x.w = true then s2.putPhys (framePA x.frame a) 32 v else s2)
    split
    · exact h2.trans (s2.putPhys_scene _ 32 v)
    · exact h2
  · exact h1

theorem State.logRecord_scene (s : State) (ctx kind sub detail lcore eng launch taskn : Nat) (conts : List Nat) :
    s.SameScene (s.logRecord ctx kind sub detail lcore eng launch taskn conts) :=
  ((s.logSlot_scene ctx _).trans (.foldl (fun t v => t.logSlot_scene ctx v) conts _)).trans (State.event_scene _ 3 ctx _ _)

theorem State.logMalformed_scene (s : State) (ctx lcore : Nat) (bad : Option (Nat × Nat × Nat)) :
    s.SameScene (s.logMalformed ctx lcore bad) := by
  cases bad with
  | none => exact .refl s
  | some b => exact s.logRecord_scene ctx _ _ _ _ _ _ _ _

theorem State.logPoison_scene (s : State) (r : Reader) (loc : Loc) (ecc : Bool) : s.SameScene (s.logPoison r loc ecc) := by
  unfold State.logPoison
  obtain ⟨space, addr⟩ := logAddr loc
  have h := s.logRecord_scene s.ctx 0x01 space (addr * 2 ^ 32 + r.seq % 2 ^ 32) s.cur r.eng r.launch r.task []
  show s.SameScene (if _ then _ else _)
  split
  · exact h.trans (State.upd_scene _ _)
  · exact h

/-! ### Rows -/

theorem State.resolve_scene (s : State) (ctx n : Nat) (loc : Loc) (wr : Bool) : s.SameScene (s.resolve ctx n loc wr).1 := by
  unfold State.resolve
  split
  · split
    · exact .refl s
    · exact .refl s
    · next a _ =>
      have h1 := s.translate_scene (if 256 ≤ n then 8 else dieOf n) ctx a wr
      generalize s.translate (if 256 ≤ n then 8 else dieOf n) ctx a wr = r at h1
      obtain ⟨s1, x⟩ := r
      have h2 := h1.trans (s1.logMalformed_scene ctx n x.bad)
      simp only
      split
      · split <;> exact h2
      · exact h2
      · exact h2
  · split <;> exact .refl s

theorem State.wantSeg_scene (s : State) (ctx : Nat) (loc : Loc) : s.SameScene (s.wantSeg ctx loc) := by
  cases loc <;> exact ⟨rfl, rfl, rfl, rfl⟩

theorem State.sendRemote_scene (s : State) (pkg va : Nat) (kind : RemoteKind) (op : RemoteOp) :
    s.SameScene (s.sendRemote pkg va kind op) := ⟨rfl, rfl, rfl, rfl⟩

theorem State.readTarget_scene (s : State) (r : Reader) (loc : Loc) (tg : Target) : s.SameScene (s.readTarget r loc tg).1 := by
  cases tg with
  | spot p =>
    simp only [State.readTarget]
    split
    · exact (s.correct_scene p).trans (State.logPoison_scene _ r loc true)
    · exact s.correct_scene p
  | wait => exact s.wantSeg_scene s.ctx loc
  | absent | discarded | bounds | remote => exact .refl s

theorem State.readLoc_scene (s : State) (r : Reader) (loc : Loc) : s.SameScene (s.readLoc r loc).1 :=
  (s.resolve_scene s.ctx s.cur loc false).trans (State.readTarget_scene _ r loc _)

theorem State.writeLoc_scene (s : State) (loc : Loc) (d : Row) (m : BitVec 128) : s.SameScene (s.writeLoc loc d m).1 := by
  unfold State.writeLoc
  have h := s.resolve_scene s.ctx s.cur loc true
  generalize s.resolve s.ctx s.cur loc true = r at h
  obtain ⟨s1, tg⟩ := r
  cases tg with
  | spot p => exact h.trans (s1.writeRowAt_scene p d m)
  | wait => exact h.trans (s1.wantSeg_scene s.ctx loc)
  | absent | discarded | bounds | remote => exact h

theorem State.writeRowBits_scene (s : State) (loc : Loc) (data bytes ones : Nat) :
    s.SameScene (s.writeRowBits loc data bytes ones).1 := by
  unfold State.writeRowBits
  have h := s.resolve_scene s.ctx s.cur loc true
  generalize s.resolve s.ctx s.cur loc true = r at h
  obtain ⟨s1, tg⟩ := r
  cases tg with
  | spot p =>
    refine State.SameScene.trans ?_ (State.writeRowAt_scene _ p _ _)
    split
    · exact h
    · exact h.trans (s1.correct_scene p)
  | wait => exact h.trans (s1.wantSeg_scene s.ctx loc)
  | absent | discarded | bounds | remote => exact h

end Sys2Proof.Machine
end

