-- ==== Sys2Proof/Proofs/SceneOfStops.lean ====
section
namespace Sys2Proof.Machine
open Sys2Proof.Claims

/-! ## Queued accesses leave the scene (R91) -/

theorem State.setResid_scene (s : State) (a p : Bool) : s.SameScene (s.setResid a p) := s.upd_scene _

theorem State.finishLoad_scene (s : State) (d : Reg) (v : Word) (a p : Bool) : s.SameScene (s.finishLoad d v a p) :=
  (s.upd_scene _).trans (State.setResid_scene _ a p)

theorem State.loadResult_scene (s : State) (d : Reg) (wide : Bool) (el : Nat) (r : RowRead) :
    s.SameScene (s.loadResult d wide el r) := by
  cases r with
  | wait | remote => exact .refl s
  | ok | absent | bounds | discarded | poisoned => exact s.finishLoad_scene d _ _ _

theorem State.popStoreToken_scene (s : State) (j : Nat) : s.SameScene (s.popStoreToken j) := by
  unfold State.popStoreToken
  split
  · exact s.upd_scene _
  · exact .refl s

theorem State.popToken_scene (s : State) : s.SameScene s.popToken := by
  have hone : ∀ (i : Nat) (lq : List LsEntry),
      s.SameScene (if i / 8 % 4 = 0 then s else s.upd (fun c => { c with lq := lq })) := fun i lq => by
    split
    · exact .refl s
    · exact s.upd_scene _
  unfold State.popToken
  split
  · next a lq b sq _ _ =>
    split
    · next i j _ _ =>
      split
      · split
        · exact s.upd_scene _
        · exact s.popStoreToken_scene j
      · exact s.upd_scene _
    · exact hone _ _
    · exact s.popStoreToken_scene _
    · exact .refl s
  · split
    · exact hone _ _
    · exact .refl s
  · split
    · exact s.popStoreToken_scene _
    · exact .refl s
  · exact .refl s

theorem State.performLoad_scene (s : State) : s.SameScene s.performLoad := by
  unfold State.performLoad
  split
  · exact .refl s
  · next x _ _ =>
    split
    · next d wide el _ =>
      extract_lets loc tg
      clear_value loc tg
      split
      · exact .refl s
      · split
        · split
          · exact .refl s
          · exact (s.upd_scene _).trans (State.sendRemote_scene _ _ _ _ _)
        · exact (s.readTarget_scene s.controlReader loc tg).trans (State.loadResult_scene _ d wide el _)
    · exact s.popToken_scene

theorem State.performStore_scene (s : State) : s.SameScene s.performStore := by
  have hpop : ∀ a : Bool, s.SameScene ((s.upd (fun c => { c with sq := c.sq.drop 1 })).setResid a false) := fun a =>
    (s.upd_scene _).trans (State.setResid_scene _ a false)
  unfold State.performStore
  split
  · exact .refl s
  · next x _ _ =>
    split
    · exact s.popToken_scene
    · exact .refl s
    · extract_lets pop loc tg
      clear_value loc tg
      split
      · next data mask _ =>
        split
        · exact .refl s
        · split
          · exact s.wantSeg_scene s.ctx loc
          · exact hpop true
          · exact hpop true
          · exact hpop true
          · split
            · exact (s.upd_scene _).trans (State.sendRemote_scene _ _ _ _ _)
            · exact hpop true
          · split
            · exact (s.upd_scene _).trans (State.writeRowAt_scene _ _ data mask)
            · exact hpop true

theorem State.drain_scene (k : Nat) (s : State) : s.SameScene (s.drain k) := by
  induction k generalizing s with
  | zero => exact .refl s
  | succ k ih => exact (s.performLoad_scene.trans (State.performStore_scene _)).trans (ih _)

theorem State.drainQueues_scene (s : State) : s.SameScene s.drainQueues := State.drain_scene _ s

/-! ## Engines that stop leave the scene (R203) -/

theorem State.setAct_scene (s : State) (a : Active) : s.SameScene (s.setAct a) := ⟨rfl, rfl, rfl, rfl⟩

theorem State.keepPart_scene (s : State) (p : RepPart) : s.SameScene (s.keepPart p) := s.setAct_scene _

theorem State.partWrite_scene (s : State) (p : RepPart) :
    match s.partWrite p with
    | .more (.next u) => s.SameScene u
    | .more _ => True
    | .all u _ => s.SameScene u := by
  unfold State.partWrite
  cases hp : p.put with
  | nil => exact .refl s
  | cons w rest =>
    obtain ⟨l, d, m⟩ := w
    simp only
    by_cases hm : (s.rowsMoving [l] || (s.eng == .v && s.loadPending [l])) = true
    · rw [if_pos hm]
      exact ((s.wantSeg_scene s.ctx l).trans (State.keepPart_scene _ p)).trans (State.setAct_scene _ _)
    · rw [if_neg hm]
      have h := s.writeLoc_scene l d m
      by_cases hr : rest.isEmpty = true
      · rw [if_pos hr]
        exact h
      · rw [if_neg hr]
        exact h.trans (State.keepPart_scene _ _)

theorem State.putRows_scene (k : Nat) (s : State) : s.SameScene (s.putRows k) := by
  induction k generalizing s with
  | zero => exact .refl s
  | succ k ih =>
    unfold State.putRows
    split
    · exact .refl s
    · next p _ =>
      have h := s.partWrite_scene p
      split
      · next u hu =>
        rw [hu] at h
        exact State.SameScene.trans h (ih u)
      · exact .refl s
      · next u q hu =>
        rw [hu] at h
        exact State.SameScene.trans h (u.keepPart_scene q)

theorem State.stopPart_scene (s : State) (e : Eng) : s.SameScene (s.stopPart e) := by
  unfold State.stopPart
  extract_lets t a u
  have ht : s.SameScene t := ⟨rfl, rfl, rfl, rfl⟩
  have hu : s.SameScene u := by
    refine ht.trans ?_
    show t.SameScene (match t.q.act.bind (fun a => a.part) with | none => t | some p => _)
    split
    · exact .refl t
    · split
      · split
        · exact .refl t
        · exact t.setAct_scene _
      · exact State.putRows_scene _ t
  exact hu.trans ⟨rfl, rfl, rfl, rfl⟩

theorem State.finish_scene (s : State) (x : CopyCmd) (gs : List Nat) (st : BitVec 8) (ids : List Nat) :
    s.SameScene (s.finish x gs st ids) := s.upd_scene _

theorem State.farRow_scene (s : State) (r : Reader) (tag : Tag) (pkg : Nat) (loc : Loc) (va : Nat) :
    s.SameScene (s.farRow r tag pkg loc va).1 := by
  unfold State.farRow
  split
  · exact s.logPoison_scene r loc true
  · exact .refl s
  · split
    · exact .refl s
    · exact s.sendRemote_scene _ _ _ _

theorem engRow_scene (r : Reader) (tag : Tag) (s : State) (loc : Loc) : s.SameScene (engRow r tag s loc).1 := by
  unfold engRow
  have h := s.readLoc_scene r loc
  split
  · next s1 g a hr =>
    rw [hr] at h
    exact h.trans (s1.farRow_scene r tag g _ a)
  · exact h

/-- The state in which the writing of a place ends. -/
def PlaceEnd.state : PlaceEnd → State
  | .done s _ _ => s
  | .wait s => s

theorem State.writePlace_scene (s : State) (r : Reader) (x : CopyCmd) (l : Loc) (row : Nat × Nat × Nat) :
    s.SameScene (s.writePlace r x l row).state := by
  obtain ⟨data, bytes, ones⟩ := row
  unfold State.writePlace
  have h := s.writeRowBits_scene l data bytes ones
  dsimp only
  generalize s.writeRowBits l data bytes ones = w at h
  obtain ⟨s1, e⟩ := w
  cases e with
  | ok => exact h.trans (s1.upd_scene fun c => c.markWritten x.word (s.normLoc l))
  | absent | discarded | wait | bounds => exact h
  | remote g =>
    dsimp only
    split
    · exact State.SameScene.trans h (s1.sendRemote_scene _ _ _ _)
    · have hr := engRow_scene r x.tag s l
      split
      · next s2 he =>
        rw [he] at hr
        exact hr
      · next s2 y _ he =>
        rw [he] at hr
        exact State.SameScene.trans hr (s2.sendRemote_scene _ _ _ _)

theorem State.writePend_scene (s : State) (r : Reader) (x : CopyCmd) (p : CopyPend) (i : Nat) :
    s.SameScene (s.writePend r x p i) := by
  unfold State.writePend
  extract_lets j
  split
  · exact s.finish_scene x _ _ _
  · next row _ =>
    have h := s.writePlace_scene r x row.1 row.2
    split
    · next t ht =>
      rw [ht] at h
      exact h
    · next t st ids ht =>
      rw [ht] at h
      extract_lets q
      split
      · exact State.SameScene.trans h (t.finish_scene x _ _ _)
      · exact State.SameScene.trans h (t.upd_scene _)

theorem State.settlePend_scene (k : Nat) (s : State) (tag : Tag) : s.SameScene (s.settlePend k tag) := by
  induction k generalizing s with
  | zero => exact .refl s
  | succ k ih =>
    unfold State.settlePend
    split
    · exact .refl s
    · split
      · exact .refl s
      · exact (s.writePend_scene _ _ _ 0).trans (ih _)

theorem State.stopCopies_scene (s : State) : s.SameScene s.stopCopies := by
  unfold State.stopCopies
  extract_lets t u
  have ht : s.SameScene t := ⟨rfl, rfl, rfl, rfl⟩
  have hu : t.SameScene u := .foldl (fun v x => v.settlePend_scene _ (CopyCmd.tag x)) _ t
  have h := ht.trans hu
  exact ⟨h.ctx, h.cur, h.remap, h.launches⟩

theorem State.stopEngines_scene (s : State) : s.SameScene s.stopEngines :=
  ((s.stopPart_scene .v).trans (State.stopPart_scene _ .m)).trans (State.stopCopies_scene _)

/-! ## Waits that are left leave the scene (R204) -/

theorem State.leaveWait_scene (s : State) : s.SameScene s.leaveWait := by
  unfold State.leaveWait
  split <;> exact s.upd_scene _

theorem State.leaveStop_scene (s : State) : s.SameScene s.leaveStop := by
  unfold State.leaveStop
  split
  · next id _ =>
    split
    · refine State.SameScene.trans ?_ (State.upd_scene _ _)
      unfold State.leaveClaim
      split <;> exact ⟨rfl, rfl, rfl, rfl⟩
    · exact s.leaveWait_scene
  · exact .refl s
  · exact s.leaveWait_scene

/-! ## The stop of a core (R203) -/

/-- A core that stops keeps the cause; its lease is released; the scene stays (R203, R210, R215). -/
theorem State.stopCore_spec (s : State) (ctx n : Nat) (cause : BitVec 8) :
    ((s.stopCore ctx n cause).coreAt ctx n).lastCause = cause
      ∧ ((s.stopCore ctx n cause).quad (s.physQuad (quadOf n))).holder ≠ some (n % 4)
      ∧ (s.stopCore ctx n cause).remap = s.remap := by
  unfold State.stopCore
  extract_lets u again v e
  obtain ⟨w, hw⟩ : ∃ w, w = u.drainQueues.stopEngines.leaveStop := ⟨_, rfl⟩
  have hstop : u.SameScene w := by
    rw [hw]
    exact (u.drainQueues_scene.trans (State.stopEngines_scene _)).trans (State.leaveStop_scene _)
  have hvw : v = w.upd (fun c => { c with lastCause := cause, again := again }) := by rw [hw]
  have hloans : v.LoansOnly e := v.endShares_loansOnly ctx n
  have hholder : (e.quad (v.physQuad (quadOf n))).holder ≠ some (n % 4) := v.endShares_holder ctx n
  clear_value e v
  have hv : u.SameScene v := by
    rw [hvw]
    exact hstop.trans (w.upd_scene _)
  have hcause : v.core.lastCause = cause := by rw [hvw, State.core_upd]
  have hself : v.coreAt ctx n = v.core := by rw [State.core, hv.ctx, hv.cur]
  have hat := hloans.cores ctx n
  rw [hself] at hat
  refine ⟨?_, ?_, ?_⟩
  · show (e.coreAt ctx n).lastCause = cause
    rw [hat]
    exact hcause
  · have hq : s.physQuad (quadOf n) = v.physQuad (quadOf n) := by
      unfold State.physQuad State.physOf State.remapEntry
      rw [hv.remap]
    rw [hq]
    exact hholder
  · exact (show e.remap = v.remap by rw [hloans.frame]).trans hv.remap

end Sys2Proof.Machine
end

