-- ==== Sys2Proof/Proofs/Slices.lean ====
section
namespace Sys2Proof.Machine
open Sys2Proof.Claims

/-! ## Contexts -/

theorem State.context_setContext (s : State) (c : Nat) (x : Ctx) (d : Nat) :
    (s.setContext c x).context d = if d = c then x else s.context d := SMap.get_set _ _ _ _ _

@[simp] theorem State.physCore_setContext (s : State) (c : Nat) (x : Ctx) (p : Nat) :
    (s.setContext c x).physCore p = s.physCore p := rfl

/-! ## Handing over (R203) -/

/-- State t is state s but for the stop of a core at a boundary, physical core p's duty and the slices of contexts. -/
structure State.HandedOver (p : Nat) (s t : State) : Prop where
  data : KeepsData s t
  remap : t.remap = s.remap
  other : ∀ q, q ≠ p → t.physCore q = s.physCore q

theorem State.physOf_congr {s t : State} (h : t.remap = s.remap) (n : Nat) : t.physOf n = s.physOf n := by
  unfold State.physOf State.remapEntry
  rw [h]

/-- A victim that its physical core serves and that stands at a boundary gives the core to a newcomer. -/
theorem State.handOver_boundary {s : State} {ctx n p c : Nat} (hp : s.physOf n = some p)
    (hs : (s.physCore p).serving = some (ctx, n)) (h : AtBoundary (s.coreAt ctx n)) :
    s.HandedOver p (s.handOver ctx n c) ∧ ((s.handOver ctx n c).physCore p).serving = some (c, n)
      ∧ ((s.handOver ctx n c).coreAt ctx n).lastCause = 0 := by
  have ht := s.stopCore_paused ctx n 0 h
  have hc := (s.stopCore_spec ctx n 0).1
  unfold State.handOver
  rw [hp]
  simp only [hs, if_true]
  generalize s.stopCore ctx n 0 = t at ht hc
  have hdata := ht.keepsData
  have hrem : t.remap = s.remap := by rw [ht.frame]
  have hphys : ∀ q, t.physCore q = s.physCore q := fun q => by
    show SMap.get {} t.phys q = _
    rw [ht.frame]
    rfl
  refine ⟨⟨hdata, hrem, fun q hq => ?_⟩, ?_, hc⟩ <;> rw [State.physCore_setContext, State.physCore_setPhys]
  · rw [if_neg hq, hphys]
  · rw [if_pos rfl]

/-- Physical cores that serve nothing take work: no register, no byte and no core that serves changes (R203). -/
theorem State.serveFree_spec (s : State) (ctx : Nat) :
    (s.serveFree ctx) = { s with phys := (s.serveFree ctx).phys }
      ∧ ∀ p, (s.physCore p).serving ≠ none → (s.serveFree ctx).physCore p = s.physCore p := by
  refine List.foldlRecOn (motive := fun t : State => t = { s with phys := t.phys }
    ∧ ∀ p, (s.physCore p).serving ≠ none → t.physCore p = s.physCore p) _ _ ⟨rfl, fun _ _ => rfl⟩ ?_
  rintro t ⟨hf, ht⟩ n -
  split
  · next q _ =>
    split
    · next hq =>
      refine ⟨?_, fun p hp => ?_⟩
      · rw [hf]
        rfl
      · rw [State.physCore_setPhys, if_neg, ht p hp]
        rintro rfl
        exact hp (by rw [← ht p hp]; exact hq.1)
    · exact ⟨hf, ht⟩
  · exact ⟨hf, ht⟩

/-- The cores of a fold of which only number n does anything. -/
theorem foldl_range_only {α : Type} (f : α → Nat → α) {N n : Nat} (hn : n < N) (a : α) (hb : ∀ m, m < n → f a m = a)
    (ha : ∀ m, n < m → m < N → f (f a n) m = f a n) : (List.range N).foldl f a = f a n := by
  have hstay : ∀ (l : List Nat) (x : α), (∀ m ∈ l, f x m = x) → l.foldl f x = x := by
    intro l
    induction l with
    | nil => exact fun _ _ => rfl
    | cons m l ih =>
      intro x h
      rw [List.foldl_cons, h m List.mem_cons_self]
      exact ih x fun k hk => h k (List.mem_cons_of_mem _ hk)
  rw [range_cut hn, List.foldl_append, hstay _ a fun m hm => hb m (List.mem_range.mp hm), List.foldl_cons]
  refine hstay _ _ fun m hm => ?_
  obtain ⟨k, hk, rfl⟩ := List.mem_map.mp hm
  have := List.mem_range.mp hk
  exact ha _ (by omega) (by omega)

/-- A newcomer is another context than the victim. -/
theorem State.newcomer_ne {s : State} {ctx n c : Nat} (h : s.newcomer ctx n = some c) : c ≠ ctx := by
  have hr : ∀ d ∈ s.rivals ctx n, d ≠ ctx := fun d hd => by
    have hc := (List.mem_filter.mp hd).2
    simp only [Bool.and_eq_true, bne_iff_ne] at hc
    exact hc.1
  unfold State.newcomer at h
  split at h
  · exact nomatch h
  · extract_lets own idle atEnd ended at h
    refine List.foldlRecOn (motive := fun o : Option Nat => ∀ d, o = some d → d ≠ ctx) _ _ ?_ ?_ c h
    · rintro d ⟨⟩
    · intro o ho d hd e he
      have hd' := hr d (List.mem_filter.mp hd).1
      cases o with
      | none => exact (Option.some.inj he) ▸ hd'
      | some b =>
        simp only at he
        split at he
        · exact (Option.some.inj he) ▸ hd'
        · exact ho e he

end Sys2Proof.Machine

namespace Sys2Proof.Claims
open Sys2Proof.Machine

/-- The end of a context's slice asks for a pre-emption (R299). -/
theorem qslice_asks {s : State} {ctx n c : Nat} (hn : n < 256) (hc : s.nearCtx n = some ctx) (hr : c ∈ s.rivals ctx n)
    (hl : s.ctxLevel c = s.ctxLevel ctx) (hrun : (s.context ctx).running = true) (hs : (s.context ctx).stopReq = none)
    (ht : (s.context ctx).sliceAt + 1000 * s.setting 0x822 ≤ s.time) :
    ∃ t, exec (.qslice ctx) s = .next t ∧ t = { s with ctxs := t.ctxs }
      ∧ (∀ d, t.context d = if d = ctx then { s.context ctx with stopReq := some 0 } else s.context d) := by
  have hrival : (List.range 256).any (fun n => s.nearCtx n == some ctx
      && (s.rivals ctx n).any (fun c => s.ctxLevel c == s.ctxLevel ctx)) = true :=
    List.any_eq_true.mpr ⟨n, List.mem_range.mpr hn, by
      rw [hc, beq_self_eq_true, Bool.true_and]
      exact List.any_eq_true.mpr ⟨c, hr, beq_iff_eq.mpr hl⟩⟩
  refine ⟨s.setContext ctx { s.context ctx with stopReq := some 0 }, ?_, rfl, s.context_setContext ctx _⟩
  show execQslice ctx s = _
  simp only [execQslice, hrival, hrun, hs, decide_eq_true ht, Option.isNone_none, Bool.and_self, if_true]

/-- The end of a slice of a physical core of O45: the other logical core takes it (R19, R203, R210). -/
theorem coreslice_switches {s : State} {ctx n k p : Nat} (hn : n < 256) (hs : s.servedCtx n = some ctx)
    (hp : s.physOf n = some p) (hk : s.partner n = some k) (ht : (s.physCore p).sliceAt + 1000 * s.setting 0x821 ≤ s.time)
    (hr : (s.coreAt ctx k).runnable = true) (hd : (s.coreAt ctx n).waiting ≠ some .device) :
    ∃ t, exec (.coreslice n) s = .next t ∧ (t.physCore p).serving = some (ctx, k) ∧ (t.physCore p).sliceAt = t.time
      ∧ (t.quad (s.physQuad (quadOf n))).holder ≠ some (n % 4) ∧ (t.coreAt ctx n).lastCause = 1
      ∧ (AtBoundary (s.coreAt ctx n) → KeepsData s t ∧ t.time = s.time ∧ (∀ q, q ≠ p → t.physCore q = s.physCore q)
        ∧ ((∀ id, (s.coreAt ctx n).waiting ≠ some (.grant id)) → (t.coreAt ctx n).pc = (s.coreAt ctx n).pc)) := by
  have hexec : exec (.coreslice n) s = .next (s.switchTo ctx n k) := by
    show execCoreslice n s = _
    unfold execCoreslice
    rw [hs, hp, hk]
    exact if_pos ⟨hn, ht, hr, hd⟩
  have hdata : AtBoundary (s.coreAt ctx n) → _ := s.switchTo_boundary (ctx := ctx) (k := k) hp
  obtain ⟨hcause, hholder, -⟩ := s.stopCore_spec ctx n 1
  obtain ⟨u, hu, hsu⟩ : ∃ u, u = s.stopCore ctx n 1
      ∧ s.switchTo ctx n k = u.setPhys p { u.physCore p with serving := some (ctx, k), sliceAt := u.time } := by
    refine ⟨_, rfl, ?_⟩
    unfold State.switchTo
    rw [hp]
  rw [← hu] at hcause hholder
  refine ⟨_, hexec, ?_, ?_, ?_, ?_, fun hb => ?_⟩
  · rw [hsu, State.physCore_setPhys, if_pos rfl]
  · rw [hsu, State.physCore_setPhys, if_pos rfl]
    rfl
  · rw [hsu]
    exact hholder
  · rw [hsu]
    exact hcause
  · obtain ⟨-, hkeep, htime, hother, hpc, -, -⟩ := hdata hb
    exact ⟨hkeep, htime, hother, hpc⟩

/-- The pre-emption of O45: of the victim's cores only n stands near, and it goes over (R203). -/
theorem preemption_hands {s : State} {ctx n c p : Nat} (hn : n < 256) (hnear : s.nearCtx n = some ctx)
    (honly : ∀ m, m < 256 → s.nearCtx m = some ctx → m = n) (hp : s.physOf n = some p) (hnew : s.newcomer ctx n = some c)
    (hb : AtBoundary (s.coreAt ctx n)) (hserved : s.servedCtx n = some ctx) :
    ∃ t, exec (.preemption ctx) s = .next t ∧ KeepsData s t ∧ (t.physCore p).serving = some (c, n)
      ∧ (t.coreAt ctx n).lastCause = 0 ∧ (s.midPacket ctx = false → (t.context ctx).stopReq = none) := by
  have hserv : (s.physCore p).serving = some (ctx, n) := by
    unfold State.servedCtx at hserved
    rw [if_neg (by omega), hp] at hserved
    simp only at hserved
    split at hserved
    · next d k hd =>
      split at hserved
      · next hk => rw [hd, hk, Option.some.inj hserved]
      · exact nomatch hserved
    · exact nomatch hserved
  obtain ⟨⟨hdata, hrem, hother⟩, hserv', hcause⟩ := State.handOver_boundary (c := c) hp hserv hb
  obtain ⟨step, hstep⟩ : ∃ step : State → Nat → State, step = fun t n => if t.nearCtx n = some ctx then
      (match t.newcomer ctx n with
       | some c => t.handOver ctx n c
       | none => t) else t := ⟨_, rfl⟩
  have hfirst : step s n = s.handOver ctx n c := by
    rw [hstep]
    simp only [hnear, hnew, if_true]
  generalize s.handOver ctx n c = u at *
  have hfold : (List.range 256).foldl step s = u := by
    rw [← hfirst]
    refine foldl_range_only step hn s (fun m hm => ?_) (fun m hm hm' => ?_)
    · rw [hstep]
      exact if_neg fun h => by have := honly m (by omega) h; omega
    · rw [hfirst, hstep]
      refine if_neg fun h => ?_
      unfold State.nearCtx at h
      rw [State.physOf_congr hrem] at h
      cases hq : s.physOf m with
      | none =>
        rw [hq] at h
        exact nomatch h
      | some q =>
        rw [hq, Option.bind_some] at h
        by_cases hqp : q = p
        · rw [hqp, hserv'] at h
          exact s.newcomer_ne hnew (Option.some.inj h)
        · rw [hother q hqp] at h
          have := honly m hm' (by unfold State.nearCtx; rw [hq]; exact h)
          omega
  obtain ⟨hfree, hkept⟩ := u.serveFree_spec ctx
  obtain ⟨w, hw⟩ : ∃ w, w = u.serveFree ctx := ⟨_, rfl⟩
  rw [← hw] at hfree hkept
  have hexec : exec (.preemption ctx) s =
      .next (if s.midPacket ctx then w else w.setContext ctx { w.context ctx with stopReq := none }) := by
    rw [hw, ← hfold, hstep]
    rfl
  have hpw : (w.physCore p).serving = some (c, n) := by
    rw [hkept p (by rw [hserv']; exact nofun)]
    exact hserv'
  have hdw : KeepsData s w := by
    rw [hfree]
    exact hdata
  have hcw : (w.coreAt ctx n).lastCause = 0 := by
    rw [hfree]
    exact hcause
  cases hmid : s.midPacket ctx with
  | true =>
    rw [hmid] at hexec
    exact ⟨w, hexec, hdw, hpw, hcw, nofun⟩
  | false =>
    rw [hmid] at hexec
    exact ⟨_, hexec, hdw, hpw, hcw, fun _ => congrArg Ctx.stopReq ((w.context_setContext ctx _ ctx).trans (if_pos rfl))⟩

/-- Settles O45: the slices by the stop of a core, `State.stopCore_spec` and `State.stopCore_paused`; the banks by
`State.spill_spec`; the segments by what a map reads when it is cut and merged. -/
theorem sharing : Obligations.Sharing := by
  intro s ctx n c k p b g x j
  refine ⟨qslice_asks, coreslice_switches, preemption_hands, bankClaim_moves, forcedSpill_saves, fun hk => ⟨fun hg he => ?_,
    segmentSave_saves hk, segmentRestore_restores hk⟩⟩
  show execSegmentSave k s = _
  simp only [execSegmentSave, hk, hg, he, if_true]

end Sys2Proof.Claims
end

