-- ==== Sys2Proof/Proofs/Launching.lean ====
section
namespace Sys2Proof.Machine
open Sys2Proof.Claims

/-! ## Device-built launches (R267) -/

/-- A launch that is added takes the context's next number; only contexts, packet queues and the list of launches change. -/
theorem State.addLaunch_eq (s : State) (x : Launch) :
    s.addLaunch x = { s with
      ctxs := (s.setContext x.ctx { s.context x.ctx with nextLaunch := (s.context x.ctx).nextLaunch + 1 }).ctxs,
      pqueues := (s.addLaunch x).pqueues,
      launches := s.launches ++
        [{ x with number := (s.context x.ctx).nextLaunch, quota := qdQuota (s.queueDesc x.queue) }] } := by
  simp only [State.addLaunch]
  split <;> rfl

/-! ## Admission (R296) -/

/-- The shadow banks of the span hold the launch (R296). -/
theorem State.fillShadows_spec (s : State) (l : Nat) (x : Launch) :
    (∃ cs, s.fillShadows l x = { s with cores := cs })
      ∧ ∀ n, n < 256 → x.spans n = true → ((s.fillShadows l x).coreAt x.ctx n).shadow = some l := by
  unfold State.fillShadows
  obtain ⟨step, hstep⟩ : ∃ step : State → Nat → State, step = fun t m =>
      if x.spans m then t.setCoreAt x.ctx m { t.coreAt x.ctx m with shadow := some l } else t := ⟨_, rfl⟩
  have hkeep : ∀ (t : State) (m n : Nat), (t.coreAt x.ctx n).shadow = some l → ((step t m).coreAt x.ctx n).shadow = some l := by
    intro t m n h
    rw [hstep]
    simp only
    split
    · rw [State.coreAt_setCoreAt]
      split
      · rfl
      · exact h
    · exact h
  have hset : ∀ (t : State) (n : Nat), x.spans n = true → ((step t n).coreAt x.ctx n).shadow = some l := by
    intro t n h
    rw [hstep]
    simp only [h, if_true]
    rw [State.coreAt_setCoreAt, if_pos rfl]
  have hfold : ∀ (ms : List Nat) (t : State) (n : Nat), x.spans n = true → (n ∈ ms ∨ (t.coreAt x.ctx n).shadow = some l) →
      ((ms.foldl step t).coreAt x.ctx n).shadow = some l := by
    intro ms
    induction ms with
    | nil => exact fun t n _ h => h.resolve_left List.not_mem_nil
    | cons m ms ih =>
      intro t n hn h
      refine ih (step t m) n hn ?_
      rcases h with h | h
      · rcases List.mem_cons.mp h with rfl | h
        · exact .inr (hset t n hn)
        · exact .inl h
      · exact .inr (hkeep t m n h)
  rw [← hstep]
  refine ⟨?_, fun n hn h => hfold _ s n h (.inl (List.mem_range.mpr hn))⟩
  refine List.foldlRecOn (motive := fun t : State => ∃ cs, t = { s with cores := cs }) _ _ ⟨_, rfl⟩ ?_
  rintro _ ⟨cs, rfl⟩ m -
  rw [hstep]
  simp only
  split <;> exact ⟨_, rfl⟩

/-- The turn of a queue is noted in the queue only (R299). -/
theorem State.rotate_eq (s : State) (q : Nat) : s.rotate q = { s with pqueues := (s.rotate q).pqueues } := rfl

/-! ## Launch start (R12, R294) -/

/-- Preloads go into the two tables only (R294). -/
theorem Core.loadPreloads_eq (c : Core) (l : List (Nat × Bool × Option Nat × BitVec 512)) :
    ∃ t w, c.loadPreloads l = { c with t := t, w := w } := by
  refine List.foldlRecOn (motive := fun d : Core => ∃ t w, d = { c with t := t, w := w }) _ _ ⟨_, _, rfl⟩ ?_
  rintro _ ⟨t, w, rfl⟩ p -
  simp only
  split <;> exact ⟨_, _, rfl⟩

/-- A core's state at launch start (R12, R294). -/
theorem Core.atLaunch_spec (c0 : Core) (now l : Nat) (w : Launch) :
    let c := (c0.atLaunch now l w).loadPreloads w.preloads
    c.launch = some l ∧ c.shadow = none ∧ c.task = none ∧ c.pc = 0 ∧ c.interlock = false ∧ c.inh = false
      ∧ c.xhand = BitVec.ofNat 64 (orHand w.oprec) ∧ c.schk = false ∧ c.lrun = 16 ∧ c.seed = 0 ∧ c.resid = 0
      ∧ (∀ r : Reg, c.rd r = 0) ∧ (∀ h : HReg, (c.handle h.toNat).valid = false) ∧ (∀ f : Ix6, c.flag f.toNat = 0)
      ∧ c.chan = [] ∧ c.rig = [] ∧ c.v = [] ∧ c.m = [] ∧ c.acc = [] ∧ (∀ q ∈ c.pendV, now < q.land)
      ∧ (∀ q ∈ c.pendM, now < q.land) ∧ c.held = [] ∧ (w.preloads = [] → c.t = [] ∧ c.w = []) := by
  intro c
  obtain ⟨t, v, h⟩ := (c0.atLaunch now l w).loadPreloads_eq w.preloads
  have hempty : w.preloads = [] → c = c0.atLaunch now l w := fun hp => by
    show (c0.atLaunch now l w).loadPreloads w.preloads = _
    rw [hp]
    rfl
  have hc : c = { c0.atLaunch now l w with t := t, w := v } := h
  clear_value c
  refine ⟨?_, ?_, ?_, ?_, ?_, ?_, ?_, ?_, ?_, ?_, ?_, fun r => ?_, fun k => ?_, fun f => ?_, ?_, ?_, ?_, ?_, ?_, fun q hq => ?_,
    fun q hq => ?_, ?_, fun hp => ?_⟩
  case refine_23 => exact hempty hp ▸ ⟨rfl, rfl⟩
  all_goals subst hc
  case refine_12 => exact ite_self _
  case refine_13 =>
    show (if k.toNat = 0 then ({} : Handle) else {}).valid = false
    rw [ite_self]
  case refine_14 => exact ite_self _
  case refine_20 => exact of_decide_eq_true (List.mem_filter.mp hq).2
  case refine_21 => exact of_decide_eq_true (List.mem_filter.mp hq).2
  all_goals rfl

end Sys2Proof.Machine

namespace Sys2Proof.Claims
open Sys2Proof.Machine

/-- `dlaunch` (R267). -/
theorem dlaunch_numbers {s : State} {d a : Reg} (hb : s.deviceBuilt s.ctx < 16) (hs : s.storesDone 3 = true) :
    ∃ t z, exec (.dlaunch d a) s = .next t ∧ t.launches = s.launches ++ [z] ∧ z.number = (s.context s.ctx).nextLaunch
      ∧ z.addr = s.core.rd a ∧ z.parent = some (s.core.launch.getD 0) ∧ z.read = false ∧ z.admitted = false
      ∧ (t.context s.ctx).nextLaunch = (s.context s.ctx).nextLaunch + 1
      ∧ t.core = regSet s.core d (BitVec.ofNat 64 (s.context s.ctx).nextLaunch) 4 ∧ SameBytes s t := by
  obtain ⟨g, hg⟩ := s.noteLive_eq
  obtain ⟨qr, hqr⟩ : ∃ qr : Nat × Nat, qr = (match s.core.launch.bind s.launchAt with
      | some y => (y.queue, y.root)
      | none => (0, 0)) := ⟨_, rfl⟩
  obtain ⟨x, hx⟩ : ∃ x : Launch, x =
    { number := (s.context s.ctx).nextLaunch, ctx := s.ctx, queue := qr.1, oprec := 0, crec := 0,
      t := 0, parent := some (s.core.launch.getD 0), root := qr.2, addr := s.core.rd a } := ⟨_, rfl⟩
  obtain ⟨u, hu⟩ : ∃ u, u = ({ s with graphs := g } : State).addLaunch x := ⟨_, rfl⟩
  have hexec : exec (.dlaunch d a) s = u.writeReg d (BitVec.ofNat 64 (s.context s.ctx).nextLaunch) 4 := by
    show execDlaunch d a s = _
    unfold execDlaunch
    rw [if_neg (by omega), if_neg (by rw [hs]; exact Bool.false_ne_true), hg, hu, hx, hqr]
    rfl
  have hframe := State.addLaunch_eq { s with graphs := g } x
  rw [← hu] at hframe
  have hxc : x.ctx = s.ctx := by rw [hx]
  have hlaunch : u.launches = s.launches ++
      [{ x with number := (s.context x.ctx).nextLaunch, quota := qdQuota (s.queueDesc x.queue) }] := by
    rw [hframe]
    rfl
  have hctx : (u.context s.ctx).nextLaunch = (s.context s.ctx).nextLaunch + 1 := by
    rw [hframe]
    show ((State.setContext _ x.ctx _).context s.ctx).nextLaunch = _
    rw [State.context_setContext, hxc, if_pos rfl]
    rfl
  have hcore : u.core = s.core := by rw [hframe]; rfl
  refine ⟨_, _, hexec, hlaunch, by rw [hxc], by rw [hx], by rw [hx], by rw [hx], by rw [hx], hctx, ?_, ?_⟩
  · rw [State.core_upd, hcore]
    rfl
  · rw [hframe]
    exact .of_eq rfl rfl rfl

/-- LAUNCH_ADMIT reads the record first (R267). -/
theorem launchAdmit_reads {s s1 : State} {l v : Nat} {x : Launch} (hx : s.launchAt l = some x) (hr : x.read = false)
    (h1 : (s1.launchAt l).isSome = true) (hread : s.feRead x.ctx (x.addr.toNat / 256 * 256) 256 = (s1, .ok v)) :
    ∃ t z, exec (.launchAdmit l) s = .next t ∧ t.launchAt l = some z ∧ z.read = true ∧ z.oprec = BitVec.ofNat 2048 v
      ∧ SameBytes s1 t := by
  obtain ⟨y, hy⟩ := Option.isSome_iff_exists.mp h1
  have hexec : exec (.launchAdmit l) s = .next (s.readRecord l x) := by
    show execLaunchAdmit l s = _
    simp only [execLaunchAdmit, hx, hr, Bool.not_false, if_true]
  unfold State.readRecord at hexec
  rw [hread] at hexec
  simp only at hexec
  refine ⟨_, _, hexec, (State.launchAt_updLaunch hy _ l).trans (if_pos rfl), rfl, rfl, ?_⟩
  rw [State.updLaunch_eq]
  exact .of_eq rfl rfl rfl

/-- LAUNCH_ADMIT completes an invalid launch with BADOPREC (R295). -/
theorem launchAdmit_refuses {s s1 : State} {l : Nat} {x : Launch} (hx : s.launchAt l = some x) (hr : x.read = true)
    (ha : s.admissible x = true) (ho : s.outranked x = false) (h1 : (s1.launchAt l).isSome = true)
    (hv : s.validate x = (s1, none)) :
    ∃ t z, exec (.launchAdmit l) s = .next t ∧ t.launchAt l = some z ∧ z.error = some 2 ∧ z.admitted = true := by
  obtain ⟨y, hy⟩ := Option.isSome_iff_exists.mp h1
  have hexec : exec (.launchAdmit l) s = .next ((s1.badLaunch l).rotate x.queue) := by
    show execLaunchAdmit l s = _
    simp only [execLaunchAdmit, hx, hr, ha, ho, hv, Bool.not_true, Bool.or_self, Bool.false_eq_true, if_false]
  exact ⟨_, _, hexec, (State.launchAt_updLaunch hy _ l).trans (if_pos rfl), rfl, rfl⟩

/-- LAUNCH_ADMIT gives a valid launch to the shadow banks of its span (R296). -/
theorem launchAdmit_admits {s s1 s2 : State} {l n : Nat} {x y : Launch} (hx : s.launchAt l = some x) (hr : x.read = true)
    (ha : s.admissible x = true) (ho : s.outranked x = false) (hv : s.validate x = (s1, some y))
    (hg : s1.growAll y y.quads = some s2) (h2 : (s2.launchAt l).isSome = true) (hs : y.spans n = true) (hn : n < 256) :
    ∃ t z, exec (.launchAdmit l) s = .next t ∧ t.launchAt l = some z ∧ z.admitted = true ∧ z.oprec = y.oprec
      ∧ (t.coreAt y.ctx n).shadow = some l := by
  obtain ⟨k, hexec⟩ : ∃ k : Nat, exec (.launchAdmit l) s = .next (((s2.setLaunch l { y with
      admitted := true, raised := (s.pqueue x.queue).raised, pfd := k }).fillShadows l { y with
      admitted := true, raised := (s.pqueue x.queue).raised, pfd := k }).rotate x.queue) := by
    apply Exists.intro
    show execLaunchAdmit l s = _
    simp only [execLaunchAdmit, hx, hr, ha, ho, hv, hg, Bool.not_true, Bool.or_self, Bool.false_eq_true, if_false]
    rfl
  obtain ⟨z, hz⟩ : ∃ z : Launch, z = { y with
    admitted := true, raised := (s.pqueue x.queue).raised, pfd := k } := ⟨_, rfl⟩
  rw [← hz] at hexec
  obtain ⟨⟨cs, hcs⟩, hshadow⟩ := (s2.setLaunch l z).fillShadows_spec l z
  have hset : (s2.setLaunch l z).launchAt l = some z := (s2.launchAt_setLaunch z h2 l).trans (if_pos rfl)
  have hat : ((s2.setLaunch l z).fillShadows l z).launchAt l = some z := by
    rw [hcs]
    exact hset
  have hsh := hshadow n hn (by rw [hz]; exact hs)
  rw [show z.ctx = y.ctx by rw [hz]] at hsh
  rw [State.rotate_eq] at hexec
  generalize (s2.setLaunch l z).fillShadows l z = u at hexec hat hsh
  exact ⟨_, z, hexec, hat, by rw [hz], by rw [hz], hsh⟩

/-- LAUNCH_START gives a core its state of launch start (R12, R256, R294). -/
theorem launchStart_starts {s s1 s2 : State} {l n p ctx : Nat} {x z : Launch}
    {pre : List (Nat × Bool × Option Nat × BitVec 512)} (hfor : s.startsFor n = some ctx) (hp : s.physOf n = some p)
    (hsh : s.shadowFor ctx n = some l) (hx : s.launchAt l = some x) (hr : x.retired = false) (he : x.error = none)
    (hm : s.mayStart n (s.coreAt ctx n) x = true)
    (hc : (if (!x.begun) = true then s.startChecks x else (s, some x)) = (s1, some z))
    (hf : s1.fillPreloads z (if (!x.begun) = true then z.preloads else []) = (s2, pre))
    (ht : ((s2.takeCore ctx n p).launchAt l).isSome = true) :
    ∃ t w, exec (.launchStart n) s = .next t ∧ t.launchAt l = some w ∧ w.started = z.started ++ [n] ∧ w.begun = true
      ∧ w.oprec = z.oprec ∧ ∃ c0 : Core, t.coreAt ctx n = (c0.atLaunch s2.now l w).loadPreloads w.preloads := by
  obtain ⟨w, hw⟩ : ∃ w : Launch, w = { z with
    started := z.started ++ [n], begun := true, tstart := if (!x.begun) = true then s.time else z.tstart,
    preloads := if (!x.begun) = true then pre else z.preloads } := ⟨_, rfl⟩
  obtain ⟨u, hu⟩ : ∃ u, u = s2.takeCore ctx n p := ⟨_, rfl⟩
  obtain ⟨v, hv⟩ : ∃ v, v = (u.setLaunch l w).setCoreAt ctx n (((u.coreAt ctx n).atLaunch s2.now l w).loadPreloads w.preloads) :=
    ⟨_, rfl⟩
  rw [← hu] at ht
  obtain ⟨fs, hexec⟩ : ∃ fs, exec (.launchStart n) s = .next { v with phases := fs } := by
    apply Exists.intro
    show execLaunchStart n s = _
    unfold execLaunchStart
    rw [hfor, hp]
    simp only [hsh, hx, hr, he, hm, hc, hf, Option.isSome_none, Bool.or_self, Bool.not_true, Bool.false_eq_true, if_false]
    rw [hv, hu, hw]
  have hlaunch : v.launchAt l = some w := by
    rw [hv]
    exact (u.launchAt_setLaunch w ht l).trans (if_pos rfl)
  have hcore : v.coreAt ctx n = ((u.coreAt ctx n).atLaunch s2.now l w).loadPreloads w.preloads := by
    rw [hv, State.coreAt_setCoreAt, if_pos rfl]
  exact ⟨_, w, hexec, hlaunch, by rw [hw], by rw [hw], by rw [hw], _, hcore⟩

end Sys2Proof.Claims
end

