-- ==== Sys2Proof/Proofs/Burnisher.lean ====
section
namespace Sys2Proof.Machine
open Sys2Proof.Claims

/-! ## The front end's writes leave the scene (R298) -/

theorem State.feWriteRows_scene (ctx fuel : Nat) (s : State) (va n v : Nat) :
    s.SameScene (s.feWriteRows ctx fuel va n v) := by
  induction fuel generalizing s va n v with
  | zero => exact .refl s
  | succ fuel ih =>
    unfold State.feWriteRows
    extract_lets k s2
    have h2 : s.SameScene s2 := by
      have h := s.resolve_scene ctx 256 (.va va) true
      show s.SameScene (match s.resolve ctx 256 (.va va) true with | (s1, .spot p) => _ | (s1, .remote g) => _ | (s1, _) => s1)
      split
      · next s1 p hr =>
        rw [hr] at h
        exact h.trans (s1.writeRowAt_scene _ _ _)
      · next s1 g hr =>
        rw [hr] at h
        exact h.trans ⟨rfl, rfl, rfl, rfl⟩
      · next s1 _ _ _ hr =>
        rw [hr] at h
        exact h
    split
    · exact h2
    · exact h2.trans (ih s2 _ _ _)

theorem State.feWrite_scene (s : State) (ctx va n v : Nat) : s.SameScene (s.feWrite ctx va n v) := by
  unfold State.feWrite
  split
  · exact .refl s
  · exact State.feWriteRows_scene ctx _ s va n v

theorem State.writeRecord_scene (s : State) (x : Launch) (e : Nat) : s.SameScene (s.writeRecord x e) := by
  unfold State.writeRecord
  split
  · exact .refl s
  · exact ((s.feWrite_scene _ _ _ _).trans (State.feWrite_scene _ _ _ _ _)).trans (State.feWrite_scene _ _ _ _ _)

theorem State.updateSlot_scene (s : State) (x : Launch) (e : Option Nat) : s.SameScene (s.updateSlot x e) := by
  unfold State.updateSlot
  split
  · exact .refl s
  · extract_lets a log
    have hlog : ∀ (t : State) (k : Nat), t.SameScene (log t k) := fun t k => t.logRecord_scene _ _ _ _ _ _ _ _ _
    have h := s.resolve_scene x.ctx 256 (.va a) true
    split
    · next s1 p hr =>
      rw [hr] at h
      split
      · exact State.SameScene.trans h (hlog s1 1)
      · exact State.SameScene.trans h (s1.writeRowAt_scene _ _ _)
    · next s1 _ _ hr =>
      rw [hr] at h
      exact State.SameScene.trans h (hlog s1 0)

/-! ## A skipped tile leaves the launches (R260) -/

/-- A log entry of the front end leaves the scene, once the actor is back. -/
theorem State.burnSeen_scene (s : State) (x : Launch) (n : Nat) (l : Loc) : s.SameScene (s.burnSeen x n l) := by
  unfold State.burnSeen
  extract_lets log
  have hlog : ∀ t : State, s.SameScene t → s.SameScene (log t) := fun t h => by
    have hf := (t.asFront x.ctx).logPoison_scene {} l false
    exact ⟨rfl, rfl, hf.remap.trans h.remap, hf.launches.trans h.launches⟩
  split
  · split
    · exact hlog _ (s.correct_scene _)
    · exact s.correct_scene _
  · split
    · exact hlog _ (.refl s)
    · exact .refl s
  · exact .refl s

theorem TileState.seen_scene (w : TileState) (x : Launch) (n : Nat) (rows : List Loc) : w.s.SameScene (w.seen x n rows).s := by
  refine List.foldlRecOn (motive := fun v : TileState => w.s.SameScene v.s) _ _ (.refl w.s) fun v hv l _ => ?_
  split
  · exact hv
  · exact hv.trans (v.s.burnSeen_scene x n l)

theorem State.burnPut_scene (s : State) (l : Nat) (x : Launch) (i n : Nat) (ps : List Bits) (v : Nat) (row : Loc) :
    s.SameScene (s.burnPut l x i n ps v row).1 := by
  unfold State.burnPut
  obtain ⟨d, bytes, ones⟩ := scatterBits row ps v
  have h := State.writeRowBits_scene { s with ctx := x.ctx, cur := n } row d bytes ones
  dsimp only
  generalize State.writeRowBits { s with ctx := x.ctx, cur := n } row d bytes ones = r at h
  obtain ⟨u, e⟩ := r
  cases e with
  | ok => exact h.back
  | remote g =>
    cases row with
    | va a => exact (h.trans (u.sendRemote_scene _ _ _ _)).back
    | vault => exact .refl s
  | absent | discarded | wait | bounds => exact .refl s

theorem State.burnWrite_scene (s : State) (l : Nat) (x : Launch) (i n : Nat) (ps : List Bits) (v : Nat) :
    s.SameScene (s.burnWrite l x i n ps v).1 := by
  unfold State.burnWrite
  extract_lets bad
  clear_value bad
  split
  · exact .refl s
  · exact .foldl (fun t r => t.burnPut_scene l x i n ps v r) _ s

theorem TileState.wrote_scene (w : TileState) {s : State} {r : State × Option Loc} (h : s.SameScene r.1) :
    s.SameScene (w.wrote r).s := by
  obtain ⟨t, o⟩ := r
  cases o <;> exact h

theorem TileState.put_scene (w : TileState) (l : Nat) (x : Launch) (i : Nat) (img : BitVec 512) (n q v : Nat) :
    w.s.SameScene (w.put l x i img n q v).s := by
  unfold TileState.put
  extract_lets cap
  split
  · exact w.wrote_scene (w.s.burnWrite_scene l x i n _ v)
  · exact w.wrote_scene (.refl w.s)

theorem TileState.putScale_scene (w : TileState) (l : Nat) (x : Launch) (i : Nat) (img : BitVec 512) (n q e : Nat) :
    w.s.SameScene (w.putScale l x i img n q e).s := by
  unfold TileState.putScale
  extract_lets cap
  split
  · exact w.wrote_scene (.refl w.s)
  · exact w.wrote_scene (w.s.burnWrite_scene l x i n _ e)

theorem TileState.run_scene (w : TileState) (l : Nat) (x : Launch) (i : Nat) (img : BitVec 512) (n px py pz u0 v i3 k : Nat) :
    w.s.SameScene (w.run l x i img n px py pz u0 v i3 k).s := by
  unfold TileState.run
  obtain ⟨els, e, found, rows⟩ := w.s.reconRun x img px py pz u0 v i3 k
  dsimp only
  have h1 : w.s.SameScene (els.foldl (fun (w : TileState) p => w.put l x i img n p.1 p.2) (w.seen x n rows)).s :=
    List.foldlRecOn (motive := fun a : TileState => w.s.SameScene a.s) _ _ (w.seen_scene x n rows)
      fun a ha p _ => ha.trans (a.put_scene l x i img n p.1 p.2)
  generalize els.foldl (fun (w : TileState) p => w.put l x i img n p.1 p.2) (w.seen x n rows) = w1 at h1
  have h2 : w.s.SameScene (if (tensorOf img).fmt.isBx then
      (match els with | p :: _ => w1.putScale l x i img n p.1 e | [] => w1) else w1).s := by
    split
    · cases els with
      | nil => exact h1
      | cons p _ => exact h1.trans (w1.putScale_scene l x i img n p.1 e)
    · exact h1
  split
  · exact h2
  · exact h2

theorem State.logLost_scene (s : State) (x : Launch) (i : Nat) (r : Loc) : s.SameScene (s.logLost x i r) := by
  unfold State.logLost
  obtain ⟨space, addr⟩ := logAddr r
  have h := (s.asFront x.ctx).logRecord_scene x.ctx 0x09 space (addr * 2 ^ 32) 0xFF 3 x.number i []
  exact ⟨rfl, rfl, h.remap, h.launches⟩

/-- A tile of the Burnisher changes its launch's list of tiles that are not reconstructed, and no launch else. -/
theorem State.burnTile_launch {s : State} {l : Nat} {x : Launch} (hx : s.launchAt l = some x) (outs : List (BitVec 512))
    (i : Nat) : ∃ us, (s.burnTile l x outs i).launchAt l = some { x with unrecon := us } := by
  unfold State.burnTile
  obtain ⟨px, py, pz⟩ := x.coord i
  dsimp only
  have hw : ∀ w0 : TileState, w0 = { s := s } → s.SameScene (outs.foldl (fun (w : TileState) img =>
      (x.runs (tensorOf img)).foldl (fun (w : TileState) r =>
        w.run l x i img (s.coreOfIndex x i) px py pz r.1 r.2.1 r.2.2.1 r.2.2.2) w) w0).s := fun w0 h0 =>
    List.foldlRecOn (motive := fun a : TileState => s.SameScene a.s) _ _ (by rw [h0]) fun a ha img _ =>
      List.foldlRecOn (motive := fun a : TileState => s.SameScene a.s) _ _ ha fun b hb r _ =>
        hb.trans (b.run_scene l x i img _ px py pz _ _ _ _)
  have h := hw _ rfl
  generalize (outs.foldl _ ({ s := s } : TileState) : TileState) = w at h
  have hwx : w.s.launchAt l = some x := by
    rw [State.launchAt, h.launches]
    exact hx
  have h1 : ∃ us, (if w.unrec then w.s.unrecTile l i else w.s).launchAt l = some { x with unrecon := us } := by
    split
    · exact ⟨_, (State.launchAt_updLaunch hwx _ l).trans (if_pos rfl)⟩
    · exact ⟨x.unrecon, hwx⟩
  obtain ⟨us, h1⟩ := h1
  refine ⟨us, ?_⟩
  split
  · next r _ => rw [State.launchAt, (State.logLost_scene _ x i r).launches]; exact h1
  · exact h1

/-- A shadow tile adds its sum to its launch (R263). -/
theorem State.shadowTile_launch {s : State} {l : Nat} {x : Launch} (hx : s.launchAt l = some x) (outs : List (BitVec 512))
    (i : Nat) : (s.shadowTile l x outs i).launchAt l = some { x with
      tileSums := x.tileSums ++ [(sumF32 (s.shadowTerms x outs i).1, (s.shadowTerms x outs i).1.length)] } := by
  unfold State.shadowTile
  obtain ⟨terms, rows⟩ := s.shadowTerms x outs i
  dsimp only
  have h := ({ s := s } : TileState).seen_scene x (s.coreOfIndex x i) rows
  generalize ({ s := s } : TileState).seen x (s.coreOfIndex x i) rows = w at h
  have hwx : w.s.launchAt l = some x := by
    rw [State.launchAt, h.launches]
    exact hx
  exact (State.launchAt_updLaunch hwx _ l).trans (if_pos rfl)

/-- BURNISH of a launch whose tasks have all retired (R260, R263). -/
theorem execBurnish_due {s : State} {l : Nat} {x : Launch} (hx : s.launchAt l = some x) (hcov : orCov x.oprec = true)
    (hb : x.burnt = false) (ha : x.admitted = true) (hr : x.retired = false) (he : x.error = none)
    (ht : s.tasksRetired l x = true) (hrun : (s.context x.ctx).running = true) :
    (x.nextTile = none → (∀ r ∈ s.remotes, ∀ j, r.kind ≠ .burn l j) →
        execBurnish l s = .next (s.updLaunch l (fun y => { y with burnt := true, eForm := x.errorMetric })))
      ∧ ∀ i s1, x.nextTile = some i →
        (s.tileReady l x (x.outputs.getD []) i (!x.shadow? i) = (s1, false) → execBurnish l s = .next s1)
        ∧ (s.tileReady l x (x.outputs.getD []) i (!x.shadow? i) = (s1, true) → execBurnish l s =
          .next ((if !x.shadow? i then s1.burnTile l x (x.outputs.getD []) i
            else s1.shadowTile l x (x.outputs.getD []) i).tileDone l i)) := by
  have hgo : (!orCov x.oprec || x.burnt || !x.admitted || x.retired || x.error.isSome || !s.tasksRetired l x
      || !(s.context x.ctx).running) = false := by
    rw [hcov, hb, ha, hr, he, ht, hrun]
    rfl
  unfold execBurnish
  rw [hx]
  simp only [hgo, Bool.false_eq_true, if_false]
  refine ⟨fun hn hrem => ?_, fun i s1 hn => ⟨fun h => ?_, fun h => ?_⟩⟩
  · rw [hn]
    refine if_neg fun h => ?_
    obtain ⟨r, hr, hk⟩ := List.any_eq_true.mp h
    split at hk
    · next k j hkind =>
      rw [beq_iff_eq] at hk
      exact hrem r hr j (hk ▸ hkind)
    · exact Bool.false_ne_true hk
  · rw [hn]
    simp only [h]
  · rw [hn]
    simp only [h]

/-! ## Retirement (R17, R297) -/

/-- A launch that retires: its barriers, rounds and shadow banks are free (R297). -/
theorem State.closeLaunch_spec (s : State) {l : Nat} (x : Launch) (h : (s.launchAt l).isSome = true) :
    (s.closeLaunch l x).launchAt l = some { x with retired := true, tretire := s.time }
      ∧ (∀ b ∈ (s.closeLaunch l x).barriers, b.launch ≠ l) ∧ (∀ r ∈ (s.closeLaunch l x).rounds, r.launch ≠ l)
      ∧ ∀ c ∈ (s.closeLaunch l x).cores, c.2.shadow ≠ some l := by
  refine ⟨(s.launchAt_setLaunch _ h l).trans (if_pos rfl), fun b hb => ?_, fun r hr => ?_, fun c hc => ?_⟩
  · exact bne_iff_ne.mp (List.mem_filter.mp hb).2
  · exact bne_iff_ne.mp (List.mem_filter.mp hr).2
  · obtain ⟨d, -, rfl⟩ := List.mem_map.mp hc
    split
    · exact nofun
    · next hd => exact fun e => hd (beq_iff_eq.mpr e)

end Sys2Proof.Machine

namespace Sys2Proof.Claims
open Sys2Proof.Machine

/-- BURNISH works on one tile a turn and forms e after the last (R260, R263). -/
theorem burnish_works {s s1 : State} {l : Nat} {x : Launch} (i : Nat) (outs : List (BitVec 512))
    (hx : s.launchAt l = some x) (hcov : orCov x.oprec = true) (hb : x.burnt = false) (ha : x.admitted = true)
    (hr : x.retired = false) (he : x.error = none) (ht : s.tasksRetired l x = true)
    (hrun : (s.context x.ctx).running = true) (ho : outs = x.outputs.getD []) :
    (x.nextTile = none → (∀ r ∈ s.remotes, ∀ j, r.kind ≠ .burn l j) →
      ∃ t z, exec (.burnish l) s = .next t ∧ t.launchAt l = some z ∧ z.burnt = true ∧ z.eForm = x.errorMetric)
    ∧ (x.nextTile = some i → s.tileReady l x outs i (!x.shadow? i) = (s1, true) → s1.launchAt l = some x →
      ∃ t z, exec (.burnish l) s = .next t ∧ t.launchAt l = some z ∧ z.burnt = false ∧ z.burnAt = i + 1
        ∧ (let ts := (s1.shadowTerms x outs i).1
           z.tileSums = x.tileSums ++ if x.shadow? i then [(sumF32 ts, ts.length)] else []))
    ∧ (x.nextTile = some i → s.tileReady l x outs i (!x.shadow? i) = (s1, false) → exec (.burnish l) s = .next s1) := by
  subst ho
  obtain ⟨hlast, htile⟩ := execBurnish_due hx hcov hb ha hr he ht hrun
  refine ⟨fun hn hrem => ?_, fun hn hready hx1 => ?_, fun hn hready => (htile i s1 hn).1 hready⟩
  · exact ⟨_, _, hlast hn hrem, (State.launchAt_updLaunch hx _ l).trans (if_pos rfl), rfl, rfl⟩
  · have hexec : exec (.burnish l) s = _ := (htile i s1 hn).2 hready
    cases hsh : x.shadow? i with
    | true =>
      rw [hsh] at hexec
      have hat := State.shadowTile_launch hx1 (x.outputs.getD []) i
      exact ⟨_, _, hexec, (State.launchAt_updLaunch hat _ l).trans (if_pos rfl), hb, rfl, rfl⟩
    | false =>
      rw [hsh] at hexec
      obtain ⟨us, hat⟩ := State.burnTile_launch hx1 (x.outputs.getD []) i
      exact ⟨_, _, hexec, (State.launchAt_updLaunch hat _ l).trans (if_pos rfl), hb, rfl, (List.append_nil _).symm⟩

/-- LAUNCH_RETIRE while a live update holds the queue back (R313). -/
theorem launchRetire_heldBack {s : State} {l : Nat} {x : Launch} (hx : s.launchAt l = some x) (hm : s.mayRetire l x = true)
    (hp : (s.pqueue x.queue).paused = true) :
    ∃ t z, exec (.launchRetire l) s = .next t ∧ t.launchAt l = some z ∧ z = { x with seen := z.seen } ∧ z.seen.isSome = true := by
  have hexec : exec (.launchRetire l) s = .next (s.holdBack l x) := by
    show execLaunchRetire l s = _
    simp only [execLaunchRetire, hx, hm, hp, Bool.not_true, Bool.false_eq_true, if_false, if_true]
  unfold State.holdBack at hexec
  by_cases h : x.seen.isSome = true
  · rw [if_pos h] at hexec
    exact ⟨_, x, hexec, hx, rfl, h⟩
  · rw [if_neg h] at hexec
    exact ⟨_, _, hexec, (State.launchAt_updLaunch hx _ l).trans (if_pos rfl), rfl, rfl⟩

/-- LAUNCH_RETIRE ends a launch (R297). -/
theorem launchRetire_ends {s : State} {l : Nat} {x : Launch} (hx : s.launchAt l = some x) (hm : s.mayRetire l x = true)
    (hp : (s.pqueue x.queue).paused = false) (hb : s.behind x = false) :
    ∃ t z, exec (.launchRetire l) s = .next t ∧ t.launchAt l = some z ∧ z = { x with retired := true, tretire := z.tretire }
      ∧ (∀ b ∈ t.barriers, b.launch ≠ l) ∧ (∀ r ∈ t.rounds, r.launch ≠ l) ∧ ∀ c ∈ t.cores, c.2.shadow ≠ some l := by
  obtain ⟨s1, hs1⟩ : ∃ s1, s1 = if x.error.isSome then s else s.updateSlot x x.eForm := ⟨_, rfl⟩
  have h1 : s.SameScene s1 := by
    rw [hs1]
    split
    · exact .refl s
    · exact s.updateSlot_scene x _
  obtain ⟨s2, hs2⟩ : ∃ s2, s2 = s1.writeRecord { x with crec := (s1.recordPlace x).getD 0 }
      (x.eForm.getD (Config.noError s1.draws).toNat) := ⟨_, rfl⟩
  have h2 : s.SameScene s2 := by
    rw [hs2]
    exact h1.trans (s1.writeRecord_scene _ _)
  obtain ⟨u, hu⟩ : ∃ u : State, u = { s2 with draws := s2.draws + (if x.eForm.isSome then 0 else 1) } := ⟨_, rfl⟩
  have hexec : exec (.launchRetire l) s = .next (u.closeLaunch l x) := by
    show execLaunchRetire l s = _
    simp only [execLaunchRetire, hx, hm, hp, hb, Bool.not_true, Bool.false_eq_true, if_false]
    rw [hu, hs2, hs1]
  have hlaunch : (u.launchAt l).isSome = true := by
    rw [hu]
    show (s2.launchAt l).isSome = true
    rw [State.launchAt, h2.launches]
    exact congrArg Option.isSome hx
  obtain ⟨hl, hbar, hround, hcore⟩ := u.closeLaunch_spec x hlaunch
  exact ⟨_, _, hexec, hl, rfl, hbar, hround, hcore⟩

/-- Settles O41: `dlaunch` and LAUNCH_ADMIT by the list of launches, LAUNCH_START by `Core.atLaunch_spec`, BURNISH and
LAUNCH_RETIRE by `State.SameScene`: the data path leaves the launches as they were. -/
theorem launches : Obligations.Launches := by
  intro s s1 s2 d a l n p ctx x y v pre
  refine ⟨dlaunch_numbers, launchAdmit_reads, fun hx hr ha ho h1 => ⟨launchAdmit_refuses hx hr ha ho h1,
    launchAdmit_admits hx hr ha ho⟩, fun z hfor hp hsh hx hr he hm => ?_, fun i outs => burnish_works i outs,
    launchRetire_heldBack, launchRetire_ends⟩
  intro first hc hf ht
  obtain ⟨t, w, hexec, hat, hst, hbg, hop, c0, hcore⟩ := launchStart_starts hfor hp hsh hx hr he hm hc hf ht
  refine ⟨t, w, hexec, hat, hst, hbg, ?_⟩
  rw [hcore, ← hop]
  exact c0.atLaunch_spec s2.now l w

end Sys2Proof.Claims
end

