-- ==== Sys2Proof/Proofs/Encoding.lean ====
section
namespace Sys2Proof.Laws.RoundTrip

/-- Every instruction by the round trip of its constructor; the steps of the part, which come last, have no words. -/
theorem statement (i : Instr) : Statement i := by
  cases i with
  | add => apply add | sub => apply sub | and => apply and | or => apply or | xor => apply xor | andn => apply andn
  | sll => apply sll | srl => apply srl | sra => apply sra | rol => apply rol | mul => apply mul | mulh => apply mulh
  | mulhn => apply mulhn | div => apply div | divn => apply divn | rem => apply rem | remn => apply remn
  | min => apply min | max => apply max | minn => apply minn | maxn => apply maxn | slt => apply slt
  | sltn => apply sltn | seq => apply seq | clz => apply clz | ctz => apply ctz | pop => apply pop
  | sext => apply sext | zext => apply zext | sel => apply sel | addw => apply addw | subw => apply subw
  | mulw => apply mulw | shadd => apply shadd | addi => apply addi | andi => apply andi | ori => apply ori
  | xori => apply xori | slti => apply slti | sltin => apply sltin | slli => apply slli | srli => apply srli
  | srai => apply srai | roli => apply roli | lui => apply lui | muli => apply muli | bfx => apply bfx
  | bfxS => apply bfxS | bfi => apply bfi | jalr => apply jalr | beq => apply beq | bne => apply bne
  | blt => apply blt | bge => apply bge | bltn => apply bltn | bgen => apply bgen | bmskAny => apply bmskAny
  | bmskNone => apply bmskNone | bmskAll => apply bmskAll | loop => apply loop | jal => apply jal | ldW => apply ldW
  | ldD => apply ldD | stW => apply stW | stD => apply stD | srdW => apply srdW | srdD => apply srdD
  | savl => apply savl | nop => apply nop | seam => apply seam | fenceSc => apply fenceSc
  | fenceAcq => apply fenceAcq | fenceRel => apply fenceRel | trap => apply trap | ertn => apply ertn
  | brk => apply brk | yield => apply yield | texit => apply texit | wfe => apply wfe | icinv => apply icinv
  | modeExposed => apply modeExposed | modeInterlock => apply modeInterlock | trnR => apply trnR
  | trnRw => apply trnRw | vbind => apply vbind | hqry => apply hqry | hinv => apply hinv | pgreq => apply pgreq
  | hmov => apply hmov | fsig => apply fsig | fsigQuad => apply fsigQuad | fwait => apply fwait
  | fpeek => apply fpeek | rigw => apply rigw | bar => apply bar | bara => apply bara | barw => apply barw
  | bwait => apply bwait | rdvz => apply rdvz | csrr => apply csrr | csrw => apply csrw | csrs => apply csrs
  | csrc => apply csrc | xstatWrite => apply xstatWrite | wmWrite => apply wmWrite | residAccess => apply residAccess
  | engstRead => apply engstRead | tcrd => apply tcrd | cvq => apply cvq | rlay => apply rlay | tdld => apply tdld
  | tdst => apply tdst | tdrd => apply tdrd | tdwr => apply tdwr | wkld => apply wkld | wkst => apply wkst
  | guardW => apply guardW | guardD => apply guardD | dlaunch => apply dlaunch | mmov => apply mmov
  | mset => apply mset | mcntE => apply mcntE | mcntLo => apply mcntLo | mcntHi => apply mcntHi
  | mcntFfs => apply mcntFfs | mlog => apply mlog | fork => apply fork | enqs => apply enqs | renq => apply renq
  | faa => apply faa | faab => apply faab | fao => apply fao | cas => apply cas | swp => apply swp
  | amin => apply amin | amax => apply amax | aminn => apply aminn | amaxn => apply amaxn | aor => apply aor
  | aand => apply aand | li => apply li | lih => apply lih | issue => apply issue | vadd => apply vadd
  | vsub => apply vsub | vmul => apply vmul | vfma => apply vfma | vfms => apply vfms | vfnm => apply vfnm
  | vmin => apply vmin | vmax => apply vmax | vabs => apply vabs | vneg => apply vneg | vrcp => apply vrcp
  | vrsq => apply vrsq | vsqrt => apply vsqrt | vexp2 => apply vexp2 | vlog2 => apply vlog2 | vtanh => apply vtanh
  | viadd => apply viadd | visub => apply visub | vimul => apply vimul | vimulh => apply vimulh | vshl => apply vshl
  | vshr => apply vshr | vsra => apply vsra | vand => apply vand | vor => apply vor | vxor => apply vxor
  | vimin => apply vimin | vimax => apply vimax | vsadd => apply vsadd | vssub => apply vssub | viabs => apply viabs
  | vimac => apply vimac | vceq => apply vceq | vcne => apply vcne | vclt => apply vclt | vcle => apply vcle
  | vcun => apply vcun | vsel => apply vsel | vcvt => apply vcvt | vqbf => apply vqbf | vdqbf => apply vdqbf
  | vqaf => apply vqaf | vmov => apply vmov | vbcst => apply vbcst | vld => apply vld | vst => apply vst
  | vgath => apply vgath | vscat => apply vscat | vrmg => apply vrmg | vshuf => apply vshuf | vpart => apply vpart
  | vpop => apply vpop | vpush => apply vpush | vred => apply vred | vscan => apply vscan | viota => apply viota
  | vmcnt => apply vmcnt | vmlog => apply vmlog | vacc => apply vacc | vclass => apply vclass | mma => apply mma
  | mzero => apply mzero | mdrn => apply mdrn | mlease => apply mlease | mcommit => apply mcommit
  | mlend => apply mlend | mrecl => apply mrecl | mldacc => apply mldacc | ccpy => apply ccpy | ccvt => apply ccvt
  | cxpd => apply cxpd | cfilb => apply cfilb | cgath => apply cgath | cscat => apply cscat | cred => apply cred
  | cmcst => apply cmcst | cdsp => apply cdsp | cscl => apply cscl | cbindOff => apply cbindOff
  | cbindRange => apply cbindRange | cbindStream => apply cbindStream | czero => apply czero | cwmk => apply cwmk
  | snop => apply snop | swait => apply swait | ssig => apply ssig | sloop => apply sloop | sendl => apply sendl
  | spho => apply spho | sphc => apply sphc | sacq => apply sacq | srel => apply srel
  | smodeExposed => apply smodeExposed | smodeInterlock => apply smodeInterlock | send => apply send
  | _ => exact step rfl

end Sys2Proof.Laws.RoundTrip

namespace Sys2Proof.Claims
open Sys2Proof.Laws.RoundTrip

/-- Words and engine words, when there are any, decode to one instruction only. -/
theorem encode_injective {i j : Instr} (hi : i.wf = true) (hj : j.wf = true) (hs : encode i ≠ .step)
    (h : encode i = encode j) : i = j := by
  have di := statement i hi
  have dj := statement j hj
  rw [← h] at dj
  cases he : encode i with
  | step => exact absurd he hs
  | words ws =>
    rw [he] at di dj
    exact Except.ok.inj (di.symm.trans dj)
  | engine w =>
    rw [he] at di dj
    exact Except.ok.inj (di.symm.trans dj)

/-- Settles O59: every constructor has its round trip; words that decode to both of two instructions make them one. -/
theorem encodingRoundTrips : Obligations.EncodingRoundTrips :=
  ⟨statement, fun _ _ => encode_injective⟩

/-- Settles O57: the decoders run on the eight words. -/
theorem wordsDecode : Obligations.WordsDecode := by
  refine ⟨?_, ?_, ?_, ?_, ?_, ?_, ?_, ?_⟩ <;> decide

end Sys2Proof.Claims
end

