-- ==== Sys2Proof/Proofs/Traps.lean ====
section
namespace Sys2Proof.Machine
open Sys2Proof.Claims

/-! ## The exception entry (R113) -/

/-- With a handler in force and no exception at work, any cause but an engine's fault enters the handler. -/
theorem State.takeTrap_handled (s : State) {code : BitVec 8} (value resume : Word) (hi : s.core.inh = false)
    (hh : s.core.xhand ≠ 0) (hc : code ≠ cEngineFault) : TakesTrap s (s.takeTrap code false value resume) code value resume := by
  obtain ⟨g, hg⟩ := s.noteLive_eq
  obtain ⟨hcore, hframe, hbytes, hothers⟩ := CoreRecorded.upd s g (fun c => { c with
    xpc := resume, xcause := (if false then 1#1 else 0#1) ++ code, xval := value, inh := true,
    flt := c.flt || !causeHarmless code value, pc := c.xhand, waiting := none })
  have ht : s.takeTrap code false value resume = ({ s with graphs := g } : State).upd (fun c => { c with
      xpc := resume, xcause := (if false then 1#1 else 0#1) ++ code, xval := value, inh := true,
      flt := c.flt || !causeHarmless code value, pc := c.xhand, waiting := none }) := by
    simp only [State.takeTrap, hc, hi, hh, hg, false_and, Bool.false_eq_true, or_self, if_false]
  rw [ht]
  refine ⟨?_, ?_, hframe, hbytes, hothers⟩ <;> rw [hcore]
  exact ⟨rfl, rfl, rfl, rfl, rfl, rfl⟩

/-- An illegal instruction traps with its first word, at itself (R52). -/
theorem State.illegal_takesTrap (s : State) (i : Instr) (hi : s.core.inh = false) (hh : s.core.xhand ≠ 0) :
    ∃ t, s.illegal i = .next t ∧ TakesTrap s t 0x01 ((firstWord i).zeroExtend 64) s.core.pc :=
  ⟨_, rfl, s.takeTrap_handled _ _ hi hh (by decide)⟩

/-! ## What makes an instruction illegal (R52, R76, R79, R84, R98) -/

/-- The null handle and s0 as a destination or a count. -/
theorem exec_illegal_of_null (s : State) {a : Reg} {h : HReg} {o : BitVec 16} {i : Instr}
    (hi : i ∈ [Instr.loop 0 o, .trnR 0 a, .trnRw 0 a, .vbind 0 a, .hmov 0 h]) : exec i s = s.illegal i := by
  simp only [List.mem_cons, List.not_mem_nil, or_false] at hi
  obtain rfl | rfl | rfl | rfl | rfl := hi <;> rfl

/-- The reserved code of a two-bit field. -/
theorem exec_illegal_of_code3 (s : State) {d a : Reg} {f : Ix6} {w : BitVec 2} (hw : w.toNat = 3) {i : Instr}
    (hi : i ∈ [Instr.sext d a w, .zext d a w, .tcrd d w, .bwait f w]) : exec i s = s.illegal i := by
  obtain rfl : w = 3 := BitVec.eq_of_toNat_eq hw
  simp only [List.mem_cons, List.not_mem_nil, or_false] at hi
  obtain rfl | rfl | rfl | rfl := hi <;> rfl

/-- A reserved element width (R79). -/
theorem exec_illegal_of_width (s : State) {d : Reg} {k : MReg} {w : BitVec 3} {o : BitVec 16} (hw : 3 ≤ w.toNat) {i : Instr}
    (hi : i ∈ [Instr.bmskAny k w o, .bmskNone k w o, .bmskAll k w o, .mcntE d k w, .mcntFfs d k w]) :
    exec i s = s.illegal i := by
  have hn : ¬w.toNat < 3 := by omega
  simp only [List.mem_cons, List.not_mem_nil, or_false] at hi
  obtain rfl | rfl | rfl | rfl | rfl := hi <;> exact if_neg hn

/-- A reserved scope of a barrier instruction, before any barrier is named (R52, R104). -/
theorem State.barrierTrap_reserved (s : State) (i : Instr) {scope : Nat} (id : Nat) (h : 6 ≤ scope) :
    s.barrierTrap i scope id = some (s.illegal i) := if_pos h

/-- A reserved scope (R3). -/
theorem exec_illegal_of_scope (s : State) {sc id : BitVec 3} (hs : 6 ≤ sc.toNat) {i : Instr}
    (hi : i ∈ [Instr.fenceSc sc, .fenceAcq sc, .fenceRel sc, .bar id sc, .bara id sc, .barw id sc]) :
    exec i s = s.illegal i := by
  simp only [List.mem_cons, List.not_mem_nil, or_false] at hi
  obtain rfl | rfl | rfl | rfl | rfl | rfl := hi
  · exact if_pos hs
  · exact if_pos hs
  · exact if_pos hs
  · show execBar id sc s = _
    rw [execBar, s.barrierTrap_reserved _ _ hs]
  · show execBara id sc s = _
    rw [execBara, s.barrierTrap_reserved _ _ hs]
  · show execBarw id sc s = _
    rw [execBarw, s.barrierTrap_reserved _ _ hs]

/-- A field that leaves the register (R76). -/
theorem exec_illegal_of_field (s : State) {d a : Reg} {p n : BitVec 6} (hp : 64 < p.toNat + n.toNat + 1) {i : Instr}
    (hi : i ∈ [Instr.bfx d a p n, .bfxS d a p n, .bfi d a p n]) : exec i s = s.illegal i := by
  have hn : ¬p.toNat + n.toNat + 1 ≤ 64 := by omega
  simp only [List.mem_cons, List.not_mem_nil, or_false] at hi
  obtain rfl | rfl | rfl := hi <;> exact if_neg hn

/-- A CSR that cannot be read cannot be written either (R84). -/
theorem State.csrModify_unreadable (s : State) (i : Instr) (ck : Nat) (d a : Reg) {n : Nat} (h : s.csrValue n = none) :
    s.csrModify i ck d a n = s.illegal i := by
  rw [State.csrModify, h]

/-- A read-only CSR is not written (R84). -/
theorem State.csrModify_readOnly (s : State) (i : Instr) (ck : Nat) (d a : Reg) {n : Nat} (h : csrReadOnly n = true) :
    s.csrModify i ck d a n = s.illegal i := by
  unfold State.csrModify
  split
  · rfl
  · exact if_pos (Or.inl h)

theorem exec_illegal_of_unreadable (s : State) {d a : Reg} {c : BitVec 12} (hc : s.csrValue c.toNat = none) {i : Instr}
    (hi : i ∈ [Instr.csrr d c, .csrw d a c, .csrs d a c, .csrc d a c]) : exec i s = s.illegal i := by
  simp only [List.mem_cons, List.not_mem_nil, or_false] at hi
  obtain rfl | rfl | rfl | rfl := hi
  · show s.csrRead _ d c.toNat = _
    rw [State.csrRead, hc]
  all_goals exact s.csrModify_unreadable _ _ d a hc

theorem exec_illegal_of_readOnly (s : State) {d a : Reg} {c : BitVec 12} (hc : csrReadOnly c.toNat = true) {i : Instr}
    (hi : i ∈ [Instr.csrw d a c, .csrs d a c, .csrc d a c]) : exec i s = s.illegal i := by
  simp only [List.mem_cons, List.not_mem_nil, or_false] at hi
  obtain rfl | rfl | rfl := hi <;> exact s.csrModify_readOnly _ _ d a hc

end Sys2Proof.Machine

namespace Sys2Proof.Claims
open Sys2Proof.Machine

/-- Settles O4: each listed form answers `State.illegal`, which enters the handler. -/
theorem illegalInstructions : Obligations.IllegalInstructions := by
  intro s d a h k w2 w3 sc id p n f o c hinh hhand
  have htrap : ∀ i, exec i s = s.illegal i →
      ∃ t, exec i s = .next t ∧ TakesTrap s t 0x01 ((firstWord i).zeroExtend 64) s.core.pc := fun i hi => by
    rw [hi]
    exact s.illegal_takesTrap i hinh hhand
  exact ⟨fun i hi => htrap i (exec_illegal_of_null s hi), fun hw i hi => htrap i (exec_illegal_of_code3 s hw hi),
    fun hw i hi => htrap i (exec_illegal_of_width s hw hi), fun hs i hi => htrap i (exec_illegal_of_scope s hs hi),
    fun hp i hi => htrap i (exec_illegal_of_field s hp hi), fun hc i hi => htrap i (exec_illegal_of_unreadable s hc hi),
    fun hc i hi => htrap i (exec_illegal_of_readOnly s hc hi)⟩

end Sys2Proof.Claims
end

