-- ==== Sys2Proof/Proofs/Flags.lean ====
section
namespace Sys2Proof.Machine
open Sys2Proof.Claims

/-! ## A scalar result (R73) -/

/-- An instruction that writes a scalar register and moves on (R73). -/
theorem State.writeReg_writes (s : State) (d : Reg) (v : Word) (n : Nat) :
    ∃ t, s.writeReg d v n = .next t ∧ WritesReg s t d v n := by
  refine ⟨_, rfl, ⟨.upd s _, ?_⟩, ?_, fun k => ?_⟩ <;> rw [State.core_upd]
  · unfold Core.wr
    split <;> rfl
  · rw [Core.advancePc_pc, Core.wr_pc]
  · rw [Core.rd_advancePc, Core.rd_wr]
    by_cases hk : k = 0
    · subst hk
      by_cases hd : (0 : Reg) = d
      · rw [if_pos rfl, if_neg (fun e => e.2 hd.symm)]
        rfl
      · rw [if_pos rfl, if_neg (fun e => hd e.1)]
        rfl
    · rw [if_neg hk]
      by_cases hd : k = d
      · rw [if_pos ⟨hd, hd ▸ hk⟩, if_pos hd]
      · rw [if_neg (fun e => hd e.1), if_neg hd]

/-! ## Counts of flags (R66, R102) -/

/-- A count that is set reads back; the other flags keep theirs. -/
theorem Core.flag_setFlag (c : Core) (f : Ix6) (n : Nat) (hf : f ≠ 0) (j : Ix6) :
    (c.setFlag f.toNat n).flag j.toNat = if j = f then n else c.flag j.toNat := by
  have hf0 : f.toNat ≠ 0 := fun e => hf (BitVec.eq_of_toNat_eq e)
  unfold Core.setFlag
  split
  · next h =>
    have hn : c.flag f.toNat = n := h.resolve_left hf0
    split
    · next hj => rw [hj, hn]
    · rfl
  · unfold Core.flag
    by_cases hj : j = f
    · rw [if_pos hj, hj, if_neg hf0, SMap.get_set_same]
    · rw [if_neg hj, SMap.get_set_ne _ _ _ (fun e => hj (BitVec.eq_of_toNat_eq e))]

/-- Core d is core c but for counts of flags and the event latch. -/
def Core.SameButFlags (c d : Core) : Prop := d = { c with flags := d.flags, latch := d.latch }

theorem Core.SameButFlags.refl (c : Core) : c.SameButFlags c := rfl

theorem Core.setFlag_sameButFlags (c : Core) (f n : Nat) : c.SameButFlags (c.setFlag f n) := by
  unfold Core.setFlag
  split <;> rfl

/-- A take from a flag that has a count, or from f0, which has none. -/
theorem Core.flagTake_spec (c : Core) (f : Ix6) (h : f = 0 ∨ 0 < c.flag f.toNat) :
    ∃ d, c.flagTake f.toNat = some d ∧ c.SameButFlags d
      ∧ ∀ j : Ix6, d.flag j.toNat = if j = f ∧ j ≠ 0 then c.flag j.toNat - 1 else c.flag j.toNat := by
  by_cases hf : f = 0
  · subst hf
    exact ⟨c, rfl, .refl c, fun j => (if_neg (fun e => e.2 e.1)).symm⟩
  · have hf0 : f.toNat ≠ 0 := fun e => hf (BitVec.eq_of_toNat_eq e)
    refine ⟨_, (if_neg hf0).trans (if_pos (h.resolve_left hf)), c.setFlag_sameButFlags _ _, fun j => ?_⟩
    rw [c.flag_setFlag f _ hf]
    by_cases hj : j = f
    · rw [if_pos hj, if_pos ⟨hj, hj ▸ hf⟩, hj]
    · rw [if_neg hj, if_neg (fun e => hj e.1)]

theorem Core.flagTake_empty (c : Core) {f : Ix6} (hf : f ≠ 0) (h : c.flag f.toNat = 0) : c.flagTake f.toNat = none := by
  have hf0 : f.toNat ≠ 0 := fun e => hf (BitVec.eq_of_toNat_eq e)
  rw [Core.flagTake, if_neg hf0, if_neg (by omega)]

theorem Core.flagInc_fits (c : Core) {f : Ix6} {n : Nat} (hf : f ≠ 0) (h : c.flag f.toNat + n ≤ 65535) :
    c.flagInc f.toNat n = some (c.setFlag f.toNat (c.flag f.toNat + n)) := by
  have hf0 : f.toNat ≠ 0 := fun e => hf (BitVec.eq_of_toNat_eq e)
  rw [Core.flagInc, if_neg hf0, if_neg (by omega)]

theorem Core.flagInc_overflows (c : Core) {f : Ix6} {n : Nat} (hf : f ≠ 0) (h : 65535 < c.flag f.toNat + n) :
    c.flagInc f.toNat n = none := by
  have hf0 : f.toNat ≠ 0 := fun e => hf (BitVec.eq_of_toNat_eq e)
  rw [Core.flagInc, if_neg hf0, if_pos h]

/-- A signal of a flag with room, or of f0. -/
theorem Core.flagInc_spec (c : Core) (f : Ix6) (h : f = 0 ∨ c.flag f.toNat < 65535) :
    ∃ d, c.flagInc f.toNat 1 = some d ∧ c.SameButFlags d
      ∧ ∀ j : Ix6, d.flag j.toNat = if j = f ∧ j ≠ 0 then c.flag j.toNat + 1 else c.flag j.toNat := by
  by_cases hf : f = 0
  · subst hf
    exact ⟨c, rfl, .refl c, fun j => (if_neg (fun e => e.2 e.1)).symm⟩
  · refine ⟨_, c.flagInc_fits hf (h.resolve_left hf), c.setFlag_sameButFlags _ _, fun j => ?_⟩
    rw [c.flag_setFlag f _ hf]
    by_cases hj : j = f
    · rw [if_pos hj, if_pos ⟨hj, hj ▸ hf⟩, hj]
    · rw [if_neg hj, if_neg (fun e => hj e.1)]

/-! ## Cycles that pass (R125, R126, R134) -/

theorem State.noteWait_eq (s : State) (w : CtlWait) : ∃ g, s.noteWait w = { s with graphs := g } := s.note_eq _

/-- The `fwait`s that a cycle satisfies are noted in the graph steps only (R303). -/
theorem State.noteTakes_eq (s : State) (before : SMap Core) : ∃ g, s.noteTakes before = { s with graphs := g } := by
  unfold State.noteTakes
  split
  · exact ⟨s.graphs, rfl⟩
  · refine List.foldlRecOn (motive := fun t : State => ∃ g : List Graph, t = { s with graphs := g }) before _
      ⟨s.graphs, rfl⟩ (fun t ht x _ => ?_)
    obtain ⟨g, rfl⟩ := ht
    split
    · next f _ =>
      extract_lets ctx cur u
      split
      · obtain ⟨g', hg'⟩ := u.noteWait_eq (.flag f)
        exact ⟨g', congrArg (fun v : State => { v with ctx := ctx, cur := cur }) hg'⟩
      · exact ⟨g, rfl⟩
    · exact ⟨g, rfl⟩

/-- Cycles that pass change the clocks, the cores and the graph steps only. -/
theorem State.advance_frame (s : State) (k : Nat) (i : Option (Nat × Eng)) :
    s.advance k i = { s with now := s.now + k, time := (s.advance k i).time, frac := (s.advance k i).frac,
                             cores := (s.advance k i).cores, graphs := (s.advance k i).graphs } := by
  unfold State.advance
  split
  · next h => rw [h]; rfl
  · extract_lets num den t
    obtain ⟨g, hg⟩ := t.noteTakes_eq s.cores
    rw [hg]

end Sys2Proof.Machine

namespace Sys2Proof.Claims
open Sys2Proof.Machine

/-- Two changes of the acting core beside the recorder (R303), one after the other. -/
theorem CoreRecorded.upd_upd (s : State) (g : List Graph) (f h : Core → Core) :
    CoreRecorded s ((({ s with graphs := g } : State).upd f).upd h) (h (f s.core)) := by
  refine ⟨?_, rfl, .of_eq rfl rfl rfl, fun c n hne => ?_⟩
  · rw [State.core_upd, State.core_upd]
    rfl
  · exact (State.coreAt_upd_ne (({ s with graphs := g } : State).upd f) h hne).trans
      (State.coreAt_upd_ne { s with graphs := g } f hne)

/-- A release at CORE or QUAD finds no earlier store in the store queue (R195). -/
theorem storesDone_of_empty {s : State} {scope : Nat} (h : s.core.sq = []) (hs : scope < 4) : s.storesDone scope = true := by
  simp [State.storesDone, h, hs]

/-- `fsig` over the quad's flag network: two cycles on, the other core's flag has grown (R247). -/
theorem fsigQuad_signals {s : State} {a : Reg} {f : Ix6} {k : BitVec 2} {target : Nat} {u : State}
    (ht : 4 * (s.cur / 4) + k.toNat = target) (hu : s.noteLive.advance 2 = u) (hspan : s.inSpan target = true)
    (hne : target ≠ s.cur) (hsq : s.core.sq = []) (hf : f ≠ 0)
    (hroom : (u.coreAt s.ctx target).flag f.toNat + s.core.increment a ≤ 65535) :
    ∃ t, exec (.fsigQuad a f k) s = .next t ∧ t.core.pc = u.core.pc + 4
      ∧ (t.coreAt s.ctx target).flag f.toNat = (u.coreAt s.ctx target).flag f.toNat + s.core.increment a
      ∧ SameBytes s t := by
  obtain ⟨g, hg⟩ := s.noteLive_eq
  have hframe := s.noteLive.advance_frame 2 none
  rw [hu, hg] at hframe
  have hctx : u.ctx = s.ctx := by rw [hframe]
  have hcur : u.cur = s.cur := by rw [hframe]
  obtain ⟨c, hc⟩ : ∃ c, c = (u.coreAt s.ctx target).setFlag f.toNat ((u.coreAt s.ctx target).flag f.toNat + s.core.increment a) :=
    ⟨_, rfl⟩
  have hexec : exec (.fsigQuad a f k) s = .next ((u.setCoreAt s.ctx target c).upd (fun d => d.advancePc 4)) := by
    show execFsigQuad a f k s = _
    unfold execFsigQuad
    simp only [quadOf, ht, hspan, storesDone_of_empty (scope := 1) hsq (by omega), hne, hu, hctx, Bool.not_true, Bool.false_eq_true,
      if_false, (u.coreAt s.ctx target).flagInc_fits hf hroom, ← hc]
    rfl
  have hkey : coreKey s.ctx target ≠ coreKey s.ctx s.cur := fun e => hne (Nat.add_left_cancel e)
  have hown : (u.setCoreAt s.ctx target c).core = u.core := by
    show (u.setCoreAt s.ctx target c).coreAt u.ctx u.cur = u.coreAt u.ctx u.cur
    rw [hctx, hcur, State.coreAt_setCoreAt, if_neg hkey.symm]
  refine ⟨_, hexec, ?_, ?_, ?_⟩
  · rw [State.core_upd, hown]
    rfl
  · rw [State.coreAt_upd_ne _ _ (by rw [State.setCoreAt_ctx, State.setCoreAt_cur, hctx, hcur]; exact hkey),
      State.coreAt_setCoreAt, if_pos rfl, hc, Core.flag_setFlag _ f _ hf, if_pos rfl]
  · refine .of_eq ?_ ?_ ?_ <;> rw [State.upd, State.setCore] <;> simp only [State.setCoreAt_mem, State.setCoreAt_vault,
      State.setCoreAt_sram] <;> rw [hframe]

/-- Settles O19: each form by the count that its flag has. -/
theorem flagInstructions : Obligations.FlagInstructions := by
  intro s a d f k n target
  refine ⟨fun hsq hf hn => ?_, fun hsq hf hinh hhand hn => ?_, fun hf hpos => ?_, fun hf hzero => ?_, ?_, ?_⟩
  · have hexec : exec (.fsig a f) s = .next (s.upd (fun c => (c.setFlag f.toNat (c.flag f.toNat + n)).advancePc 4)) := by
      show execFsig a f s = _
      simp only [execFsig, storesDone_of_empty (scope := 0) hsq (by omega), Bool.not_true, Bool.false_eq_true, if_false]
      rw [s.core.flagInc_fits hf (show _ + s.core.increment a ≤ _ from hn)]
      rfl
    refine ⟨_, hexec, .upd s _, fun j => ?_⟩
    rw [State.core_upd]
    exact s.core.flag_setFlag f _ hf j
  · refine ⟨_, ?_, s.takeTrap_handled (code := cFlagOverflow) _ _ hinh hhand (by decide)⟩
    show execFsig a f s = _
    simp only [execFsig, storesDone_of_empty (scope := 0) hsq (by omega), Bool.not_true, Bool.false_eq_true, if_false]
    rw [s.core.flagInc_overflows hf (show _ < _ + s.core.increment a from hn)]
    rfl
  · obtain ⟨g, hg⟩ := (s.setCore (s.core.setFlag f.toNat (s.core.flag f.toNat - 1))).noteWait_eq (.flag f.toNat)
    have hf0 : f.toNat ≠ 0 := fun e => hf (BitVec.eq_of_toNat_eq e)
    have htake : s.core.flagTake f.toNat = some (s.core.setFlag f.toNat (s.core.flag f.toNat - 1)) :=
      (if_neg hf0).trans (if_pos hpos)
    have hexec : exec (.fwait f) s = .next ((({ s with graphs := g } : State).upd
        (fun c => c.setFlag f.toNat (c.flag f.toNat - 1))).upd (fun c => c.advancePc 4)) := by
      show execFwait f s = _
      simp only [execFwait, htake, hg]
      rfl
    refine ⟨_, hexec, .upd_upd s g _ _, fun j => ?_⟩
    rw [State.core_upd, State.core_upd]
    exact s.core.flag_setFlag f _ hf j
  · refine ⟨_, ?_, .upd s (fun c => { c with waiting := some (.flag f.toNat) })⟩
    show execFwait f s = _
    rw [execFwait, s.core.flagTake_empty hf hzero]
    rfl
  · exact s.writeReg_writes d _ 4
  · intro hspan hne hsq hf u hroom
    exact fsigQuad_signals rfl rfl hspan hne hsq hf hroom

end Sys2Proof.Claims
end

