-- ==== Sys2Proof/Proofs/QueueEntries.lean ====
section
namespace Sys2Proof.Machine
open Sys2Proof.Claims

/-! ## Queues of the acting core -/

theorem State.onEngine_self (s : State) (f : State → Result) (h : Engines s) : s.onEngine s.cur s.eng f = f s := by
  unfold State.onEngine
  rw [show s.engineCtx s.cur = some s.ctx from h]

@[simp] theorem State.q_setQ (s : State) (q : Queue) : (s.setQ q).q = q := by
  unfold State.q State.setQ
  rw [State.core_upd, State.upd_eng, Core.queue_setQueue, if_pos rfl]

/-- What the sequencer performs. -/
theorem State.act_of_q {s : State} {a : Active} (h : s.q.act = some a) : s.act = a := by
  rw [State.act, h]
  rfl

/-- Flags and the event latch lie outside the queues. -/
theorem Core.SameButFlags.queue {c d : Core} (h : c.SameButFlags d) (e : Eng) : d.queue e = c.queue e := by
  rw [show d = { c with flags := d.flags, latch := d.latch } from h]
  cases e <;> rfl

theorem Core.SameButFlags.setQueue {c d : Core} (h : c.SameButFlags d) (e : Eng) (q : Queue) :
    d.setQueue e q = { c with flags := d.flags, latch := d.latch }.setQueue e q :=
  congrArg (fun x : Core => x.setQueue e q) h

@[simp] theorem Core.flag_setQueue (c : Core) (e : Eng) (q : Queue) (f : Nat) : (c.setQueue e q).flag f = c.flag f := by
  rw [Core.flag, Core.setQueue_flags]
  rfl

/-! ## Beginning (R122, R123) -/

/-- The head begins, once its flag has a count, which it takes (R122). -/
theorem Core.beginHead_spec {c : Core} {e : Eng} {x : Entry} {rest : List Entry} (hs : (c.queue e).stopped = none)
    (ha : (c.queue e).act = none) (hw : (c.queue e).hw = x :: rest) (he : x.epoch ≤ c.epoch)
    (hb : (c.queue e).bpSeq = none) (hf : (c.queue e).bpFlag = none) (hwf : x.wf = 0 ∨ 0 < c.flag x.wf.toNat) :
    ∃ d, c.SameButFlags d
      ∧ c.beginHead e = some (d.setQueue e { c.queue e with hw := rest, act := some (Active.start x) })
      ∧ ∀ j : Ix6, d.flag j.toNat = if j = x.wf ∧ j ≠ 0 then c.flag j.toNat - 1 else c.flag j.toNat := by
  obtain ⟨d, hd, hsame, hflags⟩ := c.flagTake_spec x.wf hwf
  have hmay : (c.queue e).mayBegin c = some x := by
    simp [Queue.mayBegin, hs, ha, hw, hb, hf, Nat.not_lt.mpr he]
  refine ⟨d, hsame, ?_, hflags⟩
  simp only [Core.beginHead, hmay, hd, hsame.queue, hw, List.drop_one, List.tail_cons]

theorem Active.start_spec (x : Entry) :
    (Active.start x).entry = x ∧ (Active.start x).cur = x ∧ (Active.start x).rep = 0 ∧ (Active.start x).inner = none
      ∧ (Active.start x).index = 0 ∧ (Active.start x).innerBegun = false := by
  unfold Active.start
  split <;> exact ⟨rfl, rfl, rfl, rfl, rfl, rfl⟩

/-- A head that has issued all it holds, and no block's, goes in flight (R122). -/
theorem Queue.endEntry_single (q : Queue) {a : Active} (h : a.inner = none) :
    q.endEntry a = { q with act := none, flight := q.flight ++ [{ entry := a.entry, doneAt := a.land, chans := a.chans }] } := by
  rw [Queue.endEntry, h]

/-- The first inner entry of a block follows (R123). -/
theorem Active.open_spec (a : Active) (y : Entry) (rest : List Entry) :
    (a.open_ (y :: rest)).entry = a.entry ∧ (a.open_ (y :: rest)).cur = y ∧ (a.open_ (y :: rest)).inner = some rest
      ∧ (a.open_ (y :: rest)).index = 0 ∧ (a.open_ (y :: rest)).innerBegun = false := by
  obtain ⟨-, hcur, -, -, -, hbegun⟩ := Active.start_spec y
  exact ⟨rfl, hcur, rfl, rfl, hbegun⟩

/-! ## A queue that stops (R115) -/

/-- State t has the cores of state s, and the same actor. -/
structure State.SameCores (s t : State) : Prop where
  cores : t.cores = s.cores
  ctx : t.ctx = s.ctx
  cur : t.cur = s.cur

theorem State.SameCores.refl (s : State) : s.SameCores s := ⟨rfl, rfl, rfl⟩

theorem State.SameCores.trans {s t u : State} (h : s.SameCores t) (k : t.SameCores u) : s.SameCores u :=
  ⟨k.cores.trans h.cores, k.ctx.trans h.ctx, k.cur.trans h.cur⟩

theorem State.SameCores.coreAt {s t : State} (h : s.SameCores t) (c n : Nat) : t.coreAt c n = s.coreAt c n := by
  rw [State.coreAt, h.cores]
  rfl

theorem State.SameCores.core {s t : State} (h : s.SameCores t) : t.core = s.core := by
  rw [State.core, h.ctx, h.cur]
  exact h.coreAt s.ctx s.cur

theorem State.putPhys_sameCores (s : State) (a n v : Nat) : s.SameCores (s.putPhys a n v) := by
  obtain ⟨m, mp, w, wp, h⟩ := s.writeRowAt_frame ⟨false, a⟩ (placeAt (a % 128) v) (byteMask (a % 128) n)
  rw [State.putPhys, h]
  exact ⟨rfl, rfl, rfl⟩

theorem State.updLaunch_sameCores (s : State) (i : Nat) (f : Launch → Launch) : s.SameCores (s.updLaunch i f) := by
  rw [s.updLaunch_eq]
  exact ⟨rfl, rfl, rfl⟩

theorem State.shareRecord_sameCores (s : State) (v : Nat) : s.SameCores (s.shareRecord v) := by
  unfold State.shareRecord
  split <;> exact ⟨rfl, rfl, rfl⟩

/-- A trace record leaves every core as it was (R332). -/
theorem State.trace_sameCores (s : State) (kind core eng seq payload : Nat) :
    s.SameCores (s.trace kind core eng seq payload) := by
  unfold State.trace
  extract_lets v
  refine State.SameCores.trans ?_ (State.shareRecord_sameCores _ v)
  split
  · exact .refl s
  · split
    · exact ⟨rfl, rfl, rfl⟩
    · unfold State.keepRecord
      extract_lets r
      refine State.SameCores.trans ?_ (State.putPhys_sameCores _ _ 32 v)
      exact ⟨rfl, rfl, rfl⟩

/-- The acting core with queue e stopped on the fault f, and the faults on record. -/
def Core.stoppedOn (c : Core) (e : Eng) (f : EngFault) (stops : SMap (BitVec 256)) : Core :=
  { c.setQueue e { c.queue e with stopped := some f } with stops := stops }

theorem Core.queue_stoppedOn (c : Core) (e : Eng) (f : EngFault) (m : SMap (BitVec 256)) (g : Eng) :
    (c.stoppedOn e f m).queue g = if g = e then { c.queue e with stopped := some f } else c.queue g := by
  rw [← Core.queue_setQueue]
  cases g <;> rfl

theorem Core.stoppedOn_pc (c : Core) (e : Eng) (f : EngFault) (m : SMap (BitVec 256)) : (c.stoppedOn e f m).pc = c.pc :=
  c.setQueue_pc e _

theorem Core.rd_stoppedOn (c : Core) (e : Eng) (f : EngFault) (m : SMap (BitVec 256)) (k : Reg) :
    (c.stoppedOn e f m).rd k = c.rd k := by
  show (if k = 0 then 0 else SMap.get 0 (c.setQueue e _).s k.toNat) = _
  rw [Core.setQueue_s]
  rfl

/-- An engine's fault stops its queue with the entry at its head; launches and the trace apart, nothing else changes
(R115). -/
theorem State.engineFault_eq (s : State) (e : Eng) (x : Entry) (code : BitVec 8) (p : Progress)
    (h : (s.core.queue e).stopped = none) :
    ∃ f m, f.code = code ∧ f.seq = x.seq ∧ f.told = false ∧ f.task = x.task ∧ f.launch = x.launch
      ∧ f.prev = s.core.entryPrev x ∧ f.progress = s.core.progressOf e x.seq p
      ∧ (s.upd (fun c => c.stoppedOn e f m)).SameCores (s.engineFault e x code p) := by
  unfold State.engineFault
  extract_lets c q prev f r s1 s2 s3
  rw [if_neg (by rw [show q.stopped = none from h]; exact Bool.false_ne_true)]
  refine ⟨f, SMap.set 0 c.stops (faultValue e f).toNat r, rfl, rfl, rfl, rfl, rfl, rfl, rfl, ?_⟩
  have h3 : s1.SameCores s3 := (s1.updLaunch_sameCores _ _).trans (s2.trace_sameCores _ _ _ _ _)
  split
  · exact h3.trans (s3.updLaunch_sameCores _ _)
  · exact h3

theorem State.engineFault_stops (s : State) (e : Eng) (x : Entry) (code : BitVec 8) (p : Progress)
    (h : (s.core.queue e).stopped = none) : QueueStops s (s.engineFault e x code p) e x code p := by
  obtain ⟨f, m, hcode, hseq, htold, htask, hlaunch, hprev, hprogress, ht⟩ := s.engineFault_eq e x code p h
  have hcore : (s.engineFault e x code p).core = s.core.stoppedOn e f m := ht.core.trans (State.core_upd s _)
  refine ⟨⟨f, ?_, hcode, hseq, htold, htask, hlaunch, hprev, hprogress⟩, ?_, fun k => ?_, ?_, ?_, fun g hg => ?_,
    fun c n hne => (ht.coreAt c n).trans (State.coreAt_upd_ne s _ hne)⟩ <;> rw [hcore]
  · rw [Core.queue_stoppedOn, if_pos rfl]
  · exact s.core.stoppedOn_pc e f m
  · exact s.core.rd_stoppedOn e f m k
  · rw [Core.queue_stoppedOn, if_pos rfl]
  · rw [Core.queue_stoppedOn, if_pos rfl]
  · rw [Core.queue_stoppedOn, if_neg hg]

end Sys2Proof.Machine

namespace Sys2Proof.Claims
open Sys2Proof.Machine

/-! ## The steps of an entry -/

theorem div_two_pow_ne_zero {x k : Nat} (h : 2 ^ k ≤ x) : x / 2 ^ k ≠ 0 := (Nat.div_pos h (Nat.two_pow_pos k)).ne'

theorem CoreBecomes.setQ (s : State) (q : Queue) : CoreBecomes s (s.setQ q) (s.core.setQueue s.eng q) := .upd s _

/-- Changes of the acting core, one after the other. -/
theorem OnlyCore.trans {s t u : State} (h : OnlyCore s t) (k : OnlyCore t u) : OnlyCore s u := by
  obtain ⟨hf, ⟨hm, hv, hr⟩, hc⟩ := h
  obtain ⟨kf, ⟨km, kv, kr⟩, kc⟩ := k
  have hkey : coreKey t.ctx t.cur = coreKey s.ctx s.cur := by rw [hf]
  exact ⟨kf.trans (congrArg (fun x : State => { x with cores := u.cores }) hf),
    ⟨fun a => (km a).trans (hm a), fun a => (kv a).trans (hv a), fun a => (kr a).trans (hr a)⟩,
    fun c n hne => (kc c n (hkey ▸ hne)).trans (hc c n hne)⟩

theorem OnlyCore.setCore_setQ (s : State) (c : Core) (q : Queue) : OnlyCore s ((s.setCore c).setQ q) :=
  (OnlyCore.upd s (fun _ => c)).trans (.upd (s.setCore c) _)

theorem entryWait_begins {s : State} {x : Entry} {rest : List Entry} (hE : Engines s) (hs : s.q.stopped = none)
    (ha : s.q.act = none) (hw : s.q.hw = x :: rest) (he : x.epoch ≤ s.core.epoch) (hb : s.q.bpSeq = none)
    (hf : s.q.bpFlag = none) (hwf : x.wf = 0 ∨ 0 < s.core.flag x.wf.toNat) :
    ∃ t b, exec (.entryWaitSatisfied s.cur s.eng) s = .next t ∧ OnlyCore s t
      ∧ t.q = { s.q with hw := rest, act := some b } ∧ b.entry = x ∧ b.cur = x ∧ b.rep = 0 ∧ b.inner = none
      ∧ t.core = { s.core with flags := t.core.flags, latch := t.core.latch }.setQueue s.eng t.q
      ∧ ∀ j : Ix6, t.core.flag j.toNat = if j = x.wf ∧ j ≠ 0 then s.core.flag j.toNat - 1 else s.core.flag j.toNat := by
  obtain ⟨d, hd, hbegin, hflags⟩ := Core.beginHead_spec (c := s.core) (e := s.eng) hs ha hw he hb hf hwf
  obtain ⟨q', hq'⟩ : ∃ q', q' = { s.q with hw := rest, act := some (Active.start x) } := ⟨_, rfl⟩
  rw [show ({ s.core.queue s.eng with hw := rest, act := some (Active.start x) } : Queue) = q' from hq'.symm] at hbegin
  have hexec : exec (.entryWaitSatisfied s.cur s.eng) s = .next (s.upd (fun _ => d.setQueue s.eng q')) := by
    show execEntryWaitSatisfied s.cur s.eng s = _
    rw [execEntryWaitSatisfied, s.onEngine_self _ hE]
    simp only [hs, ha, hbegin, Option.isSome_none, Bool.false_eq_true, if_false]
    rfl
  obtain ⟨hentry, hcur, hrep, hinner, -, -⟩ := Active.start_spec x
  have hcore : (s.upd (fun _ => d.setQueue s.eng q')).core = d.setQueue s.eng q' := State.core_upd s _
  have hq : (s.upd (fun _ => d.setQueue s.eng q')).q = q' := by
    rw [State.q, hcore, State.upd_eng, Core.queue_setQueue, if_pos rfl]
  refine ⟨_, _, hexec, .upd s _, hq.trans hq', hentry, hcur, hrep, hinner, ?_, fun j => ?_⟩
  · rw [hq, hcore, Core.setQueue_flags, Core.setQueue_latch]
    exact hd.setQueue s.eng q'
  · rw [hcore, Core.flag_setQueue]
    exact hflags j

/-- The flag of an inner entry: its take, or the take that a cycle has made for it (R123, R125). -/
theorem entryWait_opens {s : State} {a : Active} (hE : Engines s) (hs : s.q.stopped = none) (ha : s.q.act = some a)
    (hi : a.inner ≠ none) (hb : a.innerBegun = false)
    (hwf : a.taken = true ∨ a.cur.wf = 0 ∨ 0 < s.core.flag a.cur.wf.toNat) :
    ∃ t, exec (.entryWaitSatisfied s.cur s.eng) s = .next t ∧ OnlyCore s t
      ∧ t.q = { s.q with act := some { a with innerBegun := true, waitFlag := none, taken := false, fresh := true } }
      ∧ ∀ j : Ix6, t.core.flag j.toNat =
          if a.taken = false ∧ j = a.cur.wf ∧ j ≠ 0 then s.core.flag j.toNat - 1 else s.core.flag j.toNat := by
  obtain ⟨d, hd, hsame, hflags⟩ : ∃ d, (if a.taken = true then some s.core else s.core.flagTake a.cur.wf.toNat) = some d
      ∧ s.core.SameButFlags d ∧ ∀ j : Ix6, d.flag j.toNat =
        if a.taken = false ∧ j = a.cur.wf ∧ j ≠ 0 then s.core.flag j.toNat - 1 else s.core.flag j.toNat := by
    cases ht : a.taken with
    | true => exact ⟨s.core, rfl, .refl _, fun j => (if_neg (fun h => Bool.noConfusion h.1)).symm⟩
    | false =>
      obtain ⟨d, hd, hsame, hflags⟩ := s.core.flagTake_spec a.cur.wf (hwf.resolve_left (by simp [ht]))
      exact ⟨d, hd, hsame, fun j => by simp only [hflags j, true_and]⟩
  have hq : (s.setCore d).q = s.q := by
    rw [State.q, State.core_setCore]
    exact hsame.queue s.eng
  have hexec : exec (.entryWaitSatisfied s.cur s.eng) s = .next ((s.setCore d).setQ
      { s.q with act := some { a with innerBegun := true, waitFlag := none, taken := false, fresh := true } }) := by
    show execEntryWaitSatisfied s.cur s.eng s = _
    rw [execEntryWaitSatisfied, s.onEngine_self _ hE]
    simp only [hs, ha, hb, hd, Option.isSome_iff_ne_none.mpr hi, Option.isSome_none, Bool.false_eq_true, Bool.not_false,
      Bool.and_self, if_false, if_true, State.setAct, hq]
  refine ⟨_, hexec, .setCore_setQ s d _, State.q_setQ _ _, fun j => ?_⟩
  rw [State.setQ, State.core_upd, State.core_setCore, Core.flag_setQueue]
  exact hflags j

theorem entryWait_waits {s : State} {a : Active} (hE : Engines s) (hs : s.q.stopped = none) (ha : s.q.act = some a)
    (hi : a.inner ≠ none) (hb : a.innerBegun = false) (ht : a.taken = false) (hwf : a.cur.wf ≠ 0)
    (hzero : s.core.flag a.cur.wf.toNat = 0) :
    ∃ t, exec (.entryWaitSatisfied s.cur s.eng) s = .next t
      ∧ CoreBecomes s t (s.core.setQueue s.eng { s.q with act := some { a with waitFlag := some a.cur.wf.toNat } }) := by
  refine ⟨_, ?_, CoreBecomes.setQ s _⟩
  show execEntryWaitSatisfied s.cur s.eng s = _
  rw [execEntryWaitSatisfied, s.onEngine_self _ hE]
  simp only [hs, ha, hb, ht, s.core.flagTake_empty hwf hzero, Option.isSome_iff_ne_none.mpr hi, Option.isSome_none,
    Bool.false_eq_true, Bool.not_false, Bool.and_self, if_false, if_true, State.setAct]

theorem nullEntry_flies {s : State} {a : Active} (hE : Engines s) (hs : s.q.stopped = none) (ha : s.q.act = some a)
    (hb : a.cur.body = .null) (hi : a.inner = none) :
    ∃ t, exec (.nullEntry s.cur s.eng) s = .next t ∧ CoreBecomes s t (s.core.setQueue s.eng
      { s.q with act := none, flight := s.q.flight ++ [{ entry := a.entry, doneAt := max a.land s.now, chans := a.chans }] }) := by
  obtain ⟨b, hb'⟩ : ∃ b, b = { a with land := max a.land s.now } := ⟨_, rfl⟩
  have hend : s.q.endEntry b = _ := s.q.endEntry_single (by rw [hb']; exact hi)
  have hexec : exec (.nullEntry s.cur s.eng) s = .next (s.setQ (s.q.endEntry b)) := by
    show execNullEntry s.cur s.eng s = _
    rw [execNullEntry, s.onEngine_self _ hE]
    simp only [hs, ha, hb, hb', Option.isSome_none]
  rw [hend, hb'] at hexec
  exact ⟨_, hexec, CoreBecomes.setQ s _⟩

theorem blockEntry_opens {s s1 s2 : State} {a : Active} {addr : Word} {h : Nat} {l : List Nat} {y : Entry} {rest : List Entry}
    (hE : Engines s) (hs : s.q.stopped = none) (ha : s.q.act = some a) (hb : a.cur.body = .block addr)
    (hc : a.entry.blockCopy = []) (h1 : 1 ≤ h) (h64 : h < 64)
    (hhead : s.readSlots (s.readerOf a.entry) (addr.toNat / 16 * 16) 1 = (s1, .ok [h]))
    (hbody : s1.readSlots (s1.readerOf a.entry) (addr.toNat / 16 * 16 + 16) h = (s2, .ok l)) (hl : l.length = h)
    (hin : innerEntries a.entry 64 l = some (y :: rest)) :
    ∃ t b, exec (.blockEntry s.cur s.eng) s = .next t ∧ CoreBecomes s2 t (s2.core.setQueue s2.eng { s2.q with act := some b })
      ∧ b.entry = a.entry ∧ b.cur = y ∧ b.inner = some rest ∧ b.index = 0 ∧ b.innerBegun = false := by
  refine ⟨_, a.open_ (y :: rest), ?_, CoreBecomes.setQ s2 _, a.open_spec y rest⟩
  have hmod : h % 64 = h := Nat.mod_eq_of_lt h64
  have hdiv : ¬(h / 64 ≠ 0 ∨ h % 64 = 0) := by omega
  show execBlockEntry s.cur s.eng s = _
  rw [execBlockEntry, s.onEngine_self _ hE]
  simp only [State.act_of_q ha, hs, hb, hc, hhead, List.headD_cons, hmod, hbody, Option.isSome_none, List.isEmpty_nil, Bool.not_true,
    Bool.false_eq_true, if_false]
  have htake : l.take h = l := hl ▸ List.take_length
  show (if h / 64 ≠ 0 ∨ h % 64 = 0 then _ else _) = _
  rw [if_neg hdiv, hmod, show ([].append l : List Nat) = l from rfl, htake, hin]
  rfl

theorem programRow_holds {s s1 : State} {a : Active} {row : Row} (hE : Engines s) (hs : s.q.stopped = none)
    (ha : s.q.act = some a) (hb : ∃ r0 sl p0 p1 p2 p3, a.cur.body = .stream r0 sl p0 p1 p2 p3)
    (hread : s.readLoc (s.readerOf a.entry) (.va a.row.toNat) = (s1, .ok row)) (hrow : row.toNat < 2 ^ 1008) :
    ∃ t, exec (.programRowFetch s.cur s.eng) s = .next t ∧ CoreBecomes s1 t
      (s1.core.setQueue s1.eng { s1.q with act := some { a with held := some (a.row, row), fresh := true } }) := by
  obtain ⟨r0, sl, p0, p1, p2, p3, hbody⟩ := hb
  refine ⟨_, ?_, CoreBecomes.setQ s1 _⟩
  have htop : row.toNat / 2 ^ 1008 = 0 := Nat.div_eq_of_lt hrow
  show execProgramRowFetch s.cur s.eng s = _
  rw [execProgramRowFetch, s.onEngine_self _ hE]
  simp only [State.act_of_q ha, hs, hbody, hread, htop, Option.isSome_none, ne_eq, not_true_eq_false, if_false, State.setAct]

theorem programRow_faults {s s1 : State} {a : Active} {row : Row} (hE : Engines s) (hs : s.q.stopped = none)
    (ha : s.q.act = some a) (hb : ∃ r0 sl p0 p1 p2 p3, a.cur.body = .stream r0 sl p0 p1 p2 p3)
    (hread : s.readLoc (s.readerOf a.entry) (.va a.row.toNat) = (s1, .ok row)) (hrow : 2 ^ 1008 ≤ row.toNat) (hq : s1.q = s.q) :
    ∃ t, exec (.programRowFetch s.cur s.eng) s = .next t ∧ QueueStops s1 t s1.eng a.entry 0x15 {} := by
  obtain ⟨r0, sl, p0, p1, p2, p3, hbody⟩ := hb
  have htop : row.toNat / 2 ^ 1008 ≠ 0 := div_two_pow_ne_zero hrow
  have hact : s1.act = a := State.act_of_q (hq ▸ ha)
  refine ⟨_, ?_, s1.engineFault_stops s1.eng a.entry cProgramRow {} (show s1.q.stopped = none from hq ▸ hs)⟩
  show execProgramRowFetch s.cur s.eng s = _
  rw [execProgramRowFetch, s.onEngine_self _ hE]
  simp only [State.act_of_q ha, hs, hbody, hread, htop, Option.isSome_none, ne_eq, not_false_eq_true, if_true, State.wordFault,
    hact]

theorem saddlebag_returns {s : State} {x : Entry} {rest : List Entry} (hE : Engines s) (hp : s.q.spill = x :: rest)
    (hroom : s.q.hwSlots + x.slots ≤ 32) :
    ∃ t, exec (.saddlebagReturn s.cur s.eng) s = .next t
      ∧ CoreBecomes s t (s.core.setQueue s.eng { s.q with hw := s.q.hw ++ [x], spill := rest }) := by
  refine ⟨_, ?_, CoreBecomes.setQ s _⟩
  show execSaddlebagReturn s.cur s.eng s = _
  rw [execSaddlebagReturn, s.onEngine_self _ hE]
  simp only [Queue.unspill, hp, hroom, if_true]

/-- A queue that stops where the acting core alone had been written before, with itself. -/
theorem QueueStops.of_sameCore {s u t : State} {e : Eng} {x : Entry} {code : BitVec 8} {p : Progress}
    (h : QueueStops u t e x code p) (hu : OnlyCore s u) (hc : u.core = s.core) : QueueStops s t e x code p := by
  obtain ⟨hstop, hpc, hregs, hact, hflight, hqueues, hothers⟩ := h
  obtain ⟨hf, -, ho⟩ := hu
  have hkey : coreKey u.ctx u.cur = coreKey s.ctx s.cur := by rw [hf]
  rw [hc] at hstop hpc hregs hact hflight hqueues
  exact ⟨hstop, hpc, hregs, hact, hflight, hqueues, fun c n hne => (hothers c n (hkey ▸ hne)).trans (ho c n hne)⟩

end Sys2Proof.Claims

namespace Sys2Proof.Machine
open Sys2Proof.Claims

/-! ## The end of an entry (R122, R127, R175) -/

/-- What the end of an entry makes of the forks: those of its own stream lose the engine (R127). -/
theorem Core.markFork_spec (c : Core) (x : Entry) (e : Eng) :
    c.markFork x e = { c with forks := (c.markFork x e).forks } ∧ (x.fork = none → c.markFork x e = c)
      ∧ ∀ i, x.fork = some i → (SMap.get {} (c.markFork x e).forks i).pending =
          (SMap.get {} c.forks i).pending.filter (fun g => g != e) := by
  unfold Core.markFork
  cases hk : x.fork with
  | none => exact ⟨rfl, fun _ => rfl, nofun⟩
  | some k =>
    refine ⟨rfl, nofun, fun i hi => ?_⟩
    obtain rfl : k = i := Option.some.inj hi
    exact congrArg ForkMark.pending (SMap.get_set_same _ _ _ _)

@[simp] theorem Core.markFork_flag (c : Core) (x : Entry) (e : Eng) (f : Nat) : (c.markFork x e).flag f = c.flag f := by
  rw [(c.markFork_spec x e).1]
  rfl

@[simp] theorem Core.markFork_queue (c : Core) (x : Entry) (e g : Eng) : (c.markFork x e).queue g = c.queue g := by
  rw [(c.markFork_spec x e).1]
  cases g <;> rfl

/-- The claims of an entry that stand in this package's tables only are released there (R175). -/
theorem State.releaseClaims_local (s : State) (core seq : Nat)
    (h : ∀ c, c ∈ s.claims → c.ctx = s.ctx → c.core = core → c.seq = seq → c.pkg = none) :
    s.releaseClaims core seq =
      { s with claims := s.claims.filter (fun c => !(c.ctx == s.ctx && c.core == core && c.seq == seq)) } := by
  unfold State.releaseClaims
  extract_lets own far
  have hfar : far = [] := List.filterMap_eq_nil_iff.mpr (fun c hc => by
    obtain ⟨hmem, hown⟩ := List.mem_filter.mp hc
    simp only [own, Bool.and_eq_true, beq_iff_eq] at hown
    rw [h c hmem hown.1.1 hown.1.2 hown.2]
    rfl)
  rw [hfar]
  rfl

/-- Entry f, the k-th in flight, leaves its queue; d is the acting core with its signal (R122). -/
def State.leaveFlight (s : State) (d : Core) (f : Flight) (k : Nat) : State :=
  ((s.setCore d).setQ { (s.setCore d).q with flight := dropAt (s.setCore d).q.flight k }).upd (fun c =>
    if f.inner.isNone ∧ s.eng = .c then { c with ended := SMap.set {} c.ended f.entry.seq {} } else c)

/-- The queue of the current engine without its k-th entry in flight. -/
def Queue.withoutFlight (q : Queue) (k : Nat) : Queue := { q with flight := q.flight.take k ++ q.flight.drop (k + 1) }

theorem State.leaveFlight_spec (s : State) {d : Core} (f : Flight) (k : Nat) (hd : s.core.SameButFlags d) :
    OnlyCore s (s.leaveFlight d f k) ∧ (s.leaveFlight d f k).q = s.q.withoutFlight k
      ∧ (s.leaveFlight d f k).core = if f.inner.isNone ∧ s.eng = .c then
          { d.setQueue s.eng (s.q.withoutFlight k) with ended := SMap.set {} s.core.ended f.entry.seq {} }
        else d.setQueue s.eng (s.q.withoutFlight k) := by
  have hq : (s.setCore d).q = s.q := by
    rw [State.q, State.core_setCore]
    exact hd.queue s.eng
  have hended : d.ended = s.core.ended := by rw [show d = { s.core with flags := d.flags, latch := d.latch } from hd]
  have hcore : (s.leaveFlight d f k).core = if f.inner.isNone ∧ s.eng = .c then
      { d.setQueue s.eng (s.q.withoutFlight k) with ended := SMap.set {} s.core.ended f.entry.seq {} }
      else d.setQueue s.eng (s.q.withoutFlight k) := by
    rw [State.leaveFlight, State.core_upd, hq, State.setQ, State.core_upd, State.core_setCore, Core.setQueue_ended, hended]
    rfl
  have hmoves : OnlyCore s (s.leaveFlight d f k) := by
    unfold State.leaveFlight
    exact (OnlyCore.setCore_setQ s d _).trans (.upd _ _)
  have heng : (s.leaveFlight d f k).eng = s.eng := by rw [hmoves.1]
  refine ⟨hmoves, ?_, hcore⟩
  rw [State.q, hcore, heng]
  have hback : (d.setQueue s.eng (s.q.withoutFlight k)).queue s.eng = s.q.withoutFlight k := by
    rw [Core.queue_setQueue, if_pos rfl]
  split
  · refine Eq.trans ?_ hback
    cases s.eng <;> rfl
  · exact hback

/-- The signal of an entry that has ended, by its flag (R66, R122). -/
theorem execEntryComplete_signals {s : State} {f : Flight} {k : Nat} {d : Core} (hE : Engines s) (hs : s.q.stopped = none)
    (hk : s.q.flight[k]? = some f) (hdone : s.flightDone f = true)
    (hd : (s.core.markFork f.entry s.eng).flagInc f.entry.sf.toNat 1 = some d) :
    exec (.entryComplete s.cur s.eng k) s = .next
      (if f.inner.isNone ∧ s.eng = .c then
        ((s.upd (fun c => c.markFork f.entry s.eng)).leaveFlight d f k).releaseClaims s.cur f.entry.seq
      else (s.upd (fun c => c.markFork f.entry s.eng)).leaveFlight d f k) := by
  show execEntryComplete s.cur s.eng k s = _
  rw [execEntryComplete, s.onEngine_self _ hE]
  simp only [hk, hdone, hs, Option.any_none, Bool.not_true, Bool.or_self, Bool.false_eq_true, if_false, State.core_upd, hd]
  rfl

/-- The signal of an entry would pass 65,535: its queue stops (R66, R122). -/
theorem execEntryComplete_overflows {s : State} {f : Flight} {k : Nat} (hE : Engines s) (hs : s.q.stopped = none)
    (hk : s.q.flight[k]? = some f) (hdone : s.flightDone f = true)
    (hd : (s.core.markFork f.entry s.eng).flagInc f.entry.sf.toNat 1 = none) :
    exec (.entryComplete s.cur s.eng k) s = .next
      ((s.upd (fun c => c.markFork f.entry s.eng)).engineFault s.eng f.entry cFlagOverflow
        { rep := (if s.eng = .c then SMap.get {} (s.core.markFork f.entry s.eng).ended f.entry.seq else {}).rep,
          count := (if s.eng = .c then SMap.get {} (s.core.markFork f.entry s.eng).ended f.entry.seq else {}).count }) := by
  show execEntryComplete s.cur s.eng k s = _
  rw [execEntryComplete, s.onEngine_self _ hE]
  simp only [hk, hdone, hs, Option.any_none, Bool.not_true, Bool.or_self, Bool.false_eq_true, if_false, State.core_upd, hd]

end Sys2Proof.Machine

namespace Sys2Proof.Claims
open Sys2Proof.Machine

section
variable {s : State} {f : Flight} {k : Nat}

theorem entryComplete_leaves (hE : Engines s) (hs : s.q.stopped = none) (hk : s.q.flight[k]? = some f)
    (hdone : s.flightDone f = true) (he : s.eng ≠ .c) (hroom : f.entry.sf = 0 ∨ s.core.flag f.entry.sf.toNat < 65535) :
    ∃ t, exec (.entryComplete s.cur s.eng k) s = .next t ∧ OnlyCore s t
      ∧ t.q = { s.q with flight := s.q.flight.take k ++ s.q.flight.drop (k + 1) }
      ∧ t.core = { s.core with flags := t.core.flags, latch := t.core.latch, forks := t.core.forks }.setQueue s.eng t.q
      ∧ (f.entry.fork = none → t.core.forks = s.core.forks)
      ∧ (∀ i, f.entry.fork = some i → (SMap.get {} t.core.forks i).pending =
          (SMap.get {} s.core.forks i).pending.filter (fun g => g != s.eng))
      ∧ ∀ j : Ix6, t.core.flag j.toNat = if j = f.entry.sf ∧ j ≠ 0 then s.core.flag j.toNat + 1 else s.core.flag j.toNat := by
  obtain ⟨c, hc⟩ : ∃ c, c = s.core.markFork f.entry s.eng := ⟨_, rfl⟩
  obtain ⟨hmark, hsame, hpend⟩ := s.core.markFork_spec f.entry s.eng
  rw [← hc] at hmark hsame hpend
  obtain ⟨d, hd, hdc, hflags⟩ := c.flagInc_spec f.entry.sf (by rw [hc, Core.markFork_flag]; exact hroom)
  have hexec := execEntryComplete_signals hE hs hk hdone (hc ▸ hd)
  rw [if_neg (fun h => he h.2)] at hexec
  have hc1 : (s.upd (fun c => c.markFork f.entry s.eng)).core = c := (State.core_upd s _).trans hc.symm
  obtain ⟨honly, hq, hcore⟩ :=
    (s.upd (fun c => c.markFork f.entry s.eng)).leaveFlight_spec (d := d) f k (by rw [hc1]; exact hdc)
  have hq1 : (s.upd (fun c => c.markFork f.entry s.eng)).q = s.q := by
    rw [State.q, hc1, hc]
    exact s.core.markFork_queue _ _ _
  rw [if_neg (fun h => he h.2), hq1, State.upd_eng] at hcore
  rw [hq1] at hq
  have hforks : d.forks = c.forks := by rw [show d = { c with flags := d.flags, latch := d.latch } from hdc]
  refine ⟨_, hexec, (OnlyCore.upd s _).trans honly, hq, ?_, fun h => ?_, fun i h => ?_, fun j => ?_⟩ <;> rw [hcore]
  · rw [hq, Core.setQueue_flags, Core.setQueue_latch, Core.setQueue_forks, hforks]
    refine congrArg (fun x : Core => x.setQueue s.eng (s.q.withoutFlight k)) ?_
    rw [show d = { c with flags := d.flags, latch := d.latch } from hdc, hmark]
  · rw [Core.setQueue_forks, hforks, hsame h]
  · rw [Core.setQueue_forks, hforks, hpend i h]
  · rw [Core.flag_setQueue, hflags, hc, Core.markFork_flag]

theorem entryComplete_overflows (hE : Engines s) (hs : s.q.stopped = none) (hk : s.q.flight[k]? = some f)
    (hdone : s.flightDone f = true) (hsf : f.entry.sf ≠ 0) (hfull : 65535 ≤ s.core.flag f.entry.sf.toNat)
    (hfork : f.entry.fork = none) :
    ∃ t p, exec (.entryComplete s.cur s.eng k) s = .next t ∧ QueueStops s t s.eng f.entry 0x0F p
      ∧ (s.eng ≠ .c → p = {}) ∧ (s.eng = .c → p = { rep := (SMap.get {} s.core.ended f.entry.seq).rep,
                                                    count := (SMap.get {} s.core.ended f.entry.seq).count }) := by
  have hmark : s.core.markFork f.entry s.eng = s.core := (s.core.markFork_spec f.entry s.eng).2.1 hfork
  have hexec := execEntryComplete_overflows hE hs hk hdone
    (by rw [hmark]; exact s.core.flagInc_overflows hsf (by omega))
  rw [hmark] at hexec
  have hc1 : (s.upd (fun c => c.markFork f.entry s.eng)).core = s.core := (State.core_upd s _).trans hmark
  refine ⟨_, _, hexec, QueueStops.of_sameCore (State.engineFault_stops _ _ _ _ _ ?_) (.upd s _) hc1, fun h => ?_, fun h => ?_⟩
  · rw [hc1]
    exact hs
  · rw [if_neg h]
  · rw [if_pos h]

theorem copyComplete_releases (hE : Engines s) (hs : s.q.stopped = none) (hk : s.q.flight[k]? = some f)
    (hdone : s.flightDone f = true) (he : s.eng = .c) (hinner : f.inner = none) (hfork : f.entry.fork = none)
    (hlocal : ∀ c, c ∈ s.claims → c.ctx = s.ctx → c.core = s.cur → c.seq = f.entry.seq → c.pkg = none)
    (hroom : f.entry.sf = 0 ∨ s.core.flag f.entry.sf.toNat < 65535) :
    ∃ t, exec (.entryComplete s.cur s.eng k) s = .next t ∧ t = { s with cores := t.cores, claims := t.claims }
      ∧ t.q = { s.q with flight := s.q.flight.take k ++ s.q.flight.drop (k + 1) }
      ∧ (∀ c, c ∈ t.claims ↔ c ∈ s.claims ∧ ¬(c.ctx = s.ctx ∧ c.core = s.cur ∧ c.seq = f.entry.seq))
      ∧ SMap.get {} t.core.ended f.entry.seq = {}
      ∧ ∀ j : Ix6, t.core.flag j.toNat = if j = f.entry.sf ∧ j ≠ 0 then s.core.flag j.toNat + 1 else s.core.flag j.toNat := by
  have hmark : s.core.markFork f.entry s.eng = s.core := (s.core.markFork_spec f.entry s.eng).2.1 hfork
  obtain ⟨d, hd, hdc, hflags⟩ := s.core.flagInc_spec f.entry.sf hroom
  have hexec := execEntryComplete_signals hE hs hk hdone (by rw [hmark]; exact hd)
  have hcopy : f.inner.isNone = true ∧ s.eng = .c := ⟨by rw [hinner]; rfl, he⟩
  rw [if_pos hcopy] at hexec
  have hc1 : (s.upd (fun c => c.markFork f.entry s.eng)).core = s.core := (State.core_upd s _).trans hmark
  have hq1 : (s.upd (fun c => c.markFork f.entry s.eng)).q = s.q := by
    rw [State.q, hc1]
    rfl
  obtain ⟨honly, hq, hcore⟩ :=
    (s.upd (fun c => c.markFork f.entry s.eng)).leaveFlight_spec (d := d) f k (by rw [hc1]; exact hdc)
  rw [State.upd_eng, if_pos hcopy, hq1] at hcore
  rw [hq1] at hq
  have hframe := ((OnlyCore.upd s _).trans honly).1
  generalize (s.upd (fun c => c.markFork f.entry s.eng)).leaveFlight d f k = u at hexec hq hcore hframe
  have hclaims : u.claims = s.claims := by rw [hframe]
  have hctx : u.ctx = s.ctx := by rw [hframe]
  rw [u.releaseClaims_local s.cur f.entry.seq (by rw [hclaims, hctx]; exact hlocal)] at hexec
  have hsame : ∀ cs, ({ u with claims := cs } : State).core = u.core := fun _ => rfl
  refine ⟨_, hexec, ?_, hq, fun c => ?_, ?_, fun j => ?_⟩
  · rw [hframe]
  · show c ∈ u.claims.filter _ ↔ _
    rw [List.mem_filter, hclaims, hctx]
    simp only [Bool.not_eq_true', Bool.and_eq_false_iff, beq_eq_false_iff_ne, not_and_or, ne_eq, or_assoc]
  · rw [hsame, hcore]
    exact SMap.get_set_same ({} : Progress) (s.upd (fun c => c.markFork f.entry s.eng)).core.ended f.entry.seq {}
  · rw [hsame, hcore]
    exact (d.flag_setQueue s.eng _ _).trans (hflags j)

end

/-- Settles O28: a lemma per step of an entry. -/
theorem queueEntries : Obligations.QueueEntries := by
  intro s x y a rest k f e q hE hs
  refine ⟨entryWait_begins hE hs, fun ha hi hb => ⟨entryWait_opens hE hs ha hi hb, entryWait_waits hE hs ha hi hb⟩,
    nullEntry_flies hE hs, ?_, ?_, entryComplete_leaves hE hs, entryComplete_overflows hE hs, copyComplete_releases hE hs,
    saddlebag_returns hE⟩
  · intro s1 s2 addr h l ha hb hc h1 h64 hhead hbody hl hin
    exact blockEntry_opens hE hs ha hb hc h1 h64 hhead hbody hl hin
  · intro s1 row hb ha hread
    exact ⟨programRow_holds hE hs ha hb hread, programRow_faults hE hs ha hb hread⟩

end Sys2Proof.Claims
end

