-- ==== Sys2Proof/Proofs/Turns.lean ====
section
namespace Sys2Proof.Machine
open Sys2Proof.Claims

/-! ## What a cycle leaves of a core (R125, R126, R134) -/

/-- Core d is core c some cycles on: no scalar register changes, and a core that does not wait stays where it is. -/
structure Core.Ticks (c d : Core) : Prop where
  regs : d.s = c.s
  still : c.waiting = none → d.waiting = none ∧ d.pc = c.pc

theorem Core.Ticks.of_eq {c d : Core} (hs : d.s = c.s) (hw : d.waiting = c.waiting) (hp : d.pc = c.pc) : c.Ticks d :=
  ⟨hs, fun h => ⟨hw.trans h, hp⟩⟩

theorem Core.Ticks.refl (c : Core) : c.Ticks c := .of_eq rfl rfl rfl

theorem Core.Ticks.trans {c d e : Core} (h : c.Ticks d) (k : d.Ticks e) : c.Ticks e :=
  ⟨k.regs.trans h.regs, fun hc => ⟨(k.still (h.still hc).1).1, (k.still (h.still hc).1).2.trans (h.still hc).2⟩⟩

theorem Core.Ticks.foldl {α : Type} {f : Core → α → Core} (h : ∀ (c : Core) (a : α), c.Ticks (f c a)) (l : List α) (c : Core) :
    c.Ticks (l.foldl f c) :=
  List.foldlRecOn (motive := c.Ticks) l f (.refl c) fun d hd a _ => hd.trans (h d a)

theorem Core.SameButFlags.ticks {c d : Core} (h : c.SameButFlags d) : c.Ticks d := by
  rw [show d = { c with flags := d.flags, latch := d.latch } from h]
  exact .of_eq rfl rfl rfl

theorem Core.setQueue_ticks (c : Core) (e : Eng) (q : Queue) : c.Ticks (c.setQueue e q) :=
  .of_eq (c.setQueue_s e q) (c.setQueue_waiting e q) (c.setQueue_pc e q)

theorem Core.flagTake_sameButFlags {c d : Core} {f : Nat} (h : c.flagTake f = some d) : c.SameButFlags d := by
  unfold Core.flagTake at h
  split at h
  · obtain rfl := Option.some.inj h
    exact .refl c
  · split at h
    · obtain rfl := Option.some.inj h
      exact c.setFlag_sameButFlags _ _
    · exact absurd h nofun

theorem Core.takeAll_ticks {c d : Core} {fs : List Nat} (h : c.takeAll fs = some d) : c.Ticks d := by
  induction fs generalizing c with
  | nil =>
    obtain rfl := Option.some.inj h
    exact .refl c
  | cons f fs ih =>
    unfold Core.takeAll at h
    split at h
    · next u hu => exact (flagTake_sameButFlags hu).ticks.trans (ih h)
    · exact absurd h nofun

theorem Core.fireProduct_ticks {c d : Core} {t p : Nat} (h : c.fireProduct t p = some d) : c.Ticks d := by
  unfold Core.fireProduct at h
  split at h
  · split at h
    · next u hu =>
      obtain rfl := Option.some.inj h
      exact (takeAll_ticks hu).trans (u.setFlag_sameButFlags _ _).ticks
    · exact absurd h nofun
  · exact absurd h nofun

theorem Core.fireTerm_ticks (c : Core) (t : Nat) : c.Ticks (c.fireTerm t) := by
  unfold Core.fireTerm
  extract_lets x
  split
  · next d hd => exact fireProduct_ticks hd
  · split
    · next d hd => exact fireProduct_ticks hd
    · exact .refl c

theorem Core.rigCycle_ticks (c : Core) : c.Ticks c.rigCycle := by
  unfold Core.rigCycle
  split
  · exact .refl c
  · exact .foldl Core.fireTerm_ticks _ c

theorem Core.beginHead_ticks {c d : Core} {e : Eng} (h : c.beginHead e = some d) : c.Ticks d := by
  unfold Core.beginHead at h
  extract_lets q at h
  split at h
  · exact absurd h nofun
  · split at h
    · exact absurd h nofun
    · next u hu =>
      obtain rfl := Option.some.inj h
      exact (flagTake_sameButFlags hu).ticks.trans (u.setQueue_ticks e _)

theorem Core.takeInside_ticks (c : Core) (e : Eng) : c.Ticks (c.takeInside e) := by
  unfold Core.takeInside
  split
  · exact .refl c
  · split
    · exact .refl c
    · split
      · exact .refl c
      · split
        · next u hu => exact (flagTake_sameButFlags hu).ticks.trans (u.setQueue_ticks e _)
        · exact .refl c

/-- Only the take of a waiting control core moves its pc (R102, R125). -/
theorem Core.takeOne_ticks (c : Core) (who : Nat) : c.Ticks (c.takeOne who) := by
  unfold Core.takeOne
  split
  · split
    · next f hw =>
      split
      · next u hu => exact ⟨(flagTake_sameButFlags hu).ticks.regs, fun h => absurd (hw.symm.trans h) nofun⟩
      · exact .refl c
    · exact .refl c
  · extract_lets e
    split
    · split
      · exact .refl c
      · cases hb : c.beginHead e with
        | none => exact .refl c
        | some d => exact beginHead_ticks hb
    · exact c.takeInside_ticks e

theorem Core.cycle_ticks (favoured : Nat) (c : Core) : c.Ticks (c.cycle favoured) :=
  (Core.Ticks.foldl Core.takeOne_ticks _ c).trans (Core.rigCycle_ticks _)

theorem Core.countWait_ticks (c : Core) (f : Option Nat) (k : Nat) : c.Ticks (c.countWait f k) := by
  unfold Core.countWait
  split <;> exact .of_eq rfl rfl rfl

theorem Core.countCycles_ticks (c : Core) (issuing : Option Eng) (k : Nat) : c.Ticks (c.countCycles issuing k) := by
  unfold Core.countCycles
  extract_lets one d
  exact (Core.Ticks.foldl (fun d e => (d.setQueue_ticks e _).trans (Core.countWait_ticks _ _ k)) _ c).trans (d.countWait_ticks _ k)

theorem Core.pass_ticks (favoured : Nat) (issuing : Option Eng) (k : Nat) (c : Core) : c.Ticks (c.pass favoured issuing k) := by
  induction k generalizing c with
  | zero => exact .refl c
  | succ k ih =>
    unfold Core.pass
    extract_lets d
    split
    · exact c.countCycles_ticks issuing (k + 1)
    · exact ((c.cycle_ticks favoured).trans (d.countCycles_ticks issuing 1)).trans (ih _)

/-- A relation between the values under each key holds of what the maps read. -/
theorem SMap.get_map_related {α : Type} {d : α} (R : α → α → Prop) (hd : R d d) {f : Nat × α → Nat × α}
    (hkey : ∀ x, (f x).1 = x.1) (hval : ∀ x, R x.2 (f x).2) (m : SMap α) (k : Nat) :
    R (SMap.get d m k) (SMap.get d (m.map f) k) := by
  induction m with
  | nil => exact hd
  | cons x m ih =>
    show R (if x.1 = k then x.2 else _) (if (f x).1 = k then (f x).2 else _)
    rw [hkey]
    split
    · exact hval x
    · exact ih

/-- Cycles that pass change no scalar register of any core and move none that does not wait. -/
theorem State.advance_ticks (s : State) (k : Nat) (i : Option (Nat × Eng)) (c n : Nat) :
    (s.coreAt c n).Ticks ((s.advance k i).coreAt c n) := by
  unfold State.advance
  split
  · exact .refl _
  · extract_lets num den t
    obtain ⟨g, hg⟩ := t.noteTakes_eq s.cores
    rw [hg]
    refine SMap.get_map_related Core.Ticks (.refl _) (fun x => ?_) (fun x => ?_) s.cores (coreKey c n)
    · split <;> rfl
    · split
      · show x.2.Ticks (if _ then _ else _)
        split
        · exact Core.pass_ticks _ _ _ _
        · exact Core.countCycles_ticks _ _ _
      · exact .refl _

theorem State.advance_scene (s : State) (k : Nat) (i : Option (Nat × Eng)) : s.SameScene (s.advance k i) := by
  rw [s.advance_frame k i]
  exact ⟨rfl, rfl, rfl, rfl⟩

theorem State.advance_keepsData (s : State) (k : Nat) (i : Option (Nat × Eng)) : KeepsData s (s.advance k i) := by
  refine ⟨fun c n r => ?_, ?_⟩
  · rw [Core.rd, (s.advance_ticks k i c n).regs]
    rfl
  · rw [s.advance_frame k i]
    exact .of_eq rfl rfl rfl

/-! ## The end of a control core's turn (R18, R19, R72) -/

/-- A core that does not wait is not at a yield point. -/
theorem State.atYield_of_running {s : State} (h : s.core.waiting = none) : s.atYield = false := by
  simp [State.atYield, Core.yields, h]

theorem State.partner_congr {s t : State} (h : t.remap = s.remap) (n : Nat) : t.partner n = s.partner n := by
  simp only [State.partner, State.physOf_congr h]

/-- After an instruction only its cycles pass, unless the physical core goes to another logical core. -/
theorem State.pay_eq_advance (before after : State) (i : Instr)
    (h : after.core.waiting = none ∨ ∀ k, after.partner after.cur ≠ some k) :
    State.pay before after i = after.advance (issueCost i before.core after.core) := by
  unfold State.pay
  extract_lets s
  have hscene : after.SameScene s := after.advance_scene _ none
  obtain ⟨hctx, hcur, hremap, -⟩ := hscene
  rcases h with hw | hp
  · have hs : s.core.waiting = none := by
      rw [State.core, hctx, hcur]
      exact ((after.advance_ticks _ none after.ctx after.cur).still hw).1
    rw [State.atYield_of_running hs]
    rfl
  · have hs : s.partner s.cur = none := by
      rw [State.partner_congr hremap, hcur]
      exact Option.eq_none_iff_forall_ne_some.mpr hp
    rw [State.yieldCore_alone s hs]
    exact ite_self _

/-! ## Fetching (R46, R53) -/

theorem rowElement_word (row : Row) (k : Nat) : BitVec.ofNat 32 (rowElement row 4 k) = row.extractLsb' (32 * k) 32 := by
  apply BitVec.eq_of_toNat_eq
  rw [BitVec.toNat_ofNat, BitVec.extractLsb'_toNat, Nat.shiftRight_eq_div_pow, rowElement]
  exact Nat.mod_mod _ _

/-- A word that the instruction cache holds is fetched from there. -/
theorem State.fetchWord_cached {s : State} {a : Nat} {w : BitVec 32} (hn : s.cur < 256) (h : CachedWord s a w) :
    s.fetchWord a = (s, .ok w) := by
  obtain ⟨x, hx, hw⟩ := h
  have hrow : s.fetchRow a = (s, some x.2, false) := by
    unfold State.fetchRow
    rw [if_neg (by omega)]
    simp only [rowBase, hx]
  rw [State.fetchWord, hrow, hw, ← rowElement_word]

theorem State.fetchRest_cached {s : State} (hn : s.cur < 256) (ws acc : List (BitVec 32)) (a : Nat)
    (h : ∀ j, j < ws.length → CachedWord s (a + 4 * j) (ws.getD j 0)) :
    s.fetchRest a ws.length acc = (s, .ok (acc ++ ws)) := by
  induction ws generalizing a acc with
  | nil => rw [List.append_nil]; rfl
  | cons w ws ih =>
    have hw : s.fetchWord a = (s, .ok w) := State.fetchWord_cached hn (h 0 (Nat.succ_pos _))
    have hws : ∀ j, j < ws.length → CachedWord s (a + 4 + 4 * j) (ws.getD j 0) := fun j hj => by
      have := h (j + 1) (Nat.succ_lt_succ hj)
      rwa [show a + 4 * (j + 1) = a + 4 + 4 * j by omega] at this
    rw [List.length_cons, State.fetchRest, hw]
    show s.fetchRest (a + 4) ws.length (acc ++ [w]) = _
    rw [ih (acc ++ [w]) (a + 4) hws, List.append_assoc]
    rfl

/-- The instruction whose words the instruction cache holds at the pc. -/
theorem State.fetchInstr_cached {s : State} {i : Instr} {w : BitVec 32} {ws : List (BitVec 32)} (hn : s.cur < 256)
    (h : ∀ j, j < ws.length + 1 → CachedWord s (s.core.pc.toNat + 4 * j) ((w :: ws).getD j 0))
    (hok : firstWordError w = none) (hcount : wordCount w = ws.length + 1) (hdec : decodeWords (w :: ws) = .ok i) :
    s.fetchInstr = .run i s := by
  have hw : s.fetchWord s.core.pc.toNat = (s, .ok w) := State.fetchWord_cached hn (h 0 (Nat.succ_pos _))
  have hrest : s.fetchRest (s.core.pc.toNat + 4) ws.length [] = (s, .ok ws) :=
    State.fetchRest_cached hn ws [] _ (fun j hj => by
      have := h (j + 1) (Nat.succ_lt_succ hj)
      rwa [show s.core.pc.toNat + 4 * (j + 1) = s.core.pc.toNat + 4 + 4 * j by omega] at this)
  unfold State.fetchInstr
  simp only [hw, hok, hcount, Nat.add_sub_cancel, hrest, hdec]

/-! ## A control core's turn -/

/-- What a core that goes on past a `bar` keeps. -/
theorem Core.passBar_eq (c : Core) : c.passBar = { c with barAt := c.passBar.barAt } := by
  unfold Core.passBar
  split <;> rfl

/-- A bank that is held is held in every smaller list of banks. -/
theorem State.unclaimed_subset {s : State} {n : Nat} {bs cs : List Nat} (h : s.unclaimed n bs = none) (hc : ∀ b ∈ cs, b ∈ bs) :
    s.unclaimed n cs = none := by
  unfold State.unclaimed at h ⊢
  split
  · rfl
  · next hn =>
    rw [if_neg hn] at h
    split
    · next ctx p hctx hp =>
      rw [hctx, hp] at h
      exact List.find?_eq_none.mpr (fun b hb => List.find?_eq_none.mp h b (hc b hb))
    · rfl

/-- The turn of a core that runs, owes no trap and meets no comparator is the instruction at its pc. -/
theorem State.readyCore_runs {s v : State} {n ctx : Nat} {i : Instr} (hctx : s.servedCtx n = some ctx)
    (hv : v = ({ s with ctx := ctx, cur := n } : State).upd Core.passBar) (hrun : v.coreRuns = true)
    (hw : v.core.waiting ≠ some .exit) (hp : v.core.pend = false ∨ v.core.inh = true) (hcmp : v.core.cmpHit = none)
    (hfetch : v.fetchInstr = .run i v) (hlock : v.core.interlocked i = false) : s.readyCore n = .run i v := by
  obtain ⟨u, hu⟩ : ∃ u, u = ({ s with ctx := ctx, cur := n } : State) := ⟨_, rfl⟩
  have hactor : s.actor n = some u := by
    rw [State.actor, hctx, hu]
  rw [← hu] at hv
  have hcore : v.core = { u.core with barAt := v.core.barAt } := by
    rw [hv, State.core_upd]
    exact u.core.passBar_eq
  have hrun' : u.coreRuns = true := by
    rw [← hrun, State.coreRuns, State.coreRuns, hcore, hv]
    rfl
  have hw' : u.core.waiting ≠ some .exit := by
    rw [hcore] at hw
    exact hw
  have hp' : (u.core.pend && !u.core.inh) = false := by
    rw [hcore] at hp
    have hp : u.core.pend = false ∨ u.core.inh = true := hp
    rcases hp with h | h <;> simp [h]
  have hcmp' : u.core.cmpHit = none := by
    rw [hcore] at hcmp
    exact hcmp
  unfold State.readyCore
  simp only [hactor, hrun', hw', hp', hcmp', ← hv, hfetch, hlock, Bool.not_true, Bool.false_and, Bool.false_eq_true, if_false]

theorem State.planCore_runs {s v : State} {n : Nat} {i : Instr} (hready : s.readyCore n = .run i v)
    (hs : s.unclaimed n [0] = none) (hb : s.unclaimed n (v.touchedBanks i) = none) : s.planCore n = .core i v := by
  unfold State.planCore
  simp only [hs, ite_self, hready, hb]

/-! ## A sequencer's turn -/

/-- A word of the held row of a stream that decodes is what the sequencer performs (R56, R62). -/
theorem State.engineNext_word {v : State} {a : Active} {row : Row} {i : Instr} (hs : v.q.stopped = none) (ha : v.q.act = some a)
    (hi : a.inner = none ∨ a.innerBegun = true)
    (hb : ∃ r0 sl p0 p1 p2 p3, r0.toNat < 2 ^ 57 ∧ a.cur.body = .stream r0 sl p0 p1 p2 p3)
    (hrow : a.held = some (a.row, row))
    (hclass : ((row.extractLsb' (48 * a.slot) 48).extractLsb' 46 2).toNat = 3
      ∨ ((row.extractLsb' (48 * a.slot) 48).extractLsb' 46 2).toNat = engNum v.eng)
    (hdec : decodeEng (row.extractLsb' (48 * a.slot) 48) = .ok i) : v.engineNext = some i := by
  obtain ⟨r0, sl, p0, p1, p2, p3, hr0, hbody⟩ := hb
  have hbegun : (a.inner.isSome && !a.innerBegun) = false := by
    rcases hi with h | h <;> simp [h]
  have hword : a.word = some (row.extractLsb' (48 * a.slot) 48) := by
    simp only [Active.word, hbody, hrow, if_true]
  have hnext : v.wordNext (row.extractLsb' (48 * a.slot) 48) = i := by
    unfold State.wordNext
    rw [if_neg (fun h => hclass.elim h.1 h.2), hdec]
  unfold State.engineNext
  simp only [hs, ha, hbegun, hbody, Nat.not_le.mpr hr0, hword, hnext, Option.isSome_none, Bool.false_eq_true, if_false]

/-- A core without loans of its own goes on with its matrix word (R210). -/
theorem State.renewLoans_none {s : State} {ctx n : Nat} (hl : (s.coreAt ctx n).loanLent = none)
    (hb : (s.coreAt ctx n).loanBorrowed = []) : s.renewLoans ctx n = some s := by
  unfold State.renewLoans
  simp only [hl, hb, List.foldl_nil]

theorem State.planEngine_word {s v : State} {n ctx : Nat} {e : Eng} {i : Instr} {a : Active} (hctx : s.engineCtx n = some ctx)
    (hv : v = { s with ctx := ctx, cur := n, eng := e }) (ha : v.q.act = some a) (hskip : a.skip = 0)
    (hnext : v.engineNext = some i) (hbanks : s.unclaimed n (engineBanks n a.rep i) = none)
    (hloans : e = .m → v.core.loanLent = none ∧ v.core.loanBorrowed = []) : s.planEngine n e = .engine i v := by
  have hF : s.unclaimed n [6] = none := State.unclaimed_subset hbanks (fun b hb => by
    rw [List.mem_singleton.mp hb]
    exact List.mem_cons_self ..)
  have hwants : s.wantsF n = false := by
    unfold State.wantsF
    split
    · rw [hF]
      exact Bool.and_false _
    · rfl
  have hready : s.readyEngine n e = (some i, v) := by
    unfold State.readyEngine
    simp only [hctx, ← hv, ha, hskip, if_true, hnext]
  have hword : s.planWord n i v = .engine i v := by
    have heng : v.eng = e := by rw [hv]
    have hcore : v.coreAt v.ctx n = v.core := by rw [hv]; rfl
    unfold State.planWord
    rw [State.act_of_q ha, hbanks]
    show (if _ then _ else _) = _
    split
    · next h =>
      obtain ⟨hl, hb⟩ := hloans (heng.symm.trans h.1)
      rw [State.renewLoans_none (by rw [hcore]; exact hl) (by rw [hcore]; exact hb)]
    · rfl
  unfold State.planEngine
  simp only [hwants, hready, hword, Bool.false_eq_true, if_false]

/-! ## A step -/

/-- A step takes the turn that the agenda names. -/
theorem step_of_agenda {s : State} {t : Turn} {rest : List Turn} (hd : s.dead = false) (ha : s.settled.agenda = t :: rest) :
    step s = perform (({ s.settled with agenda := rest } : State).planTurn t) := by
  unfold step
  rw [hd]
  show perform s.plan = _
  unfold State.plan
  simp only [ha]

end Sys2Proof.Machine

namespace Sys2Proof.Claims
open Sys2Proof.Machine

/-- Settles O55: what the turn comes to, by its kind; after an instruction of a control core only its cycles pass. -/
theorem stepRunsTheInstruction : Obligations.StepRunsTheInstruction := by
  intro s n ctx e i w ws rest a row s0 hdead hn hctx
  refine ⟨?_, ?_, fun hag hstep => ?_⟩
  · intro v hag hrun hw hp hcmp hcached hok hcount hdec hlock hbank hbanks
    have hcur : v.cur < 256 := hn
    have hplan : s0.planTurn (.core n) = .core i v := State.planCore_runs
      (State.readyCore_runs hctx rfl hrun hw hp hcmp (State.fetchInstr_cached hcur hcached hok hcount hdec) hlock) hbank hbanks
    have hstep : step s = perform (.core i v) := (step_of_agenda hdead hag).trans (congrArg perform hplan)
    rw [hstep]
    refine ⟨fun u hu hyield => ?_, fun f hf => ?_, fun r hr => ?_⟩
    · obtain ⟨k, hk⟩ : ∃ k, k = issueCost i v.core u.core := ⟨_, rfl⟩
      have hpay : perform (.core i v) = .next (u.advance k) := by
        simp only [perform, hu, State.pay_eq_advance v u i hyield, hk]
      refine ⟨_, hpay, u.advance_keepsData k none, (u.advance_scene k none).launches, ?_,
        fun c m h => ((u.advance_ticks k none c m).still h).2⟩
      rw [u.advance_frame k none, hk]
      rfl
    · simp only [perform, hf]
    · simp only [perform, hr]
  · intro v x hag hE hs ha hskip hi hb hrow hclass hdec hbanks hloans
    have hplan : s0.planTurn (.engine n e) = .engine i v :=
      State.planEngine_word hE rfl ha hskip (State.engineNext_word hs ha hi hb hrow hclass hdec) hbanks hloans
    exact (step_of_agenda hdead hag).trans (congrArg perform hplan)
  · have hplan : s0.planTurn (.event i) = .event i s0 := by
      simp only [State.planTurn, isStep, hstep, if_true]
    exact (step_of_agenda hdead hag).trans (congrArg perform hplan)

end Sys2Proof.Claims
end

namespace Sys2Proof.Machine
open Sys2Proof.Claims

/-! ## Values of the register operations (R74) -/

theorem rotateLeft_eq_shifts (x : Word) {k : Nat} (h : k < 64) : x.rotateLeft k = (x <<< k) ||| (x >>> (64 - k)) := by
  rw [BitVec.rotateLeft_def, Nat.mod_eq_of_lt h]

theorem sdiv_eq_ofInt (x y : Word) : x.sdiv y = BitVec.ofInt 64 (x.toInt.tdiv y.toInt) :=
  BitVec.eq_of_toInt_eq (by rw [BitVec.toInt_sdiv, BitVec.toInt_ofInt])

theorem divSigned_eq (x y : Word) :
    divSigned x y = if y = 0 then BitVec.allOnes 64 else BitVec.ofInt 64 (x.toInt.tdiv y.toInt) := by
  rw [divSigned, sdiv_eq_ofInt]

theorem divUnsigned_eq (x y : Word) :
    divUnsigned x y = if y = 0 then BitVec.allOnes 64 else BitVec.ofNat 64 (x.toNat / y.toNat) := by
  rw [divUnsigned, BitVec.udiv_def]

/-- The remainder of R74 takes the sign of x: x − y × div(x, y) is the truncating remainder. -/
theorem remSigned_eq (x y : Word) :
    remSigned x y = if y = 0 then x else BitVec.ofInt 64 (x.toInt.tmod y.toInt) := by
  unfold remSigned
  split
  · rfl
  · next hy =>
    have hx : BitVec.ofInt 64 (y.toInt * x.toInt.tdiv y.toInt + x.toInt.tmod y.toInt) = x := by
      rw [Int.mul_tdiv_add_tmod, BitVec.ofInt_toInt]
    rw [BitVec.ofInt_add, BitVec.ofInt_mul, BitVec.ofInt_toInt, ← sdiv_eq_ofInt] at hx
    rw [divSigned, if_neg hy]
    nth_rw 1 [← hx]
    rw [BitVec.add_comm, BitVec.add_sub_cancel]

theorem remUnsigned_eq (x y : Word) :
    remUnsigned x y = if y = 0 then x else BitVec.ofNat 64 (x.toNat % y.toNat) := by
  rw [remUnsigned, BitVec.umod_def]

/-- The register whose signed value is the smaller one holds it. -/
theorem signedMin_eq (x y : Word) : (if x.slt y then x else y) = BitVec.ofInt 64 (min x.toInt y.toInt) := by
  rw [BitVec.slt_eq_decide]
  split
  · next h => rw [min_eq_left (of_decide_eq_true h).le, BitVec.ofInt_toInt]
  · next h => rw [min_eq_right (not_lt.mp (of_decide_eq_false (Bool.eq_false_iff.mpr h))), BitVec.ofInt_toInt]

theorem signedMax_eq (x y : Word) : (if x.slt y then y else x) = BitVec.ofInt 64 (max x.toInt y.toInt) := by
  rw [BitVec.slt_eq_decide]
  split
  · next h => rw [max_eq_right (of_decide_eq_true h).le, BitVec.ofInt_toInt]
  · next h => rw [max_eq_left (not_lt.mp (of_decide_eq_false (Bool.eq_false_iff.mpr h))), BitVec.ofInt_toInt]

theorem unsignedMin_eq (x y : Word) : (if x.ult y then x else y) = BitVec.ofNat 64 (min x.toNat y.toNat) := by
  rw [BitVec.ult_eq_decide]
  split
  · next h => rw [min_eq_left (of_decide_eq_true h).le, BitVec.ofNat_toNat, BitVec.setWidth_eq]
  · next h =>
    rw [min_eq_right (not_lt.mp (of_decide_eq_false (Bool.eq_false_iff.mpr h))), BitVec.ofNat_toNat, BitVec.setWidth_eq]

theorem unsignedMax_eq (x y : Word) : (if x.ult y then y else x) = BitVec.ofNat 64 (max x.toNat y.toNat) := by
  rw [BitVec.ult_eq_decide]
  split
  · next h => rw [max_eq_right (of_decide_eq_true h).le, BitVec.ofNat_toNat, BitVec.setWidth_eq]
  · next h =>
    rw [max_eq_left (not_lt.mp (of_decide_eq_false (Bool.eq_false_iff.mpr h))), BitVec.ofNat_toNat, BitVec.setWidth_eq]

theorem truth_decide (p : Prop) [Decidable p] : truth (decide p) = if p then 1 else 0 := by
  by_cases h : p
  · rw [decide_eq_true h, if_pos h]; rfl
  · rw [decide_eq_false h, if_neg h]; rfl

theorem truth_slt (x y : Word) : truth (x.slt y) = if x.toInt < y.toInt then 1 else 0 := by
  rw [BitVec.slt_eq_decide, truth_decide]

theorem truth_ult (x y : Word) : truth (x.ult y) = if x.toNat < y.toNat then 1 else 0 := by
  rw [BitVec.ult_eq_decide, truth_decide]

theorem truth_beq (x y : Word) : truth (x == y) = if x = y then 1 else 0 := by
  rw [beq_eq_decide, truth_decide]

/-! ## 32-bit results (R74) -/

theorem signExtendLow_word (x : Word) : signExtendLow x 32 = (x.setWidth 32).signExtend 64 := by
  rw [signExtendLow_eq x 32 (by omega) (by omega), BitVec.setWidth_eq_extractLsb' (by omega)]

theorem addw_eq (x y : Word) : signExtendLow (x + y) 32 = (BitVec.ofNat 32 (x.toNat + y.toNat)).signExtend 64 := by
  rw [signExtendLow_word, BitVec.setWidth_add x y (by omega), BitVec.ofNat_add, BitVec.ofNat_toNat, BitVec.ofNat_toNat]

theorem mulw_eq (x y : Word) : signExtendLow (x * y) 32 = (BitVec.ofNat 32 (x.toNat * y.toNat)).signExtend 64 := by
  rw [signExtendLow_word, BitVec.setWidth_mul x y (by omega), BitVec.ofNat_mul, BitVec.ofNat_toNat, BitVec.ofNat_toNat]

theorem subw_eq (x y : Word) : signExtendLow (x - y) 32 = (x.extractLsb' 0 32 - y.extractLsb' 0 32).signExtend 64 := by
  have hcut : x.setWidth 32 = (x - y).setWidth 32 + y.setWidth 32 := by
    rw [← BitVec.setWidth_add _ _ (by omega), BitVec.sub_add_cancel]
  rw [signExtendLow_word, ← BitVec.setWidth_eq_extractLsb' (by omega), ← BitVec.setWidth_eq_extractLsb' (by omega), hcut,
    BitVec.add_sub_cancel]

/-! ## Counts of bits (R74) -/

/-- Above the highest one stand only zeros, as many as `clz` counts. -/
theorem leadingZeros_spec (x : Word) :
    (leadingZeros x).toNat ≤ 64 ∧ (∀ j, 64 - (leadingZeros x).toNat ≤ j → x.getLsbD j = false)
      ∧ ((leadingZeros x).toNat < 64 → x.getLsbD (63 - (leadingZeros x).toNat) = true) := by
  by_cases hx : x = 0
  · subst hx
    exact ⟨by decide, fun j _ => BitVec.getLsbD_zero, fun h => absurd h (by decide)⟩
  · have h0 : x.toNat ≠ 0 := fun h => hx (BitVec.eq_of_toNat_eq h)
    have hlog : Nat.log2 x.toNat < 64 := (Nat.log2_lt h0).mpr x.isLt
    have hv : (leadingZeros x).toNat = 63 - Nat.log2 x.toNat := by
      rw [leadingZeros, if_neg hx, BitVec.toNat_ofNat, Nat.mod_eq_of_lt (by omega)]
    refine ⟨by omega, fun j hj => ?_, fun _ => ?_⟩
    · exact Nat.testBit_lt_two_pow (Nat.lt_log2_self.trans_le (Nat.pow_le_pow_right (by omega) (by omega)))
    · rw [hv, show 63 - (63 - Nat.log2 x.toNat) = Nat.log2 x.toNat by omega]
      exact Nat.testBit_log2 h0

/-- Among the n low bits of x, those below the count are zeros and the one at it is set. -/
theorem lowestOne_spec (x : Nat) {n : Nat} (hn : n < 2 ^ 64) :
    (BitVec.ofNat 64 (lowestOne x 0 n)).toNat = lowestOne x 0 n ∧ lowestOne x 0 n ≤ n
      ∧ (∀ j, j < lowestOne x 0 n → x.testBit j = false) ∧ (lowestOne x 0 n < n → x.testBit (lowestOne x 0 n) = true) := by
  have hle : lowestOne x 0 n ≤ n := by have := (lowestOne_le x 0 n).2; omega
  refine ⟨?_, hle, fun j hj => lowestOne_below x 0 n j (Nat.zero_le j) hj, fun h => lowestOne_hit x 0 n (by omega)⟩
  rw [BitVec.toNat_ofNat, Nat.mod_eq_of_lt (by omega)]

/-! ## What is written (R73 to R77) -/

/-- A two-operand instruction writes the function of its operands. -/
theorem State.opr_writes (s : State) (d a b : Reg) (f : Word → Word → Word) {v : Word}
    (h : f (s.core.rd a) (s.core.rd b) = v) : ∃ t, s.opr d a b f = .next t ∧ WritesReg s t d v 4 := by
  rw [← h]
  exact s.writeReg_writes d _ 4

/-- A one-operand instruction writes the function of its operand. -/
theorem State.opu_writes (s : State) (d a : Reg) (f : Word → Word) {v : Word} (h : f (s.core.rd a) = v) :
    ∃ t, s.opu d a f = .next t ∧ WritesReg s t d v 4 := by
  rw [← h]
  exact s.writeReg_writes d _ 4

theorem imm16_toInt (i : BitVec 16) : (imm16 i).toInt = i.toInt := BitVec.toInt_signExtend_of_le (by omega)

theorem imm16_eq_ofInt (i : BitVec 16) : imm16 i = BitVec.ofInt 64 i.toInt := by
  rw [← imm16_toInt, BitVec.ofInt_toInt]

theorem lui_eq (i : BitVec 16) : imm16 i <<< 16 = BitVec.ofInt 64 (i.toInt * 2 ^ 16) := by
  rw [BitVec.ofInt_mul, ← imm16_eq_ofInt, BitVec.shiftLeft_eq_mul_twoPow]
  rfl

theorem muli_eq (x : Word) (i : BitVec 16) : x * imm16 i = BitVec.ofInt 64 (x.toInt * i.toInt) := by
  rw [BitVec.ofInt_mul, BitVec.ofInt_toInt, ← imm16_eq_ofInt]

end Sys2Proof.Machine

namespace Sys2Proof.Claims
open Sys2Proof.Machine

theorem registerOperations : RegisterOperations := by
  intro s d a b c n x y k
  have two := fun (f : Word → Word → Word) (v : Word) (h : f x y = v) => s.opr_writes d a b f h
  have hk : k < 64 := Nat.mod_lt _ (by omega)
  simp only [List.forall_mem_cons]
  exact ⟨two (· + ·) _ rfl, two (· - ·) _ rfl, two (· &&& ·) _ rfl, two (· ||| ·) _ rfl, two (· ^^^ ·) _ rfl,
    two (fun x y => x &&& ~~~y) _ rfl, two (fun x y => x <<< shiftAmount y) _ rfl,
    two (fun x y => x >>> shiftAmount y) _ rfl, two (fun x y => x.sshiftRight (shiftAmount y)) _ rfl,
    two (fun x y => x.rotateLeft (shiftAmount y)) _ (rotateLeft_eq_shifts x hk),
    two (· * ·) _ (BitVec.mul_def ..), two mulHighSigned _ rfl, two mulHighUnsigned _ rfl,
    two divSigned _ (divSigned_eq x y), two divUnsigned _ (divUnsigned_eq x y),
    two remSigned _ (remSigned_eq x y), two remUnsigned _ (remUnsigned_eq x y),
    two (fun x y => if x.slt y then x else y) _ (signedMin_eq x y),
    two (fun x y => if x.slt y then y else x) _ (signedMax_eq x y),
    two (fun x y => if x.ult y then x else y) _ (unsignedMin_eq x y),
    two (fun x y => if x.ult y then y else x) _ (unsignedMax_eq x y),
    two (fun x y => truth (x.slt y)) _ (truth_slt x y), two (fun x y => truth (x.ult y)) _ (truth_ult x y),
    two (fun x y => truth (x == y)) _ (truth_beq x y), two (fun x y => if s.core.rd c = 0 then y else x) _ rfl,
    two (fun x y => signExtendLow (x + y) 32) _ (addw_eq x y), two (fun x y => signExtendLow (x - y) 32) _ (subw_eq x y),
    two (fun x y => signExtendLow (x * y) 32) _ (mulw_eq x y), two (fun x y => (x <<< n.toNat) + y) _ rfl,
    List.forall_mem_nil _⟩

theorem bitCountsAndExtensions : BitCountsAndExtensions := by
  intro s d a x
  refine ⟨?_, ?_, ?_, fun w hw => ?_⟩
  · obtain ⟨t, ht, hw⟩ := s.opu_writes d a leadingZeros rfl
    exact ⟨t, _, ht, hw, leadingZeros_spec x⟩
  · obtain ⟨t, ht, hw⟩ := s.opu_writes d a trailingZeros rfl
    obtain ⟨hv, hle, hbelow, hhit⟩ := lowestOne_spec x.toNat (n := 64) (by omega)
    refine ⟨t, _, ht, hw, ?_⟩
    rw [show (trailingZeros (s.core.rd a)).toNat = lowestOne x.toNat 0 64 from hv]
    exact ⟨hle, hbelow, hhit⟩
  · exact s.opu_writes d a (fun x => BitVec.ofNat 64 (countOnes x.toNat 64))
      (congrArg (BitVec.ofNat 64) (countOnes_eq x.toNat 64))
  · have hpos : 0 < 8 * 2 ^ w.toNat := by positivity
    have hbits : 8 * 2 ^ w.toNat ≤ 64 := by
      calc 8 * 2 ^ w.toNat ≤ 8 * 2 ^ 2 := Nat.mul_le_mul_left 8 (Nat.pow_le_pow_right (by omega) (by omega))
        _ ≤ 64 := by omega
    obtain ⟨t, ht, hsext⟩ := s.opu_writes d a (fun x => signExtendLow x (widthBits w)) (signExtendLow_eq x _ hpos hbits)
    obtain ⟨u, hu, hzext⟩ := s.opu_writes d a (fun x => zeroExtendLow x (widthBits w)) (zeroExtendLow_eq x _ hpos hbits)
    exact ⟨⟨t, (if_pos hw).trans ht, hsext⟩, ⟨u, (if_pos hw).trans hu, hzext⟩⟩

theorem immediateOperations : ImmediateOperations := by
  intro s d a i n j x se ze
  have one := fun (f : Word → Word) (v : Word) (h : f x = v) => s.opu_writes d a f h
  refine ⟨?_, s.writeReg_writes d _ 8, s.writeReg_writes d _ 8⟩
  have hlui : ∃ t, exec (.lui d i) s = .next t ∧ WritesReg s t d (BitVec.ofInt 64 (i.toInt * 2 ^ 16)) 4 := by
    rw [← lui_eq]
    exact s.writeReg_writes d _ 4
  have hslti : truth (x.slt (imm16 i)) = if x.toInt < i.toInt then 1 else 0 := by rw [truth_slt, imm16_toInt]
  simp only [List.forall_mem_cons]
  exact ⟨one (· + imm16 i) _ rfl, one (· &&& uimm16 i) _ rfl, one (· ||| uimm16 i) _ rfl, one (· ^^^ uimm16 i) _ rfl,
    one (fun x => truth (x.slt (imm16 i))) _ hslti, one (fun x => truth (x.ult (imm16 i))) _ (truth_ult x se),
    one (· <<< n.toNat) _ rfl, one (· >>> n.toNat) _ rfl, one (·.sshiftRight n.toNat) _ rfl,
    one (·.rotateLeft n.toNat) _ (rotateLeft_eq_shifts x n.isLt), hlui, one (· * imm16 i) _ (muli_eq x i),
    List.forall_mem_nil _⟩

theorem bitfields : Bitfields := by
  intro s d a p n hp x
  have hfield : p.toNat + (n.toNat + 1) ≤ 64 := by omega
  obtain ⟨t, ht, hbfx⟩ := s.opu_writes d a (bitField · p.toNat (n.toNat + 1) false) rfl
  obtain ⟨u, hu, hbfxs⟩ := s.opu_writes d a (bitField · p.toNat (n.toNat + 1) true) rfl
  obtain ⟨v, hv, hbfi⟩ := s.opu_writes d a (insertField (s.core.rd d) · p.toNat (n.toNat + 1)) rfl
  refine ⟨⟨t, _, (if_pos hp).trans ht, hbfx, fun j => ?_⟩, ⟨u, _, (if_pos hp).trans hu, hbfxs, fun j hj => ?_⟩,
    ⟨v, _, (if_pos hp).trans hv, hbfi, fun j => ?_⟩⟩
  · by_cases hj : j < 64
    · rw [bitField_bit _ _ _ _ false (by omega) hfield hj, Bool.false_and]
      by_cases hn : j ≤ n.toNat
      · rw [if_pos (by omega), decide_eq_true hn, Bool.true_and]
      · rw [if_neg (by omega), decide_eq_false hn, Bool.false_and]
    · rw [BitVec.getLsbD_of_ge _ _ (by omega), decide_eq_false (by omega), Bool.false_and]
  · rw [bitField_bit _ _ _ _ true (by omega) hfield hj, Bool.true_and]
    split
    · rw [Nat.min_eq_left (by omega)]
    · rw [Nat.min_eq_right (by omega), Nat.add_sub_cancel]
  · rw [insertField_bit _ _ _ _ _ hfield]
    exact if_congr (and_congr_right' (by omega)) rfl rfl

/-- Settles O1: each instruction is one write of a register, `State.writeReg_writes`, and each value its own equation. -/
theorem scalarOperations : Obligations.ScalarOperations :=
  ⟨registerOperations, bitCountsAndExtensions, immediateOperations, bitfields⟩

end Sys2Proof.Claims

namespace Sys2Proof.Machine
open Sys2Proof.Claims

/-! ## Where control goes (R78 to R81) -/

/-- The registers after a write: s0 still reads zero (R73). -/
theorem Core.rd_wr_zero (c : Core) (d : Reg) (v : Word) (r : Reg) :
    (c.wr d v).rd r = if r = 0 then 0 else if r = d then v else c.rd r := by
  rw [Core.rd_wr]
  by_cases hr : r = 0
  · subst hr
    exact (if_neg (fun h => h.2 h.1.symm)).trans (if_pos rfl).symm
  · rw [if_neg hr]
    exact if_congr ⟨fun h => h.1, fun h => ⟨h, h ▸ hr⟩⟩ rfl rfl

theorem Core.wr_eq (c : Core) (d : Reg) (v : Word) : c.wr d v = { c with s := (c.wr d v).s } := by
  unfold Core.wr
  split <;> rfl

/-- A control transfer changes the pc only. -/
theorem State.branch_goes (s : State) (taken : Bool) (target : Word) :
    ∃ t, s.branch taken target = .next t ∧ GoesTo s t (if taken then target else s.core.pc + 4) := by
  cases taken with
  | false => exact ⟨_, rfl, .advance s 4⟩
  | true => refine ⟨_, rfl, ⟨.upd s _, ?_⟩, ?_, fun r => ?_⟩ <;> rw [State.core_upd] <;> rfl

/-- A control transfer that writes a register first. -/
theorem State.branch_links (s : State) {f : Core → Core} {d : Reg} {v : Word} (taken : Bool) (target : Word)
    (hf : f s.core = s.core.wr d v) :
    ∃ t, (s.upd f).branch taken target = .next t ∧ OnlyScalars s t
      ∧ t.core.pc = (if taken then target else s.core.pc + 4)
      ∧ ∀ r : Reg, t.core.rd r = if r = 0 then 0 else if r = d then v else s.core.rd r := by
  obtain ⟨t, ht, ⟨honly, hcore⟩, hpc, hrd⟩ := (s.upd f).branch_goes taken target
  rw [State.core_upd, hf] at hcore hpc hrd
  rw [Core.wr_pc] at hpc
  refine ⟨t, ht, ⟨(OnlyCore.upd s f).trans honly, ?_⟩, hpc, fun r => (hrd r).trans (s.core.rd_wr_zero d v r)⟩
  rw [Core.wr_eq] at hcore
  exact hcore

theorem State.branchIf_goes (s : State) (a b : Reg) (o : BitVec 16) (p : Word → Word → Bool) {taken : Bool}
    (h : p (s.core.rd a) (s.core.rd b) = taken) :
    ∃ t, s.branchIf a b o p = .next t ∧ GoesTo s t (if taken then s.core.pc + 4 * o.signExtend 64 else s.core.pc + 4) := by
  rw [← h]
  exact s.branch_goes _ _

theorem bne_eq_decide_ne {n : Nat} (x y : BitVec n) : (x != y) = decide (x ≠ y) := by
  rw [bne, beq_eq_decide, decide_not]

theorem not_slt_eq_decide (x y : Word) : (!x.slt y) = decide (y.toInt ≤ x.toInt) := by
  rw [BitVec.slt_eq_decide, ← decide_not]
  exact decide_eq_decide.mpr not_lt

theorem not_ult_eq_decide (x y : Word) : (!x.ult y) = decide (y.toNat ≤ x.toNat) := by
  rw [BitVec.ult_eq_decide, ← decide_not]
  exact decide_eq_decide.mpr not_lt

/-! ## Slots of a mask (R79, R82) -/

theorem slotCount_le (w : Nat) : slotCount w ≤ 128 := Nat.div_le_self 128 _

theorem slotBits_eq_setWidth (m : BitVec 128) (w : Nat) :
    slotBits m w = (m.extractLsb' 0 (slotCount w)).setWidth 128 := by
  apply BitVec.eq_of_getLsbD_eq
  intro j hj
  rw [slotBits_bit m w j (slotCount_le w), BitVec.getLsbD_setWidth, BitVec.getLsbD_extractLsb', Nat.zero_add,
    decide_eq_true hj, Bool.true_and, Bool.and_comm]

/-- Two masks agree on the slots exactly if their slot bits do. -/
theorem slotBits_eq_iff (m k : BitVec 128) (w : Nat) :
    slotBits m w = slotBits k w ↔ m.extractLsb' 0 (slotCount w) = k.extractLsb' 0 (slotCount w) := by
  rw [slotBits_eq_setWidth, slotBits_eq_setWidth]
  refine ⟨fun h => ?_, congrArg _⟩
  have hcut := congrArg (BitVec.setWidth (slotCount w)) h
  rwa [BitVec.setWidth_setWidth_of_le _ (slotCount_le w), BitVec.setWidth_setWidth_of_le _ (slotCount_le w),
    BitVec.setWidth_eq, BitVec.setWidth_eq] at hcut

theorem slotBits_eq_zero_iff (m : BitVec 128) (w : Nat) :
    slotBits m w = 0 ↔ m.extractLsb' 0 (slotCount w) = 0 := by
  have hslots : slotBits 0 w = 0 := BitVec.zero_and
  have hcut : (0 : BitVec 128).extractLsb' 0 (slotCount w) = 0 := BitVec.extractLsb'_zero
  rw [← hslots, slotBits_eq_iff, hcut]

theorem slotBits_eq_allOnes_iff (m : BitVec 128) (w : Nat) :
    slotBits m w = slotBits (BitVec.allOnes 128) w ↔ m.extractLsb' 0 (slotCount w) = BitVec.allOnes (slotCount w) := by
  have hones : (BitVec.allOnes 128).extractLsb' 0 (slotCount w) = BitVec.allOnes (slotCount w) := by
    apply BitVec.eq_of_getLsbD_eq
    intro j hj
    rw [BitVec.getLsbD_extractLsb', BitVec.getLsbD_allOnes, BitVec.getLsbD_allOnes, decide_eq_true hj, Nat.zero_add,
      decide_eq_true (by have := slotCount_le w; omega : j < 128), Bool.true_and]
  rw [slotBits_eq_iff, hones]

/-- A branch on a mask whose width code is not reserved (R79). -/
theorem State.branchMask_goes (s : State) (i : Instr) (k : MReg) {w : BitVec 3} (o : BitVec 16) (p : BitVec 128 → Bool)
    {taken : Bool} (hw : w.toNat < 3) (h : p (slotBits (s.readMask k) w.toNat) = taken) :
    ∃ t, s.branchMask i k w o p = .next t
      ∧ GoesTo s t (if taken then s.core.pc + 4 * o.signExtend 64 else s.core.pc + 4) := by
  obtain ⟨t, ht, hgoes⟩ := s.branch_goes taken (branchTarget s.core.pc o)
  exact ⟨t, (if_pos hw).trans (h ▸ ht), hgoes⟩

end Sys2Proof.Machine

namespace Sys2Proof.Claims
open Sys2Proof.Machine

theorem branches_go (s : State) (a b : Reg) (o : BitVec 16) :
    ∀ p ∈ [
      (Instr.beq a b o, decide (s.core.rd a = s.core.rd b)), (.bne a b o, decide (s.core.rd a ≠ s.core.rd b)),
      (.blt a b o, decide ((s.core.rd a).toInt < (s.core.rd b).toInt)),
      (.bge a b o, decide ((s.core.rd b).toInt ≤ (s.core.rd a).toInt)),
      (.bltn a b o, decide ((s.core.rd a).toNat < (s.core.rd b).toNat)),
      (.bgen a b o, decide ((s.core.rd b).toNat ≤ (s.core.rd a).toNat))],
      ∃ t, exec p.1 s = .next t
        ∧ GoesTo s t (if p.2 then s.core.pc + 4 * o.signExtend 64 else s.core.pc + 4) := by
  simp only [List.forall_mem_cons]
  exact ⟨s.branchIf_goes a b o (· == ·) (beq_eq_decide ..), s.branchIf_goes a b o (· != ·) (bne_eq_decide_ne _ _),
    s.branchIf_goes a b o (fun x y => x.slt y) BitVec.slt_eq_decide,
    s.branchIf_goes a b o (fun x y => !x.slt y) (not_slt_eq_decide _ _),
    s.branchIf_goes a b o (fun x y => x.ult y) BitVec.ult_eq_decide,
    s.branchIf_goes a b o (fun x y => !x.ult y) (not_ult_eq_decide _ _), List.forall_mem_nil _⟩

/-- Settles O2: every form is one `State.branch`, of `loop`, `jal` and `jalr` after the write of a register. -/
theorem controlTransfer : Obligations.ControlTransfer := by
  intro s d a b k w o j x y pc target slots
  refine ⟨branches_go s a b o, fun hw => ?_, fun ha => ?_, fun hinh hhand => ?_, ?_, ?_⟩
  · have hzero : slotBits (s.readMask k) w.toNat = 0 ↔ slots = 0 := slotBits_eq_zero_iff _ _
    simp only [List.forall_mem_cons]
    refine ⟨s.branchMask_goes (.bmskAny k w o) k o (· != 0) hw ?_, s.branchMask_goes (.bmskNone k w o) k o (· == 0) hw ?_,
      s.branchMask_goes (.bmskAll k w o) k o (· == slotBits (BitVec.allOnes 128) w.toNat) hw ?_, List.forall_mem_nil _⟩
    · exact (bne_eq_decide_ne ..).trans (decide_eq_decide.mpr (not_congr hzero))
    · exact (beq_eq_decide ..).trans (decide_eq_decide.mpr hzero)
    · exact (beq_eq_decide ..).trans (decide_eq_decide.mpr (slotBits_eq_allOnes_iff _ _))
  · obtain ⟨t, ht, honly, hpc, hrd⟩ := s.branch_links (f := fun c => c.wr a (x - 1)) (x - 1 != 0) target rfl
    refine ⟨t, (if_neg ha).trans ht, honly, ?_, fun r => (hrd r).trans ?_⟩
    · by_cases h : x - 1 = 0
      · rw [hpc, if_pos h, h]; rfl
      · rw [hpc, if_neg h, if_pos (bne_iff_ne.mpr h)]
    · by_cases hr : r = 0
      · rw [if_pos hr, hr, if_neg (Ne.symm ha)]; rfl
      · rw [if_neg hr]
  · obtain ⟨t, ht, htrap⟩ := s.illegal_takesTrap (.loop 0 o) hinh hhand
    exact ⟨t, ht, htrap⟩
  · obtain ⟨t, ht, honly, hpc, hrd⟩ := s.branch_links (f := fun c => c.wr 31 (c.pc + 4)) true (jumpTarget pc j) rfl
    refine ⟨t, ht, honly, hpc, fun r => (hrd r).trans ?_⟩
    by_cases hr : r = 0
    · subst hr; rfl
    · rw [if_neg hr]
  · exact s.branch_links (f := fun c => c.wr d (c.pc + 4)) true ((x + o.signExtend 64) &&& ~~~3#64) rfl

end Sys2Proof.Claims

namespace Sys2Proof.Machine
open Sys2Proof.Claims

/-! ## Mask registers (R82, R83) -/

/-- A mask instruction writes its mask register and moves on. -/
theorem State.writeMask_writes (s : State) (d : MReg) (x : BitVec 128) :
    ∃ t, s.writeMask d x = .next t ∧ WritesMask s t d x := by
  refine ⟨_, rfl, .upd s _, ?_, fun k => ?_⟩
  · rw [State.core_upd]
    unfold Core.putMask Core.setMask
    split <;> rfl
  · rw [State.readMask, State.core_upd]
    show (s.core.putMask s.now d.toNat x).maskAt s.now k.toNat = _
    rw [Core.maskAt_putMask]
    exact if_congr (BitVec.toNat_eq (x := k) (y := 0)).symm rfl (if_congr BitVec.toNat_eq.symm rfl rfl)

/-- Of the first m numbers below n, those that p holds of. -/
theorem filter_range_below (p : Nat → Bool) {m n : Nat} (h : n ≤ m) :
    (List.range m).filter (fun j => p j && decide (j < n)) = (List.range n).filter p := by
  obtain ⟨k, rfl⟩ := Nat.exists_eq_add_of_le h
  rw [List.range_add, List.filter_append]
  have hhigh : ((List.range k).map (n + ·)).filter (fun j => p j && decide (j < n)) = [] := by
    rw [List.filter_eq_nil_iff]
    intro j hj
    obtain ⟨i, -, rfl⟩ := List.mem_map.mp hj
    simp
  rw [hhigh, List.append_nil]
  refine List.filter_congr fun j hj => ?_
  rw [decide_eq_true (List.mem_range.mp hj), Bool.and_true]

theorem getLsbD_slots (m : BitVec 128) (w j : Nat) :
    (m.extractLsb' 0 (slotCount w)).getLsbD j = (slotBits m w).toNat.testBit j := by
  refine Eq.trans ?_ (slotBits_bit m w j (slotCount_le w)).symm
  rw [BitVec.getLsbD_extractLsb', Nat.zero_add, Bool.and_comm]

/-- The ones among the slot bits are the ones of the slots (R82). -/
theorem countOnes_slotBits (m : BitVec 128) (w : Nat) :
    countOnes (slotBits m w).toNat 128
      = ((List.range (slotCount w)).filter (fun j => (m.extractLsb' 0 (slotCount w)).getLsbD j)).length := by
  have hbits : (List.range 128).filter (fun j => (slotBits m w).toNat.testBit j)
      = (List.range 128).filter (fun j => m.getLsbD j && decide (j < slotCount w)) :=
    List.filter_congr fun j _ => slotBits_bit m w j (slotCount_le w)
  rw [countOnes_eq, hbits, filter_range_below _ (slotCount_le w)]
  refine congrArg List.length (List.filter_congr fun j hj => ?_)
  rw [BitVec.getLsbD_extractLsb', Nat.zero_add, decide_eq_true (List.mem_range.mp hj), Bool.true_and]

end Sys2Proof.Machine

namespace Sys2Proof.Claims
open Sys2Proof.Machine

/-- Settles O3: the forms that write a mask by `State.writeMask_writes`, the counts by the slots' bits. -/
theorem maskInstructions : Obligations.MaskInstructions := by
  intro s d a b r x y t4 w A slots
  refine ⟨s.writeMask_writes d A, s.writeMask_writes d _, ?_, s.writeReg_writes r _ 4, s.writeReg_writes r _ 4,
    fun hw => ⟨?_, ?_⟩⟩
  · obtain ⟨t, ht, hwrites⟩ := s.writeMask_writes d (maskLogic t4 A (s.readMask b))
    exact ⟨t, _, ht, hwrites, fun j hj => maskLogic_bit t4 A (s.readMask b) j hj⟩
  · obtain ⟨t, ht, hwrites⟩ := s.writeReg_writes r (BitVec.ofNat 64 (countOnes (slotBits A w.toNat).toNat 128)) 4
    rw [countOnes_slotBits] at hwrites
    exact ⟨t, (if_pos hw).trans ht, hwrites⟩
  · obtain ⟨t, ht, hwrites⟩ := s.writeReg_writes r
      (BitVec.ofNat 64 (lowestOne (slotBits A w.toNat).toNat 0 (slotCount w.toNat))) 4
    obtain ⟨hv, hle, hbelow, hhit⟩ := lowestOne_spec (slotBits A w.toNat).toNat
      (lt_of_le_of_lt (slotCount_le w.toNat) (by omega))
    refine ⟨t, _, (if_pos hw).trans ht, hwrites, ?_⟩
    rw [hv]
    exact ⟨hle, fun j hj => (getLsbD_slots A w.toNat j).trans (hbelow j hj),
      fun h => (getLsbD_slots A w.toNat _).trans (hhit h)⟩

end Sys2Proof.Claims

namespace Sys2Proof.Machine
open Sys2Proof.Claims

/-! ## What a CSR reads (R84, R85, R86, R112) -/

theorem ofNat_bitIf_zero (b : Bool) : BitVec.ofNat 64 (bitIf b 0) = if b then 1 else 0 := by
  cases b <;> rfl

/-- `XSTAT`, bit by bit (R112): its fields stand at distinct places, so that their sum carries nowhere. -/
theorem Core.xstat_bit (c : Core) (j : Nat) :
    c.xstat.getLsbD j = if j = 0 then c.inh else if j = 1 then c.pend else if j = 2 then c.flt
      else if j = 5 then c.qv.stopped.isSome else if j = 6 then c.qm.stopped.isSome
      else if j = 7 then c.qc.stopped.isSome else false := by
  have hfits : ∀ fc fm fv flt pend inh : Bool,
      bitIf fc 7 + bitIf fm 6 + bitIf fv 5 + bitIf flt 2 + bitIf pend 1 + bitIf inh 0 < 2 ^ 8 := by decide
  have hfields : ∀ (fc fm fv flt pend inh : Bool) (j : Fin 8),
      (bitIf fc 7 + bitIf fm 6 + bitIf fv 5 + bitIf flt 2 + bitIf pend 1 + bitIf inh 0).testBit j.val =
        if j.val = 0 then inh else if j.val = 1 then pend else if j.val = 2 then flt else if j.val = 5 then fv
        else if j.val = 6 then fm else if j.val = 7 then fc else false := by decide
  rw [Core.xstat, BitVec.getLsbD_ofNat]
  by_cases hj : j < 8
  · rw [decide_eq_true (by omega : j < 64), Bool.true_and]
    exact hfields _ _ _ _ _ _ ⟨j, hj⟩
  · rw [Nat.testBit_lt_two_pow ((hfits _ _ _ _ _ _).trans_le (Nat.pow_le_pow_right (by omega) (by omega))),
      Bool.and_false]
    simp only [show j ≠ 0 by omega, show j ≠ 1 by omega, show j ≠ 2 by omega, show j ≠ 5 by omega, show j ≠ 6 by omega,
      show j ≠ 7 by omega, if_false]

theorem State.csrValue_detm (s : State) : s.csrValue 0x006 = some (if s.det s.core then 1 else 0) :=
  congrArg some (ofNat_bitIf_zero _)

theorem State.csrValue_schk (s : State) : s.csrValue 0x021 = some (if s.core.schk then 1 else 0) :=
  congrArg some (ofNat_bitIf_zero _)

/-- `WMk` reads the watermark of a RANGE channel (R85, R173). -/
theorem State.csrValue_mark (s : State) (k : BitVec 3) : s.csrValue (0x030 + k.toNat) =
    some (if (s.core.channel k.toNat).mode = .range then BitVec.ofNat 64 (s.core.channel k.toNat).wm else 0) := by
  have hk := k.isLt
  have hlow : ¬0x800 ≤ 0x030 + k.toNat := by omega
  have hmark : 0x030 ≤ 0x030 + k.toNat ∧ 0x030 + k.toNat < 0x038 := by omega
  refine (if_neg hlow).trans ((if_pos hmark).trans ?_)
  rw [Nat.add_sub_cancel_left]

theorem State.csrRead_writes (s : State) (i : Instr) (d : Reg) {n : Nat} {v : Word} (h : s.csrValue n = some v) :
    ∃ t, s.csrRead i d n = .next t ∧ WritesReg s t d v 4 := by
  rw [State.csrRead, h]
  exact s.writeReg_writes d v 4

/-! ## What a CSR write does (R84) -/

/-- A write of a CSR that can be written: its effect, then the old value into the register. -/
theorem State.csrModify_writes (s : State) (i : Instr) (ck : Nat) (d a : Reg) {n : Nat} {old : Word}
    (hv : s.csrValue n = some old) (hw : csrReadOnly n = false)
    (hrange : n = 0x022 → 1 ≤ (csrNew ck old (s.core.rd a)).toNat ∧ (csrNew ck old (s.core.rd a)).toNat ≤ 64) :
    ∃ t, s.csrModify i ck d a n = .next t
      ∧ WritesReg (s.writeCsr n (csrNew ck old (s.core.rd a))) t d old 4 := by
  have hlegal : ¬(csrReadOnly n = true
      ∨ (n = 0x022 ∧ (csrNew ck old (s.core.rd a) = 0 ∨ 64 < (csrNew ck old (s.core.rd a)).toNat))) := by
    rintro (h | ⟨hn, h0 | h64⟩)
    · rw [hw] at h
      exact Bool.false_ne_true h
    · have := (hrange hn).1
      rw [h0] at this
      exact absurd this (by decide)
    · have := (hrange hn).2
      omega
  simp only [State.csrModify, hv, if_neg hlegal]
  exact State.writeReg_writes _ d old 4

/-- After a change of the acting core that leaves its registers and its pc, a register is written. -/
theorem writesReg_after_upd {s t : State} {f : Core → Core} {d : Reg} {v : Word} {n : Nat}
    (h : WritesReg (s.upd f) t d v n) (hregs : (f s.core).s = s.core.s) (hpc : (f s.core).pc = s.core.pc) :
    OnlyCore s t
      ∧ t.core = { f s.core with s := t.core.s, pc := s.core.pc + BitVec.ofNat 64 n, waiting := none }
      ∧ ∀ r : Reg, t.core.rd r = if r = 0 then 0 else if r = d then v else s.core.rd r := by
  obtain ⟨⟨honly, hcore⟩, hpc', hrd⟩ := h
  rw [State.core_upd] at hcore hpc' hrd
  refine ⟨(OnlyCore.upd s f).trans honly, ?_, fun r => ?_⟩
  · rwa [hpc', hpc] at hcore
  · rw [hrd r, Core.rd, hregs, ← Core.rd]

/-- A CSR whose write changes a field of the core, and neither a register nor the pc. -/
theorem State.csrModify_field (s : State) (i : Instr) (ck : Nat) (d a : Reg) {n : Nat} {old : Word} {f : Core → Core}
    (hv : s.csrValue n = some old) (hw : csrReadOnly n = false)
    (hrange : n = 0x022 → 1 ≤ (csrNew ck old (s.core.rd a)).toNat ∧ (csrNew ck old (s.core.rd a)).toNat ≤ 64)
    (hf : s.writeCsr n (csrNew ck old (s.core.rd a)) = s.upd f)
    (hregs : (f s.core).s = s.core.s) (hpc : (f s.core).pc = s.core.pc) :
    ∃ t, s.csrModify i ck d a n = .next t ∧ OnlyCore s t
      ∧ t.core = { f s.core with s := t.core.s, pc := s.core.pc + 4, waiting := none }
      ∧ ∀ r : Reg, t.core.rd r = if r = 0 then 0 else if r = d then old else s.core.rd r := by
  obtain ⟨t, ht, hwrites⟩ := s.csrModify_writes i ck d a hv hw hrange
  rw [hf] at hwrites
  exact ⟨t, ht, writesReg_after_upd hwrites hregs hpc⟩

/-- The three forms that write, by their ck (R84). -/
theorem exec_csr_forms (s : State) (d a : Reg) :
    ∀ p ∈ [(1, fun (_ : Word) => s.core.rd a, Instr.csrw d a), (2, fun old => old ||| s.core.rd a, Instr.csrs d a),
           (3, fun old => old &&& ~~~s.core.rd a, Instr.csrc d a)],
      (∀ c, exec (p.2.2 c) s = s.csrModify (p.2.2 c) p.1 d a c.toNat)
        ∧ ∀ old, csrNew p.1 old (s.core.rd a) = p.2.1 old := by
  simp only [List.forall_mem_cons]
  exact ⟨⟨fun _ => rfl, fun _ => rfl⟩, ⟨fun _ => rfl, fun _ => rfl⟩, ⟨fun _ => rfl, fun _ => rfl⟩, List.forall_mem_nil _⟩

end Sys2Proof.Machine

namespace Sys2Proof.Claims
open Sys2Proof.Machine

theorem csrReads : CsrReads := by
  intro s d c v k
  refine ⟨s.csrRead_writes (.csrr d c) d, s.csrRead_writes (.engstRead d) d (n := 0x020) rfl, ?_, fun tk htask => ?_, k.xstat_bit, ?_⟩
  · simp only [List.forall_mem_cons]
    exact ⟨rfl, rfl, rfl, rfl, s.csrValue_detm, rfl, rfl, rfl, rfl, rfl, rfl, rfl, rfl, s.csrValue_schk, rfl,
      List.forall_mem_nil _⟩
  · have htask' : s.core.task = some tk := htask
    constructor
    · show some (match s.core.task with | some t => t.rowmask.zeroExtend 64 | none => 0) = _
      rw [htask']
    · show some (match s.core.task with | some t => BitVec.ofNat 64 t.l | none => 0) = _
      rw [htask']
  · simp only [List.forall_mem_cons]
    exact ⟨rfl, rfl, rfl, rfl, rfl, rfl, rfl, rfl, rfl, rfl, List.forall_mem_nil _⟩

theorem csrWrites : CsrWrites := by
  intro s d a x p hp new
  obtain ⟨hexec, hnew⟩ := exec_csr_forms s d a p hp
  replace hnew : ∀ old, csrNew p.1 old x = new old := hnew
  have hother {n : Nat} (h : n ≠ 0x022) {v : Word} : n = 0x022 → 1 ≤ v.toNat ∧ v.toNat ≤ 64 := fun e => absurd e h
  simp only [hexec, ← hnew]
  exact ⟨s.csrModify_field _ _ d a (n := 0x009)
      (f := fun c => { c with seed := (csrNew p.1 (s.core.seed.zeroExtend 64) x).extractLsb' 0 32 })
      rfl rfl (hother (by decide)) rfl rfl rfl,
    s.csrModify_field _ _ d a (n := 0x010) (f := fun c => { c with xpc := csrNew p.1 s.core.xpc x &&& ~~~3#64 })
      rfl rfl (hother (by decide)) rfl rfl rfl,
    s.csrModify_field _ _ d a (n := 0x014) (f := fun c => { c with xhand := csrNew p.1 s.core.xhand x &&& ~~~3#64 })
      rfl rfl (hother (by decide)) rfl rfl rfl,
    s.csrModify_field _ _ d a (n := 0x021)
      (f := fun c => { c with schk := (csrNew p.1 (if s.core.schk then 1 else 0) x).getLsbD 0 })
      s.csrValue_schk rfl (hother (by decide)) rfl rfl rfl,
    fun hlo hhi => s.csrModify_field _ _ d a (n := 0x022)
      (f := fun c => { c with lrun := (csrNew p.1 (s.core.lrun.zeroExtend 64) x).extractLsb' 0 7 })
      rfl rfl (fun _ => ⟨hlo, hhi⟩) rfl rfl rfl⟩

/-- Settles O7: a read is one write of a register; a write is the change of one field before it,
`State.csrModify_field`. -/
theorem csrAccess : Obligations.CsrAccess := ⟨csrReads, csrWrites⟩

end Sys2Proof.Claims

namespace Sys2Proof.Claims
open Sys2Proof.Machine

theorem SameBytes.trans {s t u : State} (h : SameBytes s t) (k : SameBytes t u) : SameBytes s u := by
  obtain ⟨hm, hv, hr⟩ := h
  obtain ⟨km, kv, kr⟩ := k
  exact ⟨fun a => (km a).trans (hm a), fun a => (kv a).trans (hv a), fun a => (kr a).trans (hr a)⟩

end Sys2Proof.Claims

namespace Sys2Proof.Machine
open Sys2Proof.Claims

/-! ## The error log leaves every core as it was (R330, R396) -/

theorem State.SameCores.foldl {α : Type} {f : State → α → State} (h : ∀ (s : State) (a : α), s.SameCores (f s a))
    (l : List α) (s : State) : s.SameCores (l.foldl f s) :=
  List.foldlRecOn (motive := s.SameCores) l f (.refl s) fun t ht a _ => ht.trans (h t a)

theorem touchLeaves_sameCores (wr : Bool) (s : State) (l : List Nat) : s.SameCores (touchLeaves wr s l) :=
  .foldl (fun s pa => s.putPhys_sameCores pa 8 _) l s

theorem State.translate_sameCores (s : State) (unit ctx a : Nat) (wr : Bool) :
    s.SameCores (s.translate unit ctx a wr).1 := by
  unfold State.translate
  split
  · exact .refl s
  · unfold State.walkFill
    extract_lets r s1 x
    have h : s.SameCores s1 := touchLeaves_sameCores wr s r.leaves
    split
    · exact h.trans ⟨rfl, rfl, rfl⟩
    · exact h

theorem State.event_sameCores (s : State) (kind ctx arg vec : Nat) : s.SameCores (s.event kind ctx arg vec) := by
  have hraise : ∀ t : State, t.SameCores (t.raise vec) := fun t => by
    unfold State.raise
    extract_lets h
    split <;> exact ⟨rfl, rfl, rfl⟩
  unfold State.event
  extract_lets h n size ph v s1
  have h1 : s.SameCores s1 := ⟨rfl, rfl, rfl⟩
  refine State.SameCores.trans ?_ (hraise _)
  split
  · exact h1
  · exact h1.trans (s1.putPhys_sameCores _ 16 v)

theorem State.logSlot_sameCores (s : State) (ctx v : Nat) : s.SameCores (s.logSlot ctx v) := by
  unfold State.logSlot
  extract_lets va x0 s1
  have h1 : s.SameCores s1 := ⟨rfl, rfl, rfl⟩
  split
  · next a _ =>
    have h2 := h1.trans (s1.translate_sameCores 8 ctx a true)
    generalize s1.translate 8 ctx a true = r at h2
    obtain ⟨s2, x⟩ := r
    show s.SameCores (if x.st = .resident ∧ x.w = true then s2.putPhys (framePA x.frame a) 32 v else s2)
    split
    · exact h2.trans (s2.putPhys_sameCores _ 32 v)
    · exact h2
  · exact h1

theorem State.logRecord_sameCores (s : State) (ctx kind sub detail lcore eng launch taskn : Nat) (conts : List Nat) :
    s.SameCores (s.logRecord ctx kind sub detail lcore eng launch taskn conts) :=
  ((s.logSlot_sameCores ctx _).trans (.foldl (fun t v => t.logSlot_sameCores ctx v) conts _)).trans
    (State.event_sameCores _ 3 ctx _ _)

theorem State.logEngineFault_sameCores (s : State) (e : Eng) (f : EngFault) (xpc : Nat) :
    s.SameCores (s.logEngineFault e f xpc) := s.logRecord_sameCores _ _ _ _ _ _ _ _ _

/-! ## A stopped queue is released (R116) -/

/-- The claims of an entry stand in the claim tables and in what goes to other packages (R175, R346). -/
theorem State.releaseClaims_frame (s : State) (core seq : Nat) :
    ∃ cl rs n, s.releaseClaims core seq = { s with claims := cl, remotes := rs, nextRemote := n } := by
  unfold State.releaseClaims
  extract_lets own far
  refine List.foldlRecOn (motive := fun t : State => ∃ cl rs n, t = { s with claims := cl, remotes := rs, nextRemote := n })
    far _ ⟨_, s.remotes, s.nextRemote, rfl⟩ fun t ht x _ => ?_
  obtain ⟨cl, rs, n, rfl⟩ := ht
  exact ⟨cl, _, n + 1, rfl⟩

theorem Core.dropParts_eq (c : Core) (gone : List CopyCmd) : ∃ m, c.dropParts gone = { c with chan := m } := by
  unfold Core.dropParts
  refine List.foldlRecOn (motive := fun d : Core => ∃ m, d = { c with chan := m }) gone _ ⟨c.chan, rfl⟩ fun d hd x _ => ?_
  obtain ⟨m, rfl⟩ := hd
  extract_lets k
  split
  · exact ⟨m, rfl⟩
  · exact ⟨_, rfl⟩

/-- What a dropped entry holds lies in the channels, the copy engine and the rows asked for (R116). -/
theorem Core.dropTag_frame (c : Core) (e : Eng) (seq : Nat) : ∃ ch cp en vm fr,
    c.dropTag e seq = { c with chan := ch, copies := cp, ended := en, vmasks := vm, farRows := fr } := by
  obtain ⟨m, hm⟩ := c.dropParts_eq (c.copies.filter (fun k => k.tag.eng == e && k.tag.seq == seq))
  simp only [Core.dropTag, hm]
  exact ⟨_, _, _, _, _, rfl⟩

/-- From s to t the stopped queues that `gone` names are released: the registers, the pc, INH and FLT stay, and no byte
changes when there is no fault of an exited task to log (R116, R117). -/
structure State.Releases (s t : State) (gone : Eng → Bool) : Prop where
  inh : t.core.inh = s.core.inh
  flt : t.core.flt = s.core.flt
  pc : t.core.pc = s.core.pc
  regs : t.core.s = s.core.s
  stopped : ∀ g, (t.core.queue g).stopped = if gone g then none else (s.core.queue g).stopped
  bytes : (∀ e f, (s.core.queue e).stopped = some f → f.prev = true → f.told = true) → SameBytes s t

theorem State.Releases.trans {s t u : State} {p q : Eng → Bool} (h : s.Releases t p) (k : t.Releases u q) :
    s.Releases u (fun g => p g || q g) where
  inh := k.inh.trans h.inh
  flt := k.flt.trans h.flt
  pc := k.pc.trans h.pc
  regs := k.regs.trans h.regs
  stopped g := by
    rw [k.stopped, h.stopped]
    cases p g <;> cases q g <;> rfl
  bytes hs := (h.bytes hs).trans (k.bytes fun e f hf => by
    rw [h.stopped] at hf
    split at hf
    · exact absurd hf nofun
    · exact hs e f hf)

/-- Nothing is released when each queue named runs already. -/
theorem State.Releases.refl_of {s : State} {gone : Eng → Bool} (h : ∀ g, gone g = true → (s.core.queue g).stopped = none) :
    s.Releases s gone where
  inh := rfl
  flt := rfl
  pc := rfl
  regs := rfl
  stopped g := by
    split
    · next hg => exact h g hg
    · rfl
  bytes _ := .refl s

/-- A change of the acting core that sets one queue's stop and what a dropped entry holds (R116). -/
theorem Core.dropTag_setQueue (c : Core) (e : Eng) (q : Queue) (seq : Nat) :
    ((c.setQueue e q).dropTag e seq).inh = c.inh ∧ ((c.setQueue e q).dropTag e seq).flt = c.flt
      ∧ ((c.setQueue e q).dropTag e seq).pc = c.pc ∧ ((c.setQueue e q).dropTag e seq).s = c.s
      ∧ ∀ g, ((c.setQueue e q).dropTag e seq).queue g = if g = e then q else c.queue g := by
  obtain ⟨ch, cp, en, vm, fr, h⟩ := (c.setQueue e q).dropTag_frame e seq
  rw [h]
  refine ⟨c.setQueue_inh e q, c.setQueue_flt e q, c.setQueue_pc e q, c.setQueue_s e q, fun g => ?_⟩
  rw [← Core.queue_setQueue]
  cases g <;> rfl

/-- The release of a queue changes no byte, and of the queues only its own (R116). -/
theorem State.releaseQueue_releases (s : State) (e : Eng) : s.Releases (s.releaseQueue e) (fun g => g == e) := by
  unfold State.releaseQueue
  extract_lets q
  split
  · next hq => exact .refl_of fun g hg => (beq_iff_eq.mp hg) ▸ hq
  · next f hf =>
    extract_lets q1 s1
    obtain ⟨hinh, hflt, hpc, hregs, hqueue⟩ := s.core.dropTag_setQueue e q1 f.seq
    have h1 : s.Releases s1 (fun g => g == e) := by
      have hcore : s1.core = (s.core.setQueue e q1).dropTag e f.seq := State.core_upd s _
      refine ⟨hcore ▸ hinh, hcore ▸ hflt, hcore ▸ hpc, hcore ▸ hregs, fun g => ?_, fun _ => .of_eq rfl rfl rfl⟩
      rw [hcore, hqueue]
      by_cases hg : g = e
      · rw [if_pos hg, if_pos (beq_iff_eq.mpr hg)]
      · rw [if_neg hg, if_neg (fun h => hg (beq_iff_eq.mp h))]
    split
    · obtain ⟨cl, rs, n, h⟩ := s1.releaseClaims_frame s.cur f.seq
      rw [h]
      exact ⟨h1.inh, h1.flt, h1.pc, h1.regs, h1.stopped, h1.bytes⟩
    · exact h1

end Sys2Proof.Machine

namespace Sys2Proof.Machine
open Sys2Proof.Claims

/-! ## Writing `XSTAT` (R112, R116, R117) -/

/-- The stop bits of `XSTAT` tell the stopped queues (R112). -/
theorem Core.xstat_stopBit (c : Core) {k : Nat} (hk : k ∈ [5, 6, 7]) :
    c.xstat.getLsbD k = (c.queue (stopBit k)).stopped.isSome := by
  rw [Core.xstat_bit]
  simp only [List.mem_cons, List.not_mem_nil, or_false] at hk
  obtain rfl | rfl | rfl := hk <;> rfl

/-- A record that leaves the cores releases nothing. -/
theorem State.SameCores.releases {s t : State} (h : s.SameCores t)
    (hb : (∀ e f, (s.core.queue e).stopped = some f → f.prev = true → f.told = true) → SameBytes s t) :
    s.Releases t (fun _ => false) := by
  have hcore := h.core
  exact ⟨hcore ▸ rfl, hcore ▸ rfl, hcore ▸ rfl, hcore ▸ rfl, fun g => hcore ▸ rfl, hb⟩

/-- A stop bit that is cleared releases its queue; the log is written only for a fault of an exited task that no task has
seen. -/
theorem State.clearStop_releases (s : State) (new : Word) {k : Nat} (hk : k ∈ [5, 6, 7]) :
    s.Releases (s.clearStop new k) (fun g => g == stopBit k && !new.getLsbD k) := by
  unfold State.clearStop
  rw [s.core.xstat_stopBit hk]
  split
  · next hclear =>
    obtain ⟨hset, hnew⟩ := (Bool.and_eq_true ..).mp hclear
    extract_lets e
    split
    · next f hf =>
      have hlog : s.Releases (if f.prev && !f.told then s.logEngineFault e f s.core.pc.toNat else s) (fun _ => false) := by
        split
        · next hunseen =>
          refine (s.logEngineFault_sameCores e f _).releases fun hseen => ?_
          obtain ⟨hprev, htold⟩ := (Bool.and_eq_true ..).mp hunseen
          rw [hseen e f hf hprev] at htold
          exact absurd htold Bool.false_ne_true
        · exact .refl_of nofun
      have hgone : (fun g => g == stopBit k && !new.getLsbD k) = fun g => false || g == e := by
        funext g
        rw [hnew, Bool.and_true, Bool.false_or]
      rw [hgone]
      exact hlog.trans (State.releaseQueue_releases _ e)
    · next hf =>
      rw [show (s.core.queue (stopBit k)).stopped = none from hf] at hset
      exact absurd hset Bool.false_ne_true
  · next hkeep =>
    refine .refl_of fun g hg => ?_
    obtain ⟨he, hnew⟩ := (Bool.and_eq_true ..).mp hg
    rw [beq_iff_eq.mp he]
    by_contra hne
    exact hkeep ((Bool.and_eq_true ..).mpr ⟨Option.isSome_iff_ne_none.mpr hne, hnew⟩)

/-- A write of `XSTAT` sets INH and FLT and releases the queues whose bits it clears. -/
theorem State.writeXstat_releases (s : State) (new : Word) :
    (s.upd (fun c => { c with inh := new.getLsbD 0, flt := new.getLsbD 2 })).Releases (s.writeXstat new)
      (fun g => ((g == .v && !new.getLsbD 5) || (g == .m && !new.getLsbD 6)) || (g == .c && !new.getLsbD 7)) :=
  ((State.clearStop_releases _ new (k := 5) (by decide)).trans (State.clearStop_releases _ new (k := 6) (by decide))).trans
    (State.clearStop_releases _ new (k := 7) (by decide))

theorem State.writeXstat_spec (s : State) (new : Word) :
    (s.writeXstat new).core.inh = new.getLsbD 0 ∧ (s.writeXstat new).core.flt = new.getLsbD 2
      ∧ (s.writeXstat new).core.pc = s.core.pc ∧ (s.writeXstat new).core.s = s.core.s
      ∧ (∀ e ∈ [(Eng.v, 5), (Eng.m, 6), (Eng.c, 7)], ((s.writeXstat new).core.queue e.1).stopped =
          if new.getLsbD e.2 then (s.core.queue e.1).stopped else none)
      ∧ ((∀ e f, (s.core.queue e).stopped = some f → f.prev = true → f.told = true) → SameBytes s (s.writeXstat new)) := by
  obtain ⟨hinh, hflt, hpc, hregs, hstopped, hbytes⟩ := s.writeXstat_releases new
  rw [State.core_upd] at hinh hflt hpc hregs hbytes
  have hqueue : ∀ e, ((s.upd (fun c => { c with inh := new.getLsbD 0, flt := new.getLsbD 2 })).core.queue e) =
      s.core.queue e := fun e => by
    rw [State.core_upd]
    cases e <;> rfl
  simp only [hqueue] at hstopped
  refine ⟨hinh, hflt, hpc, hregs, ?_, fun hseen => ?_⟩
  · simp only [List.forall_mem_cons]
    refine ⟨(hstopped .v).trans ?_, (hstopped .m).trans ?_, (hstopped .c).trans ?_, List.forall_mem_nil _⟩
    · cases new.getLsbD 5 <;> rfl
    · cases new.getLsbD 6 <;> rfl
    · cases new.getLsbD 7 <;> rfl
  · exact SameBytes.trans (.of_eq rfl rfl rfl) (hbytes fun e f hf => hseen e f (by cases e <;> exact hf))

/-! ## Writing `WMk` (R84, R173) -/

theorem Core.writeMark_of_not_range (c : Core) {k : Nat} (new : Word) (h : (c.channel k).mode ≠ .range) :
    c.writeMark k new = c := if_neg h

theorem Core.writeMark_range (c : Core) {k : Nat} (new : Word) (h : (c.channel k).mode = .range) :
    (c.writeMark k new).s = c.s ∧ (c.writeMark k new).pc = c.pc
      ∧ ((c.writeMark k new).channel k).wm = min (new.toNat % 2 ^ 19) (c.channel k).len := by
  have hw : c.writeMark k new = { c.setChannel k ((c.channel k).setMark (new.toNat % 2 ^ 19) true) with
      latch := c.latch || ((c.channel k).setMark (new.toNat % 2 ^ 19) true).wm != (c.channel k).wm } := if_pos h
  rw [hw]
  refine ⟨rfl, rfl, ?_⟩
  exact congrArg Channel.wm (SMap.get_set_same ({} : Channel) c.chan k _)

theorem csrReadOnly_mark (k : BitVec 3) : csrReadOnly (0x030 + k.toNat) = false := by
  have hk := k.isLt
  have hmark : (decide (0x030 ≤ 0x030 + k.toNat) && decide (0x030 + k.toNat < 0x038)) = true := by
    rw [decide_eq_true (by omega), decide_eq_true (by omega), Bool.and_true]
  rw [csrReadOnly, hmark, Bool.or_true, Bool.true_or, Bool.not_true]

theorem State.writeCsr_mark (s : State) (k : BitVec 3) (new : Word) :
    s.writeCsr (0x030 + k.toNat) new = s.upd (fun c => c.writeMark k.toNat new) := by
  have hk := k.isLt
  have hlow : ¬0x800 ≤ 0x030 + k.toNat := by omega
  have hmark : 0x030 ≤ 0x030 + k.toNat ∧ 0x030 + k.toNat < 0x038 := by omega
  refine (if_neg hlow).trans ((if_pos hmark).trans ?_)
  rw [Nat.add_sub_cancel_left]

/-- A write of `WMk` (R84): the old mark into the register, the new one into the channel. -/
theorem State.wmWrite_writes (s : State) {ck : BitVec 2} (hck : ck ≠ 0) (d a : Reg) (k : BitVec 3) {old : Word}
    (hv : s.csrValue (0x030 + k.toNat) = some old) :
    ∃ t, exec (.wmWrite ck d a k) s = .next t
      ∧ WritesReg (s.upd (fun c => c.writeMark k.toNat (csrNew ck.toNat old (s.core.rd a)))) t d old 4 := by
  obtain ⟨t, ht, hwrites⟩ := s.csrModify_writes (.wmWrite ck d a k) ck.toNat d a hv (csrReadOnly_mark k)
    (fun h => by omega)
  rw [s.writeCsr_mark] at hwrites
  exact ⟨t, (if_neg hck).trans ht, hwrites⟩

/-! ## `RESID` (R87) -/

/-- An access of `RESID` does not wait when no load or store is left. -/
theorem execResidAccess_ready (s : State) (ck : BitVec 2) (d a : Reg) (hl : s.core.lq = []) (hs : s.core.sq = [])
    (hr : s.remoteOwed s.ctx s.cur = false) : exec (.residAccess ck d a) s =
      if ck = 0 then (if a = 0 then s.csrRead (.residAccess ck d a) d 0x00C else s.illegal (.residAccess ck d a))
      else s.csrModify (.residAccess ck d a) ck.toNat d a 0x00C := by
  have hdone : s.accessesDone 5 = true := by
    rw [State.accessesDone, State.storesDone, hl, hs, hr]
    rfl
  exact if_neg (by rw [hdone]; exact Bool.false_ne_true)

end Sys2Proof.Machine

namespace Sys2Proof.Claims
open Sys2Proof.Machine

theorem xstatWrite_writes (s : State) {ck : BitVec 2} (hck : ck ≠ 0) (d a : Reg) :
    let new := csrNew ck.toNat s.core.xstat (s.core.rd a)
    ∃ t, exec (.xstatWrite ck d a) s = .next t
      ∧ t.core.inh = new.getLsbD 0 ∧ t.core.flt = new.getLsbD 2
      ∧ t.core.pc = s.core.pc + 4
      ∧ (∀ e ∈ [(Eng.v, 5), (Eng.m, 6), (Eng.c, 7)],
          (t.core.queue e.1).stopped = if new.getLsbD e.2 then (s.core.queue e.1).stopped else none)
      ∧ (∀ r : Reg, t.core.rd r = if r = 0 then 0 else if r = d then s.core.xstat else s.core.rd r)
      ∧ ((∀ e f, (s.core.queue e).stopped = some f → f.prev = true → f.told = true) → SameBytes s t) := by
  intro new
  obtain ⟨t, ht, hwrites⟩ := s.csrModify_writes (.xstatWrite ck d a) ck.toNat d a (n := 0x013) rfl rfl
    (fun h => absurd h (by decide))
  obtain ⟨⟨⟨-, hsame, -⟩, hcore⟩, hpc, hrd⟩ : WritesReg (s.writeXstat new) t d s.core.xstat 4 := hwrites
  obtain ⟨hinh, hflt, hpc', hregs, hstopped, hbytes⟩ := s.writeXstat_spec new
  have hqueue : ∀ e, t.core.queue e = (s.writeXstat new).core.queue e := fun e => by
    rw [hcore]
    cases e <;> rfl
  refine ⟨t, (if_neg hck).trans ht, ?_, ?_, ?_, fun e he => ?_, fun r => ?_, fun hseen => (hbytes hseen).trans hsame⟩
  · rw [hcore]; exact hinh
  · rw [hcore]; exact hflt
  · rw [hpc, hpc']; rfl
  · rw [hqueue, hstopped e he]
  · rw [hrd r, Core.rd, hregs, ← Core.rd]

/-- Settles O8: `RESID` and `WMk` by the field that a write changes, `XSTAT` by the queues that it releases. -/
theorem csrsWithEffects : Obligations.CsrsWithEffects := by
  intro s ck d a k hck new x
  refine ⟨fun hl hs hr => ?_, fun hl hs hr => ?_, xstatWrite_writes s hck d a, fun hoff => ?_, fun hrange => ?_⟩
  · rw [execResidAccess_ready s ck d a hl hs hr, if_neg hck]
    exact s.csrModify_field _ _ d a (n := 0x00C)
      (f := fun c => { c with resid := (new (s.core.resid.zeroExtend 64) x).extractLsb' 0 2 })
      rfl rfl (fun h => absurd h (by decide)) rfl rfl rfl
  · rw [execResidAccess_ready s 0 d 0 hl hs hr]
    exact s.csrRead_writes (.residAccess 0 d 0) d (n := 0x00C) rfl
  · have hne : (s.core.channel k.toNat).mode ≠ .range := by rw [hoff]; decide
    obtain ⟨t, ht, hwrites⟩ := s.wmWrite_writes hck d a k ((s.csrValue_mark k).trans (congrArg some (if_neg hne)))
    have hkeep : s.upd (fun c => c.writeMark k.toNat (csrNew ck.toNat 0 (s.core.rd a))) = s.upd id :=
      congrArg s.setCore (s.core.writeMark_of_not_range _ hne)
    rw [hkeep] at hwrites
    obtain ⟨honly, hcore, hrd⟩ := writesReg_after_upd hwrites rfl rfl
    have hpc : t.core.pc = s.core.pc + BitVec.ofNat 64 4 := by rw [hcore]
    exact ⟨t, ht, ⟨honly, hpc ▸ hcore⟩, hpc, hrd⟩
  · obtain ⟨t, ht, hwrites⟩ := s.wmWrite_writes hck d a k ((s.csrValue_mark k).trans (congrArg some (if_pos hrange)))
    obtain ⟨hregs, hpc, hwm⟩ := s.core.writeMark_range (new (BitVec.ofNat 64 (s.core.channel k.toNat).wm) x) hrange
    obtain ⟨honly, hcore, hrd⟩ := writesReg_after_upd hwrites hregs hpc
    refine ⟨t, ht, honly, ?_, ?_, hrd⟩
    · rw [hcore]; rfl
    · rw [hcore]; exact hwm

end Sys2Proof.Claims

namespace Sys2Proof.Machine
open Sys2Proof.Claims

/-! ## The effective address (R88) -/

theorem hreg_toNat_ne_zero {h : HReg} (hh : h ≠ 0) : h.toNat ≠ 0 := fun e => hh (BitVec.eq_of_toNat_eq e)

/-- An access through a valid handle below its limit. -/
theorem Core.effAddr_ok (c : Core) {h : HReg} {off : Word} (hh : h ≠ 0) (hv : (c.handle h.toNat).valid = true)
    (ho : off.toNat < (c.handle h.toNat).limit) : c.effAddr h.toNat off = .ok (c.handle h.toNat) := by
  have hnull : ¬(h.toNat = 0 ∨ (c.handle h.toNat).valid = false) := by simp [hreg_toNat_ne_zero hh, hv]
  exact (if_neg hnull).trans (if_neg (Nat.not_le.mpr ho))

theorem Core.effAddr_invalid (c : Core) {h : HReg} (off : Word) (hv : h = 0 ∨ (c.handle h.toNat).valid = false) :
    c.effAddr h.toNat off = .trap cHandleInvalid (BitVec.ofNat 64 h.toNat) :=
  if_pos (hv.imp_left fun e => e ▸ rfl)

theorem Core.effAddr_beyond (c : Core) {h : HReg} {off : Word} (hh : h ≠ 0) (hv : (c.handle h.toNat).valid = true)
    (ho : (c.handle h.toNat).limit ≤ off.toNat) :
    c.effAddr h.toNat off = .trap (if (c.handle h.toNat).vault then cVaultBounds else cHandleRange) off := by
  have hnull : ¬(h.toNat = 0 ∨ (c.handle h.toNat).valid = false) := by simp [hreg_toNat_ne_zero hh, hv]
  exact (if_neg hnull).trans (if_pos ho)

/-! ## Entering the queues (R89, R90) -/

/-- The queue entry of an access through register h, as the handle stands (R89). -/
def Core.accessEntry (c : Core) (h : HReg) (off : Word) (k : LsKind) : LsEntry :=
  { kind := k, handle := c.handle h.toNat, reg := h.toNat, off := off.toNat, stamp := c.stamp }

/-- A load enters its queue. -/
theorem State.load_enters (s : State) (d : Reg) {h : HReg} {off : Word} (wide : Bool) (el : Nat) (hh : h ≠ 0)
    (hv : (s.core.handle h.toNat).valid = true) (ho : off.toNat < (s.core.handle h.toNat).limit)
    (hr : (s.core.handle h.toNat).readyAt ≤ s.now) (hroom : s.core.lq.length < 16) :
    ∃ t, s.load d h off wide el = .next t ∧ CoreBecomes s t (movedOn
      { s.core with lq := s.core.lq ++ [s.core.accessEntry h off (.load d wide el)], stamp := s.core.stamp + 1 } 4) := by
  have hgo : (!s.handleReady (s.core.handle h.toNat) || decide (16 ≤ s.core.lq.length)) = false := by
    simp [State.handleReady, hr, hroom]
  refine ⟨_, ?_, .upd s (fun c => _)⟩
  simp only [State.load, s.core.effAddr_ok hh hv ho, hgo, Bool.false_eq_true, if_false]
  rfl

/-- A store through a writable handle enters its queue; the recorder notes it (R303). -/
theorem State.store_enters (s : State) (i : Instr) {h : HReg} {off : Word} (k : LsKind) (hh : h ≠ 0)
    (hv : (s.core.handle h.toNat).valid = true) (ho : off.toNat < (s.core.handle h.toNat).limit)
    (hw : (s.core.handle h.toNat).w = true) (hr : (s.core.handle h.toNat).readyAt ≤ s.now) (hroom : s.core.sq.length < 16) :
    ∃ t, s.store i h off k = .next t ∧ CoreRecorded s t (movedOn
      { s.core with sq := s.core.sq ++ [s.core.accessEntry h off k], stamp := s.core.stamp + 1 } 4) := by
  have hgo : (!s.handleReady (s.core.handle h.toNat) || decide (16 ≤ s.core.sq.length)) = false := by
    simp [State.handleReady, hr, hroom]
  obtain ⟨g, hg⟩ := s.noteLive_eq
  refine ⟨_, ?_, .upd s g (fun c => movedOn
      { c with sq := c.sq ++ [s.core.accessEntry h off k], stamp := c.stamp + 1 } 4)⟩
  simp only [State.store, s.core.effAddr_ok hh hv ho, hw, hgo, hg, Bool.not_true, Bool.false_eq_true, if_false]
  rfl

end Sys2Proof.Machine

namespace Sys2Proof.Claims
open Sys2Proof.Machine

/-- Settles O9: a load by `State.load_enters`, a store by `State.store_enters`. -/
theorem loadsAndStoresIssue : Obligations.LoadsAndStoresIssue := by
  intro s d x h e5 e4 r hd off entry hh hv ho hr
  refine ⟨fun hroom => ?_, fun hw hroom => ?_⟩ <;> simp only [List.forall_mem_cons]
  · exact ⟨s.load_enters d false e5.toNat hh hv ho hr hroom, s.load_enters d true e4.toNat hh hv ho hr hroom,
      List.forall_mem_nil _⟩
  · exact ⟨s.store_enters _ _ hh hv ho hw hr hroom, s.store_enters _ _ hh hv ho hw hr hroom, List.forall_mem_nil _⟩

end Sys2Proof.Claims

namespace Sys2Proof.Machine
open Sys2Proof.Claims

/-! ## The checks of an access (R88, R114) -/

/-- The four forms of a row access trap what EffAddr finds. -/
theorem exec_access_traps (s : State) {d x : Reg} {h : HReg} {e5 : BitVec 5} {e4 : BitVec 4} {r : BitVec 7}
    {code : BitVec 8} {v : Word} (he : s.core.effAddr h.toNat (s.core.rowOff x r) = .trap code v) {i : Instr}
    (hi : i ∈ [Instr.ldW d h x e5 r, .ldD d h x e4 r, .stW d h x e5 r, .stD d h x e4 r]) : exec i s = s.trap code v := by
  have hload : ∀ wide el, s.load d h (s.core.rowOff x r) wide el = s.trap code v := fun _ _ => by rw [State.load, he]
  have hstore : ∀ j k, s.store j h (s.core.rowOff x r) k = s.trap code v := fun _ _ => by rw [State.store, he]
  simp only [List.mem_cons, List.not_mem_nil, or_false] at hi
  obtain rfl | rfl | rfl | rfl := hi
  · exact hload _ _
  · exact hload _ _
  · exact hstore _ _
  · exact hstore _ _

/-- A store through a handle without W (R88). -/
theorem State.store_unprivileged (s : State) (i : Instr) {h : HReg} {off : Word} (k : LsKind)
    (he : s.core.effAddr h.toNat off = .ok (s.core.handle h.toNat)) (hw : (s.core.handle h.toNat).w = false) :
    s.store i h off k = s.trap cPrivilege ((firstWord i).zeroExtend 64) := by
  simp only [State.store, he, hw, Bool.not_false, if_true]

end Sys2Proof.Machine

namespace Sys2Proof.Claims
open Sys2Proof.Machine

/-- Settles O10: what EffAddr finds, and W, by the exception entry `State.takeTrap_handled`. -/
theorem accessChecksTrap : Obligations.AccessChecksTrap := by
  intro s d x h e5 e4 r hd off hinh hhand
  have htrap : ∀ (i : Instr) {code : BitVec 8} {v : Word}, code ≠ cEngineFault → exec i s = s.trap code v →
      ∃ t, exec i s = .next t ∧ TakesTrap s t code v s.core.pc := fun i _ _ hc hi =>
    ⟨_, hi, s.takeTrap_handled _ _ hinh hhand hc⟩
  refine ⟨fun hnull i hi => ?_, fun hh hv ho i hi => ?_, fun hh hv ho hw i hi => ?_⟩
  · exact htrap i (by decide) (exec_access_traps s (s.core.effAddr_invalid off hnull) hi)
  · exact htrap i (by split <;> decide) (exec_access_traps s (s.core.effAddr_beyond hh hv ho) hi)
  · have heff := s.core.effAddr_ok hh hv ho
    simp only [List.mem_cons, List.not_mem_nil, or_false] at hi
    obtain rfl | rfl := hi
    · exact htrap _ (by decide) (s.store_unprivileged _ _ heff hw)
    · exact htrap _ (by decide) (s.store_unprivileged _ _ heff hw)

end Sys2Proof.Claims

namespace Sys2Proof.Machine
open Sys2Proof.Claims

/-! ## Numbers, rows and their bytes (R4, R66, R192) -/

theorem readNat_lt (m : List Host.Cell) (a n : Nat) : readNat m a n < 256 ^ n := by
  induction n generalizing a with
  | zero => exact Nat.one_pos
  | succ n ih =>
    have hb := (readByte m a).isLt
    have hn := ih (a + 1)
    rw [readNat, Nat.pow_succ]
    omega

/-- Byte j of a number that has been read. -/
theorem readNat_byte (m : List Host.Cell) (a : Nat) {n j : Nat} (hj : j < n) :
    BitVec.ofNat 8 (readNat m a n / 256 ^ j) = readByte m (a + j) := by
  induction n generalizing a j with
  | zero => omega
  | succ n ih =>
    have hb := (readByte m a).isLt
    rw [readNat]
    cases j with
    | zero =>
      refine BitVec.eq_of_toNat_eq ?_
      rw [BitVec.toNat_ofNat, Nat.pow_zero, Nat.div_one]
      show _ = (readByte m a).toNat
      omega
    | succ j =>
      have hdiv : ((readByte m a).toNat + 256 * readNat m (a + 1) n) / 256 = readNat m (a + 1) n := by omega
      rw [Nat.pow_succ', ← Nat.div_div_eq_div_mul, hdiv, ih (a + 1) (by omega), Nat.add_right_comm, Nat.add_assoc]

theorem two_pow_mul_eight (n : Nat) : 2 ^ (8 * n) = 256 ^ n := by rw [Nat.pow_mul]

/-- A row of 1,024 bits has 128 bytes. -/
theorem rowBits_eq : 2 ^ 1024 = 256 ^ 128 := two_pow_mul_eight 128

theorem readRow_toNat (m : List Host.Cell) (a : Nat) : (readRow m a).toNat = readNat m (rowBase a) 128 := by
  rw [readRow, BitVec.toNat_ofNat, rowBits_eq, Nat.mod_eq_of_lt (readNat_lt m (rowBase a) 128)]

/-- The low bytes of a number are its bytes. -/
theorem byte_of_mod (v : Nat) {n j : Nat} (hj : j < n) :
    BitVec.ofNat 8 (v % 256 ^ n / 256 ^ j) = BitVec.ofNat 8 (v / 256 ^ j) := by
  refine BitVec.eq_of_toNat_eq ?_
  have h : n = j + (n - j - 1 + 1) := by omega
  rw [BitVec.toNat_ofNat, BitVec.toNat_ofNat, h, Nat.pow_add, Nat.mod_mul_right_div_self, Nat.pow_succ',
    Nat.mod_mul_right_mod]

/-- An element of a row is what its bytes hold. -/
theorem holds_rowElement (s : State) {p : Spot} {n el : Nat} (hp : s.poisoned p = false) (hel : n * (el + 1) ≤ 128) :
    Holds s p.vault (p.addr / 128 * 128 + n * el) n (rowElement (s.rowAt p) n el) := by
  have hrow : (s.rowAt p).toNat = readNat (s.space p.vault) (p.addr / 128 * 128) 128 := by
    rw [State.rowAt, hp, if_neg Bool.false_ne_true, readRow_toNat]
    rfl
  rw [rowElement, two_pow_mul_eight, show 8 * n * el = 8 * (n * el) by ring, two_pow_mul_eight, hrow]
  refine ⟨Nat.mod_lt _ (Nat.pow_pos (by omega)), fun j hj => ?_⟩
  have hlt : n * el + j < 128 := by rw [Nat.mul_succ] at hel; omega
  rw [byte_of_mod _ hj, Nat.div_div_eq_div_mul, ← Nat.pow_add, readNat_byte _ _ hlt, Nat.add_assoc]

/-- What the bytes of an element hold is one number. -/
theorem Holds.unique {s : State} {v : Bool} {base n a b : Nat} (ha : Holds s v base n a) (hb : Holds s v base n b) :
    a = b := by
  obtain ⟨hla, hba⟩ := ha
  obtain ⟨hlb, hbb⟩ := hb
  have hmod : ∀ k, k ≤ n → a % 256 ^ k = b % 256 ^ k := by
    intro k
    induction k with
    | zero => exact fun _ => by rw [Nat.pow_zero, Nat.mod_one, Nat.mod_one]
    | succ k ih =>
      intro hk
      have hbyte := congrArg BitVec.toNat ((hba k hk).trans (hbb k hk).symm)
      rw [BitVec.toNat_ofNat, BitVec.toNat_ofNat] at hbyte
      rw [Nat.mod_pow_succ, Nat.mod_pow_succ, ih (by omega), show a / 256 ^ k % 256 = b / 256 ^ k % 256 from hbyte]
  have h := hmod n le_rfl
  rwa [Nat.mod_eq_of_lt hla, Nat.mod_eq_of_lt hlb] at h

theorem byteMask_bit {i n j : Nat} (h : i + n ≤ 128) : (byteMask i n).getLsbD j = decide (i ≤ j ∧ j < i + n) := by
  rw [byteMask, BitVec.getLsbD_ofNat, Nat.mul_comm, Nat.testBit_two_pow_mul, Nat.testBit_two_pow_sub_one]
  by_cases hi : i ≤ j <;> by_cases hn : j < i + n <;> simp [hi, hn] <;> omega

/-- Byte j of a number placed at byte i of a row. -/
theorem placeAt_byte (i v : Nat) {j : Nat} (hi : i ≤ j) (hj : j < 128) :
    (placeAt i v).extractLsb' (8 * j) 8 = BitVec.ofNat 8 (v / 256 ^ (j - i)) := by
  have hdiv : v * 256 ^ i / 256 ^ j = v / 256 ^ (j - i) := by
    rw [show (256 : Nat) ^ j = 256 ^ i * 256 ^ (j - i) by rw [← Nat.pow_add]; congr 1; omega, ← Nat.div_div_eq_div_mul,
      Nat.mul_div_cancel _ (Nat.pow_pos (by omega))]
  rw [← hdiv, ← byte_of_mod _ hj]
  refine BitVec.eq_of_toNat_eq ?_
  rw [BitVec.extractLsb'_toNat, placeAt, BitVec.toNat_ofNat, BitVec.toNat_ofNat, Nat.shiftRight_eq_div_pow, two_pow_mul_eight,
    two_pow_mul_eight, rowBits_eq]

/-- A masked write of an element writes its bytes and no other byte of either space. -/
theorem stores_writeRowAt (s : State) (p : Spot) {i n : Nat} (v : Nat) (h : i + n ≤ 128) :
    Stores s (s.writeRowAt p (placeAt i v) (byteMask i n)) p.vault (p.addr / 128 * 128 + i) n v := by
  intro w a
  rw [s.readByte_writeRowAt, byteMask_bit h]
  by_cases hb : w = p.vault ∧ p.addr / 128 * 128 + i ≤ a ∧ a < p.addr / 128 * 128 + i + n
  · obtain ⟨hw, hlo, hhi⟩ := hb
    have hrow : a / 128 = p.addr / 128 := by omega
    have hin : i ≤ a % 128 ∧ a % 128 < i + n := by omega
    rw [if_pos ⟨hw, hrow, decide_eq_true hin⟩, if_pos ⟨hw, hlo, hhi⟩, placeAt_byte i v hin.1 (by omega)]
    congr 3
    omega
  · rw [if_neg hb, if_neg]
    rintro ⟨hw, hrow, hin⟩
    have := of_decide_eq_true hin
    exact hb ⟨hw, by omega, by omega⟩

/-- Only the low bytes of the number matter to what is stored. -/
theorem Stores.mod {s t : State} {v : Bool} {base n x : Nat} (h : Stores s t v base n (x % 256 ^ n)) :
    Stores s t v base n x := by
  intro w a
  rw [h w a]
  split
  · next hb => exact byte_of_mod x (by omega)
  · rfl

/-! ## Actors and rows that are read -/

/-- A step on behalf of the acting core, while it is served, is a step of the state as it is. -/
theorem State.actor_self {s : State} (h : Serves s) : s.actor s.cur = some s := by
  rw [State.actor, show s.servedCtx s.cur = some s.ctx from h]

/-- A read corrects a vault's code only (R240). -/
theorem State.correct_eq (s : State) (p : Spot) : ∃ f v, s.correct p = { s with flips := f, vaultFixed := v } := by
  unfold State.correct
  extract_lets row
  split <;> exact ⟨_, _, rfl⟩

theorem State.correct_core (s : State) (p : Spot) : (s.correct p).core = s.core := by
  obtain ⟨f, v, h⟩ := s.correct_eq p
  rw [h]
  rfl

end Sys2Proof.Machine

namespace Sys2Proof.Machine
open Sys2Proof.Claims

/-! ## Queued loads (R88, R91) -/

theorem Core.resid_or_none (c : Core) :
    ({ c with resid := c.resid ||| (if false = true then 1 else 0) ||| (if false = true then 2 else 0) } : Core) = c := by
  have h : c.resid ||| (if false = true then 1 else 0) ||| (if false = true then 2 else 0) = c.resid := by simp
  rw [h]

theorem Core.resid_or_absent (c : Core) :
    ({ c with resid := c.resid ||| (if true = true then 1 else 0) ||| (if false = true then 2 else 0) } : Core)
      = { c with resid := c.resid ||| 1 } := by
  have h : c.resid ||| (if true = true then 1 else 0) ||| (if false = true then 2 else 0) = c.resid ||| 1 := by simp
  rw [h]

/-- An access that has met no absent page leaves `RESID` (R88). -/
theorem CoreBecomes.upd_resid_none (s : State) (f : Core → Core) :
    CoreBecomes s ((s.upd f).setResid false false) (f s.core) := by
  have h := CoreBecomes.upd_upd s f (fun c =>
    { c with resid := c.resid ||| (if false = true then 1 else 0) ||| (if false = true then 2 else 0) })
  rwa [Core.resid_or_none] at h

/-- An access of an absent page sets ABS (R88). -/
theorem CoreBecomes.upd_resid_absent (s : State) (f : Core → Core) :
    CoreBecomes s ((s.upd f).setResid true false) { f s.core with resid := (f s.core).resid ||| 1 } := by
  have h := CoreBecomes.upd_upd s f (fun c =>
    { c with resid := c.resid ||| (if true = true then 1 else 0) ||| (if false = true then 2 else 0) })
  rwa [Core.resid_or_absent] at h

/-- The core whose oldest load has ended with a value for its register. -/
def Core.loaded (c : Core) (d : Reg) (v : Word) : Core := { c.wr d v with lq := c.lq.drop 1 }

theorem Core.loaded_eq {c : Core} {x : LsEntry} {rest : List LsEntry} (hl : c.lq = x :: rest) (d : Reg) (v : Word) :
    c.loaded d v = { c.wr d v with lq := rest } := by
  rw [Core.loaded, hl]
  rfl

/-- A load whose row lies in this package reads it, unless a watermark holds it back (R91, R173). -/
theorem State.performLoad_reads {s : State} {x : LsEntry} {rest : List LsEntry} {d : Reg} {wide : Bool} {el : Nat}
    (hl : s.core.lq = x :: rest) (hk : x.kind = .load d wide el)
    (hb : s.heldBack s.core (x.handle.loc (quadOf s.cur) x.off) = false)
    (hr : ∀ g, s.handleTarget s.ctx s.cur x.handle x.off ≠ .remote g) :
    s.performLoad = ((s.readTarget s.controlReader (x.handle.loc (quadOf s.cur) x.off)
        (s.handleTarget s.ctx s.cur x.handle x.off)).1).loadResult d wide el
      (s.readTarget s.controlReader (x.handle.loc (quadOf s.cur) x.off) (s.handleTarget s.ctx s.cur x.handle x.off)).2 := by
  unfold State.performLoad
  simp only [hl, hk, hb, Bool.false_eq_true, if_false]

theorem execLoadReturn_self {s : State} (h : Serves s) : exec (.loadReturn s.cur) s = .next s.performLoad := by
  show execLoadReturn s.cur s = _
  rw [execLoadReturn, State.actor_self h]

theorem execStorePerform_self {s : State} (h : Serves s) : exec (.storePerform s.cur) s = .next s.performStore := by
  show execStorePerform s.cur s = _
  rw [execStorePerform, State.actor_self h]

/-! ## Queued stores (R88, R91, R194) -/

/-- The core without the store at the head of its queue. -/
def Core.popStore (c : Core) : Core := { c with sq := c.sq.drop 1 }

theorem LsKind.bytes_store (v : Word) (wide : Bool) (el : Nat) : (LsKind.store v wide el).bytes =
    (placeAt ((if wide then 8 else 4) * el) (v.toNat % 2 ^ (8 * (if wide then 8 else 4))),
      byteMask ((if wide then 8 else 4) * el) (if wide then 8 else 4)) := rfl

section
variable {s : State} {x : LsEntry} {rest : List LsEntry} {v : Word} {wide : Bool} {el : Nat}
variable (hq : s.core.sq = x :: rest) (hk : x.kind = .store v wide el) (ha : x.handle.rearm = false)
  (hb : s.heldBack s.core (x.handle.loc (quadOf s.cur) x.off) = false)
include hq hk ha hb

/-- A store to a resident row that its handle may write. -/
theorem State.performStore_writes {p : Spot} (ht : s.handleTarget s.ctx s.cur x.handle x.off = .spot p)
    (he : s.earlierLoad x (.spot p) = false) (hw : x.handle.w = true) :
    s.performStore = (s.upd Core.popStore).writeRowAt p x.kind.bytes.1 x.kind.bytes.2 := by
  unfold State.performStore
  simp only [hq, hk, ha, hb, ht, he, hw, Bool.or_self, Bool.false_eq_true, if_false, if_true]
  rfl

/-- A store to an absent page is dropped (R88). -/
theorem State.performStore_drops (ht : s.handleTarget s.ctx s.cur x.handle x.off = .absent)
    (he : s.earlierLoad x .absent = false) : s.performStore = (s.upd Core.popStore).setResid true false := by
  unfold State.performStore
  simp only [hq, hk, ha, hb, ht, he, Bool.or_self, Bool.false_eq_true, if_false]
  rfl

end

/-! ## Tokens of fences (R92, R93) -/

/-- A token whose remote stores are acknowledged, since there are none. -/
theorem State.tokenAcked_of_none {s : State} (h : s.remoteOwed s.ctx s.cur = false) (i : Nat) : s.tokenAcked i = true := by
  rw [State.tokenAcked, h, Bool.not_false, Bool.or_true]

theorem State.performLoad_token {s : State} {x : LsEntry} {l : List LsEntry} {i : Nat} (hl : s.core.lq = x :: l)
    (hx : x.kind = .token i) : s.performLoad = s.popToken := by
  simp only [State.performLoad, hl, hx]

theorem State.performStore_token {s : State} {y : LsEntry} {q : List LsEntry} {i : Nat} (hs : s.core.sq = y :: q)
    (hy : y.kind = .token i) : s.performStore = s.popToken := by
  simp only [State.performStore, hs, hy]

/-- The token of a `seam` or `fence.sc` at both heads leaves both queues (R92, R93). -/
theorem State.popToken_both {s : State} {x y : LsEntry} {l q : List LsEntry} {i : Nat} (hl : s.core.lq = x :: l)
    (hs : s.core.sq = y :: q) (hx : x.kind = .token i) (hy : y.kind = .token i) (hf : i / 8 % 4 = 0)
    (hack : s.tokenAcked i = true) : s.popToken = s.upd (fun c => { c with lq := l, sq := q }) := by
  simp only [State.popToken, hl, hs, hx, hy, hf, hack, and_self, if_true]

/-- The token of an acquire or release at the head of the load queue leaves it (R93). -/
theorem State.popToken_load {s : State} {x : LsEntry} {l : List LsEntry} {i : Nat} (hl : s.core.lq = x :: l)
    (hx : x.kind = .token i) (hf : i / 8 % 4 ≠ 0) : s.popToken = s.upd (fun c => { c with lq := l }) := by
  cases hs : s.core.sq with
  | nil => simp only [State.popToken, hl, hs, hx, hf, if_false]
  | cons y q => cases hy : y.kind <;> simp only [State.popToken, hl, hs, hx, hy, hf, if_false]

/-- The token of an acquire or release at the head of the store queue leaves it, once no token is in the load queue (R93). -/
theorem State.popToken_store {s : State} {y : LsEntry} {q : List LsEntry} {i : Nat} (hs : s.core.sq = y :: q)
    (hy : y.kind = .token i) (hf : i / 8 % 4 ≠ 0) (hack : s.tokenAcked i = true)
    (hl : ∀ z ∈ s.core.lq, ∀ j, z.kind ≠ .token j) : s.popToken = s.upd (fun c => { c with sq := q }) := by
  have hall : s.core.lq.all (fun z => z.kind != .token i) = true :=
    List.all_eq_true.mpr fun z hz => bne_iff_ne.mpr (hl z hz i)
  have hpop : s.popStoreToken i = s.upd (fun c => { c with sq := q }) := by
    rw [State.popStoreToken, if_pos ⟨hf, hack, hall⟩, State.upd, hs]
    rfl
  rw [← hpop]
  cases hq : s.core.lq with
  | nil => simp only [State.popToken, hq, hs, hy]
  | cons z r =>
    have hz := hl z (hq ▸ List.mem_cons_self)
    cases hk : z.kind with
    | token j => exact absurd hk (hz j)
    | load | store | row => simp only [State.popToken, hq, hs, hk, hy]

end Sys2Proof.Machine

namespace Sys2Proof.Claims
open Sys2Proof.Machine

theorem loadValue_eq (row : Row) (wide : Bool) (el : Nat) : loadValue row wide el =
    if wide then BitVec.ofNat 64 (rowElement row (if wide then 8 else 4) el)
    else (BitVec.ofNat 32 (rowElement row (if wide then 8 else 4) el)).signExtend 64 := by
  cases wide <;> simp only [loadValue, Bool.false_eq_true, if_false, if_true]

theorem element_fits {wide : Bool} {el : Nat} (h : el < 128 / (if wide then 8 else 4)) :
    (if wide then 8 else 4) * (el + 1) ≤ 128 := by
  cases wide
  · simp only [Bool.false_eq_true, if_false] at h ⊢
    omega
  · simp only [if_true] at h ⊢
    omega

theorem loadReturns : LoadReturns := by
  intro s d wide el x rest loc n hserve hl hk hel hb
  rw [execLoadReturn_self hserve]
  have hread := fun hr => State.performLoad_reads hl hk hb hr
  refine ⟨fun p ht hp => ?_, fun ht => ?_, fun ht => ?_⟩
  · rw [ht] at hread
    have hval : s.performLoad = (s.correct p).finishLoad d (loadValue (s.rowAt p) wide el) false false := by
      rw [hread nofun, State.readTarget, hp, if_neg Bool.false_ne_true]
      rfl
    have hcore := CoreBecomes.upd_resid_none (s.correct p) (fun c => c.loaded d (loadValue (s.rowAt p) wide el))
    rw [s.correct_core, Core.loaded_eq hl] at hcore
    refine ⟨_, _, rowElement (s.rowAt p) n el, congrArg _ hval, hcore, holds_rowElement s hp (element_fits hel), ?_⟩
    exact loadValue_eq _ wide el
  · rw [ht] at hread
    have hcore := CoreBecomes.upd_resid_absent s (fun c => c.loaded d 0)
    rw [Core.loaded_eq hl, show ({ s.core.wr d 0 with lq := rest } : Core).resid = s.core.resid from s.core.wr_resid d 0] at hcore
    exact ⟨_, congrArg _ (hread nofun), hcore⟩
  · rw [ht] at hread
    have hcore := CoreBecomes.upd_resid_none s (fun c => c.loaded d 0)
    rw [Core.loaded_eq hl] at hcore
    exact ⟨_, congrArg _ (hread nofun), hcore⟩

theorem storesPerform : StoresPerform := by
  intro s data wide el x rest loc n tg hserve hq hk hel ha hb he
  rw [execStorePerform_self hserve]
  have hpop : s.core.popStore = { s.core with sq := rest } := by rw [Core.popStore, hq]; rfl
  refine ⟨fun p ht hw => ?_, fun ht => ?_⟩
  · have hperf := State.performStore_writes hq hk ha hb ht (ht ▸ he) hw
    rw [hk, LsKind.bytes_store, two_pow_mul_eight] at hperf
    have hstores := stores_writeRowAt (s.upd Core.popStore) p (data.toNat % 256 ^ n) (i := n * el) (n := n)
      (by have := element_fits hel; rwa [Nat.mul_succ] at this)
    obtain ⟨m, mp, w, wp, hframe⟩ := (s.upd Core.popStore).writeRowAt_frame p
      (placeAt (n * el) (data.toNat % 256 ^ n)) (byteMask (n * el) n)
    refine ⟨_, congrArg _ hperf, ?_, Stores.mod hstores, ?_⟩ <;> rw [hframe]
    · exact (State.core_upd s _).trans hpop
    · rfl
  · have hperf := State.performStore_drops hq hk ha hb ht (ht ▸ he)
    have hcore := CoreBecomes.upd_resid_absent s Core.popStore
    rw [hpop] at hcore
    exact ⟨_, congrArg _ hperf, hcore⟩

theorem tokensLeaveTogether : TokensLeaveTogether := by
  intro s x y l q id hserve hr
  have hack := State.tokenAcked_of_none hr id
  refine ⟨fun hl hs hx hy hf => ?_, fun hl hx hf => ?_, fun hs hy hf hnone => ?_⟩
  · have hpop := State.popToken_both hl hs hx hy hf hack
    simp only [List.forall_mem_cons, execLoadReturn_self hserve, execStorePerform_self hserve,
      State.performLoad_token hl hx, State.performStore_token hs hy, hpop]
    exact ⟨⟨_, rfl, .upd s _⟩, ⟨_, rfl, .upd s _⟩, List.forall_mem_nil _⟩
  · rw [execLoadReturn_self hserve, State.performLoad_token hl hx, State.popToken_load hl hx hf]
    exact ⟨_, rfl, .upd s _⟩
  · rw [execStorePerform_self hserve, State.performStore_token hs hy, State.popToken_store hs hy hf hack hnone]
    exact ⟨_, rfl, .upd s _⟩

/-- Settles O11: the row that a load reads, the bytes that a store writes, and where a token leaves. -/
theorem accessesPerform : Obligations.AccessesPerform := ⟨loadReturns, storesPerform, tokensLeaveTogether⟩

end Sys2Proof.Claims

namespace Sys2Proof.Machine
open Sys2Proof.Claims

/-! ## Streams (R94) -/

/-- An `srd` on a stream of its element size takes the oldest element. -/
theorem State.streamRead_takes (s : State) (i : Instr) (d : Reg) (k : Nat) {esz : BitVec 2} (f : Row → Word) {e : Row}
    {rest : List Row} (hm : (s.core.channel k).mode = .stream) (hf : (s.core.channel k).fifo = e :: rest)
    (he : (s.core.channel k).esz = esz) :
    ∃ t, s.streamRead i d k esz f = .next t
      ∧ CoreBecomes s t (regSet (s.core.setChannel k { s.core.channel k with fifo := rest }) d (f e) 4) := by
  have hfit : ¬((s.core.channel k).mode ≠ .stream ∨ (s.core.channel k).esz ≠ esz) := fun h =>
    h.elim (fun n => n hm) (fun n => n he)
  refine ⟨_, ?_, .upd s (fun c => ((c.setChannel k { s.core.channel k with fifo := rest }).wr d (f e)).advancePc 4)⟩
  rw [State.streamRead, if_neg hfit, hf]

theorem State.savl_writes (s : State) (d : Reg) (k : BitVec 3) : exec (.savl d k) s = s.writeReg d
    (if (s.core.channel k.toNat).mode = .stream then BitVec.ofNat 64 (s.core.channel k.toNat).fifo.length else 0) 4 := rfl

end Sys2Proof.Machine

namespace Sys2Proof.Claims
open Sys2Proof.Machine

/-- Settles O12: `State.streamRead_takes`, and the length of a stream. -/
theorem streamReads : Obligations.StreamReads := by
  intro s d k e rest ch
  refine ⟨fun hm hf => ⟨fun he => ?_, fun he => ?_⟩, fun hm => ?_, fun hm => ?_⟩
  · exact s.streamRead_takes _ d k.toNat _ hm hf he
  · exact s.streamRead_takes _ d k.toNat _ hm hf he
  · rw [s.savl_writes d k, if_pos hm]
    exact s.writeReg_writes d _ 4
  · rw [s.savl_writes d k, if_neg hm]
    exact s.writeReg_writes d _ 4

end Sys2Proof.Claims

namespace Sys2Proof.Machine
open Sys2Proof.Claims

/-! ## Handles (R95 to R98) -/

/-- A new handle takes the next tag. -/
theorem Core.setHandle_stamped (c : Core) (k : Nat) (x : Handle) :
    (c.setHandle k x).stamped = { c with stamp := c.stamp + 1 }.setHandle k x := by
  unfold Core.setHandle
  split <;> rfl

theorem CoreBecomes.newHandle (s : State) (k : Nat) (x : Handle) :
    CoreBecomes s (s.upd (fun c => (c.setHandle k x).stamped.advancePc 4))
      (movedOn ({ s.core with stamp := s.core.stamp + 1 }.setHandle k x) 4) := by
  rw [← Core.setHandle_stamped]
  exact .upd s _

/-- `trn` of a page whose translation the cache holds (R96). -/
theorem State.translateInto_cached (s : State) (i : Instr) {h : HReg} (a : Reg) {rw : Bool} {p : Nat} {c : Tlb}
    (hh : h ≠ 0) (hp : s.whereIs (s.core.rd a).toNat = .here p)
    (hc : s.cached (if 256 ≤ s.cur then 8 else dieOf s.cur) s.ctx (p / 65536) rw = some c) :
    ∃ t, s.translateInto i h a rw = .next t ∧ CoreBecomes s t
      (movedOn ({ s.core with stamp := s.core.stamp + 1 }.setHandle h.toNat
        { valid := true, base := s.core.rd a &&& ~~~0xFFFF#64, rd := true, w := rw && c.w, rw := rw, st := .resident,
          frame := c.frame, tag := s.core.stamp, readyAt := s.now + 32 }) 4) := by
  refine ⟨_, ?_, CoreBecomes.newHandle s h.toNat _⟩
  simp only [State.translateInto, if_neg hh, hp, hc]
  rfl

/-- `vbind` of segments that the context holds (R97). -/
theorem State.vbind_held (s : State) {h : HReg} (a : Reg) (hh : h ≠ 0) (hlt : (s.core.rd a).toNat < 2 ^ 25)
    (hrow : (s.core.rd a).toNat % 2 ^ 25 % 128 ≤ 64) (hn : desCount ((s.core.rd a).toNat % 2 ^ 25) ≠ 0)
    (hheld : s.holdsSegs s.ctx (desQuad (quadOf s.cur) ((s.core.rd a).toNat % 2 ^ 25))
      (desFirst ((s.core.rd a).toNat % 2 ^ 25)) (desCount ((s.core.rd a).toNat % 2 ^ 25)) = true) :
    ∃ t, execVbind h a s = .next t ∧ CoreBecomes s t
      (movedOn ({ s.core with stamp := s.core.stamp + 1 }.setHandle h.toNat
        { valid := true, vault := true, base := BitVec.ofNat 64 ((s.core.rd a).toNat % 2 ^ 25 * 65536), rd := true, w := true,
          tag := s.core.stamp, readyAt := s.now + 4 }) 4) := by
  have hok : ¬(2 ^ 25 ≤ (s.core.rd a).toNat ∨ 64 < (s.core.rd a).toNat % 2 ^ 25 % 128
      ∨ desCount ((s.core.rd a).toNat % 2 ^ 25) = 0
      ∨ s.holdsSegs s.ctx (desQuad (quadOf s.cur) ((s.core.rd a).toNat % 2 ^ 25))
          (desFirst ((s.core.rd a).toNat % 2 ^ 25)) (desCount ((s.core.rd a).toNat % 2 ^ 25)) = false) := by
    simp only [not_or, not_le, not_lt, hheld, Bool.true_eq_false, not_false_eq_true, and_true]
    exact ⟨hlt, hrow, hn⟩
  exact ⟨_, (if_neg hh).trans (if_neg hok), CoreBecomes.newHandle s h.toNat _⟩

/-- The low half word of `hqry` (R95). -/
def Handle.imageFlags (h : Handle) : Nat :=
  (if h.rev then 128 else 0) + (if h.w then 64 else 0) + (if h.rd then 32 else 0) + (if h.vault then 16 else 0) + 8 + h.stateCode

theorem Handle.stateCode_lt (h : Handle) : h.stateCode < 4 := by
  unfold Handle.stateCode
  split
  · omega
  · split <;> omega

theorem Handle.imageFlags_bits (h : Handle) : h.imageFlags < 2 ^ 16 ∧ h.imageFlags.testBit 3 = true
    ∧ h.imageFlags.testBit 4 = h.vault ∧ h.imageFlags.testBit 6 = h.w := by
  have key : ∀ (rev w rd vault : Bool) (code : Nat), code < 4 →
      let f := (if rev then 128 else 0) + (if w then 64 else 0) + (if rd then 32 else 0) + (if vault then 16 else 0) + 8 + code
      f < 2 ^ 16 ∧ f.testBit 3 = true ∧ f.testBit 4 = vault ∧ f.testBit 6 = w := by decide
  exact key h.rev h.w h.rd h.vault h.stateCode h.stateCode_lt

theorem Handle.image_valid {h : Handle} (hv : h.valid = true) :
    h.image = (h.base &&& ~~~0xFFFF#64) ||| BitVec.ofNat 64 h.imageFlags := if_pos hv

/-- The flags of the image. -/
theorem Handle.image_low {h : Handle} (hv : h.valid = true) {i : Nat} (hi : i < 16) :
    h.image.getLsbD i = h.imageFlags.testBit i := by
  have hmask : (0xFFFF#64).getLsbD i = true := by
    show (BitVec.ofNat 64 (2 ^ 16 - 1)).getLsbD i = true
    rw [BitVec.getLsbD_ofNat, Nat.testBit_two_pow_sub_one]
    simp only [hi, show i < 64 by omega, decide_true, Bool.and_self]
  rw [h.image_valid hv, BitVec.getLsbD_or, BitVec.getLsbD_and, BitVec.getLsbD_not, hmask, BitVec.getLsbD_ofNat]
  simp only [show i < 64 by omega, decide_true, Bool.not_true, Bool.and_false, Bool.false_or, Bool.true_and]

/-- The page number of the image. -/
theorem Handle.image_high {h : Handle} (hv : h.valid = true) : h.image.extractLsb' 16 48 = h.base.extractLsb' 16 48 := by
  obtain ⟨hlt, -⟩ := h.imageFlags_bits
  refine BitVec.eq_of_getLsbD_eq fun i hi => ?_
  have hflags : h.imageFlags.testBit (16 + i) = false :=
    Nat.testBit_lt_two_pow (hlt.trans_le (Nat.pow_le_pow_right (by omega) (by omega)))
  have hmask : (0xFFFF#64).getLsbD (16 + i) = false := by
    show (BitVec.ofNat 64 (2 ^ 16 - 1)).getLsbD (16 + i) = false
    rw [BitVec.getLsbD_ofNat, Nat.testBit_two_pow_sub_one]
    simp only [show ¬16 + i < 16 by omega, decide_false, Bool.and_false]
  rw [h.image_valid hv, BitVec.getLsbD_extractLsb', BitVec.getLsbD_extractLsb', BitVec.getLsbD_or, BitVec.getLsbD_and,
    BitVec.getLsbD_not, hmask, BitVec.getLsbD_ofNat, hflags]
  simp only [show 16 + i < 64 by omega, decide_true, Bool.not_false, Bool.and_true, Bool.and_false, Bool.or_false]

end Sys2Proof.Machine

namespace Sys2Proof.Claims
open Sys2Proof.Machine

/-- Settles O13: `trn` and `vbind` by the lemmas above, `hqry` by the bits of the handle's image. -/
theorem handleInstructions : Obligations.HandleInstructions := by
  intro s d a h g va des
  refine ⟨fun hh p rw c hp hc => ?_, fun hh hlt hrow hn hheld => ?_, ?_, ?_, fun hh => ?_⟩
  · cases rw
    · exact s.translateInto_cached (.trnR h a) a hh hp hc
    · exact s.translateInto_cached (.trnRw h a) a hh hp hc
  · exact s.vbind_held a hh hlt hrow hn hheld
  · obtain ⟨t, ht, hwr⟩ := s.writeReg_writes d (s.core.handle h.toNat).image 4
    obtain ⟨-, h3, h4, h6⟩ := (s.core.handle h.toNat).imageFlags_bits
    refine ⟨t, _, ht, hwr, fun hv => if_neg (by rw [hv]; exact Bool.false_ne_true), fun hv => ?_⟩
    rw [Handle.image_low hv (by omega), Handle.image_low hv (by omega), Handle.image_low hv (by omega)]
    exact ⟨h3, h4, h6, Handle.image_high hv⟩
  · exact ⟨_, rfl, .upd s (fun c => movedOn (c.setHandle h.toNat {}) 4)⟩
  · exact ⟨_, if_neg hh, .upd s (fun c => movedOn (c.setHandle h.toNat (c.handle g.toNat)) 4)⟩

end Sys2Proof.Claims

namespace Sys2Proof.Machine
open Sys2Proof.Claims

/-! ## The walk of a pending handle (R96, R98) -/

theorem State.logMalformed_sameCores (s : State) (ctx lcore : Nat) (bad : Option (Nat × Nat × Nat)) :
    s.SameCores (s.logMalformed ctx lcore bad) := by
  cases bad with
  | none => exact .refl s
  | some b => exact s.logRecord_sameCores ctx _ _ _ _ _ _ _ _

/-- What HANDLE_RESOLVE does to a handle of the core: every copy of the walked one takes its translation. -/
def Handle.resolvedWith (x : Handle) (t : Xlat) (y : Handle) : Handle :=
  if y.awaits && y.tag == x.tag then y.resolved t else y

/-- A pending page handle is walked; its copies resolve with it. -/
theorem execHandleResolve_walks {s s1 : State} {h : HReg} {p : Nat} {x : Xlat} (hs : Serves s) (hh : h ≠ 0)
    (hw : (s.core.handle h.toNat).awaits = true) (hp : s.whereIs (s.core.handle h.toNat).base.toNat = .here p)
    (ht : s.translate (if 256 ≤ s.cur then 8 else dieOf s.cur) s.ctx p (s.core.handle h.toNat).rw = (s1, x)) :
    execHandleResolve s.cur h s = .next ((s1.logMalformed s.ctx s.cur x.bad).upd
      (fun c => c.mapHandles ((s.core.handle h.toNat).resolvedWith x))) := by
  have hwait : s.core.awaiting h = some (s.core.handle h.toNat) := by rw [Core.awaiting, if_neg hh, if_pos hw]
  simp only [execHandleResolve, State.actor_self hs, hwait, hp, ht]
  rfl

end Sys2Proof.Machine

namespace Sys2Proof.Claims
open Sys2Proof.Machine

/-- Settles O14: the walk changes no core, and the walked handle resolves with its copies. -/
theorem handlesResolve : Obligations.HandlesResolve := by
  intro s s1 h p x y hs hh hv hva hst hp ht
  have hwait : y.awaits = true := by rw [Handle.awaits, hv, hva, hst]; rfl
  have hsame : s.SameCores (s1.logMalformed s.ctx s.cur x.bad) := by
    have h1 := s.translate_sameCores (if 256 ≤ s.cur then 8 else dieOf s.cur) s.ctx p y.rw
    rw [ht] at h1
    exact h1.trans (s1.logMalformed_sameCores s.ctx s.cur x.bad)
  have hself : y.resolvedWith x y = y.resolved x := if_pos (by rw [hwait, beq_self_eq_true, Bool.and_self])
  refine ⟨_, execHandleResolve_walks hs hh hwait hp ht, ?_⟩
  rw [State.core_upd, hsame.core]
  exact ⟨(s.core.handle_mapHandles _ rfl _ (hreg_toNat_ne_zero hh)).trans hself, rfl, fun r => rfl⟩

end Sys2Proof.Claims

namespace Sys2Proof.Machine
open Sys2Proof.Claims

/-! ## Words of a tensor entry (R63, R108) -/

/-- A run of `n` ones from bit `i`. -/
theorem testBit_ones (i n j : Nat) : ((2 ^ n - 1) * 2 ^ i).testBit j = decide (i ≤ j ∧ j < i + n) := by
  rw [Nat.mul_comm, Nat.testBit_two_pow_mul, Nat.testBit_two_pow_sub_one]
  by_cases hi : i ≤ j <;> by_cases hn : j < i + n <;> simp [hi, hn] <;> omega

/-- A number of `n` bits placed at bit `i`. -/
theorem testBit_placed {n : Nat} (v : BitVec n) (i j : Nat) :
    (v.toNat * 2 ^ i).testBit j = (decide (i ≤ j) && v.getLsbD (j - i)) := by
  rw [Nat.mul_comm, Nat.testBit_two_pow_mul, BitVec.testBit_toNat]

/-- `tdwr` replaces one word; word 6, which holds CONV, keeps its value (R108). -/
theorem setWord_word (x : BitVec 512) (k : Nat) (v : Word) {j : Nat} (hj : j < 8) :
    (setWord x k v).extractLsb' (64 * j) 64 = if j = k ∧ j ≠ 6 then v else x.extractLsb' (64 * j) 64 := by
  rw [setWord]
  by_cases h6 : k = 6
  · rw [if_pos h6, if_neg (by omega)]
  · rw [if_neg h6]
    refine BitVec.eq_of_getLsbD_eq fun i hi => ?_
    rw [BitVec.getLsbD_extractLsb', BitVec.getLsbD_or, BitVec.getLsbD_and, BitVec.getLsbD_not, BitVec.getLsbD_ofNat,
      BitVec.getLsbD_ofNat, testBit_ones, testBit_placed]
    by_cases hjk : j = k
    · subst hjk
      have hin : 64 * j ≤ 64 * j + i ∧ 64 * j + i < 64 * j + 64 := by omega
      simp [hin, hi, h6, show 64 * j + i < 512 by omega]
    · have hout : ¬(64 * k ≤ 64 * j + i ∧ 64 * j + i < 64 * k + 64) := by omega
      rw [if_neg (fun h => hjk h.1), BitVec.getLsbD_extractLsb']
      by_cases hk : 64 * k ≤ 64 * j + i
      · have hbeyond : v.getLsbD (64 * j + i - 64 * k) = false := BitVec.getLsbD_of_ge v _ (by omega)
        simp [hout, hi, hbeyond, show 64 * j + i < 512 by omega]
      · simp [hi, hk, show 64 * j + i < 512 by omega]

/-- A valid descriptor outside the directory enters the table (R63, R108). -/
theorem State.putTensor_local (s : State) (n : Nat) {x : BitVec 512} (bytes : Nat) (hok : descriptorOk x = true)
    (hdir : (tensorOf x).dir = false) :
    s.putTensor n x bytes = .next (s.upd (fun c => Core.advancePc { c with t := SMap.set 0 c.t n x } bytes)) := by
  simp only [State.putTensor, State.register, hok, hdir, Bool.not_true, Bool.not_false, Bool.false_eq_true, if_false, if_true]

/-- A descriptor that fails its checks traps with its index (R63, R114). -/
theorem State.putTensor_rejects (s : State) (n : Nat) {x : BitVec 512} (bytes : Nat) (hbad : descriptorOk x = false) :
    s.putTensor n x bytes = s.trap cTensorDesc (BitVec.ofNat 64 n) := by
  rw [State.putTensor, hbad]
  rfl

end Sys2Proof.Machine

namespace Sys2Proof.Claims
open Sys2Proof.Machine

/-- Settles O15: registers by `State.writeReg_writes`, entries by `State.putTensor` and the words of `setWord`. -/
theorem taskAndTableWords : Obligations.TaskAndTableWords := by
  intro s d a x k tk entry new
  refine ⟨fun htask => ⟨?_, ?_⟩, ?_, fun hok hdir => ?_, fun hi hh hbad => ?_, fun hi hh => ?_⟩
  · have hexec : ∀ n : BitVec 2, exec (.tcrd d n) s = execTcrd d n s := fun _ => rfl
    simp only [List.forall_mem_cons, hexec, execTcrd, htask, Option.getD_some]
    exact ⟨s.writeReg_writes d _ 4, s.writeReg_writes d _ 4, s.writeReg_writes d _ 4, List.forall_mem_nil _⟩
  · have hexec : exec (.cvq d) s = s.writeReg d (if tk.shadow then 1 else 0) 4 := by
      show execCvq d s = _
      rw [execCvq, htask]
    rw [hexec]
    exact s.writeReg_writes d _ 4
  · exact s.writeReg_writes d _ 4
  · refine ⟨_, s.putTensor_local x.toNat 4 hok hdir, .upd s _, ?_, fun j => ?_, fun j hj => setWord_word entry k.toNat _ hj⟩ <;>
      rw [State.core_upd]
    · rfl
    · show SMap.get 0 (SMap.set 0 s.core.t x.toNat new) j.toNat = _
      rw [SMap.get_set]
      simp only [BitVec.toNat_inj]
  · exact ⟨_, s.putTensor_rejects x.toNat 4 hbad, s.takeTrap_handled _ _ hi hh (by decide)⟩
  · exact s.illegal_takesTrap (.tcrd d 3) hi hh

end Sys2Proof.Claims

namespace Sys2Proof.Machine
open Sys2Proof.Claims

/-! ## Transfers between rows and tables (R108) -/

theorem ofNat_rowElement (r : Row) (n el : Nat) :
    BitVec.ofNat (8 * n) (rowElement r n el) = r.extractLsb' (8 * n * el) (8 * n) := by
  refine BitVec.eq_of_toNat_eq ?_
  rw [BitVec.toNat_ofNat, rowElement, Nat.mod_mod, BitVec.extractLsb'_toNat, Nat.shiftRight_eq_div_pow]

/-- An element placed in a row is read back. -/
theorem extract_placeAt {n el : Nat} (x : BitVec (8 * n)) (h : n * (el + 1) ≤ 128) :
    (placeAt (el * n) x.toNat).extractLsb' (8 * n * el) (8 * n) = x := by
  refine BitVec.eq_of_getLsbD_eq fun i hi => ?_
  have hat : 8 * (el * n) = 8 * n * el := by ring
  have hlt : 8 * n * el + i < 1024 := by
    have : 8 * (n * (el + 1)) = 8 * n * el + 8 * n := by ring
    omega
  rw [BitVec.getLsbD_extractLsb', placeAt, BitVec.getLsbD_ofNat, testBit_placed, hat, Nat.add_sub_cancel_left]
  simp [hi, hlt]

/-- The bytes of an element of a row. -/
theorem byteMask_element {n el : Nat} (hn : 0 < n) (h : n * (el + 1) ≤ 128) (j : Nat) :
    (byteMask (el * n) n).getLsbD j = (decide (j < 128) && decide (j / n = el)) := by
  have hsplit : n * (el + 1) = el * n + n := by ring
  have hdiv : j / n = el ↔ el * n ≤ j ∧ j ≤ el * n + n - 1 := Nat.div_eq_iff hn
  rw [byteMask_bit (by omega), ← Bool.decide_and]
  exact decide_eq_decide.mpr (by rw [hdiv]; omega)

/-- A table load with its row: nothing is outstanding and no watermark holds it back (R108). -/
theorem State.tableRow_reads {s s1 : State} {h : HReg} {a : Reg} {row : Row} (hh : h ≠ 0)
    (hv : (s.core.handle h.toNat).valid = true) (ho : (s.core.rd a).toNat < (s.core.handle h.toNat).limit)
    (hr : (s.core.handle h.toNat).readyAt ≤ s.now) (hq : s.core.lq = [])
    (hb : s.heldBack s.core ((s.core.handle h.toNat).loc (quadOf s.cur) (s.core.rd a).toNat) = false)
    (hrow : s.readTarget s.controlReader ((s.core.handle h.toNat).loc (quadOf s.cur) (s.core.rd a).toNat)
      (s.handleTarget s.ctx s.cur (s.core.handle h.toNat) (s.core.rd a).toNat) = (s1, .ok row)) :
    s.tableRow h a = .row s1 (.ok row) := by
  have hgo : (!s.handleReady (s.core.handle h.toNat) || !s.core.lq.isEmpty) = false := by
    simp [State.handleReady, hr, hq]
  simp only [State.tableRow, s.core.effAddr_ok hh hv ho, hgo, hb, hrow, Bool.false_eq_true, if_false]
  rfl

/-- A walk record of a known kind enters its table (R64, R108). -/
theorem execWkld_enters {s s1 : State} {a : Reg} {w : BitVec 5} {h : HReg} {row : Row} {walk : BitVec 256}
    (hrow : s.tableRow h a = .row s1 (.ok row))
    (hw : BitVec.ofNat 256 (rowElement row 32 ((s.core.rd a).toNat % 128 / 32)) = walk) (hk : walk.toNat / 2 ^ 252 < 3) :
    execWkld a w h s = .next (s1.upd (fun c => Core.advancePc { c with w := SMap.set 0 c.w w.toNat walk } 4)) := by
  have hkind : ¬3 ≤ bits walk.toNat 255 252 :=
    Nat.not_le.mpr (Nat.lt_of_le_of_lt (Nat.mod_le _ _) hk)
  simp only [execWkld, hrow, RowRead.row, hw, if_neg hkind]
  rfl

end Sys2Proof.Machine

namespace Sys2Proof.Claims
open Sys2Proof.Machine

/-- Settles O16: the row of a table load by `State.tableRow_reads`, a table store by `State.store_enters`. -/
theorem tableTransfers : Obligations.TableTransfers := by
  intro s s1 a x w h row hd off loc image walk hh hv ho hr
  refine ⟨fun hq hb hread => ?_, fun hw hroom => ⟨?_, ?_⟩⟩
  · have hrow := State.tableRow_reads hh hv ho hr hq hb hread
    refine ⟨fun hok hdir => ?_, fun hk => ?_⟩
    · have himage : BitVec.ofNat 512 (rowElement row 64 (off.toNat % 128 / 64)) = image := ofNat_rowElement row 64 _
      have hexec : exec (.tdld a x h) s = s1.putTensor x.toNat image 4 := by
        show execTdld a x h s = _
        rw [← himage, execTdld, hrow]
        rfl
      exact ⟨_, hexec.trans (s1.putTensor_local x.toNat 4 hok hdir), .upd s1 _⟩
    · exact ⟨_, execWkld_enters hrow (ofNat_rowElement row 32 _) hk, .upd s1 _⟩
  · obtain ⟨t, ht, hcore⟩ := s.store_enters (.tdst a x h) (.row (placeAt (off.toNat % 128 / 64 * 64)
      (SMap.get 0 s.core.t x.toNat).toNat) (byteMask (off.toNat % 128 / 64 * 64) 64)) hh hv ho hw hr hroom
    exact ⟨t, _, _, ht, hcore, byteMask_element (by omega) (by omega),
      extract_placeAt (n := 64) (SMap.get 0 s.core.t x.toNat) (by omega)⟩
  · obtain ⟨t, ht, hcore⟩ := s.store_enters (.wkst a w h) (.row (placeAt (off.toNat % 128 / 32 * 32)
      (s.core.walk w.toNat).toNat) (byteMask (off.toNat % 128 / 32 * 32) 32)) hh hv ho hw hr hroom
    exact ⟨t, _, _, ht, hcore, byteMask_element (by omega) (by omega),
      extract_placeAt (n := 32) (s.core.walk w.toNat) (by omega)⟩

end Sys2Proof.Claims

namespace Sys2Proof.Machine
open Sys2Proof.Claims

/-! ## `guard` (R111, R303) -/

theorem State.noteGuard_eq (s : State) (tix index : Nat) (wide : Bool) (v : Word) :
    ∃ g, s.noteGuard tix index wide v = { s with graphs := g } := by
  unfold State.noteGuard
  split
  · exact ⟨s.graphs, rfl⟩
  · split
    · exact ⟨_, rfl⟩
    · exact ⟨s.graphs, rfl⟩

section
variable {s s1 : State} {a : Reg} {x : Ix6} {wide : Bool} {ps : List Bits} {fin : List Loc} {l : Loc} {row : Row}
variable (hv : (tensorOf (s.core.cap x.toNat).img).valid = true)
  (hf : guardFormat (tensorOf (s.core.cap x.toNat).img).fmt wide = true)
  (h7 : (s.view s.ctx (s.core.cap x.toNat)).tag ≠ 7) (h8 : (s.view s.ctx (s.core.cap x.toNat)).tag ≠ 8)
  (hq : (s.core.rd a).toNat < (tensorOf (s.core.cap x.toNat).img).count)
  (hl : s.locate s.ctx (quadOf s.cur) (s.core.cap x.toNat) (s.core.rd a).toNat false = .at_ ps fin)
  (hrows : rowsOf ps = [l]) (hlq : s.core.lq = []) (hb : ∀ p ∈ ps, s.heldBack s.core p.loc = false)
  (hrow : s.readLoc s.controlReader l = (s1, .ok row))
include hv hf h7 h8 hq hl hrows hlq hb hrow

/-- A `guard` of an element that lies in one readable row. -/
theorem State.guard_reads (d : Reg) : s.guard d a x wide = (s1.noteGuard x.toNat (s.core.rd a).toNat wide
    (BitVec.ofNat 64 (gatherBits [(l, row)] ps))).writeReg d (BitVec.ofNat 64 (gatherBits [(l, row)] ps)) 4 := by
  have hgo : (!(tensorOf (s.core.cap x.toNat).img).valid || !guardFormat (tensorOf (s.core.cap x.toNat).img).fmt wide
      || (s.view s.ctx (s.core.cap x.toNat)).tag == 7 || (s.view s.ctx (s.core.cap x.toNat)).tag == 8) = false := by
    simp [hv, hf, h7, h8]
  have hfree : ps.any (fun p => s.heldBack s.core p.loc) = false :=
    List.any_eq_false.mpr fun p hp => by rw [hb p hp]; exact Bool.false_ne_true
  simp only [State.guard, hgo, if_neg (Nat.not_le.mpr hq), hl, hlq, List.isEmpty_nil, Bool.not_true, hfree, hrows,
    List.headD_cons, List.drop_succ_cons, List.drop_zero, hrow, State.settleRow, State.readRows, Bool.false_eq_true, if_false]
  rfl

end

end Sys2Proof.Machine

namespace Sys2Proof.Claims
open Sys2Proof.Machine

/-- Settles O17: `State.guard_reads`; the recorder's note is no byte and no core. -/
theorem guardReads : Obligations.GuardReads := by
  intro s s1 d a x wide ps l row fin q cap tn tag hv hf h7 h8 hq hl hrows hlq hb hrow
  have hexec : exec (if wide then .guardD d a x else .guardW d a x) s = s.guard d a x wide := by cases wide <;> rfl
  rw [hexec, State.guard_reads hv hf h7 h8 hq hl hrows hlq hb hrow]
  obtain ⟨g, hg⟩ := s1.noteGuard_eq x.toNat q wide (BitVec.ofNat 64 (gatherBits [(l, row)] ps))
  rw [hg]
  exact ⟨_, rfl, State.core_upd { s1 with graphs := g } _, .of_eq rfl rfl rfl⟩

end Sys2Proof.Claims

namespace Sys2Proof.Machine
open Sys2Proof.Claims

/-! ## The rigging (R103, R126) -/

theorem productOk_lt {v : Word} {target : Nat} (h : productOk v target = true) : v.toNat < 2 ^ 25 := by
  simp only [productOk, Bool.and_eq_true, decide_eq_true_eq] at h
  exact h.1.1

/-- The two products of a term that `rigw` sets. -/
theorem rigProduct_append {a b : Word} (ha : a.toNat < 2 ^ 25) (hb : b.toNat < 2 ^ 25) :
    rigProduct (b.extractLsb' 0 25 ++ a.extractLsb' 0 25) 0 = a.toNat
      ∧ rigProduct (b.extractLsb' 0 25 ++ a.extractLsb' 0 25) 1 = b.toNat := by
  have hlow : ∀ {v : Word}, v.toNat < 2 ^ 25 → (v.extractLsb' 0 25).toNat = v.toNat := fun h => by
    rw [BitVec.extractLsb'_toNat, Nat.shiftRight_zero, Nat.mod_eq_of_lt h]
  have hsum : (b.extractLsb' 0 25 ++ a.extractLsb' 0 25).toNat = b.toNat * 2 ^ 25 + a.toNat := by
    rw [BitVec.toNat_append, hlow ha, hlow hb, ← Nat.shiftLeft_add_eq_or_of_lt ha, Nat.shiftLeft_eq]
  rw [rigProduct, rigProduct, hsum]
  omega

theorem zero_notMem_rigSources (p : Nat) : 0 ∉ rigSources p := fun h => by
  have := (List.mem_filter.mp h).2
  exact absurd this (by decide)

/-- Flags by number: the one that is set, and the others. -/
theorem Core.flag_setFlag_nat (c : Core) {f : Nat} (n : Nat) (hf : f ≠ 0) (j : Nat) :
    (c.setFlag f n).flag j = if j = f then n else c.flag j := by
  unfold Core.setFlag
  by_cases hn : c.flag f = n
  · rw [if_pos (Or.inr hn)]
    split
    · next hj => rw [hj, hn]
    · rfl
  · rw [if_neg (fun h => h.elim hf hn)]
    by_cases hj : j = f
    · subst hj
      rw [if_pos rfl, Core.flag, if_neg hf, SMap.get_set_same]
    · rw [if_neg hj, Core.flag, Core.flag, SMap.get_set_ne _ _ _ hj]

/-- Taking counts: each source gives as many as it is named. -/
theorem Core.takeAll_counts {c d : Core} {fs : List Nat} (h : c.takeAll fs = some d) (h0 : 0 ∉ fs) (f : Nat) :
    d.flag f + fs.count f = c.flag f := by
  induction fs generalizing c with
  | nil =>
    obtain rfl : c = d := Option.some.inj h
    rfl
  | cons g fs ih =>
    have hg : g ≠ 0 := fun e => h0 (e ▸ List.mem_cons_self)
    rw [Core.takeAll, Core.flagTake, if_neg hg] at h
    by_cases hpos : 0 < c.flag g
    · rw [if_pos hpos] at h
      have hrest := ih h (fun h => h0 (List.mem_cons_of_mem _ h))
      rw [c.flag_setFlag_nat _ hg] at hrest
      rw [List.count_cons]
      by_cases hf : f = g
      · subst hf
        rw [if_pos rfl] at hrest
        rw [beq_self_eq_true, if_pos rfl]
        omega
      · rw [if_neg hf] at hrest
        rw [if_neg (fun e => hf (beq_iff_eq.mp e).symm)]
        exact hrest
    · rw [if_neg hpos] at h
      exact absurd h nofun

/-- What a product that fires is: enabled, with every source's count, into a flag with room (R126). -/
theorem Core.fireProduct_some {c d : Core} {n p : Nat} (h : c.fireProduct n p = some d) :
    bit p 24 = true ∧ ∃ e, c.takeAll (rigSources p) = some e ∧ d = e.setFlag (48 + n) (e.flag (48 + n) + 1) := by
  unfold Core.fireProduct at h
  split at h
  · next hon =>
    refine ⟨(Bool.and_eq_true_iff.mp hon).1, ?_⟩
    split at h
    · next e he => exact ⟨e, he, (Option.some.inj h).symm⟩
    · exact absurd h nofun
  · exact absurd h nofun

end Sys2Proof.Machine

namespace Sys2Proof.Claims
open Sys2Proof.Machine

/-- Settles O20: the fields of a rigging term, and `Core.takeAll_counts` for a product that fires. -/
theorem riggingTerms : Obligations.RiggingTerms := by
  intro s b a t4 c d n p
  refine ⟨fun ha hb => ?_, fun hn hfire hmem => ?_⟩
  · obtain ⟨h0, h1⟩ := rigProduct_append (productOk_lt ha) (productOk_lt hb)
    refine ⟨_, if_pos (by rw [ha, hb]; rfl), .upd s _, ?_, fun j hj => ?_, ?_, ?_⟩ <;> rw [State.core_upd]
    · rfl
    · exact SMap.get_set_ne _ _ _ hj
    · exact (congrArg (rigProduct · 0) (SMap.get_set_same _ _ _ _)).trans h0
    · exact (congrArg (rigProduct · 1) (SMap.get_set_same _ _ _ _)).trans h1
  · obtain ⟨hbit, e, he, rfl⟩ := Core.fireProduct_some hfire
    have hcounts := Core.takeAll_counts he (zero_notMem_rigSources p)
    have hflag := e.flag_setFlag_nat (f := 48 + n) (e.flag (48 + n) + 1) (by omega)
    refine ⟨?_, ?_, fun f hf => ?_⟩
    · rw [Nat.testBit_eq_decide_div_mod_eq]
      exact hbit
    · have hself := hcounts (48 + n)
      rw [List.count_eq_zero_of_not_mem hmem] at hself
      rw [hflag, if_pos rfl, ← hself]
    · rw [hflag, if_neg hf]
      exact hcounts f

/-- Settles O22: `bwait` by the number of outstanding batches, `rdvz` by the streams that are left. -/
theorem batchesAndRendezvous : Obligations.BatchesAndRendezvous := by
  intro s n k
  refine ⟨?_, fun hnone => ?_, fun hsome => ?_⟩
  · have key : ∀ e : BitVec 2, e.toNat ≠ 3 →
        (s.core.outstanding (engOf e.toNat) ≤ n.toNat →
          ∃ t, exec (.bwait n e) s = .next t ∧ CoreRecorded s t (movedOn s.core 4))
        ∧ (n.toNat < s.core.outstanding (engOf e.toNat) →
          ∃ t, exec (.bwait n e) s = .next t ∧ CoreBecomes s t { s.core with waiting := some .batch }) := fun e he => by
      refine ⟨fun hle => ?_, fun hlt => ?_⟩
      · obtain ⟨g, hg⟩ := s.noteWait_eq (.batch (engOf e.toNat) n.toNat)
        exact ⟨_, (if_neg he).trans ((if_pos hle).trans (by rw [hg]; rfl)), .upd s g (fun c => movedOn c 4)⟩
      · exact ⟨_, (if_neg he).trans (if_neg (Nat.not_le.mpr hlt)), .upd s (fun c => { c with waiting := some .batch })⟩
    simp only [List.forall_mem_cons]
    exact ⟨key 0 (by decide), key 1 (by decide), key 2 (by decide), List.forall_mem_nil _⟩
  · obtain ⟨g, hg⟩ := s.noteWait_eq (.fork k.toNat)
    exact ⟨_, (if_pos (List.isEmpty_iff.mpr hnone)).trans (by rw [hg]; rfl), .upd s g (fun c => movedOn c 4)⟩
  · exact ⟨_, if_neg (fun h => hsome (List.isEmpty_iff.mp h)), .upd s (fun c => { c with waiting := some .fork })⟩

end Sys2Proof.Claims

namespace Sys2Proof.Machine
open Sys2Proof.Claims

/-! ## Elements that bytes hold and stores that bytes show (R4) -/

/-- Two numbers side by side. -/
theorem byte_append (a b : Nat) {n : Nat} (ha : a < 256 ^ n) (j : Nat) :
    BitVec.ofNat 8 ((a + b * 256 ^ n) / 256 ^ j)
      = if j < n then BitVec.ofNat 8 (a / 256 ^ j) else BitVec.ofNat 8 (b / 256 ^ (j - n)) := by
  split
  · next hj =>
    rw [← byte_of_mod (a + b * 256 ^ n) hj, Nat.add_mul_mod_self_right, Nat.mod_eq_of_lt ha]
  · next hj =>
    have hpow : 256 ^ j = 256 ^ n * 256 ^ (j - n) := by rw [← Nat.pow_add]; congr 1; omega
    rw [hpow, ← Nat.div_div_eq_div_mul, Nat.add_mul_div_right _ _ (Nat.pow_pos (by omega)), Nat.div_eq_of_lt ha, Nat.zero_add]

theorem Holds.append {s : State} {v : Bool} {base n m a b : Nat} (ha : Holds s v base n a) (hb : Holds s v (base + n) m b) :
    Holds s v base (n + m) (a + b * 256 ^ n) := by
  obtain ⟨hla, hba⟩ := ha
  obtain ⟨hlb, hbb⟩ := hb
  refine ⟨?_, fun j hj => ?_⟩
  · rw [Nat.pow_add]
    calc a + b * 256 ^ n < 256 ^ n + b * 256 ^ n := by omega
      _ = (b + 1) * 256 ^ n := by ring
      _ ≤ 256 ^ m * 256 ^ n := Nat.mul_le_mul_right _ hlb
      _ = 256 ^ n * 256 ^ m := Nat.mul_comm _ _
  · rw [byte_append a b hla]
    split
    · next hn => exact hba j hn
    · next hn => rw [hbb (j - n) (by omega), show base + n + (j - n) = base + j by omega]

/-- A space that reads as before holds what it held. -/
theorem Stores.of_holds {s t : State} {v : Bool} {base n x : Nat} (h : Holds s v base n x)
    (hb : ∀ w a, readByte (t.space w) a = readByte (s.space w) a) : Stores s t v base n x := by
  intro w a
  rw [hb w a]
  split
  · next hin =>
    obtain ⟨rfl, hlo, hhi⟩ := hin
    rw [h.2 (a - base) (by omega), show base + (a - base) = a by omega]
  · rfl

/-- A store that leaves its upper part as it was is a store of the lower part. -/
theorem Stores.low {s t : State} {v : Bool} {base n m a b : Nat} (h : Stores s t v base (n + m) (a + b * 256 ^ n))
    (ha : a < 256 ^ n) (hb : Holds s v (base + n) m b) : Stores s t v base n a := by
  intro w x
  rw [h w x, byte_append a b ha]
  by_cases hw : w = v ∧ base ≤ x
  · obtain ⟨rfl, hlo⟩ := hw
    by_cases hn : x < base + n
    · rw [if_pos ⟨rfl, hlo, by omega⟩, if_pos (by omega), if_pos ⟨rfl, hlo, hn⟩]
    · rw [if_neg (c := w = w ∧ base ≤ x ∧ x < base + n) (fun h => hn h.2.2)]
      split
      · next hin =>
        rw [if_neg (by omega), hb.2 (x - base - n) (by omega), show base + n + (x - base - n) = x by omega]
      · rfl
  · rw [if_neg (fun h => hw ⟨h.1, h.2.1⟩), if_neg (fun h => hw ⟨h.1, h.2.1⟩)]

/-! ## The atomics (R100) -/

/-- The recorder and the correction of a row do not meet (R240, R303). -/
theorem State.correct_graphs (s : State) (p : Spot) (g : List Graph) :
    ({ s with graphs := g } : State).correct p = { s.correct p with graphs := g } := by
  rw [State.correct, State.correct]
  by_cases h : (p.vault && s.flips.contains (p.addr / 128)) = true
  · rw [if_pos h, if_pos h]
  · rw [if_neg h, if_neg h]

theorem State.correct_space (s : State) (p : Spot) (v : Bool) : (s.correct p).space v = s.space v := by
  obtain ⟨f, w, h⟩ := s.correct_eq p
  rw [h]
  rfl

/-- What an atomic at a row leaves: the register its answer, the element its new value when it is written. -/
theorem State.atomicAt_done (s : State) (p : Spot) (aop a b : Nat) {el n : Nat} (d : Reg) (hel : n * (el + 1) ≤ 128)
    {r : AtomicResult}
    (hr : atomicOp aop (8 * n) (rowElement (s.rowAt p) n el) (a % 2 ^ (8 * n)) (b % 2 ^ (8 * n)) = r) :
    ∃ t, (s.noteLive.atomicAt p aop el (8 * n) a b).1.atomicDone d (s.noteLive.atomicAt p aop el (8 * n) a b).2 false false
        = .next t
      ∧ t.core = regSet s.core d (BitVec.ofNat 64 r.ret) 8
      ∧ (r.wr = true → Stores s t p.vault (p.addr / 128 * 128 + n * el) n r.new)
      ∧ (r.wr = false → CoreRecorded (s.correct p) t (regSet s.core d (BitVec.ofNat 64 r.ret) 8)) := by
  obtain ⟨g, hg⟩ := s.noteLive_eq
  have hrow : s.noteLive.rowAt p = s.rowAt p := by rw [hg]; rfl
  have hat : s.noteLive.atomicAt p aop el (8 * n) a b = (if r.wr then
      ({ s.correct p with graphs := g } : State).writeRowAt p (placeAt (n * el) r.new) (byteMask (n * el) n)
      else { s.correct p with graphs := g }, BitVec.ofNat 64 r.ret) := by
    rw [State.atomicAt, Nat.mul_div_cancel_left n (by omega : 0 < 8), hrow, hr, hg, s.correct_graphs]
  rw [hat]
  have hfit : n * el + n ≤ 128 := by rwa [Nat.mul_succ] at hel
  refine ⟨_, rfl, ?_, fun hw => ?_, fun hw => ?_⟩
  · obtain ⟨-, hcore⟩ := CoreBecomes.upd_resid_none (if r.wr then
      ({ s.correct p with graphs := g } : State).writeRowAt p (placeAt (n * el) r.new) (byteMask (n * el) n)
      else { s.correct p with graphs := g }) (fun c => regSet c d (BitVec.ofNat 64 r.ret) 8)
    refine hcore.trans (congrArg (regSet · d (BitVec.ofNat 64 r.ret) 8) ?_)
    split
    · obtain ⟨m, mp, w, wp, hframe⟩ := ({ s.correct p with graphs := g } : State).writeRowAt_frame p
        (placeAt (n * el) r.new) (byteMask (n * el) n)
      rw [hframe]
      exact s.correct_core p
    · exact s.correct_core p
  · intro w x
    rw [if_pos hw]
    refine (stores_writeRowAt ({ s.correct p with graphs := g } : State) p r.new hfit w x).trans ?_
    rw [show ({ s.correct p with graphs := g } : State).space w = (s.correct p).space w from rfl, s.correct_space]
  · rw [if_neg (by rw [hw]; exact Bool.false_ne_true)]
    have h := CoreRecorded.upd_upd (s.correct p) g (fun c => regSet c d (BitVec.ofNat 64 r.ret) 8) (fun c =>
      { c with resid := c.resid ||| (if false = true then 1 else 0) ||| (if false = true then 2 else 0) })
    rwa [Core.resid_or_none, s.correct_core] at h

/-- A row of this package's device memory or vaults does not lie in host memory (R315). -/
theorem Target.isHost_local {p : Spot} (h : p.vault = true ∨ p.addr / 2 ^ 47 % 2 = 0) : (Target.spot p).isHost = false := by
  obtain hvault | haddr := h
  · simp only [Target.isHost, hvault, Bool.not_true, Bool.false_and]
  · rw [Target.isHost, bit, haddr, show ((0 : Nat) == 1) = false from rfl, Bool.and_false]

section
variable {s : State} {o : AOp} {p : Spot}
variable (hfree : s.core.onItsWay = false) (hh : o.h ≠ 0) (hv : (s.core.handle o.h.toNat).valid = true)
  (ho : (s.core.rowOff o.x o.rof).toNat < (s.core.handle o.h.toNat).limit) (hw : (s.core.handle o.h.toNat).w = true)
  (hr : (s.core.handle o.h.toNat).readyAt ≤ s.now) (hacc : s.accessesDone o.scope.toNat = true)
  (hb : s.heldBack s.core ((s.core.handle o.h.toNat).loc (quadOf s.cur) (s.core.rowOff o.x o.rof).toNat) = false)
  (ht : s.handleTarget s.ctx s.cur (s.core.handle o.h.toNat) (s.core.rowOff o.x o.rof).toNat = .spot p)
  (hpkg : p.vault = true ∨ p.addr / 2 ^ 47 % 2 = 0)
include hfree hh hv ho hw hr hacc hb ht hpkg

/-- An `fao` on a row of this package sends its claim (R101). -/
theorem State.atomic_claims (i : Instr) : s.atomic i 2 o = s.noteLive.claim
    (s.noteLive.claimOf o ((s.core.handle o.h.toNat).loc (quadOf s.cur) (s.core.rowOff o.x o.rof).toNat) none) := by
  have hgo : (!s.handleReady (s.core.handle o.h.toNat) || !s.accessesDone o.scope.toNat) = false := by
    simp [State.handleReady, hr, hacc]
  simp only [State.atomic, hfree, s.core.effAddr_ok hh hv ho, hw, hgo, hb, ht, Target.isHost_local hpkg, Bool.false_and,
    Bool.not_true, Bool.false_eq_true, if_false, if_true]

/-- Another atomic on a row of this package that is not poisoned is performed there (R100). -/
theorem State.atomic_performs (i : Instr) {aop : Nat} (h2 : aop ≠ 2) (hp : s.poisoned p = false) :
    s.atomic i aop o =
      (s.noteLive.atomicAt p aop o.el.toNat (if o.w = 1 then 64 else 32) (s.core.rd o.a).toNat (s.core.rd o.b).toNat).1.atomicDone
        o.d (s.noteLive.atomicAt p aop o.el.toNat (if o.w = 1 then 64 else 32) (s.core.rd o.a).toNat
          (s.core.rd o.b).toNat).2 false false := by
  have hgo : (!s.handleReady (s.core.handle o.h.toNat) || !s.accessesDone o.scope.toNat) = false := by
    simp [State.handleReady, hr, hacc]
  obtain ⟨g, hg⟩ := s.noteLive_eq
  have hcore : s.noteLive.core = s.core := by rw [hg]; rfl
  have hclean : s.noteLive.poisoned p = false := by rw [hg]; exact hp
  simp only [State.atomic, hfree, s.core.effAddr_ok hh hv ho, hw, hgo, hb, ht, Target.isHost_local hpkg, Bool.false_and,
    Bool.not_true, Bool.false_eq_true, if_false, if_neg h2, hclean, hcore]

end

/-- The signed value of an element. -/
theorem signed_ofNat {n x : Nat} (hn : 0 < n) (hx : x < 2 ^ n) :
    (BitVec.ofNat n x).toInt = if 2 ^ n / 2 ≤ x then (x : Int) - (2 ^ n : Nat) else (x : Int) := by
  obtain ⟨k, rfl⟩ : ∃ k, n = k + 1 := ⟨n - 1, by omega⟩
  rw [BitVec.toInt_eq_toNat_cond, BitVec.toNat_ofNat, Nat.mod_eq_of_lt hx, Nat.pow_succ]
  split <;> split <;> omega

/-- Each atomic of R100 returns the old element, and writes the new one unless that is the old one. -/
theorem atomicOp_value {n old a b : Nat} (hn : 0 < n) (hold : old < 2 ^ n) (ha : a < 2 ^ n) {aop : Nat}
    (h : aop ∈ [0, 3, 4, 5, 6, 7, 8, 9, 10]) :
    (atomicOp aop n old a b).ret = old
      ∧ ((atomicOp aop n old a b).wr = true → (atomicOp aop n old a b).new = atomicValue n old a b aop)
      ∧ ((atomicOp aop n old a b).wr = false → atomicValue n old a b aop = old) := by
  simp only [List.mem_cons, List.not_mem_nil, or_false] at h
  obtain rfl | rfl | rfl | rfl | rfl | rfl | rfl | rfl | rfl := h
  · exact ⟨rfl, fun _ => rfl, nofun⟩
  · refine ⟨rfl, fun h => (if_pos (beq_iff_eq.mp h)).symm, fun h => if_neg fun e => ?_⟩
    rw [show (atomicOp 3 n old a b).wr = (old == b) from rfl, e, beq_self_eq_true] at h
    exact Bool.false_ne_true h.symm
  · exact ⟨rfl, fun _ => rfl, nofun⟩
  · exact ⟨rfl, fun _ => by rw [atomicValue, signed_ofNat hn ha, signed_ofNat hn hold]; rfl, nofun⟩
  · exact ⟨rfl, fun _ => by rw [atomicValue, signed_ofNat hn ha, signed_ofNat hn hold]; rfl, nofun⟩
  · exact ⟨rfl, fun _ => Nat.min_comm _ _, nofun⟩
  · exact ⟨rfl, fun _ => Nat.max_comm _ _, nofun⟩
  · exact ⟨rfl, fun _ => Nat.lor_comm _ _, nofun⟩
  · exact ⟨rfl, fun _ => Nat.land_comm _ _, nofun⟩

theorem atomicOp_bounded (n old a b : Nat) : atomicOp 1 n old a b =
    { ret := (boundedClaim old (a % 2 ^ 32)).1, new := (boundedClaim old (a % 2 ^ 32)).2,
      wr := (boundedClaim old (a % 2 ^ 32)).1 != 0xFFFFFFFF || (boundedClaim old (a % 2 ^ 32)).2 != old } := rfl

/-- The bounded claim on an element that holds a count and a limit (R101). -/
theorem atomicOp_claim {count limit : Nat} (hc : count < 2 ^ 32) (hl : limit < 2 ^ 32) (a b : Nat) :
    atomicOp 1 64 (count + limit * 2 ^ 32) (a % 2 ^ 64) b = if count + a % 2 ^ 32 ≤ limit
      then { ret := count, new := count + a % 2 ^ 32 + limit * 2 ^ 32,
             wr := count != 0xFFFFFFFF || count + a % 2 ^ 32 + limit * 2 ^ 32 != count + limit * 2 ^ 32 }
      else { ret := 0xFFFFFFFF, new := count + limit * 2 ^ 32, wr := false } := by
  have hlo : (count + limit * 2 ^ 32) % 2 ^ 32 = count := by omega
  have hhi : (count + limit * 2 ^ 32) / 2 ^ 32 = limit := by omega
  have hinc : a % 2 ^ 64 % 2 ^ 32 = a % 2 ^ 32 := by omega
  rw [atomicOp_bounded, hinc, boundedClaim, hlo, hhi]
  by_cases hle : count + a % 2 ^ 32 ≤ limit
  · rw [if_pos hle, if_pos hle]
    have hnew : limit * 2 ^ 32 + (count + a % 2 ^ 32) % 2 ^ 32 = count + a % 2 ^ 32 + limit * 2 ^ 32 := by omega
    simp only [hnew]
  · rw [if_neg hle, if_neg hle, bne_self_eq_false, bne_self_eq_false, Bool.or_self]

end Sys2Proof.Machine

namespace Sys2Proof.Claims
open Sys2Proof.Machine

/-- The bytes of a state that only records are those before. -/
theorem CoreRecorded.correct_bytes {s t : State} {p : Spot} {c : Core} (h : CoreRecorded (s.correct p) t c) (w : Bool)
    (a : Nat) : readByte (t.space w) a = readByte (s.space w) a := by
  obtain ⟨-, -, ⟨hmem, hvault, -⟩, -⟩ := h
  rw [← s.correct_space p]
  cases w
  · exact hmem a
  · exact hvault a

theorem atomics : Atomics := by
  intro s o p hd off n loc A B hfree hh hv ho hw hr hacc hb ht hpkg hp hel q hq
  have hwidth : (if o.w = 1 then 64 else 32) = 8 * n := by show _ = 8 * (if o.w = 1 then 8 else 4); split <;> rfl
  have hfit : n * (o.el.toNat + 1) ≤ 128 := by
    have hn : 0 < n := by show 0 < (if o.w = 1 then 8 else 4); split <;> omega
    rw [Nat.mul_comm]
    exact (Nat.le_div_iff_mul_le hn).mp hel
  have hpos : 0 < 8 * n := by rw [← hwidth]; split <;> omega
  have hholds := holds_rowElement s hp hfit
  obtain ⟨t, hdone, hcore, hwrites, hkeeps⟩ := s.atomicAt_done p q.2 (s.core.rd o.a).toNat (s.core.rd o.b).toNat o.d hfit rfl
  have hlt : ∀ x, x % 2 ^ (8 * n) < 2 ^ (8 * n) := fun x => Nat.mod_lt _ (Nat.two_pow_pos _)
  obtain ⟨hret, hnew, hsame⟩ := atomicOp_value hpos (old := rowElement (s.rowAt p) n o.el.toNat) (b := B) (hlt _)
    (hlt (s.core.rd o.a).toNat) (List.mem_map_of_mem (f := Prod.snd) hq)
  have hexec : exec q.1 s = .next t := by
    have hperf : ∀ i {aop : Nat}, aop ≠ 2 → s.atomic i aop o = _ := fun i _ h2 =>
      State.atomic_performs hfree hh hv ho hw hr hacc hb ht hpkg i h2 hp
    rw [← hdone, ← hwidth]
    simp only [List.mem_cons, List.not_mem_nil, or_false] at hq
    obtain rfl | rfl | rfl | rfl | rfl | rfl | rfl | rfl | rfl := hq <;> exact hperf _ (by decide)
  refine ⟨t, _, hexec, hholds, hret ▸ hcore, ?_⟩
  cases hwr : (atomicOp q.2 (8 * n) (rowElement (s.rowAt p) n o.el.toNat) A B).wr with
  | true => exact hnew hwr ▸ hwrites hwr
  | false => rw [hsame hwr]; exact Stores.of_holds hholds (hkeeps hwr).correct_bytes

theorem boundedClaims : BoundedClaims := by
  intro s o p count limit hd off inc base hfree hh hv ho hw hr hacc hb ht hpkg hp hwide hel hcount hlimit
  have hfit : 8 * (o.el.toNat + 1) ≤ 128 := by omega
  have hold : rowElement (s.rowAt p) 8 o.el.toNat = count + limit * 2 ^ 32 :=
    Holds.unique (holds_rowElement s hp hfit) (Holds.append hcount hlimit)
  have hclaim := atomicOp_claim hcount.1 hlimit.1 (s.core.rd o.a).toNat ((s.core.rd o.b).toNat % 2 ^ 64)
  rw [← hold] at hclaim
  obtain ⟨t, hdone, hcore, hwrites, hkeeps⟩ := s.atomicAt_done p 1 (s.core.rd o.a).toNat (s.core.rd o.b).toNat o.d hfit hclaim
  have hexec : exec (.faab o) s = .next t := by
    refine (State.atomic_performs hfree hh hv ho hw hr hacc hb ht hpkg (.faab o) (aop := 1) (by decide) hp).trans ?_
    rw [if_pos hwide]
    exact hdone
  refine ⟨fun hle => ?_, fun hlt => ?_⟩
  · rw [if_pos hle] at hcore hwrites hkeeps
    refine ⟨t, hexec, hcore, ?_⟩
    cases hwr : (count != 0xFFFFFFFF || count + inc + limit * 2 ^ 32 != rowElement (s.rowAt p) 8 o.el.toNat) with
    | true => exact Stores.low (hwrites hwr) (Nat.lt_of_le_of_lt hle hlimit.1) hlimit
    | false =>
      rw [hold] at hwr hkeeps
      have hzero : count + inc = count := Nat.add_right_cancel (bne_eq_false_iff_eq.mp (Bool.or_eq_false_iff.mp hwr).2)
      rw [hzero]
      exact Stores.of_holds hcount (hkeeps hwr).correct_bytes
  · rw [if_neg (Nat.not_le.mpr hlt)] at hkeeps
    exact ⟨t, hexec, hkeeps rfl⟩

/-- Settles O26: the value of each operation, and the count and limit of a bounded claim as one element. -/
theorem atomicOperations : Obligations.AtomicOperations := ⟨atomics, boundedClaims⟩

end Sys2Proof.Claims

namespace Sys2Proof.Machine
open Sys2Proof.Claims

/-! ## Events and sections (R209, R330) -/

/-- A message changes the pending and sent vectors only. -/
theorem State.raise_frame (s : State) (vec : Nat) : ∃ h, s.raise vec = { s with host := h } ∧ h.evNext = s.host.evNext := by
  unfold State.raise
  extract_lets h
  split <;> exact ⟨_, rfl, rfl⟩

theorem State.putPhys_frame (s : State) (a n v : Nat) :
    ∃ m mp w wp, s.putPhys a n v = { s with mem := m, memPoison := mp, vault := w, vaultPoison := wp } :=
  s.writeRowAt_frame _ _ _

/-- An event writes its record and counts. -/
theorem State.event_frame (s : State) (kind ctx arg vec : Nat) : ∃ m mp w wp h,
    s.event kind ctx arg vec = { s with mem := m, memPoison := mp, vault := w, vaultPoison := wp, host := h }
      ∧ h.evNext = s.host.evNext + 1 := by
  unfold State.event
  extract_lets h n size ph rec_ s1
  split
  · obtain ⟨h', heq, hn⟩ := s1.raise_frame vec
    exact ⟨s.mem, s.memPoison, s.vault, s.vaultPoison, h', heq, hn⟩
  · obtain ⟨m, mp, w, wp, hput⟩ := s1.putPhys_frame (h.evBase.toNat + n % size * 16) 16 rec_
    obtain ⟨h', heq, hn⟩ := State.raise_frame { s1 with mem := m, memPoison := mp, vault := w, vaultPoison := wp } vec
    exact ⟨m, mp, w, wp, h', hput ▸ heq, hn⟩

/-- A section is brought up to date only where it holds the bank (R209). -/
theorem State.syncSection_unsaved {s : State} {ctx n b : Nat} (h : (s.coreAt ctx n).bankState b ≠ .saved) :
    s.syncSection ctx n b = s := by
  unfold State.syncSection
  split
  · exact if_neg h
  · rfl

theorem Core.setFlag_bankState (c : Core) (f n b : Nat) : (c.setFlag f n).bankState b = c.bankState b := by
  unfold Core.setFlag
  split <;> rfl

theorem Core.flagInc_room (c : Core) {f : Nat} (hf : f ≠ 0) (h : c.flag f < 65535) :
    c.flagInc f 1 = some (c.setFlag f (c.flag f + 1)) := by
  rw [Core.flagInc, if_neg hf, if_neg (by omega)]

/-! ## Page requests (R99, R322, R323) -/

/-- What a request leaves of the context and the cores: its record and its event are bytes and host state. -/
theorem State.posted_spec (s : State) (x : Ctx) (a n v kind c arg vec : Nat) :
    (((s.setContext s.ctx x).putPhys a n v).event kind c arg vec).core = s.core
      ∧ (((s.setContext s.ctx x).putPhys a n v).event kind c arg vec).context s.ctx = x := by
  refine ⟨((State.putPhys_sameCores _ a n v).trans (State.event_sameCores _ kind c arg vec)).core, ?_⟩
  obtain ⟨m, mp, w, wp, hput⟩ := (s.setContext s.ctx x).putPhys_frame a n v
  obtain ⟨m', mp', w', wp', h, hev, -⟩ := ((s.setContext s.ctx x).putPhys a n v).event_frame kind c arg vec
  rw [hev, hput]
  exact (s.context_setContext s.ctx x s.ctx).trans (if_pos rfl)

/-- A context with one more outstanding request, of a core and a flag (R99). -/
def Ctx.posted (x : Ctx) (core flag : Nat) : Ctx :=
  { x with prqSeq := x.prqSeq + 1, reqs := x.reqs ++ [{ seq := x.prqSeq, core := core, flag := flag }] }

/-- A page request with a count is posted while the ring has room. -/
theorem execPgreq_posts {s : State} {d : Reg} (a : Reg) (f : Ix6) (hn : (s.core.rd d).toNat ≠ 0)
    (hroom : (s.context s.ctx).reqs.length < 1024) : ∃ u : State, execPgreq d a f s = u.done 4 ∧ u.core = s.core
      ∧ u.context s.ctx = (s.context s.ctx).posted s.cur f.toNat := by
  have hcount : ¬min (s.core.rd d).toNat 2048 = 0 := by omega
  obtain ⟨g, hg⟩ := s.noteLive_eq
  have hctx : s.noteLive.context s.noteLive.ctx = s.context s.ctx := by rw [hg]; rfl
  have hfull : ¬1024 ≤ (s.noteLive.context s.noteLive.ctx).reqs.length := by rw [hctx]; omega
  refine ⟨_, (if_neg hcount).trans (if_neg hfull), ?_⟩
  obtain ⟨hcore, hpost⟩ := s.noteLive.posted_spec ((s.noteLive.context s.noteLive.ctx).posted s.noteLive.cur f.toNat)
    (recPrq (s.noteLive.ctxRecord s.noteLive.ctx) + 32 * ((s.noteLive.context s.noteLive.ctx).prqSeq % 1024)) 32
    (requestRecord ((s.noteLive.core.rd a).toNat / 65536 * 65536) (min (s.core.rd d).toNat 2048)
      (s.noteLive.context s.noteLive.ctx).prqSeq s.noteLive.cur f.toNat (s.noteLive.logWho s.noteLive.core).1)
    2 s.noteLive.ctx (Config.eventArg 2).toNat (recPrvec (s.noteLive.ctxRecord s.noteLive.ctx))
  refine ⟨hcore.trans ?_, ?_⟩
  · rw [hg]
    rfl
  · rw [← hctx, show s.ctx = s.noteLive.ctx by rw [hg], show s.cur = s.noteLive.cur by rw [hg]]
    exact hpost

/-- A page reply with the phase and the number of an outstanding request. -/
theorem execPageReply_retires {s : State} {slot : Nat} {q : PageReq}
    (hq : (s.context s.ctx).reqs.find? (fun r => r.seq % 1024 == slot) = some q)
    (hphase : readNat s.mem (recPrp (s.ctxRecord s.ctx) + 16 * slot) 16 % 2 = q.seq / 1024 % 2)
    (hseq : readNat s.mem (recPrp (s.ctxRecord s.ctx) + 16 * slot) 16 / 2 ^ 96 % 2 ^ 32 = q.seq % 2 ^ 32)
    (hf : q.flag ≠ 0) (hroom : (s.coreAt s.ctx q.core).flag q.flag < 65535)
    (hbank : (s.coreAt s.ctx q.core).bankState 6 ≠ .saved) :
    execPageReply s.ctx slot s = .next ((s.setContext s.ctx { s.context s.ctx with
      reqs := (s.context s.ctx).reqs.filter (fun p => p.seq != q.seq) }).setCoreAt s.ctx q.core
        ((s.coreAt s.ctx q.core).setFlag q.flag ((s.coreAt s.ctx q.core).flag q.flag + 1))) := by
  have hb : (if bit (readNat s.mem (recPrp (s.ctxRecord s.ctx) + 16 * slot) 16) 0 then 1 else 0) = q.seq / 1024 % 2 := by
    rw [← hphase, bit, Nat.pow_zero, Nat.div_one]
    obtain h | h := Nat.mod_two_eq_zero_or_one (readNat s.mem (recPrp (s.ctxRecord s.ctx) + 16 * slot) 16) <;> rw [h] <;> rfl
  have hinc := (s.coreAt s.ctx q.core).flagInc_room hf hroom
  simp only [execPageReply, hq]
  rw [if_neg (fun h => h hb), if_neg (fun h => h hseq)]
  have hinc' : ((s.setContext s.ctx { s.context s.ctx with
      reqs := (s.context s.ctx).reqs.filter (fun p => p.seq != q.seq) }).coreAt s.ctx q.core).flagInc q.flag 1 = _ := hinc
  rw [hinc']
  refine congrArg Host.Outcome.next (State.syncSection_unsaved ?_)
  rw [State.coreAt_setCoreAt, if_pos rfl, Core.setFlag_bankState]
  exact hbank

end Sys2Proof.Machine

namespace Sys2Proof.Claims
open Sys2Proof.Machine

/-- Settles O25: a request is posted or answered at once; a reply finds its request by slot, phase and number. -/
theorem pageRequests : Obligations.PageRequests := by
  intro s d a f x
  refine ⟨fun hn hroom => ?_, fun hn hf hroom => ?_, fun slot q hq => ?_⟩
  · obtain ⟨u, hexec, hcore, hctx⟩ := execPgreq_posts a f hn hroom
    have hmoved : (u.upd (fun c => movedOn c 4)).core = movedOn s.core 4 := by rw [State.core_upd, hcore]
    exact ⟨_, hexec, congrArg Core.pc hmoved, fun r => (congrArg (fun c => Core.rd c r) hmoved :), congrArg Ctx.prqSeq hctx,
      congrArg Ctx.reqs hctx⟩
  · obtain ⟨g, hg⟩ := s.noteLive_eq
    have hexec : exec (.pgreq d a f) s = .next ((({ s with graphs := g } : State).upd
        (fun _ => s.core.setFlag f.toNat (s.core.flag f.toNat + 1))).upd (fun c => movedOn c 4)) := by
      show execPgreq d a f s = _
      unfold execPgreq
      simp only [hn, hg, Nat.zero_min, if_true]
      have hinc : ({ s with graphs := g } : State).core.flagInc f.toNat 1 = _ :=
        s.core.flagInc_fits hf (Nat.succ_le_of_lt hroom)
      rw [hinc]
      rfl
    exact ⟨_, hexec, .upd_upd s g _ _⟩
  · intro v hphase hseq hf hroom hbank
    refine ⟨_, execPageReply_retires hq hphase hseq hf hroom hbank, ?_, ?_, rfl, .of_eq rfl rfl rfl⟩
    · rw [State.coreAt_setCoreAt, if_pos rfl, Core.flag_setFlag_nat _ _ hf, if_pos rfl]
    · exact congrArg Ctx.reqs ((s.context_setContext s.ctx _ s.ctx).trans (if_pos rfl))

end Sys2Proof.Claims

namespace Sys2Proof.Machine
open Sys2Proof.Claims

/-! ## Ordered claims (R101, R280, R281) -/

/-- An `fao` with no claim of its core on its way sends one and waits for its grant. -/
theorem State.claim_sends {s : State} {o : AOp} {loc : Loc} {lost : Option Bool}
    (h : ∀ k ∈ s.contribs, k.ctx ≠ s.ctx ∨ k.core ≠ s.cur) :
    s.claim (s.claimOf o loc lost) = (s.contribute (s.claimOf o loc lost)).wait (.grant (2 * s.nextContrib)) := by
  have hnone : s.contribs.find? (fun k => k.isOf (s.claimOf o loc lost)) = none := by
    refine List.find?_eq_none.mpr fun k hk hof => ?_
    simp only [Contrib.isOf, Bool.and_eq_true, beq_iff_eq] at hof
    obtain ⟨⟨⟨⟨⟨⟨hctx, hcore⟩, -⟩, -⟩, -⟩, -⟩, -⟩ := hof
    exact (h k hk).elim (fun n => n hctx) (fun n => n hcore)
  rw [State.claim, hnone]

/-- The only contribution, a claim that holds its grant, while its `fao` waits for it. -/
theorem execFaoGrant_delivers {s : State} {k : Contrib} {d : Reg} {g : Word} (hk : s.contribs = [k]) (hcur : k.core = s.cur)
    (hctx : k.ctx = s.ctx) (hreply : k.reply = .reg d) (hgrant : k.grant = some (g, 0))
    (hwait : s.core.waiting = some (.grant (2 * k.id))) (hbank : s.core.bankState 0 ≠ .saved) :
    execFaoGrant s.cur s = .next ((({ s with contribs := [] } : State).upd (fun c => (c.wr d g).advancePc 8)).setResid
      false false) := by
  have htakes : s.takesGrant k = true := by
    have hat : (s.coreAt k.ctx k.core).waiting = some (.grant (2 * k.id)) := by rw [hctx, hcur]; exact hwait
    simp only [State.takesGrant, hgrant, hreply, hat, Option.isSome_some, Bool.true_and, beq_self_eq_true, Bool.or_true]
  have hfind : s.contribs.find? (fun k => k.core == s.cur && s.takesGrant k) = some k := by
    rw [hk]
    exact List.find?_cons_of_pos (by simp only [hcur, htakes, beq_self_eq_true, Bool.and_self])
  have hrest : s.contribs.filter (fun x => x.id != k.id) = [] := by
    rw [hk]
    exact List.filter_cons_of_neg (by simp only [bne_self_eq_false, Bool.false_eq_true, not_false_eq_true])
  have hw : ({ s with contribs := [] } : State).core.waiting = some (.grant (2 * k.id)) := hwait
  simp only [execFaoGrant, hfind, hreply, hgrant, hrest, hctx, hcur]
  refine congrArg Host.Outcome.next ?_
  rw [if_pos hw]
  have hcore := (CoreBecomes.upd_resid_none { s with contribs := [] } (fun c => (c.wr d g).advancePc 8)).2
  have hkept : (((({ s with contribs := [] } : State).upd (fun c => (c.wr d g).advancePc 8)).setResid false
      false).coreAt s.ctx s.cur).bankState 0 ≠ .saved := by
    rw [show (State.coreAt _ s.ctx s.cur) = _ from hcore, Core.bankState]
    exact s.core.wr_bank d g ▸ hbank
  exact State.syncSection_unsaved hkept

theorem State.setRound_eq (s : State) (k : Contrib) (r : Round) : ∃ rs, s.setRound k r = { s with rounds := rs } := by
  unfold State.setRound
  extract_lets same
  split <;> exact ⟨_, rfl⟩

/-- A claim ahead of its turn at a round with room in the buffer (R281). -/
theorem State.arriveAt_buffers {s : State} {k : Contrib} {r : Round} (hr : s.roundAt k = some r) (hk : k.key < r.n)
    (hn : k.n = r.n) (hahead : r.next < k.key) (hfirst : s.bufferedNext k k.key = none) (hroom : s.bufferedCount k.die < 256) :
    ∃ rs, s.arriveAt k = { s with
      rounds := rs
      contribs := s.contribs.map (fun x => if x.id = k.id then { x with buffered := true, retryAt := none } else x) } := by
  obtain ⟨rs, hrs⟩ := s.setRound_eq k r
  refine ⟨rs, ?_⟩
  have hok : ¬(r.n ≤ k.key ∨ k.n ≠ r.n) := by omega
  have hnew : ¬(k.key < r.next ∨ (s.bufferedNext k k.key).isSome = true) := by
    rw [hfirst]
    simp only [Option.isSome_none, Bool.false_eq_true, or_false, not_lt]
    omega
  have hcount : ({ s with rounds := rs } : State).bufferedCount k.die < 256 := hroom
  simp only [State.arriveAt, hr, Option.getD_some, if_neg hok, if_neg hnew, if_neg (show ¬k.key = r.next by omega), hrs,
    if_pos hcount]

/-- The ORDERED_KEY of a claim whose `fao` waits, with no held trap before it (R101, R115). -/
theorem State.orderedKey_traps {s : State} {k : Contrib} (hreply : ∃ d, k.reply = .reg d) (hctx : k.ctx = s.ctx)
    (hcur : k.core = s.cur) (hwait : s.core.waiting = some (.grant (2 * k.id))) (hpend : s.core.pend = false)
    (hi : s.core.inh = false) (hh : s.core.xhand ≠ 0) :
    TakesTrap { s with contribs := s.contribs.filter (fun x => x.id != k.id) } (s.orderedKey k) cOrderedKey
      (BitVec.ofNat 64 (k.key + k.n * 2 ^ 32)) s.core.pc := by
  obtain ⟨d, hd⟩ := hreply
  have htrap := State.takeTrap_handled { s with contribs := s.contribs.filter (fun x => x.id != k.id) } (code := cOrderedKey)
    (BitVec.ofNat 64 (k.key + k.n * 2 ^ 32)) s.core.pc hi hh (by decide)
  have hw : ({ s with contribs := s.contribs.filter (fun x => x.id != k.id) } : State).core.waiting
      = some (.grant (2 * k.id)) := hwait
  have hnone : ¬(({ s with contribs := s.contribs.filter (fun x => x.id != k.id) } : State).core.pend = true
      ∧ ({ s with contribs := s.contribs.filter (fun x => x.id != k.id) } : State).core.inh = false) :=
    fun h => Bool.false_ne_true (hpend.symm.trans h.1)
  have heq : s.orderedKey k = { State.takeTrap { s with contribs := s.contribs.filter (fun x => x.id != k.id) } cOrderedKey
      false (BitVec.ofNat 64 (k.key + k.n * 2 ^ 32)) s.core.pc with ctx := s.ctx, cur := s.cur } := by
    simp only [State.orderedKey, hd, hctx, hcur]
    rw [if_pos hw, State.preciseKey, if_neg hnone]
    rfl
  obtain ⟨-, -, hframe, -, -⟩ := id htrap
  rw [heq]
  generalize State.takeTrap _ _ _ _ _ = u at htrap hframe ⊢
  rwa [show ({ u with ctx := s.ctx, cur := s.cur } : State) = u by rw [hframe]]

theorem State.arriveAt_rejects {s : State} {k : Contrib} {r : Round} (hr : s.roundAt k = some r)
    (hbad : r.n ≤ k.key ∨ k.n ≠ r.n) : s.arriveAt k = (s.setRound k r).orderedKey k := by
  simp only [State.arriveAt, hr, Option.getD_some, if_pos hbad]

/-- A contribution that is on its way arrives. -/
theorem execContributionArrive_arrives {s : State} {i : Nat} {k : Contrib} (hi : s.contribs[i]? = some k)
    (hb : k.buffered = false) (hbad : k.bad = false) (hg : k.grant = none) (ht : k.retryAt = none) :
    execContributionArrive i s = .next (s.arriveAt k) := by
  simp only [execContributionArrive, hi, hb, hbad, hg, ht, Option.isSome_none, Bool.or_self, Bool.false_eq_true, if_false]

end Sys2Proof.Machine

namespace Sys2Proof.Claims
open Sys2Proof.Machine

theorem orderedClaims : OrderedClaims := by
  intro s o p k d g hd off
  refine ⟨fun hfree hnone hh hv ho hw hr hacc hb ht hpkg => ?_, fun hk hcur hctx hreply hgrant hwait hbank => ?_⟩
  · obtain ⟨gs, hgs⟩ := s.noteLive_eq
    have hexec : exec (.fao o) s = _ := State.atomic_claims hfree hh hv ho hw hr hacc hb ht hpkg (.fao o)
    rw [hgs, State.claim_sends (s := { s with graphs := gs }) hnone] at hexec
    exact ⟨_, _, hexec, rfl, rfl, rfl, rfl, rfl, rfl, rfl, rfl, State.core_upd _ _, .of_eq rfl rfl rfl⟩
  · have hcore := (CoreBecomes.upd_resid_none { s with contribs := [] } (fun c => (c.wr d g).advancePc 8)).2
    exact ⟨_, execFaoGrant_delivers hk hcur hctx hreply hgrant hwait hbank, rfl, hcore, rfl⟩

theorem orderedArrivals : OrderedArrivals := by
  intro s i k r hi hb hbad hg hretry hr
  have hexec := execContributionArrive_arrives hi hb hbad hg hretry
  refine ⟨fun hk hn hahead hfirst hroom => ?_, fun hrange hreply hctx hcur hwait hpend hinh hhand => ?_⟩
  · obtain ⟨rs, hrs⟩ := State.arriveAt_buffers hr hk hn hahead hfirst hroom
    exact ⟨_, hexec.trans (congrArg _ hrs), .of_eq rfl rfl rfl, rfl, rfl⟩
  · obtain ⟨rs, hrs⟩ := s.setRound_eq k r
    rw [State.arriveAt_rejects hr hrange, hrs] at hexec
    obtain ⟨⟨hxpc, hcause, hval, -, -, hpc⟩, -, hframe, hbytes, -⟩ :=
      State.orderedKey_traps (s := { s with rounds := rs }) hreply hctx hcur hwait hpend hinh hhand
    exact ⟨_, hexec, hbytes, congrArg State.contribs hframe, hpc, hcause, hval, hxpc⟩

/-- Settles O27: a claim is sent once, buffered or refused at its round, and its grant ends the wait. -/
theorem orderedRounds : Obligations.OrderedRounds := ⟨orderedClaims, orderedArrivals⟩

end Sys2Proof.Claims

namespace Sys2Proof.Machine
open Sys2Proof.Claims

/-! ## Streams of a fork (R107, R127) -/

/-- What the stream entry of fork k in queue e, for the row that register a names, makes of a core. -/
structure Core.Forked (k : Nat) (e : Eng) (a : Reg) (c d : Core) : Prop where
  regs : d.s = c.s
  pc : d.pc = c.pc
  forks : d.forks = c.forks
  entry : ∃ y, (d.queue e).hw = (c.queue e).hw ++ [y] ∧ y.body = .stream (streamRow (c.rd a)) 0 0 0 0 0 ∧ y.fork = some k
    ∧ y.seq = (c.queue e).next
  others : ∀ e', e' ≠ e → d.queue e' = c.queue e'

/-- What a list of such entries makes of a core. -/
structure Core.ForkedAll (k : Nat) (l : List (Eng × Reg)) (c d : Core) : Prop where
  regs : d.s = c.s
  pc : d.pc = c.pc
  forks : d.forks = c.forks
  entries : ∀ p ∈ l, ∃ y, (d.queue p.1).hw = (c.queue p.1).hw ++ [y]
    ∧ y.body = .stream (streamRow (c.rd p.2)) 0 0 0 0 0 ∧ y.fork = some k ∧ y.seq = (c.queue p.1).next
  others : ∀ e, (∀ p ∈ l, p.1 ≠ e) → d.queue e = c.queue e

/-- A queue with two free hardware slots takes a stream there. -/
theorem Queue.append_stream {q : Queue} {x : Entry} (hx : x.slots = 2) (hs : q.spill = []) (hr : q.hwSlots ≤ 30) :
    q.append x false = { q with hw := q.hw ++ [x], next := q.next + 1 } := by
  refine if_pos ?_
  simp only [hs, hx, List.isEmpty_nil, Bool.not_false, Bool.and_self, Bool.true_and, decide_eq_true_eq]
  omega

/-- The core whose queue e has taken an entry into its hardware slots. -/
def Core.takeEntry (c : Core) (e : Eng) (y : Entry) : Core :=
  { c.setQueue e { c.queue e with hw := (c.queue e).hw ++ [y], next := (c.queue e).next + 1 } with stamp := c.stamp + 1 }

theorem Core.queue_takeEntry (c : Core) (e : Eng) (y : Entry) (e' : Eng) : (c.takeEntry e y).queue e' =
    if e' = e then { c.queue e with hw := (c.queue e).hw ++ [y], next := (c.queue e).next + 1 } else c.queue e' := by
  rw [← Core.queue_setQueue]
  cases e' <;> rfl

theorem Core.takeEntry_forked (c : Core) (k : Nat) (e : Eng) (a : Reg) {y : Entry}
    (hb : y.body = .stream (streamRow (c.rd a)) 0 0 0 0 0) (hf : y.fork = some k) (hs : y.seq = (c.queue e).next) :
    c.Forked k e a (c.takeEntry e y) where
  regs := c.setQueue_s e _
  pc := c.setQueue_pc e _
  forks := c.setQueue_forks e _
  entry := ⟨y, by rw [c.queue_takeEntry, if_pos rfl], hb, hf, hs⟩
  others := fun e' he => by rw [c.queue_takeEntry, if_neg he]

/-- The stream of a fork enters one queue of the core. -/
theorem State.insertOwn_stream (s : State) (k : Nat) {e : Eng} (a : Reg) (hs : (s.core.queue e).spill = [])
    (hr : (s.core.queue e).hwSlots ≤ 30) : ∃ t,
    s.insertOwn e { s.entryOf (.stream (streamRow (s.core.rd a)) 0 0 0 0 0) with fork := some k } = t
      ∧ t = { s with cores := t.cores, graphs := t.graphs } ∧ s.core.Forked k e a t.core := by
  refine ⟨_, rfl, ?_⟩
  obtain ⟨x, hx⟩ : ∃ x : Entry, { s.entryOf (.stream (streamRow (s.core.rd a)) 0 0 0 0 0) with fork := some k } = x := ⟨_, rfl⟩
  obtain ⟨y, hy⟩ : ∃ y, s.capture s.core x (s.core.queue e) = y := ⟨_, rfl⟩
  have hslots : y.slots = 2 := by rw [← hy, ← hx]; rfl
  have hopen : ¬(e = .m ∧ y.commits = true) := by
    rintro ⟨-, h⟩
    rw [← hy, ← hx] at h
    exact Bool.false_ne_true h
  have haccept : s.accept s.ctx s.cur e x = s.upd (fun c => c.takeEntry e y) := by
    show s.acceptAs s.ctx s.cur e (s.capture s.core x (s.core.queue e)) false = _
    rw [hy, State.acceptAs]
    simp only [if_neg hopen]
    rw [show s.coreAt s.ctx s.cur = s.core from rfl, Queue.append_stream hslots hs hr]
    rfl
  obtain ⟨g, hg⟩ := s.insertOwn_eq e x
  rw [hx, hg, haccept]
  refine ⟨rfl, ?_⟩
  rw [show ({ s.upd (fun c => c.takeEntry e y) with graphs := g } : State).core = s.core.takeEntry e y from
    (State.core_upd s (fun c => c.takeEntry e y) :)]
  exact s.core.takeEntry_forked k e a (by rw [← hy, ← hx]; rfl) (by rw [← hy, ← hx]; rfl) (by rw [← hy]; rfl)

theorem Core.ForkedAll.refl (k : Nat) (c : Core) : c.ForkedAll k [] c := ⟨rfl, rfl, rfl, nofun, fun _ _ => rfl⟩

/-- An entry, then those of other queues. -/
theorem Core.Forked.cons {k : Nat} {e : Eng} {a : Reg} {l : List (Eng × Reg)} {c d f : Core} (h : c.Forked k e a d)
    (hl : d.ForkedAll k l f) (hne : ∀ p ∈ l, p.1 ≠ e) : c.ForkedAll k ((e, a) :: l) f where
  regs := hl.regs.trans h.regs
  pc := hl.pc.trans h.pc
  forks := hl.forks.trans h.forks
  entries := fun p hp => by
    obtain rfl | hp := List.mem_cons.mp hp
    · rw [hl.others e hne]
      exact h.entry
    · have hrd : d.rd p.2 = c.rd p.2 := by rw [Core.rd, Core.rd, h.regs]
      rw [← h.others p.1 (hne p hp), ← hrd]
      exact hl.entries p hp
  others := fun e' he => (hl.others e' (fun p hp => he p (List.mem_cons_of_mem _ hp))).trans
    (h.others e' (fun heq => he (e, a) List.mem_cons_self heq.symm))

/-- The insertion of one of a fork's streams. -/
def State.forkOne (k : Nat) (s : State) (p : Eng × Reg) : State :=
  s.insertOwn p.1 { s.entryOf (.stream (streamRow (s.core.rd p.2)) 0 0 0 0 0) with fork := some k }

/-- The streams of a fork enter different queues, each with room. -/
theorem State.forkAll_spec (k : Nat) (l : List (Eng × Reg)) (s : State) (hd : (l.map Prod.fst).Nodup)
    (hr : ∀ p ∈ l, (s.core.queue p.1).spill = [] ∧ (s.core.queue p.1).hwSlots ≤ 30) :
    l.foldl (State.forkOne k) s = { s with cores := (l.foldl (State.forkOne k) s).cores,
                                           graphs := (l.foldl (State.forkOne k) s).graphs }
      ∧ s.core.ForkedAll k l (l.foldl (State.forkOne k) s).core := by
  induction l generalizing s with
  | nil => exact ⟨rfl, .refl k s.core⟩
  | cons p l ih =>
    obtain ⟨e, a⟩ := p
    obtain ⟨hnew, hd⟩ := List.nodup_cons.mp hd
    have hne : ∀ p ∈ l, p.1 ≠ e := fun p hp he => hnew (List.mem_map.mpr ⟨p, hp, he⟩)
    obtain ⟨hs, hh⟩ := hr (e, a) List.mem_cons_self
    obtain ⟨t, ht, hframe, hforked⟩ := s.insertOwn_stream k a hs hh
    have hstep : s.forkOne k (e, a) = t := ht
    obtain ⟨hrest, hall⟩ := ih t hd fun p hp => by
      rw [hforked.others p.1 (hne p hp)]
      exact hr p (List.mem_cons_of_mem _ hp)
    rw [List.foldl_cons, hstep]
    refine ⟨?_, hforked.cons hall hne⟩
    rw [hrest, hframe]

/-- The core with fork k open in some engines. -/
def Core.openFork (c : Core) (k : Nat) (l : List Eng) : Core := { c with forks := SMap.set {} c.forks k { pending := l } }

theorem Core.queue_openFork (c : Core) (k : Nat) (l : List Eng) (e : Eng) : (c.openFork k l).queue e = c.queue e := by
  cases e <;> rfl

/-- A fork of an id that is free, once the stores are out and with room in every queue (R107). -/
theorem execFork_enters {s : State} {k : BitVec 3} {a b c : Reg} {named : List (Eng × Reg)}
    (hn : [(Eng.v, a), (Eng.m, b), (Eng.c, c)].filter (fun p => p.2 != 0) = named)
    (hfree : (SMap.get {} s.core.forks k.toNat).pending = []) (hsq : s.core.sq = [])
    (hr : ∀ p ∈ named, (s.core.queue p.1).spill = [] ∧ (s.core.queue p.1).hwSlots ≤ 30) :
    execFork k a b c s = (named.foldl (State.forkOne k.toNat) (s.upd
      (fun c => c.openFork k.toNat (named.map (fun p => p.1))))).done 4 := by
  have hroom : ∀ p ∈ named, ((s.core.queue p.1).spill.isEmpty && decide ((s.core.queue p.1).hwSlots + 2 ≤ 32)) = true := by
    intro p hp
    obtain ⟨hs, hh⟩ := hr p hp
    rw [hs, decide_eq_true (by omega)]
    rfl
  have hfind : named.find? (fun x => !s.canAccept s.ctx s.cur x.1 2) = none := by
    refine List.find?_eq_none.mpr fun p hp hno => ?_
    have hyes : s.canAccept s.ctx s.cur p.1 2 = true := by
      rw [State.canAccept]
      exact Bool.or_eq_true_iff.mpr (.inl (hroom p hp))
    rw [hyes] at hno
    exact Bool.false_ne_true hno
  have hneed : named.filter (fun x => !((s.core.queue x.1).spill.isEmpty && decide ((s.core.queue x.1).hwSlots + 2 ≤ 32))) = [] :=
    List.filter_eq_nil_iff.mpr fun p hp => by rw [hroom p hp]; exact Bool.false_ne_true
  simp only [execFork, hn, hfree, storesDone_of_empty (scope := 0) hsq (by omega), hfind, hneed, List.isEmpty_nil, Bool.not_true,
    Bool.false_eq_true, if_false, List.length_nil, ne_eq, not_true_eq_false, false_and]
  rfl

end Sys2Proof.Machine

namespace Sys2Proof.Claims
open Sys2Proof.Machine

/-- Settles O24: the streams enter one after the other, each into a queue of its own. -/
theorem forks : Obligations.Forks := by
  intro s k a b c named hfree hsq hr
  have hexec := execFork_enters (k := k) (named := named) rfl hfree hsq hr
  obtain ⟨u, hu⟩ : ∃ u, s.upd (fun c => c.openFork k.toNat (named.map (fun p => p.1))) = u := ⟨_, rfl⟩
  have hcore : u.core = s.core.openFork k.toNat (named.map (fun p => p.1)) := by rw [← hu, State.core_upd]
  have hqueue : ∀ e, u.core.queue e = s.core.queue e := fun e => by rw [hcore, Core.queue_openFork]
  have hrd : ∀ r, u.core.rd r = s.core.rd r := fun r => by rw [hcore]; rfl
  have hdistinct : (named.map Prod.fst).Nodup :=
    List.Nodup.sublist (List.filter_sublist.map Prod.fst) (by simp)
  obtain ⟨hframe, hall⟩ := State.forkAll_spec k.toNat named u hdistinct fun p hp => by
    rw [hqueue]
    exact hr p hp
  rw [hu] at hexec
  obtain ⟨t, ht⟩ : ∃ t, named.foldl (State.forkOne k.toNat) u = t := ⟨_, rfl⟩
  rw [ht] at hexec hframe hall
  have hframe' : t = { s with cores := t.cores, graphs := t.graphs } := by rw [hframe, ← hu]; rfl
  have hmoved := State.core_upd t (fun c => c.advancePc 4)
  refine ⟨_, hexec, ?_, ?_, fun p hp => ?_, fun e he => ?_, fun r => ?_, ?_, ?_⟩
  · rw [hmoved, Core.advancePc, hall.pc, hcore]
    rfl
  · rw [hmoved, show (t.core.advancePc 4).forks = _ from hall.forks, hcore]
    exact congrArg ForkMark.pending (SMap.get_set_same _ _ _ _)
  · obtain ⟨y, hy⟩ := hall.entries p hp
    rw [hqueue, hrd] at hy
    rw [hmoved, Core.queue_advancePc]
    exact ⟨y, hy⟩
  · rw [hmoved, Core.queue_advancePc, hall.others e he, hqueue]
  · rw [hmoved, Core.rd_advancePc, ← hrd, Core.rd, hall.regs]
    rfl
  · rw [hframe']
    rfl
  · refine .of_eq ?_ ?_ ?_ <;> rw [hframe'] <;> rfl

end Sys2Proof.Claims

namespace Sys2Proof.Machine
open Sys2Proof.Claims

/-! ## What a log record leaves of the host interface (R330, R396) -/

theorem touchLeaves_host (wr : Bool) (s : State) (l : List Nat) : (touchLeaves wr s l).host = s.host :=
  List.foldlRecOn (motive := fun t : State => t.host = s.host) l (touchLeaf wr) rfl fun t ht pa _ => by
    obtain ⟨m, mp, w, wp, hput⟩ := t.putPhys_frame pa 8
      (let e := t.word64 pa
       let e' := if wr then (if bits e 11 10 < 3 then e + 1024 else e) else (if bits e 9 8 < 3 then e + 256 else e)
       if wr && !pteD e' then e' + 64 else e')
    rw [show touchLeaf wr t pa = _ from hput]
    exact ht

theorem State.translate_host (s : State) (unit ctx a : Nat) (wr : Bool) : (s.translate unit ctx a wr).1.host = s.host := by
  unfold State.translate
  split
  · rfl
  · unfold State.walkFill
    extract_lets r s1 x
    have h : s1.host = s.host := touchLeaves_host wr s r.leaves
    split <;> exact h

theorem State.logSlot_host (s : State) (ctx v : Nat) : (s.logSlot ctx v).host = s.host := by
  unfold State.logSlot
  extract_lets va x0 s1
  split
  · next a _ =>
    have h := s1.translate_host 8 ctx a true
    split
    next s2 x heq =>
    rw [heq] at h
    split
    · obtain ⟨m, mp, w, wp, hput⟩ := s2.putPhys_frame (framePA x.frame a) 32 v
      rw [hput]
      exact h
    · exact h
  · rfl

/-- A log record is one event (R330). -/
theorem State.logRecord_evNext (s : State) (ctx kind sub detail lcore eng launch taskn : Nat) (conts : List Nat) :
    (s.logRecord ctx kind sub detail lcore eng launch taskn conts).host.evNext = s.host.evNext + 1 := by
  unfold State.logRecord
  extract_lets s1 s2
  have h1 : s1.host = s.host := s.logSlot_host ctx _
  have h2 : s2.host = s1.host := List.foldlRecOn (motive := fun t : State => t.host = s1.host) conts _ rfl
    fun t ht v _ => (t.logSlot_host ctx v).trans ht
  obtain ⟨m, mp, w, wp, h, hev, hn⟩ := s2.event_frame 3 ctx (Config.eventArg 3).toNat (Config.eventVector 3)
  rw [hev, ← h1, ← h2]
  exact hn

/-! ## A shootdown that logs a malformed entry (R316, R319) -/

/-- A copy command to the page of address 0: a kind 1 destination walk declares the whole tensor. -/
def pageZeroCopy : CopyCmd := { tag := { eng := .c, seq := 0 }, word := 0, entry := {}, walkD := 1#4 ++ 0#252 }

/-- A package whose host asks for a shootdown of page 0 of context 0, of which core 0 has a copy command at work; the
context's stage 1 table lies at 0, and its first entry has V = 1 and reserved bits [2:1]. -/
def malformedShoot : State := { State.reset with
  mem := [(0, 3)]
  cores := [(0, { copies := [pageZeroCopy] })]
  host := { cmd := 1, arg1 := 1, busy := true, ctxTable := [(0, 6#448 ++ 1#64)] } }

theorem malformedShoot_command : Command malformedShoot 1 := ⟨rfl, rfl, rfl, by decide +kernel⟩

/-- The page that the command names. -/
def pageZero : PageRange := { lo := 0, hi := 1 }

theorem malformedShoot_turn : exec .shoot malformedShoot = .next { malformedShoot.shootdown 0 pageZero false with
    host := { (malformedShoot.shootdown 0 pageZero false).host with at_ := 1 } } := by
  have hok : (malformedShoot.host.busy && malformedShoot.host.result.isNone && malformedShoot.cmdOp == 1
      && malformedShoot.cmdCtxOk) = true := by decide +kernel
  have hctx : malformedShoot.cmdCtx = 0 := by decide +kernel
  have hrange : rangeOf malformedShoot.host.arg0 malformedShoot.host.arg1.toNat = pageZero := by decide +kernel
  have hrearm : malformedShoot.host.arg2.getLsbD 0 = false := by decide +kernel
  show execShoot malformedShoot = _
  rw [execShoot, State.command, if_pos hok, hctx, hrange, hrearm, State.shootOut, 
    if_pos (show malformedShoot.host.at_ ≤ 0 from Nat.le_refl 0)]

/-- The state in which the copy command of core 0 is marked dirty again. -/
def malformedMark : State := { malformedShoot with
  cores := [(0, { ({ copies := [pageZeroCopy] } : Core).mapHandles (malformedShoot.shootHandle pageZero false) with lq := [] })] }

theorem malformedMark_declared : malformedMark.declared pageZeroCopy = some (0x3FF * 2 ^ 47, 0x3FF * 2 ^ 47) := by
  decide +kernel

/-- A destination of one page marks that page. -/
theorem State.markDirty_one {s : State} {x : CopyCmd} {lo : Nat} (hd : s.declared x = some (lo, lo)) :
    s.markDirty x = (s.resolve s.ctx s.cur (.va ((lo / 65536 + 0) * 65536)) true).1 := by
  rw [State.markDirty, hd]
  simp only [Nat.add_sub_cancel_left, List.range_one, List.foldl_cons, List.foldl_nil]

/-- The mark of page 0 finds the malformed entry and logs it. -/
theorem malformedMark_markDirty : malformedMark.markDirty pageZeroCopy = malformedMark.logMalformed 0 0 (some (1, 1, 0)) := by
  have hpage : malformedMark.whereIs ((0x3FF * 2 ^ 47 / 65536 + 0) * 65536) = .here 0 := by decide +kernel
  have hwalk : walkBoth malformedMark 0 0 = { st := .absent, bad := some (1, 1, 0) } := by decide +kernel
  have hfill : malformedMark.translate 0 0 0 true = (malformedMark, { st := .absent, bad := some (1, 1, 0) }) := by
    show malformedMark.walkFill 0 0 0 true = _
    rw [State.walkFill, hwalk]
    rfl
  have hresolve : (malformedMark.resolve 0 0 (.va ((0x3FF * 2 ^ 47 / 65536 + 0) * 65536)) true).1
      = malformedMark.logMalformed 0 0 (some (1, 1, 0)) := by
    simp only [State.resolve, hpage]
    rw [show (malformedMark.translate (if 256 ≤ 0 then 8 else dieOf 0) 0 0 true) = _ from hfill]
  exact (State.markDirty_one malformedMark_declared).trans hresolve

theorem State.actor_eta {s : State} {a b : Nat} (ha : s.ctx = a) (hb : s.cur = b) : ({ s with ctx := a, cur := b } : State) = s := by
  subst ha hb
  rfl

/-- A context of one core with one copy command whose destination meets the range. -/
theorem State.redirty_one {s : State} {c : Core} {x : CopyCmd} {lo hi : Nat} {r : PageRange} (hcores : s.cores = [(0, c)])
    (hcopies : c.copies = [x]) (hact : c.qc.act = none) (hctx : s.ctx = 0) (hcur : s.cur = 0)
    (hd : s.declared x = some (lo, hi)) (hr : bits lo 46 0 / 65536 < r.hi ∧ r.lo ≤ bits hi 46 0 / 65536) :
    s.redirty 0 r = { s.markDirty x with ctx := 0, cur := 0 } := by
  have hself : ({ s with ctx := 0, cur := 0 % 512 } : State) = s := State.actor_eta hctx hcur
  rw [State.redirty, hcores]
  simp only [List.foldl_cons, List.foldl_nil, Nat.zero_div, ne_eq, not_true_eq_false, if_false, hcopies, hact, hself, hd,
    if_pos hr, List.append_nil, hctx, hcur]

theorem malformedShoot_shootdown : malformedShoot.shootdown 0 pageZero false = { malformedMark.markDirty pageZeroCopy with
    ctx := 0, cur := 0 } :=
  State.redirty_one (s := malformedMark) rfl rfl rfl rfl rfl malformedMark_declared (by decide +kernel)

end Sys2Proof.Machine

namespace Sys2Proof.Claims
open Sys2Proof.Machine

/-- Refutes O50: a shootdown marks the declared destinations of copy commands dirty (R319), and a mark that meets a
malformed translation entry logs it (R316), which is an event more (R330): of the host's fields not only the progress
changes. -/
theorem not_hostCommands : ¬ Obligations.HostCommands := by
  intro h
  obtain ⟨t, ht, hhost, -⟩ := (h malformedShoot 0 0 0 0 default false).1 malformedShoot_command rfl
  rw [malformedShoot_turn, malformedShoot_shootdown, malformedMark_markDirty] at ht
  have hevents := congrArg HostIf.evNext hhost
  rw [← Host.Outcome.next.inj ht] at hevents
  have hlogged := malformedMark.logRecord_evNext 0 0x07 ((if 1 = 2 then 4 else 0) + (1 - 1)) (0 % 2 ^ 64 * 2 ^ 32)
    (if 256 ≤ 0 then 0xFF else 0) 3 0 0 []
  exact absurd (hlogged.symm.trans hevents) (by decide)

end Sys2Proof.Claims

namespace Sys2Proof.Machine
open Sys2Proof.Claims

/-! ## The entry into a handler, of any cause (R113) -/

/-- The core at the first instruction of its handler, the frame of the trap saved. -/
def Core.atHandler (c : Core) (code : BitVec 8) (async : Bool) (value resume : Word) : Core :=
  { c with
    xpc := resume, xcause := (if async then 1#1 else 0#1) ++ code, xval := value, inh := true,
    flt := c.flt || !causeHarmless code value, pc := c.xhand, waiting := none }

/-- With a handler in force and no exception at work every cause enters the handler; beside the core only the recorder can
differ. -/
theorem State.takeTrap_enters (s : State) (code : BitVec 8) (async : Bool) (value resume : Word) (hi : s.core.inh = false)
    (hh : s.core.xhand ≠ 0) :
    CoreRecorded s (s.takeTrap code async value resume) (s.core.atHandler code async value resume) := by
  obtain ⟨g, hg⟩ := s.noteLive_eq
  have ht : s.takeTrap code async value resume
      = ({ s with graphs := g } : State).upd (fun c => c.atHandler code async value resume) := by
    simp only [State.takeTrap, hi, hh, hg, and_false, Bool.false_eq_true, or_self, if_false]
    rfl
  rw [ht]
  exact .upd s g _

/-! ## A trap that no handler takes (R120) -/

theorem State.logTrap_sameCores (s : State) (code : BitVec 8) (value xpc : Nat) : s.SameCores (s.logTrap code value xpc) :=
  s.logRecord_sameCores _ _ _ _ _ _ _ _ _

theorem State.logTrap_scene (s : State) (code : BitVec 8) (value xpc : Nat) : s.SameScene (s.logTrap code value xpc) :=
  s.logRecord_scene _ _ _ _ _ _ _ _ _

/-- The trap is logged, and the core waits for the fence of the end of its task: the log changes no core and no launch. -/
theorem State.takeTrap_unhandled {s : State} {code : BitVec 8} (async : Bool) (value resume : Word)
    (h : s.core.inh = true ∨ s.core.xhand = 0) (hc : code ≠ cEngineFault) :
    ∃ u, s.SameCores u ∧ s.SameScene u
      ∧ s.takeTrap code async value resume = (u.upd (fun c => { c with waiting := some .exit })).leaveTask := by
  obtain ⟨g, hg⟩ := s.noteLive_eq
  have hcores : s.SameCores s.noteLive := by rw [hg]; exact ⟨rfl, rfl, rfl⟩
  have hscene : s.SameScene s.noteLive := by rw [hg]; exact ⟨rfl, rfl, rfl, rfl⟩
  refine ⟨s.noteLive.logTrap code value.toNat resume.toNat, hcores.trans (State.logTrap_sameCores _ _ _ _),
    hscene.trans (State.logTrap_scene _ _ _ _), ?_⟩
  rw [State.takeTrap, if_neg (fun hx => hc hx.1), if_pos h]
  rfl

/-- While accesses stand in the queues the task stays (R93, R119). -/
theorem State.leaveTask_waits {s : State} (h : s.core.lq ≠ [] ∨ s.core.sq ≠ []) : s.leaveTask = s := by
  refine if_neg fun hf => ?_
  obtain ⟨hl, hs⟩ := (Bool.and_eq_true ..).mp hf
  exact h.elim (fun hne => hne (List.isEmpty_iff.mp hl)) (fun hne => hne (List.isEmpty_iff.mp hs))

theorem State.leaveTask_leaves {s : State} (hl : s.core.lq = []) (hs : s.core.sq = []) :
    s.leaveTask = s.exitTask true s.core.pc.toNat := by
  refine if_pos ?_
  rw [State.exitFence, hl, hs]
  rfl

/-- Queue e is released at the end of a task, its fault logged when no task has seen it: a step of `releaseAll`. -/
def State.releaseLogged (xpc : Nat) (s : State) (e : Eng) : State :=
  match (s.core.queue e).stopped with
  | none => s
  | some f => (if f.told then s else s.logEngineFault e f xpc).releaseQueue e

theorem State.releaseAll_eq (s : State) (xpc : Nat) :
    s.releaseAll xpc = [Eng.v, Eng.m, Eng.c].foldl (State.releaseLogged xpc) s := rfl

theorem State.releaseQueue_scene (s : State) (e : Eng) : s.SameScene (s.releaseQueue e) := by
  unfold State.releaseQueue
  extract_lets q
  split
  · exact .refl s
  · next f _ =>
    extract_lets q1 s1
    split
    · obtain ⟨cl, rs, n, h⟩ := s1.releaseClaims_frame s.cur f.seq
      rw [h]
      exact ⟨rfl, rfl, rfl, rfl⟩
    · exact s.upd_scene _

theorem State.releaseLogged_scene (xpc : Nat) (s : State) (e : Eng) : s.SameScene (s.releaseLogged xpc e) := by
  unfold State.releaseLogged
  split
  · exact .refl s
  · refine State.SameScene.trans ?_ (State.releaseQueue_scene _ e)
    split
    · exact .refl s
    · exact s.logRecord_scene _ _ _ _ _ _ _ _ _

theorem State.releaseLogged_stopped (xpc : Nat) (s : State) (e g : Eng) :
    ((s.releaseLogged xpc e).core.queue g).stopped = if g = e then none else (s.core.queue g).stopped := by
  unfold State.releaseLogged
  split
  · next h =>
    split
    · next hg => rw [hg, h]
    · rfl
  · next f _ =>
    have hlog : s.SameCores (if f.told then s else s.logEngineFault e f xpc) := by
      split
      · exact .refl s
      · exact s.logEngineFault_sameCores e f xpc
    rw [(State.releaseQueue_releases _ e).stopped g, hlog.core]
    simp only [beq_iff_eq]

/-- At the end of a task every queue runs again (R119). -/
theorem State.releaseAll_stopped (s : State) (xpc : Nat) (e : Eng) : ((s.releaseAll xpc).core.queue e).stopped = none := by
  simp only [State.releaseAll_eq, List.foldl_cons, List.foldl_nil, State.releaseLogged_stopped]
  cases e <;> rfl

theorem State.releaseAll_scene (s : State) (xpc : Nat) : s.SameScene (s.releaseAll xpc) :=
  .foldl (fun t e => t.releaseLogged_scene xpc e) _ s

theorem State.leaveClaims_scene (s : State) (ctx n : Nat) : s.SameScene (s.leaveClaims ctx n) := ⟨rfl, rfl, rfl, rfl⟩

theorem State.SameScene.launchAt {s t : State} (h : s.SameScene t) (i : Nat) : t.launchAt i = s.launchAt i := by
  rw [State.launchAt, h.launches]
  rfl

/-- A task that is marked faulted is faulted, whatever its status was (R14). -/
theorem State.markTask_faulted {s : State} {i : Nat} {x : Launch} (h : s.launchAt i = some x) (l : Nat) :
    ∃ y, (s.markTask i l 2).launchAt i = some y ∧ SMap.get 0 y.status l = 2 ∧ y.exited = x.exited := by
  rw [State.markTask, State.launchAt_updLaunch h, if_pos rfl]
  refine ⟨_, rfl, ?_⟩
  split
  · next hs => exact ⟨hs, rfl⟩
  · exact ⟨SMap.get_set_same 0 x.status l 2, rfl⟩

/-- A task that ends faulted leaves no trap and no stopped queue, and its index waits to retire (R14, R119, R120). -/
theorem State.exitTask_faulted (s : State) (pc : Nat) {l : Nat} {x : Launch} {k : Task} (hl : s.core.launch = some l)
    (hx : s.launchAt l = some x) (hk : s.core.task = some k) :
    let t := s.exitTask true pc
    t.core.task = none ∧ t.core.held = [] ∧ t.core.waiting = none ∧ (∀ e, (t.core.queue e).stopped = none)
      ∧ ∃ y, t.launchAt l = some y ∧ SMap.get 0 y.status k.l = 2 ∧ (k.l, s.cur) ∈ y.exited := by
  unfold State.exitTask
  extract_lets c bad s1 s2 s3 t
  have ht : t = (s3.updLaunch l (fun y => { y with exited := y.exited ++ [(k.l, s.cur)] })).markTask l k.l 2 := by
    simp only [t, show c.launch = some l from hl, show c.task = some k from hk, show bad = true from rfl, if_true]
  have hs1 : s.SameScene s1 := .foldl (fun t (h : HeldTrap) => t.logTrap_scene h.code h.value.toNat pc) c.held s
  have hs2 : s.SameScene s2 := hs1.trans (s1.releaseAll_scene pc)
  have hstopped : ∀ e, (s2.core.queue e).stopped = none := s1.releaseAll_stopped pc
  clear_value s2
  have hs3 : s.SameScene s3 := (hs2.trans (s2.leaveClaims_scene s.ctx s.cur)).trans (State.upd_scene _ _)
  have hx3 : s3.launchAt l = some x := (hs3.launchAt l).trans hx
  have hx4 := (State.launchAt_updLaunch hx3 (fun y => { y with exited := y.exited ++ [(k.l, s.cur)] }) l).trans (if_pos rfl)
  obtain ⟨y, hy, hstatus, hexited⟩ := State.markTask_faulted hx4 k.l
  have hcore : t.core = s3.core := by rw [ht, State.markTask, State.updLaunch_core, State.updLaunch_core]
  rw [hcore, show s3.core = _ from State.core_upd _ _]
  refine ⟨rfl, rfl, rfl, fun e => ?_, y, ht ▸ hy, hstatus, ?_⟩
  · rw [← hstopped e]
    cases e <;> rfl
  · rw [hexited]
    exact List.mem_append_right _ (List.mem_singleton.mpr rfl)

end Sys2Proof.Machine

namespace Sys2Proof.Claims
open Sys2Proof.Machine

theorem trapEntryFrame : TrapEntryFrame := by
  intro s code async value resume hi hh t
  obtain ⟨hcore, hframe, hbytes, -⟩ := s.takeTrap_enters code async value resume hi hh
  rw [show t.core = _ from hcore]
  exact ⟨rfl, rfl, rfl, rfl, rfl, rfl, rfl, fun _ => rfl, rfl, hframe, hbytes⟩

theorem trapBrkErtn : TrapBrkErtn := by
  intro s k
  refine ⟨fun hi hh => ⟨?_, ?_, ?_⟩, fun hi => ?_⟩
  · exact ⟨_, rfl, s.takeTrap_handled _ _ hi hh (by decide)⟩
  · exact ⟨_, rfl, s.takeTrap_handled _ _ hi hh (by decide)⟩
  · obtain ⟨t, ht, htrap⟩ := s.illegal_takesTrap .ertn hi hh
    have hout : exec .ertn s = s.illegal .ertn := if_neg (by rw [hi]; exact Bool.false_ne_true)
    exact ⟨t, hout.trans ht, htrap⟩
  · exact ⟨s.returnTrap, if_pos hi, .upd s _, State.core_upd s _⟩

theorem unhandledTrapEndsTask : UnhandledTrapEndsTask := by
  intro s code value resume l x tk h hc hl hx hk t
  obtain ⟨u, hcores, hscene, ht⟩ := State.takeTrap_unhandled false value resume h hc
  have hcore : (u.upd (fun c => { c with waiting := some .exit })).core = { s.core with waiting := some .exit } := by
    rw [State.core_upd, hcores.core]
  have hlaunch : u.launchAt l = some x := (hscene.launchAt l).trans hx
  rw [show t = _ from ht]
  generalize hv : u.upd (fun c => { c with waiting := some .exit }) = v at hcore
  refine ⟨fun hlq hsq => ?_, fun hbusy => ?_⟩
  · have hcur : v.cur = s.cur := by rw [← hv]; exact hcores.cur
    rw [State.leaveTask_leaves (by rw [hcore]; exact hlq) (by rw [hcore]; exact hsq), ← hcur]
    exact v.exitTask_faulted _ (by rw [hcore]; exact hl) (by rw [← hv]; exact hlaunch) (by rw [hcore]; exact hk)
  · rw [State.leaveTask_waits (by rw [hcore]; exact hbusy), hcore]

/-- Settles O5: a handled trap enters by `State.takeTrap_enters`; another one ends its task, `State.exitTask_faulted`. -/
theorem trapEntry : Obligations.TrapEntry := ⟨trapBrkErtn, trapEntryFrame, unhandledTrapEndsTask⟩

end Sys2Proof.Claims

namespace Sys2Proof.Machine
open Sys2Proof.Claims

/-! ## Faults and traps that are delivered (R115, R129) -/

/-- ENGINE_FAULT of the entry at work stops its queue, when an engine can raise the cause (R114). -/
theorem execEngineFault_active {s : State} {e : Eng} {code : BitVec 8} {a : Active} (hs : Serves s)
    (ha : (s.core.queue e).act = some a) (hc : engineCauses.contains code = true) :
    ∃ left, exec (.engineFault s.cur e code) s
      = .next (({ s with eng := e } : State).engineFault e a.entry code { count := left, rep := a.rep }) := by
  show ∃ left, execEngineFault s.cur e code s = _
  simp only [execEngineFault, if_pos hc, State.actor_self hs, ha]
  exact ⟨_, rfl⟩

/-- TRAP_DELIVERY of a task that runs outside a handler and waits for nothing. -/
theorem execTrapDelivery_runs {s : State} (hs : Serves s) (hr : s.coreRuns = true) (hp : s.core.pend = true)
    (hi : s.core.inh = false) (hw : s.core.waiting = none) : exec (.trapDelivery s.cur) s = .next s.deliver := by
  show execTrapDelivery s.cur s = _
  simp [execTrapDelivery, State.actor_self hs, hr, hp, hi, hw]

/-- The core that has left its wait, the parameters of the last try forgotten. -/
def Core.afterWait (c : Core) : Core := { c with waiting := none, param := none }

/-- The core with a fault of queue e told to its task. -/
def Core.tell (c : Core) (e : Eng) (f : EngFault) : Core :=
  c.setQueue e { c.queue e with stopped := some { f with told := true } }

theorem State.leaveWait_idle {s : State} (hw : s.core.waiting = none) : s.leaveWait = s.upd Core.afterWait := by
  rw [State.leaveWait, hw]
  rfl

/-- The first held trap is taken, with the pc that it holds, and leaves the list (R115). -/
theorem State.deliver_held {s : State} {h : HeldTrap} {rest : List HeldTrap} (hi : s.core.inh = false)
    (hw : s.core.waiting = none) (hh : s.core.held = h :: rest) :
    s.deliver = ((s.upd Core.afterWait).upd (fun c => { c with held := rest })).takeTrap h.code h.pc.isNone h.value
      (h.pc.getD s.core.pc) := by
  have hheld : s.core.afterWait.held = h :: rest := hh
  have hstays : ¬(s.core.afterWait.inh = true ∨ s.core.waiting = some .exit) := by
    simp [hw, show s.core.afterWait.inh = false from hi]
  simp only [State.deliver, State.leaveWait_idle hw, State.core_upd, if_neg hstays, hheld]
  rfl

/-- With no held trap the first fault that no task has seen is taken; one of the running task's own is not logged (R115,
R117). -/
theorem State.deliver_untold {s : State} {e : Eng} {f : EngFault} {rest : List (Eng × EngFault)} (hi : s.core.inh = false)
    (hw : s.core.waiting = none) (hh : s.core.held = []) (hu : s.core.untold = (e, f) :: rest) (hf : f.prev = false) :
    s.deliver = ((s.upd Core.afterWait).upd (fun c => c.tell e f)).takeTrap cEngineFault true (faultValue e f) s.core.pc := by
  have hheld : s.core.afterWait.held = [] := hh
  have huntold : s.core.afterWait.untold = (e, f) :: rest := hu
  have hstays : ¬(s.core.afterWait.inh = true ∨ s.core.waiting = some .exit) := by
    simp [hw, show s.core.afterWait.inh = false from hi]
  have hown : ¬f.prev = true := by rw [hf]; exact Bool.false_ne_true
  simp only [State.deliver, State.leaveWait_idle hw, State.core_upd, if_neg hstays, hheld, huntold, if_neg hown]
  rfl

/-- An insertion that has waited too long sends its event, and traps where a handler can take it (R129). -/
theorem execQuotaStall_late {s u : State} {target since : Nat} {e : Eng} (hs : Serves s)
    (hw : s.core.waiting = some (.insertion target e since)) (hlate : since + 1000 * s.setting 0x823 < s.time)
    (hu : s.event 2 s.ctx (Config.eventArg 2).toNat (recPrvec (s.ctxRecord s.ctx)) = u) :
    exec (.quotaStall s.cur) s = if u.core.xhand = 0 ∨ u.core.inh = true
      then .next (u.upd (fun c => { c with waiting := some (.insertion target e s.time) }))
      else .next (u.preciseTrap cQuotaStall (BitVec.ofNat 64 (256 * target + engNum e))) := by
  show execQuotaStall s.cur s = _
  simp only [execQuotaStall, State.actor_self hs, hw, if_neg (Nat.not_le.mpr hlate), hu]

end Sys2Proof.Machine

namespace Sys2Proof.Claims
open Sys2Proof.Machine

/-- An engine's fault with a cause that engines raise stops its queue (R114, R115). -/
theorem engineFault_stopsQueue {s : State} {e : Eng} {code : BitVec 8} {a : Active} (hs : Serves s)
    (ha : (s.core.queue e).act = some a) (hq : (s.core.queue e).stopped = none)
    (hc : code ∈ [0x02, 0x07, 0x08, 0x09, 0x0A, 0x0B, 0x0C, 0x0D, 0x0F, 0x13, 0x14, 0x15, 0x18]) :
    ∃ t p, exec (.engineFault s.cur e code) s = .next t ∧ QueueStops s t e a.entry code p ∧ p.rep = a.rep := by
  obtain ⟨left, hexec⟩ := execEngineFault_active hs ha (List.contains_iff_mem.mpr hc)
  exact ⟨_, _, hexec, State.engineFault_stops { s with eng := e } e a.entry code _ hq, rfl⟩

/-- A trap that is taken once the acting core has become c. -/
theorem CoreBecomes.takeTrap {s u : State} {c : Core} (h : CoreBecomes s u c) (hi : c.inh = false) (hh : c.xhand ≠ 0)
    (code : BitVec 8) (async : Bool) (value resume : Word) :
    (u.takeTrap code async value resume).core = c.atHandler code async value resume
      ∧ SameBytes s (u.takeTrap code async value resume) := by
  obtain ⟨⟨-, hprepared, -⟩, rfl⟩ := h
  obtain ⟨hcore, -, hbytes, -⟩ := u.takeTrap_enters code async value resume hi hh
  exact ⟨hcore, hprepared.trans hbytes⟩

theorem heldTrap_delivered {s : State} {h : HeldTrap} {rest : List HeldTrap} (hs : Serves s) (hr : s.coreRuns = true)
    (hi : s.core.inh = false) (hx : s.core.xhand ≠ 0) (hh : s.core.held = h :: rest) (hw : s.core.waiting = none) :
    ∃ t, exec (.trapDelivery s.cur) s = .next t ∧ t.core.held = rest ∧ t.core.xpc = h.pc.getD s.core.pc
      ∧ t.core.xcause = (if h.pc = none then 1#1 else 0#1) ++ h.code ∧ t.core.xval = h.value ∧ t.core.inh = true
      ∧ t.core.pc = s.core.xhand ∧ (∀ r : Reg, t.core.rd r = s.core.rd r) ∧ SameBytes s t := by
  have hpend : s.core.pend = true := by rw [Core.pend, hh]; rfl
  obtain ⟨hcore, hbytes⟩ := (CoreBecomes.upd_upd s Core.afterWait (fun c => { c with held := rest })).takeTrap hi hx
    h.code h.pc.isNone h.value (h.pc.getD s.core.pc)
  refine ⟨_, (execTrapDelivery_runs hs hr hpend hi hw).trans (congrArg _ (State.deliver_held hi hw hh)), ?_⟩
  rw [hcore]
  refine ⟨rfl, rfl, ?_, rfl, rfl, rfl, fun _ => rfl, hbytes⟩
  cases hpc : h.pc <;> simp [Core.atHandler]

/-- `XVAL` of a fault of the vector engine, from the running task's own entry (R115). -/
theorem faultValue_own {f : EngFault} (hf : f.prev = false) :
    (faultValue .v f).toNat = f.seq % 2 ^ 32 * 2 ^ 32 + f.code.toNat * 2 ^ 16 := by
  have hcode := f.code.isLt
  have hseq : f.seq % 2 ^ 32 < 2 ^ 32 := Nat.mod_lt _ (by decide)
  simp only [faultValue, hf, Bool.false_eq_true, if_false, engNum, BitVec.toNat_ofNat]
  omega

theorem engineFault_delivered {s : State} {f : EngFault} (hs : Serves s) (hr : s.coreRuns = true) (hi : s.core.inh = false)
    (hx : s.core.xhand ≠ 0) (hh : s.core.held = []) (hw : s.core.waiting = none) (hq : s.core.qv.stopped = some f)
    (ht : f.told = false) (hf : f.prev = false) :
    ∃ t, exec (.trapDelivery s.cur) s = .next t ∧ t.core.qv.stopped = some { f with told := true }
      ∧ t.core.xpc = s.core.pc ∧ t.core.xcause = 1#1 ++ 0x17#8 ∧ t.core.inh = true ∧ t.core.pc = s.core.xhand
      ∧ t.core.xval.toNat = f.seq % 2 ^ 32 * 2 ^ 32 + f.code.toNat * 2 ^ 16
      ∧ (∀ r : Reg, t.core.rd r = s.core.rd r) ∧ SameBytes s t := by
  obtain ⟨rest, huntold⟩ : ∃ rest, s.core.untold = (Eng.v, f) :: rest := by
    rw [Core.untold, List.filterMap_cons_some (b := (Eng.v, f)) (by simp only [Core.queue, hq, ht, Bool.false_eq_true, if_false])]
    exact ⟨_, rfl⟩
  have hpend : s.core.pend = true := by rw [Core.pend, huntold, hh]; rfl
  obtain ⟨hcore, hbytes⟩ := (CoreBecomes.upd_upd s Core.afterWait (fun c => c.tell .v f)).takeTrap hi hx
    cEngineFault true (faultValue .v f) s.core.pc
  refine ⟨_, (execTrapDelivery_runs hs hr hpend hi hw).trans (congrArg _ (State.deliver_untold hi hw hh huntold hf)), ?_⟩
  rw [hcore]
  exact ⟨rfl, rfl, rfl, rfl, rfl, faultValue_own hf, fun _ => rfl, hbytes⟩

theorem lateInsertion_stalls {s : State} {target since : Nat} {e : Eng} (hs : Serves s)
    (hw : s.core.waiting = some (.insertion target e since)) (hlate : since + 1000 * s.setting 0x823 < s.time) :
    let u := s.event 2 s.ctx (Config.eventArg 2).toNat (recPrvec (s.ctxRecord s.ctx))
    (s.core.inh = false → s.core.xhand ≠ 0 → s.core.pend = false →
      ∃ t, exec (.quotaStall s.cur) s = .next t
        ∧ TakesTrap u t 0x0E (BitVec.ofNat 64 (256 * target + engNum e)) s.core.pc)
    ∧ (s.core.inh = true ∨ s.core.xhand = 0 →
      ∃ t, exec (.quotaStall s.cur) s = .next t
        ∧ CoreBecomes u t { s.core with waiting := some (.insertion target e s.time) }) := by
  intro u
  have hcore : u.core = s.core := (s.event_sameCores _ _ _ _).core
  have hexec := execQuotaStall_late (u := u) hs hw hlate rfl
  refine ⟨fun hi hx hp => ⟨_, hexec.trans ((if_neg ?_).trans (congrArg _ (if_neg ?_))), ?_⟩,
    fun hno => ⟨_, hexec.trans (if_pos ?_), ?_⟩⟩
  · rw [hcore, hi]
    exact fun h => h.elim hx Bool.false_ne_true
  · rw [hcore, hp]
    exact fun h => Bool.false_ne_true h.1
  · rw [hcore]
    exact u.takeTrap_handled _ _ (hcore ▸ hi) (hcore ▸ hx) (by decide)
  · rw [hcore]
    exact hno.symm
  · rw [← hcore]
    exact .upd u _

/-- Settles O29: a fault by `State.engineFault_stops`, a delivery by the trap that `State.deliver` takes, an insertion by
`execQuotaStall_late`. -/
theorem faultsAndDelivery : Obligations.FaultsAndDelivery := by
  intro s code a h rest target since e f hs
  exact ⟨engineFault_stopsQueue hs, heldTrap_delivered hs, engineFault_delivered hs, lateInsertion_stalls hs⟩

end Sys2Proof.Claims

namespace Sys2Proof.Machine
open Sys2Proof.Claims

/-! ## The work of a queue while cycles pass (R125, R130, R134) -/

/-- Two states of one entry at work between which only the wait of its word may have ended. -/
def Active.SameWork (a b : Active) : Prop := b = { a with waitFlag := b.waitFlag, taken := b.taken, fresh := b.fresh }

/-- Core d is core c some cycles on, for its queues: what is in flight stays, and so does an entry at work. -/
def Core.KeepsWork (c d : Core) : Prop :=
  ∀ e, (d.queue e).flight = (c.queue e).flight
    ∧ ∀ a, (c.queue e).act = some a → ∃ b, (d.queue e).act = some b ∧ a.SameWork b

theorem Active.SameWork.refl (a : Active) : a.SameWork a := rfl

theorem Active.SameWork.trans {a b c : Active} (h : a.SameWork b) (k : b.SameWork c) : a.SameWork c :=
  Eq.trans k (congrArg (fun x : Active => { x with waitFlag := c.waitFlag, taken := c.taken, fresh := c.fresh }) h)

theorem Core.KeepsWork.refl (c : Core) : c.KeepsWork c := fun _ => ⟨rfl, fun a h => ⟨a, h, .refl a⟩⟩

theorem Core.KeepsWork.trans {c d f : Core} (h : c.KeepsWork d) (k : d.KeepsWork f) : c.KeepsWork f := fun e => by
  obtain ⟨hflight, hact⟩ := h e
  obtain ⟨kflight, kact⟩ := k e
  refine ⟨kflight.trans hflight, fun a ha => ?_⟩
  obtain ⟨b, hb, hab⟩ := hact a ha
  obtain ⟨b', hb', hbb'⟩ := kact b hb
  exact ⟨b', hb', hab.trans hbb'⟩

theorem Core.KeepsWork.foldl {α : Type} {f : Core → α → Core} (h : ∀ (c : Core) (a : α), c.KeepsWork (f c a)) (l : List α)
    (c : Core) : c.KeepsWork (l.foldl f c) :=
  List.foldlRecOn (motive := c.KeepsWork) l f (.refl c) fun d hd a _ => hd.trans (h d a)

theorem Core.KeepsWork.of_queues {c d : Core} (h : ∀ e, d.queue e = c.queue e) : c.KeepsWork d := fun e => by
  rw [h e]
  exact Core.KeepsWork.refl c e

theorem Core.SameButFlags.keepsWork {c d : Core} (h : c.SameButFlags d) : c.KeepsWork d := .of_queues h.queue

/-- A queue that is replaced by one with the same work. -/
theorem Core.setQueue_keepsWork (c : Core) (e : Eng) {q : Queue} (hf : q.flight = (c.queue e).flight)
    (ha : ∀ a, (c.queue e).act = some a → ∃ b, q.act = some b ∧ a.SameWork b) : c.KeepsWork (c.setQueue e q) := fun k => by
  rw [Core.queue_setQueue]
  split
  · next hk =>
    subst hk
    exact ⟨hf, ha⟩
  · exact Core.KeepsWork.refl c k

theorem Core.SameButFlags.trans {c d e : Core} (h : c.SameButFlags d) (k : d.SameButFlags e) : c.SameButFlags e :=
  Eq.trans k (congrArg (fun x : Core => { x with flags := e.flags, latch := e.latch }) h)

theorem Core.SameButFlags.foldl {α : Type} {f : Core → α → Core} (h : ∀ (c : Core) (a : α), c.SameButFlags (f c a)) (l : List α)
    (c : Core) : c.SameButFlags (l.foldl f c) :=
  List.foldlRecOn (motive := c.SameButFlags) l f (.refl c) fun d hd a _ => hd.trans (h d a)

theorem Core.takeAll_sameButFlags {c d : Core} {fs : List Nat} (h : c.takeAll fs = some d) : c.SameButFlags d := by
  induction fs generalizing c with
  | nil =>
    obtain rfl := Option.some.inj h
    exact .refl c
  | cons f fs ih =>
    unfold Core.takeAll at h
    split at h
    · next u hu => exact (flagTake_sameButFlags hu).trans (ih h)
    · exact absurd h nofun

theorem Core.fireProduct_sameButFlags {c d : Core} {t p : Nat} (h : c.fireProduct t p = some d) : c.SameButFlags d := by
  unfold Core.fireProduct at h
  split at h
  · split at h
    · next u hu =>
      obtain rfl := Option.some.inj h
      exact (takeAll_sameButFlags hu).trans (u.setFlag_sameButFlags _ _)
    · exact absurd h nofun
  · exact absurd h nofun

/-- Rigging moves counts between flags only (R126). -/
theorem Core.rigCycle_sameButFlags (c : Core) : c.SameButFlags c.rigCycle := by
  unfold Core.rigCycle
  split
  · exact .refl c
  · refine .foldl (fun c t => ?_) _ c
    unfold Core.fireTerm
    extract_lets x
    split
    · next d hd => exact fireProduct_sameButFlags hd
    · split
      · next d hd => exact fireProduct_sameButFlags hd
      · exact .refl c

/-- A head begins only where nothing is at work (R122). -/
theorem Core.beginHead_keepsWork {c d : Core} {e : Eng} (h : c.beginHead e = some d) : c.KeepsWork d := by
  unfold Core.beginHead at h
  extract_lets q at h
  split at h
  · exact absurd h nofun
  · next x hx =>
    split at h
    · exact absurd h nofun
    · next u hu =>
      obtain rfl := Option.some.inj h
      have hsame := flagTake_sameButFlags hu
      refine hsame.keepsWork.trans (u.setQueue_keepsWork e rfl fun a ha => ?_)
      rw [hsame.queue] at ha
      rw [Queue.mayBegin, show q.act = some a from ha, Option.isSome_some, Bool.or_true, if_pos rfl] at hx
      exact absurd hx nofun

theorem Core.takeInside_keepsWork (c : Core) (e : Eng) : c.KeepsWork (c.takeInside e) := by
  unfold Core.takeInside
  split
  · exact .refl c
  · next a ha =>
    split
    · exact .refl c
    · split
      · exact .refl c
      · split
        · next u hu =>
          have hsame := flagTake_sameButFlags hu
          refine hsame.keepsWork.trans (u.setQueue_keepsWork e rfl fun b hb => ⟨_, rfl, ?_⟩)
          rw [hsame.queue, ha] at hb
          obtain rfl := Option.some.inj hb
          rfl
        · exact .refl c

theorem Core.takeOne_keepsWork (c : Core) (who : Nat) : c.KeepsWork (c.takeOne who) := by
  unfold Core.takeOne
  split
  · split
    · split
      · next u hu => exact (flagTake_sameButFlags hu).keepsWork.trans (.of_queues fun e => by cases e <;> rfl)
      · exact .refl c
    · exact .refl c
  · extract_lets e
    split
    · split
      · exact .refl c
      · cases hb : c.beginHead e with
        | none => exact .refl c
        | some d => exact beginHead_keepsWork hb
    · exact c.takeInside_keepsWork e

theorem Core.cycle_keepsWork (favoured : Nat) (c : Core) : c.KeepsWork (c.cycle favoured) :=
  (Core.KeepsWork.foldl Core.takeOne_keepsWork _ c).trans (Core.rigCycle_sameButFlags _).keepsWork

/-- A class counter leaves the work of its queue. -/
theorem Queue.count_work (q : Queue) (cls k : Nat) : (q.count cls k).flight = q.flight ∧ (q.count cls k).act = q.act := by
  unfold Queue.count
  split <;> exact ⟨rfl, rfl⟩

theorem Core.countWait_queue (c : Core) (f : Option Nat) (k : Nat) (e : Eng) : (c.countWait f k).queue e = c.queue e := by
  cases f <;> cases e <;> rfl

theorem Core.countCycles_keepsWork (c : Core) (issuing : Option Eng) (k : Nat) : c.KeepsWork (c.countCycles issuing k) := by
  unfold Core.countCycles
  extract_lets one d
  refine (Core.KeepsWork.foldl (fun d e => ?_) _ c).trans (.of_queues (d.countWait_queue _ k))
  refine (d.setQueue_keepsWork e (Queue.count_work _ _ k).1 fun a ha => ⟨a, ?_, .refl a⟩).trans (.of_queues (Core.countWait_queue _ _ k))
  rw [(Queue.count_work _ _ k).2, ha]

theorem Core.pass_keepsWork (favoured : Nat) (issuing : Option Eng) (k : Nat) (c : Core) :
    c.KeepsWork (c.pass favoured issuing k) := by
  induction k generalizing c with
  | zero => exact .refl c
  | succ k ih =>
    unfold Core.pass
    extract_lets d
    split
    · exact c.countCycles_keepsWork issuing (k + 1)
    · exact ((c.cycle_keepsWork favoured).trans (d.countCycles_keepsWork issuing 1)).trans (ih _)

/-- Cycles that pass leave in flight what is in flight, and an entry at work at its place. -/
theorem State.advance_keepsWork (s : State) (k : Nat) (i : Option (Nat × Eng)) (c n : Nat) :
    (s.coreAt c n).KeepsWork ((s.advance k i).coreAt c n) := by
  unfold State.advance
  split
  · exact .refl _
  · extract_lets num den t
    obtain ⟨g, hg⟩ := t.noteTakes_eq s.cores
    rw [hg]
    refine SMap.get_map_related Core.KeepsWork (.refl _) (fun x => ?_) (fun x => ?_) s.cores (coreKey c n)
    · split <;> rfl
    · split
      · show x.2.KeepsWork (if _ then _ else _)
        split
        · exact Core.pass_keepsWork _ _ _ _
        · exact Core.countCycles_keepsWork _ _ _
      · exact .refl _

end Sys2Proof.Machine

namespace Sys2Proof.Machine
open Sys2Proof.Claims

/-- The acting sequencer of t has the work of that of s: what is in flight, and the entry at work at its place. -/
structure State.KeepsWork (s t : State) : Prop where
  flight : t.q.flight = s.q.flight
  act : ∀ a, s.q.act = some a → ∃ b, t.q.act = some b ∧ a.SameWork b

theorem State.KeepsWork.refl (s : State) : s.KeepsWork s := ⟨rfl, fun a h => ⟨a, h, .refl a⟩⟩

theorem State.KeepsWork.trans {s t u : State} (h : s.KeepsWork t) (k : t.KeepsWork u) : s.KeepsWork u := by
  refine ⟨k.flight.trans h.flight, fun a ha => ?_⟩
  obtain ⟨b, hb, hab⟩ := h.act a ha
  obtain ⟨c, hc, hbc⟩ := k.act b hb
  exact ⟨c, hc, hab.trans hbc⟩

theorem State.setQ_keepsWork (s : State) {q : Queue} (hf : q.flight = s.q.flight) (ha : q.act = s.q.act) : s.KeepsWork (s.setQ q) := by
  refine ⟨?_, fun a h => ⟨a, ?_, .refl a⟩⟩
  · rw [State.q_setQ, hf]
  · rw [State.q_setQ, ha, h]

theorem State.advance_actor (s : State) (k : Nat) (i : Option (Nat × Eng)) :
    (s.advance k i).ctx = s.ctx ∧ (s.advance k i).cur = s.cur ∧ (s.advance k i).eng = s.eng := by
  rw [s.advance_frame k i]
  exact ⟨rfl, rfl, rfl⟩

theorem State.advance_work (s : State) (k : Nat) (i : Option (Nat × Eng)) : s.KeepsWork (s.advance k i) := by
  obtain ⟨hctx, hcur, heng⟩ := s.advance_actor k i
  have h := s.advance_keepsWork k i s.ctx s.cur s.eng
  have hq : (s.advance k i).q = ((s.advance k i).coreAt s.ctx s.cur).queue s.eng := by
    rw [State.q, State.core, hctx, hcur, heng]
  exact ⟨hq ▸ h.1, hq ▸ h.2⟩

theorem State.passTo_work (s : State) (t n last : Nat) : s.KeepsWork (s.passTo t n last) := by
  unfold State.passTo
  extract_lets s0 s1 s2 s3
  have h1 : s.KeepsWork s1 := (s.advance_work _ none).trans (s0.setQ_keepsWork rfl rfl)
  have h3 : s1.KeepsWork s3 := (s1.advance_work _ _).trans (s2.advance_work _ none)
  exact (h1.trans h3).trans (s3.setQ_keepsWork rfl rfl)


/-! ## The end of a word (R56, R122, R123, R130) -/

/-- An entry at work as its word ends, its effects landed by `land`. -/
def Active.wordEnded (a : Active) (land : Nat) : Active :=
  { a with rep := 0, count := 0, carry := 0, resid := 0, wrec := 0, caps := [], part := none, cmd := none, stuck := [],
           waitFlag := none, taken := false, fresh := false, land := max a.land land }

theorem Active.SameWork.wordEnded {a b : Active} (h : a.SameWork b) (land : Nat) : b.wordEnded land = a.wordEnded land := by
  rw [show b = _ from h]
  rfl

/-- In a stream the next position follows, and nothing goes in flight. -/
theorem State.endWord_stream (p : State) {row : Word} {slot : Nat} {p0 p1 p2 p3 : BitVec 32} (last sc land : Nat)
    (h : p.act.cur.body = .stream row slot p0 p1 p2 p3) : p.endWord last sc land =
      .next (p.setQ { p.q with readyAt := last + 1 + sc, act := some (p.act.wordEnded land).nextPos }) := by
  unfold State.endWord
  extract_lets q a
  rw [show a.cur.body = _ from h]
  rfl

theorem State.endWord_single (p : State) (last sc land : Nat) (h : ∀ row slot p0 p1 p2 p3, p.act.cur.body ≠ .stream row slot p0 p1 p2 p3) :
    p.endWord last sc land = .next (p.setQ { p.q.endEntry (p.act.wordEnded land) with readyAt := last + 1 + sc }) := by
  unfold State.endWord
  extract_lets q a
  split
  · next hb => exact absurd hb (h _ _ _ _ _ _)
  · rfl

theorem Active.nextPos_eq (a : Active) : a.nextPos =
    { a with
      row := if 20 ≤ a.slot then a.row + 128 else a.row
      slot := if 20 ≤ a.slot then 0 else a.slot + 1
      held := if 20 ≤ a.slot then none else a.held } := by
  unfold Active.nextPos
  split <;> rfl

/-- Only the entry at work and what is in flight change as an entry ends. -/
theorem Queue.endEntry_eq (q : Queue) (a : Active) :
    q.endEntry a = { q with act := (q.endEntry a).act, flight := (q.endEntry a).flight } := by
  unfold Queue.endEntry
  split
  · rfl
  · extract_lets f
    split <;> rfl

theorem Active.SameWork.fields {a b : Active} (h : a.SameWork b) :
    b.entry = a.entry ∧ b.cur = a.cur ∧ b.rep = a.rep ∧ b.land = a.land := by
  rw [show b = _ from h]
  exact ⟨rfl, rfl, rfl, rfl⟩

/-- The entry at work, some cycles on. -/
theorem State.KeepsWork.atWork {u p : State} (h : u.KeepsWork p) {a : Active} (ha : u.q.act = some a) :
    p.q.act = some p.act ∧ a.SameWork p.act := by
  obtain ⟨b, hb, hab⟩ := h.act a ha
  rw [State.act_of_q hb]
  exact ⟨hb, hab⟩

end Sys2Proof.Machine

namespace Sys2Proof.Claims
open Sys2Proof.Machine

theorem goesOn_stream {u p : State} {row : Word} {slot : Nat} {p0 p1 p2 p3 : BitVec 32} (h : u.KeepsWork p) (last sc land : Nat)
    (hb : p.act.cur.body = .stream row slot p0 p1 p2 p3) :
    GoesOn u p (p.setQ { p.q with readyAt := last + 1 + sc, act := some (p.act.wordEnded land).nextPos }) last sc land := by
  refine ⟨by rw [State.q_setQ], by rw [State.q_setQ], fun a ha => ⟨fun _ => ?_, fun w hw => ?_⟩⟩
  · obtain ⟨-, hsame⟩ := h.atWork ha
    rw [State.q_setQ, hsame.wordEnded, Active.nextPos_eq]
    exact ⟨h.flight, _, rfl, rfl, rfl, rfl, rfl, rfl, rfl, rfl⟩
  · obtain ⟨-, hcur, -, -⟩ := (h.atWork ha).2.fields
    rw [hcur, hw] at hb
    exact absurd hb nofun

theorem goesOn_single {u p : State} (h : u.KeepsWork p) (last sc land : Nat)
    (hb : ∀ row slot p0 p1 p2 p3, p.act.cur.body ≠ .stream row slot p0 p1 p2 p3) :
    GoesOn u p (p.setQ { p.q.endEntry (p.act.wordEnded land) with readyAt := last + 1 + sc }) last sc land := by
  refine ⟨by rw [State.q_setQ], ?_, fun a ha => ?_⟩
  · rw [State.q_setQ]
    exact congrArg (fun q : Queue => { q with readyAt := last + 1 + sc }) (p.q.endEntry_eq _)
  obtain ⟨-, hsame⟩ := h.atWork ha
  obtain ⟨-, hcur, -, -⟩ := hsame.fields
  rw [State.q_setQ, hsame.wordEnded, ← h.flight]
  refine ⟨fun ⟨row, slot, p0, p1, p2, p3, hs⟩ => absurd (hcur ▸ hs) (hb row slot p0 p1 p2 p3),
    fun w _ => ⟨fun hi => ?_, fun hi => ?_, fun x rest hi => ?_⟩⟩
  · have hend := p.q.endEntry_single (a := a.wordEnded land) hi
    exact ⟨congrArg Queue.act hend, congrArg Queue.flight hend⟩
  · rw [Queue.endEntry, show (a.wordEnded land).inner = _ from hi]
    exact ⟨rfl, rfl⟩
  · obtain ⟨-, hcur, hrep, -, -, hbegun⟩ := Active.start_spec x
    rw [Queue.endEntry, show (a.wordEnded land).inner = _ from hi]
    exact ⟨rfl, _, rfl, rfl, hcur, rfl, rfl, hbegun, hrep, rfl⟩

/-- A word whose cycles have passed ends as R130 says, for the entry that was at work before them. -/
theorem endWord_goesOn {u p : State} (h : u.KeepsWork p) (last sc land : Nat) :
    ∃ t, p.endWord last sc land = .next t ∧ GoesOn u p t last sc land := by
  by_cases hs : ∃ row slot p0 p1 p2 p3, p.act.cur.body = .stream row slot p0 p1 p2 p3
  · obtain ⟨row, slot, p0, p1, p2, p3, hb⟩ := hs
    exact ⟨_, p.endWord_stream last sc land hb, goesOn_stream h last sc land hb⟩
  · have hb : ∀ row slot p0 p1 p2 p3, p.act.cur.body ≠ .stream row slot p0 p1 p2 p3 :=
      fun row slot p0 p1 p2 p3 e => hs ⟨row, slot, p0, p1, p2, p3, e⟩
    exact ⟨_, p.endWord_single last sc land hb, goesOn_single h last sc land hb⟩

theorem wordDone_goesOn (u : State) (first last sc land : Nat) :
    ∃ t, u.wordDone first last sc land = .next t ∧ WordGoesOn u t first last sc land :=
  endWord_goesOn (u.passTo_work _ _ _) last sc land

/-- A repetition with its effects performed ends as R130 and R139 say. -/
theorem endRep_goesOn {u : State} {a : Active} (ha : u.q.act = some a) (first land : Nat) (rc : BitVec 10) (sc : BitVec 4) (len : Nat) :
    ∃ t, u.endRep first land rc sc len = .next t ∧ RepGoesOn u t first len land rc sc.toNat := by
  unfold State.endRep
  extract_lets p q b
  have hp : u.KeepsWork p := u.passTo_work _ _ _
  obtain ⟨-, -, hrep, hland⟩ := (hp.atWork ha).2.fields
  rw [← State.act_of_q ha] at hrep hland
  split
  · next hlt =>
    have hlt : u.act.rep < rc.toNat := hrep ▸ hlt
    refine ⟨_, rfl, fun hle => absurd hlt (Nat.not_lt.mpr hle), fun _ => ⟨by rw [State.q_setQ], by rw [State.q_setQ], ?_⟩⟩
    rw [State.q_setQ, ← hrep, ← hland]
  · next hge =>
    have hge : ¬u.act.rep < rc.toNat := hrep ▸ hge
    obtain ⟨t, ht, hg⟩ := endWord_goesOn hp (first + len - 1) sc.toNat land
    exact ⟨t, ht, fun _ => hg, fun hlt => absurd hlt hge⟩

end Sys2Proof.Claims

namespace Sys2Proof.Machine
open Sys2Proof.Claims

/-! ## When a repetition issues (R131, R132) -/

/-- The greatest of a start value and of what some elements of a list give: it bounds all of them, and is one of them. -/
theorem foldl_maxIf_spec {α : Type} (p : α → Bool) (f : α → Nat) (l : List α) (t : Nat) :
    t ≤ l.foldl (fun t x => if p x then max t (f x) else t) t
      ∧ (∀ x ∈ l, p x = true → f x ≤ l.foldl (fun t x => if p x then max t (f x) else t) t)
      ∧ (t < l.foldl (fun t x => if p x then max t (f x) else t) t →
        ∃ x ∈ l, p x = true ∧ f x = l.foldl (fun t x => if p x then max t (f x) else t) t) := by
  induction l generalizing t with
  | nil => exact ⟨le_rfl, nofun, fun h => absurd h (lt_irrefl t)⟩
  | cons y l ih =>
    obtain ⟨hle, hall, hone⟩ := ih (if p y then max t (f y) else t)
    simp only [List.foldl_cons, List.forall_mem_cons, List.exists_mem_cons_iff]
    by_cases hy : p y = true
    · rw [if_pos hy] at hle hall hone ⊢
      refine ⟨(le_max_left _ _).trans hle, ⟨fun _ => (le_max_right _ _).trans hle, hall⟩, fun hlt => ?_⟩
      rcases hle.eq_or_lt with heq | hlt'
      · rw [← heq] at hlt ⊢
        exact .inl ⟨hy, (max_eq_right ((lt_max_iff.mp hlt).resolve_left (lt_irrefl t)).le).symm⟩
      · exact .inr (hone hlt')
    · rw [if_neg hy] at hle hall hone ⊢
      exact ⟨hle, ⟨fun h => absurd h hy, hall⟩, fun hlt => .inr (hone hlt)⟩

theorem Core.afterLoads_spec (c : Core) (x : Shape) (t : Nat) :
    t ≤ c.afterLoads x t ∧ (∀ k ∈ x.reads ++ x.writes, SMap.get 0 c.loadedAt k ≤ c.afterLoads x t)
      ∧ (∀ k ∈ x.readM ++ x.writeM, SMap.get 0 c.loadedAt (64 + k) ≤ c.afterLoads x t)
      ∧ ((∀ k, SMap.get 0 c.loadedAt k ≤ t) → c.afterLoads x t = t) := by
  obtain ⟨hle, hall, hone⟩ := foldl_maxIf_spec (fun _ => true) (SMap.get 0 c.loadedAt)
    ((x.reads ++ x.writes) ++ (x.readM ++ x.writeM).map (fun k => 64 + k)) t
  refine ⟨hle, fun k hk => hall k (List.mem_append_left _ hk) rfl,
    fun k hk => hall (64 + k) (List.mem_append_right _ (List.mem_map_of_mem hk)) rfl, fun hland => le_antisymm ?_ hle⟩
  by_contra hlt
  obtain ⟨k, -, -, hk⟩ := hone (not_le.mp hlt)
  exact hlt (le_of_eq_of_le (show c.afterLoads x t = _ from hk.symm) (hland k))

theorem Core.scoreboard_spec (c : Core) (x : Shape) (t : Nat) :
    t ≤ c.scoreboard x t ∧ (∀ p ∈ c.pendV, p.reg ∈ x.reads ++ x.writes → p.land ≤ c.scoreboard x t)
      ∧ (∀ p ∈ c.pendM, p.reg ∈ x.readM ++ x.writeM → p.land ≤ c.scoreboard x t)
      ∧ (t < c.scoreboard x t → (∃ p ∈ c.pendV, p.reg ∈ x.reads ++ x.writes ∧ p.land = c.scoreboard x t)
        ∨ ∃ p ∈ c.pendM, p.reg ∈ x.readM ++ x.writeM ∧ p.land = c.scoreboard x t) := by
  unfold Core.scoreboard
  extract_lets t1
  obtain ⟨hle1, hall1, hone1⟩ := foldl_maxIf_spec (fun p : PendReg => (x.reads ++ x.writes).contains p.reg) PendReg.land c.pendV t
  obtain ⟨hle2, hall2, hone2⟩ := foldl_maxIf_spec (fun p : PendMask => (x.readM ++ x.writeM).contains p.reg) PendMask.land c.pendM t1
  refine ⟨hle1.trans hle2, fun p hp h => (hall1 p hp (List.contains_iff_mem.mpr h)).trans hle2,
    fun p hp h => hall2 p hp (List.contains_iff_mem.mpr h), fun hlt => ?_⟩
  rcases hle2.eq_or_lt with heq | hlt2
  · rw [← heq] at hlt ⊢
    obtain ⟨p, hp, hreg, hland⟩ := hone1 hlt
    exact .inl ⟨p, hp, List.contains_iff_mem.mp hreg, hland⟩
  · obtain ⟨p, hp, hreg, hland⟩ := hone2 hlt2
    exact .inr ⟨p, hp, List.contains_iff_mem.mp hreg, hland⟩

theorem Core.undersized_iff (c : Core) (x : Shape) (t : Nat) : c.undersized x t = true ↔
    (∃ p ∈ c.pendV, (p.reg ∈ x.reads ∧ t < p.land) ∨ (p.reg ∈ x.writes ∧ t + x.lat < p.land))
      ∨ ∃ p ∈ c.pendM, (p.reg ∈ x.readM ∧ t < p.land) ∨ (p.reg ∈ x.writeM ∧ t + x.lat < p.land) := by
  simp only [Core.undersized, Bool.or_eq_true, List.any_eq_true, Bool.and_eq_true, List.contains_iff_mem, decide_eq_true_eq]

theorem Core.vIssue_owed {c : Core} {x : Shape} (own : Tag) (schk : Bool) (i : Nat)
    (h : c.vloads.any (fun l => (x.reads ++ x.writes).contains l.reg) = true) : c.vIssue own schk x i = .wait := by
  rw [Core.vIssue, Core.owesOperand, h, Bool.true_or, if_pos rfl]

theorem Core.vIssue_unowed {c : Core} (own : Tag) (schk : Bool) (x : Shape) (i : Nat) (hl : c.vloads = []) (hm : c.vmasks = []) :
    c.vIssue own schk x i = if c.interlock then .at_ (c.scoreboard x (c.afterLoads x i))
      else if schk && c.undersized x (c.afterLoads x i) then .hazard else .at_ (c.afterLoads x i) := by
  rw [Core.vIssue, Core.owesOperand, hl, hm, List.any_nil, List.any_nil, Bool.or_self, if_neg Bool.false_ne_true]

end Sys2Proof.Machine

namespace Sys2Proof.Claims
open Sys2Proof.Machine

/-- Settles O31: by what `Core.afterLoads` and `Core.scoreboard` are the greatest of. -/
theorem vectorIssue : Obligations.VectorIssue := by
  intro c own schk x i landed
  obtain ⟨hafter, hregs, hmasks, hlanded⟩ := c.afterLoads_spec x i
  refine ⟨Core.vIssue_owed own schk i, fun hl hm h => ?_, fun hland hl hm hi => ?_, fun hland hl hm hi hs => ?_,
    fun hland hl hm hi hs => ?_⟩ <;> rw [Core.vIssue_unowed own schk x i hl hm]
  · obtain ⟨hboard, -, -, -⟩ := c.scoreboard_spec x (c.afterLoads x i)
    by_cases hi : c.interlock = true
    · rw [if_pos hi]
      exact ⟨_, rfl, hafter.trans hboard, fun k hk => (hregs k hk).trans hboard, fun k hk => (hmasks k hk).trans hboard⟩
    · rw [if_neg hi, h.resolve_left hi, Bool.false_and, if_neg Bool.false_ne_true]
      exact ⟨_, rfl, hafter, hregs, hmasks⟩
  · rw [if_pos hi, hlanded hland]
    exact ⟨_, rfl, c.scoreboard_spec x i⟩
  · rw [hi, hs, hlanded hland]
    rfl
  · rw [hi, hs, hlanded hland, Bool.true_and, ← c.undersized_iff x i, if_neg Bool.false_ne_true]
    split
    · next hu => exact ⟨iff_of_true rfl hu, fun h => absurd rfl h⟩
    · next hu => exact ⟨iff_of_false nofun hu, fun _ => rfl⟩

end Sys2Proof.Claims

namespace Sys2Proof.Machine
open Sys2Proof.Claims

/-! ## The entry at work of a changed state -/

theorem State.act_eq (s : State) : s.act = s.q.act.getD { entry := {} } := rfl

@[simp] theorem State.q_setAct (s : State) (a : Active) : (s.setAct a).q = { s.q with act := some a } := s.q_setQ _

@[simp] theorem State.act_setAct (s : State) (a : Active) : (s.setAct a).act = a := by
  rw [State.act_eq, State.q_setAct]
  rfl

/-- A queue that keeps its entry at work and its next cycle keeps the cycle in which its next word issues. -/
theorem State.issueAt_setQ (s : State) {q : Queue} (hr : q.readyAt = s.q.readyAt) (ha : q.act = s.q.act) :
    (s.setQ q).issueAt = s.issueAt := by
  rw [State.issueAt, State.issueAt, State.act_eq, State.act_eq, State.q_setQ, hr, ha]
  rfl

theorem State.issueAt_setAct (s : State) {a : Active} (ha : a.fresh = s.act.fresh) : (s.setAct a).issueAt = s.issueAt := by
  rw [State.issueAt, State.issueAt, State.act_setAct, State.q_setAct, ha]
  rfl

/-- Flags lie outside the queues: their counts do not move the next issue cycle. -/
theorem State.issueNow_setCore (s : State) {d : Core} (h : s.core.SameButFlags d) : (s.setCore d).issueNow = s.issueNow := by
  have hq : (s.setCore d).q = s.q := by
    rw [State.q, State.core_setCore]
    exact h.queue s.eng
  rw [State.issueNow, hq]
  rfl

theorem Core.flagTake_eq (c : Core) (f : Ix6) (h : f = 0 ∨ 0 < c.flag f.toNat) :
    c.flagTake f.toNat = some (if f = 0 then c else c.setFlag f.toNat (c.flag f.toNat - 1)) := by
  by_cases hf : f = 0
  · rw [if_pos hf, hf]
    rfl
  · have hf0 : f.toNat ≠ 0 := fun e => hf (BitVec.eq_of_toNat_eq e)
    rw [if_neg hf, Core.flagTake, if_neg hf0, if_pos (h.resolve_left hf)]

theorem Core.flagInc_eq (c : Core) (f : Ix6) (h : f = 0 ∨ c.flag f.toNat < 65535) :
    c.flagInc f.toNat 1 = some (if f = 0 then c else c.setFlag f.toNat (c.flag f.toNat + 1)) := by
  by_cases hf : f = 0
  · rw [if_pos hf, hf]
    rfl
  · rw [if_neg hf, c.flagInc_fits hf (h.resolve_left hf)]

/-! ## Sequencer words -/

theorem State.seqDone_goesOn (s : State) (sc : BitVec 4) :
    ∃ t, s.seqDone sc = .next t ∧ WordGoesOn s t s.issueAt s.issueAt sc.toNat s.issueAt := wordDone_goesOn s _ _ _ _

theorem State.seqNow_goesOn (s : State) (sc : BitVec 4) :
    ∃ t, s.seqNow sc = .next t ∧ WordGoesOn s t s.issueNow s.issueNow sc.toNat s.issueNow := wordDone_goesOn s _ _ _ _

theorem State.wordWait_stays (s : State) (f : Option Nat) : ∃ t, s.wordWait f = .next t
    ∧ CoreBecomes s t (s.core.setQueue s.eng { s.q with act := some { s.act with fresh := true, waitFlag := f } }) :=
  ⟨_, rfl, .setQ s _⟩

theorem State.wordFault_stops (s : State) (code : BitVec 8) (p : Progress) (h : s.q.stopped = none) :
    ∃ t, s.wordFault code p = .next t ∧ QueueStops s t s.eng s.act.entry code p :=
  ⟨_, rfl, s.engineFault_stops s.eng s.act.entry code p h⟩

theorem State.landEarlier_eng (s : State) : s.landEarlier.eng = s.eng := (s.advance_actor _ none).2.2

theorem State.inStream_of_stream {s : State} {row : Word} {slot : Nat} {p0 p1 p2 p3 : BitVec 32}
    (h : s.act.cur.body = .stream row slot p0 p1 p2 p3) : s.inStream = true := by
  rw [State.inStream, h]

/-- A change of the flags of the core, then a word whose wait has ended. -/
theorem State.seqNow_setCore (s : State) {d : Core} (h : s.core.SameButFlags d) (sc : BitVec 4) :
    ∃ t, (s.setCore d).seqNow sc = .next t ∧ WordGoesOn (s.setCore d) t s.issueNow s.issueNow sc.toNat s.issueNow := by
  have hw := (s.setCore d).seqNow_goesOn sc
  rwa [s.issueNow_setCore h] at hw

theorem Core.setFlagOr_sameButFlags (c : Core) (f : Ix6) (n : Nat) : c.SameButFlags (if f = 0 then c else c.setFlag f.toNat n) := by
  split
  · exact .refl c
  · exact c.setFlag_sameButFlags _ _

theorem Active.nextPos_place (a : Active) : a.nextPos.row = (if 20 ≤ a.slot then a.row + 128 else a.row)
    ∧ a.nextPos.slot = if 20 ≤ a.slot then 0 else a.slot + 1 := by
  rw [a.nextPos_eq]
  exact ⟨rfl, rfl⟩

/-- A stream that enters a loop whose body is to run `count` times, with the position after its `sloop` (R135). -/
def Active.loopInto (a : Active) (count : Nat) : Active :=
  { a with loops := { count := count, row := if 20 ≤ a.slot then a.row + 128 else a.row,
                      slot := if 20 ≤ a.slot then 0 else a.slot + 1 } :: a.loops }

/-- A stream at the first word of a loop's body again, with the loops outside it (R135). -/
def Active.loopBack (a : Active) (l : LoopLevel) (ls : List LoopLevel) : Active :=
  { a with loops := { l with count := l.count - 1 } :: ls, row := l.row, slot := l.slot, fresh := false, waitFlag := none,
           taken := false, rep := 0 }

/-- A stream whose `send` has issued in the cycle `last` (R135). -/
def Active.streamEnded (a : Active) (last : Nat) : Active :=
  { a with rep := 0, waitFlag := none, taken := false, fresh := false, land := max a.land last }

theorem Active.SameWork.streamEnded {a b : Active} (h : a.SameWork b) (last : Nat) : b.streamEnded last = a.streamEnded last := by
  rw [show b = _ from h]
  rfl

/-- The count of an `sloop` of a stream: its field, or a parameter of the entry. -/
theorem Active.loopCount_stream {a : Active} {row : Word} {slot : Nat} {p0 p1 p2 p3 : BitVec 32}
    (hb : a.cur.body = .stream row slot p0 p1 p2 p3) {src : BitVec 3} (n : BitVec 16) (h : src = 0 ∨ 4 ≤ src.toNat) :
    a.loopCount src n = if src = 0 then n.toNat else if src = 4 then p0.toNat else if src = 5 then p1.toNat
      else if src = 6 then p2.toNat else p3.toNat := by
  have hsrc : src = 0 ∨ src = 4 ∨ src = 5 ∨ src = 6 ∨ src = 7 := by
    revert h
    revert src
    decide
  rw [Active.loopCount, hb]
  rcases hsrc with rfl | rfl | rfl | rfl | rfl <;> rfl

/-- A word that changes the entry at work alone, and is done. -/
theorem State.seqDone_setAct {s : State} {a : Active} (ha : s.act = a) (b : Active) (h : b.fresh = a.fresh) (sc : BitVec 4) :
    ∃ t, (s.setAct b).seqDone sc = .next t ∧ WordGoesOn (s.setAct b) t s.issueAt s.issueAt sc.toNat s.issueAt := by
  have hw := (s.setAct b).seqDone_goesOn sc
  rwa [s.issueAt_setAct (h.trans (congrArg Active.fresh ha.symm))] at hw

/-- The phases of all queues, and those of the acting one, replaced. -/
def State.setPhases (s : State) (ps : List Phase) (ks : List Nat) : State :=
  { s with phases := ps }.setQ { s.q with phases := ks }

theorem State.q_setPhases (s : State) (ps : List Phase) (ks : List Nat) : (s.setPhases ps ks).q = { s.q with phases := ks } :=
  State.q_setQ _ _

theorem State.seqDone_setPhases (s : State) (ps : List Phase) (ks : List Nat) (sc : BitVec 4) :
    ∃ t, (s.setPhases ps ks).seqDone sc = .next t
      ∧ WordGoesOn (s.setPhases ps ks) t s.issueAt s.issueAt sc.toNat s.issueAt := by
  have hw := (s.setPhases ps ks).seqDone_goesOn sc
  have hi : (s.setPhases ps ks).issueAt = s.issueAt :=
    State.issueAt_setQ { s with phases := ps } (q := { s.q with phases := ks }) rfl rfl
  rwa [hi] at hw

/-- The record of a close without a phase names its fields as unused, with ones (R246). -/
theorem footRecord_unopened_ne_zero (k : Nat) : footRecord 0 0xFF 3 0 k 0 0xFF 0 ≠ 0 := by
  intro h
  have h : (footRecord 0 0xFF 3 0 k 0 0xFF 0).toNat = 0 := congrArg BitVec.toNat h
  rw [footRecord, BitVec.toNat_ofNat] at h
  omega

/-- A footprint fault is logged, and then stops its queue (R246). -/
theorem State.footFault_eq (s : State) (e : Eng) (x : Entry) (code : BitVec 8) (r : BitVec 128) (p : Progress) :
    ∃ s1, s.footFault e x code r p = s1.engineFault e x code { p with record := r } ∧ s.SameCores s1 :=
  ⟨_, rfl, s.logRecord_sameCores _ _ _ _ _ _ _ _ _⟩

end Sys2Proof.Machine

namespace Sys2Proof.Claims
open Sys2Proof.Machine

theorem swait_taken {s : State} {a : Active} (ha : s.q.act = some a) (f : Ix6) (sc : BitVec 4) (ht : a.taken = true) :
    ∃ t, exec (.swait f sc) s = .next t ∧ WordGoesOn s t s.issueNow s.issueNow sc.toNat s.issueNow := by
  show ∃ t, execSwait f sc s = .next t ∧ _
  rw [execSwait, State.act_of_q ha, if_pos ht]
  exact s.seqNow_goesOn sc

theorem swait_takes {s : State} {a : Active} (ha : s.q.act = some a) (f : Ix6) (sc : BitVec 4) (ht : a.taken = false)
    (hf : f = 0 ∨ 0 < s.core.flag f.toNat) :
    let u := s.setCore (if f = 0 then s.core else s.core.setFlag f.toNat (s.core.flag f.toNat - 1))
    ∃ t, exec (.swait f sc) s = .next t ∧ WordGoesOn u t s.issueNow s.issueNow sc.toNat s.issueNow := by
  intro u
  show ∃ t, execSwait f sc s = .next t ∧ _
  rw [execSwait, State.act_of_q ha, ht, if_neg Bool.false_ne_true, s.core.flagTake_eq f hf]
  exact s.seqNow_setCore (s.core.setFlagOr_sameButFlags f _) sc

theorem swait_waits {s : State} {a : Active} (ha : s.q.act = some a) {f : Ix6} (sc : BitVec 4) (ht : a.taken = false)
    (hf : f ≠ 0) (h0 : s.core.flag f.toNat = 0) : ∃ t, exec (.swait f sc) s = .next t
      ∧ CoreBecomes s t (s.core.setQueue s.eng { s.q with act := some { a with fresh := true, waitFlag := some f.toNat } }) := by
  have hexec : execSwait f sc s = s.wordWait (some f.toNat) := by
    rw [execSwait, State.act_of_q ha, ht, if_neg Bool.false_ne_true, s.core.flagTake_empty hf h0]
  obtain ⟨t, hwait, ht⟩ := s.wordWait_stays (some f.toNat)
  rw [State.act_of_q ha] at ht
  exact ⟨t, hexec.trans hwait, ht⟩

theorem ssig_signals {s v : State} (hv : s.landEarlier = v) (f : Ix6) (sc : BitVec 4) (hr : v.earlierReleased = true)
    (hf : f = 0 ∨ v.core.flag f.toNat < 65535) :
    let u := v.setCore (if f = 0 then v.core else v.core.setFlag f.toNat (v.core.flag f.toNat + 1))
    ∃ t, exec (.ssig f sc) s = .next t ∧ WordGoesOn u t v.issueNow v.issueNow sc.toNat v.issueNow := by
  intro u
  show ∃ t, execSsig f sc s = .next t ∧ _
  simp only [execSsig, hv, hr, Bool.not_true, Bool.false_eq_true, if_false, v.core.flagInc_eq f hf]
  exact v.seqNow_setCore (v.core.setFlagOr_sameButFlags f _) sc

theorem ssig_overflows {s v : State} (hv : s.landEarlier = v) {f : Ix6} (sc : BitVec 4) (hr : v.earlierReleased = true)
    (hf : f ≠ 0) (hfull : 65535 ≤ v.core.flag f.toNat) (hs : v.q.stopped = none) :
    ∃ t, exec (.ssig f sc) s = .next t ∧ QueueStops v t v.eng v.act.entry 0x0F {} := by
  show ∃ t, execSsig f sc s = .next t ∧ _
  simp only [execSsig, hv, hr, Bool.not_true, Bool.false_eq_true, if_false,
    v.core.flagInc_overflows (n := 1) hf (Nat.lt_succ_of_le hfull)]
  exact v.wordFault_stops _ _ hs

theorem srel_released {s v : State} (hv : s.landEarlier = v) (sco : BitVec 3) (sc : BitVec 4) (hr : v.earlierReleased = true) :
    ∃ t, exec (.srel sco sc) s = .next t ∧ WordGoesOn v t v.issueNow v.issueNow sc.toNat v.issueNow := by
  show ∃ t, execSrel sco sc s = .next t ∧ _
  simp only [execSrel, hv, hr, if_true]
  exact v.seqNow_goesOn sc

theorem srel_waits {s v : State} (hv : s.landEarlier = v) (sco : BitVec 3) (sc : BitVec 4) (hr : v.earlierReleased = false) :
    ∃ t, exec (.srel sco sc) s = .next t
      ∧ CoreBecomes v t (v.core.setQueue v.eng { v.q with act := some { v.act with fresh := true, waitFlag := none } }) := by
  show ∃ t, execSrel sco sc s = .next t ∧ _
  simp only [execSrel, hv, hr, Bool.false_eq_true, if_false]
  exact v.wordWait_stays none

/-! ### Loops -/

theorem sloop_opens {s : State} {a : Active} (ha : s.q.act = some a) {row : Word} {slot : Nat} {p0 p1 p2 p3 : BitVec 32}
    (hb : a.cur.body = .stream row slot p0 p1 p2 p3) (hl : a.loops.length < 4) {src : BitVec 3} (n : BitVec 16) (sc : BitVec 4)
    (h : src = 0 ∨ 4 ≤ src.toNat) :
    execSloop src n sc s =
      if a.loopCount src n = 0 then (s.setAct { a with skip := 1 }).seqDone sc
      else (s.setAct { a with
        loops := { count := a.loopCount src n, row := a.nextPos.row, slot := a.nextPos.slot } :: a.loops }).seqDone sc := by
  have hsrc : (1 ≤ src.toNat && src.toNat ≤ 3) = false := by
    rcases h with rfl | h
    · rfl
    · rw [decide_eq_false (by omega : ¬src.toNat ≤ 3), Bool.and_false]
  have hact := State.act_of_q ha
  have hin : s.inStream = true := State.inStream_of_stream (hact ▸ hb)
  simp only [execSloop, hin, hact, hsrc, decide_eq_false (Nat.not_le.mpr hl), Bool.not_true, Bool.or_self, Bool.false_eq_true,
    if_false]

theorem sloop_repeats {s : State} {a : Active} (ha : s.q.act = some a) {row : Word} {slot : Nat} {p0 p1 p2 p3 : BitVec 32}
    (hb : a.cur.body = .stream row slot p0 p1 p2 p3) (hl : a.loops.length < 4) {src : BitVec 3} (n : BitVec 16) (sc : BitVec 4)
    (h : src = 0 ∨ 4 ≤ src.toNat) :
    let i := s.issueAt
    let c := if src = 0 then n.toNat else if src = 4 then p0.toNat else if src = 5 then p1.toNat
      else if src = 6 then p2.toNat else p3.toNat
    (0 < c → ∃ t b, exec (.sloop src n sc) s = .next t
      ∧ WordGoesOn (s.setAct b) t i i sc.toNat i
      ∧ b = { a with loops := { count := c, row := if 20 ≤ a.slot then a.row + 128 else a.row,
                                slot := if 20 ≤ a.slot then 0 else a.slot + 1 } :: a.loops })
    ∧ (c = 0 → ∃ t, exec (.sloop src n sc) s = .next t ∧ WordGoesOn (s.setAct { a with skip := 1 }) t i i sc.toNat i) := by
  intro i c
  have hc : a.loopCount src n = c := Active.loopCount_stream hb n h
  have hexec := sloop_opens ha hb hl n sc h
  have hact := State.act_of_q ha
  rw [hc] at hexec
  refine ⟨fun hpos => ?_, fun hzero => ?_⟩
  · obtain ⟨hrow, hslot⟩ := a.nextPos_place
    rw [if_neg hpos.ne', hrow, hslot] at hexec
    obtain ⟨t, ht, hg⟩ := State.seqDone_setAct hact (a.loopInto c) rfl sc
    exact ⟨t, _, hexec.trans ht, hg, rfl⟩
  · rw [if_pos hzero] at hexec
    obtain ⟨t, ht, hg⟩ := State.seqDone_setAct hact { a with skip := 1 } rfl sc
    exact ⟨t, hexec.trans ht, hg⟩

theorem sendl_repeats {s : State} {a : Active} (ha : s.q.act = some a) (sc : BitVec 4) {l : LoopLevel} {ls : List LoopLevel}
    (hin : s.inStream = true) (hl : a.loops = l :: ls) :
    let i := s.issueAt
    (l.count ≤ 1 → ∃ t, exec (.sendl sc) s = .next t ∧ WordGoesOn (s.setAct { a with loops := ls }) t i i sc.toNat i)
    ∧ (1 < l.count → ∃ t b, exec (.sendl sc) s = .next t ∧ t = (s.passTo i 1 i).setQ t.q ∧ t.q.act = some b
      ∧ t.q.readyAt = i + 1 + sc.toNat ∧ b.row = l.row ∧ b.slot = l.slot ∧ b.rep = 0 ∧ b.fresh = false
      ∧ b.loops = { l with count := l.count - 1 } :: ls ∧ b.entry = a.entry) := by
  intro i
  have hact := State.act_of_q ha
  refine ⟨fun hlast => ?_, fun hmore => ?_⟩
  · obtain ⟨t, ht, hg⟩ := State.seqDone_setAct hact { a with loops := ls } rfl sc
    refine ⟨t, Eq.trans ?_ ht, hg⟩
    show execSendl sc s = _
    simp only [execSendl, hin, hact, hl, if_pos hlast, Bool.not_true, Bool.false_eq_true, if_false]
  · obtain ⟨hentry, -, -, -⟩ := ((s.passTo_work i 1 i).atWork ha).2.fields
    let p := s.passTo i 1 i
    refine ⟨p.setQ { p.q with readyAt := i + 1 + sc.toNat, act := some (p.act.loopBack l ls) }, _, ?_, ?_,
      congrArg Queue.act (State.q_setQ _ _), ?_, rfl, rfl, rfl, rfl,
      rfl, hentry⟩
    · show execSendl sc s = _
      simp only [execSendl, hin, hact, hl, if_neg (Nat.not_le.mpr hmore), Bool.not_true, Bool.false_eq_true, if_false]
      rfl
    · rw [State.q_setQ]
    · rw [State.q_setQ]

theorem send_ends {s : State} {a : Active} (ha : s.q.act = some a) (src : BitVec 3) (sc : BitVec 4) (hin : s.inStream = true)
    (hl : a.loops = []) (hf : a.cur.fork = none ∨ a.cur.fork = some src.toNat) :
    let i := s.issueAt
    ∃ t, exec (.send src sc) s = .next t ∧ t = (s.passTo i 1 i).setQ t.q ∧ t.q.readyAt = i + 1 + sc.toNat
      ∧ (a.inner = none → t.q.act = none
        ∧ t.q.flight = s.q.flight ++ [{ entry := a.entry, doneAt := max a.land i, chans := a.chans }]) := by
  intro i
  have hexec : exec (.send src sc) s = s.streamDone i sc.toNat := by
    show execSend src sc s = _
    simp only [execSend, hin, State.act_of_q ha, hl, Bool.not_true, List.isEmpty_nil, Bool.or_self, Bool.false_eq_true, if_false]
    rcases hf with hf | hf
    · rw [hf]
    · rw [hf]
      exact if_pos rfl
  have hwork := s.passTo_work i 1 i
  obtain ⟨-, hsame⟩ := hwork.atWork ha
  refine ⟨(s.passTo i 1 i).setQ { (s.passTo i 1 i).q.endEntry ((s.passTo i 1 i).act.streamEnded i) with
    readyAt := i + 1 + sc.toNat }, hexec, ?_, ?_, fun hi => ?_⟩
  · rw [State.q_setQ]
  · rw [State.q_setQ]
  · rw [State.q_setQ, hsame.streamEnded, ← hwork.flight]
    have hend := Queue.endEntry_single (s.passTo i 1 i).q (a := a.streamEnded i) hi
    exact ⟨congrArg Queue.act hend, congrArg Queue.flight hend⟩

theorem loopWords_outside {s : State} {a : Active} (ha : s.q.act = some a) (src : BitVec 3) (n : BitVec 16) (sc : BitVec 4)
    (hin : s.inStream = false) (hs : s.q.stopped = none) :
    let out : Progress := { count := if s.eng = .v then 1 else 0 }
    (∃ t, exec (.sloop src n sc) s = .next t ∧ QueueStops s t s.eng a.entry 0x02 out)
    ∧ (∃ t, exec (.sendl sc) s = .next t ∧ QueueStops s t s.eng a.entry 0x02 out)
    ∧ ∃ t, exec (.send src sc) s = .next t ∧ QueueStops s t s.eng a.entry 0x02 out := by
  intro out
  obtain ⟨t, ht, hstop⟩ := s.wordFault_stops cIllegalWord out hs
  rw [State.act_of_q ha] at hstop
  have hill : s.illegalWord 1 = .next t := ht
  refine ⟨⟨t, Eq.trans ?_ hill, hstop⟩, ⟨t, Eq.trans ?_ hill, hstop⟩, ⟨t, Eq.trans ?_ hill, hstop⟩⟩
  · show execSloop src n sc s = _
    simp only [execSloop, hin, Bool.not_false, Bool.true_or, if_true]
  · show execSendl sc s = _
    simp only [execSendl, hin, Bool.not_false, if_true]
  · show execSend src sc s = _
    simp only [execSend, hin, Bool.not_false, Bool.true_or, if_true]

/-! ### Phases -/

theorem spho_opens {s : State} (k : Ix6) (sc : BitVec 4) {ps : List Phase} (hturn : s.phaseTurn true = true)
    (ho : s.openPhase k.toNat = .opened ps) :
    ∃ t, exec (.spho k sc) s = .next t ∧ WordGoesOn ({ s with phases := s.phases ++ ps }.setQ
      { s.q with phases := s.q.phases ++ [k.toNat] }) t s.issueAt s.issueAt sc.toNat s.issueAt := by
  obtain ⟨t, ht, hg⟩ := s.seqDone_setPhases (s.phases ++ ps) (s.q.phases ++ [k.toNat]) sc
  refine ⟨t, Eq.trans ?_ ht, hg⟩
  show execSpho k sc s = _
  simp only [execSpho, hturn, ho, Bool.not_true, Bool.false_eq_true, if_false]
  rfl

theorem spho_waits {s : State} {a : Active} (ha : s.q.act = some a) (k : Ix6) (sc : BitVec 4) (hturn : s.phaseTurn true = true)
    (ho : s.openPhase k.toNat = .wait) : ∃ t, exec (.spho k sc) s = .next t
      ∧ CoreBecomes s t (s.core.setQueue s.eng { s.q with act := some { a with fresh := true, waitFlag := none } }) := by
  obtain ⟨t, hwait, ht⟩ := s.wordWait_stays none
  rw [State.act_of_q ha] at ht
  refine ⟨t, Eq.trans ?_ hwait, ht⟩
  show execSpho k sc s = _
  simp only [execSpho, hturn, ho, Bool.not_true, Bool.false_eq_true, if_false]

theorem spho_faults {s : State} {a : Active} (ha : s.q.act = some a) (k : Ix6) (sc : BitVec 4) {code : BitVec 8}
    (hturn : s.phaseTurn true = true) (ho : s.openPhase k.toNat = .fault code 0) (hs : s.q.stopped = none) :
    ∃ t, exec (.spho k sc) s = .next t ∧ QueueStops s t s.eng a.entry code {} := by
  obtain ⟨t, ht, hstop⟩ := s.wordFault_stops code {} hs
  rw [State.act_of_q ha] at hstop
  refine ⟨t, Eq.trans ?_ ht, hstop⟩
  show execSpho k sc s = _
  simp only [execSpho, hturn, ho, Bool.not_true, Bool.false_eq_true, if_false, if_true]

theorem sphc_closes {s : State} {a : Active} (ha : s.q.act = some a) (k : Ix6) (sc : BitVec 4) (hturn : s.phaseTurn false = true)
    (hk : s.q.phases.contains k.toNat = true) (hp : s.accessesPerformed = true)
    (hm : s.eng = .m → s.core.sqa = [] ∧ s.core.sqb = []) :
    let i := s.issueAt
    ∃ t u, exec (.sphc k sc) s = .next t ∧ WordGoesOn u t i i sc.toNat i ∧ u.q.act = some a ∧ k.toNat ∉ u.q.phases
      ∧ (∀ j, j ≠ k.toNat → (j ∈ u.q.phases ↔ j ∈ s.q.phases))
      ∧ u.phases = s.phases.filter (fun p => !(p.ctx == s.ctx && p.core == s.cur && p.eng == s.eng && p.fp == k.toNat)) := by
  intro i
  obtain ⟨t, ht, hg⟩ := s.seqDone_setPhases
    (s.phases.filter (fun p => !(p.ctx == s.ctx && p.core == s.cur && p.eng == s.eng && p.fp == k.toNat)))
    (removeNat s.q.phases k.toNat) sc
  have hbal : ¬(s.eng = .m ∧ ¬(s.core.sqa.isEmpty = true ∧ s.core.sqb.isEmpty = true)) := fun ⟨he, hn⟩ => by
    obtain ⟨ha', hb'⟩ := hm he
    exact hn ⟨by rw [ha']; rfl, by rw [hb']; rfl⟩
  refine ⟨t, _, Eq.trans ?_ ht, hg, ?_, ?_, fun j hj => ?_, rfl⟩
  · show execSphc k sc s = _
    simp only [execSphc, hturn, hk, hp, Bool.not_true, Bool.false_eq_true, if_false]
    exact if_neg hbal
  · rw [State.q_setPhases, ← ha]
  · rw [State.q_setPhases]
    simp [removeNat]
  · rw [State.q_setPhases]
    simp [removeNat, hj]

/-- A queue that stops after changes that leave every core as it was. -/
theorem QueueStops.of_sameCores {s u t : State} {e : Eng} {x : Entry} {code : BitVec 8} {p : Progress}
    (h : QueueStops u t e x code p) (hu : s.SameCores u) : QueueStops s t e x code p := by
  obtain ⟨hstop, hpc, hregs, hact, hflight, hqueues, hothers⟩ := h
  rw [hu.core] at hstop hpc hregs hact hflight hqueues
  refine ⟨hstop, hpc, hregs, hact, hflight, hqueues, fun c n hne => (hothers c n ?_).trans (hu.coreAt c n)⟩
  rwa [hu.ctx, hu.cur]

theorem sphc_faults {s : State} {a : Active} (ha : s.q.act = some a) (k : Ix6) (sc : BitVec 4) (hturn : s.phaseTurn false = true)
    (hk : s.q.phases.contains k.toNat = false) (hs : s.q.stopped = none) :
    ∃ t p, exec (.sphc k sc) s = .next t ∧ QueueStops s t s.eng a.entry 0x08 p ∧ p.record ≠ 0 := by
  obtain ⟨s1, hlog, hsame⟩ := s.footFault_eq s.eng a.entry cFootprintViolation (footRecord 0 0xFF 3 0 k.toNat 0 0xFF 0) {}
  have hstop := s1.engineFault_stops s.eng a.entry cFootprintViolation { record := footRecord 0 0xFF 3 0 k.toNat 0 0xFF 0 }
    (by rw [hsame.core]; exact hs)
  refine ⟨_, _, ?_, hstop.of_sameCores hsame, footRecord_unopened_ne_zero k.toNat⟩
  rw [← hlog]
  show execSphc k sc s = _
  simp only [execSphc, hturn, hk, Bool.not_true, Bool.not_false, Bool.false_eq_true, if_false, if_true, State.act_of_q ha]

end Sys2Proof.Claims

namespace Sys2Proof.Claims
open Sys2Proof.Machine

/-! ### Mode crossings of an engine (R133) -/

theorem exec_smode (s : State) (m : Bool) (sc : BitVec 4) :
    exec (if m then .smodeInterlock sc else .smodeExposed sc) s = s.crossEngine m sc := by
  cases m <;> rfl

theorem smode_inForce {s v : State} (hv : s.landEarlier = v) {m : Bool} (sc : BitVec 4) (hm : v.core.interlock = m) (hc : v.act.count ≠ 1) :
    ∃ t, exec (if m then .smodeInterlock sc else .smodeExposed sc) s = .next t
      ∧ WordGoesOn v t v.issueAt v.issueAt sc.toNat v.issueAt := by
  rw [exec_smode]
  simp only [State.crossEngine, hv, hc, hm, if_false, if_true]
  exact v.seqDone_goesOn sc

theorem smode_crossed {s v : State} (hv : s.landEarlier = v) (m : Bool) (sc : BitVec 4) (hc : v.act.count = 1)
    (hx : ∀ x, x ∈ v.core.crossing → x.2.2 ≠ 1 + engNum s.eng) :
    ∃ t, exec (if m then .smodeInterlock sc else .smodeExposed sc) s = .next t
      ∧ WordGoesOn v t v.issueNow v.issueNow sc.toNat v.issueNow := by
  have heng : v.eng = s.eng := hv ▸ s.landEarlier_eng
  have hnone : v.core.crossing.any (fun x => x.2.2 == 1 + engNum v.eng) = false := by
    rw [heng, List.any_eq_false]
    exact fun x hmem => by simpa using hx x hmem
  rw [exec_smode]
  simp only [State.crossEngine, hv, hc, hnone, Bool.false_eq_true, if_false, if_true]
  exact v.seqNow_goesOn sc

theorem smode_enters {s v : State} (hv : s.landEarlier = v) {m : Bool} (sc : BitVec 4) (hm : v.core.interlock ≠ m)
    (hc : v.act.count ≠ 1) (hd : v.earlierDone = true) :
    ∃ t, exec (if m then .smodeInterlock sc else .smodeExposed sc) s = .next t ∧ OnlyCore v t
      ∧ t.core.crossing = (m, v.core.stamp, 1 + engNum s.eng) :: v.core.crossing ∧ t.core.interlock = v.core.interlock
      ∧ t.q.act = some { v.act with count := 1, fresh := true, waitFlag := none } := by
  have heng : v.eng = s.eng := hv ▸ s.landEarlier_eng
  let u := v.upd (fun c => c.crossFirst m (1 + engNum v.eng))
  let b : Active := { v.act with count := 1 }
  have hexec : s.crossEngine m sc = (u.setAct b).wordWait := by
    simp only [State.crossEngine, hv, hc, hm, hd, Bool.not_true, Bool.false_eq_true, if_false]
    rfl
  obtain ⟨t, ht, ⟨honly, hcore⟩⟩ := (u.setAct b).wordWait_stays none
  have hu : u.core = v.core.crossFirst m (1 + engNum v.eng) := State.core_upd v _
  have hub : (u.setAct b).core = u.core.setQueue v.eng { u.q with act := some b } := State.core_upd u _
  have hteng : t.eng = (u.setAct b).eng := by rw [honly.1]
  refine ⟨t, (exec_smode s m sc).trans (hexec.trans ht), ((OnlyCore.upd v _).trans (OnlyCore.upd u _)).trans honly, ?_, ?_, ?_⟩
  · rw [hcore, hub, Core.setQueue_crossing, Core.setQueue_crossing, hu, heng]
    rfl
  · rw [hcore, hub, Core.setQueue_interlock, Core.setQueue_interlock, hu]
    rfl
  · rw [State.q, hcore, hteng, Core.queue_setQueue, if_pos rfl, State.act_setAct]

/-- Settles O30: each sequencer word ends as `endWord_goesOn` says once its condition holds, waits by `State.wordWait`, or
stops its queue by `State.engineFault_stops`. -/
theorem sequencerWords : Obligations.SequencerWords := by
  intro s a f k sc rc src sco n m ps l ls code i w v out ha
  have hv : s.landEarlier = v := rfl
  exact ⟨wordDone_goesOn s i (i + rc.toNat) sc.toNat (i + rc.toNat), swait_taken ha f sc, swait_takes ha f sc,
    fun ht hf h0 => swait_waits ha sc ht hf h0, ssig_signals hv f sc, fun hr hf hfull hs => ssig_overflows hv sc hr hf hfull hs,
    fun row slot p0 p1 p2 p3 hb hl hsrc => sloop_repeats ha hb hl n sc hsrc, fun hin hl => sendl_repeats ha sc hin hl,
    loopWords_outside ha src n sc, fun hturn ho => spho_opens k sc hturn ho, fun hturn ho => spho_waits ha k sc hturn ho,
    fun hturn ho hs => spho_faults ha k sc hturn ho hs, sphc_closes ha k sc, sphc_faults ha k sc, s.seqDone_goesOn sc,
    srel_released hv sco sc, srel_waits hv sco sc, fun hm hc => smode_inForce hv sc hm hc, smode_crossed hv m sc,
    fun hm hc hd => smode_enters hv sc hm hc hd, send_ends ha src sc⟩

end Sys2Proof.Claims

namespace Sys2Proof.Machine
open Sys2Proof.Claims

/-! ## Lanes (R138) -/

/-- The lanes of a register fill it, and each lane fills whole bytes. -/
theorem tyBits_lanes (t : BitVec 3) : tyBits t * tyLanes t = 1024 ∧ tyBits t / 8 * tyLanes t = 128 ∧ 0 < tyBits t / 8 := by
  revert t
  decide

theorem packLanes_lt (w : Nat) (l : List Nat) : packLanes w l < 2 ^ (w * l.length) := by
  induction l with
  | nil => exact Nat.one_pos
  | cons x l ih =>
    have hx : x % 2 ^ w < 2 ^ w := Nat.mod_lt _ (Nat.two_pow_pos w)
    rw [List.length_cons, Nat.mul_succ, Nat.pow_add, Nat.mul_comm (2 ^ _)]
    calc x % 2 ^ w + 2 ^ w * packLanes w l < 2 ^ w * (packLanes w l + 1) := by rw [Nat.mul_succ]; omega
      _ ≤ 2 ^ w * 2 ^ (w * l.length) := Nat.mul_le_mul_left _ ih

theorem packLanes_lane (w : Nat) (l : List Nat) (j : Nat) : packLanes w l / 2 ^ (w * j) % 2 ^ w = l.getD j 0 % 2 ^ w := by
  induction l generalizing j with
  | nil => rw [packLanes, Nat.zero_div, List.getD_nil]
  | cons x l ih =>
    cases j with
    | zero => rw [packLanes, Nat.mul_zero, Nat.pow_zero, Nat.div_one, Nat.add_mul_mod_self_left, Nat.mod_mod]; rfl
    | succ j =>
      have hx : x % 2 ^ w < 2 ^ w := Nat.mod_lt _ (Nat.two_pow_pos w)
      rw [packLanes, Nat.mul_succ, Nat.add_comm (w * j), Nat.pow_add, ← Nat.div_div_eq_div_mul,
        Nat.add_mul_div_left _ _ (Nat.two_pow_pos w), Nat.div_eq_of_lt hx, Nat.zero_add, ih]
      rfl

theorem lane_packRow {w n j : Nat} (hw : w * n = 1024) (f : Nat → Nat) (hj : j < n) : lane w (packRow w n f) j = f j % 2 ^ w := by
  have hlt := packLanes_lt w ((List.range n).map f)
  rw [List.length_map, List.length_range, hw] at hlt
  rw [lane, packRow, BitVec.toNat_ofNat, Nat.mod_eq_of_lt hlt, packLanes_lane]
  simp [hj]

/-- A bit of lanes side by side is a bit of its lane. -/
theorem packLanes_testBit {k : Nat} (hk : 0 < k) (l : List Nat) (b : Nat) :
    (packLanes k l).testBit b = (l.getD (b / k) 0 % 2 ^ k).testBit (b % k) := by
  rw [← packLanes_lane, Nat.testBit_mod_two_pow, Nat.testBit_div_two_pow, decide_eq_true (Nat.mod_lt b hk), Bool.true_and,
    Nat.mod_add_div]

/-- The bytes of the lanes that satisfy a condition. -/
theorem laneMask_bit {w b : Nat} (hw : 0 < w / 8) (n : Nat) (p : Nat → Bool) (hb : b < 128) :
    (laneMask w n p).getLsbD b = (decide (b / (w / 8) < n) && p (b / (w / 8))) := by
  rw [laneMask, BitVec.getLsbD_ofNat, decide_eq_true hb, Bool.true_and, packLanes_testBit hw]
  by_cases hj : b / (w / 8) < n
  · rw [decide_eq_true hj, Bool.true_and, List.getD_eq_getElem _ _ (by simpa using hj), List.getElem_map, List.getElem_range]
    split
    · next hp => rw [hp, Nat.mod_eq_of_lt (Nat.sub_lt (Nat.two_pow_pos _) Nat.one_pos), Nat.testBit_two_pow_sub_one,
        decide_eq_true (Nat.mod_lt b hw)]
    · next hp => rw [Bool.eq_false_iff.mpr hp, Nat.zero_mod, Nat.zero_testBit]
  · rw [decide_eq_false hj, Bool.false_and, List.getD_eq_default _ _ (by simpa using hj), Nat.zero_mod, Nat.zero_testBit]

/-! ## What a repetition leaves of its core (R130) -/

/-- Core d is core c but for its vector and mask registers, the writes on their way to them, and the residency gathered. -/
def Core.SameButVectors (c d : Core) : Prop :=
  d = { c with v := d.v, m := d.m, pendV := d.pendV, pendM := d.pendM, vmasks := d.vmasks }

theorem Core.SameButVectors.refl (c : Core) : c.SameButVectors c := rfl

theorem Core.SameButVectors.trans {c d e : Core} (h : c.SameButVectors d) (k : d.SameButVectors e) : c.SameButVectors e :=
  Eq.trans k (congrArg (fun x : Core => { x with v := e.v, m := e.m, pendV := e.pendV, pendM := e.pendM, vmasks := e.vmasks }) h)

theorem Core.SameButVectors.foldl {α : Type} {f : Core → α → Core} (h : ∀ (c : Core) (a : α), c.SameButVectors (f c a)) (l : List α)
    (c : Core) : c.SameButVectors (l.foldl f c) :=
  List.foldlRecOn (motive := c.SameButVectors) l f (.refl c) fun d hd a _ => hd.trans (h d a)

theorem Core.SameButVectors.queue {c d : Core} (h : c.SameButVectors d) (e : Eng) : d.queue e = c.queue e := by
  rw [show d = _ from h]
  cases e <;> rfl

theorem Core.settle_vectors (c : Core) (t : Nat) : c.SameButVectors (c.settle t) := by
  unfold Core.settle
  extract_lets c1 c2
  have h1 : c.SameButVectors c1 := .foldl (fun c p => by unfold Core.settleReg; split <;> rfl) _ c
  have h2 : c1.SameButVectors c2 := .foldl (fun c p => by
    unfold Core.settleMask
    split
    · unfold Core.setMask
      split <;> rfl
    · rfl) _ c1
  exact (h1.trans h2).trans rfl

theorem Core.put_vectors (c : Core) (land : Nat) (x : Out) : c.SameButVectors (c.put land x) := by
  unfold Core.put
  extract_lets c1
  have h1 : c.SameButVectors c1 := .foldl (fun _ _ => by exact rfl) x.regs c
  exact h1.trans (.foldl (fun _ _ => by exact rfl) x.masks c1)

/-- A change of the vector registers leaves what the sequencer performs. -/
theorem State.q_setCore_vectors (s : State) {d : Core} (h : s.core.SameButVectors d) : (s.setCore d).q = s.q := by
  rw [State.q, State.core_setCore]
  exact h.queue s.eng

/-! ## A repetition of registers (R139, R141) -/

/-- A repetition that reads and writes registers only issues, with what it computes from the core of its issue cycle. -/
theorem State.regRep_issues {s : State} {a : Active} (ha : s.q.act = some a) (rc : BitVec 10) (sc : BitVec 4) (x : Shape)
    (f : Core → Nat → Out) {i : Nat} (h : s.core.vIssue s.tag a.entry.schk x s.issueAt = .at_ i) :
    ∃ t, s.regRep rc sc x f = .next t ∧ VectorResult s t i x.lat rc sc (f s.core i).regs (f s.core i).masks := by
  have hact := State.act_of_q ha
  let d := (s.core.settle i).put (i + x.lat) (f s.core i)
  have hd : s.core.SameButVectors d := (s.core.settle_vectors i).trans (Core.put_vectors _ _ _)
  have hq : (s.setCore d).q = s.q := s.q_setCore_vectors hd
  have hsact : (s.setCore d).act = s.act := by rw [State.act_eq, hq]; rfl
  obtain ⟨t, ht, hg⟩ := endRep_goesOn (u := (s.setCore d).setAct { s.act with carry := (f s.core i).carry })
    (congrArg Queue.act (State.q_setAct _ _)) i (i + x.lat) rc sc 1
  refine ⟨t, Eq.trans ?_ ht, _, hg⟩
  rw [State.regRep, hact, h, ← hact, ← hsact]
  rfl

/-- A predicated operation on lanes issues: each active lane takes the operation's value of the lanes of A, B and old D. -/
theorem State.laneOp_lanes {s : State} {a : Active} (ha : s.q.act = some a) (o : VWord) (n lat : Nat) (f : Nat → Nat → Nat → Nat)
    {i : Nat} (h : s.core.vIssue s.tag a.entry.schk
      { reads := [o.rA a.rep, o.rB a.rep, o.rD a.rep].take n, readM := [o.mask.toNat], writes := [o.rD a.rep], lat := lat }
      s.issueAt = .at_ i) :
    ∃ t, s.laneOp o n lat f = .next t
      ∧ VectorLanes s t i lat o (o.rD a.rep) (fun j => (s.core.maskAt i o.mask.toNat).getLsbD j)
        (fun j => f (lane (tyBits o.ty) (s.core.vregAt i (o.rA a.rep)) j) (lane (tyBits o.ty) (s.core.vregAt i (o.rB a.rep)) j)
          (lane (tyBits o.ty) (s.core.vregAt i (o.rD a.rep)) j)) := by
  obtain ⟨hrow, hbytes, hpos⟩ := tyBits_lanes o.ty
  unfold State.laneOp
  rw [State.act_of_q ha]
  obtain ⟨t, ht, hres⟩ := State.regRep_issues ha o.rc o.sc _ _ h
  refine ⟨t, ht, _, _, hres, fun j hj _ => lane_packRow hrow _ hj, fun b hb => ?_⟩
  rw [laneMask_bit hpos _ _ hb, decide_eq_true ((Nat.div_lt_iff_lt_mul hpos).mpr (by rw [Nat.mul_comm, hbytes]; exact hb)), Bool.true_and]

end Sys2Proof.Machine

namespace Sys2Proof.Machine
open Sys2Proof.Claims

/-! ## Integer lanes (R144) -/

theorem tyFmt_bits (t : BitVec 3) (e5 : Bool) (h : 4 ≤ t.toNat) : (tyFmt t e5).bits = tyBits t := by
  revert t e5
  decide

theorem lane_lt (w : Nat) (x : Row) (j : Nat) : lane w x j < 2 ^ w := Nat.mod_lt _ (Nat.two_pow_pos w)

/-- The value of a code is the code, modulo the width: a sign only takes one period away. -/
theorem intValue_modEq (g : Fmt) {x : Nat} (h : x < 2 ^ g.bits) : intValue g x ≡ (x : Int) [ZMOD 2 ^ g.bits] := by
  rw [intValue, Nat.mod_eq_of_lt h]
  split
  · exact (Int.modEq_sub_modulus_iff.mpr (Int.ModEq.refl _)).symm
  · exact Int.ModEq.refl _

/-- The code of an integer is that of every number which it equals modulo the width. -/
theorem intCode_of_modEq {w : Nat} {z : Int} {n : Nat} (h : z ≡ (n : Int) [ZMOD 2 ^ w]) : intCode w z % 2 ^ w = n % 2 ^ w := by
  have hn : intCode w z = n % 2 ^ w := by
    rw [intCode, show z % 2 ^ w = (n : Int) % 2 ^ w from h]
    exact_mod_cast Int.toNat_natCast _
  rw [hn, Nat.mod_mod]

theorem clampInt_eq {lo hi : Int} (h : lo ≤ hi) (z : Int) : clampInt lo hi z = max lo (min hi z) := by
  unfold clampInt
  split_ifs <;> omega

/-- A number has the residue of its code. -/
theorem modEq_code (w : Nat) {p z : Int} (h : p = z) : p ≡ ((z % 2 ^ w).toNat : Int) [ZMOD 2 ^ w] := by
  rw [h, Int.toNat_of_nonneg (Int.emod_nonneg z (by positivity))]
  exact (Int.mod_modEq z _).symm

/-- The magnitude of a number, clamped to a range that holds 0. -/
theorem clamp_natAbs {lo hi : Int} (hlo : lo ≤ 0) (hhi : 0 ≤ hi) (z : Int) :
    max lo (min hi (if z < 0 then -z else z)) = min hi (z.natAbs : Int) := by
  split_ifs <;> omega

theorem sub_modEq {w x y : Nat} {p q : Int} (hp : p ≡ (x : Int) [ZMOD 2 ^ w]) (hq : q ≡ (y : Int) [ZMOD 2 ^ w]) (hy : y < 2 ^ w) :
    p - q ≡ ((x + 2 ^ w - y : Nat) : Int) [ZMOD 2 ^ w] := by
  rw [Nat.cast_sub (hy.le.trans (Nat.le_add_left _ _))]
  push_cast
  exact (Int.modEq_add_modulus_iff.mpr hp).sub hq

theorem shiftLeft_mod (w x n : Nat) : (if w ≤ n then 0 else x * 2 ^ n % 2 ^ w) % 2 ^ w = (if w ≤ n then 0 else x * 2 ^ n) % 2 ^ w := by
  split
  · rfl
  · exact Nat.mod_mod _ _

theorem shiftRight_small {w x : Nat} (h : x < 2 ^ w) (n : Nat) : (if w ≤ n then 0 else x / 2 ^ n) = x / 2 ^ n := by
  split
  · next hn => rw [Nat.div_eq_of_lt (h.trans_le (Nat.pow_le_pow_right Nat.two_pos hn))]
  · rfl

theorem range_le (g : Fmt) : g.range.1 ≤ 0 ∧ 0 ≤ g.range.2 := by
  unfold Fmt.range
  split <;> decide

end Sys2Proof.Machine

namespace Sys2Proof.Claims
open Sys2Proof.Machine

theorem VectorLanes.congr {s t : State} {i lat k : Nat} {o : VWord} {on : Nat → Bool} {f g : Nat → Nat}
    (h : VectorLanes s t i lat o k on f) (hfg : ∀ j, f j % 2 ^ tyBits o.ty = g j % 2 ^ tyBits o.ty) : VectorLanes s t i lat o k on g := by
  obtain ⟨data, mask, hres, hlanes, hmask⟩ := h
  exact ⟨data, mask, hres, fun j hj hon => (hlanes j hj hon).trans (hfg j), hmask⟩

/-- The lanes of register k that a repetition of cycle i reads. -/
def laneAt (o : VWord) (s : State) (i k j : Nat) : Nat := lane (tyBits o.ty) (s.core.vregAt i k) j

/-- The word y performs the predicated operation v in latency `lat` whenever its repetition, which reads the first n of A, B and
D, issues in cycle i. -/
def LaneWord (s : State) (a : Active) (o : VWord) (i : Nat) (y : Instr) (n lat : Nat) (v : Nat → Nat) : Prop :=
  s.core.vIssue s.tag a.entry.schk { reads := [o.rA a.rep, o.rB a.rep, o.rD a.rep].take n, readM := [o.mask.toNat],
                                     writes := [o.rD a.rep], lat := lat } s.issueAt = .at_ i →
    ∃ t, exec y s = .next t ∧ VectorLanes s t i lat o (o.rD a.rep) (fun j => (s.core.maskAt i o.mask.toNat).getLsbD j) v

section
variable {s : State} {a : Active} {o : VWord} {i : Nat} {y : Instr} {n lat : Nat} {v : Nat → Nat}

theorem laneOp_performs (ha : s.q.act = some a) {f : Nat → Nat → Nat → Nat} (hexec : exec y s = s.laneOp o n lat f)
    (hv : ∀ j, f (laneAt o s i (o.rA a.rep) j) (laneAt o s i (o.rB a.rep) j) (laneAt o s i (o.rD a.rep) j) % 2 ^ tyBits o.ty
      = v j % 2 ^ tyBits o.ty) : LaneWord s a o i y n lat v := fun h => by
  obtain ⟨t, ht, hlanes⟩ := State.laneOp_lanes ha o n lat f h
  exact ⟨t, hexec.trans ht, hlanes.congr hv⟩

/-- A floating operation: the value of its result, rounded once. -/
theorem floatOp_performs (ha : s.q.act = some a) {f : Val → Val → Val → Val} (hexec : exec y s = s.floatOp o n lat f)
    (hv : ∀ j, o.fmt.roundTo rne (f (o.fmt.value (laneAt o s i (o.rA a.rep) j)) (o.fmt.value (laneAt o s i (o.rB a.rep) j))
      (o.fmt.value (laneAt o s i (o.rD a.rep) j))) = v j) : LaneWord s a o i y n lat v :=
  laneOp_performs ha (f := fun x y z => o.fmt.roundTo rne (f (o.fmt.value x) (o.fmt.value y) (o.fmt.value z))) hexec
    fun j => congrArg (· % 2 ^ tyBits o.ty) (hv j)

/-- An integer operation that wraps: any number equal to its result modulo the width. -/
theorem wrapOp_performs (ha : s.q.act = some a) {f : Int → Int → Int → Int} (hexec : exec y s = s.wrapOp o n lat f)
    (hv : ∀ j, f (intValue o.fmt (laneAt o s i (o.rA a.rep) j)) (intValue o.fmt (laneAt o s i (o.rB a.rep) j))
      (intValue o.fmt (laneAt o s i (o.rD a.rep) j)) ≡ (v j : Int) [ZMOD 2 ^ tyBits o.ty]) : LaneWord s a o i y n lat v :=
  laneOp_performs ha (f := fun x y z => intCode (tyBits o.ty) (f (intValue o.fmt x) (intValue o.fmt y) (intValue o.fmt z))) hexec
    fun j => intCode_of_modEq (hv j)

/-- An integer operation that saturates. -/
theorem satOp_performs (ha : s.q.act = some a) {f : Int → Int → Int} (hexec : exec y s = s.satOp o n f)
    (hv : ∀ j, (max o.fmt.range.1 (min o.fmt.range.2 (f (intValue o.fmt (laneAt o s i (o.rA a.rep) j))
      (intValue o.fmt (laneAt o s i (o.rB a.rep) j)))) % 2 ^ tyBits o.ty).toNat = v j) : LaneWord s a o i y n 2 v := by
  refine laneOp_performs ha (f := fun x y _ => intCode (tyBits o.ty)
    (clampInt o.fmt.range.1 o.fmt.range.2 (f (intValue o.fmt x) (intValue o.fmt y)))) hexec fun j => ?_
  obtain ⟨hlo, hhi⟩ := range_le o.fmt
  rw [clampInt_eq (hlo.trans hhi), ← hv j]
  rfl

end

/-- Settles O32: each word is a `State.laneOp`, whose lanes `State.laneOp_lanes` gives; the integer operations wrap by
`intCode_of_modEq` and saturate by `clampInt_eq`. -/
theorem vectorArithmetic : Obligations.VectorArithmetic := by
  intro s a o i r w g iv on A B D issues sum ha
  refine ⟨fun _ => ?_, fun hty => ?_, laneOp_performs ha (rfl : execVmov o s = _) fun _ => rfl⟩
  · have hop {y : Instr} {n lat : Nat} {v : Nat → Nat} {f : Val → Val → Val → Val} (hexec : exec y s = s.floatOp o n lat f) :=
      floatOp_performs (i := i) (v := v) ha hexec
    simp only [List.forall_mem_cons, List.not_mem_nil, false_imp_iff, implies_true, and_true]
    exact ⟨⟨hop (rfl : execVadd o s = _) fun _ => rfl, hop (rfl : execVsub o s = _) fun _ => rfl,
        hop (rfl : execVmul o s = _) fun _ => rfl, hop (rfl : execVmin o s = _) fun _ => rfl,
        hop (rfl : execVmax o s = _) fun _ => rfl⟩,
      ⟨hop (rfl : execVfma o s = _) fun _ => rfl, hop (rfl : execVfms o s = _) fun _ => rfl,
        hop (rfl : execVfnm o s = _) fun _ => rfl⟩,
      hop (rfl : execVabs o s = _) fun _ => rfl, hop (rfl : execVneg o s = _) fun _ => rfl,
      hop (rfl : execVrcp o s = _) fun _ => rfl, hop (rfl : execVrsq o s = _) fun _ => rfl,
      hop (rfl : execVsqrt o s = _) fun _ => rfl, hop (rfl : execVexp2 o s = _) fun _ => rfl,
      hop (rfl : execVlog2 o s = _) fun _ => rfl, hop (rfl : execVtanh o s = _) fun _ => rfl⟩
  · have hmod {x : Nat} (hx : x < 2 ^ w) : iv x ≡ (x : Int) [ZMOD 2 ^ w] := by
      have hbits : g.bits = w := tyFmt_bits o.ty o.variant hty
      rw [← hbits] at hx ⊢
      exact intValue_modEq g hx
    have hA (j : Nat) : iv (A j) ≡ (A j : Int) [ZMOD 2 ^ w] := hmod (lane_lt w _ j)
    have hB (j : Nat) : iv (B j) ≡ (B j : Int) [ZMOD 2 ^ w] := hmod (lane_lt w _ j)
    have hD (j : Nat) : iv (D j) ≡ (D j : Int) [ZMOD 2 ^ w] := hmod (lane_lt w _ j)
    have hwrap {y : Instr} {n lat : Nat} {v : Nat → Nat} {f : Int → Int → Int → Int} (hexec : exec y s = s.wrapOp o n lat f) :=
      wrapOp_performs (i := i) (v := v) ha hexec
    have hsat {y : Instr} {n : Nat} {v : Nat → Nat} {f : Int → Int → Int} (hexec : exec y s = s.satOp o n f) :=
      satOp_performs (i := i) (v := v) ha hexec
    have hlane {y : Instr} {n lat : Nat} {v : Nat → Nat} {f : Nat → Nat → Nat → Nat} (hexec : exec y s = s.laneOp o n lat f) :=
      laneOp_performs (i := i) (v := v) ha hexec
    simp only [List.forall_mem_cons, List.not_mem_nil, false_imp_iff, implies_true, and_true]
    refine ⟨⟨?add, ?sub, ?mul, ?mulh, ?shl, ?shr, hlane (rfl : execVsra o s = _) fun _ => rfl,
      hlane (rfl : execVand o s = _) fun _ => rfl, hlane (rfl : execVor o s = _) fun _ => rfl,
      hlane (rfl : execVxor o s = _) fun _ => rfl, ?min, ?max, hsat (rfl : execVsadd o s = _) fun _ => rfl,
      hsat (rfl : execVssub o s = _) fun _ => rfl⟩, ?abs, ?mac⟩
    case add => exact hwrap (rfl : execViadd o s = _) fun j => by exact_mod_cast (hA j).add (hB j)
    case sub => exact hwrap (rfl : execVisub o s = _) fun j => sub_modEq (hA j) (hB j) (lane_lt w _ j)
    case mul => exact hwrap (rfl : execVimul o s = _) fun j => by exact_mod_cast (hA j).mul (hB j)
    case mulh => exact hwrap (rfl : execVimulh o s = _) fun _ => modEq_code w rfl
    case shl => exact hlane (rfl : execVshl o s = _) fun j => shiftLeft_mod w _ _
    case shr => exact hlane (rfl : execVshr o s = _) fun j => congrArg (· % 2 ^ w) (shiftRight_small (lane_lt w _ j) _)
    case min =>
      exact hwrap (rfl : execVimin o s = _) fun _ => modEq_code w ((min_def_lt _ _).symm.trans (min_comm _ _))
    case max => exact hwrap (rfl : execVimax o s = _) fun _ => modEq_code w (max_def_lt _ _).symm
    case abs =>
      refine hsat (rfl : execViabs o s = _) fun j => ?_
      exact congrArg (fun z : Int => (z % 2 ^ w).toNat) (clamp_natAbs (range_le g).1 (range_le g).2 (iv (A j)))
    case mac => exact hwrap (rfl : execVimac o s = _) fun j => by exact_mod_cast (hD j).add ((hA j).mul (hB j))

end Sys2Proof.Claims

namespace Sys2Proof.Machine
open Sys2Proof.Claims

/-! ## Lanes of a load (R153) -/

/-- A lane added where a number has none is read back, and the other lanes stay. -/
theorem lane_add {w a v N : Nat} (hv : v < 2 ^ w) (h0 : N / 2 ^ (w * a) % 2 ^ w = 0) (j : Nat) :
    (N + v * 2 ^ (w * a)) / 2 ^ (w * j) % 2 ^ w = if j = a then v else N / 2 ^ (w * j) % 2 ^ w := by
  have hdiv : (N + v * 2 ^ (w * a)) / 2 ^ (w * a) = N / 2 ^ (w * a) + v := Nat.add_mul_div_right _ _ (Nat.two_pow_pos _)
  rcases lt_trichotomy j a with hlt | rfl | hgt
  · obtain ⟨d, rfl⟩ := Nat.exists_eq_add_of_lt hlt
    have hpow : v * 2 ^ (w * (j + d + 1)) = 2 ^ (w * j) * (2 ^ w * (v * 2 ^ (w * d))) := by ring
    rw [if_neg hlt.ne, hpow, Nat.add_mul_div_left _ _ (Nat.two_pow_pos _), Nat.add_mul_mod_self_left]
  · rw [if_pos rfl, hdiv, Nat.add_mod, h0, Nat.zero_add, Nat.mod_mod, Nat.mod_eq_of_lt hv]
  · obtain ⟨d, rfl⟩ := Nat.exists_eq_add_of_lt hgt
    have hpow : 2 ^ (w * (a + d + 1)) = 2 ^ (w * a) * (2 ^ w * 2 ^ (w * d)) := by ring
    have hadd : (N / 2 ^ (w * a) + v) / 2 ^ w = N / 2 ^ (w * a) / 2 ^ w := by
      obtain ⟨q, hq⟩ := Nat.dvd_of_mod_eq_zero h0
      rw [hq, Nat.mul_add_div (Nat.two_pow_pos w), Nat.div_eq_of_lt hv, Nat.add_zero, Nat.mul_div_cancel_left _ (Nat.two_pow_pos w)]
    rw [if_neg hgt.ne', hpow]
    simp only [← Nat.div_div_eq_div_mul, hdiv, hadd]

/-- Lanes that are added where a number has none: each is read back, and no other lane changes. -/
theorem foldl_lanes (w : Nat) (f : LaneLoc → Nat) (ls : List LaneLoc) (hnd : (ls.map (fun l => l.lane)).Nodup) (N : Nat)
    (h0 : ∀ l ∈ ls, N / 2 ^ (w * l.lane) % 2 ^ w = 0) :
    (∀ l ∈ ls, ls.foldl (fun n x => n + f x % 2 ^ w * 2 ^ (w * x.lane)) N / 2 ^ (w * l.lane) % 2 ^ w = f l % 2 ^ w)
      ∧ ∀ j, (∀ l ∈ ls, l.lane ≠ j) →
        ls.foldl (fun n x => n + f x % 2 ^ w * 2 ^ (w * x.lane)) N / 2 ^ (w * j) % 2 ^ w = N / 2 ^ (w * j) % 2 ^ w := by
  induction ls generalizing N with
  | nil => exact ⟨nofun, fun _ _ => rfl⟩
  | cons x ls ih =>
    rw [List.map_cons, List.nodup_cons] at hnd
    obtain ⟨hx, hnd⟩ := hnd
    have hne (l : LaneLoc) (hl : l ∈ ls) : l.lane ≠ x.lane := fun e => hx (e ▸ List.mem_map_of_mem hl)
    have hadd := lane_add (Nat.mod_lt (f x) (Nat.two_pow_pos w)) (h0 x List.mem_cons_self)
    obtain ⟨hin, hout⟩ := ih hnd (N + f x % 2 ^ w * 2 ^ (w * x.lane)) fun l hl => by
      rw [hadd, if_neg (hne l hl)]
      exact h0 l (List.mem_cons_of_mem _ hl)
    simp only [List.foldl_cons, List.forall_mem_cons]
    refine ⟨⟨?_, hin⟩, fun j ⟨hxj, hj⟩ => ?_⟩
    · rw [hout x.lane hne, hadd, if_pos rfl]
    · rw [hout j hj, hadd, if_neg (Ne.symm hxj)]

/-- A lane inside a register is not cut by its width. -/
theorem lane_ofNat {w e j : Nat} (hw : w * e = 1024) (hj : j < e) (N : Nat) :
    lane w (BitVec.ofNat 1024 N) j = N / 2 ^ (w * j) % 2 ^ w := by
  have hle : w * j + w ≤ 1024 := hw ▸ Nat.mul_le_mul_left w hj
  rw [lane, BitVec.toNat_ofNat]
  refine Nat.eq_of_testBit_eq fun i => ?_
  simp only [Nat.testBit_mod_two_pow, Nat.testBit_div_two_pow]
  by_cases hi : i < w
  · rw [decide_eq_true (by omega : i + w * j < 1024), Bool.true_and]
  · rw [decide_eq_false hi, Bool.false_and, Bool.false_and]

/-- The register data of a load: the element of each lane, zero elsewhere. -/
theorem lane_lanesRow {w e : Nat} (hw : w * e = 1024) (rows : List (Loc × RowRead)) {ls : List LaneLoc}
    (hnd : (ls.map (fun l => l.lane)).Nodup) (hlt : ∀ l ∈ ls, l.lane < e) :
    (∀ l ∈ ls, lane w (lanesRow w ls rows) l.lane = (l.value rows).getD 0 % 2 ^ w)
      ∧ ∀ j, j < e → (∀ l ∈ ls, l.lane ≠ j) → lane w (lanesRow w ls rows) j = 0 := by
  obtain ⟨hin, hout⟩ := foldl_lanes w (fun x => (x.value rows).getD 0) ls hnd 0 fun _ _ => by rw [Nat.zero_div, Nat.zero_mod]
  refine ⟨fun l hl => (lane_ofNat hw (hlt l hl) _).trans (hin l hl), fun j hj h => (lane_ofNat hw hj _).trans ?_⟩
  rw [hout j h, Nat.zero_div, Nat.zero_mod]

/-! ## A row read leaves the sequencer (R192) -/

/-- State t has the acting sequencer of s, with the same queue. -/
structure State.SameQueue (s t : State) : Prop where
  eng : t.eng = s.eng
  q : t.q = s.q

theorem State.SameQueue.refl (s : State) : s.SameQueue s := ⟨rfl, rfl⟩

theorem State.SameQueue.trans {s t u : State} (h : s.SameQueue t) (k : t.SameQueue u) : s.SameQueue u :=
  ⟨k.eng.trans h.eng, k.q.trans h.q⟩

theorem State.SameQueue.of_cores {s t : State} (h : s.SameCores t) (he : t.eng = s.eng) : s.SameQueue t :=
  ⟨he, by rw [State.q, State.q, h.core, he]⟩

theorem State.putPhys_eng (s : State) (a n v : Nat) : (s.putPhys a n v).eng = s.eng := by
  obtain ⟨m, mp, w, wp, hput⟩ := s.putPhys_frame a n v
  rw [hput]

theorem touchLeaves_eng (wr : Bool) (s : State) (l : List Nat) : (touchLeaves wr s l).eng = s.eng :=
  List.foldlRecOn (motive := fun t : State => t.eng = s.eng) l (touchLeaf wr) rfl fun t ht pa _ =>
    (t.putPhys_eng pa 8 _).trans ht

theorem State.translate_eng (s : State) (unit ctx a : Nat) (wr : Bool) : (s.translate unit ctx a wr).1.eng = s.eng := by
  unfold State.translate
  split
  · rfl
  · unfold State.walkFill
    extract_lets r s1 x
    have h : s1.eng = s.eng := touchLeaves_eng wr s r.leaves
    split <;> exact h

theorem State.logSlot_eng (s : State) (ctx v : Nat) : (s.logSlot ctx v).eng = s.eng := by
  unfold State.logSlot
  extract_lets va x0 s1
  split
  · next a _ =>
    have h := s1.translate_eng 8 ctx a true
    split
    next s2 x heq =>
    rw [heq] at h
    split
    · exact (s2.putPhys_eng _ 32 v).trans h
    · exact h
  · rfl

theorem State.logRecord_eng (s : State) (ctx kind sub detail lcore eng launch taskn : Nat) (conts : List Nat) :
    (s.logRecord ctx kind sub detail lcore eng launch taskn conts).eng = s.eng := by
  unfold State.logRecord
  extract_lets s1 s2
  have h1 : s1.eng = s.eng := s.logSlot_eng ctx _
  have h2 : s2.eng = s1.eng := List.foldlRecOn (motive := fun t : State => t.eng = s1.eng) conts _ rfl
    fun t ht v _ => (t.logSlot_eng ctx v).trans ht
  obtain ⟨m, mp, w, wp, h, hev, -⟩ := s2.event_frame 3 ctx (Config.eventArg 3).toNat (Config.eventVector 3)
  rw [hev]
  exact h2.trans h1

theorem State.logRecord_sameQueue (s : State) (ctx kind sub detail lcore eng launch taskn : Nat) (conts : List Nat) :
    s.SameQueue (s.logRecord ctx kind sub detail lcore eng launch taskn conts) :=
  .of_cores (s.logRecord_sameCores ctx _ _ _ _ _ _ _ _) (s.logRecord_eng ctx _ _ _ _ _ _ _ _)

theorem State.logMalformed_sameQueue (s : State) (ctx lcore : Nat) (bad : Option (Nat × Nat × Nat)) :
    s.SameQueue (s.logMalformed ctx lcore bad) := by
  cases bad with
  | none => exact .refl s
  | some b => exact s.logRecord_sameQueue ctx _ _ _ _ _ _ _ _

/-- A trap that a poisoned row defers waits beside the queues (R114). -/
theorem State.defer_sameQueue (s : State) (code : BitVec 8) (value : Word) (pc : Option Word) :
    s.SameQueue (s.defer code value pc) := by
  refine ⟨rfl, ?_⟩
  rw [State.q, State.q, State.defer, State.core_upd, State.upd_eng]
  cases s.eng <;> rfl

theorem State.logPoison_sameQueue (s : State) (r : Reader) (loc : Loc) (ecc : Bool) : s.SameQueue (s.logPoison r loc ecc) := by
  unfold State.logPoison
  obtain ⟨space, addr⟩ := logAddr loc
  have h := s.logRecord_sameQueue s.ctx 0x01 space (addr * 2 ^ 32 + r.seq % 2 ^ 32) s.cur r.eng r.launch r.task []
  show s.SameQueue (if _ then _ else _)
  split
  · exact h.trans (State.defer_sameQueue _ _ _ _)
  · exact h

theorem State.resolve_sameQueue (s : State) (ctx n : Nat) (loc : Loc) (wr : Bool) : s.SameQueue (s.resolve ctx n loc wr).1 := by
  unfold State.resolve
  split
  · split
    · exact .refl s
    · exact .refl s
    · next a _ =>
      have h1 : s.SameQueue (s.translate (if 256 ≤ n then 8 else dieOf n) ctx a wr).1 :=
        .of_cores (s.translate_sameCores _ ctx a wr) (s.translate_eng _ ctx a wr)
      generalize s.translate (if 256 ≤ n then 8 else dieOf n) ctx a wr = r at h1
      obtain ⟨s1, x⟩ := r
      have h2 := h1.trans (s1.logMalformed_sameQueue ctx n x.bad)
      simp only
      split
      · split <;> exact h2
      · exact h2
      · exact h2
  · split <;> exact .refl s

theorem State.correct_sameQueue (s : State) (p : Spot) : s.SameQueue (s.correct p) := by
  obtain ⟨f, v, h⟩ := s.correct_eq p
  rw [h]
  exact ⟨rfl, rfl⟩

theorem State.readTarget_sameQueue (s : State) (r : Reader) (loc : Loc) (tg : Target) : s.SameQueue (s.readTarget r loc tg).1 := by
  cases tg with
  | spot p =>
    simp only [State.readTarget]
    split
    · exact (s.correct_sameQueue p).trans (State.logPoison_sameQueue _ r loc true)
    · exact s.correct_sameQueue p
  | wait => cases loc <;> exact ⟨rfl, rfl⟩
  | absent | discarded | bounds | remote => exact .refl s

theorem State.readLoc_sameQueue (s : State) (r : Reader) (loc : Loc) : s.SameQueue (s.readLoc r loc).1 :=
  (s.resolve_sameQueue s.ctx s.cur loc false).trans (State.readTarget_sameQueue _ r loc _)

theorem State.farRow_sameQueue (s : State) (r : Reader) (tag : Tag) (pkg : Nat) (loc : Loc) (va : Nat) :
    s.SameQueue (s.farRow r tag pkg loc va).1 := by
  unfold State.farRow
  split
  · exact s.logPoison_sameQueue r loc true
  · exact .refl s
  · split
    · exact .refl s
    · exact ⟨rfl, rfl⟩

theorem engRow_sameQueue (r : Reader) (tag : Tag) (s : State) (loc : Loc) : s.SameQueue (engRow r tag s loc).1 := by
  unfold engRow
  have h := s.readLoc_sameQueue r loc
  split
  · next s1 g a hr =>
    rw [hr] at h
    exact h.trans (s1.farRow_sameQueue r tag g _ a)
  · exact h

end Sys2Proof.Machine

namespace Sys2Proof.Machine
open Sys2Proof.Claims

/-! ## What a load leaves of its core (R131, R153, R154) -/

/-- Core d is core c but for mask writes on their way and the residency gathered. -/
def Core.SameButMasks (c d : Core) : Prop := d = { c with pendM := d.pendM, vmasks := d.vmasks }

theorem Core.SameButMasks.refl (c : Core) : c.SameButMasks c := rfl

theorem Core.SameButMasks.trans {c d e : Core} (h : c.SameButMasks d) (k : d.SameButMasks e) : c.SameButMasks e :=
  Eq.trans k (congrArg (fun x : Core => { x with pendM := e.pendM, vmasks := e.vmasks }) h)

theorem Core.SameButMasks.fields {c d : Core} (h : c.SameButMasks d) :
    d.pendV = c.pendV ∧ d.vloads = c.vloads ∧ d.loadedAt = c.loadedAt ∧ d.pc = c.pc ∧ d.s = c.s ∧ ∀ e, d.queue e = c.queue e := by
  rw [show d = _ from h]
  exact ⟨rfl, rfl, rfl, rfl, rfl, fun e => by cases e <;> rfl⟩

theorem Core.SameButVectors.fields {c d : Core} (h : c.SameButVectors d) :
    d.vloads = c.vloads ∧ d.loadedAt = c.loadedAt ∧ d.pc = c.pc ∧ d.s = c.s := by
  rw [show d = _ from h]
  exact ⟨rfl, rfl, rfl, rfl⟩

/-- A mask that goes on its way leaves the vector registers. -/
theorem Core.put_mask (c : Core) (land : Nat) (w : Nat × BitVec 128) : c.SameButMasks (c.put land { masks := [w] }) := rfl

theorem Core.updMask_masks (c : Core) (id : Nat) (f : VMask → VMask) : c.SameButMasks (c.updMask id f) := rfl

theorem Core.closeMask_masks (c : Core) (id land : Nat) : c.SameButMasks (c.closeMask id land) := by
  unfold Core.closeMask
  split
  · split <;> rfl
  · rfl

theorem mem_insertPend_self (p : PendReg) (l : List PendReg) : p ∈ insertPend p l := by
  induction l with
  | nil => exact List.mem_singleton_self p
  | cons q l ih =>
    unfold insertPend
    split
    · exact List.mem_cons_self
    · exact List.mem_cons_of_mem _ ih

/-- The data of a load are on their way to its register. -/
theorem Core.put_pending (c : Core) (land reg : Nat) (data : Row) (mask : BitVec 128) :
    { reg := reg, land := land, data := data, mask := mask } ∈ (c.put land { regs := [(reg, data, mask)] }).pendV :=
  mem_insertPend_self _ c.pendV

/-- State t is state s but for mask writes on their way and the residency gathered by the acting core. -/
def State.MasksOnly (s t : State) : Prop := OnlyCore s t ∧ s.core.SameButMasks t.core

theorem State.MasksOnly.refl (s : State) : s.MasksOnly s := ⟨⟨rfl, .refl s, fun _ _ _ => rfl⟩, .refl _⟩

theorem State.MasksOnly.upd (s : State) {f : Core → Core} (h : s.core.SameButMasks (f s.core)) : s.MasksOnly (s.upd f) :=
  ⟨.upd s f, (State.core_upd s f).symm ▸ h⟩

theorem State.MasksOnly.q {s t : State} (h : s.MasksOnly t) : t.q = s.q := by
  obtain ⟨⟨hframe, -, -⟩, hcore⟩ := h
  obtain ⟨-, -, -, -, -, hq⟩ := hcore.fields
  rw [State.q, State.q, hq, show t.eng = s.eng by rw [hframe]]

/-- A repetition that gathers residency keeps it with its entry; the mask is on its way after the last one (R154). -/
theorem State.gatherResid_masks (s : State) (o : VWord) (land : Nat) (slots : BitVec 128) :
    (s.setAct { s.act with resid := s.act.residSoFar &&& slots }).MasksOnly (s.gatherResid o land slots) := by
  unfold State.gatherResid
  extract_lets x a s1
  split
  · exact .refl s1
  · split
    · exact .upd s1 (Core.put_mask _ _ _)
    · exact .upd s1 ((Core.updMask_masks _ _ _).trans (Core.closeMask_masks _ _ _))

/-- A repetition that has gathered residency: its entry is at work as before, the vector registers are as they were. -/
theorem State.gatherResid_spec (s : State) (o : VWord) (land : Nat) (slots : BitVec 128) :
    (∃ b, (s.gatherResid o land slots).q.act = some b) ∧ OnlyCore s (s.gatherResid o land slots)
      ∧ (s.gatherResid o land slots).core.pendV = s.core.pendV ∧ (s.gatherResid o land slots).core.vloads = s.core.vloads := by
  have h := s.gatherResid_masks o land slots
  obtain ⟨hpend, hloads, -, -, -, -⟩ := h.2.fields
  refine ⟨?_, (OnlyCore.upd s _).trans h.1, hpend.trans ?_, hloads.trans ?_⟩
  · rw [h.q, State.q_setAct]
    exact ⟨_, rfl⟩
  · rw [State.setAct, State.setQ, State.core_upd, Core.setQueue_pendV]
  · rw [State.setAct, State.setQ, State.core_upd, Core.setQueue_vloads]

/-- A load of variable latency goes behind the core's loads (R131). -/
theorem State.pushLoad_spec (s : State) (o : VWord) (reg n : Nat) (ls : List LaneLoc) (conv : List Nat) :
    OnlyCore s (s.pushLoad o reg n ls conv) ∧ ∃ v : VLoad, (s.pushLoad o reg n ls conv).core.vloads = s.core.vloads ++ [v]
      ∧ v.reg = reg ∧ v.lanes = ls ∧ v.width = tyBits o.ty ∧ v.tag = s.tag ∧ v.got = [] := by
  unfold State.pushLoad
  extract_lets w made id
  have hmade : s.MasksOnly made := by
    show s.MasksOnly (if _ then _ else _)
    split
    · exact .refl s
    · split
      · exact .refl s
      · exact .upd s rfl
  obtain ⟨-, hloads, -, -, -, -⟩ := hmade.2.fields
  refine ⟨hmade.1.trans (.upd made _), ?_⟩
  rw [State.core_upd, ← hloads]
  exact ⟨_, rfl, rfl, rfl, rfl, rfl, rfl⟩

/-! ## A repetition from the core's own vault (R131, R153) -/

/-- The state with the lanes of a load of cycle i on their way to its register (R131). -/
def State.landLanes (s : State) (o : VWord) (n i : Nat) (ls : List LaneLoc) (rows : List (Loc × RowRead)) : State :=
  s.upd (fun c => (c.settle i).put (i + 12)
    { regs := [(o.rD s.act.rep, lanesRow (tyBits o.ty) ls rows, laneMask (tyBits o.ty) n (fun _ => true))] })

theorem State.landLanes_pending (s : State) (o : VWord) (n i : Nat) (ls : List LaneLoc) (rows : List (Loc × RowRead)) :
    (⟨o.rD s.act.rep, i + 12, lanesRow (tyBits o.ty) ls rows, laneMask (tyBits o.ty) n (fun _ => true)⟩ : PendReg)
      ∈ (s.landLanes o n i ls rows).core.pendV := by
  rw [State.landLanes, State.core_upd]
  exact Core.put_pending _ _ _ _ _

theorem State.partRead_reads {s s1 : State} {rd : RowReader} {p : RepPart} {l : Loc} {rest : List Loc} {x : RowRead}
    (hp : p.todo = l :: rest) (h : rd s l = (s1, x)) (hx : x ≠ .wait) :
    s.partRead rd p = if rest.isEmpty then .all s1 { p with todo := rest, got := p.got ++ [(l, x.kept)] }
      else .more (.next (s1.keepPart { p with todo := rest, got := p.got ++ [(l, x.kept)] })) := by
  rw [State.partRead, hp]
  cases x with
  | wait => exact absurd rfl hx
  | _ => simp only [h]

theorem State.partRead_waits {s s1 : State} {rd : RowReader} {p : RepPart} {l : Loc} {rest : List Loc}
    (hp : p.todo = l :: rest) (h : rd s l = (s1, .wait)) : s.partRead rd p = .more (s1.keepPart p).wordWait := by
  simp only [State.partRead, hp, h]

end Sys2Proof.Machine

namespace Sys2Proof.Claims
open Sys2Proof.Machine

/-- With its last row read, a load of the own vault lands 12 cycles after its issue. -/
theorem ownLoaded_lands {s : State} {a : Active} (ha : s.q.act = some a) (o : VWord) (n : Nat) (p : RepPart)
    (got : List (Loc × Option Row)) :
    ∃ t, s.ownLoaded o n (max p.at_ s.issueAt) p.lanes (keptRows got) = .next t ∧ LoadLands s t o n a.rep p got := by
  let i := max p.at_ s.issueAt
  let u := s.landLanes o n i p.lanes (keptRows got)
  obtain ⟨⟨b, hb⟩, honly, hpend, -⟩ := u.gatherResid_spec o (i + 12) (residentSlots p.lanes (keptRows got))
  obtain ⟨t, ht, hg⟩ := endRep_goesOn hb i (i + 12) o.rc o.sc 1
  obtain ⟨hrow, -, hpos⟩ := tyBits_lanes o.ty
  refine ⟨t, ht, fun hnd hlt => ?_⟩
  obtain ⟨hin, hout⟩ := lane_lanesRow hrow (keptRows got) hnd hlt
  have hmem := s.landLanes_pending o n i p.lanes (keptRows got)
  rw [State.act_of_q ha] at hmem
  refine ⟨_, _, _, hg, ((OnlyCore.upd s _).trans honly).2.1, hpend ▸ hmem, fun b hb => ?_, hin, hout⟩
  rw [laneMask_bit hpos _ _ hb, Bool.and_true]

/-- A repetition from the own vault reads its next row, or lands when it has none left. -/
theorem ownLoad_turn {s : State} {a : Active} (ha : s.q.act = some a) (o : VWord) (n : Nat) (p : RepPart) :
    ∃ t, s.ownLoad o n p = .next t ∧ LoadTurn s t o n p := by
  have hact := State.act_of_q ha
  cases hp : p.todo with
  | nil =>
    obtain ⟨t, ht, hl⟩ := ownLoaded_lands ha o n p p.got
    refine ⟨t, ?_, fun _ => hact ▸ hl, fun l rest s2 x h => absurd (hp.symm.trans h) nofun⟩
    simp only [State.ownLoad, State.partRead, hp]
    exact ht
  | cons l rest =>
    have hq := engRow_sameQueue (s.readerOf s.act.entry) s.tag s l
    cases hrow : engRow (s.readerOf s.act.entry) s.tag s l with
    | mk s1 x =>
    rw [hrow] at hq
    suffices h : ∃ t, s.ownLoad o n p = .next t ∧ (x ≠ .wait →
        (rest ≠ [] → CoreBecomes s1 t (s1.core.setQueue s1.eng { s1.q with
          act := some { s1.act with part := some { p with todo := rest, got := p.got ++ [(l, x.kept)] }, fresh := false } }))
        ∧ (rest = [] → LoadLands s1 t o n s.act.rep p (p.got ++ [(l, x.kept)]))) by
      obtain ⟨t, ht, hturn⟩ := h
      refine ⟨t, ht, fun h => absurd (hp.symm.trans h) nofun, fun l' rest' s2 y h h' hy => ?_⟩
      obtain ⟨rfl, rfl⟩ := List.cons.inj (hp.symm.trans h)
      obtain ⟨rfl, rfl⟩ := Prod.mk.inj (hrow.symm.trans h')
      exact hturn hy
    by_cases hx : x = .wait
    · rw [hx] at hrow
      rw [State.ownLoad, State.partRead_waits hp hrow]
      exact ⟨_, rfl, fun h => absurd hx h⟩
    · rw [State.ownLoad, State.partRead_reads hp hrow hx]
      by_cases hr : rest = []
      · obtain ⟨t, ht, hl⟩ := ownLoaded_lands (hq.q ▸ ha : s1.q.act = some a) o n p (p.got ++ [(l, x.kept)])
        rw [hr]
        exact ⟨t, ht, fun _ => ⟨absurd rfl, fun _ => hact ▸ hl⟩⟩
      · rw [if_neg (by simpa using hr)]
        exact ⟨_, rfl, fun _ => ⟨fun _ => .setQ s1 _, fun h => absurd h hr⟩⟩

end Sys2Proof.Claims

namespace Sys2Proof.Machine
open Sys2Proof.Claims

/-! ## A repetition of vld or vgath up to its lanes (R109, R152, R154) -/

/-- The word's tables leave its place, its entry and the vector registers as they are (R109). -/
theorem State.readTables_spec {s : State} {a : Active} (ha : s.q.act = some a) (o : VWord) :
    (∃ b, (s.readTables o).q.act = some b ∧ b.entry = a.entry ∧ b.rep = a.rep ∧ b.part = a.part)
      ∧ ∀ i k, (s.readTables o).core.vregAt i k = s.core.vregAt i k := by
  have hact := State.act_of_q ha
  unfold State.readTables
  split
  · refine ⟨⟨_, by rw [State.q_setAct], ?_⟩, fun i k => ?_⟩
    · rw [hact]
      exact ⟨rfl, rfl, rfl⟩
    · rw [State.setAct, State.setQ, State.core_upd, Core.vregAt, Core.vregAt, Core.setQueue_pendV, Core.setQueue_v]
  · exact ⟨⟨a, ha, rfl, rfl, rfl⟩, fun _ _ => rfl⟩

/-- With rows still to read, a repetition does not read its tables again. -/
theorem State.readTables_part {s : State} {a : Active} {p : RepPart} (ha : s.q.act = some a) (hp : a.part = some p) (o : VWord) :
    s.readTables o = s := by
  rw [State.readTables, State.act_of_q ha, hp]
  exact if_neg (fun h => Bool.noConfusion h.2)

/-- A vault counts a group of rows; nothing else changes (R249). -/
theorem State.noteGroup_frame (s : State) (e : Option Eng) (ls : List Loc) : ∃ ring, s.noteGroup e ls = { s with ring := ring } := by
  unfold State.noteGroup
  extract_lets l vaults
  refine List.foldlRecOn (motive := fun t : State => ∃ ring, t = { s with ring := ring }) vaults _ ⟨s.ring, rfl⟩ fun t ht pq _ => ?_
  obtain ⟨ring, rfl⟩ := ht
  dsimp only
  split <;> exact ⟨_, rfl⟩

theorem State.noteGroup_spec (s : State) (e : Option Eng) (ls : List Loc) :
    (s.noteGroup e ls).core = s.core ∧ (s.noteGroup e ls).cur = s.cur ∧ (s.noteGroup e ls).q = s.q
      ∧ (s.noteGroup e ls).tag = s.tag ∧ SameBytes s (s.noteGroup e ls) := by
  obtain ⟨ring, h⟩ := s.noteGroup_frame e ls
  rw [h]
  exact ⟨rfl, rfl, rfl, rfl, .refl s⟩

/-- A load whose hazards are past and whose lanes resolve goes on with them. -/
theorem State.loadRep_resolves {s : State} {a : Active} (ha : s.q.act = some a) (o : VWord) (n : Nat) (reads : List Nat)
    {lanes : Core → Nat → List (Nat × Pos)} {i : Nat} {ls : List LaneLoc}
    (hi : s.core.vIssue s.tag a.entry.schk
      { reads := reads, writes := [o.rD a.rep], lat := 12,
        writeM := if a.rep = o.rc.toNat ∧ o.mask.toNat ≠ 0 then [o.mask.toNat] else [] } s.issueAt = .at_ i)
    (hls : s.resolveLanes .v s.act.data false [] (lanes s.core i) = .ok ls) :
    s.loadRep o n reads lanes = s.loadLanes o n i ls (s.throughConv s.act.data (lanes s.core i)) := by
  unfold State.loadRep
  extract_lets last shape
  rw [← State.act_of_q ha] at hi
  rw [show s.core.vIssue s.tag s.act.entry.schk shape s.issueAt = .at_ i from hi]
  simp only [hls]

section
variable {s s1 : State} {o : VWord} (h1 : s.readTables o = s1) (hp : s1.act.part = none) (hw : walkUsable s1.act.wrec = true)
  (hd : s1.vecDescOk o s1.act.data false = true) (hk : (walkOf s1.act.wrec).kind = 0)
include h1 hp hw hd hk

theorem execVld_loads (hg : ((walkOf s1.act.wrec).groupLen (tyLanes o.ty) s1.act.rep).isSome = true) :
    execVld o s = s1.loadRep o (tyLanes o.ty) [] (fun _ _ => (walkOf s1.act.wrec).group (tyLanes o.ty) s1.act.rep 0) := by
  have hindex : s1.groupIndex o (walkOf s1.act.wrec) = .at_ s1 0 := by
    rw [State.groupIndex, Walk.indexOf, if_neg (by rw [hk]; decide)]
  simp only [execVld, h1, hp, hw, hd, Option.isNone_eq_false_iff.mpr hg, hindex, Bool.not_true, Bool.false_eq_true, if_false]

theorem execVgath_loads : execVgath o s = s1.loadRep o 32 [o.rA s1.act.rep]
    (fun c t => (walkOf s1.act.wrec).indexed s1.act.rep (c.vregAt t (o.rA s1.act.rep))) := by
  simp only [execVgath, h1, hp, hw, hd, hk, Bool.not_true, bne_self_eq_false, Bool.or_self, Bool.false_eq_true, if_false]

end

theorem execVld_part {s : State} {a : Active} {p : RepPart} (ha : s.q.act = some a) (hp : a.part = some p) (o : VWord) :
    execVld o s = s.ownLoad o (tyLanes o.ty) p := by
  rw [execVld, State.readTables_part ha hp, State.act_of_q ha, hp]

theorem execVgath_part {s : State} {a : Active} {p : RepPart} (ha : s.q.act = some a) (hp : a.part = some p) (o : VWord) :
    execVgath o s = s.ownLoad o 32 p := by
  rw [execVgath, State.readTables_part ha hp, State.act_of_q ha, hp]

/-! ## A row of a load returns (R131, R192) -/

/-- The load leaves the list, and its data are on their way to the register (R131). -/
theorem State.landLoad_spec (s : State) (k : Nat) (x : VLoad) :
    OnlyCore s (s.landLoad k x) ∧ (s.landLoad k x).core.vloads = s.core.vloads.eraseIdx k
      ∧ SMap.get 0 (s.landLoad k x).core.loadedAt x.reg = s.now
      ∧ ({ reg := x.reg, land := s.now, data := lanesRow x.width x.lanes (keptRows x.got), mask := x.mask } : PendReg)
          ∈ (s.landLoad k x).core.pendV
      ∧ (s.landLoad k x).core.pc = s.core.pc ∧ ∀ d : Reg, (s.landLoad k x).core.rd d = s.core.rd d := by
  let d := { s.core with vloads := s.core.vloads.eraseIdx k, loadedAt := SMap.set 0 s.core.loadedAt x.reg s.now }
  let e := d.put s.now { regs := [(x.reg, lanesRow x.width x.lanes (keptRows x.got), x.mask)] }
  let f := (e.updMask x.group fun m =>
    { m with acc := m.acc &&& residentSlots x.lanes (keptRows x.got), left := m.left - 1 }).closeMask x.group s.now
  have hf : e.SameButMasks f := (Core.updMask_masks _ _ _).trans (Core.closeMask_masks _ _ _)
  obtain ⟨hpend, hloads, hat, hpc, hs, -⟩ := hf.fields
  obtain ⟨hloads1, hat1, hpc1, hs1⟩ := (d.put_vectors s.now _ : d.SameButVectors e).fields
  rw [show (s.landLoad k x).core = f.dropFar x.tag from State.core_upd _ _]
  refine ⟨OnlyCore.upd s fun _ => f.dropFar x.tag, hloads.trans hloads1, ?_, ?_, hpc.trans hpc1, fun r => ?_⟩
  · rw [show (f.dropFar x.tag).loadedAt = d.loadedAt from hat.trans hat1]
    exact SMap.get_set_same 0 _ _ _
  · rw [show (f.dropFar x.tag).pendV = e.pendV from hpend]
    exact Core.put_pending _ _ _ _ _
  · rw [Core.rd, Core.rd, show (f.dropFar x.tag).s = s.core.s from hs.trans hs1]

theorem execVectorLoadReturn_row {s : State} {j k : Nat} {x : VLoad} {row : Option Loc} (h : Serves s)
    (hx : s.core.vloads[j]? = some x) (hk : s.core.owedRows[k]? = some (j, row)) :
    execVectorLoadReturn s.cur k s = .next (s.loadRow j x row) := by
  simp only [execVectorLoadReturn, State.actor_self h, hk, hx]

/-- A row that answers is kept with the load, which lands with its last. -/
theorem State.loadRow_answers {s s2 : State} {j : Nat} {x : VLoad} {l : Loc} {z : RowRead}
    (hfree : owesRow (s.core.vloads.take j) [l] = false) (hz : z ≠ .wait)
    (hrow : engRow ({ s with eng := .v }.readerOf (s.core.qv.entryOf x.tag.seq)) x.tag s l = (s2, z)) :
    s.loadRow j x (some l) = if (laneRows x.lanes).all (fun m => (x.got ++ [(l, z.kept)]).any (fun y => y.1 == m)) then
        s2.landLoad j { x with got := x.got ++ [(l, z.kept)] }
      else s2.upd (fun c => { c with vloads := c.vloads.set j { x with got := x.got ++ [(l, z.kept)] } }) := by
  rw [State.loadRow, hfree, if_neg Bool.false_ne_true]
  cases z with
  | wait => exact absurd rfl hz
  | _ => simp only [hrow]

end Sys2Proof.Machine

namespace Sys2Proof.Claims
open Sys2Proof.Machine

/-- A repetition with a row outside the own vault issues, and its load goes on its way (R131). -/
theorem farLoad_issues {s : State} {a : Active} (ha : s.q.act = some a) (o : VWord) (n i : Nat) (ls : List LaneLoc)
    (conv : List Nat) :
    ∃ (t u : State) (v : VLoad), (((s.upd (fun c => c.settle i)).pushLoad o (o.rD s.act.rep) n ls conv).gatherResid o i
        (laneSlots ls (fun _ => true))).endRep i i o.rc o.sc = .next t
      ∧ RepGoesOn u t i 1 i o.rc o.sc.toNat ∧ u.core.vloads = s.core.vloads ++ [v] ∧ v.reg = o.rD a.rep ∧ v.lanes = ls
      ∧ v.width = tyBits o.ty ∧ v.tag = s.tag ∧ v.got = [] ∧ SameBytes s u := by
  have hsettle : s.core.SameButVectors (s.core.settle i) := Core.settle_vectors _ i
  have hq : (s.upd (fun c => c.settle i)).q = s.q := s.q_setCore_vectors hsettle
  have htags : (s.upd (fun c => c.settle i)).tag = s.tag := by
    rw [State.tag, State.tag, State.act_eq, State.act_eq, hq, State.upd_eng]
  have honly := OnlyCore.upd s (fun c => c.settle i)
  have hloads : (s.upd (fun c => c.settle i)).core.vloads = s.core.vloads :=
    (congrArg Core.vloads (s.core_upd _)).trans hsettle.fields.1
  generalize s.upd (fun c => c.settle i) = s1 at *
  obtain ⟨hpush, v, hloads1, hreg, hlanes, hwidth, htag, hgot⟩ := s1.pushLoad_spec o (o.rD s.act.rep) n ls conv
  generalize s1.pushLoad o (o.rD s.act.rep) n ls conv = s2 at *
  obtain ⟨⟨b, hb⟩, hgather, -, hloads2⟩ := s2.gatherResid_spec o i (laneSlots ls fun _ => true)
  obtain ⟨t, ht, hg⟩ := endRep_goesOn hb i i o.rc o.sc 1
  exact ⟨t, _, v, ht, hg, by rw [hloads2, hloads1, hloads], State.act_of_q ha ▸ hreg, hlanes, hwidth, htag.trans htags, hgot,
    ((honly.trans hpush).trans hgather).2.1⟩

/-- What a repetition with its lanes resolved comes to (R131, R153, R157). -/
theorem loadLanes_performs {s : State} {a : Active} (ha : s.q.act = some a) (o : VWord) (n i : Nat) (ls : List LaneLoc)
    (conv : List Nat) :
    (s.ownRows (laneRows ls) = true → s.loadPending (laneRows ls) = true → ∃ t, s.loadLanes o n i ls conv = .next t ∧ CoreBecomes s t
        (s.core.setQueue s.eng { s.q with act := some { s.act with fresh := true, waitFlag := none } }))
      ∧ (s.ownRows (laneRows ls) = true → s.loadPending (laneRows ls) = false → ∃ t, s.loadLanes o n i ls conv = .next t
        ∧ LoadTurn (s.noteGroup (some .v) (laneRows ls)) t o n { at_ := i, lanes := ls, todo := laneRows ls, conv := conv })
      ∧ (s.ownRows (laneRows ls) = false → ∃ (t u : State) (v : VLoad), s.loadLanes o n i ls conv = .next t
        ∧ RepGoesOn u t i 1 i o.rc o.sc.toNat ∧ u.core.vloads = s.core.vloads ++ [v] ∧ v.reg = o.rD a.rep ∧ v.lanes = ls ∧ v.width = tyBits o.ty ∧ v.tag = s.tag
        ∧ v.got = [] ∧ SameBytes s u) := by
  obtain ⟨hcore, hcur, hq, htag, hbytes⟩ := s.noteGroup_spec (some .v) (laneRows ls)
  have hown1 : (s.noteGroup (some .v) (laneRows ls)).ownRows (laneRows ls) = s.ownRows (laneRows ls) := by
    rw [State.ownRows, State.ownRows, hcur]
  have ha1 := hq ▸ ha
  simp only [State.loadLanes, hown1]
  refine ⟨fun hown hpend => ?_, fun hown hpend => ?_, fun hown => ?_⟩
  · rw [hown, hpend]
    exact s.wordWait_stays none
  · rw [hown, hpend]
    exact ownLoad_turn ha1 o n _
  · rw [hown]
    obtain ⟨t, u, v, ht, hg, hloads, hreg, hlanes, hwidth, htagv, hgot, hu⟩ := farLoad_issues ha1 o n i ls conv
    exact ⟨t, u, v, ht, hg, hcore ▸ hloads, hreg, hlanes, hwidth, htagv.trans htag, hgot, hbytes.trans hu⟩

end Sys2Proof.Claims

namespace Sys2Proof.Claims
open Sys2Proof.Machine

/-- R152 to R157: a repetition of vld or vgath whose lanes resolve is a load of those lanes. -/
theorem execLoad_resolves {s : State} {a : Active} {o : VWord} {ls : List LaneLoc} {i : Nat} (ha : s.q.act = some a)
    (hp : a.part = none) {s1 : State} (h1 : s.readTables o = s1) {wk : Walk} (hwk : walkOf s1.act.wrec = wk)
    (hw : walkUsable s1.act.wrec = true) (hd : s1.vecDescOk o s1.act.data false = true) (hk : wk.kind = 0)
    {y : Instr × List Nat × Nat × List (Nat × Pos)}
    (hy : y ∈ [(Instr.vld o, [], tyLanes o.ty, wk.group (tyLanes o.ty) a.rep 0),
      (.vgath o, [o.rA a.rep], 32, wk.indexed a.rep (s.core.vregAt i (o.rA a.rep)))])
    (hg : y.1 = .vld o → (wk.groupLen (tyLanes o.ty) a.rep).isSome = true)
    (hi : s1.core.vIssue s1.tag a.entry.schk
      { reads := y.2.1, writes := [o.rD a.rep], lat := 12,
        writeM := if a.rep = o.rc.toNat ∧ o.mask.toNat ≠ 0 then [o.mask.toNat] else [] } s1.issueAt = .at_ i)
    (hls : s1.resolveLanes .v s1.act.data false [] y.2.2.2 = .ok ls) :
    (∃ b, s1.q.act = some b ∧ b.rep = a.rep) ∧ exec y.1 s = s1.loadLanes o y.2.2.1 i ls (s1.throughConv s1.act.data y.2.2.2) := by
  obtain ⟨⟨b, hb, hentry, hrep, hpart⟩, hreg⟩ := State.readTables_spec ha o
  rw [h1] at hb hreg
  have hact := State.act_of_q hb
  have hp1 : s1.act.part = none := hact ▸ hpart.trans hp
  have hrep1 : s1.act.rep = a.rep := hact ▸ hrep
  refine ⟨⟨b, hb, hrep⟩, ?_⟩
  subst hwk
  rw [← hentry, ← hrep] at hi
  rcases List.mem_pair.mp hy with rfl | rfl
  · rw [show exec (.vld o) s = execVld o s from rfl, execVld_loads h1 hp1 hw hd hk (hrep1 ▸ hg rfl), hrep1]
    exact State.loadRep_resolves hb o _ _ hi hls
  · rw [show exec (.vgath o) s = execVgath o s from rfl, execVgath_loads h1 hp1 hw hd hk, hrep1]
    rw [← hreg] at hls ⊢
    exact State.loadRep_resolves hb o 32 _ hi hls

/-- R131: a load without a row left lands when its return comes. -/
theorem vectorLoadReturn_lands {s : State} {j k : Nat} {x : VLoad} (h : Serves s) (hx : s.core.vloads[j]? = some x)
    (hk : s.core.owedRows[k]? = some (j, none)) :
    ∃ t, exec (.vectorLoadReturn s.cur k) s = .next t ∧ OnlyCore s t ∧ t.core.vloads = s.core.vloads.eraseIdx j := by
  obtain ⟨honly, hloads, -⟩ := s.landLoad_spec j x
  exact ⟨_, execVectorLoadReturn_row h hx hk, honly, hloads⟩

/-- Settles O34: a repetition of `vld` or `vgath` reads the own vault row by row or goes on its way, and each row of a load on
its way returns behind the earlier loads that owe it. -/
theorem vectorLoads : Obligations.VectorLoads := by
  unfold Obligations.VectorLoads
  intro s s2 a o ls i j k x p l z s1 wk e w r
  refine ⟨?_, fun ha hp => ⟨?_, ?_⟩, vectorLoadReturn_lands, fun h hx hk => ⟨?_, ?_⟩⟩
  · intro ha hp hw hd hk y hy hg last rows hi hls
    obtain ⟨⟨b, hb, hrep⟩, hexec⟩ := execLoad_resolves ha hp rfl rfl hw hd hk hy hg hi hls
    obtain ⟨hwait, hown, hfar⟩ := loadLanes_performs hb o y.2.2.1 i ls (s1.throughConv s1.act.data y.2.2.2)
    rw [hexec]
    refine ⟨hwait, fun h1 h2 => ?_, by rwa [hrep] at hfar⟩
    obtain ⟨t, ht, hl⟩ := hown h1 h2
    exact ⟨t, _, ht, hl⟩
  · rw [show exec (.vld o) s = execVld o s from rfl, execVld_part ha hp]
    exact ownLoad_turn ha o e p
  · rw [show exec (.vgath o) s = execVgath o s from rfl, execVgath_part ha hp]
    exact ownLoad_turn ha o 32 p
  · intro howed
    rw [show exec (.vectorLoadReturn s.cur k) s = _ from execVectorLoadReturn_row h hx hk, State.loadRow, if_pos howed]
  · intro hfree hz _ _ hrow got
    rw [show exec (.vectorLoadReturn s.cur k) s = _ from execVectorLoadReturn_row h hx hk, State.loadRow_answers hfree hz hrow]
    refine ⟨fun ⟨m, hm, hleft⟩ => ?_, fun hall => ?_⟩
    · rw [if_neg fun hc => ?_]
      · exact ⟨_, rfl, .upd s2 _, State.core_upd s2 _⟩
      · obtain ⟨q, hq, he⟩ := List.any_eq_true.mp (List.all_eq_true.mp hc m hm)
        exact hleft q hq (beq_iff_eq.mp he)
    · rw [if_pos (List.all_eq_true.mpr fun m hm => ?_)]
      · exact ⟨_, rfl, s2.landLoad_spec j _⟩
      · obtain ⟨q, hq, he⟩ := hall m hm
        exact List.any_eq_true.mpr ⟨q, hq, beq_iff_eq.mpr he⟩

end Sys2Proof.Claims

namespace Sys2Proof.Machine
open Sys2Proof.Claims

/-! ## Lanes that do not fill a register (R138) -/

/-- Every type has at least 32 lanes (R138). -/
theorem tyLanes_ge (t : BitVec 3) : 32 ≤ tyLanes t := by
  revert t
  decide

/-- The first n lanes of a register are those of its data, also where its type has more. -/
theorem lane_packRow_le {w n e j : Nat} (hw : w * e = 1024) (hn : n ≤ e) (f : Nat → Nat) (hj : j < n) :
    lane w (packRow w n f) j = f j % 2 ^ w := by
  rw [packRow, lane_ofNat hw (hj.trans_le hn), packLanes_lane]
  simp [hj]

/-! ## Repetitions that change their core (R130, R139) -/

/-- A core with the queues of the acting core leaves what the sequencer performs. -/
theorem State.q_setCore_queue (s : State) {d : Core} (h : ∀ e, d.queue e = s.core.queue e) : (s.setCore d).q = s.q := by
  rw [State.q, State.core_setCore]
  exact h s.eng

end Sys2Proof.Machine

namespace Sys2Proof.Claims
open Sys2Proof.Machine

/-- A repetition that has changed its core but for the queues goes on as R130 and R139 say. -/
theorem setCoreRep_goesOn {s : State} {a : Active} (ha : s.q.act = some a) {d : Core} (h : ∀ e, d.queue e = s.core.queue e)
    (i land : Nat) (rc : BitVec 10) (sc : BitVec 4) :
    ∃ t, (s.setCore d).endRep i land rc sc = .next t ∧ RepGoesOn (s.setCore d) t i 1 land rc sc.toNat :=
  endRep_goesOn ((congrArg Queue.act (s.q_setCore_queue h)).trans ha) i land rc sc 1

end Sys2Proof.Claims

namespace Sys2Proof.Machine
open Sys2Proof.Claims

/-! ## Lanes and masks that a repetition writes (R138, R145) -/

/-- The bit of a mask made from one bit a lane. -/
theorem packMask_bit (n : Nat) (hn : n ≤ 128) (p : Nat → Bool) (j : Nat) :
    (BitVec.ofNat 128 (packLanes 1 ((List.range n).map (fun j => if p j then 1 else 0)))).getLsbD j = (decide (j < n) && p j) := by
  rw [BitVec.getLsbD_ofNat, packLanes_testBit Nat.one_pos, Nat.div_one, Nat.mod_one]
  by_cases hj : j < n
  · rw [decide_eq_true hj, decide_eq_true (hj.trans_le hn), List.getD_eq_getElem _ _ (by simpa using hj), List.getElem_map,
      List.getElem_range]
    cases p j <;> rfl
  · rw [decide_eq_false hj, Bool.false_and, List.getD_eq_default _ _ (by simpa using hj)]
    simp

theorem tyLanes_le (t : BitVec 3) : tyLanes t ≤ 128 := by
  revert t
  decide

/-- A number placed at a lane is that lane, cut to its width. -/
theorem lane_placeAt {w e j : Nat} (hw : w * e = 1024) (hb : 8 * (w / 8) = w) (hj : j < e) (v : Nat) :
    lane w (placeAt (w / 8 * j) v) j = v % 2 ^ w := by
  rw [placeAt, lane_ofNat hw hj, ← Nat.mul_assoc, hb, Nat.mul_div_cancel _ (Nat.two_pow_pos _)]

/-- Each byte of a register lies in a lane that its type has. -/
theorem byte_lane_lt (t : BitVec 3) {b : Nat} (hb : b < 128) : b / (tyBits t / 8) < tyLanes t := by
  obtain ⟨-, hbytes, hpos⟩ := tyBits_lanes t
  rw [Nat.div_lt_iff_lt_mul hpos, Nat.mul_comm, hbytes]
  exact hb

theorem tyBits_bytes (t : BitVec 3) : 8 * (tyBits t / 8) = tyBits t := by
  revert t
  decide

/-! ## Repetitions that write lanes (R139, R141) -/

/-- A repetition that writes one register under a mask of its first n lanes, with what each of those lanes takes. -/
theorem State.regRep_lanes {s : State} {a : Active} (ha : s.q.act = some a) (o : VWord) (x : Shape) (f : Core → Nat → Out) {i : Nat}
    (h : s.core.vIssue s.tag a.entry.schk x s.issueAt = .at_ i) {k n c : Nat} {data : Row} {in_ on : Nat → Bool} {v : Nat → Nat}
    (hf : f s.core i = { regs := [(k, data, laneMask (tyBits o.ty) n in_)], carry := c })
    (hon : ∀ j, j < tyLanes o.ty → (decide (j < n) && in_ j) = on j)
    (hv : ∀ j, j < tyLanes o.ty → on j = true → lane (tyBits o.ty) data j = v j % 2 ^ tyBits o.ty) :
    ∃ t, s.regRep o.rc o.sc x f = .next t ∧ VectorLanes s t i x.lat o k on v := by
  obtain ⟨-, -, hpos⟩ := tyBits_lanes o.ty
  obtain ⟨t, ht, hres⟩ := State.regRep_issues ha o.rc o.sc x f h
  rw [hf] at hres
  exact ⟨t, ht, data, _, hres, hv, fun b hb => (laneMask_bit hpos n in_ hb).trans (hon _ (byte_lane_lt o.ty hb))⟩

section
variable {s : State} {a : Active} (ha : s.q.act = some a) (o : VWord) {i : Nat}
include ha

/-- A predicated write of lanes that depend on the whole of A. -/
theorem State.permute_lanes (lat : Nat) (reads : List Nat) (f : Core → Nat → Nat → Nat)
    (h : s.core.vIssue s.tag a.entry.schk { reads := reads, readM := [o.mask.toNat], writes := [o.rD a.rep], lat := lat } s.issueAt
      = .at_ i) :
    ∃ t, s.permute o lat reads f = .next t
      ∧ VectorLanes s t i lat o (o.rD a.rep) (fun j => (s.core.maskAt i o.mask.toNat).getLsbD j) (f s.core i) := by
  obtain ⟨hrow, -, -⟩ := tyBits_lanes o.ty
  unfold State.permute
  rw [State.act_of_q ha]
  exact State.regRep_lanes ha o _ _ h rfl (fun j hj => by rw [decide_eq_true hj, Bool.true_and])
    fun j hj _ => lane_packRow hrow (f s.core i) hj

/-- A condition on lanes goes into its mask: a bit for each active lane where it holds, and no other. -/
theorem State.laneTest_bits (n : Nat) (p : Nat → Nat → Bool)
    (h : s.core.vIssue s.tag a.entry.schk
      { reads := [o.rA a.rep, o.rB a.rep].take n, readM := [o.mask.toNat], writeM := [o.d.toNat], lat := 2 } s.issueAt = .at_ i) :
    ∃ t x, s.laneTest o n p = .next t ∧ VectorResult s t i 2 o.rc o.sc [] [(o.d.toNat, x)]
      ∧ ∀ j, x.getLsbD j = (decide (j < tyLanes o.ty) && (s.core.maskAt i o.mask.toNat).getLsbD j
          && p (laneAt o s i (o.rA a.rep) j) (laneAt o s i (o.rB a.rep) j)) := by
  unfold State.laneTest
  rw [State.act_of_q ha]
  obtain ⟨t, ht, hres⟩ := State.regRep_issues ha o.rc o.sc _ _ h
  refine ⟨t, _, ht, hres, fun j => ?_⟩
  rw [packMask_bit _ (tyLanes_le o.ty), Bool.and_assoc]
  rfl

/-- A quantisation writes the whole of D with its block image. -/
theorem State.quantise_image (f : List Rnd → List Val → Nat)
    (h : s.core.vIssue s.tag a.entry.schk { reads := [o.rA a.rep], writes := [o.rD a.rep], lat := 8 } s.issueAt = .at_ i) :
    ∃ t, s.quantise o f = .next t ∧ VectorResult s t i 8 o.rc o.sc [(o.rD a.rep,
      BitVec.ofNat 1024 (f (o.roundings a.entry.seed a.rep) (o.values (s.core.vregAt i (o.rA a.rep)))), BitVec.allOnes 128)] [] := by
  unfold State.quantise
  rw [State.act_of_q ha]
  exact State.regRep_issues ha o.rc o.sc _ _ h

end

/-! ## Classes of floating codes (R146) -/

/-- The code of a floating format is as wide as its lane. -/
theorem tyFmt_width {t : BitVec 3} {e5 : Bool} {f : FloatFmt} (h : (tyFmt t e5).float = some f) : 0 < f.width ∧ f.width = tyBits t := by
  have hall : ∀ (t : BitVec 3) (e5 : Bool), ∀ f ∈ (tyFmt t e5).float, 0 < f.width ∧ f.width = tyBits t := by decide
  exact hall t e5 f h

/-- The sign bit of a code: the code reaches half its range. -/
theorem testBit_top {n x : Nat} (hn : 0 < n) (hx : x < 2 ^ n) : x.testBit (n - 1) = decide (2 ^ (n - 1) ≤ x) := by
  by_cases h : 2 ^ (n - 1) ≤ x
  · rw [decide_eq_true h]
    exact Nat.testBit_of_two_pow_le_and_two_pow_add_one_gt h (by rwa [Nat.sub_add_cancel hn])
  · rw [decide_eq_false h, Nat.testBit_lt_two_pow (not_le.mp h)]

/-! ## Scans (R163) -/

/-- What a scan has run up to in an active lane: the active lanes so far, one after the other. -/
theorem scanLanes_getD (node : Nat → Nat → Nat) (active : Nat → Bool) (A : Nat → Nat) (n k acc : Nat) {j : Nat} (hj : j < n)
    (hact : active (k + j) = true) :
    (scanLanes node active k acc ((List.range n).map A)).1.getD j 0
      = (List.range (j + 1)).foldl (fun x l => if active (k + l) then node x (A l) else x) acc := by
  induction n generalizing A k acc j with
  | zero => exact absurd hj (Nat.not_lt_zero j)
  | succ n ih =>
    have hshift (l : Nat) : k + Nat.succ l = k + 1 + l := (Nat.succ_add_eq_add_succ k l).symm
    rw [List.range_succ_eq_map, List.map_cons, List.map_map, List.range_succ_eq_map (n := j), List.foldl_cons, List.foldl_map,
      Nat.add_zero]
    cases j with
    | zero =>
      have h0 : active k = true := hact
      rw [scanLanes, if_pos h0, if_pos h0]
      rfl
    | succ j =>
      have hrest (acc : Nat) := ih (A ∘ Nat.succ) (k + 1) acc (Nat.lt_of_succ_lt_succ hj) (hshift j ▸ hact)
      simp only [← hshift] at hrest
      rw [scanLanes]
      split
      · exact hrest _
      · exact hrest _

end Sys2Proof.Machine

namespace Sys2Proof.Claims
open Sys2Proof.Machine

/-- Lane j of an index row is the base with the j-th number of its list, or −1 behind the last (R160). -/
theorem lane_indexRow (base : Nat) (l : List Nat) {j : Nat} (hj : j < 32) :
    lane 32 (indexRow (l.map (fun x => base + x))) j = (l.map (fun x => (base + x) % 2 ^ 32)).getD j (2 ^ 32 - 1) := by
  rw [indexRow, lane_packRow (by rfl) _ hj]
  by_cases hl : j < l.length
  · rw [List.getD_eq_getElem _ _ (by simpa using hl), List.getD_eq_getElem _ _ (by simpa using hl), List.getElem_map,
      List.getElem_map]
  · rw [List.getD_eq_default _ _ (by simpa using hl), List.getD_eq_default _ _ (by simpa using hl)]
    rfl

/-- The code of a count that saturates at the top of a type's range. -/
theorem intCode_clamp_natCast (g : Fmt) (w n : Nat) :
    intCode w (clampInt g.range.1 g.range.2 n) % 2 ^ w = (min g.range.2 n % 2 ^ w).toNat := by
  obtain ⟨hlo, hhi⟩ := range_le g
  have hmin : g.range.1 ≤ min g.range.2 n := hlo.trans (le_min hhi (Int.natCast_nonneg n))
  rw [clampInt_eq (hlo.trans hhi), max_eq_right hmin]
  exact Nat.mod_eq_of_lt ((Int.toNat_lt (Int.emod_nonneg _ (by positivity))).mpr
    (by exact_mod_cast Int.emod_lt_of_pos _ (by positivity)))

/-- The ones among the n low bits of a mask. -/
theorem countOnes_below (m : BitVec 128) (n : Nat) :
    countOnes (m.toNat % 2 ^ n) n = ((List.range n).filter (fun j => m.getLsbD j)).length := by
  rw [countOnes_eq]
  refine congrArg List.length (List.filter_congr fun j hj => ?_)
  rw [Nat.testBit_mod_two_pow, decide_eq_true (List.mem_range.mp hj), Bool.true_and]
  rfl

section
variable {s : State} {a : Active} (ha : s.q.act = some a) (o : VWord) {i : Nat}
include ha

theorem compare_marks {y : Instr} {p : Val → Val → Bool} (hexec : exec y s = s.compare o p) (h : s.core.vIssue s.tag a.entry.schk
      { reads := [o.rA a.rep, o.rB a.rep], readM := [o.mask.toNat], writeM := [o.d.toNat], lat := 2 } s.issueAt = .at_ i) :
    ∃ t x, exec y s = .next t ∧ VectorResult s t i 2 o.rc o.sc [] [(o.d.toNat, x)]
      ∧ ∀ j, x.getLsbD j = (decide (j < tyLanes o.ty) && (s.core.maskAt i o.mask.toNat).getLsbD j
          && p (o.fmt.value (laneAt o s i (o.rA a.rep) j)) (o.fmt.value (laneAt o s i (o.rB a.rep) j))) := by
  rw [hexec, State.compare]
  exact State.laneTest_bits ha o 2 _ h

theorem vclass_marks {f : FloatFmt} (hf : o.fmt.float = some f) (h : s.core.vIssue s.tag a.entry.schk
      { reads := [o.rA a.rep], readM := [o.mask.toNat], writeM := [o.d.toNat], lat := 2 } s.issueAt = .at_ i) :
    ∃ t x, exec (.vclass o) s = .next t ∧ VectorResult s t i 2 o.rc o.sc [] [(o.d.toNat, x)]
      ∧ ∀ j, x.getLsbD j = (decide (j < tyLanes o.ty) && (s.core.maskAt i o.mask.toNat).getLsbD j
          && o.b.getLsbD (f.classOf (laneAt o s i (o.rA a.rep) j))
          && (tyE8 o.ty || !o.variant || (laneAt o s i (o.rA a.rep) j).testBit (f.width - 1))) := by
  have hexec : exec (.vclass o) s = s.laneTest o 1 (fun x _ => o.b.getLsbD (f.classOf x)
      && (tyE8 o.ty || !o.variant || 2 ^ (f.width - 1) ≤ x)) := by
    rw [show exec (.vclass o) s = execVclass o s from rfl, execVclass, hf]
  rw [hexec]
  obtain ⟨t, x, ht, hres, hbits⟩ := State.laneTest_bits ha o 1 _ h
  refine ⟨t, x, ht, hres, fun j => (hbits j).trans ?_⟩
  obtain ⟨hpos, hwidth⟩ := tyFmt_width hf
  have hlt : laneAt o s i (o.rA a.rep) j < 2 ^ f.width := hwidth ▸ lane_lt _ _ j
  rw [testBit_top hpos hlt]
  simp only [Bool.and_assoc]

theorem vsel_selects (h : s.core.vIssue s.tag a.entry.schk
      { reads := [o.rA a.rep, o.rB a.rep], readM := [o.mask.toNat], writes := [o.rD a.rep], lat := 2 } s.issueAt = .at_ i) :
    ∃ t, exec (.vsel o) s = .next t ∧ VectorLanes s t i 2 o (o.rD a.rep) (fun _ => true) (fun j =>
      if (s.core.maskAt i o.mask.toNat).getLsbD j then laneAt o s i (o.rA a.rep) j else laneAt o s i (o.rB a.rep) j) := by
  obtain ⟨hrow, -, -⟩ := tyBits_lanes o.ty
  rw [show exec (.vsel o) s = execVsel o s from rfl, execVsel, State.act_of_q ha]
  obtain ⟨t, ht, hres⟩ := State.regRep_issues ha o.rc o.sc _ _ h
  exact ⟨t, ht, _, _, hres, fun j hj _ => lane_packRow hrow _ hj,
    fun b hb => BitVec.getLsbD_allOnes.trans (decide_eq_true hb)⟩

theorem vcvt_converts (h : s.core.vIssue s.tag a.entry.schk { reads := [o.rA a.rep], writes := [o.rD a.rep], lat := 4 } s.issueAt
      = .at_ i) :
    let es := tyLanes o.srcTy
    let e := tyLanes o.ty
    let first := if es < e then o.part * es else 0
    let src := if e < es then o.part * e else 0
    ∃ t, exec (.vcvt o) s = .next t
      ∧ VectorLanes s t i 4 o (o.rD a.rep) (fun j => decide (first ≤ j ∧ j < first + min es e)) (fun j =>
        o.fmt.roundTo (rndOf o.mask a.entry.seed (j + 128 * a.rep))
          (o.srcFmt.value (lane (tyBits o.srcTy) (s.core.vregAt i (o.rA a.rep)) (src + (j - first))))) := by
  intro es e first src
  obtain ⟨hrow, -, -⟩ := tyBits_lanes o.ty
  rw [show exec (.vcvt o) s = execVcvt o s from rfl, execVcvt, State.act_of_q ha]
  refine State.regRep_lanes ha o _ _ h rfl (fun j hj => ?_) fun j hj hon => (lane_packRow hrow _ hj).trans ?_
  · rw [decide_eq_true hj, Bool.true_and, Bool.decide_and]
  · rw [if_pos ((Bool.decide_and _ _).symm.trans hon)]

theorem vdqbf_values (h : s.core.vIssue s.tag a.entry.schk { reads := [o.rA a.rep], writes := [o.rD a.rep], lat := 4 } s.issueAt
      = .at_ i) :
    ∃ t, exec (.vdqbf o) s = .next t ∧ VectorLanes s t i 4 o (o.rD a.rep) (fun j => decide (j < 32)) (fun j =>
      o.fmt.roundTo (rndOf o.mask a.entry.seed (j + 128 * a.rep))
        (imageValue o.b.toNat (s.core.vregAt i (o.rA a.rep)) j)) := by
  obtain ⟨hrow, -, -⟩ := tyBits_lanes o.ty
  rw [show exec (.vdqbf o) s = execVdqbf o s from rfl, execVdqbf, State.act_of_q ha]
  exact State.regRep_lanes ha o _ _ h rfl (fun j _ => Bool.and_true _)
    fun j _ hon => lane_packRow_le hrow (tyLanes_ge o.ty) _ (of_decide_eq_true hon)

theorem vpart_partitions (h : s.core.vIssue s.tag a.entry.schk
      { reads := [o.rA a.rep], readM := [o.mask.toNat], writes := [o.d.toNat, o.d.toNat + 1], lat := 10 } s.issueAt = .at_ i) :
    let base := lane 32 (s.core.vregAt i (o.rA a.rep)) 0
    let slots := (List.range 32).map (fun j => 32 * o.b.toNat + j)
    let on := (s.core.maskAt i o.mask.toNat).getLsbD
    ∃ t y n, exec (.vpart o) s = .next t
      ∧ VectorResult s t i 10 o.rc o.sc [(o.d.toNat, y, BitVec.allOnes 128), (o.d.toNat + 1, n, BitVec.allOnes 128)] []
      ∧ ∀ j, j < 32 → lane 32 y j = ((slots.filter on).map (fun x => (base + x) % 2 ^ 32)).getD j (2 ^ 32 - 1)
        ∧ lane 32 n j = ((slots.filter (fun x => !on x)).map (fun x => (base + x) % 2 ^ 32)).getD j (2 ^ 32 - 1) := by
  intro base slots on
  rw [show exec (.vpart o) s = execVpart o s from rfl, execVpart, State.act_of_q ha]
  obtain ⟨t, ht, hres⟩ := State.regRep_issues ha o.rc o.sc _ _ h
  exact ⟨t, _, _, ht, hres, fun j hj => ⟨lane_indexRow base _ hj, lane_indexRow base _ hj⟩⟩

theorem vred_reduces (h : s.core.vIssue s.tag a.entry.schk
      { reads := [o.rA a.rep], readM := [o.mask.toNat], writes := [o.d.toNat], lat := 8 } s.issueAt = .at_ i) :
    let w := tyBits o.ty
    let e := tyLanes o.ty
    let on := (s.core.maskAt i o.mask.toNat).getLsbD
    ∃ t data mask, exec (.vred o) s = .next t ∧ VectorResult s t i 8 o.rc o.sc [(o.d.toNat, data, mask)] []
      ∧ (∀ b, b < 128 → mask.getLsbD b = decide (b / (w / 8) = a.rep % e))
      ∧ lane w data (a.rep % e) = (if (List.range e).any on then tree o.redOp o.fmt
          ((List.range e).map (fun j => if on j then laneAt o s i (o.rA a.rep) j else redPad o.redOp o.fmt))
        else o.empty) % 2 ^ w := by
  intro w e on
  obtain ⟨hrow, hbytes, hpos⟩ := tyBits_lanes o.ty
  have hlt : a.rep % e < e := Nat.mod_lt _ (Nat.lt_of_lt_of_le (by decide) (tyLanes_ge o.ty))
  rw [show exec (.vred o) s = execVred o s from rfl, execVred, State.act_of_q ha]
  obtain ⟨t, ht, hres⟩ := State.regRep_issues ha o.rc o.sc _ _ h
  refine ⟨t, _, _, ht, hres, fun b hb => ?_, lane_placeAt hrow (tyBits_bytes o.ty) hlt _⟩
  rw [Nat.mul_comm, byteMask_element hpos (hbytes ▸ Nat.mul_le_mul_left _ hlt), decide_eq_true hb, Bool.true_and]

theorem vscan_scans (h : s.core.vIssue s.tag a.entry.schk
      { reads := [o.rA a.rep], readM := [o.mask.toNat], writes := [o.rD a.rep], lat := 10 } s.issueAt = .at_ i) :
    let on := (s.core.maskAt i o.mask.toNat).getLsbD
    let start := if o.b.getLsbD 2 ∧ 0 < a.rep then a.carry else o.empty
    ∃ t, exec (.vscan o) s = .next t ∧ VectorLanes s t i 10 o (o.rD a.rep) on (fun j =>
      ((List.range (j + 1)).filter on).foldl (fun x l => redNode o.redOp o.fmt x (laneAt o s i (o.rA a.rep) l)) start) := by
  intro on start
  obtain ⟨hrow, -, -⟩ := tyBits_lanes o.ty
  rw [show exec (.vscan o) s = execVscan o s from rfl, execVscan, State.act_of_q ha]
  refine State.regRep_lanes ha o _ _ h rfl (fun j hj => by rw [decide_eq_true hj, Bool.true_and]) fun j hj hon => ?_
  have hstart : start = if (o.b.getLsbD 2 && decide (0 < a.rep)) = true then a.carry else o.empty := by
    simp only [start, Bool.and_eq_true, decide_eq_true_eq]
  rw [lane_ofNat hrow hj, packLanes_lane, scanLanes_getD _ _ _ _ _ _ hj (by rwa [Nat.zero_add]), List.foldl_filter, hstart]
  simp only [Nat.zero_add]
  rfl

theorem vmcnt_counts (h : s.core.vIssue s.tag a.entry.schk { readM := [o.a.toNat], writes := [o.d.toNat], lat := 2 } s.issueAt
      = .at_ i) :
    let w := tyBits o.ty
    ∃ t data mask, exec (.vmcnt o) s = .next t ∧ VectorResult s t i 2 o.rc o.sc [(o.d.toNat, data, mask)] []
      ∧ (∀ b, b < 128 → mask.getLsbD b = decide (b < w / 8))
      ∧ lane w data 0 = (min o.fmt.range.2
          ((List.range (tyLanes o.ty)).filter (fun j => (s.core.maskAt i o.a.toNat).getLsbD j)).length % 2 ^ w).toNat := by
  intro w
  obtain ⟨hrow, hbytes, hpos⟩ := tyBits_lanes o.ty
  have hlanes : 0 < tyLanes o.ty := Nat.lt_of_lt_of_le (by decide) (tyLanes_ge o.ty)
  rw [show exec (.vmcnt o) s = execVmcnt o s from rfl, execVmcnt]
  obtain ⟨t, ht, hres⟩ := State.regRep_issues ha o.rc o.sc _ _ h
  refine ⟨t, _, _, ht, hres, fun b _ => ?_, ?_⟩
  · have hw : 0 + tyBits o.ty / 8 ≤ 128 := by rw [← hbytes, Nat.zero_add]; exact Nat.le_mul_of_pos_right _ hlanes
    rw [byteMask_bit hw]
    exact decide_eq_decide.mpr (by rw [Nat.zero_add]; exact and_iff_right (Nat.zero_le b))
  · refine (lane_placeAt hrow (tyBits_bytes o.ty) hlanes _).trans ?_
    rw [intCode_clamp_natCast, countOnes_below]

end

/-- Settles O33: each word is a repetition that issues, `State.regRep_issues`, with the lanes or the mask bits that it writes. -/
theorem vectorRegisters : Obligations.VectorRegisters := by
  unfold Obligations.VectorRegisters
  intro s a o md ma mb tt sc rc i r w e g m on all RA RB A B issues k rnd ha
  have hact := State.act_of_q ha
  refine ⟨?compare, fun f hf h => vclass_marks ha o hf h, vsel_selects ha o, fun h => ?bcst, fun h => ?iota, fun _ h => ?rmg,
    fun h => ?shuf, vcvt_converts ha o, ?quantise, vdqbf_values ha o, vpart_partitions ha o, vred_reduces ha o, vscan_scans ha o,
    vmcnt_counts ha o, fun h => ?logic⟩
  case compare =>
    simp only [List.forall_mem_cons, List.not_mem_nil, false_imp_iff, implies_true, and_true]
    exact ⟨compare_marks ha o (y := .vceq o) (p := fun x y => x.eqv y) rfl,
      compare_marks ha o (y := .vcne o) (p := fun x y => !x.eqv y) rfl,
      compare_marks ha o (y := .vclt o) (p := fun x y => x.lt y) rfl,
      compare_marks ha o (y := .vcle o) (p := fun x y => x.lt y || x.eqv y) rfl,
      compare_marks ha o (y := .vcun o) (p := fun x y => x.isNan || y.isNan) rfl⟩
  case bcst =>
    rw [show exec (.vbcst o) s = execVbcst o s from rfl, execVbcst, hact]
    exact State.permute_lanes ha o 2 _ _ h
  case iota =>
    rw [show exec (.viota o) s = execViota o s from rfl, execViota, hact]
    obtain ⟨t, ht, hl⟩ := State.permute_lanes ha o 2 _ _ h
    exact ⟨t, ht, hl.congr fun j => Nat.mod_mod _ _⟩
  case rmg =>
    rw [show exec (.vrmg o) s = execVrmg o s from rfl, execVrmg, hact]
    exact State.permute_lanes ha o 3 _ _ h
  case shuf =>
    rw [show exec (.vshuf o) s = execVshuf o s from rfl, execVshuf, hact]
    exact State.permute_lanes ha o 3 _ _ h
  case quantise =>
    simp only [List.forall_mem_cons, List.not_mem_nil, false_imp_iff, implies_true, and_true]
    refine ⟨fun h => ?_, fun h => ?_⟩
    · rw [show exec (.vqbf o) s = execVqbf o s from rfl, execVqbf]
      exact State.quantise_image ha o _ h
    · rw [show exec (.vqaf o) s = execVqaf o s from rfl, execVqaf]
      exact State.quantise_image ha o _ h
  case logic =>
    rw [show exec (.vmlog md ma mb tt sc rc) s = execVmlog md ma mb tt sc rc s from rfl, execVmlog]
    obtain ⟨t, ht, hres⟩ := State.regRep_issues ha rc sc _ _ h
    exact ⟨t, _, ht, hres, fun j hj => maskLogic_bit tt _ _ j hj⟩

end Sys2Proof.Claims

namespace Sys2Proof.Machine
open Sys2Proof.Claims

/-! ## Streams and banks of the vector engine (R161, R166, R228) -/

/-- A channel lies outside the queues. -/
theorem Core.queue_setChannel (c : Core) (k : Nat) (x : Channel) (e : Eng) : (c.setChannel k x).queue e = c.queue e := by
  cases e <;> rfl

theorem Channel.rowStream_of {x : Channel} (hm : x.mode = .stream) (he : x.esz = 2) : x.rowStream = true := by
  rw [Channel.rowStream, hm, he]
  rfl

/-- A read of a bank row leaves the sequencer. -/
theorem State.accRead_q {s s1 : State} {j row t stamp : Nat} {schk : Bool} {r : AccRow}
    (h : s.accRead j row t stamp schk = .value s1 r) : s1.q = s.q := by
  unfold State.accRead at h
  dsimp only at h
  split at h
  · cases h
    rfl
  · split_ifs at h
    cases h
    rfl

end Sys2Proof.Machine

namespace Sys2Proof.Claims
open Sys2Proof.Machine

section
variable {s : State} {a : Active} (ha : s.q.act = some a) {o : VWord} {i : Nat}
include ha

theorem vpop_takes {e : Row} {rest : List Row} (h : s.core.vIssue s.tag a.entry.schk
      { readM := [o.mask.toNat], writes := [o.rD a.rep], lat := 0 } s.issueAt = .at_ i)
    (hs : (s.core.channel o.a.toNat).rowStream = true) (hf : (s.core.channel o.a.toNat).fifo = e :: rest) :
    ∃ t, exec (.vpop o) s = .next t ∧ RepGoesOn (s.setCore (((s.core.setChannel o.a.toNat
        { s.core.channel o.a.toNat with fifo := rest }).settle i).put i
          { regs := [(o.rD a.rep, e, s.core.maskAt i o.mask.toNat)] })) t i 1 i o.rc o.sc.toNat := by
  rw [show exec (.vpop o) s = execVpop o s from rfl]
  simp only [execVpop, State.act_of_q ha, h, hs, hf]
  exact setCoreRep_goesOn ha (fun e => (((Core.settle_vectors _ i).trans (Core.put_vectors _ _ _)).queue e).trans
    (Core.queue_setChannel _ _ _ e)) i i o.rc o.sc

theorem vpush_appends (h : s.core.vIssue s.tag a.entry.schk { reads := [o.rA a.rep], lat := 0 } s.issueAt = .at_ i)
    (hs : (s.core.channel o.d.toNat).rowStream = true) (hf : (s.core.channel o.d.toNat).fifo.length < 16) :
    ∃ t, exec (.vpush o) s = .next t ∧ RepGoesOn (s.setCore { (s.core.setChannel o.d.toNat
        ((s.core.channel o.d.toNat).pushAt i (s.core.vregAt i (o.rA a.rep)))).settle i with latch := true }) t i 1 i o.rc o.sc.toNat := by
  rw [show exec (.vpush o) s = execVpush o s from rfl]
  simp only [execVpush, State.act_of_q ha, h, hs, if_neg (Nat.not_le.mpr hf)]
  refine setCoreRep_goesOn ha (fun e => ?_) i i o.rc o.sc
  exact (by cases e <;> rfl : _ = ((s.core.setChannel _ _).settle i).queue e).trans
    (((Core.settle_vectors _ i).queue e).trans (Core.queue_setChannel _ _ _ e))

/-- A repetition of `vacc` whose bank answers rounds the 32 cells of its segment. -/
theorem vacc_reads {s1 : State} {row : AccRow} (hb : a.rep = 0 → s.bankUsable o.a.toNat = true)
    (h : s.core.vIssue s.tag a.entry.schk { readM := [o.mask.toNat], writes := [o.rD a.rep], lat := 6 } s.issueAt = .at_ i)
    (hr : s.accRead o.a.toNat ((8 * o.b.toNat + a.rep) / 4) i a.entry.stamp a.entry.schk = .value s1 row) :
    ∃ t, exec (.vacc o) s = .next t ∧ RepGoesOn (s1.setCore ((s1.core.settle i).put (i + 6) { regs := [(o.rD a.rep,
        packRow (tyBits o.ty) 32 (fun j =>
          if o.ty = 0 then accCell row (32 * ((8 * o.b.toNat + a.rep) % 4) + j)
          else o.fmt.roundTo rne (Fmt.value .f32 (accCell row (32 * ((8 * o.b.toNat + a.rep) % 4) + j)))),
        laneMask (tyBits o.ty) 32 (s1.core.maskAt i o.mask.toNat).getLsbD)] })) t i 1 (i + 6) o.rc o.sc.toNat := by
  have hbank : ¬(a.rep = 0 ∧ (!s.bankUsable o.a.toNat) = true) := fun ⟨h0, hn⟩ => by simp [hb h0] at hn
  have hty : (o.ty = 0) = (o.ty.toNat = 0) := propext BitVec.toNat_eq
  rw [show exec (.vacc o) s = execVacc o s from rfl]
  simp only [execVacc, State.act_of_q ha, h, if_neg hbank, hr, hty]
  exact setCoreRep_goesOn (State.accRead_q hr ▸ ha)
    (((Core.settle_vectors _ i).trans (Core.put_vectors _ _ _)).queue) i (i + 6) o.rc o.sc

end

/-- Settles O36: each word is one change of its core that leaves the queues, after its channel or its bank has answered. -/
theorem vectorStreamsAndBanks : Obligations.VectorStreamsAndBanks := by
  unfold Obligations.VectorStreamsAndBanks
  intro s s1 a o i e rest row r d w m ha
  obtain ⟨hrow, -, hpos⟩ := tyBits_lanes o.ty
  refine ⟨fun h hm he hf => vpop_takes ha h (Channel.rowStream_of hm he) hf,
    fun h hm he hf => vpush_appends ha h (Channel.rowStream_of hm he) hf, fun hb h hr => ?_⟩
  obtain ⟨t, ht, hg⟩ := vacc_reads ha hb h hr
  exact ⟨t, _, _, ht, hg, fun b hlt => laneMask_bit hpos 32 _ hlt, fun j hj _ => lane_packRow_le hrow (tyLanes_ge o.ty) _ hj⟩

end Sys2Proof.Claims

namespace Sys2Proof.Machine
open Sys2Proof.Claims

/-! ## Rows that a store writes (R155, R192) -/

theorem State.writeRowAt_sameQueue (s : State) (p : Spot) (d : Row) (m : BitVec 128) : s.SameQueue (s.writeRowAt p d m) := by
  obtain ⟨_, _, _, _, h⟩ := s.writeRowAt_frame p d m
  rw [h]
  exact ⟨rfl, rfl⟩

theorem State.wantSeg_sameQueue (s : State) (ctx : Nat) (loc : Loc) : s.SameQueue (s.wantSeg ctx loc) := by
  cases loc <;> exact ⟨rfl, rfl⟩

theorem State.writeLoc_sameQueue (s : State) (loc : Loc) (d : Row) (m : BitVec 128) : s.SameQueue (s.writeLoc loc d m).1 := by
  unfold State.writeLoc
  have h := s.resolve_sameQueue s.ctx s.cur loc true
  generalize s.resolve s.ctx s.cur loc true = r at h
  obtain ⟨s1, tg⟩ := r
  cases tg with
  | spot p => exact h.trans (s1.writeRowAt_sameQueue p d m)
  | wait => exact h.trans (s1.wantSeg_sameQueue s.ctx loc)
  | absent | discarded | bounds | remote => exact h

/-- A vault row that its context holds is written where it lies. -/
theorem State.writeLoc_held {s : State} {q row a : Nat} (h : s.vaultRow s.ctx q row = .at_ a) (d : Row) (m : BitVec 128) :
    (s.writeLoc (.vault q row) d m).1 = s.writeRowAt ⟨true, a⟩ d m := by
  simp only [State.writeLoc, State.resolve, h]

theorem State.laneFault_next (s : State) (rc : BitVec 10) (code : BitVec 8) (r : BitVec 128) :
    ∃ t, s.laneFault rc code r = .next t := by
  unfold State.laneFault
  split <;> exact ⟨_, rfl⟩

/-- Whether a store may write its next row now: the row's segment is in place, and no load of the vector engine still owes it
(R157, R233). -/
def State.MayWrite (s : State) (l : Loc) : Prop := s.rowsMoving [l] = false ∧ (s.eng = .v → s.loadPending [l] = false)

/-- The next row of a store is written when it may be, and the repetition goes on with the rows after it; else it waits. -/
theorem State.partWrite_row (s : State) {p : RepPart} {l : Loc} {d : Row} {m : BitVec 128} {rest : List (Loc × Row × BitVec 128)}
    (hp : p.put = (l, d, m) :: rest) :
    (s.MayWrite l → s.partWrite p = if rest.isEmpty then .all (s.writeLoc l d m).1 { p with put := rest }
      else .more (.next ((s.writeLoc l d m).1.keepPart { p with put := rest })))
    ∧ (¬s.MayWrite l → s.partWrite p = .more ((s.wantSeg s.ctx l).keepPart p).wordWait) := by
  have hmay : s.MayWrite l ↔ ¬(s.rowsMoving [l] || (s.eng == .v && s.loadPending [l])) = true := by
    simp [State.MayWrite]
  rw [State.partWrite, hp]
  exact ⟨fun h => if_neg (hmay.mp h), fun h => if_pos (not_not.mp (mt hmay.mpr h))⟩

/-- The rows of other packages that a word has used lie outside the queues. -/
theorem Core.dropFar_queue (c : Core) (t : Tag) (e : Eng) : (c.dropFar t).queue e = c.queue e := by
  cases e <;> rfl

end Sys2Proof.Machine

namespace Sys2Proof.Claims
open Sys2Proof.Machine

theorem RowWritten.writeLoc (s : State) (l : Loc) (d : Row) (m : BitVec 128) : RowWritten s (s.writeLoc l d m).1 l d m := by
  rintro q row a rfl ha
  rw [State.writeLoc_held ha]
  have h := s.readByte_writeRowAt ⟨true, a⟩ d m
  refine ⟨fun p => (h false p).trans (if_neg nofun), fun p => ?_, fun p => ?_⟩
  · obtain ⟨_, _, _, _, hf⟩ := s.writeRowAt_frame ⟨true, a⟩ d m
    rw [hf]
  · refine (h true p).trans (if_congr ?_ rfl rfl)
    rw [eq_comm (a := p / 128)]
    exact and_iff_right rfl

/-- A store whose rows are written is done, unless a fault follows. -/
theorem stored_ends {s : State} {a : Active} (ha : s.q.act = some a) (o : VWord) (p : RepPart) :
    ∃ t, s.stored o (s.partAt p) p.fault = .next t ∧ (p.fault = none →
      RepGoesOn (s.setCore ((s.core.settle (max p.at_ s.issueAt)).dropFar s.tag)) t (max p.at_ s.issueAt) 1
        (max p.at_ s.issueAt) o.rc o.sc.toNat) := by
  cases hf : p.fault with
  | none =>
    obtain ⟨t, ht, hg⟩ := setCoreRep_goesOn ha (d := (s.core.settle (max p.at_ s.issueAt)).dropFar s.tag)
      (fun e => (Core.dropFar_queue _ _ e).trans ((Core.settle_vectors _ _).queue e))
      (max p.at_ s.issueAt) (max p.at_ s.issueAt) o.rc o.sc
    exact ⟨t, ht, fun _ => hg⟩
  | some f =>
    obtain ⟨t, ht⟩ := s.laneFault_next o.rc f.1 f.2
    exact ⟨t, ht, nofun⟩

/-- A store that may write its next row writes it; with the last one it is done, unless a fault follows. -/
theorem storeNext_writes {s : State} {a : Active} (ha : s.q.act = some a) (o : VWord) {p : RepPart} {l : Loc} {d : Row} {m : BitVec 128}
    {rest : List (Loc × Row × BitVec 128)} (hp : p.put = (l, d, m) :: rest) (hmay : s.MayWrite l) :
    let u := (s.writeLoc l d m).1
    ∃ t, s.storeNext o p = .next t
      ∧ (rest ≠ [] → CoreBecomes u t (u.core.setQueue u.eng { u.q with
          act := some { u.act with part := some { p with put := rest }, fresh := false } }))
      ∧ (rest = [] → p.fault = none → RepGoesOn (u.setCore ((u.core.settle (max p.at_ u.issueAt)).dropFar u.tag)) t
          (max p.at_ u.issueAt) 1 (max p.at_ u.issueAt) o.rc o.sc.toNat) := by
  intro u
  have hu : u.q.act = some a := (s.writeLoc_sameQueue l d m).q ▸ ha
  rw [State.storeNext, (s.partWrite_row hp).1 hmay]
  by_cases hr : rest = []
  · obtain ⟨t, ht, hg⟩ := stored_ends hu o p
    rw [hr]
    exact ⟨t, ht, absurd rfl, fun _ => hg⟩
  · rw [if_neg (by simpa using hr)]
    exact ⟨_, rfl, fun _ => .setQ u _, fun h => absurd h hr⟩

/-- A repetition of a store writes its next row, or is done when it has none left. -/
theorem storeNext_turn {s : State} {a : Active} (ha : s.q.act = some a) (o : VWord) (p : RepPart) :
    ∃ t, s.storeNext o p = .next t ∧ StoreTurn s t o p := by
  cases hp : p.put with
  | nil =>
    obtain ⟨t, ht, hg⟩ := stored_ends ha o p
    refine ⟨t, ?_, fun hf => ⟨fun _ => hg hf, fun l d m rest h => absurd (hp.symm.trans h) nofun⟩⟩
    simp only [State.storeNext, State.partWrite, hp, ht]
  | cons x rest =>
    obtain ⟨l, d, m⟩ := x
    by_cases hmay : s.MayWrite l
    · obtain ⟨t, ht, hmore, hlast⟩ := storeNext_writes ha o hp hmay
      refine ⟨t, ht, fun hf => ⟨fun h => absurd (hp.symm.trans h) nofun, fun l' d' m' rest' h _ _ => ?_⟩⟩
      obtain ⟨⟨⟩, rfl⟩ := List.cons.inj (hp.symm.trans h)
      exact ⟨.writeLoc s l d m, hmore, fun hr => hlast hr hf⟩
    · refine ⟨_, by rw [State.storeNext, (s.partWrite_row hp).2 hmay]; rfl,
        fun _ => ⟨fun h => absurd (hp.symm.trans h) nofun, fun l' d' m' rest' h hm hl => ?_⟩⟩
      obtain ⟨⟨⟩, rfl⟩ := List.cons.inj (hp.symm.trans h)
      exact absurd ⟨hm, hl⟩ hmay

end Sys2Proof.Claims

namespace Sys2Proof.Machine
open Sys2Proof.Claims

/-! ## A repetition of vst or vscat up to its lanes (R109, R152, R155, R156) -/

/-- The active lanes of a store: of the first n, those that its mask keeps, while `on` holds. -/
def storedLanes (n : Nat) (on : Bool) (m : BitVec 128) (l : List (Nat × Pos)) : List (Nat × Pos) :=
  l.filter (fun x => on && decide (x.1 < n) && m.getLsbD x.1)

/-- Index lanes number below 32, so that only the mask chooses among them (R156). -/
theorem storedLanes_indexed (w : Walk) (r : Nat) (idx : Row) (m : BitVec 128) :
    storedLanes 32 true m (w.indexed r idx) = (w.indexed r idx).filter (fun x => m.getLsbD x.1) := by
  refine List.filter_congr fun x hx => ?_
  obtain ⟨j, hj, rfl⟩ := List.mem_map.mp hx
  rw [decide_eq_true (List.mem_range.mp hj), Bool.and_self, Bool.true_and]

/-- A store whose hazards are past and whose active lanes resolve goes on with their rows. -/
theorem State.storeRep_resolves {s : State} {a : Active} (ha : s.q.act = some a) (o : VWord) (n : Nat) (reads : List Nat) (on : Bool)
    {lanes : Core → Nat → List (Nat × Pos)} {i : Nat} {ls : List LaneLoc}
    (hi : s.core.vIssue s.tag a.entry.schk { reads := o.rD a.rep :: reads, readM := [o.mask.toNat], lat := 0 } s.issueAt = .at_ i)
    (hls : s.resolveLanes .v s.act.data true [] (storedLanes n on (s.core.maskAt i o.mask.toNat) (lanes s.core i)) = .ok ls) :
    s.storeRep o n reads on lanes = (s.noteGroup (some .v) (laneRows ls)).storeNext o
      { at_ := i, conv := a.stuck, put := laneWrites (lane (tyBits o.ty) (s.core.vregAt i (o.rD a.rep))) ls } := by
  rw [State.act_of_q ha] at hls
  simp only [State.storeRep, State.act_of_q ha, hi]
  rw [show s.resolveLanes .v a.data true [] (List.filter _ _) = .ok ls from hls]

section
variable {s s1 : State} {o : VWord} (h1 : s.readTables o = s1) (hp : s1.act.part = none) (hw : walkUsable s1.act.wrec = true)
  (hd : s1.vecDescOk o s1.act.data true = true) (hk : (walkOf s1.act.wrec).kind = 0)
include h1 hp hw hd hk

theorem execVst_stores (hg : ((walkOf s1.act.wrec).groupLen (tyLanes o.ty) s1.act.rep).isSome = true) :
    execVst o s = s1.storeRep o (tyLanes o.ty) [] (s1.act.entry.rowmask.getLsbD (s1.act.rep % 32))
      (fun _ _ => (walkOf s1.act.wrec).group (tyLanes o.ty) s1.act.rep 0) := by
  have hindex : s1.groupIndex o (walkOf s1.act.wrec) = .at_ s1 0 := by
    rw [State.groupIndex, Walk.indexOf, if_neg (by rw [hk]; decide)]
  simp only [execVst, h1, hp, hw, hd, Option.isNone_eq_false_iff.mpr hg, hindex, Bool.not_true, Bool.false_eq_true, if_false]

theorem execVscat_stores : execVscat o s = s1.storeRep o 32 [o.rA s1.act.rep] true
    (fun c t => (walkOf s1.act.wrec).indexed s1.act.rep (c.vregAt t (o.rA s1.act.rep))) := by
  simp only [execVscat, h1, hp, hw, hd, hk, Bool.not_true, bne_self_eq_false, Bool.or_self, Bool.false_eq_true, if_false]

end

theorem execVst_part {s : State} {a : Active} {p : RepPart} (ha : s.q.act = some a) (hp : a.part = some p) (o : VWord) :
    execVst o s = s.storeNext o p := by
  rw [execVst, State.readTables_part ha hp, State.act_of_q ha, hp]

theorem execVscat_part {s : State} {a : Active} {p : RepPart} (ha : s.q.act = some a) (hp : a.part = some p) (o : VWord) :
    execVscat o s = s.storeNext o p := by
  rw [execVscat, State.readTables_part ha hp, State.act_of_q ha, hp]

end Sys2Proof.Machine

namespace Sys2Proof.Claims
open Sys2Proof.Machine

/-- R152, R155, R156: a repetition of vst or vscat whose active lanes resolve is a store of their rows. -/
theorem execStore_resolves {s : State} {a : Active} {o : VWord} {ls : List LaneLoc} {i : Nat} (ha : s.q.act = some a)
    (hp : a.part = none) {s1 : State} (h1 : s.readTables o = s1) {wk : Walk} (hwk : walkOf s1.act.wrec = wk)
    (hw : walkUsable s1.act.wrec = true) (hd : s1.vecDescOk o s1.act.data true = true) (hk : wk.kind = 0)
    {y : Instr × List Nat × List (Nat × Pos)}
    (hy : y ∈ [(Instr.vst o, [], storedLanes (tyLanes o.ty) (a.entry.rowmask.getLsbD (a.rep % 32)) (s1.core.maskAt i o.mask.toNat)
        (wk.group (tyLanes o.ty) a.rep 0)),
      (.vscat o, [o.rA a.rep], (wk.indexed a.rep (s1.core.vregAt i (o.rA a.rep))).filter
        (fun x => (s1.core.maskAt i o.mask.toNat).getLsbD x.1))])
    (hg : y.1 = .vst o → (wk.groupLen (tyLanes o.ty) a.rep).isSome = true)
    (hi : s1.core.vIssue s1.tag a.entry.schk { reads := o.rD a.rep :: y.2.1, readM := [o.mask.toNat], lat := 0 } s1.issueAt = .at_ i)
    (hls : s1.resolveLanes .v s1.act.data true [] y.2.2 = .ok ls) :
    exec y.1 s = (s1.noteGroup (some .v) (laneRows ls)).storeNext o
      { at_ := i, conv := s1.act.stuck, put := laneWrites (lane (tyBits o.ty) (s1.core.vregAt i (o.rD a.rep))) ls } := by
  obtain ⟨⟨b, hb, hentry, hrep, hpart⟩, -⟩ := State.readTables_spec ha o
  rw [h1] at hb
  have hact := State.act_of_q hb
  have hp1 : s1.act.part = none := hact ▸ hpart.trans hp
  subst hwk
  rw [← hentry, ← hrep] at hi hy
  rw [← hrep] at hg ⊢
  rw [← hact] at hy hg
  rw [hact]
  rcases List.mem_pair.mp hy with rfl | rfl
  · rw [show exec (.vst o) s = execVst o s from rfl, execVst_stores h1 hp1 hw hd hk (hg rfl)]
    exact State.storeRep_resolves hb o _ _ _ hi hls
  · rw [show exec (.vscat o) s = execVscat o s from rfl, execVscat_stores h1 hp1 hw hd hk]
    rw [← storedLanes_indexed] at hls
    exact State.storeRep_resolves hb o _ _ _ hi hls

/-- Settles O35: a repetition of `vst` or `vscat` comes to its rows by `execStore_resolves` and writes them one by one,
`storeNext_turn`; what one write leaves is `RowWritten.writeLoc`. -/
theorem vectorStores : Obligations.VectorStores := by
  unfold Obligations.VectorStores
  intro s a o ls i p s1 wk e r m ha _
  refine ⟨fun hp hw hd hk y hy hg hi hls => ?_, fun hp => ⟨?_, ?_⟩⟩
  · obtain ⟨⟨b, hb, -, -, -⟩, -⟩ := State.readTables_spec ha o
    obtain ⟨-, -, hq, -, -⟩ := s1.noteGroup_spec (some .v) (laneRows ls)
    obtain ⟨t, ht, hturn⟩ := storeNext_turn (hq ▸ hb : (s1.noteGroup (some .v) (laneRows ls)).q.act = some b) o _
    exact ⟨t, _, (execStore_resolves ha hp rfl rfl hw hd hk hy hg hi hls).trans ht, hturn⟩
  · rw [show exec (.vst o) s = execVst o s from rfl, execVst_part ha hp]
    exact storeNext_turn ha o p
  · rw [show exec (.vscat o) s = execVscat o s from rfl, execVscat_part ha hp]
    exact storeNext_turn ha o p

end Sys2Proof.Claims

namespace Sys2Proof.Machine
open Sys2Proof.Claims

/-! ## A copy word that waits for a row of another package (R347) -/

/-- A command without a destination walk declares nothing, and needs no claim. -/
theorem State.claimDest_undeclared {s : State} {x : CopyCmd} (h : x.hasDst = false) : s.claimDest x = .ok s := by
  have hd : s.declared x = none := by rw [State.declared, h]; rfl
  rw [State.claimDest, hd, ite_self]

/-- A `cdsp` whose header lies in a row that has not arrived waits for it. -/
theorem execCdsp_waits {s : State} {x : CopyCmd} {ps : List Bits} (o : CWord) (k : BitVec 3) (hcmd : s.act.cmd = none)
    (hroom : s.core.copies.length < 8)
    (hx : (let y := s.newCommand (s.act.word.getD 0) 0; { y with wlen := y.ws.c1 * y.ws.c2 * y.ws.c3 }) = x)
    (hok : s.dispatchOk x = true) (hps : s.tableParts x 0 64 = some ps)
    (hread : (s.readParts (engRow (s.readerOf x.entry) x.tag) x ps).2 = .wait) : ∃ t : State, execCdsp o k s = t.wordWait := by
  generalize hr : s.readParts (engRow (s.readerOf x.entry) x.tag) x ps = r at hread
  obtain ⟨t, e⟩ := r
  obtain rfl : e = .wait := hread
  refine ⟨t, ?_⟩
  subst hx
  simp only [execCdsp, hcmd, if_neg (Nat.not_le.mpr hroom), hok, hps, hr, Bool.not_true, Bool.false_eq_true, if_false]

/-- A `cdsp` word from walk 1 to walk 2. -/
def farTableWord : EWord := 2#2 ++ 8#6 ++ 0#4 ++ 0#10 ++ 1#5 ++ 2#5 ++ 0#16

/-- The header of a routing table of one expert whose tokens have 32 elements. -/
def farTableHeader : Nat := 2 ^ 400 + 32 * 2 ^ 384

/-- Tensor 1 holds four BF16 tokens of 32 elements in device memory, tensor 2 is a routing table of 128 bytes on package 1. A
copy entry holds the table's first row under its own tag, which numbers no command. -/
def farTableCore : Core :=
  { t := [(1, BitVec.ofNat 512 (2 ^ 31 + 0x02 * 2 ^ 56 + 0x1FF800000010000 * 2 ^ 64 + 32 * 2 ^ 128 + 4 * 2 ^ 160 + 2 ^ 192 + 2 ^ 224)),
      (2, BitVec.ofNat 512 (2 ^ 31 + 0x0C * 2 ^ 56 + 2 ^ 47 * 2 ^ 64 + 128 * 2 ^ 128 + 2 ^ 160 + 2 ^ 192 + 2 ^ 224))]
    w := [(1, BitVec.ofNat 256 (1 * 2 ^ 246 + 3 * 2 ^ 192 + 31 * 2 ^ 176 + 32 * 2 ^ 80 + 2 ^ 48)), (2, BitVec.ofNat 256 (2 * 2 ^ 246))]
    farRows := [({ eng := .c, seq := 0 }, 2 ^ 47, .done, BitVec.ofNat 1024 farTableHeader)]
    qc := { act := some { entry := { body := .word farTableWord }, cur := { body := .word farTableWord } } } }

/-- Package 0 of a gang of two, whose core 0 has the `cdsp` word at work. -/
def farTableState : State :=
  { State.reset with eng := .c, cores := [(0, farTableCore)], gang := { id := 1, size := 2 } }

/-- The command that the word makes, without and with its header. -/
def farTableBare : CopyCmd :=
  let y := farTableState.newCommand farTableWord 0
  { y with wlen := y.ws.c1 * y.ws.c2 * y.ws.c3 }
def farTableCommand : CopyCmd := { farTableBare with header := BitVec.ofNat 512 farTableHeader }

/-- The bits of the table's header. -/
def farTableParts : List Bits := (farTableState.tableParts farTableBare 0 64).getD []

/-- The state in which the command would have been made, had the row been held for it. -/
def farTableMade : State :=
  let s1 := farTableState.setCore (farTableState.core.dropFar farTableCommand.tag)
  (s1.holdCommand farTableCommand).markDirty farTableCommand

theorem farTableParts_eq : farTableState.tableParts farTableBare 0 64 = some farTableParts := by decide +kernel

/-- Under the entry's tag the header is at hand. -/
theorem farTableState_holds :
    farTableState.readParts (engRow (farTableState.readerOf farTableState.act.entry) farTableState.tag) farTableBare farTableParts
      = (farTableState, .bits farTableHeader) := by
  decide +kernel

/-- Under the command's tag it is not, and the word waits. -/
theorem farTableState_waits : ∃ u : State, execCdsp default 0 farTableState = u.wordWait := by
  have hcmd : farTableState.act.cmd = none := by decide +kernel
  have hroom : farTableState.core.copies.length < 8 := by decide +kernel
  have hbare : (let y := farTableState.newCommand (farTableState.act.word.getD 0) 0
      { y with wlen := y.ws.c1 * y.ws.c2 * y.ws.c3 }) = farTableBare := by decide +kernel
  have hok : farTableState.dispatchOk farTableBare = true := by decide +kernel
  exact execCdsp_waits default 0 hcmd hroom hbare hok farTableParts_eq (by decide +kernel)

end Sys2Proof.Machine

namespace Sys2Proof.Claims
open Sys2Proof.Machine

/-- Refutes O39: a row of another package is asked for and held under the number of the command (R347), so that a header which
the statement finds under the tag of the entry has still to arrive, and the `cdsp` waits. -/
theorem not_copyWords : ¬ Obligations.CopyWords := by
  unfold Obligations.CopyWords
  intro h
  obtain ⟨-, -, hcdsp, -⟩ := h farTableState farTableMade farTableState.act default 0 0 0 0 0 0 0 0 0 0 farTableWord 0 default default 0
    default rfl rfl
  obtain ⟨t, ht, -, -, hends⟩ := hcdsp farTableState farTableHeader farTableParts rfl rfl (by decide) (by decide +kernel)
    farTableParts_eq farTableState_holds (by decide +kernel) (by decide +kernel) (State.claimDest_undeclared (x := farTableCommand) rfl)
  have hidle : t.q.act = none := by
    obtain ⟨-, hword⟩ := hends (farTableMade.nameChannel (wordChannel farTableCommand.word)).act (by decide +kernel)
    obtain ⟨hact, -⟩ := (hword farTableWord (by decide +kernel)).1 (by decide +kernel)
    exact hact
  obtain ⟨u, hu⟩ := farTableState_waits
  rw [← Host.Outcome.next.inj (hu.symm.trans ht), State.q_setAct] at hidle
  exact nomatch hidle

end Sys2Proof.Claims

namespace Sys2Proof.Machine
open Sys2Proof.Claims

/-! ## Commands while positions are read (R176, R177) -/

/-- Command b is command a but for the rows at hand, the waits on conversions, the poisoned rows logged and the rows still to
be written. -/
def CopyCmd.SameCommand (a b : CopyCmd) : Prop :=
  b = { a with pend := b.pend, cache := b.cache, stuck := b.stuck, logged := b.logged }

theorem CopyCmd.SameCommand.refl (a : CopyCmd) : a.SameCommand a := rfl

theorem CopyCmd.SameCommand.trans {a b c : CopyCmd} (h : a.SameCommand b) (k : b.SameCommand c) : a.SameCommand c := by
  unfold CopyCmd.SameCommand at h k ⊢
  rw [k, h]

/-- State t has the actor of s, and its commands in the same places. -/
structure State.KeepsCommands (s t : State) : Prop where
  ctx : t.ctx = s.ctx
  cur : t.cur = s.cur
  copies : List.Forall₂ CopyCmd.SameCommand s.core.copies t.core.copies

theorem State.KeepsCommands.of_copies {s t : State} (hctx : t.ctx = s.ctx) (hcur : t.cur = s.cur) (h : t.core.copies = s.core.copies) :
    s.KeepsCommands t := ⟨hctx, hcur, h ▸ List.forall₂_same.mpr fun a _ => .refl a⟩

theorem State.KeepsCommands.refl (s : State) : s.KeepsCommands s := .of_copies rfl rfl rfl

theorem CopyCmd.SameCommand.forall₂_trans {as bs cs : List CopyCmd} (h : List.Forall₂ CopyCmd.SameCommand as bs)
    (k : List.Forall₂ CopyCmd.SameCommand bs cs) : List.Forall₂ CopyCmd.SameCommand as cs := by
  induction h generalizing cs with
  | nil => exact k
  | cons hab _ ih =>
    cases k with
    | cons hbc ht => exact .cons (hab.trans hbc) (ih ht)

theorem State.KeepsCommands.trans {s t u : State} (h : s.KeepsCommands t) (k : t.KeepsCommands u) : s.KeepsCommands u := by
  exact ⟨k.ctx.trans h.ctx, k.cur.trans h.cur, CopyCmd.SameCommand.forall₂_trans h.copies k.copies⟩

theorem State.SameCores.keepsCommands {s t : State} (h : s.SameCores t) : s.KeepsCommands t :=
  .of_copies h.ctx h.cur (congrArg Core.copies h.core)

/-- A change of the acting core that leaves its commands. -/
theorem State.upd_keepsCommands (s : State) {f : Core → Core} (h : (f s.core).copies = s.core.copies) : s.KeepsCommands (s.upd f) :=
  .of_copies rfl rfl (by rw [State.core_upd, h])

theorem State.updTag_keepsCommands (s : State) (tag : Tag) {f : CopyCmd → CopyCmd} (h : ∀ a : CopyCmd, a.SameCommand (f a)) :
    s.KeepsCommands (s.upd (fun c => c.updTag tag f)) := by
  refine ⟨rfl, rfl, ?_⟩
  rw [State.core_upd]
  refine List.forall₂_map_right_iff.mpr (List.forall₂_same.mpr fun a _ => ?_)
  split
  · exact h a
  · exact .refl a

/-- The state of an answer that has been taken apart. -/
theorem State.KeepsCommands.of_eq {α : Type} {s t : State} {r : State × α} {y : α} (h : s.KeepsCommands r.1) (e : r = (t, y)) :
    s.KeepsCommands t := by
  subst e
  exact h

theorem State.resolve_sameCores (s : State) (ctx n : Nat) (loc : Loc) (wr : Bool) : s.SameCores (s.resolve ctx n loc wr).1 := by
  unfold State.resolve
  split
  · split
    · exact .refl s
    · exact .refl s
    · next a _ =>
      have h1 := s.translate_sameCores (if 256 ≤ n then 8 else dieOf n) ctx a wr
      generalize s.translate (if 256 ≤ n then 8 else dieOf n) ctx a wr = r at h1
      obtain ⟨s1, x⟩ := r
      have h2 := h1.trans (s1.logMalformed_sameCores ctx n x.bad)
      simp only
      split
      · split <;> exact h2
      · exact h2
      · exact h2
  · split <;> exact .refl s

theorem State.logPoison_keepsCommands (s : State) (r : Reader) (loc : Loc) (ecc : Bool) : s.KeepsCommands (s.logPoison r loc ecc) := by
  unfold State.logPoison
  obtain ⟨space, addr⟩ := logAddr loc
  have h := (s.logRecord_sameCores s.ctx 0x01 space (addr * 2 ^ 32 + r.seq % 2 ^ 32) s.cur r.eng r.launch r.task []).keepsCommands
  show s.KeepsCommands (if _ then _ else _)
  split
  · exact h.trans (State.upd_keepsCommands _ rfl)
  · exact h

theorem State.correct_sameCores (s : State) (p : Spot) : s.SameCores (s.correct p) := by
  obtain ⟨f, v, h⟩ := s.correct_eq p
  rw [h]
  exact ⟨rfl, rfl, rfl⟩

theorem State.readTarget_keepsCommands (s : State) (r : Reader) (loc : Loc) (tg : Target) : s.KeepsCommands (s.readTarget r loc tg).1 := by
  cases tg with
  | spot p =>
    have h := (s.correct_sameCores p).keepsCommands
    simp only [State.readTarget]
    split
    · exact h.trans (State.logPoison_keepsCommands _ r loc true)
    · exact h
  | wait => cases loc <;> exact .of_copies rfl rfl rfl
  | absent | discarded | bounds | remote => exact .refl s

theorem State.readLoc_keepsCommands (s : State) (r : Reader) (loc : Loc) : s.KeepsCommands (s.readLoc r loc).1 :=
  (s.resolve_sameCores s.ctx s.cur loc false).keepsCommands.trans (State.readTarget_keepsCommands _ r loc _)

theorem State.farRow_keepsCommands (s : State) (r : Reader) (tag : Tag) (pkg : Nat) (loc : Loc) (va : Nat) :
    s.KeepsCommands (s.farRow r tag pkg loc va).1 := by
  unfold State.farRow
  split
  · exact s.logPoison_keepsCommands r loc true
  · exact .refl s
  · split
    · exact .refl s
    · exact .of_copies rfl rfl rfl

theorem engRow_keepsCommands (r : Reader) (tag : Tag) (s : State) (loc : Loc) : s.KeepsCommands (engRow r tag s loc).1 := by
  unfold engRow
  have h := s.readLoc_keepsCommands r loc
  split
  · next s1 g a hr => exact (h.of_eq hr).trans (s1.farRow_keepsCommands r tag g _ a)
  · exact h

/-- A reader that leaves the commands in their places. -/
def KeepsCommandsReader (rd : RowReader) : Prop := ∀ s l, State.KeepsCommands s (rd s l).1

/-- The row reader of a command changes the rows at hand and the poisoned rows logged alone. -/
theorem copyReader_keepsCommands (x : CopyCmd) (r : Reader) : KeepsCommandsReader (copyReader x r) := by
  intro s loc
  unfold copyReader
  extract_lets cur
  split
  · exact .refl s
  · have h := engRow_keepsCommands r x.tag s loc
    split
    · exact .refl s
    · split
      · next s1 he => exact h.of_eq he
      · next s1 he => exact h.of_eq he
      · next s1 y _ _ he =>
        dsimp only
        refine State.KeepsCommands.trans ?_ (State.updTag_keepsCommands _ x.tag fun a => rfl)
        split
        · exact .refl s
        · exact h.of_eq he

theorem State.demand_sameCores (s : State) (ctx : Nat) (x : Cap) (q : Nat) : s.SameCores (s.demand ctx x q) := by
  unfold State.demand
  split
  · extract_lets p
    split
    · exact .refl s
    · exact ⟨rfl, rfl, rfl⟩
  · exact .refl s

theorem State.stallAt_keepsCommands (s : State) (x : CopyCmd) (g : Nat) (q : Int) : s.KeepsCommands (s.stallAt x g q) :=
  (s.demand_sameCores s.ctx x.dst q.toNat).keepsCommands.trans (State.updTag_keepsCommands _ x.tag fun _ => rfl)

section
variable {rd : RowReader} (hrd : KeepsCommandsReader rd)
include hrd

theorem State.readRows_keepsCommands (s : State) (ls : List Loc) : s.KeepsCommands (s.readRows rd ls).1 := by
  induction ls generalizing s with
  | nil => exact .refl s
  | cons l ls ih =>
    rw [State.readRows]
    split
    · next s1 row he =>
      have h := ((hrd s l).of_eq he).trans (ih s1)
      split
      · next s2 rows hs => exact h.of_eq hs
      · exact h
    · next s1 bad _ he => exact (hrd s l).of_eq he

theorem State.readBits_keepsCommands (s : State) (ps : List Bits) : s.KeepsCommands (s.readBits rd ps).1 := by
  unfold State.readBits
  have h := s.readRows_keepsCommands hrd (rowsOf ps)
  split <;> exact h.of_eq ‹_›

theorem State.readParts_keepsCommands (s : State) (x : CopyCmd) (ps : List Bits) : s.KeepsCommands (s.readParts rd x ps).1 := by
  unfold State.readParts
  have h := s.readBits_keepsCommands hrd ps
  split
  · exact .refl s
  · split <;> exact h.of_eq ‹_›

theorem State.readElem_keepsCommands (s : State) (e : Eng) (fps : List Nat) (det : Bool) (cap : Cap) (q : Int) (held : Bool) :
    s.KeepsCommands (s.readElem rd e fps det cap q held).1 := by
  unfold State.readElem
  split
  · exact .refl s
  · exact .refl s
  · exact .refl s
  · next ps check _ =>
    have h := s.readBits_keepsCommands hrd ps
    split
    · exact .refl s
    · split
      · exact .refl s
      · split <;> exact h.of_eq ‹_›

theorem State.readIndex_keepsCommands (s : State) (e : Eng) (fps : List Nat) (det : Bool) (cap : Cap) (k : Nat) :
    s.KeepsCommands (s.readIndex rd e fps det cap k).1 := by
  unfold State.readIndex
  split
  · exact s.readElem_keepsCommands hrd e fps det cap k true
  · exact .refl s

theorem State.readStored_keepsCommands (s : State) (x : CopyCmd) (q : Int) : s.KeepsCommands (s.readStored rd x q).1 := by
  unfold State.readStored
  extract_lets own
  split
  · next ps _ _ =>
    have h := s.readParts_keepsCommands hrd x ps
    split
    · next s1 b he =>
      have h1 := h.of_eq he
      split
      · exact h1
      · split
        · next vs _ _ => exact h1.trans (s1.readParts_keepsCommands hrd x vs)
        · exact h1
        · exact h1
    · next he => exact h.of_eq he
  · exact .refl s
  · exact .refl s
  · exact .refl s

theorem State.readSource_keepsCommands (s : State) (x : CopyCmd) (q : Int) : s.KeepsCommands (s.readSource rd x q).1 := by
  unfold State.readSource
  split
  · exact s.readStored_keepsCommands hrd x q
  · have h := s.readElem_keepsCommands hrd .c x.fps (s.entryDet x.entry) x.src q false
    split
    · next s1 v he =>
      have h1 := h.of_eq he
      split
      · split
        · exact h1
        · next ps _ =>
          have h2 := h1.trans (s1.readParts_keepsCommands hrd x ps)
          split <;> exact h2.of_eq ‹_›
      · exact h1
    · next he => exact h.of_eq he

theorem State.copySource_keepsCommands (s : State) (x : CopyCmd) (r n : Nat) : s.KeepsCommands (s.copySource rd x r n).1 := by
  unfold State.copySource
  split
  · split
    · exact .refl s
    · exact s.upd_keepsCommands (f := fun c => c.setChannel (wordCh x.word) _) rfl
  · split
    · exact .refl s
    · split
      · exact s.readSource_keepsCommands hrd x _
      · next k _ =>
        have h := s.readIndex_keepsCommands hrd .c x.fps (s.entryDet x.entry) x.idx k
        split
        · next s1 v he =>
          have h1 := h.of_eq he
          split
          · exact h1
          · next q _ => exact h1.trans (s1.readSource_keepsCommands hrd x q)
        · next he => exact h.of_eq he

theorem State.destStored_keepsCommands (s : State) (x : CopyCmd) (q : Int) : s.KeepsCommands (s.destStored rd x q).1 := by
  unfold State.destStored
  extract_lets own
  split
  · next ps _ _ =>
    have h := s.readParts_keepsCommands hrd x ps
    split
    · next s1 b he =>
      have h1 := h.of_eq he
      split
      · exact h1
      · split <;> exact h1
    all_goals exact h.of_eq ‹_›
  · exact .refl s
  · exact .refl s
  · exact .refl s

theorem State.destElem_keepsCommands (s : State) (x : CopyCmd) (r n : Nat) (q : Int) : s.KeepsCommands (s.destElem rd x r n q).1 := by
  unfold State.destElem
  have h : s.KeepsCommands (if (s.view s.ctx x.dst).tag = 7 then s.destStored rd x q else (s, s.destAt x q)).1 := by
    split
    · exact s.destStored_keepsCommands hrd x q
    · exact .refl s
  split
  · next s1 he =>
    have h1 := h.of_eq he
    dsimp only
    split
    · exact h1.trans (s1.stallAt_keepsCommands x _ q)
    · exact h1
  · exact h

theorem State.copyDest_keepsCommands (s : State) (x : CopyCmd) (r n : Nat) : s.KeepsCommands (s.copyDest rd x r n).1 := by
  unfold State.copyDest
  split
  · exact s.destElem_keepsCommands hrd x r n _
  · next k _ =>
    have h := s.readIndex_keepsCommands hrd .c x.fps (s.entryDet x.entry) x.idx k
    split
    · next s1 v he =>
      have h1 := h.of_eq he
      split
      · exact h1
      · next q _ => exact h1.trans (s1.destElem_keepsCommands hrd x r n q)
    all_goals exact h.of_eq ‹_›

end

/-- The state in which a run ends. -/
def Ran.state : Ran → State
  | .ok s _ => s
  | .wait s => s
  | .fault s _ => s
  | .foot s _ => s

/-- What a run answers where it may end before the position at hand: without it, or as that position does. -/
theorem State.KeepsCommands.ran_ite {s : State} {b : Batch} {e : Ran} (p : Prop) [Decidable p] (h : s.KeepsCommands e.state) :
    s.KeepsCommands (if p then Ran.ok s b else e).state := by
  split
  · exact .refl s
  · exact h

/-- A run of positions leaves the commands in their places. -/
theorem State.gather_keepsCommands {rd : RowReader} (hrd : KeepsCommandsReader rd) (k g0 : Nat) (x : CopyCmd) (fuel : Nat) (s : State)
    (g : Nat) (b : Batch) : s.KeepsCommands (s.gather rd k g0 x fuel g b).state := by
  induction fuel generalizing s g b with
  | zero => exact .refl s
  | succ fuel ih =>
    rw [State.gather]
    have hd := s.copyDest_keepsCommands hrd x (g / x.wlen) (g % x.wlen)
    have hsrc (t : State) := t.copySource_keepsCommands hrd x (g / x.wlen) (g % x.wlen)
    refine .ran_ite _ ?_
    split
    · next s1 he => exact .ran_ite _ (e := .wait s1) (hd.of_eq he)
    · next s1 c he => exact .ran_ite _ (e := .fault s1 c) (hd.of_eq he)
    · next s1 f he => exact .ran_ite _ (e := .foot s1 f) (hd.of_eq he)
    · next s1 st he =>
      refine .ran_ite _ ?_
      have hs := (hd.of_eq he).trans (hsrc s1)
      split <;> exact hs.of_eq ‹_›
    · next s1 q ps he =>
      have hs := (hd.of_eq he).trans (hsrc s1)
      refine .ran_ite _ ?_
      split
      · next s2 num scale st hc => exact (hs.of_eq hc).trans (ih s2 _ _)
      · next s2 hc => exact .ran_ite _ (e := .wait s2) (hs.of_eq hc)
      · next s2 c hc => exact .ran_ite _ (e := .fault s2 c) (hs.of_eq hc)
      · next s2 f hc => exact .ran_ite _ (e := .foot s2 f) (hs.of_eq hc)

end Sys2Proof.Machine

namespace Sys2Proof.Machine
open Sys2Proof.Claims

/-! ## Resolution does not look at cores and trace rings (R315 to R317) -/

/-- The state with other cores and another trace ring. -/
def State.dress (s : State) (cores : SMap Core) (ring : TraceRing) : State := { s with cores := cores, ring := ring }

section
variable (s : State) (cores : SMap Core) (ring : TraceRing)

theorem walk2_dress (a fuel level table : Nat) : walk2 (s.dress cores ring) a fuel level table = walk2 s a fuel level table := by
  induction fuel generalizing level table with
  | zero => rfl
  | succ fuel ih => simp only [walk2, ih]; rfl

theorem stage2_dress (r ipa : Nat) : stage2 (s.dress cores ring) r ipa = stage2 s r ipa := by
  simp only [stage2, walk2_dress]

theorem walk1_dress (r a fuel level table : Nat) : walk1 (s.dress cores ring) r a fuel level table = walk1 s r a fuel level table := by
  induction fuel generalizing level table with
  | zero => rfl
  | succ fuel ih => simp only [walk1, stage2_dress, ih]; rfl

theorem walkBoth_dress (ctx a : Nat) : walkBoth (s.dress cores ring) ctx a = walkBoth s ctx a := by
  unfold walkBoth
  simp only [walk1_dress, stage2_dress]
  rfl

theorem State.writeRowAt_dress (p : Spot) (data : Row) (mask : BitVec 128) :
    (s.dress cores ring).writeRowAt p data mask = (s.writeRowAt p data mask).dress cores ring := by
  unfold State.writeRowAt State.dress
  split <;> dsimp only

theorem touchLeaf_dress (wr : Bool) (pa : Nat) : touchLeaf wr (s.dress cores ring) pa = (touchLeaf wr s pa).dress cores ring := by
  unfold touchLeaf State.putPhys
  exact s.writeRowAt_dress cores ring _ _ _

theorem touchLeaves_dress (wr : Bool) (l : List Nat) :
    touchLeaves wr (s.dress cores ring) l = (touchLeaves wr s l).dress cores ring := by
  induction l generalizing s with
  | nil => rfl
  | cons pa l ih =>
    simp only [touchLeaves, List.foldl_cons, touchLeaf_dress] at ih ⊢
    exact ih _

theorem State.walkFill_dress (unit ctx a : Nat) (wr : Bool) : (s.dress cores ring).walkFill unit ctx a wr =
    ((s.walkFill unit ctx a wr).1.dress cores ring, (s.walkFill unit ctx a wr).2) := by
  simp only [State.walkFill, walkBoth_dress, touchLeaves_dress]
  split <;> rfl

theorem State.translate_dress (unit ctx a : Nat) (wr : Bool) : (s.dress cores ring).translate unit ctx a wr =
    ((s.translate unit ctx a wr).1.dress cores ring, (s.translate unit ctx a wr).2) := by
  simp only [State.translate, State.walkFill_dress]
  rw [show (s.dress cores ring).cached unit ctx (a / 65536) wr = s.cached unit ctx (a / 65536) wr from rfl]
  cases s.cached unit ctx (a / 65536) wr <;> rfl

end

/-- A walk that ends resident has met no malformed entry. -/
theorem walkBoth_bad {s : State} {ctx a : Nat} (h : (walkBoth s ctx a).st = .resident) : (walkBoth s ctx a).bad = none := by
  unfold walkBoth at h ⊢
  extract_lets at h ⊢
  split
  · rfl
  · split
    · simp_all
    · rfl
    · split <;> simp_all

theorem State.walkFill_answer (s : State) (unit ctx a : Nat) (wr : Bool) :
    (s.walkFill unit ctx a wr).2.st = (walkBoth s ctx a).st ∧ (s.walkFill unit ctx a wr).2.bad = (walkBoth s ctx a).bad := by
  unfold State.walkFill
  extract_lets r s1 x
  split <;> exact ⟨rfl, rfl⟩

theorem State.translate_bad {s : State} {unit ctx a : Nat} {wr : Bool} (h : (s.translate unit ctx a wr).2.st = .resident) :
    (s.translate unit ctx a wr).2.bad = none := by
  unfold State.translate at h ⊢
  cases hc : s.cached unit ctx (a / 65536) wr with
  | some t => rfl
  | none =>
    simp only [hc] at h ⊢
    obtain ⟨hst, hbad⟩ := s.walkFill_answer unit ctx a wr
    exact hbad.trans (walkBoth_bad (hst.symm.trans h))

/-- A location that resolves to a place does so whatever the cores and the trace ring are. -/
theorem State.resolve_dress {s s2 : State} {ctx n : Nat} {loc : Loc} {wr : Bool} {p : Spot}
    (h : s.resolve ctx n loc wr = (s2, .spot p)) (cores : SMap Core) (ring : TraceRing) :
    (s.dress cores ring).resolve ctx n loc wr = (s2.dress cores ring, .spot p) := by
  cases loc with
  | vault q row =>
    simp only [State.resolve] at h ⊢
    rw [show (s.dress cores ring).vaultRow ctx q row = s.vaultRow ctx q row from rfl]
    split at h <;> cases h
    rfl
  | va va =>
    simp only [State.resolve] at h ⊢
    rw [show (s.dress cores ring).whereIs va = s.whereIs va from rfl]
    split at h
    · cases h
    · cases h
    · next a _ =>
      have hbad := State.translate_bad (s := s) (unit := if 256 ≤ n then 8 else dieOf n) (ctx := ctx) (a := a) (wr := wr)
      rw [State.translate_dress]
      generalize s.translate (if 256 ≤ n then 8 else dieOf n) ctx a wr = r at h hbad
      obtain ⟨s1, x⟩ := r
      dsimp only at h hbad ⊢
      split at h
      · next hst =>
        rw [hbad hst] at h ⊢
        split at h
        · cases h
        · next hw =>
          cases h
          exact if_neg hw
      · cases h
      · cases h

end Sys2Proof.Machine

namespace Sys2Proof.Claims
open Sys2Proof.Machine

/-- The row at p takes the given bits in the given bytes; its other bits, and every other byte of memory, are as in s (R178). -/
def RowPut (s t : State) (p : Spot) (data bytes ones : Nat) : Prop :=
  let base := p.addr / 128 * 128
  (∀ j, j < 128 → readByte (t.space p.vault) (base + j) =
    if bytes.testBit j then
      (BitVec.ofNat 1024 (data ||| ((s.rowAt p).toNat &&& (2 ^ 1024 - 1 - ones)))).extractLsb' (8 * j) 8
    else readByte (s.space p.vault) (base + j))
  ∧ ∀ v a, (v = p.vault → a < base ∨ base + 128 ≤ a) → readByte (t.space v) a = readByte (s.space v) a

/-- A row that is written with the bits over its old ones. -/
theorem rowPut_writeRowAt {s u : State} (p : Spot) (data bytes ones : Nat) (h : u.space = s.space) :
    RowPut s (u.writeRowAt p (BitVec.ofNat 1024 (Nat.lor data (Nat.land (s.rowAt p).toNat (2 ^ 1024 - 1 - ones))))
      (BitVec.ofNat 128 bytes)) p data bytes ones := by
  refine ⟨fun j hj => ?_, fun v a ha => ?_⟩
  · have hrow : (p.addr / 128 * 128 + j) / 128 = p.addr / 128 ∧ (p.addr / 128 * 128 + j) % 128 = j := by omega
    rw [State.readByte_writeRowAt, hrow.1, hrow.2, h, BitVec.getLsbD_ofNat]
    simp only [hj, decide_true, Bool.true_and, true_and]
    rfl
  · rw [State.readByte_writeRowAt, h]
    exact if_neg fun ⟨hv, hrow, _⟩ => by have := ha hv; omega

theorem RowPut.congr {s t u : State} {p : Spot} {data bytes ones : Nat} (h : RowPut s t p data bytes ones) (hu : u.space = t.space) :
    RowPut s u p data bytes ones := by
  unfold RowPut
  rw [hu]
  exact h

end Sys2Proof.Claims

namespace Sys2Proof.Machine
open Sys2Proof.Claims

/-! ## The write of one place (R178, R182) -/

theorem State.writeRowAt_sameCores (s : State) (p : Spot) (data : Row) (mask : BitVec 128) : s.SameCores (s.writeRowAt p data mask) := by
  obtain ⟨m, mp, v, vp, h⟩ := s.writeRowAt_frame p data mask
  rw [h]
  exact ⟨rfl, rfl, rfl⟩

theorem State.writeRowBits_of_spot {s s2 : State} {l : Loc} {p : Spot} (h : s.resolve s.ctx s.cur l true = (s2, .spot p))
    (data bytes ones : Nat) :
    ∃ t, s.writeRowBits l data bytes ones = (t, .ok) ∧ RowPut s2 t p data bytes ones ∧ s.SameCores t := by
  unfold State.writeRowBits
  rw [h]
  have hs : s.SameCores s2 := by have := s.resolve_sameCores s.ctx s.cur l true; rwa [h] at this
  refine ⟨_, rfl, rowPut_writeRowAt p data bytes ones ?_, (hs.trans ?_).trans (State.writeRowAt_sameCores _ _ _ _)⟩
  · split
    · rfl
    · exact funext (s2.correct_space p)
  · split
    · exact .refl s2
    · exact s2.correct_sameCores p

theorem Core.copies_markWritten (c : Core) (w : EWord) (l : Loc) : (c.markWritten w l).copies = c.copies := by
  unfold Core.markWritten
  split
  · rfl
  · extract_lets ch
    split <;> rfl

/-- A row of this package takes its bits at once; the commands stay in their places. -/
theorem State.writePlace_of_spot {s s2 : State} {l : Loc} {p : Spot} (h : s.resolve s.ctx s.cur l true = (s2, .spot p)) (r : Reader)
    (x : CopyCmd) (data bytes ones : Nat) : ∃ t st, s.writePlace r x l (data, bytes, ones) = .done t st []
      ∧ RowPut s2 t p data bytes ones ∧ s.KeepsCommands t := by
  obtain ⟨t, hw, hput, hcores⟩ := s.writeRowBits_of_spot h data bytes ones
  have hdone : s.writePlace r x l (data, bytes, ones) =
      .done (t.upd (fun c => c.markWritten x.word (s.normLoc l))) (if s.poisoned p then 8 else 0) [] := by
    simp only [State.writePlace, hw, h]
  exact ⟨_, _, hdone, hput.congr rfl,
    hcores.keepsCommands.trans (t.upd_keepsCommands (t.core.copies_markWritten _ _))⟩

end Sys2Proof.Machine

namespace Sys2Proof.Machine
open Sys2Proof.Claims

/-! ## Positions that are complete (R178 to R180) -/

theorem mem_foldl_insertNat {gs l : List Nat} {g : Nat} : g ∈ gs.foldl insertNat l ↔ g ∈ gs ∨ g ∈ l := by
  induction gs generalizing l with
  | nil => simp
  | cons k gs ih => rw [List.foldl_cons, ih, mem_insertNat, List.mem_cons]; tauto

/-- Completed positions stand below the low mark or among those above it. -/
theorem CopyCmd.isDone_complete (x : CopyCmd) {gs : List Nat} {g : Nat} (hg : g ∈ gs) : (x.complete gs).isDone g = true := by
  unfold CopyCmd.complete CopyCmd.isDone CopyCmd.low
  extract_lets d low
  dsimp only
  rw [Nat.div_add_mod', Bool.or_eq_true, decide_eq_true_iff, List.contains_iff_mem, List.mem_filter, decide_eq_true_iff]
  exact (Nat.lt_or_ge g low).imp_right fun h => ⟨mem_foldl_insertNat.mpr (.inl hg), h⟩

/-- A command all of whose groups in flight name their positions. -/
def CopyCmd.GroupsNamed (x : CopyCmd) : Prop := ∀ z ∈ x.away, z.1 ≠ []

/-- Positions for which nothing has been sent settle at once: they complete, or there are none. -/
theorem CopyCmd.settle_of_named {x : CopyCmd} (h : x.GroupsNamed) (gs : List Nat) (st : BitVec 8) :
    x.settle gs st [] = if gs.isEmpty then { x with status := x.status ||| st, pend := none }
      else { x with status := x.status ||| st, pend := none, cache := [] }.complete gs := by
  have hempty : x.away.filter (fun z => z.1.isEmpty) = [] := List.filter_eq_nil_iff.mpr fun z hz => by
    simpa using h z hz
  have hnamed : x.away.filter (fun z => !z.1.isEmpty) = x.away := List.filter_eq_self.mpr fun z hz => by
    simpa using h z hz
  unfold CopyCmd.settle
  simp only [hempty, hnamed]
  rfl

/-- Settled positions: what they leave of the command. -/
theorem CopyCmd.settle_spec {x : CopyCmd} (h : x.GroupsNamed) (gs : List Nat) (st : BitVec 8) :
    (x.settle gs st []).word = x.word ∧ (x.settle gs st []).tag = x.tag ∧ (x.settle gs st []).pend = none
      ∧ ∀ g ∈ gs, (x.settle gs st []).isDone g = true := by
  rw [settle_of_named h]
  split
  · next he => exact ⟨rfl, rfl, rfl, fun g hg => absurd hg (by rw [List.isEmpty_iff.mp he]; exact List.not_mem_nil)⟩
  · exact ⟨rfl, rfl, rfl, fun g hg => CopyCmd.isDone_complete _ hg⟩

namespace CopyCmd.SameCommand
variable {a b : CopyCmd} (h : a.SameCommand b)
include h

theorem word : b.word = a.word := by rw [h]
theorem tag : b.tag = a.tag := by rw [h]
theorem away : b.away = a.away := by rw [h]
theorem groupsNamed (k : a.GroupsNamed) : b.GroupsNamed := by unfold CopyCmd.GroupsNamed; rw [h.away]; exact k

/-- What settles in two states of one command finishes both or neither. -/
theorem finished_settle (k : a.GroupsNamed) (gs : List Nat) (st : BitVec 8) :
    (b.settle gs st []).finished = (a.settle gs st []).finished := by
  rw [CopyCmd.settle_of_named k, CopyCmd.settle_of_named (h.groupsNamed k), h]
  split <;> rfl

end CopyCmd.SameCommand

/-! ## The command of a tag -/

/-- Command x is one of the core's, and the only one of its tag, in whatever state its reads are. -/
structure Core.HasCommand (c : Core) (x : CopyCmd) : Prop where
  mem : ∃ z ∈ c.copies, x.SameCommand z
  only : ∀ z ∈ c.copies, z.tag = x.tag → x.SameCommand z

theorem Core.HasCommand.of_getElem? {c : Core} {k : Nat} {x : CopyCmd} (h : c.copies[k]? = some x)
    (hone : ∀ (j : Nat) (z : CopyCmd), c.copies[j]? = some z → z.tag = x.tag → j = k) : c.HasCommand x := by
  refine ⟨⟨x, List.mem_of_getElem? h, .refl x⟩, fun z hz ht => ?_⟩
  obtain ⟨j, hj⟩ := List.getElem?_of_mem hz
  rw [hone j z hj ht, h] at hj
  cases hj
  exact .refl x

theorem State.KeepsCommands.hasCommand {s t : State} {x : CopyCmd} (h : s.KeepsCommands t) (hx : s.core.HasCommand x) :
    t.core.HasCommand x := by
  obtain ⟨⟨z, hz, hsame⟩, honly⟩ := hx
  have hcopies := h.copies
  refine ⟨?_, fun w hw ht => ?_⟩
  · obtain ⟨j, hj⟩ := List.getElem?_of_mem hz
    obtain ⟨hlen, hget⟩ := List.forall₂_iff_get.mp hcopies
    obtain ⟨hlt, rfl⟩ := List.getElem?_eq_some_iff.mp hj
    exact ⟨_, List.getElem_mem (hlen ▸ hlt), hsame.trans (hget j hlt (hlen ▸ hlt))⟩
  · obtain ⟨j, hlt, rfl⟩ := List.getElem_of_mem hw
    obtain ⟨hlen, hget⟩ := List.forall₂_iff_get.mp hcopies
    have hj := hget j (hlen ▸ hlt) hlt
    exact (honly _ (List.getElem_mem (hlen ▸ hlt)) (hj.tag.symm.trans ht)).trans hj

theorem Core.mem_updTag {c : Core} {tag : Tag} {f : CopyCmd → CopyCmd} {z : CopyCmd} (hz : z ∈ c.copies) (ht : z.tag = tag) :
    f z ∈ (c.updTag tag f).copies :=
  List.mem_map.mpr ⟨z, hz, if_pos ht⟩

theorem Core.copies_stick (c : Core) (w : EWord) (st : BitVec 8) : (c.stick w st).copies = c.copies := by
  unfold Core.stick
  split
  · split <;> rfl
  · rfl

/-- A tag none of whose commands has finished ends none. -/
theorem Core.endCommand_of_unfinished {c : Core} {tag : Tag} (h : ∀ z ∈ c.copies, z.tag = tag → z.finished = false) :
    c.endCommand tag = c := by
  have hnone : c.copies.find? (fun x => x.tag == tag && x.finished) = none := List.find?_eq_none.mpr fun z hz hp => by
    obtain ⟨ht, hf⟩ := Bool.and_eq_true_iff.mp hp
    rw [h z hz (beq_iff_eq.mp ht)] at hf
    cases hf
  unfold Core.endCommand
  rw [hnone]

/-- Positions gs of command x are complete in t, and the command goes on while others are not. -/
def Completes (x : CopyCmd) (t : State) (gs : List Nat) : Prop :=
  ∃ y : CopyCmd, y.word = x.word ∧ y.pend = none ∧ (∀ h ∈ gs, y.isDone h = true) ∧ (y.finished = false → y ∈ t.core.copies)

/-- Positions that wait for nothing more complete (R178). -/
theorem State.finish_completes {s : State} {x : CopyCmd} (hx : s.core.HasCommand x) (hn : x.GroupsNamed) (gs : List Nat)
    (st : BitVec 8) : Completes x (s.finish x gs st []) gs := by
  obtain ⟨⟨w, hw, hsame⟩, honly⟩ := hx
  obtain ⟨hword, htag, hpend, hdone⟩ := CopyCmd.settle_spec (hsame.groupsNamed hn) gs st
  refine ⟨w.settle gs st [], hword.trans hsame.word, hpend, hdone, fun hf => ?_⟩
  have hmem : w ∈ (s.core.stick x.word st).copies := by rwa [Core.copies_stick]
  have hput := Core.mem_updTag (f := fun y => y.settle gs st []) hmem hsame.tag
  have hcore : (s.finish x gs st []).core.copies = ((s.core.stick x.word st).updTag x.tag (fun y => y.settle gs st [])).copies := by
    unfold State.finish
    rw [State.core_upd]
    extract_lets c1
    rw [Core.endCommand_of_unfinished]
    · split <;> rfl
    · intro v hv ht
      have hv' : v ∈ c1.copies := by revert hv; split <;> exact id
      obtain ⟨u, hu, rfl⟩ := List.mem_map.mp hv'
      rw [Core.copies_stick] at hu
      split at ht
      · next hut =>
        rw [if_pos hut]
        have hsu := honly u hu (hut)
        exact (hsu.finished_settle hn gs st).trans ((hsame.finished_settle hn gs st).symm.trans hf)
      · next hut => exact absurd ht hut
  rw [hcore]
  exact hput

end Sys2Proof.Machine

namespace Sys2Proof.Machine
open Sys2Proof.Claims

/-! ## The rows of positions that have been read (R178, R201) -/

/-- Command x waits in t with the rows of pd but the one of index j. -/
def RowsLeft (x : CopyCmd) (t : State) (pd : CopyPend) (j : Nat) : Prop :=
  ∃ y ∈ t.core.copies, y.word = x.word ∧ y.away = x.away
    ∧ ∃ r, y.pend = some r ∧ r.gs = pd.gs ∧ r.ids = pd.ids ∧ r.rows = pd.rows.eraseIdx j

theorem State.updTag_rowsLeft {s : State} {x : CopyCmd} (hx : s.core.HasCommand x) {pd r : CopyPend} {j : Nat} (hgs : r.gs = pd.gs)
    (hids : r.ids = pd.ids) (hrows : r.rows = pd.rows.eraseIdx j) :
    RowsLeft x (s.upd (fun c => c.updTag x.tag (fun y => { y with pend := some r }))) pd j := by
  obtain ⟨⟨z, hz, hsame⟩, -⟩ := hx
  refine ⟨{ z with pend := some r }, ?_, hsame.word, hsame.away, r, rfl, hgs, hids, hrows⟩
  rw [State.core_upd]
  exact Core.mem_updTag (f := fun y => { y with pend := some r }) hz hsame.tag

/-- A row of this package that stands before a command's read positions is written; the positions complete with their last row. -/
theorem State.writePend_of_spot {s s2 : State} {x : CopyCmd} {pd : CopyPend} {i data bytes ones : Nat} {l : Loc} {p : Spot}
    (hx : s.core.HasCommand x) (hn : x.GroupsNamed) (hrow : pd.rows[i % pd.rows.length]? = some (l, data, bytes, ones))
    (h : s.resolve s.ctx s.cur l true = (s2, .spot p)) (r : Reader) :
    RowPut s2 (s.writePend r x pd i) p data bytes ones
      ∧ (1 < pd.rows.length → RowsLeft x (s.writePend r x pd i) pd (i % pd.rows.length))
      ∧ (pd.rows.length = 1 → pd.ids = [] → Completes x (s.writePend r x pd i) pd.gs) := by
  obtain ⟨t, st, hw, hput, hkeep⟩ := s.writePlace_of_spot h r x data bytes ones
  obtain ⟨hlt, -⟩ := List.getElem?_eq_some_iff.mp hrow
  have hlen : (pd.rows.eraseIdx (i % pd.rows.length)).length = pd.rows.length - 1 := List.length_eraseIdx_of_lt hlt
  have hne : pd.rows.isEmpty = false := by
    rw [List.isEmpty_eq_false_iff]
    intro he
    rw [he] at hlt
    exact Nat.not_lt_zero _ hlt
  have hcmd := hkeep.hasCommand hx
  have heq : s.writePend r x pd i =
      let q : CopyPend := { pd with rows := pd.rows.eraseIdx (i % pd.rows.length), ids := pd.ids ++ [], st := pd.st ||| st }
      if q.rows.isEmpty then t.finish x q.gs q.st q.ids
      else t.upd (fun c => c.updTag x.tag (fun y => { y with pend := some q })) := by
    simp only [State.writePend, hne, hrow, hw, Bool.false_eq_true, if_false]
  rw [heq]
  dsimp only
  split
  · next he =>
    rw [List.isEmpty_iff_length_eq_zero, hlen] at he
    refine ⟨hput.congr rfl, fun h1 => absurd he (by omega), fun _ hids => ?_⟩
    rw [hids]
    exact State.finish_completes hcmd hn pd.gs _
  · next he =>
    rw [List.isEmpty_iff_length_eq_zero, hlen] at he
    exact ⟨hput.congr rfl, fun _ => State.updTag_rowsLeft hcmd rfl (List.append_nil _) rfl, fun h1 => absurd (by omega) he⟩

/-! ## A run that lands (R178, R249) -/

/-- What a run that falls into row l has to write. -/
def Batch.pendAt (b : Batch) (l : Loc) : CopyPend := { gs := b.gs, rows := [(l, mergeParts l b.els)], st := b.st }

/-- The state in which the rows of pd stand before command x; the trace ring holds the bursts of its rows. -/
def State.awaits (s : State) (ring : TraceRing) (x : CopyCmd) (pd : CopyPend) : State :=
  ({ s with ring := ring } : State).upd (fun c => c.updTag x.tag (fun y => { y with pend := some pd, cache := [] }))

theorem State.awaits_keepsCommands (s : State) (ring : TraceRing) (x : CopyCmd) (pd : CopyPend) : s.KeepsCommands (s.awaits ring x pd) :=
  .trans (t := { s with ring := ring }) (.of_copies rfl rfl rfl)
    (State.updTag_keepsCommands _ x.tag (f := fun y => { y with pend := some pd, cache := [] }) fun _ => rfl)

/-- A run that falls into one row, which it may write, goes on with that row. -/
theorem State.landRun_eq_writePend {s : State} {x : CopyCmd} {b : Batch} {l : Loc} (hrows : b.rows = [l]) (hop : x.op ≠ opCmcst)
    (hmc : x.asksMulticast = false) (hready : s.placesReady x [l] = .ok) (r : Reader) :
    ∃ ring, s.landRun r x b = (s.awaits ring x (b.pendAt l)).writePend r x (b.pendAt l) 0 := by
  have hplaces : s.placesOf x l = [l] := by
    unfold State.placesOf
    cases l with
    | va a => rw [hmc]; rfl
    | vault q row => exact if_neg hop
  have hheld : s.replicasHeld x (b.gs.headD 0 / x.wlen) = true := by
    unfold State.replicasHeld
    rw [bne_iff_ne.mpr hop, Bool.true_or]
  obtain ⟨ring1, h1⟩ := s.noteGroup_frame (some .c) ((s.commandOf x).cache.map (fun y => y.1))
  obtain ⟨ring2, h2⟩ := State.noteGroup_frame { s with ring := ring1 } (some .c) [l]
  refine ⟨ring2, ?_⟩
  unfold State.landRun
  simp only [hrows, hheld, hplaces, hready, List.map_cons, List.map_nil, List.flatMap_cons, List.flatMap_nil, List.append_nil,
    h1, h2, Bool.not_true, Bool.and_false, Bool.false_eq_true, if_false]
  rfl

/-- A run of positions that falls into one row of this package is written, and its positions complete. -/
theorem State.landRun_of_spot {s s2 : State} {x : CopyCmd} {b : Batch} {l : Loc} {p : Spot}
    (hx : s.core.HasCommand x) (hn : x.GroupsNamed) (hrows : b.rows = [l]) (hop : x.op ≠ opCmcst) (hmc : x.asksMulticast = false)
    (hfoot : s.violations .c x.fps (s.entryDet x.entry) true [l] = none)
    (h : s.resolve s.ctx s.cur l true = (s2, .spot p)) (r : Reader) :
    RowPut s2 (s.landRun r x b) p (mergeParts l b.els).1 (mergeParts l b.els).2.1 (mergeParts l b.els).2.2
      ∧ Completes x (s.landRun r x b) b.gs := by
  have hready : s.placesReady x [l] = .ok := by
    simp only [State.placesReady, hfoot, h]
  obtain ⟨ring, heq⟩ := State.landRun_eq_writePend hrows hop hmc hready r
  have hkeep := s.awaits_keepsCommands ring x (b.pendAt l)
  obtain ⟨u, hu⟩ : ∃ u, s.awaits ring x (b.pendAt l) = u := ⟨_, rfl⟩
  have hres : u.resolve u.ctx u.cur l true = (s2.dress u.cores ring, .spot p) := by
    rw [← hu]
    exact State.resolve_dress h _ ring
  rw [hu] at hkeep heq
  obtain ⟨hput, -, hends⟩ := State.writePend_of_spot (pd := b.pendAt l) (i := 0) (hkeep.hasCommand hx) hn rfl hres r
  rw [heq]
  exact ⟨hput, hends rfl rfl⟩

end Sys2Proof.Machine

namespace Sys2Proof.Claims
open Sys2Proof.Machine

/-! ## The step of the copy engine (R192) -/

/-- A command's position goes on. -/
theorem exec_rowTransfer_moveAt {s : State} {k g : Nat} {x : CopyCmd} (hs : Engines s) (he : s.eng = .c)
    (hk : s.core.copies[k]? = some x) (hstop : s.core.copyStopped x = false) (hop : x.op ≠ opCdsp) (hpos : x.pend = none → x.isMoved g = false ∧ g < x.total) :
    exec (.rowTransfer s.cur k g) s = .next (s.moveAt k g x) := by
  show execRowTransfer s.cur k g s = _
  have hctx : s.engineCtx s.cur = some s.ctx := hs
  have hself : ({ s with ctx := s.ctx, cur := s.cur, eng := .c } : State) = s := by rw [← he]
  have hopen : (x.pend.isNone && (x.isMoved g || decide (x.total ≤ g))) = false := by
    cases hp : x.pend with
    | some _ => rfl
    | none =>
      obtain ⟨hm, hg⟩ := hpos hp
      rw [hm, decide_eq_false (Nat.not_le.mpr hg)]
      rfl
  unfold execRowTransfer
  rw [hctx]
  dsimp only
  rw [hself, hk]
  dsimp only
  rw [hstop, hopen, if_neg (by decide), if_neg hop]

/-- Positions that no earlier one holds back are gathered and land. -/
theorem State.moveAt_of_gather {s s1 : State} {k g : Nat} {x : CopyCmd} {b : Batch} (hpend : x.pend = none)
    (hmoved : x.isMoved g = false) (hscl : x.op ≠ opCscl) (hred : x.op ≠ opCred) (hfifo : x.fifo ≠ 1) (hbx : x.op = opCcvt → x.td.fmt.isBx = false)
    (hfollow : s.mustFollow k g g x = false)
    (hran : s.gather (copyReader x (s.readerOf x.entry)) k g x (x.wlen - g % x.wlen) g {} = .ok s1 b) :
    s.moveAt k g x = s1.landRun (s.readerOf x.entry) x b := by
  have hnobx : (x.op == opCcvt && x.td.fmt.isBx) = false := by
    rw [Bool.and_eq_false_imp]
    exact fun ho => hbx (beq_iff_eq.mp ho)
  have hblock : x.block g = [g] := by
    unfold CopyCmd.block
    rw [hnobx]
    rfl
  unfold State.moveAt
  simp only [hpend, hmoved, hblock, hnobx, hfollow, hran, List.any_cons, List.any_nil, List.headD_cons, Bool.or_false,
    Bool.false_eq_true, if_false, if_neg hscl, if_neg hred, if_neg hfifo]

/-- Settles O40: the commands stay in their places while positions are read, `State.gather_keepsCommands`; a run lands as the
one row of its positions, `State.landRun_of_spot`, whose write and completion are those of `State.writePend_of_spot`. -/
theorem rowTransfers : Obligations.RowTransfers := by
  intro s s1 s2 k g x b l p pd data bytes ones rd base row ends hs he hk hstop hcdsp hone hn
  have hx : s.core.HasCommand x := .of_getElem? hk hone
  refine ⟨fun hpend hmoved hg hscl hred hmcst hmc hfifo hbx hfollow hran hrows _ _ hfoot hres => ?_, fun hpend hrow hres _ _ => ?_⟩
  · have hkeep : s.KeepsCommands s1 := by
      have h := s.gather_keepsCommands (copyReader_keepsCommands x (s.readerOf x.entry)) k g x (x.wlen - g % x.wlen) g {}
      rwa [hran] at h
    obtain ⟨hput, hends⟩ := State.landRun_of_spot (hkeep.hasCommand hx) hn hrows hmcst hmc hfoot hres (s.readerOf x.entry)
    refine ⟨_, exec_rowTransfer_moveAt hs he hk hstop hcdsp fun _ => ⟨hmoved, hg⟩, ?_⟩
    rw [State.moveAt_of_gather hpend hmoved hscl hred hfifo hbx hfollow hran]
    exact ⟨hput, hends⟩
  · obtain ⟨hput, hleft, hends⟩ := State.writePend_of_spot hx hn hrow hres (s.readerOf x.entry)
    have hmove : s.moveAt k g x = s.writePend (s.readerOf x.entry) x pd g := by
      simp only [State.moveAt, hpend]
    refine ⟨_, exec_rowTransfer_moveAt hs he hk hstop hcdsp fun h => by simp [hpend] at h, ?_⟩
    rw [hmove]
    exact ⟨hput, hleft, fun h1 hids _ => hends h1 hids⟩

end Sys2Proof.Claims

/-! O60: every step keeps memory canonical. What an answer owes is said once for each type that holds a state (`ResultOk`,
`OptionOk`, `PlanOk` and the rest); each function of the model that gives a state back then has one lemma, in the order of the
model's files, whose proof follows the function's branches and cites the lemmas of the functions it calls. Only the operations
that write the three lists of bytes use the laws of `Laws/Mem`; every other one passes them on. -/

namespace Sys2Proof.Safety
open Sys2Proof.Machine

/-! ## What an answer owes -/

variable {s t : State}

/-- The next state of an answer, where there is one, is canonical. -/
def ResultOk : Result → Prop
  | .next s => MemoryOk s
  | .fault _ => True
  | .refused _ => True

theorem ResultOk.next (h : MemoryOk s) : ResultOk (.next s) := h
theorem ResultOk.fault {r} : ResultOk (.fault r) := trivial
theorem ResultOk.refused {r} : ResultOk (.refused r) := trivial

/-- The state, where there is one, is canonical. -/
def OptionOk : Option State → Prop
  | .none => True
  | .some s => MemoryOk s

theorem OptionOk.none : OptionOk .none := trivial
theorem OptionOk.some (h : MemoryOk s) : OptionOk (.some s) := h

/-- The state that a turn of a repetition leaves is canonical. -/
def PartTurnOk : PartTurn → Prop
  | .more r => ResultOk r
  | .all s _ => MemoryOk s

theorem PartTurnOk.more {r} (h : ResultOk r) : PartTurnOk (.more r) := h
theorem PartTurnOk.all {p} (h : MemoryOk s) : PartTurnOk (.all s p) := h

/-- The state after an index element has been read is canonical. -/
def GroupIndexOk : GroupIndex → Prop
  | .at_ s _ => MemoryOk s
  | .lost s => MemoryOk s
  | .stop r => ResultOk r

theorem GroupIndexOk.at_ {x} (h : MemoryOk s) : GroupIndexOk (.at_ s x) := h
theorem GroupIndexOk.lost (h : MemoryOk s) : GroupIndexOk (.lost s) := h
theorem GroupIndexOk.stop {r} (h : ResultOk r) : GroupIndexOk (.stop r) := h

/-- The state after a row of a bank has been read is canonical. -/
def AccReadOk : AccRead → Prop
  | .value s _ => MemoryOk s
  | .wait => True
  | .hazard => True

theorem AccReadOk.value {r} (h : MemoryOk s) : AccReadOk (.value s r) := h
theorem AccReadOk.wait : AccReadOk .wait := trivial
theorem AccReadOk.hazard : AccReadOk .hazard := trivial

/-- The state after the rows of a token have been read is canonical. -/
def TokenReadyOk : TokenReady → Prop
  | .ok s _ => MemoryOk s
  | .stop s => MemoryOk s

theorem TokenReadyOk.ok {e} (h : MemoryOk s) : TokenReadyOk (.ok s e) := h
theorem TokenReadyOk.stop (h : MemoryOk s) : TokenReadyOk (.stop s) := h

/-- Every state that a plan goes on from is canonical. -/
def PlanOk : Plan → Prop
  | .core _ s => MemoryOk s
  | .engine _ s => MemoryOk s
  | .event _ s => MemoryOk s
  | .stop s => MemoryOk s
  | .did r => ResultOk r
  | .refuse => True

theorem PlanOk.core {i} (h : MemoryOk s) : PlanOk (.core i s) := h
theorem PlanOk.engine {i} (h : MemoryOk s) : PlanOk (.engine i s) := h
theorem PlanOk.event {i} (h : MemoryOk s) : PlanOk (.event i s) := h
theorem PlanOk.stop (h : MemoryOk s) : PlanOk (.stop s) := h
theorem PlanOk.did {r} (h : ResultOk r) : PlanOk (.did r) := h
theorem PlanOk.refuse : PlanOk .refuse := trivial

/-- The state after a claim is canonical. -/
def ClaimedOk : Claimed → Prop
  | .ok s => MemoryOk s
  | .wait s => MemoryOk s
  | .overlap _ => True

theorem ClaimedOk.ok (h : MemoryOk s) : ClaimedOk (.ok s) := h
theorem ClaimedOk.wait (h : MemoryOk s) : ClaimedOk (.wait s) := h
theorem ClaimedOk.overlap {r} : ClaimedOk (.overlap r) := trivial

/-- The state after a row has been asked for is canonical. -/
def RowWaitOk : RowWait → Prop
  | .wait r => ResultOk r
  | .row s _ => MemoryOk s

theorem RowWaitOk.wait {r} (h : ResultOk r) : RowWaitOk (.wait r) := h
theorem RowWaitOk.row {x} (h : MemoryOk s) : RowWaitOk (.row s x) := h

/-- The state after the claim of a slot is canonical. -/
def SlotOk : Slot → Prop
  | .granted s _ => MemoryOk s
  | .refused s => MemoryOk s
  | .wait s => MemoryOk s
  | .bounds => True
  | .foot _ => True

theorem SlotOk.granted {n} (h : MemoryOk s) : SlotOk (.granted s n) := h
theorem SlotOk.refused (h : MemoryOk s) : SlotOk (.refused s) := h
theorem SlotOk.wait (h : MemoryOk s) : SlotOk (.wait s) := h
theorem SlotOk.bounds : SlotOk .bounds := trivial
theorem SlotOk.foot {r} : SlotOk (.foot r) := trivial

/-- The state after a place has been written is canonical. -/
def PlaceEndOk : PlaceEnd → Prop
  | .done s _ _ => MemoryOk s
  | .wait s => MemoryOk s

theorem PlaceEndOk.done {st ids} (h : MemoryOk s) : PlaceEndOk (.done s st ids) := h
theorem PlaceEndOk.wait (h : MemoryOk s) : PlaceEndOk (.wait s) := h

/-- The state with which a core is ready is canonical. -/
def ReadyOk : Ready → Prop
  | .run _ s => MemoryOk s
  | .stop s => MemoryOk s

theorem ReadyOk.run {i} (h : MemoryOk s) : ReadyOk (.run i s) := h
theorem ReadyOk.stop (h : MemoryOk s) : ReadyOk (.stop s) := h

/-- The state after a run has been gathered is canonical. -/
def RanOk : Ran → Prop
  | .ok s _ => MemoryOk s
  | .wait s => MemoryOk s
  | .fault s _ => MemoryOk s
  | .foot s _ => MemoryOk s

theorem RanOk.ok {b} (h : MemoryOk s) : RanOk (.ok s b) := h
theorem RanOk.wait (h : MemoryOk s) : RanOk (.wait s) := h
theorem RanOk.fault {c} (h : MemoryOk s) : RanOk (.fault s c) := h
theorem RanOk.foot {r} (h : MemoryOk s) : RanOk (.foot s r) := h

/-- The state after a contribution has been applied is canonical. -/
def AppliedOk : Except State (State × Word × BitVec 2) → Prop
  | .error s => MemoryOk s
  | .ok (s, _) => MemoryOk s

theorem AppliedOk.error (h : MemoryOk s) : AppliedOk (.error s) := h
theorem AppliedOk.ok {x} (h : MemoryOk s) : AppliedOk (.ok (s, x)) := h

/-- The state after a bank has been drained is canonical. -/
def DrainedOk : Except Bool (State × List (Nat × AccRow)) → Prop
  | .error _ => True
  | .ok (s, _) => MemoryOk s

theorem DrainedOk.error {b} : DrainedOk (.error b) := trivial
theorem DrainedOk.ok {l} (h : MemoryOk s) : DrainedOk (.ok (s, l)) := h

/-- The trap, where there is one, leaves a canonical state. -/
def TrapOk : Option Result → Prop
  | .none => True
  | .some r => ResultOk r

theorem TrapOk.none : TrapOk .none := trivial
theorem TrapOk.some {r} (h : ResultOk r) : TrapOk (.some r) := h

/-- The answer of a word whose bias is not found leaves a canonical state. -/
def BiasOk : Bias → Prop
  | .ok _ => True
  | .stop r => ResultOk r

theorem BiasOk.ok {p} : BiasOk (.ok p) := trivial
theorem BiasOk.stop {r} (h : ResultOk r) : BiasOk (.stop r) := h

/-- A reader of rows keeps memory canonical. -/
def ReaderOk (rd : RowReader) : Prop := ∀ s l, MemoryOk s → MemoryOk (rd s l).1

/-! ## Moving between states -/

/-- A state is canonical when its three lists of bytes are, whatever stands in the other fields. -/
theorem MemoryOk.of_lists {agenda ctx cur eng favoured now time frac clock clockAt dead memPoison vaultPoison flips vaultFixed
    scrubbed scrubAt cores phys quads phases segs claims nextClaim dir contribs nextContrib rounds gates barriers launches
    pqueues graphs traces ctxs tlb images remap remapVersion fencedDies host complexes journal attempt recovery ports remotes
    nextRemote gang ring retiredChannels draws turn mem sram
    vault} (hm : Memory.wf mem = true) (hv : Memory.wf vault = true) (hr : Memory.wf sram = true) :
    MemoryOk ⟨agenda, ctx, cur, eng, favoured, now, time, frac, clock, clockAt, dead, mem, memPoison, sram, vault,
      vaultPoison, flips, vaultFixed, scrubbed, scrubAt, cores, phys, quads, phases, segs, claims, nextClaim, dir, contribs,
      nextContrib, rounds, gates, barriers, launches, pqueues, graphs, traces, ctxs, tlb, images, remap, remapVersion,
      fencedDies, host, complexes, journal, attempt, recovery, ports, remotes, nextRemote, gang, ring, retiredChannels, draws,
      turn⟩ :=
  ⟨hm, hv, hr⟩

/-- A state that takes its three lists of bytes from a canonical one. -/
theorem MemoryOk.keep {agenda ctx cur eng favoured now time frac clock clockAt dead memPoison vaultPoison flips vaultFixed
    scrubbed scrubAt cores phys quads phases segs claims nextClaim dir contribs nextContrib rounds gates barriers launches
    pqueues graphs traces ctxs tlb images remap remapVersion fencedDies host complexes journal attempt recovery ports remotes
    nextRemote gang ring retiredChannels draws turn} (h : MemoryOk s) :
    MemoryOk ⟨agenda, ctx, cur, eng, favoured, now, time, frac, clock, clockAt, dead, s.mem, memPoison, s.sram, s.vault,
      vaultPoison, flips, vaultFixed, scrubbed, scrubAt, cores, phys, quads, phases, segs, claims, nextClaim, dir, contribs,
      nextContrib, rounds, gates, barriers, launches, pqueues, graphs, traces, ctxs, tlb, images, remap, remapVersion,
      fencedDies, host, complexes, journal, attempt, recovery, ports, remotes, nextRemote, gang, ring, retiredChannels, draws,
      turn⟩ :=
  .of_lists h.1 h.2.1 h.2.2

theorem MemoryOk.ite {c : Prop} [Decidable c] (h : MemoryOk s) (k : MemoryOk t) : MemoryOk (if c then s else t) := by
  split
  · exact h
  · exact k

theorem ResultOk.ite {c : Prop} [Decidable c] {r q : Result} (h : ResultOk r) (k : ResultOk q) :
    ResultOk (if c then r else q) := by
  split
  · exact h
  · exact k

theorem OptionOk.ite {c : Prop} [Decidable c] {o q : Option State} (h : OptionOk o) (k : OptionOk q) :
    OptionOk (if c then o else q) := by
  split
  · exact h
  · exact k

theorem MemoryOk.foldl {α : Type} {l : List α} {f : State → α → State} (hs : MemoryOk s)
    (hf : ∀ t x, MemoryOk t → MemoryOk (f t x)) : MemoryOk (l.foldl f s) :=
  List.foldlRecOn l f hs fun t ht x _ => hf t x ht

theorem MemoryOk.foldl_fst {α β : Type} {l : List α} {f : State × β → α → State × β} {p : State × β} (hp : MemoryOk p.1)
    (hf : ∀ q x, MemoryOk q.1 → MemoryOk (f q x).1) : MemoryOk (l.foldl f p).1 :=
  List.foldlRecOn (motive := fun q : State × β => MemoryOk q.1) l f hp fun q hq x _ => hf q x hq

theorem MemoryOk.foldl_tile {α : Type} {l : List α} {f : TileState → α → TileState} {w : TileState} (hw : MemoryOk w.s)
    (hf : ∀ v x, MemoryOk v.s → MemoryOk (f v x).s) : MemoryOk (l.foldl f w).s :=
  List.foldlRecOn (motive := fun v : TileState => MemoryOk v.s) l f hw fun v hv x _ => hf v x hv

theorem OptionOk.foldl {α : Type} {l : List α} {f : Option State → α → Option State} {o : Option State} (ho : OptionOk o)
    (hf : ∀ q x, OptionOk q → OptionOk (f q x)) : OptionOk (l.foldl f o) :=
  List.foldlRecOn l f ho fun q hq x _ => hf q x hq

theorem MemoryOk.getD {o : Option State} (ho : OptionOk o) (hs : MemoryOk s) : MemoryOk (o.getD s) := by
  cases o with
  | none => exact hs
  | some t => exact ho

theorem OptionOk.map {α : Type} {o : Option α} {f : α → State} (hf : ∀ x, MemoryOk (f x)) : OptionOk (o.map f) := by
  cases o with
  | none => exact .none
  | some x => exact .some (hf x)

theorem OptionOk.bind {α : Type} {o : Option α} {f : α → Option State} (hf : ∀ x, OptionOk (f x)) : OptionOk (o.bind f) := by
  cases o with
  | none => exact .none
  | some x => exact hf x

theorem OptionOk.findSome {α : Type} {l : List α} {f : α → Option State} (hf : ∀ x, OptionOk (f x)) :
    OptionOk (l.findSome? f) := by
  induction l with
  | nil => exact .none
  | cons x l ih =>
    rw [List.findSome?_cons]
    split
    · next t e => exact e.subst (motive := OptionOk) (hf x)
    · exact ih

/-- The state that a pair of answers holds first. -/
theorem MemoryOk.of_fst {β : Type} {x : State × β} {b : β} (e : x = (t, b)) (h : MemoryOk x.1) : MemoryOk t := by
  rwa [e] at h

theorem MemoryOk.of_snd {β : Type} {x : β × State} {b : β} (e : x = (b, t)) (h : MemoryOk x.2) : MemoryOk t := by
  rwa [e] at h

/-! ## Machine/Mem -/

theorem MemoryOk.writeRowAt {p data mask} (hs : MemoryOk s) : MemoryOk (s.writeRowAt p data mask) := by
  obtain ⟨hm, hv, hr⟩ := hs
  unfold State.writeRowAt
  split
  · exact .of_lists hm (wf_writeRow _ _ _ hv) hr
  · exact .of_lists (wf_writeRow _ _ _ hm) hv hr

theorem MemoryOk.correct {p} (hs : MemoryOk s) : MemoryOk (s.correct p) := .ite (.keep hs) hs

theorem MemoryOk.poisonRow {p} (hs : MemoryOk s) : MemoryOk (s.poisonRow p) := .ite (.keep hs) (.keep hs)

theorem MemoryOk.putPhys {a n v} (hs : MemoryOk s) : MemoryOk (s.putPhys a n v) := .writeRowAt hs

/-! ## Machine/Xlat -/

theorem MemoryOk.setContext {c x} (hs : MemoryOk s) : MemoryOk (s.setContext c x) := .keep hs

theorem MemoryOk.touchLeaf {wr pa} (hs : MemoryOk s) : MemoryOk (touchLeaf wr s pa) := .putPhys hs

theorem MemoryOk.touchLeaves {wr leaves} (hs : MemoryOk s) : MemoryOk (touchLeaves wr s leaves) :=
  .foldl hs fun _ _ ht => .touchLeaf ht

theorem MemoryOk.walkFill {unit ctx a wr} (hs : MemoryOk s) : MemoryOk (s.walkFill unit ctx a wr).1 := by
  unfold State.walkFill
  extract_lets r s1 x t
  have hs1 : MemoryOk s1 := .touchLeaves hs
  split
  · exact .keep hs1
  · exact hs1

theorem MemoryOk.translate {unit ctx a wr} (hs : MemoryOk s) : MemoryOk (s.translate unit ctx a wr).1 := by
  unfold State.translate
  split
  · exact hs
  · exact .walkFill hs

/-! ## Machine/Base -/

theorem MemoryOk.setCoreAt {ctx n c} (hs : MemoryOk s) : MemoryOk (s.setCoreAt ctx n c) := .keep hs

theorem MemoryOk.setCore {c} (hs : MemoryOk s) : MemoryOk (s.setCore c) := .setCoreAt hs

theorem MemoryOk.upd {f} (hs : MemoryOk s) : MemoryOk (s.upd f) := .setCore hs

theorem MemoryOk.setQ {q} (hs : MemoryOk s) : MemoryOk (s.setQ q) := .upd hs

theorem MemoryOk.setPhys {p x} (hs : MemoryOk s) : MemoryOk (s.setPhys p x) := .keep hs

theorem MemoryOk.setQuad {q x} (hs : MemoryOk s) : MemoryOk (s.setQuad q x) := .keep hs

theorem MemoryOk.setLaunch {i x} (hs : MemoryOk s) : MemoryOk (s.setLaunch i x) := .keep hs

theorem MemoryOk.updLaunch {i f} (hs : MemoryOk s) : MemoryOk (s.updLaunch i f) := by
  unfold State.updLaunch
  split
  · exact .setLaunch hs
  · exact hs

theorem MemoryOk.raise {vec} (hs : MemoryOk s) : MemoryOk (s.raise vec) := .ite (.keep hs) (.keep hs)

theorem MemoryOk.event {kind ctx arg vec} (hs : MemoryOk s) : MemoryOk (s.event kind ctx arg vec) :=
  .raise (.ite (.keep hs) (.putPhys (.keep hs)))

theorem MemoryOk.sendRemote {pkg va kind op} (hs : MemoryOk s) : MemoryOk (s.sendRemote pkg va kind op) := .keep hs

theorem MemoryOk.keepRecord {v} (hs : MemoryOk s) : MemoryOk (s.keepRecord v) := .putPhys (.keep hs)

theorem MemoryOk.dropRecord (hs : MemoryOk s) : MemoryOk s.dropRecord := .keep hs

theorem MemoryOk.shareRecord {v} (hs : MemoryOk s) : MemoryOk (s.shareRecord v) := .ite (.keep (.sendRemote (.keep hs))) hs

theorem MemoryOk.trace {kind core eng seq payload} (hs : MemoryOk s) : MemoryOk (s.trace kind core eng seq payload) :=
  .shareRecord (.ite hs (.ite (.dropRecord hs) (.keepRecord hs)))

theorem MemoryOk.logSlot {ctx v} (hs : MemoryOk s) : MemoryOk (s.logSlot ctx v) := by
  unfold State.logSlot
  extract_lets va u s1
  have hs1 : MemoryOk s1 := .setContext hs
  split
  · split
    next s2 _ e =>
      have hs2 : MemoryOk s2 := .of_fst e (.translate hs1)
      exact .ite (.putPhys hs2) hs2
  · exact hs1

theorem MemoryOk.logRecord {ctx kind sub detail lcore eng launch taskn conts} (hs : MemoryOk s) :
    MemoryOk (s.logRecord ctx kind sub detail lcore eng launch taskn conts) :=
  .event (.foldl (.logSlot hs) fun _ _ ht => .logSlot ht)

theorem MemoryOk.logMalformed {ctx lcore bad} (hs : MemoryOk s) : MemoryOk (s.logMalformed ctx lcore bad) := by
  unfold State.logMalformed
  split
  · exact hs
  · exact .logRecord hs

/-! ## Machine/Access -/

theorem MemoryOk.resolve {ctx n loc wr} (hs : MemoryOk s) : MemoryOk (s.resolve ctx n loc wr).1 := by
  unfold State.resolve
  split
  · split
    · exact hs
    · exact hs
    · split
      next s2 _ e =>
        have hs2 : MemoryOk s2 := .of_fst e (.translate hs)
        extract_lets s21
        have hs21 : MemoryOk s21 := .logMalformed hs2
        split
        · split <;> exact hs21
        · exact hs21
        · exact hs21
  · split <;> exact hs

theorem MemoryOk.wantSeg {ctx loc} (hs : MemoryOk s) : MemoryOk (s.wantSeg ctx loc) := by
  unfold State.wantSeg
  split
  · exact .keep hs
  · exact hs

/-! ## Machine/Conflict -/

theorem MemoryOk.noteGroup {e ls} (hs : MemoryOk s) : MemoryOk (s.noteGroup e ls) :=
  .foldl hs fun _ _ ht => .ite ht (.keep ht)

/-! ## Machine/Record -/

theorem MemoryOk.note {f} (hs : MemoryOk s) : MemoryOk (s.note f) := by
  unfold State.note
  split
  · exact hs
  · split
    · exact .keep hs
    · exact hs

theorem MemoryOk.noteLive (hs : MemoryOk s) : MemoryOk s.noteLive := .note hs

theorem MemoryOk.noteWait {w} (hs : MemoryOk s) : MemoryOk (s.noteWait w) := .note hs

theorem MemoryOk.noteEntry {e x} (hs : MemoryOk s) : MemoryOk (s.noteEntry e x) := .note hs

theorem MemoryOk.noteGuard {tix index wide v} (hs : MemoryOk s) : MemoryOk (s.noteGuard tix index wide v) := by
  unfold State.noteGuard
  split
  · exact hs
  · split
    · exact .keep hs
    · exact hs

theorem MemoryOk.noteTakes {before} (hs : MemoryOk s) : MemoryOk (s.noteTakes before) := by
  unfold State.noteTakes
  split
  · exact hs
  · refine .foldl hs fun t x ht => ?_
    split
    · exact .ite (.keep (.noteWait (.keep ht))) ht
    · exact ht

/-! ## Machine/Queue -/

theorem MemoryOk.acceptAs {ctx n e x ring} (hs : MemoryOk s) : MemoryOk (s.acceptAs ctx n e x ring) := .setCoreAt hs

theorem MemoryOk.accept {ctx n e ent} (hs : MemoryOk s) : MemoryOk (s.accept ctx n e ent) := .acceptAs hs

theorem MemoryOk.acceptFor {ctx n e ent launch ring} (hs : MemoryOk s) : MemoryOk (s.acceptFor ctx n e ent launch ring) :=
  .acceptAs hs

theorem MemoryOk.advance {k issuing} (hs : MemoryOk s) : MemoryOk (s.advance k issuing) := .ite hs (.noteTakes (.keep hs))

/-! ## Machine/Ops -/

theorem ResultOk.done {bytes} (hs : MemoryOk s) : ResultOk (s.done bytes) := .next (.upd hs)

theorem ResultOk.wait {w} (hs : MemoryOk s) : ResultOk (s.wait w) := .next (.upd hs)

theorem ResultOk.writeReg {d v bytes} (hs : MemoryOk s) : ResultOk (s.writeReg d v bytes) := .next (.upd hs)

theorem MemoryOk.markTask {launch l v} (hs : MemoryOk s) : MemoryOk (s.markTask launch l v) := .updLaunch hs

theorem MemoryOk.logEngineFault {e f xpc} (hs : MemoryOk s) : MemoryOk (s.logEngineFault e f xpc) := .logRecord hs

theorem MemoryOk.releaseClaims {core seq} (hs : MemoryOk s) : MemoryOk (s.releaseClaims core seq) :=
  .foldl (.keep hs) fun _ _ ht => .sendRemote ht

theorem MemoryOk.releaseQueue {e} (hs : MemoryOk s) : MemoryOk (s.releaseQueue e) := by
  unfold State.releaseQueue
  extract_lets q
  split
  · exact hs
  · exact .ite (.releaseClaims (.upd hs)) (.upd hs)

theorem MemoryOk.releaseAll {xpc} (hs : MemoryOk s) : MemoryOk (s.releaseAll xpc) := by
  unfold State.releaseAll
  refine .foldl hs fun t e ht => ?_
  split
  · exact ht
  · exact .releaseQueue (.ite ht (.logEngineFault ht))

theorem MemoryOk.logTrap {code value xpc} (hs : MemoryOk s) : MemoryOk (s.logTrap code value xpc) := .logRecord hs

theorem MemoryOk.leaveClaims {ctx n} (hs : MemoryOk s) : MemoryOk (s.leaveClaims ctx n) := .keep hs

theorem MemoryOk.exitTask {faulted at_} (hs : MemoryOk s) : MemoryOk (s.exitTask faulted at_) := by
  unfold State.exitTask
  extract_lets c bad s1 s2 s3
  have hs1 : MemoryOk s1 := .foldl hs fun _ _ ht => .logTrap ht
  have hs2 : MemoryOk s2 := .releaseAll hs1
  have hs3 : MemoryOk s3 := .upd (.leaveClaims hs2)
  split
  · exact .ite (.markTask (.updLaunch hs3)) (.updLaunch hs3)
  · exact .upd hs3

theorem MemoryOk.leaveTask (hs : MemoryOk s) : MemoryOk s.leaveTask := .ite (.exitTask hs) hs

theorem MemoryOk.endTask {code value resume} (hs : MemoryOk s) : MemoryOk (s.endTask code value resume) :=
  .leaveTask (.upd (.logTrap hs))

theorem MemoryOk.takeTrap {code async value resume} (hs : MemoryOk s) : MemoryOk (s.takeTrap code async value resume) :=
  .ite (.releaseQueue hs) (.ite (.endTask (.noteLive hs)) (.upd (.noteLive hs)))

theorem ResultOk.trap {code value} (hs : MemoryOk s) : ResultOk (s.trap code value) := .next (.takeTrap hs)

theorem ResultOk.illegal {i} (hs : MemoryOk s) : ResultOk (s.illegal i) := .trap hs

theorem MemoryOk.leaveClaim {id} (hs : MemoryOk s) : MemoryOk (s.leaveClaim id) := .ite (.keep hs) (.keep hs)

theorem MemoryOk.leaveWait (hs : MemoryOk s) : MemoryOk s.leaveWait := by
  unfold State.leaveWait
  split <;> exact .upd hs

theorem MemoryOk.leaveStop (hs : MemoryOk s) : MemoryOk s.leaveStop := by
  unfold State.leaveStop
  split
  · split
    · exact .upd (.leaveClaim hs)
    · exact .leaveWait hs
  · exact hs
  · exact .leaveWait hs

theorem MemoryOk.deliver {s0 : State} (hs0 : MemoryOk s0) : MemoryOk s0.deliver := by
  unfold State.deliver
  extract_lets s c
  have hs : MemoryOk s := .leaveWait hs0
  split
  · exact hs0
  · split
    · exact .takeTrap (.upd hs)
    · split
      · exact hs0
      · exact .takeTrap (.ite (.logEngineFault (.upd hs)) (.upd hs))

theorem MemoryOk.returnTrap (hs : MemoryOk s) : MemoryOk s.returnTrap := .upd hs

theorem MemoryOk.preciseTrap {code value} (hs : MemoryOk s) : MemoryOk (s.preciseTrap code value) :=
  .ite (.deliver hs) (.takeTrap hs)

theorem MemoryOk.engineFault {e x code p} (hs : MemoryOk s) : MemoryOk (s.engineFault e x code p) := by
  unfold State.engineFault
  extract_lets c q prev f r s1 s2 s3
  have hs1 : MemoryOk s1 := .upd hs
  have hs2 : MemoryOk s2 := .updLaunch hs1
  have hs3 : MemoryOk s3 := .trace hs2
  exact .ite hs (.ite (.markTask hs3) hs3)

theorem MemoryOk.defer {code value pc} (hs : MemoryOk s) : MemoryOk (s.defer code value pc) := .upd hs

/-! ## Machine/Reads -/

theorem MemoryOk.logPoison {r loc ecc} (hs : MemoryOk s) : MemoryOk (s.logPoison r loc ecc) := by
  unfold State.logPoison
  split
  · exact .ite (.defer (.logRecord hs)) (.logRecord hs)

theorem MemoryOk.readTarget {r loc t} (hs : MemoryOk s) : MemoryOk (s.readTarget r loc t).1 := by
  unfold State.readTarget
  split
  · split
    · exact .logPoison (.correct hs)
    · exact .correct hs
  · exact hs
  · exact hs
  · exact .wantSeg hs
  · exact hs
  · exact hs

theorem MemoryOk.readLoc {r loc} (hs : MemoryOk s) : MemoryOk (s.readLoc r loc).1 := by
  unfold State.readLoc
  split
  next s1 _ e => exact .readTarget (.of_fst e (.resolve hs))

theorem MemoryOk.writeLoc {loc data mask} (hs : MemoryOk s) : MemoryOk (s.writeLoc loc data mask).1 := by
  unfold State.writeLoc
  split
  next s1 _ e =>
    have hs1 : MemoryOk s1 := .of_fst e (.resolve hs)
    split
    · exact .writeRowAt hs1
    · exact hs1
    · exact hs1
    · exact .wantSeg hs1
    · exact hs1
    · exact hs1

theorem MemoryOk.setResid {abs pois} (hs : MemoryOk s) : MemoryOk (s.setResid abs pois) := .upd hs

/-! ## Machine/Fetch -/

theorem MemoryOk.fetchRow {va} (hs : MemoryOk s) : MemoryOk (s.fetchRow va).1 := by
  unfold State.fetchRow
  split
  · exact hs
  · extract_lets c
    split
    · exact hs
    · split
      next s1 _ e =>
        have hs1 : MemoryOk s1 := .of_fst e (.resolve hs)
        split
        · exact hs1
        · exact .upd hs1
      next s1 _ _ e => exact .of_fst e (.resolve hs)

theorem MemoryOk.fetchWord {va} (hs : MemoryOk s) : MemoryOk (s.fetchWord va).1 := by
  unfold State.fetchWord
  split
  next s1 _ _ e => exact .of_fst e (.fetchRow hs)
  next s1 _ e => exact .of_fst e (.fetchRow hs)

theorem MemoryOk.fetchRest {va a a1} (hs : MemoryOk s) : MemoryOk (s.fetchRest va a a1).1 := by
  induction a generalizing s va a1 with
  | zero =>
    rw [State.fetchRest]
    exact hs
  | succ k ih =>
    rw [State.fetchRest]
    split
    next s1 _ e => exact ih (.of_fst e (.fetchWord hs))
    next s1 _ e => exact .of_fst e (.fetchWord hs)

theorem MemoryOk.fetchTrap {va poisoned} (hs : MemoryOk s) : MemoryOk (s.fetchTrap va poisoned) :=
  .takeTrap (.ite (.logPoison hs) hs)

theorem ReadyOk.fetchInstr (hs : MemoryOk s) : ReadyOk s.fetchInstr := by
  unfold State.fetchInstr
  extract_lets pc
  split
  next s1 _ e => exact .stop (.fetchTrap (.of_fst e (.fetchWord hs)))
  next s1 _ e =>
    have hs1 : MemoryOk s1 := .of_fst e (.fetchWord hs)
    split
    · exact .stop (.takeTrap hs1)
    · split
      next s2 _ _ e1 => exact .stop (.fetchTrap (.of_fst e1 (.fetchRest hs1)))
      next s2 _ e1 =>
        have hs2 : MemoryOk s2 := .of_fst e1 (.fetchRest hs1)
        split
        · exact .run hs2
        · exact .stop (.takeTrap hs2)

theorem OptionOk.actor {n} (hs : MemoryOk s) : OptionOk (s.actor n) := by
  unfold State.actor
  split
  · exact .some (.keep hs)
  · exact .none

theorem ReadyOk.readyCore {n} (hs : MemoryOk s) : ReadyOk (s.readyCore n) := by
  unfold State.readyCore
  split
  · exact .stop hs
  next t e =>
    have ht : MemoryOk t := e.subst (motive := OptionOk) (.actor hs)
    split
    · exact .stop ht
    · split
      · exact .stop (.leaveTask ht)
      · split
        · exact .stop (.deliver ht)
        · split
          · exact .stop (.takeTrap ht)
          · split
            next t1 e1 =>
              have ht1 : MemoryOk t1 := e1.subst (motive := ReadyOk) (.fetchInstr (.upd ht))
              exact .stop ht1
            next t1 e1 =>
              have ht1 : MemoryOk t1 := e1.subst (motive := ReadyOk) (.fetchInstr (.upd ht))
              split
              · exact .stop (.upd ht1)
              · exact .run ht1

/-! ## Machine/Operands -/

theorem ResultOk.branch {taken target} (hs : MemoryOk s) : ResultOk (s.branch taken target) := .next (.upd hs)

theorem ResultOk.writeMask {k x} (hs : MemoryOk s) : ResultOk (s.writeMask k x) := .next (.upd hs)

/-! ## Machine/CtlMem -/

theorem ResultOk.load {d h off wide el} (hs : MemoryOk s) : ResultOk (s.load d h off wide el) := by
  unfold State.load
  split
  · exact .trap hs
  · exact .ite (.wait hs) (.next (.upd hs))

theorem ResultOk.store {i h off k} (hs : MemoryOk s) : ResultOk (s.store i h off k) := by
  unfold State.store
  split
  · exact .trap hs
  · exact .ite (.trap hs) (.ite (.wait hs) (.next (.upd (.noteLive hs))))

theorem ResultOk.fence {form scope} (hs : MemoryOk s) : ResultOk (s.fence form scope) := .ite (.wait hs) (.next (.upd hs))

theorem MemoryOk.popStoreToken {j} (hs : MemoryOk s) : MemoryOk (s.popStoreToken j) := .ite (.upd hs) hs

theorem MemoryOk.popToken (hs : MemoryOk s) : MemoryOk s.popToken := by
  unfold State.popToken
  split
  · split
    · exact .ite (.ite (.upd hs) (.popStoreToken hs)) (.upd hs)
    · exact .ite hs (.upd hs)
    · exact .popStoreToken hs
    · exact hs
  · split
    · exact .ite hs (.upd hs)
    · exact hs
  · split
    · exact .popStoreToken hs
    · exact hs
  · exact hs

theorem MemoryOk.finishLoad {d v abs pois} (hs : MemoryOk s) : MemoryOk (s.finishLoad d v abs pois) := .setResid (.upd hs)

theorem MemoryOk.loadResult {d wide el a} (hs : MemoryOk s) : MemoryOk (s.loadResult d wide el a) := by
  unfold State.loadResult
  split
  · exact .finishLoad hs
  · exact .finishLoad hs
  · exact .finishLoad hs
  · exact .finishLoad hs
  · exact .finishLoad hs
  · exact hs
  · exact hs

theorem MemoryOk.performLoad (hs : MemoryOk s) : MemoryOk s.performLoad := by
  unfold State.performLoad
  split
  · exact hs
  · split
    · extract_lets loc t s1
      have hs1 : MemoryOk s1 := .upd hs
      split
      · exact hs
      · clear_value t
        split
        · exact .ite hs (.sendRemote hs1)
        · split
          next s11 _ e => exact .loadResult (.of_fst e (.readTarget hs))
    · exact .popToken hs

theorem ResultOk.execLoadReturn {n} (hs : MemoryOk s) : ResultOk (execLoadReturn n s) := by
  unfold Machine.execLoadReturn
  split
  · exact .next hs
  next t e =>
    have ht : MemoryOk t := e.subst (motive := OptionOk) (.actor hs)
    exact .next (.performLoad ht)

theorem MemoryOk.performStore (hs : MemoryOk s) : MemoryOk s.performStore := by
  unfold State.performStore
  split
  · exact hs
  · split
    · exact .popToken hs
    · exact hs
    · extract_lets pop loc t
      split
      · split
        · exact hs
        · clear_value t
          split
          · exact .wantSeg hs
          · exact .setResid (.upd hs)
          · exact .setResid (.upd hs)
          · exact .setResid (.upd hs)
          · exact .ite (.sendRemote (.upd hs)) (.setResid (.upd hs))
          · exact .ite (.writeRowAt (.upd hs)) (.setResid (.upd hs))

theorem ResultOk.execStorePerform {n} (hs : MemoryOk s) : ResultOk (execStorePerform n s) := by
  unfold Machine.execStorePerform
  split
  · exact .next hs
  next t e =>
    have ht : MemoryOk t := e.subst (motive := OptionOk) (.actor hs)
    exact .next (.performStore ht)

theorem MemoryOk.drain {a} {a1 : State} (ha1 : MemoryOk a1) : MemoryOk (State.drain a a1) := by
  induction a generalizing a1 with
  | zero =>
    rw [State.drain]
    exact ha1
  | succ k ih =>
    rw [State.drain]
    exact ih (.performStore (.performLoad ha1))

theorem MemoryOk.drainQueues (hs : MemoryOk s) : MemoryOk s.drainQueues := .drain hs

theorem ResultOk.streamRead {i d k esz f} (hs : MemoryOk s) : ResultOk (s.streamRead i d k esz f) := by
  unfold State.streamRead
  extract_lets x
  split
  · exact .illegal hs
  · split
    · exact .wait hs
    · exact .next (.upd hs)

theorem ResultOk.translateInto {i h a rw} (hs : MemoryOk s) : ResultOk (s.translateInto i h a rw) :=
  .ite (.illegal hs) (.next (.upd hs))

theorem ResultOk.execHandleResolve {n h} (hs : MemoryOk s) : ResultOk (execHandleResolve n h s) := by
  unfold Machine.execHandleResolve
  split
  · exact .next hs
  next t e =>
    have ht : MemoryOk t := e.subst (motive := OptionOk) (.actor hs)
    split
    · exact .next ht
    · split
      · split
        next s2 _ e1 => exact .next (.upd (.logMalformed (.of_fst e1 (.translate ht))))
      · exact .next (.upd ht)

/-! ## Machine/Layout -/

theorem MemoryOk.demand {ctx x q} (hs : MemoryOk s) : MemoryOk (s.demand ctx x q) := by
  unfold State.demand
  split
  · exact .ite hs (.setContext hs)
  · exact hs

theorem MemoryOk.readRows {rd a} (hs : MemoryOk s) (hrd : ReaderOk rd) : MemoryOk (s.readRows rd a).1 := by
  induction a generalizing s with
  | nil =>
    rw [State.readRows]
    exact hs
  | cons x xs ih =>
    rw [State.readRows]
    split
    next s1 _ e =>
      have hs1 : MemoryOk s1 := .of_fst e (hrd _ _ hs)
      split
      next s2 _ e1 => exact .of_fst e1 (ih hs1)
      · exact ih hs1
    next s1 _ _ e => exact .of_fst e (hrd _ _ hs)

theorem MemoryOk.readBits {rd ps} (hs : MemoryOk s) (hrd : ReaderOk rd) : MemoryOk (s.readBits rd ps).1 := by
  unfold State.readBits
  split
  next s1 _ e => exact .of_fst e (.readRows hs hrd)
  next s1 _ e => exact .of_fst e (.readRows hs hrd)

theorem MemoryOk.writeRowBits {l data bytes ones} (hs : MemoryOk s) : MemoryOk (s.writeRowBits l data bytes ones).1 := by
  unfold State.writeRowBits
  split
  next s1 _ e =>
    have hs1 : MemoryOk s1 := .of_fst e (.resolve hs)
    split
    · exact .writeRowAt (.ite hs1 (.correct hs1))
    · exact hs1
    · exact hs1
    · exact .wantSeg hs1
    · exact hs1
    · exact hs1

/-! ## Machine/Combine -/

theorem MemoryOk.setRound {k r} (hs : MemoryOk s) : MemoryOk (s.setRound k r) := .ite (.keep hs) (.keep hs)

theorem MemoryOk.contribute {k} (hs : MemoryOk s) : MemoryOk (s.contribute k) := .keep hs

theorem MemoryOk.unitPoison {k} (hs : MemoryOk s) : MemoryOk (s.unitPoison k) := by
  unfold State.unitPoison
  split
  · exact hs
  · exact .keep (.logPoison (.keep hs))

theorem MemoryOk.applyAt {s0 : State} {k p} (hs0 : MemoryOk s0) : MemoryOk (s0.applyAt k p).1 := by
  unfold State.applyAt
  extract_lets s bad el old
  have hs : MemoryOk s := .correct hs0
  split
  · split
    · exact .writeRowAt (.ite (.unitPoison hs) hs)
  · split
    · exact .unitPoison hs
    · split
      · exact .writeRowAt hs

theorem AppliedOk.applyContrib {k} (hs : MemoryOk s) : AppliedOk (s.applyContrib k) := by
  unfold State.applyContrib
  split
  · exact .ok hs
  · extract_lets t
    have ht : MemoryOk t := .keep hs
    split
    next u _ e => exact .ok (.applyAt (.keep (.of_fst e (.resolve ht))))
    · exact .error (.wantSeg hs)
    next u e => exact .ok (.keep (.of_fst e (.resolve ht)))
    next u _ _ _ _ e => exact .ok (.keep (.of_fst e (.resolve ht)))

theorem MemoryOk.updCore {ctx n f} (hs : MemoryOk s) : MemoryOk (s.updCore ctx n f) := .setCoreAt hs

theorem MemoryOk.answer {k g bits} (hs : MemoryOk s) : MemoryOk (s.answer k g bits) := by
  unfold State.answer
  extract_lets rest u
  split
  · exact .keep (.updCore hs)
  · exact .keep hs
  · exact .keep hs

theorem MemoryOk.preciseKey {k value} (hs : MemoryOk s) : MemoryOk (s.preciseKey k value) :=
  .ite (.deliver (.keep hs)) (.takeTrap hs)

theorem MemoryOk.orderedKey {k} (hs : MemoryOk s) : MemoryOk (s.orderedKey k) := by
  unfold State.orderedKey
  extract_lets s1 value u s2
  have hs1 : MemoryOk s1 := .keep hs
  have hs2 : MemoryOk s2 := by
    unfold s2
    split
    · exact .ite (.preciseKey hs1) (.ite (.ite hs1 (.defer (.upd hs1))) (.keep hs1))
    · split
      · exact .engineFault hs1
      · exact hs1
    · exact .keep hs1
  exact .keep hs2

theorem MemoryOk.applyRun {a} {a1 : State} {a2 a3} (ha1 : MemoryOk a1) : MemoryOk (State.applyRun a a1 a2 a3) := by
  induction a generalizing a1 a2 a3 with
  | zero =>
    rw [State.applyRun]
    exact ha1
  | succ k ih =>
    rw [State.applyRun]
    split
    next s1 e =>
      have hs1 : MemoryOk s1 := e.subst (motive := AppliedOk) (.applyContrib ha1)
      exact hs1
    next s1 _ _ e =>
      have hs1 : MemoryOk s1 := e.subst (motive := AppliedOk) (.applyContrib ha1)
      extract_lets r1 s2
      have hs2 : MemoryOk s2 := .answer (.setRound hs1)
      split
      · exact ih hs2
      · exact hs2

theorem MemoryOk.duplicate {r k} (hs : MemoryOk s) : MemoryOk (s.duplicate r k) := by
  unfold State.duplicate
  split
  · exact .ite (.answer hs) (.orderedKey hs)
  · split
    · exact .ite hs (.orderedKey hs)
    · exact hs

theorem MemoryOk.arriveAt {k} (hs : MemoryOk s) : MemoryOk (s.arriveAt k) := by
  unfold State.arriveAt
  extract_lets r s1 set
  have hs1 : MemoryOk s1 := .setRound hs
  split
  · exact .orderedKey (.setRound hs)
  · split
    · exact .duplicate hs
    · exact .ite (.applyRun (.setRound hs)) (.ite (.keep hs1) (.keep hs1))

theorem ResultOk.execContributionArrive {k} (hs : MemoryOk s) : ResultOk (execContributionArrive k s) := by
  unfold Machine.execContributionArrive
  split
  · exact .next hs
  · exact .ite (.next hs) (.next (.arriveAt hs))

theorem ResultOk.execContributionRetry {k} (hs : MemoryOk s) : ResultOk (execContributionRetry k s) := by
  unfold Machine.execContributionRetry
  split
  · exact .next hs
  · split
    · exact .next hs
    · exact .ite (.next hs) (.next (.arriveAt hs))

/-! ## Machine/Atomics -/

theorem MemoryOk.atomicAt {p aop el n a b} (hs : MemoryOk s) : MemoryOk (s.atomicAt p aop el n a b).1 :=
  .ite (.writeRowAt (.correct hs)) (.correct hs)

theorem ResultOk.atomicDone {d v abs pois} (hs : MemoryOk s) : ResultOk (s.atomicDone d v abs pois) :=
  .next (.setResid (.upd hs))

theorem ResultOk.awaitClaim {k} (hs : MemoryOk s) : ResultOk (s.awaitClaim k) := .ite (.trap (.keep hs)) (.wait hs)

theorem ResultOk.claim {c} (hs : MemoryOk s) : ResultOk (s.claim c) := by
  unfold State.claim
  split
  · exact .awaitClaim hs
  · exact .wait (.contribute hs)

theorem ResultOk.atomic {i aop o} (hs : MemoryOk s) : ResultOk (s.atomic i aop o) := by
  unfold State.atomic
  extract_lets n off op s1
  have hs1 : MemoryOk s1 := .noteLive hs
  split
  · exact .next hs
  · split
    · exact .trap hs
    · split
      · exact .trap hs
      · split
        · exact .wait hs
        · extract_lets loc t va lost
          split
          · exact .wait hs
          · split
            · exact .trap hs
            · clear_value t
              split
              · exact .wait (.wantSeg hs)
              · split
                · split
                  · exact .wait hs
                  · exact .awaitClaim hs
                  · exact .wait (.sendRemote (.noteLive hs))
                · exact .wait (.sendRemote (.noteLive hs))
              · split
                · exact .claim hs1
                · split
                  · split
                    · exact .atomicDone (.logPoison hs1)
                    · split
                      next s11 _ e => exact .atomicDone (.of_fst e (.atomicAt hs1))
                  · exact .atomicDone hs1
                  · exact .atomicDone hs1

/-! ## Machine/Remote -/

theorem RowWaitOk.settleRow {va} {t : State × RowRead} (ht : MemoryOk t.1) : RowWaitOk (s.settleRow va t) := by
  unfold State.settleRow
  split
  · exact .wait (.wait ht)
  · split
    · split
      · exact .row (.upd ht)
      · exact .wait (.wait (.upd ht))
    · split
      · exact .wait (.wait ht)
      · exact .wait (.wait (.sendRemote ht))
  · exact .row ht

theorem MemoryOk.residOf {x} (hs : MemoryOk s) : MemoryOk (s.residOf x) := by
  unfold State.residOf
  split
  · exact .setResid hs
  · exact .setResid hs
  · exact .setResid hs
  · exact hs

/-! ## Machine/Table -/

theorem ResultOk.execTcrd {d n} (hs : MemoryOk s) : ResultOk (execTcrd d n s) := by
  unfold Machine.execTcrd
  extract_lets t
  split
  · exact .writeReg hs
  · exact .writeReg hs
  · exact .writeReg hs
  · exact .illegal hs

theorem OptionOk.register {x} (hs : MemoryOk s) : OptionOk (s.register x) :=
  .ite (.some hs) (.ite .none (.ite (.some hs) (.ite .none (.some (.keep hs)))))

theorem ResultOk.putTensor {n x bytes} (hs : MemoryOk s) : ResultOk (s.putTensor n x bytes) := by
  unfold State.putTensor
  split
  · exact .trap hs
  · split
    · exact .trap hs
    next t e =>
      have ht : MemoryOk t := e.subst (motive := OptionOk) (.register hs)
      exact .next (.upd ht)

theorem RowWaitOk.tableRow {h a} (hs : MemoryOk s) : RowWaitOk (s.tableRow h a) := by
  unfold State.tableRow
  extract_lets off
  split
  · exact .wait (.trap hs)
  · extract_lets loc
    split
    · exact .wait (.wait hs)
    · split
      · exact .wait (.wait hs)
      · exact .settleRow (.readTarget hs)

theorem ResultOk.execTdld {a x h} (hs : MemoryOk s) : ResultOk (execTdld a x h s) := by
  unfold Machine.execTdld
  split
  next r e =>
    have hr : ResultOk r := e.subst (motive := RowWaitOk) (.tableRow hs)
    exact hr
  next s1 _ e =>
    have hs1 : MemoryOk s1 := e.subst (motive := RowWaitOk) (.tableRow hs)
    exact .putTensor (.residOf hs1)

theorem ResultOk.execWkld {a w h} (hs : MemoryOk s) : ResultOk (execWkld a w h s) := by
  unfold Machine.execWkld
  split
  next r e =>
    have hr : ResultOk r := e.subst (motive := RowWaitOk) (.tableRow hs)
    exact hr
  next s1 _ e =>
    have hs1 : MemoryOk s1 := e.subst (motive := RowWaitOk) (.tableRow hs)
    exact .ite (.trap (.residOf hs1)) (.next (.upd (.residOf hs1)))

theorem ResultOk.guard {d a x wide} (hs : MemoryOk s) : ResultOk (s.guard d a x wide) := by
  unfold State.guard
  extract_lets q cap t v own
  split
  · exact .trap hs
  · split
    · exact .trap hs
    · split
      · exact .trap hs
      · exact .trap hs
      · exact .wait hs
      · split
        · exact .wait hs
        · split
          · exact .wait hs
          · extract_lets l va
            split
            next r e =>
              have hr : ResultOk r := e.subst (motive := RowWaitOk) (.settleRow (.readLoc hs))
              exact hr
            · exact .trap hs
            next s1 _ _ e =>
              have hs1 : MemoryOk s1 := e.subst (motive := RowWaitOk) (.settleRow (.readLoc hs))
              split
              next s2 e1 => exact .wait (.of_fst e1 (.readRows hs1 (fun _ _ ht1 => .readLoc ht1)))
              next s2 _ _ e1 =>
                have hs2 : MemoryOk s2 := .of_fst e1 (.readRows hs1 (fun _ _ ht1 => .readLoc ht1))
                exact .writeReg (.noteGuard (.residOf (.residOf hs2)))

theorem MemoryOk.startConversion {n cap old v tag h f} (hs : MemoryOk s) :
    MemoryOk (s.startConversion n cap old v tag h f) := by
  unfold State.startConversion
  extract_lets t x own ctx k serial conv ndes img
  split
  · exact .ite (.keep (.upd (.setContext hs))) (.upd (.setContext hs))

theorem ResultOk.execRlay {g f x h} (hs : MemoryOk s) : ResultOk (execRlay g f x h s) := by
  unfold Machine.execRlay
  extract_lets hb cap t v new ext
  split
  · exact .trap hs
  · split
    · exact .trap hs
    · split
      · exact .trap hs
      · split
        · exact .trap hs
        · split
          · exact .wait hs
          · exact .ite (.wait hs) (.ite (.wait hs) (.done (.startConversion (.noteLive hs))))

/-! ## Machine/Front -/

theorem MemoryOk.asFront {ctx} (hs : MemoryOk s) : MemoryOk (s.asFront ctx) := .keep hs

theorem MemoryOk.feRow {ctx va} (hs : MemoryOk s) : MemoryOk (s.feRow ctx va).1 := by
  unfold State.feRow
  split
  next s1 _ e =>
    have hs1 : MemoryOk s1 := .of_fst e (.resolve hs)
    split
    · exact .keep (.logPoison (.asFront hs1))
    · exact hs1
  next s1 e => exact .of_fst e (.resolve hs)
  next s1 _ _ _ e => exact .of_fst e (.resolve hs)

theorem MemoryOk.feRows {ctx a a1} (hs : MemoryOk s) : MemoryOk (s.feRows ctx a a1).1 := by
  induction a1 generalizing s a with
  | zero =>
    rw [State.feRows]
    exact hs
  | succ k ih =>
    rw [State.feRows]
    split
    next s1 e => exact .of_fst e (.feRow hs)
    next s1 e => exact .of_fst e (.feRow hs)
    next s1 _ _ _ e =>
      have hs1 : MemoryOk s1 := .of_fst e (.feRow hs)
      split
      next s2 _ e1 => exact .of_fst e1 (ih hs1)
      · exact ih hs1

theorem MemoryOk.feRead {ctx va n} (hs : MemoryOk s) : MemoryOk (s.feRead ctx va n).1 := by
  unfold State.feRead
  split
  next s2 _ e => exact .of_fst e (.feRows hs)
  · exact .feRows hs

theorem MemoryOk.feWriteRows {ctx a a1 a2 a3} (hs : MemoryOk s) : MemoryOk (s.feWriteRows ctx a a1 a2 a3) := by
  induction a generalizing s a1 a2 a3 with
  | zero =>
    rw [State.feWriteRows]
    exact hs
  | succ k ih =>
    rw [State.feWriteRows]
    split
    · split
      next s1 _ e => exact .writeRowAt (.of_fst e (.resolve hs))
      next s1 _ e => exact .keep (.sendRemote (.keep (.of_fst e (.resolve hs))))
      next s1 _ _ _ e => exact .of_fst e (.resolve hs)
    · refine ih ?_
      split
      next s1 _ e => exact .writeRowAt (.of_fst e (.resolve hs))
      next s1 _ e => exact .keep (.sendRemote (.keep (.of_fst e (.resolve hs))))
      next s1 _ _ _ e => exact .of_fst e (.resolve hs)

theorem MemoryOk.feWrite {ctx va n v} (hs : MemoryOk s) : MemoryOk (s.feWrite ctx va n v) := .ite hs (.feWriteRows hs)

theorem MemoryOk.readPreloads {ctx base graph a a1} (hs : MemoryOk s) : MemoryOk (s.readPreloads ctx base graph a a1).1 := by
  induction a1 generalizing s a with
  | zero =>
    rw [State.readPreloads]
    exact hs
  | succ k ih =>
    rw [State.readPreloads]
    split
    next s2 _ e => exact .of_fst e (.feRead hs)
    next s2 _ e =>
      have hs2 : MemoryOk s2 := .of_fst e (.feRead hs)
      extract_lets p
      split
      · exact hs2
      · split
        next s21 _ e1 => exact .of_fst e1 (.feRead hs2)
        next s21 _ e1 =>
          have hs21 : MemoryOk s21 := .of_fst e1 (.feRead hs2)
          split
          · exact hs21
          · split
            next s3 _ e2 => exact .of_fst e2 (ih hs21)
            · exact ih hs21

theorem MemoryOk.registerAll {a} (hs : MemoryOk s) : MemoryOk (s.registerAll a).1 := by
  induction a generalizing s with
  | nil =>
    rw [State.registerAll]
    exact hs
  | cons x xs ih =>
    rw [State.registerAll]
    split
    · exact ih hs
    · split
      · exact hs
      next t e =>
        have ht : MemoryOk t := e.subst (motive := OptionOk) (.register hs)
        exact ih ht

theorem MemoryOk.readFootprints {ctx base a a1} (hs : MemoryOk s) : MemoryOk (s.readFootprints ctx base a a1).1 := by
  induction a1 generalizing s a with
  | zero =>
    rw [State.readFootprints]
    exact hs
  | succ k ih =>
    rw [State.readFootprints]
    split
    next s2 _ e => exact .of_fst e (.feRead hs)
    next s2 _ e =>
      have hs2 : MemoryOk s2 := .of_fst e (.feRead hs)
      split
      next s21 _ e1 => exact .of_fst e1 (ih hs2)
      · exact ih hs2

theorem MemoryOk.validate {x} (hs : MemoryOk s) : MemoryOk (s.validate x).1 := by
  unfold State.validate
  extract_lets r y
  split
  · exact hs
  · split
    next s1 e => exact .of_fst e (.readPreloads hs)
    next s1 _ e =>
      have hs1 : MemoryOk s1 := .of_fst e (.readPreloads hs)
      split
      next s2 e1 => exact .of_fst e1 (.readFootprints hs1)
      next s2 _ e1 =>
        have hs2 : MemoryOk s2 := .of_fst e1 (.readFootprints hs1)
        extract_lets z
        split
        · exact hs2
        · split
          next s3 _ e2 => exact .keep (.of_fst e2 (.registerAll (.keep hs2)))

/-! ## Machine/Issue -/

theorem MemoryOk.setAct {a} (hs : MemoryOk s) : MemoryOk (s.setAct a) := .setQ hs

theorem MemoryOk.passTo {t n last} (hs : MemoryOk s) : MemoryOk (s.passTo t n last) :=
  .setQ (.advance (.advance (.setQ (.advance hs))))

theorem ResultOk.endWord {s1 : State} {last sc land} (hs1 : MemoryOk s1) : ResultOk (s1.endWord last sc land) := by
  unfold State.endWord
  extract_lets q u a u1
  split <;> exact .next (.setQ hs1)

theorem ResultOk.wordDone {t last sc land} (hs : MemoryOk s) : ResultOk (s.wordDone t last sc land) := .endWord (.passTo hs)

theorem ResultOk.streamDone {last sc} (hs : MemoryOk s) : ResultOk (s.streamDone last sc) := .next (.setQ (.passTo hs))

theorem ResultOk.wordWait {flag} (hs : MemoryOk s) : ResultOk (s.wordWait flag) := .next (.setAct hs)

theorem ResultOk.wordFault {code p} (hs : MemoryOk s) : ResultOk (s.wordFault code p) := .next (.engineFault hs)

theorem ResultOk.illegalWord {left} (hs : MemoryOk s) : ResultOk (s.illegalWord left) := .wordFault hs

theorem MemoryOk.landEarlier (hs : MemoryOk s) : MemoryOk s.landEarlier := .advance hs

theorem MemoryOk.readyEngine {n e} (hs : MemoryOk s) : MemoryOk (s.readyEngine n e).2 := by
  unfold State.readyEngine
  split
  · exact hs
  · extract_lets s1
    have hs1 : MemoryOk s1 := .keep hs
    split
    · split
      · exact hs1
      · extract_lets b s2
        have hs2 : MemoryOk s2 := .setAct hs1
        split <;> exact hs2
    · exact hs1

/-! ## Machine/Acc -/

theorem MemoryOk.pushSnap {j x} (hs : MemoryOk s) : MemoryOk (s.pushSnap j x) := .setCoreAt hs

theorem AccReadOk.accRead {j row t stamp schk} (hs : MemoryOk s) : AccReadOk (s.accRead j row t stamp schk) := by
  unfold State.accRead
  extract_lets fl h
  clear_value fl
  split
  · exact .value hs
  · split
    · exact .wait
    · split
      · exact .hazard
      · exact .value (.keep hs)

/-! ## Machine/Foot -/

theorem MemoryOk.footFault {e x code r p} (hs : MemoryOk s) : MemoryOk (s.footFault e x code r p) :=
  .engineFault (.logRecord hs)

/-! ## Machine/Far -/

theorem MemoryOk.farRow {r tag pkg loc va} (hs : MemoryOk s) : MemoryOk (s.farRow r tag pkg loc va).1 := by
  unfold State.farRow
  split
  · exact .logPoison hs
  · exact hs
  · split
    · exact hs
    · exact .sendRemote hs

theorem MemoryOk.engRow {r tag} {a : State} {a1} (ha : MemoryOk a) : MemoryOk (engRow r tag a a1).1 := by
  unfold Machine.engRow
  split
  next s1 _ _ e => exact .farRow (.of_fst e (.readLoc ha))
  · exact .readLoc ha

theorem MemoryOk.readElem {rd e fps det cap q held} (hs : MemoryOk s) (hrd : ReaderOk rd) :
    MemoryOk (s.readElem rd e fps det cap q held).1 := by
  unfold State.readElem
  split
  · exact hs
  · exact hs
  · exact hs
  · split
    · exact hs
    · split
      · exact hs
      · split
        next s1 _ e1 => exact .of_fst e1 (.readBits hs hrd)
        next s1 e1 => exact .of_fst e1 (.readBits hs hrd)
        next s1 e1 => exact .of_fst e1 (.readBits hs hrd)
        next s1 _ _ _ e1 => exact .of_fst e1 (.readBits hs hrd)

theorem MemoryOk.readIndex {rd e fps det cap k} (hs : MemoryOk s) (hrd : ReaderOk rd) :
    MemoryOk (s.readIndex rd e fps det cap k).1 := by
  unfold State.readIndex
  split
  · exact .readElem hs hrd
  · exact hs

/-! ## Machine/Lanes -/

theorem ResultOk.repFault {rc code record} (hs : MemoryOk s) : ResultOk (s.repFault rc code record) := .wordFault hs

theorem ResultOk.repFoot {rc record} (hs : MemoryOk s) : ResultOk (s.repFoot rc record) := .next (.footFault hs)

theorem ResultOk.endRep {t land rc sc len} (hs : MemoryOk s) : ResultOk (s.endRep t land rc sc len) :=
  .ite (.next (.setQ (.passTo hs))) (.endWord (.passTo hs))

theorem ResultOk.regRep {rc sc x f} (hs : MemoryOk s) : ResultOk (s.regRep rc sc x f) := by
  unfold State.regRep
  split
  · exact .wordWait hs
  · exact .repFault hs
  · exact .endRep (.setAct (.upd hs))

theorem ResultOk.laneOp {o n lat f} (hs : MemoryOk s) : ResultOk (s.laneOp o n lat f) := by
  unfold State.laneOp
  exact .regRep hs

theorem ResultOk.laneTest {o n p} (hs : MemoryOk s) : ResultOk (s.laneTest o n p) := by
  unfold State.laneTest
  exact .regRep hs

/-! ## Machine/VecMem -/

theorem MemoryOk.readTables {o} (hs : MemoryOk s) : MemoryOk (s.readTables o) := .ite (.setAct hs) hs

theorem ResultOk.laneWait {cap wr a} (hs : MemoryOk s) : ResultOk (s.laneWait cap wr a) := by
  unfold State.laneWait
  split
  · exact .wordWait hs
  · exact .wordWait (.setAct (.ite (.demand hs) hs))

theorem ResultOk.laneFault {rc code record} (hs : MemoryOk s) : ResultOk (s.laneFault rc code record) :=
  .ite (.repFoot hs) (.repFault hs)

theorem MemoryOk.readAll {rd a} (hs : MemoryOk s) (hrd : ReaderOk rd) : MemoryOk (s.readAll rd a).1 := by
  induction a generalizing s with
  | nil =>
    rw [State.readAll]
    exact hs
  | cons x xs ih =>
    rw [State.readAll]
    split
    next s1 _ e =>
      have hs1 : MemoryOk s1 := .of_fst e (hrd _ _ hs)
      split
      next s2 _ e1 => exact .of_fst e1 (ih hs1)

theorem MemoryOk.keepPart {p} (hs : MemoryOk s) : MemoryOk (s.keepPart p) := .setAct hs

theorem PartTurnOk.partRead {rd p} (hs : MemoryOk s) (hrd : ReaderOk rd) : PartTurnOk (s.partRead rd p) := by
  unfold State.partRead
  split
  · exact .all hs
  · split
    next s1 e => exact .more (.wordWait (.keepPart (.of_fst e (hrd _ _ hs))))
    next s1 _ _ e =>
      have hs1 : MemoryOk s1 := .of_fst e (hrd _ _ hs)
      extract_lets q
      split
      · exact .all hs1
      · exact .more (.next (.keepPart hs1))

theorem MemoryOk.pushLoad {o reg n ls conv} (hs : MemoryOk s) : MemoryOk (s.pushLoad o reg n ls conv) := by
  unfold State.pushLoad
  extract_lets w made id
  have hmade : MemoryOk made := by
    unfold made
    split
    · exact hs
    · split
      · exact hs
      · exact .upd hs
  exact .upd hmade

theorem MemoryOk.gatherResid {o land slots} (hs : MemoryOk s) : MemoryOk (s.gatherResid o land slots) := by
  unfold State.gatherResid
  extract_lets x u s1
  have hs1 : MemoryOk s1 := .setAct hs
  split
  · exact hs1
  · split <;> exact .upd hs1

theorem ResultOk.ownLoaded {o n t ls got} (hs : MemoryOk s) : ResultOk (s.ownLoaded o n t ls got) :=
  .endRep (.gatherResid (.upd hs))

theorem ResultOk.ownLoad {o n p} (hs : MemoryOk s) : ResultOk (s.ownLoad o n p) := by
  unfold State.ownLoad
  split
  next r e =>
    have hr : ResultOk r := e.subst (motive := PartTurnOk) (.partRead hs (fun _ _ ht => .engRow ht))
    exact hr
  next s1 _ e =>
    have hs1 : MemoryOk s1 := e.subst (motive := PartTurnOk) (.partRead hs (fun _ _ ht => .engRow ht))
    exact .ownLoaded hs1

theorem ResultOk.loadLanes {o n t ls conv} (hs : MemoryOk s) : ResultOk (s.loadLanes o n t ls conv) := by
  unfold State.loadLanes
  extract_lets rows s1 s11
  have hs1 : MemoryOk s1 := .noteGroup hs
  have hs11 : MemoryOk s11 := .pushLoad (.upd hs1)
  exact .ite (.wordWait hs) (.ite (.ownLoad hs1) (.endRep (.gatherResid hs11)))

theorem ResultOk.loadRep {o n reads lanes} (hs : MemoryOk s) : ResultOk (s.loadRep o n reads lanes) := by
  unfold State.loadRep
  extract_lets last x
  split
  · exact .wordWait hs
  · exact .repFault hs
  · split
    · exact .laneWait hs
    · exact .laneFault hs
    · exact .loadLanes hs

theorem GroupIndexOk.groupIndex {o w} (hs : MemoryOk s) : GroupIndexOk (s.groupIndex o w) := by
  unfold State.groupIndex
  split
  · exact .at_ hs
  · split
    next s1 _ e => exact .at_ (.of_fst e (.readIndex hs (fun _ _ ht => .engRow ht)))
    next s1 _ e => exact .lost (.of_fst e (.readIndex hs (fun _ _ ht => .engRow ht)))
    next s1 e => exact .stop (.wordWait (.of_fst e (.readIndex hs (fun _ _ ht => .engRow ht))))
    next s1 _ e => exact .stop (.repFault (.of_fst e (.readIndex hs (fun _ _ ht => .engRow ht))))
    next s1 _ e => exact .stop (.repFoot (.of_fst e (.readIndex hs (fun _ _ ht => .engRow ht))))

theorem ResultOk.execVld {o} (hs : MemoryOk s) : ResultOk (execVld o s) := by
  unfold Machine.execVld
  extract_lets s1 w e
  have hs1 : MemoryOk s1 := .readTables hs
  split
  · exact .ownLoad hs1
  · split
    · exact .repFault hs1
    · split
      · exact .repFault hs1
      · split
        · exact .repFault hs1
        · split
          next r e1 =>
            have hr : ResultOk r := e1.subst (motive := GroupIndexOk) (.groupIndex hs1)
            exact hr
          next s11 e1 =>
            have hs11 : MemoryOk s11 := e1.subst (motive := GroupIndexOk) (.groupIndex hs1)
            exact .loadRep hs11
          next s11 _ e1 =>
            have hs11 : MemoryOk s11 := e1.subst (motive := GroupIndexOk) (.groupIndex hs1)
            exact .loadRep hs11

theorem ResultOk.execVgath {o} (hs : MemoryOk s) : ResultOk (execVgath o s) := by
  unfold Machine.execVgath
  extract_lets s1 w r
  have hs1 : MemoryOk s1 := .readTables hs
  split
  · exact .ownLoad hs1
  · exact .ite (.repFault hs1) (.ite (.repFault hs1) (.loadRep hs1))

theorem MemoryOk.landLoad {k x} (hs : MemoryOk s) : MemoryOk (s.landLoad k x) := .upd hs

theorem MemoryOk.loadRow {k x row} (hs : MemoryOk s) : MemoryOk (s.loadRow k x row) := by
  unfold State.loadRow
  split
  · exact .landLoad hs
  · split
    · exact hs
    · split
      next s1 e => exact .of_fst e (.engRow hs)
      next s1 _ _ e =>
        have hs1 : MemoryOk s1 := .of_fst e (.engRow hs)
        exact .ite (.landLoad hs1) (.upd hs1)

theorem ResultOk.execVectorLoadReturn {n k} (hs : MemoryOk s) : ResultOk (execVectorLoadReturn n k s) := by
  unfold Machine.execVectorLoadReturn
  split
  · exact .next hs
  next t e =>
    have ht : MemoryOk t := e.subst (motive := OptionOk) (.actor hs)
    split
    · split
      · exact .next (.loadRow ht)
      · exact .next ht
    · exact .next ht

theorem ResultOk.stored {o t fault} (hs : MemoryOk s) : ResultOk (s.stored o t fault) := by
  unfold State.stored
  split
  · exact .laneFault hs
  · exact .endRep (.upd hs)

theorem PartTurnOk.partWrite {p} (hs : MemoryOk s) : PartTurnOk (s.partWrite p) := by
  unfold State.partWrite
  split
  · exact .all hs
  · split
    · exact .more (.wordWait (.keepPart (.wantSeg hs)))
    · extract_lets s1 q
      have hs1 : MemoryOk s1 := .writeLoc hs
      split
      · exact .all hs1
      · exact .more (.next (.keepPart hs1))

theorem ResultOk.storeNext {o p} (hs : MemoryOk s) : ResultOk (s.storeNext o p) := by
  unfold State.storeNext
  split
  next r e =>
    have hr : ResultOk r := e.subst (motive := PartTurnOk) (.partWrite hs)
    exact hr
  next s1 _ e =>
    have hs1 : MemoryOk s1 := e.subst (motive := PartTurnOk) (.partWrite hs)
    exact .stored hs1

theorem ResultOk.storeRep {o n reads on lanes} (hs : MemoryOk s) : ResultOk (s.storeRep o n reads on lanes) := by
  unfold State.storeRep
  extract_lets d
  split
  · exact .wordWait hs
  · exact .repFault hs
  · extract_lets m src act put
    split
    · exact .laneWait hs
    · exact .storeNext (.noteGroup hs)
    · exact .storeNext (.noteGroup hs)

theorem ResultOk.execVst {o} (hs : MemoryOk s) : ResultOk (execVst o s) := by
  unfold Machine.execVst
  extract_lets s1 w e r
  have hs1 : MemoryOk s1 := .readTables hs
  split
  · exact .storeNext hs1
  · split
    · exact .repFault hs1
    · split
      · exact .repFault hs1
      · split
        · exact .repFault hs1
        · split
          next r1 e1 =>
            have hr1 : ResultOk r1 := e1.subst (motive := GroupIndexOk) (.groupIndex hs1)
            exact hr1
          next s11 e1 =>
            have hs11 : MemoryOk s11 := e1.subst (motive := GroupIndexOk) (.groupIndex hs1)
            exact .storeRep hs11
          next s11 _ e1 =>
            have hs11 : MemoryOk s11 := e1.subst (motive := GroupIndexOk) (.groupIndex hs1)
            exact .storeRep hs11

theorem ResultOk.execVscat {o} (hs : MemoryOk s) : ResultOk (execVscat o s) := by
  unfold Machine.execVscat
  extract_lets s1 w r
  have hs1 : MemoryOk s1 := .readTables hs
  split
  · exact .storeNext hs1
  · exact .ite (.repFault hs1) (.ite (.repFault hs1) (.storeRep hs1))

theorem ResultOk.execVpop {o} (hs : MemoryOk s) : ResultOk (execVpop o s) := by
  unfold Machine.execVpop
  extract_lets k d x
  split
  · exact .wordWait hs
  · exact .repFault hs
  · split
    · exact .repFault hs
    · split
      · exact .wordWait hs
      · exact .endRep (.upd hs)

theorem ResultOk.execVpush {o} (hs : MemoryOk s) : ResultOk (execVpush o s) := by
  unfold Machine.execVpush
  extract_lets k a x
  split
  · exact .wordWait hs
  · exact .repFault hs
  · exact .ite (.repFault hs) (.ite (.wordWait hs) (.endRep (.upd hs)))

theorem ResultOk.execVacc {o} (hs : MemoryOk s) : ResultOk (execVacc o s) := by
  unfold Machine.execVacc
  extract_lets r j w seg d
  split
  · exact .wordWait hs
  · exact .repFault hs
  · split
    · exact .repFault hs
    · split
      · exact .wordWait hs
      · exact .repFault hs
      next s1 _ e =>
        have hs1 : MemoryOk s1 := e.subst (motive := AccReadOk) (.accRead hs)
        exact .endRep (.upd hs1)

/-! ## Machine/Matrix -/

theorem MemoryOk.settleLeases (hs : MemoryOk s) : MemoryOk s.settleLeases := .foldl hs fun _ _ ht => .ite (.setQuad ht) ht

theorem ResultOk.execLeaseGrant {quad} (hs : MemoryOk s) : ResultOk (execLeaseGrant quad s) := by
  unfold Machine.execLeaseGrant
  extract_lets q
  split
  · exact .next hs
  · split
    · exact .next hs
    · split
      · exact .next hs
      · exact .next (.setQuad hs)

theorem ResultOk.execLstallPass {quad} (hs : MemoryOk s) : ResultOk (execLstallPass quad s) := by
  unfold Machine.execLstallPass
  extract_lets q
  split
  · exact .next hs
  · exact .ite (.next (.setQuad hs)) (.next hs)

theorem MemoryOk.countRun (hs : MemoryOk s) : MemoryOk s.countRun := .upd (.setQuad hs)

theorem ResultOk.matrixFault {code record} (hs : MemoryOk s) : ResultOk (s.matrixFault code record) :=
  .ite (.wordFault hs) (.next (.footFault hs))

theorem MemoryOk.applySteps {j ma nb t k a} (hs : MemoryOk s) : MemoryOk (s.applySteps j ma nb t k a) := by
  induction a generalizing s k with
  | nil =>
    rw [State.applySteps]
    exact hs
  | cons x xs ih =>
    rw [State.applySteps]
    exact ih (.pushSnap hs)

theorem ResultOk.mmaApply {j t terms rc sc} (hs : MemoryOk s) : ResultOk (s.mmaApply j t terms rc sc) := by
  unfold State.mmaApply
  extract_lets ta tb c n s1 qd u s2 s3
  have hs1 : MemoryOk s1 := .upd (.applySteps hs)
  have hs2 : MemoryOk s2 := .setQuad hs1
  have hs3 : MemoryOk s3 := .ite hs2 (.countRun hs2)
  exact .endRep hs3

theorem ResultOk.mmaNext {j kc p rc sc} (hs : MemoryOk s) : ResultOk (s.mmaNext j kc p rc sc) := by
  unfold State.mmaNext
  split
  next r e =>
    have hr : ResultOk r := e.subst (motive := PartTurnOk) (.partRead hs (fun _ _ ht => .engRow ht))
    exact hr
  next s1 _ e =>
    have hs1 : MemoryOk s1 := e.subst (motive := PartTurnOk) (.partRead hs (fun _ _ ht => .engRow ht))
    exact .mmaApply hs1

theorem ResultOk.execMma {bank tA tB k0 sc rc} (hs : MemoryOk s) : ResultOk (execMma bank tA tB k0 sc rc s) := by
  unfold Machine.execMma
  extract_lets kc caps ca cb ta tb n c u s1 conv u1
  have hs1 : MemoryOk s1 := .setAct hs
  split
  · exact .mmaNext hs
  · split
    · exact .wordWait hs
    · split
      · exact .matrixFault hs
      · split
        · exact .matrixFault hs
        · split
          · exact .matrixFault hs
          · split
            · exact .ite (.wordWait hs) (.matrixFault hs)
            · split
              · exact .ite (.wordWait hs) (.matrixFault hs)
              · split
                · exact .matrixFault hs
                · split
                  · exact .matrixFault hs1
                  · exact .wordWait (.setAct hs1)
                  · exact .mmaNext (.foldl hs1 fun _ _ hu2 => .noteGroup hu2)

theorem DrainedOk.drainBank {b t a} (hs : MemoryOk s) : DrainedOk (s.drainBank b t a) := by
  induction a generalizing s with
  | nil =>
    rw [State.drainBank]
    exact .ok hs
  | cons x xs ih =>
    rw [State.drainBank]
    split
    · exact .error
    · exact .error
    next s1 _ e =>
      have hs1 : MemoryOk s1 := e.subst (motive := AccReadOk) (.accRead hs)
      split
      next s2 _ e1 =>
        have hs2 : MemoryOk s2 := e1.subst (motive := DrainedOk) (ih hs1)
        exact .ok hs2
      · exact .error

theorem BiasOk.biasPart {ep cap cols} (hs : MemoryOk s) : BiasOk (s.biasPart ep cap cols) := by
  unfold State.biasPart
  extract_lets ps
  split
  · exact .ok
  · split
    · exact .stop (.laneWait hs)
    · exact .stop (.matrixFault hs)
    · exact .ok

theorem ResultOk.drained {t fault rc sc} (hs : MemoryOk s) : ResultOk (s.drained t fault rc sc) := by
  unfold State.drained
  split
  · exact .matrixFault hs
  · exact .endRep hs

theorem ResultOk.drainNext {p rc sc} (hs : MemoryOk s) : ResultOk (s.drainNext p rc sc) := by
  unfold State.drainNext
  split
  next r e =>
    have hr : ResultOk r := e.subst (motive := PartTurnOk) (.partWrite hs)
    exact hr
  next s1 _ e =>
    have hs1 : MemoryOk s1 := e.subst (motive := PartTurnOk) (.partWrite hs)
    exact .drained hs1

theorem ResultOk.drainFrom {b ep row0 p rc sc} (hs : MemoryOk s) : ResultOk (s.drainFrom b ep row0 p rc sc) := by
  unfold State.drainFrom
  extract_lets cap t cols at_ bias
  split
  · exact .matrixFault hs
  · exact .wordWait (.keepPart hs)
  next s1 _ e =>
    have hs1 : MemoryOk s1 := e.subst (motive := DrainedOk) (.drainBank hs)
    split
    · exact .laneWait (.keepPart hs)
    · exact .drainNext hs1

theorem ResultOk.biasNext {b ep row0 p rc sc} (hs : MemoryOk s) : ResultOk (s.biasNext b ep row0 p rc sc) := by
  unfold State.biasNext
  split
  next r e =>
    have hr : ResultOk r := e.subst (motive := PartTurnOk) (.partRead hs (fun _ _ ht => .engRow ht))
    exact hr
  next s1 _ e =>
    have hs1 : MemoryOk s1 := e.subst (motive := PartTurnOk) (.partRead hs (fun _ _ ht => .engRow ht))
    exact .drainFrom hs1

theorem ResultOk.execMdrn {bank tD ep row0 sc rc} (hs : MemoryOk s) : ResultOk (execMdrn bank tD ep row0 sc rc s) := by
  unfold Machine.execMdrn
  split
  · exact .ite (.biasNext hs) (.drainNext hs)
  · extract_lets caps cap biasCap cols u s1
    have hs1 : MemoryOk s1 := .setAct hs
    split
    · exact .matrixFault hs
    · split
      · exact .matrixFault hs
      · split
        · exact .matrixFault hs
        · split
          next r e =>
            have hr : ResultOk r := e.subst (motive := BiasOk) (.biasPart hs1)
            exact hr
          · exact .biasNext hs1

theorem ResultOk.execMldacc {bank tS row0 sc rc} (hs : MemoryOk s) : ResultOk (execMldacc bank tS row0 sc rc s) := by
  unfold Machine.execMldacc
  extract_lets cap t at_ u s1
  have hs1 : MemoryOk s1 := .setAct hs
  split
  · exact .matrixFault hs
  · split
    · exact .matrixFault hs
    · split
      · exact .laneWait hs1
      · exact .matrixFault hs1
      · exact .endRep (.upd hs1)

theorem MemoryOk.sourceRow {m rest} {a : State} {a1} (ha : MemoryOk a) : MemoryOk (State.sourceRow m rest a a1).1 := by
  unfold State.sourceRow
  extract_lets r
  split
  next s1 e => exact .ite ha (.of_fst e (.engRow ha))
  · exact .engRow ha

theorem MemoryOk.arriveRow {m rest} (hs : MemoryOk s) : MemoryOk (s.arriveRow m rest) := .pushSnap (.upd hs)

theorem MemoryOk.landRow (hs : MemoryOk s) : MemoryOk s.landRow := by
  unfold State.landRow
  split
  · exact hs
  · split
    · exact .arriveRow hs
    · split
      next s1 e => exact .of_fst e (.sourceRow hs)
      next s1 _ _ e =>
        have hs1 : MemoryOk s1 := .of_fst e (.sourceRow hs)
        exact .ite (.arriveRow hs1) (.upd hs1)

theorem ResultOk.execMldaccRowArrival {n} (hs : MemoryOk s) : ResultOk (execMldaccRowArrival n s) := by
  unfold Machine.execMldaccRowArrival
  split
  · exact .next hs
  next t e =>
    have ht : MemoryOk t := e.subst (motive := OptionOk) (.actor hs)
    exact .next (.landRow ht)

theorem ResultOk.execMlend {bank core sc} (hs : MemoryOk s) : ResultOk (execMlend bank core sc s) := by
  unfold Machine.execMlend
  extract_lets j k qd q s1 t
  have hs1 : MemoryOk s1 := .landEarlier hs
  exact .ite (.matrixFault hs) (.ite (.wordWait hs1) (.endRep (.setQuad hs1)))

theorem ResultOk.execMrecl {bank sc} (hs : MemoryOk s) : ResultOk (execMrecl bank sc s) := by
  unfold Machine.execMrecl
  extract_lets j qd q t
  split
  · exact .matrixFault hs
  · split
    · split
      · exact .endRep hs
      · exact .endRep (.upd (.setCoreAt hs))
    · exact .ite (.wordWait hs) (.endRep (.setQuad hs))

/-! ## Machine/CopyCmd -/

theorem MemoryOk.markDirty {x} (hs : MemoryOk s) : MemoryOk (s.markDirty x) := by
  unfold State.markDirty
  split
  · exact hs
  · exact .foldl hs fun _ _ ht => .resolve ht

theorem ClaimedOk.claimDest {x} (hs : MemoryOk s) : ClaimedOk (s.claimDest x) := by
  unfold State.claimDest
  split
  · exact .ok hs
  · extract_lets g0 g1 ts far claim s1 u
    have hs1 : MemoryOk s1 := .foldl hs fun _ _ ht => .sendRemote (.keep ht)
    split
    · exact .wait (.setAct hs1)
    · split
      · exact .wait hs
      · split
        · exact .ok hs
        · split
          · exact .overlap
          · split
            · exact .wait hs
            · exact .ok (.keep hs)

theorem MemoryOk.holdCommand {x} (hs : MemoryOk s) : MemoryOk (s.holdCommand x) := .setAct (.upd hs)

theorem MemoryOk.nameChannel {k} (hs : MemoryOk s) : MemoryOk (s.nameChannel k) := by
  unfold State.nameChannel
  split
  · exact .setAct hs
  · exact hs

theorem ResultOk.claimCommand {x sc} (hs : MemoryOk s) : ResultOk (s.claimCommand x sc) := by
  unfold State.claimCommand
  split
  next s1 e =>
    have hs1 : MemoryOk s1 := e.subst (motive := ClaimedOk) (.claimDest hs)
    exact .wordWait hs1
  · exact .next (.footFault hs)
  next s1 e =>
    have hs1 : MemoryOk s1 := e.subst (motive := ClaimedOk) (.claimDest hs)
    exact .wordDone (.upd (.nameChannel hs1))

theorem ResultOk.acceptCommand {x sc} (hs : MemoryOk s) : ResultOk (s.acceptCommand x sc) :=
  .claimCommand (.markDirty (.holdCommand hs))

theorem ResultOk.copyWord {sc ok} (hs : MemoryOk s) : ResultOk (s.copyWord sc ok) := by
  unfold State.copyWord
  split
  · exact .claimCommand hs
  · extract_lets w
    split
    · exact .wordWait hs
    · split
      · exact .illegalWord hs
      · exact .ite (.acceptCommand hs) (.wordFault hs)

theorem ResultOk.channelDone {k x sc} (hs : MemoryOk s) : ResultOk (s.channelDone k x sc) :=
  .wordDone (.upd (.nameChannel hs))

theorem ResultOk.execCbindRange {ch wd sc} (hs : MemoryOk s) : ResultOk (execCbindRange ch wd sc s) := by
  unfold Machine.execCbindRange
  split
  · exact .wordWait hs
  · extract_lets rec_ w cap
    split
    · exact .wordFault hs
    · split
      · exact .wordFault hs
      · split
        · exact .wordFault hs
        · exact .channelDone hs

/-! ## Machine/CopyMove -/

theorem MemoryOk.copyReader {x r} {a : State} {a1} (ha : MemoryOk a) : MemoryOk (copyReader x r a a1).1 := by
  unfold Machine.copyReader
  extract_lets cur
  split
  · exact ha
  · split
    · exact ha
    · split
      next s1 e => exact .of_fst e (.engRow ha)
      next s1 e => exact .of_fst e (.engRow ha)
      next s1 _ _ _ e => exact .upd (.ite ha (.of_fst e (.engRow ha)))

theorem MemoryOk.readParts {rd x ps} (hs : MemoryOk s) (hrd : ReaderOk rd) : MemoryOk (s.readParts rd x ps).1 := by
  unfold State.readParts
  split
  · exact hs
  · split
    next s1 _ e => exact .of_fst e (.readBits hs hrd)
    next s1 e => exact .of_fst e (.readBits hs hrd)
    next s1 e => exact .of_fst e (.readBits hs hrd)
    next s1 _ _ _ e => exact .of_fst e (.readBits hs hrd)

theorem MemoryOk.readStored {rd x q} (hs : MemoryOk s) (hrd : ReaderOk rd) : MemoryOk (s.readStored rd x q).1 := by
  unfold State.readStored
  extract_lets own i0
  split
  · split
    next s1 _ e =>
      have hs1 : MemoryOk s1 := .of_fst e (.readParts hs hrd)
      split
      · exact hs1
      · split
        · split
          next s2 _ e1 => exact .of_fst e1 (.readParts hs1 hrd)
        · exact hs1
        · exact hs1
    next s1 _ _ e => exact .of_fst e (.readParts hs hrd)
  · exact hs
  · exact hs
  · exact hs

theorem MemoryOk.readSource {rd x q} (hs : MemoryOk s) (hrd : ReaderOk rd) : MemoryOk (s.readSource rd x q).1 := by
  unfold State.readSource
  split
  · exact .readStored hs hrd
  · split
    next s1 _ e =>
      have hs1 : MemoryOk s1 := .of_fst e (.readElem hs hrd)
      split
      · split
        · exact hs1
        · split
          next s11 _ e1 => exact .of_fst e1 (.readParts hs1 hrd)
          next s11 _ _ e1 => exact .of_fst e1 (.readParts hs1 hrd)
      · exact hs1
    next s1 _ _ e => exact .of_fst e (.readElem hs hrd)

theorem MemoryOk.copySource {rd x r n} (hs : MemoryOk s) (hrd : ReaderOk rd) : MemoryOk (s.copySource rd x r n).1 := by
  unfold State.copySource
  split
  · split
    · exact hs
    · exact .upd hs
  · split
    · exact hs
    · split
      · exact .readSource hs hrd
      · split
        next s1 _ e =>
          have hs1 : MemoryOk s1 := .of_fst e (.readIndex hs hrd)
          split
          · exact hs1
          · exact .readSource hs1 hrd
        next s1 _ _ e => exact .of_fst e (.readIndex hs hrd)

theorem MemoryOk.stallAt {x g q} (hs : MemoryOk s) : MemoryOk (s.stallAt x g q) := .upd (.demand hs)

theorem MemoryOk.destStored {rd x q} (hs : MemoryOk s) (hrd : ReaderOk rd) : MemoryOk (s.destStored rd x q).1 := by
  unfold State.destStored
  extract_lets own i0
  split
  · split
    next s1 _ e =>
      have hs1 : MemoryOk s1 := .of_fst e (.readParts hs hrd)
      split
      · exact hs1
      · split <;> exact hs1
    next s1 _ e => exact .of_fst e (.readParts hs hrd)
    next s1 e => exact .of_fst e (.readParts hs hrd)
    next s1 _ e => exact .of_fst e (.readParts hs hrd)
    next s1 _ e => exact .of_fst e (.readParts hs hrd)
  · exact hs
  · exact hs
  · exact hs

theorem MemoryOk.destElem {rd x r n q} (hs : MemoryOk s) (hrd : ReaderOk rd) : MemoryOk (s.destElem rd x r n q).1 := by
  unfold State.destElem
  split
  next s1 e =>
    have hs1 : MemoryOk s1 := by
      refine .of_fst e ?_
      split
      · exact .destStored hs hrd
      · exact hs
    exact .ite (.stallAt hs1) hs1
  · split
    · exact .destStored hs hrd
    · exact hs

theorem MemoryOk.copyDest {rd x r n} (hs : MemoryOk s) (hrd : ReaderOk rd) : MemoryOk (s.copyDest rd x r n).1 := by
  unfold State.copyDest
  split
  · exact .destElem hs hrd
  · split
    next s1 _ e =>
      have hs1 : MemoryOk s1 := .of_fst e (.readIndex hs hrd)
      split
      · exact hs1
      · exact .destElem hs1 hrd
    next s1 _ e => exact .of_fst e (.readIndex hs hrd)
    next s1 e => exact .of_fst e (.readIndex hs hrd)
    next s1 _ e => exact .of_fst e (.readIndex hs hrd)
    next s1 _ e => exact .of_fst e (.readIndex hs hrd)

theorem RanOk.gather {rd k g0 x a a1 a2} (hs : MemoryOk s) (hrd : ReaderOk rd) : RanOk (s.gather rd k g0 x a a1 a2) := by
  induction a generalizing s a1 a2 with
  | zero =>
    rw [State.gather]
    exact .ok hs
  | succ k1 ih =>
    rw [State.gather]
    split
    · exact .ok hs
    · split
      next s1 e =>
        have hs1 : MemoryOk s1 := .of_fst e (.copyDest hs hrd)
        dsimp only
        split
        · exact .ok hs
        · exact .wait hs1
      next s1 _ e =>
        have hs1 : MemoryOk s1 := .of_fst e (.copyDest hs hrd)
        split
        · exact .ok hs
        · exact .fault hs1
      next s1 _ e =>
        have hs1 : MemoryOk s1 := .of_fst e (.copyDest hs hrd)
        split
        · exact .ok hs
        · exact .foot hs1
      next s1 _ e =>
        have hs1 : MemoryOk s1 := .of_fst e (.copyDest hs hrd)
        split
        · exact .ok hs
        · split
          next s2 _ _ _ e1 => exact .ok (.of_fst e1 (.copySource hs1 hrd))
          next s2 e1 => exact .wait (.of_fst e1 (.copySource hs1 hrd))
          next s2 _ e1 => exact .fault (.of_fst e1 (.copySource hs1 hrd))
          next s2 _ e1 => exact .foot (.of_fst e1 (.copySource hs1 hrd))
      next s1 _ _ e =>
        have hs1 : MemoryOk s1 := .of_fst e (.copyDest hs hrd)
        split
        · exact .ok hs
        · split
          next s2 _ _ _ e1 => exact ih (.of_fst e1 (.copySource hs1 hrd))
          next s2 e1 =>
            have hs2 : MemoryOk s2 := .of_fst e1 (.copySource hs1 hrd)
            dsimp only
            split
            · exact .ok hs
            · exact .wait hs2
          next s2 _ e1 =>
            have hs2 : MemoryOk s2 := .of_fst e1 (.copySource hs1 hrd)
            split
            · exact .ok hs
            · exact .fault hs2
          next s2 _ e1 =>
            have hs2 : MemoryOk s2 := .of_fst e1 (.copySource hs1 hrd)
            split
            · exact .ok hs
            · exact .foot hs2

theorem RanOk.gatherAll {rd x a a1} (hs : MemoryOk s) (hrd : ReaderOk rd) : RanOk (s.gatherAll rd x a a1) := by
  induction a generalizing s a1 with
  | nil =>
    rw [State.gatherAll]
    exact .ok hs
  | cons k xs ih =>
    rw [State.gatherAll]
    split
    next s1 e => exact .wait (.of_fst e (.copyDest hs hrd))
    next s1 _ e => exact .fault (.of_fst e (.copyDest hs hrd))
    next s1 _ e => exact .foot (.of_fst e (.copyDest hs hrd))
    next s1 _ e => exact ih (.of_fst e (.copyDest hs hrd))
    next s1 _ _ e =>
      have hs1 : MemoryOk s1 := .of_fst e (.copyDest hs hrd)
      split
      next s2 _ _ _ e1 => exact ih (.of_fst e1 (.copySource hs1 hrd))
      next s2 e1 => exact .wait (.of_fst e1 (.copySource hs1 hrd))
      next s2 _ e1 => exact .fault (.of_fst e1 (.copySource hs1 hrd))
      next s2 _ e1 => exact .foot (.of_fst e1 (.copySource hs1 hrd))

theorem RanOk.gatherBlock {rd x g} (hs : MemoryOk s) (hrd : ReaderOk rd) : RanOk (s.gatherBlock rd x g) := by
  unfold State.gatherBlock
  extract_lets y bits
  split
  next s1 _ e =>
    have hs1 : MemoryOk s1 := e.subst (motive := RanOk) (.gatherAll hs hrd)
    extract_lets rnds
    split
    · extract_lets els
      split
      · exact .fault hs1
      · exact .ok hs1
  · exact .gatherAll hs hrd

theorem PlaceEndOk.writePlace {r x l row} (hs : MemoryOk s) : PlaceEndOk (s.writePlace r x l row) := by
  obtain ⟨data, bytes, ones⟩ := row
  unfold State.writePlace
  dsimp only
  generalize wholeBytes (data, bytes, ones) = whole
  split
  next s1 e => exact .done (.upd (.of_fst e (.writeRowBits hs)))
  next s1 e => exact .done (.of_fst e (.writeRowBits hs))
  next s1 e => exact .done (.of_fst e (.writeRowBits hs))
  next s1 g e =>
    have hs1 : MemoryOk s1 := .of_fst e (.writeRowBits hs)
    split
    · exact .done (.sendRemote hs1)
    · split
      next s2 e2 => exact .wait (.of_fst e2 (.engRow hs))
      next s2 _ _ e2 => exact .done (.sendRemote (.of_fst e2 (.engRow hs)))
  next s1 e => exact .wait (.of_fst e (.writeRowBits hs))
  next s1 e => exact .done (.of_fst e (.writeRowBits hs))

theorem MemoryOk.finish {x gs st ids} (hs : MemoryOk s) : MemoryOk (s.finish x gs st ids) := .upd hs

theorem MemoryOk.copyFault {x code} (hs : MemoryOk s) : MemoryOk (s.copyFault x code) := .engineFault hs

theorem MemoryOk.copyFoot {x r} (hs : MemoryOk s) : MemoryOk (s.copyFoot x r) := .footFault hs

theorem MemoryOk.writePend {r x p i} (hs : MemoryOk s) : MemoryOk (s.writePend r x p i) := by
  unfold State.writePend
  extract_lets j
  split
  · exact .finish hs
  · split
    next t e =>
      have ht : MemoryOk t := e.subst (motive := PlaceEndOk) (.writePlace hs)
      exact ht
    next t _ _ e =>
      have ht : MemoryOk t := e.subst (motive := PlaceEndOk) (.writePlace hs)
      exact .ite (.finish ht) (.upd ht)

theorem MemoryOk.landRun {r x b} (hs : MemoryOk s) : MemoryOk (s.landRun r x b) := by
  unfold State.landRun
  extract_lets rep rows places p s1
  have hs1 : MemoryOk s1 := .noteGroup (.noteGroup hs)
  split
  · exact .copyFault hs
  · split
    · exact .copyFault hs
    · exact .copyFoot hs
    · exact .writePend (.upd hs1)

theorem MemoryOk.pushPos {rd x g} (hs : MemoryOk s) (hrd : ReaderOk rd) : MemoryOk (s.pushPos rd x g) := by
  unfold State.pushPos
  extract_lets ch
  split
  next s1 e => exact .of_fst e (.copySource hs hrd)
  next s1 _ e => exact .copyFault (.of_fst e (.copySource hs hrd))
  next s1 _ e => exact .copyFoot (.of_fst e (.copySource hs hrd))
  next s1 _ _ _ e =>
    have hs1 : MemoryOk s1 := .of_fst e (.copySource hs hrd)
    extract_lets old
    split
    · exact hs1
    · exact .finish (.upd hs1)

theorem MemoryOk.sourceAll {rd x a} (hs : MemoryOk s) (hrd : ReaderOk rd) : MemoryOk (s.sourceAll rd x a).1 := by
  induction a generalizing s with
  | nil =>
    rw [State.sourceAll]
    exact hs
  | cons k xs ih =>
    rw [State.sourceAll]
    split
    next s1 _ _ _ e =>
      have hs1 : MemoryOk s1 := .of_fst e (.copySource hs hrd)
      split
      next s2 _ _ _ _ e1 => exact .of_fst e1 (ih hs1)
      · exact ih hs1
    next s1 _ _ e => exact .of_fst e (.copySource hs hrd)

theorem MemoryOk.pushScale {rd k x g0} (hs : MemoryOk s) (hrd : ReaderOk rd) : MemoryOk (s.pushScale rd k x g0) := by
  unfold State.pushScale
  extract_lets w per gs b
  split
  · split
    · exact hs
    · split
      next s1 _ _ _ _ e => exact .finish (.upd (.of_fst e (.sourceAll hs hrd)))
      next s1 _ e => exact .of_fst e (.sourceAll hs hrd)
      next s1 _ _ e => exact .copyFault (.of_fst e (.sourceAll hs hrd))
      next s1 _ _ e => exact .copyFoot (.of_fst e (.sourceAll hs hrd))
  · split
    · exact hs
    · split
      next s1 _ _ _ _ e => exact .finish (.upd (.of_fst e (.sourceAll hs hrd)))
      next s1 _ e => exact .of_fst e (.sourceAll hs hrd)
      next s1 _ _ e => exact .copyFault (.of_fst e (.sourceAll hs hrd))
      next s1 _ _ e => exact .copyFoot (.of_fst e (.sourceAll hs hrd))

theorem MemoryOk.creditRow {rd k x g} (hs : MemoryOk s) (hrd : ReaderOk rd) : MemoryOk (s.creditRow rd k x g) := by
  unfold State.creditRow
  extract_lets rowOf gs key n op
  split
  · exact hs
  · split
    next t e =>
      have ht : MemoryOk t := e.subst (motive := RanOk) (.gatherAll hs hrd)
      exact ht
    next t _ e =>
      have ht : MemoryOk t := e.subst (motive := RanOk) (.gatherAll hs hrd)
      exact .copyFault ht
    next t _ e =>
      have ht : MemoryOk t := e.subst (motive := RanOk) (.gatherAll hs hrd)
      exact .copyFoot ht
    next t _ e =>
      have ht : MemoryOk t := e.subst (motive := RanOk) (.gatherAll hs hrd)
      split
      · exact .finish ht
      · split
        · exact .copyFoot ht
        · extract_lets launch els va
          split
          next u _ e1 => exact .finish (.sendRemote (.of_fst e1 (.resolve ht)))
          · exact .copyFault ht
          · exact .finish (.contribute ht)

theorem MemoryOk.noteThrough {x g} (hs : MemoryOk s) : MemoryOk (s.noteThrough x g) := .ite hs (.upd hs)

theorem MemoryOk.moveAt {k g x} (hs : MemoryOk s) : MemoryOk (s.moveAt k g x) := by
  unfold State.moveAt
  extract_lets r rd ran
  have hran : RanOk ran := by
    unfold ran
    split
    · exact .gatherBlock hs (fun _ _ ht => .copyReader ht)
    · exact .gather hs (fun _ _ ht => .copyReader ht)
  split
  · exact .writePend hs
  · split
    · exact hs
    · split
      · exact .pushScale hs (fun _ _ ht => .copyReader ht)
      · split
        · exact .pushPos hs (fun _ _ ht => .copyReader ht)
        · split
          · exact .creditRow hs (fun _ _ ht => .copyReader ht)
          · clear_value ran
            split
            next t =>
              have ht : MemoryOk t := hran
              exact .noteThrough ht
            next t _ =>
              have ht : MemoryOk t := hran
              exact .copyFault ht
            next t _ =>
              have ht : MemoryOk t := hran
              exact .copyFoot ht
            next t _ =>
              have ht : MemoryOk t := hran
              exact .landRun ht

/-! ## Machine/Slice -/

theorem MemoryOk.endLoan {ctx n j k} (hs : MemoryOk s) : MemoryOk (s.endLoan ctx n j k) :=
  .setCoreAt (.setCoreAt (.setQuad hs))

theorem MemoryOk.endShares {ctx n} (hs : MemoryOk s) : MemoryOk (s.endShares ctx n) := by
  unfold State.endShares
  extract_lets qd s1 q
  have hs1 : MemoryOk s1 := by
    refine .foldl hs fun t j ht => ?_
    split
    · exact ht
    · exact .ite (.endLoan ht) ht
  exact .ite (.setQuad hs1) hs1

theorem MemoryOk.putRows {a} {a1 : State} (ha1 : MemoryOk a1) : MemoryOk (State.putRows a a1) := by
  induction a generalizing a1 with
  | zero =>
    rw [State.putRows]
    exact ha1
  | succ k ih =>
    rw [State.putRows]
    split
    · exact ha1
    · split
      next u e =>
        have hu : MemoryOk u := e.subst (motive := PartTurnOk) (.partWrite ha1)
        exact ih hu
      · exact ha1
      next u _ e =>
        have hu : MemoryOk u := e.subst (motive := PartTurnOk) (.partWrite ha1)
        exact .keepPart hu

theorem MemoryOk.stopPart {e} (hs : MemoryOk s) : MemoryOk (s.stopPart e) := by
  unfold State.stopPart
  extract_lets t u u1
  have ht : MemoryOk t := .keep hs
  have hu1 : MemoryOk u1 := by
    unfold u1
    split
    · exact ht
    · exact .ite (.ite ht (.setAct ht)) (.putRows ht)
  exact .keep hu1

theorem MemoryOk.settlePend {a} {a1 : State} {a2} (ha1 : MemoryOk a1) : MemoryOk (State.settlePend a a1 a2) := by
  induction a generalizing a1 with
  | zero =>
    rw [State.settlePend]
    exact ha1
  | succ k ih =>
    rw [State.settlePend]
    split
    · exact ha1
    · split
      · exact ha1
      · exact ih (.writePend ha1)

theorem MemoryOk.stopCopies (hs : MemoryOk s) : MemoryOk s.stopCopies :=
  .keep (.upd (.foldl (.keep hs) fun _ _ hv => .settlePend hv))

theorem MemoryOk.stopEngines (hs : MemoryOk s) : MemoryOk s.stopEngines := .stopCopies (.stopPart (.stopPart hs))

theorem MemoryOk.stopCore {ctx n cause} (hs : MemoryOk s) : MemoryOk (s.stopCore ctx n cause) :=
  .keep (.endShares (.upd (.leaveStop (.stopEngines (.drainQueues (.keep hs))))))

theorem MemoryOk.switchTo {ctx n k} (hs : MemoryOk s) : MemoryOk (s.switchTo ctx n k) := by
  unfold State.switchTo
  split
  · exact hs
  · exact .setPhys (.stopCore hs)

theorem MemoryOk.yieldCore (hs : MemoryOk s) : MemoryOk s.yieldCore := by
  unfold State.yieldCore
  split
  · exact .ite (.switchTo hs) hs
  · exact hs

/-! ## Machine/Launching -/

theorem MemoryOk.setPqueue {q x} (hs : MemoryOk s) : MemoryOk (s.setPqueue q x) := .keep hs

/-- The bytes of one segment are cleared. -/
theorem wf_clearSegment {v : List Host.Cell} (pseg : Nat) (hv : Memory.wf v = true) :
    Memory.wf (eraseRange v (pseg * 65536) 65536) = true :=
  wf_eraseRange _ _ hv

theorem MemoryOk.giveSegment {ctx quad cseg pseg} (hs : MemoryOk s) : MemoryOk (s.giveSegment ctx quad cseg pseg) := by
  obtain ⟨hm, hv, hr⟩ := hs
  exact .of_lists hm (wf_clearSegment pseg hv) hr

theorem MemoryOk.giveSaved {ctx quad cseg} (hs : MemoryOk s) : MemoryOk (s.giveSaved ctx quad cseg) := .keep hs

theorem OptionOk.growGeneral {ctx quad n a} (hs : MemoryOk s) : OptionOk (s.growGeneral ctx quad n a) := by
  induction a generalizing s with
  | zero =>
    rw [State.growGeneral]
    exact .some hs
  | succ k ih =>
    rw [State.growGeneral]
    split
    · exact .some hs
    · split
      · exact .ite (ih (.giveSaved hs)) .none
      · exact ih (.giveSegment hs)

theorem OptionOk.growPage {ctx quad a} (hs : MemoryOk s) : OptionOk (s.growPage ctx quad a) := by
  induction a generalizing s with
  | nil =>
    rw [State.growPage]
    exact .some hs
  | cons k xs ih =>
    rw [State.growPage]
    exact .ite (ih hs) (.ite (ih (.giveSegment hs)) (.ite (ih (.giveSaved hs)) .none))

theorem OptionOk.growAll {x a} (hs : MemoryOk s) : OptionOk (s.growAll x a) := by
  induction a generalizing s with
  | nil =>
    rw [State.growAll]
    exact .some hs
  | cons k xs ih =>
    rw [State.growAll]
    split
    · exact .none
    next t e =>
      have ht : MemoryOk t := e.subst (motive := OptionOk) (.growGeneral hs)
      split
      · exact .none
      next t1 e1 =>
        have ht1 : MemoryOk t1 := e1.subst (motive := OptionOk) (.growPage ht)
        exact ih ht1

theorem MemoryOk.fillShadows {l x} (hs : MemoryOk s) : MemoryOk (s.fillShadows l x) :=
  .foldl hs fun _ _ ht => .ite (.setCoreAt ht) ht

theorem MemoryOk.rotate {q} (hs : MemoryOk s) : MemoryOk (s.rotate q) := .setPqueue hs

theorem MemoryOk.badLaunch {l} (hs : MemoryOk s) : MemoryOk (s.badLaunch l) := .updLaunch hs

theorem MemoryOk.readRecord {l x} (hs : MemoryOk s) : MemoryOk (s.readRecord l x) := by
  unfold State.readRecord
  split
  next s1 _ e => exact .updLaunch (.of_fst e (.feRead hs))
  next s1 _ e => exact .updLaunch (.of_fst e (.feRead hs))

theorem ResultOk.execLaunchAdmit {l} (hs : MemoryOk s) : ResultOk (execLaunchAdmit l s) := by
  unfold Machine.execLaunchAdmit
  split
  · exact .next hs
  · split
    · exact .next (.readRecord hs)
    · split
      · exact .next hs
      · split
        next s1 e => exact .next (.rotate (.badLaunch (.of_fst e (.validate hs))))
        next s1 _ e =>
          have hs1 : MemoryOk s1 := .of_fst e (.validate hs)
          split
          · exact .next hs
          next t e1 =>
            have ht : MemoryOk t := e1.subst (motive := OptionOk) (.growAll hs1)
            exact .next (.rotate (.fillShadows (.setLaunch ht)))

theorem MemoryOk.startChecks {x} (hs : MemoryOk s) : MemoryOk (s.startChecks x).1 := by
  unfold State.startChecks
  extract_lets r
  split
  next s1 _ e =>
    have hs1 : MemoryOk s1 := by
      refine .of_fst e ?_
      split
      · split
        next s11 _ e1 => exact .of_fst e1 (.feRead hs)
        next s11 _ e1 => exact .of_fst e1 (.feRead hs)
      · exact hs
    split
    · exact hs1
    · split
      · exact hs1
      · split
        · exact hs1
        · split
          next s2 _ e1 => exact .of_fst e1 (.feRead hs1)
          next s2 _ e1 =>
            have hs2 : MemoryOk s2 := .of_fst e1 (.feRead hs1)
            split <;> exact hs2

theorem MemoryOk.preloadImage {x arg img} (hs : MemoryOk s) : MemoryOk (s.preloadImage x arg img).1 := by
  unfold State.preloadImage
  split
  · exact hs
  · split
    next s1 _ e => exact .of_fst e (.feRead hs)
    next s1 _ e => exact .of_fst e (.feRead hs)

theorem MemoryOk.fillPreloads {x a} (hs : MemoryOk s) : MemoryOk (s.fillPreloads x a).1 := by
  induction a generalizing s with
  | nil =>
    rw [State.fillPreloads]
    exact hs
  | cons x1 xs ih =>
    rw [State.fillPreloads]
    split
    next s1 _ e =>
      have hs1 : MemoryOk s1 := .of_fst e (.preloadImage hs)
      split
      next s2 _ e1 => exact .of_fst e1 (ih hs1)

theorem MemoryOk.takeCore {ctx n p} (hs : MemoryOk s) : MemoryOk (s.takeCore ctx n p) := by
  unfold State.takeCore
  split
  · exact hs
  · extract_lets t u
    have ht : MemoryOk t := by
      unfold t
      split
      · exact .stopCore hs
      · exact hs
    exact .setPhys ht

theorem ResultOk.execLaunchStart {n} (hs : MemoryOk s) : ResultOk (execLaunchStart n s) := by
  unfold Machine.execLaunchStart
  split
  · extract_lets c idle
    split
    · exact .next hs
    · split
      · exact .next hs
      · split
        · exact .next (.setCoreAt hs)
        · split
          · exact .next hs
          · extract_lets first
            split
            next s1 _ e =>
              have hs1 : MemoryOk s1 := by
                refine .of_fst e ?_
                split
                · exact .startChecks hs
                · exact hs
              split
              · exact .next (.badLaunch hs1)
              · split
                next s2 _ e1 =>
                  exact .next (.keep (.setCoreAt (.setLaunch (.takeCore (.of_fst e1 (.fillPreloads hs1))))))
  · exact .next hs

theorem MemoryOk.addLaunch {x} (hs : MemoryOk s) : MemoryOk (s.addLaunch x) :=
  .keep (.ite (.setPqueue (.setContext hs)) (.setContext hs))

theorem ResultOk.execDlaunch {d a} (hs : MemoryOk s) : ResultOk (execDlaunch d a s) := by
  unfold Machine.execDlaunch
  split
  · exact .wait hs
  · split
    · exact .wait hs
    · extract_lets s1 p n
      have hs1 : MemoryOk s1 := .noteLive hs
      split
      · exact .writeReg (.addLaunch hs1)

/-! ## Machine/Packets -/

theorem MemoryOk.peekPacket {q} (hs : MemoryOk s) : MemoryOk (s.peekPacket q).1 := by
  unfold State.peekPacket
  extract_lets d i
  split
  next s1 _ e => exact .of_fst e (.feRead hs)
  next s1 _ e => exact .of_fst e (.feRead hs)

theorem MemoryOk.publish {q} (hs : MemoryOk s) : MemoryOk (s.publish q) := .feWrite (.setPqueue hs)

theorem MemoryOk.consume {q p} (hs : MemoryOk s) : MemoryOk (s.consume q p) :=
  .ite (.publish (.setPqueue hs)) (.setPqueue hs)

theorem MemoryOk.nextPacket {q} (hs : MemoryOk s) : MemoryOk (s.nextPacket q).1 := by
  unfold State.nextPacket
  split
  · exact hs
  · split
    next s1 e => exact .of_fst e (.peekPacket hs)
    next s1 _ e => exact .consume (.of_fst e (.peekPacket hs))

theorem MemoryOk.updPacket {q i f} (hs : MemoryOk s) : MemoryOk (s.updPacket q i f) := .setPqueue hs

theorem MemoryOk.completePacket {q p status} (hs : MemoryOk s) : MemoryOk (s.completePacket q p status) :=
  .ite (.event (.feWrite (.setPqueue hs))) (.feWrite (.setPqueue hs))

theorem ResultOk.packetStep {q ty ovl f} (hs : MemoryOk s) (hf : ∀ (a : State) (a_1 : Packet), MemoryOk a → MemoryOk (f a
    a_1)) :
    ResultOk (s.packetStep q ty ovl f) := by
  unfold State.packetStep
  split
  · exact .next hs
  · split
    · exact .next hs
    next s1 _ e =>
      have hs1 : MemoryOk s1 := .of_fst e (.nextPacket hs)
      split
      · exact .next hs
      · exact .ite (.next hs1) (.ite (.next (.completePacket hs1)) (.next (hf _ _ hs1)))

theorem MemoryOk.peekRecord {q p} (hs : MemoryOk s) : MemoryOk (s.peekRecord q p).1 := .feRead hs

theorem ResultOk.execOprec {q} (hs : MemoryOk s) : ResultOk (execOprec q s) := by
  unfold Machine.execOprec
  refine .packetStep hs (fun t1 p1 ht1 => ?_)
  extract_lets ctx
  split
  · exact .completePacket ht1
  · split
    next t11 _ e => exact .updPacket (.addLaunch (.of_fst e (.peekRecord ht1)))

theorem MemoryOk.frontAsk {q p pkg k va op} (hs : MemoryOk s) : MemoryOk (s.frontAsk q p pkg k va op) :=
  .updPacket (.keep (.sendRemote (.keep hs)))

theorem MemoryOk.frontOps {q p pkg ops} (hs : MemoryOk s) : MemoryOk (s.frontOps q p pkg ops).1 := by
  unfold State.frontOps
  extract_lets got
  split
  · exact hs
  · split
    · exact hs
    · exact .foldl hs fun _ _ ht => .frontAsk ht

theorem MemoryOk.frontRow {ctx va a} (hs : MemoryOk s) : MemoryOk (s.frontRow ctx va a).1 := by
  unfold State.frontRow
  split
  · exact .keep (.logPoison (.asFront hs))
  · exact hs

theorem MemoryOk.packetStore {q p va n v} (hs : MemoryOk s) : MemoryOk (s.packetStore q p va n v).1 := by
  unfold State.packetStore
  split
  · split
    next t _ e => exact .of_fst e (.frontOps hs)
  · split
    · exact hs
    · exact .feWrite hs

theorem MemoryOk.packetSignal {q va n} (hs : MemoryOk s) : MemoryOk (s.packetSignal q va n) := by
  unfold State.packetSignal
  split
  next s1 _ e =>
    have hs1 : MemoryOk s1 := .of_fst e (.feRow hs)
    split
    next s11 _ e1 => exact .feWrite (.of_fst e1 (.feRead hs1))
    next s11 _ e1 => exact .of_fst e1 (.feRead hs1)
  next s1 _ _ e => exact .of_fst e (.feRow hs)

theorem MemoryOk.packetAdd {q p va n} (hs : MemoryOk s) : MemoryOk (s.packetAdd q p va n).1 := by
  unfold State.packetAdd
  split
  · extract_lets op
    split
    next t _ e => exact .of_fst e (.frontOps hs)
  · split
    · exact hs
    · exact .packetSignal hs

theorem MemoryOk.endStep {q p a} (hs : MemoryOk s) : MemoryOk (s.endStep q p a) := by
  unfold State.endStep
  split
  · exact .completePacket hs
  · exact hs

theorem ResultOk.execWrite {q} (hs : MemoryOk s) : ResultOk (execWrite q s) := by
  unfold Machine.execWrite
  refine .packetStep hs (fun t1 p1 ht1 => ?_)
  split
  next u _ e => exact .endStep (.of_fst e (.packetStore ht1))

theorem ResultOk.execSignal {q} (hs : MemoryOk s) : ResultOk (execSignal q s) := by
  unfold Machine.execSignal
  refine .packetStep hs (fun t1 p1 ht1 => ?_)
  split
  next u _ e => exact .endStep (.of_fst e (.packetAdd ht1))

theorem MemoryOk.waitStep {q p v} (hs : MemoryOk s) : MemoryOk (s.waitStep q p v) := .ite (.completePacket hs) hs

theorem MemoryOk.farWord {ctx va l} (hs : MemoryOk s) : MemoryOk (s.farWord ctx va l).1 := by
  unfold State.farWord
  split
  next t _ e =>
    have ht : MemoryOk t := by
      refine .of_fst e (.foldl_fst hs fun a x1 ha => ?_)
      split
      next s1 _ e1 => exact .of_fst e1 (.frontRow ha)
    exact ht

theorem ResultOk.execWait {q} (hs : MemoryOk s) : ResultOk (execWait q s) := by
  unfold Machine.execWait
  refine .packetStep hs (fun t1 p1 ht1 => ?_)
  extract_lets ctx va
  split
  · split
    next u e => exact .of_fst e (.frontOps ht1)
    next u _ e =>
      have hu : MemoryOk u := .of_fst e (.frontOps ht1)
      split
      · exact .completePacket hu
      · split
        next w _ e1 => exact .waitStep (.updPacket (.of_fst e1 (.farWord hu)))
  · split
    · exact .completePacket ht1
    · split
      next t11 _ e => exact .waitStep (.of_fst e (.feRead ht1))

theorem ResultOk.execWrsig {q} (hs : MemoryOk s) : ResultOk (execWrsig q s) := by
  unfold Machine.execWrsig
  refine .packetStep hs (fun t1 p1 ht1 => ?_)
  extract_lets ctx sem
  split
  · split
    · exact .completePacket ht1
    · split
      next u e => exact .of_fst e (.packetStore ht1)
      next u e =>
        have hu : MemoryOk u := .of_fst e (.packetStore ht1)
        exact .ite (.completePacket (.packetSignal hu)) (.updPacket hu)
      next u _ _ e => exact .completePacket (.of_fst e (.packetStore ht1))
  · split
    next u _ e => exact .endStep (.of_fst e (.packetAdd ht1))

theorem ResultOk.execTimestamp {q} (hs : MemoryOk s) : ResultOk (execTimestamp q s) := by
  unfold Machine.execTimestamp
  refine .packetStep hs (fun t1 p1 ht1 => ?_)
  split
  next u _ e => exact .endStep (.of_fst e (.packetStore ht1))

theorem MemoryOk.copyPassed {q p} (hs : MemoryOk s) : MemoryOk (s.copyPassed q p) :=
  .ite (.completePacket hs) (.updPacket hs)

theorem MemoryOk.rowSource {q p src} (hs : MemoryOk s) : MemoryOk (s.rowSource q p src).1 := by
  unfold State.rowSource
  split
  · split
    next s1 _ e => exact .of_fst e (.feRow hs)
  · split
    next s1 _ e => exact .of_fst e (.frontRow hs)
  · exact .ite (.frontAsk hs) hs

theorem MemoryOk.copyRow {q p} (hs : MemoryOk s) : MemoryOk (s.copyRow q p) := by
  unfold State.copyRow
  extract_lets src dst
  split
  · exact .ite (.completePacket hs) (.copyPassed hs)
  · split
    · exact hs
    · split
      next t e => exact .of_fst e (.rowSource hs)
      next t _ e =>
        have ht : MemoryOk t := .of_fst e (.rowSource hs)
        split
        · exact .completePacket ht
        · split
          · exact .frontAsk ht
          · exact .copyPassed (.feWrite ht)

theorem ResultOk.execCopy {q} (hs : MemoryOk s) : ResultOk (execCopy q s) := by
  unfold Machine.execCopy
  split
  · exact .next (.copyRow hs)
  · exact .packetStep hs (fun _ _ ht1 => .ite (.completePacket ht1) (.ite (.completePacket ht1) (.updPacket ht1)))

theorem ResultOk.execPacketComplete {q} (hs : MemoryOk s) : ResultOk (execPacketComplete q s) := by
  unfold Machine.execPacketComplete
  split
  · exact .next (.ite hs (.completePacket hs))
  · split
    · exact .next hs
    · split
      · exact .next hs
      next s1 _ e =>
        have hs1 : MemoryOk s1 := .of_fst e (.nextPacket hs)
        exact .ite (.next hs) (.ite (.next (.completePacket hs1)) (.next hs1))

theorem MemoryOk.watch {q} (hs : MemoryOk s) : MemoryOk (s.watch q) := .setPqueue hs

theorem ResultOk.execQpollRotation {out inq} (hs : MemoryOk s) : ResultOk (execQpollRotation out inq s) := by
  unfold Machine.execQpollRotation
  extract_lets b u
  split
  · exact .next hs
  · exact .ite (.next (.watch (.setPqueue hs))) (.ite (.next (.watch hs)) (.next hs))

theorem ResultOk.rotateNext (hs : MemoryOk s) : ResultOk (rotateNext s) := by
  unfold Machine.rotateNext
  extract_lets waiting
  clear_value waiting
  split
  · exact .next hs
  · exact .execQpollRotation hs

/-! ## Machine/Tasks -/

theorem MemoryOk.lookAt {x n l} (hs : MemoryOk s) : MemoryOk (s.lookAt x n l).1 := by
  unfold State.lookAt
  extract_lets r
  split
  next s3 _ e =>
    have hs3 : MemoryOk s3 := by
      refine .of_fst e ?_
      split
      · split
        next s1 _ e1 => exact .of_fst e1 (.feRead hs)
        next s1 _ e1 => exact .of_fst e1 (.feRead hs)
      · exact hs
    split
    · exact hs3
    · split
      · exact hs3
      · split
        next t e1 => exact .of_fst e1 (.feRead hs3)
        next t _ _ e1 => exact .of_fst e1 (.feRead hs3)
        next t _ e1 => exact .of_fst e1 (.feRead hs3)

theorem MemoryOk.noTask {l n i x p} (hs : MemoryOk s) : MemoryOk (s.noTask l n i x p) := by
  unfold State.noTask
  split
  · exact .markTask hs
  · exact .logRecord (.markTask hs)
  · exact hs

theorem MemoryOk.setTask {ctx n t} (hs : MemoryOk s) : MemoryOk (s.setTask ctx n t) := .setCoreAt hs

theorem ResultOk.execTaskBind {n} (hs : MemoryOk s) : ResultOk (execTaskBind n s) := by
  unfold Machine.execTaskBind
  split
  · exact .next hs
  · extract_lets c
    split
    · split
      · exact .next hs
      · extract_lets k l u
        split
        next s1 _ e =>
          have hs1 : MemoryOk s1 := .of_fst e (.lookAt hs)
          extract_lets s2 live
          have hs2 : MemoryOk s2 := .updLaunch hs1
          split
          · exact .next hs2
          · exact .next (.noTask hs2)
          · split
            · exact .next (.setTask (.noTask hs2))
            · exact .next (.noTask hs2)
          · exact .next (.setTask (.updLaunch hs2))
    · exact .next hs

theorem MemoryOk.guardFail {g l idx} (hs : MemoryOk s) : MemoryOk (s.guardFail g l idx) := by
  unfold State.guardFail
  split
  · exact .keep (.ite hs (.trace hs))
  · exact hs

theorem ResultOk.execTaskStart {n} {s0 : State} (hs0 : MemoryOk s0) : ResultOk (execTaskStart n s0) := by
  unfold Machine.execTaskStart
  split
  · exact .next hs0
  · extract_lets s c
    have hs : MemoryOk s := .keep hs0
    split
    · split
      · exact .next hs0
      · extract_lets start late
        split
        · exact .ite (.next (.upd hs)) (.next (.note (.updLaunch (.upd hs))))
        · split
          · exact .next (.note (.updLaunch (.upd hs)))
          · extract_lets s1
            have hs1 : MemoryOk s1 := .guardFail hs
            exact .ite (.next (.upd hs1)) (.next (.note (.updLaunch (.upd hs1))))
    · exact .next hs0

theorem ResultOk.execTaskRetire {n} {s0 : State} (hs0 : MemoryOk s0) : ResultOk (execTaskRetire n s0) := by
  unfold Machine.execTaskRetire
  split
  · exact .next hs0
  · extract_lets s c done
    have hs : MemoryOk s := .keep hs0
    split
    · exact .next (.releaseAll hs)
    · clear_value done
      split
      · exact .next hs0
      · exact .next (.updLaunch hs)

theorem MemoryOk.writeRecord {x e} (hs : MemoryOk s) : MemoryOk (s.writeRecord x e) :=
  .ite hs (.feWrite (.feWrite (.feWrite hs)))

theorem MemoryOk.updateSlot {x e} (hs : MemoryOk s) : MemoryOk (s.updateSlot x e) := by
  unfold State.updateSlot
  split
  · exact hs
  · extract_lets a log
    split
    next s1 _ e1 =>
      have hs1 : MemoryOk s1 := .of_fst e1 (.resolve hs)
      exact .ite (.logRecord hs1) (.writeRowAt hs1)
    next s1 _ _ e1 => exact .logRecord (.of_fst e1 (.resolve hs))

theorem MemoryOk.closeLaunch {l x} (hs : MemoryOk s) : MemoryOk (s.closeLaunch l x) := .keep hs

theorem MemoryOk.holdBack {l x} (hs : MemoryOk s) : MemoryOk (s.holdBack l x) := .ite hs (.updLaunch hs)

theorem ResultOk.execLaunchRetire {l} (hs : MemoryOk s) : ResultOk (execLaunchRetire l s) := by
  unfold Machine.execLaunchRetire
  split
  · exact .next hs
  · split
    · exact .next hs
    · split
      · exact .next (.holdBack hs)
      · split
        · exact .next hs
        · exact .next (.closeLaunch (.keep (.writeRecord (.ite hs (.updateSlot hs)))))

/-! ## Machine/Graph -/

theorem MemoryOk.readGraph {ctx a} (hs : MemoryOk s) : MemoryOk (s.readGraph ctx a).1 := by
  unfold State.readGraph
  split
  next s2 _ e => exact .of_fst e (.feRead hs)
  next s2 _ e =>
    have hs2 : MemoryOk s2 := .of_fst e (.feRead hs)
    extract_lets n m
    split
    · exact hs2
    · split
      next s21 _ e1 => exact .of_fst e1 (.feRead hs2)
      next s21 _ e1 =>
        have hs21 : MemoryOk s21 := .of_fst e1 (.feRead hs2)
        split
        next s22 _ e2 => exact .of_fst e2 (.feRead hs21)
        next s22 _ e2 =>
          have hs22 : MemoryOk s22 := .of_fst e2 (.feRead hs21)
          split
          next s23 _ e3 => exact .of_fst e3 (.feRead hs22)
          next s23 _ e3 =>
            have hs23 : MemoryOk s23 := .of_fst e3 (.feRead hs22)
            extract_lets edges
            split <;> exact hs23

theorem MemoryOk.setVariant {hash v} (hs : MemoryOk s) : MemoryOk (s.setVariant hash v) := .keep hs

/-- Every listed byte of a canonical space differs from an unlisted one. -/
theorem ne_blank_of_mem {m : List Host.Cell} {lo : Nat} (hm : SMap.wfFrom blankByte lo m = true) {c : Host.Cell}
    (hc : c ∈ m) : c.2 ≠ blankByte := by
  induction m generalizing lo with
  | nil => cases hc
  | cons x m ih =>
    simp only [SMap.wfFrom, Bool.and_eq_true, decide_eq_true_eq] at hm
    obtain ⟨⟨-, hne⟩, hrest⟩ := hm
    rcases List.mem_cons.mp hc with rfl | hc
    · exact hne
    · exact ih hrest hc

/-- Bytes that differ from an unlisted one are put into a canonical space. -/
theorem wf_foldl_put {l m : List Host.Cell} (hl : ∀ c ∈ l, c.2 ≠ blankByte) (hm : Memory.wf m = true) :
    Memory.wf (l.foldl (fun m c => SMap.put m c.1 c.2) m) = true :=
  List.foldlRecOn (motive := fun m => Memory.wf m = true) l _ hm fun _ hm c hc =>
    SMap.wfFrom_put blankByte (hl c hc) (Nat.zero_le _) hm

theorem MemoryOk.exchangeQuads {a b} (hs : MemoryOk s) : MemoryOk (s.exchangeQuads a b) := by
  obtain ⟨hm, hv, hr⟩ := hs
  unfold State.exchangeQuads
  refine .of_lists hm (wf_foldl_put ?_ (SMap.wfFrom_filter blankByte _ hv)) hr
  intro c hc
  obtain ⟨d, hd, rfl⟩ := List.mem_map.mp hc
  exact ne_blank_of_mem hv (c := d) (List.mem_filter.mp hd).1

theorem MemoryOk.applyVersion {hash v ver effect} (hs : MemoryOk s) : MemoryOk (s.applyVersion hash v ver effect).1 := by
  unfold State.applyVersion
  extract_lets s1 w
  have hs1 : MemoryOk s1 := by
    unfold s1
    split
    · exact .ite (.exchangeQuads hs) hs
    · exact hs
  exact .setVariant hs1

theorem MemoryOk.variantFor {hash step} (hs : MemoryOk s) : MemoryOk (s.variantFor hash step).1 := by
  unfold State.variantFor
  split
  · exact hs
  · split
    · exact hs
    · split
      · exact hs
      · split
        · split
          next s1 _ e => exact .of_fst e (.applyVersion hs)
        · exact hs

theorem ResultOk.execGraph {q} (hs : MemoryOk s) : ResultOk (execGraph q s) := by
  unfold Machine.execGraph
  refine .packetStep hs (fun t1 p1 ht1 => ?_)
  extract_lets ctx want
  split
  · exact .completePacket ht1
  · split
    next t11 e => exact .completePacket (.of_fst e (.readGraph ht1))
    next t11 _ e =>
      have ht11 : MemoryOk t11 := .of_fst e (.readGraph ht1)
      extract_lets h hash
      split
      · exact .completePacket ht11
      · split
        next t2 _ e1 =>
          have ht2 : MemoryOk t2 := .of_fst e1 (.variantFor ht11)
          extract_lets y t3
          have ht3 : MemoryOk t3 := by
            unfold t3
            split
            · exact .trace ht2
            · exact ht2
          exact .updPacket (.keep ht3)

theorem MemoryOk.setGraph {g y} (hs : MemoryOk s) : MemoryOk (s.setGraph g y) := .keep hs

theorem MemoryOk.record {y} (hs : MemoryOk s) : MemoryOk (s.record y) := .keep hs

theorem MemoryOk.endGraph {g y} (hs : MemoryOk s) : MemoryOk (s.endGraph g y) := by
  unfold State.endGraph
  extract_lets s1
  have hs1 : MemoryOk s1 := .setGraph hs
  split
  · exact .record hs1
  · exact .ite (.record (.trace hs1)) (.setVariant (.trace hs1))

theorem OptionOk.graphAdvance {g y} (hs : MemoryOk s) : OptionOk (s.graphAdvance g y) := by
  unfold State.graphAdvance
  split
  · exact .none
  · split
    · extract_lets a
      split
      next t1 _ e => exact .some (.setGraph (.addLaunch (.of_fst e (.feRead hs))))
    · exact .ite (.some (.endGraph hs)) .none

theorem ResultOk.execDynamicStep {g} (hs : MemoryOk s) : ResultOk (execDynamicStep g s) := by
  unfold Machine.execDynamicStep
  split
  · exact .ite (.next (.getD (.graphAdvance hs) hs)) (.next hs)
  · exact .next hs

theorem MemoryOk.placeEntry {e x} (hs : MemoryOk s) : MemoryOk (s.placeEntry e x) := by
  unfold State.placeEntry
  extract_lets c y s1
  have hs1 : MemoryOk s1 := .acceptAs hs
  split
  · exact .upd hs1
  · exact hs1

theorem OptionOk.replayTask {g y k tr t} (hs : MemoryOk s) : OptionOk (s.replayTask g y k tr t) := by
  unfold State.replayTask
  extract_lets c p old
  clear_value old
  split
  · exact .some (.releaseQueue (.logEngineFault hs))
  · exact .some (.exitTask hs)
  · split
    · exact .some (.setGraph (.placeEntry hs))
    · split
      · exact .none
      · split
        · exact .some (.exitTask hs)
        · exact .map fun _ => .setGraph (.setCore hs)

theorem OptionOk.replayCore {g y v n} (hs : MemoryOk s) : OptionOk (s.replayCore g y v n) := by
  unfold State.replayCore
  split
  · exact .none
  · extract_lets u
    have hu : MemoryOk u := .keep hs
    split
    · exact .ite .none (.bind fun _ => .replayTask hu)
    · exact .none

theorem ResultOk.execReplay {g} (hs : MemoryOk s) : ResultOk (execReplay g s) := by
  unfold Machine.execReplay
  split
  · exact .next hs
  · split
    · exact .next hs
    · split
      · exact .next (.setGraph (.applyVersion hs))
      · exact .next hs
      · split
        next t e =>
          have ht : MemoryOk t := e.subst (motive := OptionOk) (.findSome fun _ => .replayCore hs)
          exact .next ht
        · exact .next (.getD (.ite .none (.graphAdvance hs)) hs)

theorem ResultOk.execRefinement {hash variant change} (hs : MemoryOk s) : ResultOk (execRefinement hash variant change s) := by
  unfold Machine.execRefinement
  split
  · exact .next hs
  · split
    · exact .next hs
    · split
      · exact .next hs
      · split
        · exact .next hs
        · exact .next (.setVariant (.keep hs))

theorem ResultOk.execVersionNotice {hash variant version effect} (hs : MemoryOk s) :
    ResultOk (execVersionNotice hash variant version effect s) := by
  unfold Machine.execVersionNotice
  split
  · exact .next hs
  · split
    · exact .ite (.next (.setVariant hs)) (.next hs)
    · exact .next hs

theorem ResultOk.execVersionLate {g} (hs : MemoryOk s) : ResultOk (execVersionLate g s) := by
  unfold Machine.execVersionLate
  split
  · exact .next hs
  · split
    · exact .ite (.next (.setGraph (.trace hs))) (.next hs)
    · exact .next hs

/-! ## Machine/Sync -/

theorem ResultOk.execFsig {a f} (hs : MemoryOk s) : ResultOk (execFsig a f s) := by
  unfold Machine.execFsig
  split
  · exact .wait hs
  · split
    · exact .next (.setCore hs)
    · exact .trap hs

theorem ResultOk.execFsigQuad {a f k} (hs : MemoryOk s) : ResultOk (execFsigQuad a f k s) := by
  unfold Machine.execFsigQuad
  extract_lets target n s1
  have hs1 : MemoryOk s1 := .advance (.ite hs (.noteLive hs))
  split
  · exact .trap hs
  · split
    · exact .wait hs
    · split
      · exact .done (.setCoreAt hs1)
      · exact .trap hs1

theorem ResultOk.execFwait {f} (hs : MemoryOk s) : ResultOk (execFwait f s) := by
  unfold Machine.execFwait
  split
  · exact .done (.noteWait (.setCore hs))
  · exact .wait hs

theorem MemoryOk.setBarrier {b} (hs : MemoryOk s) : MemoryOk (s.setBarrier b) := .ite (.keep hs) (.keep hs)

theorem MemoryOk.arrive {launch scope id} (hs : MemoryOk s) : MemoryOk (s.arrive launch scope id) := by
  unfold State.arrive
  split
  · exact hs
  · exact .upd (.updLaunch (.setBarrier hs))

theorem TrapOk.barrierTrap {i scope id} (hs : MemoryOk s) : TrapOk (s.barrierTrap i scope id) := by
  unfold State.barrierTrap
  split
  · exact .some (.illegal hs)
  · split
    · exact .none
    · exact .some (.trap hs)

theorem ResultOk.execBara {i sc} (hs : MemoryOk s) : ResultOk (execBara i sc s) := by
  unfold Machine.execBara
  split
  next r e =>
    have hr : ResultOk r := e.subst (motive := TrapOk) (.barrierTrap hs)
    exact hr
  · extract_lets l
    split
    · exact .trap hs
    · exact .ite (.wait hs) (.ite (.wait hs) (.done (.arrive (.noteLive hs))))

theorem ResultOk.execBarw {i sc} (hs : MemoryOk s) : ResultOk (execBarw i sc s) := by
  unfold Machine.execBarw
  split
  next r e =>
    have hr : ResultOk r := e.subst (motive := TrapOk) (.barrierTrap hs)
    exact hr
  · exact .ite (.done (.noteLive hs)) (.wait hs)

theorem ResultOk.execBar {i sc} (hs : MemoryOk s) : ResultOk (execBar i sc s) := by
  unfold Machine.execBar
  split
  next r e =>
    have hr : ResultOk r := e.subst (motive := TrapOk) (.barrierTrap hs)
    exact hr
  · extract_lets l
    split
    · exact .ite (.done (.upd hs)) (.wait hs)
    · split
      · exact .trap hs
      · exact .ite (.wait hs) (.ite (.wait hs) (.wait (.upd (.arrive (.noteLive hs)))))

theorem ResultOk.execBarrierGenerationComplete {k} (hs : MemoryOk s) : ResultOk (execBarrierGenerationComplete k s) := by
  unfold Machine.execBarrierGenerationComplete
  split
  · exact .next hs
  · split
    · exact .next hs
    · extract_lets scope others
      split
      · exact .next hs
      · split
        · exact .next hs
        · exact .next (.setBarrier (.keep hs))

theorem ResultOk.crossMode {interlock} (hs : MemoryOk s) : ResultOk (s.crossMode interlock) :=
  .ite (.wait hs) (.ite (.done hs) (.next (.upd hs)))

theorem ResultOk.execModeCrossing {n} {s0 : State} (hs0 : MemoryOk s0) : ResultOk (execModeCrossing n s0) := by
  unfold Machine.execModeCrossing
  split
  · exact .next hs0
  · extract_lets s
    have hs : MemoryOk s := .keep hs0
    split
    · exact .next hs
    · exact .ite (.next (.upd hs)) (.next hs)

/-! ## Machine/System -/

theorem MemoryOk.clearStop {new k} (hs : MemoryOk s) : MemoryOk (s.clearStop new k) := by
  unfold State.clearStop
  split
  · extract_lets e
    split
    · exact .releaseQueue (.ite (.logEngineFault hs) hs)
    · exact hs
  · exact hs

theorem MemoryOk.writeXstat {new} (hs : MemoryOk s) : MemoryOk (s.writeXstat new) :=
  .clearStop (.clearStop (.clearStop (.upd hs)))

theorem MemoryOk.writeFw {n new} (hs : MemoryOk s) : MemoryOk (s.writeFw n new) := .ite hs (.keep hs)

theorem MemoryOk.writeCsr {n new} (hs : MemoryOk s) : MemoryOk (s.writeCsr n new) := by
  unfold State.writeCsr
  split
  · exact .writeFw hs
  · split
    · exact .upd hs
    · split
      · exact .upd hs
      · exact .upd hs
      · exact .upd hs
      · exact .writeXstat hs
      · exact .upd hs
      · exact .upd hs
      · exact .upd hs
      · exact hs

theorem ResultOk.csrModify {i ck d a n} (hs : MemoryOk s) : ResultOk (s.csrModify i ck d a n) := by
  unfold State.csrModify
  split
  · exact .illegal hs
  · exact .ite (.illegal hs) (.writeReg (.writeCsr hs))

theorem ResultOk.csrRead {i d n} (hs : MemoryOk s) : ResultOk (s.csrRead i d n) := by
  unfold State.csrRead
  split
  · exact .illegal hs
  · exact .writeReg hs

theorem ResultOk.execResidAccess {ck d a} (hs : MemoryOk s) : ResultOk (execResidAccess ck d a s) :=
  .ite (.wait hs) (.ite (.ite (.csrRead hs) (.illegal hs)) (.csrModify hs))

theorem ResultOk.execTrapDelivery {n} (hs : MemoryOk s) : ResultOk (execTrapDelivery n s) := by
  unfold Machine.execTrapDelivery
  split
  · exact .next hs
  next t e =>
    have ht : MemoryOk t := e.subst (motive := OptionOk) (.actor hs)
    split
    · exact .ite (.next (.deliver ht)) (.next ht)
    · exact .ite (.next (.releaseAll ht)) (.next ht)

theorem ResultOk.execQuotaStall {n} (hs : MemoryOk s) : ResultOk (execQuotaStall n s) := by
  unfold Machine.execQuotaStall
  split
  · exact .next hs
  next t e =>
    have ht : MemoryOk t := e.subst (motive := OptionOk) (.actor hs)
    split
    · split
      · exact .next ht
      · exact .ite (.next (.upd (.event ht))) (.next (.preciseTrap (.event ht)))
    · exact .next ht

theorem ResultOk.execEngineFault {n e code} {s0 : State} (hs0 : MemoryOk s0) : ResultOk (execEngineFault n e code s0) := by
  unfold Machine.execEngineFault
  split
  · exact .next hs0
  next t e1 =>
    have ht : MemoryOk t := e1.subst (motive := OptionOk) (.ite (.actor hs0) .none)
    extract_lets q
    split
    · exact .next (.engineFault (.keep ht))
    · split
      · exact .next (.engineFault (.keep ht))
      · exact .next ht

/-! ## Machine/Section -/

theorem MemoryOk.putRange {a n v} (hs : MemoryOk s) : MemoryOk (s.putRange a n v) := by
  obtain ⟨hm, hv, hr⟩ := hs
  exact .of_lists (wf_writeNat a n v hm) hv hr

theorem MemoryOk.zeroRange {a n} (hs : MemoryOk s) : MemoryOk (s.zeroRange a n) := by
  obtain ⟨hm, hv, hr⟩ := hs
  exact .of_lists (wf_eraseRange a n hm) hv hr

theorem MemoryOk.putFields {base l} (hs : MemoryOk s) : MemoryOk (s.putFields base l) := .foldl hs fun _ _ ht => .putRange ht

theorem MemoryOk.putBank {base ctx n b} (hs : MemoryOk s) : MemoryOk (s.putBank base ctx n b) := by
  unfold State.putBank
  split
  · exact .putFields (.foldl hs fun _ _ ht => .zeroRange ht)

theorem MemoryOk.putHeader {base ctx n} (hs : MemoryOk s) : MemoryOk (s.putHeader base ctx n) := .putFields (.zeroRange hs)

/-! ## Machine/Preempt -/

theorem MemoryOk.serveFree {ctx} (hs : MemoryOk s) : MemoryOk (s.serveFree ctx) := by
  unfold State.serveFree
  refine .foldl hs fun t n ht => ?_
  split
  · exact .ite (.setPhys ht) ht
  · exact ht

theorem MemoryOk.handOver {victim n newcomer} (hs : MemoryOk s) : MemoryOk (s.handOver victim n newcomer) := by
  unfold State.handOver
  split
  · exact hs
  · extract_lets t u u1 u2
    have ht : MemoryOk t := by
      unfold t
      split
      · exact .ite (.stopCore hs) hs
      · exact hs
    have hu1 : MemoryOk u1 := .setPhys ht
    exact .setContext hu1

theorem ResultOk.execPreemption {ctx} (hs : MemoryOk s) : ResultOk (execPreemption ctx s) := by
  unfold Machine.execPreemption
  extract_lets t u u1
  have ht : MemoryOk t := by
    refine .foldl hs fun t1 n ht1 => ?_
    split
    · split
      · exact .handOver ht1
      · exact ht1
    · exact ht1
  have hu : MemoryOk u := .serveFree ht
  exact .next (.ite hu (.setContext hu))

theorem ResultOk.execCoreslice {n} (hs : MemoryOk s) : ResultOk (execCoreslice n s) := by
  unfold Machine.execCoreslice
  split
  · exact .ite (.next (.switchTo hs)) (.next hs)
  · exact .next hs

theorem MemoryOk.setOwner {p b o} (hs : MemoryOk s) : MemoryOk (s.setOwner p b o) := .setPhys hs

theorem MemoryOk.syncSection {ctx n b} (hs : MemoryOk s) : MemoryOk (s.syncSection ctx n b) := by
  unfold State.syncSection
  split
  · exact .ite (.putHeader (.putBank hs)) hs
  · exact hs

theorem MemoryOk.spill {ctx n b} (hs : MemoryOk s) : MemoryOk (s.spill ctx n b) := by
  unfold State.spill
  extract_lets c
  split
  · exact .syncSection (.setOwner (.setCoreAt hs))
  · exact hs

theorem MemoryOk.forceOff {ctx n b} (hs : MemoryOk s) : MemoryOk (s.forceOff ctx n b) := by
  unfold State.forceOff
  extract_lets c
  split
  · exact .spill (.setCoreAt hs)
  · exact hs

theorem OptionOk.landOne {ctx n b} (hs : MemoryOk s) : OptionOk (s.landOne ctx n b) := by
  unfold State.landOne
  extract_lets u back c
  have hu : MemoryOk u := .keep hs
  split
  · exact .ite (.some hs) .none
  · split
    · exact .ite .none (.some (.keep (.landRow hu)))
    · split
      · split
        · split
          · split
            · exact .some (.keep (.loadRow (.keep hu)))
            · exact .none
          · exact .none
        · exact .none
      · exact .none

theorem MemoryOk.rebind {ctx n} (hs : MemoryOk s) : MemoryOk (s.rebind ctx n) := .setCoreAt hs

theorem MemoryOk.takeBank {ctx n b p} (hs : MemoryOk s) : MemoryOk (s.takeBank ctx n b p) :=
  .ite (.rebind (.setOwner (.setCoreAt hs))) (.setOwner (.setCoreAt hs))

theorem ResultOk.execBankClaim {n b} (hs : MemoryOk s) : ResultOk (execBankClaim n b s) := by
  unfold Machine.execBankClaim
  split
  · extract_lets k away victim s1
    have hs1 : MemoryOk s1 := by
      unfold s1
      clear_value victim
      split
      · exact .spill hs
      · exact hs
    split
    · exact .next hs
    · split
      next t e =>
        have ht : MemoryOk t := e.subst (motive := OptionOk) (.bind fun _ => .landOne hs)
        exact .next ht
      next t _ e1 =>
        have ht : MemoryOk t := e1.subst (motive := OptionOk) (.ite (.landOne hs) .none)
        exact .next ht
      · exact .next (.takeBank (.forceOff hs1))
  · exact .next hs

theorem ResultOk.execForcedSpill {n b} (hs : MemoryOk s) : ResultOk (execForcedSpill n b s) := by
  unfold Machine.execForcedSpill
  extract_lets k
  split
  · exact .next hs
  · split
    next t e =>
      have ht : MemoryOk t := e.subst (motive := OptionOk) (.landOne hs)
      exact .next ht
    · exact .next (.forceOff hs)

theorem ResultOk.execFaoGrant {n} (hs : MemoryOk s) : ResultOk (execFaoGrant n s) := by
  unfold Machine.execFaoGrant
  split
  · exact .next hs
  · split
    · extract_lets s1 c bit s2
      have hs1 : MemoryOk s1 := .keep hs
      have hs2 : MemoryOk s2 := .ite (.setResid (.upd hs1)) (.ite hs1 (.setResid (.upd hs1)))
      exact .next (.syncSection (.keep hs2))
    · exact .next hs

theorem MemoryOk.correctSegment {pseg} (hs : MemoryOk s) : MemoryOk (s.correctSegment pseg) :=
  .foldl hs fun _ _ ht => .correct ht

theorem MemoryOk.saveSegment {k g} (hs : MemoryOk s) : MemoryOk (s.saveSegment k g) := by
  unfold State.saveSegment
  obtain ⟨hm, hv, hr⟩ : MemoryOk (s.correctSegment g.pseg) := .correctSegment hs
  exact .of_lists hm (SMap.wfFrom_filter blankByte _ hv) hr

theorem ResultOk.execSegmentSave {k} (hs : MemoryOk s) : ResultOk (execSegmentSave k s) := by
  unfold Machine.execSegmentSave
  split
  · exact .next hs
  · split
    · exact .ite (.next (.keep hs)) (.next hs)
    · exact .next (.saveSegment hs)
    · exact .next hs

theorem MemoryOk.restoreSegment {k pseg g} (hs : MemoryOk s) : MemoryOk (s.restoreSegment k pseg g) := by
  obtain ⟨hm, hv, hr⟩ := hs
  refine .of_lists hm ?_ hr
  exact List.foldlRecOn (motive := fun m => Memory.wf m = true) _ _ (wf_clearSegment pseg hv)
    fun _ hm _ _ => SMap.wf_set blankByte _ _ hm

theorem ResultOk.execSegmentRestore {k pseg} (hs : MemoryOk s) : ResultOk (execSegmentRestore k pseg s) := by
  unfold Machine.execSegmentRestore
  split
  · exact .next hs
  · exact .ite (.next (.restoreSegment hs)) (.next hs)

/-! ## Machine/Translate -/

theorem ResultOk.execTableWalk {unit ctx va wr} (hs : MemoryOk s) : ResultOk (execTableWalk unit ctx va wr s) := by
  unfold Machine.execTableWalk
  split
  · split
    · exact .next hs
    · split
      next s2 _ e => exact .next (.logMalformed (.of_fst e (.walkFill hs)))
  · exact .next hs

theorem MemoryOk.halveHeat {pa} (hs : MemoryOk s) : MemoryOk (halveHeat s pa) := .putPhys hs

theorem ResultOk.execSweep {ctx} (hs : MemoryOk s) : ResultOk (execSweep ctx s) :=
  .ite (.next (.setContext (.foldl hs fun _ _ ht => .halveHeat ht))) (.next hs)

theorem MemoryOk.redirty {ctx r} (hs : MemoryOk s) : MemoryOk (s.redirty ctx r) := by
  unfold State.redirty
  refine .foldl hs fun t x ht => ?_
  split
  · exact ht
  · extract_lets u waits v
    have hu : MemoryOk u := .keep ht
    have hv : MemoryOk v := by
      refine .foldl hu fun v1 k hv1 => ?_
      split
      · exact .ite (.markDirty hv1) hv1
      · exact hv1
    exact .keep hv

theorem MemoryOk.shootdown {ctx r rearm} (hs : MemoryOk s) : MemoryOk (s.shootdown ctx r rearm) := .redirty (.keep hs)

theorem ResultOk.command {op f} (hs : MemoryOk s) (hf : ∀ (a : ℕ) (a_1 : State), MemoryOk a_1 → MemoryOk (f a a_1)) :
    ResultOk (s.command op f) :=
  .ite (.next (hf _ _ hs)) (.next hs)

theorem MemoryOk.commandDone {status} (hs : MemoryOk s) : MemoryOk (s.commandDone status) := .keep hs

theorem MemoryOk.shootOut {ctx n r rearm} (hs : MemoryOk s) : MemoryOk (s.shootOut ctx n r rearm) :=
  .ite (.keep (.shootdown hs)) (.ite hs (.keep (.commandDone hs)))

theorem MemoryOk.harvestPage {ctx i} (hs : MemoryOk s) : MemoryOk (s.harvestPage ctx i) := by
  unfold State.harvestPage
  extract_lets stage1 a b
  split
  · exact hs
  · exact .ite (.putPhys (.putPhys hs)) hs

theorem ResultOk.execHarvest (hs : MemoryOk s) : ResultOk (execHarvest s) :=
  .command hs (fun _ _ ht1 => .ite (.keep (.harvestPage ht1)) (.shootOut ht1))

theorem ResultOk.execPageReply {ctx slot} (hs : MemoryOk s) : ResultOk (execPageReply ctx slot s) := by
  unfold Machine.execPageReply
  extract_lets x v
  split
  · exact .next hs
  · split
    · split
      · exact .next hs
      · split
        · exact .next (.logRecord hs)
        · extract_lets s1
          have hs1 : MemoryOk s1 := .setContext hs
          split
          · exact .next (.syncSection (.setCoreAt hs1))
          · exact .next (.logRecord hs1)
    · split
      · exact .next hs
      · split
        · exact .next (.logRecord hs)
        · extract_lets s1
          have hs1 : MemoryOk s1 := .setContext hs
          split
          · exact .next (.syncSection (.setCoreAt hs1))
          · exact .next (.logRecord hs1)

theorem ResultOk.execScrub {pq row} (hs : MemoryOk s) : ResultOk (execScrub pq row s) := by
  unfold Machine.execScrub
  split
  · exact .next hs
  · exact .next (.ite (.correct hs) (.ite (.keep (.correct hs)) (.keep (.correct hs))))

/-! ## Machine/Bars -/

theorem MemoryOk.startCommand {v} (hs : MemoryOk s) : MemoryOk (s.startCommand v) := .ite hs (.keep hs)

theorem MemoryOk.writeDebug {off v} (hs : MemoryOk s) : MemoryOk (s.writeDebug off v) :=
  .ite (.keep hs) (.setCoreAt (.keep hs))

theorem MemoryOk.bar0Put {off n v} (hs : MemoryOk s) : MemoryOk (s.bar0Put off n v) := by
  unfold State.bar0Put
  extract_lets h b word k r k1 r1 k2 old base new k3 r2 s1 u o
  have hs1 : MemoryOk s1 := .keep hs
  split
  · exact .keep hs
  · split
    · exact .keep hs
    · split
      · split
        · exact .startCommand hs
        · exact .keep hs
        · exact .keep hs
        · exact .keep hs
      · split
        · exact .keep hs
        · split
          · exact .ite (.raise (.keep hs1)) hs1
          · exact .ite (.keep hs) (.ite (.keep hs) (.ite (.writeDebug hs) hs))

theorem ResultOk.execBar0Write {off bytes data} (hs : MemoryOk s) : ResultOk (execBar0Write off bytes data s) :=
  .ite (.next hs) (.next (.foldl (.bar0Put hs) fun _ _ ht => .bar0Put ht))

theorem ResultOk.execCommandCompletion (hs : MemoryOk s) : ResultOk (execCommandCompletion s) := by
  unfold Machine.execCommandCompletion
  extract_lets h status vec
  clear_value status
  split
  · exact .next (.event (.keep hs))
  · exact .next hs

theorem ResultOk.execQueueEnable {q} (hs : MemoryOk s) : ResultOk (execQueueEnable q s) := by
  unfold Machine.execQueueEnable
  extract_lets d x actives
  split
  · exact .next hs
  · split
    · exact .next (.setPqueue hs)
    · exact .ite (.next hs) (.ite (.next (.setPqueue hs)) (.next (.setPqueue hs)))

theorem ResultOk.execContextRecordEnable {ctx} (hs : MemoryOk s) : ResultOk (execContextRecordEnable ctx s) := by
  unfold Machine.execContextRecordEnable
  extract_lets x
  split
  · exact .next hs
  · exact .ite (.next (.ite hs (.setContext hs))) (.next (.setContext hs))

theorem MemoryOk.windowAbs {w} (hs : MemoryOk s) : MemoryOk (s.windowAbs w) := .keep hs

theorem MemoryOk.hostRows {ctx a a1} (hs : MemoryOk s) : MemoryOk (s.hostRows ctx a a1).1 := by
  induction a1 generalizing s a with
  | zero =>
    rw [State.hostRows]
    exact hs
  | succ k ih =>
    rw [State.hostRows]
    split
    next s1 _ e =>
      have hs1 : MemoryOk s1 := .of_fst e (.feRow hs)
      split
      next w _ e1 => exact .of_fst e1 (ih hs1)

theorem MemoryOk.answerHost {v} (hs : MemoryOk s) : MemoryOk (s.answerHost v) := .keep hs

theorem ResultOk.execHostBar2Access {off op} (hs : MemoryOk s) : ResultOk (execHostBar2Access off op s) := by
  unfold Machine.execHostBar2Access
  split
  · refine .next ?_
    split
    · exact hs
    · exact .answerHost hs
  · extract_lets ctx va mark
    split
    · split
      next w _ e =>
        have hw : MemoryOk w := .of_fst e (.hostRows hs)
        exact .next (.ite (.windowAbs (.answerHost hw)) (.answerHost hw))
    · split
      · exact .next (.windowAbs hs)
      · exact .next (.ite (.windowAbs (.feWrite hs)) (.feWrite hs))
    · split
      · exact .next (.ite (.windowAbs (.answerHost hs)) (.answerHost hs))
      · split
        next s2 _ e => exact .next (.answerHost (.of_fst e (.feRead hs)))
        next s2 _ e =>
          have hs2 : MemoryOk s2 := .of_fst e (.feRead hs)
          split
          · exact .next (.answerHost (.feWrite hs2))
          · exact .next (.answerHost hs2)

/-! ## Machine/Burnish -/

theorem MemoryOk.burnAsk {l x i pkg a} (hs : MemoryOk s) : MemoryOk (s.burnAsk l x i pkg a) :=
  .ite hs (.keep (.sendRemote (.keep hs)))

theorem MemoryOk.burnReady {l x i img n q wr} (hs : MemoryOk s) : MemoryOk (s.burnReady l x i img n q wr).1 := by
  unfold State.burnReady
  extract_lets cap
  split
  · exact .demand hs
  · extract_lets all
    refine .foldl_fst hs fun t r ht => ?_
    split
    · exact .wantSeg ht
    · split
      · exact ht
      · exact .burnAsk ht
    · exact ht
  · exact hs

theorem MemoryOk.tileReady {l x outs i wr} (hs : MemoryOk s) : MemoryOk (s.tileReady l x outs i wr).1 := by
  unfold State.tileReady
  split
  · extract_lets near
    refine .foldl_fst hs fun a img ha => .foldl_fst ha fun a1 r ha1 => .foldl_fst ha1 fun a2 j ha2 => .foldl_fst ha2 fun a3 p
        ha3 => ?_
    split
    · exact ha3
    · split
      next s3 _ e => exact .of_fst e (.burnReady ha3)

theorem MemoryOk.burnSeen {x n l} (hs : MemoryOk s) : MemoryOk (s.burnSeen x n l) := by
  unfold State.burnSeen
  extract_lets log
  split
  · exact .ite (.keep (.logPoison (.asFront (.correct hs)))) (.correct hs)
  · exact .ite (.keep (.logPoison (.asFront hs))) hs
  · exact hs

theorem MemoryOk.seen {w : TileState} {x n rows} (hw : MemoryOk w.s) : MemoryOk (w.seen x n rows).s := by
  unfold TileState.seen
  refine .foldl_tile hw fun w1 l hw1 => ?_
  split
  · exact hw1
  · exact .burnSeen hw1

theorem MemoryOk.burnPut {l x i n ps v row} (hs : MemoryOk s) : MemoryOk (s.burnPut l x i n ps v row).1 := by
  unfold State.burnPut
  split
  · extract_lets t back old new
    have ht : MemoryOk t := .keep hs
    split
    next u e => exact .keep (.of_fst e (.writeRowBits ht))
    next u _ e =>
      have hu : MemoryOk u := .of_fst e (.writeRowBits ht)
      split
      · exact .keep (.sendRemote hu)
      · exact hs
    · exact hs

theorem MemoryOk.burnWrite {l x i n ps v} (hs : MemoryOk s) : MemoryOk (s.burnWrite l x i n ps v).1 := by
  unfold State.burnWrite
  extract_lets bad
  clear_value bad
  split
  · exact hs
  · exact .foldl hs fun _ _ ht => .burnPut ht

theorem MemoryOk.wrote {w : TileState} {a : State × Option Loc} (ha : MemoryOk a.1) : MemoryOk (w.wrote a).s := by
  unfold TileState.wrote
  split <;> exact ha

theorem MemoryOk.put {w : TileState} {l x i img n q v} (hw : MemoryOk w.s) : MemoryOk (w.put l x i img n q v).s := by
  unfold TileState.put
  extract_lets cap
  split
  · exact .wrote (.burnWrite hw)
  · exact .wrote hw

theorem MemoryOk.putScale {w : TileState} {l x i img n q e} (hw : MemoryOk w.s) : MemoryOk (w.putScale l x i img n q e).s := by
  unfold TileState.putScale
  extract_lets cap
  split
  · exact .wrote hw
  · exact .wrote (.burnWrite hw)

theorem MemoryOk.run {w : TileState} {l x i img n px py pz u0 v i3 k} (hw : MemoryOk w.s) :
    MemoryOk (w.run l x i img n px py pz u0 v i3 k).s := by
  unfold TileState.run
  split
  · extract_lets w1 w2
    have hw1 : MemoryOk w1.s := .foldl_tile (.seen hw) fun _ _ hw3 => .put hw3
    have hw2 : MemoryOk w2.s := by
      unfold w2
      split
      · split
        · exact .putScale hw1
        · exact hw1
      · exact hw1
    split <;> exact hw2

theorem MemoryOk.unrecTile {l i} (hs : MemoryOk s) : MemoryOk (s.unrecTile l i) := .updLaunch hs

theorem MemoryOk.logLost {x i r} (hs : MemoryOk s) : MemoryOk (s.logLost x i r) := by
  unfold State.logLost
  split
  · exact .keep (.logRecord (.asFront hs))

theorem MemoryOk.burnTile {l x outs i} (hs : MemoryOk s) : MemoryOk (s.burnTile l x outs i) := by
  unfold State.burnTile
  split
  · extract_lets n w s1
    have hw : MemoryOk w.s := .foldl_tile hs fun _ _ hw1 => .foldl_tile hw1 fun _ _ hw2 => .run hw2
    have hs1 : MemoryOk s1 := .ite (.unrecTile hw) hw
    split
    · exact .logLost hs1
    · exact hs1

theorem MemoryOk.shadowTile {l x outs i} (hs : MemoryOk s) : MemoryOk (s.shadowTile l x outs i) := by
  unfold State.shadowTile
  split
  · exact .updLaunch (.seen hs)

theorem MemoryOk.tileDone {l i} (hs : MemoryOk s) : MemoryOk (s.tileDone l i) := .updLaunch hs

theorem ResultOk.execBurnish {l} (hs : MemoryOk s) : ResultOk (execBurnish l s) := by
  unfold Machine.execBurnish
  split
  · exact .next hs
  · split
    · exact .next hs
    · extract_lets outs
      split
      · extract_lets wr
        split
        next t e => exact .next (.of_fst e (.tileReady hs))
        next t e =>
          have ht : MemoryOk t := .of_fst e (.tileReady hs)
          exact .next (.tileDone (.ite (.burnTile ht) (.shadowTile ht)))
      · exact .ite (.next hs) (.next (.updLaunch hs))

/-! ## Machine/Images -/

theorem MemoryOk.putSegment {at_ d poison} (hs : MemoryOk s) : MemoryOk (s.putSegment at_ d poison) :=
  .putRange (.foldl (.zeroRange hs) fun _ _ ht => .putRange ht)

theorem MemoryOk.putSection {ctx kind idx at_ n} (hs : MemoryOk s) : MemoryOk (s.putSection ctx kind idx at_ n) := by
  unfold State.putSection
  split
  · exact .foldl (.putHeader hs) fun _ _ ht => .ite (.putBank ht) ht
  · split
    · exact .putSegment hs
    · exact hs
  · extract_lets x c bitmap s1 s2
    have hs1 : MemoryOk s1 := .putRange (.zeroRange hs)
    have hs2 : MemoryOk s2 := .ite hs1 (.putRange hs1)
    exact .ite (.putRange hs2) hs2
  · exact .putRange hs

theorem MemoryOk.putTable {base ctx len l complete time} (hs : MemoryOk s) :
    MemoryOk (s.putTable base ctx len l complete time) := by
  unfold State.putTable
  extract_lets s1
  have hs1 : MemoryOk s1 := .putRange hs
  refine .foldl hs1 fun t x ht => ?_
  split
  · exact .putRange ht

theorem MemoryOk.haltCores {ctx} (hs : MemoryOk s) : MemoryOk (s.haltCores ctx) := by
  unfold State.haltCores
  refine .foldl hs fun t p ht => ?_
  split
  · exact .ite (.setPhys (.stopCore ht)) ht
  · exact ht

theorem ResultOk.execStop (hs : MemoryOk s) : ResultOk (execStop s) := by
  unfold Machine.execStop
  refine .command hs (fun ctx1 t1 ht1 => ?_)
  split
  · exact .setContext ht1
  · extract_lets base t11 u t2
    have ht11 : MemoryOk t11 := .haltCores ht1
    have ht2 : MemoryOk t2 := .setContext ht11
    split
    · split
      · exact .commandDone ht2
      · extract_lets t3 u1 t4
        have ht3 : MemoryOk t3 := .foldl ht2 fun _ _ hu2 => .ite hu2 (.putSection hu2)
        have ht4 : MemoryOk t4 := .setContext ht3
        exact .commandDone (.putTable ht4)

theorem OptionOk.imageStep {ctx} (hs : MemoryOk s) : OptionOk (s.imageStep ctx) := by
  unfold State.imageStep
  extract_lets bank
  clear_value bank
  split
  · exact .some (.getD (.landOne hs) (.forceOff hs))
  · split
    · exact .map fun _ => .saveSegment hs
    · exact .none

theorem ResultOk.execImage (hs : MemoryOk s) : ResultOk (execImage s) := by
  unfold Machine.execImage
  refine .command hs (fun ctx1 t1 ht1 => ?_)
  split
  · split
    next t e =>
      have ht : MemoryOk t := e.subst (motive := OptionOk) (.imageStep ht1)
      exact ht
    · split
      · extract_lets t11 t2 t3
        have ht11 : MemoryOk t11 := .foldl ht1 fun _ _ hu => .putSection hu
        have ht2 : MemoryOk t2 := .putTable ht11
        have ht3 : MemoryOk t3 := .putRange ht2
        exact .commandDone (.keep ht3)
  · exact .commandDone ht1

theorem MemoryOk.installCores {ctx base i} (hs : MemoryOk s) : MemoryOk (s.installCores ctx base i) :=
  .foldl hs fun _ _ ht => .ite (.setCoreAt ht) ht

theorem MemoryOk.installLaunches {i known} (hs : MemoryOk s) : MemoryOk (s.installLaunches i known) := by
  unfold State.installLaunches
  split
  · exact .foldl (.foldl hs fun _ _ ht => .setLaunch ht) fun _ _ ht => .keep ht
  · exact .keep hs

theorem MemoryOk.install {ctx base i known} (hs : MemoryOk s) : MemoryOk (s.install ctx base i known) :=
  .installCores (.setContext (.foldl (.keep (.installLaunches hs)) fun _ _ ht => .setPqueue ht))

theorem MemoryOk.goOn {ctx} (hs : MemoryOk s) : MemoryOk (s.goOn ctx) := .keep hs

theorem MemoryOk.resumeHere {ctx} (hs : MemoryOk s) : MemoryOk (s.resumeHere ctx) := by
  unfold State.resumeHere
  extract_lets x base l t
  have ht : MemoryOk t := .foldl hs fun _ _ ht1 => .setCoreAt ht1
  exact .ite (.commandDone hs) (.commandDone (.serveFree (.setContext (.goOn ht))))

theorem ResultOk.execResume (hs : MemoryOk s) : ResultOk (execResume s) := by
  unfold Machine.execResume
  refine .command hs (fun ctx1 t1 ht1 => ?_)
  extract_lets base
  split
  · exact .resumeHere ht1
  · split
    · exact .commandDone ht1
    · split
      · exact .ite (.commandDone (.serveFree (.install ht1))) (.commandDone ht1)

theorem MemoryOk.endLaunch {l x} (hs : MemoryOk s) : MemoryOk (s.endLaunch l x) := by
  unfold State.endLaunch
  extract_lets y s1
  have hs1 : MemoryOk s1 := by
    unfold s1
    split
    · split
      · exact .writeRecord hs
      · exact hs
    · exact hs
  exact .closeLaunch hs1

theorem ResultOk.execDestroy (hs : MemoryOk s) : ResultOk (execDestroy s) := by
  unfold Machine.execDestroy
  exact .command hs (fun _ _ ht1 => .commandDone (.setContext (.keep (.foldl (.haltCores ht1) fun _ _ hu => .ite (.endLaunch
      hu) hu))))

/-! ## Machine/Debug -/

theorem MemoryOk.dump {ctx ns} (hs : MemoryOk s) : MemoryOk (s.dump ctx ns) := by
  unfold State.dump
  extract_lets base v
  split
  · exact hs
  · split
    extract_lets t1 t2 t3
    have ht1 : MemoryOk t1 := .foldl (.keep hs) fun _ _ ht => .putSection ht
    obtain ⟨hm, -, -⟩ : MemoryOk t3 := .putRange (.putTable ht1)
    exact .of_lists hm hs.2.1 hs.2.2

theorem MemoryOk.stopRecords {ctx n id} (hs : MemoryOk s) : MemoryOk (s.stopRecords ctx n id) :=
  .trace (.foldl hs fun _ _ ht => .trace ht)

theorem MemoryOk.haltCore {ctx n} (hs : MemoryOk s) : MemoryOk (s.haltCore ctx n) := by
  unfold State.haltCore
  extract_lets s1 u s2
  have hs1 : MemoryOk s1 := .ite (.stopCore hs) hs
  have hs2 : MemoryOk s2 := .setCoreAt hs1
  split
  · exact .ite (.setPhys hs2) hs2
  · exact hs2

theorem MemoryOk.debugStop {ctx ns} (hs : MemoryOk s) : MemoryOk (s.debugStop ctx ns) := by
  unfold State.debugStop
  extract_lets l s1 u s2 id u1 s3
  have hs1 : MemoryOk s1 := .foldl hs fun _ _ ht => .haltCore ht
  have hs2 : MemoryOk s2 := .ite (.setContext hs1) hs1
  have hs3 : MemoryOk s3 := .keep hs2
  exact .ite hs (.dump (.foldl hs3 fun _ _ ht => .stopRecords ht))

theorem ResultOk.execBreakpointMatch {n src} (hs : MemoryOk s) : ResultOk (execBreakpointMatch n src s) := by
  unfold Machine.execBreakpointMatch
  split
  · exact .next hs
  next t e =>
    have ht : MemoryOk t := e.subst (motive := OptionOk) (.actor hs)
    split
    · exact .ite (.next (.debugStop hs)) (.next hs)
    · exact .ite (.next (.takeTrap ht)) (.next hs)

theorem MemoryOk.waitSummaries {n c} (hs : MemoryOk s) : MemoryOk (s.waitSummaries n c) := by
  unfold State.waitSummaries
  refine .foldl hs fun t f ht => ?_
  split
  · exact ht
  · exact .trace ht

theorem ResultOk.execHeadClassSample {n e} (hs : MemoryOk s) : ResultOk (execHeadClassSample n e s) := by
  unfold Machine.execHeadClassSample
  split
  · exact .next hs
  next t e1 =>
    have ht : MemoryOk t := e1.subst (motive := OptionOk) (.actor hs)
    extract_lets q d v u
    have hu : MemoryOk u := .trace (.upd ht)
    exact .ite (.next hs) (.next (.ite (.waitSummaries hu) hu))

theorem MemoryOk.countGroup {g} (hs : MemoryOk s) : MemoryOk (s.countGroup g) := .ite (.trace (.keep hs)) (.keep hs)

theorem ResultOk.execBankConflictSample {n e pq rows} (hs : MemoryOk s) : ResultOk (execBankConflictSample n e pq rows s) := by
  unfold Machine.execBankConflictSample
  extract_lets is rest u
  split
  · exact .next hs
  · exact .next (.countGroup (.keep hs))

/-! ## Machine/House -/

theorem MemoryOk.journalize {step outcome} (hs : MemoryOk s) : MemoryOk (s.journalize step outcome) := .keep hs

theorem ResultOk.execBootStep {id outcome writesRemap} (hs : MemoryOk s) :
    ResultOk (execBootStep id outcome writesRemap s) := by
  unfold Machine.execBootStep
  extract_lets allowed s1 s2
  have hs1 : MemoryOk s1 := .journalize hs
  have hs2 : MemoryOk s2 := .ite (.event (.keep hs1)) hs1
  exact .ite (.next hs) (.ite (.next (.keep hs2)) (.next hs2))

theorem MemoryOk.setClock {k} (hs : MemoryOk s) : MemoryOk (s.setClock k) := .keep hs

theorem ResultOk.execThrottle {junction stack} (hs : MemoryOk s) : ResultOk (execThrottle junction stack s) := by
  unfold Machine.execThrottle
  split <;> exact .ite (.next (.setClock hs)) (.next hs)

theorem ResultOk.execPowerUp {alwaysOnLost} (hs : MemoryOk s) : ResultOk (execPowerUp alwaysOnLost s) := by
  obtain ⟨hm, hv, hr⟩ := hs
  exact .next (.of_lists (SMap.wfFrom_filter blankByte _ hm) rfl rfl)

theorem ResultOk.execPackageReset (hs : MemoryOk s) : ResultOk (execPackageReset s) := by
  obtain ⟨hm, hv, hr⟩ := hs
  exact .next (.of_lists hm rfl rfl)

theorem MemoryOk.pauseQueues {b} (hs : MemoryOk s) : MemoryOk (s.pauseQueues b) := .keep hs

theorem wf_putRecords {m : List Host.Cell} (a : Nat) (l : List StateRecord) (hm : Memory.wf m = true) :
    Memory.wf (putRecords m a l) = true := by
  induction l generalizing m a with
  | nil => exact wf_writeNat a 8 0 hm
  | cons r l ih => exact ih _ (wf_writeNat _ _ _ (wf_writeNat _ _ _ hm))

theorem MemoryOk.writePositions {k} (hs : MemoryOk s) : MemoryOk (s.writePositions k) := by
  unfold State.writePositions
  dsimp only
  split
  · exact hs
  · obtain ⟨hm, hv, hr⟩ := hs
    exact .of_lists hm hv (wf_putRecords _ _ hr)

theorem ResultOk.execLiveUpdate {stage} (hs : MemoryOk s) : ResultOk (execLiveUpdate stage s) := by
  unfold Machine.execLiveUpdate
  extract_lets a b old new put csr base
  split
  · exact .ite (.next hs) (.next (.writePositions (.pauseQueues (.keep hs))))
  · split
    · exact .next hs
    · split
      · exact .next (.pauseQueues (.keep hs))
      · exact .next (.pauseQueues (.keep (.keep hs)))

theorem MemoryOk.rehouse {a a1} (hs : MemoryOk s) : MemoryOk (s.rehouse a a1).1 := by
  induction a generalizing s a1 with
  | nil =>
    rw [State.rehouse]
    exact hs
  | cons k xs ih =>
    rw [State.rehouse]
    exact ih (.keep hs)

theorem MemoryOk.forget {x n ls} (hs : MemoryOk s) : MemoryOk (s.forget x n ls) := by
  unfold State.forget
  split
  · exact hs
  · split
    · exact hs
    · exact .keep hs

theorem MemoryOk.rewind {l n x} (hs : MemoryOk s) : MemoryOk (s.rewind l n x) := by
  unfold State.rewind
  extract_lets ls
  split
  · exact .forget (.setLaunch hs)

theorem MemoryOk.passEmpty {l n x a a1} (hs : MemoryOk s) : MemoryOk (s.passEmpty l n x a a1) := by
  induction a generalizing s a1 with
  | zero =>
    rw [State.passEmpty]
    exact hs
  | succ k ih =>
    rw [State.passEmpty]
    split
    · exact hs
    · extract_lets i
      split
      next s1 _ e => exact ih (.noTask (.of_fst e (.lookAt hs)))

theorem MemoryOk.abandon {l n x} (hs : MemoryOk s) : MemoryOk (s.abandon l n x) := .updLaunch (.passEmpty hs)

theorem MemoryOk.restartCore {ctx n} (hs : MemoryOk s) : MemoryOk (s.restartCore ctx n) := by
  unfold State.restartCore
  extract_lets shadow all s1 again keep
  have hs1 : MemoryOk s1 := by
    refine .foldl hs fun t l ht => ?_
    split
    · exact .ite (.abandon ht) (.ite (.rewind ht) ht)
    · exact ht
  clear_value again
  split
  · exact .setCoreAt hs1
  · split
    · exact .setCoreAt hs1
    · exact .setCoreAt (.foldl hs1 fun _ _ ht => .updLaunch ht)

theorem MemoryOk.rebuildSeg {k g} (hs : MemoryOk s) : MemoryOk (s.rebuildSeg k g) := by
  unfold State.rebuildSeg
  split
  · obtain ⟨hm, hv, hr⟩ := hs
    exact .of_lists hm (wf_clearSegment _ hv) hr
  · exact .keep hs

theorem MemoryOk.rebuildSegs {qs} (hs : MemoryOk s) : MemoryOk (s.rebuildSegs qs) := by
  unfold State.rebuildSegs
  extract_lets moved freed
  have hfreed : MemoryOk freed := .keep hs
  refine .foldl hfreed fun t k ht => ?_
  split
  · exact .ite (.rebuildSeg ht) ht
  · exact ht

theorem MemoryOk.dropWork {ns} (hs : MemoryOk s) : MemoryOk (s.dropWork ns) :=
  .foldl (.keep hs) fun _ _ ht => .keep (.sendRemote (.keep ht))

theorem MemoryOk.fenceLaunches {d} (hs : MemoryOk s) : MemoryOk (s.fenceLaunches d) := .keep hs

theorem ResultOk.execDieFence {d} (hs : MemoryOk s) : ResultOk (execDieFence d s) := by
  unfold Machine.execDieFence
  extract_lets fenced qs ns s1
  have hs1 : MemoryOk s1 := .keep hs
  split
  · exact .next hs
  · split
    next s2 _ e =>
      have hs2 : MemoryOk s2 := .of_fst e (.rehouse hs1)
      extract_lets s3 s4 ctxs s5 s6 m
      have hs3 : MemoryOk s3 := .keep hs2
      have hs4 : MemoryOk s4 := .fenceLaunches hs3
      have hs5 : MemoryOk s5 := .foldl (.dropWork hs4) fun _ _ ht => .restartCore ht
      have hs6 : MemoryOk s6 := .rebuildSegs hs5
      exact .next (.keep hs6)

/-! ## Machine/Fabric -/

theorem MemoryOk.setPort {p x} (hs : MemoryOk s) : MemoryOk (s.setPort p x) := .keep hs

theorem ResultOk.execPtpMessage {p kind stamp} (hs : MemoryOk s) : ResultOk (execPtpMessage p kind stamp s) := by
  unfold Machine.execPtpMessage
  extract_lets g
  split
  · exact .next hs
  · split
    · exact .next (.keep hs)
    · exact .next (.keep hs)
    · exact .next (.keep hs)
    · exact .next hs
    · exact .next hs

theorem MemoryOk.asCore {ctx n f} (hs : MemoryOk s) (hf : ∀ (a : State), MemoryOk a → MemoryOk (f a)) :
    MemoryOk (s.asCore ctx n f) :=
  .keep (hf _ (.keep hs))

theorem MemoryOk.tagFault {t code} (hs : MemoryOk s) : MemoryOk (s.tagFault t code) := by
  unfold State.tagFault
  split
  · exact .engineFault hs
  · exact hs

theorem MemoryOk.tagOverlap {t record} (hs : MemoryOk s) : MemoryOk (s.tagOverlap t record) := by
  unfold State.tagOverlap
  split
  · exact .footFault hs
  · exact hs

theorem MemoryOk.answerLoad {r stamp st data} (hs : MemoryOk s) : MemoryOk (s.answerLoad r stamp st data) := by
  unfold State.answerLoad
  split
  · split
    · exact .upd hs
    · exact hs
  · split
    · exact hs
    · split
      · exact .loadResult (.ite (.logPoison hs) hs)
      · exact hs

theorem MemoryOk.answerAtomic {r d bounded st data} (hs : MemoryOk s) : MemoryOk (s.answerAtomic r d bounded st data) := by
  unfold State.answerAtomic
  extract_lets lost finish
  split
  · exact hs
  · split
    · exact .setResid (.upd hs)
    · exact .setResid (.upd (.logPoison hs))
    · exact .setResid (.upd hs)
    · exact .setResid (.upd hs)

theorem MemoryOk.answerFao {r d left st data} (hs : MemoryOk s) : MemoryOk (s.answerFao r d left st data) := by
  unfold State.answerFao
  split
  · split
    · extract_lets k s1 s2
      have hs1 : MemoryOk s1 := .ite (.logPoison hs) hs
      have hs2 : MemoryOk s2 := .upd (.keep hs1)
      exact .ite (.orderedKey hs2) hs2
  · exact hs

theorem MemoryOk.answerWrite {r tag st data} (hs : MemoryOk s) : MemoryOk (s.answerWrite r tag st data) := by
  unfold State.answerWrite
  split
  · exact .tagFault hs
  · exact .tagOverlap hs
  · exact .upd (.logPoison hs)
  · exact .upd hs

theorem MemoryOk.answerClaim {r tag st data} (hs : MemoryOk s) : MemoryOk (s.answerClaim r tag st data) := by
  unfold State.answerClaim
  split
  · exact .ite (.tagOverlap hs) (.upd hs)
  · exact hs

theorem MemoryOk.dropRemote {id} (hs : MemoryOk s) : MemoryOk (s.dropRemote id) := .keep (.keep hs)

theorem MemoryOk.answerFront {q idx k st data} (hs : MemoryOk s) : MemoryOk (s.answerFront q idx k st data) := .updPacket hs

theorem MemoryOk.answerBurn {r l tile st data} (hs : MemoryOk s) : MemoryOk (s.answerBurn r l tile st data) := by
  unfold State.answerBurn
  split
  · exact .updLaunch hs
  · exact .ite hs (.ite (.unrecTile hs) (.logLost (.unrecTile hs)))
  · exact hs

theorem MemoryOk.answered {r st data} (hs : MemoryOk s) : MemoryOk (s.answered r st data) := by
  unfold State.answered
  split
  · exact .asCore hs (fun _ ht1 => .answerLoad ht1)
  · exact .asCore hs (fun _ ht1 => .ite ht1 (.setResid ht1))
  · exact .asCore hs (fun _ ht1 => .answerAtomic ht1)
  · exact .asCore hs (fun _ ht1 => .answerFao ht1)
  · exact .asCore hs (fun _ ht1 => .upd ht1)
  · exact .asCore hs (fun _ ht1 => .answerWrite ht1)
  · exact .asCore hs (fun _ ht1 => .answerClaim ht1)
  · exact .answerFront hs
  · exact hs
  · exact .answerBurn hs
  · exact .ite hs (.dropRecord hs)

theorem ResultOk.execRemoteResponse {id st data} (hs : MemoryOk s) : ResultOk (execRemoteResponse id st data s) := by
  unfold Machine.execRemoteResponse
  split
  · exact .next hs
  · exact .ite (.next hs) (.next (.answered (.dropRemote hs)))

theorem MemoryOk.deferRemote {r} (hs : MemoryOk s) : MemoryOk (s.deferRemote r) := .defer hs

theorem MemoryOk.timedOut {r} (hs : MemoryOk s) : MemoryOk (s.timedOut r) := by
  unfold State.timedOut
  split
  · exact .asCore hs (fun _ ht1 => .deferRemote (.answerLoad ht1))
  · exact .asCore hs (fun _ ht1 => .deferRemote ht1)
  · exact .asCore hs (fun _ ht1 => .deferRemote (.answerAtomic ht1))
  · exact .asCore hs (fun _ ht1 => .deferRemote (.answerFao ht1))
  · exact .asCore hs (fun _ ht1 => .tagFault ht1)
  · exact .asCore hs (fun _ ht1 => .tagFault ht1)
  · refine .asCore hs (fun t1 ht1 => ?_)
    split
    · exact .tagFault ht1
    · exact ht1
  · exact .answerFront hs
  · exact hs
  · exact .answerBurn hs
  · exact .dropRecord hs

theorem MemoryOk.endRemote {r} (hs : MemoryOk s) : MemoryOk (s.endRemote r) := .timedOut (.dropRemote hs)

theorem ResultOk.execRemoteTimeout {id} (hs : MemoryOk s) : ResultOk (execRemoteTimeout id s) := by
  unfold Machine.execRemoteTimeout
  split
  · exact .next hs
  · exact .ite (.next (.endRemote hs)) (.next hs)

theorem MemoryOk.reply {pkg st data} (hs : MemoryOk s) : MemoryOk (s.reply pkg st data) := .keep hs

theorem MemoryOk.homeSpot {va wr} (hs : MemoryOk s) : MemoryOk (s.homeSpot va wr).1 := by
  unfold State.homeSpot
  split
  next s1 _ e => exact .of_fst e (.resolve hs)
  next s1 e => exact .of_fst e (.resolve hs)
  next s1 _ _ _ e => exact .of_fst e (.resolve hs)

theorem MemoryOk.homeClaim {pkg va k core seq} (hs : MemoryOk s) : MemoryOk (s.homeClaim pkg va k core seq) := by
  unfold State.homeClaim
  extract_lets lo u c
  split
  · exact .reply hs
  · exact .ite (.keep hs) (.reply (.keep hs))

theorem MemoryOk.retryClaims (hs : MemoryOk s) : MemoryOk s.retryClaims := .foldl hs fun _ _ ht => .homeClaim (.keep ht)

theorem MemoryOk.homeRelease {pkg core seq} (hs : MemoryOk s) : MemoryOk (s.homeRelease pkg core seq) := .reply (.keep hs)

theorem MemoryOk.collect {pkg rec_} (hs : MemoryOk s) : MemoryOk (s.collect pkg rec_) :=
  .ite (.reply hs) (.reply (.keepRecord hs))

theorem MemoryOk.homeClaimFao {pkg va el a b lost} (hs : MemoryOk s) : MemoryOk (s.homeClaimFao pkg va el a b lost) :=
  .contribute hs

theorem MemoryOk.homeOp {pkg va op} (hs : MemoryOk s) : MemoryOk (s.homeOp pkg va op) := by
  unfold State.homeOp
  split
  · split
    next s1 _ e =>
      have hs1 : MemoryOk s1 := .of_fst e (.homeSpot hs)
      exact .ite (.reply hs1) (.reply hs1)
    next s1 _ e => exact .reply (.of_fst e (.homeSpot hs))
  · split
    next s1 _ e => exact .reply (.writeRowAt (.of_fst e (.homeSpot hs)))
    next s1 _ e => exact .reply (.of_fst e (.homeSpot hs))
  · extract_lets n
    split
    next s1 _ e =>
      have hs1 : MemoryOk s1 := .of_fst e (.homeSpot hs)
      exact .ite (.homeClaimFao hs1) (.reply hs1)
    next s1 _ e =>
      have hs1 : MemoryOk s1 := .of_fst e (.homeSpot hs)
      split
      · exact .reply hs1
      · split
        · exact .homeClaimFao hs1
        · split
          · exact .reply hs1
          · split
            next s11 _ e1 => exact .reply (.of_fst e1 (.atomicAt hs1))
  · exact .homeClaim hs
  · exact .homeRelease hs
  · exact .collect hs
  · exact .contribute hs

theorem ResultOk.execRemoteRequest {pkg gang va op} (hs : MemoryOk s) : ResultOk (execRemoteRequest pkg gang va op s) := by
  unfold Machine.execRemoteRequest
  extract_lets g
  split
  · exact .next hs
  · split
    · exact .next (.collect hs)
    · exact .next (.homeOp hs)
    · exact .next hs

theorem ResultOk.execPodBarrierArrival {pkg launch id gen} (hs : MemoryOk s) :
    ResultOk (execPodBarrierArrival pkg launch id gen s) := by
  unfold Machine.execPodBarrierArrival
  extract_lets g
  split
  · exact .next hs
  · split
    · exact .next hs
    · exact .ite (.next hs) (.next (.setBarrier hs))

theorem MemoryOk.endPod {k b} (hs : MemoryOk s) : MemoryOk (s.endPod k b) := by
  unfold State.endPod
  split
  · exact hs
  · split
    · exact hs
    · exact .keep (.foldl hs fun _ _ ht => .asCore ht (fun _ hu1 => .upd (.defer hu1)))

theorem MemoryOk.fencePackage {pkg} (hs : MemoryOk s) : MemoryOk (s.fencePackage pkg) :=
  .foldl (.foldl (.keep hs) fun _ _ ht => .endRemote ht) fun _ _ ht => .endPod ht

/-! ## Machine/Gate -/

theorem ResultOk.execCdsp {o x} (hs : MemoryOk s) : ResultOk (execCdsp o x s) := by
  unfold Machine.execCdsp
  split
  · exact .claimCommand hs
  · split
    · exact .wordWait hs
    · extract_lets x0 x1
      split
      · exact .wordFault hs
      · split
        · exact .wordFault hs
        · split
          next t e => exact .wordWait (.of_fst e (.readParts hs (fun _ _ ht1 => .engRow ht1)))
          next t _ e => exact .next (.footFault (.of_fst e (.readParts hs (fun _ _ ht1 => .engRow ht1))))
          next t _ e => exact .wordFault (.of_fst e (.readParts hs (fun _ _ ht1 => .engRow ht1)))
          next t _ _ _ _ e =>
            have ht : MemoryOk t := .of_fst e (.readParts hs (fun _ _ ht1 => .engRow ht1))
            exact .ite (.wordFault ht) (.ite (.wordFault ht) (.acceptCommand (.upd ht)))

theorem MemoryOk.sourceElems {rd x a} (hs : MemoryOk s) (hrd : ReaderOk rd) : MemoryOk (s.sourceElems rd x a).1 := by
  induction a generalizing s with
  | nil =>
    rw [State.sourceElems]
    exact hs
  | cons x1 xs ih =>
    rw [State.sourceElems]
    split
    next s1 _ _ _ e =>
      have hs1 : MemoryOk s1 := .of_fst e (.readSource hs hrd)
      split
      next s2 _ _ _ _ e1 => exact .of_fst e1 (ih hs1)
      · exact ih hs1
    next s1 _ _ e => exact .of_fst e (.readSource hs hrd)

theorem MemoryOk.loadGate {rd x} (hs : MemoryOk s) (hrd : ReaderOk rd) : MemoryOk (s.loadGate rd x).1 := by
  unfold State.loadGate
  extract_lets h g n rows
  split
  · exact hs
  · split
    next s2 _ e =>
      have hs2 : MemoryOk s2 := .of_fst e (.readAll hs hrd)
      split
      · exact hs2
      · exact .keep hs2

theorem MemoryOk.addStatus {x st} (hs : MemoryOk s) : MemoryOk (s.addStatus x st) := .upd hs

theorem MemoryOk.scoreNext {rd x t keep} (hs : MemoryOk s) (hrd : ReaderOk rd) : MemoryOk (s.scoreNext rd x t keep) := by
  unfold State.scoreNext
  split
  next s1 e => exact .of_fst e (.loadGate hs hrd)
  next s1 _ _ e =>
    have hs1 : MemoryOk s1 := .of_fst e (.loadGate hs hrd)
    split
    next s11 _ _ _ _ e1 => exact .upd (.addStatus (.of_fst e1 (.sourceElems hs1 hrd)))
    next s11 _ e1 => exact .of_fst e1 (.sourceElems hs1 hrd)
    next s11 _ _ e1 => exact .copyFault (.of_fst e1 (.sourceElems hs1 hrd))
    next s11 _ _ e1 => exact .copyFoot (.of_fst e1 (.sourceElems hs1 hrd))

theorem MemoryOk.expertEntry {rd x e} (hs : MemoryOk s) (hrd : ReaderOk rd) : MemoryOk (s.expertEntry rd x e).1 := by
  unfold State.expertEntry
  split
  · exact hs
  · split
    next s1 _ e1 => exact .addStatus (.of_fst e1 (.readParts hs hrd))
    · exact .readParts hs hrd

theorem SlotOk.claimSlot {rd x l el} (hs : MemoryOk s) : SlotOk (s.claimSlot rd x l el) := by
  unfold State.claimSlot
  split
  · exact .foot
  · split
    next s0 _ e =>
      have hs0 : MemoryOk s0 := .of_fst e (.resolve hs)
      extract_lets s1 q
      have hs1 : MemoryOk s1 := .correct hs0
      split
      · exact .refused (.logPoison hs1)
      · split
        · split
          · exact .refused hs1
          · exact .granted (.writeRowAt hs1)
    next s1 e => exact .wait (.wantSeg (.of_fst e (.resolve hs)))
    · exact .bounds
    next s1 _ _ _ _ e => exact .refused (.of_fst e (.resolve hs))

theorem MemoryOk.placed {x t rest st rows} (hs : MemoryOk s) : MemoryOk (s.placed x t rest st rows) := .upd hs

theorem MemoryOk.overflow {x t e w rest} (hs : MemoryOk s) : MemoryOk (s.overflow x t e w rest) := by
  unfold State.overflow
  extract_lets ovf
  split
  next s1 e1 =>
    have hs1 : MemoryOk s1 := e1.subst (motive := SlotOk) (.claimSlot hs)
    exact hs1
  · exact .copyFault hs
  · exact .copyFoot hs
  next s1 e1 =>
    have hs1 : MemoryOk s1 := e1.subst (motive := SlotOk) (.claimSlot hs)
    exact .copyFault hs1
  next s1 _ e1 =>
    have hs1 : MemoryOk s1 := e1.subst (motive := SlotOk) (.claimSlot hs)
    exact .placed hs1

theorem MemoryOk.putToken {rd x t e w entry g rest} (hs : MemoryOk s) (hrd : ReaderOk rd) :
    MemoryOk (s.putToken rd x t e w entry g rest) := by
  unfold State.putToken
  split
  next s1 _ _ _ _ e1 => exact .placed (.of_fst e1 (.sourceElems hs hrd))
  next s1 _ _ e1 => exact .copyFault (.of_fst e1 (.sourceElems hs hrd))
  next s1 _ _ e1 => exact .copyFoot (.of_fst e1 (.sourceElems hs hrd))
  next s1 _ _ _ _ _ e1 => exact .of_fst e1 (.sourceElems hs hrd)

theorem TokenReadyOk.tokenReady {rd x t e} (hs : MemoryOk s) (hrd : ReaderOk rd) : TokenReadyOk (s.tokenReady rd x t e) := by
  unfold State.tokenReady
  split
  next s1 _ _ _ _ e1 =>
    have hs1 : MemoryOk s1 := .of_fst e1 (.sourceElems hs hrd)
    split
    next s2 _ e2 =>
      have hs2 : MemoryOk s2 := .of_fst e2 (.expertEntry hs1 hrd)
      split
      · exact .stop hs2
      · exact .ok hs2
    next s2 _ e2 => exact .stop (.copyFault (.of_fst e2 (.expertEntry hs1 hrd)))
    next s2 _ e2 => exact .stop (.copyFoot (.of_fst e2 (.expertEntry hs1 hrd)))
    next s2 _ _ _ _ e2 => exact .stop (.of_fst e2 (.expertEntry hs1 hrd))
  next s1 _ _ e1 => exact .stop (.copyFault (.of_fst e1 (.sourceElems hs hrd)))
  next s1 _ _ e1 => exact .stop (.copyFoot (.of_fst e1 (.sourceElems hs hrd)))
  next s1 _ e1 => exact .stop (.of_fst e1 (.sourceElems hs hrd))

theorem MemoryOk.placeFree {rd x t e w rest} (hs : MemoryOk s) (hrd : ReaderOk rd) :
    MemoryOk (s.placeFree rd x t e w rest) := by
  unfold State.placeFree
  split
  next s1 e1 =>
    have hs1 : MemoryOk s1 := e1.subst (motive := TokenReadyOk) (.tokenReady hs hrd)
    exact hs1
  next s1 _ e1 =>
    have hs1 : MemoryOk s1 := e1.subst (motive := TokenReadyOk) (.tokenReady hs hrd)
    split
    next s11 e2 =>
      have hs11 : MemoryOk s11 := e2.subst (motive := SlotOk) (.claimSlot hs1)
      exact hs11
    · exact .copyFault hs1
    · exact .copyFoot hs1
    next s11 e2 =>
      have hs11 : MemoryOk s11 := e2.subst (motive := SlotOk) (.claimSlot hs1)
      exact .overflow hs11
    next s11 _ e2 =>
      have hs11 : MemoryOk s11 := e2.subst (motive := SlotOk) (.claimSlot hs1)
      exact .putToken hs11 hrd

theorem MemoryOk.sendBatch {x e entry} (hs : MemoryOk s) : MemoryOk (s.sendBatch x e entry) := by
  unfold State.sendBatch
  split
  · exact .upd (.contribute hs)

theorem MemoryOk.batchNext {rd x} (hs : MemoryOk s) (hrd : ReaderOk rd) : MemoryOk (s.batchNext rd x) := by
  unfold State.batchNext
  extract_lets e
  split
  next s2 _ e1 =>
    have hs2 : MemoryOk s2 := .of_fst e1 (.expertEntry hs hrd)
    split
    · exact .copyFoot hs2
    · exact .sendBatch hs2
  next s2 _ e1 => exact .copyFault (.of_fst e1 (.expertEntry hs hrd))
  next s2 _ e1 => exact .copyFoot (.of_fst e1 (.expertEntry hs hrd))
  next s2 _ _ _ _ e1 => exact .of_fst e1 (.expertEntry hs hrd)

theorem MemoryOk.takeGrants {x} (hs : MemoryOk s) : MemoryOk (s.takeGrants x) := .upd (.keep hs)

theorem MemoryOk.placeGranted {rd x t e w rest} (hs : MemoryOk s) (hrd : ReaderOk rd) :
    MemoryOk (s.placeGranted rd x t e w rest) := by
  unfold State.placeGranted
  split
  next s1 e1 =>
    have hs1 : MemoryOk s1 := e1.subst (motive := TokenReadyOk) (.tokenReady hs hrd)
    exact hs1
  next s1 _ e1 =>
    have hs1 : MemoryOk s1 := e1.subst (motive := TokenReadyOk) (.tokenReady hs hrd)
    split
    · exact .ite (.overflow hs1) (.putToken (.upd hs1) hrd)

theorem MemoryOk.dispatchDet {rd x} (hs : MemoryOk s) (hrd : ReaderOk rd) : MemoryOk (s.dispatchDet rd x) := by
  unfold State.dispatchDet
  split
  · exact .ite (.scoreNext hs hrd) (.batchNext hs hrd)
  · split
    · exact hs
    · split
      · exact .takeGrants hs
      · split
        · exact .placeGranted hs hrd
        · exact hs

theorem MemoryOk.dispatch {x i} (hs : MemoryOk s) : MemoryOk (s.dispatch x i) := by
  unfold State.dispatch
  extract_lets r rd
  split
  · exact .writePend hs
  · split
    · exact .dispatchDet hs (fun _ _ ht => .copyReader ht)
    · split
      · exact .placeFree hs (fun _ _ ht => .copyReader ht)
      · exact .scoreNext hs (fun _ _ ht => .copyReader ht)

theorem ResultOk.execRowTransfer {n k pos} (hs : MemoryOk s) : ResultOk (execRowTransfer n k pos s) := by
  unfold Machine.execRowTransfer
  split
  · exact .next hs
  · extract_lets s1
    have hs1 : MemoryOk s1 := .keep hs
    split
    · exact .next hs
    · exact .ite (.next hs) (.ite (.next (.ite hs1 (.dispatch hs1))) (.next (.moveAt hs1)))

/-! ## Machine/Insert -/

theorem ResultOk.waitInsert {target e} (hs : MemoryOk s) : ResultOk (s.waitInsert target e) := by
  unfold State.waitInsert
  split <;> exact .wait hs

theorem MemoryOk.insertOwn {e x} (hs : MemoryOk s) : MemoryOk (s.insertOwn e x) := by
  unfold State.insertOwn
  extract_lets s1 q
  have hs1 : MemoryOk s1 := .accept hs
  split
  · exact .noteEntry hs1
  · exact hs1

theorem ResultOk.insert {e x bytes} (hs : MemoryOk s) : ResultOk (s.insert e x bytes) :=
  .ite (.wait hs) (.ite (.waitInsert hs) (.done (.insertOwn hs)))

theorem ResultOk.execFork {k a b c} (hs : MemoryOk s) : ResultOk (execFork k a b c s) := by
  unfold Machine.execFork
  extract_lets named need s1 s2
  have hs1 : MemoryOk s1 := .upd hs
  have hs2 : MemoryOk s2 := .foldl hs1 fun _ _ ht => .insertOwn ht
  split
  · exact .wait hs
  · split
    · exact .wait hs
    · split
      · exact .waitInsert hs
      · exact .ite (.waitInsert hs) (.done hs2)

theorem MemoryOk.paramBlock {va} (hs : MemoryOk s) : MemoryOk (s.paramBlock va).1 := .readLoc hs

theorem ResultOk.execEnqs {a b e} (hs : MemoryOk s) : ResultOk (execEnqs a b e s) := by
  unfold Machine.execEnqs
  split
  · exact .illegal hs
  · extract_lets eng row va
    split
    · exact .wait hs
    · split
      · exact .waitInsert hs
      · split
        · exact .wait hs
        · split
          · exact .done (.insertOwn hs)
          · split
            next r e1 =>
              have hr : ResultOk r := e1.subst (motive := RowWaitOk) (.settleRow (.paramBlock hs))
              exact hr
            next s1 _ e1 =>
              have hs1 : MemoryOk s1 := e1.subst (motive := RowWaitOk) (.settleRow (.paramBlock hs))
              exact .done (.insertOwn (.ite (.setResid hs1) (.residOf hs1)))

theorem ResultOk.execRenq {a b e} (hs : MemoryOk s) : ResultOk (execRenq a b e s) := by
  unfold Machine.execRenq
  split
  · exact .illegal hs
  · extract_lets eng target x y
    split
    · exact .trap hs
    · exact .ite (.wait hs) (.ite (.waitInsert hs) (.done (.acceptFor (.noteLive hs))))

theorem ResultOk.execPgreq {d a f} (hs : MemoryOk s) : ResultOk (execPgreq d a f s) := by
  unfold Machine.execPgreq
  extract_lets count s1 x va r rec_ s11 s2
  have hs1 : MemoryOk s1 := .noteLive hs
  have hs11 : MemoryOk s11 := .setContext hs1
  have hs2 : MemoryOk s2 := .putPhys hs11
  split
  · split
    · exact .done (.setCore hs1)
    · exact .trap hs1
  · exact .ite (.wait hs1) (.done (.event hs2))

/-! ## Machine/Scalar -/

theorem ResultOk.opr {d a b f} (hs : MemoryOk s) : ResultOk (s.opr d a b f) := .writeReg hs

theorem ResultOk.opu {d a f} (hs : MemoryOk s) : ResultOk (s.opu d a f) := .writeReg hs

theorem ResultOk.branchIf {a b o p} (hs : MemoryOk s) : ResultOk (s.branchIf a b o p) := .branch hs

theorem ResultOk.branchMask {i k w o p} (hs : MemoryOk s) : ResultOk (s.branchMask i k w o p) :=
  .ite (.branch hs) (.illegal hs)

/-! ## Machine/Sequencer -/

theorem ResultOk.onEngine {n e f} (hs : MemoryOk s) (hf : ∀ (a : State), MemoryOk a → ResultOk (f a)) :
    ResultOk (s.onEngine n e f) := by
  unfold State.onEngine
  split
  · exact .next hs
  · exact hf _ (.keep hs)

theorem ResultOk.execEntryWaitSatisfied {n e} (hs : MemoryOk s) : ResultOk (execEntryWaitSatisfied n e s) := by
  unfold Machine.execEntryWaitSatisfied
  refine .onEngine hs (fun s1 hs1 => ?_)
  split
  · exact .next hs1
  · split
    · split
      · exact .next (.setCore hs1)
      · exact .next hs1
    · split
      · extract_lets b
        split
        · exact .next (.setAct (.setCore hs1))
        · exact .next (.setAct hs1)
      · exact .next hs1

theorem MemoryOk.readSlots {r addr a} (hs : MemoryOk s) : MemoryOk (s.readSlots r addr a).1 := by
  induction a generalizing s addr with
  | zero =>
    rw [State.readSlots]
    exact hs
  | succ k ih =>
    rw [State.readSlots]
    split
    next s1 _ e =>
      have hs1 : MemoryOk s1 := .of_fst e (.readLoc hs)
      split
      · exact hs1
      · split
        next s2 _ e1 => exact .of_fst e1 (ih hs1)
        · exact ih hs1

theorem ResultOk.execBlockEntry {n e} (hs : MemoryOk s) : ResultOk (execBlockEntry n e s) := by
  unfold Machine.execBlockEntry
  refine .onEngine hs (fun s1 hs1 => ?_)
  extract_lets a start
  split
  · extract_lets base
    split
    · simp only [start]
      split
      · exact .wordFault hs1
      · split
        · exact .wordFault hs1
        · split
          · exact .next (.setAct hs1)
          · exact .wordFault hs1
    · split
      · exact .wordWait hs1
      next u _ _ e1 => exact .wordFault (.of_fst e1 (.readSlots hs1))
      next u _ e1 =>
        have hu : MemoryOk u := .of_fst e1 (.readSlots hs1)
        split
        · exact .wordWait hs1
        next u1 _ _ e2 => exact .wordFault (.of_fst e2 (.readSlots hu))
        next u1 _ e2 =>
          have hu1 : MemoryOk u1 := .of_fst e2 (.readSlots hu)
          simp only [start]
          split
          · exact .wordFault hu1
          · split
            · exact .wordFault hu1
            · split
              · exact .next (.setAct hu1)
              · exact .wordFault hu1
  · exact .next hs1

theorem ResultOk.execNullEntry {n e} (hs : MemoryOk s) : ResultOk (execNullEntry n e s) := by
  unfold Machine.execNullEntry
  refine .onEngine hs (fun s1 hs1 => ?_)
  split
  · split
    · exact .next (.setQ hs1)
    · exact .next hs1
  · exact .next hs1

theorem ResultOk.execProgramRowFetch {n e} (hs : MemoryOk s) : ResultOk (execProgramRowFetch n e s) := by
  unfold Machine.execProgramRowFetch
  refine .onEngine hs (fun s1 hs1 => ?_)
  extract_lets a
  split
  · split
    next s11 _ e1 =>
      have hs11 : MemoryOk s11 := .of_fst e1 (.readLoc hs1)
      split
      · exact .next hs1
      · exact .ite (.wordFault hs11) (.next (.setAct hs11))
      · exact .wordFault hs11
  · exact .next hs1

theorem ResultOk.execEntryComplete {n e k} (hs : MemoryOk s) : ResultOk (execEntryComplete n e k s) := by
  unfold Machine.execEntryComplete
  refine .onEngine hs (fun s1 hs1 => ?_)
  split
  · exact .next hs1
  · split
    · exact .next hs1
    · extract_lets s11 done
      have hs11 : MemoryOk s11 := .upd hs1
      split
      · exact .next (.engineFault hs11)
      · extract_lets s2 u s3
        have hs2 : MemoryOk s2 := .setCore hs11
        have hs3 : MemoryOk s3 := .upd (.setQ hs2)
        exact .next (.ite (.releaseClaims hs3) hs3)

theorem ResultOk.execSaddlebagReturn {n e} (hs : MemoryOk s) : ResultOk (execSaddlebagReturn n e s) := by
  unfold Machine.execSaddlebagReturn
  refine .onEngine hs (fun s1 hs1 => ?_)
  split
  · exact .next (.setQ hs1)
  · exact .next hs1

theorem ResultOk.seqDone {sc} (hs : MemoryOk s) : ResultOk (s.seqDone sc) := .wordDone hs

theorem ResultOk.seqNow {sc} (hs : MemoryOk s) : ResultOk (s.seqNow sc) := .wordDone hs

theorem ResultOk.execSwait {f sc} (hs : MemoryOk s) : ResultOk (execSwait f sc s) := by
  unfold Machine.execSwait
  split
  · exact .seqNow hs
  · split
    · exact .seqNow (.setCore hs)
    · exact .wordWait hs

theorem ResultOk.execSsig {f sc} (hs : MemoryOk s) : ResultOk (execSsig f sc s) := by
  unfold Machine.execSsig
  extract_lets s1
  have hs1 : MemoryOk s1 := .landEarlier hs
  split
  · exact .wordWait hs1
  · split
    · exact .seqNow (.setCore hs1)
    · exact .wordFault hs1

theorem ResultOk.execSloop {src n sc} (hs : MemoryOk s) : ResultOk (execSloop src n sc s) :=
  .ite (.illegalWord hs) (.ite (.seqDone (.setAct hs)) (.seqDone (.setAct hs)))

theorem ResultOk.execSendl {sc} (hs : MemoryOk s) : ResultOk (execSendl sc s) := by
  unfold Machine.execSendl
  extract_lets a t s1 u u1
  have hs1 : MemoryOk s1 := .passTo hs
  split
  · exact .illegalWord hs
  · split
    · exact .illegalWord hs
    · exact .ite (.seqDone (.setAct hs)) (.next (.setQ hs1))

theorem ResultOk.execSpho {k sc} (hs : MemoryOk s) : ResultOk (execSpho k sc s) := by
  unfold Machine.execSpho
  split
  · exact .next hs
  · split
    · exact .wordWait hs
    · exact .ite (.wordFault hs) (.next (.footFault hs))
    · exact .seqDone (.setQ (.keep hs))

theorem ResultOk.execSphc {k sc} (hs : MemoryOk s) : ResultOk (execSphc k sc s) := by
  unfold Machine.execSphc
  split
  · exact .next hs
  · split
    · exact .next (.footFault hs)
    · exact .ite (.wordWait hs) (.ite (.wordFault hs) (.seqDone (.setQ (.keep hs))))

theorem ResultOk.crossEngine {mode sc} (hs : MemoryOk s) : ResultOk (s.crossEngine mode sc) := by
  unfold State.crossEngine
  extract_lets s1 a who
  have hs1 : MemoryOk s1 := .landEarlier hs
  split
  · exact .ite (.wordWait hs1) (.seqNow hs1)
  · exact .ite (.seqDone hs1) (.ite (.wordWait hs1) (.wordWait (.setAct (.upd hs1))))

theorem ResultOk.execSend {k sc} (hs : MemoryOk s) : ResultOk (execSend k sc s) := by
  unfold Machine.execSend
  extract_lets a
  split
  · exact .illegalWord hs
  · split
    · exact .ite (.streamDone hs) (.illegalWord hs)
    · exact .streamDone hs

/-! ## Machine/Skiver -/

theorem MemoryOk.skiverRead {l} (hs : MemoryOk s) : MemoryOk (s.skiverRead l).1 := by
  unfold State.skiverRead
  split
  next s1 _ e =>
    have hs1 : MemoryOk s1 := .of_fst e (.resolve hs)
    split
    · split
      · exact .keep (.logPoison (.keep (.correct hs1)))
      · exact .correct hs1
    · exact .readTarget hs1

theorem MemoryOk.writeParts {ps v a} (hs : MemoryOk s) : MemoryOk (s.writeParts ps v a).1 := by
  induction a generalizing s with
  | nil =>
    rw [State.writeParts]
    exact hs
  | cons x xs ih =>
    rw [State.writeParts]
    split
    · split
      next u e => exact ih (.of_fst e (.writeRowBits hs))
      next u e => exact .of_fst e (.writeRowBits hs)
      next u _ _ _ e => exact .of_fst e (.writeRowBits hs)

theorem MemoryOk.moveElement {t c own q} (hs : MemoryOk s) : MemoryOk (s.moveElement t c own q).1 := by
  unfold State.moveElement
  split
  next s2 _ e => exact .of_fst e (.readBits hs (fun _ _ hs1 => .skiverRead hs1))
  next s2 _ e => exact .writeParts (.of_fst e (.readBits hs (fun _ _ hs1 => .skiverRead hs1)))

theorem MemoryOk.poisonPatch {t c own qs} (hs : MemoryOk s) : MemoryOk (s.poisonPatch t c own qs) := by
  unfold State.poisonPatch
  refine .foldl hs fun u l hu => ?_
  split
  next s1 _ e => exact .poisonRow (.of_fst e (.resolve hu))
  next s1 _ _ e => exact .of_fst e (.resolve hu)

theorem MemoryOk.setConv {ctx rec c} (hs : MemoryOk s) : MemoryOk (s.setConv ctx rec c) := .setContext hs

theorem ResultOk.execSkiverPatch {ctx rec p} (hs : MemoryOk s) : ResultOk (execSkiverPatch ctx rec p s) := by
  unfold Machine.execSkiverPatch
  extract_lets c t own qs k back s0 u
  have hs0 : MemoryOk s0 := .keep hs
  split
  · exact .next hs
  · split
    · exact .next (.keep (.setConv hs0))
    · split
      next s1 _ e => exact .next (.keep (.setConv (.of_fst e (.moveElement hs0))))
      next s1 e => exact .next (.keep (.setConv (.of_fst e (.moveElement hs0))))
      next s1 _ _ e => exact .next (.keep (.logRecord (.setConv (.poisonPatch (.of_fst e (.moveElement hs0))))))

theorem MemoryOk.clearConv {ctx c conv} (hs : MemoryOk s) : MemoryOk (s.clearConv ctx c conv) :=
  .ite (.keep hs) (.ite (.setCoreAt hs) hs)

theorem ResultOk.execConversionComplete {ctx rec} (hs : MemoryOk s) : ResultOk (execConversionComplete ctx rec s) := by
  unfold Machine.execConversionComplete
  extract_lets x c s1 u s2
  have hs1 : MemoryOk s1 := .clearConv hs
  have hs2 : MemoryOk s2 := .setContext hs1
  split
  · exact .next hs
  · split
    · exact .next (.setCoreAt hs2)
    · exact .next (.logRecord hs2)

/-! ## Machine/Vector -/

theorem ResultOk.floatOp {o n lat f} (hs : MemoryOk s) : ResultOk (s.floatOp o n lat f) := by
  unfold State.floatOp
  exact .laneOp hs

theorem ResultOk.wrapOp {o n lat f} (hs : MemoryOk s) : ResultOk (s.wrapOp o n lat f) := by
  unfold State.wrapOp
  exact .laneOp hs

theorem ResultOk.satOp {o n f} (hs : MemoryOk s) : ResultOk (s.satOp o n f) := by
  unfold State.satOp
  exact .laneOp hs

theorem ResultOk.compare {o p} (hs : MemoryOk s) : ResultOk (s.compare o p) := by
  unfold State.compare
  exact .laneTest hs

theorem ResultOk.execVclass {o} (hs : MemoryOk s) : ResultOk (execVclass o s) := by
  unfold Machine.execVclass
  split
  · exact .laneTest hs
  · exact .illegalWord hs

theorem ResultOk.execVsel {o} (hs : MemoryOk s) : ResultOk (execVsel o s) := by
  unfold Machine.execVsel
  exact .regRep hs

theorem ResultOk.permute {o lat reads f} (hs : MemoryOk s) : ResultOk (s.permute o lat reads f) := by
  unfold State.permute
  exact .regRep hs

theorem ResultOk.execVbcst {o} (hs : MemoryOk s) : ResultOk (execVbcst o s) := by
  unfold Machine.execVbcst
  exact .permute hs

theorem ResultOk.execVcvt {o} (hs : MemoryOk s) : ResultOk (execVcvt o s) := by
  unfold Machine.execVcvt
  exact .regRep hs

theorem ResultOk.quantise {o f} (hs : MemoryOk s) : ResultOk (s.quantise o f) := by
  unfold State.quantise
  exact .regRep hs

theorem ResultOk.execVdqbf {o} (hs : MemoryOk s) : ResultOk (execVdqbf o s) := by
  unfold Machine.execVdqbf
  exact .regRep hs

theorem ResultOk.execVrmg {o} (hs : MemoryOk s) : ResultOk (execVrmg o s) := by
  unfold Machine.execVrmg
  exact .permute hs

theorem ResultOk.execVshuf {o} (hs : MemoryOk s) : ResultOk (execVshuf o s) := by
  unfold Machine.execVshuf
  exact .permute hs

theorem ResultOk.execVpart {o} (hs : MemoryOk s) : ResultOk (execVpart o s) := by
  unfold Machine.execVpart
  exact .regRep hs

theorem ResultOk.execVred {o} (hs : MemoryOk s) : ResultOk (execVred o s) := by
  unfold Machine.execVred
  exact .regRep hs

theorem ResultOk.execVscan {o} (hs : MemoryOk s) : ResultOk (execVscan o s) := by
  unfold Machine.execVscan
  exact .regRep hs

theorem ResultOk.execVmcnt {o} (hs : MemoryOk s) : ResultOk (execVmcnt o s) := by
  unfold Machine.execVmcnt
  exact .regRep hs

/-! ## Machine/Banks -/

theorem MemoryOk.relend {ctx n j k} (hs : MemoryOk s) : MemoryOk (s.relend ctx n j k) :=
  .setCoreAt (.setCoreAt (.setQuad hs))

theorem OptionOk.renewLoans {ctx n} (hs : MemoryOk s) : OptionOk (s.renewLoans ctx n) := by
  unfold State.renewLoans
  extract_lets c s1
  have hs1 : MemoryOk s1 := by
    unfold s1
    split
    · exact .ite (.relend hs) hs
    · exact hs
  refine .foldl (.some hs1) fun t j ht => ?_
  split
  · exact ht
  next t =>
    have ht1 : MemoryOk t := ht
    exact .ite (.some (.relend ht1)) .none

/-! ## Machine/Sched -/

theorem PlanOk.planCore {n} (hs : MemoryOk s) : PlanOk (s.planCore n) := by
  unfold State.planCore
  split
  · exact .did (.execBankClaim hs)
  · split
    next t e =>
      have ht : MemoryOk t := e.subst (motive := ReadyOk) (.readyCore hs)
      exact .stop (.ite (.yieldCore ht) ht)
    next t e =>
      have ht : MemoryOk t := e.subst (motive := ReadyOk) (.readyCore hs)
      split
      · exact .did (.execBankClaim hs)
      · exact .core ht

theorem PlanOk.planWord {n i} {t : State} (hs : MemoryOk s) (ht : MemoryOk t) : PlanOk (s.planWord n i t) := by
  unfold State.planWord
  split
  · exact .did (.execBankClaim hs)
  · split
    · split
      next t1 e =>
        have ht1 : MemoryOk t1 := e.subst (motive := OptionOk) (.renewLoans ht)
        exact .engine ht1
      · exact .stop hs
    · exact .engine ht

theorem PlanOk.planEngine {n e} (hs : MemoryOk s) : PlanOk (s.planEngine n e) := by
  unfold State.planEngine
  split
  · exact .did (.execBankClaim hs)
  · split
    next t e1 => exact .planWord hs (.of_snd e1 (.readyEngine hs))
    next t e1 => exact .stop (.of_snd e1 (.readyEngine hs))

theorem PlanOk.planTurn {a} (hs : MemoryOk s) : PlanOk (s.planTurn a) := by
  unfold State.planTurn
  split
  · exact .planCore hs
  · exact .planEngine hs
  · split
    · exact .event hs
    · exact .refuse
  · exact .stop (.advance hs)
  · exact .stop (.keep hs)
  · split
    next t e =>
      have ht : MemoryOk t := e.subst (motive := OptionOk) (.actor hs)
      exact .stop (.upd ht)
    · exact .stop hs
  · exact .stop (.keep hs)
  · exact .stop (.keep hs)

theorem ResultOk.nextRow {n} (hs : MemoryOk s) : ResultOk (nextRow n s) := by
  unfold Machine.nextRow
  split
  · exact .next hs
  · extract_lets k
    split
    · exact .execRowTransfer hs
    · exact .next hs

theorem ResultOk.restoreNext (hs : MemoryOk s) : ResultOk (restoreNext s) := by
  unfold Machine.restoreNext
  split
  · exact .execSegmentRestore hs
  · exact .next hs

theorem ResultOk.patchNext {ctx rec} (hs : MemoryOk s) : ResultOk (patchNext ctx rec s) := by
  unfold Machine.patchNext
  extract_lets c
  split
  · exact .execSkiverPatch hs
  · exact .execConversionComplete hs

theorem MemoryOk.settled (hs : MemoryOk s) : MemoryOk s.settled := .retryClaims (.settleLeases hs)

theorem MemoryOk.pay {before after : State} {i} (hafter : MemoryOk after) : MemoryOk (before.pay after i) :=
  .ite (.yieldCore (.advance hafter)) (.advance hafter)

/-! ## The dispatch

An arm that is a short use of an operation cites it; the others cite the lemma of their own function. -/

theorem ResultOk.exec {i} (hs : MemoryOk s) : ResultOk (exec i s) := by
  cases i with
  | add | sub | and | or | xor | andn | sll | srl | sra | rol | mul | mulh | mulhn | div | divn | rem | remn | min | max
    | minn | maxn | slt | sltn | seq | sel | addw | subw | mulw | shadd =>
    dsimp only [Machine.exec]
    exact .opr hs
  | clz | ctz | pop | addi | andi | ori | xori | slti | sltin | slli | srli | srai | roli | muli =>
    dsimp only [Machine.exec]
    exact .opu hs
  | sext | zext | bfx | bfxS | bfi =>
    dsimp only [Machine.exec]
    exact .ite (.opu hs) (.illegal hs)
  | lui | savl | hqry | fpeek | cvq | tdrd | mcntLo | mcntHi | li | lih =>
    dsimp only [Machine.exec]
    exact .writeReg hs
  | jalr | jal =>
    dsimp only [Machine.exec]
    exact .branch (.upd hs)
  | beq | bne | blt | bge | bltn | bgen =>
    dsimp only [Machine.exec]
    exact .branchIf hs
  | bmskAny | bmskNone | bmskAll =>
    dsimp only [Machine.exec]
    exact .branchMask hs
  | loop =>
    dsimp only [Machine.exec]
    exact .ite (.illegal hs) (.branch (.upd hs))
  | ldW | ldD =>
    dsimp only [Machine.exec]
    exact .load hs
  | stW | stD | tdst | wkst =>
    dsimp only [Machine.exec]
    exact .store hs
  | srdW | srdD =>
    dsimp only [Machine.exec]
    exact .streamRead hs
  | nop =>
    dsimp only [Machine.exec]
    exact .done hs
  | seam =>
    dsimp only [Machine.exec]
    exact .fence hs
  | fenceSc | fenceAcq | fenceRel =>
    dsimp only [Machine.exec]
    exact .ite (.illegal hs) (.fence hs)
  | trap =>
    dsimp only [Machine.exec]
    exact .next (.takeTrap hs)
  | ertn =>
    dsimp only [Machine.exec]
    exact .ite (.next (.returnTrap hs)) (.illegal hs)
  | brk =>
    dsimp only [Machine.exec]
    exact .trap hs
  | yield =>
    dsimp only [Machine.exec]
    exact .next (.yieldCore (.upd hs))
  | texit =>
    dsimp only [Machine.exec]
    exact .ite (.wait hs) (.next (.exitTask (.ite (.logTrap hs) hs)))
  | wfe | icinv =>
    dsimp only [Machine.exec]
    exact .ite (.next (.upd hs)) (.wait hs)
  | modeExposed | modeInterlock =>
    dsimp only [Machine.exec]
    exact .crossMode hs
  | trnR | trnRw =>
    dsimp only [Machine.exec]
    exact .translateInto hs
  | vbind =>
    dsimp only [Machine.exec]
    exact .ite (.illegal hs) (.ite (.trap hs) (.next (.upd hs)))
  | hinv =>
    dsimp only [Machine.exec]
    exact .next (.upd hs)
  | pgreq =>
    dsimp only [Machine.exec]
    exact .execPgreq hs
  | hmov =>
    dsimp only [Machine.exec]
    exact .ite (.illegal hs) (.next (.upd hs))
  | fsig =>
    dsimp only [Machine.exec]
    exact .execFsig hs
  | fsigQuad =>
    dsimp only [Machine.exec]
    exact .execFsigQuad hs
  | fwait =>
    dsimp only [Machine.exec]
    exact .execFwait hs
  | rigw =>
    dsimp only [Machine.exec]
    exact .ite (.next (.upd hs)) (.illegal hs)
  | bar =>
    dsimp only [Machine.exec]
    exact .execBar hs
  | bara =>
    dsimp only [Machine.exec]
    exact .execBara hs
  | barw =>
    dsimp only [Machine.exec]
    exact .execBarw hs
  | bwait =>
    dsimp only [Machine.exec]
    exact .ite (.illegal hs) (.ite (.done (.noteWait hs)) (.wait hs))
  | rdvz =>
    dsimp only [Machine.exec]
    exact .ite (.done (.noteWait hs)) (.wait hs)
  | csrr | engstRead =>
    dsimp only [Machine.exec]
    exact .csrRead hs
  | csrw | csrs | csrc =>
    dsimp only [Machine.exec]
    exact .csrModify hs
  | xstatWrite | wmWrite =>
    dsimp only [Machine.exec]
    exact .ite (.csrRead hs) (.csrModify hs)
  | residAccess =>
    dsimp only [Machine.exec]
    exact .execResidAccess hs
  | tcrd =>
    dsimp only [Machine.exec]
    exact .execTcrd hs
  | rlay =>
    dsimp only [Machine.exec]
    exact .execRlay hs
  | tdld =>
    dsimp only [Machine.exec]
    exact .execTdld hs
  | tdwr =>
    dsimp only [Machine.exec]
    exact .putTensor hs
  | wkld =>
    dsimp only [Machine.exec]
    exact .execWkld hs
  | guardW | guardD =>
    dsimp only [Machine.exec]
    exact .guard hs
  | dlaunch =>
    dsimp only [Machine.exec]
    exact .execDlaunch hs
  | mmov | mset | mlog =>
    dsimp only [Machine.exec]
    exact .writeMask hs
  | mcntE | mcntFfs =>
    dsimp only [Machine.exec]
    exact .ite (.writeReg hs) (.illegal hs)
  | fork =>
    dsimp only [Machine.exec]
    exact .execFork hs
  | enqs =>
    dsimp only [Machine.exec]
    exact .execEnqs hs
  | renq =>
    dsimp only [Machine.exec]
    exact .execRenq hs
  | faa | faab | fao | cas | swp | amin | amax | aminn | amaxn | aor | aand =>
    dsimp only [Machine.exec]
    exact .atomic hs
  | issue =>
    dsimp only [Machine.exec]
    exact .insert hs
  | vadd | vsub | vmul | vfma | vfms | vfnm | vmin | vmax | vabs | vneg | vrcp | vrsq | vsqrt | vexp2 | vlog2 | vtanh =>
    dsimp only [Machine.exec]
    exact .floatOp hs
  | viadd | visub | vimul | vimulh | vimin | vimax | vimac =>
    dsimp only [Machine.exec]
    exact .wrapOp hs
  | vshl | vshr | vsra | vand | vor | vxor | vmov =>
    dsimp only [Machine.exec]
    exact .laneOp hs
  | vsadd | vssub | viabs =>
    dsimp only [Machine.exec]
    exact .satOp hs
  | vceq | vcne | vclt | vcle | vcun =>
    dsimp only [Machine.exec]
    exact .compare hs
  | vsel =>
    dsimp only [Machine.exec]
    exact .execVsel hs
  | vcvt =>
    dsimp only [Machine.exec]
    exact .execVcvt hs
  | vqbf | vqaf =>
    dsimp only [Machine.exec]
    exact .quantise hs
  | vdqbf =>
    dsimp only [Machine.exec]
    exact .execVdqbf hs
  | vbcst =>
    dsimp only [Machine.exec]
    exact .execVbcst hs
  | vld =>
    dsimp only [Machine.exec]
    exact .execVld hs
  | vst =>
    dsimp only [Machine.exec]
    exact .execVst hs
  | vgath =>
    dsimp only [Machine.exec]
    exact .execVgath hs
  | vscat =>
    dsimp only [Machine.exec]
    exact .execVscat hs
  | vrmg =>
    dsimp only [Machine.exec]
    exact .execVrmg hs
  | vshuf =>
    dsimp only [Machine.exec]
    exact .execVshuf hs
  | vpart =>
    dsimp only [Machine.exec]
    exact .execVpart hs
  | vpop =>
    dsimp only [Machine.exec]
    exact .execVpop hs
  | vpush =>
    dsimp only [Machine.exec]
    exact .execVpush hs
  | vred =>
    dsimp only [Machine.exec]
    exact .execVred hs
  | vscan =>
    dsimp only [Machine.exec]
    exact .execVscan hs
  | viota =>
    dsimp only [Machine.exec]
    exact .permute hs
  | vmcnt =>
    dsimp only [Machine.exec]
    exact .execVmcnt hs
  | vmlog =>
    dsimp only [Machine.exec]
    exact .regRep hs
  | vacc =>
    dsimp only [Machine.exec]
    exact .execVacc hs
  | vclass =>
    dsimp only [Machine.exec]
    exact .execVclass hs
  | mma =>
    dsimp only [Machine.exec]
    exact .execMma hs
  | mzero =>
    dsimp only [Machine.exec]
    exact .ite (.matrixFault hs) (.ite (.wordWait hs) (.endRep (.pushSnap hs)))
  | mdrn =>
    dsimp only [Machine.exec]
    exact .execMdrn hs
  | mlease =>
    dsimp only [Machine.exec]
    exact .ite (.wordWait hs) (.endRep (.upd hs))
  | mcommit =>
    dsimp only [Machine.exec]
    exact .ite (.endRep hs) (.ite (.wordWait hs) (.endRep (.upd hs)))
  | mlend =>
    dsimp only [Machine.exec]
    exact .execMlend hs
  | mrecl =>
    dsimp only [Machine.exec]
    exact .execMrecl hs
  | mldacc =>
    dsimp only [Machine.exec]
    exact .execMldacc hs
  | ccpy | ccvt | cxpd | cfilb | cgath | cscat | cred | cmcst | cscl | czero =>
    dsimp only [Machine.exec]
    exact .copyWord hs
  | cdsp =>
    dsimp only [Machine.exec]
    exact .execCdsp hs
  | cbindOff | cbindStream =>
    dsimp only [Machine.exec]
    exact .ite (.wordWait hs) (.channelDone hs)
  | cbindRange =>
    dsimp only [Machine.exec]
    exact .execCbindRange hs
  | cwmk =>
    dsimp only [Machine.exec]
    exact .ite (.illegalWord hs) (.channelDone hs)
  | snop =>
    dsimp only [Machine.exec]
    exact .wordDone hs
  | swait =>
    dsimp only [Machine.exec]
    exact .execSwait hs
  | ssig =>
    dsimp only [Machine.exec]
    exact .execSsig hs
  | sloop =>
    dsimp only [Machine.exec]
    exact .execSloop hs
  | sendl =>
    dsimp only [Machine.exec]
    exact .execSendl hs
  | spho =>
    dsimp only [Machine.exec]
    exact .execSpho hs
  | sphc =>
    dsimp only [Machine.exec]
    exact .execSphc hs
  | sacq =>
    dsimp only [Machine.exec]
    exact .seqDone hs
  | srel =>
    dsimp only [Machine.exec]
    exact .ite (.seqNow (.landEarlier hs)) (.wordWait (.landEarlier hs))
  | smodeExposed | smodeInterlock =>
    dsimp only [Machine.exec]
    exact .crossEngine hs
  | send =>
    dsimp only [Machine.exec]
    exact .execSend hs
  | entryWaitSatisfied =>
    dsimp only [Machine.exec]
    exact .execEntryWaitSatisfied hs
  | blockEntry =>
    dsimp only [Machine.exec]
    exact .execBlockEntry hs
  | nullEntry =>
    dsimp only [Machine.exec]
    exact .execNullEntry hs
  | programRowFetch =>
    dsimp only [Machine.exec]
    exact .execProgramRowFetch hs
  | engineFault =>
    dsimp only [Machine.exec]
    exact .execEngineFault hs
  | entryComplete =>
    dsimp only [Machine.exec]
    exact .execEntryComplete hs
  | saddlebagReturn =>
    dsimp only [Machine.exec]
    exact .execSaddlebagReturn hs
  | modeCrossing =>
    dsimp only [Machine.exec]
    exact .execModeCrossing hs
  | leaseGrant =>
    dsimp only [Machine.exec]
    exact .execLeaseGrant hs
  | lstallPass =>
    dsimp only [Machine.exec]
    exact .execLstallPass hs
  | loadReturn =>
    dsimp only [Machine.exec]
    exact .execLoadReturn hs
  | storePerform =>
    dsimp only [Machine.exec]
    exact .execStorePerform hs
  | handleResolve =>
    dsimp only [Machine.exec]
    exact .execHandleResolve hs
  | vectorLoadReturn =>
    dsimp only [Machine.exec]
    exact .execVectorLoadReturn hs
  | rowTransfer =>
    dsimp only [Machine.exec]
    exact .execRowTransfer hs
  | faoGrant =>
    dsimp only [Machine.exec]
    exact .execFaoGrant hs
  | barrierGenerationComplete =>
    dsimp only [Machine.exec]
    exact .execBarrierGenerationComplete hs
  | quotaStall =>
    dsimp only [Machine.exec]
    exact .execQuotaStall hs
  | trapDelivery =>
    dsimp only [Machine.exec]
    exact .execTrapDelivery hs
  | taskBind =>
    dsimp only [Machine.exec]
    exact .execTaskBind hs
  | taskStart =>
    dsimp only [Machine.exec]
    exact .execTaskStart hs
  | taskRetire =>
    dsimp only [Machine.exec]
    exact .execTaskRetire hs
  | launchAdmit =>
    dsimp only [Machine.exec]
    exact .execLaunchAdmit hs
  | launchStart =>
    dsimp only [Machine.exec]
    exact .execLaunchStart hs
  | launchRetire =>
    dsimp only [Machine.exec]
    exact .execLaunchRetire hs
  | burnish =>
    dsimp only [Machine.exec]
    exact .execBurnish hs
  | nopPacket =>
    dsimp only [Machine.exec]
    exact .packetStep hs (fun _ _ ht1 => .completePacket ht1)
  | oprec =>
    dsimp only [Machine.exec]
    exact .execOprec hs
  | graph =>
    dsimp only [Machine.exec]
    exact .execGraph hs
  | write =>
    dsimp only [Machine.exec]
    exact .execWrite hs
  | signal =>
    dsimp only [Machine.exec]
    exact .execSignal hs
  | wait =>
    dsimp only [Machine.exec]
    exact .execWait hs
  | wrsig =>
    dsimp only [Machine.exec]
    exact .execWrsig hs
  | copy =>
    dsimp only [Machine.exec]
    exact .execCopy hs
  | timestamp =>
    dsimp only [Machine.exec]
    exact .execTimestamp hs
  | fence =>
    dsimp only [Machine.exec]
    exact .packetStep hs (fun _ _ ht1 => .ite ht1 (.completePacket ht1))
  | packetComplete =>
    dsimp only [Machine.exec]
    exact .execPacketComplete hs
  | qpollRotation =>
    dsimp only [Machine.exec]
    exact .execQpollRotation hs
  | ageLimit =>
    dsimp only [Machine.exec]
    exact .ite (.next (.setPqueue hs)) (.next hs)
  | qslice =>
    dsimp only [Machine.exec]
    exact .ite (.next (.setContext hs)) (.next hs)
  | coreslice =>
    dsimp only [Machine.exec]
    exact .execCoreslice hs
  | preemption =>
    dsimp only [Machine.exec]
    exact .execPreemption hs
  | bankClaim =>
    dsimp only [Machine.exec]
    exact .execBankClaim hs
  | forcedSpill =>
    dsimp only [Machine.exec]
    exact .execForcedSpill hs
  | segmentSave =>
    dsimp only [Machine.exec]
    exact .execSegmentSave hs
  | segmentRestore =>
    dsimp only [Machine.exec]
    exact .execSegmentRestore hs
  | dynamicStep =>
    dsimp only [Machine.exec]
    exact .execDynamicStep hs
  | replay =>
    dsimp only [Machine.exec]
    exact .execReplay hs
  | refinement =>
    dsimp only [Machine.exec]
    exact .execRefinement hs
  | versionNotice =>
    dsimp only [Machine.exec]
    exact .execVersionNotice hs
  | versionLate =>
    dsimp only [Machine.exec]
    exact .execVersionLate hs
  | skiverPatch =>
    dsimp only [Machine.exec]
    exact .execSkiverPatch hs
  | conversionComplete =>
    dsimp only [Machine.exec]
    exact .execConversionComplete hs
  | contributionArrive =>
    dsimp only [Machine.exec]
    exact .execContributionArrive hs
  | contributionRetry =>
    dsimp only [Machine.exec]
    exact .execContributionRetry hs
  | pageReply =>
    dsimp only [Machine.exec]
    exact .execPageReply hs
  | tableWalk =>
    dsimp only [Machine.exec]
    exact .execTableWalk hs
  | sweep =>
    dsimp only [Machine.exec]
    exact .execSweep hs
  | scrub =>
    dsimp only [Machine.exec]
    exact .execScrub hs
  | shoot =>
    dsimp only [Machine.exec]
    exact .command hs (fun _ _ ht1 => .shootOut ht1)
  | harvest =>
    dsimp only [Machine.exec]
    exact .execHarvest hs
  | stop =>
    dsimp only [Machine.exec]
    exact .execStop hs
  | image =>
    dsimp only [Machine.exec]
    exact .execImage hs
  | resume =>
    dsimp only [Machine.exec]
    exact .execResume hs
  | destroy =>
    dsimp only [Machine.exec]
    exact .execDestroy hs
  | commandCompletion =>
    dsimp only [Machine.exec]
    exact .execCommandCompletion hs
  | queueEnable =>
    dsimp only [Machine.exec]
    exact .execQueueEnable hs
  | contextRecordEnable =>
    dsimp only [Machine.exec]
    exact .execContextRecordEnable hs
  | journalClear =>
    dsimp only [Machine.exec]
    exact .next (.keep hs)
  | bar0Write =>
    dsimp only [Machine.exec]
    exact .execBar0Write hs
  | hostBar2Access =>
    dsimp only [Machine.exec]
    exact .execHostBar2Access hs
  | debugStop =>
    dsimp only [Machine.exec]
    exact .next (.debugStop hs)
  | breakpointMatch =>
    dsimp only [Machine.exec]
    exact .execBreakpointMatch hs
  | headClassSample =>
    dsimp only [Machine.exec]
    exact .execHeadClassSample hs
  | bankConflictSample =>
    dsimp only [Machine.exec]
    exact .execBankConflictSample hs
  | ptpAdjustment =>
    dsimp only [Machine.exec]
    exact .ite (.next hs) (.next (.trace (.keep hs)))
  | dieFence =>
    dsimp only [Machine.exec]
    exact .execDieFence hs
  | channelRetirement =>
    dsimp only [Machine.exec]
    exact .ite (.next hs) (.ite (.next (.keep hs)) (.next (.journalize hs)))
  | liveUpdate =>
    dsimp only [Machine.exec]
    exact .execLiveUpdate hs
  | bootStep =>
    dsimp only [Machine.exec]
    exact .execBootStep hs
  | clockStep =>
    dsimp only [Machine.exec]
    exact .ite (.next (.setClock hs)) (.next hs)
  | throttle =>
    dsimp only [Machine.exec]
    exact .execThrottle hs
  | shutdown =>
    dsimp only [Machine.exec]
    exact .ite (.next (.keep (.journalize hs))) (.next hs)
  | flitReceive =>
    dsimp only [Machine.exec]
    exact .ite (.next hs) (.ite (.next (.setPort hs)) (.next (.setPort hs)))
  | laneRemoval | linkUp =>
    dsimp only [Machine.exec]
    exact .ite (.next hs) (.next (.setPort hs))
  | remoteRequest =>
    dsimp only [Machine.exec]
    exact .execRemoteRequest hs
  | remoteResponse =>
    dsimp only [Machine.exec]
    exact .execRemoteResponse hs
  | remoteTimeout =>
    dsimp only [Machine.exec]
    exact .execRemoteTimeout hs
  | podBarrierArrival =>
    dsimp only [Machine.exec]
    exact .execPodBarrierArrival hs
  | packageFence | fenceNotice =>
    dsimp only [Machine.exec]
    exact .ite (.next (.fencePackage hs)) (.next hs)
  | ptpMessage =>
    dsimp only [Machine.exec]
    exact .execPtpMessage hs
  | powerUp =>
    dsimp only [Machine.exec]
    exact .execPowerUp hs
  | packageReset =>
    dsimp only [Machine.exec]
    exact .execPackageReset hs
  | doubleError =>
    dsimp only [Machine.exec]
    exact .ite (.next (.keep hs)) (.next (.keep hs))
  | gangBuild | syncInterval =>
    dsimp only [Machine.exec]
    exact .ite (.next hs) (.next (.keep hs))
  | mldaccRowArrival =>
    dsimp only [Machine.exec]
    exact .execMldaccRowArrival hs

/-! ## The turns of the model's own order -/

/-- Each of the turns keeps memory canonical. -/
def ActsOk (l : List Act) : Prop := ∀ a ∈ l, ∀ t, MemoryOk t → PlanOk (a t)

theorem ActsOk.nil : ActsOk [] := fun _ ha => nomatch ha

theorem ActsOk.cons {a : Act} {l : List Act} (ha : ∀ {t}, MemoryOk t → PlanOk (a t)) (hl : ActsOk l) : ActsOk (a :: l) :=
  List.forall_mem_cons.mpr ⟨fun _ => ha, hl⟩

theorem ActsOk.append {l k : List Act} (hl : ActsOk l) (hk : ActsOk k) : ActsOk (l ++ k) :=
  List.forall_mem_append.mpr ⟨hl, hk⟩

theorem ActsOk.ite {c : Prop} [Decidable c] {l k : List Act} (hl : ActsOk l) (hk : ActsOk k) :
    ActsOk (if c then l else k) := by
  split
  · exact hl
  · exact hk

theorem ActsOk.map {α : Type} {l : List α} {f : α → Act} (hf : ∀ {x t}, MemoryOk t → PlanOk (f x t)) : ActsOk (l.map f) :=
  List.forall_mem_map.mpr fun _ _ _ => hf

theorem ActsOk.flatMap {α : Type} {l : List α} {f : α → List Act} (hf : ∀ {x}, ActsOk (f x)) : ActsOk (l.flatMap f) :=
  List.forall_mem_flatMap.mpr fun _ _ => hf

/-- A list that begins with a step without an encoding. -/
theorem ActsOk.evt {f : State → Result} {l : List Act} (hf : ∀ {t}, MemoryOk t → ResultOk (f t)) (hl : ActsOk l) :
    ActsOk (evt f :: l) :=
  .cons (fun ht => .did (hf ht)) hl

/-- A list of one step without an encoding for each of some places. -/
theorem ActsOk.evts {α : Type} {l : List α} {f : α → State → Result} (hf : ∀ {x t}, MemoryOk t → ResultOk (f x t)) :
    ActsOk (l.map fun x => Machine.evt (f x)) :=
  .map fun ht => .did (hf ht)

theorem PlanOk.getD {l : List Act} {k : Nat} {d : Act} (hl : ActsOk l) (hd : PlanOk (d s)) (hs : MemoryOk s) :
    PlanOk (l.getD k d s) := by
  rcases Nat.lt_or_ge k l.length with hk | hk
  · rw [List.getD_eq_getElem _ _ hk]
    exact hl _ (List.getElem_mem hk) s hs
  · rwa [List.getD_eq_default _ _ hk]

theorem ActsOk.coreActs {n} : ActsOk (coreActs n) :=
  ActsOk.cons .planCore .nil
    |>.append (.map .planEngine)
    |>.append (.evt .execStorePerform (.evt .execLoadReturn .nil))
    |>.append (.evts .execHandleResolve)
    |>.append (.evt .execVectorLoadReturn (.evt .execMldaccRowArrival (.evt .nextRow .nil)))
    |>.append (.evts .execEntryComplete)
    |>.append (.evts .execSaddlebagReturn)
    |>.append (.evt .execModeCrossing <| .evt .execQuotaStall <| .evt .execTrapDelivery <| .evt .execFaoGrant <|
      .evt .execTaskRetire <| .evt .execTaskStart <| .evt .execTaskBind <| .evt .execCoreslice .nil)
    |>.append (.evts .execBreakpointMatch)
    |>.append (.evts .execHeadClassSample)

theorem ActsOk.launchActs {l x} : ActsOk (launchActs l x) :=
  .ite .nil ((ActsOk.evt .execLaunchAdmit .nil).append (.evts .execLaunchStart)
    |>.append (.evt .execBurnish (.evt .execLaunchRetire .nil)))

theorem ActsOk.queueActs {q} : ActsOk (queueActs q) :=
  .evt (.packetStep · fun _ _ ht => .completePacket ht) <| .evt .execOprec <| .evt .execGraph <| .evt .execWrite <|
    .evt .execSignal <| .evt .execWait <| .evt .execWrsig <| .evt .execCopy <| .evt .execTimestamp <|
    .evt (.packetStep · fun _ _ ht => .ite ht (.completePacket ht)) <| .evt .execPacketComplete <|
    .evt (fun hs => .ite (.next (.setPqueue hs)) (.next hs)) .nil

theorem ActsOk.ctxActs {ctx x} : ActsOk (ctxActs ctx x) :=
  (ActsOk.evt (fun hs => .ite (.next (.setContext hs)) (.next hs)) (.evt .execPreemption (.evt .execSweep .nil))).append
    (.evts .patchNext)

theorem ActsOk.autoActs : ActsOk s.autoActs :=
  ActsOk.flatMap .coreActs
    |>.append (.flatMap (.evt .execLeaseGrant (.evt .execLstallPass .nil)))
    |>.append (.evts .execBarrierGenerationComplete)
    |>.append (.flatMap (.evt .execContributionArrive (.evt .execContributionRetry .nil)))
    |>.append (.flatMap .launchActs)
    |>.append (.flatMap .queueActs)
    |>.append (.flatMap (.evt .execDynamicStep (.evt .execReplay (.evt .execVersionLate .nil))))
    |>.append (.flatMap .ctxActs)
    |>.append (.evts .execContextRecordEnable)
    |>.append (.evts .execQueueEnable)
    |>.append (.evts .execSegmentSave)
    |>.append (.evt .restoreNext .nil)
    |>.append (.ite (.evt (.command · fun _ _ ht => .shootOut ht) <| .evt .execHarvest <| .evt .execStop <|
      .evt .execImage <| .evt .execResume <| .evt .execDestroy <| .evt .execCommandCompletion .nil) .nil)
    |>.append (.ite (.evt .rotateNext .nil) .nil)
    |>.append (.ite (.evt .execScrub .nil) .nil)
    |>.append (.evts .execBankConflictSample)
    |>.append (.evts .execRemoteTimeout)
    |>.append (.cons (fun ht => .stop (.advance ht)) .nil)

/-! ## One step -/

theorem PlanOk.plan (hs : MemoryOk s) : PlanOk s.plan := by
  unfold State.plan
  extract_lets u
  have hu : MemoryOk u := .settled hs
  clear_value u
  split
  · exact .planTurn (.keep hu)
  · next l _ _ =>
      have hl : ActsOk l := ActsOk.autoActs (s := u)
      clear_value l
      refine .getD hl ?_ (.keep hu)
      exact .stop (.advance (.keep hu))

theorem ResultOk.perform {p : Plan} (hp : PlanOk p) : ResultOk (perform p) := by
  cases p with
  | core i t =>
    have hr : ResultOk (Machine.exec i t) := .exec hp
    dsimp only [Machine.perform]
    split
    · next u e => exact .next (.pay (e.subst (motive := ResultOk) hr))
    · exact hr
  | engine i t => exact .exec hp
  | event i t => exact .exec hp
  | stop t => exact .next hp
  | did r => exact hp
  | refuse => exact .refused

theorem ResultOk.step (hs : MemoryOk s) : ResultOk (step s) := by
  unfold Machine.step
  split
  · split
    · exact .exec (.keep hs)
    · exact .fault
  · exact .perform (.plan hs)

end Sys2Proof.Safety

namespace Sys2Proof.Claims
open Sys2Proof.Machine Sys2Proof.Safety

/-- Settles O60: every function that a step runs through keeps the three lists of bytes in canonical form, since it either
leaves them as they are or changes them with an operation of the sparse maps. -/
theorem memoryStaysCanonical : Obligations.MemoryStaysCanonical := by
  unfold Obligations.MemoryStaysCanonical
  intro s t hs hstep
  exact hstep.subst (motive := ResultOk) (.step hs)

end Sys2Proof.Claims
